-- ==== Sys2Proof/Word.lean ====
section
/-! DEFINITION. The word types of the model. -/
namespace Sys2Proof

/-- One byte. Multi-byte fields are little-endian (R6). -/
abbrev Byte := BitVec 8

/-- A byte string: an object carried byte for byte (R6). -/
abbrev Bytes := List Byte

end Sys2Proof
end

