-- ==== Sys2Proof/Syntax.lean ====
section
/-! DEFINITION. The commands of the CQX-18 as the block takes them from outside: one constructor of Instr for each
row of spec/opcode_table.json, with the operands the row's rule names. The types before it are the operands' own. -/
namespace Sys2Proof

/-- Which descriptor a job command acts on: a descriptor is named by its queue and its free-running ring position
(R66, `src` 0); a job that a Prokai Link peer sent is named by the link it came over (R438, R441; `src` = link + 1)
and its number on that link. -/
structure JobId where
  src   : BitVec 2
  queue : BitVec 12
  pos   : BitVec 32
  deriving DecidableEq, Repr

/-- How one access to host memory ends: R72 and R96 name the three failures. -/
inductive Access where
  | ok
  | readFails
  | writeFails
  | translationFails
  deriving DecidableEq, Repr

/-- PC_CMD START of a channel (R88), with how the read of its registered program ends (R96). -/
structure StartCmd where
  channel : BitVec 6
  access  : Access
  deriving DecidableEq, Repr

/-- An invalidation request (R57): its tag, the PASID, and the pages it names. -/
structure AtsRange where
  tag   : BitVec 5
  pasid : BitVec 20
  first : BitVec 53
  count : BitVec 53
  deriving DecidableEq, Repr

/-- What kept the part from its rings (R67). -/
inductive RingCause where
  | ringRead
  | ringTimeout
  | ringTranslation
  | cplTranslation
  deriving DecidableEq, Repr

/-- How the write of a completion record ends: visible, or lost to another failure of the write (R67, last paragraph);
a failed translation of the completion ring is `RingCause.cplTranslation`. -/
inductive RecordWrite where
  | visible
  | lost
  | translationFails
  deriving DecidableEq, Repr

/-- What failed in a running job's host memory access (R72). -/
inductive DmaCause where
  | read
  | write
  | translation
  deriving DecidableEq, Repr

/-- Where the host reads and writes: the three memory windows of R55; the Message Control word of the MSI-X capability in
configuration space, which has no offset in the spec (R53, R56); and configuration space itself. -/
inductive Window where
  | control
  | doorbell
  | crate
  | msixControl
  | config
  deriving DecidableEq, Repr

/-- The alarm sources, in the order of the table of R380 (the index of ALM_SRC). -/
inductive AlarmSource where
  | vgCore | vgSram | vgIo | vgSerdes | vgNv | vbatLow | temp | light | mesh
  | loop0 | loop1 | loop2 | loop3 | lid | dualRail | storeEcc | hallCopy | dataEcc
  | engineFcm | vaultIntegrity | rngMain | rngMask | decision | lcDecode
  deriving DecidableEq, Repr

/-- What a detector reports when it trips: the measured, threshold and tracked values and the unit of the Evidence
DETAIL layout (R394), and what comparator A decides at the time, with `agreesA` false for a comparator that does not
call for the response (R388). -/
structure TripReading where
  measured  : BitVec 16
  threshold : BitVec 16
  tracked   : BitVec 16
  unit      : BitVec 8
  agreesA   : Bool
  deriving DecidableEq, Repr

/-- The readings whose windows R384 names: the rails in the order of ALM_RAIL (R396), and Tj. -/
inductive Monitor where
  | vcore | vsram | vddio | serdesL | serdesH | nvL | nvH | vbat | tj
  deriving DecidableEq, Repr

/-- One sample of the battery domain (R390): the mesh, each loop, VBAT in mV and Tj in quarter degrees. -/
structure BatteryReading where
  meshFault : Bool
  loops     : BitVec 4
  vbatMv    : BitVec 12
  tj        : BitVec 12
  agreesB   : Bool
  deriving DecidableEq, Repr

/-- The unit in which a dual-rail pair held both rails high (R392). -/
inductive FaultUnit where
  | tile (t : BitVec 6)
  | engine (e : BitVec 3)
  | hall (addr : BitVec 14)
  | aisle (j : JobId)
  | vault (j : JobId)
  deriving DecidableEq, Repr

/-- Where an uncorrectable error of a data pool lies (R392), or a corrected single-bit one. -/
inductive DataPlace where
  | context (c : BitVec 14)
  | slot (n : BitVec 13)
  | crate (n : BitVec 11)
  | frame (n : BitVec 16)
  | workbench (j : JobId)
  | shelf (t : BitVec 6)
  | corrected
  deriving DecidableEq, Repr

/-- An AVSBus response (R451): the slave's acknowledge and CRC, and the voltage read back in mV, with whether a
read-back mismatch has lasted 100 µs. -/
structure AvsResponse where
  good     : Bool
  readback : BitVec 12
  lasted   : Bool
  deriving DecidableEq, Repr

/-- What stands outside the part at a release of internal reset, and what its self-tests find (R457, R458, R473): the tests that
each bean trips in turn (1 RCT, 2 APT; R322), and whether the start runs on to its end or is caught before it. -/
structure StartInput where
  linkId       : BitVec 2
  epochStrap   : Bool
  romOk        : Bool
  decodeAgree  : Bool
  nvOk         : Bool
  storesOk     : Bool
  tilesFail    : BitVec 64
  enginesFail  : BitVec 8
  vaultKatFail : Bool
  beanTrips    : List (BitVec 7 × List (BitVec 2))
  completes    : Bool
  deriving DecidableEq, Repr

/-- Stored bits of a word of a tile store that have turned since the last tick (R126). -/
structure TileError where
  tile : BitVec 6
  addr : BitVec 12
  bits : BitVec 144
  deriving DecidableEq, Repr

/-- Stored bits of a 64-bit unit of patch RAM, or of its eight SECDED check bits, that have turned since the last tick (R133). -/
structure PatchError where
  unit : BitVec 13
  bits : BitVec 72
  deriving DecidableEq, Repr

/-- An archive card as it is found in the socket (R422 to R427). Its socket's SD_WP is high, or rises after so many write commands to the
card; the write commands, counted from its insertion, to which it gives a CRC status token other than 0b010; whether it answers the
commands of R422 and gets ready, what it echoes to CMD8, CCS, its CSD and its SCR; its R1 to ACMD6, and the 64-byte statuses of CMD6 in
modes 0 and 1; and its blocks. -/
structure ArcCard where
  writeProtect : Bool
  wpAfter      : Option Nat
  badTokens    : List Nat
  answers      : Bool
  echo         : BitVec 12
  ccs          : Bool
  csd          : BitVec 128
  scr          : BitVec 64
  acmd6        : BitVec 32
  switch0      : BitVec 512
  switch1      : BitVec 512
  blocks       : List (Nat × List Byte)
  deriving DecidableEq, Repr

/-- The 64-byte descriptor (03_work_queues, Descriptors): its fields in order. -/
structure Desc where
  opcode     : BitVec 16
  flags      : BitVec 16
  tag        : BitVec 32
  contextId  : BitVec 16
  paramSet   : BitVec 16
  keyHandle  : BitVec 32
  inAddr     : BitVec 64
  inLen      : BitVec 32
  outLen     : BitVec 32
  outAddr    : BitVec 64
  auxAddr    : BitVec 64
  auxLen     : BitVec 32
  keyHandle2 : BitVec 32
  param      : BitVec 64
  deriving DecidableEq, Repr

/-- A handshake message of R435, as it arrives: its step, and the fields its step carries (empty where it has none). `inField` and `holds`
are what the part learns of its peer beside them: whether it is in FIELD (R436), and the flows that it still holds of those whose standbys
stand here (R444). -/
structure HandshakeMsg where
  step    : BitVec 2
  linkId  : BitVec 2
  uid     : BitVec 64
  nonce   : List Byte
  xPub    : List Byte
  kem     : List Byte
  certUid : BitVec 64
  certKey : List Byte
  certSig : List Byte
  sig     : List Byte
  inField : Bool
  holds   : List (BitVec 14)
  deriving DecidableEq, Repr

/-- A message of an UP link that is neither a job nor a flow update (R437, R440). -/
inductive LinkMsg where
  | heartbeat
  | load (beats : List (BitVec 32)) (full : Bool)
  deriving DecidableEq, Repr

/-- A queue whose records accumulate under COAL_TIME: a completion queue, or a delivery queue (R75, R309). -/
inductive CoalQueue where
  | queue (q : BitVec 12)
  | delivery (d : BitVec 8)
  deriving DecidableEq, Repr

/-- A message between the home of a flow and the buddy that holds its standby (R443, R444): a standby is asked for by a pitch,
given with the flow's image and prepared key material, or denied; the replay state moved; the record or an entry changed; the
flow was deleted; the standby was deleted. `home` is the flow's context on its home, `n` the message's sequence
number, under which its key records are wrapped (R442). -/
inductive FlowMsg where
  | ask (home : BitVec 14) (pitch : BitVec 8)
  | given (home : BitVec 14) (n : BitVec 32) (image keyA keyB : List Byte)
  | denied (home : BitVec 14)
  | state (home : BitVec 14) (image : List Byte)
  | entries (home : BitVec 14) (n : BitVec 32) (image keyA keyB : List Byte)
  | gone (home : BitVec 14)
  | ended (home : BitVec 14)
  deriving DecidableEq, Repr

/-- What a peer answers for a forwarded or spilled job (R438, R441). -/
structure PeerResult where
  status  : BitVec 16
  detail  : BitVec 16
  result  : BitVec 64
  elapsed : BitVec 32
  output  : List Byte
  deriving DecidableEq, Repr

inductive Instr where
  /-- `MLKEM_KEYGEN` (R169). -/
  | mlkemKeygen (j : JobId)
  /-- `MLKEM_ENCAPS` (R172). -/
  | mlkemEncaps (j : JobId)
  /-- `MLKEM_DECAPS` (R173). -/
  | mlkemDecaps (j : JobId)
  /-- `MLKEM_PUBKEY` (R169). -/
  | mlkemPubkey (j : JobId)
  /-- `MLDSA_KEYGEN` (R175). -/
  | mldsaKeygen (j : JobId)
  /-- `MLDSA_SIGN` (R182). -/
  | mldsaSign (j : JobId)
  /-- `MLDSA_VERIFY` (R181). -/
  | mldsaVerify (j : JobId)
  /-- `MLDSA_PUBKEY` (R175). -/
  | mldsaPubkey (j : JobId)
  /-- `FNDSA_KEYGEN` (R175). -/
  | fndsaKeygen (j : JobId)
  /-- `FNDSA_SIGN` (R179). -/
  | fndsaSign (j : JobId)
  /-- `FNDSA_VERIFY` (R180). -/
  | fndsaVerify (j : JobId)
  /-- `FNDSA_PUBKEY` (R175). -/
  | fndsaPubkey (j : JobId)
  /-- `SLHDSA_KEYGEN` (R193). -/
  | slhdsaKeygen (j : JobId)
  /-- `SLHDSA_SIGN` (R194). -/
  | slhdsaSign (j : JobId)
  /-- `SLHDSA_VERIFY` (R194). -/
  | slhdsaVerify (j : JobId)
  /-- `SLHDSA_PUBKEY` (R193). -/
  | slhdsaPubkey (j : JobId)
  /-- `LMS_KEYGEN` (R199). -/
  | lmsKeygen (j : JobId)
  /-- `LMS_SIGN` (R202). -/
  | lmsSign (j : JobId)
  /-- `LMS_VERIFY` (R199). -/
  | lmsVerify (j : JobId)
  /-- `LMS_PUBKEY` (R199). -/
  | lmsPubkey (j : JobId)
  /-- `XMSS_KEYGEN` (R199). -/
  | xmssKeygen (j : JobId)
  /-- `XMSS_SIGN` (R202). -/
  | xmssSign (j : JobId)
  /-- `XMSS_VERIFY` (R199). -/
  | xmssVerify (j : JobId)
  /-- `XMSS_PUBKEY` (R199). -/
  | xmssPubkey (j : JobId)
  /-- `XMSSMT_KEYGEN` (R199). -/
  | xmssmtKeygen (j : JobId)
  /-- `XMSSMT_SIGN` (R202). -/
  | xmssmtSign (j : JobId)
  /-- `XMSSMT_VERIFY` (R199). -/
  | xmssmtVerify (j : JobId)
  /-- `XMSSMT_PUBKEY` (R199). -/
  | xmssmtPubkey (j : JobId)
  /-- `HS_STATE_BIND` (R206). -/
  | hsStateBind (j : JobId)
  /-- `HS_STATE_QUERY` (R204). -/
  | hsStateQuery (j : JobId)
  /-- `DIGEST` (R216). -/
  | digest (j : JobId)
  /-- `DIGEST_KEY` (R224). -/
  | digestKey (j : JobId)
  /-- `AES_ENCRYPT` (R227). -/
  | aesEncrypt (j : JobId)
  /-- `AES_DECRYPT` (R228). -/
  | aesDecrypt (j : JobId)
  /-- `HQC_KEYGEN` (R237). -/
  | hqcKeygen (j : JobId)
  /-- `HQC_ENCAPS` (R238). -/
  | hqcEncaps (j : JobId)
  /-- `HQC_DECAPS` (R239). -/
  | hqcDecaps (j : JobId)
  /-- `HQC_PUBKEY` (R237). -/
  | hqcPubkey (j : JobId)
  /-- `MCE_KEYGEN` (R245). -/
  | mceKeygen (j : JobId)
  /-- `MCE_ENCAPS` (R243). -/
  | mceEncaps (j : JobId)
  /-- `MCE_DECAPS` (R247). -/
  | mceDecaps (j : JobId)
  /-- `MCE_PUBKEY` (R245). -/
  | mcePubkey (j : JobId)
  /-- `MCE_PK_PIN` (R241). -/
  | mcePkPin (j : JobId)
  /-- `EC_KEYGEN` (R260). -/
  | ecKeygen (j : JobId)
  /-- `ECDSA_SIGN` (R262). -/
  | ecdsaSign (j : JobId)
  /-- `ECDSA_VERIFY` (R263). -/
  | ecdsaVerify (j : JobId)
  /-- `ECDH` (R264). -/
  | ecdh (j : JobId)
  /-- `EC_PUBKEY` (R260). -/
  | ecPubkey (j : JobId)
  /-- `EDDSA_KEYGEN` (R269). -/
  | eddsaKeygen (j : JobId)
  /-- `EDDSA_SIGN` (R269). -/
  | eddsaSign (j : JobId)
  /-- `EDDSA_VERIFY` (R270). -/
  | eddsaVerify (j : JobId)
  /-- `EDDSA_PUBKEY` (R269). -/
  | eddsaPubkey (j : JobId)
  /-- `XDH_KEYGEN` (R271). -/
  | xdhKeygen (j : JobId)
  /-- `XDH` (R271). -/
  | xdh (j : JobId)
  /-- `XDH_PUBKEY` (R271). -/
  | xdhPubkey (j : JobId)
  /-- `RSA_KEYGEN` (R275). -/
  | rsaKeygen (j : JobId)
  /-- `RSA_SIGN` (R272). -/
  | rsaSign (j : JobId)
  /-- `RSA_VERIFY` (R272). -/
  | rsaVerify (j : JobId)
  /-- `RSA_ENCRYPT` (R272). -/
  | rsaEncrypt (j : JobId)
  /-- `RSA_DECRYPT` (R274). -/
  | rsaDecrypt (j : JobId)
  /-- `RSA_PUBKEY` (R272). -/
  | rsaPubkey (j : JobId)
  /-- `DH_KEYGEN` (R276). -/
  | dhKeygen (j : JobId)
  /-- `DH` (R276). -/
  | dh (j : JobId)
  /-- `DH_PUBKEY` (R276). -/
  | dhPubkey (j : JobId)
  /-- `CURVE_LOAD` (R266). -/
  | curveLoad (j : JobId)
  /-- `RNG_GENERATE` (R333). -/
  | rngGenerate (j : JobId)
  /-- `DRBG_RESEED` (R333). -/
  | drbgReseed (j : JobId)
  /-- `DRBG_INSTANTIATE` (R333). -/
  | drbgInstantiate (j : JobId)
  /-- `DRBG_INFO` (R333). -/
  | drbgInfo (j : JobId)
  /-- `RNG_RAW` (R334). -/
  | rngRaw (j : JobId)
  /-- `VAULT_IMPORT` (R354). -/
  | vaultImport (j : JobId)
  /-- `VAULT_EXPORT` (R355). -/
  | vaultExport (j : JobId)
  /-- `VAULT_DELETE` (R353). -/
  | vaultDelete (j : JobId)
  /-- `VAULT_INFO` (R353). -/
  | vaultInfo (j : JobId)
  /-- `VAULT_DERIVE` (R356). -/
  | vaultDerive (j : JobId)
  /-- `VAULT_MODIFY` (R353). -/
  | vaultModify (j : JobId)
  /-- `NV_WRITE_DONE` (R348). -/
  | nvWriteDone (j : JobId) (same : Bool)
  /-- `FLOW_CREATE` (R298). -/
  | flowCreate (j : JobId)
  /-- `FLOW_DELETE` (R298). -/
  | flowDelete (j : JobId)
  /-- `FLOW_KEY` (R298). -/
  | flowKey (j : JobId)
  /-- `FLOW_SET` (R298). -/
  | flowSet (j : JobId)
  /-- `FLOW_RESYNC` (R298). -/
  | flowResync (j : JobId)
  /-- `FLOW_READ` (R298). -/
  | flowRead (j : JobId)
  /-- `FLOW_STANDBY` (R443). -/
  | flowStandby (j : JobId)
  /-- `STREAM_SEND` (R311). -/
  | streamSend (j : JobId)
  /-- `VPROG_VERIFY` (R160). -/
  | vprogVerify (j : JobId)
  /-- `VPROG_RUN` (R161). -/
  | vprogRun (j : JobId)
  /-- `VPROG_TIME_LIMIT` (R163). -/
  | vprogTimeLimit (j : JobId)
  /-- `PORTER_START` (R88). -/
  | porterStart (j : JobId)
  /-- `PORTER_STOP` (R97). -/
  | porterStop (j : JobId)
  /-- `PORTER_INSTRUCTION` (R91). -/
  | porterInstruction (c : BitVec 6) (a : Access)
  /-- `PORTER_MOVE_UNIT` (R92). -/
  | porterMoveUnit (c : BitVec 6) (a : Access)
  /-- `PORTER_WAIT_POLL` (R94). -/
  | porterWaitPoll (c : BitVec 6) (expired : Bool) (a : Access)
  /-- `PLAN_STAGE` (R49). -/
  | planStage (j : JobId) (same : Bool)
  /-- `PLAN_SIGNER_ADD` (R52). -/
  | planSignerAdd (j : JobId)
  /-- `PLAN_SIGNER_REMOVE` (R52). -/
  | planSignerRemove (j : JobId)
  /-- `PLAN_SVN_RAISE` (R52). -/
  | planSvnRaise (j : JobId)
  /-- `PLAN_READ` (R52). -/
  | planRead (j : JobId)
  /-- `PATCH_STAGE` (R137). -/
  | patchStage (j : JobId) (same : Bool)
  /-- `PATCH_SVN_RAISE` (R138). -/
  | patchSvnRaise (j : JobId)
  /-- `FW_STAGE` (R456). -/
  | fwStage (j : JobId) (same : Bool)
  /-- `FW_SVN_RAISE` (R456). -/
  | fwSvnRaise (j : JobId)
  /-- `DORMANT_ENTER` (R465). -/
  | dormantEnter (j : JobId)
  /-- `BOOT_RETRY` (R464). -/
  | bootRetry (j : JobId)
  /-- `CTX_ALLOC` (R104). -/
  | ctxAlloc (j : JobId)
  /-- `CTX_FREE` (R104). -/
  | ctxFree (j : JobId)
  /-- `PITCH_EXPORT` (R114). -/
  | pitchExport (j : JobId)
  /-- `PITCH_IMPORT` (R116). -/
  | pitchImport (j : JobId)
  /-- `LC_NONCE` (R371). -/
  | lcNonce (j : JobId)
  /-- `LC_TRANSITION` (R364). -/
  | lcTransition (j : JobId)
  /-- `DEBUG_GRANT` (R370). -/
  | debugGrant (j : JobId)
  /-- `ALARM_UNLOCK` (R393). -/
  | alarmUnlock (j : JobId)
  /-- `EVIDENCE_READ` (R395). -/
  | evidenceRead (j : JobId)
  /-- `LEDGER_READ` (R406). -/
  | ledgerRead (j : JobId)
  /-- `LEDGER_CLEAR` (R408). -/
  | ledgerClear (j : JobId)
  /-- `CUSTODIAN_ENROL` (R420). -/
  | custodianEnrol (j : JobId)
  /-- `CUSTODIAN_REMOVE` (R420). -/
  | custodianRemove (j : JobId)
  /-- `QUORUM_SET` (R420). -/
  | quorumSet (j : JobId)
  /-- `QUORUM_OPEN` (R418). -/
  | quorumOpen (j : JobId)
  /-- `KEEPER_PRESENT` (R419). -/
  | keeperPresent (j : JobId)
  /-- `QUORUM_CLOSE` (R420). -/
  | quorumClose (j : JobId)
  /-- `KEEPER_IDENTIFY` (R420). -/
  | keeperIdentify (j : JobId)
  /-- `ARCHIVE_MOUNT` (R428). -/
  | archiveMount (j : JobId)
  /-- `ARCHIVE_FORMAT` (R429). -/
  | archiveFormat (j : JobId)
  /-- `ARCHIVE_EXPORT` (R427). -/
  | archiveExport (j : JobId)
  /-- `OPCODE_UNDEFINED` (R71). -/
  | opcodeUndefined (j : JobId)
  /-- `DESCRIPTOR_FETCH` (R68). -/
  | descriptorFetch
  /-- `RING_READ_FAIL` (R67). -/
  | ringReadFail (q : BitVec 12) (c : RingCause)
  /-- `JOB_PLACE` (R15). -/
  | jobPlace (j : JobId)
  /-- `JOB_COMPLETE` (R73). -/
  | jobComplete (j : JobId) (w : RecordWrite)
  /-- `DMA_FAULT` (R72). -/
  | dmaFault (j : JobId) (k : DmaCause)
  /-- `COAL_TIME_EXPIRY` (R75). -/
  | coalTimeExpiry (q : CoalQueue)
  /-- `SQ_PI` (R65). -/
  | sqPi (p : BitVec 8) (l : BitVec 6) (v : BitVec 32)
  /-- `CQ_CI` (R65). -/
  | cqCi (p : BitVec 8) (l : BitVec 6) (v : BitVec 32)
  /-- `QUEUE_COMMIT` (R61). -/
  | queueCommit (q : BitVec 12)
  /-- `QUEUE_ENABLE` (R62). -/
  | queueEnable (q : BitVec 12)
  /-- `QUEUE_DISABLE` (R62). -/
  | queueDisable (q : BitVec 12)
  /-- `QUEUE_RESTART` (R62). -/
  | queueRestart (q : BitVec 12)
  /-- `CRATE_FLAG_WRITE` (R82). -/
  | crateFlagWrite (p : BitVec 8) (first : BitVec 11) (flags : List Byte)
  /-- `CRATE_DATA_WRITE` (R81). -/
  | crateDataWrite (off : BitVec 23) (data : List Byte)
  /-- `CRATE_COMMIT` (R86). -/
  | crateCommit
  /-- `CHANNEL_COMMIT` (R87). -/
  | channelCommit (c : BitVec 6)
  /-- `CHANNEL_START` (R88). -/
  | channelStart (c : StartCmd)
  /-- `CHANNEL_STOP` (R97). -/
  | channelStop (c : BitVec 6)
  /-- `PITCH_COMMIT` (R100). -/
  | pitchCommit (p : BitVec 8)
  /-- `PITCH_RESET` (R107). -/
  | pitchReset (p : BitVec 8) (releaseCtx : Bool)
  /-- `SELF_RESET` (R106). -/
  | selfReset (p : BitVec 8) (confirm : BitVec 16)
  /-- `PITCH_RESET_END` (R108). -/
  | pitchResetEnd (p : BitVec 8)
  /-- `PITCH_STATE_FAULT` (R110). -/
  | pitchStateFault (p : BitVec 8)
  /-- `FREEZE` (R111). -/
  | freeze (p : BitVec 8)
  /-- `PITCH_FROZEN` (R111). -/
  | pitchFrozen (p : BitVec 8)
  /-- `THAW` (R101). -/
  | thaw (p : BitVec 8)
  /-- `LOG_ENABLE` (R112). -/
  | logEnable (p : BitVec 8)
  /-- `LOG_SWAP` (R113). -/
  | logSwap (p : BitVec 8)
  /-- `LOG_SWAP_DONE` (R113). -/
  | logSwapDone (p : BitVec 8)
  /-- `LOG_DISABLE` (R101). -/
  | logDisable (p : BitVec 8)
  /-- `EPOCH_WRITE` (R30). -/
  | epochWrite (v : BitVec 2)
  /-- `EPOCH_LOCK` (R31). -/
  | epochLock
  /-- `INT_SUMMARY_MASK_WRITE` (R34). -/
  | intSummaryMaskWrite (v : BitVec 32)
  /-- `STREAM_COMMIT` (R317). -/
  | streamCommit
  /-- `TIME_SET` (R310). -/
  | timeSet
  /-- `TIME_INVALIDATE` (R310). -/
  | timeInvalidate
  /-- `TIME_STEP` (R310). -/
  | timeStep (v : BitVec 64)
  /-- `PORT_COMMIT` (R286). -/
  | portCommit (port : BitVec 1)
  /-- `DQ_COMMIT` (R307). -/
  | dqCommit (d : BitVec 8)
  /-- `DQ_ENABLE` (R307). -/
  | dqEnable (d : BitVec 8)
  /-- `DQ_DISABLE` (R307). -/
  | dqDisable (d : BitVec 8)
  /-- `RETEST_RETIRED` (R323). -/
  | retestRetired
  /-- `LINK_COMMIT` (R445). -/
  | linkCommit
  /-- `RETRAIN` (R436). -/
  | retrain (k : BitVec 2)
  /-- `PWR_RESTART` (R467). -/
  | pwrRestart (v : BitVec 32)
  /-- `PACE_TARGET_WRITE` (R450). -/
  | paceTargetWrite (v : BitVec 32)
  /-- `REGISTER_WRITE` (R7). -/
  | registerWrite (w : Window) (off : BitVec 26) (width : BitVec 7) (v : BitVec 64)
  /-- `MSIX_VECTOR_UNMASK` (R56). -/
  | msixVectorUnmask (v : BitVec 11)
  /-- `MSIX_FUNCTION_UNMASK` (R56). -/
  | msixFunctionUnmask
  /-- `MSIX_ENABLE` (R56). -/
  | msixEnable
  /-- `ATS_INVALIDATION` (R57). -/
  | atsInvalidation (r : AtsRange)
  /-- `D3HOT_ENTRY` (R54). -/
  | d3hotEntry
  /-- `D0_RETURN` (R54). -/
  | d0Return
  /-- `PCIE_CONVENTIONAL_RESET` (R452). -/
  | pcieConventionalReset (epochStrap : Bool)
  /-- `FUNCTION_LEVEL_RESET` (R452). -/
  | functionLevelReset
  /-- `POWER_ON_RESET` (R457). -/
  | powerOnReset (i : StartInput)
  /-- `INTERNAL_RESET_ASSERT` (R448). -/
  | internalResetAssert
  /-- `START_TIMEOUT` (R457). -/
  | startTimeout
  /-- `FAILED_START_RESTART` (R460). -/
  | failedStartRestart (i : StartInput)
  /-- `DEVICE_RESTART` (R452). -/
  | deviceRestart (i : StartInput)
  /-- `DORMANT_STAY_TIMEOUT` (R465). -/
  | dormantStayTimeout (i : StartInput)
  /-- `BATTERY_SWITCHOVER` (R449). -/
  | batterySwitchover (toBattery : Bool)
  /-- `BATTERY_SAMPLE` (R390). -/
  | batterySample (r : BatteryReading)
  /-- `LID_EDGE` (R390). -/
  | lidEdge (level : Bool)
  /-- `TEMP_SAMPLE` (R382). -/
  | tempSample (t0 t1 t2 t3 : BitVec 12)
  /-- `ALARM_TRIP` (R383). -/
  | alarmTrip (i : AlarmSource) (v : TripReading)
  /-- `DECISION_SECOND` (R388). -/
  | decisionSecond (agree : Bool)
  /-- `ALARM_SOURCE_CLEAR` (R380). -/
  | alarmSourceClear (i : AlarmSource)
  /-- `RAIL_WINDOW_RETURN` (R384). -/
  | railWindowReturn (rail : Monitor)
  /-- `DUAL_RAIL_FAULT` (R392). -/
  | dualRailFault (u : FaultUnit)
  /-- `STORE_ECC_UNCORRECTABLE` (R127). -/
  | storeEccUncorrectable (tile : BitVec 6) (addr : BitVec 12)
  /-- `TILE_STORE_RELOAD_DONE` (R127). -/
  | tileStoreReloadDone (tile : BitVec 6) (ok : Bool)
  /-- `SCRUB_TICK` (R128). -/
  | scrubTick (errs : List TileError) (patch : List PatchError)
  /-- `HALL_COPY_MISMATCH` (R131). -/
  | hallCopyMismatch (addr : BitVec 14)
  /-- `HALL_RELOAD_DONE` (R131). -/
  | hallReloadDone (ok : Bool)
  /-- `DATA_ECC_ERROR` (R392). -/
  | dataEccError (w : DataPlace)
  /-- `TILE_FAULT` (R186). -/
  | tileFault (j : JobId) (dkHash : Bool)
  /-- `TILE_SELF_TEST_DONE` (R392). -/
  | tileSelfTestDone (tile : BitVec 6) (ok : Bool)
  /-- `SPARE_JOIN` (R392). -/
  | spareJoin
  /-- `ENGINE_FCM_TRIP` (R280). -/
  | engineFcmTrip (e : BitVec 3)
  /-- `ENGINE_WIPE_DONE` (R255). -/
  | engineWipeDone (e : BitVec 3) (ok : Bool)
  /-- `FRAME_RECEIVE` (R285). -/
  | frameReceive (port : BitVec 1) (frame : List Byte)
  /-- `FRAME_CHECK` (R301). -/
  | frameCheck
  /-- `DQ_CI_READ` (R309). -/
  | dqCiRead (d : BitVec 8) (a : Access)
  /-- `UNMATCHED_TOKEN` (R295). -/
  | unmatchedToken
  /-- `PRP_ENTRY_AGE` (R289). -/
  | prpEntryAge (src : BitVec 48)
  /-- `KEY_GRACE_EXPIRY` (R302). -/
  | keyGraceExpiry (ctx : BitVec 14)
  /-- `PORT_LINK_CHANGE` (R286). -/
  | portLinkChange (port : BitVec 1) (up : Bool)
  /-- `BEAN_SAMPLE` (R321). -/
  | beanSample (bits : BitVec 80)
  /-- `BEAN_TRIM_WINDOW` (R320). -/
  | beanTrimWindow (bean : BitVec 7)
  /-- `BEAN_RETEST_DONE` (R323). -/
  | beanRetestDone (bean : BitVec 7) (outcome : BitVec 2)
  /-- `GRIND_BLOCK` (R324). -/
  | grindBlock
  /-- `ENTROPY_HOLD_EXPIRY` (R330). -/
  | entropyHoldExpiry
  /-- `MASK_FEEDS_OPEN` (R331). -/
  | maskFeedsOpen
  /-- `DRBG_RESEED_DUE` (R328). -/
  | drbgReseedDue (p : BitVec 8)
  /-- `LEDGER_RECORD_WRITE` (R403). -/
  | ledgerRecordWrite
  /-- `LEDGER_TALLY_WRITE` (R402). -/
  | ledgerTallyWrite
  /-- `OPTIME_SAVE` (R400). -/
  | optimeSave
  /-- `PACE_SAMPLE` (R450). -/
  | paceSample (beat : BitVec 12)
  /-- `AVS_FRAME_RESPONSE` (R451). -/
  | avsFrameResponse (r : AvsResponse)
  /-- `AVS_RETRY` (R451). -/
  | avsRetry
  /-- `KEEPER_CARD_INSERT` (R411). -/
  | keeperCardInsert
  /-- `KEEPER_CARD_REMOVE` (R415). -/
  | keeperCardRemove
  /-- `ATR_RECEIVE` (R412). -/
  | atrReceive (atr : List Byte)
  /-- `PPS_RESPONSE` (R413). -/
  | ppsResponse (pps : List Byte)
  /-- `CARD_BLOCK_RECEIVE` (R414). -/
  | cardBlockReceive (block : List Byte)
  /-- `CARD_BLOCK_TIMEOUT` (R415). -/
  | cardBlockTimeout
  /-- `QUORUM_SESSION_EXPIRY` (R418). -/
  | quorumSessionExpiry
  /-- `ARC_CARD_INSERT` (R422). -/
  | arcCardInsert (c : ArcCard)
  /-- `ARC_CARD_REMOVE` (R427). -/
  | arcCardRemove
  /-- `ARC_BUSY_TIMEOUT` (R427). -/
  | arcBusyTimeout
  /-- `LINK_TRAIN_ATTEMPT` (R434). -/
  | linkTrainAttempt (k : BitVec 2)
  /-- `HANDSHAKE_MESSAGE` (R435). -/
  | handshakeMessage (k : BitVec 2) (m : HandshakeMsg)
  /-- `HANDSHAKE_TIMEOUT` (R436). -/
  | handshakeTimeout (k : BitVec 2)
  /-- `SESSION_REKEY` (R435). -/
  | sessionRekey (k : BitVec 2)
  /-- `HEARTBEAT_SEND` (R437). -/
  | heartbeatSend (k : BitVec 2)
  /-- `HEARTBEAT_RECEIVE` (R437). -/
  | heartbeatReceive (k : BitVec 2) (m : LinkMsg) (tagOk : Bool)
  /-- `PEER_LOST` (R437). -/
  | peerLost (k : BitVec 2)
  /-- `LOAD_ADVERTISE` (R440). -/
  | loadAdvertise
  /-- `JOB_FORWARD_RECEIVE` (R438). -/
  | jobForwardReceive (k : BitVec 2) (n : BitVec 32) (p : BitVec 8) (d : Desc) (input : List Byte) (aux : List Byte)
  /-- `JOB_FORWARD_RESULT` (R438). -/
  | jobForwardResult (j : JobId) (r : PeerResult)
  /-- `SPILL_RECEIVE` (R441). -/
  | spillReceive (k : BitVec 2) (n : BitVec 32) (p : BitVec 8) (d : Desc) (input : List Byte) (aux : List Byte) (key : List Byte)
  /-- `SPILL_RESULT` (R441). -/
  | spillResult (j : JobId) (r : PeerResult)
  /-- `FLOW_MIRROR_UPDATE` (R443). -/
  | flowMirrorUpdate (k : BitVec 2) (m : FlowMsg)
  /-- `BOUNDARY_SCAN_TAKEOVER` (R375). -/
  | boundaryScanTakeover (ir : BitVec 8)
  /-- `JTAG_TEST_RESET` (R452). -/
  | jtagTestReset
  /-- `MONITOR_ID` (R373). -/
  | monitorId
  /-- `MONITOR_ST` (R373). -/
  | monitorSt
  /-- `MONITOR_NC` (R371). -/
  | monitorNc
  /-- `MONITOR_LD` (R373). -/
  | monitorLd (line : List Byte)
  /-- `MONITOR_DC` (R373). -/
  | monitorDc (line : List Byte)
  /-- `MONITOR_DX` (R373). -/
  | monitorDx
  /-- `MONITOR_LC` (R373). -/
  | monitorLc (line : List Byte)
  /-- `MONITOR_RR` (R373). -/
  | monitorRr (line : List Byte)
  /-- `MONITOR_RW` (R373). -/
  | monitorRw (line : List Byte)
  /-- `MONITOR_NR` (R373). -/
  | monitorNr (line : List Byte)
  /-- `MONITOR_SR` (R373). -/
  | monitorSr (line : List Byte)
  /-- `MONITOR_BR` (R374). -/
  | monitorBr (line : List Byte)
  /-- `BAUD_SWITCH` (R374). -/
  | baudSwitch
  /-- `MONITOR_BC` (R374). -/
  | monitorBc
  /-- `BAUD_REVERTED` (R374). -/
  | baudReverted
  /-- `MONITOR_UNKNOWN_CMD` (R372). -/
  | monitorUnknownCmd (line : List Byte)
  /-- `REGISTER_READ` (R9). -/
  | registerRead (w : Window) (off : BitVec 26) (width : BitVec 7)
  /-- `EQUALISER_ADAPTED` (R287). -/
  | equaliserAdapted (port : BitVec 1)
  /-- `LINK_TRAINING_COMPLETE` (R434). -/
  | linkTrainingComplete (k : BitVec 2) (lanes : BitVec 3)
  /-- `CARD_WAIT_TIMEOUT` (R412). -/
  | cardWaitTimeout
  /-- `ARC_READY_TIMEOUT` (R422). -/
  | arcReadyTimeout
  /-- `BATTERY_DOMAIN_POWER_LOSS` (R449). -/
  | batteryDomainPowerLoss
  /-- `BATTERY_DOMAIN_POWER_UP` (R449). -/
  | batteryDomainPowerUp
  /-- `CRYSTAL_STOPPED` (R482). -/
  | crystalStopped
  deriving DecidableEq, Repr

end Sys2Proof
end

