-- ==== Sys2Proof/Machine/Bits.lean ====
section
/-! DEFINITION. Bit fields, little-endian byte strings, saturating counts, and the sparse tables in canonical form in
which the state holds everything that is many of one kind. -/
namespace Sys2Proof.Machine

/-- Field [hi:lo] of a word, as a word of `w` bits (R6). -/
def bits {n : Nat} (v : BitVec n) (lo w : Nat) : BitVec w := v.extractLsb' lo w

/-- Bit `i` of a word as a word of one bit's Bool. -/
def bit {n : Nat} (v : BitVec n) (i : Nat) : Bool := v.getLsbD i

/-- A Bool as a word of `n` bits, 1 for true. -/
def flag (n : Nat) (b : Bool) : BitVec n := if b then 1#n else 0#n

/-- The value `x` placed at bit `lo` of a 32-bit register. -/
def at32 {n : Nat} (lo : Nat) (x : BitVec n) : BitVec 32 := (x.setWidth 32) <<< lo

/-- The value `x` placed at bit `lo` of a 64-bit register. -/
def at64 {n : Nat} (lo : Nat) (x : BitVec n) : BitVec 64 := (x.setWidth 64) <<< lo

/-- A saturating count goes up by `k`. -/
def satAdd {n : Nat} (v : BitVec n) (k : Nat) : BitVec n :=
  if v.toNat + k ≥ 2 ^ n then BitVec.allOnes n else v + BitVec.ofNat n k

/-- W1C (R7): each 1 written clears its bit. -/
def w1c {n : Nat} (old v : BitVec n) : BitVec n := old &&& ~~~v

/-- The `k` low bytes of a number, lowest first (R6). -/
def leBytes : Nat → Nat → Bytes
  | 0, _ => []
  | k + 1, v => BitVec.ofNat 8 v :: leBytes k (v / 256)

/-- The number that a little-endian byte string spells (R6). -/
def leNat : Bytes → Nat
  | [] => 0
  | b :: t => b.toNat + 256 * leNat t

/-- The number that a big-endian byte string spells. -/
def beNat (bs : Bytes) : Nat := bs.foldl (fun a b => a * 256 + b.toNat) 0

/-- The `k` low bytes of a number, highest first. -/
def beBytes (k v : Nat) : Bytes := (leBytes k v).reverse

/-- Little-endian bytes of a word of `k` bytes. -/
def wordBytes {n : Nat} (k : Nat) (v : BitVec n) : Bytes := leBytes k v.toNat

/-- A little-endian field of `k` bytes at an offset of a byte string, as a word. -/
def fieldAt (n : Nat) (bs : Bytes) (off k : Nat) : BitVec n := BitVec.ofNat n (leNat ((bs.drop off).take k))

/-- The bytes [off, off + k) of a byte string. -/
def slice (bs : Bytes) (off k : Nat) : Bytes := (bs.drop off).take k

/-- `k` zero bytes. -/
def zeros (k : Nat) : Bytes := List.replicate k 0#8

/-- A byte string cut or padded with zero bytes to `k` bytes. -/
def fit (k : Nat) (bs : Bytes) : Bytes := bs.take k ++ zeros (k - bs.length)

/-- All bytes of a string are zero. -/
def allZero (bs : Bytes) : Bool := bs.all (· == 0#8)

/-- The ASCII bytes of a string. -/
def ascii (t : String) : Bytes := t.toList.map (fun c => BitVec.ofNat 8 c.toNat)

/-- Quotient rounded up. -/
def ceilDiv (a b : Nat) : Nat := (a + b - 1) / b

/-- A sparse table: pairs of a key and a value, keys rising, no value equal to the table's default. -/
abbrev Tab (α : Type) := List (Nat × α)

/-- The value at a key; `d` where no pair stands. -/
def Tab.get {α : Type} (d : α) (k : Nat) : Tab α → α
  | [] => d
  | (j, v) :: t => if j = k then v else Tab.get d k t

/-- The table with the value at a key replaced; a value equal to the default takes the pair away. -/
def Tab.set {α : Type} [DecidableEq α] (d : α) (k : Nat) (v : α) : Tab α → Tab α
  | [] => if v = d then [] else [(k, v)]
  | (j, w) :: t =>
    if j < k then (j, w) :: Tab.set d k v t
    else if j = k then (if v = d then t else (k, v) :: t)
    else if v = d then (j, w) :: t else (k, v) :: (j, w) :: t

/-- The canonical form: every key at or above `lo`, keys strictly rising, no value equal to the default. -/
def Tab.wfFrom {α : Type} [DecidableEq α] (d : α) : Nat → Tab α → Bool
  | _, [] => true
  | lo, (j, v) :: t => decide (lo ≤ j) && decide (v ≠ d) && Tab.wfFrom d (j + 1) t

/-- The canonical form of a table. -/
def Tab.wf {α : Type} [DecidableEq α] (d : α) (t : Tab α) : Bool := Tab.wfFrom d 0 t

/-- `k` values from a key upwards. -/
def Tab.read {α : Type} (d : α) (t : Tab α) : Nat → Nat → List α
  | _, 0 => []
  | a, k + 1 => Tab.get d a t :: Tab.read d t (a + 1) k

/-- Values written from a key upwards. -/
def Tab.write {α : Type} [DecidableEq α] (d : α) (t : Tab α) : Nat → List α → Tab α
  | _, [] => t
  | a, v :: vs => Tab.write d (Tab.set d a v t) (a + 1) vs

/-- The keys of a table at which a test holds. -/
def Tab.keysWhere {α : Type} (p : Nat → α → Bool) (t : Tab α) : List Nat :=
  (t.filter (fun e => p e.1 e.2)).map (·.1)

/-- Every value of a table changed by its key; values that come out equal to the default leave the table. -/
def Tab.mapVals {α : Type} [DecidableEq α] (d : α) (f : Nat → α → α) (t : Tab α) : Tab α :=
  (t.map (fun e => (e.1, f e.1 e.2))).filter (fun e => decide (e.2 ≠ d))

/-- The least element of a list of numbers. -/
def leastOf : List Nat → Option Nat
  | [] => none
  | a :: t => match leastOf t with
    | none => some a
    | some b => some (if a ≤ b then a else b)

end Sys2Proof.Machine
end

