-- ==== Sys2Proof/Machine/Hash.lean ====
section
/-! DEFINITION. The hash functions that the spec takes from FIPS 180-4, FIPS 202, FIPS 198-1 and SP 800-185. -/
namespace Sys2Proof.Machine

/-! ### SHA-2 (FIPS 180-4) -/

/-- The first `n` primes from `k` on, by trial division. -/
def primesFrom : Nat → Nat → Nat → List Nat
  | 0, _, _ => []
  | _, 0, _ => []
  | fuel + 1, n + 1, k =>
    if (List.range k).any (fun d => decide (2 ≤ d) && k % d == 0) then primesFrom fuel (n + 1) (k + 1)
    else k :: primesFrom fuel n (k + 1)

/-- The largest `x` with `x ^ e ≤ v`, by bits from `2 ^ b` down. -/
def rootBits (e v : Nat) : Nat → Nat → Nat
  | 0, x => x
  | b + 1, x => rootBits e v b (if (x + 2 ^ b) ^ e ≤ v then x + 2 ^ b else x)

/-- The first `w` fraction bits of the cube root of a prime. -/
def cubeFrac (w p : Nat) : Nat := rootBits 3 (p * 2 ^ (3 * w)) (w + 4) 0 % 2 ^ w

/-- The first `w` fraction bits of the square root of a prime. -/
def squareFrac (w p : Nat) : Nat := rootBits 2 (p * 2 ^ (2 * w)) (w + 6) 0 % 2 ^ w

/-- The shape of a SHA-2 family: the word bits, the round constants, the rotation amounts. -/
structure Sha2 where
  w   : Nat
  k   : List Nat
  big0 : Nat × Nat × Nat
  big1 : Nat × Nat × Nat
  sm0 : Nat × Nat × Nat
  sm1 : Nat × Nat × Nat

/-- SHA-256's family. -/
def shaSmall : Sha2 :=
  { w := 32, k := (primesFrom 400 64 2).map (cubeFrac 32), big0 := (2, 13, 22), big1 := (6, 11, 25), sm0 := (7, 18, 3),
    sm1 := (17, 19, 10) }

/-- SHA-512's family. -/
def shaLarge : Sha2 :=
  { w := 64, k := (primesFrom 500 80 2).map (cubeFrac 64), big0 := (28, 34, 39), big1 := (14, 18, 41), sm0 := (1, 8, 7),
    sm1 := (19, 61, 6) }

/-- Rotation to the right of a `w`-bit number. -/
def rotr (w k x : Nat) : Nat := (x / 2 ^ k + x * 2 ^ (w - k)) % 2 ^ w

/-- Three rotations combined. -/
def rot3 (w : Nat) (r : Nat × Nat × Nat) (x : Nat) : Nat := rotr w r.1 x ^^^ rotr w r.2.1 x ^^^ rotr w r.2.2 x

/-- Two rotations and a shift combined. -/
def rot2s (w : Nat) (r : Nat × Nat × Nat) (x : Nat) : Nat := rotr w r.1 x ^^^ rotr w r.2.1 x ^^^ (x / 2 ^ r.2.2)

/-- The message schedule, newest word first. -/
def shaSchedule (f : Sha2) : Nat → List Nat → List Nat
  | 0, ws => ws
  | n + 1, ws =>
    let g (i : Nat) := ws.getD i 0
    shaSchedule f n (((rot2s f.w f.sm1 (g 1) + g 6 + rot2s f.w f.sm0 (g 14) + g 15) % 2 ^ f.w) :: ws)

/-- The eight working variables. -/
structure Sha2Regs where
  a : Nat
  b : Nat
  c : Nat
  d : Nat
  e : Nat
  f : Nat
  g : Nat
  h : Nat
  deriving DecidableEq, Repr

/-- One round. -/
def shaRound (s : Sha2) (r : Sha2Regs) (kw : Nat × Nat) : Sha2Regs :=
  let m := 2 ^ s.w
  let ch := (r.e &&& r.f) ^^^ ((m - 1 - r.e) &&& r.g)
  let t1 := (r.h + rot3 s.w s.big1 r.e + ch + kw.1 + kw.2) % m
  let maj := (r.a &&& r.b) ^^^ (r.a &&& r.c) ^^^ (r.b &&& r.c)
  let t2 := (rot3 s.w s.big0 r.a + maj) % m
  { a := (t1 + t2) % m, b := r.a, c := r.b, d := r.c, e := (r.d + t1) % m, f := r.e, g := r.f, h := r.g }

/-- Big-endian words of `k` bytes. -/
def beWords (k : Nat) : Nat → Bytes → List Nat
  | 0, _ => []
  | n + 1, b => beNat (b.take k) :: beWords k n (b.drop k)

/-- One block compressed into the hash value. -/
def shaBlock (s : Sha2) (h : Sha2Regs) (block : Bytes) : Sha2Regs :=
  let ws := (shaSchedule s (s.k.length - 16) (beWords (s.w / 8) 16 block).reverse).reverse
  let r := (s.k.zip ws).foldl (shaRound s) h
  let m := 2 ^ s.w
  { a := (h.a + r.a) % m, b := (h.b + r.b) % m, c := (h.c + r.c) % m, d := (h.d + r.d) % m,
    e := (h.e + r.e) % m, f := (h.f + r.f) % m, g := (h.g + r.g) % m, h := (h.h + r.h) % m }

/-- Whole blocks absorbed. -/
def shaBlocks (s : Sha2) : Nat → Bytes → Sha2Regs → Sha2Regs
  | 0, _, h => h
  | n + 1, b, h => shaBlocks s n (b.drop (2 * s.w)) (shaBlock s h (b.take (2 * s.w)))

/-- Padding to a whole block, of a message of `len` bytes. -/
def shaPad (s : Sha2) (len : Nat) : Bytes :=
  let n := 2 * s.w
  let tail := s.w / 4
  let z := (n - (len + 1 + tail) % n) % n
  0x80#8 :: (zeros z ++ beBytes tail (8 * len))

/-- Working variables as bytes. -/
def shaOut (s : Sha2) (h : Sha2Regs) : Bytes :=
  let k := s.w / 8
  beBytes k h.a ++ beBytes k h.b ++ beBytes k h.c ++ beBytes k h.d ++ beBytes k h.e ++ beBytes k h.f ++ beBytes k h.g ++
  beBytes k h.h

/-- The eight words of an initial hash value. -/
def shaRegs (l : List Nat) : Sha2Regs :=
  { a := l.getD 0 0, b := l.getD 1 0, c := l.getD 2 0, d := l.getD 3 0, e := l.getD 4 0, f := l.getD 5 0, g := l.getD 6 0,
    h := l.getD 7 0 }

/-- A SHA-2 hash with an initial value and an output length. -/
def sha2 (s : Sha2) (init : Sha2Regs) (out : Nat) (msg : Bytes) : Bytes :=
  let m := msg ++ shaPad s msg.length
  (shaOut s (shaBlocks s (m.length / (2 * s.w)) m init)).take out

def sha256Init : Sha2Regs := shaRegs ((primesFrom 30 8 2).map (squareFrac 32))
def sha512Init : Sha2Regs := shaRegs ((primesFrom 30 8 2).map (squareFrac 64))
/-- SHA-384's initial value: the ninth to sixteenth primes. -/
def sha384Init : Sha2Regs := shaRegs (((primesFrom 80 16 2).drop 8).map (squareFrac 64))
/-- SHA-224's initial value: the low halves of SHA-384's. -/
def sha224Init : Sha2Regs := shaRegs (((primesFrom 80 16 2).drop 8).map (fun p => squareFrac 64 p % 2 ^ 32))

def sha256 (msg : Bytes) : Bytes := sha2 shaSmall sha256Init 32 msg
def sha224 (msg : Bytes) : Bytes := sha2 shaSmall sha224Init 28 msg
def sha512 (msg : Bytes) : Bytes := sha2 shaLarge sha512Init 64 msg
def sha384 (msg : Bytes) : Bytes := sha2 shaLarge sha384Init 48 msg

/-- The working variables with a constant added to each by exclusive or. -/
def shaXor (k : Nat) (h : Sha2Regs) : Sha2Regs :=
  { a := h.a ^^^ k, b := h.b ^^^ k, c := h.c ^^^ k, d := h.d ^^^ k, e := h.e ^^^ k, f := h.f ^^^ k, g := h.g ^^^ k,
    h := h.h ^^^ k }

/-- The initial value of SHA-512/t. -/
def sha512tInit (name : String) : Sha2Regs :=
  let d := sha2 shaLarge (shaXor 0xa5a5a5a5a5a5a5a5 sha512Init) 64 (ascii name)
  shaRegs (beWords 8 8 d)

/-- SHA-512/256. -/
def sha512_256 (msg : Bytes) : Bytes := sha2 shaLarge (sha512tInit "SHA-512/256") 32 msg

/-! ### Keccak (FIPS 202) -/

/-- One step of the round-constant generator. -/
def lfsrStep (r : Nat) : Nat := let x := r * 2; if x ≥ 256 then (x ^^^ 0x171) % 256 else x

/-- The register after `t` steps. -/
def lfsrAt : Nat → Nat
  | 0 => 1
  | t + 1 => lfsrStep (lfsrAt t)

/-- The round constant of a round. -/
def keccakRc (round : Nat) : Nat :=
  (List.range 7).foldl (fun v j => if lfsrAt (j + 7 * round) % 2 = 1 then v ||| 2 ^ (2 ^ j - 1) else v) 0

/-- Rotation to the left of a 64-bit lane. -/
def rotl64 (k x : Nat) : Nat := (x * 2 ^ (k % 64) + x / 2 ^ (64 - k % 64)) % 2 ^ 64

/-- The rotation amounts of rho, with lane `x + 5 * y` at its index. -/
def rhoAmounts : List Nat :=
  [0, 1, 62, 28, 27, 36, 44, 6, 55, 20, 3, 10, 43, 25, 39, 41, 45, 15, 21, 8, 18, 2, 61, 56, 14]

/-- One round over 25 lanes. -/
def keccakRound (a : List Nat) (round : Nat) : List Nat :=
  let at_ (l : List Nat) (x y : Nat) := l.getD (x % 5 + 5 * (y % 5)) 0
  let c := (List.range 5).map (fun x => at_ a x 0 ^^^ at_ a x 1 ^^^ at_ a x 2 ^^^ at_ a x 3 ^^^ at_ a x 4)
  let d := (List.range 5).map (fun x => c.getD ((x + 4) % 5) 0 ^^^ rotl64 1 (c.getD ((x + 1) % 5) 0))
  let t := (List.range 25).map (fun i => rotl64 (rhoAmounts.getD i 0) (a.getD i 0 ^^^ d.getD (i % 5) 0))
  let b := (List.range 25).map (fun i => at_ t (i % 5 + 3 * (i / 5)) (i % 5))
  let e := (List.range 25).map (fun i =>
    let x := i % 5
    let y := i / 5
    at_ b x y ^^^ ((2 ^ 64 - 1 - at_ b (x + 1) y) &&& at_ b (x + 2) y))
  match e with
  | [] => []
  | h :: t => (h ^^^ keccakRc round) :: t

/-- Keccak-f[1600]. -/
def keccakF (a : List Nat) : List Nat := (List.range 24).foldl keccakRound a

/-- A block of `rate` bytes added into the lanes. -/
def keccakAdd (a : List Nat) (block : Bytes) : List Nat :=
  let w := (List.range 25).map (fun i => leNat (slice block (8 * i) 8))
  (a.zip w).map (fun p => p.1 ^^^ p.2)

/-- Whole blocks absorbed. -/
def keccakAbsorb (rate : Nat) : Nat → Bytes → List Nat → List Nat
  | 0, _, a => a
  | n + 1, m, a => keccakAbsorb rate n (m.drop rate) (keccakF (keccakAdd a (m.take rate)))

/-- The lanes as bytes. -/
def keccakBytes (a : List Nat) : Bytes := a.flatMap (fun x => leBytes 8 x)

/-- Blocks squeezed. -/
def keccakSqueeze (rate : Nat) : Nat → List Nat → Bytes
  | 0, _ => []
  | n + 1, a => (keccakBytes a).take rate ++ keccakSqueeze rate n (keccakF a)

/-- The lanes before anything is absorbed. -/
def keccakZero : List Nat := List.replicate 25 0

/-- A sponge: the padding bits with the domain in front, `suffix`, then 10*1. -/
def sponge (rate : Nat) (suffix : Byte) (out : Nat) (msg : Bytes) : Bytes :=
  let z := rate - 1 - msg.length % rate
  let pad : Bytes := if z = 0 then [suffix ||| 0x80#8] else suffix :: (zeros (z - 1) ++ [0x80#8])
  let m := msg ++ pad
  (keccakSqueeze rate (ceilDiv out rate) (keccakAbsorb rate (m.length / rate) m keccakZero)).take out

def sha3_224 (m : Bytes) : Bytes := sponge 144 0x06 28 m
def sha3_256 (m : Bytes) : Bytes := sponge 136 0x06 32 m
def sha3_384 (m : Bytes) : Bytes := sponge 104 0x06 48 m
def sha3_512 (m : Bytes) : Bytes := sponge 72 0x06 64 m
def shake128 (out : Nat) (m : Bytes) : Bytes := sponge 168 0x1F out m
def shake256 (out : Nat) (m : Bytes) : Bytes := sponge 136 0x1F out m

/-! ### SP 800-185 -/

/-- The least number of bytes, at least one, that hold a number. -/
def byteCount : Nat → Nat → Nat
  | 0, _ => 1
  | f + 1, x => if x < 256 then 1 else 1 + byteCount f (x / 256)

/-- left_encode. -/
def leftEncode (x : Nat) : Bytes := let n := byteCount 9 x; BitVec.ofNat 8 n :: beBytes n x

/-- right_encode. -/
def rightEncode (x : Nat) : Bytes := let n := byteCount 9 x; beBytes n x ++ [BitVec.ofNat 8 n]

/-- encode_string. -/
def encodeString (s : Bytes) : Bytes := leftEncode (8 * s.length) ++ s

/-- bytepad. -/
def bytepad (x : Bytes) (w : Nat) : Bytes :=
  let z := leftEncode w ++ x
  z ++ zeros ((w - z.length % w) % w)

/-- cSHAKE of a rate. -/
def cshake (rate : Nat) (name custom : Bytes) (out : Nat) (m : Bytes) : Bytes :=
  if name.isEmpty ∧ custom.isEmpty then sponge rate 0x1F out m
  else sponge rate 0x04 out (bytepad (encodeString name ++ encodeString custom) rate ++ m)

/-- KMAC of a rate: `xof` for the extendable form. -/
def kmac (rate : Nat) (xof : Bool) (key custom : Bytes) (out : Nat) (m : Bytes) : Bytes :=
  cshake rate (ascii "KMAC") custom out
    (bytepad (encodeString key) rate ++ m ++ rightEncode (if xof then 0 else 8 * out))

def kmac128 (key custom : Bytes) (out : Nat) (m : Bytes) : Bytes := kmac 168 false key custom out m
def kmac256 (key custom : Bytes) (out : Nat) (m : Bytes) : Bytes := kmac 136 false key custom out m

/-! ### HMAC (FIPS 198-1) -/

/-- Each byte with a constant added by exclusive or. -/
def xorAll (c : Byte) (b : Bytes) : Bytes := b.map (· ^^^ c)

/-- HMAC over a hash of a block length. -/
def hmac (h : Bytes → Bytes) (block : Nat) (key m : Bytes) : Bytes :=
  let k := fit block (if key.length > block then h key else key)
  h (xorAll 0x5C k ++ h (xorAll 0x36 k ++ m))

/-! ### CRC-32C -/

/-- One bit of a reflected CRC-32C. -/
def crcBit (c : BitVec 32) : BitVec 32 := if c.getLsbD 0 then (c >>> 1) ^^^ 0x82F63B78 else c >>> 1

/-- One byte. -/
def crcByte (c : BitVec 32) (b : Byte) : BitVec 32 :=
  crcBit (crcBit (crcBit (crcBit (crcBit (crcBit (crcBit (crcBit (c ^^^ b.setWidth 32))))))))

/-- CRC-32C of a byte string (Castagnoli, reflected). -/
def crc32c (m : Bytes) : BitVec 32 := ~~~(m.foldl crcByte 0xFFFFFFFF)

end Sys2Proof.Machine
end

