-- ==== Sys2Proof/Config.lean ====
section
/-! DEFINITION. What one part has fixed at manufacture, the functions that the spec takes from other standards, and
the free values. Every `opaque` below has no body: a statement about the model holds whatever it is. -/
namespace Sys2Proof.Config

/-- A value the spec leaves open (log 1): the `n`-th one the model draws, as a number the user cuts to its width. -/
opaque freeValue : Nat → Nat

/-- The functions the spec names by another standard. Each takes byte strings and gives a byte string; the model cuts
the result to the length the spec gives (log 2). -/
inductive Fn where
  | maskFeed
  | kemKeygen | kemCipher | kemSecret | kemDecaps
  | sigKeygen | sigPublic | sigSign
  | agree | rsaPublic | rsaPrivate
  | deviceKey | keyPublic | chainState | headerCrc
  deriving DecidableEq, Repr

/-- A function of another standard (log 2): FIPS 203 to 206, SP 800-56, SP 800-208, SEC 1, RFC 7748, RFC 8017, RFC 8032 and the HQC
and Classic McEliece submissions; hashes, ciphers and DRBGs are computed in full by the files of their names. The first
argument names it, `n` is the algorithm or set, the list holds its operands. -/
opaque crypto : Fn → Nat → List Bytes → Bytes

/-- A yes-or-no property of operands that another standard defines (log 2): a point lies on its curve, an encoding is
canonical, a number is a probable prime. -/
opaque holds : Nat → Nat → List Bytes → Bool

/-- The number of rejection iterations that a signature takes (R182), of the algorithm, the key, the message and the
randomness. -/
opaque iterations : Nat → List Bytes → Nat

/-- The beat count of a job (R17, R18): a function of its public inputs alone, which the spec tells only in part. The
first two are OPCODE and PARAM_SET, the list holds its lengths and its other public inputs (log 6). -/
opaque beats : Nat → Nat → List Nat → Nat

/-- DEV_UID (fused, R33). -/
opaque deviceUid : BitVec 64

/-- ORDER_CODE (fused, R33): the part is a CQX18-B2-XL, or a CQX18-B2-XE. -/
opaque isXL : Bool

/-- What the battery-seconds counter holds when the part is first powered, which R449 does not specify (log 1). -/
opaque firstSeconds : BitVec 32

/-- JOB_KIND of OPCODE, PARAM_SET, FAULT_MODE and the masking order (R119), whose coding the spec does not state (log 67). -/
opaque jobKind : BitVec 16 → BitVec 16 → BitVec 2 → Bool → BitVec 8

/-- The store address at which a job of a JOB_KIND begins, which the spec does not state (log 67). -/
opaque microEntry : BitVec 8 → BitVec 12

/-- The public parameter words of a job, which LCOP 0b010 loads: of OPCODE, PARAM_SET and the index (R122, log 67). -/
opaque publicWord : BitVec 16 → BitVec 16 → Nat → BitVec 12

/-- The field that FSEL selects (R129): of the selector, the descriptor and the completion record in hand, and the states of the queues, stalls
and engines, whose coding the spec does not state (log 67). -/
opaque hallField : BitVec 14 → Bytes → Bytes → List Nat → BitVec 64

/-- STATUS and DETAIL that a failure mask gives a job of an opcode (R121, R122), whose coding the spec does not state (log 67). -/
opaque failureStatus : BitVec 16 → BitVec 4608 → BitVec 16 × BitVec 16

/-- What a Hall controller word does to the four loop counters, which the spec does not state (R129, log 67). -/
opaque hallLoops : BitVec 288 → List Nat → List Nat

/-- Borsor's assigned Vendor ID (R53), which the spec does not give as a number. -/
opaque vendorId : BitVec 16

/-- Borsor's JEDEC manufacturer code, as IDCODE holds it (R375). -/
opaque jedecCode : BitVec 11

/-- The device-unique secret (fused, R347, R356). -/
opaque deviceSecret : Bytes

/-- The tag key of the vault, from the device-unique secret, the root key and the power-cycle count (R347). How it is derived is not stated. -/
opaque tagKey : List (BitVec 8) → List (BitVec 8) → BitVec 24 → List (BitVec 8)

/-- What an erased byte of the non-volatile die reads as, which the spec does not state (log 1). -/
opaque erasedByte : Byte

/-- Borsor's keeper-card signer key, whose hash boot ROM holds (R416). -/
opaque keeperSigner : Bytes

/-- Borsor's device signer key, whose hash boot ROM holds (R435). -/
opaque deviceSigner : Bytes

/-- The boot ROM's contents (measured as MEAS0, R459). -/
opaque bootRom : Bytes

/-- Borsor's signer keys, 2,689 bytes each as R52 lays two keys out, whose hashes boot ROM holds: 0 of Stall Plans (R47), 1 of
microcode (R134), 2 of firmware (R454), 3 of life-cycle and debug certificates (R366). -/
opaque signerKeys : Nat → Bytes

/-- Borsor's two signatures over an image that a part is shipped with, by the part's stores in the order above (log 2). -/
opaque shippedSigs : Nat → Bytes × Bytes

/-- The patch key (fused, R134). -/
opaque patchKey : Bytes

/-- The digests fused for the test tokens (R364). -/
opaque tokenDigest : Nat → Bytes

end Sys2Proof.Config
end

