-- ==== Sys2Proof/Machine/Types.lean ====
section
/-! DEFINITION. The records of which the state is made, block by block, each with the rule that gives its fields. -/
namespace Sys2Proof.Machine

/-! ### DEV, PCIe, register access -/

/-- Why the part is Shuttered (R460, BOOT_STATUS.SHUTTER_CAUSE). -/
inductive ShutterCause where
  | failedStarts
  | lifecycle
  deriving DecidableEq, Repr

/-- Where the part stands between a release of internal reset and service (R448, R457, R460, R465). `restarting` is a
start that failed and waits for its device restart. -/
inductive Phase where
  | unpowered
  | boot
  | ready
  | enteringDormant
  | dormant
  | shuttered (c : ShutterCause)
  | restarting
  deriving DecidableEq, Repr

/-- The DEV block (R29 to R34): EPOCH_SELECT, the latched Device ID, the summary mask. `orderCode` and `uid` are
fused, `tap` is the instruction in force at the JTAG port, and `tdr` what the data register that it selects captures (R375). -/
structure Dev where
  epoch       : BitVec 2
  lock        : Bool
  refused     : Bool
  lockRefused : Bool
  pciId       : BitVec 16
  orderCode   : BitVec 4
  uid         : BitVec 64
  intEnable   : BitVec 15
  phase       : Phase
  katPass     : Bool
  bootReason  : BitVec 16
  bscan       : Bool
  tap         : BitVec 8
  tdr         : BitVec 32
  restartDue  : Bool
  deriving DecidableEq, Repr

/-- An MSI-X table entry, in the PCI Express layout (R56). -/
structure MsixEntry where
  addr   : BitVec 64
  data   : BitVec 32
  masked : Bool
  deriving DecidableEq, Repr

/-- Translations that the part has cached (R57): pages of the space of a PASID. -/
structure AtsEntry where
  pasid : BitVec 20
  first : Nat
  count : Nat
  deriving DecidableEq, Repr

/-- The PCIe endpoint (R53 to R58): the MSI-X structures; the power state; what the link trained to; and of configuration space the
three base addresses (R55), the payload and read request sizes and the relaxed-ordering and 10-bit-tag enables of the PCI Express
capability, the PASID enable, and the ATS enable with the translations cached. -/
structure Pcie where
  msixEnable  : Bool
  funcMask    : Bool
  table       : Tab MsixEntry
  pba         : BitVec 2048
  d3hot       : Bool
  requesterId : BitVec 16
  bar0        : BitVec 64
  bar2        : BitVec 64
  bar4        : BitVec 64
  payload     : BitVec 3
  readRequest : BitVec 3
  relaxed     : Bool
  tags10      : Bool
  pasidEnable : Bool
  atsEnable   : Bool
  ats         : List AtsEntry
  linkRate    : BitVec 4
  linkWidth   : BitVec 6
  deriving DecidableEq, Repr

/-- Register access (R9): the held lower halves, the latched upper halves, by offset, and the value the last read
returned. -/
structure Bus where
  held     : Tab (Option (BitVec 32))
  latch    : Tab (Option (BitVec 32))
  readData : BitVec 64
  deriving DecidableEq, Repr

/-- The pins that the part drives (R472): DORMANT_N (R465), TAMPER_OUT_N, which is high while it is off (R383, R393), the keeper socket's (R411),
of which CARD_CLK counts as high while it runs and CARD_IO while it is left to the card, and those whose levels during a reset R472 gives: the
regulator's, DBG_TXD, TDO and the SerDes transmitters, which count as high while they drive, and SD_CLK. -/
inductive Pin where
  | dormantN | tamperOutN | cardRstN | cardVccEn | cardClk | cardIo | avsClk | avsMdata | dbgTxd | tdo | sdClk | serdesTx
  deriving DecidableEq, Repr

/-- A frame to the regulator (R451): a write and commit of Vout in millivolts, a read of Vout, a read of the status. -/
inductive AvsFrame where
  | write (mv : BitVec 12)
  | readVout
  | readStatus
  deriving DecidableEq, Repr

/-- What the part has sent, newest first: everything an observer outside sees that is not host memory. -/
inductive Out where
  | msix (vector : BitVec 11) (addr : BitVec 64) (data : BitVec 32)
  | frame (port : BitVec 1) (bytes : Bytes)
  | line (text : Bytes)
  | card (bytes : Bytes)
  | linkHandshake (k : BitVec 2) (m : HandshakeMsg)
  | linkMsg (k : BitVec 2) (kind : Nat) (body : Bytes)
  | atsDone (tag : BitVec 5)
  | avs (rail : BitVec 4) (f : AvsFrame)
  | pin (p : Pin) (level : Bool)
  deriving DecidableEq, Repr

/-! ### The Stall Plan -/

/-- The five roles of a stall, in the order of their codes 1 to 5 (02_stall_plan, STALLS). -/
inductive Role where
  | lattice | hashsig | stream | code | general
  deriving DecidableEq, Repr

/-- One entry of STALLS (R38, R39). -/
structure StallEntry where
  stall : BitVec 8
  role  : Role
  tiles : BitVec 64
  deriving DecidableEq, Repr

/-- One entry of PITCHES (02_stall_plan, PITCHES). -/
structure PitchPlan where
  weight       : BitVec 8
  queueMax     : BitVec 8
  drbg         : Bool
  ctxReserve   : BitVec 16
  ctxCeiling   : BitVec 16
  cellReserve  : BitVec 16
  cellCeiling  : BitVec 16
  crateReserve : BitVec 16
  crateCeiling : BitVec 16
  deriving DecidableEq, Repr

/-- The Stall Plan, as its image says (R36 to R45). -/
structure Plan where
  svn         : BitVec 16
  signer      : BitVec 8
  planId      : BitVec 64
  stalls      : List StallEntry
  replace     : Bool
  minTiles    : BitVec 8
  priority    : List Role
  ingress     : BitVec 16
  egress      : BitVec 16
  pitches     : List PitchPlan
  pb0Rates    : BitVec 8
  pb1Rates    : BitVec 8
  prpAllowed  : Bool
  frameKinds  : BitVec 4
  alarms      : List (BitVec 16 × BitVec 2)
  holdMs      : BitVec 16
  minMain     : BitVec 8
  minMask     : BitVec 8
  streamHold  : Bool
  deriving DecidableEq, Repr

/-- A minimum SVN on the non-volatile die (R52, R138, R456): two copies, written one after the other, none where one is not intact. -/
structure SvnMin where
  a : Option (BitVec 16)
  b : Option (BitVec 16)
  deriving DecidableEq, Repr

/-- One bank of the non-volatile die: the bank header and the image (R49, R137, R456). -/
structure Bank where
  seq   : BitVec 32
  len   : BitVec 32
  hash  : Bytes
  mark  : BitVec 32
  image : Bytes
  deriving DecidableEq, Repr

/-- The PLAN block: the plan in force and what has become of its stalls (R40, R50, PLAN registers). `members` holds the
tiles now in each stall; `spares` the spare tiles not yet used. -/
structure PlanBlock where
  inForce    : Option Plan
  bank       : Bool
  altUsed    : Bool
  fallback   : Bool
  floorApplied : Bool
  errDetail  : BitVec 16
  errAtStart : Bool
  errBank    : Bool
  pint       : BitVec 4
  pmask      : BitVec 4
  members    : Tab (BitVec 64)
  spares     : BitVec 64
  usedSpares : BitVec 7
  retired    : BitVec 32
  joining    : List Nat
  deriving DecidableEq, Repr

/-- The registers of a tile core, and its workbench as a vector program sees it, with the lengths that bound its accesses (R139,
R151). `beats` counts what the program has taken (R143). Outside a vector program all of it is zero (R24). -/
structure VCore where
  g      : Tab (BitVec 36)
  w      : Tab (BitVec 4608)
  vlen   : BitVec 10
  vbound : BitVec 10
  vq     : BitVec 36
  pc     : BitVec 16
  mem    : Tab Byte
  codeLen : Nat
  constLen : Nat
  key1   : Nat
  key2   : Nat
  beats  : Nat
  deriving DecidableEq, Repr

/-- What a job's last microword reported (RSTAT of R122): done, with the status that the failure mask gives, or done with
FAULT_DETECTED. -/
inductive MicroEnd where
  | done (mask : BitVec 4608)
  | detected
  deriving DecidableEq, Repr

/-- A tile sequencer with what its microwords act on beside the core's registers and the workbench (R12, R119 to R122): the address of
the next word, the loop counters LC0 to LC3, JOB_KIND, the job's public input length counter behind MORE, ABORT_REQ, PUBFLAG, the
iteration counter, the address registers A0 to A7 with the job base, the public operand region, the second and third shares of the
vector registers, the lanes of the Keccak units, the SHA-2 midstate, what the job has sent out, and how it ended. `bench` is the size of the
workbench that the job reaches and `room` the part of it that it may write: less than the whole where the tile's shelf holds a key (R240). -/
structure Micro where
  next     : BitVec 12
  lc       : List (BitVec 12)
  jobKind  : BitVec 8
  more     : Nat
  abortReq : Bool
  pubflag  : Bool
  iters    : Nat
  areg     : List Nat
  base     : Nat
  pubBase  : Nat
  pubLen   : Nat
  shareB   : Tab (BitVec 4608)
  shareC   : Tab (BitVec 4608)
  three    : Bool
  keccak   : List (List Nat)
  midstate : List Nat
  sent     : Bytes
  sentCtx  : Bytes
  ended    : Option MicroEnd
  bench    : Nat
  room     : Nat
  deriving DecidableEq, Repr

/-- An address of a tile store that failed (R127): the scrubber's place at the time, and whether the store has been reloaded since. -/
structure BadWord where
  addr     : BitVec 12
  scrub    : BitVec 12
  reloaded : Bool
  deriving DecidableEq, Repr

/-- A tile (R12, R127, R392): `testing` runs the self-test after a dual-rail fault, `reloading` has its store
reloaded. -/
inductive TileState where
  | idle
  | busy (j : JobId)
  | testing
  | reloading
  | retired
  deriving DecidableEq, Repr

/-- One tile: its sequencer, the bits of its store that have turned (R126), and what its repair rules remember: when a dual-rail
fault last struck it (R392), the addresses that failed within a scrub pass (R127), and whether it reloads its store after its job
(R128). -/
structure Tile where
  state     : TileState
  faultAt   : Option Nat
  badWords  : List BadWord
  flips     : List (BitVec 12 × BitVec 144)
  reloadDue : Bool
  shelf     : Option (BitVec 14)
  shelfData : Bytes
  core      : VCore
  micro     : Micro
  deriving DecidableEq, Repr

/-! ### Queues and jobs -/

/-- The shadowed set of a queue's entry (R60). -/
structure QueueCfg where
  descBase  : BitVec 64
  cplBase   : BitVec 64
  log2Size  : BitVec 5
  local_    : BitVec 6
  assigned  : Bool
  pitch     : BitVec 8
  weight    : BitVec 8
  burst     : BitVec 7
  vector    : BitVec 11
  coalCount : BitVec 8
  coalTime  : BitVec 16
  deriving DecidableEq, Repr

/-- Queue states, in the order of their codes (R62). -/
inductive QueueState where
  | disabled | enabled | draining | error
  deriving DecidableEq, Repr

/-- A queue: both sets, its status and counters (R60), its allowance in the round (R68) and the records accumulated
since its last signal (R75). -/
structure Queue where
  shadow     : QueueCfg
  cfg        : QueueCfg
  state      : QueueState
  commitRefused : Bool
  cmdRefused : Bool
  dbRejected : Bool
  errorInt   : Bool
  refuseDetail : BitVec 16
  errDetail  : BitVec 16
  h          : BitVec 32
  w          : BitVec 32
  p          : BitVec 32
  c          : BitVec 32
  dbRejects  : BitVec 16
  cplDropped : BitVec 16
  left       : Nat
  accumulated : Nat
  deriving DecidableEq, Repr

/-- The fetcher's place in its cycle (R68): the visit in progress with its remaining allowance, the last pitch served,
and the last local index served in each pitch; and the Porter channel served last in its round (R92). -/
structure Arb where
  visit     : Option (BitVec 8 × Nat)
  lastPitch : Option (BitVec 8)
  lastLocal : Tab (Option (BitVec 6))
  lastMover : Option (BitVec 6)
  deriving DecidableEq, Repr

/-- Where a job runs. -/
inductive Unit_ where
  | tile (t : BitVec 6)
  | engine (e : BitVec 3)
  | core
  | peer (k : BitVec 2)
  deriving DecidableEq, Repr

/-- How far a job has come: its descriptor read; checked and waiting for a unit; running; a digest in the suspend store, its
tile yielded (R223); its result being written to the non-volatile die (R348); ended, with its record due. -/
inductive JobPhase where
  | fetched
  | waiting
  | running
  | suspended
  | storing
  | ended
  deriving DecidableEq, Repr

/-- What a job's record will say (R73), and the bytes it writes at OUT_ADDR. -/
structure JobOut where
  status  : BitVec 16
  detail  : BitVec 16
  result  : BitVec 64
  output  : Bytes
  moved   : Option Nat
  elapsed : BitVec 32
  deriving DecidableEq, Repr

/-! ### Keys -/

/-- A stateful key (R198, R201): its seeds, public key and trees, NEXT in RAM, NEXT_FREE and LIMIT, the 64 bytes of the state records
A and B, which of the two Ledger records of R204 are written (1 for LIMIT / 16, 2 for 1,024), and the
contexts bound as its caches, top level first (R206). -/
structure Stateful where
  seed     : Bytes
  pub      : Bytes
  levels   : Nat
  height   : Nat
  next     : Nat
  nextFree : Nat
  limit    : Nat
  recA     : Bytes
  recB     : Bytes
  lowSaid  : BitVec 2
  caches   : List (BitVec 14)
  deriving DecidableEq, Repr

/-- A key: the slot header of R340 with its value. `bad` holds the DETAIL of step 5 of R344, `leaves` the leaf values of the top
hypertree layer that the slot of an SLH-DSA key holds beside its value (R192). -/
structure Key where
  typ        : BitVec 16
  paramSet   : BitVec 16
  pitch      : BitVec 8
  cells      : BitVec 8
  persist    : Bool
  bad        : Option (BitVec 16)
  shares3    : Bool
  faultPolicy : BitVec 2
  origin     : BitVec 2
  exportable : Bool
  usage      : BitVec 16
  migratable : Bool
  progSigner : BitVec 32
  curveId    : BitVec 64
  created    : BitVec 64
  value      : Bytes
  leaves     : Bytes
  stateful   : Option Stateful
  deriving DecidableEq, Repr

/-- What a vault slot holds: nothing; a reservation of a job's new key (R171); a persistent key that is not loaded
(R349); a key. -/
inductive Slot where
  | free
  | reserved (pitch cells : BitVec 8)
  | unloaded (k : Key)
  | key (k : Key)
  deriving DecidableEq, Repr

/-- A persistent key as the non-volatile die holds it (R348, R350): its directory entry, of the first block, the block count and the valid mark,
0x5A when it is whole; its wrapped key record; what the die holds of a stateful key, which has no key value (R198, R341), its state records
among it; and the mark MIGRATED (R117). -/
structure NvKey where
  first    : Nat
  blocks   : Nat
  mark     : BitVec 8
  record   : Bytes
  stateful : Option Stateful
  migrated : Bool
  deriving DecidableEq, Repr

/-- The vault (R339 to R357). `returned` holds the slots that a return from the Dormant state freed, with the generation that each had (R346); `tagKey` is the key of the slots' integrity tags, made at each start (R347). -/
structure Vault where
  slots     : Tab Slot
  gens      : Tab (Option (BitVec 8))
  startGen  : BitVec 8
  freed     : List Nat
  returned  : List (BitVec 13 × BitVec 8)
  rootValid : Bool
  rootNew   : Bool
  nvLoaded  : Bool
  destroyed : Bool
  tagKey    : Bytes
  loadFails : BitVec 16
  vint      : BitVec 4
  vmask     : BitVec 4
  signers   : List Bytes
  svns      : List (BitVec 16)
  deriving DecidableEq, Repr

/-! ### Crates and the Porter -/

/-- A crate that a pitch holds (R79 to R85): its flag, and whether its return is requested. -/
structure Crate where
  pitch : BitVec 8
  flag  : BitVec 8
  returning : Bool
  deriving DecidableEq, Repr

/-- The CRATE administration registers and the crates (R86). `parked` is the committed PITCH of a crate that is not assigned. -/
structure Crates where
  held     : Tab (Option Crate)
  parked   : Tab (BitVec 8)
  data     : List Host.Cell
  selShadow : BitVec 11
  pitchShadow : BitVec 8
  assignedShadow : Bool
  commitRefused : Bool
  cmdRefused : Bool
  dropInt  : Bool
  flagInt  : Bool
  poisonInt : Bool
  refuseDetail : BitVec 16
  drops    : BitVec 32
  flagRejects : BitVec 32
  mask     : BitVec 3
  deriving DecidableEq, Repr

/-- The shadowed set of a Porter channel (R87). -/
structure ChannelCfg where
  assigned : Bool
  progLen  : BitVec 7
  pitch    : BitVec 8
  vector   : BitVec 11
  base     : BitVec 64
  deriving DecidableEq, Repr

/-- A Porter instruction, decoded (R90). -/
inductive PInsn where
  | move (srcCrate dstCrate : Bool) (swap : BitVec 2) (len : BitVec 32) (src dst : BitVec 64) (srcStride dstStride : BitVec 32)
  | loop (count : BitVec 32) (body : BitVec 8)
  | wait (cond : BitVec 2) (timeout : BitVec 32) (addr : BitVec 64) (value mask : BitVec 32)
  | signal (write irq ret : Bool) (value : BitVec 32) (addr : BitVec 64) (first : BitVec 11) (count : BitVec 16)
  | fence
  | fin (value : BitVec 32)
  deriving DecidableEq, Repr

/-- A loop in progress (R91): its first and last body instruction, the iteration counted from 0, and the count. -/
structure PLoop where
  first : Nat
  last  : Nat
  iter  : Nat
  count : Nat
  deriving DecidableEq, Repr

/-- A MOVE in progress (R91, R92): its ranges with the strides applied, and the bytes already moved. -/
structure PMove where
  srcCrate : Bool
  dstCrate : Bool
  swap : BitVec 2
  len  : Nat
  src  : Nat
  dst  : Nat
  done : Nat
  deriving DecidableEq, Repr

/-- What a channel is doing (R88 to R97): the program, the next instruction, the loops open, the bytes of the current
MOVE, whether a WAIT polls, whether a SIGNAL has asked for its returns and the crates that it waits for, the last host address written since
the last read-back, the job that started it, and the PORTER_STOP jobs that wait for its end. -/
structure PRun where
  prog      : List PInsn
  pc        : Nat
  loops     : List PLoop
  moving    : Option PMove
  waiting   : Bool
  signalling : Bool
  awaiting  : List Nat
  lastWrite : Option Nat
  job       : Option JobId
  stopping  : Bool
  stoppers  : List JobId
  deriving DecidableEq, Repr

/-- A Porter channel (R87). `unread` is the last host address that its programs have written and not read back (R93). -/
structure Channel where
  shadow   : ChannelCfg
  cfg      : ChannelCfg
  run      : Option PRun
  commitRefused : Bool
  cmdRefused : Bool
  doneInt  : Bool
  errInt   : Bool
  refuseDetail : BitVec 16
  lastIndex : BitVec 6
  endDetail : BitVec 16
  bytes    : BitVec 64
  unread   : Option Nat
  deriving DecidableEq, Repr

/-! ### Pitches -/

/-- The shadowed set of a pitch-table entry (R99). -/
structure PitchCfg where
  pasid      : BitVec 20
  rid        : BitVec 16
  bound      : Bool
  weight     : BitVec 8
  queueLimit : BitVec 7
  migMode    : Bool
  vector     : BitVec 11
  ctxCeiling : BitVec 15
  cellCeiling : BitVec 14
  crateCeiling : BitVec 12
  logBase    : BitVec 64
  logPages   : BitVec 28
  logBuf0    : BitVec 64
  logBuf1    : BitVec 64
  deriving DecidableEq, Repr

/-- Pitch states, in the order of their codes (R98). -/
inductive PitchState where
  | absent | unbound | active | resetting | freezing | frozen | exported
  deriving DecidableEq, Repr

/-- What made a pitch reset (event 0x0101 of R404). -/
inductive ResetCause where
  | command | self | fault | pcie | d3hot
  deriving DecidableEq, Repr

/-- A pitch-table entry with its page registers (R98 to R113). -/
structure Pitch where
  shadow     : PitchCfg
  cfg        : PitchCfg
  state      : PitchState
  logOn      : Bool
  logBuf     : Bool
  logOverflow : Bool
  commitRefused : Bool
  cmdRefused : Bool
  eventInt   : Bool
  faultReset : Bool
  refuseDetail : BitVec 16
  epoch      : BitVec 16
  keysExcluded : BitVec 16
  swapPending : Bool
  releaseCtx : Bool
  resetCause : ResetCause
  resetDue   : Option Bool
  ppMigrated : Bool
  ppResetDone : Bool
  ppFaultReset : Bool
  ppMask     : BitVec 3
  deriving DecidableEq, Repr

/-! ### Random numbers -/

/-- Bean states, in the order of their codes (R336). -/
inductive BeanState where
  | inService | testing | excluded | retired
  deriving DecidableEq, Repr

/-- One bean (R320 to R323, R336): the window of its balancing loop, the repetition count, the adaptive proportion
window, and the samples in its delay line, newest first. -/
structure Bean where
  state     : BeanState
  fails     : BitVec 2
  lastCause : BitVec 2
  trim      : BitVec 7
  ones      : BitVec 13
  winCount  : Nat
  winOnes   : Nat
  lastBit   : Bool
  runLen    : Nat
  aptFirst  : Bool
  aptPos    : Nat
  aptEqual  : Nat
  delay     : List Bool
  raw       : Bool
  deriving DecidableEq, Repr

/-- A pitch's DRBG instance (R327, R328): CTR_DRBG's key and V, the generate calls since its last reseed, whether a
reseed is due, and whether its instantiation waits for carafe bytes. -/
structure Drbg where
  seeded     : Bool
  key        : Bytes
  v          : Bytes
  calls      : BitVec 32
  due        : Bool
  pending    : Bool
  deriving DecidableEq, Repr

/-- What a job asks of its pitch's instance: nothing; a generate call; a generate call with a reseed before it; a
reseed; an instantiation; bytes of the carafe itself (R371). -/
inductive Draw where
  | nothing | call | fresh | reseed | instantiate
  | carafe (n : Nat)
  deriving DecidableEq, Repr

/-- A request that the RNG block has received and not served (R325, R328): a job's, or with no job the instantiation of a pitch's
instance. -/
structure Request where
  job   : Option JobId
  pitch : BitVec 8
  draw  : Draw
  deriving DecidableEq, Repr

/-- The RNG block (R320 to R336). `carafe` holds its bytes in the order they entered; `maskReg` never leaves the part;
`rawBits` are the samples of the RNG_RAW job `rawJob` so far, oldest first; `mainSince` and `maskSince` say when the failures in
force began; `requests` are the requests that wait, in order of receipt. -/
structure Rng where
  beans      : Tab Bean
  started    : Bool
  mainFail   : Bool
  maskFail   : Bool
  mainHold   : Bool
  maskHold   : Bool
  feedsStopped : Bool
  streamHeld : Bool
  rawJob     : Option JobId
  carafe     : Bytes
  rawBits    : List Bool
  grind      : List Bool
  maskReg    : BitVec 4096
  drbgs      : Tab Drbg
  requests   : List Request
  mainSince  : Nat
  maskSince  : Nat
  rint       : BitVec 6
  rmask      : BitVec 6
  rctFails   : BitVec 16
  aptFails   : BitVec 16
  reseeds    : BitVec 32
  entropyFails : BitVec 32
  deriving DecidableEq, Repr

/-! ### Life cycle, alarms, battery -/

/-- What a double decision of the life-cycle block decides (R365): a transition to a target under an authorisation, whose hash
the journal keeps, or a grant of scopes by a signer. -/
inductive LifeAsk where
  | transition (target : BitVec 5) (auth : Bytes)
  | grant (scopes : BitVec 16) (signer : BitVec 2)
  deriving DecidableEq, Repr

/-- A decision of the life-cycle block: the host job that asks, none for the monitor; comparator A's refusal, as STATUS, DETAIL and the
monitor's code, none where A accepts; and whether both comparators have agreed to it, so that the work of R368 and R369 goes on. -/
structure LifeDecision where
  job    : Option JobId
  ask    : LifeAsk
  bad    : Option (BitVec 16 × BitVec 16 × BitVec 8)
  agreed : Bool
  deriving DecidableEq, Repr

/-- The life-cycle block and the monitor (R360 to R377). `closing` holds from the journal's first record to the restart
(R368). -/
structure Life where
  fuses      : List (BitVec 16)
  inForce    : BitVec 5
  nonce      : Option Bytes
  granted    : Option (BitVec 16 × BitVec 2)
  refusals   : BitVec 16
  decision   : Option LifeDecision
  closing    : Bool
  lint       : BitVec 4
  lmask      : BitVec 4
  staging    : Tab Byte
  baud       : BitVec 3
  baudNew    : Option (BitVec 3)
  baudSwitched : Bool
  deriving DecidableEq, Repr

/-- One alarm source (R380, R396): in force, its trips, the response that acts for it, and when its last Evidence Log
entry at NOTE or HALT was made (R387). -/
structure Source where
  inForce : Bool
  trips   : BitVec 16
  acting  : BitVec 2
  entryAt : Option Nat
  deriving DecidableEq, Repr

/-- An entry of the Evidence Log (R394). -/
structure Evidence where
  source   : BitVec 16
  response : BitVec 8
  flags    : BitVec 8
  optime   : BitVec 32
  cycles   : BitVec 24
  lifeState : BitVec 8
  seconds  : BitVec 32
  detail   : Bytes
  deriving DecidableEq, Repr

/-- A double decision in progress (R388): the sources that A decided in it, with the readings, and the response. -/
structure Decision where
  sources  : List (AlarmSource × TripReading)
  response : BitVec 2
  deriving DecidableEq, Repr

/-- The TAMPER and ALARM block (R380 to R396). `badRails` are the readings outside their windows (R384), and `tjAcc` is Tj's
tracked value in 1/3,000,000 of a quarter degree (R382). `railAcc` are the rails' tracked values in 1/1,000,000 mV (R381). `evFresh` counts
the last entries of the Evidence Log, whose writing began at `evAt` and takes 40 µs each (R394). -/
structure Alarm where
  sources   : Tab Source
  decision  : Option Decision
  erased    : Bool
  aint      : BitVec 5
  amask     : BitVec 5
  dataCorr  : BitVec 32
  loops     : BitVec 4
  lid       : Bool
  mesh      : Bool
  tj        : BitVec 12
  tjAcc     : Option Int
  railNow   : List (BitVec 12)
  railTracked : List (BitVec 12)
  railAcc   : List Nat
  evFresh   : Nat
  evAt      : Nat
  badRails  : List Monitor
  transferred : BitVec 7
  deriving DecidableEq, Repr

/-- The battery domain (R449, R390, R391). `unrecorded` are the failed starts that the Ledger has not recorded yet, newest
first, with their attempt counts (R460, event 0x0F02), and `inStart` says that ATTEMPTS was raised by a start that neither
failed nor reached READY; `vbatMv` is the last reading of VBAT in the domain (R396). `fileGood` says that the register file has kept its supply
since it was written, `crc` is the CRC that it carries, and `wroteAt` the moment of its last rewrite. -/
structure Battery where
  powered    : Bool
  onBattery  : Bool
  fileGood   : Bool
  rootKey    : Option Bytes
  attempts   : BitVec 8
  lockLatch  : Bool
  dormant    : Bool
  lifecycleShutter : Bool
  lockSource : BitVec 16
  secondsCopy : BitVec 32
  responses  : Option (List (BitVec 2))
  delayReg   : BitVec 16
  history    : List (BitVec 16)
  unrecorded : List (BitVec 16 × BitVec 8)
  inStart    : Bool
  crc        : BitVec 32
  wroteAt    : Nat
  seconds    : BitVec 32
  crystal    : Bool
  abnormal   : List AlarmSource
  vbatMv     : BitVec 12
  buffer     : List Evidence
  deriving DecidableEq, Repr

/-! ### Ledger -/

/-- A Ledger record (R399) with its CRC as stored, or a torn slot, of which `reach` bytes were written. -/
structure Record where
  event   : BitVec 16
  pitch   : BitVec 8
  cycles  : BitVec 24
  flags   : BitVec 8
  optime  : BitVec 32
  tally   : BitVec 16
  check   : BitVec 8
  detail  : Bytes
  crc     : BitVec 32
  torn    : Bool
  reach   : Nat
  deriving DecidableEq, Repr

/-- An event on its way to the Ledger (R403), with the occurrences folded into it while it waits (R401). -/
structure Event where
  event  : BitVec 16
  pitch  : BitVec 8
  flags  : BitVec 8
  optime : BitVec 32
  cycles : BitVec 24
  detail : Bytes
  count  : Nat
  deriving DecidableEq, Repr

/-- The Ledger (R398 to R409). `slots` are in slot order, newest last. `counting` holds, from the count of a power cycle to READY, the two
copies of the count as they stood before (R400). -/
structure Ledger where
  slots   : List Record
  full    : Bool
  clearing : Bool
  clearJob : Option JobId
  tornAtStart : Bool
  total   : BitVec 32
  lost    : BitVec 32
  dropped : BitVec 32
  badCrc  : BitVec 32
  lint    : BitVec 5
  lmask   : BitVec 5
  queue   : List Event
  droppedBefore : Bool
  pending : Nat
  hours   : BitVec 20
  secs    : BitVec 12
  cycles  : BitVec 24
  counting : Option (Option (BitVec 24) × Option (BitVec 24))
  deriving DecidableEq, Repr

/-! ### Power -/

/-- PACE, power and boot (R450 to R467). -/
structure Pace where
  target    : BitVec 12
  avsRail   : BitVec 4
  beat      : BitVec 12
  avsFault  : Bool
  refused   : Bool
  commanded : BitVec 12
  readback  : BitVec 12
  running   : Bool
  badFrames : Nat
  commandAge : Nat
  pint      : BitVec 3
  pmask     : BitVec 3
  deriving DecidableEq, Repr

/-- The three pairs of banks (R49, R137, R456). -/
inductive BankKind where
  | plan | patch | fw
  deriving DecidableEq, Repr

/-- BOOT registers and the firmware in force (R455, R456, R467). `marks` are the banks that this start decommitted, whose marks began to be
written at `marksAt` (R460). -/
structure Boot where
  attempts   : BitVec 3
  fallback   : Bool
  fwBank     : Bool
  fwAltUsed  : Bool
  dormantReturn : Bool
  ramLost    : Bool
  fwDetail   : BitVec 16
  readyUs    : BitVec 32
  fwSvn      : BitVec 16
  fwId       : BitVec 64
  baseId     : BitVec 64
  fwInForce  : Bool
  meas       : List Bytes
  marks      : List (BankKind × Bool)
  marksAt    : Nat
  deriving DecidableEq, Repr

/-! ### Prokai Link -/

/-- Link states, in the order of their codes (R445). -/
inductive LinkState where
  | down | training | handshake | up | refused
  deriving DecidableEq, Repr

/-- One link (R433 to R445): its registers, and the handshake and session it runs. -/
structure Link where
  state     : LinkState
  lanes     : BitVec 2
  refuseDetail : BitVec 16
  peerUid   : BitVec 64
  tx        : BitVec 32
  rx        : BitVec 32
  tagFail   : BitVec 32
  retrains  : BitVec 32
  step      : BitVec 2
  transcript : Bytes
  peerKey   : Bytes
  secret    : Bytes
  ephemeral : Bytes
  keys      : Option (Bytes × Bytes)
  rekeying  : Bool
  load      : List (BitVec 32)
  loadFull  : Bool
  peerHolds : List (BitVec 14)
  deriving DecidableEq, Repr

/-- The LINK block (R445): `commitDetail` is the DETAIL of the last refused commit, which no register shows, and `lostCtx` the contexts, with their
owners, that the last restarts took (R439). -/
structure Links where
  part      : BitVec 2
  spill     : Bool
  spillBeats : BitVec 24
  allow     : List (BitVec 64)
  spillShadow : Bool
  beatsShadow : BitVec 24
  allowShadow : List (BitVec 64)
  commitDetail : BitVec 16
  lostCtx   : List (BitVec 14 × BitVec 8)
  lint      : BitVec 5
  lmask     : BitVec 5
  link      : List Link
  deriving DecidableEq, Repr

/-! ### Control stores -/

/-- The segment tags of the two store images and of the patch entries (R130, R133). -/
structure TagTable where
  hall  : List Bytes
  tile  : List Bytes
  patch : List Bytes
  deriving DecidableEq, Repr

/-- What a Hall controller word has the controller do (HOP of R129), with the variant: the fields that its class uses. -/
inductive HallOp where
  | none_
  | fetch (variant : BitVec 4) (tgt : BitVec 8) (fsel : BitVec 14) (imm : BitVec 64)
  | check (field : BitVec 64)
  | complete (status detail : BitVec 16)
  | place (variant : BitVec 4) (tgt : BitVec 8) (imm : BitVec 64)
  | vault (variant : BitVec 4) (tgt : BitVec 8) (fsel : BitVec 14)
  | move (variant : BitVec 4) (tgt : BitVec 8) (fsel : BitVec 14) (imm : BitVec 64)
  | ctx (variant : BitVec 4) (tgt : BitVec 8) (fsel : BitVec 14) (imm : BitVec 64)
  | alarm (variant : BitVec 4) (tgt : BitVec 8) (imm : BitVec 64)
  deriving DecidableEq, Repr

/-- The Hall controller's sequencer (R129): the address of the next word, the last CHECK result, the loop counters, and what the last
word did. -/
structure HallSeq where
  next  : BitVec 14
  check : Bool
  loops : List Nat
  op    : HallOp
  deriving DecidableEq, Repr

/-- The microcode patch in force (R134, R137): its entries, decoded, a tile word with the CHECK that the part computes (R135). -/
structure Patch where
  svn   : BitVec 16
  id    : BitVec 64
  tile  : List (BitVec 12 × BitVec 144)
  hall  : List (BitVec 14 × BitVec 288)
  deriving DecidableEq, Repr

/-- The SEQ registers and the control stores (R122 to R138): `tileBase` is the image of the tile stores, `hallA` and `hallB` the two
copies of the Hall controller's, `reloadKey` the key of this start with the segment tags under it, in two copies (R130,
R133); `scrubAt` and `patchAt` are the scrubber's places, in a tile store and in patch RAM, and `patchFlips` the bits of patch RAM's 64-bit
units and of their check bits that have turned. -/
structure Seq where
  patch     : Option Patch
  unpatched : Bool
  bank      : Bool
  altUsed   : Bool
  reloading : Bool
  attempt   : Nat
  mismatches : Nat
  mismatchAddr : BitVec 14
  errDetail : BitVec 16
  errAtStart : Bool
  errBank   : Bool
  eccCorr   : BitVec 32
  eccUncorr : BitVec 32
  hallReloads : BitVec 16
  tileReloads : BitVec 16
  faultAddr : BitVec 14
  faultHall : Bool
  faultTile : BitVec 6
  faultKind : BitVec 2
  sint      : BitVec 3
  smask     : BitVec 3
  tileBase  : Bytes
  hallA     : Bytes
  hallB     : Bytes
  reloadKey : Bytes
  tagsA     : TagTable
  tagsB     : TagTable
  scrubAt   : BitVec 12
  patchAt   : BitVec 13
  patchFlips : List (BitVec 13 × BitVec 72)
  hallSeq   : HallSeq
  deriving DecidableEq, Repr

/-! ### Process bus -/

/-- A key entry of a flow record (R297). -/
structure FlowEntry where
  handle     : BitVec 32
  keyId      : BitVec 32
  alg        : BitVec 8
  timeToNext : BitVec 16
  timeOfKey  : BitVec 32
  deriving DecidableEq, Repr

/-- A flow record (R297). -/
structure FlowRec where
  kind   : BitVec 8
  egress : Bool
  ports  : BitVec 2
  flags  : BitVec 5
  vid    : BitVec 12
  tagged : Bool
  appid  : BitVec 16
  dstMac : Bytes
  srcMac : Bytes
  ipVer  : BitVec 8
  srcIp  : Bytes
  dstIp  : Bytes
  dq     : BitVec 16
  wrap   : BitVec 16
  window : BitVec 16
  graceMs : BitVec 16
  skewMs : BitVec 16
  user   : BitVec 32
  a      : FlowEntry
  b      : FlowEntry
  deriving DecidableEq, Repr

/-- A flow (R299, R302, R311): its record, replay state and counters, when its grace ends, the prepared key material of its
entries, the KEY_IDs of entries that a grace emptied, the entry last activated, and for
a standby the part and context it stands by for (R443). -/
structure Flow where
  record   : FlowRec
  tracking : Bool
  newerB   : Bool
  stall    : BitVec 8
  counter  : BitVec 32
  stNum    : BitVec 32
  graceEnd : Option Nat
  rxSec    : BitVec 48
  rxNs     : BitVec 32
  pass     : BitVec 32
  failMac  : BitVec 32
  failReplay : BitVec 32
  failKey  : BitVec 32
  failLen  : BitVec 32
  failTime : BitVec 32
  dropped  : BitVec 32
  keyA     : Bytes
  keyB     : Bytes
  activeEntry : Option Bool
  retiredA : Option (BitVec 32)
  retiredB : Option (BitVec 32)
  newFirst : Bool
  spdu     : BitVec 32
  ivFixed  : Bytes
  sent     : Nat
  standby  : Option (BitVec 2 × BitVec 14)
  active   : Bool
  takeover : Bool
  standbyAt : Option (BitVec 2)
  deriving DecidableEq, Repr

/-- A port's shadowed set (R286). -/
structure PortCfg where
  rate   : BitVec 2
  fec    : BitVec 2
  enable : Bool
  an     : Bool
  deriving DecidableEq, Repr

/-- A process-bus port: its sets, status and counters (R285 to R287, PB registers), and the bytes that wait for it in the egress stream
buffer (R311). -/
structure Port where
  shadow   : PortCfg
  cfg      : PortCfg
  link     : Bool
  eqAdapted : Bool
  anDone   : Bool
  fecLock  : Bool
  commitRefused : Bool
  linkChange : Bool
  eq       : BitVec 32
  refuseDetail : BitVec 16
  counters : List (BitVec 32)
  backlog  : Nat
  deriving DecidableEq, Repr

/-- The STR_MODE and STR_HOSTPATH set (R317). -/
structure StrCfg where
  prp       : Bool
  kinds     : BitVec 4
  unmatchedDeliver : Bool
  otherDeliver : Bool
  unmatchedDq : BitVec 8
  pb0Dq     : BitVec 8
  pb1Dq     : BitVec 8
  deriving DecidableEq, Repr

/-- An entry of the duplicate-discard table (R289). -/
structure PrpEntry where
  src     : BitVec 48
  highest : BitVec 16
  seen    : BitVec 64
  deriving DecidableEq, Repr

/-- A frame held in the ingress buffer (R314): the port, its receive time, whether it came under PRP with a trailer, and
the bytes from the destination MAC to the last byte before the trailer or the FCS. -/
structure Held where
  port  : BitVec 1
  sec   : BitVec 48
  ns    : BitVec 32
  rct   : Bool
  seq   : BitVec 16
  bytes : Bytes
  deriving DecidableEq, Repr

/-- A delivery queue's shadowed set (R307). -/
structure DqCfg where
  base      : BitVec 64
  ciAddr    : BitVec 64
  log2Slots : BitVec 5
  slot      : BitVec 2
  pitch     : BitVec 8
  vector    : BitVec 11
  coalCount : BitVec 8
  coalTime  : BitVec 16
  deriving DecidableEq, Repr

/-- A delivery queue (R307 to R309). -/
structure Dq where
  shadow   : DqCfg
  cfg      : DqCfg
  enabled  : Bool
  commitRefused : Bool
  cmdRefused : Bool
  ciFault  : Bool
  refuseDetail : BitVec 16
  pi       : BitVec 32
  ci       : BitVec 32
  drops    : BitVec 32
  since    : BitVec 32
  accumulated : Nat
  waiting  : List Bytes
  deriving DecidableEq, Repr

/-- The STREAM block (R285 to R318). -/
structure Stream where
  shadow   : StrCfg
  cfg      : StrCfg
  commitRefused : Bool
  refuseDetail : BitVec 16
  timeValid : Bool
  timeSec  : BitVec 48
  timeNs   : BitVec 30
  setSec   : BitVec 48
  setNs    : BitVec 30
  rate     : BitVec 32
  rateAcc  : Int
  utcOffset : BitVec 16
  sint     : BitVec 4
  smask    : BitVec 4
  dropsUnmatched : BitVec 32
  dropsNoStall : BitVec 32
  dropsOther : BitVec 32
  flowPitches : BitVec 256
  ports    : List Port
  prp      : List PrpEntry
  egressSeq : BitVec 16
  tokens   : Nat
  held     : List Held
  dqs      : Tab Dq
  deriving DecidableEq, Repr

/-! ### Cards -/

/-- A custodian entry (R417). -/
structure Custodian where
  serial  : BitVec 32
  keyHash : Bytes
  roles   : BitVec 8
  deriving DecidableEq, Repr

/-- A quorum session (R418): its purpose, whether it is OPEN, its nonce, the serials counted, and when it ends. -/
structure Session where
  purpose : BitVec 3
  opened  : Bool
  nonce   : Bytes
  serials : List (BitVec 32)
  endsAt  : Nat
  deriving DecidableEq, Repr

/-- Where a keeper exchange stands (R411 to R416): the ATR, the PPS response to a request, the IFS response, the identity
record, or the answer to AUTHORISE is due. -/
inductive KeeperStage where
  | atr
  | pps (request : Bytes)
  | ifs
  | identity
  | authorise
  | checking (auth : Bool)
  deriving DecidableEq, Repr

/-- A keeper exchange (R412 to R415): its job, whether this is the second activation, the sequence numbers of both sides,
the command and what of it the card has not taken, the answer so far, the last block sent, the error recovery so far,
and the identity record read. While a signature is verified (R419): the tile that does it, when it is done, the faults met, and the tile
to avoid after one. -/
structure KeeperRun where
  job      : JobId
  second   : Bool
  stage    : KeeperStage
  ns       : Bool
  nr       : Bool
  cmd      : Bytes
  rest     : Bytes
  resp     : Bytes
  last     : Bytes
  asks     : Nat
  resyncs  : Nat
  resyncing : Bool
  resynced : Bool
  wtxUs    : Nat
  identity : Bytes
  unit     : Option (BitVec 6)
  doneAt   : Nat
  faults   : Nat
  avoid    : Option (BitVec 6)
  deriving DecidableEq, Repr

/-- A mounted archive card (R423 to R428): its modes and the superblock in force. -/
structure ArcMount where
  readonly  : Bool
  wide      : Bool
  highSpeed : Bool
  foreign   : Bool
  inB       : Bool
  seq       : BitVec 32
  formatId  : BitVec 64
  uid       : BitVec 64
  nextLba   : BitVec 32
  lastSeg   : BitVec 32
  ledgerMark : BitVec 32
  evidenceMark : BitVec 32
  deriving DecidableEq, Repr

/-- An archive job's work (R427): the blocks that it writes, in order, what it leaves mounted, and whether SD_WP rises before a write of
its (R424). -/
structure ArcWork where
  job     : JobId
  writes  : List (Nat × Bytes)
  mount   : Option ArcMount
  protect : Bool
  deriving DecidableEq, Repr

/-- The CARDS block (R411 to R432). `arcGiven` counts the write commands given to the archive card since its insertion. -/
structure Cards where
  keeperIn : Bool
  keeper   : Option KeeperRun
  fi       : BitVec 4
  di       : BitVec 4
  ifsc     : BitVec 8
  bwi      : BitVec 4
  cwi      : BitVec 4
  retries  : BitVec 8
  session  : Option Session
  lastSerials : List (BitVec 32)
  pitches  : BitVec 256
  arcCard  : Option ArcCard
  arcMount : Option ArcMount
  arcWork  : Option ArcWork
  arcGiven : Nat
  cint     : BitVec 6
  cmask    : BitVec 6
  deriving DecidableEq, Repr

/-! ### Contexts, jobs, the non-volatile die, the clock -/

/-- The stale mark of a context (R105). -/
inductive Stale where
  | current | oldEpoch | damaged
  deriving DecidableEq, Repr

/-- What a context of each kind holds. -/
inductive CtxData where
  | empty
  | bytes (bs : Bytes)
  | flow (f : Flow)
  deriving DecidableEq, Repr

/-- A context of the context store (R104, R105): its owner, its stale mark, its kind (0 for none) and its content. -/
structure Context where
  owner : BitVec 8
  stale : Stale
  kind  : BitVec 16
  data  : CtxData
  deriving DecidableEq, Repr

/-- What an administration job changes in a flow when it completes (R298): the flow deleted, an entry written with its key
material, the mutable fields replaced, the replay state set to LEARNING. -/
inductive FlowOp where
  | delete
  | key (b : Bool) (e : FlowEntry) (material : Bytes) (activate : Bool)
  | set (r : FlowRec)
  | resync
  deriving DecidableEq, Repr

/-- What a job changes when it completes, beside its output: kept with the job until then, so that a job that ends
otherwise releases nothing (R72, R76). -/
inductive Commit where
  | keyPut (slot : BitVec 13) (k : Key)
  | keyDrop (slot : BitVec 13)
  | keyRights (handle : BitVec 32) (param : BitVec 64)
  | ctxPut (i : BitVec 14) (c : Context)
  | ctxFree (i : BitVec 14)
  | pinned (i : BitVec 14) (ts : List Nat) (key : Bytes)
  | bound (slot : BitVec 13) (cs : List (BitVec 14))
  | exported (p : BitVec 8) (excluded : BitVec 16)
  | imported (p : BitVec 8) (id : BitVec 64) (cfg : PitchCfg) (keys : List (BitVec 32 × Key)) (crates : List (Nat × BitVec 8 × Bytes))
  | cleared
  | custodian (n : Nat) (c : Option Custodian)
  | quorum (purpose : BitVec 3) (t : BitVec 4)
  | archived
  | marked (k : BankKind) (b : Bool)
  | signer (i : Nat) (h : Option Bytes)
  | svn (k : BankKind) (v : BitVec 16)
  | flowOp (i : BitVec 14) (op : FlowOp)
  deriving DecidableEq, Repr

/-- How far a result is decided (R185): by one comparator alone; by two, of which A has not decided, A has and B has not, or both
have agreed. -/
inductive Verdict where
  | single | due | second | agreed
  deriving DecidableEq, Repr

/-- A descriptor that the part has fetched, from its fetch until its record (R66 to R74). `held` says that it holds its
crate references (R84); `fresh` holds the contexts allocated for it that go back if it ends otherwise (R104); `entropyWait` says that it waits for carafe bytes (R330); `avoid` names the units on which a fault of the job was detected (R186, R280); `transfers` counts the transfers repeated within it (R392) and `dkFault` says that its first fault was the
key hash check's; `forwarded` names the link over which it was sent to a peer, with `spilled` for R441, and `lent` are the keys that a peer's spilled job
brought with it, under their handles; `refusal` is the local part's refusal of a CTX_ALLOC that peers are asked for (R439); `masked` says that it needs mask bits (R331); `turn` is its place in the order of acceptance; `kept` holds the random bytes
and the index that a stateful SIGN keeps over a rerun (R202, R205); `verdict` is the double decision of R185. `stall` is the stall on
which the job is queued, or runs (R15), `bn` the engine on which it is queued (R254), `split` says that it is spread across its stall;
`front` that it runs again after a fault and goes before the others (R127, R186, R280); `gave` names the job to which a digest gave its
tile (R223); `paced` holds what ELAPSED counts: picoseconds at floor pace, and the least and the greatest beat that applied (R21);
`loaded` is the key of KEY_HANDLE as the job loaded it, at the microsecond `startedAt` at which it started (R26); `queued` counts the beats
with which it is queued on its stall or engine (R15, R254). -/
structure Job where
  id        : JobId
  index     : BitVec 16
  pitch     : BitVec 8
  desc      : Desc
  phase     : JobPhase
  units     : List Unit_
  avoid     : List Unit_
  input     : Option Bytes
  aux       : Option Bytes
  out       : Option JobOut
  commits   : List Commit
  reserved  : List (BitVec 13)
  fresh     : List (BitVec 14)
  held      : Bool
  retried   : Bool
  entropyWait : Bool
  faults    : Nat
  transfers : Nat
  dkFault   : Bool
  forwarded : Option (BitVec 2)
  spilled   : Bool
  lent      : List (BitVec 32 × Key)
  refusal   : Option (BitVec 16 × BitVec 16)
  masked    : Bool
  turn      : Nat
  kept      : Option (Bytes × Option Nat)
  verdict   : Verdict
  stall     : Option Nat
  bn        : Option (BitVec 3)
  split     : Bool
  front     : Bool
  gave      : Option JobId
  paced     : Option (Nat × Nat × Nat)
  loaded    : Option Key
  startedAt : Nat
  queued    : Nat
  deriving DecidableEq, Repr

/-- A big-number engine's state, in the order of its codes (R283). -/
inductive EngineState where
  | idle | running (j : JobId) | wiping | retired
  deriving DecidableEq, Repr

/-- A big-number engine (R253, R280, R283): `ram` is its operand RAM of 48 KiB as far as it is not zero, `mult` the 32 limbs of 18 bits
in its multiplier's registers, `sha2` and `keccak` the states of its hash units, `blinds` the blinding values of its job. -/
structure Engine where
  state  : EngineState
  pitch  : BitVec 8
  opcode : BitVec 16
  jobs   : BitVec 32
  trips  : BitVec 16
  cause  : BitVec 2
  tripAt : Option Nat
  ram    : Bytes
  mult   : List Nat
  sha2   : List Nat
  keccak : List Nat
  blinds : List Nat
  deriving DecidableEq, Repr

/-- A slot of the Evidence Log (R394): an entry with its SEQ and chain, or a torn one. -/
structure EvSlot where
  entry : Evidence
  seq   : BitVec 32
  chain : Bytes
  torn  : Bool
  deriving DecidableEq, Repr

/-- A journal of the non-volatile die (R368, R408): its two records of 64 bytes. -/
structure Journal where
  a : Bytes
  b : Bytes
  deriving DecidableEq, Repr

/-- The clock of the model: microseconds that the model has counted, and the parts of a second that its second counters
have not counted yet. -/
structure Clock where
  us      : Nat
  optFrac : Nat
  batFrac : Nat
  deriving DecidableEq, Repr

/-- One genuine signature: the standard's code, the public key, the signed message with its context, the signature. -/
structure Genuine where
  alg : Nat
  key : Bytes
  msg : Bytes
  sig : Bytes
  deriving DecidableEq, Repr

end Sys2Proof.Machine
end

