-- ==== Sys2Proof/Machine/Shipped.lean ====
section
/-! DEFINITION. What the non-volatile die holds at shipment: the Balanced plan in both plan banks (R16, R49), a firmware image in
bank A (log 19), and the signatures of Borsor's that stand over them. -/
namespace Sys2Proof.Machine

/-- What IDCODE reads (R375): version 0x2, part 0x0C18, the manufacturer code and the 1 that IEEE 1149.1 ends it with. -/
def idcode : BitVec 32 := (0x2#4 ++ 0x0C18#16 ++ Config.jedecCode ++ 1#1 : BitVec 32)

/-! ### Signed images -/

/-- A signature body of two keys and two signatures (R46). -/
def sigBodyOf (keys mldsa p384 : Bytes) : Bytes :=
  fit 2689 keys ++ zeros 7 ++ fit 4627 mldsa ++ zeros 5 ++ fit 96 p384

/-- The codes under which the three standards of R46 and R435 verify: 65,536 × the high byte of the opcode, 256 × the set. -/
def algMlDsa65 : Nat := 0x030200
def algMlDsa87 : Nat := 0x030300
def algP384 : Nat := 0x090200

/-- M′ of FIPS 204, 205 and 206 for a message signed as it is: a zero byte, the context's length, the context, the message. -/
def pureMessage (ctx m : Bytes) : Bytes := 0#8 :: BitVec.ofNat 8 ctx.length :: ctx ++ m

/-- A message with a context string in ASCII. -/
def withContext (ctx : String) (m : Bytes) : Bytes := pureMessage (ascii ctx) m

/-- μ of FIPS 204, which is what an ML-DSA signature signs. -/
def mldsaMu (pk m : Bytes) : Bytes := shake256 64 (shake256 64 pk ++ m)

/-- COMMIT_MARK of a committed bank. -/
def commitMark : BitVec 32 := 0xA55AC33C

/-- Borsor's keys and signatures over the image of a store: 0 Stall Plans, 2 firmware. -/
def shippedBody (k : Nat) : Bytes := sigBodyOf (Config.signerKeys k) (Config.shippedSigs k).1 (Config.shippedSigs k).2

/-- The two signatures of a shipped image are genuine. -/
def shippedGenuine (k : Nat) (ctx : String) (msg : Bytes) : List Genuine :=
  let b := shippedBody k
  [ { alg := algMlDsa87, key := slice b 0 2592, msg := mldsaMu (slice b 0 2592) (withContext ctx msg), sig := slice b 0x0A88 4627 },
    { alg := algP384, key := slice b 0x0A20 97, msg := sha384 msg, sig := slice b 0x1CA0 96 } ]

/-- A committed bank that holds an image. -/
def shippedBank (seq : Nat) (img : Bytes) : Bank :=
  { seq := BitVec.ofNat 32 seq, len := BitVec.ofNat 32 img.length, hash := sha384 img, mark := commitMark, image := img }

/-- A bank that nothing has written. -/
def emptyBank : Bank := { seq := 0, len := 0, hash := zeros 48, mark := 0, image := [] }

/-! ### The Balanced plan (R16, 02_stall_plan) -/

/-- A section with its header and its padding (R37). -/
def planSection (t : Nat) (body : Bytes) : Bytes :=
  leBytes 2 t ++ zeros 2 ++ leBytes 4 body.length ++ body ++ zeros ((8 - body.length % 8) % 8)

/-- The role code of stall `n` of the Balanced plan. -/
def balancedRole (n : Nat) : Nat := if n < 6 then 1 else if n < 10 then 2 else if n < 12 then 3 else if n < 14 then 4 else 5

/-- STALLS: stall `n` holds tiles 4 × `n` to 4 × `n` + 3. -/
def balancedStalls : Bytes :=
  leBytes 2 16 ++ zeros 2 ++
  (List.range 16).flatMap (fun n => leBytes 1 n ++ leBytes 1 (balancedRole n) ++ zeros 2 ++ leBytes 8 (15 * 2 ^ (4 * n)))

/-- PITCHES. -/
def balancedPitches : Bytes :=
  let entry (n w q ctx cell crate : Nat) : Bytes :=
    leBytes 1 n ++ leBytes 1 w ++ leBytes 1 q ++ [1#8] ++ leBytes 2 ctx ++ leBytes 2 16384 ++ leBytes 2 cell ++ leBytes 2 8192 ++
    leBytes 2 crate ++ leBytes 2 2048 ++ zeros 16
  leBytes 2 256 ++ zeros 2 ++
  (List.range 256).flatMap (fun n => if n = 0 then entry n 32 64 1024 512 128 else entry n 8 15 32 30 7)

/-- The signed part of the Balanced plan's image (R36, R46). ENTROPY, whose absence gives the Balanced values, is absent, and the
free fields of the header are zero (log 19). -/
def balancedMessage : Bytes :=
  let sections := planSection 1 balancedStalls ++ planSection 4 balancedPitches ++
    planSection 5 [7, 7, 1, 15, 0, 0, 0, 0] ++ planSection 6 (zeros 4)
  ascii "CQSP" ++ leBytes 2 1 ++ leBytes 2 5 ++ leBytes 4 (64 + sections.length + 8 + 7424) ++ leBytes 2 0 ++
  leBytes 2 0x0C18 ++ zeros 8 ++ zeros 8 ++ fit 16 (ascii "Balanced") ++ zeros 16 ++ sections ++
  leBytes 2 0xFF ++ zeros 2 ++ leBytes 4 7424

def balancedImage : Bytes := balancedMessage ++ shippedBody 0

/-! ### Firmware (R454) -/

/-- The signed part of the firmware image: the spec gives the layout and no contents, so its store words, its code and its free
fields are zero (log 19). -/
def firmwareMessage : Bytes :=
  ascii "CQFW" ++ leBytes 2 1 ++ leBytes 2 0 ++ leBytes 2 0x0C18 ++ [0x00#8, 0xFF#8] ++ leBytes 4 671104 ++ zeros 16 ++
  leBytes 4 64 ++ zeros 28 ++ zeros 589824 ++ zeros 73728 ++ zeros 64

def firmwareImage : Bytes := firmwareMessage ++ shippedBody 2

/-- The signatures that stand at shipment. -/
def shippedSignatures : List Genuine :=
  shippedGenuine 0 "CQX18-STALL-PLAN" balancedMessage ++ shippedGenuine 2 "CQX18-FIRMWARE" firmwareMessage

end Sys2Proof.Machine
end

