-- ==== Sys2Proof/Machine/State.lean ====
section
/-! DEFINITION. The state of the part: plain data, holding every piece of state the spec gives it, the host memory it
reaches, and the queue of the commands that wait; and the state after reset. -/
namespace Sys2Proof.Machine

/-- What remains of service across a stay in the Dormant state (R465): the saved register sets and the allocations. -/
structure DormantRecord where
  contexts : Tab (Option Context)
  gens     : Tab (Option (BitVec 8))
  startGen : BitVec 8
  volatile : List (BitVec 13)
  bindings : Tab (List (BitVec 14))
  queues   : Tab Queue
  pitches  : Tab Pitch
  porter   : Tab Channel
  crates   : Tab (Option Crate)
  parked   : Tab (BitVec 8)
  links    : Links
  target   : BitVec 12
  avsRail  : BitVec 4
  stream   : Stream
  epoch    : BitVec 2
  lock     : Bool
  deriving DecidableEq, Repr

/-- The non-volatile die (R453), less the Ledger's own slots, which `Ledger` holds. A copy of the operating time, or of the power-cycle
count, that is not intact is none (R400). -/
structure Nv where
  planA     : Bank
  planB     : Bank
  patchA    : Bank
  patchB    : Bank
  fwA       : Bank
  fwB       : Bank
  planSvnMin : SvnMin
  patchSvnMin : SvnMin
  fwSvnMin  : SvnMin
  signers   : List (Option Bytes)
  keys      : Tab (Option NvKey)
  user      : Tab Byte
  evidence  : List EvSlot
  evFull    : Bool
  evLost    : BitVec 32
  wipe      : Journal
  clear     : Journal
  importOpen : Option (BitVec 64 × BitVec 8)
  exportIds : List (BitVec 64)
  optimeA   : Option (BitVec 32)
  optimeB   : Option (BitVec 32)
  optimeNext : Bool
  cyclesA   : Option (BitVec 24)
  cyclesB   : Option (BitVec 24)
  dormant   : Option DormantRecord
  custodians : Tab (Option Custodian)
  thresholds : List (BitVec 4)
  deriving DecidableEq, Repr

/-- The whole state. -/
structure State where
  pending  : List Instr
  dev      : Dev
  pcie     : Pcie
  bus      : Bus
  plan     : PlanBlock
  tiles    : Tab Tile
  engines  : Tab Engine
  engInt   : BitVec 3
  engMask  : BitVec 3
  queues   : Tab Queue
  arb      : Arb
  jobs     : List Job
  crates   : Crates
  porter   : Tab Channel
  pitches  : Tab Pitch
  contexts : Tab (Option Context)
  vault    : Vault
  seq      : Seq
  rng      : Rng
  life     : Life
  alarm    : Alarm
  battery  : Battery
  ledger   : Ledger
  nv       : Nv
  pace     : Pace
  boot     : Boot
  links    : Links
  stream   : Stream
  cards    : Cards
  host     : List Host.Cell
  out      : List Out
  genuine  : List Genuine
  draws    : Nat
  clock    : Clock
  deriving DecidableEq, Repr

/-- Why the part stops without a next state. No command of this model stops it: the type has the one name that a
reviewer of a trace would look for, raised by nothing (safe). -/
inductive Fault where
  | none_
  deriving DecidableEq, Repr

/-- Why a command is turned away without an effect. `notModelled` is raised by `exec` alone, for a command that has no
meaning yet (safe). -/
inductive Refusal where
  | notModelled (mnemonic : String)
  deriving DecidableEq, Repr

/-! ### After reset

Every block below holds the reset values of its own register tables. -/

def Dev.reset : Dev :=
  { epoch := 2, lock := false, refused := false, lockRefused := false, pciId := 0x0C18,
    orderCode := if Config.isXL then 2 else 1, uid := Config.deviceUid, intEnable := 0, phase := .boot, katPass := false,
    bootReason := 0, bscan := false, tap := 1, tdr := idcode, restartDue := false }

def Pcie.reset : Pcie := { msixEnable := false, funcMask := false, table := [], pba := 0, d3hot := false, requesterId := 0,
                                bar0 := 0, bar2 := 0, bar4 := 0, payload := 0, readRequest := 2, relaxed := true, tags10 := false,
                                pasidEnable := false, atsEnable := false, ats := [], linkRate := 5, linkWidth := 16 }

def Bus.reset : Bus := { held := [], latch := [], readData := 0 }

def PlanBlock.reset : PlanBlock :=
  { inForce := none, bank := false, altUsed := false, fallback := false, floorApplied := false, errDetail := 0,
    errAtStart := false, errBank := false, pint := 0, pmask := 0, members := [], spares := 0, usedSpares := 0, retired := 0,
    joining := [] }

def Arb.reset : Arb := { visit := none, lastPitch := none, lastLocal := [], lastMover := none }

def Crates.reset : Crates :=
  { held := [], parked := [], data := [], selShadow := 0, pitchShadow := 0, assignedShadow := false, commitRefused := false,
    cmdRefused := false, dropInt := false, flagInt := false, poisonInt := false, refuseDetail := 0, drops := 0,
    flagRejects := 0, mask := 0 }

def Vault.reset : Vault :=
  { slots := [], gens := [], startGen := 0, freed := [], returned := [], rootValid := false, rootNew := false,
    nvLoaded := false, destroyed := false, tagKey := [], loadFails := 0, vint := 0, vmask := 0,
    signers := List.replicate 8 (zeros 48), svns := List.replicate 8 0 }

def TagTable.reset : TagTable := { hall := [], tile := [], patch := [] }

def Seq.reset : Seq :=
  { patch := none, unpatched := false, bank := false, altUsed := false, reloading := false, attempt := 0, mismatches := 0,
    mismatchAddr := 0, errDetail := 0, errAtStart := false, errBank := false, eccCorr := 0, eccUncorr := 0, hallReloads := 0,
    tileReloads := 0, faultAddr := 0, faultHall := false, faultTile := 0, faultKind := 0, sint := 0, smask := 0,
    tileBase := [], hallA := [], hallB := [], reloadKey := [], tagsA := TagTable.reset, tagsB := TagTable.reset, scrubAt := 0, patchAt := 0, patchFlips := [],
    hallSeq := { next := 0, check := false, loops := List.replicate 4 0, op := .none_ } }

def Rng.reset : Rng :=
  { beans := [], started := false, mainFail := false, maskFail := false, mainHold := false, maskHold := false,
    feedsStopped := false, streamHeld := false, rawJob := none, carafe := [], rawBits := [], grind := [], maskReg := 0,
    drbgs := [], requests := [], mainSince := 0, maskSince := 0, rint := 0, rmask := 0, rctFails := 0, aptFails := 0,
    reseeds := 0, entropyFails := 0 }

/-- The fuses of a part as shipped: the test prefix W0 and W16, which is PROVISIONING (log 19). -/
def shippedFuses : List (BitVec 16) := (List.replicate 20 0#16).set 0 0x0FF0 |>.set 16 0xCC33

def Life.reset : Life :=
  { fuses := shippedFuses, inForce := 0x11, nonce := none, granted := none, refusals := 0, decision := none, closing := false,
    lint := 0, lmask := 0, staging := [], baud := 0, baudNew := none, baudSwitched := false }

def Alarm.reset : Alarm :=
  { sources := [], decision := none, erased := false, aint := 0, amask := 0, dataCorr := 0, loops := 0,
    lid := false, mesh := false, tj := 0, tjAcc := none, railNow := List.replicate 8 0, railTracked := List.replicate 8 0,
    railAcc := List.replicate 8 0, evFresh := 0, evAt := 0, badRails := [], transferred := 0 }

/-- The battery domain as it first comes up from no supply at all: no register file yet (R449). -/
def Battery.reset : Battery :=
  { powered := true, onBattery := false, fileGood := false, rootKey := none, attempts := 0, lockLatch := false, dormant := false,
    lifecycleShutter := false, lockSource := 0, secondsCopy := 0, responses := none, delayReg := 0, history := [],
    unrecorded := [], inStart := false, crc := 0, wroteAt := 0, seconds := Config.firstSeconds, crystal := true, abnormal := [], vbatMv := 0, buffer := [] }

def Ledger.reset : Ledger :=
  { slots := [], full := false, clearing := false, clearJob := none, tornAtStart := false, total := 0, lost := 0, dropped := 0, badCrc := 0,
    lint := 0, lmask := 0, queue := [], droppedBefore := false, pending := 0, hours := 0, secs := 0, cycles := 0, counting := none }

/-- A minimum of zero, in both copies. -/
def SvnMin.reset : SvnMin := { a := some 0, b := some 0 }

/-- A journal in which nothing is written. -/
def Journal.reset : Journal := { a := zeros 64, b := zeros 64 }

/-- The non-volatile die at shipment (R49; log 19). -/
def Nv.reset : Nv :=
  { planA := shippedBank 1 balancedImage, planB := shippedBank 2 balancedImage, patchA := emptyBank, patchB := emptyBank,
    fwA := shippedBank 1 firmwareImage, fwB := emptyBank, planSvnMin := SvnMin.reset, patchSvnMin := SvnMin.reset, fwSvnMin := SvnMin.reset,
    signers := [none, none, none], keys := [], user := [], evidence := [], evFull := false, evLost := 0, wipe := Journal.reset,
    clear := Journal.reset, importOpen := none, exportIds := [], optimeA := some 0, optimeB := some 0, optimeNext := false,
    cyclesA := some 0, cyclesB := some 0, dormant := none,
    custodians := [], thresholds := List.replicate 6 2 }

def Pace.reset : Pace :=
  { target := 1300, avsRail := 0, beat := 0, avsFault := false, refused := false, commanded := 800, readback := 0,
    running := false, badFrames := 0, commandAge := 10, pint := 0, pmask := 0 }

def Boot.reset : Boot :=
  { attempts := 0, fallback := false, fwBank := false, fwAltUsed := false, dormantReturn := false, ramLost := false,
    fwDetail := 0, readyUs := 0, fwSvn := 0, fwId := 0, baseId := 0, fwInForce := false, meas := List.replicate 8 (zeros 48), marks := [], marksAt := 0 }

def Link.reset : Link :=
  { state := .down, lanes := 0, refuseDetail := 0, peerUid := 0, tx := 0, rx := 0, tagFail := 0, retrains := 0, step := 0,
    transcript := [], peerKey := [], secret := [], ephemeral := [], keys := none, rekeying := false, load := [],
    loadFull := false, peerHolds := [] }

def Links.reset : Links :=
  { part := 0, spill := false, spillBeats := 0x1000, allow := List.replicate 4 0, spillShadow := false, beatsShadow := 0x1000,
    allowShadow := List.replicate 4 0, commitDetail := 0, lostCtx := [], lint := 0, lmask := 0, link := List.replicate 3 Link.reset }

def PortCfg.reset : PortCfg := { rate := 0, fec := 0, enable := false, an := true }

def Port.reset : Port :=
  { shadow := PortCfg.reset, cfg := PortCfg.reset, link := false, eqAdapted := false, anDone := false, fecLock := false,
    commitRefused := false, linkChange := false, eq := 0, refuseDetail := 0, counters := List.replicate 11 0, backlog := 0 }

def StrCfg.reset : StrCfg :=
  { prp := false, kinds := 0, unmatchedDeliver := false, otherDeliver := false, unmatchedDq := 0, pb0Dq := 0, pb1Dq := 0 }

def Stream.reset : Stream :=
  { shadow := StrCfg.reset, cfg := StrCfg.reset, commitRefused := false, refuseDetail := 0, timeValid := false, timeSec := 0,
    timeNs := 0, setSec := 0, setNs := 0, rate := 0, rateAcc := 0, utcOffset := 0, sint := 0, smask := 0, dropsUnmatched := 0,
    dropsNoStall := 0, dropsOther := 0, flowPitches := 1, ports := List.replicate 2 Port.reset, prp := [], egressSeq := 0,
    tokens := 0, held := [], dqs := [] }

def Cards.reset : Cards :=
  { keeperIn := false, keeper := none, fi := 1, di := 1, ifsc := 0, bwi := 0, cwi := 0, retries := 0, session := none,
    lastSerials := [], pitches := 1, arcCard := none, arcMount := none, arcWork := none, arcGiven := 0, cint := 0, cmask := 0 }

/-- The machine at the release of internal reset, before the start sequence of R457. -/
def State.reset : State :=
  { pending := [], dev := Dev.reset, pcie := Pcie.reset, bus := Bus.reset, plan := PlanBlock.reset, tiles := [], engines := [],
    engInt := 0, engMask := 0, queues := [], arb := Arb.reset, jobs := [], crates := Crates.reset, porter := [], pitches := [],
    contexts := [], vault := Vault.reset, seq := Seq.reset, rng := Rng.reset, life := Life.reset, alarm := Alarm.reset,
    battery := Battery.reset, ledger := Ledger.reset, nv := Nv.reset, pace := Pace.reset, boot := Boot.reset,
    links := Links.reset, stream := Stream.reset, cards := Cards.reset, host := [], out := [], genuine := shippedSignatures,
    draws := 0, clock := { us := 0, optFrac := 0, batFrac := 0 } }

end Sys2Proof.Machine
end

