-- ==== Sys2Proof/Machine/Init.lean ====
section
/-! DEFINITION. What an entry of each sparse table holds while nothing has changed it: the reset values of the
registers that the part has many of. -/
namespace Sys2Proof.Machine

/-- The reset values of a queue's RWS fields (R60). -/
def queueCfgInit : QueueCfg :=
  { descBase := 0, cplBase := 0, log2Size := 4, local_ := 0, assigned := false, pitch := 0, weight := 1, burst := 1,
    vector := 0, coalCount := 0, coalTime := 0 }

/-- A queue at reset (R60). -/
def queueInit : Queue :=
  { shadow := queueCfgInit, cfg := queueCfgInit, state := .disabled, commitRefused := false, cmdRefused := false,
    dbRejected := false, errorInt := false, refuseDetail := 0, errDetail := 0, h := 0, w := 0, p := 0, c := 0,
    dbRejects := 0, cplDropped := 0, left := 0, accumulated := 0 }

/-- A pitch-table set that no plan has filled: every entry of an ABSENT pitch reads as zero (R99). -/
def pitchCfgInit : PitchCfg :=
  { pasid := 0, rid := 0, bound := false, weight := 0, queueLimit := 0, migMode := false, vector := 0, ctxCeiling := 0,
    cellCeiling := 0, crateCeiling := 0, logBase := 0, logPages := 0, logBuf0 := 0, logBuf1 := 0 }

/-- A pitch that no plan holds (R98, R99). -/
def pitchInit : Pitch :=
  { shadow := pitchCfgInit, cfg := pitchCfgInit, state := .absent, logOn := false, logBuf := false, logOverflow := false,
    commitRefused := false, cmdRefused := false, eventInt := false, faultReset := false, refuseDetail := 0, epoch := 0,
    keysExcluded := 0, swapPending := false, releaseCtx := false, resetCause := .command, resetDue := none,
    ppMigrated := false, ppResetDone := false, ppFaultReset := false, ppMask := 0 }

/-- A Porter channel's set at reset (R87). -/
def channelCfgInit : ChannelCfg := { assigned := false, progLen := 0, pitch := 0, vector := 0, base := 0 }

/-- A Porter channel at reset (R87). -/
def channelInit : Channel :=
  { shadow := channelCfgInit, cfg := channelCfgInit, run := none, commitRefused := false, cmdRefused := false,
    doneInt := false, errInt := false, refuseDetail := 0, lastIndex := 0, endDetail := 0, bytes := 0, unread := none }

/-- A tile core with every register and every workbench byte cleared (R24). -/
def coreInit : VCore :=
  { g := [], w := [], vlen := 0, vbound := 0, vq := 0, pc := 0, mem := [], codeLen := 0, constLen := 0, key1 := 0, key2 := 0,
    beats := 0 }

/-- A tile sequencer with every register cleared (R24). -/
def microInit : Micro :=
  { next := 0, lc := List.replicate 4 0, jobKind := 0, more := 0, abortReq := false, pubflag := false, iters := 0,
    areg := List.replicate 8 0, base := 0, pubBase := 0, pubLen := 0, shareB := [], shareC := [], three := false,
    keccak := List.replicate 4 (List.replicate 25 0), midstate := List.replicate 8 0, sent := [], sentCtx := [], ended := none, bench := 393216,
    room := 393216 }

/-- A tile that runs nothing. -/
def tileInit : Tile :=
  { state := .idle, faultAt := none, badWords := [], flips := [], reloadDue := false, shelf := none, shelfData := [],
    core := coreInit, micro := microInit }

/-- An engine at reset (R283). -/
def engineInit : Engine :=
  { state := .idle, pitch := 0, opcode := 0, jobs := 0, trips := 0, cause := 0, tripAt := none, ram := [],
    mult := List.replicate 32 0, sha2 := List.replicate 8 0, keccak := List.replicate 25 0, blinds := [] }

/-- An MSI-X table entry after reset: masked, as the PCI Express layout gives (log 5). -/
def msixInit : MsixEntry := { addr := 0, data := 0, masked := true }

/-- An alarm source at power-on (R396). -/
def sourceInit : Source := { inForce := false, trips := 0, acting := 0, entryAt := none }

/-- A bean before its first sample (R336). -/
def beanInit : Bean :=
  { state := .inService, fails := 0, lastCause := 0, trim := 0, ones := 0, winCount := 0, winOnes := 0, lastBit := false,
    runLen := 0, aptFirst := false, aptPos := 0, aptEqual := 0, delay := [], raw := false }

/-- A DRBG instance that is not instantiated (R327). -/
def drbgInit : Drbg := { seeded := false, key := [], v := [], calls := 0, due := false, pending := false }

/-- A descriptor just fetched (R66). -/
def jobInit (id : JobId) (index : BitVec 16) (p : BitVec 8) (d : Desc) : Job :=
  { id := id, index := index, pitch := p, desc := d, phase := .fetched, units := [], avoid := [], input := none, aux := none,
    out := none, commits := [], reserved := [], fresh := [], held := false, retried := false, entropyWait := false,
    faults := 0, transfers := 0, dkFault := false, forwarded := none, spilled := false, lent := [], refusal := none, masked := false, turn := 0, kept := none,
    verdict := .single, stall := none, bn := none, split := false, front := false, gave := none, paced := none,
    loaded := none, startedAt := 0, queued := 0 }

/-- A job's output of nothing, with a STATUS and a DETAIL. -/
def outOf (status detail : BitVec 16) (result : BitVec 64 := 0) : JobOut :=
  { status := status, detail := detail, result := result, output := [], moved := none, elapsed := 0 }

end Sys2Proof.Machine
end

