-- ==== Sys2Proof/Machine/Ops.lean ====
section
/-! DEFINITION. The named operations of the part that its commands share: access to the tables, host memory, signals,
the Ledger and the Evidence Log, quotas and free values. -/
namespace Sys2Proof.Machine

/-! ### The tables -/

def State.q (s : State) (n : BitVec 12) : Queue := Tab.get queueInit n.toNat s.queues

def State.setQ (s : State) (n : BitVec 12) (x : Queue) : State := { s with queues := Tab.set queueInit n.toNat x s.queues }

def State.pitch (s : State) (p : BitVec 8) : Pitch := Tab.get pitchInit p.toNat s.pitches

def State.setPitch (s : State) (p : BitVec 8) (x : Pitch) : State :=
  { s with pitches := Tab.set pitchInit p.toNat x s.pitches }

def State.chan (s : State) (c : BitVec 6) : Channel := Tab.get channelInit c.toNat s.porter

def State.setChan (s : State) (c : BitVec 6) (x : Channel) : State :=
  { s with porter := Tab.set channelInit c.toNat x s.porter }

def State.ctx (s : State) (i : BitVec 14) : Option Context := Tab.get none i.toNat s.contexts

def State.setCtx (s : State) (i : BitVec 14) (x : Option Context) : State :=
  { s with contexts := Tab.set none i.toNat x s.contexts }

def State.tile (s : State) (t : BitVec 6) : Tile := Tab.get tileInit t.toNat s.tiles

def State.setTile (s : State) (t : BitVec 6) (x : Tile) : State := { s with tiles := Tab.set tileInit t.toNat x s.tiles }

def State.engine (s : State) (e : BitVec 3) : Engine := Tab.get engineInit e.toNat s.engines

def State.setEngine (s : State) (e : BitVec 3) (x : Engine) : State :=
  { s with engines := Tab.set engineInit e.toNat x s.engines }

def State.slot (s : State) (n : BitVec 13) : Slot := Tab.get .free n.toNat s.vault.slots

def State.setSlot (s : State) (n : BitVec 13) (x : Slot) : State :=
  { s with vault := { s.vault with slots := Tab.set .free n.toNat x s.vault.slots } }

/-- The generation of a slot (R346). -/
def State.gen (s : State) (n : BitVec 13) : BitVec 8 := (Tab.get none n.toNat s.vault.gens).getD s.vault.startGen

def State.crate (s : State) (n : Nat) : Option Crate := Tab.get none n s.crates.held

def State.setCrate (s : State) (n : Nat) (x : Option Crate) : State :=
  { s with crates := { s.crates with held := Tab.set none n x s.crates.held } }

/-- The job of an identity. -/
def State.job (s : State) (j : JobId) : Option Job := s.jobs.find? (fun x => x.id = j)

/-- The job of its identity replaced. -/
def State.setJob (s : State) (x : Job) : State :=
  { s with jobs := s.jobs.map (fun y => if y.id = x.id then x else y) }

/-- The job of an identity taken away: its record has been written or dropped. -/
def State.dropJob (s : State) (j : JobId) : State := { s with jobs := s.jobs.filter (fun y => y.id ≠ j) }

/-! ### Epoch, state of the device -/

/-- Behaviour epoch E1 is in force (R28). -/
def State.e1 (s : State) : Bool := s.dev.epoch == 1#2

/-- The part is Shuttered (R462). -/
def State.isShuttered (s : State) : Bool :=
  match s.dev.phase with
  | .shuttered _ => true
  | _ => false

/-- LOCK is in force (R383). -/
def State.locked (s : State) : Bool := s.battery.lockLatch

/-- The operating time in the Ledger layout (R399). -/
def State.optime (s : State) : BitVec 32 := s.ledger.hours.setWidth 32 ||| at32 20 s.ledger.secs

/-- A free value of the spec (log 1), and the state that has drawn it. -/
def drawFree (s : State) : Nat × State := (Config.freeValue s.draws, { s with draws := s.draws + 1 })

/-- Pins set one after the other. -/
def setPins (ps : List (Pin × Bool)) (s : State) : State := { s with out := ps.reverse.map (fun e => .pin e.1 e.2) ++ s.out }

/-- The bytes of the battery register file that its CRC covers (R449): the root key with its check value, the attempts, the flags, the copies and
the history. A root key that is absent reads as zeros. -/
def fileBody (b : Battery) : Bytes :=
  let root := fit 32 (b.rootKey.getD [])
  let resp := (b.responses.getD []).zip (List.range 32)
  root ++ (if b.rootKey.isSome then (sha256 root).take 16 else zeros 16) ++
    [b.attempts, flag 8 b.lockLatch ||| (flag 8 b.dormant <<< 1) ||| (flag 8 b.lifecycleShutter <<< 2)] ++ wordBytes 2 b.lockSource ++
    wordBytes 4 b.secondsCopy ++ leBytes 8 ((resp.map (fun e => e.1.toNat * 4 ^ e.2)).sum) ++ wordBytes 2 b.delayReg ++
    fit 12 (b.history.flatMap (wordBytes 2)) ++ zeros 14

/-- The 96 bytes of the file as it stands. -/
def fileBytes (b : Battery) : Bytes := fileBody b ++ wordBytes 4 b.crc

/-- The file passes its CRC. One that has lost its supply does not (PRESUMED, log 36). -/
def fileHolds (b : Battery) : Bool := b.fileGood && b.crc == crc32c (fileBody b)

/-- The battery register file changed and rewritten whole, the CRC last (R449): its field 0x34 takes the counter's value. -/
def writeFile (f : Battery → Battery) (s : State) : State :=
  let b := { f s.battery with secondsCopy := s.battery.seconds, wroteAt := s.clock.us }
  { s with battery := { b with crc := crc32c (fileBody b) } }

/-- Some free values, in the order in which they are drawn. -/
def drawFrees (k : Nat) (s : State) : List Nat × State :=
  ((List.range k).map (fun i => Config.freeValue (s.draws + i)), { s with draws := s.draws + k })

/-- A signature verifies: a property that its standard defines (log 2), and that holds of every signature that the state
holds as genuine. `alg` is 65,536 × a number of the family, and 256 × the set. -/
def verifies (s : State) (alg : Nat) (key msg sig : Bytes) : Bool :=
  Config.holds 0 alg [key, msg, sig] || s.genuine.contains { alg := alg, key := key, msg := msg, sig := sig }

/-- An ML-DSA signature over M′ verifies. -/
def mldsaVerifies (s : State) (alg : Nat) (key m sig : Bytes) : Bool := verifies s alg key (mldsaMu key m) sig

/-- UTC seconds under R303: the counter's seconds less STR_UTC_OFFSET. -/
def utcNow (s : State) : Int := (s.stream.timeSec.toNat : Int) - s.stream.utcOffset.toInt

/-! ### Host memory -/

/-- An address of host memory: the address space is the one of a PASID (R57). -/
def hostAddr (pasid : BitVec 20) (a : Nat) : Nat := pasid.toNat * 2 ^ 64 + a

/-- Bytes of host memory in the space of a pitch; a byte nothing has written reads as zero (log 3). -/
def readHost (s : State) (p : BitVec 8) (a k : Nat) : Bytes :=
  Tab.read 0#8 s.host (hostAddr (s.pitch p).cfg.pasid a) k

/-- Bit `k` of a byte set. -/
def setBit8 (b : Byte) (k : Nat) : Byte := b ||| (1#8 <<< k)

/-- The bitmap bits of the pages `first` to `first + n - 1` set in a logging buffer of pitch 0's space (R112). -/
def markPages (host : List Host.Cell) (buf : Nat) (first : Nat) : Nat → List Host.Cell
  | 0 => host
  | n + 1 =>
    let a := buf + first / 8
    markPages (Tab.set 0#8 a (setBit8 (Tab.get 0#8 a host) (first % 8)) host) buf (first + 1) n

/-- R112: while LOG_ON is 1, a write on the pitch's behalf sets one bit for each 4 KiB page; one outside the range sets
LOG_OVERFLOW. -/
def logWrite (s : State) (p : BitVec 8) (a k : Nat) : State :=
  let x := s.pitch p
  if x.logOn = false || k = 0 then s
  else
    let base := x.cfg.logBase.toNat / 4096
    let pages := x.cfg.logPages.toNat
    let first := a / 4096
    let last := (a + k - 1) / 4096
    let lo := max first base
    let hi := min (last + 1) (base + pages)
    let out := first < base || base + pages ≤ last
    let buf := if x.logBuf then x.cfg.logBuf1 else x.cfg.logBuf0
    let s := { s with host := markPages s.host (hostAddr (s.pitch 0).cfg.pasid buf.toNat) (lo - base) (hi - lo) }
    if out then s.setPitch p { x with logOverflow := true } else s

/-- The translation of a range of a pitch's space, cached while ATS is enabled (R57). -/
def translated (p : BitVec 8) (a k : Nat) (s : State) : State :=
  if s.pcie.atsEnable = false ∨ k = 0 then s
  else
    let e : AtsEntry := { pasid := (s.pitch p).cfg.pasid, first := a / 4096, count := (a + k - 1) / 4096 - a / 4096 + 1 }
    if s.pcie.ats.contains e then s else { s with pcie := { s.pcie with ats := e :: s.pcie.ats } }

/-- A write to host memory in the space of a pitch, logged under R112. -/
def writeHost (s : State) (p : BitVec 8) (a : Nat) (bs : Bytes) : State :=
  translated p a bs.length (logWrite { s with host := Tab.write 0#8 s.host (hostAddr (s.pitch p).cfg.pasid a) bs } p a bs.length)

/-! ### Signals -/

/-- A signal of MSI-X vector `v` (R56): discarded while MSI-X is off, kept in the pending bit while masked. In D3hot the
function may send nothing (R54), and the pending bit keeps the signal (log 10). -/
def msixSend (v : BitVec 11) (s : State) : State :=
  let e := Tab.get msixInit v.toNat s.pcie.table
  if s.pcie.msixEnable = false then s
  else if s.pcie.funcMask || e.masked || s.pcie.d3hot then
    { s with pcie := { s.pcie with pba := s.pcie.pba ||| (1#2048 <<< v.toNat) } }
  else { s with out := .msix v e.addr e.data :: s.out }

/-- A signal of a vector register, whose value 0 signals nothing (R60, R75). -/
def signal (v : BitVec 11) (s : State) : State := if v = 0 then s else msixSend v s

/-! ### Ledger -/

/-- The TALLY_CHECK of a tally (R399). -/
def tallyCheck (t : BitVec 16) : BitVec 8 := t.setWidth 8 + (t >>> 8).setWidth 8 + 0x5A#8

/-- The last valid record (R401). -/
def lastRecord (l : Ledger) : Option Record := l.slots.reverse.find? (fun r => r.torn = false)

/-- Seconds of operating time of an OPTIME word. -/
def optimeSecs (o : BitVec 32) : Nat := (bits o 0 20).toNat * 3600 + (bits o 20 12).toNat

/-- R401: whether an event of these bytes folds into a record. -/
def folds (l : Ledger) (ev : BitVec 16) (pitch : BitVec 8) (detail : Bytes) (r : Record) : Bool :=
  r.event == ev && r.pitch == pitch && r.detail == fit 40 detail && r.cycles == l.cycles &&
  decide (l.hours.toNat * 3600 + l.secs.toNat < optimeSecs r.optime + 3600) &&
  decide (r.tally.toNat + l.pending < 0xFFFF)

/-- An event reaches the Ledger (R401, R403, R405). `pitch` is none for an event that concerns no one pitch. -/
def note (ev : BitVec 16) (pitch : Option (BitVec 8)) (detail : Bytes) (s : State) : State :=
  let l := s.ledger
  let p := pitch.getD 0
  let fl : BitVec 8 := if pitch.isNone then 0x10 else 0
  let e : Event := { event := ev, pitch := p, flags := fl, optime := s.optime, cycles := l.cycles,
                     detail := fit 40 detail, count := 1 }
  if l.full && !l.clearing then
    { s with ledger := { l with pending := l.pending + 1, lost := satAdd l.lost 1 } }
  else match l.queue.getLast? with
    | none =>
      match lastRecord l with
      | some r => if folds l ev p detail r && !l.clearing then { s with ledger := { l with pending := l.pending + 1 } }
                  else { s with ledger := { l with queue := [e] } }
      | none => { s with ledger := { l with queue := [e] } }
    | some w =>
      if w.event == ev && w.pitch == p && w.detail == e.detail && w.cycles == e.cycles && decide (w.count < 0xFFFF) &&
          decide (optimeSecs e.optime < optimeSecs w.optime + 3600) then
        { s with ledger := { l with queue := l.queue.dropLast ++ [{ w with count := w.count + 1 }] } }
      else if l.queue.length < 64 then { s with ledger := { l with queue := l.queue ++ [e] } }
      else { s with ledger := { l with dropped := satAdd l.dropped 1, droppedBefore := true, lint := l.lint ||| 4 } }

/-! ### Evidence Log -/

/-- The 64 bytes of an Evidence Log entry (R394). -/
def evidenceBytes (seq : BitVec 32) (e : Evidence) (chain : Bytes) : Bytes :=
  wordBytes 4 seq ++ wordBytes 2 e.source ++ [e.response, e.flags] ++ wordBytes 4 e.optime ++ wordBytes 3 e.cycles ++
  [e.lifeState] ++ wordBytes 4 e.seconds ++ fit 24 e.detail ++ fit 16 chain ++ zeros 3 ++ [0xA5#8]

/-- The CHAIN that the next entry will carry (R394, EVD_HEAD). -/
def evidenceHead (s : State) : Bytes :=
  match s.nv.evidence.reverse.find? (fun e => e.torn = false) with
  | none => (sha256 (wordBytes 8 s.dev.uid ++ ascii "CQX18-EVIDENCE")).take 16
  | some e => (sha256 (evidenceBytes e.seq e.entry e.chain)).take 16

/-- One more entry is being written (R394). An entry stands in the log at once, and one whose 40 µs are not over may still be torn by a
power cut (DESIGN CHOICE, log 72). -/
def freshEntry (s : State) : State :=
  let a := s.alarm
  if a.evFresh ≠ 0 ∧ s.clock.us ≤ a.evAt + 40 * a.evFresh then { s with alarm := { a with evFresh := a.evFresh + 1 } }
  else { s with alarm := { a with evFresh := 1, evAt := s.clock.us } }

/-- The entries of a log that are written, of which the last `fresh` began to be written at a microsecond and take 40 µs each (R394). -/
def writtenOf (ev : List EvSlot) (fresh since now : Nat) : List EvSlot :=
  if fresh = 0 ∨ since + 40 * fresh < now then ev else ev.take (ev.length - fresh)

/-- The entries of the Evidence Log that are written, each with its valid mark: no step changes or removes one of them. -/
def writtenEvidence (s : State) : List EvSlot := writtenOf s.nv.evidence s.alarm.evFresh s.alarm.evAt s.clock.us

/-- One entry appended to the log (R394): LOG_FULL takes the last slot, and from then on events are only counted. -/
def appendEvidence (e : Evidence) (s : State) : State :=
  let put (x : Evidence) (s : State) : State :=
    let s := freshEntry s
    let torn := (s.nv.evidence.getLast?.map (·.torn)).getD false
    let n := (s.nv.evidence.filter (fun y => y.torn = false)).length
    let x := if torn then { x with flags := x.flags ||| 0x20 } else x
    { s with nv := { s.nv with evidence := s.nv.evidence ++
        [{ entry := x, seq := BitVec.ofNat 32 n, chain := evidenceHead s, torn := false }] } }
  if s.nv.evFull then { s with nv := { s.nv with evLost := satAdd s.nv.evLost 1 } }
  else
    let s := put e s
    if s.nv.evidence.length = 32767 then
      let s := put { e with source := 0xF004, response := e.response, flags := 0, detail := [] } s
      { s with nv := { s.nv with evFull := true }, alarm := { s.alarm with aint := s.alarm.aint ||| 8 } }
    else s

/-- The highest response that acts on the part (R387, ALM_STATUS). -/
def actingNow (s : State) : BitVec 2 :=
  s.alarm.sources.foldl (fun m e => if m.toNat < e.2.acting.toNat then e.2.acting else m)
    (if s.battery.lockLatch then 2#2 else 0#2)

/-- A rail of the non-volatile die reads outside its window: no write to the die starts (R384). -/
def nvHeld (s : State) : Bool := s.alarm.badRails.any (fun m => m == .nvL || m == .nvH)

/-- An entry placed in the evidence buffer (R391): the 64th becomes an OVERFLOW summary, which counts what follows it. -/
def bufferEntry (e : Evidence) (s : State) : State :=
  let b := s.battery.buffer
  let put (l : List Evidence) : State := { s with battery := { s.battery with buffer := l } }
  let counted (d : Bytes) (n : Nat) : Bytes := (fit 24 d).take 9 ++ leBytes 4 n ++ zeros 11
  if b.length < 63 then put (b ++ [e])
  else if b.length = 63 then put (b ++ [{ e with flags := e.flags ||| 0x10, detail := counted e.detail 1 }])
  else match b[63]? with
    | none => s
    | some o =>
      let n := (fieldAt 32 o.detail 9 4).toNat + 1
      put (b.take 63 ++ [{ o with seconds := e.seconds, detail := counted o.detail n }])

/-- An entry on its way to the log (R394): it goes through the evidence buffer, where it waits while no write to the die may start
(R384). -/
def logEntry (e : Evidence) (s : State) : State := if nvHeld s then bufferEntry e s else appendEvidence e s

/-- The entries that waited in the buffer for the non-volatile die written to the log, in order (R384, R394). -/
def drainEvidence (s : State) : State :=
  if nvHeld s then s
  else s.battery.buffer.foldl (fun s e => appendEvidence e s) { s with battery := { s.battery with buffer := [] } }

/-- An Evidence Log entry of the present moment (R394). -/
def evidence (source : BitVec 16) (flags : BitVec 8) (detail : Bytes) (s : State) : State :=
  logEntry
    { source := source, response := (actingNow s).setWidth 8, flags := flags, optime := s.optime,
      cycles := s.ledger.cycles, lifeState := s.life.inForce.setWidth 8, seconds := s.battery.seconds, detail := detail } s

/-- The entries whose writing a power cut breaks off (R391, R394): how many of the last ones had not come to their valid mark is open. They
are still in the buffer, and the first of them may be torn in its slot. -/
def cutEvidence (s : State) : State :=
  let a := s.alarm
  if a.evFresh = 0 ∨ a.evAt + 40 * a.evFresh < s.clock.us then s
  else
    let (n, s) := drawFree s
    let (m, s) := drawFree s
    let j := min (n % (a.evFresh + 1)) s.nv.evidence.length
    let kept := s.nv.evidence.take (s.nv.evidence.length - j)
    let back := s.nv.evidence.drop (s.nv.evidence.length - j)
    let torn := match back with
      | e :: _ => if m % 2 = 1 then [{ e with torn := true }] else []
      | [] => []
    let own := (back.filter (fun e => e.entry.source != 0xF004)).map (·.entry)
    { s with nv := { s.nv with evidence := kept ++ torn, evFull := s.nv.evFull && j == 0 },
             battery := { s.battery with buffer := if s.battery.powered then own ++ s.battery.buffer else s.battery.buffer },
             alarm := { s.alarm with evFresh := 0 } }

/-! ### Rails (R381, R396) -/

/-- The rail of ALM_RAIL that a reading is (R396). -/
def railIx : Monitor → Option Nat
  | .vcore => some 0
  | .vsram => some 1
  | .vddio => some 2
  | .serdesL => some 3
  | .serdesH => some 4
  | .nvL => some 5
  | .nvH => some 6
  | .vbat => some 7
  | .tj => none

/-- What a rail may depart from its tracked value, and its hard bounds, in mV (R380, R381). VBAT has bounds alone. -/
def railWindow : Monitor → Option (Nat × Nat × Nat)
  | .vcore => some (60, 550, 950)
  | .vsram => some (50, 720, 880)
  | .vddio => some (120, 1620, 1980)
  | .serdesL => some (60, 780, 920)
  | .serdesH => some (80, 1100, 1300)
  | .nvL => some (120, 1620, 1980)
  | .nvH => some (150, 2300, 2700)
  | .vbat => some (4095, 2400, 3750)
  | .tj => none

/-- The tracked value of a rail, in mV; 0 before its first reading. -/
def trackedMv (s : State) (n : Nat) : Nat := ((s.alarm.railTracked[n]?).map (·.toNat)).getD 0

/-- A reading of a rail moves its tracked value, with a time constant of 1 s, never past a hard bound (R381). VCORE's follows the pace loop's
setting instead, and VBAT has none. -/
def trackRail (n lo hi mv : Nat) (a : Alarm) : Alarm :=
  if n = 0 ∨ n = 7 then a
  else
    let old : Int := ((a.railAcc[n]?).getD 0 : Nat)
    let now : Int := if old = 0 then (mv : Int) * 1000000 else old + ((mv : Int) * 1000000 - old) / 1000000
    let acc := max (lo * 1000000) (min (hi * 1000000) now.toNat)
    { a with railAcc := a.railAcc.set n acc, railTracked := a.railTracked.set n (BitVec.ofNat 12 (acc / 1000000)) }

/-- One rail read for one microsecond: what it reads inside its window is open (log 72); outside, it keeps the reading that left. -/
def readRail (s : State) (m : Monitor) : State :=
  match railIx m, railWindow m with
  | some n, some (d, lo, hi) =>
    if s.alarm.badRails.contains m then
      { s with alarm := trackRail n lo hi (((s.alarm.railNow[n]?).map (·.toNat)).getD 0) s.alarm }
    else
      let t := trackedMv s n
      let lo' := if t = 0 then lo else max lo (t - d)
      let hi' := if t = 0 then hi else min hi (t + d)
      let (v, s) := drawFree s
      let mv := lo' + v % (hi' - lo' + 1)
      { s with alarm := { trackRail n lo hi mv s.alarm with railNow := s.alarm.railNow.set n (BitVec.ofNat 12 mv) } }
  | _, _ => s

/-- The rails read for one microsecond (R381, R396). -/
def readRails (s : State) : State := [Monitor.vcore, .vsram, .vddio, .serdesL, .serdesH, .nvL, .nvH, .vbat].foldl readRail s

/-! ### Banks of the non-volatile die (R49) -/

/-- A bank: A, or B. -/
def State.bank (s : State) (k : BankKind) (b : Bool) : Bank :=
  match k, b with
  | .plan, false => s.nv.planA
  | .plan, true => s.nv.planB
  | .patch, false => s.nv.patchA
  | .patch, true => s.nv.patchB
  | .fw, false => s.nv.fwA
  | .fw, true => s.nv.fwB

/-- A bank replaced. -/
def State.setBank (s : State) (k : BankKind) (b : Bool) (x : Bank) : State :=
  match k, b with
  | .plan, false => { s with nv := { s.nv with planA := x } }
  | .plan, true => { s with nv := { s.nv with planB := x } }
  | .patch, false => { s with nv := { s.nv with patchA := x } }
  | .patch, true => { s with nv := { s.nv with patchB := x } }
  | .fw, false => { s with nv := { s.nv with fwA := x } }
  | .fw, true => { s with nv := { s.nv with fwB := x } }

/-- A bank is committed: a torn mark is not. -/
def committed (b : Bank) : Bool := b.mark == commitMark

/-- COMMIT_MARK written, or overwritten with zero. -/
def markBank (k : BankKind) (b : Bool) (m : BitVec 32) (s : State) : State := s.setBank k b { s.bank k b with mark := m }

/-! ### Minimum SVNs (R52, R138, R456) -/

/-- The greater of two SVNs. -/
def maxSvn (x y : BitVec 16) : BitVec 16 := if x.toNat < y.toNat then y else x

/-- The minimum in use: the higher of the copies that are intact; zero where neither is, which the spec does not state (log 64). -/
def svnMinOf (m : SvnMin) : BitVec 16 := maxSvn (m.a.getD 0) (m.b.getD 0)

/-- The copy that is written first: not the only one that holds the minimum (log 64). -/
def svnFirstA (m : SvnMin) : Bool := m.a != some (svnMinOf m) || m.b == some (svnMinOf m)

/-- A minimum with `v` being written into its copies, one after the other, and how far it came: nothing, the first copy torn, the
first whole, the second torn, both whole. -/
def svnWritten (step : Nat) (v : BitVec 16) (m : SvnMin) : SvnMin :=
  let first (c : Option (BitVec 16)) : SvnMin := if svnFirstA m then { m with a := c } else { m with b := c }
  match step with
  | 0 => m
  | 1 => first none
  | 2 => first (some v)
  | 3 => if svnFirstA m then { a := some v, b := none } else { a := none, b := some v }
  | _ => { a := some v, b := some v }

/-- The minimum of a pair of banks written. -/
def State.writeSvn (s : State) (k : BankKind) (step : Nat) (v : BitVec 16) : State :=
  match k with
  | .plan => { s with nv := { s.nv with planSvnMin := svnWritten step (maxSvn v (svnMinOf s.nv.planSvnMin)) s.nv.planSvnMin } }
  | .patch => { s with nv := { s.nv with patchSvnMin := svnWritten step (maxSvn v (svnMinOf s.nv.patchSvnMin)) s.nv.patchSvnMin } }
  | .fw => { s with nv := { s.nv with fwSvnMin := svnWritten step (maxSvn v (svnMinOf s.nv.fwSvnMin)) s.nv.fwSvnMin } }

/-! ### Quotas -/

/-- The plan in force, or a plan of nothing while none is. -/
def State.planPitch (s : State) (p : BitVec 8) : Option PitchPlan :=
  s.plan.inForce.bind (fun pl => pl.pitches[p.toNat]?)

/-- R43, over one pool: `used` and `reserve` give each pitch's figures. -/
def sharedFree (size : Nat) (reserve used : List Nat) : Int :=
  (size : Int) - ((reserve.sum : Nat) : Int) - ((((used.zip reserve).map (fun x => x.1 - x.2)).sum : Nat) : Int)

/-- Contexts allocated to a pitch, stale ones included. -/
def ctxUsed (s : State) (p : Nat) : Nat := (s.contexts.filter (fun e => (e.2.map (·.owner.toNat)) = some p)).length

/-- Crates assigned to a pitch. -/
def cratesUsed (s : State) (p : Nat) : Nat := (s.crates.held.filter (fun e => (e.2.map (·.pitch.toNat)) = some p)).length

/-- Cells a slot takes from a pitch. -/
def slotCells (p : Nat) : Slot → Nat
  | .free => 0
  | .unloaded _ => 0
  | .reserved q c => if q.toNat = p then c.toNat else 0
  | .key k => if k.pitch.toNat = p then k.cells.toNat else 0

/-- Vault cells held by a pitch. -/
def cellsUsed (s : State) (p : Nat) : Nat := (s.vault.slots.map (fun e => slotCells p e.2)).sum

/-- The three pools that R43 divides. -/
inductive Pool where
  | contexts | cells | crates
  deriving DecidableEq, Repr

/-- A pool's size (R23). -/
def poolSize : Pool → Nat
  | .contexts => 16384
  | .cells => 8192
  | .crates => 2048

/-- A pitch's reserve in a pool. -/
def reserveOf (k : Pool) (x : PitchPlan) : Nat :=
  match k with
  | .contexts => x.ctxReserve.toNat
  | .cells => x.cellReserve.toNat
  | .crates => x.crateReserve.toNat

/-- A pitch's use of a pool. -/
def poolUsed (s : State) (k : Pool) (p : Nat) : Nat :=
  match k with
  | .contexts => ctxUsed s p
  | .cells => cellsUsed s p
  | .crates => cratesUsed s p

/-- A pitch's ceiling in force (R43, R99). -/
def ceilingOf (s : State) (k : Pool) (p : BitVec 8) : Nat :=
  match k with
  | .contexts => (s.pitch p).cfg.ctxCeiling.toNat
  | .cells => (s.pitch p).cfg.cellCeiling.toNat
  | .crates => (s.pitch p).cfg.crateCeiling.toNat

/-- Why a grant of R43 is refused: the pitch is at its ceiling, or nothing is left of the pool. -/
inductive Grant where
  | granted | ceiling | pool
  deriving DecidableEq, Repr

/-- R43 for `n` units at once, granted all or nothing: the `n` single grants must all succeed. A grant that would break both the ceiling and the
pool is refused for the ceiling (DESIGN CHOICE, log 72). -/
def grant (s : State) (k : Pool) (p : BitVec 8) (n : Nat) : Grant :=
  match s.plan.inForce with
  | none => .pool
  | some pl =>
    let used := (List.range pl.pitches.length).map (poolUsed s k)
    let reserve := pl.pitches.map (reserveOf k)
    let u := poolUsed s k p.toNat
    let r := ((pl.pitches[p.toNat]?).map (reserveOf k)).getD 0
    let needShared : Nat := (u + n) - max u r
    if ceilingOf s k p < u + n then .ceiling
    else if (needShared : Int) ≤ max 0 (sharedFree (poolSize k) reserve used) then .granted
    else .pool

end Sys2Proof.Machine
end

