-- ==== Sys2Proof/Machine/LedgerOps.lean ====
section
/-! DEFINITION. The Ledger's records, its write queue and tally, and the clear (R398 to R408). -/
namespace Sys2Proof.Machine

/-! ### Records -/

/-- The first 12 bytes of a record, with some FLAGS (R399). -/
def ledgerHead (r : Record) (fl : BitVec 8) : Bytes :=
  wordBytes 2 r.event ++ [(r.event >>> 8).setWidth 8, r.pitch] ++ wordBytes 3 r.cycles ++ [fl] ++ wordBytes 4 r.optime

/-- The CRC over what of a record never changes (R399). -/
def recordCrc (r : Record) : BitVec 32 := crc32c (ledgerHead r (r.flags &&& 0xFE) ++ [0#8] ++ fit 40 r.detail)

/-- The record of an event as it is first written (R399). -/
def recordOf (e : Event) (droppedBefore : Bool) : Record :=
  let t := BitVec.ofNat 16 e.count
  let r : Record :=
    { event := e.event, pitch := e.pitch, cycles := e.cycles,
      flags := if droppedBefore then e.flags ||| 2 else e.flags, optime := e.optime, tally := t, check := tallyCheck t,
      detail := e.detail, crc := 0, torn := false, reach := 64 }
  { r with crc := recordCrc r }

/-- The records with their valid mark whose CRC fails (R399, LED_BAD_CRC). -/
def badCrcs (l : Ledger) : Nat := (l.slots.filter (fun r => !r.torn && r.crc != recordCrc r)).length

/-- The 64 bytes of a slot (R399); a torn slot holds the bytes that were reached. -/
def slotBytes (r : Record) : Bytes :=
  let all := ledgerHead r r.flags ++ wordBytes 2 r.tally ++ [r.check, 0#8] ++ fit 40 r.detail ++ wordBytes 4 r.crc ++ zeros 3 ++
    [0x5A#8]
  if r.torn then all.take r.reach ++ List.replicate (64 - r.reach) Config.erasedByte else all

/-! ### Writes -/

/-- The last valid record of a list changed. -/
def changeLast (f : Record → Record) (slots : List Record) : List Record :=
  match slots.reverse.findIdx? (fun r => r.torn = false) with
  | none => slots
  | some i => slots.mapIdx (fun j r => if j = slots.length - 1 - i then f r else r)

/-- Pending folds written into the last valid record (R402). -/
def tallyWrite (l : Ledger) : Ledger :=
  if l.pending = 0 then l
  else
    let up (r : Record) : Record :=
      let t := satAdd r.tally l.pending
      { r with tally := t, check := tallyCheck t }
    { l with slots := changeLast up l.slots, pending := 0 }

/-- A record put into the next slot (R398): NEAR_FULL at slot 15,359. -/
def putRecord (r : Record) (l : Ledger) : Ledger :=
  { l with slots := l.slots ++ [r], total := satAdd l.total 1,
           lint := if l.slots.length = 15359 then l.lint ||| 1 else l.lint }

/-- The record that closes a full Ledger (R405). -/
def fullRecord (s : State) : Record :=
  recordOf { event := 0x0A02, pitch := 0, flags := 0x10, optime := s.optime, cycles := s.ledger.cycles,
             detail := fit 40 (wordBytes 4 s.ledger.lost), count := 1 } false

/-- A Ledger whose slot 16,382 has been used (R405): event 0x0A02 takes the last slot, and the events that still wait are counted in its
tally. Where that slot is torn, there is none left for it. -/
def closeFull (s : State) : State :=
  if s.ledger.full ∨ s.ledger.slots.length < 16383 then s
  else
    let l := if s.ledger.slots.length < 16384 then putRecord (fullRecord s) (tallyWrite s.ledger) else s.ledger
    let n := (l.queue.map (·.count)).sum
    { s with ledger := { l with full := true, lint := l.lint ||| 2, queue := [], pending := l.pending + n, lost := satAdd l.lost n } }

/-- The first waiting event written (R403), its pending tally before it (R402). -/
def writeHead (s : State) : State :=
  match s.ledger.queue with
  | [] => s
  | e :: t =>
    if 16383 ≤ s.ledger.slots.length then closeFull s
    else
      let l := putRecord (recordOf e s.ledger.droppedBefore) (tallyWrite s.ledger)
      closeFull { s with ledger := { l with queue := t, droppedBefore := false } }

/-- A write of the Ledger broken off: how far it had come is open (log 1). Pending folds are written before a new record is (R402); a record
leaves a torn slot, and its event still waits. -/
def cutRecord (s : State) : State :=
  let l := s.ledger
  if l.clearing ∨ (l.queue = [] ∧ l.pending = 0) then s
  else
    let (n, s) := drawFree s
    let up (r : Record) : Record :=
      let t := satAdd r.tally l.pending
      match n % 4 with
      | 0 => r
      | 1 => { r with tally := (r.tally &&& 0xFF00) ||| (t &&& 0x00FF) }
      | 2 => { r with tally := t }
      | _ => { r with tally := t, check := tallyCheck t }
    match l.queue with
    | [] => { s with ledger := { l with slots := changeLast up l.slots } }
    | e :: _ =>
      if l.pending ≠ 0 ∧ n % 3 = 0 then { s with ledger := { l with slots := changeLast up l.slots } }
      else
        let l := tallyWrite l
        let k := n / 3 % 64
        if k = 0 ∨ 16384 ≤ l.slots.length then { s with ledger := l }
        else
          let r := { recordOf e l.droppedBefore with torn := true, reach := k }
          { s with ledger := { l with slots := l.slots ++ [r], total := satAdd l.total 1 } }

/-! ### Journals (R368, R408) -/

/-- What stands in a record of 64 bytes whose write stopped after some of them: the rest, up to the valid mark, which is not there, is open. -/
def tornRecord (new : Bytes) (n v : Nat) : Bytes := new.take (n % 64) ++ leBytes (63 - n % 64) v ++ [0]

/-- The 64 bytes of a journal record: its phase, the target code, SEQ, 48 bytes of data, the CRC-32C over them, and the valid mark. The
spec says what a record holds and not where (DESIGN CHOICE, log 71). Phase 0 is a journal closed. -/
def journalRecord (phase target : BitVec 8) (seq : BitVec 32) (data : Bytes) : Bytes :=
  let r := [phase, target, 0, 0] ++ wordBytes 4 seq ++ fit 48 data
  r ++ wordBytes 4 (crc32c r) ++ zeros 3 ++ [0x5A]

/-- A journal record is intact. -/
def journalIntact (r : Bytes) : Bool :=
  r.length == 64 && fieldAt 8 r 63 1 == 0x5A && fieldAt 32 r 56 4 == crc32c (r.take 56)

/-- SEQ of a journal record. -/
def journalSeq (r : Bytes) : BitVec 32 := fieldAt 32 r 4 4

/-- The record of a journal in force: the intact one with the higher SEQ. -/
def journalNow (j : Journal) : Option Bytes :=
  match journalIntact j.a, journalIntact j.b with
  | true, true => if (journalSeq j.a).toNat < (journalSeq j.b).toNat then some j.b else some j.a
  | true, false => some j.a
  | false, true => some j.b
  | false, false => none

/-- The phase of a journal: 0 closed; 1 WIPE_STARTED, or CLEARING; 2 WIPED. -/
def journalPhase (j : Journal) : BitVec 8 := ((journalNow j).map (fun r => fieldAt 8 r 0 1)).getD 0

/-- A journal is open. -/
def journalOpen (j : Journal) : Bool := journalPhase j != 0

/-- The target code of a wipe journal. -/
def journalTarget (j : Journal) : BitVec 5 := ((journalNow j).map (fun r => (fieldAt 8 r 1 1).setWidth 5)).getD 0

/-- The data of a journal. -/
def journalData (j : Journal) : Bytes := ((journalNow j).map (fun r => slice r 8 48)).getD []

/-- A journal's record not in force written. -/
def journalWrite (phase : BitVec 8) (target : BitVec 5) (data : Bytes) (j : Journal) : Journal :=
  let now := journalNow j
  let new := journalRecord phase (target.setWidth 8) ((now.map journalSeq).getD 0 + 1) data
  if now = some j.a then { j with b := new } else { j with a := new }

/-- A journal closed. -/
def journalClose (j : Journal) : Journal := if journalOpen j then journalWrite 0 0 [] j else j

/-- A journal whose last write was cut: the record that it would have put in force is torn. -/
def journalTear (n v : Nat) (j : Journal) : Journal :=
  match journalNow j with
  | none => j
  | some r => if r = j.a then { j with a := tornRecord r n v } else { j with b := tornRecord r n v }

/-! ### The clear -/

/-- Steps 3 to 5 of R408: the slots erased, the CLEARED record in slot 0, the journal closed; then the Evidence Log entry. -/
def finishClear (fromJournal : Bool) (s : State) : State :=
  if journalOpen s.nv.clear = false then s
  else
    let e : Event := { event := 0x0A01, pitch := 0, flags := if fromJournal then 8 else 0, optime := s.optime,
                       cycles := s.ledger.cycles, detail := fit 40 (journalData s.nv.clear), count := 1 }
    let l := s.ledger
    let l := { l with slots := [], lost := 0, dropped := 0, full := false, pending := 0, clearing := false, clearJob := none,
                      droppedBefore := false, lint := l.lint ||| 8 }
    let s := { s with ledger := putRecord (recordOf e s.ledger.droppedBefore) l, nv := { s.nv with clear := journalClose s.nv.clear } }
    evidence 0xF005 0 [] s

end Sys2Proof.Machine
end

