-- ==== Sys2Proof/Machine/CardOps.lean ====
section
/-! DEFINITION. The two card sockets: how an exchange ends, what an archive write leaves on the card, and the quorum
session, and what an archive card tells of itself and holds (R411, R418, R422 to R428). -/
namespace Sys2Proof.Machine

/-! ### The keeper's exchange -/

/-- A tile left by what ran on it: it clears itself under R24. -/
def leaveTile (s : State) (t : BitVec 6) : State :=
  match (s.tile t).state with
  | .busy _ =>
    let x := s.tile t
    s.setTile t { x with state := if x.reloadDue then .reloading else .idle, reloadDue := false, core := coreInit,
                              micro := { microInit with abortReq := x.micro.abortReq } }
  | _ => s

/-- The tile that verifies a signature of the keeper's exchange is left (R419). -/
def leaveKeeper (s : State) : State :=
  match s.cards.keeper.bind (·.unit) with
  | some t => leaveTile s t
  | none => s

/-- The keeper card deactivated (R411): the exchange is over. -/
def deactivate (s : State) : State :=
  if s.cards.keeper.isNone then s
  else
    let s := leaveKeeper s
    setPins [(.cardRstN, false), (.cardClk, false), (.cardIo, false), (.cardVccEn, false)]
      { s with cards := { s.cards with keeper := none } }

/-! ### What an archive card tells of itself (R422 to R424); the layouts are those of its specification (PRESUMED, log 71) -/

/-- The capacity of a card, in blocks: (C_SIZE + 1) × 1,024. -/
def arcSectors (c : ArcCard) : Nat := ((bits c.csd 48 22 : BitVec 22).toNat + 1) * 1024

/-- The initialisation of R422 succeeds: CMD8 is echoed, CCS is 1, the CSD is of version 2.0. -/
def arcInitOk (c : ArcCard) : Bool := c.answers && c.echo == 0x1AA && c.ccs && (bits c.csd 126 2 : BitVec 2) == 1

/-- The bus is 4 bits wide (R423): the SCR says so, and the R1 of ACMD6 shows no error. -/
def arcWide (c : ArcCard) : Bool := bit c.scr 50 && c.acmd6 &&& 0xFDF98008 == 0

/-- High Speed (R423): function 1 of group 1 is supported, and the switch took it. -/
def arcFast (c : ArcCard) : Bool := bit c.switch0 401 && (bits c.switch1 376 4 : BitVec 4) == 1

/-- SD_WP, after some write commands to the card. -/
def wpHigh (c : ArcCard) (n : Nat) : Bool := c.writeProtect || c.wpAfter.any (fun k => decide (k ≤ n))

/-- The card may not be written (R424): PERM_WRITE_PROTECT or TMP_WRITE_PROTECT of its CSD, or SD_WP. -/
def arcReadonly (s : State) (c : ArcCard) : Bool := bit c.csd 13 || bit c.csd 12 || wpHigh c s.cards.arcGiven

/-! ### What an archive card holds (R425, R428) -/

/-- A block of the card. -/
def arcBlock (c : ArcCard) (n : Nat) : Bytes := Tab.get (zeros 512) n c.blocks

/-- A block whose CRC is right and that begins with a MAGIC. -/
def arcValid (magic : String) (b : Bytes) : Bool :=
  b.take 4 == ascii magic && fieldAt 32 b 0x1F8 4 == crc32c (b.take 0x1F8)

/-- A superblock read (R425). -/
def superOf (s : State) (c : ArcCard) (inB : Bool) : Option ArcMount :=
  let b := arcBlock c (if inB then 1 else 0)
  if arcValid "CQAR" b then
    let uid := fieldAt 64 b 0x14 8
    some { readonly := arcReadonly s c, wide := arcWide c, highSpeed := arcFast c, foreign := uid != s.dev.uid, inB := inB,
           seq := fieldAt 32 b 8 4, formatId := fieldAt 64 b 0x0C 8, uid := uid, nextLba := fieldAt 32 b 0x1C 4,
           lastSeg := fieldAt 32 b 0x20 4, ledgerMark := fieldAt 32 b 0x24 4, evidenceMark := fieldAt 32 b 0x28 4 }
  else none

/-- The superblock in force: the valid one with the higher SEQ (R425). -/
def superNow (s : State) (c : ArcCard) : Option ArcMount :=
  match superOf s c false, superOf s c true with
  | some a, some b => if a.seq.toNat < b.seq.toNat then some b else some a
  | some a, none => some a
  | none, b => b

/-- The scan of R428: the superblock advanced over every whole segment that follows it. -/
def scanGo (c : ArcCard) : Nat → ArcMount → ArcMount
  | 0, m => m
  | k + 1, m =>
    let lba := m.nextLba.toNat
    let h := arcBlock c lba
    let n := (fieldAt 16 h 0x18 2).toNat
    let pay := ceilDiv n 8
    let t := arcBlock c (lba + 1 + pay)
    let body := (List.range (pay + 1)).flatMap (fun i => arcBlock c (lba + i))
    let seq := fieldAt 32 h 8 4
    let first := (fieldAt 32 h 0x14 4).toNat
    if arcValid "CQSG" h && arcValid "CQCM" t && decide (1 ≤ n) && decide (n ≤ 4096) &&
       fieldAt 64 h 0x0C 8 == m.formatId && fieldAt 64 t 0x0C 8 == m.formatId && seq == m.lastSeg + 1 &&
       fieldAt 32 t 8 4 == seq && slice t 0x14 16 == (sha256 body).take 16 then
      let evid := (h[6]?).getD 0 == 2
      scanGo c k { m with
        nextLba := BitVec.ofNat 32 (lba + pay + 2), lastSeg := seq,
        ledgerMark := if evid then m.ledgerMark else BitVec.ofNat 32 (first + n - 1),
        evidenceMark := if evid then BitVec.ofNat 32 (first + n) else m.evidenceMark }
    else m

/-! ### Writes to the card (R427) -/

/-- An archive card with blocks written to it. -/
def cardWith (ws : List (Nat × Bytes)) (c : ArcCard) : ArcCard :=
  { c with blocks := ws.foldl (fun t w => Tab.set (zeros 512) w.1 w.2 t) c.blocks }

/-- Of some block writes to a card, those that have reached it when they stop: `n` says how many are whole, and `v` whether, and how far,
the next one is torn (R427). -/
def writesCut (c : ArcCard) (ws : List (Nat × Bytes)) (n v : Nat) : List (Nat × Bytes) :=
  let k := n % (ws.length + 1)
  ws.take k ++ (match ws[k]? with
    | some w => if v % 2 = 0 then []
                else [(w.1, w.2.take (v / 2 % 512) ++ (Tab.get (zeros 512) w.1 c.blocks).drop (v / 2 % 512))]
    | none => [])

/-- The superblock with which a card that is mounted goes on: the one in force on it, moved over every whole segment that follows. -/
def remount (s : State) (c : ArcCard) : Option ArcMount :=
  if s.cards.arcMount.isSome then (superNow s c).map (fun m => if m.foreign then m else scanGo c (c.blocks.length + 1) m) else none

/-- An archive job cut short: of its block writes, some first ones have reached the card (R427), how many is open
(log 1). A card that stays mounted goes on from what it holds then, so that the next export overwrites no whole segment. -/
def arcBreak (s : State) : State :=
  match s.cards.arcWork, s.cards.arcCard with
  | some w, some c =>
    let (n, s) := drawFree s
    let (v, s) := drawFree s
    let c := cardWith (writesCut c w.writes n v) c
    { s with cards := { s.cards with arcWork := none, arcCard := some c, arcMount := remount s c } }
  | some _, none => { s with cards := { s.cards with arcWork := none } }
  | none, _ => s

/-- An archive job done: its blocks are on the card, its superblock stands mounted, and SD_WP is high where it rose meanwhile. -/
def archiveDone (s : State) : State :=
  match s.cards.arcWork with
  | none => s
  | some w =>
    let done (c : ArcCard) : ArcCard :=
      { cardWith w.writes c with writeProtect := c.writeProtect || w.protect, wpAfter := if w.protect then none else c.wpAfter }
    { s with cards := { s.cards with arcWork := none, arcMount := w.mount, arcCard := s.cards.arcCard.map done } }

/-- A job that ends takes its card exchange with it (R411, R421). -/
def endCardJob (s : State) (j : JobId) : State :=
  let s := if (s.cards.keeper.map (·.job)) = some j then deactivate s else s
  if (s.cards.arcWork.map (·.job)) = some j then arcBreak s else s

/-- The session in existence (R418): one that has lasted its time is over. -/
def sessionNow (s : State) : Option Session := s.cards.session.filter (fun q => decide (s.clock.us < q.endsAt))

/-- An OPEN quorum session for a purpose (R417). -/
def quorumOpen (s : State) (purpose : BitVec 3) : Bool :=
  match sessionNow s with
  | some q => q.opened && q.purpose == purpose
  | none => false

/-- The session ends (R418): its serials stay readable. -/
def endSession (s : State) : State :=
  match s.cards.session with
  | none => s
  | some q => { s with cards := { s.cards with session := none, lastSerials := q.serials, cint := s.cards.cint ||| 8 } }

/-- A session that has lasted its time ends (R418). -/
def sessionOver (s : State) : State := if (sessionNow s).isNone then endSession s else s

/-- The life-cycle state FIELD (R361). -/
def inField (s : State) : Bool := s.life.inForce == 0x12

/-- The life-cycle state PROVISIONING (R361). -/
def inProvisioning (s : State) : Bool := s.life.inForce == 0x11

end Sys2Proof.Machine
end

