-- ==== Sys2Proof/Machine/Cipher.lean ====
section
/-! DEFINITION. The block cipher and its modes that the spec takes from FIPS 197 and SP 800-38A, D and F. -/
namespace Sys2Proof.Machine

/-! ### AES (FIPS 197) -/

/-- Multiplication by x in the AES field. -/
def xtime (a : Byte) : Byte := if a.getLsbD 7 then (a <<< 1) ^^^ 0x1B else a <<< 1

/-- Multiplication in the AES field, by the bits of the second factor. -/
def gmul (a b : Byte) : Byte :=
  ((List.range 8).foldl (fun (p : Byte × Byte) i => (if b.getLsbD i then p.1 ^^^ p.2 else p.1, xtime p.2)) (0, a)).1

/-- A power in the AES field by squares. -/
def gpow254 (a : Byte) : Byte :=
  let s (x : Byte) := gmul x x
  let a2 := s a
  let a4 := s a2
  let a8 := s a4
  let a16 := s a8
  let a32 := s a16
  let a64 := s a32
  let a128 := s a64
  gmul a128 (gmul a64 (gmul a32 (gmul a16 (gmul a8 (gmul a4 a2)))))

/-- The S-box. -/
def sboxOf (a : Byte) : Byte :=
  let b := gpow254 a
  b ^^^ b.rotateLeft 1 ^^^ b.rotateLeft 2 ^^^ b.rotateLeft 3 ^^^ b.rotateLeft 4 ^^^ 0x63

/-- The inverse S-box. -/
def invSboxOf (a : Byte) : Byte :=
  gpow254 (a.rotateLeft 1 ^^^ a.rotateLeft 3 ^^^ a.rotateLeft 6 ^^^ 0x05)

/-- Exclusive or of byte strings. -/
def xorBytes (a b : Bytes) : Bytes := (a.zip b).map (fun p => p.1 ^^^ p.2)

/-- The key schedule, words of four bytes, newest first. -/
def aesExpand (nk : Nat) : Nat → Nat → Byte → List Bytes → List Bytes
  | 0, _, _, ws => ws
  | n + 1, i, rc, ws =>
    let prev := ws.getD 0 []
    let back := ws.getD (nk - 1) []
    if i % nk = 0 then
      let t := (prev.drop 1 ++ prev.take 1).map sboxOf
      let t := xorBytes t [rc, 0, 0, 0]
      aesExpand nk n (i + 1) (xtime rc) (xorBytes back t :: ws)
    else if nk > 6 ∧ i % nk = 4 then aesExpand nk n (i + 1) rc (xorBytes back (prev.map sboxOf) :: ws)
    else aesExpand nk n (i + 1) rc (xorBytes back prev :: ws)

/-- Words of four bytes. -/
def words4 : Nat → Bytes → List Bytes
  | 0, _ => []
  | n + 1, b => b.take 4 :: words4 n (b.drop 4)

/-- Words joined into round keys of 16 bytes. -/
def roundKeys : List Bytes → List Bytes
  | a :: b :: c :: d :: t => (a ++ b ++ c ++ d) :: roundKeys t
  | _ => []

/-- The round keys of a key of 16, 24 or 32 bytes. -/
def aesKeys (key : Bytes) : List Bytes :=
  let nk := key.length / 4
  roundKeys (aesExpand nk (4 * (nk + 7) - nk) nk 1 (words4 nk key).reverse).reverse

/-- ShiftRows by a step: 1 for the cipher, 3 for its inverse. -/
def shiftRows (k : Nat) (b : Bytes) : Bytes :=
  (List.range 16).map (fun i => b.getD (i % 4 + 4 * ((i / 4 + k * (i % 4)) % 4)) 0)

/-- MixColumns with the first row of its matrix. -/
def mixCols (m0 m1 m2 m3 : Byte) (b : Bytes) : Bytes :=
  (List.range 16).map (fun i =>
    let c := 4 * (i / 4)
    let r := i % 4
    gmul m0 (b.getD (c + r) 0) ^^^ gmul m1 (b.getD (c + (r + 1) % 4) 0) ^^^ gmul m2 (b.getD (c + (r + 2) % 4) 0) ^^^
      gmul m3 (b.getD (c + (r + 3) % 4) 0))

/-- One block encrypted. -/
def aesBlock (key block : Bytes) : Bytes :=
  match aesKeys key with
  | [] => block
  | k0 :: ks =>
    let n := ks.length
    (ks.zip (List.range n)).foldl (fun s k =>
      let s := shiftRows 1 (s.map sboxOf)
      let s := if k.2 + 1 = n then s else mixCols 2 3 1 1 s
      xorBytes s k.1) (xorBytes block k0)

/-- One block decrypted. -/
def aesInvBlock (key block : Bytes) : Bytes :=
  match (aesKeys key).reverse with
  | [] => block
  | k0 :: ks =>
    let n := ks.length
    (ks.zip (List.range n)).foldl (fun s k =>
      let s := xorBytes ((shiftRows 3 s).map invSboxOf) k.1
      if k.2 + 1 = n then s else mixCols 14 11 13 9 s) (xorBytes block k0)

/-! ### Modes (SP 800-38A) -/

/-- Pieces of 16 bytes, the last one possibly shorter. -/
def blocks16 : Nat → Bytes → List Bytes
  | 0, _ => []
  | n + 1, b => if b.isEmpty then [] else b.take 16 :: blocks16 n (b.drop 16)

/-- A byte string as blocks. -/
def toBlocks (b : Bytes) : List Bytes := blocks16 (ceilDiv b.length 16) b

def ecbEncrypt (key m : Bytes) : Bytes := (toBlocks m).flatMap (aesBlock key)

def ecbDecrypt (key m : Bytes) : Bytes := (toBlocks m).flatMap (aesInvBlock key)

def cbcEncGo (key : Bytes) : Bytes → List Bytes → Bytes
  | _, [] => []
  | iv, b :: t => let c := aesBlock key (xorBytes b iv); c ++ cbcEncGo key c t

def cbcDecGo (key : Bytes) : Bytes → List Bytes → Bytes
  | _, [] => []
  | iv, c :: t => xorBytes (aesInvBlock key c) iv ++ cbcDecGo key c t

def cbcEncrypt (key iv m : Bytes) : Bytes := cbcEncGo key iv (toBlocks m)

def cbcDecrypt (key iv m : Bytes) : Bytes := cbcDecGo key iv (toBlocks m)

/-- A counter block plus a count, modulo `2 ^ (8 * k)` in its last `k` bytes. -/
def incBlock (k : Nat) (b : Bytes) (n : Nat) : Bytes :=
  b.take (16 - k) ++ beBytes k ((beNat (b.drop (16 - k)) + n) % 2 ^ (8 * k))

/-- CTR over a text with the first counter block, its counter in the last `k` bytes. -/
def ctrCrypt (k : Nat) (key ctr m : Bytes) : Bytes :=
  let bs := toBlocks m
  (bs.zip (List.range bs.length)).flatMap (fun p => xorBytes p.1 (aesBlock key (incBlock k ctr p.2)))

/-! ### GCM (SP 800-38D) -/

/-- The product in GCM's field of two 128-bit strings as numbers, most significant bit first. -/
def gf128Mul (x y : Nat) : Nat :=
  ((List.range 128).foldl (fun (p : Nat × Nat) i =>
    (if x.testBit (127 - i) then p.1 ^^^ p.2 else p.1,
     if p.2 % 2 = 1 then (p.2 / 2) ^^^ (0xE1 * 2 ^ 120) else p.2 / 2)) (0, y)).1

/-- A string padded with zero bytes to whole blocks. -/
def pad16 (b : Bytes) : Bytes := b ++ zeros ((16 - b.length % 16) % 16)

/-- GHASH. -/
def ghash (h : Nat) (m : Bytes) : Nat := (toBlocks m).foldl (fun y b => gf128Mul (y ^^^ beNat b) h) 0

/-- The first counter block of a nonce. -/
def gcmJ0 (h : Nat) (iv : Bytes) : Bytes :=
  if iv.length = 12 then iv ++ [0, 0, 0, 1]
  else beBytes 16 (ghash h (pad16 iv ++ zeros 8 ++ beBytes 8 (8 * iv.length)))

/-- GCM's encryption, which is also its decryption. -/
def gcmCrypt (key iv m : Bytes) : Bytes :=
  let h := beNat (aesBlock key (zeros 16))
  ctrCrypt 4 key (incBlock 4 (gcmJ0 h iv) 1) m

/-- GCM's 16-byte tag over the additional data and the ciphertext. -/
def gcmTag (key iv aad c : Bytes) : Bytes :=
  let h := beNat (aesBlock key (zeros 16))
  let s := ghash h (pad16 aad ++ pad16 c ++ beBytes 8 (8 * aad.length) ++ beBytes 8 (8 * c.length))
  xorBytes (beBytes 16 s) (aesBlock key (gcmJ0 h iv))

/-! ### Key wrap (SP 800-38F) -/

/-- Pieces of eight bytes. -/
def halves8 : Nat → Bytes → List Bytes
  | 0, _ => []
  | n + 1, b => b.take 8 :: halves8 n (b.drop 8)

/-- The wrapping function W over the first half and the others, from step `t`. -/
def wrapSteps (key : Bytes) : Nat → Nat → Bytes → List Bytes → Bytes
  | 0, _, a, rs => a ++ rs.flatten
  | k + 1, t, a, rs =>
    match rs with
    | [] => a
    | r :: rest =>
      let b := aesBlock key (a ++ r)
      wrapSteps key k (t + 1) (xorBytes (b.take 8) (beBytes 8 t)) (rest ++ [b.drop 8])

/-- The inverse of W, from step `t` down. -/
def unwrapSteps (key : Bytes) : Nat → Bytes → List Bytes → Bytes
  | 0, a, rs => a ++ rs.flatten
  | t + 1, a, rs =>
    match rs.getLast? with
    | none => a
    | some r =>
      let b := aesInvBlock key (xorBytes a (beBytes 8 (t + 1)) ++ r)
      unwrapSteps key t (b.take 8) (b.drop 8 :: rs.dropLast)

/-- KW's wrapping of a text of whole halves with an integrity value in front. -/
def kwWith (key icv m : Bytes) : Bytes :=
  let n := m.length / 8
  wrapSteps key (6 * n) 1 icv (halves8 n m)

/-- The inverse: the integrity value and the text. -/
def kwOpen (key c : Bytes) : Bytes × Bytes :=
  let n := c.length / 8 - 1
  let b := unwrapSteps key (6 * n) (c.take 8) (halves8 n (c.drop 8))
  (b.take 8, b.drop 8)

/-- The integrity value of KW. -/
def kwIcv : Bytes := List.replicate 8 0xA6#8

def kwWrap (key m : Bytes) : Bytes := kwWith key kwIcv m

def kwUnwrap (key c : Bytes) : Option Bytes :=
  let r := kwOpen key c
  if r.1 = kwIcv then some r.2 else none

/-- KWP's integrity value for a length. -/
def kwpIcv (len : Nat) : Bytes := [0xA6, 0x59, 0x59, 0xA6] ++ beBytes 4 len

def kwpWrap (key m : Bytes) : Bytes :=
  let p := m ++ zeros ((8 - m.length % 8) % 8)
  if p.length = 8 then aesBlock key (kwpIcv m.length ++ p) else kwWith key (kwpIcv m.length) p

def kwpUnwrap (key c : Bytes) : Option Bytes :=
  let r := if c.length = 16 then (let b := aesInvBlock key c; (b.take 8, b.drop 8)) else kwOpen key c
  let len := beNat (r.1.drop 4)
  let pad := r.2.length - len
  if r.1.take 4 = [0xA6, 0x59, 0x59, 0xA6] ∧ len ≤ r.2.length ∧ pad < 8 ∧ allZero (r.2.drop len) then some (r.2.take len)
  else none

end Sys2Proof.Machine
end

