-- ==== Sys2Proof/Machine/Drbg.lean ====
section
/-! DEFINITION. The DRBG instances (R325, R327, R328, R330): CTR_DRBG of SP 800-90A with AES-256 and the derivation
function, seeded from the carafe. -/
namespace Sys2Proof.Machine

/-! ### CTR_DRBG -/

/-- BCC of the derivation function. -/
def drbgBcc (key : Bytes) (m : Bytes) : Bytes :=
  (toBlocks m).foldl (fun c b => aesBlock key (xorBytes c b)) (zeros 16)

/-- The first `n` blocks of an output chain. -/
def drbgChain (key : Bytes) : Nat → Bytes → Bytes
  | 0, _ => []
  | n + 1, x => let y := aesBlock key x; y ++ drbgChain key n y

/-- Block_Cipher_df to 48 bytes. -/
def drbgDf (input : Bytes) : Bytes :=
  let m := pad16 (beBytes 4 input.length ++ beBytes 4 48 ++ input ++ [0x80#8])
  let k := (List.range 32).map (fun i => BitVec.ofNat 8 i)
  let t := (List.range 3).flatMap (fun i => drbgBcc k (beBytes 4 i ++ zeros 12 ++ m))
  drbgChain (t.take 32) 3 (slice t 32 16)

/-- `n` blocks of the counter V. -/
def drbgStream (key v : Bytes) (n : Nat) : Bytes :=
  (List.range n).flatMap (fun i => aesBlock key (incBlock 16 v (i + 1)))

/-- CTR_DRBG_Update. -/
def drbgUpdate (data : Bytes) (d : Drbg) : Drbg :=
  let t := xorBytes (drbgStream d.key d.v 3) data
  { d with key := t.take 32, v := t.drop 32 }

/-- An instance seeded by a seed. -/
def drbgSeed (input : Bytes) (d : Drbg) : Drbg :=
  { drbgUpdate (drbgDf input) d with seeded := true, calls := 0, due := false, pending := false }

/-- Instantiation from entropy with nonce and personalisation. -/
def drbgFresh (input : Bytes) : Drbg := drbgSeed input { drbgInit with key := zeros 32, v := zeros 16 }

/-- One generate call without a reseed. -/
def drbgGenerate (addin : Bytes) (n : Nat) (d : Drbg) : Bytes × Drbg :=
  let a := if addin.isEmpty then zeros 48 else drbgDf addin
  let d := if addin.isEmpty then d else drbgUpdate a d
  let k := ceilDiv n 16
  let out := (drbgStream d.key d.v k).take n
  let d := drbgUpdate a { d with v := incBlock 16 d.v k }
  (out, { d with calls := satAdd d.calls 1, due := d.due || decide (2 ^ 20 ≤ d.calls.toNat + 1) })

/-! ### Instances and the carafe -/

/-- The instance of a pitch. -/
def State.drbg (s : State) (p : BitVec 8) : Drbg := Tab.get drbgInit p.toNat s.rng.drbgs

/-- The instance of a pitch replaced. -/
def State.setDrbg (s : State) (p : BitVec 8) (d : Drbg) : State :=
  { s with rng := { s.rng with drbgs := Tab.set drbgInit p.toNat d s.rng.drbgs } }

/-- Whether a pitch has an instance at all (R327). Pitch 0 has one in Shuttered mode (R463). -/
def hasDrbg (s : State) (p : BitVec 8) : Bool :=
  match s.planPitch p with
  | some x => x.drbg
  | none => s.isShuttered && p == 0

/-- The personalisation string of R327. -/
def personalisation (s : State) (p : BitVec 8) (host : Bytes) : Bytes :=
  wordBytes 8 s.dev.uid ++ wordBytes 1 p ++ wordBytes 2 (s.pitch p).epoch ++ host

/-- Bytes leave the carafe in the order they entered (R324). -/
def carafeTake (s : State) (n : Nat) : Bytes × State :=
  (s.rng.carafe.take n, { s with rng := { s.rng with carafe := s.rng.carafe.drop n } })

/-- An instantiation or reseed counted (RNG_RESEEDS). -/
def countReseed (s : State) : State := { s with rng := { s.rng with reseeds := satAdd s.rng.reseeds 1 } }

/-- An instance instantiated from 48 carafe bytes (R325, R327). -/
def drbgInstantiate (s : State) (p : BitVec 8) (host : Bytes) : State :=
  let (e, s) := carafeTake s 48
  countReseed (s.setDrbg p (drbgFresh (e ++ personalisation s p host)))

/-- An instance reseeded from 32 carafe bytes. -/
def drbgReseed (s : State) (p : BitVec 8) (addin : Bytes) : State :=
  let (e, s) := carafeTake s 32
  countReseed (s.setDrbg p (drbgSeed (e ++ addin) (s.drbg p)))

/-- Carafe bytes that a request needs now (R325, R328). -/
def drawNeed (s : State) (p : BitVec 8) (d : Draw) : Nat :=
  let x := s.drbg p
  match d with
  | .nothing => 0
  | .instantiate => 48
  | .carafe n => n
  | .reseed => if x.seeded then 32 else 48
  | .fresh => if x.seeded then 32 else 48
  | .call => if !x.seeded then 48 else if x.due then 32 else 0

/-- Whether a request can be served now. -/
inductive DrawReady where
  | ready
  | wait
  | fails (detail : BitVec 16)
  deriving DecidableEq, Repr

/-- The hold of the main failure has expired (R329); HOLD_MS 0 expires at once. -/
def mainHoldOver (s : State) : Bool := s.rng.mainFail && s.rng.mainHold

/-- A request is for bytes of the carafe itself, and not for an instance. -/
def Draw.ofCarafe : Draw → Bool
  | .carafe _ => true
  | _ => false

/-- The requests received before a job's own, or before one that no job makes. -/
def requestsBefore (s : State) (j : Option JobId) : List Request := s.rng.requests.takeWhile (fun r => j.isNone || r.job != j)

/-- The DETAIL of a request that the source fails (R330, R337): NOT_INSTANTIATED for one that waits for its instance's instantiation. -/
def drawFailed (s : State) (p : BitVec 8) (d : Draw) : BitVec 16 :=
  if !d.ofCarafe && drawNeed s p d == 48 then 0x0A23 else 0x0A20

/-- R325, R328 and R330 for a request of a pitch, and of a job where one makes it. Carafe bytes go to the requests in the order of their
receipt, and with the hold over at once where it has them; an instance serves its own one at a time in that order too. -/
def drawReady (s : State) (j : Option JobId) (p : BitVec 8) (d : Draw) : DrawReady :=
  if d = .nothing then .ready
  else if !d.ofCarafe && hasDrbg s p = false then .fails 0x0A22
  else
    let n := drawNeed s p d
    let earlier := requestsBefore s j
    if n = 0 then (if earlier.any (fun r => r.pitch == p && !r.draw.ofCarafe) then .wait else .ready)
    else if n ≤ s.rng.carafe.length && (earlier.isEmpty || mainHoldOver s) then .ready
    else if mainHoldOver s then .fails (drawFailed s p d)
    else .wait

/-- A request noted among those that wait (R325); one that is there already keeps its place. -/
def drawQueue (s : State) (r : Request) : State :=
  let rs := s.rng.requests
  let mine (q : Request) : Bool := q.job == r.job && q.pitch == r.pitch
  let new := if rs.any mine then rs.map (fun q => if mine q then r else q) else rs ++ [r]
  { s with rng := { s.rng with requests := new } }

/-- A request is still waited for: by its job, or by the instance that it is to instantiate. -/
def requestStands (s : State) (r : Request) : Bool :=
  match r.job with
  | some j => s.jobs.any (fun x => x.id == j && x.entropyWait)
  | none => (s.drbg r.pitch).pending

/-- Requests that nothing waits for any more leave the list. -/
def drawClean (s : State) : State :=
  { s with rng := { s.rng with requests := s.rng.requests.filter (requestStands s) } }

/-- An instance made a generate call though a reseed was due for which the carafe had no bytes: within a job that draws more than once
(R328). The state in which this holds is not taken. -/
def drawnDry (s : State) (p : BitVec 8) : Bool := decide (2 ^ 20 < (s.drbg p).calls.toNat)

/-- The carafe has a reseed's bytes, and no request received before the calls of the job that runs waits for bytes (R325): the requests
that still stand before the job's own. The calls of one job count as received together (DEDUCED, log 70). -/
def reseedServed (s : State) : Bool :=
  decide (32 ≤ s.rng.carafe.length) &&
  (s.rng.requests.takeWhile (requestStands s)).all (fun r => drawNeed s r.pitch r.draw == 0)

/-- One generate call of a pitch's instance that is ready, with the instantiation or reseed it is due (R328, R333). -/
def drawBytes (s : State) (p : BitVec 8) (fresh : Bool) (addin : Bytes) (n : Nat) : Bytes × State :=
  let x := s.drbg p
  let re := x.seeded && (fresh || x.due) && reseedServed s
  let s := if !x.seeded then drbgInstantiate s p [] else if re then drbgReseed s p addin else s
  let (out, d) := drbgGenerate (if re then [] else addin) n (s.drbg p)
  (out, s.setDrbg p d)

/-- A value drawn on a job's behalf (R327). -/
def draw (s : State) (p : BitVec 8) (n : Nat) : Bytes × State := drawBytes s p false [] n

/-- Whether a pitch's DRBG instance gives a value now. -/
def drawsNow (s : State) (p : BitVec 8) : Bool := drawReady s none p .call == .ready

/-- The NONCE of a wrapped record (R350), from a pitch's instance; one that has no value to give at that moment leaves it free (log 32,
log 71). -/
def drawNonce (p : BitVec 8) (s : State) : Bytes × State :=
  if drawsNow s p then draw s p 12
  else
    let (v, s) := drawFree s
    (leBytes 12 v, s)

/-- Instantiations that wait are served, in order, while the carafe holds their bytes (R325, R327). -/
def serveRequests : Nat → State → State
  | 0, s => s
  | k + 1, s =>
    match s.rng.requests with
    | [] => s
    | r :: _ =>
      if r.job = none ∧ (s.drbg r.pitch).pending = true ∧ 48 ≤ s.rng.carafe.length then
        serveRequests k (drawClean (drbgInstantiate s r.pitch []))
      else s

/-- An instance uninstantiated and instantiated afresh, as soon as the carafe can serve it (R107, R327). -/
def drbgRestart (s : State) (p : BitVec 8) : State :=
  if hasDrbg s p then
    let s := drawQueue (s.setDrbg p { drbgInit with pending := true }) { job := none, pitch := p, draw := .instantiate }
    serveRequests s.rng.requests.length s
  else s.setDrbg p drbgInit

end Sys2Proof.Machine
end

