-- ==== Sys2Proof/Machine/Flags.lean ====
section
/-! DEFINITION. Every summary flag that the part computes from its state: the interrupt causes of R34, DEV_STATUS and
DEV_CAPS, and the stalls in service. -/
namespace Sys2Proof.Machine

/-! ### Stalls in service -/

/-- The tiles of a stall now (R40). -/
def stallTiles (s : State) (n : Nat) : BitVec 64 := Tab.get 0#64 n s.plan.members

/-- A tile may take work: it is in its stall and neither testing, reloading nor retired (R127, R392). -/
def tileUsable (s : State) (t : Nat) : Bool :=
  match (s.tile (BitVec.ofNat 6 t)).state with
  | .idle => true
  | .busy _ => true
  | _ => false

/-- A tile is not retired. -/
def tileAlive (s : State) (t : Nat) : Bool := (s.tile (BitVec.ofNat 6 t)).state ≠ .retired

/-- The tiles of a stall as numbers, lowest first. -/
def tilesOf (m : BitVec 64) : List Nat := (List.range 64).filter (fun t => m.getLsbD t)

/-- The stalls of a role that are in service, lowest first (R14, R40): one without a tile is in service while a spare comes to it. -/
def stallsOf (s : State) (r : Role) : List Nat :=
  match s.plan.inForce with
  | none => []
  | some pl =>
    (List.range 32).filter (fun n =>
      pl.stalls.any (fun e => e.stall.toNat == n && e.role == r) && !(bit s.plan.retired n) &&
      (stallTiles s n ≠ 0 || s.plan.joining.contains n))

/-- A role is present under the plan (check 2 of R71). -/
def rolePresent (s : State) (r : Role) : Bool := !(stallsOf s r).isEmpty

/-- Tiles in stalls and not retired (DEV_CAPS). -/
def tilesInService (s : State) : Nat :=
  (s.plan.members.map (fun e => ((tilesOf e.2).filter (tileAlive s)).length)).sum

/-- Engines in service, one bit each (DEV_CAPS). -/
def enginesInService (s : State) : BitVec 8 :=
  (List.range 8).foldl (fun m e =>
    if (s.engine (BitVec.ofNat 3 e)).state = .retired then m else m ||| (1#8 <<< e)) 0

/-- A tile or engine is retired, or a stall runs short of tiles (DEV_STATUS.DEGRADED). -/
def degraded (s : State) : Bool :=
  s.tiles.any (fun e => e.2.state == .retired) || s.engines.any (fun e => e.2.state == .retired) ||
  (match s.plan.inForce with
   | none => false
   | some pl => pl.stalls.any (fun e =>
       decide ((tilesOf (stallTiles s e.stall.toNat)).length < (tilesOf e.tiles).length)))

/-! ### DEV_STATUS -/

/-- DEV_STATUS.STATE (R33, R383). -/
def devState (s : State) : BitVec 4 :=
  match s.dev.phase with
  | .shuttered _ => 3
  | .ready => if s.locked then 2 else 1
  | .enteringDormant => 4
  | .dormant => 4
  | _ => 0

/-- RNG_OK (R336). -/
def rngOk (s : State) : Bool := s.rng.started && !s.rng.mainFail && !s.rng.maskFail

/-- DEV_STATUS (R33). -/
def devStatus (s : State) : BitVec 32 :=
  at32 0 (devState s) ||| at32 4 (flag 1 s.plan.inForce.isSome) ||| at32 5 (flag 1 s.dev.katPass) |||
  at32 6 (flag 1 (rngOk s)) ||| at32 7 (flag 1 (degraded s)) |||
  at32 8 (flag 1 (s.dev.phase == .ready && decide ((stallsOf s .stream).length = 1))) |||
  at32 16 s.dev.bootReason

/-- The links that are UP, one bit each (DEV_CAPS.PL_UP). -/
def linksUp (s : State) : BitVec 3 :=
  flag 3 ((s.links.link[0]?.map (·.state)) == some .up) |||
  (flag 3 ((s.links.link[1]?.map (·.state)) == some .up) <<< 1) |||
  (flag 3 ((s.links.link[2]?.map (·.state)) == some .up) <<< 2)

/-- DEV_CAPS (R33). -/
def devCaps (s : State) : BitVec 32 :=
  at32 0 (BitVec.ofNat 7 (tilesInService s)) ||| at32 8 (enginesInService s) |||
  at32 16 (flag 1 ((s.plan.inForce.map (fun p => decide (p.pb0Rates ≠ 0))).getD true)) |||
  at32 17 (flag 1 ((s.plan.inForce.map (fun p => decide (p.pb1Rates ≠ 0))).getD true)) |||
  at32 18 (linksUp s) ||| at32 21 s.links.part

/-! ### Interrupt causes -/

/-- The interrupt cause of each block in the order of INT_SUMMARY.PENDING (R33). -/
def causes (s : State) : List Bool :=
  [ s.queues.any (fun e => e.2.errorInt),
    s.pitches.any (fun e => e.2.eventInt),
    s.porter.any (fun e => e.2.doneInt || e.2.errInt),
    (bit s.crates.mask 0 && s.crates.dropInt) || (bit s.crates.mask 1 && s.crates.flagInt) ||
      (bit s.crates.mask 2 && s.crates.poisonInt),
    (s.stream.sint &&& s.stream.smask) ≠ 0 || s.stream.ports.any (fun p => p.linkChange) ||
      s.stream.dqs.any (fun e => e.2.ciFault),
    (s.rng.rint &&& s.rng.rmask) ≠ 0,
    (s.vault.vint &&& s.vault.vmask) ≠ 0,
    (s.engInt &&& s.engMask) ≠ 0,
    (s.life.lint &&& s.life.lmask) ≠ 0,
    (s.alarm.aint &&& s.alarm.amask) ≠ 0,
    (s.ledger.lint &&& s.ledger.lmask) ≠ 0,
    (s.cards.cint &&& s.cards.cmask) ≠ 0,
    (s.links.lint &&& s.links.lmask) ≠ 0,
    (s.pace.pint &&& s.pace.pmask) ≠ 0,
    (s.plan.pint &&& s.plan.pmask) ≠ 0 || (s.seq.sint &&& s.seq.smask) ≠ 0 ]

/-- A list of Bools as a word, the first at bit 0. -/
def packBits (n : Nat) : List Bool → BitVec n
  | [] => 0
  | b :: t => flag n b ||| (packBits n t <<< 1)

/-- INT_SUMMARY.PENDING (R33). -/
def pendingBits (s : State) : BitVec 15 := packBits 15 (causes s)

/-- (PENDING and ENABLE) of R34. -/
def summary (s : State) : BitVec 15 := pendingBits s &&& s.dev.intEnable

/-! ### Eligibility for fetch (R59, R68, R69) -/

/-- A queue is assigned to a pitch. -/
def assignedTo (p : BitVec 8) (q : Queue) : Bool := q.cfg.assigned && q.cfg.pitch == p

/-- The queue under a local index of a pitch (R59). -/
def queueOf (s : State) (p : BitVec 8) (l : BitVec 6) : Option (BitVec 12) :=
  (s.queues.find? (fun e => assignedTo p e.2 && e.2.cfg.local_ == l)).map (fun e => BitVec.ofNat 12 e.1)

/-- A descriptor is fetched and has not started. A job that waits to run again after a fault has started (DEDUCED, log 64). -/
def notStarted (x : Job) : Bool := x.phase == .fetched || (x.phase == .waiting && x.faults == 0)

/-- Descriptors of a pitch that are fetched and not started (R69). A job that waits to run again has started (DEDUCED, log 64). -/
def unstarted (s : State) (p : BitVec 8) : Nat :=
  (s.jobs.filter (fun x => x.id.src = 0 ∧ x.pitch = p ∧ notStarted x)).length

/-- The places above 32 that all pitches take (R69). -/
def sharedPlaces (s : State) : Nat := ((List.range 256).map (fun p => unstarted s (BitVec.ofNat 8 p) - 32)).sum

/-- A pitch passes R69. -/
def placesLeft (s : State) (p : BitVec 8) : Bool :=
  let k := unstarted s p
  decide (k < 32) || (decide (k < 1024) && decide (sharedPlaces s < 8192))

/-- A queue is eligible (R68): ENABLED, with P above H. -/
def queueEligible (q : Queue) : Bool := q.state == .enabled && q.p != q.h

/-- The eligible queues of a pitch, by local index. -/
def eligibleOf (s : State) (p : BitVec 8) : List (BitVec 12) :=
  (List.range 64).filterMap (fun l => match queueOf s p (BitVec.ofNat 6 l) with
    | some n => if queueEligible (s.q n) then some n else none
    | none => none)

/-- A pitch is eligible (R68, R69); one that is not ACTIVE is not fetched for (R98). -/
def pitchEligible (s : State) (p : BitVec 8) : Bool :=
  (s.pitch p).state == .active && !(eligibleOf s p).isEmpty && placesLeft s p

/-- The first element after a mark in cyclic order. -/
def nextAfter (mark : Option Nat) (xs : List Nat) : Option Nat :=
  match mark with
  | none => xs.head?
  | some m => match xs.find? (fun x => decide (m < x)) with
    | some x => some x
    | none => xs.head?

/-- A visit of the fetcher ends when its pitch is no longer eligible, or its allowance is used up: what is left of it is dropped (R68). -/
def endVisit (s : State) : State :=
  match s.arb.visit with
  | none => s
  | some (p, a) => if a ≠ 0 ∧ pitchEligible s p then s else { s with arb := { s.arb with visit := none } }

/-! ### What follows every command -/

/-- R34: vector 0 is signalled when (PENDING and ENABLE) goes from all-zero to non-zero, and a visit of the fetcher whose pitch is no
longer eligible is over (R68). `s` is the state before a command and `t` the one after its effect. -/
def settle (s t : State) : State := endVisit (if summary s = 0 ∧ summary t ≠ 0 then msixSend 0 t else t)

/-- A command whose effect takes `s` to `t`: the next state, with the summary vector settled. -/
def act (s t : State) : Host.Outcome State Fault Refusal := .next (settle s t)

/-- The part is under power and out of reset. -/
def alive (s : State) : Bool := s.dev.phase != .unpowered && s.dev.phase != .dormant

/-- The function takes memory requests: the part is up, and not in D3hot (R54). -/
def windowsOpen (s : State) : Bool := alive s && !s.pcie.d3hot

/-- A write of a register by the host, whose effect takes `s` to `t`: it reaches the part while the windows are open. -/
def hostAct (s t : State) : Host.Outcome State Fault Refusal := act s (if windowsOpen s then t else s)

end Sys2Proof.Machine
end

