-- ==== Sys2Proof/Machine/Operands.lean ====
section
/-! DEFINITION. The operand forms of a descriptor and the checks that every opcode shares: its fields, its input and
output ranges in host memory and crates, its key handles, and the grant of a new slot (R70, R71, R84, R339 to R346). -/
namespace Sys2Proof

/-! ### FLAGS (03_work_queues) -/

def Desc.inCrate (d : Desc) : Bool := Machine.bit d.flags 0
def Desc.outCrate (d : Desc) : Bool := Machine.bit d.flags 1
def Desc.toVault (d : Desc) : Bool := Machine.bit d.flags 2
def Desc.fence (d : Desc) : Bool := Machine.bit d.flags 3
def Desc.irq (d : Desc) : Bool := Machine.bit d.flags 4
def Desc.quietOk (d : Desc) : Bool := Machine.bit d.flags 5
def Desc.faultMode (d : Desc) : BitVec 2 := Machine.bits d.flags 8 2

end Sys2Proof

namespace Sys2Proof.Machine

/-! ### The descriptor -/

/-- A descriptor from its 64 bytes (03_work_queues, Descriptors). -/
def descOf (b : Bytes) : Desc :=
  { opcode := fieldAt 16 b 0 2, flags := fieldAt 16 b 2 2, tag := fieldAt 32 b 4 4, contextId := fieldAt 16 b 8 2,
    paramSet := fieldAt 16 b 10 2, keyHandle := fieldAt 32 b 12 4, inAddr := fieldAt 64 b 16 8,
    inLen := fieldAt 32 b 24 4, outLen := fieldAt 32 b 28 4, outAddr := fieldAt 64 b 32 8,
    auxAddr := fieldAt 64 b 40 8, auxLen := fieldAt 32 b 48 4, keyHandle2 := fieldAt 32 b 52 4,
    param := fieldAt 64 b 56 8 }

/-- The 64 bytes of a descriptor. -/
def descBytes (d : Desc) : Bytes :=
  wordBytes 2 d.opcode ++ wordBytes 2 d.flags ++ wordBytes 4 d.tag ++ wordBytes 2 d.contextId ++
  wordBytes 2 d.paramSet ++ wordBytes 4 d.keyHandle ++ wordBytes 8 d.inAddr ++ wordBytes 4 d.inLen ++
  wordBytes 4 d.outLen ++ wordBytes 8 d.outAddr ++ wordBytes 8 d.auxAddr ++ wordBytes 4 d.auxLen ++
  wordBytes 4 d.keyHandle2 ++ wordBytes 8 d.param


/-- A refusal: the STATUS, DETAIL and RESULT of the record. -/
structure Bad where
  status : BitVec 16
  detail : BitVec 16
  result : BitVec 64 := 0
  deriving DecidableEq, Repr

/-! STATUS codes (R76). -/
def stOk : BitVec 16 := 0x0000
def stTruncated : BitVec 16 := 0x0001
def stNoOutput : BitVec 16 := 0x0002
def stSigInvalid : BitVec 16 := 0x0003
def stRetried : BitVec 16 := 0x0004
def stBadOpcode : BitVec 16 := 0x0101
def stBadField : BitVec 16 := 0x0102
def stBadLength : BitVec 16 := 0x0103
def stBadAddress : BitVec 16 := 0x0104
def stLengthShort : BitVec 16 := 0x0105
def stInputZero : BitVec 16 := 0x0201
def stInputRange : BitVec 16 := 0x0202
def stNotOnCurve : BitVec 16 := 0x0203
def stBadCurve : BitVec 16 := 0x0204
def stKeyAbsent : BitVec 16 := 0x0301
def stKeyBad : BitVec 16 := 0x0302
def stKeyPolicy : BitVec 16 := 0x0303
def stExhausted : BitVec 16 := 0x0304
def stCtxFull : BitVec 16 := 0x0401
def stCtxStale : BitVec 16 := 0x0402
def stEntropy : BitVec 16 := 0x0501
def stAborted : BitVec 16 := 0x0601
def stFault : BitVec 16 := 0x0603
def stLocked : BitVec 16 := 0x0701
def stPitchReset : BitVec 16 := 0x0702

/-- A refusal with BAD_FIELD. -/
def badField (d : BitVec 16) : Option Bad := some { status := stBadField, detail := d }

/-- A refusal with BAD_LENGTH. -/
def badLength (d : BitVec 16) : Option Bad := some { status := stBadLength, detail := d }

/-- A refusal of another STATUS. -/
def bad (st d : BitVec 16) : Option Bad := some { status := st, detail := d }

/-- Checks made in order: the first failure decides. -/
def firstBad : List (Option Bad) → Option Bad
  | [] => none
  | none :: t => firstBad t
  | some b :: _ => some b

/-- One check: the refusal when the condition holds. -/
def badWhen (c : Bool) (b : Option Bad) : Option Bad := if c then b else none

/-! ### Unused fields (R70) -/

/-- Which descriptor fields an opcode uses. `param` holds the bits of PARAM that lie in a sub-field; `stays` marks a CONTEXT_ID
that names a peer's context and takes the job nowhere. -/
structure Uses where
  param : BitVec 64 := 0
  ctx   : Bool := false
  stays : Bool := false
  set   : Bool := false
  key   : Bool := false
  key2  : Bool := false
  inp   : Bool := false
  out   : Bool := false
  outLenOnly : Bool := false
  aux   : Bool := false
  deriving DecidableEq, Repr

/-- Check 6 of R71: every field that the opcode does not use is zero. The flags IN_CRATE and OUT_CRATE do not count as fields: PORTER_START
and PORTER_STOP accept them without effect, of which R88 says nothing (DESIGN CHOICE, log 72). -/
def unusedZero (u : Uses) (d : Desc) : Bool :=
  (u.ctx || d.contextId == 0) && (u.set || d.paramSet == 0) && (u.key || d.keyHandle == 0) &&
  (u.key2 || d.keyHandle2 == 0) && (u.inp || (d.inAddr == 0 && d.inLen == 0)) &&
  (u.out || d.outAddr == 0) && (u.out || u.outLenOnly || d.outLen == 0) &&
  (u.aux || (d.auxAddr == 0 && d.auxLen == 0)) && (d.param &&& ~~~u.param) == 0

/-! ### Ranges (checks 13 and 14) -/

/-- An address range that passes 2^64 (check 13). A zero length makes no access (R70). -/
def wraps (a : BitVec 64) (n : BitVec 32) : Bool := n ≠ 0 && decide (a.toNat + n.toNat > 2 ^ 64)

/-- The crates that a range of the CRATE window touches. -/
def crateRange (off n : Nat) : List Nat := if n = 0 then [] else (List.range ((off + n - 1) / 4096 - off / 4096 + 1)).map (· + off / 4096)

/-- R84: a range passes only for crates that are DEVICE, held by the pitch and without a return request. -/
def cratesPass (s : State) (p : BitVec 8) (off n : Nat) : Bool :=
  n == 0 || (decide (off + n ≤ 0x800000) &&
    (crateRange off n).all (fun i => match s.crate i with
      | some c => c.pitch == p && c.flag == 1 && !c.returning
      | none => false))

/-- The crates of a job's ranges, with IN_CRATE and OUT_CRATE (R84). -/
def jobCrates (d : Desc) : List Nat :=
  (if d.inCrate then crateRange d.inAddr.toNat d.inLen.toNat else []) ++
  (if d.outCrate then crateRange d.outAddr.toNat d.outLen.toNat else [])

/-- The references held on a crate (R84): by jobs that passed check 14, and by a MOVE in progress. -/
def crateRefs (s : State) (n : Nat) : Nat :=
  (s.jobs.filter (fun j => j.held && (jobCrates j.desc).contains n)).length +
  (s.porter.filter (fun e => match e.2.run with
    | some r => match r.moving with
      | some m => (m.srcCrate && (crateRange m.src m.len).contains n) || (m.dstCrate && (crateRange m.dst m.len).contains n)
      | none => false
    | none => false)).length

/-- Bytes of the crate window's memory; a byte nothing has written reads as zero (log 4). -/
def readCrates (s : State) (off k : Nat) : Bytes := Tab.read 0#8 s.crates.data off k

/-- Bytes written into the crate window's memory. -/
def writeCrates (s : State) (off : Nat) (bs : Bytes) : State :=
  { s with crates := { s.crates with data := Tab.write 0#8 s.crates.data off bs } }

/-- A crate zeroed. -/
def zeroCrate (s : State) (n : Nat) : State :=
  { s with crates := { s.crates with data := s.crates.data.filter (fun e => e.1 / 4096 ≠ n) } }

/-- A SIGNAL waits no longer for a crate that has come back (R93). -/
def dropAwaited (s : State) : State :=
  let still (n : Nat) : Bool := match s.crate n with
    | some c => c.returning
    | none => false
  { s with porter := s.porter.map (fun e => match e.2.run with
      | some r => if r.awaiting.isEmpty then e else (e.1, { e.2 with run := some { r with awaiting := r.awaiting.filter still } })
      | none => e) }

/-- R84: a crate with a return request and no reference becomes RETURNED. -/
def completeReturns (s : State) : State :=
  dropAwaited { s with crates := { s.crates with held := s.crates.held.map (fun e => match e.2 with
      | some c => if c.returning && crateRefs s e.1 == 0 then (e.1, some { c with flag := 2, returning := false }) else e
      | none => e) } }

/-- R83: crates become POISONED. -/
def poison (s : State) (ns : List Nat) : State :=
  if ns.isEmpty then s else
  dropAwaited { s with crates := { s.crates with
      poisonInt := true,
      held := s.crates.held.map (fun e => match e.2 with
        | some c => if ns.contains e.1 then (e.1, some { c with flag := 0x0F, returning := false }) else e
        | none => e) } }

/-- A job's input (R70, step 5 of the path of a host job): from the crate window or host memory, or as a peer sent it. -/
def jobInput (s : State) (j : Job) : Bytes :=
  match j.input with
  | some b => b
  | none => if j.desc.inCrate then readCrates s j.desc.inAddr.toNat j.desc.inLen.toNat
            else readHost s j.pitch j.desc.inAddr.toNat j.desc.inLen.toNat

/-- A job's AUX bytes, always in host memory. -/
def jobAux (s : State) (j : Job) : Bytes :=
  match j.aux with
  | some b => b
  | none => readHost s j.pitch j.desc.auxAddr.toNat j.desc.auxLen.toNat

/-- A job's output bytes written at OUT_ADDR (R73). -/
def writeOutput (s : State) (j : Job) (bs : Bytes) : State :=
  if bs.isEmpty then s
  else if j.desc.outCrate then writeCrates s j.desc.outAddr.toNat bs
  else writeHost s j.pitch j.desc.outAddr.toNat bs

/-! ### Handles and keys (R339 to R346) -/

def handleSlot (h : BitVec 32) : BitVec 13 := bits h 0 13
def handlePitch (h : BitVec 32) : BitVec 8 := bits h 14 8
def handlePart (h : BitVec 32) : BitVec 2 := bits h 22 2
def handleGen (h : BitVec 32) : BitVec 8 := bits h 24 8

/-- The handle of a slot of this part (R339). -/
def mkHandle (s : State) (n : BitVec 13) (p : BitVec 8) : BitVec 32 :=
  (s.gen n).setWidth 32 <<< 24 ||| (s.links.part.setWidth 32 <<< 22) ||| (p.setWidth 32 <<< 14) ||| n.setWidth 32

/-- The key that a slot holds, loaded or not (R349). -/
def State.heldKey (s : State) (n : BitVec 13) : Option Key :=
  match s.slot n with
  | .key k => some k
  | .unloaded k => some k
  | _ => none

/-- The key in a slot. -/
def State.key (s : State) (n : BitVec 13) : Option Key :=
  match s.slot n with
  | .key k => some k
  | _ => none

/-- The key that a handle names, whatever its state. -/
def keyOf (s : State) (h : BitVec 32) : Option Key := s.key (handleSlot h)

/-- The UP peer that is a part of the mesh, if any: the link to it (R433). -/
def linkOfPart (s : State) (part : BitVec 2) : Option (BitVec 2) :=
  if part = s.links.part then none
  else
    let k := BitVec.ofNat 2 ((part ^^^ s.links.part).toNat - 1)
    match s.links.link[k.toNat]? with
    | some l => if l.state = .up then some k else none
    | none => none

/-- Steps 1 to 4 of R344. `deleted` marks VAULT_DELETE and VAULT_INFO, which pass step 3 for an unloaded key. -/
def keyThere (s : State) (p : BitVec 8) (h : BitVec 32) (unloadedToo : Bool) : Option Bad :=
  if handlePart h ≠ s.links.part && (linkOfPart s (handlePart h)).isNone then bad stKeyAbsent 0x0B01
  else if handlePitch h ≠ p then bad stKeyAbsent 0x0B02
  else match s.slot (handleSlot h) with
    | .free => bad stKeyAbsent (freedBy h)
    | .reserved _ _ => bad stKeyAbsent (freedBy h)
    | .unloaded _ => if unloadedToo then badWhen (handleGen h ≠ s.gen (handleSlot h)) (bad stKeyAbsent 0x0B04)
                     else bad stKeyAbsent 0x0B07
    | .key _ => badWhen (handleGen h ≠ s.gen (handleSlot h)) (bad stKeyAbsent 0x0B04)
where
  /-- A handle of a volatile key that a return from the Dormant state freed fails at step 4 (R346), until a key stands in its slot. -/
  freedBy (h : BitVec 32) : BitVec 16 :=
    if s.vault.returned.any (fun e => e.1 == handleSlot h && e.2 == handleGen h) then 0x0B04 else 0x0B03

/-- What an opcode asks of a key at steps 6 to 8 of R344: the types and sets that suit it, the usage bit it needs, a
chapter's own rule, and whether it takes an index of a stateful key. -/
structure KeyNeed where
  typ   : BitVec 16 → Bool
  set   : BitVec 16 → Bool
  usage : Option Nat
  more  : Key → Option Bad := fun _ => none
  signs : Bool := false

/-- Check 11 of R71 for one handle, in the order of R344. -/
def keyCheck (s : State) (p : BitVec 8) (h : BitVec 32) (n : KeyNeed) : Option Bad :=
  match keyThere s p h false with
  | some b => some b
  | none =>
    match keyOf s h with
    | none => bad stKeyAbsent 0x0B03
    | some k =>
      match k.bad with
      | some d => bad stKeyBad d
      | none =>
        if !(n.typ k.typ && n.set k.paramSet) then bad stKeyPolicy 0x0213
        else if (match n.usage with | some b => !bit k.usage b | none => false) then bad stKeyPolicy 0x0B10
        else match n.more k with
          | some b => some b
          | none => match k.stateful with
            | some f => badWhen (n.signs && decide (f.next ≥ f.limit)) (bad stExhausted 0)
            | none => none

/-- The lowest free slot from one on that no key has had since the start. -/
def freshSlot (s : State) : Nat → Nat → Option (BitVec 13)
  | _, 0 => none
  | n, k + 1 =>
    if s.slot (BitVec.ofNat 13 n) = .free && !s.vault.freed.contains n then some (BitVec.ofNat 13 n)
    else freshSlot s (n + 1) k

/-- The slot that a new key takes: the free slot freed longest ago, where those that no key has had stand first and in ascending
order (R339). -/
def nextSlot (s : State) : Option (BitVec 13) :=
  match freshSlot s 0 8192 with
  | some n => some n
  | none => (s.vault.freed.map (BitVec.ofNat 13)).find? (fun n => s.slot n == .free)

/-- A key with the rights that PARAM takes away (R353). A stateful key keeps its persistence. -/
def modified (p : BitVec 64) (k : Key) : Key :=
  { k with usage := k.usage &&& ~~~(p.setWidth 16), persist := k.persist || bit p 16,
           exportable := k.exportable && !bit p 17, migratable := k.migratable && !bit p 18 }

/-- The key that a handle names, less the rights that a VAULT_MODIFY takes away; none once another key is there. -/
def rightsLeft (s : State) (h : BitVec 32) (p : BitVec 64) : Option Key :=
  if s.gen (handleSlot h) = handleGen h then (s.key (handleSlot h)).map (modified p) else none

/-- The runs of blocks that the directory's entries give (R348): a record's, and one more for a stateful key's state records. -/
def blockRuns (s : State) : List (Nat × Nat) := s.nv.keys.filterMap (fun e => e.2.map (fun r => (r.first, r.blocks)))

/-- The blocks of the wrapped area in use. -/
def nvBlocks (s : State) : Nat := ((blockRuns s).map (·.2)).sum

/-- The first block of a new record: the lowest of a free run that is long enough (DESIGN CHOICE, log 71). -/
def firstFit (rs : List (Nat × Nat)) (n : Nat) : Option Nat :=
  ((0 :: rs.map (fun r => r.1 + r.2)).filter (fun a =>
    decide (a + n ≤ 8064) && rs.all (fun r => decide (a + n ≤ r.1 ∨ r.1 + r.2 ≤ a)))).min?

/-- The records moved together, in ascending slot order, where no free run is long enough for a new one (DESIGN CHOICE, log 71). -/
def packBlocks : Nat → Tab (Option NvKey) → Tab (Option NvKey)
  | _, [] => []
  | a, (n, none) :: t => (n, none) :: packBlocks a t
  | a, (n, some r) :: t => (n, some { r with first := a }) :: packBlocks (a + r.blocks) t

/-- A key's directory entry and record written, where its blocks are free (R348). The blocks of a record that it replaces are free only once
the entry has switched. -/
def putRecordAt (n : Nat) (r : NvKey) (s : State) : State :=
  match firstFit (blockRuns s) r.blocks with
  | some a => { s with nv := { s.nv with keys := Tab.set none n (some { r with first := a }) s.nv.keys } }
  | none =>
    let ks := packBlocks 0 (Tab.set none n none s.nv.keys)
    let s := { s with nv := { s.nv with keys := ks } }
    { s with nv := { s.nv with keys := Tab.set none n (some { r with first := nvBlocks s }) ks } }

/-- The blocks that a key's record would take. -/
def blocksOf (len : Nat) (stateful : Bool) : Nat := ceilDiv (128 + len) 1024 + (if stateful then 1 else 0)

/-- The blocks that a change will take at its job's completion: of a new persistent key, of one made persistent, or of
the persistent keys that a blob brings. -/
def commitBlocks (s : State) (c : Commit) : Nat :=
  match c with
  | .keyPut _ k => if k.persist then blocksOf k.value.length k.stateful.isSome else 0
  | .keyRights h p =>
    match s.key (handleSlot h), rightsLeft s h p with
    | some k, some m => if m.persist && !k.persist then blocksOf k.value.length k.stateful.isSome else 0
    | _, _ => 0
  | .imported _ _ _ ks _ => (ks.map (fun e => if e.2.persist then blocksOf e.2.value.length e.2.stateful.isSome else 0)).sum
  | _ => 0

/-- The blocks taken, and those that running jobs will take (R348). -/
def blocksSpoken (s : State) : Nat := nvBlocks s + (s.jobs.map (fun j => (j.commits.map (commitBlocks s)).sum)).sum

/-- Why a new key of `cells` cells cannot be granted (R345, R348), if it cannot. -/
def newKeyBad (s : State) (p : BitVec 8) (cells : Nat) (persist : Bool) (blocks : Nat) : Option Bad :=
  match grant s .cells p cells with
  | .ceiling => bad stCtxFull 0x0B40
  | .pool => bad stCtxFull 0x0B41
  | .granted =>
    if (nextSlot s).isNone then bad stCtxFull 0x0B44
    else if persist && decide (blocksSpoken s + blocks > 8064) then bad stCtxFull 0x0B42
    else none

/-- A slot reserved for a job's new key (R171, R346): its generation goes up by one. It keeps its place in the order of reuse until
a key stands in it. -/
def reserveSlot (s : State) (n : BitVec 13) (p : BitVec 8) (cells : Nat) : State :=
  { s with vault := { s.vault with
      slots := Tab.set .free n.toNat (.reserved p (BitVec.ofNat 8 cells)) s.vault.slots,
      gens := Tab.set none n.toNat (some (s.gen n + 1)) s.vault.gens } }

/-- A slot freed, last in the order of reuse (R339). -/
def freeSlot (s : State) (n : BitVec 13) : State :=
  { s with vault := { s.vault with slots := Tab.set .free n.toNat .free s.vault.slots,
                                   freed := s.vault.freed.filter (· ≠ n.toNat) ++ [n.toNat] } }

/-- A reservation released unused: the slot keeps its place and its generation as they stood (R171). -/
def unreserve (s : State) (n : BitVec 13) : State :=
  match s.slot n with
  | .reserved _ _ =>
    { s with vault := { s.vault with
        slots := Tab.set .free n.toNat .free s.vault.slots,
        gens := Tab.set none n.toNat (some (s.gen n - 1)) s.vault.gens } }
  | _ => s

/-- A key deleted: its cells and slot freed, its record deleted (R348, R353). -/
def dropKey (s : State) (n : BitVec 13) : State :=
  let s := freeSlot s n
  { s with nv := { s.nv with keys := Tab.set none n.toNat none s.nv.keys } }

/-- CREATED (R340): the operating time, then the 24-bit power-cycle count. -/
def createdNow (s : State) : BitVec 64 := at64 0 s.optime ||| at64 32 s.ledger.cycles

/-! ### Checks of a new key's attributes (R342, R343) -/

/-- The usage bits allowed for a type (R342), by TYPE and set. -/
def usageAllowed (typ set : BitVec 16) (len : Nat) (p : BitVec 8) (vprogOk : Bool) : BitVec 16 :=
  let priv := typ &&& 0x7FFF#16
  let pub := bit typ 15
  let signOf : BitVec 16 := if !pub && [3, 4, 5, 11, 12, 14].contains priv.toNat then 1 else 0
  let decaps : BitVec 16 := if !pub && [2, 9, 10].contains priv.toNat then 2 else 0
  let agree : BitVec 16 := if !pub && [11, 13, 15].contains priv.toNat then 4 else 0
  let decr : BitVec 16 := if !pub && priv = 14 then 8 else 0
  let secret : BitVec 16 := if typ = 1 then
      (if len = 16 || len = 24 || len = 32 then 0x10 else 0) ||| 0x20 ||| 0x40 ||| 0x80 ||| (if p = 0 then 0x800 else 0) else 0
  let prog : BitVec 16 := if vprogOk && priv = 3 && (set = 2 || set = 3) then 0x100 else 0
  let vprog : BitVec 16 := if vprogOk && !([6, 7, 8].contains priv.toNat) then 0x200 else 0
  let state : BitVec 16 := if [6, 7, 8].contains typ.toNat then 0x400 else 0
  signOf ||| decaps ||| agree ||| decr ||| secret ||| prog ||| vprog ||| state

/-- ATTRS obeys R343: USAGE is a subset of the bits allowed, SHARES3 stands for a SECRET key only, and the reserved bits
are zero. `ownShares` and `ownPolicy` mark an opcode whose PARAM has its own SHARES3 and its own FAULT_POLICY; `keygen` one whose USAGE is
ignored (R169). -/
def attrsOk (a : BitVec 32) (allowed : BitVec 16) (secret ownShares ownPolicy keygen : Bool) : Bool :=
  (keygen || (a.setWidth 16 &&& ~~~allowed) == 0) && bits a 22 10 == 0 &&
  (!(bit a 19) || (secret && !ownShares)) && (!ownPolicy || bits a 20 2 == 0)

/-- The USAGE that ATTRS gives a key: zero gives DERIVE for a SECRET key (R343). -/
def attrsUsage (a : BitVec 32) (secret : Bool) : BitVec 16 :=
  if a.setWidth 16 = 0#16 && secret then 0x80 else a.setWidth 16

end Sys2Proof.Machine
end

