-- ==== Sys2Proof/Machine/FlowOps.lean ====
section
/-! DEFINITION. Flow records, their public image, and what an administration job changes in a flow (R297 to R302). -/
namespace Sys2Proof.Machine

/-- A flow changed in a context that holds one. -/
def mapFlow (f : Flow → Flow) (c : Option Context) : Option Context :=
  match c with
  | none => none
  | some c => match c.data with
    | .flow x => some { c with data := .flow (f x) }
    | _ => some c

/-- A flow of a context, if it holds one. -/
def flowOf (c : Option Context) : Option Flow :=
  match c with
  | none => none
  | some c => match c.data with
    | .flow f => some f
    | _ => none

/-- Every flow of the part changed. -/
def mapFlows (f : Flow → Flow) (s : State) : State :=
  { s with contexts := Tab.mapVals none (fun _ c => mapFlow f c) s.contexts }

/-- A test holds of some flow of the part. -/
def someFlow (p : Flow → Bool) (s : State) : Bool := s.contexts.any (fun e => ((flowOf e.2).map p).getD false)

/-- The flow of a context index. -/
def State.flow (s : State) (i : BitVec 14) : Option Flow := flowOf (s.ctx i)

/-- The flow of a context index changed. -/
def changeFlow (i : BitVec 14) (f : Flow → Flow) (s : State) : State := s.setCtx i (mapFlow f (s.ctx i))

/-! ### Records and images (R297, R299) -/

/-- An empty key entry of a flow. -/
def flowEntryInit : FlowEntry := { handle := 0, keyId := 0, alg := 0, timeToNext := 0, timeOfKey := 0 }

/-- The 16 bytes of a key entry. -/
def flowEntryBytes (e : FlowEntry) : Bytes :=
  wordBytes 4 e.handle ++ wordBytes 4 e.keyId ++ [e.alg, 0] ++ wordBytes 2 e.timeToNext ++ wordBytes 4 e.timeOfKey

/-- The key entry of 16 bytes. -/
def flowEntryOf (b : Bytes) : FlowEntry :=
  { handle := fieldAt 32 b 0 4, keyId := fieldAt 32 b 4 4, alg := fieldAt 8 b 8 1, timeToNext := fieldAt 16 b 10 2,
    timeOfKey := fieldAt 32 b 12 4 }

/-- The 128 bytes of a flow record. -/
def flowRecBytes (r : FlowRec) : Bytes :=
  [r.kind, flag 8 r.egress, r.ports.setWidth 8, r.flags.setWidth 8] ++
  wordBytes 2 (r.vid.setWidth 16 ||| (flag 16 r.tagged <<< 15)) ++ wordBytes 2 r.appid ++ fit 6 r.dstMac ++ fit 6 r.srcMac ++
  [r.ipVer] ++ zeros 3 ++ fit 16 r.srcIp ++ fit 16 r.dstIp ++ wordBytes 2 r.dq ++ wordBytes 2 r.wrap ++ wordBytes 2 r.window ++
  wordBytes 2 r.graceMs ++ wordBytes 2 r.skewMs ++ zeros 2 ++ wordBytes 4 r.user ++ flowEntryBytes r.a ++ flowEntryBytes r.b ++ zeros 24

/-- The flow record of 128 bytes. -/
def flowRecOf (b : Bytes) : FlowRec :=
  { kind := fieldAt 8 b 0 1, egress := bit (fieldAt 8 b 1 1) 0, ports := bits (fieldAt 8 b 2 1) 0 2,
    flags := bits (fieldAt 8 b 3 1) 0 5, vid := bits (fieldAt 16 b 4 2) 0 12, tagged := bit (fieldAt 16 b 4 2) 15,
    appid := fieldAt 16 b 6 2, dstMac := slice b 8 6, srcMac := slice b 14 6, ipVer := fieldAt 8 b 0x14 1,
    srcIp := slice b 0x18 16, dstIp := slice b 0x28 16, dq := fieldAt 16 b 0x38 2, wrap := fieldAt 16 b 0x3A 2,
    window := fieldAt 16 b 0x3C 2, graceMs := fieldAt 16 b 0x3E 2, skewMs := fieldAt 16 b 0x40 2, user := fieldAt 32 b 0x44 4,
    a := flowEntryOf (slice b 0x48 16), b := flowEntryOf (slice b 0x58 16) }

/-- A key entry breaks R297. -/
def flowEntryBad (egress : Bool) (b : Bytes) : Bool :=
  let e := flowEntryOf b
  fieldAt 8 b 9 1 != 0 || (if e.handle = 0 then e.alg != 0 else !(decide (1 ≤ e.alg.toNat ∧ e.alg.toNat ≤ 5))) ||
  (!egress && (e.timeToNext != 0 || e.timeOfKey != 0))

/-- A flow record breaks a field rule of R297. -/
def flowRecBad (b : Bytes) : Bool :=
  let r := flowRecOf b
  let vlan : BitVec 16 := fieldAt 16 b 4 2
  let layer2 := r.kind == 1 || r.kind == 2
  !(layer2 || r.kind == 3 || r.kind == 4) || decide (1 < (fieldAt 8 b 1 1).toNat) || r.ports == 0 ||
  decide (3 < (fieldAt 8 b 2 1).toNat) || decide (31 < (fieldAt 8 b 3 1).toNat) ||
  (if layer2 then
      bits vlan 12 3 != 0#3 || (if r.tagged then r.vid == 0 || r.vid == 0xFFF else r.vid != 0) || r.ipVer != 0 ||
      !allZero (r.srcIp ++ r.dstIp)
   else
      vlan != 0 || r.appid != 0 || !allZero (r.dstMac ++ r.srcMac) || !(r.ipVer == 4 || r.ipVer == 6) ||
      (r.ipVer == 4 && !allZero (r.srcIp.drop 4 ++ r.dstIp.drop 4))) ||
  !allZero (slice b 0x15 3) || (if r.egress then r.dq != 0xFFFF else decide (255 < r.dq.toNat)) || (r.kind != 2 && r.wrap != 0) ||
  r.window == 0 || decide (32767 < r.window.toNat) || !allZero (slice b 0x42 2) || !allZero (slice b 0x68 24) ||
  flowEntryBad r.egress (slice b 0x48 16) || flowEntryBad r.egress (slice b 0x58 16)

/-- The PTP time counter moved by nanoseconds (R310). -/
def timeMoved (ns : Int) (t : Stream) : Stream :=
  let all : Int := (t.timeSec.toNat : Int) * 1000000000 + (t.timeNs.toNat : Int) + ns
  { t with timeSec := BitVec.ofInt 48 (all / 1000000000), timeNs := BitVec.ofInt 30 (all % 1000000000) }

/-- Bytes that a port sends in a microsecond, by its RATE (R285). -/
def lineBytes (rate : BitVec 2) : Nat := if rate = 0 then 125 else if rate = 1 then 1250 else 3125

/-- Milliseconds of grace left (R299). -/
def graceLeft (now : Nat) (f : Flow) : Nat :=
  match f.graceEnd with
  | some e => min 65535 (max 1 (ceilDiv (e - now) 1000))
  | none => 0

/-- The 192-byte public image (R299). -/
def flowImage (now : Nat) (f : Flow) : Bytes :=
  flowRecBytes f.record ++ [flag 8 f.tracking, flag 8 f.newerB, f.stall, 0] ++ wordBytes 4 f.counter ++ wordBytes 4 f.stNum ++
  leBytes 2 (graceLeft now f) ++ zeros 2 ++ wordBytes 8 f.rxSec ++ wordBytes 4 f.rxNs ++ zeros 4 ++ wordBytes 4 f.pass ++
  wordBytes 4 f.failMac ++ wordBytes 4 f.failReplay ++ wordBytes 4 f.failKey ++ wordBytes 4 f.failLen ++ wordBytes 4 f.failTime ++
  wordBytes 4 f.dropped ++ zeros 4

/-- What a home sends of a flow to its standby's part (R443), in a form of this part's own: the public image, then whether a grace has still to
begin under the newer entry, and the KEY_IDs of the entries that a grace emptied. -/
def mirrorImage (now : Nat) (f : Flow) : Bytes :=
  flowImage now f ++ [flag 8 f.newFirst, flag 8 f.retiredA.isSome, flag 8 f.retiredB.isSome, 0] ++
  wordBytes 4 (f.retiredA.getD 0) ++ wordBytes 4 (f.retiredB.getD 0)

/-- A flow just created (R297, R299, R300, R312). -/
def flowInit (r : FlowRec) (stall : BitVec 8) (keyA keyB iv : Bytes) : Flow :=
  { record := r, tracking := false, newerB := true, stall := stall, counter := 0, stNum := 0, graceEnd := none, rxSec := 0,
    rxNs := 0, pass := 0, failMac := 0, failReplay := 0, failKey := 0, failLen := 0, failTime := 0, dropped := 0, keyA := keyA,
    keyB := keyB, activeEntry := none, retiredA := none, retiredB := none, newFirst := true, spdu := 1, ivFixed := iv, sent := 0,
    standby := none, active := true, takeover := false, standbyAt := none }

/-- The replay state of what a home sent of a flow, put into its copy (R443). -/
def withImage (now : Nat) (b : Bytes) (f : Flow) : Flow :=
  let g := leNat (slice b 0x8C 2)
  let gone (i : Nat) : Option (BitVec 32) := if bit (fieldAt 8 b (0xC1 + i) 1) 0 then some (fieldAt 32 b (0xC4 + 4 * i) 4) else none
  { f with tracking := bit (fieldAt 8 b 0x80 1) 0, newerB := bit (fieldAt 8 b 0x81 1) 0, counter := fieldAt 32 b 0x84 4,
           stNum := fieldAt 32 b 0x88 4, graceEnd := if g = 0 then none else some (now + 1000 * g),
           newFirst := bit (fieldAt 8 b 0xC0 1) 0, retiredA := gone 0, retiredB := gone 1, rxSec := fieldAt 48 b 0x90 6, rxNs := fieldAt 32 b 0x98 4 }

/-! ### Changes -/

/-- An entry emptied when a grace ends: its KEY_ID is remembered (R302). -/
def retireOlder (f : Flow) : Flow :=
  let f := { f with graceEnd := none }
  if f.newerB then
    (if f.record.a.handle = 0 then f
     else { f with record := { f.record with a := flowEntryInit }, keyA := [], retiredA := some f.record.a.keyId })
  else
    (if f.record.b.handle = 0 then f
     else { f with record := { f.record with b := flowEntryInit }, keyB := [], retiredB := some f.record.b.keyId })

/-- FLOW_KEY: an entry written or emptied becomes the newer entry; a grace that ran ends with it. -/
def writeEntry (b : Bool) (e : FlowEntry) (key : Bytes) (activate : Bool) (f : Flow) : Flow :=
  let f := { f with newerB := b, newFirst := true, graceEnd := none,
                    activeEntry := if activate then some b else f.activeEntry }
  if b then { f with record := { f.record with b := e }, keyB := key, retiredB := none }
  else { f with record := { f.record with a := e }, keyA := key, retiredA := none }

/-- FLOW_SET: the mutable fields replaced. -/
def setMutable (r : FlowRec) (f : Flow) : Flow :=
  { f with record := { f.record with flags := r.flags, dq := r.dq, wrap := r.wrap, window := r.window, graceMs := r.graceMs,
                                     skewMs := r.skewMs, user := r.user } }

/-- What a job changes in a flow. -/
def flowChange (op : FlowOp) (f : Flow) : Flow :=
  match op with
  | .delete => f
  | .key b e key activate => writeEntry b e key activate f
  | .set r => setMutable r f
  | .resync => { f with tracking := false }

end Sys2Proof.Machine
end

