-- ==== Sys2Proof/Machine/KeyRecord.lean ====
section
/-! DEFINITION. The slot header of R340, the wrapped key records of R350, and the state records of stateful keys (R201 to R203). -/
namespace Sys2Proof.Machine

/-- The height of a layer of an SLH-DSA set's hypertree (FIPS 205). -/
def slhHeight (set : Nat) : Nat :=
  match set % 16 with
  | 1 => 9
  | 3 => 9
  | 5 => 8
  | 6 => 4
  | _ => 3

/-- The leaf values of the top hypertree layer that an SLH-DSA key's slot holds (R192), computed once from its value. -/
def topLeaves (typ set : BitVec 16) (value : Bytes) : Bytes :=
  if typ = 5 then
    fit (2 ^ slhHeight set.toNat * (value.length / 4)) (Config.crypto .chainState (65536 * 5 + set.toNat) [value])
  else []

/-- The length of a key's value. -/
def Key.valueLen (k : Key) : Nat := k.value.length

/-- STATE of the slot header (R340). -/
def keyState (k : Key) : BitVec 8 :=
  flag 8 k.persist ||| (flag 8 k.bad.isSome <<< 1) ||| (flag 8 k.shares3 <<< 2) ||| (k.faultPolicy.setWidth 8 <<< 3) |||
  (k.origin.setWidth 8 <<< 5) ||| (flag 8 k.exportable <<< 7)

/-- The 64 bytes of a slot header with the tag bytes zero (R340), for a handle. -/
def keyHeader (handle : BitVec 32) (k : Key) : Bytes :=
  wordBytes 2 k.typ ++ wordBytes 2 k.paramSet ++ wordBytes 4 handle ++ wordBytes 2 (BitVec.ofNat 16 k.value.length) ++
  [k.cells, keyState k] ++ wordBytes 2 k.usage ++ [flag 8 k.migratable, 0] ++ wordBytes 4 k.progSigner ++ zeros 4 ++
  wordBytes 8 k.curveId ++ wordBytes 8 k.created ++ zeros 8 ++ zeros 16

/-- The key of a header and a value. -/
def keyOfHeader (h value : Bytes) : Key :=
  let st := fieldAt 8 h 0x0B 1
  { typ := fieldAt 16 h 0 2, paramSet := fieldAt 16 h 2 2, pitch := bits (fieldAt 32 h 4 4) 14 8, cells := fieldAt 8 h 0x0A 1,
    persist := bit st 0, bad := none, shares3 := bit st 2, faultPolicy := bits st 3 2, origin := bits st 5 2,
    exportable := bit st 7, usage := fieldAt 16 h 0x0C 2, migratable := bit (fieldAt 8 h 0x0E 1) 0,
    progSigner := fieldAt 32 h 0x10 4, curveId := fieldAt 64 h 0x18 8, created := fieldAt 64 h 0x20 8, value := value,
    leaves := topLeaves (fieldAt 16 h 0 2) (fieldAt 16 h 2 2) value, stateful := none }

/-- What travels of a key with a spilled job (R441): its value; of a stateful key, which only verifies or gives its public key there, that
key. -/
def travelValue (k : Key) : Bytes :=
  match k.stateful with
  | some f => f.pub
  | none => k.value

/-- The key that travelled. -/
def travelled (h value : Bytes) : Key :=
  let k := keyOfHeader h value
  if [6, 7, 8].contains k.typ.toNat then
    { k with value := [], stateful := some { seed := [], pub := value, levels := 0, height := 0, next := 0, nextFree := 0, limit := 0,
                                              recA := [], recB := [], lowSaid := 0, caches := [] } }
  else k

/-- The customisation string of a KIND (R350). -/
def wrapCustom (kind : Nat) : Bytes :=
  ascii (if kind = 1 then "CQX18-VAULT-WRAP" else if kind = 2 then "CQX18-KEY-EXPORT" else "CQX18-PITCH-KEY")

/-- The bytes 0x00 to 0x6F of a wrapped key record (R350). -/
def recordHead (kind : Nat) (context : BitVec 64) (header nonce : Bytes) (len : Nat) : Bytes :=
  ascii "CQWK" ++ [1, 0, BitVec.ofNat 8 kind, 0] ++ leBytes 4 len ++ wordBytes 8 context ++ zeros 12 ++ header ++
  fit 12 nonce ++ zeros 4

/-- The GCM key of a record under a wrapping key (R350). -/
def recordKey (kind : Nat) (wrapping head : Bytes) : Bytes := kmac256 wrapping (wrapCustom kind) 32 (head.take 32)

/-- A wrapped key record (R350). -/
def wrapRecord (kind : Nat) (wrapping : Bytes) (context : BitVec 64) (header nonce value : Bytes) : Bytes :=
  let head := recordHead kind context header nonce value.length
  let key := recordKey kind wrapping head
  let c := gcmCrypt key (fit 12 nonce) value
  head ++ c ++ gcmTag key (fit 12 nonce) head c

/-- MAGIC, FORMAT, KIND and the reserved bytes of a record keep the layout of R350 (check 6 of R354). -/
def recordLayoutOk (kind : Nat) (r : Bytes) : Bool :=
  r.take 4 == ascii "CQWK" && fieldAt 16 r 4 2 == 1 && fieldAt 8 r 6 1 == BitVec.ofNat 8 kind && fieldAt 8 r 7 1 == 0 &&
  allZero (slice r 0x14 12) && allZero (slice r 0x6C 4)

/-- A record keeps R350 whole: VALUE_LEN, CONTEXT and the tag bytes of the header too. -/
def recordFormatOk (kind : Nat) (context : BitVec 64) (r : Bytes) : Bool :=
  recordLayoutOk kind r && decide ((fieldAt 32 r 8 4).toNat + 128 = r.length) && fieldAt 64 r 0x0C 8 == context &&
  allZero (slice r 0x50 16)

/-- The value of a record whose tag passes. -/
def unwrapRecord (kind : Nat) (wrapping r : Bytes) : Option Bytes :=
  let head := r.take 0x70
  let c := slice r 0x70 (r.length - 128)
  let key := recordKey kind wrapping head
  let nonce := slice r 0x60 12
  if gcmTag key nonce head c = r.drop (0x70 + (r.length - 128)) then some (gcmCrypt key nonce c) else none

/-- The slot header inside a record. -/
def recordHeader (r : Bytes) : Bytes := slice r 0x20 64

/-- The wrapping key of KIND 1 (R350). -/
def vaultKwk (root : Bytes) : Bytes := kmac256 (Config.deviceSecret ++ root) (ascii "CQX18-VAULT-KWK") 32 []

/-- The wrapping key of this part's vault, under the root key that it holds. -/
def vaultKey (s : State) : Bytes := vaultKwk (s.battery.rootKey.getD [])

/-! ### Persistent keys (R348, R349) -/

/-- The slot header in a record of the die. -/
def NvKey.header (r : NvKey) : Bytes := recordHeader r.record

/-- The generation that a record gives its key. -/
def NvKey.gen (r : NvKey) : BitVec 8 := handleGen (fieldAt 32 r.header 4 4)

/-- The pitch of a record's key. -/
def NvKey.pitch (r : NvKey) : BitVec 8 := handlePitch (fieldAt 32 r.header 4 4)

/-- What a record says of its key in the clear: the header, and the length of the value. -/
def NvKey.shell (r : NvKey) : Key :=
  { keyOfHeader r.header (zeros (r.record.length - 128)) with leaves := [], stateful := r.stateful }

/-- The key of a record whose tag passes under a wrapping key. -/
def NvKey.key (kwk : Bytes) (r : NvKey) : Option Key :=
  if recordFormatOk 1 0 r.record then
    (unwrapRecord 1 kwk r.record).map (fun v => { keyOfHeader r.header v with stateful := r.stateful })
  else none

/-- The record of a persistent key, written to the wrapped area (R348), its NONCE from the pitch that issued the job (R350). -/
def storeKey (issuer : BitVec 8) (s : State) (n : BitVec 13) (k : Key) : State :=
  if k.persist = false then s
  else
    let (nonce, s) := drawNonce issuer s
    putRecordAt n.toNat
      { first := 0, blocks := blocksOf k.value.length k.stateful.isSome, mark := 0x5A,
        record := wrapRecord 1 (vaultKey s) 0 (keyHeader (mkHandle s n k.pitch) k) nonce k.value, stateful := k.stateful, migrated := false } s

/-- A key placed in its slot, with its record when it is persistent. -/
def putKey (issuer : BitVec 8) (s : State) (n : BitVec 13) (k : Key) : State :=
  storeKey issuer ({ s with vault := { s.vault with freed := s.vault.freed.filter (· ≠ n.toNat),
                                                    returned := s.vault.returned.filter (fun e => e.1 ≠ n) } }.setSlot n (.key k)) n k

/-- The key that a slot holds, read from its record where it is not loaded (R349). PITCH_EXPORT carries a BAD key, or one whose record's tag fails, with
the value that the slot holds, zero, and PITCH_IMPORT places it as a key that is not BAD: R115 names neither (DESIGN CHOICE, log 72). -/
def wholeKey (s : State) (n : BitVec 13) : Option Key :=
  match s.slot n with
  | .key k => some k
  | .unloaded k => some (((Tab.get none n.toNat s.nv.keys).bind (NvKey.key (vaultKey s))).getD k)
  | _ => none

/-- TAG of a slot (R347): a function of what the slot holds and of the tag key, and so no state of its own. -/
def slotTag (s : State) (n : BitVec 13) : Bytes :=
  match s.slot n with
  | .key k => kmac128 s.vault.tagKey (ascii "CQX18-VAULT-TAG") 16 ((keyHeader (mkHandle s n k.pitch) k).take 48 ++ k.value)
  | _ => []

/-! ### State records (R201 to R203) -/

/-- The tag of a state record (R201). Its customisation string, which the spec does not give, is empty (DESIGN CHOICE, log 69). -/
def hsTag (kwk body : Bytes) : Bytes := kmac256 kwk [] 16 body

/-- The 64 bytes of a state record (R201). -/
def hsRecord (kwk : Bytes) (handle seq : BitVec 32) (nextFree limit : Nat) : Bytes :=
  let body := wordBytes 4 handle ++ wordBytes 4 seq ++ leBytes 8 nextFree ++ leBytes 8 limit
  let r := body ++ hsTag kwk body ++ zeros 16
  r ++ wordBytes 4 (crc32c r) ++ zeros 3 ++ [0x5A]

/-- A state record is intact: its valid mark, its CRC and its tag all hold (R201). -/
def hsIntact (kwk r : Bytes) : Bool :=
  r.length == 64 && fieldAt 8 r 63 1 == 0x5A && fieldAt 32 r 56 4 == crc32c (r.take 56) &&
  slice r 24 16 == hsTag kwk (r.take 24)

/-- SEQ of a state record. -/
def hsSeq (r : Bytes) : BitVec 32 := fieldAt 32 r 4 4

/-- NEXT_FREE of a state record. -/
def hsNextFree (r : Bytes) : Nat := (fieldAt 64 r 8 8 : BitVec 64).toNat

/-- The state record in force: the intact one with the higher SEQ (R201). -/
def recordInForce (kwk : Bytes) (f : Stateful) : Option Bytes :=
  match hsIntact kwk f.recA, hsIntact kwk f.recB with
  | true, true => if (hsSeq f.recA).toNat < (hsSeq f.recB).toNat then some f.recB else some f.recA
  | true, false => some f.recA
  | false, true => some f.recB
  | false, false => none

/-- Which of the two Ledger records of R204 are due with `left` indices left. -/
def lowNow (limit left : Nat) : BitVec 2 := flag 2 (decide (left ≤ limit / 16)) ||| (flag 2 (decide (left ≤ 1024)) <<< 1)

/-- A stateful key's state as its state records give it at a start, and at a return from the Dormant state: NEXT is NEXT_FREE, and no
binding stands (R201, R202, R207). -/
def skipState (kwk : Bytes) (f : Stateful) : Option Stateful :=
  (recordInForce kwk f).map (fun r =>
    { f with next := hsNextFree r, nextFree := hsNextFree r, lowSaid := f.lowSaid ||| lowNow f.limit (f.limit - hsNextFree r), caches := [] })

/-- A key at a start: a stateful one without an intact state record is BAD (R201). -/
def skipToFree (kwk : Bytes) (k : Key) : Key :=
  match k.stateful with
  | none => k
  | some f => match skipState kwk f with
    | some g => { k with stateful := some g }
    | none => { k with bad := some 0x0614, stateful := some { f with caches := [] } }

/-- The bound of the block that a SIGN reserves next (step 3 of R202). -/
def nextBlock (f : Stateful) : Nat := min (f.next + 64) f.limit

/-- The record not in use written with a new bound. With `torn`, its write stopped after some bytes: what stands behind them, up to the
valid mark, which is not there, is open (R202, R203; log 69). -/
def writeReserve (kwk : Bytes) (handle : BitVec 32) (torn : Option (Nat × Nat)) (f : Stateful) : Stateful :=
  let now := recordInForce kwk f
  let new := hsRecord kwk handle ((now.map hsSeq).getD 0 + 1) (nextBlock f) f.limit
  let put := match torn with
    | none => new
    | some (n, v) => tornRecord new n v
  if now = some f.recA then { f with recB := put } else { f with recA := put }

/-- A stateful key's state records on the non-volatile die changed. -/
def setRecords (n : BitVec 13) (g : Stateful → Stateful) (s : State) : State :=
  match Tab.get none n.toNat s.nv.keys with
  | some r =>
    { s with nv := { s.nv with keys := Tab.set none n.toNat (some { r with stateful := r.stateful.map g }) s.nv.keys } }
  | none => s

/-- A stateful key's state changed in its slot and, where a record of it is kept, there. -/
def setStateful (n : BitVec 13) (g : Stateful → Stateful) (s : State) : State :=
  match s.key n with
  | some k => setRecords n g (s.setSlot n (.key { k with stateful := k.stateful.map g }))
  | none => s

/-- A block of indices whose record is written and read back: NEXT_FREE is its bound (R202). -/
def reserveBlock (handle : BitVec 32) (s : State) : State :=
  setStateful (handleSlot handle) (fun f => { writeReserve (vaultKey s) handle none f with nextFree := nextBlock f }) s

/-- A block of indices whose record was torn (R203). -/
def tearBlock (handle : BitVec 32) (s : State) : State :=
  let (n, s) := drawFree s
  let (v, s) := drawFree s
  setStateful (handleSlot handle) (writeReserve (vaultKey s) handle (some (n, v))) s

end Sys2Proof.Machine
end

