-- ==== Sys2Proof/Machine/Jobs.lean ====
section
/-! DEFINITION. The path of a host job (R14 to R26, R66 to R78): the checks of R71 in their order, the placement on a
tile or an engine, the end of a job, its record, its signal. -/
namespace Sys2Proof.Machine

/-! ### Opcodes -/

/-- Every opcode that some chapter defines (check 1 of R71). -/
def definedOpcodes : List Nat :=
  [0x0101, 0x0102, 0x0111, 0x0112, 0x0201, 0x0202, 0x0203, 0x0204, 0x0301, 0x0302, 0x0303, 0x0304,
   0x0401, 0x0402, 0x0403, 0x0404, 0x0501, 0x0502, 0x0503, 0x0504, 0x0601, 0x0602, 0x0603, 0x0604,
   0x0611, 0x0612, 0x0613, 0x0614, 0x0615, 0x0616, 0x0617, 0x0618, 0x0630, 0x0631] ++
  [0x0701, 0x0702, 0x0703, 0x0704, 0x0801, 0x0802, 0x0803, 0x0804, 0x0805] ++
  [0x0901, 0x0902, 0x0903, 0x0904, 0x0905, 0x0911, 0x0912, 0x0913, 0x0915, 0x0921, 0x0922, 0x0925,
   0x0931, 0x0932, 0x0933, 0x0934, 0x0935, 0x0936, 0x0941, 0x0942, 0x0945, 0x0951] ++
  [0x0A01, 0x0A02, 0x0A03, 0x0A04, 0x0A10, 0x0B01, 0x0B02, 0x0B03, 0x0B04, 0x0B05, 0x0B06,
   0x0C01, 0x0C02, 0x0C03, 0x0C04, 0x0C05, 0x0C06, 0x0C07, 0x0C10, 0x0D01, 0x0D02, 0x0E01, 0x0E02] ++
  [0x0F01, 0x0F02, 0x0F03, 0x0F04, 0x0F05, 0x0F08, 0x0F09, 0x0F10, 0x0F11, 0x0F12, 0x0F13, 0x0F20, 0x0F21,
   0x0F24, 0x0F25, 0x0F30, 0x0F31, 0x0F32, 0x0F41, 0x0F42, 0x0F50, 0x0F51, 0x0F61, 0x0F62, 0x0F63, 0x0F64,
   0x0F65, 0x0F66, 0x0F67, 0x0F68, 0x0F69, 0x0F6A]

/-- The opcode is defined (check 1 of R71). -/
def opcodeDefined (c : BitVec 16) : Bool := definedOpcodes.contains c.toNat

/-- The role whose stall an opcode needs (R14). -/
def roleOf (c : BitVec 16) : Option Role :=
  match (c >>> 8).toNat with
  | 1 => some .hashsig
  | 2 => some .lattice
  | 3 => some .lattice
  | 4 => some .lattice
  | 5 => some .hashsig
  | 6 => if c = 0x0631 then none else some .hashsig
  | 7 => some .code
  | 8 => some .code
  | 12 => if c = 0x0C01 ∨ c = 0x0C10 then some .stream else none
  | 13 => some .general
  | _ => none

/-- A descriptor needs an engine in service (R254): the opcodes 0x09xx, and the hybrid sets of 0x02xx. -/
def needsEngine (d : Desc) : Bool :=
  d.opcode >>> 8 == 9 ||
  (d.opcode >>> 8 == 2 && [0x11, 0x12, 0x13, 0x14].contains d.paramSet.toNat)

/-- The opcodes accepted under LOCK (R386). -/
def lockPermits (c : BitVec 16) : Bool :=
  [0x0F41, 0x0F42, 0x0F05, 0x0B04, 0x0F30, 0x0F31, 0x0F32, 0x0F50, 0x0F64, 0x0F65, 0x0F66, 0x0F67, 0x0F68, 0x0F69,
   0x0F6A].contains c.toNat

/-- The opcodes accepted in Shuttered mode, by its cause (R462, R376). -/
def shutterPermits (k : ShutterCause) (c : BitVec 16) : Bool :=
  match k with
  | .failedStarts => [0x0F10, 0x0F11, 0x0F01, 0x0F05, 0x0F08, 0x0F09, 0x0F13, 0x0F50, 0x0F42, 0x0F41, 0x0F68, 0x0F69,
      0x0F6A].contains c.toNat
  | .lifecycle => [0x0F30, 0x0F31, 0x0F32, 0x0F50, 0x0F42, 0x0F68, 0x0F69, 0x0F6A].contains c.toNat

/-- The life-cycle opcodes. -/
def lcOpcode (c : BitVec 16) : Bool := c == 0x0F30 || c == 0x0F31 || c == 0x0F32

/-- The states in which Shuttered mode takes them: BLANK and INVALID (R376). -/
def lcShutterOk (s : State) : Bool := s.life.inForce == 0 || s.life.inForce == 0x1F

/-- The state check between checks 1 and 2 of R71. From the wipe journal's first record to the restart, descriptors are refused as under
LOCK (R368). -/
def stateBad (s : State) (c : BitVec 16) : Option Bad :=
  let closed := badWhen (s.life.closing && !lockPermits c) (bad stLocked 0x0020)
  if s.dev.bscan then bad stLocked 0x0024
  else match s.dev.phase with
    | .shuttered k => firstBad
      [badWhen (!shutterPermits k c || (k == .lifecycle && lcOpcode c && !lcShutterOk s)) (bad stLocked 0x0021), closed]
    | _ => firstBad [badWhen (s.locked && !lockPermits c) (bad stLocked 0x0020), closed]

/-- A job that a peer forwards to a locked home is refused, whatever its opcode (R438). -/
def homeLocked (s : State) (x : Job) : Option Bad :=
  badWhen (x.id.src != 0 && !x.spilled && s.locked) (bad stLocked 0x0020)

/-! ### What an opcode's chapter says of it -/

/-- Where a job computes (R14, R15, R254): on the Hall controller, the vault, the RNG block or the fetcher, which take
no stall; on one tile; on the idle tiles of one stall; on one engine; on a tile and an engine; on tiles that its chapter
chooses, once all of them are idle (R241, R243, R245). `boot` is where a Shuttered part verifies: tile T0 and engine BN0 (R462, R463). -/
inductive Place where
  | core | tile | stall | engine | tileAndEngine | boot
  | on (ts : List Nat)
  deriving DecidableEq, Repr

/-- A new vault slot that a job reserves (R171): its cells, whether the key persists, and the blocks its record takes. -/
structure NewSlot where
  cells   : Nat
  persist : Bool
  blocks  : Nat
  deriving DecidableEq, Repr

/-- What a job's run gives: the state (with free values drawn and counters advanced), the record's content, none while
the job goes on elsewhere, and what it changes when it completes. `timed` says that the job counts ELAPSED (R21), and `ps` is its
time at floor pace where its run tells it. -/
structure Ran where
  state   : State
  out     : Option JobOut
  commits : List Commit := []
  timed   : Bool := false
  ps      : Option Nat := none

/-- What a chapter says of one of its opcodes, in the order in which R71 asks. `own3` is its own rule of the pitches that may
issue it, `more5` adds to check 5, `own6` gives a
chapter's own DETAIL at check 6, `fields` holds the chapter's rules on its sub-fields, `late` what it checks after
check 14, `slots` the vault slots that it creates, `masked` whether it needs mask bits (R331), `draws` what it asks of its
pitch's DRBG instance (R327, R330), `blocked` what else it waits for, and `judge` what it checks when it may start, and `time` how long it
computes at floor pace, in picoseconds, where its chapter gives a figure. `mean` is a mean figure in its place, for the beats with which a
job is queued (R254), and `refused` what a refusal by a check of R71 leaves beside the record. -/
structure OpSpec where
  code    : BitVec 16
  admin   : Bool := false
  modes   : Bool := false
  vault   : Bool := false
  place   : State → Job → Place := fun _ _ => .core
  own3    : State → Job → Option Bad := fun _ _ => none
  more5   : State → Job → Option Bad := fun _ _ => none
  own6    : Desc → Option Bad := fun _ => none
  uses    : Desc → Uses
  sets    : BitVec 16 → Bool := fun s => s == 0
  fields  : State → Job → Option Bad := fun _ _ => none
  ctx     : State → Job → Option Bad := fun _ _ => none
  keys    : State → Job → Option Bad := fun _ _ => none
  lengths : State → Job → Option Bad := fun _ _ => none
  late    : State → Job → Option Bad := fun _ _ => none
  slots   : State → Job → List NewSlot := fun _ _ => []
  masked  : State → Job → Bool := fun _ _ => false
  draws   : State → Job → Draw := fun _ _ => .nothing
  blocked : State → Job → Bool := fun _ _ => false
  judge   : State → Job → Option Bad := fun _ _ => none
  time    : State → Job → JobOut → Option Nat := fun _ _ _ => none
  mean    : State → Job → Option Nat := fun _ _ => none
  refused : State → Job → Bad → State := fun s _ _ => s
  run     : State → Job → Ran

/-- Check 14 of R71. -/
def rangesBad (s : State) (x : Job) : Option Bad :=
  let d := x.desc
  badWhen ((d.inCrate && !cratesPass s x.pitch d.inAddr.toNat d.inLen.toNat) ||
           (d.outCrate && !cratesPass s x.pitch d.outAddr.toNat d.outLen.toNat)) (bad stBadAddress 0x000A)

/-! ### Contexts (checks 8 and 9) -/

/-- The index of CONTEXT_ID. -/
def ctxIndex (d : Desc) : BitVec 14 := bits d.contextId 0 14

/-- The part of CONTEXT_ID. -/
def ctxPart (d : Desc) : BitVec 2 := bits d.contextId 14 2

/-- A descriptor names a context of its part by CONTEXT_ID. -/
def namesCtx (d : Desc) : Bool :=
  match d.opcode.toNat with
  | 0x0101 => !bit d.param 5
  | 0x0102 => true
  | 0x0802 => !bit d.param 10
  | 0x0805 => true
  | 0x0901 => d.paramSet == 0x00FF
  | 0x0902 => d.paramSet == 0x00FF
  | 0x0903 => d.paramSet == 0x00FF
  | 0x0904 => d.paramSet == 0x00FF
  | 0x0951 => true
  | 0x0C02 => true
  | 0x0C03 => true
  | 0x0C04 => true
  | 0x0C05 => true
  | 0x0C06 => true
  | 0x0C10 => d.contextId != 0
  | 0x0D01 => true
  | 0x0D02 => true
  | 0x0F21 => true
  | _ => false

/-- Check 8 of R71: CONTEXT_ID names this part or a linked peer. -/
def ctxPartBad (s : State) (d : Desc) : Option Bad :=
  badWhen (ctxPart d != s.links.part && (linkOfPart s (ctxPart d)).isNone) (badField 0x0006)

/-- Check 9 of R71 for a context that does not exist. A peer's job that names one of its pitch which this part lost at its restart is told so
(R439); that DETAIL is 0x0F45 is the model's choice (DESIGN CHOICE, log 73). -/
def ctxGone (s : State) (x : Job) : Option Bad :=
  if x.id.src != 0 && s.links.lostCtx.contains (ctxIndex x.desc, x.pitch) then bad stCtxStale 0x0F45 else badField 0x0007

/-- Checks 8 and 9 of R71 for a context of this part (R105): owned by the pitch, and current. -/
def ctxBad (s : State) (x : Job) : Option Bad :=
  match ctxPartBad s x.desc with
  | some b => some b
  | none =>
    match s.ctx (ctxIndex x.desc) with
    | none => ctxGone s x
    | some c =>
      if c.owner ≠ x.pitch then badField 0x0007
      else match c.stale with
        | .current => none
        | .oldEpoch => bad stCtxStale 0x0F45
        | .damaged => bad stCtxStale 0x0F44

/-! ### Homes (R438) -/

/-- The parts that a descriptor's context and keys name. -/
def homesOf (u : Uses) (d : Desc) : List (BitVec 2) :=
  (if u.ctx && !u.stays then [ctxPart d] else []) ++ (if u.key && d.keyHandle != 0 then [handlePart d.keyHandle] else []) ++
  (if u.key2 && d.keyHandle2 != 0 then [handlePart d.keyHandle2] else [])

/-- The items named lie on different parts (R438). -/
def homesSplit (u : Uses) (d : Desc) : Bool :=
  match homesOf u d with
  | [] => false
  | h :: t => t.any (· != h)

/-- The link to the home of a job that is to be forwarded (R438). -/
def forwardLink (s : State) (u : Uses) (x : Job) : Option (BitVec 2) :=
  match homesOf u x.desc with
  | [] => none
  | h :: _ => if x.id.src = 0 then linkOfPart s h else none

/-- The checks of R71, in order, with the state check in its place. A peer's job has passed checks 1 to 8, 10, 13 and 14
at its origin (R438); a job to be forwarded leaves checks 9, 11 and 12 and what follows to its home. -/
def checks (sp : OpSpec) (s : State) (x : Job) : Option Bad :=
  let d := x.desc
  let u := sp.uses d
  let here := x.id.src == 0
  let home := (forwardLink s u x).isNone
  firstBad
    [ homeLocked s x,
      stateBad s d.opcode,
      badWhen (home && ((match roleOf d.opcode with | some r => !rolePresent s r | none => false) ||
               (needsEngine d && enginesInService s == 0))) (bad stBadOpcode 0x0011),
      badWhen (here && sp.admin && x.pitch != 0) (bad stBadOpcode 0x0F0F),
      (if here then sp.own3 s x else none),
      badWhen (here && (bits d.flags 6 2 != 0 || bits d.flags 10 6 != 0)) (badField 0x0002),
      badWhen (here && ((d.outCrate && d.toVault) || (!sp.modes && d.faultMode != 0))) (badField 0x0003),
      sp.more5 s x,
      badWhen (!sp.vault && d.toVault) (badField 0x0003),
      sp.own6 d,
      badWhen (!unusedZero u d) (badField 0x0004),
      badWhen (!sp.sets d.paramSet) (badField 0x0005),
      sp.fields s x,
      (if u.ctx && !u.stays then ctxPartBad s d else none),
      badWhen (here && homesSplit u d) (badField 0x0FC1),
      (if home then sp.ctx s x else none),
      badWhen (bit d.keyHandle 13 || bit d.keyHandle2 13) (badField 0x0008),
      (if home then sp.keys s x else none),
      (if home then sp.lengths s x else none),
      badWhen (here && (wraps d.inAddr d.inLen || wraps d.outAddr d.outLen || wraps d.auxAddr d.auxLen)) (bad stBadAddress 0x0009),
      (if here then rangesBad s x else none) ]

/-- What an opcode checks after check 14, with the crate references held (R84). -/
def lateBad (sp : OpSpec) (s : State) (x : Job) : Option Bad := if (forwardLink s (sp.uses x.desc) x).isNone then sp.late s x else none

/-! ### Units -/

/-- The idle tiles of a stall. -/
def idleTiles (s : State) (n : Nat) : List Nat :=
  (tilesOf (stallTiles s n)).filter (fun t => (s.tile (BitVec.ofNat 6 t)).state = .idle)

/-- A job was accepted and has no record due yet. -/
def begun (y : Job) : Bool := y.phase == .waiting || y.phase == .running || y.phase == .suspended || y.phase == .storing

/-- Beats of work queued in a stall (R15): of the jobs that run on it and of those that wait for it. -/
def stallLoad (s : State) (n : Nat) : Nat := ((s.jobs.filter (fun y => begun y && y.stall == some n)).map (·.queued)).sum

/-- Beats of work queued in an engine (R254). -/
def engineLoad (s : State) (e : Nat) : Nat :=
  ((s.jobs.filter (fun y => begun y && y.bn == some (BitVec.ofNat 3 e))).map (·.queued)).sum

/-- The first element of least measure. -/
def leastBy (f : Nat → Nat) : List Nat → Option Nat
  | [] => none
  | a :: t => match leastBy f t with
    | none => some a
    | some b => if f a ≤ f b then some a else some b

/-- The idle tiles of a stall, less those to avoid. -/
def openTiles (s : State) (avoid : List Unit_) (n : Nat) : List Nat :=
  (idleTiles s n).filter (fun t => !avoid.contains (.tile (BitVec.ofNat 6 t)))

/-- The stall on which a job is placed (R15): the one of its role with the fewest beats queued, the lowest number among equals. A job
that runs again takes the next tile of its role to become free, another one than it had where one is free (R186): a stall with such a
tile goes before. -/
def stallFor (s : State) (r : Role) (x : Job) : Option Nat :=
  let all := stallsOf s r
  if x.front = false then leastBy (stallLoad s) all
  else
    let others := all.filter (fun n => !(openTiles s x.avoid n).isEmpty)
    let free := all.filter (fun n => !(idleTiles s n).isEmpty)
    leastBy (stallLoad s) (if others.isEmpty then (if free.isEmpty then all else free) else others)

/-- The engine on which a job is placed (R254, R280): the one with the fewest beats queued, the lowest number among equals; one that runs
again takes another engine where one is in service, an idle one before a busy one. -/
def engineFor (s : State) (x : Job) : Option Nat :=
  let inService := (List.range 8).filter (fun e => (s.engine (BitVec.ofNat 3 e)).state ≠ .retired)
  let others := inService.filter (fun e => !x.avoid.contains (.engine (BitVec.ofNat 3 e)))
  let open_ := if others.isEmpty then inService else others
  let idle := open_.filter (fun e => (s.engine (BitVec.ofNat 3 e)).state == .idle)
  leastBy (engineLoad s) (if x.front && !idle.isEmpty then idle else open_)

/-- A place needs a tile that the Hall controller chooses. -/
def Place.tiled : Place → Bool
  | .tile => true
  | .stall => true
  | .tileAndEngine => true
  | _ => false

/-- A place needs an engine. -/
def Place.engined : Place → Bool
  | .engine => true
  | .tileAndEngine => true
  | _ => false

/-- A job with the stall and the engine on which it is placed (R15, R254). It keeps both while they are in service; a job that runs again
chooses anew each time. -/
def placeOn (s : State) (x : Job) (p : Place) : Job :=
  let stall := match roleOf x.desc.opcode, p.tiled with
    | some r, true =>
      if x.front = false && (x.stall.map (fun n => (stallsOf s r).contains n)).getD false then x.stall
      else stallFor { s with jobs := s.jobs.filter (fun y => y.id ≠ x.id) } r x
    | _, _ => match p with
      | .on (t :: _) => (s.plan.members.find? (fun e => e.2.getLsbD t)).map (·.1)
      | _ => none
  let bn := if p.engined then
      (if x.front = false && (x.bn.map (fun e => (s.engine e).state != .retired)).getD false then x.bn
       else (engineFor { s with jobs := s.jobs.filter (fun y => y.id ≠ x.id) } x).map (BitVec.ofNat 3))
    else none
  { x with stall := stall, bn := bn, split := p == .stall }

/-- A yielded digest is placed again before every job accepted after it, but for one for which a digest has yielded a tile (R223). -/
def suspendedBefore (s : State) (x : Job) : Bool :=
  !s.jobs.any (fun y => y.phase == .suspended && y.gave == some x.id) &&
  s.jobs.any (fun y => y.id != x.id && y.phase == .suspended && decide (y.turn < x.turn))

/-- A job that runs again waits for a unit of the same kind, and goes before (R127, R280). -/
def frontBefore (s : State) (x : Job) (same : Job → Bool) : Bool :=
  !x.front && s.jobs.any (fun y => y.id != x.id && y.front && y.phase == .waiting && !y.entropyWait && same y)

/-- A job that is spread across a stall was accepted earlier and waits for the stall's tiles. -/
def splitBefore (s : State) (x : Job) (n : Nat) : Bool :=
  s.jobs.any (fun y => y.id != x.id && y.split && y.phase == .waiting && y.stall == some n && decide (y.turn < x.turn))

/-- A job waits behind another waiting one that is placed before it. -/
def behind (s : State) (r : Role) (x : Job) : Bool :=
  frontBefore s x (fun y => roleOf y.desc.opcode == some r) || x.stall.any (splitBefore s x)

/-- A job waits behind another one, a suspended digest among them. -/
def heldBack (s : State) (r : Role) (x : Job) : Bool := (r == .hashsig && suspendedBefore s x) || behind s r x

/-- The tiles of its stall that a job takes now: one that is idle, another one than it had where one is (R186); all of them where it is
spread across the stall (R15), once no other job holds one. None while it has to wait. -/
def tilesNow (s : State) (r : Role) (x : Job) : Option (List Unit_) :=
  match x.stall with
  | none => none
  | some n =>
    if heldBack s r x then none
    else if x.split then
      let ts := (tilesOf (stallTiles s n)).filter (tileUsable s)
      if ts.isEmpty || !(ts.all (fun t => (s.tile (BitVec.ofNat 6 t)).state == .idle)) then none
      else some (ts.map (fun t => .tile (BitVec.ofNat 6 t)))
    else match openTiles s x.avoid n, idleTiles s n with
      | t :: _, _ => some [.tile (BitVec.ofNat 6 t)]
      | [], t :: _ => some [.tile (BitVec.ofNat 6 t)]
      | [], [] => none

/-- The engine that a job takes now. -/
def engineNow (s : State) (x : Job) : Option Unit_ :=
  match x.bn with
  | none => none
  | some e =>
    if (s.engine e).state == .idle && !frontBefore s x (fun y => y.bn.isSome) then some (.engine e) else none

/-- Tile T0 and engine BN0 for a verification of a Shuttered part (R462, R463), once both are idle; one that is retired is left out. -/
def bootUnits (s : State) : Option (List Unit_) :=
  let t := (s.tile 0).state
  let e := (s.engine 0).state
  if (t == .idle || t == .retired) && (e == .idle || e == .retired) then
    some (.core :: (if t == .idle then [.tile 0] else []) ++ (if e == .idle then [.engine 0] else []))
  else none

/-- The units that a job takes now, on the stall and the engine on which it is placed; none while it has to wait. -/
def unitsFor (s : State) (x : Job) (p : Place) : Option (List Unit_) :=
  let tiles : Option (List Unit_) :=
    match roleOf x.desc.opcode with
    | none => some []
    | some r => tilesNow s r x
  match p with
  | .core => some [.core]
  | .boot => bootUnits s
  | .tile => tiles
  | .stall => tiles
  | .engine => (engineNow s x).map (fun e => [e])
  | .on ts =>
    if ts.all (fun t => (s.tile (BitVec.ofNat 6 t)).state == .idle) then some (ts.map (fun t => .tile (BitVec.ofNat 6 t))) else none
  | .tileAndEngine =>
    match tiles, engineNow s x with
    | some ts, some e => some (ts ++ [e])
    | _, _ => none

/-- A resident MCE_ENCAPS, whose key only its shelf tiles hold (R252). -/
def residentEncaps (x : Job) : Bool := x.desc.opcode == 0x0802 && !bit x.desc.param 10

/-- The opcodes whose masking order is that of the SHARES3 of their descriptor: key generation of the families whose PARAM has it, and
encapsulation, whatever the order of a key that it names (R183, R194, R236). -/
def sharesOfParam (c : BitVec 16) : Bool :=
  [0x0201, 0x0202, 0x0301, 0x0401, 0x0501, 0x0601, 0x0611, 0x0615, 0x0701, 0x0702, 0x0801, 0x0802].contains c.toNat

/-- The masking order of a job: three shares, or two. -/
def jobThree (x : Job) : Bool :=
  if sharesOfParam x.desc.opcode then bit x.desc.param 0 else (x.loaded.map (·.shares3)).getD false

/-- The opcodes whose input and AUX are public (R120): encapsulation, with its public key; decapsulation, with its ciphertext;
verification, with its key and its signature. Of every other job only the lengths are. -/
def publicInput (c : BitVec 16) : Bool :=
  [0x0202, 0x0203, 0x0303, 0x0403, 0x0503, 0x0603, 0x0613, 0x0617, 0x0702, 0x0703, 0x0802, 0x0803, 0x0805].contains c.toNat

/-- The inputs of a job that its chapter declares public, as the Hall controller transfers them into the public operand region (R120): the
lengths of the input and of AUX; the input, AUX and a public-only key where they are public. Their order in the region is not stated
(DESIGN CHOICE, log 67). -/
def publicRegion (s : State) (x : Job) : Bytes :=
  wordBytes 4 x.desc.inLen ++ wordBytes 4 x.desc.auxLen ++
  (if publicInput x.desc.opcode then
    jobInput s x ++ jobAux s x ++ ((x.loaded.filter (fun k => bit k.typ 15)).map (·.value)).getD []
   else [])

/-- The bytes of workbench that a job has on a tile, beside a shelf that holds a key and without one (R240). -/
def benchRoom (t : Tile) : Nat := if t.shelf.isSome then 131072 else 393216

/-- The sequencer of a tile as the Hall controller sets it when it places a job (R119, R120): JOB_KIND from OPCODE, PARAM_SET,
FAULT_MODE and the masking order, the public input length, and the public operand region at the base of the job's workbench. Where a job's
microcode and regions begin is not stated (log 67). A resident encapsulation reaches the shelf that its context names, and no job writes
it (R240). -/
def microStart (s : State) (x : Job) (t : Tile) : Micro :=
  let d := x.desc
  let kind := Config.jobKind d.opcode d.paramSet d.faultMode (jobThree x)
  let own := residentEncaps x && t.shelf == some (ctxIndex d)
  { microInit with next := Config.microEntry kind, jobKind := kind, more := d.inLen.toNat,
                   pubLen := min (publicRegion s x).length (benchRoom t), three := jobThree x,
                   bench := if own then 393216 else benchRoom t, room := benchRoom t }

/-- The workbench of a tile as a job finds it: clear, but for the public operand region, and the shelf of a resident encapsulation. -/
def benchStart (s : State) (x : Job) (t : Tile) : VCore :=
  if x.desc.opcode >>> 8 = 0x0D then t.core
  else
    let mem := Tab.write 0#8 coreInit.mem 0 ((publicRegion s x).take (benchRoom t))
    { coreInit with mem := if residentEncaps x && t.shelf == some (ctxIndex x.desc) then Tab.write 0#8 mem 131072 t.shelfData else mem }

/-- ABORT_REQ set on the tiles of a job that is asked to end, by a pitch reset, LOCK or a fault move (R119). It stands until the tile
takes its next job. -/
def askAbort (s : State) (x : Job) : State :=
  x.units.foldl (fun s u => match u with
    | .tile t => s.setTile t { s.tile t with micro := { (s.tile t).micro with abortReq := true } }
    | _ => s) s

/-- The two additive shares in which the vault gives a key to an engine (R278), of a random value. -/
def keyShares (value : Bytes) (r : Nat) : Bytes × Bytes :=
  let m := 2 ^ (8 * value.length)
  (beBytes value.length (r % m), beBytes value.length ((beNat value + m - r % m) % m))

/-- The private key that an engine gets: of a hybrid, the one of KEY_HANDLE2. -/
def engineKey (s : State) (x : Job) : Bytes :=
  let h := if x.desc.opcode >>> 8 = 2 then x.desc.keyHandle2 else x.desc.keyHandle
  if h = 0 then [] else ((keyOf s h).map (·.value)).getD []

/-- An engine that takes a job (R253, R278): its blinding values drawn from the mask feeds; in its operand RAM the two shares of the key,
the input and AUX, a layout that the spec does not give (DESIGN CHOICE, log 68); in the multiplier and the hash units what the
computation leaves there, which is free. -/
def loadEngine (s : State) (x : Job) (e : BitVec 3) : State :=
  let (bs, s) := drawFrees 321 s
  let (w, s) := drawFrees 66 s
  let k := keyShares (engineKey s x) ((bs.head?).getD 0)
  let g := s.engine e
  s.setEngine e { g with state := .running x.id, pitch := x.pitch, opcode := x.desc.opcode, blinds := bs.drop 1,
                         ram := (k.1 ++ k.2 ++ jobInput s x ++ jobAux s x).take 49152, mult := (w.take 32).map (· % 2 ^ 18),
                         sha2 := ((w.drop 32).take 8).map (· % 2 ^ 64), keccak := ((w.drop 40).take 25).map (· % 2 ^ 64) }

/-- Everything that a job leaves in an engine zeroed (R255). -/
def clearEngine (g : Engine) : Engine :=
  { g with ram := engineInit.ram, mult := engineInit.mult, sha2 := engineInit.sha2, keccak := engineInit.keccak, blinds := [] }

/-- The engine of a job. -/
def engineOf (x : Job) : Option (BitVec 3) :=
  x.units.findSome? (fun u => match u with
    | .engine e => some e
    | _ => none)

/-- A blinding value of a job on its engine. -/
def blindOf (s : State) (x : Job) (i : Nat) : Nat :=
  match engineOf x with
  | some e => ((s.engine e).blinds[i]?).getD 0
  | none => 0

/-- A unit taken by a job (ENG_STATUS of R283). -/
def takeUnit (x : Job) (s : State) (u : Unit_) : State :=
  match u with
  | .tile t =>
    let y := s.tile t
    s.setTile t { y with state := .busy x.id, micro := microStart s x y, core := benchStart s x y }
  | .engine e => loadEngine s x e
  | _ => s

/-- A unit left by its job: a tile clears itself under R24, an engine wipes itself under R255. -/
def leaveUnit (s : State) (u : Unit_) : State :=
  match u with
  | .tile t => leaveTile s t
  | .engine e => match (s.engine e).state with
    | .running _ =>
      s.setEngine e { s.engine e with state := .wiping, pitch := 0, opcode := 0 }
    | _ => s
  | _ => s

/-- A job that ends is counted by the engines it ends on (ENG_JOBS of R283). -/
def countUnit (s : State) (u : Unit_) : State :=
  match u with
  | .engine e => s.setEngine e { s.engine e with jobs := satAdd (s.engine e).jobs 1 }
  | _ => s

/-- The units of a job that ends on them. -/
def freeUnits (s : State) (x : Job) : State := x.units.foldl countUnit (x.units.foldl leaveUnit s)

/-! ### Stateful signatures (R198 to R207) -/

/-- An opcode that signs with a stateful key. -/
def statefulSign (c : BitVec 16) : Bool := c == 0x0602 || c == 0x0612 || c == 0x0616

/-- The contexts bound to the key of a stateful job. -/
def boundCaches (s : State) (h : BitVec 32) : List (BitVec 14) := (((keyOf s h).bind (·.stateful)).map (·.caches)).getD []

/-- A SIGN waits for the write of its block of indices (step 3 of R202). -/
def reserving (x : Job) : Bool :=
  statefulSign x.desc.opcode && x.phase == .running && x.kept.isSome && (x.kept.bind (·.2)).isNone && x.out.isNone && x.forwarded.isNone

/-- A pitch reset or LOCK ends a job at a status of these. -/
def endedOutside (st : BitVec 16) : Bool := st == stPitchReset || st == stAborted

/-- A pitch reset or LOCK in a reservation write: the write completes, or the record is torn; which of them is open (R203, R213). -/
def cutBlock (s : State) (x : Job) (st : BitVec 16) : State :=
  if reserving x && endedOutside st then
    let (n, s) := drawFree s
    if n % 2 = 0 then reserveBlock x.desc.keyHandle s else tearBlock x.desc.keyHandle s
  else s

/-- A SIGN that was given its index, or that a pitch reset or LOCK ends while it waits for one, ends without writing back its caches:
they are stale (R207). One whose block cannot be written (0x0613) has not touched them: they stay (log 69). -/
def loseCaches (s : State) (x : Job) (st : BitVec 16) : State :=
  if (statefulSign x.desc.opcode && (x.kept.bind (·.2)).isSome && x.forwarded.isNone) || (reserving x && endedOutside st) then
    (boundCaches s x.desc.keyHandle).foldl (fun s i => match s.ctx i with
      | some c => s.setCtx i (some { c with stale := .damaged, data := .empty })
      | none => s) s
  else s

/-- A key's bindings, if they name a context, are cleared (R207). -/
def unbindKey (i : BitVec 14) (k : Key) : Key :=
  match k.stateful with
  | some f => if f.caches.contains i then { k with stateful := some { f with caches := [] } } else k
  | none => k

/-- The bindings that name a context are cleared. -/
def unbind (s : State) (i : BitVec 14) : State :=
  let up (x : Slot) : Slot := match x with
    | .key k => .key (unbindKey i k)
    | y => y
  { s with vault := { s.vault with slots := Tab.mapVals .free (fun _ x => up x) s.vault.slots } }

/-- The caches of a key bound to contexts (R206). -/
def bindCaches (s : State) (n : BitVec 13) (cs : List (BitVec 14)) : State :=
  match s.key n with
  | some k => match k.stateful with
    | some f => s.setSlot n (.key { k with stateful := some { f with caches := cs } })
    | none => s
  | none => s

/-! ### Ends of jobs -/

/-- Pinned copies of a context's public key leave the shelves (R242). -/
def dropShelves (s : State) (i : BitVec 14) : State :=
  { s with tiles := Tab.mapVals tileInit (fun _ t =>
      if t.shelf = some i then { t with shelf := none, shelfData := [] } else t) s.tiles }

/-- Everything that a pitch holds in contexts, keys and crates destroyed (R114, R117): the crates keep their flags. -/
def destroyPitch (s : State) (p : BitVec 8) : State :=
  let cs := Tab.keysWhere (fun _ c => match c with
    | some c => c.owner == p
    | none => false) s.contexts
  let ks := Tab.keysWhere (fun _ x => match x with
    | .key k => k.pitch == p
    | .unloaded k => k.pitch == p
    | _ => false) s.vault.slots
  let rs := Tab.keysWhere (fun _ c => match c with
    | some c => c.pitch == p
    | none => false) s.crates.held
  let s := cs.foldl (fun s i => dropShelves (s.setCtx (BitVec.ofNat 14 i) none) (BitVec.ofNat 14 i)) s
  let s := ks.foldl (fun s n => dropKey s (BitVec.ofNat 13 n)) s
  rs.foldl zeroCrate s

/-- A migration job that ends otherwise leaves its pitch as it was (R72, R117): an export takes its marks back, an import closes its journal
entry; the contexts and the slots that it took go back with the job's other reservations. -/
def undoMigration (s : State) (x : Job) : State :=
  let p : BitVec 8 := x.desc.param.setWidth 8
  if x.phase ≠ .running then s
  else if x.desc.opcode = 0x0F24 then
    { s with nv := { s.nv with keys := s.nv.keys.map (fun e => match e.2 with
        | some r => if r.pitch = p then (e.1, some { r with migrated := false }) else e
        | none => e) } }
  else if x.desc.opcode = 0x0F25 ∧ s.nv.importOpen.isSome then
    { s with nv := { s.nv with importOpen := none } }
  else s

/-- A job of some opcodes that was accepted earlier has not ended: those opcodes are served one at a time, in the order of acceptance
(R51, R410, R421, R429). -/
def earlierOf (codes : List Nat) (s : State) (x : Job) : Bool :=
  s.jobs.any (fun y => y.id != x.id && decide (y.turn < x.turn) && begun y && codes.contains y.desc.opcode.toNat)

/-- The samples of an RNG_RAW job are no longer taken, and its bean is back in the grind (R334). -/
def endRaw (s : State) (j : JobId) : State :=
  if s.rng.rawJob = some j then
    { s with rng := { s.rng with rawJob := none, rawBits := [],
                                 beans := Tab.mapVals beanInit (fun _ b => if b.raw then { b with raw := false, delay := [] } else b)
                                            s.rng.beans } }
  else s

/-- A life-cycle decision ends with its job: what it has already written stays. -/
def dropAsk (s : State) (j : JobId) : State :=
  if (s.life.decision.bind (·.job)) = some j then { s with life := { s.life with decision := none } } else s

/-- A job leaves its units and its reservations, and its record is due with a content. A Ledger clear whose journal is
written runs on to its end (R408). -/
def finishJob (s : State) (x : Job) (out : JobOut) : State :=
  let s := freeUnits s x
  let s := undoMigration s x
  let s := dropAsk (endRaw (endCardJob s x.id) x.id) x.id
  let s := if x.phase = .running ∧ s.ledger.clearJob = some x.id then finishClear false s else s
  let s := x.reserved.foldl unreserve s
  let s := loseCaches (cutBlock (x.fresh.foldl (fun s i => s.setCtx i none) s) x out.status) x out.status
  let s := if out.status = stEntropy then { s with rng := { s.rng with entropyFails := satAdd s.rng.entropyFails 1 } } else s
  let s := s.setJob { x with phase := .ended, units := [], reserved := [], fresh := [], commits := [], out := some out,
                               entropyWait := false }
  drawClean s

/-- A refusal (R71): the record carries ELAPSED 0, OUT_WRITTEN 0. A creation refused with 0x0B42 sets VLT_INT.NV_FULL
(R357). -/
def refuseJob (s : State) (x : Job) (b : Bad) : State :=
  let s := if b.detail = 0x0B42 then { s with vault := { s.vault with vint := s.vault.vint ||| 4 } } else s
  finishJob s x (outOf b.status b.detail b.result)

/-- The crates of a job's OUT_CRATE range. -/
def outCrates (d : Desc) : List Nat :=
  if d.outCrate then crateRange d.outAddr.toNat d.outLen.toNat else []

/-- An opcode whose jobs count ELAPSED (R21). -/
def countsTime (c : BitVec 16) : Bool := !([0x0C, 0x0E, 0x0F].contains (c >>> 8).toNat) && c != 0x0631

/-- ELAPSED of a job that ends before its result (R72, R77): a computation that is over keeps its count, one that was cut short counts
to that moment, which is free up to the count of the whole computation where that has one (log 61), and one that had not begun counts
0. -/
def cutElapsed (s : State) (x : Job) : BitVec 32 × State :=
  if countsTime x.desc.opcode = false then (0, s)
  else if x.phase = .storing ∨ x.verdict = .second ∨ x.verdict = .agreed then ((x.out.map (·.elapsed)).getD 0, s)
  else if x.phase = .running ∨ x.phase = .suspended then
    let (n, s) := drawFree s
    (BitVec.ofNat 32 (match x.out with
      | some o => n % (o.elapsed.toNat + 1)
      | none => n), s)
  else (0, s)

/-- A job ends before its result: nothing is released to the vault, and the crates of its output range are poisoned
(R72, R76, R83). -/
def breakWith (s : State) (x : Job) (st dt : BitVec 16) (elapsed : BitVec 32) : State :=
  let s := finishJob s x { outOf st dt with elapsed := elapsed }
  if x.held then poison s (outCrates x.desc) else s

/-- The same, with ELAPSED up to the moment of its end (R72). -/
def breakJob (s : State) (x : Job) (st dt : BitVec 16) : State := let (e, s) := cutElapsed s x; breakWith s x st dt e

/-- The jobs of a queue that are fetched and not started complete with ABORTED, DETAIL 0x0022 (R67 under E1). -/
def stopUnstarted (s : State) (q : BitVec 12) : State :=
  (s.jobs.filter (fun x => x.id.src = 0 ∧ x.id.queue = q ∧ notStarted x)).foldl
    (fun s x => breakJob s x stAborted 0x0022) s

/-! ### Start -/

/-- The provisional hold of R388: comparator A has decided LOCK or ERASE, and no job starts. -/
def held (s : State) : Bool :=
  match s.alarm.decision with
  | some d => decide (2 ≤ d.response.toNat)
  | none => false

/-- VCORE, VSRAM or Tj reads outside its window: the core starts nothing (R384). -/
def coreHeld (s : State) : Bool := s.alarm.badRails.any (fun m => m == .vcore || m == .vsram || m == .tj)

/-- The Hall controller places nothing: under a hold, or while its store is reloaded (R131, R384, R388). -/
def placing (s : State) : Bool := !held s && !coreHeld s && !s.seq.reloading

/-- R74: descriptors of a queue are checked in ring order; a fenced one waits for every earlier record, and every later
one waits for a fenced one's record. `s.jobs` stands in the order of fetch. -/
def turnIn (x : Job) : List Job → Bool
  | [] => true
  | y :: t =>
    if y.id = x.id then true
    else if y.id.src = x.id.src ∧ y.id.queue = x.id.queue ∧ (y.phase = .fetched ∨ x.desc.fence ∨ y.desc.fence) then false
    else turnIn x t

/-- A job may be checked now. -/
def mayStart (s : State) (x : Job) : Bool := !s.seq.reloading && turnIn x s.jobs

/-- The blocks that the records of some new slots take together. -/
def blocksNeeded (ns : List NewSlot) : Nat := ((ns.filter (·.persist)).map (·.blocks)).sum

/-- Reservations for a job's new slots, all or none (R171). -/
def reserveAll (p : BitVec 8) : List NewSlot → State → List (BitVec 13) → Sum Bad (State × List (BitVec 13))
  | [], s, got => .inr (s, got)
  | n :: t, s, got =>
    match newKeyBad s p n.cells n.persist (blocksNeeded (n :: t)) with
    | some b => .inl b
    | none => match nextSlot s with
      | none => .inl { status := stCtxFull, detail := 0x0B44 }
      | some i => reserveAll p t (reserveSlot s i p n.cells) (got ++ [i])

/-- A message on a link (R437, R442), counted in LPL_TX. -/
def sendLink (k : BitVec 2) (kind : Nat) (body : Bytes) (s : State) : State :=
  match s.links.link[k.toNat]? with
  | none => s
  | some l =>
    { s with out := .linkMsg k kind body :: s.out,
             links := { s.links with link := s.links.link.set k.toNat { l with tx := satAdd l.tx 1 } } }

/-- A key wrapped to cross a link (R442): KIND 3 under the session key of the direction, with the number that the message will have
as EXPORT_ID. -/
def sealKey (k : BitVec 2) (p : BitVec 8) (header value : Bytes) (s : State) : Bytes × State :=
  match s.links.link[k.toNat]? with
  | none => ([], s)
  | some l => match l.keys with
    | none => ([], s)
    | some (tx, _) =>
      if value.isEmpty then ([], s)
      else
        let (nonce, s) := drawNonce p s
        (wrapRecord 3 tx ((satAdd l.tx 1).setWidth 64) header nonce value, s)

/-- The job a peer is sent: descriptor, input, AUX bytes (R438, R441). -/
def forwardBody (s : State) (x : Job) : Bytes := descBytes x.desc ++ [x.pitch] ++ jobInput s x ++ jobAux s x

/-- A job forwarded to its home (R438). -/
def forwardJob (s : State) (x : Job) (k : BitVec 2) : State :=
  sendLink k 1 (forwardBody s x) (s.setJob { x with phase := .running, held := true, units := [.peer k], forwarded := some k })

/-- A job may spill (R440). -/
def spillable (sp : OpSpec) (s : State) (x : Job) : Bool :=
  x.id.src == 0 && s.links.spill && !(sp.uses x.desc).ctx && (sp.slots s x).isEmpty && !x.desc.toVault &&
  !([0x0602, 0x0612, 0x0616, 0x0630, 0x0631].contains x.desc.opcode.toNat) &&
  decide (x.desc.inLen.toNat ≤ 262144) && decide (x.desc.outLen.toNat ≤ 262144) &&
  (sp.place s x == .tile || sp.place s x == .stall || sp.place s x == .engine || sp.place s x == .tileAndEngine)

/-- The index of a job's role in a load advertisement: the roles in the order of their codes, then the engines. -/
def loadIndex (c : BitVec 16) : Nat :=
  match roleOf c with
  | some .lattice => 0
  | some .hashsig => 1
  | some .stream => 2
  | some .code => 3
  | some .general => 4
  | none => 5

/-- The least of a list of numbers. -/
def leastNat (xs : List Nat) : Option Nat := leastOf xs

/-- The local figure of R440: the beats queued in the role's least-loaded stall, or engine. -/
def localLoad (s : State) (c : BitVec 16) : Option Nat :=
  match roleOf c with
  | some r => leastNat ((stallsOf s r).map (stallLoad s))
  | none => leastNat (((List.range 8).filter (fun e => (s.engine (BitVec.ofNat 3 e)).state ≠ .retired)).map (engineLoad s))

/-- The part at the other end of a link (R433). -/
def peerPart (s : State) (k : BitVec 2) : BitVec 2 := s.links.part ^^^ (k + 1)

/-- The UP peers that advertise capacity for an index, with their figures, by ascending part number. -/
def peerLoads (s : State) (i : Nat) : List (BitVec 2 × Nat) :=
  (List.range 4).filterMap (fun n =>
    match linkOfPart s (BitVec.ofNat 2 n) with
    | none => none
    | some k => match s.links.link[k.toNat]? with
      | some l => if l.loadFull then none else (l.load[i]?).map (fun b => (k, b.toNat))
      | none => none)

/-- The link over which a job spills now (R440). -/
def spillLink (sp : OpSpec) (s : State) (x : Job) : Option (BitVec 2) :=
  if spillable sp s x = false then none
  else match localLoad { s with jobs := s.jobs.filter (fun y => y.id ≠ x.id) } x.desc.opcode with
    | none => none
    | some here =>
      if here ≤ s.links.spillBeats.toNat then none
      else
        let ps := peerLoads s (loadIndex x.desc.opcode)
        match leastNat (ps.map (·.2)) with
        | none => none
        | some b => if b + s.links.spillBeats.toNat / 2 ≤ here then (ps.find? (fun p => p.2 = b)).map (·.1) else none

/-- The keys that a spilled job names, with their handles. -/
def keysNamed (s : State) (x : Job) : List (BitVec 32 × Key) :=
  [x.desc.keyHandle, x.desc.keyHandle2].filterMap (fun h => if h = 0 then none else (keyOf s h).map (fun y => (h, y)))

/-- Key records that a spilled job takes with it, one behind the other (R441, R442). -/
def sealKeys (k : BitVec 2) (p : BitVec 8) : List (BitVec 32 × Key) → State → Bytes × State
  | [], s => ([], s)
  | e :: t, s =>
    let (a, s) := sealKey k p (keyHeader e.1 e.2) (travelValue e.2) s
    let (b, s) := sealKeys k p t s
    (a ++ b, s)

/-- A job spilled to a peer (R441). -/
def spillJob (s : State) (x : Job) (k : BitVec 2) : State :=
  let (keys, s) := sealKeys k x.pitch (keysNamed s x) s
  sendLink k 2 (forwardBody s x ++ keys)
    (s.setJob { x with phase := .running, units := [.peer k], forwarded := some k, spilled := true, stall := none, bn := none })

/-- The mode of faults in force (R184): 1 INVARIANT, 2 VERIFY. -/
def faultModeOf (d : Desc) (k : Option Key) : BitVec 2 :=
  if d.faultMode ≠ 0 then d.faultMode else (k.map (·.faultPolicy)).getD 0

/-- The opcodes that sign or verify (R185). -/
def decidesTwice (c : BitVec 16) : Bool :=
  [0x0302, 0x0303, 0x0402, 0x0403, 0x0502, 0x0503, 0x0602, 0x0603, 0x0612, 0x0613, 0x0616, 0x0617, 0x0902, 0x0903, 0x0912,
   0x0913, 0x0932, 0x0933].contains c.toNat

/-- The decisions of a job that starts: a signature's release and a verdict are decided twice under the VERIFY mode (R185). -/
def verdictOf (s : State) (x : Job) : Verdict :=
  if decidesTwice x.desc.opcode && bit (faultModeOf x.desc (if x.desc.keyHandle = 0 then none else keyOf s x.desc.keyHandle)) 1 then .due else .single

/-- A figure at floor pace, of 1,800 ps a beat, at another beat, in units of 10 ns. -/
def atBeat (ps beat : Nat) : Nat := min (ps * beat / 18000000) (2 ^ 32 - 1)

/-- The public inputs of a job on which its beats may depend (R18): its lengths, its flags with FAULT_MODE, PARAM, the masking order and
the policy of its key, the length of the key (modulus, curve or group), and what RESULT tells of it. -/
def publicInputs (s : State) (x : Job) (o : JobOut) : List Nat :=
  let d := x.desc
  let k := if d.keyHandle = 0 then none else keyOf s d.keyHandle
  [d.inLen.toNat, d.outLen.toNat, d.auxLen.toNat, d.flags.toNat, d.param.toNat,
   (k.map (fun k => if k.shares3 then 3 else 2)).getD 0, (k.map (·.faultPolicy.toNat)).getD 0, (k.map (·.value.length)).getD 0,
   (k.map (·.paramSet.toNat)).getD 0, x.units.length, (bits o.result 0 48 : BitVec 48).toNat, o.detail.toNat]

/-- The picoseconds at floor pace that ELAPSED counts: its chapter's figure, and the beats of R17 where no chapter gives one (log 61). -/
def figureOf (s : State) (x : Job) (ps : Option Nat) (o : JobOut) : Nat :=
  ps.getD (1800 * Config.beats x.desc.opcode.toNat x.desc.paramSet.toNat (publicInputs s x o))

/-- The beats with which a job is queued on its stall or engine (R15, R254): its chapter's figure as far as it is known before the job runs, with
one pass of a loop whose passes the job itself decides, or its mean (DESIGN CHOICE, log 61). -/
def queuedBeats (sp : OpSpec) (s : State) (x : Job) : Nat :=
  let o := outOf stOk 0 1
  match sp.mean s x with
  | some m => m / 1800
  | none => (match sp.time s x o with
    | some t => t
    | none => figureOf s x none o) / 1800

/-- ELAPSED (R21), at the beat that the pace loop reads; a free value where it has read none (log 61). -/
def elapse (s : State) (x : Job) (ps : Option Nat) (o : JobOut) : State × JobOut :=
  if s.pace.beat = 0 then
    let (n, s) := drawFree s
    (s, { o with elapsed := BitVec.ofNat 32 n })
  else (s, { o with elapsed := BitVec.ofNat 32 (atBeat (figureOf s x ps o) s.pace.beat.toNat) })

/-- What ELAPSED counts of a job, and the beats that apply (R21). -/
def pacedNow (s : State) (x : Job) (ps : Option Nat) (o : JobOut) : Option (Nat × Nat × Nat) :=
  if s.pace.beat = 0 then none else some (figureOf s x ps o, s.pace.beat.toNat, s.pace.beat.toNat)

/-- The figure that a run or its chapter gives. -/
def chapterFigure (sp : OpSpec) (s : State) (x : Job) (r : Ran) (o : JobOut) : Option Nat :=
  match r.ps with
  | some p => some p
  | none => sp.time s x o

/-- A run's record content with its ELAPSED, and what that counts: 0 where its opcode counts none. -/
def timedOut (sp : OpSpec) (s : State) (x : Job) (r : Ran) : State × Option JobOut × Option (Nat × Nat × Nat) :=
  match r.out with
  | none => (r.state, none, none)
  | some o =>
    if r.timed = false then (r.state, some o, none)
    else
      let ps := chapterFigure sp s x r o
      let (t, o') := elapse r.state x ps o
      (t, some o', pacedNow r.state x ps o)

/-- A job that passed every check computes on its units (step 7 of the path of a host job). One whose run meets a fault of its engine waits to
run again, and has no result (R280). -/
def runJob (sp : OpSpec) (s : State) (x : Job) (us : List Unit_) (rs : List (BitVec 13)) : State :=
  let x := { x with phase := .running, units := us, reserved := rs, input := some (jobInput s x), entropyWait := false,
                    front := false, masked := sp.masked s x, verdict := verdictOf s x,
                    loaded := if x.desc.keyHandle = 0 then none else keyOf s x.desc.keyHandle, startedAt := s.clock.us }
  let s := if x.id.src = 0 then
      (let t := if x.desc.inCrate then s else translated x.pitch x.desc.inAddr.toNat x.desc.inLen.toNat s
       translated x.pitch x.desc.auxAddr.toNat x.desc.auxLen.toNat t)
    else s
  let r := sp.run (us.foldl (takeUnit x) (s.setJob x)) x
  let (t, out, paced) := timedOut sp s x r
  drawClean (match t.job x.id with
    | some y => if y.phase = .running ∧ y.faults = x.faults then t.setJob { y with out := out, commits := r.commits, paced := paced } else t
    | none => t)

/-- A job's place in the order of acceptance (R205, R222). -/
def nextTurn (s : State) : Nat := (s.jobs.map (·.turn)).foldl max 0 + 1

/-- An earlier accepted job has not completed, of which a test holds. -/
def earlierAccepted (p : Job → Bool) (s : State) (x : Job) : Bool :=
  s.jobs.any (fun y => y.id != x.id && decide (y.turn < x.turn) && begun y && p y)

/-- The contexts of this part that the AUX of a BIND names (R206). -/
def bindNamed (s : State) (y : Job) : List (BitVec 14) :=
  ((List.range (y.desc.auxLen.toNat / 2)).map (fun i => fieldAt 16 (jobAux s y) (2 * i) 2)).filterMap
    (fun (id : BitVec 16) => if bits id 14 2 = s.links.part then some (bits id 0 14) else none)

/-- The contexts that a job uses as caches (R206, R207). -/
def cachesUsed (s : State) (y : Job) : List (BitVec 14) :=
  if statefulSign y.desc.opcode then boundCaches s y.desc.keyHandle
  else if y.desc.opcode = 0x0630 then boundCaches s y.desc.keyHandle ++ bindNamed s y
  else []

/-- A job that runs, a digest job that waits and was accepted before, or a SIGN that holds its index and waits for a tile, uses a context, by its CONTEXT_ID or as
a cache (R104, R205, R206, R213, R222). -/
def ctxInUse (s : State) (x : Job) (i : BitVec 14) : Bool :=
  s.jobs.any (fun y => y.id != x.id && y.forwarded.isNone && y.desc.opcode != 0x0F21 &&
    begun y && (y.phase != .waiting || ((x.turn == 0 || decide (y.turn < x.turn)) && y.desc.opcode >>> 8 == 1) ||
      (y.kept.bind (·.2)).isSome) &&
    ((namesCtx y.desc && ctxIndex y.desc == i && ctxPart y.desc == s.links.part) || (cachesUsed s y).contains i))

/-- A job only reads the context that it names: a digest under KEEP, or one that uses a curve or a resident key. -/
def readsCtx (d : Desc) : Bool :=
  (d.opcode == 0x0101 && bit d.param 3) || [0x0802, 0x0901, 0x0902, 0x0903, 0x0904].contains d.opcode.toNat

/-- The context IDs that a job names. -/
def ctxsNamed (s : State) (y : Job) : List (BitVec 16) :=
  (if namesCtx y.desc then [y.desc.contextId] else []) ++
  (if y.desc.opcode = 0x0630 then (bindNamed s y).map (fun i => s.links.part ++ i) else [])

/-- A job waits for an earlier accepted one that names the same context (R222), where one of the two is a digest job and not both only
read it. A CTX_FREE does not wait: it is refused (R104). -/
def ctxBusy (s : State) (x : Job) : Bool :=
  x.desc.opcode != 0x0F21 && earlierAccepted (fun y => y.forwarded.isNone && (y.desc.opcode >>> 8 == 1 || x.desc.opcode >>> 8 == 1) &&
    !(readsCtx y.desc && readsCtx x.desc) && (ctxsNamed s y).any (fun i => (ctxsNamed s x).contains i)) s x

/-- What a job asks of its pitch's instance: its chapter's request, or a value for the NONCE of the persistent key that it makes (R330,
R350). -/
def drawsOf (sp : OpSpec) (s : State) (x : Job) : Draw :=
  if sp.draws s x = .nothing ∧ (sp.slots s x).any (·.persist) = true then .call else sp.draws s x

/-- DRBG_INSTANTIATE takes its instance down before the new one is made (R333), once the requests that the instance received before it
are served (R328). -/
def takeDown (sp : OpSpec) (s : State) (x : Job) : State :=
  if sp.draws s x = .instantiate ∧ hasDrbg s x.pitch ∧
    (requestsBefore s (some x.id)).any (fun r => r.pitch == x.pitch && !r.draw.ofCarafe) = false
  then s.setDrbg x.pitch drbgInit else s

/-- What is judged again when a job that waited starts (R26): its context and its keys as they stand then, and what its chapter judges at
that moment. A stateful signature that has its index is not refused for want of another one. -/
def startBad (sp : OpSpec) (s : State) (x : Job) : Option Bad :=
  let keys := match sp.keys s x with
    | some b => if b.status = stExhausted ∧ (x.kept.bind (·.2)).isSome then none else some b
    | none => none
  firstBad [if x.fresh.isEmpty then sp.ctx s x else none, keys, sp.judge s x]

/-- A job waits for its request to be served (R330); one that would need carafe bytes once the hold has expired ends at once. Where a reseed
falls due between two calls of the job, no call of it is made before the bytes are there (DESIGN CHOICE, log 70). -/
def awaitDraw (sp : OpSpec) (s : State) (y : Job) (d : Draw) : State :=
  if mainHoldOver s && drawNeed s y.pitch d != 0 then refuseJob (takeDown sp s y) y { status := stEntropy, detail := 0x0A20 }
  else (drawQueue (takeDown sp s y) { job := some y.id, pitch := y.pitch, draw := d }).setJob { y with entropyWait := true }

/-- A waiting job placed (R15, R254): it spills, with a NONCE for each key that it takes along (R350, R440, R442); or it is queued on its stall or engine, and where that is free, its slots are reserved, its masks and
random bytes at hand, it computes (R171, R330, R331). -/
def placeJob (sp : OpSpec) (s : State) (x : Job) : State :=
  if placing s = false || sp.blocked s x || ctxBusy s x then s else
  match startBad sp s x with
  | some b => refuseJob s x b
  | none =>
  let y := placeOn s { x with queued := queuedBeats sp s x } (sp.place s x)
  match spillLink sp s x, unitsFor s y (sp.place s x) with
  | some k, _ =>
    if (keysNamed s x).isEmpty then spillJob s x k
    else match drawReady s (some y.id) y.pitch .call with
      | .ready =>
        let u := spillJob s x k
        if drawnDry u y.pitch then awaitDraw sp s y .fresh else u
      | .wait => awaitDraw sp s y .call
      | .fails d => refuseJob s y { status := stEntropy, detail := d }
  | none, none => s.setJob y
  | none, some us =>
    match (if y.reserved.isEmpty then reserveAll y.pitch (sp.slots s y) s [] else .inr (s, y.reserved)) with
    | .inl b => refuseJob s y b
    | .inr (t, rs) =>
      if sp.masked s y && s.rng.feedsStopped then refuseJob s y { status := stEntropy, detail := 0x0A21 }
      else match drawReady s (some y.id) y.pitch (drawsOf sp s y) with
        | .ready =>
          let u := runJob sp t y us rs
          if drawnDry u y.pitch then awaitDraw sp s y .fresh else u
        | .wait => awaitDraw sp s y (drawsOf sp s y)
        | .fails d => refuseJob (takeDown sp s y) y { status := stEntropy, detail := d }

/-- The vault as a spilled job sees it on a peer: the keys that it brought stand where their handles point (R441). -/
def lend (x : Job) (s : State) : State :=
  x.lent.foldl (fun s e =>
    let n := handleSlot e.1
    let t := s.setSlot n (.key e.2)
    { t with vault := { t.vault with gens := Tab.set none n.toNat (some (handleGen e.1)) t.vault.gens } }) s

/-- The vault as it was before keys were lent. -/
def takeBack (x : Job) (s t : State) : State :=
  x.lent.foldl (fun t e =>
    let n := handleSlot e.1
    let t := t.setSlot n (s.slot n)
    { t with vault := { t.vault with gens := Tab.set none n.toNat (Tab.get none n.toNat s.vault.gens) t.vault.gens } }) t

/-- A waiting job placed, with the keys that a peer lent it. -/
def placeWithKey (sp : OpSpec) (s : State) (x : Job) : State := takeBack x s (placeJob sp (lend x s) x)

/-- The checks of R71 on a descriptor, with the keys that a peer lent it. -/
def checkWithKey (sp : OpSpec) (s : State) (x : Job) : Option Bad := checks sp (lend x s) x

/-- A descriptor that a check refuses, with what its chapter has the refusal leave. -/
def refuseChecked (sp : OpSpec) (s : State) (x : Job) (b : Bad) : State := refuseJob (sp.refused s x b) x b

/-- An opcode's command: its descriptor, read and next in its queue, is checked and started (R71 to R74). A descriptor that has passed check 14
holds its crate references until its record (R84). A command that names no such descriptor changes nothing (log 7). -/
def startJob (sp : OpSpec) (j : JobId) (s : State) : State :=
  match s.job j with
  | none => s
  | some x =>
    if x.phase ≠ .fetched ∨ x.desc.opcode ≠ sp.code ∨ mayStart s x = false then s
    else match checkWithKey sp s x with
      | some b => refuseChecked sp s x b
      | none => match lateBad sp (lend x s) x with
        | some b => refuseChecked sp s { x with held := x.id.src == 0 } b
        | none => match forwardLink s (sp.uses x.desc) x with
          | some k => forwardJob s x k
          | none =>
            let y := { x with phase := .waiting, held := x.id.src == 0, turn := nextTurn s }
            placeWithKey sp (s.setJob y) y

/-! ### Records and signals -/

/-- R78: the STATUS and DETAIL of a job that a retry corrected. -/
def retriedOut (s : State) (x : Job) (o : JobOut) : JobOut :=
  if x.retried ∧ o.status = stOk then
    (if s.e1 then { o with detail := 0x0004 } else { o with status := stRetried })
  else o

/-- OUT_WRITTEN (R73, R76). -/
def outWritten (o : JobOut) : BitVec 32 :=
  match o.moved with
  | some n => if n ≥ 2 ^ 32 then BitVec.allOnes 32 else BitVec.ofNat 32 n
  | none => BitVec.ofNat 32 o.output.length

/-- Entries of a queue's rings. -/
def ringSize (q : Queue) : Nat := 2 ^ q.cfg.log2Size.toNat

/-- The 32 bytes of a completion record (R73). -/
def recordBytes (q : Queue) (x : Job) (o : JobOut) : Bytes :=
  let phase : BitVec 32 := if (q.w.toNat / ringSize q) % 2 = 0 then 0x80000000 else 0
  wordBytes 4 x.desc.tag ++ wordBytes 2 o.status ++ wordBytes 2 o.detail ++ wordBytes 4 (outWritten o) ++
  wordBytes 4 (phase ||| at32 12 x.index ||| at32 0 x.id.queue) ++ wordBytes 8 o.result ++ wordBytes 4 o.elapsed ++ zeros 4

/-- Descriptors of a queue fetched and not completed (Q_INFLIGHT). -/
def inflight (s : State) (q : BitVec 12) : Nat :=
  (s.jobs.filter (fun x => x.id.src = 0 ∧ x.id.queue = q)).length

/-- The Ledger's and the host's view of a ring that failed (R67): ERROR_INT, the vector, event 0x0001. -/
def ringFails (s : State) (n : BitVec 12) (dt : BitVec 16) : State :=
  let q := s.q n
  let s := s.setQ n { q with errDetail := dt, errorInt := true }
  let s := signal q.cfg.vector s
  note 0x0001 (some q.cfg.pitch) (wordBytes 2 n ++ wordBytes 2 dt ++ wordBytes 4 q.h) s

/-- An ENABLED queue enters ERROR (R67, R78). -/
def enterError (s : State) (n : BitVec 12) (dt : BitVec 16) : State :=
  let s := s.setQ n { s.q n with state := .error }
  let s := ringFails s n dt
  if s.e1 then stopUnstarted s n else s

/-- Translation of a completion ring fails (R67). -/
def cplFails (s : State) (n : BitVec 12) : State :=
  if (s.q n).state = .enabled then enterError s n 0x0043 else ringFails s n 0x0043

/-- R75: what a visible record of a queue signals. -/
def signalRecord (s : State) (n : BitVec 12) (x : Job) (status : BitVec 16) : State :=
  let q := s.q n
  let signalling := x.desc.irq && !(x.desc.quietOk && status == stOk)
  if signalling = false ∨ q.cfg.vector = 0 then s
  else if q.cfg.coalCount = 0 ∧ q.cfg.coalTime = 0 then msixSend q.cfg.vector s
  else if q.cfg.coalCount ≠ 0 ∧ q.accumulated + 1 ≥ q.cfg.coalCount.toNat then
    msixSend q.cfg.vector (s.setQ n { q with accumulated := 0 })
  else s.setQ n { q with accumulated := q.accumulated + 1 }

/-- A DRAINING queue whose last record is out becomes DISABLED (R62). -/
def settleDrain (s : State) (n : BitVec 12) : State :=
  let q := s.q n
  if q.state = .draining ∧ inflight s n = 0 then s.setQ n { q with state := .disabled } else s

/-- The record of a job of this part's queues, written, dropped or lost (R67, R73). -/
def writeRecord (w : RecordWrite) (s : State) (x : Job) (o : JobOut) : State :=
  let n := x.id.queue
  let q := s.q n
  let bytes := recordBytes q x o
  let addr := (q.cfg.cplBase.toNat + 32 * (q.w.toNat % ringSize q)) % 2 ^ 64
  let s := s.dropJob x.id
  let s := match w with
    | .visible =>
      let s := writeHost s q.cfg.pitch addr bytes
      let s := s.setQ n { s.q n with w := q.w + 1 }
      signalRecord s n x o.status
    | .lost => s.setQ n { s.q n with w := q.w + 1, cplDropped := satAdd q.cplDropped 1 }
    | .translationFails =>
      let s := s.setQ n { s.q n with w := q.w + 1, cplDropped := satAdd q.cplDropped 1 }
      cplFails s n
  settleDrain s n

/-- A public key on the shelves of some tiles, in order, in place of the one that its context had (R241). -/
def pinShelves (s : State) (i : BitVec 14) (ts : List Nat) (key : Bytes) : State :=
  let clear (t : Tile) : Tile := if t.shelf = some i then { t with shelf := none, shelfData := [] } else t
  let s := { s with tiles := Tab.mapVals tileInit (fun _ t => clear t) s.tiles }
  let n := ceilDiv key.length ts.length
  (ts.zip (List.range ts.length)).foldl (fun (s : State) (e : Nat × Nat) =>
    s.setTile (BitVec.ofNat 6 e.1) { s.tile (BitVec.ofNat 6 e.1) with shelf := some i, shelfData := slice key (n * e.2) n }) s

/-- A key that replaces one in its slot keeps the indices that the slot has now. -/
def keepIndices (s : State) (n : BitVec 13) (k : Key) : Key :=
  match (s.key n).bind (·.stateful), k.stateful with
  | some f, some _ => { k with stateful := some f }
  | _, _ => k

/-- A message between a flow's home and its standby's part, of this part's own format (R442, R443). -/
def flowMsg (s : State) (part : BitVec 2) (code : Nat) (home : BitVec 14) (body : Bytes) : State :=
  match linkOfPart s part with
  | some k => sendLink k 7 (leBytes 1 code ++ leBytes 2 home.toNat ++ body) s
  | none => s

/-- The two key records of a flow, wrapped to cross a link, each behind its length (R442). -/
def sealFlow (part : BitVec 2) (p : BitVec 8) (f : Flow) (s : State) : Bytes × State :=
  match linkOfPart s part with
  | none => ([], s)
  | some k =>
    let (a, s) := sealKey k p (zeros 64) f.keyA s
    let (b, s) := sealKey k p (zeros 64) f.keyB s
    (leBytes 2 a.length ++ a ++ leBytes 2 b.length ++ b, s)

/-- A flow's image and its key material sent to the part of a standby (R443): `code` 1 gives it, 4 refreshes it. -/
def sendFlow (code : Nat) (part : BitVec 2) (i : BitVec 14) (s : State) : State :=
  match s.flow i, s.ctx i with
  | some f, some c =>
    let (keys, s) := sealFlow part c.owner f s
    flowMsg s part code i (mirrorImage s.clock.us f ++ keys)
  | _, _ => s

/-- A flow's record, replay state and key material sent to the part of its standby (R443). -/
def mirrorEntries (i : BitVec 14) (s : State) : State :=
  match (s.flow i).bind (·.standbyAt) with
  | some part => sendFlow 4 part i s
  | none => s

/-- A flow changed by an administration job, on its standby too before the job completes (R298, R443). -/
def applyFlowOp (i : BitVec 14) (op : FlowOp) (s : State) : State :=
  match s.flow i, op with
  | some f, .delete =>
    let s := match f.standbyAt with
      | some part => flowMsg s part 5 i []
      | none => s
    let s := match f.standby with
      | some (part, home) => flowMsg s part 6 home []
      | none => s
    s.setCtx i none
  | none, .delete => s.setCtx i none
  | _, .resync => changeFlow i (flowChange .resync) s
  | _, op => mirrorEntries i (changeFlow i (flowChange op) s)

/-- An owner signer's index written, its valid mark last (R47). -/
def setSigner (i : Nat) (v : Option Bytes) (s : State) : State :=
  { s with nv := { s.nv with signers := s.nv.signers.set (i - 1) v } }

/-- A key of a blob placed in its own slot with its own generation (R116). -/
def importKey (s : State) (e : BitVec 32 × Key) : State :=
  let n := handleSlot e.1
  let s := { s with vault := { s.vault with gens := Tab.set none n.toNat (some (handleGen e.1)) s.vault.gens } }
  putKey 0 s n e.2

/-- A crate of a blob takes its contents and its flag, where it is still the pitch's (R116; log 66). -/
def importCrate (p : BitVec 8) (s : State) (c : Nat × BitVec 8 × Bytes) : State :=
  match s.crate c.1 with
  | some x =>
    if x.pitch = p then
      (writeCrates (zeroCrate s c.1) (4096 * c.1) c.2.2).setCrate c.1 (some { x with flag := c.2.1 })
    else s
  | none => s

/-- The values of a blob's state record committed to the pitch table (R116). -/
def importCfg (s : State) (p : BitVec 8) (v : PitchCfg) : State :=
  let x := s.pitch p
  let put (c : PitchCfg) : PitchCfg :=
    { c with weight := v.weight, queueLimit := v.queueLimit, migMode := v.migMode, ctxCeiling := v.ctxCeiling,
             cellCeiling := v.cellCeiling, crateCeiling := v.crateCeiling }
  s.setPitch p { x with cfg := put x.cfg, shadow := put x.shadow }

/-- A PITCH_IMPORT that ends with OK (R116, R117): keys, crates and the state record's values take their places, the journal is closed and
EXPORT_ID recorded, and PP_STATUS.MIGRATED is set. Its contexts stand at their indices since the job ran. -/
def importDone (s : State) (p : BitVec 8) (id : BitVec 64) (cfg : PitchCfg) (keys : List (BitVec 32 × Key))
    (crates : List (Nat × BitVec 8 × Bytes)) : State :=
  let s := crates.foldl (importCrate p) (keys.foldl importKey s)
  let s := importCfg { s with nv := { s.nv with importOpen := none, exportIds := (id :: s.nv.exportIds).take 256 } } p cfg
  let x := s.pitch p
  let s := s.setPitch p { x with ppMigrated := true }
  if bit x.ppMask 0 then signal x.cfg.vector s else s

/-- What a completed job changes beside its output. -/
def applyCommit (s : State) (c : Commit) : State :=
  match c with
  | .keyPut n k => putKey k.pitch s n (keepIndices s n k)
  | .keyRights h p =>
    match rightsLeft s h p with
    | some k => putKey k.pitch s (handleSlot h) k
    | none => s
  | .keyDrop n => dropKey s n
  | .ctxPut i c => s.setCtx i (some c)
  | .ctxFree i => s.setCtx i none
  | .pinned i ts key => pinShelves s i ts key
  | .bound n cs => bindCaches s n cs
  | .exported p k =>
    if (s.pitch p).state = .frozen then (destroyPitch s p).setPitch p { s.pitch p with state := .exported, keysExcluded := k } else s
  | .cleared => finishClear false s
  | .custodian n c => { s with nv := { s.nv with custodians := Tab.set none n c s.nv.custodians } }
  | .quorum p t => { s with nv := { s.nv with thresholds := s.nv.thresholds.set (p.toNat - 1) t } }
  | .archived => archiveDone s
  | .marked k b => markBank k b commitMark s
  | .signer i h => setSigner i h s
  | .svn k v => s.writeSvn k 4 v
  | .flowOp i op => applyFlowOp i op s
  | .imported p id cfg keys crates => importDone s p id cfg keys crates

/-- A job writes a persistent key's record to the non-volatile die before its own record (R348). -/
def needsStore (s : State) (x : Job) : Bool :=
  x.commits.any (fun c => match c with
    | .keyPut _ k => k.persist
    | .keyRights h p => ((rightsLeft s h p).map (·.persist)).getD false
    | .imported _ _ _ ks _ => ks.any (fun e => e.2.persist)
    | _ => false)

/-- The reservations of a job that its keys do not fill. -/
def unusedSlots (x : Job) : List (BitVec 13) :=
  x.reserved.filter (fun n => !x.commits.any (fun c => match c with
    | .keyPut m _ => m == n
    | .imported _ _ _ ks _ => ks.any (fun e => handleSlot e.1 == n)
    | _ => false))

/-- The message in which a peer's job is answered (R438, R441). -/
def resultBody (x : Job) (o : JobOut) : Bytes :=
  wordBytes 4 x.id.pos ++ wordBytes 2 o.status ++ wordBytes 2 o.detail ++ wordBytes 8 o.result ++ wordBytes 4 o.elapsed ++
  wordBytes 4 (BitVec.ofNat 32 o.output.length) ++ o.output

/-- A spilled job that LOCK ended on the peer returns as lost (R446). -/
def spillLost (x : Job) (o : JobOut) : JobOut := if x.spilled ∧ o.status = stLocked then outOf stAborted 0x0FC0 else o

/-- A peer's job is answered over its link while that is UP; its result is lost with the link otherwise (R437). -/
def answerPeer (s : State) (x : Job) (o : JobOut) : State :=
  let o := spillLost x o
  match s.links.link[(x.id.src - 1).toNat]? with
  | some l => if l.state = .up then sendLink (x.id.src - 1) (if x.spilled then 4 else 3) (resultBody x o) s else s
  | none => s

/-- The endings that leave a job's output crates POISONED (R83). -/
def spoils (st : BitVec 16) : Bool := [stBadAddress, stAborted, stFault, stPitchReset].contains st

/-- A job whose result is ready: output, changes, record, references, signal (R25, R73 to R76, R84). -/
def completeJob (w : RecordWrite) (s : State) (x : Job) (o : JobOut) : State :=
  let o := retriedOut s x o
  let s := endRaw (freeUnits s x) x.id
  let s := (unusedSlots x).foldl unreserve s
  let s := x.commits.foldl applyCommit s
  let s := if x.phase ≠ .ended ∧ x.held = true ∧ spoils o.status = true then poison s (outCrates x.desc) else s
  let s := if x.id.src = 0 then writeRecord w (writeOutput s x o.output) x o
           else answerPeer (s.dropJob x.id) x o
  completeReturns s

end Sys2Proof.Machine
end

