-- ==== Sys2Proof/Machine/Porter.lean ====
section
/-! DEFINITION. Crates and the Porter (R79 to R97): crate flags and data, crate administration, channel programs and
their instructions. -/
namespace Sys2Proof.Machine

/-! ### Crates (R79 to R86) -/

/-- A flag byte rejected (R82). -/
def flagReject (s : State) : State :=
  { s with crates := { s.crates with flagInt := true, flagRejects := satAdd s.crates.flagRejects 1 } }

/-- One flag byte written by the host in a pitch's page (R80, R82). -/
def flagByte (p : BitVec 8) (n : Nat) (v : Byte) (s : State) : State :=
  match s.crate n with
  | none => s
  | some c =>
    if c.pitch ≠ p ∨ v = 0xFF ∨ v = c.flag then s
    else if (c.flag = 0 ∨ c.flag = 2) ∧ v = 1 then s.setCrate n (some { c with flag := 1 })
    else if c.flag = 2 ∧ v = 0 then s.setCrate n (some { c with flag := 0 })
    else if c.flag = 1 ∧ v = 2 then completeReturns (s.setCrate n (some { c with returning := true }))
    else if c.flag = 0x0F ∧ v = 0 then (zeroCrate s n).setCrate n (some { c with flag := 0 })
    else flagReject s

/-- Flag bytes in ascending order (R80). -/
def flagBytes (p : BitVec 8) : Nat → Bytes → State → State
  | _, [], s => s
  | n, v :: t, s => flagBytes p (n + 1) t (if n < 2048 then flagByte p n v s else s)

/-- The host may read and write a crate as memory (R81). -/
def crateOpen (s : State) (n : Nat) : Bool :=
  match s.crate n with
  | some c => c.flag == 0 || c.flag == 2
  | none => false

/-- One byte of a host write to the CRATE window (R81). -/
def crateByte (s : State) (a : Nat) (v : Byte) : State :=
  if crateOpen s (a / 4096) then writeCrates s a [v] else s

/-- The bytes of a host write, one by one. -/
def crateBytes : Nat → Bytes → State → State
  | _, [], s => s
  | a, v :: t, s => crateBytes (a + 1) t (crateByte s a v)

/-- A host write to the CRATE window (R81): what falls on a closed crate is dropped, and the request is counted. -/
def crateDataWrite (off : BitVec 23) (data : Bytes) (s : State) : State :=
  let data := data.take (0x800000 - off.toNat)
  let closed := (crateRange off.toNat data.length).any (fun n => !crateOpen s n)
  let s := crateBytes off.toNat data s
  if closed then { s with crates := { s.crates with dropInt := true, drops := satAdd s.crates.drops 1 } } else s

/-- CR_CMD COMMIT refused (R86). -/
def crateRefuse (s : State) (d : BitVec 16) : State :=
  { s with crates := { s.crates with commitRefused := true, refuseDetail := d } }

/-- CR_CMD COMMIT (R86). The committed PITCH of a crate that is not assigned is kept too. -/
def crateCommit (s : State) : State :=
  let n := s.crates.selShadow.toNat
  let p := s.crates.pitchShadow
  let on := s.crates.assignedShadow
  let cur := s.crate n
  let same := match cur with
    | some c => on && c.pitch == p
    | none => !on && Tab.get 0#8 n s.crates.parked == p
  if same then s
  else if (match cur with | some c => c.flag == 1 | none => false) || crateRefs s n != 0 then crateRefuse s 0x0E40
  else if on ∧ (s.pitch p).state = .absent then crateRefuse s 0x0E41
  else
    let free := zeroCrate (s.setCrate n none) n
    let park (q : BitVec 8) (t : State) : State := { t with crates := { t.crates with parked := Tab.set 0#8 n q t.crates.parked } }
    if on then
      (if grant free .crates p 1 = .granted then
        park 0 (free.setCrate n (some { pitch := p, flag := 0, returning := false }))
       else crateRefuse s 0x0E42)
    else park p free

def execCrateFlagWrite (p : BitVec 8) (first : BitVec 11) (flags : List Byte) (s : State) :
    Host.Outcome State Fault Refusal :=
  hostAct s (flagBytes p first.toNat flags s)

def execCrateDataWrite (off : BitVec 23) (data : List Byte) (s : State) : Host.Outcome State Fault Refusal :=
  hostAct s (crateDataWrite off data s)

def execCrateCommit (s : State) : Host.Outcome State Fault Refusal := hostAct s (crateCommit s)

/-! ### Programs (R89, R90) -/

/-- A static check of R89 that failed: STATUS and DETAIL. -/
abbrev InsnBad := BitVec 16 × BitVec 16

/-- The 32 bytes of an instruction decoded (R90), with the checks that need no other instruction, in the order of
R96. -/
def pDecode (b : Bytes) : Sum InsnBad PInsn :=
  let op := (fieldAt 8 b 0 1).toNat
  let sub := fieldAt 8 b 1 1
  let w := fieldAt 32 b 4 4
  let a := fieldAt 64 b 8 8
  let c := fieldAt 64 b 16 8
  let d := fieldAt 64 b 24 8
  let res : Sum InsnBad PInsn := .inl (stBadField, 0x0E21)
  let r23 := fieldAt 16 b 2 2 != 0
  match op with
  | 1 =>
    if r23 || bits sub 4 4 != 0 then res
    else
      let swap := bits sub 2 2
      if (swap = 1 && w.toNat % 2 != 0) || (2 ≤ swap.toNat && w.toNat % 4 != 0) then .inl (stBadLength, 0x0E24)
      else .inr (.move (bit sub 0) (bit sub 1) swap w a c (bits d 0 32) (bits d 32 32))
  | 2 =>
    if r23 || sub != 0 || a >>> 8 != 0 || c != 0 || d != 0 then res
    else if a = 0 || decide (63 < a.toNat) then .inl (stBadField, 0x0E23)
    else .inr (.loop w (a.setWidth 8))
  | 3 =>
    if r23 || bits sub 2 6 != 0 || bits sub 0 2 = 3 || d != 0 then res
    else if a.toNat % 4 ≠ 0 then .inl (stBadField, 0x0E25)
    else .inr (.wait (bits sub 0 2) w a (bits c 0 32) (bits c 32 32))
  | 4 =>
    let wr := bit sub 0
    let rt := bit sub 2
    if r23 || bits sub 3 5 != 0 || (!wr && a != 0) || bits c 11 5 != 0 || bits c 32 32 != 0 || d != 0 ||
       (!rt && c != 0) || decide (2048 < (bits c 16 16).toNat) then res
    else if a.toNat % 4 ≠ 0 then .inl (stBadField, 0x0E25)
    else .inr (.signal wr (bit sub 1) rt w a (bits c 0 11) (bits c 16 16))
  | 5 => if r23 || sub != 0 || w != 0 || a != 0 || c != 0 || d != 0 then res else .inr .fence
  | 6 => if r23 || sub != 0 || a != 0 || c != 0 || d != 0 then res else .inr (.fin w)
  | _ => .inl (stBadField, 0x0E20)

/-- Bodies of the loops open at an instruction: `ends` are their last indexes, innermost first (R91). -/
def loopBad (i len : Nat) (ends : List Nat) (body : Nat) : Bool :=
  decide (len ≤ i + body) || decide (4 ≤ ends.length) || ends.any (fun e => decide (e < i + body))

/-- The static check of R89 from instruction `i` on: the program, or the failing index with STATUS and DETAIL. Where one instruction fails
several checks, the spec does not say which DETAIL it has: its own form comes first, in the order of R96's table for each opcode, then its
loop, then the END that is missing (DESIGN CHOICE, log 65). -/
def pCheck (len : Nat) : Nat → List Nat → List Bytes → Sum (Nat × InsnBad) (List PInsn)
  | _, _, [] => .inr []
  | i, ends, b :: t =>
    let ends := ends.filter (fun e => decide (i ≤ e))
    match pDecode b with
    | .inl x => .inl (i, x)
    | .inr n =>
      let body := match n with
        | .loop _ k => k.toNat
        | _ => 0
      if (match n with | .loop _ _ => loopBad i len ends body | _ => false) then .inl (i, (stBadField, 0x0E23))
      else if t.isEmpty && (match n with | .fin _ => false | _ => true) then .inl (i, (stBadField, 0x0E22))
      else match pCheck len (i + 1) (if body = 0 then ends else (i + body) :: ends) t with
        | .inl x => .inl x
        | .inr p => .inr (n :: p)

/-- Pieces of 32 bytes. -/
def pieces32 : Nat → Bytes → List Bytes
  | 0, _ => []
  | k + 1, b => b.take 32 :: pieces32 k (b.drop 32)

/-- A program from its bytes (R89). -/
def pProgram (b : Bytes) : Sum (Nat × InsnBad) (List PInsn) :=
  let k := b.length / 32
  pCheck k 0 [] (pieces32 k b)

/-! ### Running (R91 to R97) -/

/-- A program starts on a channel (R89). What an earlier program of the channel wrote to host memory and did not read back, it reads back too
(R93). -/
def pStart (c : BitVec 6) (prog : List PInsn) (job : Option JobId) (s : State) : State :=
  let r : PRun := { prog := prog, pc := 0, loops := [], moving := none, waiting := false, signalling := false,
                    awaiting := [], lastWrite := (s.chan c).unread, job := job, stopping := false, stoppers := [] }
  s.setChan c { s.chan c with run := some r, bytes := 0 }

/-- A PORTER_START's record (R88). -/
def pOut (st dt : BitVec 16) (value : BitVec 32) (index : Nat) (moved : Nat) : JobOut :=
  { outOf st dt (at64 0 value ||| at64 32 (BitVec.ofNat 6 index)) with moved := if st = stOk then some moved else none }

/-- A job that waited for a channel has its content. -/
def setOut (o : JobOut) (s : State) (j : JobId) : State :=
  match s.job j with
  | some x => s.setJob { x with out := some o }
  | none => s

/-- A program ends, at END or otherwise (R96): PC_LAST.INDEX is that of the last instruction run. -/
def pEnd (c : BitVec 6) (r : PRun) (st dt : BitVec 16) (value : BitVec 32) (s : State) : State :=
  let x := s.chan c
  let ok := decide (st = stOk)
  let s := s.setChan c
    { x with run := none, unread := if ok then none else r.lastWrite, endDetail := dt, errInt := x.errInt || !ok,
             doneInt := x.doneInt || (ok && r.job.isNone) }
  let s := match r.job with
    | some j => setOut (pOut st dt value x.lastIndex.toNat x.bytes.toNat) s j
    | none => s
  r.stoppers.foldl (setOut (outOf stOk 0)) s

/-- The instruction after `i`, with the loops that end at `i` gone round or left (R91). -/
def pAdvance (i : Nat) : List PLoop → Nat × List PLoop
  | [] => (i + 1, [])
  | l :: t =>
    if l.last ≠ i then (i + 1, l :: t)
    else if l.iter + 1 < l.count then (l.first, { l with iter := l.iter + 1 } :: t)
    else pAdvance i t

/-- The run moved past instruction `i`. -/
def pNext (r : PRun) (i : Nat) : PRun :=
  let (pc, ls) := pAdvance i r.loops
  { r with pc := pc, loops := ls, moving := none, waiting := false, signalling := false, awaiting := [] }

/-- A run stored in its channel. -/
def setRun (c : BitVec 6) (r : PRun) (s : State) : State := s.setChan c { s.chan c with run := some r }

/-- The DETAIL of a failed access of a program (R72, R96). -/
def accessDetail : Access → BitVec 16
  | .readFails => 0x000B
  | .writeFails => 0x000C
  | .translationFails => 0x000D
  | .ok => 0

/-- The read-back of R93 fails: only where the channel has written host memory since the last one. -/
def readBackFails (r : PRun) (a : Access) : Bool :=
  r.lastWrite.isSome && (a == .readFails || a == .translationFails)

/-- The crates of a SIGNAL's range. -/
def signalCrates (first : BitVec 11) (count : BitVec 16) : List Nat := (List.range count.toNat).map (· + first.toNat)

/-- The last part of a SIGNAL (R93): the WRITE, then the IRQ. -/
def signalEnd (c : BitVec 6) (r : PRun) (write irq : Bool) (value : BitVec 32) (addr : BitVec 64) (a : Access)
    (s : State) : State :=
  let p := (s.chan c).cfg.pitch
  if write ∧ (a = .writeFails ∨ a = .translationFails) then pEnd c r stBadAddress (accessDetail a) 0 s
  else
    let s := if write then writeHost s p addr.toNat (wordBytes 4 value) else s
    let s := if irq then signal (s.chan c).cfg.vector s else s
    let r := { r with lastWrite := if write then some addr.toNat else r.lastWrite }
    setRun c (pNext r r.pc) s

/-- A SIGNAL whose returns are all through goes on, or ends where the program was stopped meanwhile (R97); another waits (R93). -/
def signalGo (c : BitVec 6) (r : PRun) (write irq : Bool) (value : BitVec 32) (addr : BitVec 64) (a : Access) (s : State) : State :=
  if !r.awaiting.isEmpty then s
  else if r.stopping then pEnd c r stAborted 0x0E31 0 s
  else signalEnd c r write irq value addr a s

/-- The crates of a list that are DEVICE: a SIGNAL requests their return and waits for them. -/
def deviceOf (ns : List Nat) (s : State) : List Nat :=
  ns.filter (fun n => match s.crate n with
    | some x => x.flag == 1
    | none => false)

/-- A return requested for the DEVICE crates of a SIGNAL (R93), for which its channel waits from then on. -/
def requestReturns (c : BitVec 6) (r : PRun) (ns : List Nat) (s : State) : State :=
  let ns := deviceOf ns s
  let s := setRun c { r with signalling := true, awaiting := ns } s
  completeReturns (ns.foldl (fun s n => match s.crate n with
    | some x => s.setCrate n (some { x with returning := true })
    | none => s) s)

/-- One read of a WAIT (R94). -/
def waitTest (c : BitVec 6) (cond : BitVec 2) (addr : BitVec 64) (value mask : BitVec 32) (s : State) : Bool :=
  let word : BitVec 32 := fieldAt 32 (readHost s (s.chan c).cfg.pitch addr.toNat 4) 0 4
  let x := word &&& mask
  if cond = 0 then x == value else if cond = 1 then x != value else decide (value.toNat ≤ x.toNat)

/-- The crates of a range that are DEVICE and a pitch's own: what a MOVE that fails at its start may poison (DEDUCED, log 65). -/
def ownDevice (s : State) (p : BitVec 8) (ns : List Nat) : List Nat :=
  (ns.take 2048).filter (fun n => match s.crate n with
    | some c => c.pitch == p && c.flag == 1
    | none => false)

/-- A MOVE starts (R84, R91, R92): its ranges, or why they fail. A crate offset that its stride takes below zero or past 2^64 fails with
CRATE_RANGE (DESIGN CHOICE, log 65). Where the host side fails as well as
the crate side, the host side's DETAIL is given (DESIGN CHOICE, log 72). A MOVE that fails so has failed before completion: the crates of its destination are POISONED (R83,
R96). -/
def moveStart (c : BitVec 6) (r : PRun) (sc dc : Bool) (swap : BitVec 2) (len : BitVec 32) (src dst : BitVec 64)
    (ss ds : BitVec 32) (s : State) : State :=
  let p := (s.chan c).cfg.pitch
  let i : Nat := match r.loops with
    | l :: _ => l.iter
    | [] => 0
  let a : Int := (src.toNat : Int) + (i : Int) * ss.toInt
  let b : Int := (dst.toNat : Int) + (i : Int) * ds.toInt
  let top : Int := 2 ^ 64
  let wrapsAt (crate : Bool) (x : Int) := !crate && (decide (x < 0) || decide (top < x + (len.toNat : Int)))
  let crateBad (crate : Bool) (x : Int) := crate && (decide (x < 0) || !cratesPass s p x.toNat len.toNat)
  let spoilt (s : State) : State := if dc && decide (0 ≤ b) then poison s (ownDevice s p (crateRange b.toNat len.toNat)) else s
  if len = 0 then setRun c (pNext r r.pc) s
  else if wrapsAt sc a || wrapsAt dc b then completeReturns (spoilt (pEnd c r stBadAddress 0x0009 0 s))
  else if crateBad sc a || crateBad dc b then completeReturns (spoilt (pEnd c r stBadAddress 0x000A 0 s))
  else setRun c { r with moving := some { srcCrate := sc, dstCrate := dc, swap := swap, len := len.toNat, src := a.toNat,
                                          dst := b.toNat, done := 0 } } s

/-- The next instruction of a channel that is neither moving nor waiting (R91). -/
def porterInstruction (c : BitVec 6) (a : Access) (s : State) : State :=
  match (s.chan c).run with
  | none => s
  | some r =>
    if r.moving.isSome ∨ r.waiting then s
    else match r.prog[r.pc]? with
      | none => s
      | some n =>
        let s := s.setChan c { s.chan c with lastIndex := BitVec.ofNat 6 r.pc }
        match n with
        | .move sc dc swap len src dst ss ds => moveStart c r sc dc swap len src dst ss ds s
        | .loop count body =>
          if count = 0 then setRun c (pNext r (r.pc + body.toNat)) s
          else
            let l : PLoop := { first := r.pc + 1, last := r.pc + body.toNat, iter := 0, count := count.toNat }
            setRun c { r with pc := r.pc + 1, loops := l :: r.loops } s
        | .wait cond timeout addr value mask =>
          if a = .readFails ∨ a = .translationFails then pEnd c r stBadAddress (accessDetail a) 0 s
          else if waitTest c cond addr value mask s then setRun c (pNext r r.pc) s
          else if timeout = 0 then pEnd c r stAborted 0x0E30 0 s
          else setRun c { r with waiting := true } s
        | .signal wr irq ret value addr first count =>
          if r.signalling then signalGo c r wr irq value addr a s
          else if readBackFails r a then pEnd c r stBadAddress (accessDetail a) 0 s
          else
            let r := { r with lastWrite := none }
            let ns := signalCrates first count
            let p := (s.chan c).cfg.pitch
            if ret ∧ ns.any (fun n => match s.crate n with | some x => x.pitch != p | none => true) then
              pEnd c r stBadAddress 0x000A 0 s
            else if ret then
              let t := requestReturns c r ns s
              match (t.chan c).run with
              | some r => signalGo c r wr irq value addr a t
              | none => t
            else signalGo c r wr irq value addr a s
        | .fence =>
          if readBackFails r a then pEnd c r stBadAddress (accessDetail a) 0 s
          else setRun c (pNext { r with lastWrite := none } r.pc) s
        | .fin value =>
          if readBackFails r a then pEnd c r stBadAddress (accessDetail a) 0 s
          else pEnd c r stOk 0 value s

/-- SWAP on its way (R90). -/
def swapBytes (m : BitVec 2) : Bytes → Bytes
  | b0 :: b1 :: b2 :: b3 :: t =>
    (if m = 0 then [b0, b1, b2, b3] else if m = 1 then [b1, b0, b3, b2]
     else if m = 2 then [b3, b2, b1, b0] else [b2, b3, b0, b1]) ++ swapBytes m t
  | [b0, b1] => if m = 1 then [b1, b0] else [b0, b1]
  | t => t

/-- A MOVE that ends before completion poisons its destination crates (R83). -/
def moveBreaks (m : PMove) (s : State) : State :=
  completeReturns (if m.dstCrate then poison s (crateRange m.dst m.len) else s)

/-- The channel whose unit the Porter moves next: the channels with a MOVE in progress are served round robin (R92). -/
def moverNext (s : State) : Option Nat :=
  nextAfter (s.arb.lastMover.map (·.toNat)) (Tab.keysWhere (fun _ c => match c.run with
    | some r => r.moving.isSome
    | none => false) s.porter)

/-- One unit of at most 512 bytes of the MOVE in progress (R92). A channel whose turn it is not moves nothing (log 65). -/
def porterMoveUnit (c : BitVec 6) (a : Access) (s : State) : State :=
  if moverNext s ≠ some c.toNat then s
  else
  let s := { s with arb := { s.arb with lastMover := some c } }
  match (s.chan c).run with
  | none => s
  | some r => match r.moving with
    | none => s
    | some m =>
      let p := (s.chan c).cfg.pitch
      let k := min 512 (m.len - m.done)
      let readBad := !m.srcCrate && (a == .readFails || a == .translationFails)
      let writeBad := !m.dstCrate && (a == .writeFails || a == .translationFails)
      if readBad || writeBad then
        moveBreaks m (pEnd c { r with moving := none } stBadAddress (accessDetail a) 0 s)
      else
        let data := if m.srcCrate then readCrates s (m.src + m.done) k else readHost s p (m.src + m.done) k
        let data := swapBytes m.swap data
        let s := if m.dstCrate then writeCrates s (m.dst + m.done) data else writeHost s p (m.dst + m.done) data
        let s := s.setChan c { s.chan c with bytes := (s.chan c).bytes + BitVec.ofNat 64 k }
        let r := { r with lastWrite := if m.dstCrate then r.lastWrite else some (m.dst + m.done + k - 1) }
        if m.done + k < m.len then
          (if r.stopping then moveBreaks m (pEnd c { r with moving := none } stAborted 0x0E31 0 s)
           else setRun c { r with moving := some { m with done := m.done + k } } s)
        else if r.stopping then completeReturns (pEnd c { r with moving := none } stAborted 0x0E31 0 s)
        else completeReturns (setRun c (pNext r r.pc) s)

/-- One more read of a WAIT, with whether its TIMEOUT has passed (R94). -/
def porterWaitPoll (c : BitVec 6) (expired : Bool) (a : Access) (s : State) : State :=
  match (s.chan c).run with
  | none => s
  | some r =>
    if r.waiting = false then s
    else match r.prog[r.pc]? with
      | some (.wait cond _ addr value mask) =>
        if a = .readFails ∨ a = .translationFails then pEnd c r stBadAddress (accessDetail a) 0 s
        else if waitTest c cond addr value mask s then setRun c (pNext r r.pc) s
        else if expired then pEnd c r stAborted 0x0E30 0 s
        else s
      | _ => s

/-- STOP (R97): at the end of the current unit of a MOVE, at once in a WAIT or between instructions, after the pending
return of a SIGNAL. -/
def porterStop (c : BitVec 6) (stopper : List JobId) (s : State) : State :=
  match (s.chan c).run with
  | none => s
  | some r =>
    let r := { r with stoppers := r.stoppers ++ stopper }
    if r.moving.isSome ∨ r.signalling then setRun c { r with stopping := true } s
    else pEnd c r stAborted 0x0E31 0 s

/-! ### Channel registers (R87, R88) -/

/-- PC_CMD COMMIT (R87). -/
def channelCommit (c : BitVec 6) (s : State) : State :=
  let x := s.chan c
  let no (d : BitVec 16) := s.setChan c { x with commitRefused := true, refuseDetail := d }
  if x.run.isSome then no 0x0E48
  else if x.shadow.assigned ∧ (s.pitch x.shadow.pitch).state = .absent then no 0x0E49
  else if x.shadow.progLen.toNat > 64 then no 0x0E4A
  else s.setChan c { x with cfg := x.shadow, unread := if x.shadow.pitch = x.cfg.pitch then x.unread else none }

/-- A register command on a channel refused. -/
def channelRefuse (c : BitVec 6) (d : BitVec 16) (s : State) : State :=
  s.setChan c { s.chan c with cmdRefused := true, refuseDetail := d }

/-- A program that fails its static check: nothing runs, and the failing index stands in PC_LAST (R89, R96). -/
def pStatic (c : BitVec 6) (i : Nat) (d : BitVec 16) (s : State) : State :=
  s.setChan c { s.chan c with errInt := true, lastIndex := BitVec.ofNat 6 i, endDetail := d }

/-- The registered program's bytes. -/
def registeredProgram (c : BitVec 6) (s : State) : Bytes :=
  let x := s.chan c
  readHost s x.cfg.pitch x.cfg.base.toNat (32 * x.cfg.progLen.toNat)

/-- PC_CMD START (R88), with how the read of the registered program ended (R96). -/
def channelStart (c : BitVec 6) (a : Access) (s : State) : State :=
  let x := s.chan c
  if x.cfg.assigned = false then channelRefuse c 0x0E11 s
  else if x.run.isSome then channelRefuse c 0x0E12 s
  else if x.cfg.progLen = 0 then channelRefuse c 0x0E13 s
  else if a = .readFails ∨ a = .translationFails then
    s.setChan c { x with errInt := true, endDetail := accessDetail a }
  else match pProgram (registeredProgram c s) with
    | .inl (i, (_, d)) => channelRefuse c d (pStatic c i d s)
    | .inr p => pStart c p none s

def execChannelCommit (c : BitVec 6) (s : State) : Host.Outcome State Fault Refusal := hostAct s (channelCommit c s)

def execChannelStart (c : StartCmd) (s : State) : Host.Outcome State Fault Refusal :=
  hostAct s (channelStart c.channel c.access s)

/-- PC_CMD STOP (R97); on an IDLE channel there is nothing to end. -/
def execChannelStop (c : BitVec 6) (s : State) : Host.Outcome State Fault Refusal := hostAct s (porterStop c [] s)

def execPorterInstruction (c : BitVec 6) (a : Access) (s : State) : Host.Outcome State Fault Refusal :=
  act s (porterInstruction c a s)

def execPorterMoveUnit (c : BitVec 6) (a : Access) (s : State) : Host.Outcome State Fault Refusal :=
  act s (porterMoveUnit c a s)

def execPorterWaitPoll (c : BitVec 6) (expired : Bool) (a : Access) (s : State) : Host.Outcome State Fault Refusal :=
  act s (porterWaitPoll c expired a s)

/-! ### PORTER_START and PORTER_STOP (R88) -/

/-- The channel of a descriptor. -/
def chanOf (d : Desc) : BitVec 6 := d.param.setWidth 6

/-- The channel's own checks (R88). -/
def chanBad (start : Bool) (s : State) (x : Job) : Option Bad :=
  let c := s.chan (chanOf x.desc)
  if c.cfg.assigned = false ∨ c.cfg.pitch ≠ x.pitch then badField 0x0E11
  else badWhen (start && c.run.isSome) (badField 0x0E12)

/-- The registered program that a PORTER_START names is there (R88). -/
def progBad (s : State) (x : Job) : Option Bad :=
  badWhen (x.desc.inLen == 0 && (s.chan (chanOf x.desc)).cfg.progLen == 0) (badLength 0x0E13)

/-- A running program's access to host memory fails (R72, R96): it ends, and the MOVE in progress with it. -/
def channelFails (c : BitVec 6) (dt : BitVec 16) (s : State) : State :=
  match (s.chan c).run with
  | none => s
  | some r =>
    let s := pEnd c { r with moving := none } stBadAddress dt 0 s
    match r.moving with
    | some m => moveBreaks m s
    | none => s

/-- PORTER_START's program: in the input, or registered. -/
def startProgram (s : State) (x : Job) : Bytes :=
  if x.desc.inLen = 0 then registeredProgram (chanOf x.desc) s else jobInput s x

def porterStartSpec : OpSpec :=
  { code := 0x0E01,
    uses := fun _ => { inp := true, param := BitVec.allOnes 64 },
    own6 := fun d => badWhen (decide (63 < d.param.toNat)) (badField 0x0E10),
    fields := chanBad true,
    lengths := fun s x =>
      let n := x.desc.inLen.toNat
      if n = 0 then progBad s x
      else badWhen (decide (n % 32 ≠ 0) || decide (2048 < n)) (badLength 0x0E14),
    judge := fun s x => firstBad [chanBad true s x, progBad s x],
    run := fun s x =>
      let c := chanOf x.desc
      match pProgram (startProgram s x) with
      | .inl (i, (st, d)) => { state := pStatic c i d s, out := some (pOut st d 0 i 0) }
      | .inr p => { state := pStart c p (some x.id) s, out := none } }

def porterStopSpec : OpSpec :=
  { code := 0x0E02,
    uses := fun _ => { param := BitVec.allOnes 64 },
    own6 := fun d => badWhen (decide (63 < d.param.toNat)) (badField 0x0E10),
    fields := chanBad false,
    judge := chanBad false,
    run := fun s x =>
      let c := chanOf x.desc
      match (s.chan c).run with
      | none => { state := s, out := some (outOf stNoOutput 0) }
      | some _ =>
        let t := porterStop c [x.id] s
        if (t.chan c).run.isNone then { state := t, out := some (outOf stOk 0) } else { state := t, out := none } }

def execPorterStart (j : JobId) (s : State) : Host.Outcome State Fault Refusal := act s (startJob porterStartSpec j s)

def execPorterStop (j : JobId) (s : State) : Host.Outcome State Fault Refusal := act s (startJob porterStopSpec j s)

end Sys2Proof.Machine
end

