-- ==== Sys2Proof/Machine/Reset.lean ====
section
/-! DEFINITION. What a pitch reset reaches (R107 to R109, R352), and the release of contexts and keys that it shares with
other commands. -/
namespace Sys2Proof.Machine

/-- A context zeroed and returned to the pool (R104). -/
def freeContext (s : State) (i : BitVec 14) : State := unbind (dropShelves (s.setCtx i none) i) i

/-- A context is a flow's (R299), stale or not. -/
def isFlow (c : Context) : Bool := c.kind == 0x0C01

/-- The contexts of a pitch that are no flows. -/
def plainContexts (s : State) (p : BitVec 8) : List (BitVec 14) :=
  (Tab.keysWhere (fun _ c => match c with
    | some c => c.owner == p && !isFlow c
    | none => false) s.contexts).map (BitVec.ofNat 14)

/-- A context zeroed and marked stale (R105). -/
def staleContext (m : Stale) (s : State) (i : BitVec 14) : State :=
  match s.ctx i with
  | some c => dropShelves (s.setCtx i (some { c with stale := m, data := .empty })) i
  | none => s

/-- A context marked by an epoch advance; one that is stale already keeps its mark. -/
def ageContext (s : State) (i : BitVec 14) : State :=
  match s.ctx i with
  | some c => if c.stale = .current then staleContext .oldEpoch s i else s
  | none => s

/-- An epoch advance of a pitch (R105). -/
def epochAdvance (s : State) (p : BitVec 8) : State :=
  let s := s.setPitch p { s.pitch p with epoch := (s.pitch p).epoch + 1 }
  (plainContexts s p).foldl ageContext s

/-- The slots with a key of a pitch, one that is not loaded (R349) among them. -/
def keysOf (s : State) (p : BitVec 8) : List (BitVec 13) :=
  (Tab.keysWhere (fun _ x => match x with
    | .key k => k.pitch == p
    | .unloaded k => k.pitch == p
    | _ => false) s.vault.slots).map (BitVec.ofNat 13)

/-- A key that is not persistent is deleted (R352). -/
def dropVolatile (s : State) (n : BitVec 13) : State :=
  match s.key n with
  | some k => if k.persist then s else freeSlot s n
  | none => s

/-- A channel of a pitch stopped (R97): a MOVE ends before completion, a WAIT at once, a SIGNAL once its pending return completes. The job
that started it has its record from what stops it. -/
def haltChannel (s : State) (c : BitVec 6) : State :=
  match (s.chan c).run with
  | none => s
  | some r =>
    if r.signalling ∧ r.awaiting.isEmpty = false then setRun c { r with stopping := true, job := none, stoppers := [] } s
    else
    let s := pEnd c { r with moving := none } stAborted 0x0E31 0 s
    match r.moving with
    | some m => moveBreaks m s
    | none => s

/-- The channels of a pitch. -/
def channelsOf (s : State) (p : BitVec 8) : List (BitVec 6) :=
  (Tab.keysWhere (fun _ c => c.cfg.assigned && c.cfg.pitch == p) s.porter).map (BitVec.ofNat 6)

/-- A job of the part's own queues is of a pitch. -/
def jobOf (p : BitVec 8) (x : Job) : Bool := x.pitch == p

/-- A reset ends a job: its record says PITCH_RESET (R107). -/
def resetJob (s : State) (x : Job) : State := breakJob (askAbort s x) x stPitchReset 0

/-- Step 0 of R108 to the end of its jobs and programs: the pitch is RESETTING. -/
def beginReset (p : BitVec 8) (release : Bool) (cause : ResetCause) (s : State) : State :=
  let x := s.pitch p
  if x.state = .resetting ∨ x.state = .absent then s
  else
    let s := s.setPitch p { x with state := .resetting, releaseCtx := release, resetCause := cause, resetDue := none }
    let s := if p = 0 then endSession s else s
    let s := (channelsOf s p).foldl haltChannel s
    (s.jobs.filter (jobOf p)).foldl resetJob s

/-- A PITCH_EXPORT or PITCH_IMPORT job of a pitch runs (R109). -/
def migrationJob (s : State) (p : BitVec 8) : Bool :=
  s.jobs.any (fun x => x.phase == .running && (x.desc.opcode == 0x0F24 || x.desc.opcode == 0x0F25) &&
    (x.desc.param.setWidth 8 : BitVec 8) == p)

/-- A reset asked for: at once, or after the migration job that runs (R109). Of two that wait for the same job the later gives the choice of
RELEASE_CTX and the cause (DESIGN CHOICE, log 72). -/
def askReset (p : BitVec 8) (release : Bool) (cause : ResetCause) (s : State) : State :=
  let x := s.pitch p
  if x.state = .absent ∨ x.state = .resetting then s
  else if migrationJob s p then
    s.setPitch p { x with resetDue := some (release), resetCause := cause }
  else beginReset p release cause s

/-- Resets that waited for a migration job begin (R109). -/
def dueResets (s : State) : State :=
  (Tab.keysWhere (fun _ x => x.resetDue.isSome) s.pitches).foldl (fun s n =>
    let p := BitVec.ofNat 8 n
    if migrationJob s p then s
    else beginReset p ((s.pitch p).resetDue.getD false) (s.pitch p).resetCause s) s

/-- The pitch page events of R106 that an occurrence sets, with the vector they signal. -/
def pitchEvent (p : BitVec 8) (migrated resetDone faultReset : Bool) (s : State) : State :=
  let x := s.pitch p
  let s := s.setPitch p { x with ppMigrated := x.ppMigrated || migrated, ppResetDone := x.ppResetDone || resetDone,
                                 ppFaultReset := x.ppFaultReset || faultReset }
  if (migrated && bit x.ppMask 0) || (resetDone && bit x.ppMask 1) || (faultReset && bit x.ppMask 2) then
    signal x.cfg.vector s
  else s

/-- The cause byte of event 0x0101 (R404); a reset that PCI Express makes counts as one by command (log 9). -/
def causeByte : ResetCause → Byte
  | .command => 0
  | .pcie => 0
  | .d3hot => 0
  | .self => 1
  | .fault => 2

/-- The crates of a pitch that are DEVICE. -/
def deviceCrates (s : State) (p : BitVec 8) : List Nat :=
  Tab.keysWhere (fun _ c => match c with
    | some c => c.pitch == p && c.flag == 1
    | none => false) s.crates.held

/-- The end of a pitch reset (R107, R108): records, queues, crates, contexts, keys, DRBG instance, state. One that D3hot makes leaves the keys
as they are, since R54 says so of its own reset (DEDUCED, log 64). -/
def endReset (p : BitVec 8) (w : RecordWrite) (s : State) : State :=
  if (s.pitch p).state ≠ .resetting then s
  else
    let s := (s.jobs.filter (jobOf p)).foldl (fun s x => match x.out with
      | some o => completeJob w s x o
      | none => s) s
    let s := { s with queues := Tab.mapVals queueInit (fun _ q =>
      if assignedTo' p q then { q with state := .disabled } else q) s.queues }
    let s := (channelsOf s p).foldl haltChannel (poison s (deviceCrates s p))
    let x := s.pitch p
    let s := if x.releaseCtx then (plainContexts s p).foldl freeContext s else epochAdvance s p
    let s := if x.resetCause = .d3hot then s else (keysOf s p).foldl dropVolatile s
    let s := drbgRestart s p
    let x := s.pitch p
    let fault := x.resetCause == .fault
    let s := s.setPitch p { x with state := if x.cfg.bound then .active else .unbound, logOn := false, swapPending := false,
                                   eventInt := true, faultReset := fault, releaseCtx := false }
    let s := pitchEvent p false true fault s
    note 0x0101 (some p) ([causeByte x.resetCause, 0] ++ wordBytes 2 x.epoch) s
where
  /-- A queue assigned to a pitch. -/
  assignedTo' (p : BitVec 8) (q : Queue) : Bool := q.cfg.assigned && q.cfg.pitch == p

end Sys2Proof.Machine
end

