-- ==== Sys2Proof/Machine/Cards.lean ====
section
/-! DEFINITION. The keeper card's link and commands, the custodians and quorum sessions, and the archive card (R411 to
R432). -/
namespace Sys2Proof.Machine

/-! ### Blocks of T=1 (R414) -/

/-- The exclusive or of all bytes. -/
def xorSum (b : Bytes) : Byte := b.foldl (· ^^^ ·) 0

/-- A block: NAD 0x00, PCB, LEN, information, LRC. -/
def t1Block (pcb : Byte) (inf : Bytes) : Bytes :=
  let b := [0#8, pcb, BitVec.ofNat 8 inf.length] ++ inf
  b ++ [xorSum b]

/-- A block of a right length: at most the 254 bytes of information of IFSD (R414). -/
def t1Long (b : Bytes) : Bool :=
  decide (4 ≤ b.length) && decide (((b[2]?).getD 0).toNat ≤ 254) && decide (((b[2]?).getD 0).toNat + 4 = b.length)

/-- A block received whole, with a right LRC. -/
def t1Good (b : Bytes) : Bool := t1Long b && (b.headD 1 == 0) && xorSum b == 0

/-- The PCB of a block. -/
def t1Pcb (b : Bytes) : Byte := (b[1]?).getD 0

/-- The information field of a block. -/
def t1Inf (b : Bytes) : Bytes := (b.drop 3).take (b.length - 4)

/-- The keeper exchange put in its place. -/
def setKeeper (k : KeeperRun) (s : State) : State := { s with cards := { s.cards with keeper := some k } }

/-- Bytes sent to the card. -/
def cardSend (b : Bytes) (s : State) : State := { s with out := .card b :: s.out }

/-- A block sent to the card, kept for a repetition. -/
def t1Send (k : KeeperRun) (b : Bytes) (s : State) : State := cardSend b (setKeeper { k with last := b } s)

/-- The next I-block of the command (R414): chained while more than IFSC bytes are left. -/
def sendI (k : KeeperRun) (s : State) : State :=
  let n := s.cards.ifsc.toNat
  let pcb : Byte := (if k.ns then 0x40 else 0) ||| (if n < k.rest.length then 0x20 else 0)
  t1Send k (t1Block pcb (k.rest.take n)) s

/-- A command begun: its recovery counts start anew (R415). -/
def sendCommand (k : KeeperRun) (stage : KeeperStage) (apdu : Bytes) (s : State) : State :=
  sendI { k with stage := stage, cmd := apdu, rest := apdu, resp := [], asks := 0, resyncs := 0, resynced := false,
                 resyncing := false, wtxUs := 0 } s

/-- The S(IFS request) with IFSD 254 (R414). -/
def sendIfs (k : KeeperRun) (s : State) : State := t1Send { k with stage := .ifs } (t1Block 0xC1 [0xFE]) s

/-- The exchange ends with its job's content and what that changes, and the card is deactivated (R411). -/
def keeperEnd (o : JobOut) (s : State) (cs : List Commit := []) : State :=
  match s.cards.keeper with
  | none => s
  | some k =>
    let s := deactivate s
    match s.job k.job with
    | some x => s.setJob { x with out := some o, commits := cs }
    | none => s

/-- The exchange ends with ABORTED (R412, R415). -/
def keeperAbort (d : BitVec 16) (s : State) : State := keeperEnd (outOf stAborted d) s

/-- The exchange ends with a refusal of R419. -/
def keeperRefuse (d : BitVec 16) (s : State) : State := keeperEnd (outOf stBadField d) s

/-! ### Activation (R411 to R413) -/

/-- The interface bytes of an ATR, group by group from TD(i): each group is TA, TB, TC, TD. -/
def atrGroups : Nat → Byte → Bytes → List (List (Option Byte)) × Bytes
  | 0, _, b => ([], b)
  | k + 1, y, b =>
    let take1 (i : Nat) (b : Bytes) : Option Byte × Bytes := if y.getLsbD (4 + i) then (b.head?, b.drop 1) else (none, b)
    let (ta, b) := take1 0 b
    let (tb, b) := take1 1 b
    let (tc, b) := take1 2 b
    let (td, b) := take1 3 b
    match td with
    | none => ([[ta, tb, tc, none]], b)
    | some d =>
      let (t, b) := atrGroups k d b
      ([ta, tb, tc, some d] :: t, b)

/-- What the part takes from an ATR: TA1, TA2, IFSC, BWI and CWI. -/
structure Atr where
  ta1  : Byte
  ta2  : Option Byte
  ifsc : BitVec 8
  bwi  : BitVec 4
  cwi  : BitVec 4
  deriving DecidableEq, Repr

/-- An interface byte of an ATR. -/
def atrByte (g : List (List (Option Byte))) (i j : Nat) : Option Byte := ((g[i]?).bind (fun r => r[j]?)).join

/-- R412: whether an ATR is accepted, and what it says. -/
def atrParse (a : Bytes) : Option Atr :=
  match a with
  | ts :: t0 :: t =>
    let (g, rest) := atrGroups 32 t0 t
    let hist := (bits t0 0 4).toNat
    let td1 := atrByte g 0 3
    if a.length > 33 ∨ ts ≠ 0x3B then none
    else if (td1.map (fun d => d &&& 0x0F)) ≠ some 1 then none
    else if ((atrByte g 2 2).map (fun c => c.getLsbD 0)) = some true then none
    else if rest.length ≠ hist + 1 ∨ xorSum (t0 :: t) ≠ 0 ∨ rest.take 6 ≠ ascii "CQKEEP" ∨ hist < 6 then none
    else
      let tb3 := (atrByte g 2 1).getD 0x4D
      some { ta1 := (atrByte g 0 0).getD 0x11, ta2 := atrByte g 1 0, ifsc := (atrByte g 2 0).getD 32,
             bwi := bits tb3 4 4, cwi := bits tb3 0 4 }
  | _ => none

/-- The pairs of Fi and Di codes that the part supports (R413). -/
def pairOk (ta1 : Byte) : Bool :=
  let f := (bits ta1 4 4).toNat
  let d := (bits ta1 0 4).toNat
  ((f == 0 || f == 1) && [1, 2, 3, 4, 5, 6, 8, 9].contains d) || (f == 9 && [4, 5, 6].contains d)

/-- Fi and Di in force (KEEPER_LINK). -/
def setPair (ta1 : Byte) (s : State) : State :=
  { s with cards := { s.cards with fi := bits ta1 4 4, di := bits ta1 0 4 } }

/-- Activation of the card (R411): Fi 372 and Di 1 until it says otherwise. -/
def activate (k : KeeperRun) (s : State) : State :=
  setPins [(.cardRstN, false), (.cardIo, true), (.cardVccEn, true), (.cardClk, true), (.cardRstN, true)]
    (setPair 0x11 (setKeeper { k with stage := .atr, ns := false, nr := false, last := [] } s))

/-- An ATR has come (R412, R413). -/
def atrReceive (a : Bytes) (s : State) : State :=
  match s.cards.keeper with
  | none => s
  | some k =>
    if k.stage ≠ .atr then s
    else match atrParse a with
      | none => keeperAbort 0x0FA1 s
      | some t =>
        let s := { s with cards := { s.cards with ifsc := t.ifsc, bwi := t.bwi, cwi := t.cwi } }
        if k.second then sendIfs k s
        else match t.ta2 with
          | some _ => if pairOk t.ta1 then sendIfs k (setPair t.ta1 s) else keeperAbort 0x0FA1 s
          | none =>
            let req : Bytes := if pairOk t.ta1 then [0xFF, 0x11, t.ta1] else [0xFF, 0x01]
            let req := req ++ [xorSum req]
            cardSend req (setKeeper { k with stage := .pps req } s)

/-- The card deactivated and activated once more (R413), or the end where that was the second activation already. -/
def ppsFails (k : KeeperRun) (s : State) : State :=
  if k.second then keeperAbort 0x0FA1 s else activate { k with second := true } (deactivate s)

/-- A PPS response has come (R413). -/
def ppsResponse (r : Bytes) (s : State) : State :=
  match s.cards.keeper with
  | none => s
  | some k => match k.stage with
    | .pps req =>
      if r = req then sendIfs k (if req.length = 4 then setPair ((req[2]?).getD 0x11) s else s)
      else if r = [0xFF, 0x01, 0xFE] then sendIfs k s
      else ppsFails k s
    | _ => s

/-- The card stays silent at activation or after PPS (R412, R413). -/
def cardWaitTimeout (s : State) : State :=
  match s.cards.keeper with
  | none => s
  | some k => match k.stage with
    | .atr => keeperAbort 0x0FA1 s
    | .pps _ => ppsFails k s
    | _ => s

/-! ### Error recovery (R415) -/

/-- A recovery counted (KEEPER_LINK.RETRIES). -/
def countRetry (s : State) : State := { s with cards := { s.cards with retries := satAdd s.cards.retries 1 } }

/-- S(RESYNCH request), up to three times. -/
def resynch (k : KeeperRun) (s : State) : State :=
  if k.resynced ∨ k.resyncs ≥ 3 then keeperAbort 0x0FA1 s
  else t1Send { k with resyncing := true, resyncs := k.resyncs + 1 } (t1Block 0xC0 []) (countRetry s)

/-- A block that is wrong or does not come: `edc` marks a parity or LRC error, whose R-block says 1, where one for any other error says 2
(ISO/IEC 7816-3, as R415 has it). -/
def blockError (k : KeeperRun) (edc : Bool) (s : State) : State :=
  if k.resyncing ∨ k.asks ≥ 2 then resynch k s
  else
    let b := t1Block ((if k.nr then 0x90 else 0x80) ||| (if edc then 1 else 2)) []
    cardSend b (setKeeper { k with asks := k.asks + 1 } (countRetry s))

/-! ### The identity record and the session (R416 to R420) -/

/-- The identity record's fields (R416). -/
structure Identity where
  serial    : BitVec 32
  custodian : Bytes
  expiry    : Nat
  key       : Bytes
  counter   : BitVec 32
  deriving DecidableEq, Repr

/-- A GET IDENTITY answer with a right form (check 3 of R419). -/
def identityForm (r : Bytes) : Bool :=
  decide (r.length = 6617) && r.drop 6615 == [0x90, 0x00] && r.headD 0 == 1 && (r[1]?).getD 1 == 0 && allZero (slice r 0x1A 6)

/-- A GET IDENTITY answer that passes check 3 of R419. -/
def identityOf (s : State) (r : Bytes) : Option Identity :=
  let rec_ := r.take 6615
  if identityForm r = false ∨
     mldsaVerifies s algMlDsa87 Config.keeperSigner (withContext "CQX18-KEEPER" (rec_.take 0x7C0)) (slice rec_ 0x7C0 4627) = false
  then none
  else some { serial := BitVec.ofNat 32 (beNat (slice rec_ 2 4)), custodian := slice rec_ 6 16,
              expiry := beNat (slice rec_ 0x16 4), key := slice rec_ 0x20 1952,
              counter := BitVec.ofNat 32 (beNat (slice rec_ 0x19D3 4)) }

/-- A custodian entry. -/
def custodian (s : State) (n : Nat) : Option Custodian := Tab.get none n s.nv.custodians

/-- The entry that matches a card's serial and key. -/
def entryOf (s : State) (i : Identity) : Option (Nat × Custodian) :=
  (List.range 16).findSome? (fun n => match custodian s n with
    | some c => if c.serial = i.serial ∧ c.keyHash = sha384 i.key then some (n, c) else none
    | none => none)

/-- The threshold of a purpose (R417). -/
def threshold (s : State) (purpose : BitVec 3) : BitVec 4 := (s.nv.thresholds[purpose.toNat - 1]?).getD 2

/-- The challenge of a session (R416). -/
def challenge (s : State) (q : Session) : Bytes := q.nonce ++ wordBytes 8 s.dev.uid ++ [q.purpose.setWidth 8]

/-- The session while it is COLLECTING. -/
def collecting (s : State) : Option Session :=
  match sessionNow s with
  | some q => if q.opened then none else some q
  | none => none

/-- Checks 4 to 7 of R419. -/
def presentBad (s : State) (q : Session) (i : Identity) : Option (BitVec 16) :=
  match entryOf s i with
  | none => some 0x0FA4
  | some (_, c) =>
    if bit c.roles (q.purpose.toNat - 1) = false then some 0x0FA5
    else if s.stream.timeValid = false then some 0x0FA6
    else if utcNow s > (i.expiry : Int) then some 0x0FA7
    else if q.serials.contains i.serial then some 0x0FA8
    else none

/-- KEEPER_IDENTIFY's 64 bytes (R420). -/
def identifyBytes (s : State) (i : Identity) : Bytes :=
  let (n, roles) : Byte × Byte := match entryOf s i with
    | some (n, c) => (BitVec.ofNat 8 n, c.roles)
    | none => (0xFF, 0)
  wordBytes 4 i.serial ++ fit 16 i.custodian ++ leBytes 4 i.expiry ++ wordBytes 4 i.counter ++ [n, roles] ++ zeros 34

/-- Borsor's signature has been verified: what the job does with the identity record (R419, R420). -/
def identityDone (k : KeeperRun) (resp : Bytes) (s : State) : State :=
  match s.job k.job, identityOf s resp with
  | none, _ => deactivate s
  | _, none => keeperRefuse 0x0FA3 s
  | some x, some i =>
    if x.desc.opcode = 0x0F67 then keeperEnd { outOf stOk 0 with output := identifyBytes s i } s
    else if x.desc.opcode = 0x0F61 then
      let n := (bits x.desc.param 0 4).toNat
      let roles : BitVec 8 := bits x.desc.param 8 8
      if (custodian s n).isSome ∨ roles = 0 ∨ (s.nv.custodians.any (fun e => (e.2.map (·.serial)) = some i.serial)) then
        keeperRefuse 0x0FAE s
      else
        let c : Custodian := { serial := i.serial, keyHash := sha384 i.key, roles := roles }
        keeperEnd (outOf stOk 0) s [.custodian n (some c)]
    else match collecting s with
      | none => keeperRefuse 0x0FAB s
      | some q => match presentBad s q i with
        | some d => keeperRefuse d s
        | none =>
          sendCommand { k with identity := resp } .authorise
            ([0x80, 0x88, 0, 0, 0, 0, 0x29] ++ challenge s q ++ [0, 0]) s

/-- The card's signature over the challenge has been verified (check 9 of R419). -/
def authoriseDone (k : KeeperRun) (resp : Bytes) (s : State) : State :=
  match collecting s, identityOf s k.identity with
  | some q, some i =>
    if mldsaVerifies s algMlDsa65 i.key (withContext "CQX18-QUORUM" (challenge s q)) (resp.take 3309) = false then
      keeperRefuse 0x0FAA s
    else
      let n := q.serials.length + 1
      let opens := decide ((threshold s q.purpose).toNat ≤ n)
      let q' : Session := { q with serials := q.serials ++ [i.serial], opened := opens,
                                   endsAt := if opens then s.clock.us + 300000000 else q.endsAt }
      let s := { s with cards := { s.cards with session := some q', cint := if opens then s.cards.cint ||| 4 else s.cards.cint } }
      keeperEnd (outOf stOk 0 (at64 0 (BitVec.ofNat 4 n) ||| at64 4 (if opens then 2#2 else 1#2) ||| at64 32 i.serial)) s
  | _, _ => keeperRefuse 0x0FAB s

/-! ### Blocks from the card -/

/-- The number that a Di code stands for (R413). -/
def diOf (c : BitVec 4) : Nat :=
  match c.toNat with
  | 8 => 12
  | 9 => 20
  | n => 2 ^ (n - 1)

/-- Microseconds of the block waiting time (R412, R415): 2^BWI × 960 × 372 clocks of 4 MHz, and 11 etu. -/
def bwtUs (s : State) : Nat :=
  2 ^ s.cards.bwi.toNat * 89280 + 11 * (if s.cards.fi = 9 then 512 else 372) / (4 * diOf s.cards.di)

/-- A signature of the exchange waits for the tile that verifies it (R419). -/
def askCheck (auth : Bool) (k : KeeperRun) (s : State) : State := setKeeper { k with stage := .checking auth, unit := none } s

/-- A response is whole. One whose form or status word is wrong is refused before a signature is looked at (checks 3, 8 and 9 of R419). -/
def responseDone (k : KeeperRun) (s : State) : State :=
  let sw := k.resp.drop (k.resp.length - 2)
  match k.stage with
  | .identity => if identityForm k.resp then askCheck false k s else keeperRefuse 0x0FA3 s
  | .authorise =>
    if sw = [0x69, 0x83] then keeperRefuse 0x0FA9 s
    else if k.resp.length ≠ 3315 ∨ sw ≠ [0x90, 0x00] then keeperRefuse 0x0FAA s
    else askCheck true k s
  | _ => s

/-- What follows a signature's verification. -/
def checkDone (auth : Bool) (k : KeeperRun) (s : State) : State :=
  if auth then authoriseDone k k.resp s else identityDone k k.resp s

/-- A fault of the tile that verifies a signature of the exchange, or the core's HALT: the verification runs again on another tile, and a second
fault ends the keeper job (R186, R383). -/
def keeperAgain (s : State) : State :=
  match s.cards.keeper with
  | none => s
  | some k =>
    if k.unit.isNone then s
    else if k.faults = 0 then
      let s := setKeeper { k with unit := none, faults := 1, avoid := k.unit } (leaveKeeper s)
      match s.job k.job with
      | some x => s.setJob { x with retried := true }
      | none => s
    else keeperEnd (outOf stFault 0x0216) s

/-- The tile that verifies a signature of a job's keeper exchange. -/
def keeperTile (s : State) (j : JobId) : Option (BitVec 6) :=
  (s.cards.keeper.filter (fun k => k.job == j)).bind (·.unit)

/-- A resynchronisation answered: the command goes again from its first block (R415). -/
def resynced (k : KeeperRun) (s : State) : State :=
  let k := { k with resyncing := false, resynced := true, asks := 0, ns := false, nr := false, rest := k.cmd, resp := [] }
  match k.stage with
  | .ifs => sendIfs k s
  | _ => sendI k s

/-- An I-block of the card's response. -/
def takeI (k : KeeperRun) (pcb : Byte) (inf : Bytes) (s : State) : State :=
  let sentAll := decide (k.rest.length ≤ ((k.last[2]?).getD 0).toNat) || k.rest.isEmpty
  if k.stage = .ifs ∨ sentAll = false ∨ pcb &&& 0x1F ≠ 0 ∨ pcb.getLsbD 6 ≠ k.nr then blockError k false s
  else
    let k := { k with ns := if k.rest.isEmpty then k.ns else !k.ns, rest := [], resp := k.resp ++ inf, nr := !k.nr, asks := 0 }
    if pcb.getLsbD 5 then t1Send k (t1Block (if k.nr then 0x90 else 0x80) []) s
    else responseDone k (setKeeper k s)

/-- An R-block of the card: it acknowledges a chained block, or asks for the last one again. -/
def takeR (k : KeeperRun) (pcb : Byte) (inf : Bytes) (s : State) : State :=
  let n := ((k.last[2]?).getD 0).toNat
  if inf ≠ [] then blockError k false s
  else if !k.rest.isEmpty ∧ n < k.rest.length ∧ pcb.getLsbD 4 ≠ k.ns ∧ pcb &&& 0x0F = 0 then
    sendI { k with ns := !k.ns, rest := k.rest.drop n, asks := 0 } s
  else if k.rest.isEmpty ∨ pcb.getLsbD 4 = k.ns then cardSend k.last s
  else blockError k false s

/-- A supervisory block of the card (R414). -/
def takeS (k : KeeperRun) (pcb : Byte) (inf : Bytes) (s : State) : State :=
  if pcb = 0xC3 ∧ inf.length = 1 then
    let t := k.wtxUs + (inf.headD 0).toNat * bwtUs s
    if t > 15000000 then keeperAbort 0x0FA1 s
    else cardSend (t1Block 0xE3 inf) (setKeeper { k with wtxUs := t, asks := 0 } s)
  else if pcb = 0xC1 ∧ inf.length = 1 ∧ inf ≠ [0] ∧ inf ≠ [0xFF] then
    cardSend (t1Block 0xE1 inf) (setKeeper { k with asks := 0 } { s with cards := { s.cards with ifsc := inf.headD 0 } })
  else if pcb = 0xC2 then keeperAbort 0x0FA1 s
  else if pcb = 0xE1 ∧ inf = [0xFE] ∧ k.stage = .ifs then
    sendCommand { k with asks := 0 } .identity [0x80, 0xCA, 0, 0, 0, 0, 0] s
  else blockError k false s

/-- A block has come from the card (R414, R415). -/
def cardBlock (b : Bytes) (s : State) : State :=
  match s.cards.keeper with
  | none => s
  | some k =>
    let speaking := match k.stage with
      | .atr => false
      | .pps _ => false
      | .checking _ => false
      | _ => true
    let pcb := t1Pcb b
    if speaking = false then s
    else if t1Good b = false then blockError k (t1Long b && xorSum b != 0) s
    else if k.resyncing then (if pcb = 0xE0 ∧ t1Inf b = [] then resynced k s else resynch k s)
    else if pcb.getLsbD 7 = false then takeI k pcb (t1Inf b) s
    else if pcb.getLsbD 6 then takeS k pcb (t1Inf b) s
    else takeR k pcb (t1Inf b) s

/-- A block does not come within BWT or CWT (R415). -/
def cardBlockTimeout (s : State) : State :=
  match s.cards.keeper with
  | none => s
  | some k => match k.stage with
    | .atr => s
    | .pps _ => s
    | .checking _ => s
    | _ => blockError k false s

/-- A keeper card comes (R411). -/
def keeperInsert (s : State) : State :=
  if s.cards.keeperIn then s else { s with cards := { s.cards with keeperIn := true, cint := s.cards.cint ||| 1 } }

/-- The keeper card leaves its socket (R415). -/
def keeperRemove (s : State) : State :=
  if s.cards.keeperIn = false then s
  else keeperAbort 0x0FA2 { s with cards := { s.cards with keeperIn := false, cint := s.cards.cint ||| 2 } }

/-- A session's time is over (R418). -/
def sessionExpiry (s : State) : State := sessionOver s

def execKeeperCardInsert (s : State) : Host.Outcome State Fault Refusal := act s (keeperInsert s)

def execKeeperCardRemove (s : State) : Host.Outcome State Fault Refusal := act s (keeperRemove s)

def execAtrReceive (atr : List Byte) (s : State) : Host.Outcome State Fault Refusal := act s (atrReceive atr s)

def execPpsResponse (pps : List Byte) (s : State) : Host.Outcome State Fault Refusal := act s (ppsResponse pps s)

def execCardBlockReceive (block : List Byte) (s : State) : Host.Outcome State Fault Refusal := act s (cardBlock block s)

def execCardBlockTimeout (s : State) : Host.Outcome State Fault Refusal := act s (cardBlockTimeout s)

def execCardWaitTimeout (s : State) : Host.Outcome State Fault Refusal := act s (cardWaitTimeout s)

def execQuorumSessionExpiry (s : State) : Host.Outcome State Fault Refusal := act s (sessionExpiry s)

/-! ### The card opcodes (R420) -/

/-- The opcodes that use the keeper socket (R421). -/
def keeperOps : List Nat := [0x0F61, 0x0F65, 0x0F67]

/-- A keeper job begins (R411): with no card in the socket it is refused. -/
def keeperStart (s : State) (x : Job) : Ran :=
  if s.cards.keeperIn = false then { state := s, out := some (outOf stBadField 0x0FA0) }
  else
    let k : KeeperRun := { job := x.id, second := false, stage := .atr, ns := false, nr := false, cmd := [], rest := [],
                           resp := [], last := [], asks := 0, resyncs := 0, resyncing := false, resynced := false,
                           wtxUs := 0, identity := [], unit := none, doneAt := 0, faults := 0, avoid := none }
    { state := activate k s, out := none }

/-- A keeper job waits for its socket (R421). -/
def keeperBusy (s : State) (x : Job) : Bool := earlierOf keeperOps s x || s.cards.keeper.isSome

/-- The authorisation of the custodian and threshold opcodes (R417). -/
def custAuthBad (s : State) (_ : Job) : Option Bad :=
  badWhen (!(inProvisioning s || (inField s && quorumOpen s 6))) (badField 0x0FAD)

/-- An operation that passed its check consumes the session in FIELD (R417). -/
def consume (s : State) (purpose : BitVec 3) : State :=
  if inField s && quorumOpen s purpose then endSession s else s

def custodianEnrolSpec : OpSpec :=
  { code := 0x0F61, admin := true,
    uses := fun _ => { param := 0x3F0F },
    blocked := keeperBusy,
    judge := custAuthBad,
    run := fun s x => keeperStart (consume s 6) x }

def custodianRemoveSpec : OpSpec :=
  { code := 0x0F62, admin := true,
    uses := fun _ => { param := 0x0F },
    judge := custAuthBad,
    run := fun s x =>
      let n := (bits x.desc.param 0 4).toNat
      let t := consume s 6
      if (custodian s n).isNone then { state := t, out := some (outOf stNoOutput 0) }
      else { state := t, out := some (outOf stOk 0), commits := [.custodian n none] } }

/-- The purpose and the threshold of QUORUM_SET and QUORUM_OPEN. -/
def quorumPurpose (d : Desc) : BitVec 3 := d.param.setWidth 3

def quorumSetSpec : OpSpec :=
  { code := 0x0F63, admin := true,
    uses := fun _ => { param := 0xF07 },
    fields := fun _ x =>
      let p := (quorumPurpose x.desc).toNat
      let t := (bits x.desc.param 8 4).toNat
      badWhen (p == 0 || p == 7 || t == 0 || decide (8 < t)) (badField 0x0FAF),
    judge := custAuthBad,
    run := fun s x =>
      { state := consume s 6, out := some (outOf stOk 0), commits := [.quorum (quorumPurpose x.desc) (bits x.desc.param 8 4)] } }

def quorumOpenSpec : OpSpec :=
  { code := 0x0F64, admin := true,
    uses := fun _ => { param := 7 },
    fields := fun _ x =>
      let p := (quorumPurpose x.desc).toNat
      badWhen (p == 0 || p == 7) (badField 0x0FAF),
    judge := fun s _ => badWhen (sessionNow s).isSome (badField 0x0FAC),
    draws := fun _ _ => .carafe 32,
    run := fun s x =>
      let (nonce, s) := carafeTake (sessionOver s) 32
      let q : Session := { purpose := quorumPurpose x.desc, opened := false, nonce := nonce, serials := [],
                           endsAt := s.clock.us + 600000000 }
      { state := { s with cards := { s.cards with session := some q, lastSerials := [] } }, out := some (outOf stOk 0) } }

def keeperPresentSpec : OpSpec :=
  { code := 0x0F65, admin := true,
    uses := fun _ => {},
    blocked := keeperBusy,
    run := fun s x =>
      if (collecting s).isNone then { state := s, out := some (outOf stBadField 0x0FAB) } else keeperStart s x }

def quorumCloseSpec : OpSpec :=
  { code := 0x0F66, admin := true,
    uses := fun _ => {},
    run := fun s _ =>
      if (sessionNow s).isNone then { state := s, out := some (outOf stNoOutput 0) }
      else { state := endSession s, out := some (outOf stOk 0) } }

def keeperIdentifySpec : OpSpec :=
  { code := 0x0F67,
    own3 := fun s x => badWhen (x.pitch != 0 && !bit s.cards.pitches x.pitch.toNat) (bad stBadOpcode 0x0FB0),
    uses := fun _ => { out := true },
    lengths := fun _ x => badWhen (decide (x.desc.outLen.toNat < 64)) (bad stLengthShort 0),
    blocked := keeperBusy,
    run := keeperStart }

def execCustodianEnrol (j : JobId) (s : State) : Host.Outcome State Fault Refusal := act s (startJob custodianEnrolSpec j s)

def execCustodianRemove (j : JobId) (s : State) : Host.Outcome State Fault Refusal := act s (startJob custodianRemoveSpec j s)

def execQuorumSet (j : JobId) (s : State) : Host.Outcome State Fault Refusal := act s (startJob quorumSetSpec j s)

def execQuorumOpen (j : JobId) (s : State) : Host.Outcome State Fault Refusal := act s (startJob quorumOpenSpec j s)

def execKeeperPresent (j : JobId) (s : State) : Host.Outcome State Fault Refusal := act s (startJob keeperPresentSpec j s)

def execQuorumClose (j : JobId) (s : State) : Host.Outcome State Fault Refusal := act s (startJob quorumCloseSpec j s)

def execKeeperIdentify (j : JobId) (s : State) : Host.Outcome State Fault Refusal := act s (startJob keeperIdentifySpec j s)

end Sys2Proof.Machine
end

