-- ==== Sys2Proof/Machine/Archive.lean ====
section
/-! DEFINITION. The archive card: its superblocks and segments, ARCHIVE_MOUNT, ARCHIVE_FORMAT and ARCHIVE_EXPORT (R422 to
R429). -/
namespace Sys2Proof.Machine

/-- A 512-byte block from its fields, with CRC-32C at 0x1F8 (R425). -/
def arcSeal (fields : Bytes) : Bytes :=
  let b := fit 0x1F8 fields
  b ++ wordBytes 4 (crc32c b) ++ zeros 4

/-- A superblock (R425). -/
def superBytes (m : ArcMount) : Bytes :=
  arcSeal (ascii "CQAR" ++ wordBytes 2 1#16 ++ zeros 2 ++ wordBytes 4 m.seq ++ wordBytes 8 m.formatId ++ wordBytes 8 m.uid ++
    wordBytes 4 m.nextLba ++ wordBytes 4 m.lastSeg ++ wordBytes 4 m.ledgerMark ++ wordBytes 4 m.evidenceMark)

/-- The next superblock, written where the one in force does not stand (R425). -/
def superNext (m : ArcMount) : ArcMount := { m with inB := !m.inB, seq := m.seq + 1 }

/-- The write of a superblock. -/
def superWrite (m : ArcMount) : Nat × Bytes := (if m.inB then 1 else 0, superBytes m)

/-! ### Segments (R425) -/

/-- A segment's header block. -/
def segHeader (s : State) (source : BitVec 8) (seq : BitVec 32) (id : BitVec 64) (first : Nat) (count : Nat) (gap : Bool) :
    Bytes :=
  arcSeal (ascii "CQSG" ++ wordBytes 2 1#16 ++ [source, 0] ++ wordBytes 4 seq ++ wordBytes 8 id ++ leBytes 4 first ++
    leBytes 2 count ++ leBytes 2 (if gap then 1 else 0) ++ wordBytes 4 (s.ledger.cycles.setWidth 32) ++ wordBytes 4 s.optime)

/-- A segment's commit block over its header and payload. -/
def segCommit (seq : BitVec 32) (id : BitVec 64) (body : Bytes) : Bytes :=
  arcSeal (ascii "CQCM" ++ zeros 4 ++ wordBytes 4 seq ++ wordBytes 8 id ++ (sha256 body).take 16)

/-- A byte string cut into blocks of 512. -/
def cut512 : Nat → Bytes → List Bytes
  | 0, _ => []
  | k + 1, b => fit 512 (b.take 512) :: cut512 k (b.drop 512)

/-- The blocks written from a block number on. -/
def blocksFrom : Nat → List Bytes → List (Nat × Bytes)
  | _, [] => []
  | n, b :: t => (n, b) :: blocksFrom (n + 1) t

/-- What stands for export from one source: the number of the first record, the records, and whether there is a gap
before them (R426). -/
structure Outstanding where
  first   : Nat
  records : List Bytes
  gap     : Bool

/-- The Ledger records above the mark (R426). -/
def ledgerOutstanding (s : State) (m : ArcMount) : Outstanding :=
  let base := s.ledger.total.toNat - s.ledger.slots.length
  let from_ := max m.ledgerMark.toNat base
  { first := from_ + 1, records := (s.ledger.slots.drop (from_ - base)).map slotBytes,
    gap := decide (m.ledgerMark.toNat < base) }

/-- The Evidence entries from the mark on (R426). -/
def evidenceOutstanding (s : State) (m : ArcMount) : Outstanding :=
  let es := s.nv.evidence.filter (fun e => !e.torn && decide (m.evidenceMark.toNat ≤ e.seq.toNat))
  { first := m.evidenceMark.toNat, records := es.map (fun e => evidenceBytes e.seq e.entry e.chain), gap := false }

/-- What an export has made so far: the mount it leaves, its write commands by segments, its counts, and whether a segment did not fit. -/
structure Export where
  mount    : ArcMount
  writes   : List (List (List (Nat × Bytes)))
  records  : Nat
  segments : Nat
  full     : Bool

/-- Segments of up to 4,096 records until nothing is outstanding (R427, R429). -/
def exportGo (s : State) (sectors : Nat) (evid : Bool) : Nat → Outstanding → Export → Export
  | 0, _, e => e
  | k + 1, o, e =>
    if o.records.isEmpty ∨ e.full then e
    else
      let rs := o.records.take 4096
      let n := rs.length
      let pay := ceilDiv n 8
      let lba := e.mount.nextLba.toNat
      if lba + pay + 2 > sectors then { e with full := true }
      else
        let seq := e.mount.lastSeg + 1
        let head := segHeader s (if evid then 2 else 1) seq e.mount.formatId o.first n o.gap
        let body := head :: cut512 pay rs.flatten
        let m := superNext { e.mount with
          nextLba := BitVec.ofNat 32 (lba + pay + 2), lastSeg := seq,
          ledgerMark := if evid then e.mount.ledgerMark else BitVec.ofNat 32 (o.first + n - 1),
          evidenceMark := if evid then BitVec.ofNat 32 (o.first + n) else e.mount.evidenceMark }
        let ws := [blocksFrom lba body, [(lba + pay + 1, segCommit seq e.mount.formatId body.flatten)], [superWrite m]]
        exportGo s sectors evid k { first := o.first + n, records := o.records.drop 4096, gap := false }
          { mount := m, writes := e.writes ++ [ws], records := e.records + n, segments := e.segments + 1, full := false }

/-! ### The opcodes (R429) -/

/-- The opcodes that use the archive socket (R421). -/
def archiveOps : List Nat := [0x0F68, 0x0F69, 0x0F6A]

/-- An archive job at work, which has given `n` write commands since the card came: its writes reach the card by the time it completes. -/
def arcRun (s : State) (x : Job) (n : Nat) (ws : List (Nat × Bytes)) (m : Option ArcMount) (o : JobOut) (protect : Bool := false) : Ran :=
  let w : ArcWork := { job := x.id, writes := ws, mount := m, protect := protect }
  { state := { s with cards := { s.cards with arcWork := some w, arcGiven := n } },
    out := some o, commits := [.archived] }

/-- A job that ends with no work. -/
def arcEnd (s : State) (o : JobOut) : Ran := { state := s, out := some o }

/-- How the write commands of a job end: all are given; SD_WP is high before one (R424, R432); a card's CRC status token is not 0b010
(R427), for the command that it says. -/
inductive Given where
  | all
  | protect
  | token (cmd : List (Nat × Bytes))
  deriving DecidableEq, Repr

/-- Write commands given from the `n`-th on since the card came, as far as that goes: how many have been given then, how it ends, and the blocks that they
wrote. -/
def giveCmds (c : ArcCard) : Nat → List (List (Nat × Bytes)) → Nat × Given × List (Nat × Bytes)
  | n, [] => (n, .all, [])
  | n, w :: t =>
    if wpHigh c n then (n, .protect, [])
    else if c.badTokens.contains n then (n + 1, .token w, [])
    else
      let (m, g, ws) := giveCmds c (n + 1) t
      (m, g, w ++ ws)

/-- What of a command has been written whose token was wrong, which is open (log 71). -/
def partOf (c : ArcCard) (w : List (Nat × Bytes)) (s : State) : List (Nat × Bytes) × State :=
  let (a, s) := drawFree s
  let (b, s) := drawFree s
  (writesCut c w a b, s)

/-- A segment's write commands (R427): after a wrong token all of them are given once more, from its header; a second one ends the job. -/
def giveGroup (c : ArcCard) (n : Nat) (g : List (List (Nat × Bytes))) (s : State) : Nat × Given × List (Nat × Bytes) × State :=
  match giveCmds c n g with
  | (m, .token w, ws) =>
    let (p, s) := partOf c w s
    match giveCmds c m g with
    | (k, .token v, us) =>
      let (q, s) := partOf c v s
      (k, .token v, ws ++ p ++ us ++ q, s)
    | (k, e, us) => (k, e, ws ++ p ++ us, s)
  | (m, e, ws) => (m, e, ws, s)

/-- The segments of a job, until one is not written whole. -/
def giveGroups (c : ArcCard) : Nat → List (List (List (Nat × Bytes))) → State → Nat × Given × List (Nat × Bytes) × State
  | n, [], s => (n, .all, [], s)
  | n, g :: t, s =>
    match giveGroup c n g s with
    | (m, .all, ws, s) =>
      let (k, e, us, s) := giveGroups c m t s
      (k, e, ws ++ us, s)
    | r => r

/-- The write commands of a job, by segments. SD_WP is sampled before each: once it is high, no other is given (R424, R432), and the card
stays mounted, read-only, with what it holds. A second wrong token ends the job with ARC_WRITE (R427). -/
def arcWrites (s : State) (x : Job) (c : ArcCard) (cmds : List (List (List (Nat × Bytes)))) (m : Option ArcMount) (o : JobOut) : Ran :=
  match giveGroups c s.cards.arcGiven cmds s with
  | (n, .all, ws, s) => arcRun s x n ws m o
  | (n, .protect, ws, s) =>
    arcRun s x n ws ((remount s (cardWith ws c)).map (fun (y : ArcMount) => { y with readonly := true })) (outOf stBadField 0x0FB3) true
  | (n, .token _, ws, s) => arcRun s x n ws (remount s (cardWith ws c)) (outOf stAborted 0x0FBA)

def archiveMountRun (s : State) (x : Job) : Ran :=
  match s.cards.arcCard with
  | none => arcEnd s (outOf stBadField 0x0FB1)
  | some c =>
    if s.cards.arcMount.isSome then arcEnd s (outOf stNoOutput 0)
    else if arcInitOk c = false then arcEnd s (outOf stAborted 0x0FB2)
    else match superNow s c with
      | none => arcEnd s (outOf stBadField 0x0FB8)
      | some m =>
        if m.foreign then arcRun s x s.cards.arcGiven [] (some m) (outOf stOk 0 (at64 0 m.nextLba))
        else
          let t := scanGo c (c.blocks.length + 1) m
          if t = m ∨ arcReadonly s c then arcRun s x s.cards.arcGiven [] (some t) (outOf stOk 0 (at64 0 t.nextLba))
          else
            let t := superNext t
            arcWrites s x c [[[superWrite t]]] (some t) (outOf stOk 0 (at64 0 t.nextLba))

def archiveMountSpec : OpSpec :=
  { code := 0x0F68, admin := true,
    uses := fun _ => {},
    blocked := earlierOf archiveOps,
    run := archiveMountRun }

def archiveFormatRun (s : State) (x : Job) : Ran :=
  match s.cards.arcCard with
  | none => arcEnd s (outOf stBadField 0x0FB1)
  | some c =>
    if arcInitOk c = false then arcEnd s (outOf stAborted 0x0FB2)
    else if arcReadonly s c then arcEnd s (outOf stBadField 0x0FB3)
    else
      let (r, s) := draw s 0 8
      let m : ArcMount :=
        { readonly := false, wide := arcWide c, highSpeed := arcFast c, foreign := false, inB := false, seq := 1,
          formatId := BitVec.ofNat 64 (leNat r), uid := s.dev.uid, nextLba := 2048, lastSeg := 0,
          ledgerMark := s.ledger.total - BitVec.ofNat 32 s.ledger.slots.length, evidenceMark := 0 }
      arcWrites s x c [[[superWrite m], [(1, zeros 512)]]] (some m) (outOf stOk 0)

def archiveFormatSpec : OpSpec :=
  { code := 0x0F69, admin := true,
    uses := fun _ => { param := 0xFFFFFFFF00000000 },
    fields := fun _ x => badWhen (bits x.desc.param 32 32 != 0x41524348#32) (badField 0x0FB9),
    blocked := earlierOf archiveOps,
    draws := fun _ _ => .call,
    run := archiveFormatRun }

def archiveExportRun (s : State) (x : Job) : Ran :=
  match s.cards.arcCard, s.cards.arcMount with
  | some c, some m =>
    let evid := bit x.desc.param 0
    let s := if evid then s else { s with ledger := tallyWrite s.ledger }
    let o := if evid then evidenceOutstanding s m else ledgerOutstanding s m
    if m.foreign then arcEnd s (outOf stBadField 0x0FB4)
    else if o.records.isEmpty then arcEnd s (outOf stNoOutput 0)
    else if m.readonly || arcReadonly s c then arcEnd s (outOf stBadField 0x0FB3)
    else
      let e := exportGo s (arcSectors c) evid (o.records.length / 4096 + 1) o
        { mount := m, writes := [], records := 0, segments := 0, full := false }
      let out := if e.full then outOf stBadField 0x0FB5
                 else outOf stOk 0 (at64 0 (BitVec.ofNat 32 e.records) ||| at64 32 (BitVec.ofNat 32 e.segments))
      arcWrites s x c e.writes (some e.mount) out
  | _, _ => arcEnd s (outOf stBadField 0x0FB1)

def archiveExportSpec : OpSpec :=
  { code := 0x0F6A, admin := true,
    uses := fun _ => { param := 1 },
    blocked := earlierOf archiveOps,
    run := archiveExportRun }

def execArchiveMount (j : JobId) (s : State) : Host.Outcome State Fault Refusal := act s (startJob archiveMountSpec j s)

def execArchiveFormat (j : JobId) (s : State) : Host.Outcome State Fault Refusal := act s (startJob archiveFormatSpec j s)

def execArchiveExport (j : JobId) (s : State) : Host.Outcome State Fault Refusal := act s (startJob archiveExportSpec j s)

/-! ### Events of the archive socket -/

/-- A card comes (R422). -/
def arcInsert (c : ArcCard) (s : State) : State :=
  if s.cards.arcCard.isSome then s
  else
    let bs : Tab Bytes := c.blocks.foldl (fun t w => Tab.set (zeros 512) w.1 (fit 512 w.2) t) []
    { s with cards := { s.cards with arcCard := some { c with blocks := bs }, arcGiven := 0, cint := s.cards.cint ||| 0x10 } }

/-- The running archive job ends (R427). -/
def arcJobEnds (d : BitVec 16) (only : List Nat) (s : State) : State :=
  match s.jobs.find? (fun x => x.phase = .running ∧ archiveOps.contains x.desc.opcode.toNat) with
  | none => s
  | some x => if only.contains x.desc.opcode.toNat then breakJob s x stAborted d else s

/-- The card is pulled (R427): it is unmounted. -/
def arcRemove (s : State) : State :=
  if s.cards.arcCard.isNone then s
  else
    let s := arcJobEnds 0x0FB6 archiveOps s
    { s with cards := { s.cards with arcCard := none, arcMount := none, cint := s.cards.cint ||| 0x20 } }

/-- Busy lasts beyond 250 ms (R427). -/
def arcBusyTimeout (s : State) : State :=
  match s.cards.arcWork with
  | none => s
  | some w => if w.writes.isEmpty then s else arcJobEnds 0x0FB7 archiveOps s

/-- The card is not ready within 1 s of ACMD41 (R422). -/
def arcReadyTimeout (s : State) : State := if s.cards.arcMount.isSome then s else arcJobEnds 0x0FB2 [0x0F68, 0x0F69] s

def execArcCardInsert (c : ArcCard) (s : State) : Host.Outcome State Fault Refusal := act s (arcInsert c s)

def execArcCardRemove (s : State) : Host.Outcome State Fault Refusal := act s (arcRemove s)

def execArcBusyTimeout (s : State) : Host.Outcome State Fault Refusal := act s (arcBusyTimeout s)

def execArcReadyTimeout (s : State) : Host.Outcome State Fault Refusal := act s (arcReadyTimeout s)

end Sys2Proof.Machine
end

