-- ==== Sys2Proof/Machine/Ledger.lean ====
section
/-! DEFINITION. LEDGER_READ and LEDGER_CLEAR, and the Ledger's own writes (R400 to R408). -/
namespace Sys2Proof.Machine

/-- LEDGER_READ's first slot. -/
def ledgerFirst (d : Desc) : Nat := (bits d.param 0 14).toNat

/-- OUT_LEN of LEDGER_READ and EVIDENCE_READ: a multiple of 64 from 64 to 4,096. -/
def readLenOk (n : Nat) : Bool := n % 64 == 0 && decide (64 ≤ n) && decide (n ≤ 4096)

/-- The slot of the last valid record. -/
def lastIx (l : Ledger) : Nat :=
  match l.slots.reverse.findIdx? (fun r => r.torn = false) with
  | some i => l.slots.length - 1 - i
  | none => l.slots.length

/-- Slots read from the first one onwards (R406); a pending fold is written before the record that holds it is read. -/
def ledgerReadRun (s : State) (x : Job) : Ran :=
  let first := ledgerFirst x.desc
  let k := x.desc.outLen.toNat / 64
  let s := if lastIx s.ledger < first + k then { s with ledger := tallyWrite s.ledger } else s
  let rs := (s.ledger.slots.drop first).take k
  if rs.isEmpty then { state := s, out := some (outOf stNoOutput 0) }
  else { state := s, out := some { outOf stOk 0 (at64 0 (BitVec.ofNat 16 rs.length)) with output := rs.flatMap slotBytes } }

def ledgerReadSpec : OpSpec :=
  { code := 0x0F50, admin := true,
    uses := fun _ => { param := BitVec.allOnes 64, out := true },
    own6 := fun d => badWhen (d.param >>> 14 != 0) (badField 0x0F90),
    lengths := fun _ x => badWhen (!readLenOk x.desc.outLen.toNat) (badLength 0x0F91),
    blocked := fun s _ => nvHeld s && s.ledger.pending != 0,
    run := ledgerReadRun }

/-- Checks 2 and 3 of R407. -/
def ledgerClearBad (s : State) (_ : Job) : Option Bad :=
  firstBad [badWhen (journalOpen s.nv.clear) (badField 0x0F94),
            badWhen (inField s && !quorumOpen s 2) (badField 0x0F93)]

/-- Steps 1 and 2 of R408. -/
def ledgerClearRun (s : State) (x : Job) : Ran :=
  let serials := ((if inField s then (sessionNow s).map (·.serials) else none).getD []) ++ [0, 0]
  let s := consume s 2
  let l := tallyWrite s.ledger
  let detail := leBytes 2 l.slots.length ++ wordBytes 4 l.total ++ wordBytes 4 l.lost ++
    (serials.take 2).flatMap (wordBytes 4)
  { state := { s with ledger := { l with clearing := true, clearJob := some x.id },
                      nv := { s.nv with clear := journalWrite 1 0 detail s.nv.clear } },
    out := some (outOf stOk 0), commits := [.cleared] }

def ledgerClearSpec : OpSpec :=
  { code := 0x0F51, admin := true,
    uses := fun _ => { param := 0xFFFFFFFF00000000 },
    fields := fun _ x => badWhen (bits x.desc.param 32 32 != 0x4C454447#32) (badField 0x0F92),
    blocked := fun s x => earlierOf [0x0F50, 0x0F6A] s x || nvHeld s,
    judge := ledgerClearBad,
    run := ledgerClearRun }

def execLedgerRead (j : JobId) (s : State) : Host.Outcome State Fault Refusal := act s (startJob ledgerReadSpec j s)

def execLedgerClear (j : JobId) (s : State) : Host.Outcome State Fault Refusal := act s (startJob ledgerClearSpec j s)

/-- The non-volatile die can be written: it is powered, and its rails are in their windows (R384). -/
def nvReady (s : State) : Bool := !nvHeld s && s.dev.phase != .unpowered

/-- The next waiting event written to its slot (R403); a clear in progress holds events in the queue (R408). -/
def ledgerRecordWrite (s : State) : State := if nvReady s && !s.ledger.clearing then writeHead s else s

/-- The pending tally written (R402). -/
def ledgerTallyWrite (s : State) : State :=
  if nvReady s && !s.ledger.clearing then { s with ledger := tallyWrite s.ledger } else s

/-- The operating time saved to the copy whose turn it is (R400). -/
def optimeSave (s : State) : State :=
  if nvReady s = false then s
  else if s.nv.optimeNext then { s with nv := { s.nv with optimeB := some s.optime, optimeNext := false } }
  else { s with nv := { s.nv with optimeA := some s.optime, optimeNext := true } }

def execLedgerRecordWrite (s : State) : Host.Outcome State Fault Refusal := act s (ledgerRecordWrite s)

def execLedgerTallyWrite (s : State) : Host.Outcome State Fault Refusal := act s (ledgerTallyWrite s)

def execOptimeSave (s : State) : Host.Outcome State Fault Refusal := act s (optimeSave s)

end Sys2Proof.Machine
end

