-- ==== Sys2Proof/Machine/LinkOps.lean ====
section
/-! DEFINITION. What the loss of a Prokai Link, and of a process-bus link, does to the work that used it (R286, R316, R437,
R441, R444). -/
namespace Sys2Proof.Machine

/-- A link of the part. -/
def State.link (s : State) (k : BitVec 2) : Option Link := s.links.link[k.toNat]?

/-- A link replaced. -/
def State.setLink (s : State) (k : BitVec 2) (l : Link) : State :=
  { s with links := { s.links with link := s.links.link.set k.toNat l } }

/-- LINK_INT bits set (R445). -/
def linkInt (b : BitVec 5) (s : State) : State := { s with links := { s.links with lint := s.links.lint ||| b } }

/-- A link without a session: its peer, keys and handshake forgotten. -/
def bareLink (l : Link) (st : LinkState) : Link :=
  { l with state := st, lanes := 0, peerUid := 0, step := 0, transcript := [], peerKey := [], secret := [],
           ephemeral := [], keys := none, rekeying := false, load := [], loadFull := false, peerHolds := [],
           retrains := if st = .training then satAdd l.retrains 1 else l.retrains }

/-- A FLOW_STANDBY that waits for the answer of a part. -/
def asksPart (part : BitVec 2) (x : Job) : Bool :=
  x.desc.opcode == 0x0C07 && x.phase == .running && x.out.isNone && ctxPart x.desc == part

/-- A job that was at a lost peer and whose result has not returned: a spilled one runs again here (R441), a forwarded one ends (R438), a FLOW_STANDBY is refused
(R443). -/
def lostAt (k : BitVec 2) (s : State) (x : Job) : State :=
  if asksPart (peerPart s k) x then refuseJob s x { status := stBadField, detail := 0x0C6D }
  else if x.forwarded ≠ some k ∨ x.phase ≠ .running ∨ x.out.isSome then s
  else if x.spilled then
    s.setJob { x with phase := .waiting, forwarded := none, spilled := false, units := [], out := none, commits := [],
                      retried := true }
  else breakJob s x stAborted 0x0FC0

/-- The standbys of flows of a part become active (R444). -/
def takeOver (part : BitVec 2) (s : State) : State :=
  let mine (f : Flow) : Bool := !f.active && (f.standby.map (·.1)) == some part
  let t := mapFlows (fun f => if mine f then { f with active := true, takeover := true, tracking := true } else f) s
  if someFlow mine s then linkInt 8 t else t

/-- A link leaves its state for another that is not UP: a peer that was UP is lost (R437). -/
def dropLink (k : BitVec 2) (st : LinkState) (s : State) : State :=
  match s.link k with
  | none => s
  | some l =>
    let s := s.setLink k (bareLink l st)
    if l.state ≠ .up then s
    else
      let s := s.jobs.foldl (lostAt k) s
      linkInt 2 (takeOver (peerPart s k) s)

/-- Every link leaves its state for training or for rest (R437, R465). -/
def dropLinks (st : LinkState) (s : State) : State :=
  [0#2, 1#2, 2#2].foldl (fun s k => match s.link k with
    | some l => if l.state = .refused then s else dropLink k st s
    | none => s) s

/-- A port takes its link down and trains again: what waits for it in the egress buffer is lost (R286). -/
def dropPort (p : Port) : Port :=
  { p with link := false, eqAdapted := false, anDone := false, fecLock := false, backlog := 0,
           linkChange := p.linkChange || p.link }

end Sys2Proof.Machine
end

