-- ==== Sys2Proof/Machine/Alarm.lean ====
section
/-! DEFINITION. Alarm sources, responses and their floors, double decisions, the destroy line and the lock, the battery
domain's watch, ALARM_UNLOCK and EVIDENCE_READ (R380 to R395). -/
namespace Sys2Proof.Machine

/-! ### Sources (R380) -/

/-- The sources in the order of ALM_SRC. -/
def allSources : List AlarmSource :=
  [.vgCore, .vgSram, .vgIo, .vgSerdes, .vgNv, .vbatLow, .temp, .light, .mesh, .loop0, .loop1, .loop2, .loop3, .lid,
   .dualRail, .storeEcc, .hallCopy, .dataEcc, .engineFcm, .vaultIntegrity, .rngMain, .rngMask, .decision, .lcDecode]

/-- The index of a source in ALM_SRC. -/
def sourceIx (i : AlarmSource) : Nat := (allSources.findIdx? (· == i)).getD 0

/-- The code of a source. -/
def sourceCode : AlarmSource → BitVec 16
  | .vgCore => 0x0001
  | .vgSram => 0x0002
  | .vgIo => 0x0003
  | .vgSerdes => 0x0004
  | .vgNv => 0x0005
  | .vbatLow => 0x0006
  | .temp => 0x0010
  | .light => 0x0020
  | .mesh => 0x0021
  | .loop0 => 0x0022
  | .loop1 => 0x0023
  | .loop2 => 0x0024
  | .loop3 => 0x0025
  | .lid => 0x0026
  | .dualRail => 0x0030
  | .storeEcc => 0x0031
  | .hallCopy => 0x0032
  | .dataEcc => 0x0033
  | .engineFcm => 0x0034
  | .vaultIntegrity => 0x0035
  | .rngMain => 0x0040
  | .rngMask => 0x0041
  | .decision => 0x0050
  | .lcDecode => 0x0051

/-- The default response of a source: 0 NOTE, 1 HALT, 2 LOCK, 3 ERASE. -/
def sourceDefault : AlarmSource → BitVec 2
  | .vbatLow => 0
  | .lid => 0
  | .rngMain => 0
  | .rngMask => 0
  | .light => 2
  | .loop0 => 2
  | .loop1 => 2
  | .loop2 => 2
  | .loop3 => 2
  | .decision => 2
  | .lcDecode => 2
  | .mesh => 3
  | _ => 1

/-- The columns of the floor table (R385). -/
inductive LifeClass where
  | open_ | testLocked | provisioning | field | closed
  deriving DecidableEq, Repr

/-- The column of a life-cycle state code (R361, R385). -/
def lifeClass (c : BitVec 5) : LifeClass :=
  let n := c.toNat
  if (1 ≤ n ∧ n ≤ 8) ∨ n = 0x13 then .open_
  else if 9 ≤ n ∧ n ≤ 0x10 then .testLocked
  else if n = 0x11 then .provisioning
  else if n = 0x12 then .field
  else .closed

/-- The floor of a source (R385). -/
def sourceFloor (l : LifeClass) : AlarmSource → BitVec 2
  | .mesh => match l with
    | .open_ => 0
    | .testLocked => 0
    | .provisioning => 2
    | .field => 3
    | .closed => 2
  | .light => guard l
  | .loop0 => guard l
  | .loop1 => guard l
  | .loop2 => guard l
  | .loop3 => guard l
  | .vgCore => supply l
  | .vgSram => supply l
  | .vgIo => supply l
  | .vgSerdes => supply l
  | .vgNv => supply l
  | .temp => supply l
  | .decision => 2
  | .lcDecode => 2
  | .vbatLow => 0
  | .lid => 0
  | .rngMain => 0
  | .rngMask => 0
  | _ => 1
where
  /-- LIGHT and the loops. -/
  guard : LifeClass → BitVec 2
    | .field => 2
    | .closed => 2
    | _ => 0
  /-- The rails and Tj. -/
  supply : LifeClass → BitVec 2
    | .open_ => 0
    | _ => 1

/-- The greater of two responses. -/
def maxResp (a b : BitVec 2) : BitVec 2 := if a.toNat < b.toNat then b else a

/-- The response that the plan or the default gives a source, before the floor (R45). -/
def planResponse (s : State) (i : AlarmSource) : BitVec 2 :=
  match s.plan.inForce.bind (fun p => p.alarms.find? (fun e => e.1 = sourceCode i)) with
  | some e => e.2
  | none => sourceDefault i

/-- The floor in force of a source. -/
def floorNow (s : State) (i : AlarmSource) : BitVec 2 := sourceFloor (lifeClass s.life.inForce) i

/-- The response in force for a source (R45, R385). -/
def responseOf (s : State) (i : AlarmSource) : BitVec 2 := maxResp (planResponse s i) (floorNow s i)

/-- A source's record. -/
def State.source (s : State) (i : AlarmSource) : Source := Tab.get sourceInit (sourceIx i) s.alarm.sources

/-- A source's record replaced. -/
def State.setSource (s : State) (i : AlarmSource) (x : Source) : State :=
  { s with alarm := { s.alarm with sources := Tab.set sourceInit (sourceIx i) x s.alarm.sources } }

/-- ALM_INT bits set (R396). -/
def alarmInt (b : BitVec 5) (s : State) : State := { s with alarm := { s.alarm with aint := s.alarm.aint ||| b } }

/-! ### Records (R383, R394) -/

/-- The DETAIL layout of R394. -/
def tripDetail (v : TripReading) : Bytes :=
  wordBytes 2 v.measured ++ wordBytes 2 v.threshold ++ wordBytes 2 v.tracked ++ [v.unit]

/-- A trip of no measured value, in a unit of the part. -/
def unitReading (u : BitVec 8) : TripReading := { measured := 0, threshold := 0, tracked := 0, unit := u, agreesA := true }

/-- FLAGS of a source's entry: FLOOR_APPLIED and COMBINED. -/
def tripFlags (s : State) (i : AlarmSource) (combined : Bool) : BitVec 8 :=
  (if (planResponse s i).toNat < (floorNow s i).toNat then 4 else 0) ||| (if combined then 8 else 0)

/-- A source's Evidence Log entry; one at HALT is left out within 1 s of the last (R387, R394). -/
def tripEvidence (i : AlarmSource) (v : TripReading) (r : BitVec 2) (combined : Bool) (s : State) : State :=
  let x := s.source i
  let recent := match x.entryAt with
    | some t => decide (s.clock.us ≤ t + 1000000)
    | none => false
  if r = 0 ∨ (r = 1 ∧ recent = true) then s
  else
    let s := s.setSource i { x with entryAt := some s.clock.us }
    evidence (sourceCode i) (tripFlags s i combined) (tripDetail v) s

/-! ### HALT (R383) -/

/-- The job runs on a tile or an engine. -/
def onUnits (x : Job) : Bool :=
  x.phase == .running && x.units.any (fun u => match u with
    | .tile _ => true
    | .engine _ => true
    | _ => false)

/-- A job computes on the self-timed core: on a tile or an engine, in the vault or in the RNG block, the units that R17 covers (DEDUCED, log
72). -/
def onCore (x : Job) : Bool :=
  onUnits x || (x.phase == .running && x.units.contains .core && [0x0A, 0x0B].contains (x.desc.opcode >>> 8).toNat)

/-- A job's fault (R186, R280, R383): its units are cleared and it waits to run once more, on other units where some are
free, before the jobs that wait; a fault of the second run ends it. A stateful signature that has its index signs the same message
again (R205). -/
def faultJob (detail : BitVec 16) (avoid : List Unit_) (s : State) (x : Job) : State :=
  if x.faults ≥ 1 then breakJob s x stFault detail
  else
    let s := endRaw (x.units.foldl leaveUnit (askAbort s x)) x.id
    s.setJob { x with phase := .waiting, units := [], avoid := avoid, out := none, commits := [],
                      input := if x.id.src = 0 ∧ (x.kept.bind (·.2)).isNone then none else x.input,
                      retried := true, faults := x.faults + 1, front := true, stall := none, bn := none }

/-- Ports and links retrain (VG_SERDES under R383): those whose SerDes they are, which a rail does not tell apart. The frames in flight on a
port that was up are lost and counted as received FCS errors: how many there are is open (log 1). -/
def retrainSerdes (s : State) : State :=
  let s := dropLinks .training s
  let (k, s) := drawFree s
  let lost (p : Port) : Port := if p.link then { p with counters := p.counters.set 1 (satAdd ((p.counters[1]?).getD 0) k) } else p
  { s with stream := { s.stream with ports := s.stream.ports.map (fun p => if p.cfg.enable then dropPort (lost p) else p) } }

/-- VG_IO ends the exchanges in progress (R383): with a keeper card; with an archive card, whose job ends as a keeper job does (DEDUCED, log
72); and the monitor's rate trial. -/
def endExchanges (s : State) : State :=
  let s := keeperAbort 0x0FA1 s
  let s := match s.cards.arcWork.bind (fun w => s.job w.job) with
    | some x => breakJob s x stAborted 0x0FA1
    | none => s
  { s with life := { s.life with baudNew := none, baudSwitched := false } }

/-- What computes on the core is stopped and runs again (R383): the jobs, and the verification of a keeper's signature. -/
def stopCore (s : State) : State := (s.jobs.filter onCore).foldl (faultJob 0x0216 []) (keeperAgain s)

/-- What HALT does for a source. VG_NV ends the writes in progress to the non-volatile die, which are repeated: what a Ledger write leaves
behind is what a power cut would (R398, R402), and a write that the model makes in one step is made by the command that is still to come.
The internal sources act in the commands of their faults. -/
def haltEffect (i : AlarmSource) (s : State) : State :=
  match i with
  | .vgCore => stopCore s
  | .vgSram => stopCore s
  | .temp => stopCore s
  | .vgIo => endExchanges s
  | .vgSerdes => retrainSerdes s
  | .vgNv => cutRecord s
  | _ => s

/-! ### LOCK and ERASE -/

/-- A job that runs when LOCK falls (R77); one spilled here goes back as lost (R446). -/
def lockJob (s : State) (x : Job) : State :=
  let s := askAbort s x
  if x.spilled ∧ x.id.src ≠ 0 then breakJob s x stAborted 0x0FC0 else breakJob s x stAborted 0x0023

/-- A descriptor that has not started when LOCK falls is judged again (R77). -/
def judgeJob (s : State) (x : Job) : State :=
  match stateBad s x.desc.opcode with
  | some b => refuseJob s x b
  | none => s

/-- Porter programs that running jobs started are halted with them. -/
def haltStarted (s : State) : State :=
  (Tab.keysWhere (fun _ c => match c.run with
    | some r => r.job.isSome
    | none => false) s.porter).foldl (fun s n => haltChannel s (BitVec.ofNat 6 n)) s

/-- LOCK falls (R77, R383, R386): the latch is set with its source, and what runs ends. -/
def lockNow (code : BitVec 16) (s : State) : State :=
  if s.battery.lockLatch then s
  else
    let s := alarmInt 2 (setPins [(.tamperOutN, false)] (writeFile (fun b => { b with lockLatch := true, lockSource := code }) s))
    let s := haltStarted s
    let s := (s.jobs.filter (fun x => x.phase = .running ∨ x.phase = .suspended ∨ x.phase = .storing)).foldl lockJob s
    (s.jobs.filter (fun x => x.phase = .waiting)).foldl judgeJob s

/-- A keyed DIGEST context (R221). -/
def keyedDigest (c : Context) : Bool :=
  c.kind == 0x0101 && (match c.data with
    | .bytes b => ((b[4]?).getD 0).getLsbD 0
    | _ => false)

/-- A flow without its key material (R351). -/
def bareFlow (f : Flow) : Flow :=
  { f with keyA := [], keyB := [], retiredA := none, retiredB := none, graceEnd := none,
           record := { f.record with a := flowEntryInit, b := flowEntryInit } }

/-- A context after the destroy line (R351). -/
def destroyContext (c : Option Context) : Option Context :=
  match c with
  | some x => if keyedDigest x then some { x with kind := 0, data := .empty } else mapFlow bareFlow (some x)
  | none => none

/-- The root key and its check value zeroed (R351), with the core powered or not: the records on the non-volatile die
cannot be read from then on. -/
def zeroRoot (s : State) : State := writeFile (fun b => { b with rootKey := none }) s

/-- The destroy line (R351). -/
def destroyLine (s : State) : State :=
  let s := zeroRoot s
  let s := { s with
    vault := { s.vault with slots := [], freed := [], returned := [], tagKey := [], rootValid := false, destroyed := true },
    contexts := Tab.mapVals none (fun _ c => destroyContext c) s.contexts,
    rng := { s.rng with drbgs := [], requests := [] },
    alarm := { s.alarm with erased := true } }
  dropLinks .training s

/-- A response of LOCK or above acts (R383, R387): ERASE fires the line after the lock. -/
def actHigh (code : BitVec 16) (r : BitVec 2) (s : State) : State :=
  let s := lockNow code s
  if r = 3 then destroyLine s else s

/-! ### Trips (R383, R387, R388) -/

/-- The reading outside its window that a source reports (R384). -/
def badReading (i : AlarmSource) (v : TripReading) : Option Monitor :=
  match i with
  | .vgCore => some .vcore
  | .vgSram => some .vsram
  | .vgIo => some .vddio
  | .vgSerdes => some (if v.unit = 4 then .serdesH else .serdesL)
  | .vgNv => some (if v.unit = 6 then .nvH else .nvL)
  | .vbatLow => some .vbat
  | .temp => some .tj
  | _ => none

/-- Two readings lie further apart than a deviation allows. -/
def departs (d x y : Nat) : Bool := decide (x + d < y ∨ y + d < x)

/-- What a detector reports, with the tracked value that the part keeps of the rail or of Tj (R381, R382); before the first reading, the one
reported. -/
def keptReading (s : State) (i : AlarmSource) (v : TripReading) : TripReading :=
  match badReading i v with
  | some .tj => match s.alarm.tjAcc with
    | some a => { v with tracked := BitVec.ofInt 16 (a / 3000000) }
    | none => v
  | some m => match railIx m with
    | some n => if trackedMv s n = 0 then v else { v with tracked := BitVec.ofNat 16 (trackedMv s n) }
    | none => v
  | none => v

/-- A reading lies outside its window: of a rail in mV (R381), of Tj in quarter degrees (R382). -/
def outside (m : Monitor) (v : TripReading) : Bool :=
  match railWindow m with
  | some (d, lo, hi) =>
    decide (v.measured.toNat < lo ∨ hi < v.measured.toNat) || departs d v.measured.toNat v.tracked.toNat && m != .vbat
  | none =>
    decide (v.measured.toInt < -168 ∨ 448 < v.measured.toInt ∨ v.measured.toInt + 80 < v.tracked.toInt ∨
      v.tracked.toInt + 80 < v.measured.toInt)

/-- A detector that reports a reading trips only outside its window (R381, R382). -/
def windowLeft (s : State) (i : AlarmSource) (v : TripReading) : Bool :=
  match badReading i v with
  | some m => outside m (keptReading s i v)
  | none => true

/-- A reading leaves its window; the monitor's register shows what the detector reports. -/
def leaveWindow (i : AlarmSource) (v : TripReading) (s : State) : State :=
  match badReading i v with
  | none => s
  | some m =>
    let a := s.alarm
    let a := { a with badRails := if a.badRails.contains m then a.badRails else a.badRails ++ [m] }
    match railIx m with
    | none => { s with alarm := a }
    | some n => { s with alarm := { a with railNow := a.railNow.set n (v.measured.setWidth 12) } }

/-- A slot's tag fails (R347): the slot is BAD, and the job that loads the key ends. -/
def slotBad (n : BitVec 13) (detail : BitVec 16) (s : State) : State :=
  match s.key n with
  | none => s
  | some k =>
    let s := s.setSlot n (.key { k with bad := some detail })
    let s := { s with vault := { s.vault with vint := s.vault.vint ||| 1 } }
    note 0x0601 (some k.pitch) (wordBytes 4 (mkHandle s n k.pitch)) s

/-- A failed tag also ends the jobs that load the key, with KEY_BAD and ELAPSED 0. A job loads its keys in the microsecond in which it starts,
and keeps what it has loaded (R26; DESIGN CHOICE, log 72). -/
def tagFails (n : BitVec 13) (s : State) : State :=
  let names (h : BitVec 32) : Bool := h != 0 && handlePart h == s.links.part && handleSlot h == n
  let uses (x : Job) : Bool :=
    x.phase == .running && x.forwarded.isNone && x.startedAt == s.clock.us && (names x.desc.keyHandle || names x.desc.keyHandle2)
  (s.jobs.filter uses).foldl (fun s x => breakWith s x stKeyBad 0x0B05 0) (slotBad n 0x0B05 s)

/-- What a tamper input shows now (ALM_TAMPER). -/
def tamperInput (i : AlarmSource) (on : Bool) (s : State) : State :=
  let loopBit (n : Nat) : State :=
    let m : BitVec 4 := 1#4 <<< n
    { s with alarm := { s.alarm with loops := if on then s.alarm.loops ||| m else s.alarm.loops &&& ~~~m } }
  match i with
  | .loop0 => loopBit 0
  | .loop1 => loopBit 1
  | .loop2 => loopBit 2
  | .loop3 => loopBit 3
  | .mesh => { s with alarm := { s.alarm with mesh := on } }
  | _ => s

/-- A trip joins the double decision in progress, or begins one (R387, R388). -/
def joinDecision (i : AlarmSource) (v : TripReading) (r : BitVec 2) (s : State) : State :=
  let d : Decision := s.alarm.decision.getD { sources := [], response := 0 }
  let d := { d with sources := d.sources ++ [(i, v)], response := if v.agreesA then maxResp d.response r else d.response }
  { s with alarm := { s.alarm with decision := some d } }

/-- A source trips (R380, R383): it is counted and recorded. Both comparators evaluate it (R388): NOTE and HALT act once A has decided (DESIGN
CHOICE, log 72), LOCK and ERASE when B agrees, with the provisional hold and TAMPER_OUT_N low until then, and a comparator A that does not
call for the response leaves the decision to B. -/
def trip (i : AlarmSource) (reported : TripReading) (s : State) : State :=
  let v := keptReading s i reported
  let x := s.source i
  let r := responseOf s i
  let s := s.setSource i { x with inForce := true, trips := satAdd x.trips 1 }
  let s := alarmInt 1 (leaveWindow i v (tamperInput i true s))
  let s := note 0x0901 none (wordBytes 2 (sourceCode i) ++ [r.setWidth 8, 0] ++ tripDetail v) s
  let s := match i with
    | .vaultIntegrity => tagFails (v.measured.setWidth 13) s
    | _ => s
  if v.agreesA = false then joinDecision i v r s
  else if 2 ≤ r.toNat then joinDecision i v r (if s.battery.lockLatch then s else setPins [(.tamperOutN, false)] s)
  else
    let s := s.setSource i { s.source i with acting := r }
    joinDecision i v r (tripEvidence i v r false (if r = 1 then haltEffect i s else s))

/-- DECISION trips (R389): the comparators of a double decision disagree, and LOCK acts. -/
def raiseDecision (s : State) : State :=
  let x := s.source .decision
  let s := s.setSource .decision { x with inForce := true, trips := satAdd x.trips 1, acting := responseOf s .decision }
  let s := alarmInt 0x11 s
  let v := unitReading 0
  let s := note 0x0901 none (wordBytes 2 (sourceCode .decision) ++ [(responseOf s .decision).setWidth 8, 0] ++ tripDetail v) s
  tripEvidence .decision v 2 false (lockNow (sourceCode .decision) s)

/-- The sources of a decision that comparator A calls for LOCK or above, with their responses: NOTE and HALT have acted. -/
def calledBy (s : State) (d : Decision) : List (AlarmSource × TripReading × BitVec 2) :=
  ((d.sources.filter (fun e => e.2.agreesA)).map (fun e => (e.1, e.2, responseOf s e.1))).filter (fun e => decide (2 ≤ e.2.2.toNat))

/-- The sources of a decision that have no entry yet: those called for LOCK or above, and those that A did not call. -/
def unrecorded (s : State) (d : Decision) : List (AlarmSource × TripReading × BitVec 2) :=
  calledBy s d ++ (d.sources.filter (fun e => !e.2.agreesA)).map (fun e => (e.1, e.2, responseOf s e.1))

/-- The responses of a decision act: the destroy line fires once, every source is recorded (R387), and each response includes HALT's effect
(R383). -/
def decisionActs (d : Decision) (s : State) : State :=
  let called := calledBy s d
  let combined := decide (1 < called.length)
  let code := match called.find? (fun e => e.2.2 = d.response) with
    | some e => sourceCode e.1
    | none => 0
  let s := if 2 ≤ d.response.toNat then actHigh code d.response s else s
  let s := called.foldl (fun s e => haltEffect e.1 (s.setSource e.1 { s.source e.1 with acting := e.2.2 })) s
  called.foldl (fun s e => tripEvidence e.1 e.2.1 e.2.2 combined s) s

/-- Comparator B decides (R388, R389): `agree` says that it decides as A did. -/
def decideAlarm (agree : Bool) (s : State) : State :=
  match s.alarm.decision with
  | none => s
  | some d =>
    let s := { s with alarm := { s.alarm with decision := none } }
    if agree then decisionActs d s
    else
      let s := (unrecorded s d).foldl (fun s e => tripEvidence e.1 e.2.1 e.2.2 false s) s
      raiseDecision s

/-- A detector still reads abnormal: a random-number failure is in force (R329). -/
def stillFailing (s : State) (i : AlarmSource) : Bool :=
  match i with
  | .rngMain => s.rng.mainFail
  | .rngMask => s.rng.maskFail
  | _ => false

/-- A source has read normal for 10 ms (R380). -/
def sourceClear (i : AlarmSource) (s : State) : State :=
  if stillFailing s i then s
  else tamperInput i false (s.setSource i { s.source i with inForce := false, acting := 0 })

/-- A reading is back inside its window (R384): entries that waited for the non-volatile die are written. -/
def windowReturn (m : Monitor) (s : State) : State :=
  let t := { s with alarm := { s.alarm with badRails := s.alarm.badRails.filter (· ≠ m) } }
  if nvHeld s then drainEvidence t else t

/-- A command whose reading lies inside its window names no trip, and changes nothing (log 7, log 71). -/
def execAlarmTrip (i : AlarmSource) (v : TripReading) (s : State) : Host.Outcome State Fault Refusal :=
  if alive s && windowLeft s i v then act s (trip i v s) else .next s

def execAlarmSourceClear (i : AlarmSource) (s : State) : Host.Outcome State Fault Refusal := act s (sourceClear i s)

def execRailWindowReturn (rail : Monitor) (s : State) : Host.Outcome State Fault Refusal := act s (windowReturn rail s)

/-! ### Temperature (R382) -/

/-- The greater of two readings in quarter degrees. -/
def maxTemp (a b : BitVec 12) : BitVec 12 := if a.toInt < b.toInt then b else a

/-- The tracked value in quarter degrees. -/
def tjTracked (s : State) : BitVec 12 :=
  match s.alarm.tjAcc with
  | some a => BitVec.ofInt 12 (a / 3000000)
  | none => 0

/-- A reading of Tj outside its window: more than 20 °C off the tracked value, below −42 °C or above +112 °C. -/
def tjBad (tj tracked : Int) : Bool :=
  decide (80 < tj - tracked) || decide (80 < tracked - tj) || decide (tj < -168) || decide (448 < tj)

/-- A sample of the four sensors (R382). The tracked value takes the first reading, and then a 3,000,000th of the
difference at each 10 µs sample, which is the time constant of 30 s. -/
def tempSample (t0 t1 t2 t3 : BitVec 12) (s : State) : State :=
  let tj := maxTemp (maxTemp t0 t1) (maxTemp t2 t3)
  let acc := match s.alarm.tjAcc with
    | some a => a + (tj.toInt * 3000000 - a) / 3000000
    | none => tj.toInt * 3000000
  let tracked := s.alarm.tjAcc.getD acc / 3000000
  let s := { s with alarm := { s.alarm with tj := tj, tjAcc := some acc } }
  if tjBad tj.toInt tracked then
    if s.alarm.badRails.contains .tj then s
    else trip .temp { measured := tj.signExtend 16, threshold := if tj.toInt < -168 then BitVec.ofInt 16 (-168) else 448,
                      tracked := BitVec.ofInt 16 tracked, unit := 0, agreesA := true } s
  else windowReturn .tj s

def execTempSample (t0 t1 t2 t3 : BitVec 12) (s : State) : Host.Outcome State Fault Refusal :=
  if alive s then act s (tempSample t0 t1 t2 t3 s) else .next s

/-! ### On the backup cell alone (R390, R391) -/

/-- The response of a source on battery: the copy of R390, or the default raised to the floor of FIELD. -/
def batteryResponse (s : State) (i : AlarmSource) : BitVec 2 :=
  match s.battery.responses with
  | some l => (l[sourceIx i]?).getD 0
  | none => maxResp (sourceDefault i) (sourceFloor .field i)

/-- An event on battery (R390, R391): ERASE zeroes the root key, LOCK sets the latch, and the event is buffered. The two
comparators decide within the step, and their disagreement locks (R389). -/
def batteryEvent (i : AlarmSource) (v : TripReading) (agree : Bool) (s : State) : State :=
  let called := batteryResponse s i
  let r : BitVec 2 := if agree then called else 2
  let code : BitVec 16 := if agree then sourceCode i else sourceCode .decision
  let s := if 2 ≤ r.toNat ∧ s.battery.lockLatch = false then
      setPins [(.tamperOutN, false)] (writeFile (fun b => { b with lockLatch := true, lockSource := code }) s) else s
  let s := if r = 3 then zeroRoot s else s
  let e (c : BitVec 16) : Evidence :=
    { source := c, response := (maxResp r (if s.battery.lockLatch then 2 else 0)).setWidth 8, flags := 1, optime := 0, cycles := 0, lifeState := 0,
      seconds := s.battery.seconds, detail := tripDetail v }
  let s := bufferEntry (e (sourceCode i)) s
  if agree then s else bufferEntry (e (sourceCode .decision)) s

/-- The sources that a sample on battery finds abnormal. -/
def abnormalNow (r : BatteryReading) : List AlarmSource :=
  (if r.meshFault then [.mesh] else []) ++ (if bit r.loops 0 then [.loop0] else []) ++ (if bit r.loops 1 then [.loop1] else []) ++
  (if bit r.loops 2 then [.loop2] else []) ++ (if bit r.loops 3 then [.loop3] else []) ++
  (if r.vbatMv.toNat < 2400 ∨ 3750 < r.vbatMv.toNat then [.vbatLow] else []) ++
  (if r.tj.toInt < -168 ∨ 448 < r.tj.toInt then [.temp] else [])

/-- What a sample on battery reports for a source. -/
def batteryReadingOf (r : BatteryReading) (i : AlarmSource) : TripReading :=
  match i with
  | .vbatLow => { measured := r.vbatMv.setWidth 16, threshold := if r.vbatMv.toNat < 2400 then 2400 else 3750, tracked := 0,
                  unit := 7, agreesA := true }
  | .temp => { measured := r.tj.signExtend 16, threshold := if r.tj.toInt < -168 then BitVec.ofInt 16 (-168) else 448,
               tracked := 0, unit := 0, agreesA := true }
  | .loop1 => unitReading 1
  | .loop2 => unitReading 2
  | .loop3 => unitReading 3
  | _ => unitReading 0

/-- The battery domain watches (R390): it runs from VBAT, and the core is without power. -/
def onCell (s : State) : Bool := s.battery.powered && s.battery.onBattery && (s.dev.phase == .unpowered || s.dev.phase == .dormant)

/-- A sample on battery (R390): a source trips when it becomes abnormal. -/
def batterySample (r : BatteryReading) (s : State) : State :=
  if onCell s = false then s
  else
    let now := abnormalNow r
    let fresh := now.filter (fun i => !s.battery.abnormal.contains i)
    let s := { s with battery := { s.battery with abnormal := now, vbatMv := r.vbatMv },
                      alarm := { s.alarm with loops := r.loops, mesh := r.meshFault } }
    fresh.foldl (fun s i => batteryEvent i (batteryReadingOf r i) r.agreesB s) s

/-- The lid switch changes level (R380, R390). On battery, whether comparator B decides as A does is no operand of the edge: it is open (log
72). -/
def lidEdge (level : Bool) (s : State) : State :=
  if s.alarm.lid = level then s
  else
    let s := { s with alarm := { s.alarm with lid := level } }
    if onCell s then
      let (n, s) := drawFree s
      batteryEvent .lid (unitReading 0) (n % 2 == 0) s
    else if alive s then trip .lid (unitReading 0) s
    else s

def execBatterySample (r : BatteryReading) (s : State) : Host.Outcome State Fault Refusal := act s (batterySample r s)

def execLidEdge (level : Bool) (s : State) : Host.Outcome State Fault Refusal := act s (lidEdge level s)

/-! ### ALARM_UNLOCK (R393) and EVIDENCE_READ (R395) -/

/-- The first source in force whose response is LOCK or ERASE. -/
def lockingSource (s : State) : Option AlarmSource :=
  allSources.find? (fun i => (s.source i).inForce && decide (2 ≤ (responseOf s i).toNat))

def alarmUnlockRun (s : State) (_ : Job) : Ran :=
  if s.battery.lockLatch = false then { state := s, out := some (outOf stNoOutput 0) }
  else if inField s && !quorumOpen s 1 then { state := s, out := some (outOf stBadField 0x0F81) }
  else match lockingSource s with
    | some i => { state := s, out := some (outOf stBadField 0x0F82 (at64 0 (sourceCode i))) }
    | none =>
      let s := consume s 1
      let s := alarmInt 4 (setPins [(.tamperOutN, true)] (writeFile (fun b => { b with lockLatch := false, lockSource := 0 }) s))
      let s := evidence 0xF003 0 [] s
      { state := { s with dev := { s.dev with restartDue := s.dev.restartDue || s.alarm.erased } },
        out := some (outOf stOk 0) }

def alarmUnlockSpec : OpSpec :=
  { code := 0x0F41, admin := true,
    uses := fun _ => { param := 0xFFFFFFFF00000000 },
    fields := fun _ x => badWhen (bits x.desc.param 32 32 != 0x554E4C4B#32) (badField 0x0F80),
    run := alarmUnlockRun }

def evidenceReadRun (s : State) (x : Job) : Ran :=
  let first := (bits x.desc.param 0 16).toNat
  let es := (((s.nv.evidence.drop first).filter (fun e => !e.torn)).take (x.desc.outLen.toNat / 64)).map
    (fun e => evidenceBytes e.seq e.entry e.chain)
  if es.isEmpty then { state := s, out := some (outOf stNoOutput 0) }
  else { state := s, out := some { outOf stOk 0 (at64 0 (BitVec.ofNat 16 es.length)) with output := es.flatten } }

def evidenceReadSpec : OpSpec :=
  { code := 0x0F42, admin := true,
    uses := fun _ => { param := 0xFFFF, out := true },
    fields := fun _ x => badWhen (decide (32767 < (bits x.desc.param 0 16).toNat)) (badField 0x0F84),
    lengths := fun _ x => badWhen (!readLenOk x.desc.outLen.toNat) (badLength 0x0F83),
    run := evidenceReadRun }

def execAlarmUnlock (j : JobId) (s : State) : Host.Outcome State Fault Refusal := act s (startJob alarmUnlockSpec j s)

def execEvidenceRead (j : JobId) (s : State) : Host.Outcome State Fault Refusal := act s (startJob evidenceReadSpec j s)

end Sys2Proof.Machine
end

