-- ==== Sys2Proof/Machine/Microcode.lean ====
section
/-! DEFINITION. The words of the two control stores (R122 to R125, R129): what makes one fail its check, and the check bits
of a tile word. -/
namespace Sys2Proof.Machine

/-! ### CHECK (R125, R126) -/

/-- The positions 1 to 143 that payload bits take: those that are no power of two (R125). -/
def payloadPositions : List Nat :=
  (List.range 143).map (· + 1) |>.filter (fun p => !([1, 2, 4, 8, 16, 32, 64, 128].contains p))

/-- The code position of each of the 143 bits that positions cover: the payload, then CHECK[0] to CHECK[7]. -/
def codePositions : List Nat := payloadPositions ++ [1, 2, 4, 8, 16, 32, 64, 128]

/-- The syndrome of a word: the exclusive or of the positions of its set bits (R125). -/
def syndrome (e : BitVec 144) : Nat :=
  (codePositions.zip (List.range 143)).foldl (fun x p => if e.getLsbD p.2 then x ^^^ p.1 else x) 0

/-- The parity of all 144 bits. -/
def parity144 (e : BitVec 144) : Bool := (List.range 144).foldl (fun x i => x != e.getLsbD i) false

/-- What decoding finds (R126). -/
inductive Decoded where
  | clean | corrected | uncorrectable
  deriving DecidableEq, Repr

/-- R126 on an error pattern, or on a whole word: the code is linear. -/
def decodeError (e : BitVec 144) : Decoded :=
  let x := syndrome e
  if parity144 e then (if x ≤ 143 then .corrected else .uncorrectable)
  else if x = 0 then .clean else .uncorrectable

/-- The bit that a correction turns back: the one at the position that the syndrome names, CHECK[8] where it names none (R126). -/
def errorBit (e : BitVec 144) : BitVec 144 :=
  let x := syndrome e
  if x = 0 then 1#144 <<< 143 else 1#144 <<< ((codePositions.findIdx? (· == x)).getD 143)

/-! ### The units of patch RAM (R133) -/

/-- The code position of each of the 71 bits that positions cover in a unit: 64 data bits, then seven check bits. -/
def unitPositions : List Nat := payloadPositions.take 64 ++ [1, 2, 4, 8, 16, 32, 64]

/-- The syndrome of a unit's error pattern, and its parity. The code of a unit is not laid out: it is taken to be R125's, over 64 bits (DESIGN
CHOICE, log 67). -/
def unitSyndrome (e : BitVec 72) : Nat :=
  (unitPositions.zip (List.range 71)).foldl (fun x p => if e.getLsbD p.2 then x ^^^ p.1 else x) 0

def unitParity (e : BitVec 72) : Bool := (List.range 72).foldl (fun x i => x != e.getLsbD i) false

/-- What decoding a unit finds, as in a tile store. -/
def decodeUnit (e : BitVec 72) : Decoded :=
  let x := unitSyndrome e
  if unitParity e then (if x ≤ 71 then .corrected else .uncorrectable)
  else if x = 0 then .clean else .uncorrectable

/-- The bit of a unit that a correction turns back. -/
def unitErrorBit (e : BitVec 72) : BitVec 72 :=
  let x := unitSyndrome e
  if x = 0 then 1#72 <<< 71 else 1#72 <<< ((unitPositions.findIdx? (· == x)).getD 71)

/-- The 144-bit word of a payload, with its CHECK (R125). -/
def withCheck (p : BitVec 135) : BitVec 144 :=
  let w : BitVec 144 := p.setWidth 144 ||| (BitVec.ofNat 144 (syndrome (p.setWidth 144)) <<< 135)
  if parity144 w then w ||| (1#144 <<< 143) else w

/-! ### The check of a word (R124) -/

/-- The vector operations of the vector instruction set, without those that take scalar operands (R124, R146 to R150). -/
def vopCodes : List Nat :=
  (List.range 0x10).map (· + 1) ++ (List.range 6).map (· + 0x20) ++ (List.range 7).map (· + 0x30) ++
  (List.range 4).map (· + 0x40) ++ [0x48, 0x49]

/-- The modular operations, which have no form e9 (R148, R149). -/
def vopModular (v : Nat) : Bool := decide (0x30 ≤ v) && decide (v ≤ 0x36)

/-- A fixed modulus entry is not valid for a form (R148): 0 e18, 1 e36, 2 e9. -/
def modulusBad (qsel form : Nat) : Bool :=
  decide (4 ≤ qsel) || (qsel != 0 && form == 2) || (qsel == 3 && form != 1)

/-- A tile word's payload fails R124. -/
def tileWordBad (w : BitVec 135) : Bool :=
  let f (lo n : Nat) : Nat := (bits w lo n).toNat
  let vop := f 46 8
  let form := f 74 2
  decide (0x10 ≤ f 24 5) || decide (4 ≤ f 31 3) || decide (4 ≤ f 81 3) || decide (4 ≤ f 100 3) || decide (4 ≤ f 103 4) ||
  decide (4 ≤ f 109 3) || decide (4 ≤ f 112 3) || !([0, 1, 2, 8, 9].contains (f 115 4)) || decide (6 ≤ f 119 4) ||
  decide (3 ≤ f 123 4) || decide (2 ≤ f 127 3) || (vop != 0 && !vopCodes.contains vop) || form == 3 ||
  (form == 2 && vopModular vop) || modulusBad (f 77 4) form || (bit w 76 && vop == 0) || f 130 5 != 0

/-- A Hall controller word fails R124. -/
def hallWordBad (w : BitVec 288) : Bool :=
  let f (lo n : Nat) : Nat := (bits w lo n).toNat
  decide (8 ≤ f 28 6) || decide (9 ≤ f 38 4) || decide (24 < f 272 8) || f 280 8 != 0

end Sys2Proof.Machine
end

