-- ==== Sys2Proof/Machine/Stores.lean ====
section
/-! DEFINITION. The control stores as they are read: the words of the tile stores and of patch RAM (R126, R133), and the segment tags
that every reload is checked against (R130). -/
namespace Sys2Proof.Machine

/-! ### Tile words (R126, R133) -/

/-- The bits that have turned in a word of a tile's store. -/
def flipsAt (x : Tile) (a : BitVec 12) : BitVec 144 := (x.flips.filter (fun e => e.1 == a)).foldl (fun w e => w ^^^ e.2) 0#144

/-- Further bits turned in a word; a pattern that cancels takes the word out. -/
def turnBits (a : BitVec 12) (e : BitVec 144) (x : Tile) : Tile :=
  let w := flipsAt x a ^^^ e
  let rest := x.flips.filter (fun f => f.1 != a)
  { x with flips := if w = 0 then rest else rest ++ [(a, w)] }

/-- A word of a tile's store as it is stored. -/
def storedWord (s : State) (t : BitVec 6) (a : BitVec 12) : BitVec 144 :=
  fieldAt 144 s.seq.tileBase (18 * a.toNat) 18 ^^^ flipsAt (s.tile t) a

/-- An entry of a list by its address, with its place in the list. -/
def patchEntry {n k : Nat} (a : BitVec n) (es : List (BitVec n × BitVec k)) : Option (Nat × BitVec k) :=
  (es.findIdx? (fun e => e.1 == a)).bind (fun i => (es[i]?).map (fun e => (i, e.2)))

/-- The patch entry of a tile store address (R133), as it was loaded, with its number. -/
def patchedTile (s : State) (a : BitVec 12) : Option (Nat × BitVec 144) := s.seq.patch.bind (fun p => patchEntry a p.tile)

/-- The patch entry of a Hall controller store address. -/
def patchedHall (s : State) (a : BitVec 14) : Option (Nat × BitVec 288) := s.seq.patch.bind (fun p => patchEntry a p.hall)

/-! ### Patch RAM (R133) -/

/-- Where an entry's bytes begin in patch RAM: tile entries of 18 bytes first, in the first 18 KiB, then Hall controller entries of 36. The spec
gives the sizes and no order (DESIGN CHOICE, log 67). -/
def entryBase (hall : Bool) (k : Nat) : Nat := if hall then 18432 + 36 * k else 18 * k

/-- The 64-bit units that an entry touches. -/
def entryUnits (hall : Bool) (k : Nat) : List (BitVec 13) :=
  let b := entryBase hall k
  let last := (b + (if hall then 36 else 18) - 1) / 8
  (List.range (last + 1 - b / 8)).map (fun i => BitVec.ofNat 13 (b / 8 + i))

/-- The store address whose entry takes in the first byte of a unit, and whether it is the Hall controller's; address 0 where no entry does
(DESIGN CHOICE, log 67). -/
def unitAddr (s : State) (u : BitVec 13) : BitVec 14 × Bool :=
  let b := 8 * u.toNat
  match s.seq.patch with
  | none => (0, false)
  | some p =>
    if b < 18432 then (((p.tile[b / 18]?).map (fun e => e.1.setWidth 14)).getD 0, false)
    else if b < 55296 then (((p.hall[(b - 18432) / 36]?).map (fun e => e.1)).getD 0, true)
    else (0, false)

/-- The bits that have turned in a unit. -/
def unitFlips (q : Seq) (u : BitVec 13) : BitVec 72 := (q.patchFlips.filter (fun e => e.1 == u)).foldl (fun w e => w ^^^ e.2) 0#72

/-- Further bits turned in a unit; a pattern that cancels takes the unit out. -/
def turnUnit (u : BitVec 13) (e : BitVec 72) (q : Seq) : Seq :=
  let w := unitFlips q u ^^^ e
  let rest := q.patchFlips.filter (fun f => f.1 != u)
  { q with patchFlips := if w = 0 then rest else rest ++ [(u, w)] }

/-- Patch RAM as it is stored, without its check bits: the entries in their places, the bits that have turned turned. -/
def patchRam (s : State) : Bytes :=
  let b := match s.seq.patch with
    | none => []
    | some p => fit 18432 (p.tile.flatMap (fun e => wordBytes 18 e.2)) ++ p.hall.flatMap (fun e => wordBytes 36 e.2)
  fit 65536 b

/-- A 64-bit unit of patch RAM as it is stored. -/
def storedUnit (s : State) (u : BitVec 13) : Bytes :=
  wordBytes 8 (fieldAt 64 (patchRam s) (8 * u.toNat) 8 ^^^ (unitFlips s.seq u).setWidth 64)

/-! ### Segment tags (R130) -/

/-- Pieces of 4 KiB. -/
def segmentsFrom : Nat → Bytes → List Bytes
  | 0, _ => []
  | n + 1, b => b.take 4096 :: segmentsFrom n (b.drop 4096)

/-- The tags of an image's segments under the reload key. -/
def segmentTags (key img : Bytes) : List Bytes := (segmentsFrom (ceilDiv img.length 4096) img).map (fun b => kmac128 key [] 16 b)

/-- The reload key of a start: of the device-unique secret and the power-cycle count, in a derivation that the spec does not state
(log 67). -/
def reloadKeyOf (s : State) : Bytes :=
  fit 32 (Config.crypto .deviceKey 2 [Config.deviceSecret, wordBytes 4 (s.ledger.cycles.setWidth 32)])

/-- The tags of the loaded images, in both copies of the table. -/
def tagStores (s : State) : State :=
  let key := reloadKeyOf s
  let t : TagTable := { hall := segmentTags key s.seq.hallA, tile := segmentTags key s.seq.tileBase, patch := [] }
  { s with seq := { s.seq with reloadKey := key, tagsA := t, tagsB := t } }

/-- The words of a patch as patch RAM holds them, tile entries first. -/
def patchBytes (p : Patch) : Bytes := p.tile.flatMap (fun e => wordBytes 18 e.2) ++ p.hall.flatMap (fun e => wordBytes 36 e.2)

/-- The tags of the patch entries, in both copies of the table (R133). -/
def tagPatch (p : Patch) (s : State) : State :=
  let ts := segmentTags s.seq.reloadKey (patchBytes p)
  { s with seq := { s.seq with tagsA := { s.seq.tagsA with patch := ts }, tagsB := { s.seq.tagsB with patch := ts } } }

/-- The image of the firmware bank in force. -/
def firmwareNow (s : State) : Bytes :=
  let b := s.bank .fw s.boot.fwBank
  b.image.take b.len.toNat

/-- The Hall controller and the tile store image of a firmware image (R454). -/
def hallImage (img : Bytes) : Bytes := slice img 0x40 589824

def tileImage (img : Bytes) : Bytes := slice img 0x90040 73728

/-- The two copies of the tag table agree, and so do the tags of the tile image that a reload reads. -/
def tileTagsOk (s : State) : Bool :=
  s.seq.tagsA == s.seq.tagsB && segmentTags s.seq.reloadKey (tileImage (firmwareNow s)) == s.seq.tagsA.tile

/-- The same for the Hall controller's image. -/
def hallTagsOk (s : State) : Bool :=
  s.seq.tagsA == s.seq.tagsB && segmentTags s.seq.reloadKey (hallImage (firmwareNow s)) == s.seq.tagsA.hall

end Sys2Proof.Machine
end

