-- ==== Sys2Proof/Machine/Faults.lean ====
section
/-! DEFINITION. Faults inside the part and what repairs them: tiles, engines, the control stores, the data pools (R40, R126
to R133, R186, R280, R316, R392). -/
namespace Sys2Proof.Machine

/-! ### A start that fails (R460) -/

/-- A reason at the head of BOOT_HISTORY (R449, R460). -/
def recordFailure (reason : BitVec 16) (s : State) : State :=
  let t := writeFile (fun b => { b with history := (reason :: b.history).take 6,
                                        unrecorded := ((reason, b.attempts) :: b.unrecorded).take 6, inStart := false }) s
  { t with dev := { t.dev with bootReason := reason } }

/-- The reason at the head of BOOT_HISTORY, and the device restart 10 ms later. -/
def startFails (reason : BitVec 16) (s : State) : State :=
  let s := recordFailure reason s
  { s with dev := { s.dev with phase := .restarting }, jobs := [] }

/-! ### STREAM stalls (R316) -/

/-- The STREAM stall that a new flow takes: the one with the fewer flows, the lower number among equals (R298). -/
def flowsOn (s : State) (n : Nat) : Nat :=
  (s.contexts.filter (fun e => ((flowOf e.2).map (fun f => f.stall.toNat == n)).getD false)).length

/-- A STREAM stall is lost: its flows move to the other one. -/
def streamLost (n : Nat) (s : State) : State :=
  let moved := flowsOn s n
  match (stallsOf s .stream).head? with
  | some m =>
    let s := mapFlows (fun f => if f.stall.toNat = n then { f with stall := BitVec.ofNat 8 m } else f) s
    let s := { s with stream := { s.stream with sint := s.stream.sint ||| 2 } }
    note 0x0401 none ([BitVec.ofNat 8 n, 0] ++ leBytes 2 moved) s
  | none =>
    let s := { s with stream := { s.stream with sint := s.stream.sint ||| 6 } }
    note 0x0401 none ([BitVec.ofNat 8 n, 0] ++ leBytes 2 0) s

/-! ### Jobs on a unit that goes out of service (R40) -/

/-- The job that runs on a tile. -/
def tileJob (s : State) (t : Nat) : Option Job :=
  match (s.tile (BitVec.ofNat 6 t)).state with
  | .busy j => s.job j
  | _ => none

/-- A fault of a job: it runs again elsewhere, but a resident encapsulation cannot. That one ends, its context is stale and the key's
shelves are released (R186, R252). -/
def jobFault (detail : BitVec 16) (avoid : List Unit_) (s : State) (x : Job) : State :=
  if residentEncaps x then staleContext .damaged (breakJob s x stFault 0x0216) (ctxIndex x.desc) else faultJob detail avoid s x

/-- A fault of the job on a tile; of a keeper job it is the verification that runs again. -/
def tileFaultJob (detail : BitVec 16) (t : Nat) (s : State) : State :=
  match tileJob s t with
  | none => s
  | some x =>
    if keeperTile s x.id = some (BitVec.ofNat 6 t) then keeperAgain s
    else jobFault detail [.tile (BitVec.ofNat 6 t)] s x

/-- The pinned key of which a tile holds a part is lost: its context is stale and its shelves are released (R242). -/
def loseShelf (s : State) (t : Nat) : State :=
  match (s.tile (BitVec.ofNat 6 t)).shelf with
  | some c => staleContext .damaged s c
  | none => s

/-- A job whose role or engines are gone completes as a new descriptor would where it had not started, and cannot run again where
it had (R40). -/
def strandedJob (s : State) (x : Job) : State :=
  if x.phase = .waiting ∧ x.faults = 0 then refuseJob s x { status := stBadOpcode, detail := 0x0011 }
  else breakJob s x stFault 0x0011

/-- The waiting jobs of a role that no stall serves any more complete as new descriptors would (R40). -/
def roleGone (r : Role) (s : State) : State :=
  if rolePresent s r then s
  else (s.jobs.filter (fun x => (x.phase = .waiting ∨ x.phase = .suspended) ∧ roleOf x.desc.opcode = some r)).foldl strandedJob s

/-! ### Retirement of tiles and stalls (R40) -/

/-- The stall that a tile is in. -/
def stallOfTile (s : State) (t : Nat) : Option Nat := (s.plan.members.find? (fun e => e.2.getLsbD t)).map (·.1)

/-- The role of a stall under the plan. -/
def stallRole (s : State) (n : Nat) : Option Role :=
  s.plan.inForce.bind (fun pl => (pl.stalls.find? (fun e => e.stall.toNat = n)).map (·.role))

/-- PLAN_INT bits set. -/
def planInt (b : BitVec 4) (s : State) : State := { s with plan := { s.plan with pint := s.plan.pint ||| b } }

/-- A stall retired whole: its jobs run again on other stalls of the role. -/
def retireStall (n : Nat) (s : State) : State :=
  let ts := tilesOf (stallTiles s n)
  let role := stallRole s n
  let s := { s with plan := { s.plan with
    members := Tab.set 0#64 n 0 s.plan.members, retired := s.plan.retired ||| (1#32 <<< n),
    joining := s.plan.joining.filter (· ≠ n) } }
  let s := planInt 4 s
  match role with
  | none => s
  | some r =>
    let s := ts.foldl (fun s t => if rolePresent s r ∨ (s.cards.keeper.bind (·.unit)) = some (BitVec.ofNat 6 t) then tileFaultJob 0x0216 t s
      else match tileJob s t with
        | some x => strandedJob s x
        | none => s) s
    let s := roleGone r (ts.foldl loseShelf s)
    if r = .stream then streamLost n s else s

/-- Spare tiles that no stall is waiting for. -/
def sparesFree (s : State) : Nat := (tilesOf s.plan.spares).length - s.plan.joining.length

/-- The order in which stalls take spares (R40): the role earlier in PRIORITY first, then the lower number. -/
def spareRank (s : State) (n : Nat) : Nat :=
  match s.plan.inForce, stallRole s n with
  | some pl, some r => ((pl.priority.findIdx? (· == r)).getD 5) * 32 + n
  | _, _ => 5 * 32 + n

/-- A stall that is left with fewer tiles than MIN_TILES, those on their way counted, is retired whole. -/
def checkShort (n : Nat) (s : State) : State :=
  let minTiles := ((s.plan.inForce.map (·.minTiles.toNat)).getD 1)
  if (tilesOf (stallTiles s n)).length + (s.plan.joining.filter (· = n)).length < minTiles then retireStall n s else s

/-- While more stalls wait than there are spares, the last in order goes on short of its tile. -/
def settleSpares : Nat → State → State
  | 0, s => s
  | k + 1, s =>
    if s.plan.joining.length ≤ (tilesOf s.plan.spares).length then s
    else match leastBy (fun n => 1024 - spareRank s n) s.plan.joining with
      | none => s
      | some n =>
        settleSpares k (checkShort n (planInt 2 { s with plan := { s.plan with joining := s.plan.joining.erase n } }))

/-- A tile leaves its stall: under REPLACE the stall waits for a spare, else it goes on short of the tile. -/
def shortenStall (n : Nat) (t : Nat) (s : State) : State :=
  let s := { s with plan := { s.plan with
    members := Tab.set 0#64 n (stallTiles s n &&& ~~~(1#64 <<< t)) s.plan.members } }
  if (s.plan.inForce.map (·.replace)).getD false then
    let s := { s with plan := { s.plan with joining := s.plan.joining ++ [n] } }
    settleSpares s.plan.joining.length s
  else checkShort n (if s.plan.spares = 0 then planInt 2 s else s)

/-- A tile retired: its shelf's context goes stale, and its job runs again elsewhere if a stall of its role is left. -/
def retireTile (t : BitVec 6) (s : State) : State :=
  let n := t.toNat
  let job := tileJob s n
  let s := loseShelf s n
  let again := match job with
    | some x => if residentEncaps x then breakJob s x stFault 0x0216 else s
    | none => s
  let stall := stallOfTile s n
  let gone (x : Tile) : Tile :=
    { x with state := .retired, shelf := none, shelfData := [], core := coreInit, micro := microInit, reloadDue := false }
  let out (s : State) : State := s.setTile t (gone (s.tile t))
  match stall with
  | none =>
    let s := out { again with plan := { again.plan with spares := again.plan.spares &&& ~~~(1#64 <<< n) } }
    settleSpares s.plan.joining.length s
  | some k =>
    let s := tileFaultJob 0x0216 n again
    let s := shortenStall k n (out s)
    match stallRole s k with
    | none => s
    | some r => roleGone r s

/-- The lowest-numbered spare joins the first stall that waits for one (R40), its store loaded and checked against the segment tags before
(R130, R392). One whose load fails its check is retired, as a tile whose reload fails is (R127; DEDUCED, log 72). -/
def spareJoin (s : State) : State :=
  match leastBy (spareRank s) s.plan.joining, (tilesOf s.plan.spares).head? with
  | some n, some t =>
    if tileTagsOk s = false then retireTile (BitVec.ofNat 6 t) s
    else
    let y := s.tile (BitVec.ofNat 6 t)
    let s := s.setTile (BitVec.ofNat 6 t) { y with flips := [], reloadDue := false }
    let s := { s with plan := { s.plan with
      joining := s.plan.joining.erase n, spares := s.plan.spares &&& ~~~(1#64 <<< t),
      members := Tab.set 0#64 n (stallTiles s n ||| (1#64 <<< t)) s.plan.members,
      usedSpares := s.plan.usedSpares + 1 } }
    planInt 1 s
  | _, _ => s

def execSpareJoin (s : State) : Host.Outcome State Fault Refusal := act s (spareJoin s)

/-! ### Control stores (R125 to R133) -/

/-- SEQ_INT bits set. -/
def seqInt (b : BitVec 3) (s : State) : State := { s with seq := { s.seq with sint := s.seq.sint ||| b } }

/-- SEQ_LAST_FAULT (SEQ registers). -/
def lastFault (addr : BitVec 14) (hall : Bool) (tile : BitVec 6) (kind : BitVec 2) (s : State) : State :=
  { s with seq := { s.seq with faultAddr := addr, faultHall := hall, faultTile := tile, faultKind := kind } }

/-- A tile's store is reloaded: now, or after its job (R127, R128). -/
def reloadTile (afterJob : Bool) (t : BitVec 6) (s : State) : State :=
  let x := s.tile t
  match x.state, afterJob with
  | .busy _, true => s.setTile t { x with reloadDue := true }
  | _, _ => s.setTile t { x with state := .reloading, reloadDue := false }

/-- An uncorrectable tile store error (R127, R128): counted, an alarm, the job moved, the store reloaded. An address that fails again
after a reload, before the scrubber has been round, retires the tile; one that the scrubber found and a job fetches before the reload
has not failed again. -/
def storeError (scrub : Bool) (t : BitVec 6) (addr : BitVec 12) (s : State) : State :=
  let x := s.tile t
  if x.state = .retired then s
  else
    let s := { s with seq := { s.seq with eccUncorr := satAdd s.seq.eccUncorr 1 } }
    let s := lastFault (addr.setWidth 14) false t 1 (seqInt 2 s)
    let s := trip .storeEcc (unitReading (t.setWidth 8)) s
    if x.badWords.any (fun b => b.addr == addr && b.reloaded) then retireTile t s
    else
      let bad : BadWord := { addr := addr, scrub := s.seq.scrubAt, reloaded := false }
      let s := s.setTile t { s.tile t with badWords := (s.tile t).badWords.filter (fun b => b.addr != addr) ++ [bad] }
      if scrub then reloadTile true t s else reloadTile false t (tileFaultJob 0x0216 t.toNat s)

def execStoreEccUncorrectable (tile : BitVec 6) (addr : BitVec 12) (s : State) : Host.Outcome State Fault Refusal :=
  act s (storeError false tile addr s)

/-- A reload is checked against its tags (R127, R130): `ok` says that what it read from the non-volatile die arrived whole. The store
then holds the image again. -/
def reloadDone (t : BitVec 6) (ok : Bool) (s : State) : State :=
  if (s.tile t).state ≠ .reloading then s
  else
    let s := { s with seq := { s.seq with tileReloads := satAdd s.seq.tileReloads 1 } }
    let x := s.tile t
    if ok && tileTagsOk s then
      s.setTile t { x with state := .idle, flips := [], badWords := x.badWords.map (fun b => { b with reloaded := true }) }
    else retireTile t s

def execTileStoreReloadDone (tile : BitVec 6) (ok : Bool) (s : State) : Host.Outcome State Fault Refusal :=
  act s (reloadDone tile ok s)

/-- A corrected error counted and recorded (R126). -/
def storeCorrected (t : BitVec 6) (addr : BitVec 14) (hall : Bool) (kind : BitVec 2) (s : State) : State :=
  let s := { s with seq := { s.seq with eccCorr := satAdd s.seq.eccCorr 1 } }
  let s := lastFault addr hall t kind (seqInt 1 s)
  note 0x0E01 none ([t.setWidth 8, kind.setWidth 8] ++ wordBytes 2 (addr.setWidth 16)) s

/-- What decoding a tile's word finds, by its error pattern; a correction is written back and recorded (R126). -/
def readStore (t : BitVec 6) (a : BitVec 12) (s : State) : Decoded × State :=
  let e := flipsAt (s.tile t) a
  match decodeError e with
  | .clean => (.clean, s)
  | .corrected => (.corrected, storeCorrected t (a.setWidth 14) false 0 (s.setTile t (turnBits a (errorBit e) (s.tile t))))
  | .uncorrectable => (.uncorrectable, s)

/-- The scrubber reads a word of a tile's store (R128). A tile that is retired, or has its store reloaded, is left out. -/
def scrubTile (s : State) (t : BitVec 6) : State :=
  if (s.tile t).state = .retired ∨ (s.tile t).state = .reloading then s
  else
    let r := readStore t s.seq.scrubAt s
    if r.1 = .uncorrectable then storeError true t s.seq.scrubAt r.2 else r.2

/-- Bits of a tile's store turn. -/
def upset (s : State) (e : TileError) : State := s.setTile e.tile (turnBits e.addr e.bits (s.tile e.tile))

/-- The tiles with a word whose bits have turned at an address. -/
def upsetTiles (s : State) (a : BitVec 12) : List (BitVec 6) :=
  ((List.range 64).map (BitVec.ofNat 6)).filter (fun t => flipsAt (s.tile t) a != 0)

/-- A reload of both Hall controller copies begins, or goes on for another fault (R131, R132). -/
def beginReload (addr : BitVec 14) (s : State) : State :=
  if s.seq.reloading then { s with seq := { s.seq with mismatches := s.seq.mismatches + 1 } }
  else { s with seq := { s.seq with reloading := true, attempt := 1, mismatches := 1, mismatchAddr := addr } }

/-- An uncorrectable error of patch RAM, in the entry of a store address (R133): counted, an alarm, a Hall controller reload. -/
def patchRamError (a : BitVec 14) (h : Bool) (s : State) : State :=
  let s := { s with seq := { s.seq with eccUncorr := satAdd s.seq.eccUncorr 1 } }
  let s := lastFault a h 0 3 (seqInt 2 s)
  beginReload a (trip .storeEcc (unitReading 0) s)

/-- What decoding a unit of patch RAM finds, for the entry of a store address; a correction is written back and recorded (R126, R133). -/
def readUnit (a : BitVec 14) (h : Bool) (r : Decoded × State) (u : BitVec 13) : Decoded × State :=
  let e := unitFlips r.2.seq u
  match decodeUnit e with
  | .clean => r
  | .corrected => (r.1, storeCorrected 0 a h 3 { r.2 with seq := turnUnit u (unitErrorBit e) r.2.seq })
  | .uncorrectable => (.uncorrectable, r.2)

/-- A patched word fetched: each unit of its entry is decoded. -/
def readEntry (a : BitVec 14) (h : Bool) (k : Nat) (s : State) : Decoded × State := (entryUnits h k).foldl (readUnit a h) (.clean, s)

/-- The scrubber reads the next unit of patch RAM (R133). -/
def scrubUnit (s : State) : State :=
  let w := unitAddr s s.seq.patchAt
  let r := readUnit w.1 w.2 (.clean, s) s.seq.patchAt
  if r.1 = .uncorrectable then patchRamError w.1 w.2 r.2 else r.2

/-- Bits of patch RAM turn. -/
def upsetUnit (s : State) (e : PatchError) : State := { s with seq := turnUnit e.unit e.bits s.seq }

/-- The scrubber reads the next word of each tile store, and the next unit of patch RAM (R128, R133); `errs` and `us` are the bits that
have turned in them since its last tick. -/
def scrubTick (errs : List TileError) (us : List PatchError) (s : State) : State :=
  let s := us.foldl upsetUnit (errs.foldl upset s)
  let s := scrubUnit ((upsetTiles s s.seq.scrubAt).foldl scrubTile s)
  let next := s.seq.scrubAt + 1
  { s with seq := { s.seq with scrubAt := next, patchAt := s.seq.patchAt + 1 },
           tiles := Tab.mapVals tileInit (fun _ t => { t with badWords := t.badWords.filter (fun b => b.scrub != next) }) s.tiles }

def execScrubTick (errs : List TileError) (patch : List PatchError) (s : State) : Host.Outcome State Fault Refusal :=
  act s (scrubTick errs patch s)

/-- The two copies differ at a fetch (R131). -/
def copyMismatch (addr : BitVec 14) (s : State) : State :=
  beginReload addr (lastFault addr true 0 2 (trip .hallCopy (unitReading 0) s))

def execHallCopyMismatch (addr : BitVec 14) (s : State) : Host.Outcome State Fault Refusal := act s (copyMismatch addr s)

/-- The Ledger's record of a reload, one event for each mismatch of it (R132, R404). -/
def noteReload : Nat → BitVec 8 → BitVec 14 → State → State
  | 0, _, _, s => s
  | k + 1, n, a, s => noteReload k n a (note 0x0E02 none ([n, 0] ++ wordBytes 2 (a.setWidth 16)) s)

/-! ### Tiles (R186, R392) -/

/-- A countermeasure of a tile detects a fault of its job (R186): DETAIL is that of the key hash check when both faults
were its own. -/
def tileFault (j : JobId) (dkHash : Bool) (s : State) : State :=
  match s.job j with
  | none => s
  | some x =>
    match ((if x.phase = .running then x.units else []).findSome? (fun u => match u with
        | .tile t => some t
        | _ => none)).or (keeperTile s j) with
    | none => s
    | some t =>
      let s := trip .engineFcm (unitReading (t.setWidth 8)) s
      match s.job j with
      | none => s
      | some y =>
        if y.phase ≠ .running then s
        else
          let s := s.setJob { y with dkFault := dkHash }
          tileFaultJob (if y.dkFault && dkHash then 0x0214 else 0x0216) t.toNat s

def execTileFault (j : JobId) (dkHash : Bool) (s : State) : Host.Outcome State Fault Refusal := act s (tileFault j dkHash s)

/-- A dual-rail fault in a tile (R392). -/
def tileDualRail (t : BitVec 6) (s : State) : State :=
  let x := s.tile t
  if x.state = .retired then s
  else
    let twice := match x.faultAt with
      | some u => decide (s.clock.us ≤ u + 1000000)
      | none => false
    let s := tileFaultJob 0x0216 t.toNat s
    if twice then retireTile t s
    else s.setTile t { s.tile t with state := .testing, faultAt := some s.clock.us, reloadDue := false, core := coreInit, micro := microInit }

/-- The self-test after a dual-rail fault ends (R392). -/
def selfTestDone (t : BitVec 6) (ok : Bool) (s : State) : State :=
  if (s.tile t).state ≠ .testing then s
  else if ok then s.setTile t { s.tile t with state := .idle }
  else retireTile t s

def execTileSelfTestDone (tile : BitVec 6) (ok : Bool) (s : State) : Host.Outcome State Fault Refusal :=
  act s (selfTestDone tile ok s)

/-! ### Engines (R255, R280) -/

/-- ENG_INT bits set. -/
def engineInt (b : BitVec 3) (s : State) : State := { s with engInt := s.engInt ||| b }

/-- The job that runs on an engine. -/
def engineJob (s : State) (e : BitVec 3) : Option Job :=
  match (s.engine e).state with
  | .running j => s.job j
  | _ => none

/-- An engine is in service. -/
def engineLeft (s : State) : Bool := enginesInService s != 0

/-- An engine's job runs once more, on another engine when one exists (R280). -/
def engineFaultJob (e : BitVec 3) (s : State) : State :=
  match engineJob s e with
  | none => s
  | some x => faultJob 0x0216 [.engine e] s x

/-- An engine wiped (R255) and retired until the next start: its job, and every job that waits for an engine, end where none is left. -/
def retireEngine (e : BitVec 3) (cause : BitVec 2) (s : State) : State :=
  let job := engineJob s e
  let s := engineInt 2 (s.setEngine e { clearEngine (s.engine e) with state := .retired, cause := cause, pitch := 0, opcode := 0 })
  let left := engineLeft s
  let s := match job with
    | none => s
    | some x => if left then faultJob 0x0216 [.engine e] s x else strandedJob s x
  if left then s
  else
    let s := engineInt 4 s
    (s.jobs.filter (fun x => x.phase = .waiting ∧ needsEngine x.desc)).foldl strandedJob s

/-- A countermeasure of an engine trips (R280). -/
def engineTrip (e : BitVec 3) (s : State) : State :=
  let g := s.engine e
  if g.state = .retired then s
  else
    let twice := match g.tripAt with
      | some u => decide (s.clock.us ≤ u + 1000000)
      | none => false
    let s := s.setEngine e { g with trips := satAdd g.trips 1, tripAt := some s.clock.us }
    let s := trip .engineFcm (unitReading (e.setWidth 8)) (engineInt 1 s)
    if twice then retireEngine e 1 s else engineFaultJob e s

def execEngineFcmTrip (e : BitVec 3) (s : State) : Host.Outcome State Fault Refusal := act s (engineTrip e s)

/-- A comparison of VERIFY fails on an engine (R280): the alarm, and the job runs once more. -/
def verifyFails (e : BitVec 3) (s : State) : State := engineFaultJob e (trip .engineFcm (unitReading (e.setWidth 8)) s)

/-- A run of an engine job with its fault mode's checks (R279, R280): `inv` says that INVARIANT's hold, `ver` that VERIFY's comparison does.
One that fails gives no result. -/
def checkedRun (s : State) (x : Job) (inv ver : Bool) (r : Ran) : Ran :=
  match inv && ver, engineOf x with
  | true, _ => r
  | false, none => { state := s, out := none, commits := [], timed := false }
  | false, some e => { state := if inv then verifyFails e s else engineTrip e s, out := none, commits := [], timed := false }

/-- An engine's wipe and check end (R255): its operand RAM, its registers, its hash units and its blinding values are zero. `ok` says
that every word read back as zero. -/
def engineWipeDone (e : BitVec 3) (ok : Bool) (s : State) : State :=
  if (s.engine e).state ≠ .wiping then s
  else if ok then s.setEngine e { clearEngine (s.engine e) with state := .idle }
  else retireEngine e 2 (trip .engineFcm (unitReading (e.setWidth 8)) s)

def execEngineWipeDone (e : BitVec 3) (ok : Bool) (s : State) : Host.Outcome State Fault Refusal :=
  act s (engineWipeDone e ok s)

/-! ### Dual-rail faults elsewhere, and the data pools (R392) -/

/-- A fault in a transfer of a running job, on a tile, an engine, in the vault or the RNG block: it is repeated once within the job, and a second
one reruns it. -/
def transferFault (j : JobId) (s : State) : State :=
  match s.job j with
  | none => s
  | some x =>
    if onCore x = false then s
    else if x.transfers = 0 then s.setJob { x with transfers := 1, retried := true }
    else jobFault 0x0216 x.units s x

/-- The unit byte of a fault's record. -/
def faultUnitByte : FaultUnit → BitVec 8
  | .tile t => t.setWidth 8
  | .engine e => e.setWidth 8
  | _ => 0

/-- A dual-rail pair holds both rails high (R392). -/
def dualRail (u : FaultUnit) (s : State) : State :=
  let s := trip .dualRail (unitReading (faultUnitByte u)) s
  match u with
  | .tile t => tileDualRail t s
  | .engine e => if (s.engine e).state = .retired then s else retireEngine e 3 s
  | .hall a => beginReload a s
  | .aisle j => transferFault j s
  | .vault j => transferFault j s

def execDualRailFault (u : FaultUnit) (s : State) : Host.Outcome State Fault Refusal := act s (dualRail u s)

/-- A held frame dropped at its port (R314, R392). -/
def dropHeld (n : Nat) (s : State) : State :=
  match s.stream.held[n]? with
  | none => s
  | some h =>
    let up (p : Port) : Port := { p with counters := p.counters.modify 3 (fun c => satAdd c 1) }
    { s with stream := { s.stream with
        held := s.stream.held.eraseIdx n, sint := s.stream.sint ||| 1, ports := s.stream.ports.modify h.port.toNat up } }

/-- An error of a data pool (R392): a corrected one is counted, an uncorrectable one damages what it lies in. -/
def dataError (w : DataPlace) (s : State) : State :=
  match w with
  | .corrected => { s with alarm := { s.alarm with dataCorr := satAdd s.alarm.dataCorr 1 } }
  | .context c => staleContext .damaged (trip .dataEcc (unitReading 0) s) c
  | .slot n => slotBad n 0x0B05 (trip .dataEcc (unitReading 0) s)
  | .crate n => poison (trip .dataEcc (unitReading 0) s) (if (s.crate n.toNat).isSome then [n.toNat] else [])
  | .frame n => dropHeld n.toNat (trip .dataEcc (unitReading 0) s)
  | .workbench j =>
    let s := trip .dataEcc (unitReading 0) s
    match s.job j with
    | none => s
    | some x => if onUnits x then jobFault 0x0216 x.units s x else s
  | .shelf t =>
    let s := trip .dataEcc (unitReading 0) s
    match (s.tile t).shelf with
    | none => s
    | some c =>
      let s := match tileJob s t.toNat with
        | some x => if residentEncaps x then breakJob s x stFault 0x0216 else s
        | none => s
      staleContext .damaged s c

def execDataEccError (w : DataPlace) (s : State) : Host.Outcome State Fault Refusal := act s (dataError w s)

end Sys2Proof.Machine
end

