-- ==== Sys2Proof/Machine/Curves.lean ====
section
/-! DEFINITION. The arithmetic of the big-number engines (R253): numbers modulo another, probable primes, the curves of SEC 2, RFC 5639,
RFC 7748 and RFC 8032, the groups of RFC 7919 and RFC 3526 (log 2). -/
namespace Sys2Proof.Machine

/-! ### Numbers modulo another -/

/-- The bits of a number. -/
def bitCount (n : Nat) : Nat := if n = 0 then 0 else Nat.log2 n + 1

/-- A number raised to a power modulo another, by the exponent's bits. -/
def powMod (m : Nat) : Nat → Nat → Nat → Nat
  | 0, _, _ => 1 % m
  | f + 1, b, e =>
    if e = 0 then 1 % m
    else
      let h := powMod m f (b * b % m) (e / 2)
      if e % 2 = 1 then h * b % m else h

/-- The same, with the fuel that its exponent needs. -/
def expMod (m b e : Nat) : Nat := powMod m (bitCount e) (b % m) e

/-- The extended Euclidean algorithm. -/
def invGo (m : Nat) : Nat → Nat → Nat → Int → Int → Nat
  | 0, _, _, _, _ => 0
  | f + 1, r0, r1, t0, t1 =>
    if r1 = 0 then (if r0 = 1 then (t0 % (m : Int)).toNat else 0)
    else invGo m f r1 (r0 % r1) t1 (t0 - ((r0 / r1 : Nat) : Int) * t1)

/-- The inverse of a number modulo another; zero where there is none. -/
def invMod (m a : Nat) : Nat := invGo m (2 * bitCount m + 4) m (a % m) 0 1

/-- A difference modulo a number. -/
def subMod (m a b : Nat) : Nat := (a % m + (m - b % m)) % m

/-- The number of times that two divides a number. -/
def twosOf : Nat → Nat → Nat
  | 0, _ => 0
  | f + 1, n => if n ≠ 0 ∧ n % 2 = 0 then twosOf f (n / 2) + 1 else 0

/-- The least i below a bound with t^(2^i) = 1. -/
def orderOfTwo (p : Nat) : Nat → Nat → Nat → Nat
  | 0, i, _ => i
  | f + 1, i, t => if t = 1 then i else orderOfTwo p f (i + 1) (t * t % p)

/-- The squarings of a square root by Tonelli and Shanks. -/
def tonelli (p : Nat) : Nat → Nat → Nat → Nat → Nat → Nat
  | 0, _, _, _, r => r
  | f + 1, m, c, t, r =>
    if t = 0 then 0
    else if t = 1 then r
    else
      let i := orderOfTwo p m 0 t
      let b := expMod p c (2 ^ (m - i - 1))
      tonelli p f i (b * b % p) (t * b % p * b % p) (r * b % p)

/-- A square root modulo a prime, where the number has one. -/
def sqrtMod (p n : Nat) : Option Nat :=
  let n := n % p
  let s := twosOf (bitCount p) (p - 1)
  let q := (p - 1) / 2 ^ s
  let r :=
    if p % 4 = 3 then expMod p n ((p + 1) / 4)
    else
      let z := (((List.range 4096).map (· + 2)).find? (fun z => expMod p z ((p - 1) / 2) == p - 1)).getD 2
      tonelli p (s + 1) s (expMod p z q) (expMod p n q) (expMod p n ((q + 1) / 2))
  if r * r % p = n then some r else none

/-! ### Probable primes (FIPS 186-5) -/

/-- Some square of a Miller–Rabin sequence is −1. -/
def squaresTo (n : Nat) : Nat → Nat → Bool
  | 0, _ => false
  | k + 1, x => x == n - 1 || squaresTo n k (x * x % n)

/-- One Miller–Rabin round with a base. -/
def millerRabin (n base : Nat) : Bool :=
  let s := twosOf (bitCount n) (n - 1)
  let x := expMod n base ((n - 1) / 2 ^ s)
  base % n == 0 || x == 1 || squaresTo n s x

/-- The Jacobi symbol of a number over an odd one. -/
def jacobiGo : Nat → Nat → Nat → Int → Int
  | 0, _, _, _ => 0
  | f + 1, a, n, t =>
    let a := a % n
    if a = 0 then (if n = 1 then t else 0)
    else
      let k := twosOf (bitCount a) a
      let b := a / 2 ^ k
      let t := if k % 2 = 1 ∧ (n % 8 = 3 ∨ n % 8 = 5) then -t else t
      let t := if b % 4 = 3 ∧ n % 4 = 3 then -t else t
      jacobiGo f n b t

def jacobi (a : Int) (n : Nat) : Int := jacobiGo (2 * bitCount n + 4) (a % (n : Int)).toNat n 1

/-- The discriminants 5, −7, 9, −11, … of the Lucas test. -/
def lucasD (k : Nat) : Int := if k % 2 = 0 then (5 + 2 * k : Nat) else -((5 + 2 * k : Nat) : Int)

/-- The Lucas sequence up to an index, by its bits from the second highest down. -/
def lucasGo (n d k : Nat) : Nat → Nat → Nat → Nat
  | 0, u, _ => u
  | i + 1, u, v =>
    let half (x : Nat) : Nat := if x % 2 = 0 then x / 2 % n else (x + n) / 2 % n
    let u2 := u * v % n
    let v2 := half (v * v + d * u * u)
    if k.testBit i then lucasGo n d k i (half (u2 + v2)) (half (v2 + d * u2)) else lucasGo n d k i u2 v2

/-- The Lucas test: a square fails it. -/
def lucasTest (n : Nat) : Bool :=
  match (List.range 64).find? (fun k => jacobi (lucasD k) n == -1) with
  | none => false
  | some k =>
    let d := (lucasD k % (n : Int)).toNat
    lucasGo n d (n + 1) (bitCount (n + 1) - 1) 1 1 == 0

/-- A probable prime: so many Miller–Rabin rounds, to the bases of the first primes (DESIGN CHOICE, log 68). -/
def millerRounds (rounds n : Nat) : Bool :=
  decide (3 < n) && n % 2 == 1 && (primesFrom 400 rounds 2).all (millerRabin n)

/-- 64 Miller–Rabin rounds and one Lucas test (R267). -/
def probablePrime (n : Nat) : Bool := millerRounds 64 n && lucasTest n

/-! ### Weierstrass curves -/

/-- A point: none at infinity. -/
abbrev Point := Option (Nat × Nat)

/-- y² = x³ + ax + b over a prime field. -/
structure Weier where
  p : Nat
  a : Nat
  b : Nat
  g : Nat × Nat
  n : Nat
  deriving DecidableEq, Repr

/-- A pair of coordinates satisfies the equation. -/
def Weier.has (c : Weier) (x y : Nat) : Bool := y * y % c.p == (x * x * x + c.a * x + c.b) % c.p

/-- The sum of two points. -/
def Weier.add (c : Weier) (q r : Point) : Point :=
  match q, r with
  | none, r => r
  | q, none => q
  | some (x1, y1), some (x2, y2) =>
    if x1 = x2 ∧ (y1 + y2) % c.p = 0 then none
    else
      let l := if x1 = x2 then (3 * x1 * x1 + c.a) * invMod c.p (2 * y1) % c.p
        else subMod c.p y2 y1 * invMod c.p (subMod c.p x2 x1) % c.p
      let x := subMod c.p (l * l) (x1 + x2)
      some (x, subMod c.p (l * subMod c.p x1 x) y1)

/-- A multiple of a point, by the scalar's bits. -/
def Weier.mulGo (c : Weier) : Nat → Nat → Point → Point
  | 0, _, _ => none
  | f + 1, k, q => if k = 0 then none else
    let h := c.mulGo f (k / 2) (c.add q q)
    if k % 2 = 1 then c.add q h else h

/-- A multiple of a point by a public number. -/
def Weier.mul (c : Weier) (k : Nat) (q : Point) : Point := c.mulGo (bitCount k) k q

/-! ### Multiplication by a secret (R278, R279) -/

/-- The blinding values of a multiplication: `r` the multiple of the order added to the scalar, `share` the value that splits the scalar into two
additive shares, `beta` that of a nonce's inverse or the factor of an extended modulus, `extra` one more, and the λ of the projective
coordinates. -/
structure Blinding where
  r     : Nat
  share : Nat
  beta  : Nat
  extra : Nat
  lam   : List Nat
  deriving DecidableEq, Repr

/-- No blinding: what a value is, computed outside the engines. -/
def noBlinding : Blinding := ⟨0, 0, 0, 0, []⟩

/-- d + r·n from the two shares of d modulo the order (R278): the plain d is formed nowhere. -/
def blindedScalar (n d : Nat) (b : Blinding) : Nat :=
  let s1 := b.share % n
  s1 + b.r % 2 ^ 64 * n + subMod n d s1

/-- The length of a blinded scalar: that of the order and of r, and a carry. -/
def ladderLen (n : Nat) : Nat := bitCount n + 65

/-- The λ of a step: a fresh non-zero one at the start and after each 64 steps (R278). -/
def lamAt (p : Nat) (lam : List Nat) (step : Nat) : Nat := (lam[step / 64]?).getD 0 % (p - 1) + 1

/-- The fixed Montgomery ladder: a step for each of so many bits of a scalar, the highest first, the coordinates randomised at the start
and after each 64 steps. -/
def climb {α : Type} (step : Bool → α → α) (scale : Nat → α → α) (p : Nat) (lam : List Nat) (k len : Nat) : Nat → α → α
  | 0, r => r
  | i + 1, r =>
    let n := len - (i + 1)
    climb step scale p lam k len i (step (k.testBit i) (if n % 64 = 0 then scale (lamAt p lam n) r else r))

/-- A step of a ladder over a group's addition: the pair's difference stays the base. -/
def rung {α : Type} (add : α → α → α) (b : Bool) (r : α × α) : α × α :=
  let s := add r.1 r.2
  if b then (s, add r.2 r.2) else (add r.1 r.1, s)

/-- A point in Jacobian coordinates: x = X / Z², y = Y / Z³, and Z = 0 at infinity. -/
structure Jac where
  x : Nat
  y : Nat
  z : Nat

/-- Other coordinates of the same point. -/
def Weier.scale (c : Weier) (l : Nat) (q : Jac) : Jac :=
  ⟨q.x * (l * l) % c.p, q.y * (l * l % c.p * l) % c.p, q.z * l % c.p⟩

/-- Twice a point. -/
def Weier.double (c : Weier) (q : Jac) : Jac :=
  if q.z = 0 ∨ q.y = 0 then ⟨1, 1, 0⟩
  else
    let yy := q.y * q.y % c.p
    let s := 4 * q.x * yy % c.p
    let zz := q.z * q.z % c.p
    let m := (3 * q.x * q.x + c.a * (zz * zz % c.p)) % c.p
    let x := subMod c.p (m * m) (2 * s)
    ⟨x, subMod c.p (m * subMod c.p s x) (8 * (yy * yy)), 2 * q.y * q.z % c.p⟩

/-- The sum of two points. -/
def Weier.jadd (c : Weier) (q r : Jac) : Jac :=
  if q.z = 0 then r
  else if r.z = 0 then q
  else
    let z1 := q.z * q.z % c.p
    let z2 := r.z * r.z % c.p
    let u1 := q.x * z2 % c.p
    let s1 := q.y * (z2 * r.z % c.p) % c.p
    let h := subMod c.p (r.x * z1) u1
    let t := subMod c.p (r.y * (z1 * q.z % c.p)) s1
    if h = 0 then (if t = 0 then c.double q else ⟨1, 1, 0⟩)
    else
      let hh := h * h % c.p
      let h3 := hh * h % c.p
      let v := u1 * hh % c.p
      let x := subMod c.p (t * t) (h3 + 2 * v)
      ⟨x, subMod c.p (t * subMod c.p v x) (s1 * h3), h * q.z % c.p * r.z % c.p⟩

/-- The point of Jacobian coordinates. -/
def Weier.affine (c : Weier) (q : Jac) : Point :=
  if q.z % c.p = 0 then none
  else
    let i := invMod c.p q.z
    let ii := i * i % c.p
    some (q.x * ii % c.p, q.y * (ii * i % c.p) % c.p)

/-- A point lies on the curve. -/
def Weier.on (c : Weier) : Point → Bool
  | none => true
  | some q => c.has q.1 q.2

/-- A secret multiple of a point by the ladder, with INVARIANT's check: the result and the other ladder point lie on the curve, and their
difference is the base (R279). -/
def Weier.secret (c : Weier) (b : Blinding) (d : Nat) (q : Nat × Nat) : Point × Bool :=
  let len := ladderLen c.n
  let r := climb (rung c.jadd) (fun l (r : Jac × Jac) => (c.scale l r.1, c.scale l r.2)) c.p b.lam (blindedScalar c.n d b) len len
    (⟨1, 1, 0⟩, ⟨q.1, q.2, 1⟩)
  let a := c.affine r.1
  let o := c.affine r.2
  (a, c.on a && c.on o && c.add a (some q) == o)

/-- The named curves (SEC 2, RFC 5639), by their number (R258). -/
def weierOf : Nat → Option Weier
  | 1 =>
    let p := 2 ^ 256 - 2 ^ 224 + 2 ^ 192 + 2 ^ 96 - 1
    some ⟨p, p - 3, 0x5AC635D8AA3A93E7B3EBBD55769886BC651D06B0CC53B0F63BCE3C3E27D2604B,
      (0x6B17D1F2E12C4247F8BCE6E563A440F277037D812DEB33A0F4A13945D898C296,
       0x4FE342E2FE1A7F9B8EE7EB4A7C0F9E162BCE33576B315ECECBB6406837BF51F5),
      0xFFFFFFFF00000000FFFFFFFFFFFFFFFFBCE6FAADA7179E84F3B9CAC2FC632551⟩
  | 2 =>
    let p := 2 ^ 384 - 2 ^ 128 - 2 ^ 96 + 2 ^ 32 - 1
    some ⟨p, p - 3, 0xB3312FA7E23EE7E4988E056BE3F82D19181D9C6EFE8141120314088F5013875AC656398D8A2ED19D2A85C8EDD3EC2AEF,
      (0xAA87CA22BE8B05378EB1C71EF320AD746E1D3B628BA79B9859F741E082542A385502F25DBF55296C3A545E3872760AB7,
       0x3617DE4A96262C6F5D9E98BF9292DC29F8F41DBD289A147CE9DA3113B5F0B8C00A60B1CE1D7E819D7A431D7C90EA0E5F),
      0xFFFFFFFFFFFFFFFFFFFFFFFFFFFFFFFFFFFFFFFFFFFFFFFFC7634D81F4372DDF581A0DB248B0A77AECEC196ACCC52973⟩
  | 3 =>
    let p := 2 ^ 521 - 1
    some ⟨p, p - 3,
      0x51953EB9618E1C9A1F929A21A0B68540EEA2DA725B99B315F3B8B489918EF109E156193951EC7E937B1652C0BD3BB1BF073573DF883D2C34F1EF451FD46B503F00,
      (0xC6858E06B70404E9CD9E3ECB662395B4429C648139053FB521F828AF606B4D3DBAA14B5E77EFE75928FE1DC127A2FFA8DE3348B3C1856A429BF97E7E31C2E5BD66,
       0x11839296A789A3BC0045C8A5FB42C7D1BD998F54449579B446817AFBD17273E662C97EE72995EF42640C550B9013FAD0761353C7086A272C24088BE94769FD16650),
      2 ^ 521 - 2 ^ 260 + 0xA51868783BF2F966B7FCC0148F709A5D03BB5C9B8899C47AEBB6FB71E91386409⟩
  | 4 =>
    some ⟨2 ^ 256 - 2 ^ 32 - 977, 0, 7,
      (0x79BE667EF9DCBBAC55A06295CE870B07029BFCDB2DCE28D959F2815B16F81798,
       0x483ADA7726A3C4655DA4FBFC0E1108A8FD17B448A68554199C47D08FFB10D4B8),
      0xFFFFFFFFFFFFFFFFFFFFFFFFFFFFFFFEBAAEDCE6AF48A03BBFD25E8CD0364141⟩
  | 5 =>
    some ⟨0xA9FB57DBA1EEA9BC3E660A909D838D726E3BF623D52620282013481D1F6E5377,
      0x7D5A0975FC2C3057EEF67530417AFFE7FB8055C126DC5C6CE94A4B44F330B5D9,
      0x26DC5C6CE94A4B44F330B5D9BBD77CBF958416295CF7E1CE6BCCDC18FF8C07B6,
      (0x8BD2AEB9CB7E57CB2C4B482FFC81B7AFB9DE27E1E3BD23C23A4453BD9ACE3262,
       0x547EF835C3DAC4FD97F8461A14611DC9C27745132DED8E545C1D54C72F046997),
      0xA9FB57DBA1EEA9BC3E660A909D838D718C397AA3B561A6F7901E0E82974856A7⟩
  | 6 =>
    some ⟨0x8CB91E82A3386D280F5D6F7E50E641DF152F7109ED5456B412B1DA197FB71123ACD3A729901D1A71874700133107EC53,
      0x7BC382C63D8C150C3C72080ACE05AFA0C2BEA28E4FB22787139165EFBA91F90F8AA5814A503AD4EB04A8C7DD22CE2826,
      0x04A8C7DD22CE28268B39B55416F0447C2FB77DE107DCD2A62E880EA53EEB62D57CB4390295DBC9943AB78696FA504C11,
      (0x1D1C64F068CF45FFA2A63A81B7C13F6B8847A3E77EF14FE3DB7FCAFE0CBD10E8E826E03436D646AAEF87B2E247D4AF1E,
       0x8ABE1D7520F9C2A45CB1EB8E95CFD55262B70B29FEEC5864E19C054FF99129280E4646217791811142820341263C5315),
      0x8CB91E82A3386D280F5D6F7E50E641DF152F7109ED5456B31F166E6CAC0425A7CF3AB6AF6B7FC3103B883202E9046565⟩
  | 7 =>
    some ⟨0xAADD9DB8DBE9C48B3FD4E6AE33C9FC07CB308DB3B3C9D20ED6639CCA703308717D4D9B009BC66842AECDA12AE6A380E62881FF2F2D82C68528AA6056583A48F3,
      0x7830A3318B603B89E2327145AC234CC594CBDD8D3DF91610A83441CAEA9863BC2DED5D5AA8253AA10A2EF1C98B9AC8B57F1117A72BF2C7B9E7C1AC4D77FC94CA,
      0x3DF91610A83441CAEA9863BC2DED5D5AA8253AA10A2EF1C98B9AC8B57F1117A72BF2C7B9E7C1AC4D77FC94CADC083E67984050B75EBAE5DD2809BD638016F723,
      (0x81AEE4BDD82ED9645A21322E9C4C6A9385ED9F70B5D916C1B43B62EEF4D0098EFF3B1F78E2D0D48D50D1687B93B97D5F7C6D5047406A5E688B352209BCB9F822,
       0x7DDE385D566332ECC0EABFA9CF7822FDF209F70024A57B1AA000C55B881F8111B2DCDE494A5F485E5BCA4BD88A2763AED1CA2B2FA8F0540678CD1E0F3AD80892),
      0xAADD9DB8DBE9C48B3FD4E6AE33C9FC07CB308DB3B3C9D20ED6639CCA70330870553E5C414CA92619418661197FAC10471DB1D381085DDADDB58796829CA90069⟩
  | _ => none

/-! ### Montgomery curves (RFC 7748) -/

/-- A Montgomery curve: its prime, (A − 2) / 4, the bits of a scalar and of a coordinate, the base point's u, the length in bytes. -/
structure Mont where
  p    : Nat
  a24  : Nat
  bits : Nat
  base : Nat
  len  : Nat
  deriving DecidableEq, Repr

def x25519Curve : Mont := ⟨2 ^ 255 - 19, 121665, 255, 9, 32⟩
def x448Curve : Mont := ⟨2 ^ 448 - 2 ^ 224 - 1, 39081, 448, 5, 56⟩

/-- The state of the ladder. -/
structure Rung where
  x2 : Nat
  z2 : Nat
  x3 : Nat
  z3 : Nat

/-- One step of the ladder with a bit of the scalar. -/
def ladderStep (c : Mont) (x1 : Nat) (bit : Bool) (r : Rung) : Rung :=
  let m := c.p
  let (xa, za, xb, zb) := if bit then (r.x3, r.z3, r.x2, r.z2) else (r.x2, r.z2, r.x3, r.z3)
  let a := (xa + za) % m
  let b := subMod m xa za
  let aa := a * a % m
  let bb := b * b % m
  let e := subMod m aa bb
  let da := subMod m xb zb * a % m
  let cb := (xb + zb) * b % m
  let s := (da + cb) % m
  let d := subMod m da cb
  let x4 := s * s % m
  let z4 := x1 * (d * d % m) % m
  let x5 := aa * bb % m
  let z5 := e * (aa + c.a24 * e) % m
  if bit then ⟨x4, z4, x5, z5⟩ else ⟨x5, z5, x4, z4⟩

/-- Other coordinates of the same two points. -/
def Mont.scale (c : Mont) (l : Nat) (r : Rung) : Rung := ⟨r.x2 * l % c.p, r.z2 * l % c.p, r.x3 * l % c.p, r.z3 * l % c.p⟩

/-- On which side a coordinate X / Z lies: a point of the curve or of its twist, or zero at a point whose double is at infinity. -/
def Mont.side (c : Mont) (x z : Nat) : Int :=
  jacobi (x * z % c.p * ((x * x + (4 * c.a24 + 2) * x % c.p * z + z * z) % c.p) % c.p : Nat) c.p

/-- The two points of a ladder differ by the base: the base's coordinate is a root of the quadratic of which the coordinates of their sum and
their difference are the roots. -/
def Mont.apart (c : Mont) (u : Nat) (r : Rung) : Bool :=
  let d := subMod c.p (r.x2 * r.z3) (r.x3 * r.z2)
  let e := subMod c.p (r.x2 * r.x3) (r.z2 * r.z3)
  let m := ((r.x2 * r.z3 + r.x3 * r.z2) % c.p * ((r.x2 * r.x3 + r.z2 * r.z3) % c.p) +
    2 * (4 * c.a24 + 2) * (r.x2 * r.x3 % c.p) % c.p * (r.z2 * r.z3 % c.p)) % c.p
  (d * d % c.p * (u * u % c.p) + e * e) % c.p == 2 * m * u % c.p

/-- INVARIANT's check of a ladder (R279): both points lie where the base lies, and differ by it. -/
def Mont.ladderOk (c : Mont) (u : Nat) (r : Rung) : Bool :=
  let at_ (x z : Nat) : Bool := let k := c.side x z; k == 0 || k == c.side u 1
  at_ r.x2 r.z2 && at_ r.x3 r.z3 && c.apart u r

/-- The scalar of a private value. -/
def Mont.scalar (c : Mont) (v : Bytes) : Nat :=
  let k := leNat v
  if c.bits = 255 then k % 2 ^ 255 / 8 * 8 % 2 ^ 254 + 2 ^ 254 else k / 4 * 4 % 2 ^ 447 + 2 ^ 447

/-- X25519 or X448, with INVARIANT's check: the top bit of an X25519 coordinate is masked, and a coordinate at or above p reduced (R271). -/
def Mont.agree (c : Mont) (b : Blinding) (priv u : Bytes) : Bytes × Bool :=
  let x := leNat u % 2 ^ c.bits % c.p
  let r := climb (ladderStep c x) c.scale c.p b.lam (c.scalar priv) c.bits c.bits ⟨1, 0, x, 1⟩
  (leBytes c.len (r.x2 * invMod c.p r.z2 % c.p), c.ladderOk x r)

/-- The shared secret alone. -/
def Mont.exchange (c : Mont) (priv u : Bytes) : Bytes := (c.agree noBlinding priv u).1

/-- The public key of a private value, with INVARIANT's check. -/
def Mont.pub (c : Mont) (b : Blinding) (priv : Bytes) : Bytes × Bool := c.agree b priv (leBytes c.len c.base)

/-- A set's curve. -/
def montOf (set : Nat) : Mont := if set = 1 then x25519Curve else x448Curve

/-! ### Edwards curves (RFC 8032) -/

/-- A twisted Edwards curve: its prime, a, d, base point, order, the bytes of an encoding, the exponent of its cofactor. -/
structure Edwards where
  p    : Nat
  a    : Nat
  d    : Nat
  base : Nat × Nat
  l    : Nat
  len  : Nat
  cof  : Nat
  deriving DecidableEq, Repr

def ed25519Curve : Edwards :=
  let p := 2 ^ 255 - 19
  { p := p, a := p - 1, d := 37095705934669439343138083508754565189542113879843219016388785533085940283555,
    base := (15112221349535400772501151409588531511454012693041857206046113283949847762202,
             46316835694926478169428394003475163141307993866256225615783033603165251855960),
    l := 2 ^ 252 + 27742317777372353535851937790883648493, len := 32, cof := 3 }

def ed448Curve : Edwards :=
  let p := 2 ^ 448 - 2 ^ 224 - 1
  { p := p, a := 1, d := p - 39081,
    base := (224580040295924300187604334099896036246789641632564134246125461686950415467406032909029192869357953282578032075146446173674602635247710,
             298819210078481492676017930443930673437544040154080242095928241372331506189835876003536878655418784733982303233503462500531545062832660),
    l := 2 ^ 446 - 13818066809895115352007386748515426880336692474882178609894547503885, len := 57, cof := 2 }

/-- A set's curve. -/
def edwardsOf (set : Nat) : Edwards := if set = 1 then ed25519Curve else ed448Curve

/-- The sum of two points: the formulas are complete. -/
def Edwards.add (c : Edwards) (q r : Nat × Nat) : Nat × Nat :=
  let t := c.d * q.1 * r.1 * q.2 * r.2 % c.p
  ((q.1 * r.2 + r.1 * q.2) * invMod c.p (1 + t) % c.p,
   subMod c.p (q.2 * r.2) (c.a * q.1 * r.1) * invMod c.p (subMod c.p 1 t) % c.p)

def Edwards.mulGo (c : Edwards) : Nat → Nat → Nat × Nat → Nat × Nat
  | 0, _, _ => (0, 1)
  | f + 1, k, q => if k = 0 then (0, 1) else
    let h := c.mulGo f (k / 2) (c.add q q)
    if k % 2 = 1 then c.add q h else h

/-- A multiple of a point by a public number. -/
def Edwards.mul (c : Edwards) (k : Nat) (q : Nat × Nat) : Nat × Nat := c.mulGo (bitCount k) k q

/-- A pair of coordinates satisfies the equation. -/
def Edwards.on (c : Edwards) (q : Nat × Nat) : Bool :=
  (c.a * (q.1 * q.1 % c.p) + q.2 * q.2) % c.p == (1 + c.d * (q.1 * q.1 % c.p) % c.p * (q.2 * q.2 % c.p)) % c.p

/-- Other coordinates of the same point: x = X / Z, y = Y / Z. -/
def Edwards.scale (c : Edwards) (l : Nat) (q : Jac) : Jac := ⟨q.x * l % c.p, q.y * l % c.p, q.z * l % c.p⟩

/-- The sum of two points in projective coordinates. -/
def Edwards.padd (c : Edwards) (q r : Jac) : Jac :=
  let a := q.z * r.z % c.p
  let b := a * a % c.p
  let u := q.x * r.x % c.p
  let v := q.y * r.y % c.p
  let e := c.d * u % c.p * v % c.p
  let f := subMod c.p b e
  let g := (b + e) % c.p
  ⟨a * f % c.p * subMod c.p ((q.x + q.y) * (r.x + r.y)) (u + v) % c.p, a * g % c.p * subMod c.p v (c.a * u) % c.p, f * g % c.p⟩

/-- The point of projective coordinates. -/
def Edwards.affine (c : Edwards) (q : Jac) : Nat × Nat :=
  let i := invMod c.p q.z
  (q.x * i % c.p, q.y * i % c.p)

/-- A secret multiple of a point by the ladder, with INVARIANT's check (R278, R279). -/
def Edwards.secret (c : Edwards) (b : Blinding) (d : Nat) (q : Nat × Nat) : (Nat × Nat) × Bool :=
  let len := ladderLen c.l
  let r := climb (rung c.padd) (fun l (r : Jac × Jac) => (c.scale l r.1, c.scale l r.2)) c.p b.lam (blindedScalar c.l d b) len len
    (⟨0, 1, 1⟩, ⟨q.1, q.2, 1⟩)
  let a := c.affine r.1
  let o := c.affine r.2
  (a, c.on a && c.on o && c.add a q == o)

/-- The encoding of a point. -/
def Edwards.encode (c : Edwards) (q : Nat × Nat) : Bytes := leBytes c.len (q.2 + q.1 % 2 * 2 ^ (8 * c.len - 1))

/-- The point of an encoding: none for a y that is not canonical, or for which no x exists (R270). -/
def Edwards.decode (c : Edwards) (b : Bytes) : Option (Nat × Nat) :=
  let v := leNat b
  let y := v % 2 ^ (8 * c.len - 1)
  let sign := v / 2 ^ (8 * c.len - 1) % 2
  if b.length ≠ c.len ∨ c.p ≤ y then none
  else
    match sqrtMod c.p (subMod c.p (y * y) 1 * invMod c.p (subMod c.p (c.d * y * y) c.a)) with
    | none => none
    | some x => if x = 0 ∧ sign = 1 then none else some (if x % 2 = sign then x else (c.p - x) % c.p, y)

/-- A point multiplied by the cofactor is the neutral one. -/
def Edwards.small (c : Edwards) (q : Nat × Nat) : Bool := c.mul (2 ^ c.cof) q == (0, 1)

/-- The domain prefix of a variant: `ph` says prehashed. Ed25519 has none under PURE with an empty context (R269). -/
def Edwards.dom (c : Edwards) (ph : Bool) (ctx : Bytes) : Bytes :=
  let f : Byte := if ph then 1 else 0
  if c.len = 32 then
    (if ph = false ∧ ctx.isEmpty then []
     else ascii "SigEd25519 no Ed25519 collisions" ++ [f, BitVec.ofNat 8 ctx.length] ++ ctx)
  else ascii "SigEd448" ++ [f, BitVec.ofNat 8 ctx.length] ++ ctx

/-- The hash of a variant. -/
def Edwards.hash (c : Edwards) (m : Bytes) : Bytes := if c.len = 32 then sha512 m else shake256 114 m

/-- The scalar and the prefix of a seed. -/
def Edwards.expand (c : Edwards) (seed : Bytes) : Nat × Bytes :=
  let h := c.hash seed
  let v := leNat (h.take c.len)
  (if c.len = 32 then v % 2 ^ 255 / 8 * 8 % 2 ^ 254 + 2 ^ 254 else v % 2 ^ 448 / 4 * 4 % 2 ^ 447 + 2 ^ 447, h.drop c.len)

/-- The public key of a seed, with INVARIANT's check. -/
def Edwards.pub (c : Edwards) (b : Blinding) (seed : Bytes) : Bytes × Bool :=
  let q := c.secret b (c.expand seed).1 c.base
  (c.encode q.1, q.2)

/-- A signature of a message under a domain prefix, with both scalars blinded (R278), and INVARIANT's check of both multiplications. -/
def Edwards.sign (c : Edwards) (b1 b2 : Blinding) (seed dom m : Bytes) : Bytes × Bool :=
  let e := c.expand seed
  let a := c.pub b1 seed
  let r := leNat (c.hash (dom ++ e.2 ++ m)) % c.l
  let q := c.secret b2 r c.base
  let rp := c.encode q.1
  let k := leNat (c.hash (dom ++ rp ++ a.1 ++ m)) % c.l
  (rp ++ leBytes c.len ((r + k * (blindedScalar c.l e.1 b1 % c.l)) % c.l), a.2 && q.2)

/-- The cofactored equation [2^c][S]B = [2^c]R + [2^c][k]A (R270). -/
def Edwards.verify (c : Edwards) (pk dom m sig : Bytes) : Bool :=
  let s := leNat (sig.drop c.len)
  match c.decode pk, c.decode (sig.take c.len) with
  | some a, some r =>
    let k := leNat (c.hash (dom ++ sig.take c.len ++ pk ++ m)) % c.l
    let h := 2 ^ c.cof
    decide (s < c.l) && c.mul h (c.mul s c.base) == c.add (c.mul h r) (c.mul h (c.mul k a))
  | _, _ => false

/-! ### Finite-field groups (RFC 7919, RFC 3526) -/

/-- The alternating series of an inverse tangent of 1 / x, in units of `one`. -/
def arctanGo (x2 : Nat) : Nat → Nat → Nat → Int → Int
  | 0, _, _, s => s
  | f + 1, t, n, s =>
    let t := t / x2
    let u : Int := ((t / n : Nat) : Int)
    arctanGo x2 f t (n + 2) (if n % 4 = 3 then s - u else s + u)

/-- ⌊2^k · π⌋, by Machin's formula with guard bits. -/
def piBits (k : Nat) : Nat :=
  let one := 2 ^ (k + 64)
  let at_ (x : Nat) : Int := arctanGo (x * x) (k + 64) (one / x) 3 ((one / x : Nat) : Int)
  (4 * (4 * at_ 5 - at_ 239)).toNat / 2 ^ 64

/-- The series of e. -/
def eulerGo : Nat → Nat → Nat → Nat → Nat
  | 0, _, _, s => s
  | f + 1, t, n, s => eulerGo f (t / n) (n + 1) (s + t)

/-- ⌊2^k · e⌋, with guard bits. -/
def eulerBits (k : Nat) : Nat := eulerGo (k + 64) (2 ^ (k + 64)) 1 0 / 2 ^ 64

/-- The prime of a group (R258): its bits, and the two added constants of its row. -/
def groupPrime (set : Nat) : Nat :=
  let row : Nat × Nat × Nat :=
    match set % 16 with
    | 1 => (2048, 560316, 124476)
    | 2 => (3072, 2625351, 1690314)
    | 3 => (4096, 5736041, 240904)
    | 4 => (6144, 15705020, 929484)
    | _ => (8192, 10965728, 4743158)
  let n := row.1
  let mid := if set < 0x200 then eulerBits (n - 130) + row.2.1 else piBits (n - 130) + row.2.2
  2 ^ n - 2 ^ (n - 64) + 2 ^ 64 * mid - 1

/-! ### HMAC and RFC 6979 -/

/-- The hash that PH names (R176), with its block length. -/
def phHash : Nat → (Bytes → Bytes) × Nat
  | 1 => (sha256, 64)
  | 2 => (sha384, 128)
  | 3 => (sha512, 128)
  | 4 => (sha3_256, 136)
  | 5 => (sha3_384, 104)
  | 6 => (sha3_512, 72)
  | 7 => (shake128 32, 168)
  | _ => (shake256 64, 136)

/-- The HMAC over the hash that PH names. -/
def phHmac (ph : Nat) (key m : Bytes) : Bytes := hmac (phHash ph).1 (phHash ph).2 key m

/-- The leftmost bits of a string as a number. -/
def leftBits (n : Nat) (b : Bytes) : Nat := if n < 8 * b.length then beNat b / 2 ^ (8 * b.length - n) else beNat b

/-- The generator of RFC 6979: its K and V. -/
structure NonceGen where
  k : Bytes
  v : Bytes

/-- T of RFC 6979, from as many V as it takes, with the V that is left. -/
def nonceT (ph : Nat) (k : Bytes) (len : Nat) : Nat → Bytes → Bytes → Bytes × Bytes
  | 0, v, t => (t, v)
  | f + 1, v, t =>
    if len ≤ t.length then (t, v)
    else
      let v := phHmac ph k v
      nonceT ph k len f v (t ++ v)

/-- The generator after a candidate that was not taken. -/
def nonceNext (ph : Nat) (g : NonceGen) : NonceGen :=
  let k := phHmac ph g.k (g.v ++ [0])
  { k := k, v := phHmac ph k g.v }

/-- The generator as a key and a digest seed it. -/
def nonceSeed (ph qlen qbits order x : Nat) (digest : Bytes) : NonceGen :=
  let h := ((phHash ph).1 []).length
  let head := beBytes qlen x ++ beBytes qlen (leftBits qbits digest % order)
  let v : Bytes := List.replicate h 0x01
  let k : Bytes := zeros h
  let k := phHmac ph k (v ++ [0] ++ head)
  let v := phHmac ph k v
  let k := phHmac ph k (v ++ [1] ++ head)
  { k := k, v := phHmac ph k v }

/-- The next candidate in range, and the generator after it. -/
def nonceTake (ph qlen qbits order : Nat) : Nat → NonceGen → Nat × NonceGen
  | 0, g => (1, g)
  | f + 1, g =>
    let (t, v) := nonceT ph g.k qlen (qlen + 1) g.v []
    let k := leftBits qbits t
    let after := nonceNext ph { g with v := v }
    if 1 ≤ k ∧ k < order then (k, after) else nonceTake ph qlen qbits order f after

end Sys2Proof.Machine
end

