-- ==== Sys2Proof/Machine/Keys.lean ====
section
/-! DEFINITION. The families of keys (R341): their parameter sets, the lengths and cells of their objects, where a value
holds its public key, and the checks of public keys (R167, R172, R180, R192, R197, R200, R236, R238, R258 to R261, R270, R273,
R276). -/
namespace Sys2Proof.Machine

/-- What the objects of a parameter set measure, in bytes: public key, private key, signature or ciphertext, shared
secret; and the cells of a slot. -/
structure SetSize where
  pub    : Nat
  priv   : Nat
  out    : Nat
  secret : Nat
  cells  : Nat
  deriving DecidableEq, Repr

/-! ### Sets -/

/-- ML-KEM (R167). -/
def kemSize : Nat → Option SetSize
  | 1 => some ⟨800, 1632, 768, 32, 2⟩
  | 2 => some ⟨1184, 2400, 1088, 32, 3⟩
  | 3 => some ⟨1568, 3168, 1568, 32, 4⟩
  | _ => none

/-- ML-DSA (R167). -/
def mldsaSize : Nat → Option SetSize
  | 1 => some ⟨1312, 2560, 2420, 0, 4⟩
  | 2 => some ⟨1952, 4032, 3309, 0, 6⟩
  | 3 => some ⟨2592, 4896, 4627, 0, 8⟩
  | _ => none

/-- FN-DSA (R167). -/
def fndsaSize : Nat → Option SetSize
  | 1 => some ⟨897, 1281, 666, 0, 3⟩
  | 2 => some ⟨1793, 2305, 1280, 0, 5⟩
  | _ => none

/-- SLH-DSA, less the family of its hash (R192). -/
def slhdsaHalf : Nat → Option SetSize
  | 1 => some ⟨32, 64, 7856, 0, 9⟩
  | 2 => some ⟨32, 64, 17088, 0, 1⟩
  | 3 => some ⟨48, 96, 16224, 0, 13⟩
  | 4 => some ⟨48, 96, 35664, 0, 1⟩
  | 5 => some ⟨64, 128, 29792, 0, 9⟩
  | 6 => some ⟨64, 128, 49856, 0, 1⟩
  | _ => none

/-- SLH-DSA (R192). -/
def slhdsaSize (n : Nat) : Option SetSize := if n < 0x10 then slhdsaHalf n else slhdsaHalf (n - 0x10)

/-- HQC (R236). -/
def hqcSize : Nat → Option SetSize
  | 1 => some ⟨2249, 2305, 4433, 64, 3⟩
  | 2 => some ⟨4522, 4586, 8978, 64, 5⟩
  | 3 => some ⟨7245, 7317, 14421, 64, 8⟩
  | _ => none

/-- Classic McEliece, an f set as its plain set (R236). -/
def mceHalf : Nat → Option SetSize
  | 1 => some ⟨261120, 6492, 96, 32, 7⟩
  | 2 => some ⟨524160, 13608, 156, 32, 14⟩
  | 3 => some ⟨1044992, 13932, 208, 32, 14⟩
  | 4 => some ⟨1047319, 13948, 194, 32, 14⟩
  | 5 => some ⟨1357824, 14120, 208, 32, 14⟩
  | _ => none

/-- Classic McEliece (R236). -/
def mceSize (n : Nat) : Option SetSize := if n < 0x10 then mceHalf n else mceHalf (n - 0x10)

/-- The byte length of the field prime of a named curve (R258, R259). -/
def curveLen : Nat → Option Nat
  | 1 => some 32
  | 2 => some 48
  | 3 => some 66
  | 4 => some 32
  | 5 => some 32
  | 6 => some 48
  | 7 => some 64
  | _ => none

/-- An EC key over a field of `l` bytes and a group order of `ln` (R259). -/
def ecSizeOf (l ln : Nat) : SetSize := ⟨1 + 2 * l, ln, 2 * ln, l, 1⟩

/-- The named curves (R259). On each of them the group order has the bytes of the field prime. -/
def ecSize (n : Nat) : Option SetSize := (curveLen n).map (fun l => ecSizeOf l l)

/-- EdDSA (R259). -/
def eddsaSize : Nat → Option SetSize
  | 1 => some ⟨32, 32, 64, 0, 1⟩
  | 2 => some ⟨57, 57, 114, 0, 1⟩
  | _ => none

/-- XDH (R259). -/
def xdhSize : Nat → Option SetSize
  | 1 => some ⟨32, 32, 0, 32, 1⟩
  | 2 => some ⟨56, 56, 0, 56, 1⟩
  | _ => none

/-- RSA by its modulus length in bits (R258, R259, R341); an odd number of bytes gives CRT values of the next whole byte
(log 13). -/
def rsaSize (n : Nat) : Option SetSize :=
  if 1024 ≤ n ∧ n ≤ 8192 ∧ n % 8 = 0 then
    let k := n / 8
    some ⟨k + 4, k + 4 + 5 * ((k + 1) / 2), k, 0, ceilDiv (7 * k + 8) 2048⟩
  else none

/-- The bytes of the prime, and of the exponent, of a group of RFC 7919 or RFC 3526 (R258, R276). -/
def dhRow : Nat → Option (Nat × Nat)
  | 1 => some (256, 28)
  | 2 => some (384, 32)
  | 3 => some (512, 38)
  | 4 => some (768, 44)
  | 5 => some (1024, 50)
  | _ => none

/-- FFDH (R258, R259). -/
def dhSize (n : Nat) : Option SetSize :=
  (if 0x100 < n ∧ n < 0x106 then dhRow (n - 0x100) else if 0x200 < n ∧ n < 0x206 then dhRow (n - 0x200) else none).map
    (fun r => ⟨r.1, r.2, 0, r.1, 1⟩)

/-! ### Stateful sets (R197, R200) -/

/-- A tree of a stateful key: levels, height of one tree, hash length, chains of a one-time key. -/
structure TreeSet where
  levels : Nat
  height : Nat
  n      : Nat
  chains : Nat
  deriving DecidableEq, Repr

/-- The LM-OTS chain count by its W and hash length (RFC 8554, SP 800-208). -/
def lmotsChains (n w : Nat) : Nat :=
  match n, w with
  | 32, 0 => 265
  | 32, 1 => 133
  | 32, 2 => 67
  | 32, _ => 34
  | _, 0 => 200
  | _, 1 => 101
  | _, 2 => 51
  | _, _ => 26

/-- An LMS pair of typecodes, with one level (R197). -/
def lmsTree (set : Nat) : Option TreeSet :=
  let lms := set % 256
  let ots := set / 256
  if 5 ≤ lms ∧ lms ≤ 0x18 ∧ 1 ≤ ots ∧ ots ≤ 0x10 ∧ (lms - 5) / 5 = (ots - 1) / 4 then
    let n := if (lms - 5) / 5 % 2 = 0 then 32 else 24
    some ⟨1, 5 * ((lms - 5) % 5 + 1), n, lmotsChains n ((ots - 1) % 4)⟩
  else none

/-- The XMSS sets that SP 800-208 approves (log 14). -/
def xmssTree (set : Nat) : Option TreeSet :=
  let row (i n c : Nat) : Option TreeSet := some ⟨1, if i = 0 then 10 else if i = 1 then 16 else 20, n, c⟩
  if 0x01 ≤ set ∧ set ≤ 0x03 then row (set - 0x01) 32 67
  else if 0x0D ≤ set ∧ set ≤ 0x0F then row (set - 0x0D) 24 51
  else if 0x10 ≤ set ∧ set ≤ 0x12 then row (set - 0x10) 32 67
  else if 0x13 ≤ set ∧ set ≤ 0x15 then row (set - 0x13) 24 51
  else none

/-- Levels and the height of one tree of the eight shapes of XMSS^MT. -/
def xmssmtShape : Nat → Nat × Nat
  | 0 => (2, 10)
  | 1 => (4, 5)
  | 2 => (2, 20)
  | 3 => (4, 10)
  | 4 => (8, 5)
  | 5 => (3, 20)
  | 6 => (6, 10)
  | _ => (12, 5)

/-- The XMSS^MT sets that SP 800-208 approves (log 14). -/
def xmssmtTree (set : Nat) : Option TreeSet :=
  let row (i n c : Nat) : Option TreeSet := some ⟨(xmssmtShape i).1, (xmssmtShape i).2, n, c⟩
  if 0x01 ≤ set ∧ set ≤ 0x08 then row (set - 0x01) 32 67
  else if 0x21 ≤ set ∧ set ≤ 0x28 then row (set - 0x21) 24 51
  else if 0x29 ≤ set ∧ set ≤ 0x30 then row (set - 0x29) 32 67
  else if 0x31 ≤ set ∧ set ≤ 0x38 then row (set - 0x31) 24 51
  else none

/-- A TYPE is of a stateful family, by its low bits. -/
def statefulType (t : Nat) : Bool := t == 6 || t == 7 || t == 8

/-- The tree of a stateful TYPE and set; LMS with one level. -/
def treeOf (typ set : Nat) : Option TreeSet :=
  match typ with
  | 6 => lmsTree set
  | 7 => xmssTree set
  | 8 => xmssmtTree set
  | _ => none

/-- The length of a stateful public key (R200). -/
def treePub (typ : Nat) (t : TreeSet) : Nat := if typ = 6 then 28 + t.n else 4 + 2 * t.n

/-- The length of a stateful signature (R200). -/
def treeSig (typ : Nat) (t : TreeSet) : Nat :=
  let one := 4 + (4 + t.n + t.chains * t.n) + 4 + t.height * t.n
  match typ with
  | 6 => 4 + (t.levels - 1) * (one + 24 + t.n) + one
  | 7 => 4 + t.n + t.chains * t.n + t.height * t.n
  | _ => ceilDiv (t.levels * t.height) 8 + t.n + t.levels * (t.chains * t.n + t.height * t.n)

/-- The sizes of a stateful set. -/
def treeSize (typ set : Nat) : Option SetSize := (treeOf typ set).map (fun t => ⟨treePub typ t, 0, treeSig typ t, 0, 1⟩)

/-! ### TYPE and PARAM_SET together -/

/-- The sizes of a family's set, by the TYPE of its private keys (R341). -/
def sizeOf (typ set : Nat) : Option SetSize :=
  match typ with
  | 2 => kemSize set
  | 3 => mldsaSize set
  | 4 => fndsaSize set
  | 5 => slhdsaSize set
  | 6 => treeSize 6 set
  | 7 => treeSize 7 set
  | 8 => treeSize 8 set
  | 9 => hqcSize set
  | 10 => mceSize set
  | 11 => ecSize set
  | 12 => eddsaSize set
  | 13 => xdhSize set
  | 14 => rsaSize set
  | 15 => dhSize set
  | _ => none

/-- The family of a TYPE, without the mark of a public-only key. -/
def familyOf (t : BitVec 16) : Nat := (t &&& 0x7FFF).toNat

/-- A public-only TYPE (R341). -/
def publicOnly (t : BitVec 16) : Bool := bit t 15

/-- The length of a private key's value (R341): with the public key beside it where the table says so. -/
def privateLen (typ : Nat) (z : SetSize) : Nat :=
  if [3, 4, 11, 12, 13, 15].contains typ then z.priv + z.pub else z.priv

/-- Where a private key's value holds its public key. -/
def publicPart (typ : Nat) (z : SetSize) (value : Bytes) : Bytes :=
  if typ = 2 then slice value (z.priv - z.pub - 64) z.pub
  else if typ = 14 then value.take z.pub
  else value.drop (value.length - z.pub)

/-- The number of a family's set to the functions of its standard. -/
def keyAlg (typ set : Nat) : Nat := 65536 * typ + set

/-- The sizes of a key. A loaded curve's order has at most a byte more or less than its prime (checks 7 and 8 of R267), so the length
of its value tells both. -/
def keySize (k : Key) : SetSize :=
  match sizeOf (familyOf k.typ) k.paramSet.toNat with
  | some z => z
  | none =>
    let l := k.value.length / 3
    if familyOf k.typ = 11 then ecSizeOf l (k.value.length - 1 - 2 * l) else ⟨0, 0, 0, 0, 1⟩

/-- The public key of a key in a slot: the value of a public-only key, a stateful key's own, or the part of a private key's. A
McEliece value holds none. -/
def publicOf (k : Key) : Bytes :=
  match k.stateful with
  | some f => f.pub
  | none => if publicOnly k.typ then k.value else publicPart (familyOf k.typ) (keySize k) k.value

/-- The cells of a public-only key (R341). -/
def publicCells (len : Nat) : Nat := max 1 (ceilDiv len 1024)

/-! ### Checks of a public key -/

/-- The 12-bit coefficients of an encoding. -/
def coeffs12 : Bytes → List Nat
  | a :: b :: c :: t => (a.toNat + 256 * (b.toNat % 16)) :: (b.toNat / 16 + 16 * c.toNat) :: coeffs12 t
  | _ => []

/-- The modulus check of FIPS 203 (R172): every coefficient below 3,329. The last 32 bytes are the seed. -/
def kemModulusOk (pk : Bytes) : Bool := (coeffs12 (pk.take (pk.length - 32))).all (fun x => decide (x < 3329))

/-- The 14-bit coefficients of an FN-DSA public key after its header, highest bits first. -/
def coeffs14 (n : Nat) (body : Bytes) : List Nat :=
  let v := beNat body
  (List.range n).map (fun i => v / 2 ^ (8 * body.length - 14 * (i + 1)) % 16384)

/-- The checks of an FN-DSA public key (R180). -/
def fndsaPubBad (set : Nat) (pk : Bytes) : Option Bad :=
  let n := if set = 1 then 512 else 1024
  if pk.take 1 ≠ [if set = 1 then 0x09#8 else 0x0A#8] then bad stInputRange 0x0401
  else badWhen ((coeffs14 n (pk.drop 1)).any (fun x => decide (12289 ≤ x))) (bad stInputRange 0x0402)

/-- The padding bits of an HQC public key (R238). -/
def hqcPadBits (set : Nat) : Nat := if set = 2 then 5 else 3

/-- The padding check of an HQC public key (R238). -/
def hqcPubBad (set : Nat) (pk : Bytes) : Option Bad :=
  badWhen (decide (2 ^ (8 - hqcPadBits set) ≤ ((pk.getLast?).getD 0).toNat)) (bad stInputRange 0x0710)

/-- The padding check of a McEliece public key (R244): only 6960119 has padding, three bits in the last byte of a row of
677 bytes. -/
def mcePadOk (set : Nat) (pk : Bytes) : Bool :=
  set % 16 != 4 || (List.range (pk.length / 677)).all (fun i => decide (((pk[677 * i + 676]?).getD 0).toNat < 32))

/-- A curve as its checks need it: the number it has, the bytes and value of its prime, the bytes, bits and value of its order, its
cofactor, the coefficients and the base point of its equation. -/
structure Curve where
  num      : Nat
  len      : Nat
  prime    : Nat
  orderLen : Nat
  order    : Nat
  orderBits : Nat
  cofactor : Nat
  a        : Nat
  b        : Nat
  g        : Nat × Nat
  deriving DecidableEq, Repr

/-- No curve at all. -/
def noCurve : Curve :=
  { num := 0, len := 0, prime := 0, orderLen := 0, order := 0, orderBits := 0, cofactor := 1, a := 0, b := 0, g := (0, 0) }

/-- A curve's equation, base point and order. -/
def Curve.weier (c : Curve) : Weier := { p := c.prime, a := c.a, b := c.b, g := c.g, n := c.order }

/-- A named curve (SEC 2, RFC 5639; log 2). -/
def namedCurve (n : Nat) : Option Curve :=
  match weierOf n, curveLen n with
  | some w, some l => some { num := n, len := l, prime := w.p, orderLen := l, order := w.n, orderBits := bitCount w.n, cofactor := 1,
                             a := w.a, b := w.b, g := w.g }
  | _, _ => none

/-- The sizes of a curve's keys. -/
def Curve.size (c : Curve) : SetSize := ecSizeOf c.len c.orderLen

/-- The length that a public key's form gives it (R261, step 1); none for a form that does not exist. -/
def ecFormLen (c : Curve) (pk : Bytes) : Option Nat :=
  match pk.head? with
  | some 0x02#8 => some (1 + c.len)
  | some 0x03#8 => some (1 + c.len)
  | some 0x04#8 => some (1 + 2 * c.len)
  | _ => none

/-- The point of a public key's encoding (SEC 1): none for a compressed x without a square root. -/
def ecPoint (c : Curve) (pk : Bytes) : Option (Nat × Nat) :=
  let x := beNat (slice pk 1 c.len)
  if pk.head? = some 0x04#8 then some (x, beNat (pk.drop (1 + c.len)))
  else (sqrtMod c.prime (x * x * x + c.a * x + c.b)).map (fun y =>
    (x, if y % 2 = ((pk.head?).getD 0).toNat % 2 then y else (c.prime - y) % c.prime))

/-- The uncompressed encoding of a point; the single byte of infinity. -/
def ecEncode (len : Nat) : Point → Bytes
  | none => [0]
  | some (x, y) => 0x04#8 :: (beBytes len x ++ beBytes len y)

/-- Steps 3 and 4 of R261: the point is on the curve, and in the subgroup of the base point. -/
def ecPointBad (c : Curve) (pk : Bytes) : Option Bad :=
  match ecPoint c pk with
  | none => bad stNotOnCurve 0x0212
  | some q =>
    if c.weier.has q.1 q.2 = false then bad stNotOnCurve 0x0212
    else badWhen (decide (1 < c.cofactor) && (c.weier.mul c.order (some q)).isSome) (bad stInputRange 0x0907)

/-- The validation of a public key from the host (R261). -/
def ecPubBad (c : Curve) (pk : Bytes) : Option Bad :=
  if pk = [0#8] then bad stInputZero 0x0902
  else match ecFormLen c pk with
    | none => bad stInputRange 0x0211
    | some n =>
      if n ≠ pk.length then badLength 0x0203
      else if c.prime ≤ beNat (slice pk 1 c.len) ∨ c.prime ≤ beNat (pk.drop (1 + c.len)) then bad stInputRange 0x0211
      else ecPointBad c pk

/-- The validation of an EdDSA public key (R270). -/
def eddsaPubBad (set : Nat) (pk : Bytes) : Option Bad :=
  match (edwardsOf set).decode pk with
  | none => bad stInputRange 0x0905
  | some q => badWhen ((edwardsOf set).small q) (bad stInputRange 0x0906)

/-- The validation of an RSA public key (R273). -/
def rsaPubBad (nbits : Nat) (pk : Bytes) : Option Bad :=
  let k := nbits / 8
  let n := beNat (pk.take k)
  let e := beNat (pk.drop k)
  badWhen (decide (n % 2 = 0 ∨ n < 2 ^ (nbits - 1) ∨ 2 ^ nbits ≤ n ∨ e % 2 = 0 ∨ e < 3 ∨ n ≤ e)) (bad stInputRange 0x0920)

/-- The checks of a peer's y (R276): 2 ≤ y ≤ p − 2, and y^q ≡ 1 mod p. -/
def dhPubBad (set : Nat) (y : Bytes) : Option Bad :=
  let p := groupPrime set
  if beNat y < 2 ∨ p - 2 < beNat y then bad stInputRange 0x0910
  else badWhen (expMod p (beNat y) ((p - 1) / 2) != 1) (bad stInputRange 0x0907)

/-- The public-key checks of a family's chapter (check 8 of R354). -/
def familyPubBad (typ set : Nat) (pk : Bytes) : Option Bad :=
  match typ with
  | 2 => badWhen (!kemModulusOk pk) (bad stInputRange 0x0210)
  | 4 => fndsaPubBad set pk
  | 9 => hqcPubBad set pk
  | 11 => (namedCurve set).bind (fun c => ecPubBad c pk)
  | 12 => eddsaPubBad set pk
  | 14 => rsaPubBad set pk
  | 15 => dhPubBad set pk
  | _ => none

/-- A power modulo m; under INVARIANT over m·t, with the part modulo t checked (R279). -/
def checkedPow (inv : Bool) (m t b e : Nat) : Nat × Bool :=
  if inv then
    let y := expMod (m * t) b e
    (y % m, y % t == expMod t b e)
  else (expMod m b e, true)

/-- The random 64-bit factor of an extended modulus, odd and with its top bit set. -/
def extension (v : Nat) : Nat := v % 2 ^ 62 * 2 + 2 ^ 63 + 1

/-- The public key of a scalar on a curve, with INVARIANT's check (R278, R279). -/
def ecPublic (c : Curve) (b : Blinding) (priv : Bytes) : Bytes × Bool :=
  let q := c.weier.secret b (beNat priv) c.g
  (ecEncode c.len q.1, q.2)

/-- The public key of a private value of the engines' families, blinded (R278), with INVARIANT's check (R279): of a Weierstrass curve the
uncompressed point, of a group the power, under INVARIANT over an extended modulus. -/
def enginePublic (typ set : Nat) (inv : Bool) (b : Blinding) (priv : Bytes) : Bytes × Bool :=
  match typ with
  | 11 =>
    match namedCurve set with
    | some c => ecPublic c b priv
    | none => ([], true)
  | 12 => (edwardsOf set).pub b priv
  | 13 => (montOf set).pub b priv
  | 15 =>
    let p := groupPrime set
    let z := checkedPow inv p (extension b.beta) 2 (beNat priv + b.r % 2 ^ 64 * ((p - 1) / 2))
    (beBytes (((dhRow (set % 16)).map (·.1)).getD 0) z.1, z.2)
  | _ => ([], true)

/-- The blinding values of an engine job's multiplications, by number (R278): the mask feeds give them at the start of the job. -/
def blinding (s : State) (x : Job) (g : Nat) : Blinding :=
  let v (i : Nat) : Nat := blindOf s x (16 * g + i)
  { r := v 0, share := v 1, beta := v 2, extra := v 3, lam := (List.range 12).map (fun i => v (4 + i)) }

/-- The parts of an RSA private key's value (R341). -/
structure RsaParts where
  n    : Nat
  e    : Nat
  p    : Nat
  q    : Nat
  dp   : Nat
  dq   : Nat
  qinv : Nat
  deriving DecidableEq, Repr

def rsaParts (k : Nat) (value : Bytes) : RsaParts :=
  let h := (k + 1) / 2
  let part (i : Nat) : Nat := beNat (slice value (k + 4 + i * h) h)
  { n := beNat (value.take k), e := beNat (slice value k 4), p := part 0, q := part 1, dp := part 2, dq := part 3, qinv := part 4 }

/-- n and e are those of the private parts. -/
def RsaParts.agree (v : RsaParts) : Bool :=
  v.n == v.p * v.q && decide (1 < v.p) && decide (1 < v.q) && v.e * v.dp % (v.p - 1) == 1 % (v.p - 1) &&
  v.e * v.dq % (v.q - 1) == 1 % (v.q - 1)

/-- A private key's public part is the one recomputed from it (check 8 of R354). The lattice and hash-based families, whose key
generation is not computed, leave it to their standards (log 2). -/
def recomputed (f set : Nat) (z : SetSize) (value : Bytes) : Bool :=
  match f with
  | 2 => sha3_256 (publicPart f z value) == slice value (z.priv - 64) 32 && Config.holds 10 (keyAlg f set) [value]
  | 11 => (enginePublic f set false noBlinding (value.take z.priv)).1 == publicPart f z value
  | 12 => (enginePublic f set false noBlinding (value.take z.priv)).1 == publicPart f z value
  | 13 => (enginePublic f set false noBlinding (value.take z.priv)).1 == publicPart f z value
  | 14 => (rsaParts (set / 8) value).agree
  | 15 => (enginePublic f set false noBlinding (value.take z.priv)).1 == publicPart f z value
  | _ => Config.holds 10 (keyAlg f set) [value]

/-- Check 8 of R354: the public-key checks of the family, and for a private key that its public part is the one recomputed from
it. For ML-KEM the recomputed part is the hash of the key. -/
def keyValueOk (typ : BitVec 16) (set : Nat) (value : Bytes) : Bool :=
  let f := familyOf typ
  match sizeOf f set with
  | none => true
  | some z =>
    if publicOnly typ then (familyPubBad f set value).isNone
    else (f == 10 || (familyPubBad f set (publicPart f z value)).isNone) && recomputed f set z value

/-! ### New keys (R171, R340) -/

/-- A new key, before its attributes. -/
def newKey (s : State) (p : BitVec 8) (typ set : BitVec 16) (cells : Nat) (origin : BitVec 2) (value : Bytes) : Key :=
  { typ := typ, paramSet := set, pitch := p, cells := BitVec.ofNat 8 cells, persist := false, bad := none, shares3 := false,
    faultPolicy := 0, origin := origin, exportable := false, usage := 0, migratable := false, progSigner := 0, curveId := 0,
    created := createdNow s, value := value, leaves := topLeaves typ set value, stateful := none }

/-- The attributes of ATTRS on a key whose usage the opcode sets itself (R169, R343). -/
def withAttrs (a : BitVec 32) (usage : BitVec 16) (k : Key) : Key :=
  { k with usage := usage, persist := bit a 16, exportable := bit a 17, migratable := bit a 18 }

/-- The attributes of ATTRS on a key whose usage ATTRS gives, with its own SHARES3 and FAULT_POLICY (R343). -/
def withOwnAttrs (a : BitVec 32) (k : Key) : Key :=
  { withAttrs a (attrsUsage a (k.typ == 1)) k with shares3 := bit a 19, faultPolicy := bits a 20 2 }

/-- ATTRS of PARAM (R343). -/
def attrsOf (d : Desc) : BitVec 32 := bits d.param 32 32

/-- R343 for a new secret key: any usage of a SECRET but a program's, and its own SHARES3 and FAULT_POLICY. -/
def secretAttrsBad (a : BitVec 32) (len : Nat) (p : BitVec 8) : Option Bad :=
  badWhen (!attrsOk a (usageAllowed 1 0 len p false) true false false false) (badField 0x0B20)

/-- A new slot for a key of these cells and this value length. -/
def slotFor (cells len : Nat) (persist : Bool) (stateful : Bool := false) : NewSlot :=
  { cells := cells, persist := persist, blocks := blocksOf len stateful }

/-! ### What an opcode asks of a key -/

/-- FLAGS.FAULT_MODE keeps every mode of the key's policy (R184). -/
def faultWeaker (d : Desc) (k : Key) : Option Bad :=
  badWhen (d.faultMode != 0 && (d.faultMode &&& k.faultPolicy) != k.faultPolicy) (bad stKeyPolicy 0x0215)

/-- A private key of a family and set. -/
def privateNeed (d : Desc) (typ : BitVec 16) (set : BitVec 16) (usage : Option Nat) : KeyNeed :=
  { typ := fun t => t == typ, set := fun x => x == set, usage := usage, more := faultWeaker d }

/-- A private or a public-only key of a family and set (R168). -/
def publicNeed (d : Desc) (typ : BitVec 16) (set : BitVec 16) : KeyNeed :=
  { typ := fun t => t == typ || t == (typ ||| 0x8000), set := fun x => x == set, usage := none, more := faultWeaker d }

/-- The public key that a descriptor gives, and the AUX bytes after it (R168). -/
def givenPublic (s : State) (x : Job) (len : Nat) : Bytes × Bytes :=
  let aux := jobAux s x
  if x.desc.keyHandle = 0 then (aux.take len, aux.drop len)
  else (((keyOf s x.desc.keyHandle).map publicOf).getD [], aux)

/-- A run that ends with a content, an ELAPSED and the changes of its completion. -/
def ranWith (s : State) (o : JobOut) (commits : List Commit := []) : Ran :=
  { state := s, out := some o, commits := commits, timed := true }

/-- A run that ends in a refusal after its full course. -/
def ranBad (s : State) (b : Bad) : Ran := ranWith s (outOf b.status b.detail b.result)

/-- The slots that a running job has reserved. -/
def reservedAt (x : Job) (i : Nat) : BitVec 13 := (x.reserved[i]?).getD 0

end Sys2Proof.Machine
end

