-- ==== Sys2Proof/Machine/Signing.lean ====
section
/-! DEFINITION. What the opcodes of the signature and key-establishment families share: their forms of input, their lengths, key
creation, and the release of a signature (R168 to R185). -/
namespace Sys2Proof.Machine

/-! ### Usage of new keys (R342) -/

def useSign : BitVec 16 := 0x1
def useDecaps : BitVec 16 := 0x2
def useAgree : BitVec 16 := 0x4
def useDecrypt : BitVec 16 := 0x8

/-! ### Output (R170) -/

/-- An output that is not truncated: too short a range is refused. -/
def needOut (d : Desc) (n : Nat) : Option Bad := badWhen (decide (d.outLen.toNat < n)) (bad stLengthShort 0)

/-- An output that OUT_LEN 0 leaves out. -/
def needOutOr0 (d : Desc) (n : Nat) : Option Bad := if d.outLen = 0 then none else needOut d n

/-- The status of a job that writes an output, or leaves it out. -/
def outStatus (d : Desc) : BitVec 16 := if d.outLen = 0 then stNoOutput else stOk

/-- An output, or nothing where OUT_LEN leaves it out. -/
def outBytes (d : Desc) (b : Bytes) : Bytes := if d.outLen = 0 then [] else b

/-! ### ATTRS (R343) -/

/-- ATTRS of a KEYGEN, whose usage is ignored and whose PARAM has its own SHARES3 and FAULT_POLICY. -/
def keygenAttrsBad (d : Desc) : Option Bad := badWhen (!attrsOk (attrsOf d) 0 false true true true) (badField 0x0B20)

/-- ATTRS of a secret that goes to the vault; zero where none does. -/
def secretOutAttrsBad (d : Desc) (len : Nat) (p : BitVec 8) : Option Bad :=
  if d.toVault then secretAttrsBad (attrsOf d) len p else badWhen (attrsOf d != 0) (badField 0x0B20)

/-- SHARES3 and FAULT_POLICY of PARAM on a KEYGEN. -/
def ownPolicy (d : Desc) (k : Key) : Key := { k with shares3 := bit d.param 0, faultPolicy := bits d.param 1 2 }

/-- A KEYGEN's fault mode keeps every mode of its own policy (R184). -/
def keygenFaultBad (d : Desc) : Option Bad :=
  badWhen (d.faultMode != 0 && (d.faultMode &&& bits d.param 1 2) != bits d.param 1 2) (bad stKeyPolicy 0x0215)

/-- The fault mode of a KEYGEN asks for its pairwise test (R184). -/
def pairwise (d : Desc) : Bool := bit (if d.faultMode ≠ 0 then d.faultMode else bits d.param 1 2) 1

/-- OUT_TO_VAULT is required, or not allowed (R169). -/
def vaultRequired (d : Desc) : Option Bad := badWhen (!d.toVault) (badField 0x0201)

def vaultForbidden (d : Desc) : Option Bad := badWhen d.toVault (badField 0x0201)

/-- A scalar from random bytes: 1 to the order less 1, by the extra random bits of FIPS 186-5 (DESIGN CHOICE, log 68). -/
def scalarFrom (order : Nat) (seed : Bytes) : Nat := beNat seed % (order - 1) + 1

/-- A private value of the engines' families, from its seed: the seed itself of an Edwards or Montgomery curve. -/
def privateFrom (typ set : Nat) (z : SetSize) (seed : Bytes) : Bytes :=
  match typ with
  | 11 => beBytes z.priv (scalarFrom (((weierOf set).map (·.n)).getD 2) seed)
  | 15 => beBytes z.priv (scalarFrom (2 ^ (8 * z.priv)) seed)
  | _ => fit z.priv seed

/-- The random bytes that a private value of the engines' families is made of (log 68). -/
def privateSeedLen (typ : Nat) (z : SetSize) : Nat := z.priv + (if typ = 11 ∨ typ = 15 then 8 else 0)

/-- A new private key of a family, from its seed: for the curves and groups of the engines, the private value with its public key
beside it. -/
def makeValue (typ set : Nat) (z : SetSize) (seed : Bytes) : Bytes :=
  if [11, 12, 13, 15].contains typ then
    let d := privateFrom typ set z seed
    d ++ (enginePublic typ set false noBlinding d).1
  else fit (privateLen typ z) (Config.crypto .sigKeygen (keyAlg typ set) [seed])

/-- A new key of a KEYGEN. -/
def keygenKey (s : State) (x : Job) (typ set : Nat) (z : SetSize) (usage : BitVec 16) (seeded : Bool) (seed : Bytes) : Key :=
  ownPolicy x.desc (withAttrs (attrsOf x.desc) usage
    (newKey s x.pitch (BitVec.ofNat 16 typ) (BitVec.ofNat 16 set) z.cells (flag 2 seeded) (makeValue typ set z seed)))

/-- The record's RESULT for new handles. -/
def handles (s : State) (x : Job) (i : Nat) : BitVec 64 := (mkHandle s (reservedAt x i) x.pitch).setWidth 64

/-! ### Forms of a message (R176) -/

/-- The digests of PH: bytes and the last byte of the OID. -/
def prehash : Nat → Option (Nat × Nat)
  | 1 => some (32, 1)
  | 2 => some (48, 2)
  | 3 => some (64, 3)
  | 4 => some (32, 8)
  | 5 => some (48, 9)
  | 6 => some (64, 10)
  | 7 => some (32, 11)
  | 8 => some (64, 12)
  | _ => none

/-- FORM of PARAM. -/
def formOf (d : Desc) : BitVec 2 := bits d.param 0 2

/-- DETERMINISTIC of PARAM. -/
def deterministic (d : Desc) : Bool := bit d.param 2

/-- PH of PARAM. -/
def phOf (d : Desc) : Nat := (bits d.param 8 8).toNat

/-- FORM and PH of R176; `mu` says that the family has EXTERNAL_MU. -/
def formBad (mu : Bool) (d : Desc) : Option Bad :=
  firstBad
    [ badWhen (formOf d == 3 || (!mu && formOf d == 2)) (badField 0x0301),
      badWhen (if formOf d = 1 then (prehash (phOf d)).isNone else phOf d != 0) (badField 0x0302) ]

/-- IN_LEN by FORM. -/
def formLenBad (d : Desc) : Option Bad :=
  match formOf d with
  | 1 => badWhen (some d.inLen.toNat != (prehash (phOf d)).map (·.1)) (badLength 0x0303)
  | 2 => badWhen (d.inLen != 64) (badLength 0x0305)
  | _ => none

/-- The OID of PH in its DER encoding. -/
def phOid (ph : Nat) : Bytes :=
  [0x06, 0x09, 0x60, 0x86, 0x48, 0x01, 0x65, 0x03, 0x04, 0x02, BitVec.ofNat 8 (((prehash ph).map (·.2)).getD 0)]

/-- M′ of a descriptor's input and context. -/
def messageOf (d : Desc) (ctx inp : Bytes) : Bytes :=
  if formOf d = 1 then 1#8 :: BitVec.ofNat 8 ctx.length :: ctx ++ phOid (phOf d) ++ inp else pureMessage ctx inp

/-- The context of a SIGN (R177). -/
def signCtxBad (d : Desc) : Option Bad :=
  badWhen (if formOf d = 2 then d.auxLen != 0 || d.auxAddr != 0 else decide (255 < d.auxLen.toNat)) (badLength 0x0304)

/-- The parts of a VERIFY's AUX: an inline public key, the signature, the context. -/
def inlineLen (d : Desc) (pk : Nat) : Nat := if d.keyHandle = 0 then pk else 0

/-- The lengths of a VERIFY's AUX (R177). -/
def verifyAuxBad (d : Desc) (pk sig : Nat) : Option Bad :=
  let n := inlineLen d pk + sig
  firstBad
    [ badWhen (decide (d.auxLen.toNat < n)) (badLength 0x0306),
      badWhen (if formOf d = 2 then d.auxLen.toNat != n else decide (n + 255 < d.auxLen.toNat)) (badLength 0x0304) ]

/-- A signature given out is genuine from then on (log 2). -/
def signed (s : State) (alg : Nat) (key msg sig : Bytes) : State :=
  { s with genuine := { alg := alg, key := key, msg := msg, sig := sig } :: s.genuine }

/-- A verdict (R181): every defect of a signature ends in OK_SIG_INVALID. -/
def verdict (ok : Bool) : JobOut := outOf (if ok then stOk else stSigInvalid) 0

/-- An ITERATIONS count of a rejection loop, from 1; none past the limit of 256 (R182). -/
def iterationsOf (alg : Nat) (ops : List Bytes) : Option Nat :=
  let k := Config.iterations alg ops + 1
  if k ≤ 256 then some k else none

/-- A job that stopped at the limit (R182). -/
def iterationLimit (s : State) : Ran := ranBad s { status := stAborted, detail := 0x0320 }

/-! ### Public keys (R168) -/

/-- The key that a VERIFY, or an ENCAPS, takes from a slot. -/
def slotPublicBad (s : State) (x : Job) (typ : BitVec 16) : Option Bad :=
  if x.desc.keyHandle = 0 then none else keyCheck s x.pitch x.desc.keyHandle (publicNeed x.desc typ x.desc.paramSet)

/-- The key that a PUBKEY names. -/
def pubkeyKeyBad (s : State) (x : Job) (h : BitVec 32) (typ set : BitVec 16) : Option Bad :=
  keyCheck s x.pitch h { typ := fun t => t == typ || t == (typ ||| 0x8000), set := fun n => n == set, usage := none }

/-- PUBKEY of a family: the public key of a slot. -/
def pubkeyRun (s : State) (x : Job) : Ran :=
  match keyOf s x.desc.keyHandle with
  | none => ranBad s { status := stKeyAbsent, detail := 0x0B03 }
  | some k => ranWith s { outOf stOk 0 with output := publicOf k }

/-- The sizes of a descriptor's set in a family. -/
def setSize (typ : Nat) (d : Desc) : SetSize := (sizeOf typ d.paramSet.toNat).getD ⟨0, 0, 0, 0, 1⟩

/-- A set is a family's. -/
def isSet (typ : Nat) (n : BitVec 16) : Bool := (sizeOf typ n.toNat).isSome

/-- The PUBKEY of a family whose key lies in KEY_HANDLE. -/
def pubkeySpec (code : BitVec 16) (typ : Nat) (place : Place) : OpSpec :=
  { code := code,
    place := fun _ _ => place,
    more5 := fun _ x => vaultForbidden x.desc,
    uses := fun _ => { set := true, key := true, out := true },
    sets := isSet typ,
    keys := fun s x => pubkeyKeyBad s x x.desc.keyHandle (BitVec.ofNat 16 typ) x.desc.paramSet,
    lengths := fun _ x => needOut x.desc (setSize typ x.desc).pub,
    run := pubkeyRun }

end Sys2Proof.Machine
end

