-- ==== Sys2Proof/Machine/Timing.lean ====
section
/-! DEFINITION. How long a job computes at floor pace (R21, R182 to R187, R208 to R211, R230, R250, R277 to R281, R335), in picoseconds: the figure
that ELAPSED is reckoned from. None where the spec gives a mean, a bound or no figure: it is Config.beats of the public inputs then
(log 61). -/
namespace Sys2Proof.Machine

/-- A figure given in hundredths of a microsecond. -/
def cus (n : Nat) : Nat := 10000 * n

/-- A masked figure in a masking order (R183): three shares cost 2.2 times the two-share figure. -/
def inShares (three : Bool) (ps : Nat) : Nat := if three then ps * 22 / 10 else ps

/-- A figure under INVARIANT, whose cost is a percentage. -/
def inInvariant (mode : BitVec 2) (percent ps : Nat) : Nat := if bit mode 0 then ps * percent / 100 else ps

/-- A figure under VERIFY that runs the job twice. -/
def inTwice (mode : BitVec 2) (ps : Nat) : Nat := if bit mode 1 then 2 * ps else ps

/-- A figure under VERIFY that adds another. Under BOTH the cost of INVARIANT is not taken of what is added, which the spec does not
say (DESIGN CHOICE, log 61). -/
def inAdded (mode : BitVec 2) (more : Option Nat) (ps : Nat) : Option Nat :=
  if bit mode 1 = false then some ps else more.map (ps + ·)

/-- The key of KEY_HANDLE, none where the descriptor names none. -/
def namedKey (s : State) (d : Desc) : Option Key := if d.keyHandle = 0 then none else keyOf s d.keyHandle

/-- The fault mode of a job with its key (R184). -/
def modeWith (s : State) (d : Desc) : BitVec 2 := faultModeOf d (namedKey s d)

/-- The fault mode of a hybrid's engine half, with the key of KEY_HANDLE2. -/
def modeWith2 (s : State) (d : Desc) : BitVec 2 := faultModeOf d (if d.keyHandle2 = 0 then none else keyOf s d.keyHandle2)

/-- The fault mode of a KEYGEN. -/
def keygenMode (d : Desc) : BitVec 2 := if d.faultMode ≠ 0 then d.faultMode else bits d.param 1 2

/-- The fault mode of an ENCAPS: with m drawn inside, or an inline key, no policy counts. -/
def encapsMode (s : State) (d : Desc) : BitVec 2 := if d.inLen = 0 then d.faultMode else modeWith s d

/-- The masking order of the key. -/
def keyThree (s : State) (d : Desc) : Bool := ((namedKey s d).map (·.shares3)).getD false

/-- Blocks that a message fills beyond its first, with the padding's first byte. -/
def furtherBlocks (block len : Nat) : Nat := len / block

/-- Any PUBKEY takes 1 µs (R187, R250, R281). -/
def pubkeyTime (_ : State) (_ : Job) (_ : JobOut) : Option Nat := some (cus 100)

/-! ### Lattice (R182 to R187) -/

/-- Keygen, encaps and decaps of an ML-KEM set. -/
def kemFigures : Nat → Nat × Nat × Nat
  | 1 => (1300, 1500, 2000)
  | 2 => (2000, 2300, 3000)
  | _ => (3000, 3400, 4400)

/-- One EC operation of a hybrid's other half. -/
def halfFigure : Nat × Nat → Nat
  | (13, 1) => 3200
  | (13, _) => 9500
  | (11, 1) => 4500
  | _ => 12000

/-- A hybrid's latency (R187): the longer of its tile half and its engine half, each with its own cost of the fault mode (R184, R279),
and 0.3 µs for the combiner, to which neither a mode nor the shares apply (DESIGN CHOICE, log 61). -/
def hybridTime (ec : Option (Nat × Nat)) (tile : Option Nat) (half : Nat × Nat → Nat) : Option Nat :=
  match ec with
  | none => tile
  | some e => tile.map (fun t => max t (half e) + cus 30)

/-- KEYGEN of ML-KEM and HQC: the pairwise test adds an encapsulation and a decapsulation. -/
def kemKeygenTime (d : Desc) (f : Nat × Nat × Nat) : Option Nat :=
  let m := keygenMode d
  let three := bit d.param 0
  inAdded m (some (inShares three (cus (f.2.1 + f.2.2)))) (inInvariant m 112 (inShares three (cus f.1)))

/-- ENCAPS or DECAPS. -/
def kemJobTime (mode : BitVec 2) (three : Bool) (fig : Nat) : Nat := inTwice mode (inInvariant mode 112 (inShares three (cus fig)))

/-- The figures of a lattice signature set (R182, R187): keygen, prologue, iteration, verify. -/
structure SigFigures where
  keygen : Nat
  pro    : Nat
  iter   : Nat
  verify : Nat

def sigFigures : Nat → Nat → SigFigures
  | 3, 1 => ⟨4500, 2500, 2940, 5000⟩
  | 3, 2 => ⟨7000, 4000, 3530, 7500⟩
  | 3, _ => ⟨10000, 6000, 6230, 12000⟩
  | _, 1 => ⟨800000, 9000, 5800, 2000⟩
  | _, _ => ⟨2600000, 19000, 12000, 4000⟩

/-- The further SHAKE256 blocks of a signed message (R182): tr ‖ M′ of ML-DSA, salt ‖ M′ of FN-DSA; none under EXTERNAL_MU. -/
def messageBlocks (mu : Bool) (d : Desc) (ctx : Nat) : Nat :=
  if formOf d = 2 then 0
  else furtherBlocks 136 ((if mu then 64 else 40) + 2 + ctx + (if formOf d = 1 then 11 else 0) + d.inLen.toNat)

/-- The prologue, and `k` iterations. -/
def loopTime (mu : Bool) (f : SigFigures) (blocks k : Nat) : Nat :=
  if mu then cus (f.pro + 5 * blocks + k * f.iter) else cus (f.pro + k * (f.iter + 5 * blocks))

/-- The iterations that an outcome reports. -/
def iterationsIn (o : JobOut) (place : Nat) : Nat := if o.status = stAborted then 256 else (bits o.result place 16 : BitVec 16).toNat

def latticeSignTime (typ : Nat) (mu : Bool) (s : State) (x : Job) (o : JobOut) : Option Nat :=
  let d := x.desc
  let f := sigFigures typ d.paramSet.toNat
  let t := loopTime mu f (messageBlocks mu d d.auxLen.toNat) (iterationsIn o 0)
  let m := modeWith s d
  inAdded m (some (if o.status = stAborted then 0 else cus f.verify)) (inInvariant m 112 (inShares (keyThree s d) t))

def latticeKeygenTime (typ : Nat) (mu : Bool) (_ : State) (x : Job) (o : JobOut) : Option Nat :=
  let d := x.desc
  let f := sigFigures typ d.paramSet.toNat
  let m := keygenMode d
  let three := bit d.param 0
  let test := inShares three (loopTime mu f 0 (iterationsIn o 32)) + (if o.status = stAborted then 0 else cus f.verify)
  inAdded m (some test) (inInvariant m 112 (inShares three (cus f.keygen)))

def latticeVerifyTime (typ : Nat) (mu : Bool) (s : State) (x : Job) (_ : JobOut) : Option Nat :=
  let d := x.desc
  let z := setSize typ d
  let sig := if mu then z.out else (bits d.param 16 16).toNat
  let ctx := d.auxLen.toNat - inlineLen d z.pub - sig
  some (inInvariant (modeWith s d) 112 (cus ((sigFigures typ d.paramSet.toNat).verify + 5 * messageBlocks mu d ctx)))

/-! ### Hash-based signatures (R191, R195, R208 to R211) -/

/-- A figure of a job that is spread across its stall (R191): divided by its tiles, and up to 5 µs, which follow from the public inputs
alone (R18) and are not stated further (log 61). -/
def spread (x : Job) (ps : Nat) : Nat :=
  ps / max 1 x.units.length +
  1800 * (Config.beats x.desc.opcode.toNat x.desc.paramSet.toNat [x.desc.inLen.toNat, x.desc.auxLen.toNat, x.units.length] % 2778)

/-- The beats of a verification: those that its public inputs take, at most twice the mean (R195). -/
def walked (d : Desc) (mean : Nat) (known : List Nat) : Nat :=
  1800 * (Config.beats d.opcode.toNat d.paramSet.toNat known % (2 * mean / 1800 + 1))

/-- The stretches of 64 bytes that a message begins beyond its first (R210). -/
def stretches (len : Nat) : Nat := ceilDiv (len - 64) 64

/-- KEYGEN, SIGN and mean VERIFY of an SLH-DSA set (R210). -/
def slhFigures : Nat → Nat × Nat × Nat
  | 0x01 => (860000, 5700000, 7000)
  | 0x02 => (14000, 317000, 20000)
  | 0x03 => (1250000, 10300000, 10000)
  | 0x04 => (20000, 520000, 28000)
  | 0x05 => (825000, 9430000, 14500)
  | 0x06 => (52000, 1050000, 29000)
  | 0x11 => (325000, 2170000, 2500)
  | 0x12 => (5500, 120000, 7000)
  | 0x13 => (475000, 3910000, 3600)
  | 0x14 => (7800, 197000, 10500)
  | 0x15 => (313000, 3560000, 5300)
  | _ => (20000, 399000, 10800)

/-- A stateful set of SHAKE256 (R197). -/
def treeShake (typ set : Nat) : Bool :=
  if typ = 6 then decide (0x0F ≤ set % 256) else if typ = 7 then decide (0x10 ≤ set) else decide (0x29 ≤ set)

/-- The leaf cost of a stateful set (R211), in picoseconds. -/
def leafCost (typ set : Nat) : Nat :=
  let base := if typ = 6 then
      (match (set / 256 - 1) % 4 with
       | 0 => 21000000
       | 1 => 18200000
       | 2 => 32400000
       | _ => 251500000)
    else 129600000
  let hashed := if treeShake typ set then base * (if typ = 6 then 38 else 28) / 100 else base
  if ((treeOf typ set).map (·.n)).getD 32 = 24 then hashed * 76 / 100 else hashed

/-- A composed figure as R211's table and worked example give it: rounded up to a whole microsecond (DEDUCED, log 61). -/
def wholeUs (ps : Nat) : Nat := ceilDiv ps 1000000 * 1000000

/-- The mean VERIFY figure of the representative sets (R211), in hundredths of a microsecond. -/
def treeVerifyMean (typ set levels : Nat) : Option Nat :=
  if typ = 6 then
    (if set = 0x0306 ∧ levels = 2 then some 3500 else if (set = 0x0306 ∨ set = 0x0307 ∨ set = 0x0308) ∧ levels = 1 then some 1700 else none)
  else if typ = 7 then (if set = 1 ∨ set = 2 then some 7200 else if set = 3 then some 7300 else none)
  else if set = 1 then some 14400 else none

/-! ### Digests and AES (R209, R230, R232) -/

/-- The time of a digest block: plain, or masked. -/
def blockTime (set : Nat) (masked three : Bool) : Nat :=
  let f := if set ≤ 2 then (57600, 72000) else if set ≤ 6 then (72000, 90000) else (43200, 64800)
  if masked then inShares three f.2 else f.1

/-- A digest job of some blocks. -/
def digestTime (set : Nat) (masked three : Bool) (blocks : Nat) : Nat := cus 20 + blocks * blockTime set masked three

/-- The beats of an AES block on one unit, by the key's length. -/
def aesBeats (len : Nat) : Nat := if len = 16 then 20 else if len = 24 then 24 else 28

/-- An AES job of two shares (R230, R232): `parallel` says that two units share its blocks. -/
def aesJobTime (mode : BitVec 2) (parallel : Bool) (keyLen blocks : Nat) : Nat :=
  cus 50 + inTwice mode (blocks * aesBeats keyLen * (if parallel && !bit mode 0 then 900 else 1800))

/-! ### Code-based (R241, R248 to R250) -/

/-- Keygen, encaps and decaps of an HQC set. -/
def hqcFigures : Nat → Nat × Nat × Nat
  | 1 => (4000, 6000, 11000)
  | 2 => (9500, 14000, 25000)
  | _ => (16500, 24000, 38000)

/-- A McEliece set's figures (R250): encaps resident and streamed, decaps, and the mean of a key generation over its attempts, plain and f. -/
structure MceFigures where
  resident : Nat
  streamed : Nat
  decaps   : Nat
  plain    : Nat
  fast     : Nat

def mceFigures (set : Nat) : MceFigures :=
  match set % 16 with
  | 1 => ⟨15000, 21000, 25000, 3000000, 950000⟩
  | 2 => ⟨30000, 42000, 62000, 9500000, 2900000⟩
  | 3 => ⟨60000, 84000, 90000, 25000000, 7600000⟩
  | 4 => ⟨61000, 85000, 94000, 26000000, 7900000⟩
  | _ => ⟨78000, 109000, 100000, 33000000, 10000000⟩

/-- The mean of a set's key generation, in picoseconds: an f set's, or a plain set's. -/
def mceMean (set : Nat) : Nat := cus (if 16 ≤ set then (mceFigures set).fast else (mceFigures set).plain)

/-- What a number of attempts at a key take: one attempt is the mean over 3.46, or over 1.06 for an f set (R250). -/
def mceAttemptTime (set n : Nat) : Nat := n * (mceMean set * 100) / (if 16 ≤ set then 106 else 346)

/-- A McEliece key generation (R249, R250): the attempts that RESULT counts, all 128 where none gave a key; the pairwise test of VERIFY
encapsulates with the key that still lies in the workbench and decapsulates. The whole is spread across the job's tiles (R235). -/
def mceKeygenTime (_ : State) (x : Job) (o : JobOut) : Option Nat :=
  let d := x.desc
  let set := d.paramSet.toNat
  let m := keygenMode d
  let three := bit d.param 0
  let n := if o.status = stAborted then 128 else (bits o.result 32 16 : BitVec 16).toNat
  let test := if o.status = stAborted then 0 else inShares three (cus ((mceFigures set).resident + (mceFigures set).decaps))
  (inAdded m (some test) (inInvariant m 112 (inShares three (mceAttemptTime set n)))).map (spread x)

/-- MCE_ENCAPS (R250): with its key in the shelves split over their tiles, streamed on one tile. -/
def mceEncapsTime (s : State) (x : Job) (_ : JobOut) : Option Nat :=
  let d := x.desc
  let f := mceFigures d.paramSet.toNat
  let job (fig : Nat) : Nat := kemJobTime (encapsMode s d) (bit d.param 0) fig
  some (if bit d.param 10 then job f.streamed else spread x (job f.resident))

/-- MCE_PUBKEY costs one attempt, split as a key generation (R235, R250). -/
def mcePubkeyTime (s : State) (x : Job) (_ : JobOut) : Option Nat :=
  some (spread x (inShares (keyThree s x.desc) (mceAttemptTime x.desc.paramSet.toNat 1)))

/-! ### Big-number engines (R277 to R281) -/

/-- A curve's figures: validation, keygen, ECDSA sign and verify, ECDH. -/
structure EcFigures where
  valid  : Nat
  keygen : Nat
  sign   : Nat
  verify : Nat
  ecdh   : Nat

/-- The brainpool row of a loaded curve's field size, with 1.3 times the last one above 512 bits. -/
def loadedFigures (fieldBits : Nat) : EcFigures :=
  if fieldBits ≤ 256 then ⟨700, 5500, 6000, 13500, 5500⟩
  else if fieldBits ≤ 384 then ⟨1600, 14500, 16000, 36000, 14500⟩
  else if fieldBits ≤ 512 then ⟨2800, 29000, 31000, 70000, 29000⟩
  else ⟨3640, 37700, 40300, 91000, 37700⟩

def ecFigures : Nat → EcFigures
  | 1 => ⟨600, 4500, 5000, 11420, 4500⟩
  | 2 => ⟨1400, 12000, 13330, 30000, 12000⟩
  | 3 => ⟨3000, 30000, 33000, 74000, 30000⟩
  | 4 => ⟨600, 4500, 5000, 11420, 4500⟩
  | 5 => loadedFigures 256
  | 6 => loadedFigures 384
  | _ => loadedFigures 512

/-- An engine job ended at the validation of its input (R277); an exchange whose result is zero, and a signature that fails, ran
in full. -/
def stoppedEarly (o : JobOut) : Bool :=
  (o.status == stInputRange || o.status == stInputZero || o.status == stNotOnCurve || o.status == stBadLength) && o.detail != 0x0213

/-- A job's figure, or its validation's where it ended there. -/
def validated (o : JobOut) (valid : Nat) (full : Option Nat) : Option Nat := if stoppedEarly o then some (cus valid) else full

/-- An engine's key generation: VERIFY adds what its pairwise test takes, a signature and its verification or a second public key. -/
def engineKeygen (percent : Nat) (d : Desc) (fig test : Nat) : Option Nat :=
  let m := keygenMode d
  inAdded m (some (cus test)) (inInvariant m percent (cus fig))

/-- An engine's signature: VERIFY adds the verification. -/
def engineSign (mode : BitVec 2) (percent fig verify : Nat) : Option Nat :=
  inAdded mode (some (cus verify)) (inInvariant mode percent (cus fig))

/-- An engine's exchange: VERIFY runs it twice. -/
def engineExchange (mode : BitVec 2) (percent fig : Nat) : Nat := inTwice mode (inInvariant mode percent (cus fig))

/-- The Edwards figures: validation, keygen, sign, verify; and what each further stretch of a message beyond 64 bytes adds. -/
def edFigures (set : Nat) : Nat × Nat × Nat × Nat := if set = 1 then (500, 3000, 3630, 8000) else (1400, 9000, 10000, 22000)

/-- The stretches beyond 64 bytes that a message begins (R281). -/
def edStretches (set len : Nat) : Nat := ceilDiv (len - 64) (if set = 1 then 128 else 136)

/-- An RSA row: private and public operation, by the next larger modulus of the table. -/
def rsaFigures (bits_ : Nat) : Nat × Nat :=
  if bits_ ≤ 2048 then (57100, 1200) else if bits_ ≤ 3072 then (170000, 2500) else if bits_ ≤ 4096 then (400000, 4200)
  else (3000000, 16000)

/-- The mean of an RSA key generation over its candidates (R281). -/
def rsaKeygenMean (bits_ : Nat) : Nat :=
  cus (if bits_ ≤ 2048 then 12000000 else if bits_ ≤ 3072 then 42000000 else if bits_ ≤ 4096 then 110000000 else 1600000000)

def rsaValidFigure (bits_ : Nat) : Nat := if bits_ ≤ 4096 then 100 else 300

/-- The one bits of a number. -/
def oneBits (n : Nat) : Nat := ((List.range (bitCount n)).filter (fun i => n.testBit i)).length

/-- A public operation with an exponent, in picoseconds. -/
def rsaPublicTime (bits_ e : Nat) : Nat := cus (rsaFigures bits_).2 * (bitCount e + oneBits e - 1) / 18

/-- Keygen and exchange of a group. -/
def dhFigures : Nat → Nat × Nat
  | 1 => (25000, 90000)
  | 2 => (60000, 270000)
  | 3 => (115000, 600000)
  | 4 => (320000, 1900000)
  | _ => (650000, 4400000)

end Sys2Proof.Machine
end

