-- ==== Sys2Proof/Machine/Lattice.lean ====
section
/-! DEFINITION. The lattice families: ML-KEM with its hybrids, ML-DSA, FN-DSA (R165 to R186). -/
namespace Sys2Proof.Machine

/-! ### Sets of the KEM opcodes (R166, R167) -/

/-- A set of a KEM opcode: the ML-KEM set, and of a hybrid the TYPE and set of its EC half. -/
structure KemSet where
  plain : Nat
  ec    : Option (Nat × Nat)
  deriving DecidableEq, Repr

/-- R166. -/
def kemSet (n : BitVec 16) : Option KemSet :=
  match n.toNat with
  | 1 => some ⟨1, none⟩
  | 2 => some ⟨2, none⟩
  | 3 => some ⟨3, none⟩
  | 0x11 => some ⟨2, some (13, 1)⟩
  | 0x12 => some ⟨2, some (11, 1)⟩
  | 0x13 => some ⟨3, some (11, 2)⟩
  | 0x14 => some ⟨3, some (13, 2)⟩
  | _ => none

/-- A descriptor's set. -/
def kemOf (d : Desc) : KemSet := (kemSet d.paramSet).getD ⟨1, none⟩

/-- The ML-KEM sizes of a descriptor's set. -/
def kemSizes (d : Desc) : SetSize := (kemSize (kemOf d).plain).getD ⟨0, 0, 0, 0, 1⟩

/-- The sizes of the EC half; of nothing in a plain set. -/
def ecHalf (d : Desc) : SetSize := ((kemOf d).ec.bind (fun e => sizeOf e.1 e.2)).getD ⟨0, 0, 0, 0, 1⟩

/-- The set is a hybrid. -/
def hybrid (d : Desc) : Bool := (kemOf d).ec.isSome

/-- The number of ML-KEM's set to its functions. -/
def kemAlg (d : Desc) : Nat := keyAlg 2 (kemOf d).plain

/-- The random bytes of an EC key of a hybrid (log 68). -/
def ecSeedLen (d : Desc) : Nat := ((kemOf d).ec.map (fun e => privateSeedLen e.1 (ecHalf d))).getD 0

/-- The ML-KEM set as a slot's PARAM_SET. -/
def kemSlotSet (d : Desc) : BitVec 16 := BitVec.ofNat 16 (kemOf d).plain

/-- The unit that a KEM job takes (R165). -/
def kemPlace (_ : State) (x : Job) : Place := if hybrid x.desc then .tileAndEngine else .tile

/-! ### ML-KEM (FIPS 203) -/

/-- K and r from m and the encapsulation key. -/
def kemKr (pk m : Bytes) : Bytes := sha3_512 (m ++ sha3_256 pk)

/-- The ciphertext of m under r. -/
def kemCipher (alg : Nat) (z : SetSize) (pk m r : Bytes) : Bytes := fit z.out (Config.crypto .kemCipher alg [pk, m, r])

/-- Decapsulation with the implicit rejection of R173. -/
def kemDecaps (alg : Nat) (z : SetSize) (value ct : Bytes) : Bytes :=
  let pk := publicPart 2 z value
  let m := fit 32 (Config.crypto .kemDecaps alg [value.take (z.priv - z.pub - 64), ct])
  let kr := kemKr pk m
  if kemCipher alg z pk m (kr.drop 32) = ct then kr.take 32 else shake256 32 (value.drop (value.length - 32) ++ ct)

/-! ### Hybrids (R167, R172, R174) -/

/-- The check of a hybrid's EC public key (R172). -/
def hybridPubBad (d : Desc) (pk : Bytes) : Option Bad :=
  match (kemOf d).ec with
  | some (11, n) =>
    match namedCurve n with
    | none => none
    | some c =>
      if pk.head? ≠ some 0x04#8 ∨ c.prime ≤ beNat (slice pk 1 c.len) ∨ c.prime ≤ beNat (pk.drop (1 + c.len)) then bad stInputRange 0x0211
      else ecPointBad c pk
  | _ => none

/-- The shared secret of an exchange on a Weierstrass curve (R264): the x-coordinate of h·d·Q, with the multiplication by d blinded (R278) and
INVARIANT's check of it (R279); none where the result is at infinity. -/
def weierAgree (c : Curve) (b : Blinding) (priv pub : Bytes) : Option Bytes × Bool :=
  match ecPoint c pub with
  | none => (none, true)
  | some q =>
    let z := c.weier.secret b (beNat priv) q
    let h := if c.cofactor = 1 then z.1 else c.weier.mul c.cofactor z.1
    (h.map (fun q => beBytes c.len q.1), z.2 && c.weier.on h)

/-- The shared secret of the EC half, with INVARIANT's check: zeros at infinity. -/
def ecAgree (d : Desc) (b : Blinding) (priv pub : Bytes) : Bytes × Bool :=
  match (kemOf d).ec with
  | some (11, n) =>
    match namedCurve n with
    | some c => let z := weierAgree c b priv pub; (z.1.getD (zeros (ecHalf d).secret), z.2)
    | none => (zeros (ecHalf d).secret, true)
  | some (_, n) => (montOf n).agree b priv pub
  | none => ([], true)

/-- The fault mode of an ENCAPS's EC half: with m drawn inside no policy counts (R184). -/
def encapsHalfMode (s : State) (d : Desc) : BitVec 2 := if d.inLen = 0 then d.faultMode else modeWith2 s d

/-- The EC half's refusal: its key, or a secret of zeros. -/
def ecHalfBad (d : Desc) (peer ss : Bytes) : Option Bad :=
  if hybrid d then firstBad [hybridPubBad d peer, badWhen (allZero ss) (bad stInputZero 0x0213)] else none

/-- COMBINER of PARAM. -/
def combiner (d : Desc) : BitVec 2 := bits d.param 8 2

/-- R174: which combiners a set takes. -/
def combinerBad (d : Desc) : Option Bad := badWhen (decide (2 ≤ (combiner d).toNat) || (!hybrid d && combiner d != 0)) (badField 0x0206)

/-- The secret of a KEM job. -/
def combine (d : Desc) (ssML ssEC ctEC pkEC : Bytes) : Bytes :=
  if hybrid d = false then ssML
  else if combiner d = 0 then ssML ++ ssEC
  else sha3_256 (ssML ++ ssEC ++ ctEC ++ pkEC ++ ascii "CQX18-HYB-" ++ [d.paramSet.setWidth 8])

/-- The length of that secret. -/
def kemSecretLen (d : Desc) : Nat := if hybrid d ∧ combiner d = 0 then 32 + (ecHalf d).secret else 32

/-! ### MLKEM_KEYGEN (R169) -/

/-- The output of a KEYGEN. -/
def kemPubLen (d : Desc) : Nat := (kemSizes d).pub + (if hybrid d then (ecHalf d).pub else 0)

/-- The EC key of a hybrid KEYGEN, with key-agreement usage: an engine's key has no masking order (R260). -/
def hybridKey (s : State) (x : Job) (e : Nat × Nat) (seed : Bytes) : Key :=
  { keygenKey s x e.1 e.2 (ecHalf x.desc) useAgree false seed with shares3 := false }

/-- The checks of the EC half of a hybrid KEYGEN, a key-agreement key (R279): INVARIANT's, and under VERIFY the public key computed again under
other blinding. -/
def halfKeygenRun (s : State) (x : Job) (e : Nat × Nat) (h : Key) (r : Ran) : Ran :=
  let m := keygenMode x.desc
  let y (g : Nat) : Bytes × Bool := enginePublic e.1 e.2 (bit m 0) (blinding s x g) (h.value.take (ecHalf x.desc).priv)
  checkedRun s x (!bit m 0 || (y 0).2) (!bit m 1 || (y 1).1 == (y 0).1) r

/-- The time of the EC operations of a hybrid (R187, R279). -/
def ecHalfTime (mode : BitVec 2) (ops : Nat) (e : Nat × Nat) : Nat := engineExchange mode 110 (ops * halfFigure e)

def mlkemKeygenRun (s : State) (x : Job) : Ran :=
  let d := x.desc
  let seeded := d.inLen != 0
  let (rnd, s) := if seeded then (jobInput s x, s) else draw s x.pitch (64 + ecSeedLen d)
  let k := keygenKey s x 2 (kemOf d).plain (kemSizes d) useDecaps seeded (rnd.take 64)
  let first := Commit.keyPut (reservedAt x 0) k
  match (kemOf d).ec with
  | none => ranWith s { outOf (outStatus d) 0 (handles s x 0) with output := outBytes d (publicOf k) } [first]
  | some e =>
    let h := hybridKey s x e (rnd.drop 64)
    let r := handles s x 0 ||| (handles s x 1 <<< 32)
    halfKeygenRun s x e h
      (ranWith s { outOf (outStatus d) 0 r with output := outBytes d (publicOf k ++ publicOf h) } [first, .keyPut (reservedAt x 1) h])

def mlkemKeygenSpec : OpSpec :=
  { code := 0x0201, modes := true, vault := true, place := kemPlace,
    more5 := fun _ x => vaultRequired x.desc,
    uses := fun _ => { param := 0xFFFFFFFF00000007, set := true, inp := true, out := true },
    sets := fun n => (kemSet n).isSome,
    fields := fun _ x => keygenAttrsBad x.desc,
    keys := fun _ x => keygenFaultBad x.desc,
    lengths := fun _ x => firstBad
      [ badWhen (x.desc.inLen != 0 && (x.desc.inLen != 64 || hybrid x.desc)) (badLength 0x0202), needOutOr0 x.desc (kemPubLen x.desc) ],
    slots := fun _ x =>
      let p := bit (attrsOf x.desc) 16
      let z := kemSizes x.desc
      slotFor z.cells z.priv p :: (match (kemOf x.desc).ec with
        | some e => [slotFor (ecHalf x.desc).cells (privateLen e.1 (ecHalf x.desc)) p]
        | none => []),
    masked := fun _ _ => true,
    draws := fun _ x => if x.desc.inLen = 0 then .call else .nothing,
    time := fun _ x _ =>
      let f := kemFigures (kemOf x.desc).plain
      hybridTime (kemOf x.desc).ec (kemKeygenTime x.desc f) (ecHalfTime (keygenMode x.desc) 1),
    run := mlkemKeygenRun }

/-! ### MLKEM_ENCAPS (R169, R172) -/

/-- The two keys of an ENCAPS, with the ML-KEM one from a private slot or not. -/
structure KemPeer where
  kem     : Bytes
  ec      : Bytes
  checked : Bool
  deriving DecidableEq, Repr

/-- The keys that an ENCAPS uses (R168). -/
def kemPeer (s : State) (x : Job) : KemPeer :=
  let d := x.desc
  let aux := jobAux s x
  if d.keyHandle = 0 then { kem := aux.take (kemSizes d).pub, ec := aux.drop (kemSizes d).pub, checked := false }
  else
    let k := keyOf s d.keyHandle
    { kem := (k.map publicOf).getD [], ec := ((keyOf s d.keyHandle2).map publicOf).getD [],
      checked := !((k.map (fun k => publicOnly k.typ)).getD false) }

/-- What refuses an ENCAPS after its full run, in order. -/
def encapsBad (d : Desc) (p : KemPeer) (ss : Bytes) : Option Bad :=
  firstBad [badWhen (!p.checked && !kemModulusOk p.kem) (bad stInputRange 0x0210), ecHalfBad d p.ec ss]

/-- An ephemeral EC key from random bytes: private, public, and INVARIANT's check. -/
def ephemeral (d : Desc) (b : Blinding) (seed : Bytes) : Bytes × Bytes × Bool :=
  match (kemOf d).ec with
  | some e =>
    let priv := privateFrom e.1 e.2 (ecHalf d) seed
    (priv, enginePublic e.1 e.2 false b priv)
  | none => ([], [], true)

/-- The checks of the EC half of an ENCAPS or a DECAPS (R279): `y` computes its values, and INVARIANT's check of them, under one blinding of
two. A plain set has none. -/
def halfRun (s : State) (x : Job) (m : BitVec 2) (y : Nat → Bytes × Bytes × Bool) (r : Ran) : Ran :=
  if hybrid x.desc then
    checkedRun s x (!bit m 0 || (y 0).2.2) (!bit m 1 || ((y 1).1 == (y 0).1 && (y 1).2.1 == (y 0).2.1)) r
  else r

/-- A secret key of a KEM job in the vault (R171): its origin is derived. -/
def secretKey (s : State) (x : Job) (v : Bytes) : Key := withOwnAttrs (attrsOf x.desc) (newKey s x.pitch 1 0 1 2 v)

/-- A KEM job's secret released: to the vault, or after the other output. -/
def releaseSecret (s : State) (x : Job) (before secret : Bytes) (k : Key → Key := id) : Ran :=
  if x.desc.toVault then
    ranWith s { outOf stOk 0 (handles s x 0) with output := before }
      [.keyPut (reservedAt x 0) (k (secretKey s x secret))]
  else ranWith s { outOf stOk 0 with output := before ++ secret }

def mlkemEncapsRun (s : State) (x : Job) : Ran :=
  let d := x.desc
  let z := kemSizes d
  let given := d.inLen != 0
  let (rnd, s) := if given && !hybrid d then (jobInput s x, s)
    else
      let (r, t) := draw s x.pitch ((if given then 0 else 32) + ecSeedLen d)
      ((if given then jobInput s x else []) ++ r, t)
  let m := rnd.take 32
  let p := kemPeer s x
  let kr := kemKr p.kem m
  let half (g : Nat) : Bytes × Bytes × Bool :=
    let e := ephemeral d (blinding s x (2 * g)) (rnd.drop 32)
    let a := ecAgree d (blinding s x (2 * g + 1)) e.1 p.ec
    (e.2.1, a.1, e.2.2 && a.2)
  let (pub, ss, _) := half 0
  halfRun s x (encapsHalfMode s d) half (match encapsBad d p ss with
  | some b => ranBad s b
  | none =>
    let ct := kemCipher (kemAlg d) z p.kem m (kr.drop 32)
    let ctEC := if hybrid d then pub else []
    releaseSecret s x (ct ++ ctEC) (combine d (kr.take 32) ss ctEC p.ec) (fun k => { k with shares3 := bit d.param 0 }))

/-- The length of a KEM job's ciphertext. -/
def kemCtLen (d : Desc) : Nat := (kemSizes d).out + (if hybrid d then (ecHalf d).pub else 0)

/-- What an ENCAPS asks of its ML-KEM key: with m drawn inside, no policy counts (R184). -/
def encapsNeed (d : Desc) : KeyNeed :=
  let n := publicNeed d 2 (kemSlotSet d)
  if d.inLen = 0 then { n with more := fun _ => none } else n

/-- What a hybrid asks of its EC public key: the fault mode keeps its policy too, but with m drawn inside (R184). -/
def hybridNeed (d : Desc) (e : Nat × Nat) : KeyNeed :=
  let t := BitVec.ofNat 16 e.1
  { typ := fun n => n == t || n == (t ||| 0x8000), set := fun n => n == BitVec.ofNat 16 e.2, usage := none,
    more := fun k => if d.inLen = 0 then none else faultWeaker d k }

def encapsKeys (s : State) (x : Job) : Option Bad :=
  let d := x.desc
  if d.keyHandle = 0 then none
  else firstBad
    [ keyCheck s x.pitch d.keyHandle (encapsNeed d),
      (match (kemOf d).ec with
       | some e => keyCheck s x.pitch d.keyHandle2 (hybridNeed d e)
       | none => none) ]

/-- ATTRS of an ENCAPS, whose PARAM has its own SHARES3. -/
def encapsAttrsBad (x : Job) : Option Bad :=
  let d := x.desc
  if d.toVault then
    badWhen (!attrsOk (attrsOf d) (usageAllowed 1 0 (kemSecretLen d) x.pitch false) true true false false) (badField 0x0B20)
  else badWhen (attrsOf d != 0) (badField 0x0B20)

def encapsFieldsBad (x : Job) : Option Bad :=
  let d := x.desc
  firstBad
    [ combinerBad d,
      badWhen (hybrid d && (d.keyHandle == 0) != (d.keyHandle2 == 0)) (badField 0x0205),
      badWhen (d.toVault && d.inLen == 32) (badField 0x0207),
      encapsAttrsBad x ]

def mlkemEncapsSpec : OpSpec :=
  { code := 0x0202, modes := true, vault := true, place := kemPlace,
    uses := fun d => { param := 0xFFFFFFFF00000301, set := true, key := true, key2 := hybrid d, inp := true, out := true,
                       aux := d.keyHandle == 0 },
    sets := fun n => (kemSet n).isSome,
    fields := fun _ x => encapsFieldsBad x,
    keys := encapsKeys,
    lengths := fun _ x => firstBad
      [ badWhen (x.desc.inLen != 0 && x.desc.inLen != 32) (badLength 0x0202),
        badWhen (x.desc.keyHandle == 0 && x.desc.auxLen.toNat != kemPubLen x.desc) (badLength 0x0203),
        needOut x.desc (kemCtLen x.desc + (if x.desc.toVault then 0 else kemSecretLen x.desc)) ],
    slots := fun _ x => if x.desc.toVault then [slotFor 1 (kemSecretLen x.desc) (bit (attrsOf x.desc) 16)] else [],
    masked := fun _ _ => true,
    draws := fun _ x => if x.desc.inLen = 0 || hybrid x.desc then .call else .nothing,
    time := fun s x _ =>
      let f := kemFigures (kemOf x.desc).plain
      let m := encapsMode s x.desc
      hybridTime (kemOf x.desc).ec (some (kemJobTime m (bit x.desc.param 0) f.2.1))
        (ecHalfTime (encapsHalfMode s x.desc) 2),
    run := mlkemEncapsRun }

/-! ### MLKEM_DECAPS (R169, R173) -/

def mlkemDecapsRun (s : State) (x : Job) : Ran :=
  let d := x.desc
  let z := kemSizes d
  let inp := jobInput s x
  let ct := inp.take z.out
  let ctEC := inp.drop z.out
  match keyOf s d.keyHandle with
  | none => ranBad s { status := stKeyAbsent, detail := 0x0B03 }
  | some k =>
    let ec := keyOf s d.keyHandle2
    let half (g : Nat) : Bytes × Bytes × Bool :=
      ([], ecAgree d (blinding s x g) ((ec.map (fun k => k.value.take (ecHalf d).priv)).getD []) ctEC)
    let ss := (half 0).2.1
    halfRun s x (modeWith2 s d) half (match ecHalfBad d ctEC ss with
    | some b => ranBad s b
    | none => releaseSecret s x [] (combine d (kemDecaps (kemAlg d) z k.value ct) ss ctEC ((ec.map publicOf).getD [])))

def decapsKeys (s : State) (x : Job) : Option Bad :=
  let d := x.desc
  firstBad
    [ keyCheck s x.pitch d.keyHandle (privateNeed d 2 (kemSlotSet d) (some 1)),
      (match (kemOf d).ec with
       | some e => keyCheck s x.pitch d.keyHandle2
           { typ := fun t => t == BitVec.ofNat 16 e.1, set := fun n => n == BitVec.ofNat 16 e.2, usage := some 2, more := faultWeaker d }
       | none => none) ]

def mlkemDecapsSpec : OpSpec :=
  { code := 0x0203, modes := true, vault := true, place := kemPlace,
    uses := fun d => { param := 0xFFFFFFFF00000300, set := true, key := true, key2 := hybrid d, inp := true, out := !d.toVault },
    sets := fun n => (kemSet n).isSome,
    fields := fun _ x => firstBad [combinerBad x.desc, secretOutAttrsBad x.desc (kemSecretLen x.desc) x.pitch],
    keys := decapsKeys,
    lengths := fun _ x => firstBad
      [ badWhen (x.desc.inLen.toNat != kemCtLen x.desc) (badLength 0x0204),
        (if x.desc.toVault then none else needOut x.desc (kemSecretLen x.desc)) ],
    slots := fun _ x => if x.desc.toVault then [slotFor 1 (kemSecretLen x.desc) (bit (attrsOf x.desc) 16)] else [],
    masked := fun _ _ => true,
    time := fun s x _ =>
      let f := kemFigures (kemOf x.desc).plain
      let m := modeWith s x.desc
      hybridTime (kemOf x.desc).ec (some (kemJobTime m (keyThree s x.desc) f.2.2))
        (ecHalfTime (modeWith2 s x.desc) 1),
    run := mlkemDecapsRun }

/-! ### MLKEM_PUBKEY -/

def mlkemPubkeyRun (s : State) (x : Job) : Ran :=
  let a := ((keyOf s x.desc.keyHandle).map publicOf).getD []
  let b := if hybrid x.desc then ((keyOf s x.desc.keyHandle2).map publicOf).getD [] else []
  ranWith s { outOf stOk 0 with output := a ++ b }

def mlkemPubkeySpec : OpSpec :=
  { code := 0x0204, place := fun _ _ => .tile,
    more5 := fun _ x => vaultForbidden x.desc,
    uses := fun d => { set := true, key := true, key2 := hybrid d, out := true },
    sets := fun n => (kemSet n).isSome,
    keys := fun s x => firstBad
      [ pubkeyKeyBad s x x.desc.keyHandle 2 (kemSlotSet x.desc),
        (match (kemOf x.desc).ec with
         | some e => keyCheck s x.pitch x.desc.keyHandle2 (hybridNeed x.desc e)
         | none => none) ],
    lengths := fun _ x => needOut x.desc (kemPubLen x.desc),
    time := pubkeyTime,
    run := mlkemPubkeyRun }

def execMlkemKeygen (j : JobId) (s : State) : Host.Outcome State Fault Refusal := act s (startJob mlkemKeygenSpec j s)

def execMlkemEncaps (j : JobId) (s : State) : Host.Outcome State Fault Refusal := act s (startJob mlkemEncapsSpec j s)

def execMlkemDecaps (j : JobId) (s : State) : Host.Outcome State Fault Refusal := act s (startJob mlkemDecapsSpec j s)

def execMlkemPubkey (j : JobId) (s : State) : Host.Outcome State Fault Refusal := act s (startJob mlkemPubkeySpec j s)

/-! ### ML-DSA and FN-DSA (R175 to R182) -/

/-- A lattice signature family: TYPE, whether it has EXTERNAL_MU and a seeded KEYGEN. -/
structure LatticeSig where
  typ : Nat
  mu  : Bool
  deriving DecidableEq, Repr

def mldsaFamily : LatticeSig := { typ := 3, mu := true }

def fndsaFamily : LatticeSig := { typ := 4, mu := false }

/-- The number under which a family's signatures verify: 65,536 × the high byte of its opcodes and 256 × its set. -/
def latticeAlg (f : LatticeSig) (d : Desc) : Nat := 65536 * f.typ + 256 * d.paramSet.toNat

/-- The signed string: μ for ML-DSA, given or computed, and M′ for FN-DSA. -/
def latticeMsg (f : LatticeSig) (d : Desc) (pk ctx inp : Bytes) : Bytes :=
  if f.mu then (if formOf d = 2 then inp else mldsaMu pk (messageOf d ctx inp)) else messageOf d ctx inp

/-- A signature of a key over a string with its randomness. -/
def latticeSignature (f : LatticeSig) (alg : Nat) (z : SetSize) (value msg rnd : Bytes) : Bytes :=
  fit z.out (Config.crypto .sigSign (alg + f.typ) [value, msg, rnd])

/-- The pairwise test of a KEYGEN (R184): its iterations; none without the test or past the limit. -/
def latticePairwise (f : LatticeSig) (d : Desc) (z : SetSize) (value rnd : Bytes) : Option Nat :=
  let pk := publicPart f.typ z value
  let m := pureMessage [] (zeros 32)
  iterationsOf (latticeAlg f d) [value, if f.mu then mldsaMu pk m else m, rnd]

/-- The random bytes of one FN-DSA signature: the salt, and a seed of the sampler (log 21). -/
def fndsaRnd : Nat := 72

/-- The random values of FN-DSA's further iterations: each takes a fresh salt (R179, R182), and the last one is used. -/
def furtherDraws (p : BitVec 8) : Nat → Bytes → State → Bytes × State
  | 0, r, s => (r, s)
  | k + 1, _, s => let (r, s) := draw s p fndsaRnd; furtherDraws p k r s

/-- The randomness of a signature's last iteration, by its count; 256 iterations where none is accepted. -/
def lastRnd (f : LatticeSig) (p : BitVec 8) (k : Option Nat) (rnd : Bytes) (s : State) : Bytes × State :=
  if f.mu then (rnd, s) else furtherDraws p (k.getD 256 - 1) rnd s

def latticeKeygenRun (f : LatticeSig) (s : State) (x : Job) : Ran :=
  let d := x.desc
  let z := setSize f.typ d
  let seeded := d.inLen != 0
  let (seed, s) := if seeded then (jobInput s x, s) else draw s x.pitch 32
  let (rnd, s) := if pairwise d && !f.mu then draw s x.pitch fndsaRnd else (zeros 32, s)
  let k := keygenKey s x f.typ d.paramSet.toNat z useSign seeded seed
  let done (s : State) (n : Nat) : Ran :=
    ranWith s { outOf (outStatus d) 0 (handles s x 0 ||| at64 32 (BitVec.ofNat 16 n)) with output := outBytes d (publicOf k) }
      [.keyPut (reservedAt x 0) k]
  if pairwise d = false then done s 0
  else
    let n := latticePairwise f d z k.value rnd
    let s := (lastRnd f x.pitch n rnd s).2
    match n with
    | some n => done s n
    | none => iterationLimit s

def latticeKeygenSpec (code : BitVec 16) (f : LatticeSig) : OpSpec :=
  { code := code, modes := true, vault := true, place := fun _ _ => .tile,
    more5 := fun _ x => vaultRequired x.desc,
    uses := fun _ => { param := 0xFFFFFFFF00000007, set := true, inp := true, out := true },
    sets := isSet f.typ,
    fields := fun _ x => keygenAttrsBad x.desc,
    keys := fun _ x => keygenFaultBad x.desc,
    lengths := fun _ x => firstBad
      [ badWhen (x.desc.inLen != 0 && (x.desc.inLen != 32 || !f.mu)) (badLength 0x0202), needOutOr0 x.desc (setSize f.typ x.desc).pub ],
    slots := fun _ x =>
      let z := setSize f.typ x.desc
      [slotFor z.cells (privateLen f.typ z) (bit (attrsOf x.desc) 16)],
    masked := fun _ _ => true,
    draws := fun _ x => if x.desc.inLen = 0 then .call else .nothing,
    time := latticeKeygenTime f.typ f.mu,
    run := latticeKeygenRun f }

def latticeSignRun (f : LatticeSig) (s : State) (x : Job) : Ran :=
  let d := x.desc
  let z := setSize f.typ d
  match keyOf s d.keyHandle with
  | none => ranBad s { status := stKeyAbsent, detail := 0x0B03 }
  | some k =>
    let (rnd, s) := if deterministic d then (zeros 32, s) else draw s x.pitch (if f.mu then 32 else fndsaRnd)
    let msg := latticeMsg f d (publicOf k) (jobAux s x) (jobInput s x)
    let alg := latticeAlg f d
    let n := iterationsOf alg [k.value, msg, rnd]
    let (rnd, s) := lastRnd f x.pitch n rnd s
    match n with
    | none => iterationLimit s
    | some n =>
      let sig := latticeSignature f alg z k.value msg rnd
      ranWith (signed s alg (publicOf k) msg sig) { outOf stOk 0 (BitVec.ofNat 64 n) with output := sig }

def latticeSignSpec (code : BitVec 16) (f : LatticeSig) : OpSpec :=
  { code := code, modes := true, place := fun _ _ => .tile,
    more5 := fun _ x => vaultForbidden x.desc,
    uses := fun _ => { param := 0xFF07, set := true, key := true, inp := true, out := true, aux := true },
    sets := isSet f.typ,
    fields := fun _ x => firstBad [formBad f.mu x.desc, badWhen (deterministic x.desc && !f.mu) (badField 0x0307)],
    keys := fun s x => keyCheck s x.pitch x.desc.keyHandle (privateNeed x.desc (BitVec.ofNat 16 f.typ) x.desc.paramSet (some 0)),
    lengths := fun _ x => firstBad [formLenBad x.desc, signCtxBad x.desc, needOut x.desc (setSize f.typ x.desc).out],
    masked := fun _ _ => true,
    draws := fun _ x => if deterministic x.desc then .nothing else .call,
    time := latticeSignTime f.typ f.mu,
    run := latticeSignRun f }

/-- The length of the signature that a VERIFY takes. -/
def latticeSigLen (f : LatticeSig) (d : Desc) : Nat := if f.mu then (setSize f.typ d).out else (bits d.param 16 16).toNat

def latticeVerifyRun (f : LatticeSig) (s : State) (x : Job) : Ran :=
  let d := x.desc
  let (pk, rest) := givenPublic s x (setSize f.typ d).pub
  let n := latticeSigLen f d
  match (if d.keyHandle = 0 then familyPubBad f.typ d.paramSet.toNat pk else none) with
  | some b => ranBad s b
  | none =>
    ranWith s (verdict (verifies s (latticeAlg f d) pk (latticeMsg f d pk (rest.drop n) (jobInput s x)) (rest.take n)))

def latticeVerifyLengths (f : LatticeSig) (d : Desc) : Option Bad :=
  let z := setSize f.typ d
  let n := latticeSigLen f d
  firstBad [formLenBad d, badWhen (!f.mu && decide (n < 41 ∨ z.out < n)) (badLength 0x0306), verifyAuxBad d z.pub n]

def latticeVerifySpec (code : BitVec 16) (f : LatticeSig) : OpSpec :=
  { code := code, modes := true, place := fun _ _ => .tile,
    more5 := fun _ x => vaultForbidden x.desc,
    uses := fun _ => { param := if f.mu then 0xFF07 else 0xFFFFFF07, set := true, key := true, inp := true, aux := true },
    sets := isSet f.typ,
    fields := fun _ x => firstBad [formBad f.mu x.desc, badWhen (deterministic x.desc) (badField 0x0307)],
    keys := fun s x => slotPublicBad s x (BitVec.ofNat 16 f.typ),
    lengths := fun _ x => latticeVerifyLengths f x.desc,
    time := latticeVerifyTime f.typ f.mu,
    run := latticeVerifyRun f }

def mldsaKeygenSpec : OpSpec := latticeKeygenSpec 0x0301 mldsaFamily
def mldsaSignSpec : OpSpec := latticeSignSpec 0x0302 mldsaFamily
def mldsaVerifySpec : OpSpec := latticeVerifySpec 0x0303 mldsaFamily
def mldsaPubkeySpec : OpSpec := { pubkeySpec 0x0304 3 .tile with time := pubkeyTime }
def fndsaKeygenSpec : OpSpec := latticeKeygenSpec 0x0401 fndsaFamily
def fndsaSignSpec : OpSpec := latticeSignSpec 0x0402 fndsaFamily
def fndsaVerifySpec : OpSpec := latticeVerifySpec 0x0403 fndsaFamily
def fndsaPubkeySpec : OpSpec := { pubkeySpec 0x0404 4 .tile with time := pubkeyTime }

def execMldsaKeygen (j : JobId) (s : State) : Host.Outcome State Fault Refusal := act s (startJob mldsaKeygenSpec j s)

def execMldsaSign (j : JobId) (s : State) : Host.Outcome State Fault Refusal := act s (startJob mldsaSignSpec j s)

def execMldsaVerify (j : JobId) (s : State) : Host.Outcome State Fault Refusal := act s (startJob mldsaVerifySpec j s)

def execMldsaPubkey (j : JobId) (s : State) : Host.Outcome State Fault Refusal := act s (startJob mldsaPubkeySpec j s)

def execFndsaKeygen (j : JobId) (s : State) : Host.Outcome State Fault Refusal := act s (startJob fndsaKeygenSpec j s)

def execFndsaSign (j : JobId) (s : State) : Host.Outcome State Fault Refusal := act s (startJob fndsaSignSpec j s)

def execFndsaVerify (j : JobId) (s : State) : Host.Outcome State Fault Refusal := act s (startJob fndsaVerifySpec j s)

def execFndsaPubkey (j : JobId) (s : State) : Host.Outcome State Fault Refusal := act s (startJob fndsaPubkeySpec j s)

end Sys2Proof.Machine
end

