-- ==== Sys2Proof/Machine/Code.lean ====
section
/-! DEFINITION. Code-based key establishment: HQC and Classic McEliece, with the key shelves of the CODE stalls (R235 to R252). -/
namespace Sys2Proof.Machine

/-! ### Both families -/

/-- ATTRS of an opcode that may put a secret of a length into the vault. -/
def secretOutBad (x : Job) (len : Nat) (own : Bool) : Option Bad :=
  let d := x.desc
  if d.toVault then badWhen (!attrsOk (attrsOf d) (usageAllowed 1 0 len x.pitch false) true own false false) (badField 0x0B20)
  else badWhen (attrsOf d != 0) (badField 0x0B20)

/-- A slot for a secret in the vault. -/
def secretSlot (x : Job) (len : Nat) : List NewSlot :=
  if x.desc.toVault then [slotFor 1 len (bit (attrsOf x.desc) 16)] else []

/-- IN_LEN is 0, or that of a TEST_SEED (R237). -/
def testSeedBad (d : Desc) : Option Bad := badWhen (d.inLen != 0 && d.inLen != 48) (badLength 0x0202)

/-- A TEST_SEED's ENCAPS gives no secret to the vault (R237). -/
def seedVaultBad (d : Desc) : Option Bad := badWhen (d.toVault && d.inLen == 48) (badField 0x0207)

/-- The random bytes of a job: the TEST_SEED, or bytes of the pitch's DRBG (log 21). -/
def codeRandom (s : State) (x : Job) (n : Nat) : Bytes × State :=
  if x.desc.inLen = 0 then draw s x.pitch n else (jobInput s x, s)

/-- A job that draws unless it has a TEST_SEED. -/
def drawsUnlessSeed (x : Job) : Draw := if x.desc.inLen = 0 then .call else .nothing

/-- Which of the two a value is made from. -/
def seedMark (d : Desc) : Bytes := [flag 8 (d.inLen != 0)]

/-! ### HQC (R237 to R239) -/

/-- The message length of a set, which is also that of σ. -/
def hqcK (d : Desc) : Nat := (setSize 9 d).priv - (setSize 9 d).pub - 40

def hqcAlg (d : Desc) : Nat := keyAlg 9 d.paramSet.toNat

/-- COMBINER must be zero. -/
def noCombiner (d : Desc) : Option Bad := badWhen (bits d.param 8 2 != 0#2) (badField 0x0206)

/-- A new private key of a code-based family. -/
def codeValue (typ : Nat) (alg : Nat) (z : SetSize) (d : Desc) (seed : Bytes) : Bytes :=
  fit (privateLen typ z) (Config.crypto .kemKeygen alg [seedMark d, seed])

/-- The slot's key of a code-based KEYGEN. -/
def codeKey (s : State) (x : Job) (typ : Nat) (z : SetSize) (value : Bytes) : Key :=
  let d := x.desc
  ownPolicy d (withAttrs (attrsOf d) useDecaps
    (newKey s x.pitch (BitVec.ofNat 16 typ) d.paramSet z.cells (flag 2 (d.inLen != 0)) value))

def hqcKeygenRun (s : State) (x : Job) : Ran :=
  let d := x.desc
  let (seed, s) := codeRandom s x (80 + hqcK d)
  let k := codeKey s x 9 (setSize 9 d) (codeValue 9 (hqcAlg d) (setSize 9 d) d seed)
  ranWith s { outOf (outStatus d) 0 (handles s x 0) with output := outBytes d (publicOf k) } [.keyPut (reservedAt x 0) k]

def hqcKeygenSpec : OpSpec :=
  { code := 0x0701, modes := true, vault := true, place := fun _ _ => .tile,
    more5 := fun _ x => vaultRequired x.desc,
    uses := fun _ => { param := 0xFFFFFFFF00000007, set := true, inp := true, out := true },
    sets := isSet 9,
    fields := fun _ x => keygenAttrsBad x.desc,
    keys := fun _ x => keygenFaultBad x.desc,
    lengths := fun _ x => firstBad [testSeedBad x.desc, needOutOr0 x.desc (setSize 9 x.desc).pub],
    slots := fun _ x => [slotFor (setSize 9 x.desc).cells (setSize 9 x.desc).priv (bit (attrsOf x.desc) 16)],
    masked := fun _ _ => true,
    draws := fun _ x => drawsUnlessSeed x,
    time := fun _ x _ => kemKeygenTime x.desc (hqcFigures x.desc.paramSet.toNat),
    run := hqcKeygenRun }

/-- The key of an ENCAPS, and whether it has passed its check before (R238). -/
def hqcPeer (s : State) (x : Job) : Bytes × Bool :=
  if x.desc.keyHandle = 0 then (jobAux s x, false)
  else
    let k := keyOf s x.desc.keyHandle
    ((k.map publicOf).getD [], !((k.map (fun k => publicOnly k.typ)).getD false))

def hqcEncapsRun (s : State) (x : Job) : Ran :=
  let d := x.desc
  let (pk, checked) := hqcPeer s x
  let (m, s) := codeRandom s x (hqcK d + 16)
  match (if checked then none else hqcPubBad d.paramSet.toNat pk) with
  | some b => ranBad s b
  | none =>
    let ct := fit (setSize 9 d).out (Config.crypto .kemCipher (hqcAlg d) [pk, seedMark d, m])
    let ss := fit 64 (Config.crypto .kemSecret (hqcAlg d) [pk, seedMark d, m])
    releaseSecret s x ct ss (fun k => { k with shares3 := bit d.param 0 })

/-- What an ENCAPS asks of its key (R184). -/
def hqcEncapsNeed (d : Desc) : KeyNeed :=
  let n := publicNeed d 9 d.paramSet
  if d.inLen = 0 then { n with more := fun _ => none } else n

def hqcEncapsSpec : OpSpec :=
  { code := 0x0702, modes := true, vault := true, place := fun _ _ => .tile,
    uses := fun d => { param := 0xFFFFFFFF00000301, set := true, key := true, inp := true, out := true, aux := d.keyHandle == 0 },
    sets := isSet 9,
    fields := fun _ x => firstBad [noCombiner x.desc, seedVaultBad x.desc, secretOutBad x 64 true],
    keys := fun s x => if x.desc.keyHandle = 0 then none else keyCheck s x.pitch x.desc.keyHandle (hqcEncapsNeed x.desc),
    lengths := fun _ x => firstBad
      [ testSeedBad x.desc,
        badWhen (x.desc.keyHandle == 0 && x.desc.auxLen.toNat != (setSize 9 x.desc).pub) (badLength 0x0203),
        needOut x.desc ((setSize 9 x.desc).out + (if x.desc.toVault then 0 else 64)) ],
    slots := fun _ x => secretSlot x 64,
    masked := fun _ _ => true,
    draws := fun _ x => drawsUnlessSeed x,
    time := fun s x _ => some (kemJobTime (encapsMode s x.desc) (bit x.desc.param 0) (hqcFigures x.desc.paramSet.toNat).2.1),
    run := hqcEncapsRun }

/-- A decapsulation, of which a bad ciphertext takes the rejection path (R239, R247). -/
def codeDecapsRun (alg : Nat) (len : Nat) (s : State) (x : Job) : Ran :=
  match keyOf s x.desc.keyHandle with
  | none => ranBad s { status := stKeyAbsent, detail := 0x0B03 }
  | some k => releaseSecret s x [] (fit len (Config.crypto .kemDecaps alg [k.value, jobInput s x]))

/-- DECAPS of a family (R169). -/
def codeDecapsSpec (code : BitVec 16) (typ len : Nat) (alg : Desc → Nat) (param : BitVec 64) (fig : Nat → Nat) : OpSpec :=
  { code := code, modes := true, vault := true, place := fun _ _ => .tile,
    uses := fun d => { param := param, set := true, key := true, inp := true, out := !d.toVault },
    sets := isSet typ,
    fields := fun _ x => firstBad [noCombiner x.desc, secretOutBad x len false],
    keys := fun s x => keyCheck s x.pitch x.desc.keyHandle (privateNeed x.desc (BitVec.ofNat 16 typ) x.desc.paramSet (some 1)),
    lengths := fun _ x => firstBad
      [ badWhen (x.desc.inLen.toNat != (setSize typ x.desc).out) (badLength 0x0204),
        (if x.desc.toVault then none else needOut x.desc len) ],
    slots := fun _ x => secretSlot x len,
    masked := fun _ _ => true,
    time := fun s x _ => some (kemJobTime (modeWith s x.desc) (keyThree s x.desc) (fig x.desc.paramSet.toNat)),
    run := fun s x => codeDecapsRun (alg x.desc) len s x }

def hqcDecapsSpec : OpSpec := codeDecapsSpec 0x0703 9 64 hqcAlg 0xFFFFFFFF00000300 (fun n => (hqcFigures n).2.2)

def hqcPubkeySpec : OpSpec := { pubkeySpec 0x0704 9 .tile with time := pubkeyTime }

def execHqcKeygen (j : JobId) (s : State) : Host.Outcome State Fault Refusal := act s (startJob hqcKeygenSpec j s)

def execHqcEncaps (j : JobId) (s : State) : Host.Outcome State Fault Refusal := act s (startJob hqcEncapsSpec j s)

def execHqcDecaps (j : JobId) (s : State) : Host.Outcome State Fault Refusal := act s (startJob hqcDecapsSpec j s)

def execHqcPubkey (j : JobId) (s : State) : Host.Outcome State Fault Refusal := act s (startJob hqcPubkeySpec j s)

/-! ### Key shelves (R240, R241) -/

/-- The tiles of shelf of a set (R240). -/
def shelfTiles (set : BitVec 16) : Nat :=
  match set.toNat % 16 with
  | 1 => 1
  | 2 => 2
  | 5 => 6
  | _ => 4

/-- The tiles of a key generation (R245). -/
def matrixTiles (set : BitVec 16) : Nat := if set.toNat % 16 = 5 then 5 else shelfTiles set

/-- A stall runs an MCE_KEYGEN or an MCE_PUBKEY. -/
def matrixRuns (s : State) (n : Nat) : Bool :=
  (tilesOf (stallTiles s n)).any (fun t => match (s.tile (BitVec.ofNat 6 t)).state with
    | .busy j => ((s.job j).map (fun x => x.desc.opcode == 0x0801 || x.desc.opcode == 0x0804)).getD false
    | _ => false)

/-- The tiles of a stall whose shelf is empty, or holds the key of a context that gives it up. -/
def freeShelves (s : State) (own : Option (BitVec 14)) (n : Nat) : List Nat :=
  (tilesOf (stallTiles s n)).filter (fun t =>
    let h := (s.tile (BitVec.ofNat 6 t)).shelf
    h.isNone || (own.isSome && h == own))

/-- Tiles less those that a job avoids on its rerun (R186). -/
def lessAvoided (x : Job) (ts : List Nat) : List Nat := ts.filter (fun t => !x.avoid.contains (.tile (BitVec.ofNat 6 t)))

/-- So many tiles, others than those that a job avoids where there are enough. -/
def takeTiles (x : Job) (k : Nat) (ts : List Nat) : List Nat :=
  let o := lessAvoided x ts
  (if k ≤ o.length then o else ts).take k

/-- The CODE stalls with enough tiles in service and with empty shelves, others than a rerun avoids where there are such. -/
def roomyStalls (s : State) (x : Job) (own : Option (BitVec 14)) (k : Nat) : List Nat :=
  let enough (f : List Nat → List Nat) := (stallsOf s .code).filter (fun n => decide (k ≤ (f (freeShelves s own n)).length))
  let o := enough (lessAvoided x)
  if o.isEmpty then enough id else o

/-- The stall that a pinned key takes: the fewest free shelves that suffice, the lower number among equals (R241). -/
def pinStall (s : State) (x : Job) : Option Nat :=
  let own := some (ctxIndex x.desc)
  leastBy (fun n => (freeShelves s own n).length)
    ((roomyStalls s x own (shelfTiles x.desc.paramSet)).filter (fun n => !matrixRuns s n))

/-- The tiles that it takes: the lowest-numbered free ones. -/
def pinTiles (s : State) (x : Job) : List Nat :=
  match pinStall s x with
  | some n => takeTiles x (shelfTiles x.desc.paramSet) (freeShelves s (some (ctxIndex x.desc)) n)
  | none => []

/-- PK_CTX of a pin: a context of another kind, or one in use. -/
def pinCtxBad (s : State) (x : Job) : Option Bad :=
  match ctxBad s x with
  | some b => some b
  | none => match s.ctx (ctxIndex x.desc) with
    | some c => badWhen ((c.kind != 0 && c.kind != 0x0801) || ctxInUse s x (ctxIndex x.desc)) (badField 0x0814)
    | none => none

/-- The content of an MCEPK context (R242). -/
def pkBytes (set : BitVec 16) (stall : Nat) (ts : List Nat) (digest : Bytes) : Bytes :=
  fit 1024 (wordBytes 2 (0x0801#16) ++ wordBytes 2 set ++ leBytes 1 stall ++
    (ts.flatMap (leBytes 1) ++ List.replicate (6 - ts.length) 0xFF#8) ++ zeros 5 ++ digest)

def mcePkPinRun (s : State) (x : Job) : Ran :=
  let d := x.desc
  let key := jobInput s x
  let ts := x.units.filterMap (fun u => match u with
    | .tile t => some t.toNat
    | _ => none)
  let stall := ((stallsOf s .code).find? (fun n => ts.all (fun t => (stallTiles s n).getLsbD t))).getD 0
  if mcePadOk d.paramSet.toNat key = false then ranBad s { status := stInputRange, detail := 0x0810 }
  else match s.ctx (ctxIndex d) with
    | none => ranBad s { status := stBadField, detail := 0x0007 }
    | some c =>
      let b := pkBytes d.paramSet stall ts (sha3_256 key)
      ranWith s (outOf stNoOutput 0 (at64 0 (BitVec.ofNat 5 stall) ||| at64 8 (BitVec.ofNat 6 (ts.headD 0))))
        [.ctxPut (ctxIndex d) { c with kind := 0x0801, data := .bytes b }, .pinned (ctxIndex d) ts key]

def mcePkPinSpec : OpSpec :=
  { code := 0x0805, place := fun s x => .on (pinTiles s x),
    uses := fun _ => { ctx := true, set := true, inp := true },
    sets := isSet 10,
    ctx := pinCtxBad,
    lengths := fun _ x => badWhen (x.desc.inLen.toNat != (setSize 10 x.desc).pub) (badLength 0x0203),
    judge := fun s x => firstBad [pinCtxBad s x, badWhen (pinStall s x).isNone (badField 0x0812)],
    time := fun _ x _ => some (cus 11000 * x.desc.inLen.toNat / 1044992),
    run := mcePkPinRun }

/-! ### Classic McEliece (R243 to R247) -/

/-- The number of a set, an f set as its plain set. -/
def mceAlg (d : Desc) : Nat := keyAlg 10 (d.paramSet.toNat % 16)

/-- The stall of a key generation: the fewest queued beats among those with enough tiles of empty shelves (R245). -/
def matrixStall (s : State) (x : Job) : Option Nat :=
  leastBy (stallLoad { s with jobs := s.jobs.filter (fun y => y.id ≠ x.id) }) (roomyStalls s x none (matrixTiles x.desc.paramSet))

/-- Its tiles: idle ones where enough are idle. -/
def matrixPlace (s : State) (x : Job) : Place :=
  match matrixStall s x with
  | none => .on []
  | some n =>
    let ts := freeShelves s none n
    let idle := ts.filter (fun t => (s.tile (BitVec.ofNat 6 t)).state == .idle)
    let k := matrixTiles x.desc.paramSet
    .on (takeTiles x k (if k ≤ (lessAvoided x idle).length ∨ (lessAvoided x ts).length < k ∧ k ≤ idle.length then idle else ts))

/-- MCE_NO_STALL. -/
def matrixJudge (s : State) (x : Job) : Option Bad := badWhen (matrixStall s x).isNone (badField 0x0811)

/-- The public key of a private key. -/
def mcePublic (d : Desc) (value : Bytes) : Bytes := fit (setSize 10 d).pub (Config.crypto .keyPublic (keyAlg 10 d.paramSet.toNat) [value])

/-- Attempts at a key (R246): fresh material each, of a TEST_SEED's generator by the attempt's number. -/
def mceAttempts : Nat → Nat → State → Job → Option (Nat × Bytes) × State
  | 0, _, s, _ => (none, s)
  | k + 1, n, s, x =>
    let (seed, s) := codeRandom s x 32
    let m := seed ++ leBytes 1 (if x.desc.inLen = 0 then 0 else n)
    if Config.holds 7 (keyAlg 10 x.desc.paramSet.toNat) [seedMark x.desc, m] then (some (n, m), s) else mceAttempts k (n + 1) s x

def mceKeygenRun (s : State) (x : Job) : Ran :=
  let d := x.desc
  match mceAttempts 128 1 s x with
  | (none, s) => ranBad s { status := stAborted, detail := 0x0820 }
  | (some (n, m), s) =>
    let k := codeKey s x 10 (setSize 10 d) (codeValue 10 (keyAlg 10 d.paramSet.toNat) (setSize 10 d) d m)
    ranWith s { outOf (outStatus d) 0 (handles s x 0 ||| at64 32 (BitVec.ofNat 16 n)) with output := outBytes d (mcePublic d k.value) }
      [.keyPut (reservedAt x 0) k]

def mceKeygenSpec : OpSpec :=
  { code := 0x0801, modes := true, vault := true, place := matrixPlace,
    more5 := fun _ x => vaultRequired x.desc,
    uses := fun _ => { param := 0xFFFFFFFF00000007, set := true, inp := true, out := true },
    sets := isSet 10,
    fields := fun _ x => keygenAttrsBad x.desc,
    keys := fun _ x => keygenFaultBad x.desc,
    lengths := fun _ x => firstBad [testSeedBad x.desc, needOutOr0 x.desc (setSize 10 x.desc).pub],
    slots := fun _ x => [slotFor (setSize 10 x.desc).cells (setSize 10 x.desc).priv (bit (attrsOf x.desc) 16)],
    masked := fun _ _ => true,
    draws := fun _ x => drawsUnlessSeed x,
    judge := matrixJudge,
    time := mceKeygenTime,
    mean := fun _ x => some (inShares (bit x.desc.param 0) (mceMean x.desc.paramSet.toNat)),
    run := mceKeygenRun }

/-- STREAMED of PARAM. -/
def streamed (d : Desc) : Bool := bit d.param 10

/-- The tiles of an MCEPK context. -/
def pkTiles (s : State) (x : Job) : List Nat :=
  match s.ctx (ctxIndex x.desc) with
  | some c => match c.data with
    | .bytes b => ((slice b 5 6).filter (· != 0xFF#8)).map (·.toNat)
    | _ => []
  | none => []

/-- The context of a resident ENCAPS. -/
def residentBad (s : State) (x : Job) : Option Bad :=
  if streamed x.desc then none
  else match ctxBad s x with
    | some b => some b
    | none => match s.ctx (ctxIndex x.desc) with
      | some c => badWhen (c.kind != 0x0801 || (match c.data with
          | .bytes b => fieldAt 16 b 2 2 != x.desc.paramSet
          | _ => true)) (badField 0x0814)
      | none => none

/-- PK_SOURCE (R243), at check 6 (R70). -/
def pkSourceBad (d : Desc) : Option Bad :=
  badWhen ((streamed d && d.contextId != 0) || d.keyHandle != 0 || d.keyHandle2 != 0) (badField 0x0813)

def mceEncapsRun (s : State) (x : Job) : Ran :=
  let d := x.desc
  let pk := if streamed d then jobAux s x
    else (pkTiles s x).flatMap (fun t => (s.tile (BitVec.ofNat 6 t)).shelfData)
  let (m, s) := codeRandom s x 32
  if streamed d && !mcePadOk d.paramSet.toNat pk then ranBad s { status := stInputRange, detail := 0x0810 }
  else
    let ct := fit (setSize 10 d).out (Config.crypto .kemCipher (mceAlg d) [pk, seedMark d, m])
    let ss := fit 32 (Config.crypto .kemSecret (mceAlg d) [seedMark d, m, ct])
    releaseSecret s x ct ss (fun k => { k with shares3 := bit d.param 0 })

def mceEncapsSpec : OpSpec :=
  { code := 0x0802, modes := true, vault := true,
    place := fun s x => if streamed x.desc then .tile else .on (pkTiles s x),
    uses := fun d => { param := 0xFFFFFFFF00000401, ctx := !streamed d || d.contextId != 0, set := true, key := true, key2 := true,
                       inp := true, out := true, aux := streamed d },
    sets := isSet 10,
    own6 := pkSourceBad,
    fields := fun _ x => firstBad [seedVaultBad x.desc, secretOutBad x 32 true],
    ctx := residentBad,
    lengths := fun _ x => firstBad
      [ testSeedBad x.desc,
        badWhen (streamed x.desc && x.desc.auxLen.toNat != (setSize 10 x.desc).pub) (badLength 0x0203),
        needOut x.desc ((setSize 10 x.desc).out + (if x.desc.toVault then 0 else 32)) ],
    slots := fun _ x => secretSlot x 32,
    masked := fun _ _ => true,
    draws := fun _ x => drawsUnlessSeed x,
    judge := residentBad,
    time := mceEncapsTime,
    run := mceEncapsRun }

def mceDecapsSpec : OpSpec := codeDecapsSpec 0x0803 10 32 mceAlg 0xFFFFFFFF00000300 (fun n => (mceFigures n).decaps)

def mcePubkeyRun (s : State) (x : Job) : Ran :=
  match keyOf s x.desc.keyHandle with
  | none => ranBad s { status := stKeyAbsent, detail := 0x0B03 }
  | some k => ranWith s { outOf stOk 0 with output := mcePublic x.desc k.value }

def mcePubkeySpec : OpSpec :=
  { pubkeySpec 0x0804 10 .tile with
    place := matrixPlace,
    keys := fun s x => keyCheck s x.pitch x.desc.keyHandle
      { typ := fun t => t == 10, set := fun n => n == x.desc.paramSet, usage := none },
    masked := fun _ _ => true,
    judge := matrixJudge,
    time := mcePubkeyTime,
    run := mcePubkeyRun }

def execMceKeygen (j : JobId) (s : State) : Host.Outcome State Fault Refusal := act s (startJob mceKeygenSpec j s)

def execMceEncaps (j : JobId) (s : State) : Host.Outcome State Fault Refusal := act s (startJob mceEncapsSpec j s)

def execMceDecaps (j : JobId) (s : State) : Host.Outcome State Fault Refusal := act s (startJob mceDecapsSpec j s)

def execMcePubkey (j : JobId) (s : State) : Host.Outcome State Fault Refusal := act s (startJob mcePubkeySpec j s)

def execMcePkPin (j : JobId) (s : State) : Host.Outcome State Fault Refusal := act s (startJob mcePkPinSpec j s)

end Sys2Proof.Machine
end

