-- ==== Sys2Proof/Machine/Rsa.lean ====
section
/-! DEFINITION. RSA (R272 to R275): the encodings of PKCS #1 v1.5, PSS and OAEP (RFC 8017), the private operation under its blinding
(R278), and the tests of a prime (FIPS 186-5). -/
namespace Sys2Proof.Machine

/-! ### Encodings (RFC 8017) -/

/-- MGF1 over the hash that PH names. -/
def mgf1 (ph : Nat) (seed : Bytes) (len : Nat) : Bytes :=
  let h := (phHash ph).1
  ((List.range (ceilDiv len (h []).length)).flatMap (fun i => h (seed ++ beBytes 4 i))).take len

/-- Byte strings added by exclusive or. -/
def addBytes (a b : Bytes) : Bytes := (a.zip b).map (fun p => p.1 ^^^ p.2)

/-- The block of PKCS #1 v1.5 for a digest, k bytes long. -/
def pkcs1Block (k ph : Nat) (digest : Bytes) : Bytes :=
  let n := digest.length
  let t : Bytes := [0x30, BitVec.ofNat 8 (17 + n), 0x30, 0x0d] ++ phOid ph ++ [0x05, 0x00, 0x04, BitVec.ofNat 8 n] ++ digest
  [0x00, 0x01] ++ List.replicate (k - t.length - 3) 0xFF ++ [0x00] ++ t

/-- The modulus holds a PSS block of a hash and a salt length. -/
def pssFits (k hash salt : Nat) : Bool := decide (hash + salt + 2 ≤ k)

/-- H of PSS. -/
def pssHash (ph : Nat) (digest salt : Bytes) : Bytes := (phHash ph).1 (zeros 8 ++ digest ++ salt)

/-- The block of PSS for a digest and a salt: the modulus has whole bytes (R258), so its highest bit alone is cleared. -/
def pssBlock (k ph : Nat) (digest salt : Bytes) : Bytes :=
  let h := pssHash ph digest salt
  let n := k - h.length - 1
  let db := zeros (n - salt.length - 1) ++ [0x01] ++ salt
  match addBytes db (mgf1 ph h n) with
  | [] => []
  | a :: t => (a &&& 0x7F) :: t ++ h ++ [0xBC]

/-- A block is a PSS block of a digest with exactly so many bytes of salt. -/
def pssOk (k ph salt : Nat) (digest block : Bytes) : Bool :=
  let len := digest.length
  let n := k - len - 1
  let h := slice block n len
  let db := addBytes (block.take n) (mgf1 ph h n)
  let db : Bytes := match db with
    | [] => []
    | a :: t => (a &&& 0x7F) :: t
  pssFits k len salt && block.length == k && (block.getLast?).getD 0 == 0xBC && decide (((block.head?).getD 0).toNat < 128) &&
  allZero (db.take (n - salt - 1)) && slice db (n - salt - 1) 1 == [1#8] && pssHash ph digest (db.drop (n - salt)) == h

/-- The block of OAEP for a message, a label and a seed. -/
def oaepBlock (k ph : Nat) (label seed m : Bytes) : Bytes :=
  let l := (phHash ph).1 label
  let n := k - l.length - 1
  let db := l ++ zeros (n - l.length - 1 - m.length) ++ [0x01] ++ m
  let masked := addBytes db (mgf1 ph seed n)
  [0x00] ++ addBytes seed (mgf1 ph masked l.length) ++ masked

/-- The message of an OAEP block, every failure combined into one (R274). -/
def oaepMessage (k ph : Nat) (label block : Bytes) : Option Bytes :=
  let l := (phHash ph).1 label
  let h := l.length
  let n := k - h - 1
  let masked := block.drop (1 + h)
  let seed := addBytes (slice block 1 h) (mgf1 ph masked h)
  let db := addBytes masked (mgf1 ph seed n)
  let rest := (db.drop h).dropWhile (· == 0)
  if 2 * h + 2 ≤ k ∧ block.length = k ∧ block.head? = some 0x00#8 ∧ db.take h = l ∧ rest.head? = some 0x01#8 then some (rest.drop 1)
  else none

/-! ### The private operation (R278, R279) -/

/-- The blinding values of a private operation: u of the base, r₁ and r₂ of the exponents, t of the extended moduli. -/
structure RsaBlind where
  u  : Nat
  r1 : Nat
  r2 : Nat
  t  : Nat

/-- A value that has an inverse: itself, or 1 where it has none. -/
def unitOr1 (m u : Nat) : Nat := if invMod m u = 0 then 1 else u % m

/-- c^d mod n by the Chinese remainder, with the base and both exponents blinded; false where a check of INVARIANT fails. -/
def rsaPower (inv : Bool) (v : RsaParts) (b : RsaBlind) (c : Nat) : Nat × Bool :=
  let u := unitOr1 v.n b.u
  let x := c * expMod v.n u v.e % v.n
  let t := extension b.t
  let y1 := checkedPow inv v.p t x (v.dp + b.r1 % 2 ^ 64 * (v.p - 1))
  let y2 := checkedPow inv v.q t x (v.dq + b.r2 % 2 ^ 64 * (v.q - 1))
  let h := subMod v.p y1.1 y2.1 * v.qinv % v.p
  ((y2.1 + v.q * h) * invMod v.n u % v.n, y1.2 && y2.2)

/-! ### New keys (R275) -/

/-- The Miller–Rabin rounds for a prime of a length (table B.1 of FIPS 186-5; log 68). -/
def rsaRounds (bits_ : Nat) : Nat := if bits_ ≤ 1024 then 5 else 4

/-- √2 · 2^(bits − 1), rounded up: the least prime of a length. -/
def leastPrime (bits_ : Nat) : Nat := rootBits 2 (2 ^ (2 * bits_ - 1)) bits_ 0 + 1

/-- A candidate is a suitable prime: long enough, p − 1 prime to e, a probable prime. -/
def rsaPrimeOk (bits_ e p : Nat) : Bool :=
  decide (leastPrime bits_ ≤ p) && Nat.gcd (p - 1) e == 1 && millerRounds (rsaRounds bits_) p

/-- |p − q| > 2^(nlen/2 − 100), and d > 2^(nlen/2). -/
def rsaPairOk (bits_ e p q : Nat) : Bool :=
  let d := invMod (Nat.lcm (p - 1) (q - 1)) e
  decide (2 ^ (bits_ - 100) < (p - q) + (q - p)) && decide (2 ^ bits_ < d)

/-- A key's value in CRT form (R341), of k bytes of modulus. -/
def rsaKeyValue (k e p q : Nat) : Bytes :=
  let h := (k + 1) / 2
  beBytes k (p * q) ++ beBytes 4 e ++ beBytes h p ++ beBytes h q ++ beBytes h (invMod (p - 1) e) ++ beBytes h (invMod (q - 1) e) ++
  beBytes h (invMod p q)

end Sys2Proof.Machine
end

