-- ==== Sys2Proof/Machine/BigNum.lean ====
section
/-! DEFINITION. The big-number engines and classical public key: Weierstrass, Edwards and Montgomery curves, RSA, finite-field
Diffie–Hellman, loaded curves (R253 to R284). -/
namespace Sys2Proof.Machine

/-! ### What the opcodes share -/

/-- BN_SHARES: PARAM[0] where a field table gives it no meaning (R260), at check 6 (R70). -/
def sharesBad (d : Desc) : Option Bad := badWhen (bit d.param 0) (badField 0x0908)

/-- A secret of an engine job released: to the vault, or to host memory (R264). -/
def secretOutLengths (d : Desc) (n : Nat) : Option Bad := if d.toVault then none else needOut d n

/-! ### Curves (R258, R265 to R268) -/

/-- A loaded curve: PARAM_SET 0x00FF. -/
def loaded (d : Desc) : Bool := d.paramSet == 0x00FF

/-- The header of a curve block. -/
structure CurveHead where
  fieldBits : Nat
  orderBits : Nat
  cofactor  : Nat
  deriving DecidableEq, Repr

/-- The header of a block, whatever it holds. -/
def curveHead (b : Bytes) : CurveHead :=
  { fieldBits := (fieldAt 16 b 6 2).toNat, orderBits := (fieldAt 16 b 8 2).toNat, cofactor := (fieldAt 8 b 0x0A 1).toNat }

/-- L and Ln of a block. -/
def CurveHead.l (h : CurveHead) : Nat := ceilDiv h.fieldBits 8
def CurveHead.ln (h : CurveHead) : Nat := ceilDiv h.orderBits 8

/-- One of p, a, b, Gx, Gy of a block. -/
def curveInt (b : Bytes) (i : Nat) : Nat := let l := (curveHead b).l; beNat (slice b (0x10 + i * l) l)

/-- n of a block. -/
def curveN (b : Bytes) : Nat := let h := curveHead b; beNat (slice b (0x10 + 5 * h.l) h.ln)

/-- The curve of a block. -/
def loadedCurve (b : Bytes) : Curve :=
  let h := curveHead b
  { num := 0xFF, len := h.l, prime := curveInt b 0, orderLen := h.ln, order := curveN b, orderBits := h.orderBits,
    cofactor := h.cofactor, a := curveInt b 1, b := curveInt b 2, g := (curveInt b 3, curveInt b 4) }

/-- The 1,024 bytes of a job's CURVE context, if its context is one. -/
def curveCtx (s : State) (x : Job) : Option Bytes :=
  match s.ctx (ctxIndex x.desc) with
  | some c => if c.kind ≠ 0x0901 then none
              else match c.data with
                | .bytes b => some b
                | _ => none
  | none => none

/-- The curve of a job. -/
def curveOf (s : State) (x : Job) : Curve :=
  if loaded x.desc then loadedCurve (((curveCtx s x).getD []).drop 64)
  else (namedCurve x.desc.paramSet.toNat).getD noCurve

/-- CURVE_ID of a job's context: zero on a named curve. -/
def curveIdOf (s : State) (x : Job) : BitVec 64 :=
  if loaded x.desc then fieldAt 64 ((curveCtx s x).getD []) 8 8 else 0

/-- R268: a loaded curve's context. -/
def curveCtxBad (s : State) (x : Job) : Option Bad :=
  if loaded x.desc = false then none
  else firstBad [ctxBad s x, badWhen (curveCtx s x).isNone (badField 0x0930)]

/-- A key is of the job's curve (R268), and its fault policy is kept. -/
def onCurve (s : State) (x : Job) (k : Key) : Option Bad :=
  if loaded x.desc ∧ k.curveId ≠ curveIdOf s x then bad stKeyPolicy 0x0931 else faultWeaker x.desc k

/-- What an EC opcode asks of its private key. -/
def ecNeed (s : State) (x : Job) (usage : Nat) : KeyNeed :=
  { typ := fun t => t == 11, set := fun n => n == x.desc.paramSet, usage := some usage, more := onCurve s x }

/-- The sets of the EC opcodes. -/
def ecSet (n : BitVec 16) : Bool := isSet 11 n || n == 0x00FF

/-- The compressed form of an uncompressed key (SEC 1). -/
def compress (c : Curve) (pk : Bytes) : Bytes :=
  let y := pk.drop (1 + c.len)
  (if ((y.getLast?).getD 0).getLsbD 0 then 0x03#8 else 0x02#8) :: slice pk 1 c.len

/-- COMPRESS of PARAM. -/
def compressed (d : Desc) : Bool := bit d.param 3

/-- A public key in the form that COMPRESS asks for. -/
def pubForm (c : Curve) (d : Desc) (pk : Bytes) : Bytes := if compressed d then compress c pk else pk

def pubFormLen (c : Curve) (d : Desc) : Nat := if compressed d then 1 + c.len else 1 + 2 * c.len

/-- The figures of a job's curve (R281). -/
def ecRow (s : State) (x : Job) : EcFigures :=
  if loaded x.desc then loadedFigures (curveHead (((curveCtx s x).getD []).drop 64)).fieldBits else ecFigures x.desc.paramSet.toNat

/-! ### EC_KEYGEN, EC_PUBKEY -/

/-- The scalar of a seeded KEYGEN (R277). -/
def scalarBad (c : Curve) (d : Bytes) : Option Bad :=
  if allZero d then bad stInputZero 0x0904 else badWhen (decide (c.order ≤ beNat d)) (bad stInputRange 0x0903)

/-- A new EC key. -/
def ecKey (s : State) (x : Job) (c : Curve) (priv pub : Bytes) : Key :=
  let d := x.desc
  let k := newKey s x.pitch 11 d.paramSet 1 (flag 2 (d.inLen != 0)) (priv ++ pub)
  ownPolicy d (withAttrs (attrsOf d) (if bit d.param 4 then useAgree else useSign) { k with curveId := curveIdOf s x })

/-! ### ECDSA's equations (FIPS 186-5) -/

/-- The leftmost bits of a digest, as many as the order has. -/
def digestInt (c : Curve) (m : Bytes) : Nat := leftBits c.orderBits m

/-- r and s of a nonce: k blinded, its inverse by β, d blinded (R278), with INVARIANT's check of the multiplication (R279). -/
def ecdsaPair (c : Curve) (d e k : Nat) (bk bd : Blinding) : Option (Nat × Nat) × Bool :=
  let n := c.order
  match c.weier.secret bk k c.g with
  | (none, ok) => (none, ok)
  | (some q, ok) =>
    let r := q.1 % n
    let b := unitOr1 n bk.beta
    let s := invMod n (blindedScalar n k bk % n * b % n) * b % n * ((e + blindedScalar n d bd % n * r) % n) % n
    (if r = 0 ∨ s = 0 then none else some (r, s), ok)

/-- A signature verifies (R263): r and s in range, no point at infinity, an x-coordinate that matches r. -/
def ecdsaOk (c : Curve) (pk digest sig : Bytes) : Bool :=
  let n := c.order
  let r := beNat (sig.take c.orderLen)
  let s := beNat (sig.drop c.orderLen)
  let w := invMod n s
  let q := c.weier.add (c.weier.mul (digestInt c digest * w % n) (some c.g)) (c.weier.mul (r * w % n) (ecPoint c pk))
  decide (0 < r ∧ r < n ∧ 0 < s ∧ s < n) &&
  (match q with
   | none => false
   | some p => p.1 % n == r)

/-! ### EC_KEYGEN, EC_PUBKEY -/

/-- The pairwise test of a KEYGEN under VERIFY (R279): a signature over 32 zero bytes verified, with a nonce of the mask feeds; of a
key-agreement key, the public key computed again under other blinding. -/
def ecPairwise (s : State) (x : Job) (c : Curve) (priv pub : Bytes) : Bool :=
  if bit x.desc.param 4 then (ecPublic c (blinding s x 1) priv).1 == pub
  else
    let b := blinding s x 1
    match (ecdsaPair c (beNat priv) (digestInt c (zeros 32)) (b.extra % (c.order - 1) + 1) b (blinding s x 2)).1 with
    | none => true
    | some p => ecdsaOk c pub (zeros 32) (beBytes c.orderLen p.1 ++ beBytes c.orderLen p.2)

def ecKeygenRun (s : State) (x : Job) : Ran :=
  let d := x.desc
  let c := curveOf s x
  let (seed, s) := if d.inLen = 0 then draw s x.pitch (c.orderLen + 8) else (jobInput s x, s)
  match (if d.inLen = 0 then none else scalarBad c seed) with
  | some b => ranBad s b
  | none =>
    let priv := if d.inLen = 0 then beBytes c.orderLen (scalarFrom c.order seed) else seed
    let m := keygenMode d
    let pub := ecPublic c (blinding s x 0) priv
    checkedRun s x (!bit m 0 || pub.2) (!bit m 1 || ecPairwise s x c priv pub.1)
      (ranWith s { outOf (outStatus d) 0 (handles s x 0) with output := outBytes d (pubForm c d pub.1) }
        [.keyPut (reservedAt x 0) (ecKey s x c priv pub.1)])

def ecKeygenSpec : OpSpec :=
  { code := 0x0901, modes := true, vault := true, place := fun _ _ => .engine,
    more5 := fun _ x => vaultRequired x.desc,
    uses := fun d => { param := 0xFFFFFFFF0000001F, ctx := loaded d, set := true, inp := true, out := true },
    sets := ecSet,
    own6 := sharesBad,
    fields := fun _ x => keygenAttrsBad x.desc,
    ctx := curveCtxBad,
    keys := fun _ x => keygenFaultBad x.desc,
    lengths := fun s x => firstBad
      [ badWhen (x.desc.inLen != 0 && x.desc.inLen.toNat != (curveOf s x).orderLen) (badLength 0x0202),
        needOutOr0 x.desc (pubFormLen (curveOf s x) x.desc) ],
    slots := fun s x => [slotFor 1 ((curveOf s x).orderLen + 1 + 2 * (curveOf s x).len) (bit (attrsOf x.desc) 16)],
    masked := fun _ _ => true,
    draws := fun _ x => drawsUnlessSeed x,
    judge := curveCtxBad,
    time := fun s x o => validated o (ecRow s x).valid
      (engineKeygen 110 x.desc (ecRow s x).keygen
        (if bit x.desc.param 4 then (ecRow s x).keygen else (ecRow s x).sign + (ecRow s x).verify)),
    run := ecKeygenRun }

/-- The curve of a key, as far as its own sizes tell it. -/
def keyCurve (k : Key) : Curve :=
  (namedCurve k.paramSet.toNat).getD { noCurve with num := 0xFF, len := (keySize k).secret }

def ecPubkeyRun (s : State) (x : Job) : Ran :=
  match keyOf s x.desc.keyHandle with
  | none => ranBad s { status := stKeyAbsent, detail := 0x0B03 }
  | some k => ranWith s { outOf stOk 0 with output := pubForm (keyCurve k) x.desc (publicOf k) }

def ecPubkeySpec : OpSpec :=
  { code := 0x0905, place := fun _ _ => .engine,
    more5 := fun _ x => vaultForbidden x.desc,
    uses := fun _ => { param := 0x9, set := true, key := true, out := true },
    sets := ecSet,
    own6 := sharesBad,
    keys := fun s x => pubkeyKeyBad s x x.desc.keyHandle 11 x.desc.paramSet,
    lengths := fun s x => match keyOf s x.desc.keyHandle with
      | some k => needOut x.desc (pubFormLen (keyCurve k) x.desc)
      | none => none,
    time := pubkeyTime,
    run := ecPubkeyRun }

/-! ### ECDSA (R262, R263) -/

/-- PH and the digest's length. -/
def ecdsaPhBad (d : Desc) : Option Bad :=
  badWhen (if deterministic d then !decide (1 ≤ phOf d ∧ phOf d ≤ 6) else phOf d != 0) (badField 0x0302)

def ecdsaLenBad (d : Desc) : Option Bad :=
  firstBad
    [ badWhen (deterministic d && some d.inLen.toNat != (prehash (phOf d)).map (·.1)) (badLength 0x0303),
      badWhen (decide (d.inLen = 0 ∨ 64 < d.inLen.toNat)) (badLength 0x0909) ]

/-- A nonce of a try (R262), hedged from the pitch's DRBG, or the next of RFC 6979's generator. -/
def nextNonce (c : Curve) (s : State) (x : Job) (g : NonceGen) : Nat × NonceGen × State :=
  if deterministic x.desc then
    let (k, g) := nonceTake (phOf x.desc) c.orderLen c.orderBits c.order 4096 g
    (k, g, s)
  else
    let (rnd, s) := draw s x.pitch (c.orderLen + 8)
    (scalarFrom c.order rnd, g, s)

/-- A signature that a try gave: the number of the try, r, s, and INVARIANT's check of its multiplication. -/
structure Tried where
  number : Nat
  r      : Nat
  s      : Nat
  ok     : Bool
  deriving DecidableEq, Repr

/-- The tries at a nonce (R262): the signature of the first that gives neither r nor s of zero. -/
def nonceTries (c : Curve) (d e : Nat) (x : Job) : Nat → Nat → NonceGen → State → Option Tried × State
  | 0, _, _, s => (none, s)
  | f + 1, n, g, s =>
    let (k, g, s) := nextNonce c s x g
    match ecdsaPair c d e k (blinding s x n) (blinding s x 0) with
    | (some p, ok) => (some { number := n, r := p.1, s := p.2, ok := ok }, s)
    | (none, _) => nonceTries c d e x f (n + 1) g s

def ecdsaSignRun (s : State) (x : Job) : Ran :=
  match keyOf s x.desc.keyHandle with
  | none => ranBad s { status := stKeyAbsent, detail := 0x0B03 }
  | some k =>
    let c := curveOf s x
    let d := beNat (k.value.take c.orderLen)
    let digest := jobInput s x
    match nonceTries c d (digestInt c digest) x 16 1 (nonceSeed (phOf x.desc) c.orderLen c.orderBits c.order d digest) s with
    | (none, s) => ranBad s { status := stAborted, detail := 0x0927 }
    | (some t, s) =>
      let sig := beBytes c.orderLen t.r ++ beBytes c.orderLen t.s
      let m := modeWith s x.desc
      checkedRun s x (!bit m 0 || t.ok) (!bit m 1 || ecdsaOk c (publicOf k) digest sig)
        (ranWith s { outOf stOk 0 (BitVec.ofNat 64 t.number) with output := sig })

def ecdsaSignSpec : OpSpec :=
  { code := 0x0902, modes := true, place := fun _ _ => .engine,
    more5 := fun _ x => vaultForbidden x.desc,
    uses := fun d => { param := 0xFF05, ctx := loaded d, set := true, key := true, inp := true, out := true },
    sets := ecSet,
    own6 := sharesBad,
    fields := fun _ x => ecdsaPhBad x.desc,
    ctx := curveCtxBad,
    keys := fun s x => keyCheck s x.pitch x.desc.keyHandle (ecNeed s x 0),
    lengths := fun s x => firstBad [ecdsaLenBad x.desc, needOut x.desc (2 * (curveOf s x).orderLen)],
    masked := fun _ _ => true,
    draws := fun _ x => if deterministic x.desc then .nothing else .call,
    judge := curveCtxBad,
    time := fun s x o => if o.result = 1 then engineSign (modeWith s x.desc) 110 (ecRow s x).sign (ecRow s x).verify else none,
    run := ecdsaSignRun }

/-- The inline public key of an ECDSA_VERIFY and the signature, or the slot's key and the signature. -/
def ecdsaGiven (s : State) (x : Job) : Bytes × Bytes :=
  let aux := jobAux s x
  let n := aux.length - 2 * (curveOf s x).orderLen
  if x.desc.keyHandle = 0 then (aux.take n, aux.drop n) else (((keyOf s x.desc.keyHandle).map publicOf).getD [], aux)

def ecdsaVerifyRun (s : State) (x : Job) : Ran :=
  let c := curveOf s x
  let (pk, sig) := ecdsaGiven s x
  match (if x.desc.keyHandle = 0 then ecPubBad c pk else none) with
  | some b => ranBad s b
  | none =>
    ranWith s (verdict (ecdsaOk c pk (jobInput s x) sig))

/-- AUX_LEN of an ECDSA_VERIFY (R263): an inline key has one of its forms' lengths. -/
def ecdsaAuxBad (s : State) (x : Job) : Option Bad :=
  let c := curveOf s x
  let n := x.desc.auxLen.toNat
  let sig := 2 * c.orderLen
  badWhen (if x.desc.keyHandle = 0 then !([sig + 1, sig + 1 + c.len, sig + 1 + 2 * c.len].contains n) else n != sig) (badLength 0x0306)

def ecdsaVerifySpec : OpSpec :=
  { code := 0x0903, modes := true, place := fun _ _ => .engine,
    more5 := fun _ x => vaultForbidden x.desc,
    uses := fun d => { param := 0x1, ctx := loaded d, set := true, key := true, inp := true, aux := true },
    sets := ecSet,
    own6 := sharesBad,
    ctx := curveCtxBad,
    keys := fun s x => if x.desc.keyHandle = 0 then none
      else keyCheck s x.pitch x.desc.keyHandle { publicNeed x.desc 11 x.desc.paramSet with more := onCurve s x },
    lengths := fun s x => firstBad
      [badWhen (decide (x.desc.inLen = 0 ∨ 64 < x.desc.inLen.toNat)) (badLength 0x0909), ecdsaAuxBad s x],
    judge := curveCtxBad,
    time := fun s x o => validated o (ecRow s x).valid (some (inInvariant (modeWith s x.desc) 105 (cus (ecRow s x).verify))),
    run := ecdsaVerifyRun }

/-! ### ECDH (R264) -/

def ecdhRun (s : State) (x : Job) : Ran :=
  let c := curveOf s x
  let peer := jobAux s x
  match keyOf s x.desc.keyHandle with
  | none => ranBad s { status := stKeyAbsent, detail := 0x0B03 }
  | some k =>
    match ecPubBad c peer with
    | some b => ranBad s b
    | none =>
      let z (g : Nat) : Option Bytes × Bool := weierAgree c (blinding s x g) (k.value.take c.orderLen) peer
      let m := modeWith s x.desc
      checkedRun s x (!bit m 0 || (z 0).2) (!bit m 1 || (z 0).1 == (z 1).1)
        (match (z 0).1 with
         | none => ranBad s { status := stInputZero, detail := 0x0213 }
         | some ss => releaseSecret s x [] ss)

def ecdhSpec : OpSpec :=
  { code := 0x0904, modes := true, vault := true, place := fun _ _ => .engine,
    uses := fun d => { param := 0xFFFFFFFF00000001, ctx := loaded d, set := true, key := true, out := !d.toVault, aux := true },
    sets := ecSet,
    own6 := sharesBad,
    fields := fun s x => secretOutAttrsBad x.desc (curveOf s x).len x.pitch,
    ctx := curveCtxBad,
    keys := fun s x => keyCheck s x.pitch x.desc.keyHandle (ecNeed s x 2),
    lengths := fun s x => firstBad
      [badWhen (x.desc.auxLen == 0) (badLength 0x0203), secretOutLengths x.desc (curveOf s x).len],
    slots := fun s x => secretSlot x (curveOf s x).len,
    masked := fun _ _ => true,
    judge := curveCtxBad,
    time := fun s x o => validated o (ecRow s x).valid (some (engineExchange (modeWith s x.desc) 110 (ecRow s x).ecdh)),
    run := ecdhRun }

def execEcKeygen (j : JobId) (s : State) : Host.Outcome State Fault Refusal := act s (startJob ecKeygenSpec j s)

def execEcdsaSign (j : JobId) (s : State) : Host.Outcome State Fault Refusal := act s (startJob ecdsaSignSpec j s)

def execEcdsaVerify (j : JobId) (s : State) : Host.Outcome State Fault Refusal := act s (startJob ecdsaVerifySpec j s)

def execEcdh (j : JobId) (s : State) : Host.Outcome State Fault Refusal := act s (startJob ecdhSpec j s)

def execEcPubkey (j : JobId) (s : State) : Host.Outcome State Fault Refusal := act s (startJob ecPubkeySpec j s)

/-! ### CURVE_LOAD (R266, R267) -/

/-- p^j ≡ 1 mod n for some j up to a bound (check 9 of R267). -/
def smallDegree (p n : Nat) : Nat → Nat → Bool
  | 0, _ => false
  | k + 1, a => let b := a * p % n; b == 1 % n || smallDegree p n k b

/-- The checks of a curve block, in order (R267). -/
def curveBlockBad (b : Bytes) : Option Bad :=
  let h := curveHead b
  let p := curveInt b 0
  let a := curveInt b 1
  let c := curveInt b 2
  let gx := curveInt b 3
  let gy := curveInt b 4
  let n := curveN b
  let bits_ (v k : Nat) : Bool := decide (2 ^ (k - 1) ≤ v ∧ v < 2 ^ k)
  let hn : Int := (h.cofactor * n : Nat)
  firstBad
    [ badWhen (b.take 4 != ascii "CQEC" || fieldAt 16 b 4 2 != 1 || !allZero (slice b 0x0B 5) ||
        decide (h.fieldBits < 160 ∨ 576 < h.fieldBits ∨ h.orderBits < 160 ∨ h.fieldBits + 1 < h.orderBits ∨ h.cofactor < 1 ∨
          4 < h.cofactor)) (badField 0x0940),
      badWhen (b.length != 16 + 5 * h.l + h.ln) (badLength 0x0941),
      badWhen (!bits_ p h.fieldBits || !probablePrime p) (bad stBadCurve 0x0942),
      badWhen (decide (p ≤ a ∨ p ≤ c ∨ p ≤ gx ∨ p ≤ gy)) (bad stBadCurve 0x0943),
      badWhen ((4 * a ^ 3 + 27 * c ^ 2) % p == 0) (bad stBadCurve 0x0944),
      badWhen (gy ^ 2 % p != (gx ^ 3 + a * gx + c) % p) (bad stBadCurve 0x0945),
      badWhen (!bits_ n h.orderBits || !probablePrime n ||
        ((loadedCurve b).weier.mul n (some (gx, gy))).isSome) (bad stBadCurve 0x0946),
      badWhen (decide ((4 * p : Nat) < (hn - (p + 1)) ^ 2)) (bad stBadCurve 0x0947),
      badWhen (n == p || smallDegree p n 100 1) (bad stBadCurve 0x0948) ]

/-- CURVE_CTX of a load: a context of another kind, or one in use. -/
def curveTargetBad (s : State) (x : Job) : Option Bad :=
  match ctxBad s x with
  | some b => some b
  | none => match s.ctx (ctxIndex x.desc) with
    | some c => badWhen ((c.kind != 0 && c.kind != 0x0901) || ctxInUse s x (ctxIndex x.desc)) (badField 0x0930)
    | none => none

def curveLoadRun (s : State) (x : Job) : Ran :=
  let b := jobInput s x
  match curveBlockBad b, s.ctx (ctxIndex x.desc) with
  | some e, _ => ranBad s e
  | none, none => ranBad s { status := stBadField, detail := 0x0007 }
  | none, some c =>
    let digest := sha3_256 b
    let data := fit 1024 (wordBytes 2 (0x0901#16) ++ zeros 6 ++ digest ++ zeros 24 ++ b)
    ranWith s (outOf stNoOutput 0 (fieldAt 64 digest 0 8)) [.ctxPut (ctxIndex x.desc) { c with kind := 0x0901, data := .bytes data }]

def curveLoadSpec : OpSpec :=
  { code := 0x0951, place := fun _ _ => .engine,
    more5 := fun _ x => vaultForbidden x.desc,
    uses := fun _ => { param := 0x1, ctx := true, set := true, inp := true },
    own6 := sharesBad,
    ctx := curveTargetBad,
    judge := curveTargetBad,
    run := curveLoadRun }

def execCurveLoad (j : JobId) (s : State) : Host.Outcome State Fault Refusal := act s (startJob curveLoadSpec j s)

/-! ### EdDSA (R269, R270) -/

/-- The pairwise test of a KEYGEN under VERIFY (R279): of an Edwards key, a signature over 32 zero bytes verified; of the others, the
public key computed again under other blinding. -/
def plainPairwise (typ set : Nat) (b1 b2 : Blinding) (priv pub : Bytes) : Bool :=
  if typ = 12 then
    let c := edwardsOf set
    let dom := c.dom false []
    c.verify pub dom (zeros 32) (c.sign b1 b2 priv dom (zeros 32)).1
  else (enginePublic typ set false b1 priv).1 == pub

/-- A KEYGEN of Edwards, Montgomery and finite-field keys, whose value is the private value and the public key: a seed of a
length, or no seed at all. -/
def plainKeygenRun (typ : Nat) (usage : BitVec 16) (s : State) (x : Job) : Ran :=
  let d := x.desc
  let z := setSize typ d
  let n := d.paramSet.toNat
  let (seed, s) := if d.inLen = 0 then draw s x.pitch (privateSeedLen typ z) else (jobInput s x, s)
  let priv := privateFrom typ n z seed
  let m := keygenMode d
  let pub := enginePublic typ n (bit m 0) (blinding s x 0) priv
  let k := { keygenKey s x typ n z usage (d.inLen != 0) seed with shares3 := false, value := priv ++ pub.1 }
  checkedRun s x (!bit m 0 || pub.2) (!bit m 1 || plainPairwise typ n (blinding s x 1) (blinding s x 2) priv pub.1)
    (ranWith s { outOf (outStatus d) 0 (handles s x 0) with output := outBytes d (publicOf k) } [.keyPut (reservedAt x 0) k])

def plainKeygenSpec (code : BitVec 16) (typ : Nat) (usage : BitVec 16) (seedOk : Bool) (fig test : Nat → Nat) : OpSpec :=
  { code := code, modes := true, vault := true, place := fun _ _ => .engine,
    more5 := fun _ x => vaultRequired x.desc,
    uses := fun _ => { param := 0xFFFFFFFF00000007, set := true, inp := true, out := true },
    sets := isSet typ,
    own6 := sharesBad,
    fields := fun _ x => keygenAttrsBad x.desc,
    keys := fun _ x => keygenFaultBad x.desc,
    lengths := fun _ x => firstBad
      [ badWhen (x.desc.inLen != 0 && !(seedOk && x.desc.inLen.toNat == (setSize typ x.desc).priv)) (badLength 0x0202),
        needOutOr0 x.desc (setSize typ x.desc).pub ],
    slots := fun _ x => [slotFor 1 (privateLen typ (setSize typ x.desc)) (bit (attrsOf x.desc) 16)],
    masked := fun _ _ => true,
    draws := fun _ x => drawsUnlessSeed x,
    time := fun _ x _ => engineKeygen (if typ = 15 then 115 else 110) x.desc (fig x.desc.paramSet.toNat) (test x.desc.paramSet.toNat),
    run := plainKeygenRun typ usage }

/-- The PUBKEY of such a family. -/
def plainPubkeySpec (code : BitVec 16) (typ : Nat) : OpSpec :=
  { pubkeySpec code typ .engine with
    uses := fun _ => { param := 0x1, set := true, key := true, out := true },
    own6 := sharesBad,
    time := pubkeyTime }

/-- FORM (R269). -/
def eddsaFormBad (d : Desc) : Option Bad := badWhen (decide (2 ≤ (formOf d).toNat)) (badField 0x0301)

/-- PARAM[2] of R269, at check 6 (R70). -/
def eddsaFixedBad (d : Desc) : Option Bad := badWhen (deterministic d) (badField 0x0307)

/-- IN_LEN by FORM. -/
def eddsaLenBad (d : Desc) : Option Bad :=
  if formOf d = 1 then badWhen (d.inLen != 64) (badLength 0x0303) else badWhen (decide (16777216 < d.inLen.toNat)) (badLength 0x090A)

/-- A descriptor's curve, and the domain prefix of its variant and context (R269). -/
def eddsaCurve (d : Desc) : Edwards := edwardsOf d.paramSet.toNat

def eddsaDom (d : Desc) (ctx : Bytes) : Bytes := (eddsaCurve d).dom (formOf d == 1) ctx

def eddsaSignRun (s : State) (x : Job) : Ran :=
  let d := x.desc
  let c := eddsaCurve d
  match keyOf s d.keyHandle with
  | none => ranBad s { status := stKeyAbsent, detail := 0x0B03 }
  | some k =>
    let dom := eddsaDom d (jobAux s x)
    let msg := jobInput s x
    let sig := c.sign (blinding s x 0) (blinding s x 1) (k.value.take c.len) dom msg
    let m := modeWith s d
    checkedRun s x (!bit m 0 || sig.2) (!bit m 1 || c.verify (publicOf k) dom msg sig.1)
      (ranWith s { outOf stOk 0 with output := sig.1 })

def eddsaSignSpec : OpSpec :=
  { code := 0x0912, modes := true, place := fun _ _ => .engine,
    more5 := fun _ x => vaultForbidden x.desc,
    uses := fun _ => { param := 0x7, set := true, key := true, inp := true, out := true, aux := true },
    sets := isSet 12,
    own6 := eddsaFixedBad,
    fields := fun _ x => eddsaFormBad x.desc,
    keys := fun s x => keyCheck s x.pitch x.desc.keyHandle (privateNeed x.desc 12 x.desc.paramSet (some 0)),
    lengths := fun _ x => firstBad
      [eddsaLenBad x.desc, badWhen (decide (255 < x.desc.auxLen.toNat)) (badLength 0x0304), needOut x.desc (setSize 12 x.desc).out],
    masked := fun _ _ => true,
    time := fun s x _ =>
      let n := x.desc.paramSet.toNat
      let k := edStretches n x.desc.inLen.toNat
      engineSign (modeWith s x.desc) 110 ((edFigures n).2.2.1 + k * (if n = 1 then 15 else 6)) (edFigures n).2.2.2,
    run := eddsaSignRun }

def eddsaVerifyRun (s : State) (x : Job) : Ran :=
  let d := x.desc
  let z := setSize 12 d
  let (pk, rest) := givenPublic s x z.pub
  match (if d.keyHandle = 0 then eddsaPubBad d.paramSet.toNat pk else none) with
  | some b => ranBad s b
  | none =>
    let sig := rest.take z.out
    ranWith s (verdict ((eddsaCurve d).verify pk (eddsaDom d (rest.drop z.out)) (jobInput s x) sig))

/-- AUX of an EDDSA_VERIFY (R177). -/
def eddsaAuxBad (d : Desc) : Option Bad :=
  let n := inlineLen d (setSize 12 d).pub + (setSize 12 d).out
  firstBad [badWhen (decide (d.auxLen.toNat < n)) (badLength 0x0306), badWhen (decide (n + 255 < d.auxLen.toNat)) (badLength 0x0304)]

def eddsaVerifySpec : OpSpec :=
  { code := 0x0913, modes := true, place := fun _ _ => .engine,
    more5 := fun _ x => vaultForbidden x.desc,
    uses := fun _ => { param := 0x7, set := true, key := true, inp := true, aux := true },
    sets := isSet 12,
    own6 := eddsaFixedBad,
    fields := fun _ x => eddsaFormBad x.desc,
    keys := fun s x => slotPublicBad s x 12,
    lengths := fun _ x => firstBad [eddsaLenBad x.desc, eddsaAuxBad x.desc],
    time := fun s x o =>
      let n := x.desc.paramSet.toNat
      let k := edStretches n x.desc.inLen.toNat
      validated o (edFigures n).1
        (some (inInvariant (modeWith s x.desc) 105 (cus ((edFigures n).2.2.2 + k * (if n = 1 then 8 else 3))))),
    run := eddsaVerifyRun }

def eddsaKeygenSpec : OpSpec := plainKeygenSpec 0x0911 12 useSign true (fun n => (edFigures n).2.1)
  (fun n => (edFigures n).2.2.1 + (edFigures n).2.2.2)
def eddsaPubkeySpec : OpSpec := plainPubkeySpec 0x0915 12

def execEddsaKeygen (j : JobId) (s : State) : Host.Outcome State Fault Refusal := act s (startJob eddsaKeygenSpec j s)

def execEddsaSign (j : JobId) (s : State) : Host.Outcome State Fault Refusal := act s (startJob eddsaSignSpec j s)

def execEddsaVerify (j : JobId) (s : State) : Host.Outcome State Fault Refusal := act s (startJob eddsaVerifySpec j s)

def execEddsaPubkey (j : JobId) (s : State) : Host.Outcome State Fault Refusal := act s (startJob eddsaPubkeySpec j s)

/-! ### XDH (R271) and DH (R276) -/

/-- Keygen and exchange of a Montgomery curve (R281). -/
def xdhFigure (n : Nat) : Nat := if n = 1 then 3200 else 9500

/-- The secret of a private value and a peer's public key: of X25519 and X448 (R271), or of a group, the exponent blinded by a multiple of its
order (R278). The second component is INVARIANT's check (R279). -/
def plainAgree (typ set : Nat) (inv : Bool) (b : Blinding) (priv peer : Bytes) : Bytes × Bool :=
  if typ = 13 then (montOf set).agree b priv peer
  else
    let p := groupPrime set
    let z := checkedPow inv p (extension b.beta) (beNat peer) (beNat priv + b.r % 2 ^ 64 * ((p - 1) / 2))
    (beBytes (((dhRow (set % 16)).map (·.1)).getD 0) z.1, z.2)

/-- An exchange with a peer's public key in AUX: what refuses the peer, and whether a secret of zeros is refused. -/
def exchangeRun (typ : Nat) (peerBad : Nat → Bytes → Option Bad) (zeroBad : Bool) (s : State) (x : Job) : Ran :=
  let d := x.desc
  let z := setSize typ d
  let n := d.paramSet.toNat
  let peer := jobAux s x
  match keyOf s d.keyHandle with
  | none => ranBad s { status := stKeyAbsent, detail := 0x0B03 }
  | some k =>
    match peerBad n peer with
    | some b => ranBad s b
    | none =>
      let m := modeWith s d
      let run (g : Nat) : Bytes × Bool := plainAgree typ n (bit m 0) (blinding s x g) (k.value.take z.priv) peer
      let ss := (run 0).1
      checkedRun s x (!bit m 0 || (run 0).2) (!bit m 1 || (run 1).1 == ss)
        (if zeroBad && allZero ss then ranBad s { status := stInputZero, detail := 0x0213 } else releaseSecret s x [] ss)

def exchangeSpec (code : BitVec 16) (typ : Nat) (peerBad : Nat → Bytes → Option Bad) (zeroBad : Bool) (percent : Nat)
    (fig : Nat → Nat) : OpSpec :=
  { code := code, modes := true, vault := true, place := fun _ _ => .engine,
    uses := fun d => { param := 0xFFFFFFFF00000001, set := true, key := true, out := !d.toVault, aux := true },
    sets := isSet typ,
    own6 := sharesBad,
    fields := fun _ x => secretOutAttrsBad x.desc (setSize typ x.desc).secret x.pitch,
    keys := fun s x => keyCheck s x.pitch x.desc.keyHandle (privateNeed x.desc (BitVec.ofNat 16 typ) x.desc.paramSet (some 2)),
    lengths := fun _ x => firstBad
      [ badWhen (x.desc.auxLen.toNat != (setSize typ x.desc).pub) (badLength 0x0203),
        secretOutLengths x.desc (setSize typ x.desc).secret ],
    slots := fun _ x => secretSlot x (setSize typ x.desc).secret,
    masked := fun _ _ => true,
    time := fun s x o =>
      let f := fig x.desc.paramSet.toNat
      validated o (f * 7 / 10) (some (engineExchange (modeWith s x.desc) percent f)),
    run := exchangeRun typ peerBad zeroBad }

def xdhKeygenSpec : OpSpec := plainKeygenSpec 0x0921 13 useAgree true xdhFigure xdhFigure
def xdhSpec : OpSpec := exchangeSpec 0x0922 13 (fun _ _ => none) true 110 xdhFigure
def xdhPubkeySpec : OpSpec := plainPubkeySpec 0x0925 13
def dhKeygenSpec : OpSpec := plainKeygenSpec 0x0941 15 useAgree false (fun n => (dhFigures (n % 16)).1) (fun n => (dhFigures (n % 16)).1)
def dhSpec : OpSpec := exchangeSpec 0x0942 15 dhPubBad false 115 (fun n => (dhFigures (n % 16)).2)
def dhPubkeySpec : OpSpec := plainPubkeySpec 0x0945 15

def execXdhKeygen (j : JobId) (s : State) : Host.Outcome State Fault Refusal := act s (startJob xdhKeygenSpec j s)

def execXdh (j : JobId) (s : State) : Host.Outcome State Fault Refusal := act s (startJob xdhSpec j s)

def execXdhPubkey (j : JobId) (s : State) : Host.Outcome State Fault Refusal := act s (startJob xdhPubkeySpec j s)

def execDhKeygen (j : JobId) (s : State) : Host.Outcome State Fault Refusal := act s (startJob dhKeygenSpec j s)

def execDh (j : JobId) (s : State) : Host.Outcome State Fault Refusal := act s (startJob dhSpec j s)

def execDhPubkey (j : JobId) (s : State) : Host.Outcome State Fault Refusal := act s (startJob dhPubkeySpec j s)

/-! ### RSA (R272 to R275) -/

/-- k of a descriptor. -/
def rsaK (d : Desc) : Nat := d.paramSet.toNat / 8

/-- The sets of RSA_KEYGEN. -/
def rsaKeygenSet (n : BitVec 16) : Bool := decide (2048 ≤ n.toNat ∧ n.toNat ≤ 8192 ∧ n.toNat % 256 = 0)

/-- E of PARAM, with the default. -/
def rsaE (d : Desc) : Nat := let e := (bits d.param 8 24).toNat; if e = 0 then 65537 else e

def rsaEBad (d : Desc) : Option Bad := badWhen (decide (rsaE d % 2 = 0 ∨ rsaE d < 65537)) (badField 0x0921)

/-- A candidate of so many bytes, odd, drawn again while it lies below √2 · 2^(bits − 1), which FIPS 186-5 does not count. -/
def drawCandidate (len : Nat) (x : Job) : Nat → State → Nat × State
  | 0, s => (0, s)
  | f + 1, s =>
    let (c, s) := draw s x.pitch len
    let p := beNat c / 2 * 2 + 1
    if leastPrime (8 * len) ≤ p then (p, s) else drawCandidate len x f s

/-- The tries at a prime (R275): the first suitable candidate and how many were tested. -/
def primeTries (ok : Nat → Bool) (x : Job) : Nat → Nat → State → Option (Nat × Nat) × State
  | 0, _, s => (none, s)
  | k + 1, n, s =>
    let (p, s) := drawCandidate (rsaK x.desc / 2) x 256 s
    if ok p then (some (n, p), s) else primeTries ok x k (n + 1) s

/-- The blinding values of a private operation. -/
def rsaBlind (s : State) (x : Job) : RsaBlind := { u := blindOf s x 0, r1 := blindOf s x 1, r2 := blindOf s x 2, t := blindOf s x 3 }

/-- The pairwise test of RSA_KEYGEN (R279): a signature of 32 zero bytes made, with INVARIANT's check, and checked. -/
def rsaPairwise (inv : Bool) (k : Nat) (b : RsaBlind) (v : RsaParts) : Bool × Bool :=
  let m := beNat (pkcs1Block k 1 (sha256 (zeros 32)))
  let y := rsaPower inv v b m
  (y.2, expMod v.n y.1 v.e == m)

def rsaKeygenRun (s : State) (x : Job) : Ran :=
  let d := x.desc
  let half := d.paramSet.toNat / 2
  let e := rsaE d
  let fuel := 5 * half
  match primeTries (rsaPrimeOk half e) x fuel 1 s with
  | (none, s) => ranBad s { status := stAborted, detail := 0x0927 }
  | (some (n, p), s) => match primeTries (fun q => rsaPrimeOk half e q && rsaPairOk half e p q) x fuel 1 s with
    | (none, s) => ranBad s { status := stAborted, detail := 0x0927 }
    | (some (m, q), s) =>
      let z := setSize 14 d
      let value := rsaKeyValue (rsaK d) e p q
      let k := newKey s x.pitch 14 d.paramSet z.cells 0 value
      let k := { withAttrs (attrsOf d) (if bit d.param 4 then useDecrypt else useSign) k with faultPolicy := bits d.param 1 2 }
      let mode := keygenMode d
      let test := rsaPairwise (bit mode 0) (rsaK d) (rsaBlind s x) (rsaParts (rsaK d) value)
      checkedRun s x (!bit mode 1 || test.1) (!bit mode 1 || test.2)
        (ranWith s { outOf (outStatus d) 0 (handles s x 0 ||| at64 32 (BitVec.ofNat 16 (n + m))) with output := outBytes d (publicOf k) }
          [.keyPut (reservedAt x 0) k])

def rsaKeygenSpec : OpSpec :=
  { code := 0x0931, modes := true, vault := true, place := fun _ _ => .engine,
    more5 := fun _ x => vaultRequired x.desc,
    uses := fun _ => { param := 0xFFFFFFFFFFFFFF17, set := true, inp := true, out := true },
    sets := rsaKeygenSet,
    own6 := sharesBad,
    fields := fun _ x => firstBad [rsaEBad x.desc, keygenAttrsBad x.desc],
    keys := fun _ x => keygenFaultBad x.desc,
    lengths := fun _ x => firstBad [badWhen (x.desc.inLen != 0) (badLength 0x0202), needOutOr0 x.desc (setSize 14 x.desc).pub],
    slots := fun _ x => [slotFor (setSize 14 x.desc).cells (setSize 14 x.desc).priv (bit (attrsOf x.desc) 16)],
    masked := fun _ _ => true,
    draws := fun _ _ => .call,
    mean := fun _ x => some (rsaKeygenMean x.desc.paramSet.toNat),
    run := rsaKeygenRun }

/-- The time of a public operation with a key's exponent (R281). -/
def rsaPublic (d : Desc) (pk : Bytes) : Nat := rsaPublicTime d.paramSet.toNat (beNat (slice pk (rsaK d) 4))

/-- A private operation's time (R279, R281): VERIFY adds the public operation. -/
def rsaPrivateTime (s : State) (x : Job) : Option Nat :=
  let m := modeWith s x.desc
  inAdded m ((namedKey s x.desc).map (fun k => rsaPublic x.desc (publicOf k)))
    (inInvariant m 115 (cus (rsaFigures x.desc.paramSet.toNat).1))

/-- PAD, SALT_LEN and the hash's length. -/
def rsaPad (d : Desc) : BitVec 2 := bits d.param 0 2
def saltLen (d : Desc) : Nat := (bits d.param 16 16).toNat
def hashLen (d : Desc) : Nat := ((prehash (phOf d)).map (·.1)).getD 0

/-- PH names one of the six hashes. -/
def rsaPhBad (d : Desc) : Option Bad := badWhen (!decide (1 ≤ phOf d ∧ phOf d ≤ 6)) (badField 0x0302)

def rsaSignFieldsBad (d : Desc) : Option Bad :=
  firstBad
    [ badWhen (decide (2 ≤ (rsaPad d).toNat)) (badField 0x0925), rsaPhBad d,
      badWhen (rsaPad d == 0 && saltLen d != 0) (badField 0x0924) ]

def rsaSignLenBad (d : Desc) : Option Bad :=
  firstBad
    [ badWhen (d.inLen.toNat != hashLen d) (badLength 0x0303),
      badWhen (decide (hashLen d < saltLen d)) (badLength 0x0924) ]

/-- The block that a signature of a descriptor is made over; none where a PSS block does not fit the modulus. -/
def rsaBlock (d : Desc) (digest salt : Bytes) : Option Bytes :=
  if rsaPad d = 0 then some (pkcs1Block (rsaK d) (phOf d) digest)
  else if pssFits (rsaK d) digest.length salt.length then some (pssBlock (rsaK d) (phOf d) digest salt)
  else none

/-- A private operation released by `f`, with what the fault mode in force checks of it (R279): VERIFY raises the result to e. -/
def rsaPrivate (s : State) (x : Job) (key : Key) (c : Nat) (f : Nat → Ran) : Ran :=
  let m := modeWith s x.desc
  let v := rsaParts (rsaK x.desc) key.value
  let y := rsaPower (bit m 0) v (rsaBlind s x) c
  checkedRun s x y.2 (!bit m 1 || expMod v.n y.1 v.e == c) (f y.1)

/-- A signature whose PSS block does not fit its modulus has no value in the spec: it is free (log 68). -/
def rsaSignRun (s : State) (x : Job) : Ran :=
  let d := x.desc
  match keyOf s d.keyHandle with
  | none => ranBad s { status := stKeyAbsent, detail := 0x0B03 }
  | some k =>
    let (salt, s) := if saltLen d = 0 then ([], s) else draw s x.pitch (saltLen d)
    match rsaBlock d (jobInput s x) salt with
    | none =>
      let (v, s) := drawFree s
      ranWith s { outOf stOk 0 with output := beBytes (rsaK d) (v % 2 ^ (8 * rsaK d)) }
    | some b => rsaPrivate s x k (beNat b) (fun y => ranWith s { outOf stOk 0 with output := beBytes (rsaK d) y })

def rsaSignSpec : OpSpec :=
  { code := 0x0932, modes := true, place := fun _ _ => .engine,
    more5 := fun _ x => vaultForbidden x.desc,
    uses := fun _ => { param := 0xFFFFFF03, set := true, key := true, inp := true, out := true },
    sets := isSet 14,
    fields := fun _ x => rsaSignFieldsBad x.desc,
    keys := fun s x => keyCheck s x.pitch x.desc.keyHandle (privateNeed x.desc 14 x.desc.paramSet (some 0)),
    lengths := fun _ x => firstBad [rsaSignLenBad x.desc, needOut x.desc (rsaK x.desc)],
    masked := fun _ _ => true,
    draws := fun _ x => if saltLen x.desc = 0 then .nothing else .call,
    time := fun s x _ => rsaPrivateTime s x,
    run := rsaSignRun }

/-- A signature verifies: below n, and its power the expected block of PKCS #1 v1.5, or a PSS block of exactly SALT_LEN bytes of salt
(R272, R273). -/
def rsaSigOk (d : Desc) (pk digest sig : Bytes) : Bool :=
  let k := rsaK d
  let n := beNat (pk.take k)
  let m := beBytes k (expMod n (beNat sig) (beNat (slice pk k 4)))
  decide (beNat sig < n) &&
  (if rsaPad d = 0 then m == pkcs1Block k (phOf d) digest else pssOk k (phOf d) (saltLen d) digest m)

def rsaVerifyRun (s : State) (x : Job) : Ran :=
  let d := x.desc
  let (pk, sig) := givenPublic s x (setSize 14 d).pub
  match (if d.keyHandle = 0 then rsaPubBad d.paramSet.toNat pk else none) with
  | some b => ranBad s b
  | none =>
    ranWith s (verdict (rsaSigOk d pk (jobInput s x) sig))

def rsaVerifySpec : OpSpec :=
  { code := 0x0933, modes := true, place := fun _ _ => .engine,
    more5 := fun _ x => vaultForbidden x.desc,
    uses := fun _ => { param := 0xFFFFFF03, set := true, key := true, inp := true, aux := true },
    sets := isSet 14,
    fields := fun _ x => rsaSignFieldsBad x.desc,
    keys := fun s x => slotPublicBad s x 14,
    lengths := fun _ x => firstBad
      [ rsaSignLenBad x.desc,
        badWhen (x.desc.auxLen.toNat != inlineLen x.desc (setSize 14 x.desc).pub + rsaK x.desc) (badLength 0x0306) ],
    time := fun s x o => validated o (rsaValidFigure x.desc.paramSet.toNat)
      (some (inInvariant (modeWith s x.desc) 105 (rsaPublic x.desc (givenPublic s x (setSize 14 x.desc).pub).1))),
    run := rsaVerifyRun }

/-- The longest OAEP message. -/
def oaepMax (d : Desc) : Nat := rsaK d - 2 * hashLen d - 2

def rsaEncryptRun (s : State) (x : Job) : Ran :=
  let d := x.desc
  let (pk, label) := givenPublic s x (setSize 14 d).pub
  let (seed, s) := draw s x.pitch (hashLen d)
  match (if d.keyHandle = 0 then rsaPubBad d.paramSet.toNat pk else none) with
  | some b => ranBad s b
  | none =>
    let m := oaepBlock (rsaK d) (phOf d) label seed (jobInput s x)
    let c := expMod (beNat (pk.take (rsaK d))) (beNat m) (beNat (slice pk (rsaK d) 4))
    ranWith s { outOf stOk 0 with output := beBytes (rsaK d) c }

/-- OAEP's limits; an encoding needs 2hLen + 2 bytes beside the message (R272). -/
def oaepLenBad (d : Desc) : Option Bad :=
  let n := inlineLen d (setSize 14 d).pub
  firstBad
    [ badWhen (decide (d.auxLen.toNat < n)) (badLength 0x0203),
      badWhen (decide (rsaK d < d.inLen.toNat + 2 * hashLen d + 2 ∨ n + 65536 < d.auxLen.toNat)) (badLength 0x0926) ]

def rsaEncryptSpec : OpSpec :=
  { code := 0x0934, modes := true, place := fun _ _ => .engine,
    more5 := fun _ x => vaultForbidden x.desc,
    uses := fun _ => { param := 0xFF01, set := true, key := true, inp := true, out := true, aux := true },
    sets := isSet 14,
    own6 := sharesBad,
    fields := fun _ x => rsaPhBad x.desc,
    keys := fun s x => slotPublicBad s x 14,
    lengths := fun _ x => firstBad [oaepLenBad x.desc, needOut x.desc (rsaK x.desc)],
    draws := fun _ _ => .call,
    time := fun s x o => validated o (rsaValidFigure x.desc.paramSet.toNat)
      (if modeWith s x.desc = 0 then some (rsaPublic x.desc (givenPublic s x (setSize 14 x.desc).pub).1) else none),
    run := rsaEncryptRun }

/-- A decoded message in the vault: a secret key, with its origin imported (R274). -/
def oaepKey (s : State) (x : Job) (m : Bytes) : Ran :=
  if m.length < 16 ∨ 64 < m.length then ranBad s { status := stSigInvalid, detail := 0x0923 }
  else match secretAttrsBad (attrsOf x.desc) m.length x.pitch with
    | some b => ranBad s b
    | none =>
      let k := withOwnAttrs (attrsOf x.desc) (newKey s x.pitch 1 0 1 1 m)
      ranWith s (outOf stOk 0 (handles s x 0)) [.keyPut (reservedAt x 0) k]

def rsaDecryptRun (s : State) (x : Job) : Ran :=
  let d := x.desc
  let c := jobInput s x
  match keyOf s d.keyHandle with
  | none => ranBad s { status := stKeyAbsent, detail := 0x0B03 }
  | some k =>
    if beNat ((publicOf k).take (rsaK d)) ≤ beNat c then ranBad s { status := stInputRange, detail := 0x0922 }
    else
      rsaPrivate s x k (beNat c) (fun y => match oaepMessage (rsaK d) (phOf d) (jobAux s x) (beBytes (rsaK d) y) with
        | none => ranBad s { status := stSigInvalid, detail := 0x0923 }
        | some m => if d.toVault then oaepKey s x m else ranWith s (given m))
where
  /-- An output written, or nothing where it is empty. -/
  given (b : Bytes) : JobOut := { outOf (if b.isEmpty then stNoOutput else stOk) 0 with output := b }

def rsaDecryptSpec : OpSpec :=
  { code := 0x0935, modes := true, vault := true, place := fun _ _ => .engine,
    uses := fun d => { param := 0xFFFFFFFF0000FF01, set := true, key := true, inp := true, out := !d.toVault, aux := true },
    sets := isSet 14,
    own6 := sharesBad,
    fields := fun _ x => firstBad [rsaPhBad x.desc, secretOutAttrsBad x.desc 32 x.pitch],
    keys := fun s x => keyCheck s x.pitch x.desc.keyHandle (privateNeed x.desc 14 x.desc.paramSet (some 3)),
    lengths := fun _ x => firstBad
      [ badWhen (x.desc.inLen.toNat != rsaK x.desc) (badLength 0x0204),
        badWhen (decide (65536 < x.desc.auxLen.toNat)) (badLength 0x0926),
        secretOutLengths x.desc (oaepMax x.desc) ],
    slots := fun _ x => secretSlot x 64,
    masked := fun _ _ => true,
    time := fun s x o => validated o (rsaValidFigure x.desc.paramSet.toNat) (rsaPrivateTime s x),
    run := rsaDecryptRun }

def rsaPubkeySpec : OpSpec := plainPubkeySpec 0x0936 14

def execRsaKeygen (j : JobId) (s : State) : Host.Outcome State Fault Refusal := act s (startJob rsaKeygenSpec j s)

def execRsaSign (j : JobId) (s : State) : Host.Outcome State Fault Refusal := act s (startJob rsaSignSpec j s)

def execRsaVerify (j : JobId) (s : State) : Host.Outcome State Fault Refusal := act s (startJob rsaVerifySpec j s)

def execRsaEncrypt (j : JobId) (s : State) : Host.Outcome State Fault Refusal := act s (startJob rsaEncryptSpec j s)

def execRsaDecrypt (j : JobId) (s : State) : Host.Outcome State Fault Refusal := act s (startJob rsaDecryptSpec j s)

def execRsaPubkey (j : JobId) (s : State) : Host.Outcome State Fault Refusal := act s (startJob rsaPubkeySpec j s)

end Sys2Proof.Machine
end

