-- ==== Sys2Proof/Machine/Digest.lean ====
section
/-! DEFINITION. The digest lane and the block-cipher lane (R214 to R234). -/
namespace Sys2Proof.Machine

/-! ### Functions (R215) -/

/-- A digest function: block size, digest length (none where OUT_LEN gives it), and for a sponge its first padding byte. -/
structure DigestFn where
  block : Nat
  out   : Option Nat
  pad   : Option Byte
  deriving DecidableEq, Repr

/-- R215. -/
def digestFn (n : Nat) : Option DigestFn :=
  match n with
  | 0x01 => some ⟨64, some 28, none⟩
  | 0x02 => some ⟨64, some 32, none⟩
  | 0x03 => some ⟨128, some 48, none⟩
  | 0x04 => some ⟨128, some 64, none⟩
  | 0x05 => some ⟨128, some 28, none⟩
  | 0x06 => some ⟨128, some 32, none⟩
  | 0x11 => some ⟨144, some 28, some 0x06⟩
  | 0x12 => some ⟨136, some 32, some 0x06⟩
  | 0x13 => some ⟨104, some 48, some 0x06⟩
  | 0x14 => some ⟨72, some 64, some 0x06⟩
  | 0x21 => some ⟨168, none, some 0x1F⟩
  | 0x22 => some ⟨136, none, some 0x1F⟩
  | 0x23 => some ⟨168, none, some 0x04⟩
  | 0x24 => some ⟨136, none, some 0x04⟩
  | _ => none

/-- The function of a descriptor. -/
def fnOf (d : Desc) : DigestFn := (digestFn d.paramSet.toNat).getD ⟨64, none, none⟩

/-- The initial value of a SHA-2 set. -/
def shaInit (n : Nat) : Sha2Regs :=
  match n with
  | 1 => sha224Init
  | 2 => sha256Init
  | 3 => sha384Init
  | 4 => sha512Init
  | 5 => sha512tInit "SHA-512/224"
  | _ => sha512tInit "SHA-512/256"

/-- The family of a SHA-2 set. -/
def shaOf (n : Nat) : Sha2 := if n ≤ 2 then shaSmall else shaLarge

/-- The working variables that a chaining value spells. -/
def shaRegsOf (s : Sha2) (b : Bytes) : Sha2Regs := shaRegs (beWords (s.w / 8) 8 b)

/-- The lanes that a Keccak state spells. -/
def lanesOf (b : Bytes) : List Nat := (List.range 25).map (fun i => leNat (slice b (8 * i) 8))

/-- A function's chaining value before any block. -/
def chainInit (n : Nat) : Bytes :=
  match (digestFn n).bind (·.pad) with
  | some _ => zeros 200
  | none => shaOut (shaOf n) (shaInit n)

/-- Whole blocks absorbed into a chaining value. -/
def chainAbsorb (n : Nat) (chain m : Bytes) : Bytes :=
  match digestFn n with
  | none => chain
  | some f => match f.pad with
    | some _ => keccakBytes (keccakAbsorb f.block (m.length / f.block) m (lanesOf chain))
    | none => shaOut (shaOf n) (shaBlocks (shaOf n) (m.length / f.block) m (shaRegsOf (shaOf n) chain))

/-- The padding of a message of `len` bytes (R215). -/
def padOf (n len : Nat) : Bytes :=
  match digestFn n with
  | none => []
  | some f => match f.pad with
    | none => shaPad (shaOf n) len
    | some b =>
      let z := f.block - 1 - len % f.block
      if z = 0 then [b ||| 0x80#8] else b :: (zeros (z - 1) ++ [0x80#8])

/-- The output of a chaining value. -/
def chainOut (n len : Nat) (chain : Bytes) : Bytes :=
  match digestFn n with
  | none => []
  | some f => match f.pad with
    | some _ => (keccakSqueeze f.block (ceilDiv len f.block) (lanesOf chain)).take len
    | none => chain.take len

/-- The digest of a whole message with the function's own length. -/
def digestOf (n : Nat) (m : Bytes) : Bytes :=
  chainOut n (((digestFn n).bind (·.out)).getD 0) (chainAbsorb n (chainInit n) (m ++ padOf n m.length))

/-! ### Digest contexts (R221) -/

/-- What a digest context holds. The chaining value of a keyed context lies in shares; the model holds it whole in the place of
the first (log 26). -/
structure DigestCtx where
  set    : BitVec 16
  keyed  : Bool
  final  : Bool
  three  : Bool
  count  : Nat
  chain  : Bytes
  deriving DecidableEq, Repr

/-- The 1,024 bytes of a digest context (R221). -/
def digestBytes (c : DigestCtx) : Bytes :=
  fit 1024 (wordBytes 2 (0x0101#16) ++ wordBytes 2 c.set ++
    [flag 8 c.keyed ||| (flag 8 c.final <<< 1) ||| (flag 8 c.three <<< 2), 0, 0, 0] ++ leBytes 8 c.count ++ fit 200 c.chain)

/-- The digest context that bytes spell. -/
def digestCtxOf (b : Bytes) : DigestCtx :=
  let fl := fieldAt 8 b 4 1
  { set := fieldAt 16 b 2 2, keyed := bit fl 0, final := bit fl 1, three := bit fl 2, count := leNat (slice b 8 8),
    chain := slice b 16 200 }

/-- A job's digest context, if its context is one. -/
def digestCtx (s : State) (x : Job) : Option DigestCtx :=
  match s.ctx (ctxIndex x.desc) with
  | some c => if c.kind ≠ 0x0101 then none
              else match c.data with
                | .bytes b => some (digestCtxOf b)
                | _ => none
  | none => none

/-- A context written back with a digest. -/
def digestPut (s : State) (x : Job) (c : DigestCtx) : List Commit :=
  match s.ctx (ctxIndex x.desc) with
  | some k => [.ctxPut (ctxIndex x.desc) { k with kind := 0x0101, data := .bytes (digestBytes c) }]
  | none => []

/-- The target of a FIRST segment, or of DIGEST_KEY: no kind, or DIGEST. -/
def targetBad (s : State) (x : Job) : Option Bad :=
  match s.ctx (ctxIndex x.desc) with
  | some c => badWhen (c.kind != 0 && c.kind != 0x0101) (badField 0x0114)
  | none => none

/-! ### DIGEST (R216 to R223) -/

def dgFirst (d : Desc) : Bool := bit d.param 0
def dgLast (d : Desc) : Bool := bit d.param 1
def dgHostPad (d : Desc) : Bool := bit d.param 2
def dgKeep (d : Desc) : Bool := bit d.param 3
def dgTrunc (d : Desc) : Bool := bit d.param 4
def dgNoCtx (d : Desc) : Bool := bit d.param 5
def dgMsgLen (d : Desc) : Nat := (bits d.param 16 48).toNat

/-- The flag combinations of R216. -/
def dgFlagsBad (d : Desc) : Option Bad :=
  badWhen ((dgNoCtx d && !(dgFirst d && dgLast d && !dgKeep d)) || (dgKeep d && (!dgLast d || dgFirst d)) ||
    (dgTrunc d && (fnOf d).out.isNone)) (badField 0x0110)

/-- OUT_TO_VAULT stands on a LAST segment of a context (R226). -/
def dgVaultBad (d : Desc) : Option Bad :=
  badWhen (d.toVault && (!dgLast d || dgFirst d || dgNoCtx d)) (badField 0x0116)

/-- The declared length against a count (R218). -/
def msgLenBad (d : Desc) (count : Nat) : Option Bad :=
  let n := count + d.inLen.toNat
  badWhen ((if dgLast d && !dgHostPad d then dgMsgLen d != n else dgMsgLen d != 0) || decide (2 ^ 48 ≤ n)) (badLength 0x0112)

/-- The output length of a LAST segment (R219, R226). -/
def dgOutBad (d : Desc) : Option Bad :=
  if dgLast d = false then none
  else if d.toVault then
    firstBad
      [ badWhen (decide (d.outLen.toNat < 16 ∨ 64 < d.outLen.toNat) || (match (fnOf d).out with
          | some l => decide (l < d.outLen.toNat)
          | none => false)) (badLength 0x0117),
        badWhen (d.auxLen != 4) (badLength 0x0118) ]
  else match (fnOf d).out with
    | some l => badWhen (d.outLen == 0 || (decide (d.outLen.toNat < l) && !dgTrunc d)) (bad stLengthShort 0)
    | none => none

/-- The lengths that need no context (check 12). -/
def dgLengthsBad (d : Desc) : Option Bad :=
  firstBad
    [ badWhen ((!dgLast d || dgHostPad d) && d.inLen.toNat % (fnOf d).block != 0) (badLength 0x0111),
      (if dgLast d && !dgHostPad d && !dgFirst d then none else msgLenBad d 0),
      badWhen (dgLast d && dgHostPad d && dgFirst d && d.inLen == 0) (badLength 0x0113),
      dgOutBad d ]

/-- What a segment's context is judged on when it may start (R221). -/
def dgJudge (s : State) (x : Job) : Option Bad :=
  let d := x.desc
  if dgNoCtx d then none
  else firstBad
    [ ctxBad s x,
      (if dgFirst d then targetBad s x
       else match digestCtx s x with
         | none => badField 0x0114
         | some c =>
           firstBad
             [ badWhen (c.set != d.paramSet) (badField 0x0114),
               badWhen c.final (badField 0x0115),
               badWhen (d.toVault && !c.keyed) (badField 0x0116),
               (if dgLast d then msgLenBad d c.count
                else badWhen (decide (2 ^ 48 ≤ c.count + d.inLen.toNat)) (badLength 0x0112)) ]) ]

/-- The context that a segment starts from. -/
def dgStart (s : State) (x : Job) : DigestCtx :=
  let d := x.desc
  let new : DigestCtx := { set := d.paramSet, keyed := false, final := false, three := false, count := 0,
                           chain := chainInit d.paramSet.toNat }
  if dgFirst d then new else (digestCtx s x).getD new

/-- ATTRS of the AUX bytes. -/
def auxAttrs (s : State) (x : Job) : BitVec 32 := fieldAt 32 (jobAux s x) 0 4

/-- A digest released into the vault as a secret key (R226). -/
def dgKey (s : State) (x : Job) (v : Bytes) : Key := withOwnAttrs (auxAttrs s x) (newKey s x.pitch 1 0 1 2 v)

def digestRun (s : State) (x : Job) : Ran :=
  let d := x.desc
  let n := d.paramSet.toNat
  let c := dgStart s x
  let m := jobInput s x
  let count := c.count + m.length
  let m := if dgLast d && !dgHostPad d then m ++ padOf n count else m
  let chain := chainAbsorb n c.chain m
  let back := if dgNoCtx d || dgKeep d then [] else digestPut s x { c with count := count, chain := chain, final := dgLast d }
  let result := BitVec.ofNat 64 (if dgLast d && !dgHostPad d then dgMsgLen d else count)
  if dgLast d = false then ranWith s (outOf (if d.inLen = 0 then stNoOutput else stOk) 0 result) (if !dgFirst d && d.inLen == 0 then [] else back)
  else if d.toVault then
    let k := dgKey s x (chainOut n d.outLen.toNat chain)
    ranWith s (outOf stOk 0 (handles s x 0)) (back ++ [.keyPut (reservedAt x 0) k])
  else
    let o := match (fnOf d).out with
      | some l => chainOut n (min l d.outLen.toNat) chain
      | none => chainOut n d.outLen.toNat chain
    let short := match (fnOf d).out with
      | some l => decide (d.outLen.toNat < l)
      | none => false
    ranWith s { outOf (if d.outLen = 0 then stNoOutput else if short then stTruncated else stOk) 0 result with output := o } back

/-- ATTRS of a derivation into the vault (R343). -/
def dgAttrsBad (s : State) (x : Job) : Option Bad :=
  if x.desc.toVault then secretAttrsBad (auxAttrs s x) x.desc.outLen.toNat x.pitch else none

/-- The context is keyed, and so its compressions are masked (R225). -/
def dgMasked (s : State) (x : Job) : Bool := !dgFirst x.desc && ((digestCtx s x).map (·.keyed)).getD false

/-- The blocks that a segment absorbs, its padding among them. -/
def dgBlocks (s : State) (x : Job) : Nat :=
  let d := x.desc
  let n := d.inLen.toNat
  let pad := if dgLast d && !dgHostPad d then (padOf d.paramSet.toNat ((dgStart s x).count + n)).length else 0
  (n + pad) / (fnOf d).block

def digestSpec : OpSpec :=
  { code := 0x0101, modes := true, vault := true, place := fun _ _ => .tile,
    uses := fun d => { param := 0xFFFFFFFFFFFF003F, ctx := !dgNoCtx d, set := true, inp := true, out := dgLast d && !d.toVault,
                       outLenOnly := dgLast d && d.toVault, aux := d.toVault },
    sets := fun n => (digestFn n.toNat).isSome,
    fields := fun _ x => firstBad [dgFlagsBad x.desc, dgVaultBad x.desc],
    ctx := fun s x => if dgNoCtx x.desc then none else ctxBad s x,
    lengths := fun _ x => dgLengthsBad x.desc,
    late := dgAttrsBad,
    slots := fun s x => if x.desc.toVault then [slotFor 1 x.desc.outLen.toNat (bit (auxAttrs s x) 16)] else [],
    masked := dgMasked,
    judge := dgJudge,
    time := fun s x _ => some (digestTime x.desc.paramSet.toNat (dgMasked s x) (dgStart s x).three (dgBlocks s x)),
    run := digestRun }

/-! ### DIGEST_KEY (R224, R225) -/

/-- CONSTRUCT of PARAM. -/
def construct (d : Desc) : BitVec 2 := bits d.param 0 2

/-- The set is cSHAKE. -/
def cshakeSet (d : Desc) : Bool := d.paramSet == 0x23 || d.paramSet == 0x24

def constructBad (d : Desc) : Option Bad :=
  badWhen (construct d == 0 || (construct d == 3 && !cshakeSet d) || (construct d != 3 && (fnOf d).out.isNone)) (badField 0x0119)

/-- A secret key of some lengths with a usage, refused with a DETAIL of the chapter's own (R224, R227). -/
def secretNeed (d : Desc) (lens : Nat → Bool) (detail : BitVec 16) (usage : Nat) : KeyNeed :=
  { typ := fun _ => true, set := fun _ => true, usage := none,
    more := fun k =>
      if k.typ ≠ 1 ∨ lens k.value.length = false then bad stKeyPolicy detail
      else if bit k.usage usage = false then bad stKeyPolicy 0x0B10
      else faultWeaker d k }

/-- The key blocks of R225. -/
def keyBlocks (d : Desc) (key custom : Bytes) : Bytes :=
  let b := (fnOf d).block
  let k := fit b (if b < key.length then digestOf d.paramSet.toNat key else key)
  if construct d = 1 then xorAll 0x36 k
  else if construct d = 2 then xorAll 0x5C k
  else bytepad (encodeString (ascii "KMAC") ++ encodeString custom) b ++ bytepad (encodeString key) b

def digestKeyRun (s : State) (x : Job) : Ran :=
  let d := x.desc
  match keyOf s d.keyHandle with
  | none => ranBad s { status := stKeyAbsent, detail := 0x0B03 }
  | some k =>
    let m := keyBlocks d k.value (jobInput s x)
    let c : DigestCtx := { set := d.paramSet, keyed := true, final := false, three := k.shares3, count := m.length,
                           chain := chainAbsorb d.paramSet.toNat (chainInit d.paramSet.toNat) m }
    ranWith s (outOf stNoOutput 0 (BitVec.ofNat 64 m.length)) (digestPut s x c)

/-- The blocks of a DIGEST_KEY (R225): those of the key, and of the pre-hash of a key longer than one. -/
def dkBlocks (s : State) (x : Job) : Nat :=
  let d := x.desc
  let b := (fnOf d).block
  let len := ((namedKey s d).map (·.value.length)).getD 0
  if construct d = 3 then 2 else 1 + (if b < len then (len + (padOf d.paramSet.toNat len).length) / b else 0)

def digestKeySpec : OpSpec :=
  { code := 0x0102, modes := true, vault := true, place := fun _ _ => .tile,
    uses := fun _ => { param := 0x3, ctx := true, set := true, key := true, inp := true },
    sets := fun n => (digestFn n.toNat).isSome,
    fields := fun _ x => firstBad [constructBad x.desc, badWhen x.desc.toVault (badField 0x0116)],
    ctx := ctxBad,
    keys := fun s x => keyCheck s x.pitch x.desc.keyHandle (secretNeed x.desc (fun n => decide (1 ≤ n ∧ n ≤ 128)) 0x011B 6),
    lengths := fun _ x => badWhen (if construct x.desc = 3 then decide (120 < x.desc.inLen.toNat) else x.desc.inLen != 0) (badLength 0x011A),
    masked := fun _ _ => true,
    judge := fun s x => firstBad [ctxBad s x, targetBad s x],
    time := fun s x _ => some (digestTime x.desc.paramSet.toNat true (keyThree s x.desc) (dkBlocks s x)),
    run := digestKeyRun }

def execDigest (j : JobId) (s : State) : Host.Outcome State Fault Refusal := act s (startJob digestSpec j s)

def execDigestKey (j : JobId) (s : State) : Host.Outcome State Fault Refusal := act s (startJob digestKeySpec j s)

/-! ### AES (R227 to R229) -/

/-- The modes, by PARAM_SET. -/
def aesSet (n : BitVec 16) : Bool := [1, 2, 3, 4, 0x11, 0x12].contains n.toNat

def tagLen (d : Desc) : Nat := (bits d.param 0 8).toNat

def ivGen (d : Desc) : Bool := bit d.param 8

/-- PARAM[63:9] is zero: the chapter's own DETAIL at check 6 of R71 (R70, R227). -/
def aesParamBad (d : Desc) : Option Bad := badWhen (bits d.param 9 55 != 0) (badField 0x0123)

/-- AES_TAG_LEN and AES_PARAM. -/
def aesFieldsBad (enc : Bool) (d : Desc) : Option Bad :=
  let gcm := d.paramSet == 4
  firstBad
    [ badWhen (gcm && !([4, 8, 12, 13, 14, 15, 16].contains (tagLen d))) (badField 0x0122),
      badWhen ((!gcm && tagLen d != 0) || (ivGen d && !(gcm && enc))) (badField 0x0123) ]

/-- The column of IN_LEN. -/
def aesInOk (enc : Bool) (d : Desc) : Bool :=
  let n := d.inLen.toNat
  match d.paramSet.toNat with
  | 1 => n % 16 == 0
  | 2 => n % 16 == 0
  | 3 => true
  | 4 => enc || decide (tagLen d ≤ n ∧ n ≤ tagLen d + 262144)
  | 0x11 => n % 8 == 0 && (if enc then decide (16 ≤ n ∧ n ≤ 65536) else decide (24 ≤ n ∧ n ≤ 65544))
  | _ => if enc then decide (1 ≤ n ∧ n ≤ 65536) else n % 8 == 0 && decide (16 ≤ n ∧ n ≤ 65544)

/-- The column of AUX. -/
def aesAuxOk (d : Desc) : Bool :=
  let n := d.auxLen.toNat
  match d.paramSet.toNat with
  | 2 => n == 16
  | 3 => n == 16
  | 4 => ivGen d || decide (12 ≤ n)
  | _ => n == 0

/-- The output length that the lengths tell; of KWP decryption none before its ICV. -/
def aesOutLen (enc : Bool) (d : Desc) : Nat :=
  let n := d.inLen.toNat
  match d.paramSet.toNat with
  | 1 => n
  | 2 => n
  | 3 => n
  | 4 => if enc then (if ivGen d then 12 else 0) + n + tagLen d else n - tagLen d
  | 0x11 => if enc then n + 8 else n - 8
  | _ => if enc then 8 + 8 * ceilDiv n 8 else 0

def aesLengthsBad (enc : Bool) (d : Desc) : Option Bad :=
  firstBad
    [ badWhen (!aesInOk enc d) (badLength 0x0120),
      badWhen (!aesAuxOk d) (badLength 0x0121),
      needOut d (aesOutLen enc d) ]

/-- An output written, or nothing where it is empty. -/
def given (b : Bytes) : JobOut := { outOf (if b.isEmpty then stNoOutput else stOk) 0 with output := b }

/-- GCM's additional data. -/
def gcmAad (d : Desc) (aux : Bytes) : Bytes := if ivGen d then aux else aux.drop 12

def aesEncryptRun (s : State) (x : Job) : Ran :=
  let d := x.desc
  match keyOf s d.keyHandle with
  | none => ranBad s { status := stKeyAbsent, detail := 0x0B03 }
  | some k =>
    let key := k.value
    let m := jobInput s x
    let aux := jobAux s x
    let (iv, s) := if ivGen d then draw s x.pitch 12 else (aux.take 12, s)
    let c := gcmCrypt key iv m
    let o := match d.paramSet.toNat with
      | 1 => ecbEncrypt key m
      | 2 => cbcEncrypt key aux m
      | 3 => ctrCrypt 16 key aux m
      | 4 => (if ivGen d then iv else []) ++ c ++ (gcmTag key iv (gcmAad d aux) c).take (tagLen d)
      | 0x11 => kwWrap key m
      | _ => kwpWrap key m
    ranWith s (given o)

/-- GCM decryption: nothing before its tag passes (R228). -/
def gcmOpen (d : Desc) (key aux inp : Bytes) : JobOut :=
  let c := inp.take (inp.length - tagLen d)
  let iv := aux.take 12
  if (gcmTag key iv (aux.drop 12) c).take (tagLen d) = inp.drop (inp.length - tagLen d) then given (gcmCrypt key iv c)
  else outOf stSigInvalid 0x0125

/-- KW and KWP unwrapping: nothing before the integrity value passes (R228). -/
def unwrapOut (d : Desc) (m : Option Bytes) : JobOut :=
  match m with
  | none => outOf stSigInvalid 0x0126
  | some b => if d.outLen.toNat < b.length then outOf stLengthShort 0 else given b

def aesDecryptRun (s : State) (x : Job) : Ran :=
  let d := x.desc
  match keyOf s d.keyHandle with
  | none => ranBad s { status := stKeyAbsent, detail := 0x0B03 }
  | some k =>
    let key := k.value
    let m := jobInput s x
    let aux := jobAux s x
    ranWith s (match d.paramSet.toNat with
      | 1 => given (ecbDecrypt key m)
      | 2 => given (cbcDecrypt key aux m)
      | 3 => given (ctrCrypt 16 key aux m)
      | 4 => gcmOpen d key aux m
      | 0x11 => unwrapOut d (kwUnwrap key m)
      | _ => unwrapOut d (kwpUnwrap key m))

/-- The usage of a mode: encryption, or key wrap. -/
def aesUsage (d : Desc) : Nat := if d.paramSet = 0x11 ∨ d.paramSet = 0x12 then 5 else 4

/-- The blocks of an AES job that take its round units' time (R230). -/
def aesBlocks (enc : Bool) (d : Desc) : Nat :=
  let n := d.inLen.toNat
  if d.paramSet = 0x11 ∨ d.paramSet = 0x12 then 6 * (if enc then ceilDiv n 8 else n / 8 - 1)
  else ceilDiv (if d.paramSet = 4 ∧ enc = false then n - tagLen d else n) 16

/-- The modes whose blocks run on two units at once (R230). -/
def aesParallel (enc : Bool) (d : Desc) : Bool :=
  d.paramSet == 1 || d.paramSet == 3 || d.paramSet == 4 || (d.paramSet == 2 && !enc)

/-- An AES job (R230): three shares have no stated cost, which follows from PARAM_SET, the lengths, the flags and the masking order alone. -/
def aesTime (enc : Bool) (s : State) (x : Job) (_ : JobOut) : Option Nat :=
  let d := x.desc
  let len := ((namedKey s d).map (·.value.length)).getD 0
  if keyThree s d then
    some (1800 * Config.beats d.opcode.toNat d.paramSet.toNat [d.inLen.toNat, d.outLen.toNat, d.auxLen.toNat, d.param.toNat, d.flags.toNat, len])
  else some (aesJobTime (modeWith s d) (aesParallel enc d) len (aesBlocks enc d))

def aesSpec (enc : Bool) : OpSpec :=
  { code := if enc then 0x0111 else 0x0112, modes := true, place := fun _ _ => .tile,
    uses := fun _ => { param := 0xFFFFFFFFFFFFFFFF, set := true, key := true, inp := true, out := true, aux := true },
    own6 := aesParamBad,
    sets := aesSet,
    fields := fun _ x => aesFieldsBad enc x.desc,
    keys := fun s x => keyCheck s x.pitch x.desc.keyHandle
      (secretNeed x.desc (fun n => n == 16 || n == 24 || n == 32) 0x0124 (aesUsage x.desc)),
    lengths := fun _ x => aesLengthsBad enc x.desc,
    masked := fun _ _ => true,
    draws := fun _ x => if enc && ivGen x.desc then .call else .nothing,
    time := aesTime enc,
    run := if enc then aesEncryptRun else aesDecryptRun }

def execAesEncrypt (j : JobId) (s : State) : Host.Outcome State Fault Refusal := act s (startJob (aesSpec true) j s)

def execAesDecrypt (j : JobId) (s : State) : Host.Outcome State Fault Refusal := act s (startJob (aesSpec false) j s)

end Sys2Proof.Machine
end

