-- ==== Sys2Proof/Machine/DqOps.lean ====
section
/-! DEFINITION. Delivery queues: where records go, and what becomes of one that cannot be written (R307 to R309). -/
namespace Sys2Proof.Machine

/-- The reset values of a delivery queue's set (DQ registers). -/
def dqCfgInit : DqCfg :=
  { base := 0, ciAddr := 0, log2Slots := 4, slot := 0, pitch := 0, vector := 0, coalCount := 0, coalTime := 0 }

/-- A delivery queue at reset. -/
def dqInit : Dq :=
  { shadow := dqCfgInit, cfg := dqCfgInit, enabled := false, commitRefused := false, cmdRefused := false, ciFault := false,
    refuseDetail := 0, pi := 0, ci := 0, drops := 0, since := 0, accumulated := 0, waiting := [] }

def State.dq (s : State) (d : BitVec 8) : Dq := Tab.get dqInit d.toNat s.stream.dqs

def State.setDq (s : State) (d : BitVec 8) (q : Dq) : State :=
  { s with stream := { s.stream with dqs := Tab.set dqInit d.toNat q s.stream.dqs } }

/-- Slots of a ring. -/
def Dq.ring (q : Dq) : Nat := 2 ^ q.cfg.log2Slots.toNat

/-- Bytes of a slot. -/
def dqSlotSize (slot : BitVec 2) : Nat := 256 * 2 ^ slot.toNat

/-- The flow of a waiting record, none for a record of no flow (R308). -/
def recordFlow (r : Bytes) : Option (BitVec 14) :=
  let w : BitVec 32 := fieldAt 32 r 0 4
  if bits w 16 3 = 6#3 then none else some (bits w 0 14)

/-- A record is dropped: counted for its queue and its flow (R299, R309). -/
def dropRecord (d : BitVec 8) (s : State) (r : Bytes) : State :=
  let q := s.dq d
  let s := s.setDq d { q with drops := satAdd q.drops 1, since := satAdd q.since 1 }
  match recordFlow r with
  | none => s
  | some i => s.setCtx i (mapFlow (fun f => { f with dropped := satAdd f.dropped 1 }) (s.ctx i))

/-- Every record that waits for the consumer's count is dropped. -/
def dropWaiting (d : BitVec 8) (s : State) : State :=
  (s.dq d).waiting.foldl (dropRecord d) (s.setDq d { s.dq d with waiting := [] })

/-- A record signals as R75 gives, every one of them signalling (R309). -/
def signalDq (d : BitVec 8) (s : State) : State :=
  let q := s.dq d
  if q.cfg.vector = 0 then s
  else if q.cfg.coalCount = 0 ∧ q.cfg.coalTime = 0 then msixSend q.cfg.vector s
  else if q.cfg.coalCount ≠ 0 ∧ q.accumulated + 1 ≥ q.cfg.coalCount.toNat then
    msixSend q.cfg.vector (s.setDq d { q with accumulated := 0 })
  else s.setDq d { q with accumulated := q.accumulated + 1 }

/-- A queue's ring has room by the cached consumer count (R309). -/
def Dq.room (q : Dq) : Bool := decide ((q.pi - q.ci).toNat < q.ring)

/-- A record and its frame bytes written to the ring, the word at 0x00 with its PHASE, the record's DROPS (R308). -/
def writeRecordDq (d : BitVec 8) (s : State) (r : Bytes) : State :=
  let q := s.dq d
  let n := q.pi.toNat
  let a := (q.cfg.base.toNat + dqSlotSize q.cfg.slot * (n % q.ring)) % 2 ^ 64
  let phase : BitVec 32 := if (n / q.ring) % 2 = 0 then 0x80000000 else 0
  let word : BitVec 32 := fieldAt 32 r 0 4 ||| phase
  let bytes := wordBytes 4 word ++ slice r 4 28 ++ wordBytes 4 q.since ++ r.drop 36
  let s := writeHost s q.cfg.pitch a bytes
  signalDq d (s.setDq d { s.dq d with pi := q.pi + 1, since := 0 })

/-- The queue can take records at all: it is ENABLED, and its pitch has a PASID (R309). -/
def dqOpen (s : State) (d : BitVec 8) : Bool := (s.dq d).enabled && (s.pitch (s.dq d).cfg.pitch).cfg.bound

/-- A record goes to a queue: written where the ring has room by the cached count; while it has none, it waits for the next read
of that count (R309). -/
def deliver (d : BitVec 8) (s : State) (r : Bytes) : State :=
  let q := s.dq d
  if dqOpen s d = false then dropRecord d s r
  else if q.waiting.isEmpty && q.room then writeRecordDq d s r
  else s.setDq d { q with waiting := q.waiting ++ [r] }

/-- The records that wait, after a read of the consumer's count: each that finds room is written, the others are dropped. -/
def flushDq (d : BitVec 8) (s : State) : State :=
  let ws := (s.dq d).waiting
  ws.foldl (fun s r => if dqOpen s d && (s.dq d).room then writeRecordDq d s r else dropRecord d s r)
    (s.setDq d { s.dq d with waiting := [] })

/-- The part re-reads a queue's consumer count (R309). -/
def dqCiRead (d : BitVec 8) (a : Access) (s : State) : State :=
  let q := s.dq d
  if q.waiting.isEmpty then s
  else if a = .ok then
    flushDq d (s.setDq d { q with ci := BitVec.ofNat 32 (leNat (readHost s q.cfg.pitch q.cfg.ciAddr.toNat 4)) })
  else dropWaiting d (s.setDq d { q with ciFault := true })

def execDqCiRead (d : BitVec 8) (a : Access) (s : State) : Host.Outcome State Fault Refusal := act s (dqCiRead d a s)

end Sys2Proof.Machine
end

