-- ==== Sys2Proof/Machine/Frames.lean ====
section
/-! DEFINITION. Frames of the process bus: the redundancy trailer, stream frames and their security extension, the frame check
sequence (R285, R289 to R294, R483). Fields inside frames are in network byte order. -/
namespace Sys2Proof.Machine

/-- A big-endian field of a frame; bytes past its end read as zero. -/
def beAt (f : Bytes) (off n : Nat) : Nat := beNat (fit n (slice f off n))

/-! ### The frame check sequence -/

/-- One bit of the CRC-32 of IEEE 802.3. -/
def fcsBit (c : BitVec 32) : BitVec 32 := if c.getLsbD 0 then (c >>> 1) ^^^ 0xEDB88320 else c >>> 1

def fcsByte (c : BitVec 32) (b : Byte) : BitVec 32 :=
  fcsBit (fcsBit (fcsBit (fcsBit (fcsBit (fcsBit (fcsBit (fcsBit (c ^^^ b.setWidth 32))))))))

/-- The four bytes of a frame's FCS. -/
def fcs (f : Bytes) : Bytes := wordBytes 4 (~~~(f.foldl fcsByte 0xFFFFFFFF))

/-- The FCS of a received frame agrees. -/
def fcsOk (f : Bytes) : Bool := f.drop (f.length - 4) == fcs (f.take (f.length - 4))

/-! ### Layout (R289, R291, R294, R296) -/

/-- Where the EtherType after any IEEE 802.1Q tag lies. -/
def etherAt (f : Bytes) : Nat := if beAt f 12 2 = 0x8100 then 16 else 12

/-- A redundancy control trailer: its sequence number and LAN identifier (R289). -/
def trailerOf (f : Bytes) : Option (BitVec 16 × Nat) :=
  let n := f.length
  let w := beAt f (n - 4) 2
  if etherAt f + 8 ≤ n ∧ beAt f (n - 2) 2 = 0x88FB ∧ w % 4096 = n - etherAt f then
    some (BitVec.ofNat 16 (beAt f (n - 6) 2), w / 4096)
  else none

/-- The trailer of a sent frame (R290): `lan` is 10 for LAN A and 11 for LAN B. -/
def trailerFor (f : Bytes) (seq : BitVec 16) (lan : Nat) : Bytes :=
  beBytes 2 seq.toNat ++ beBytes 2 (lan * 4096 + (f.length + 6 - etherAt f) % 4096) ++ [0x88#8, 0xFB#8]

/-- The kinds of stream frames, and what is none of them. -/
inductive FrameSort where
  | layer2
  | routed
  | other
  deriving DecidableEq, Repr

/-- A frame's head: what classifies it (R291, R294 to R296). `body` is where the 8-byte header of a layer-2 stream frame begins,
or the UDP header of an IP packet. -/
structure Head where
  sort   : FrameSort
  kind   : Nat
  ether  : Nat
  vid    : Nat
  appid  : Nat
  dstMac : Bytes
  srcMac : Bytes
  ipVer  : Nat
  srcIp  : Bytes
  dstIp  : Bytes
  udpDst : Nat
  body   : Nat
  deriving DecidableEq, Repr

/-- The UDP header of an unfragmented IPv4 packet, or of an IPv6 packet without extension headers, at an offset: the version, the
offset, the addresses (R294). -/
def udpAt (f : Bytes) (p ether : Nat) : Option (Nat × Nat × Bytes × Bytes) :=
  if ether = 0x0800 ∧ beAt f p 1 / 16 = 4 ∧ beAt f (p + 9) 1 = 17 ∧ beAt f (p + 6) 2 % 0x4000 = 0 ∧ 5 ≤ beAt f p 1 % 16 ∧
      p + 4 * (beAt f p 1 % 16) + 8 ≤ f.length then
    some (4, p + 4 * (beAt f p 1 % 16), fit 16 (slice f (p + 12) 4), fit 16 (slice f (p + 16) 4))
  else if ether = 0x86DD ∧ beAt f p 1 / 16 = 6 ∧ beAt f (p + 6) 1 = 17 ∧ p + 48 ≤ f.length then
    some (6, p + 40, slice f (p + 8) 16, slice f (p + 24) 16)
  else none

/-- The kind of a routed frame by its SI (R294). -/
def siKind (si : Nat) : Nat := if si = 0xA1 then 3 else if si = 0xA2 then 4 else 0

/-- The head of a frame from its destination address to the last byte before the trailer or the FCS. -/
def headOf (f : Bytes) : Head :=
  let e := etherAt f
  let et := beAt f e 2
  let p := e + 2
  let h : Head :=
    { sort := .other, kind := 0, ether := et, vid := if e = 16 then beAt f 14 2 % 4096 else 0, appid := 0, dstMac := slice f 0 6,
      srcMac := slice f 6 6, ipVer := 0, srcIp := zeros 16, dstIp := zeros 16, udpDst := 0, body := p }
  if et = 0x88B8 then { h with sort := .layer2, kind := 1, appid := beAt f p 2 }
  else if et = 0x88BA then { h with sort := .layer2, kind := 2, appid := beAt f p 2 }
  else match udpAt f p et with
    | none => h
    | some (v, u, src, dst) =>
      let port := beAt f (u + 2) 2
      { h with sort := if port = 102 then .routed else .other, kind := if port = 102 then siKind (beAt f (u + 8) 1) else 0,
               ipVer := v, srcIp := src, dstIp := dst, udpDst := port, body := u }

/-- A pause frame (R285). -/
def isPause (f : Bytes) : Bool := beAt f 12 2 == 0x8808 && beAt f 14 2 == 1

/-- A PRP supervision frame. -/
def isSupervision (h : Head) : Bool := h.ether == 0x88FB

/-- PTP (R296). -/
def isPtp (h : Head) : Bool := h.ether == 0x88F7 || h.udpDst == 319 || h.udpDst == 320

/-! ### MAC algorithms (R293) -/

/-- MAC bytes of an algorithm code; none for a code not in the table. -/
def macLen (alg : Nat) : Option Nat :=
  match alg with
  | 1 => some 10
  | 2 => some 16
  | 3 => some 32
  | 4 => some 8
  | 5 => some 16
  | _ => none

/-- A code of AES-GMAC. -/
def isGmac (alg : Nat) : Bool := alg == 4 || alg == 5

/-- The MAC of an input under a key (R293). -/
def frameMac (alg : Nat) (key iv m : Bytes) : Bytes :=
  let full := if isGmac alg then gcmTag key iv m [] else hmac sha256 64 key m
  full.take ((macLen alg).getD 0)

/-! ### What a stream frame says -/

/-- What the part reads of a stream frame's security fields and counters. `early` is the DETAIL of the first rule broken at steps
1 to 3 of R483, `late` that of step 5. `plain` marks a layer-2 frame without an extension; `first` and `last` are the SV sample
counts, `last` also the sqNum or the SPDU number. -/
structure Parsed where
  early : Option (BitVec 16)
  late  : Option (BitVec 16)
  sim   : Bool
  plain : Bool
  keyId : Option (BitVec 32)
  tok   : Nat
  ttn   : Nat
  alg   : Nat
  iv    : Bytes
  mac   : Bytes
  macIn : Bytes
  first : Nat
  last  : Nat
  st    : Nat
  deriving DecidableEq, Repr

/-- A frame of which nothing has been read. -/
def parsedNone : Parsed :=
  { early := none, late := none, sim := false, plain := false, keyId := none, tok := 0, ttn := 0, alg := 0, iv := [], mac := [],
    macIn := [], first := 0, last := 0, st := 0 }

/-! ### BER elements (R291) -/

/-- The first element of a string: its tag, its content, what follows it. Its length runs past no end. -/
def berHead (b : Bytes) : Option (Nat × Bytes × Bytes) :=
  match b with
  | t :: l :: r =>
    let k := l.toNat % 128
    if l.toNat < 128 then (if l.toNat ≤ r.length then some (t.toNat, r.take l.toNat, r.drop l.toNat) else none)
    else if k = 0 ∨ 4 < k ∨ r.length < k then none
    else
      let n := beNat (r.take k)
      if n + k ≤ r.length then some (t.toNat, slice r k n, r.drop (k + n)) else none
  | _ => none

/-- The elements of a string, at most `n` of them; none where one does not fit. -/
def berAll : Nat → Bytes → Option (List (Nat × Bytes))
  | _, [] => some []
  | 0, _ => none
  | n + 1, b =>
    match berHead b with
    | none => none
    | some (t, c, r) => (berAll n r).map (fun l => (t, c) :: l)

/-- The elements of a string. -/
def berList (b : Bytes) : Option (List (Nat × Bytes)) := berAll b.length b

/-- The content of the first element with a tag. -/
def berFind (t : Nat) (es : List (Nat × Bytes)) : Option Bytes := (es.find? (fun e => e.1 == t)).map (·.2)

/-- An INTEGER of 1 to 5 content bytes. -/
def berCount (b : Bytes) : Option Nat := if 1 ≤ b.length ∧ b.length ≤ 5 then some (beNat b % 2 ^ 32) else none

/-- stNum and sqNum of a GOOSE APDU, each where it parses. -/
def gooseCounts (b : Bytes) : Option Nat × Option Nat :=
  match berHead b with
  | some (0x61, c, _) =>
    match berList c with
    | none => (none, none)
    | some es => ((berFind 0x85 es).bind berCount, (berFind 0x86 es).bind berCount)
  | _ => (none, none)

/-- The smpCnt of an ASDU; none where its elements do not fit, or its smpCnt is missing or not 2 bytes. -/
def asduCount (b : Bytes) : Option Nat :=
  match (berList b).bind (berFind 0x82) with
  | some c => if c.length = 2 then some (beNat c) else none
  | none => none

/-- The smpCnt of the first and the last ASDU of an SV APDU, the only two that are read (R291). -/
def svCounts (b : Bytes) : Option (Nat × Nat) :=
  match berHead b with
  | some (0x60, c, _) =>
    match berList c with
    | none => none
    | some es =>
      match berFind 0x80 es, (berFind 0xA2 es).bind berList with
      | some no, some asdus =>
        let ns := (asdus.filter (fun e => e.1 == 0x30)).map (fun e => asduCount e.2)
        if no.isEmpty || beNat no < 1 || 8 < beNat no || ns.length ≠ beNat no then none
        else match ns.head?, ns.getLast? with
          | some (some a), some (some z) => some (a, z)
          | _, _ => none
      | _, _ => none
  | _ => none

/-- The APDU's counters in a frame (step 5 of R483). -/
def withCounts (kind : Nat) (apdu : Bytes) (p : Parsed) : Parsed :=
  if kind = 1 then
    match gooseCounts apdu with
    | (some st, some sq) => { p with st := st, first := sq, last := sq }
    | (st, _) => { p with late := some 0x0C23, st := st.getD 0 }
  else
    match svCounts apdu with
    | some (a, z) => { p with first := a, last := z }
    | none => { p with late := some 0x0C23 }

/-! ### The extension of a layer-2 frame (R292) -/

/-- The DETAIL of the first field of an extension that breaks its rule. -/
def extBad (x : Bytes) : Option (BitVec 16) :=
  let iv := beAt x 12 1
  let alg := beAt x (13 + iv) 1
  if x.length < 13 ∨ beAt x 0 1 ≠ 0xAF ∨ beAt x 1 1 + 2 ≠ x.length then some 0x0C21
  else if iv ≠ 0 ∧ iv ≠ 12 then some 0x0C24
  else if x.length ≤ 13 + iv then some 0x0C21
  else match macLen alg with
    | none => some 0x0C21
    | some n =>
      if (iv == 12) != isGmac alg then some 0x0C24
      else if x.length ≠ 14 + iv + n then some 0x0C21
      else none

/-- The KeyID of an extension that breaks a rule behind it (R308): it lies where its tag and its length byte say. -/
def extKeyId (x : Bytes) : Option (BitVec 32) :=
  if x.length < 12 ∨ beAt x 0 1 ≠ 0xAF ∨ beAt x 1 1 + 2 ≠ x.length then none else some (BitVec.ofNat 32 (beAt x 8 4))

/-- A layer-2 stream frame whose header begins at `p` (R291, R292, R483). -/
def parseLayer2 (kind p : Nat) (f : Bytes) : Parsed :=
  let len := beAt f (p + 2) 2
  let r1 := beAt f (p + 4) 2
  let e := r1 % 256
  let base := { parsedNone with sim := decide (0x8000 ≤ r1), plain := e == 0 }
  if f.length < p + len ∨ len < 8 + e then { base with early := some 0x0C20 }
  else
    let apdu := slice f (p + 8) (len - 8 - e)
    let x := slice f (p + len - e) e
    if e = 0 then withCounts kind apdu base
    else match extBad x with
      | some d => withCounts kind apdu { base with early := some d, keyId := extKeyId x }
      | none =>
        let iv := beAt x 12 1
        let alg := beAt x (13 + iv) 1
        withCounts kind apdu
          { base with keyId := some (BitVec.ofNat 32 (beAt x 8 4)), tok := beAt x 2 4, ttn := beAt x 6 2, alg := alg,
                      iv := slice x 13 iv, mac := x.drop (14 + iv),
                      macIn := slice f p (len - (e - 14 - iv)) }

/-! ### The session PDU of a routed frame (R294) -/

/-- The 16-bit sum of ones' complement over a string, high byte first. -/
def onesSum : Bytes → Nat
  | [] => 0
  | [a] => a.toNat * 256
  | a :: b :: t =>
    let s := onesSum t + a.toNat * 256 + b.toNat
    if s < 65536 then s else s - 65535

/-- The pseudo header of a UDP datagram. -/
def pseudoHeader (h : Head) (len : Nat) : Bytes :=
  if h.ipVer = 4 then h.srcIp.take 4 ++ h.dstIp.take 4 ++ [0, 17] ++ beBytes 2 len
  else h.srcIp ++ h.dstIp ++ beBytes 4 len ++ [0, 0, 0, 17]

/-- A non-zero UDP checksum fails. -/
def udpBad (h : Head) (f : Bytes) : Bool :=
  let len := beAt f (h.body + 4) 2
  beAt f (h.body + 6) 2 != 0 && onesSum (pseudoHeader h len ++ slice f h.body len) != 65535

/-- Bytes of the common header after its own length, and of the session header after LI. -/
def commonLen : Nat := 22

/-- The DETAIL of the first field of a session PDU that breaks its rule. -/
def sessionBad (u : Bytes) : Option (BitVec 16) :=
  let n := beAt u 26 4
  let alg := beAt u 21 1
  if u.length < 30 ∨ siKind (beAt u 0 1) = 0 ∨ beAt u 1 1 ≠ commonLen + 2 ∨ beAt u 2 1 ≠ 0x80 ∨ beAt u 3 1 ≠ commonLen then some 0x0C21
  else match macLen alg with
    | none =>
      if beAt u 12 2 ≠ 2 then some 0x0C21 else if beAt u 20 1 ≠ 0 then some 0x0C25 else some 0x0C21
    | some m =>
      if beAt u 4 4 ≠ 24 + n + m ∨ beAt u 12 2 ≠ 2 then some 0x0C21
      else if beAt u 20 1 ≠ 0 then some 0x0C25
      else if u.length < 32 + n + m ∨ beAt u (30 + n) 1 ≠ 0x85 ∨ beAt u (31 + n) 1 ≠ m then some 0x0C21
      else none

/-- The rules of a session header up to its KeyID hold (R294). -/
def sessionHeadOk (u : Bytes) : Bool :=
  decide (30 ≤ u.length) && siKind (beAt u 0 1) != 0 && beAt u 1 1 == commonLen + 2 && beAt u 2 1 == 0x80 && beAt u 3 1 == commonLen &&
  beAt u 12 2 == 2 && beAt u 20 1 == 0 &&
  (match macLen (beAt u 21 1) with
   | some m => beAt u 4 4 == 24 + beAt u 26 4 + m
   | none => false)

/-- The IV of a routed frame under GMAC: KeyID, SPDU number, TimeOfCurrentKey. -/
def routedIv (u : Bytes) : Bytes := slice u 22 4 ++ slice u 8 4 ++ slice u 14 4

/-- A routed frame (R294, R483). -/
def parseRouted (h : Head) (f : Bytes) : Parsed :=
  let u := slice f (h.body + 8) (beAt f (h.body + 4) 2 - 8)
  let alg := beAt u 21 1
  let n := beAt u 26 4
  let bad := if udpBad h f then some 0x0C26 else sessionBad u
  match sessionBad u with
  | some _ =>
    if sessionHeadOk u then { parsedNone with early := bad, keyId := some (BitVec.ofNat 32 (beAt u 22 4)), last := beAt u 8 4 }
    else { parsedNone with early := bad }
  | none =>
    { parsedNone with early := bad, keyId := some (BitVec.ofNat 32 (beAt u 22 4)), tok := beAt u 14 4, ttn := beAt u 18 2,
                      alg := alg, iv := if isGmac alg then routedIv u else [], mac := slice u (32 + n) ((macLen alg).getD 0),
                      macIn := u.take (30 + n), first := beAt u 8 4, last := beAt u 8 4 }

/-- What a stream frame says. -/
def parseFrame (h : Head) (f : Bytes) : Parsed :=
  match h.sort with
  | .layer2 => parseLayer2 h.kind h.body f
  | .routed => parseRouted h f
  | .other => parsedNone

/-- The header CRC-16 that IEC 62351-6 defines (R292), of the frame up to Reserved 1 (log 29). -/
def headerCrc (f : Bytes) (p : Nat) : Bytes := fit 2 (Config.crypto .headerCrc 0 [f.take (p + 6)])

/-- Reserved 2 holds another value than the header CRC. -/
def crcBad (h : Head) (f : Bytes) : Bool := h.sort == .layer2 && slice f (h.body + 6) 2 != headerCrc f h.body

end Sys2Proof.Machine
end

