-- ==== Sys2Proof/Machine/Queues.lean ====
section
/-! DEFINITION. The work queues (R59 to R78): commits, state changes, doorbells, fetch and arbitration, the end of a job,
and the interrupt plumbing of the PCIe endpoint (R34, R56, R57). -/
namespace Sys2Proof.Machine

/-! ### Commits and state changes (R59 to R63) -/

/-- Queues assigned to a pitch, apart from one. -/
def assignedCount (s : State) (p : BitVec 8) (n : BitVec 12) : Nat :=
  (s.queues.filter (fun e => e.1 != n.toNat && assignedTo p e.2)).length

/-- A structural field of the set differs from its committed value (R61). -/
def structuralDiffers (a b : QueueCfg) : Bool :=
  a.descBase != b.descBase || a.cplBase != b.cplBase || a.log2Size != b.log2Size || a.local_ != b.local_ ||
  a.assigned != b.assigned || a.pitch != b.pitch

/-- The checks of COMMIT in order (R61). A 65th queue of a pitch, whose LOCAL is taken whatever it is, is refused with Q_PITCH_FULL, as R59
says (DEDUCED, log 64). -/
def queueCommitBad (s : State) (n : BitVec 12) : Option (BitVec 16) :=
  let q := s.q n
  let c := q.shadow
  let size := 2 ^ c.log2Size.toNat
  if structuralDiffers c q.cfg ∧ q.state ≠ .disabled then some 0x0030
  else if c.log2Size.toNat < 4 ∨ c.log2Size.toNat > 16 then some 0x0031
  else if c.descBase.toNat + 64 * size > 2 ^ 64 ∨ c.cplBase.toNat + 32 * size > 2 ^ 64 then some 0x0032
  else if c.weight = 0 ∨ c.burst = 0 ∨ c.burst.toNat > 64 then some 0x0036
  else if c.coalCount ≠ 0 ∧ c.coalTime = 0 then some 0x0037
  else if c.assigned ∧ (s.pitch c.pitch).state = .absent then some 0x0033
  else if c.assigned ∧ assignedTo c.pitch q = false ∧ 64 ≤ assignedCount s c.pitch n then some 0x0035
  else if c.assigned ∧ s.queues.any (fun e => e.1 != n.toNat && assignedTo c.pitch e.2 && e.2.cfg.local_ == c.local_) then
    some 0x0034
  else if c.assigned ∧ assignedTo c.pitch q = false ∧
      assignedCount s c.pitch n ≥ (s.pitch c.pitch).cfg.queueLimit.toNat then some 0x0035
  else none

/-- Q_CMD COMMIT (R61). -/
def queueCommit (n : BitVec 12) (s : State) : State :=
  let q := s.q n
  match queueCommitBad s n with
  | some d => s.setQ n { q with commitRefused := true, refuseDetail := d }
  | none => s.setQ n { q with cfg := q.shadow }

/-- A command on a queue refused (R62). -/
def queueRefuse (n : BitVec 12) (d : BitVec 16) (s : State) : State :=
  s.setQ n { s.q n with cmdRefused := true, refuseDetail := d }

/-- Q_CMD ENABLE (R62, R63, R77); refused with Q_STATE before READY (R452). In Shuttered mode any queue but an assigned queue 0 of pitch 0
is refused with Q_SHUTTERED whatever else it lacks, as R77 says (DEDUCED, log 64). The count of accumulated signalling records restarts
with the rings, which the spec does not say (DESIGN CHOICE, log 64). -/
def queueEnable (n : BitVec 12) (s : State) : State :=
  let q := s.q n
  if q.state ≠ .disabled ∨ (s.dev.phase ≠ .ready ∧ s.isShuttered = false) then queueRefuse n 0x003C s
  else if s.isShuttered ∧ (n ≠ 0 ∨ (q.cfg.assigned ∧ q.cfg.pitch ≠ 0)) then queueRefuse n 0x003B s
  else if q.cfg.assigned = false then queueRefuse n 0x0038 s
  else if q.cfg.descBase = 0 ∨ q.cfg.cplBase = 0 then queueRefuse n 0x0039 s
  else if (s.pitch q.cfg.pitch).cfg.bound = false then queueRefuse n 0x003A s
  else s.setQ n { q with state := .enabled, h := 0, w := 0, p := 0, c := 0, left := 0, accumulated := 0 }

/-- Q_CMD DISABLE (R62). -/
def queueDisable (n : BitVec 12) (s : State) : State :=
  match (s.q n).state with
  | .disabled => s
  | .draining => queueRefuse n 0x003C s
  | _ => settleDrain (s.setQ n { s.q n with state := .draining }) n

/-- Q_CMD RESTART (R62). -/
def queueRestart (n : BitVec 12) (s : State) : State :=
  if (s.q n).state = .error then s.setQ n { s.q n with state := .enabled } else queueRefuse n 0x003C s

def execQueueCommit (q : BitVec 12) (s : State) : Host.Outcome State Fault Refusal := hostAct s (queueCommit q s)

def execQueueEnable (q : BitVec 12) (s : State) : Host.Outcome State Fault Refusal := hostAct s (queueEnable q s)

def execQueueDisable (q : BitVec 12) (s : State) : Host.Outcome State Fault Refusal := hostAct s (queueDisable q s)

def execQueueRestart (q : BitVec 12) (s : State) : Host.Outcome State Fault Refusal := hostAct s (queueRestart q s)

/-! ### Doorbells (R65) -/

/-- A doorbell value rejected (R65). -/
def dbReject (n : BitVec 12) (s : State) : State :=
  s.setQ n { s.q n with dbRejected := true, dbRejects := satAdd (s.q n).dbRejects 1 }

/-- SQ_PI := v (R65). -/
def sqPi (p : BitVec 8) (l : BitVec 6) (v : BitVec 32) (s : State) : State :=
  match queueOf s p l with
  | none => s
  | some n =>
    let q := s.q n
    if windowsOpen s = false ∨ (s.pitch p).state = .resetting ∨ (q.state ≠ .enabled ∧ q.state ≠ .error) then s
    else if (v - q.c).toNat ≤ ringSize q ∧ (v - q.h).toNat ≤ ringSize q then s.setQ n { q with p := v }
    else dbReject n s

/-- CQ_CI := v (R65). -/
def cqCi (p : BitVec 8) (l : BitVec 6) (v : BitVec 32) (s : State) : State :=
  match queueOf s p l with
  | none => s
  | some n =>
    let q := s.q n
    if windowsOpen s = false ∨ (s.pitch p).state = .resetting ∨ (q.state ≠ .enabled ∧ q.state ≠ .error) then s
    else if (q.w - v).toNat ≤ ringSize q ∧ (v - q.c).toNat ≤ ringSize q then s.setQ n { q with c := v }
    else dbReject n s

def execSqPi (p : BitVec 8) (l : BitVec 6) (v : BitVec 32) (s : State) : Host.Outcome State Fault Refusal :=
  act s (sqPi p l v s)

def execCqCi (p : BitVec 8) (l : BitVec 6) (v : BitVec 32) (s : State) : Host.Outcome State Fault Refusal :=
  act s (cqCi p l v s)

/-! ### Fetch and arbitration (R66 to R69) -/

/-- The part fetches at all: it serves, or it is Shuttered and its one descriptor at a time is through (R463, R465). -/
def fetching (s : State) : Bool :=
  !s.seq.reloading && match s.dev.phase with
  | .ready => !s.pcie.d3hot
  | .shuttered _ => !s.pcie.d3hot && s.jobs.isEmpty
  | _ => false

/-- The pitch whose visit is served now, with its allowance (R68). -/
def visitNow (s : State) : Option (BitVec 8 × Nat) :=
  let fresh : Option (BitVec 8 × Nat) :=
    match nextAfter (s.arb.lastPitch.map (·.toNat)) ((List.range 256).filter (fun p => pitchEligible s (BitVec.ofNat 8 p))) with
    | some p => some (BitVec.ofNat 8 p, (s.pitch (BitVec.ofNat 8 p)).cfg.weight.toNat)
    | none => none
  match s.arb.visit with
  | some (p, a) => if 0 < a ∧ pitchEligible s p then some (p, a) else fresh
  | none => fresh

/-- A new queue round of a pitch: every queue's allowance is its weight (R68). -/
def newRound (s : State) (p : BitVec 8) : State :=
  { s with queues := Tab.mapVals queueInit (fun _ q => if assignedTo p q then { q with left := q.cfg.weight.toNat } else q) s.queues }

/-- One descriptor read at H into the Hall controller (R66). -/
def fetchOne (s : State) (n : BitVec 12) : State :=
  let q := s.q n
  let slot := q.h.toNat % ringSize q
  let a := (q.cfg.descBase.toNat + 64 * slot) % 2 ^ 64
  let bytes := readHost s q.cfg.pitch a 64
  let s := translated q.cfg.pitch a 64 s
  let x := jobInit { src := 0, queue := n, pos := q.h } (BitVec.ofNat 16 slot) q.cfg.pitch (descOf bytes)
  { s.setQ n { q with h := q.h + 1, left := q.left - 1 } with jobs := s.jobs ++ [x] }

/-- Up to `k` descriptors of a queue, while its pitch keeps a place: a burst ends where its pitch no longer passes R69, which R68 does not
say of a burst begun (DESIGN CHOICE, log 64). -/
def fetchUpTo (n : BitVec 12) : Nat → State → Nat → State × Nat
  | 0, s, got => (s, got)
  | k + 1, s, got => if placesLeft s (s.q n).cfg.pitch then fetchUpTo n k (fetchOne s n) (got + 1) else (s, got)

/-- One turn of the fetcher (R68): the next queue of the pitch being served gives its burst. -/
def fetchTurn (s : State) : State :=
  if fetching s = false then s
  else match visitNow s with
    | none => s
    | some (p, allow) =>
      let s := if (eligibleOf s p).all (fun n => (s.q n).left = 0) then newRound s p else s
      let open_ := (eligibleOf s p).filter (fun n => (s.q n).left ≠ 0)
      let mark := (Tab.get none p.toNat s.arb.lastLocal).map (·.toNat)
      match nextAfter mark (open_.map (fun n => (s.q n).cfg.local_.toNat)) with
      | none => s
      | some l => match queueOf s p (BitVec.ofNat 6 l) with
        | none => s
        | some n =>
          let q := s.q n
          let k := min (min q.cfg.burst.toNat q.left) (min allow (q.p - q.h).toNat)
          let k := if s.isShuttered then min k 1 else k
          let (t, got) := fetchUpTo n k s 0
          { t with arb := { t.arb with
                            visit := some (p, allow - got), lastPitch := some p,
                            lastLocal := Tab.set none p.toNat (some (BitVec.ofNat 6 l)) t.arb.lastLocal } }

def execDescriptorFetch (s : State) : Host.Outcome State Fault Refusal := act s (fetchTurn s)

/-- A ring cannot be read or translated (R67). -/
def ringReadFail (n : BitVec 12) (c : RingCause) (s : State) : State :=
  match c with
  | .cplTranslation => if (s.q n).state = .disabled then s else cplFails s n
  | .ringRead => if (s.q n).state = .enabled then enterError s n 0x0040 else s
  | .ringTimeout => if (s.q n).state = .enabled then enterError s n 0x0041 else s
  | .ringTranslation => if (s.q n).state = .enabled then enterError s n 0x0042 else s

def execRingReadFail (q : BitVec 12) (c : RingCause) (s : State) : Host.Outcome State Fault Refusal :=
  act s (ringReadFail q c s)

/-! ### Ends of jobs -/

/-- An opcode that no chapter defines (check 1 of R71). -/
def opcodeUndefined (j : JobId) (s : State) : State :=
  match s.job j with
  | none => s
  | some x =>
    if x.phase ≠ .fetched ∨ opcodeDefined x.desc.opcode ∨ mayStart s x = false then s
    else refuseJob s x { status := stBadOpcode, detail := 0x0001 }

def execOpcodeUndefined (j : JobId) (s : State) : Host.Outcome State Fault Refusal := act s (opcodeUndefined j s)

/-- Comparator A decides (R185): the unit takes its next job, and the Hall controller holds the result, of which it has room
for 512. -/
def firstDecides (s : State) (x : Job) : State :=
  if (s.jobs.filter (fun y => y.verdict == .second)).length < 512 then
    (freeUnits s x).setJob { x with units := [], verdict := .second }
  else s

/-- A job's result is ready and its record due (R73). A result that is decided twice waits for comparator B. A job with a persistent key first leaves its unit and writes the
key's record to the non-volatile die (R348). While the Hall controller store is reloaded, results wait (R131). -/
def jobComplete (j : JobId) (w : RecordWrite) (s : State) : State :=
  if s.seq.reloading then s else
  match s.job j with
  | none => s
  | some x => match x.phase, x.out with
    | .running, some o =>
      if x.verdict = .due then firstDecides s x
      else if x.verdict = .second then s
      else if needsStore s x then (freeUnits s x).setJob { x with phase := .storing, units := [] }
      else completeJob w s x o
    | .ended, some o => completeJob w s x o
    | _, _ => s

/-- The DETAIL of a failed access (R72). -/
def dmaDetail : DmaCause → BitVec 16
  | .read => 0x000B
  | .write => 0x000C
  | .translation => 0x000D

/-- A host memory access of a running job fails (R72). The accesses of a PORTER_START are those of its program, which ends with it (R96). -/
def dmaFault (j : JobId) (k : DmaCause) (s : State) : State :=
  match s.job j with
  | none => s
  | some x =>
    if x.phase ≠ .running then s
    else if x.desc.opcode = 0x0E01 ∧ x.forwarded.isNone ∧ x.out.isNone then channelFails (chanOf x.desc) (dmaDetail k) s
    else breakJob s x stBadAddress (dmaDetail k)

def execDmaFault (j : JobId) (k : DmaCause) (s : State) : Host.Outcome State Fault Refusal := act s (dmaFault j k s)

/-- COAL_TIME µs have passed since the first accumulated record (R75). Records accumulated when a Q_MOD commit takes COAL_COUNT and COAL_TIME to zero,
or VECTOR to none, keep their count and signal nothing (DESIGN CHOICE, log 72). -/
def coalTimeExpiry (n : BitVec 12) (s : State) : State :=
  let q := s.q n
  if q.accumulated = 0 ∨ q.cfg.coalTime = 0 then s
  else signal q.cfg.vector (s.setQ n { q with accumulated := 0 })

/-- The same for the records of a delivery queue (R309). -/
def coalDqExpiry (d : BitVec 8) (s : State) : State :=
  let q := s.dq d
  if q.accumulated = 0 ∨ q.cfg.coalTime = 0 then s
  else signal q.cfg.vector (s.setDq d { q with accumulated := 0 })

def execCoalTimeExpiry (q : CoalQueue) (s : State) : Host.Outcome State Fault Refusal :=
  act s (match q with
    | .queue n => coalTimeExpiry n s
    | .delivery d => coalDqExpiry d s)

/-! ### MSI-X, ATS, the summary mask (R34, R56, R57) -/

/-- The pending message of a vector sent, where nothing masks it any more. -/
def sendPending (s : State) (v : Nat) : State :=
  let e := Tab.get msixInit v s.pcie.table
  if s.pcie.msixEnable ∧ s.pcie.funcMask = false ∧ s.pcie.d3hot = false ∧ e.masked = false ∧ s.pcie.pba.getLsbD v then
    { s with pcie := { s.pcie with pba := s.pcie.pba &&& ~~~(1#2048 <<< v) },
             out := .msix (BitVec.ofNat 11 v) e.addr e.data :: s.out }
  else s

/-- The host clears a vector's mask (R56). -/
def vectorUnmask (v : BitVec 11) (s : State) : State :=
  let e := Tab.get msixInit v.toNat s.pcie.table
  sendPending { s with pcie := { s.pcie with table := Tab.set msixInit v.toNat { e with masked := false } s.pcie.table } } v.toNat

/-- The host clears the Function Mask (R56). -/
def functionUnmask (s : State) : State :=
  (List.range 2048).foldl sendPending { s with pcie := { s.pcie with funcMask := false } }

/-- The host sets MSI-X Enable (R56): the messages of vectors that are pending and no longer masked go out, and vector 0 is signalled once
if a summary cause is enabled and pending. -/
def msixOn (s : State) : State :=
  if s.pcie.msixEnable then s
  else
    let s := (List.range 2048).foldl sendPending { s with pcie := { s.pcie with msixEnable := true } }
    if summary s ≠ 0 then msixSend 0 s else s

def execMsixVectorUnmask (v : BitVec 11) (s : State) : Host.Outcome State Fault Refusal := hostAct s (vectorUnmask v s)

def execMsixFunctionUnmask (s : State) : Host.Outcome State Fault Refusal := act s (functionUnmask s)

def execMsixEnable (s : State) : Host.Outcome State Fault Refusal := act s (msixOn s)

/-- An entry of the translation cache covers none of the pages invalidated. -/
def apart (pasid : BitVec 20) (first count : Nat) (e : AtsEntry) : Bool :=
  e.pasid != pasid || decide (e.first + e.count ≤ first) || decide (first + count ≤ e.first)

/-- An invalidation request for `count` pages of a PASID (R57): the translations leave the cache. Every access to host memory is whole
within one command of this model, so no request that used one of them is open, and the invalidation completes (log 8). With ATS
disabled the request is unsupported, and nothing answers it (PRESUMED, log 64). -/
def atsInvalidate (tag : BitVec 5) (pasid : BitVec 20) (first count : BitVec 53) (s : State) : State :=
  if s.pcie.atsEnable = false then s
  else { s with pcie := { s.pcie with ats := s.pcie.ats.filter (apart pasid first.toNat count.toNat) }, out := .atsDone tag :: s.out }

def execAtsInvalidation (r : AtsRange) (s : State) : Host.Outcome State Fault Refusal :=
  act s (if alive s then atsInvalidate r.tag r.pasid r.first r.count s else s)

/-- INT_SUMMARY_MASK written (R34). -/
def intMaskWrite (v : BitVec 32) (s : State) : State :=
  let s := { s with dev := { s.dev with intEnable := v.setWidth 15 } }
  if summary s ≠ 0 then msixSend 0 s else s

def execIntSummaryMaskWrite (v : BitVec 32) (s : State) : Host.Outcome State Fault Refusal :=
  .next (if windowsOpen s then intMaskWrite v s else s)

/-! ### Behaviour epochs (R29 to R31) -/

/-- A pitch migration is in progress (R30, R111). -/
def migrating (s : State) : Bool :=
  s.pitches.any (fun e => e.2.logOn || e.2.state == .freezing || e.2.state == .frozen) ||
  s.jobs.any (fun x => x.phase == .running && (x.desc.opcode == 0x0F24 || x.desc.opcode == 0x0F25))

/-- A write to EPOCH_SELECT.EPOCH (R30). -/
def epochWrite (v : BitVec 2) (s : State) : State :=
  if v = s.dev.epoch then s
  else if s.dev.lock = false ∧ (v = 1 ∨ v = 2) ∧ s.queues.all (fun e => e.2.state == .disabled) ∧ migrating s = false ∧
      s.isShuttered = false then
    { s with dev := { s.dev with epoch := v } }
  else note 0x0F03 none [v.setWidth 8, s.dev.epoch.setWidth 8] { s with dev := { s.dev with refused := true } }

/-- A 1 written to EPOCH_SELECT.LOCK (R31). -/
def epochLock (s : State) : State :=
  if s.dev.orderCode = 2 then { s with dev := { s.dev with lock := true } }
  else { s with dev := { s.dev with lockRefused := true } }

def execEpochWrite (v : BitVec 2) (s : State) : Host.Outcome State Fault Refusal := hostAct s (epochWrite v s)

def execEpochLock (s : State) : Host.Outcome State Fault Refusal := hostAct s (epochLock s)

end Sys2Proof.Machine
end

