-- ==== Sys2Proof/Machine/Pitches.lean ====
section
/-! DEFINITION. Pitches (R98 to R118) and the power states of the PCIe function (R54): the pitch table's commits and
commands, reset, freeze, dirty-page logging, contexts, migration. -/
namespace Sys2Proof.Machine

/-! ### The pitch table (R99 to R101) -/

/-- The plan's entry for a pitch, with the values that Shuttered mode gives pitch 0 (R463). -/
def pitchPlan (s : State) (p : BitVec 8) : PitchPlan :=
  (s.planPitch p).getD { weight := 1, queueMax := 1, drbg := true, ctxReserve := 0, ctxCeiling := 0, cellReserve := 0,
                         cellCeiling := 0, crateReserve := 0, crateCeiling := 0 }

/-- The log fields of a set differ (check 2 of R100). -/
def logDiffers (a b : PitchCfg) : Bool :=
  a.logBase != b.logBase || a.logPages != b.logPages || a.logBuf0 != b.logBuf0 || a.logBuf1 != b.logBuf1

/-- The binding of a set differs. -/
def bindDiffers (a b : PitchCfg) : Bool := a.pasid != b.pasid || a.rid != b.rid || a.bound != b.bound

/-- A queue of the pitch is not DISABLED, or a channel of it is not IDLE. -/
def pitchBusy (s : State) (p : BitVec 8) : Bool :=
  s.queues.any (fun e => assignedTo p e.2 && e.2.state != .disabled) ||
  s.porter.any (fun e => e.2.cfg.assigned && e.2.cfg.pitch == p && e.2.run.isSome)

/-- The checks of PT_CMD COMMIT (R100). -/
def pitchCommitBad (s : State) (p : BitVec 8) : Option (BitVec 16) :=
  let x := s.pitch p
  let c := x.shadow
  let l := pitchPlan s p
  if x.state = .absent then some 0x0F31
  else if (bindDiffers c x.cfg && pitchBusy s p) || (logDiffers c x.cfg && x.logOn) then some 0x0F30
  else if c.weight = 0 ∨ c.queueLimit = 0 ∨ l.weight.toNat < c.weight.toNat ∨ l.queueMax.toNat < c.queueLimit.toNat ∨
      l.ctxCeiling.toNat < c.ctxCeiling.toNat ∨ l.cellCeiling.toNat < c.cellCeiling.toNat ∨
      l.crateCeiling.toNat < c.crateCeiling.toNat then some 0x0F32
  else if c.bound ∧ s.pitches.any (fun e => e.1 != p.toNat && e.2.cfg.bound && e.2.cfg.pasid == c.pasid) then some 0x0F33
  else if c.bound ∧ c.rid ≠ s.pcie.requesterId then some 0x0F34
  else none

/-- The state after a commit (R98): UNBOUND and ACTIVE follow BOUND. -/
def boundState (st : PitchState) (bound : Bool) : PitchState :=
  match st with
  | .unbound => if bound then .active else .unbound
  | .active => if bound then .active else .unbound
  | other => other

/-- PT_CMD COMMIT (R100). -/
def pitchCommit (p : BitVec 8) (s : State) : State :=
  let x := s.pitch p
  match pitchCommitBad s p with
  | some d => s.setPitch p { x with commitRefused := true, refuseDetail := d }
  | none => s.setPitch p { x with cfg := x.shadow, state := boundState x.state x.shadow.bound }

/-- A command on a pitch refused (R101). -/
def pitchRefuse (p : BitVec 8) (d : BitVec 16) (s : State) : State :=
  s.setPitch p { s.pitch p with cmdRefused := true, refuseDetail := d }

/-- PT_CMD RESET (R101, R107). -/
def pitchReset (p : BitVec 8) (release : Bool) (s : State) : State :=
  if (s.pitch p).state = .absent then pitchRefuse p 0x0F31 s else askReset p release .command s

/-- PP_CTRL SELF_RESET (R106). -/
def selfReset (p : BitVec 8) (confirm : BitVec 16) (s : State) : State :=
  if confirm = 0xA5A5 ∧ windowsOpen s then askReset p false .self s else s

/-- A fault in the pitch's DRBG state or its table entry (R110): the entry's committed values come back from their
duplicate copy, which in this model they are. -/
def pitchStateFault (p : BitVec 8) (s : State) : State := askReset p false .fault s

/-- A FREEZING pitch has nothing in flight (R111). -/
def pitchDrained (s : State) (p : BitVec 8) : Bool :=
  !s.jobs.any (jobOf p) && !s.porter.any (fun e => e.2.cfg.assigned && e.2.cfg.pitch == p && e.2.run.isSome)

/-- PT_CMD FREEZE (R101, R111). -/
def freeze (p : BitVec 8) (s : State) : State :=
  let x := s.pitch p
  match x.state with
  | .absent => pitchRefuse p 0x0F31 s
  | .active =>
    let s := s.setPitch p { x with state := .freezing }
    if s.e1 then
      (s.jobs.filter (fun y => y.pitch = p ∧ notStarted y)).foldl
        (fun s y => breakJob s y stAborted 0x0022) s
    else s
  | _ => pitchRefuse p 0x0F36 s

/-- The last item of a FREEZING pitch has ended (R111). -/
def pitchFrozen (p : BitVec 8) (s : State) : State :=
  let x := s.pitch p
  if x.state = .freezing ∧ pitchDrained s p then s.setPitch p { x with state := .frozen, eventInt := true } else s

/-- The PITCH_EXPORT job of a pitch runs. -/
def exporting (s : State) (p : BitVec 8) : Bool :=
  s.jobs.any (fun x => x.phase == .running && x.desc.opcode == 0x0F24 && (x.desc.param.setWidth 8 : BitVec 8) == p)

/-- PT_CMD THAW (R101). While the pitch's PITCH_EXPORT runs it is refused, so that EXPORTED is entered from FROZEN alone (R98; DESIGN
CHOICE, log 66). -/
def thaw (p : BitVec 8) (s : State) : State :=
  let x := s.pitch p
  match x.state with
  | .absent => pitchRefuse p 0x0F31 s
  | .freezing => s.setPitch p { x with state := .active }
  | .frozen => if exporting s p then pitchRefuse p 0x0F36 s else s.setPitch p { x with state := .active }
  | _ => pitchRefuse p 0x0F36 s

/-- PT_CMD LOG_ENABLE (R101, R112). With logging on already it starts again in BUF0, and a swap that is pending is dropped, of which the spec
says nothing (DESIGN CHOICE, log 66). -/
def logEnable (p : BitVec 8) (s : State) : State :=
  let x := s.pitch p
  if x.state = .absent then pitchRefuse p 0x0F31 s
  else if x.state ≠ .active ∧ x.state ≠ .freezing ∧ x.state ≠ .frozen then pitchRefuse p 0x0F36 s
  else if s.e1 ∨ x.cfg.migMode then pitchRefuse p 0x0F38 s
  else if x.cfg.logPages = 0 ∨ x.cfg.logBuf0 = 0 ∨ x.cfg.logBuf1 = 0 then pitchRefuse p 0x0F39 s
  else s.setPitch p { x with logOn := true, logBuf := false, swapPending := false }

/-- PT_CMD LOG_SWAP (R101, R113). -/
def logSwap (p : BitVec 8) (s : State) : State :=
  let x := s.pitch p
  if x.state = .absent then pitchRefuse p 0x0F31 s
  else if x.logOn = false ∨ x.swapPending then pitchRefuse p 0x0F3A s
  else s.setPitch p { x with swapPending := true }

/-- Every bit for writes made before the swap is visible (R113). -/
def logSwapDone (p : BitVec 8) (s : State) : State :=
  let x := s.pitch p
  if x.swapPending then s.setPitch p { x with swapPending := false, logBuf := !x.logBuf, eventInt := true } else s

/-- PT_CMD LOG_DISABLE (R101). A swap that is pending is dropped with neither its event nor a change of LOG_BUF, of which the spec says
nothing (DESIGN CHOICE, log 66). -/
def logDisable (p : BitVec 8) (s : State) : State :=
  let x := s.pitch p
  if x.state = .absent then pitchRefuse p 0x0F31 s else s.setPitch p { x with logOn := false, swapPending := false }

def execPitchCommit (p : BitVec 8) (s : State) : Host.Outcome State Fault Refusal := hostAct s (pitchCommit p s)

def execPitchReset (p : BitVec 8) (releaseCtx : Bool) (s : State) : Host.Outcome State Fault Refusal :=
  hostAct s (pitchReset p releaseCtx s)

def execSelfReset (p : BitVec 8) (confirm : BitVec 16) (s : State) : Host.Outcome State Fault Refusal :=
  act s (selfReset p confirm s)

/-- A pitch reset ends, and resets that waited for a migration job which it ended begin (R109). While the Hall controller store is
reloaded, nothing ends (R132). -/
def pitchResetEnd (p : BitVec 8) (s : State) : State := if s.seq.reloading then s else dueResets (endReset p .visible s)

def execPitchResetEnd (p : BitVec 8) (s : State) : Host.Outcome State Fault Refusal := act s (pitchResetEnd p s)

def execPitchStateFault (p : BitVec 8) (s : State) : Host.Outcome State Fault Refusal := act s (pitchStateFault p s)

def execFreeze (p : BitVec 8) (s : State) : Host.Outcome State Fault Refusal := hostAct s (freeze p s)

def execPitchFrozen (p : BitVec 8) (s : State) : Host.Outcome State Fault Refusal := act s (pitchFrozen p s)

def execThaw (p : BitVec 8) (s : State) : Host.Outcome State Fault Refusal := hostAct s (thaw p s)

def execLogEnable (p : BitVec 8) (s : State) : Host.Outcome State Fault Refusal := hostAct s (logEnable p s)

def execLogSwap (p : BitVec 8) (s : State) : Host.Outcome State Fault Refusal := hostAct s (logSwap p s)

def execLogSwapDone (p : BitVec 8) (s : State) : Host.Outcome State Fault Refusal := act s (logSwapDone p s)

def execLogDisable (p : BitVec 8) (s : State) : Host.Outcome State Fault Refusal := hostAct s (logDisable p s)

/-! ### D3hot and the resets of the PCIe function (R54, R452) -/

/-- Every delivery queue disabled; what waits on one is dropped and counted under R309. -/
def disableDqs (s : State) : State :=
  (s.stream.dqs.map (fun e => BitVec.ofNat 8 e.1)).foldl
    (fun s d => dropWaiting d (s.setDq d { s.dq d with enabled := false })) s

/-- Every pitch reset at once, with every completion record dropped (R54, R452). -/
def resetEveryPitch (cause : ResetCause) (s : State) : State :=
  (s.pitches.map (fun e => BitVec.ofNat 8 e.1)).foldl
    (fun s p => endReset p .lost (beginReset p false cause s)) s

/-- Entry to D3hot (R54). -/
def d3hotEntry (s : State) : State :=
  if s.pcie.d3hot then s
  else
    let s := { s with pcie := { s.pcie with d3hot := true } }
    disableDqs (resetEveryPitch .d3hot s)

/-- Return to D0 (R54): signals that fell due meanwhile are sent where nothing masks them (log 10). -/
def d0Return (s : State) : State :=
  (List.range 2048).foldl sendPending { s with pcie := { s.pcie with d3hot := false } }

def execD3hotEntry (s : State) : Host.Outcome State Fault Refusal := act s (d3hotEntry s)

def execD0Return (s : State) : Host.Outcome State Fault Refusal := act s (d0Return s)

/-! ### Contexts (R104, R105, R439) -/

/-- The free context indexes. -/
def freeContexts (s : State) : List Nat := (List.range 16384).filter (fun i => (s.ctx (BitVec.ofNat 14 i)).isNone)

/-- Indexes taken from a list one after another; which one is free (R104; log 11). -/
def pickFrom : Nat → List Nat → State → List Nat × State
  | 0, _, s => ([], s)
  | n + 1, l, s =>
    let (v, s) := drawFree s
    match l[v % l.length]? with
    | none => ([], s)
    | some i =>
      let (r, s) := pickFrom n (l.erase i) s
      (i :: r, s)

/-- Free contexts for a grant, in ascending order. -/
def takeContexts (n : Nat) (s : State) : List Nat × State :=
  let (r, s) := pickFrom n (freeContexts s) s
  let s := { s with links := { s.links with lostCtx := s.links.lostCtx.filter (fun e => !r.contains e.1.toNat) } }
  ((List.range 16384).filter (fun i => r.contains i), s)

/-- The refusal of a context grant (R103). -/
def ctxGrantBad (s : State) (p : BitVec 8) (n : Nat) : Option Bad :=
  match grant s .contexts p n with
  | .granted => none
  | .ceiling => bad stCtxFull 0x0F40
  | .pool => bad stCtxFull 0x0F41

/-- A new context of a pitch: zeroed, current, of a kind (R104). -/
def newContext (p : BitVec 8) (kind : BitVec 16) (d : CtxData) : Context :=
  { owner := p, stale := .current, kind := kind, data := d }

/-- The 16-bit ID of a context of this part. -/
def ctxId (s : State) (i : Nat) : BitVec 16 := (s.links.part.setWidth 16 <<< 14) ||| BitVec.ofNat 16 i

/-- The UP peers from a part number on, in ascending order, as links. -/
def upPeersFrom (s : State) (n : Nat) : List (BitVec 2) :=
  ((List.range 4).filter (fun m => decide (n ≤ m))).filterMap (fun m => linkOfPart s (BitVec.ofNat 2 m))

/-- CTX_ALLOC's grant on this part, or on the first UP peer, or refused (R439). -/
def ctxAllocRun (s : State) (x : Job) : Ran :=
  let n := (bits x.desc.param 0 7).toNat
  if n = 0 then { state := s, out := some (outOf stNoOutput 0) }
  else match ctxGrantBad s x.pitch n with
    | some b => match (if x.id.src = 0 then upPeersFrom s 0 else []) with
      | [] => { state := s, out := some (outOf b.status b.detail) }
      | k :: _ => { state := forwardJob s { x with refusal := some (b.status, b.detail) } k, out := none }
    | none =>
      let (is, s) := takeContexts n s
      let t := is.foldl (fun t i => t.setCtx (BitVec.ofNat 14 i) (some (newContext x.pitch 0 .empty))) s
      { state := t.setJob { x with fresh := is.map (BitVec.ofNat 14) },
        out := some { outOf stOk 0 with output := is.flatMap (fun i => wordBytes 2 (ctxId s i)) } }

def ctxAllocSpec : OpSpec :=
  { code := 0x0F20,
    uses := fun _ => { param := 0x7F, out := true },
    fields := fun _ x => badWhen (decide (64 < (bits x.desc.param 0 7).toNat)) (badField 0x0F3B),
    lengths := fun _ x => badWhen (decide (x.desc.outLen.toNat < 2 * (bits x.desc.param 0 7).toNat)) (bad stLengthShort 0),
    run := ctxAllocRun }


/-- CTX_FREE's check of the context: its owner alone (R104), its kind, and that no job uses it. -/
def ctxFreeBad (s : State) (x : Job) : Option Bad :=
  match s.ctx (ctxIndex x.desc) with
  | none => ctxGone s x
  | some c =>
    if c.owner ≠ x.pitch then badField 0x0007
    else if isFlow c then badField 0x0F43
    else badWhen (ctxInUse s x (ctxIndex x.desc)) (badField 0x0F42)

def ctxFreeSpec : OpSpec :=
  { code := 0x0F21,
    uses := fun _ => { ctx := true },
    ctx := ctxFreeBad,
    run := fun s x => { state := freeContext s (ctxIndex x.desc), out := some (outOf stOk 0) } }

def execCtxAlloc (j : JobId) (s : State) : Host.Outcome State Fault Refusal := act s (startJob ctxAllocSpec j s)

def execCtxFree (j : JobId) (s : State) : Host.Outcome State Fault Refusal := act s (startJob ctxFreeSpec j s)

/-! ### Migration (R114 to R117) -/

/-- The pitch that a migration opcode names. -/
def migPitch (d : Desc) : BitVec 8 := d.param.setWidth 8

/-- What the migration key must be (R114, R342). -/
def migKeyNeed : KeyNeed := { typ := fun t => t == 1, set := fun _ => true, usage := some 11 }

/-- The kind that a blob gives a context: an HSCACHE or an MCEPK is carried as one of no kind (R206, R242). -/
def sentKind (c : Context) : BitVec 16 := if c.kind = 0x0601 ∨ c.kind = 0x0801 then 0 else c.kind

/-- The 1,024 bytes of a context (R115, R206, R242). -/
def contextBytes (c : Context) : Bytes :=
  match c.data with
  | .bytes b => if sentKind c = 0 then zeros 1024 else fit 1024 b
  | _ => zeros 1024

/-- A context from its bytes. -/
def contextOf (p : BitVec 8) (kind : BitVec 16) (b : Bytes) : Context :=
  newContext p kind (if kind = 0 ∧ allZero b then .empty else .bytes b)

/-- The crates assigned to a pitch. -/
def cratesOf (s : State) (p : BitVec 8) : List Nat :=
  Tab.keysWhere (fun _ c => match c with
    | some c => c.pitch == p
    | none => false) s.crates.held

/-- The keys of a pitch that may leave the part, by slot, and the number of those that may not. -/
def migKeys (s : State) (p : BitVec 8) : List (BitVec 13 × Key) × Nat :=
  let ks := (keysOf s p).filterMap (fun n => (wholeKey s n).map (fun k => (n, k)))
  (ks.filter (fun e => e.2.migratable), (ks.filter (fun e => !e.2.migratable)).length)

/-- PT_CFG's word of a pitch's state record (R115): WEIGHT, QUEUE_LIMIT, MIG_MODE. -/
def ptCfgWord (c : PitchCfg) : BitVec 32 := at32 0 c.weight ||| at32 8 c.queueLimit ||| at32 15 (flag 1 c.migMode)

/-- PT_CEIL. -/
def ptCeilWord (c : PitchCfg) : BitVec 32 := at32 0 c.ctxCeiling ||| at32 16 c.cellCeiling

/-- The state record (R115). -/
def stateRecord (c : PitchCfg) : Bytes :=
  fit 64 (wordBytes 4 (ptCfgWord c) ++ wordBytes 4 (ptCeilWord c) ++ wordBytes 4 (at32 0 c.crateCeiling))

/-- The length of a pitch's blob (R115). -/
def blobLen (s : State) (p : BitVec 8) : Nat :=
  64 + 64 + 1032 * (plainContexts s p).length + ((migKeys s p).1.map (fun e => 4 + 128 + e.2.value.length)).sum +
  4104 * (cratesOf s p).length + 16

/-- The key of a blob's GCM (R115). -/
def blobKey (mig : Bytes) (id : Bytes) : Bytes := kmac256 mig (ascii "CQX18-PITCH-EXPORT") 32 id

/-- The header of a blob (R115). -/
def blobHeader (s : State) (p : BitVec 8) (id nonce : Bytes) : Bytes :=
  ascii "CQPX" ++ [1, 0, s.dev.epoch.setWidth 8, p] ++ wordBytes 8 s.dev.uid ++ fit 8 id ++ leBytes 4 (blobLen s p) ++
  leBytes 2 (plainContexts s p).length ++ leBytes 2 (migKeys s p).1.length ++ leBytes 2 (cratesOf s p).length ++
  [s.links.part.setWidth 8] ++ zeros 5 ++ fit 12 nonce ++ zeros 12

/-- A migratable key wrapped into a blob, with a nonce drawn for it (R115, R350). -/
def exportKeys (s : State) (mig : Bytes) (id : Bytes) : List (BitVec 13 × Key) → State × Bytes
  | [] => (s, [])
  | (n, k) :: t =>
    let (nonce, s1) := draw s 0 12
    let r := wrapRecord 3 mig (BitVec.ofNat 64 (leNat id)) (keyHeader (mkHandle s n k.pitch) k) nonce k.value
    let (s2, rest) := exportKeys s1 mig id t
    (s2, leBytes 4 r.length ++ r ++ rest)

/-- Persistent keys with migration usage marked MIGRATED on the non-volatile die (R117), or the mark taken back. -/
def markMigrated (p : BitVec 8) (m : Bool) (s : State) : State :=
  { s with nv := { s.nv with keys := s.nv.keys.map (fun e => match e.2 with
      | some r => if r.pitch = p ∧ r.shell.migratable then (e.1, some { r with migrated := m }) else e
      | none => e) } }

/-- PITCH_EXPORT's run: the blob, and the pitch's state destroyed when the record is written (R114, R117). -/
def pitchExportRun (s : State) (x : Job) : Ran :=
  let p := migPitch x.desc
  let mig := ((keyOf s x.desc.keyHandle).map (·.value)).getD []
  let (id, s) := draw s 0 8
  let (nonce, s) := draw s 0 12
  let (ks, excluded) := migKeys s p
  let header := blobHeader s p id nonce
  let ctxs := (plainContexts s p).flatMap (fun i => match s.ctx i with
    | some c => leBytes 2 i.toNat ++ wordBytes 2 (sentKind c) ++ zeros 4 ++ contextBytes c
    | none => [])
  let crates := (cratesOf s p).flatMap (fun n => match s.crate n with
    | some c => leBytes 2 n ++ [c.flag] ++ zeros 5 ++ readCrates s (4096 * n) 4096
    | none => [])
  let (s, keys) := exportKeys s mig id ks
  let plain := stateRecord (s.pitch p).cfg ++ ctxs ++ keys ++ crates
  let key := blobKey mig id
  let c := gcmCrypt key nonce plain
  { state := markMigrated p true s,
    out := some { outOf stOk 0 (BitVec.ofNat 64 (leNat id)) with output := header ++ c ++ gcmTag key nonce header c },
    commits := [.exported p (BitVec.ofNat 16 excluded)] }

/-- PITCH_EXPORT's own refusals (R114), NOT_FROZEN and FLOWS_HELD. R114 does not say where they stand among the checks of R71: this model
gives them with the fields, after check 7 and before check 8 (DESIGN CHOICE, log 66). -/
def pitchExportBad (s : State) (x : Job) : Option Bad :=
  let p := migPitch x.desc
  if (s.pitch p).state ≠ .frozen then badField 0x0F46
  else badWhen (s.contexts.any (fun e => match e.2 with
    | some c => c.owner == p && isFlow c
    | none => false)) (badField 0x0F47)

/-- PITCH_EXPORT's LENGTH_SHORT, with the blob's length (R114). -/
def pitchExportShort (s : State) (x : Job) : Option Bad :=
  let n := blobLen s (migPitch x.desc)
  badWhen (decide (x.desc.outLen.toNat < n)) (some { status := stLengthShort, detail := 0, result := BitVec.ofNat 64 n })

/-- PITCH_EXPORT (R114). An export that waited for random bytes is judged again when it starts: its pitch must still be FROZEN, without a
flow, and its blob still fit. -/
def pitchExportSpec : OpSpec :=
  { code := 0x0F24, admin := true,
    uses := fun _ => { param := 0xFF, key := true, out := true },
    fields := pitchExportBad,
    keys := fun s x => keyCheck s x.pitch x.desc.keyHandle migKeyNeed,
    lengths := pitchExportShort,
    judge := fun s x => firstBad [pitchExportBad s x, pitchExportShort s x],
    draws := fun _ _ => .call,
    run := pitchExportRun }

/-- The records of a blob: what is left of the plaintext, and what has been read. -/
structure BlobParts where
  rest : Bytes
  ctxs : List (BitVec 14 × BitVec 16 × Bytes)
  keys : List Bytes
  crates : List (Nat × BitVec 8 × Bytes)

/-- Context records. -/
def blobContexts : Nat → BlobParts → BlobParts
  | 0, b => b
  | n + 1, b =>
    let r := b.rest.take 1032
    blobContexts n { b with rest := b.rest.drop 1032,
                            ctxs := b.ctxs ++ [(fieldAt 14 r 0 2, fieldAt 16 r 2 2, r.drop 8)] }

/-- Key records. -/
def blobKeys : Nat → BlobParts → BlobParts
  | 0, b => b
  | n + 1, b =>
    let len := (fieldAt 32 b.rest 0 4).toNat
    blobKeys n { b with rest := b.rest.drop (4 + len), keys := b.keys ++ [slice b.rest 4 len] }

/-- Crate records. -/
def blobCrates : Nat → BlobParts → BlobParts
  | 0, b => b
  | n + 1, b =>
    let r := b.rest.take 4104
    blobCrates n { b with rest := b.rest.drop 4104,
                          crates := b.crates ++ [((fieldAt 16 r 0 2).toNat, fieldAt 8 r 2 1, r.drop 8)] }

/-- A pitch is empty for an import (check 7 of R116). -/
def pitchEmpty (s : State) (p : BitVec 8) : Bool :=
  (s.pitch p).state == .active && !pitchBusy s p &&
  !s.contexts.any (fun e => match e.2 with | some c => c.owner == p | none => false) &&
  !s.vault.slots.any (fun e => match e.2 with
    | .key k => k.pitch == p
    | .unloaded k => k.pitch == p
    | _ => false)

/-- A slot is in use or held (check 10 of R116). -/
def slotTaken (s : State) (n : BitVec 13) : Bool := s.slot n != .free

/-- The blocks that the persistent keys of a blob take (R348). -/
def importBlocks (b : BlobParts) : Nat :=
  (b.keys.map (fun r =>
    let k := keyOfHeader (recordHeader r) (zeros (r.length - 128))
    if k.persist then blocksOf k.value.length false else 0)).sum

/-- The checks of R116 that need the plaintext, in order. The quotas of check 10 are those of R343 and R348. -/
def importBad (s : State) (p : BitVec 8) (b : BlobParts) : Option Bad :=
  let keySlot (r : Bytes) : BitVec 13 := handleSlot (fieldAt 32 (recordHeader r) 4 4)
  let cells := (b.keys.map (fun r => (fieldAt 8 (recordHeader r) 0x0A 1).toNat)).sum
  match b.ctxs.find? (fun c => (s.ctx c.1).isSome) with
  | some c => some { status := stCtxFull, detail := 0x0F49, result := c.1.setWidth 64 }
  | none => match ctxGrantBad s p b.ctxs.length with
    | some x => if b.ctxs.isEmpty then none else some x
    | none =>
      if b.keys.any (fun r => slotTaken s (keySlot r)) then badField 0x0F50
      else match (if b.keys.isEmpty then .granted else grant s .cells p cells) with
        | .ceiling => bad stCtxFull 0x0B40
        | .pool => bad stCtxFull 0x0B41
        | .granted =>
          if 0 < importBlocks b ∧ 8064 < blocksSpoken s + importBlocks b then bad stCtxFull 0x0B42
          else badWhen (b.crates.any (fun c => match s.crate c.1 with
            | some x => x.pitch != p || x.flag != 0
            | none => true)) (badField 0x0F4C)

/-- A key of a blob with its handle, from its record and its value. -/
def blobKeyOf (p : BitVec 8) (e : Bytes × Bytes) : BitVec 32 × Key :=
  (fieldAt 32 (recordHeader e.1) 4 4, { keyOfHeader (recordHeader e.1) e.2 with pitch := p })

/-- The state record's values, each capped at the plan's (R116). -/
def cappedCfg (s : State) (p : BitVec 8) (r : Bytes) : PitchCfg :=
  let l := pitchPlan s p
  let w := fieldAt 32 r 0 4
  let c := fieldAt 32 r 4 4
  { (s.pitch p).cfg with
              weight := BitVec.ofNat 8 (min (bits w 0 8).toNat l.weight.toNat),
              queueLimit := BitVec.ofNat 7 (min (bits w 8 7).toNat l.queueMax.toNat), migMode := bit w 15,
              ctxCeiling := BitVec.ofNat 15 (min (bits c 0 15).toNat l.ctxCeiling.toNat),
              cellCeiling := BitVec.ofNat 14 (min (bits c 16 14).toNat l.cellCeiling.toNat),
              crateCeiling := BitVec.ofNat 12 (min (fieldAt 12 r 8 2).toNat l.crateCeiling.toNat) }

/-- The places of a blob taken for its job: the contexts at their indices, the slots reserved (R116). -/
def takePlaces (s : State) (x : Job) (p : BitVec 8) (ctxs : List (BitVec 14 × BitVec 16 × Bytes)) (keys : List (BitVec 32 × Key)) : State :=
  let s := ctxs.foldl (fun s c => s.setCtx c.1 (some (contextOf p c.2.1 c.2.2))) s
  let s := keys.foldl (fun s e => reserveSlot s (handleSlot e.1) p e.2.cells.toNat) s
  s.setJob { x with fresh := ctxs.map (·.1), reserved := keys.map (fun e => handleSlot e.1) }

/-- PITCH_IMPORT's run: the checks of R116 in order, then the journal opened and the blob's places taken; its record, with OK, closes the
journal and places the rest (R117). -/
def pitchImportRun (s : State) (x : Job) : Ran :=
  let p := migPitch x.desc
  let blob := jobInput s x
  let mig := ((keyOf s x.desc.keyHandle).map (·.value)).getD []
  let no (st d : BitVec 16) (r : BitVec 64 := 0) : Ran := { state := s, out := some (outOf st d r) }
  if blob.length < 144 ∨ (fieldAt 32 blob 0x18 4).toNat ≠ blob.length then no stBadLength 0x0F4D
  else
    let header := blob.take 64
    let id := slice header 0x10 8
    let idw : BitVec 64 := fieldAt 64 header 0x10 8
    if header.take 4 ≠ ascii "CQPX" ∨ fieldAt 16 header 4 2 ≠ 1 ∨ allZero (slice header 0x23 5) = false ∨
       allZero (slice header 0x34 12) = false then no stBadField 0x0F52
    else
      let key := blobKey mig id
      let nonce := slice header 0x28 12
      let c := slice blob 64 (blob.length - 80)
      if gcmTag key nonce header c ≠ blob.drop (blob.length - 16) then no stBadField 0x0F4E
      else if s.nv.exportIds.contains idw then no stBadField 0x0F4F
      else if fieldAt 8 header 7 1 ≠ p then no stBadField 0x0F4B
      else if fieldAt 8 header 0x22 1 ≠ s.links.part.setWidth 8 then no stBadField 0x0F4A
      else if pitchEmpty s p = false then no stBadField 0x0F48
      else
        let plain := gcmCrypt key nonce c
        let b := blobCrates (fieldAt 16 header 0x20 2).toNat (blobKeys (fieldAt 16 header 0x1E 2).toNat
          (blobContexts (fieldAt 16 header 0x1C 2).toNat { rest := plain.drop 64, ctxs := [], keys := [], crates := [] }))
        match importBad s p b with
        | some e => no e.status e.detail e.result
        | none =>
          let values := b.keys.map (fun r => (unwrapRecord 3 mig r).getD [])
          let keys := (b.keys.zip values).map (blobKeyOf p)
          let s := { s with nv := { s.nv with importOpen := some (idw, p) } }
          { state := takePlaces s x p b.ctxs keys, out := some (outOf stOk 0 idw),
            commits := [.imported p idw (cappedCfg s p (plain.take 64)) keys b.crates] }

def pitchImportSpec : OpSpec :=
  { code := 0x0F25, admin := true,
    uses := fun _ => { param := 0xFF, key := true, inp := true },
    keys := fun s x => keyCheck s x.pitch x.desc.keyHandle migKeyNeed,
    run := pitchImportRun }

def execPitchExport (j : JobId) (s : State) : Host.Outcome State Fault Refusal := act s (startJob pitchExportSpec j s)

def execPitchImport (j : JobId) (s : State) : Host.Outcome State Fault Refusal := act s (startJob pitchImportSpec j s)

end Sys2Proof.Machine
end

