-- ==== Sys2Proof/Machine/Flows.lean ====
section
/-! DEFINITION. The flow opcodes (R295, R297 to R300, R306, R443) and STREAM_SEND (R290, R311, R312). -/
namespace Sys2Proof.Machine

/-! ### Flow keys (R295) -/

/-- Two ports' masks overlap; under PRP both LANs are used. -/
def portsMeet (prp : Bool) (a b : BitVec 2) : Bool := prp || (a &&& b) != 0

/-- Two ingress flows have one flow key (R295). -/
def sameFlowKey (prp : Bool) (a b : FlowRec) : Bool :=
  a.kind == b.kind &&
  (if a.kind == 1 || a.kind == 2 then
      a.tagged == b.tagged && a.vid == b.vid && a.appid == b.appid && a.dstMac == b.dstMac && a.srcMac == b.srcMac &&
      portsMeet prp a.ports b.ports
   else a.ipVer == b.ipVer && a.srcIp == b.srcIp && a.dstIp == b.dstIp)

/-- An ingress flow of the part holds a record's flow key. -/
def keyTaken (s : State) (r : FlowRec) : Bool := someFlow (fun f => !f.record.egress && sameFlowKey s.stream.cfg.prp f.record r) s

/-! ### Checks (R298) -/

/-- The pitches that may issue flow opcodes. -/
def flowPitchBad (s : State) (x : Job) : Option Bad := badWhen (!bit s.stream.flowPitches x.pitch.toNat) (bad stBadOpcode 0x0C64)

/-- A flow opcode's context: owned by the pitch (check 9 of R71), a flow's, and current but for FLOW_DELETE. -/
def flowCtxBad (staleToo : Bool) (s : State) (x : Job) : Option Bad :=
  match s.ctx (ctxIndex x.desc) with
  | none => ctxGone s x
  | some c =>
    if c.owner ≠ x.pitch then badField 0x0007
    else if isFlow c = false then badField 0x0C66
    else if staleToo then none
    else match c.stale with
      | .current => none
      | .oldEpoch => bad stCtxStale 0x0F45
      | .damaged => bad stCtxStale 0x0F44

/-- The opcodes that act on flows, which the part takes in the order of their acceptance (R319). -/
def flowOpcode (c : BitVec 16) : Bool := [0x0C01, 0x0C02, 0x0C03, 0x0C04, 0x0C05, 0x0C07].contains c.toNat

def flowBusy (s : State) (x : Job) : Bool := earlierAccepted (fun y => flowOpcode y.desc.opcode && y.forwarded.isNone) s x

/-- A key suits an entry's algorithm: a SECRET of its length with MAC usage. -/
def entryKeyOk (alg : BitVec 8) (k : Key) : Bool :=
  k.typ == 1 && bit k.usage 6 &&
  (if isGmac alg.toNat then k.value.length == 16 || k.value.length == 32
   else decide (16 ≤ k.value.length ∧ k.value.length ≤ 64))

/-- A non-empty entry's key: the steps of check 11 of R71, then the entry's own (check 4 of FLOW_CREATE). -/
def entryKeyBad (s : State) (p : BitVec 8) (e : FlowEntry) : Option Bad :=
  if e.handle = 0 then none
  else if handlePart e.handle ≠ s.links.part then bad stKeyAbsent 0x0B01
  else match keyCheck s p e.handle { typ := fun _ => true, set := fun _ => true, usage := none } with
    | some b => some b
    | none => match keyOf s e.handle with
      | some k => badWhen (!entryKeyOk e.alg k) (bad stKeyPolicy 0x0C6A)
      | none => bad stKeyAbsent 0x0B03

/-- The queue of an ingress flow is not assigned to the pitch. -/
def flowDqBad (s : State) (p : BitVec 8) (r : FlowRec) : Option Bad :=
  badWhen (!r.egress && (s.dq (r.dq.setWidth 8)).cfg.pitch != p) (badField 0x0C63)

/-- The key material prepared from an entry (R306), held as the key itself (log 30). -/
def prepared (s : State) (e : FlowEntry) : Bytes := if e.handle = 0 then [] else ((keyOf s e.handle).map (·.value)).getD []

/-- The kind is among those of the plan (R44). -/
def kindPlanned (s : State) (k : BitVec 8) : Bool :=
  match s.plan.inForce with
  | some p => bit p.frameKinds (k.toNat - 1)
  | none => false

/-- A layer-2 egress flow draws the fixed part of its GMAC IVs at its creation (R312), whatever its entries hold then. -/
def needsIv (r : FlowRec) : Bool := r.egress && (r.kind == 1 || r.kind == 2)

/-! ### FLOW_CREATE -/

/-- The checks of FLOW_CREATE, in order. -/
def createJudge (s : State) (x : Job) : Option Bad :=
  let b := jobInput s x
  let r := flowRecOf b
  firstBad
    [ badWhen (flowRecBad b) (badField 0x0C60), badWhen (!kindPlanned s r.kind) (badField 0x0C62), flowDqBad s x.pitch r,
      entryKeyBad s x.pitch r.a, entryKeyBad s x.pitch r.b,
      badWhen (!r.egress && keyTaken s r) (badField 0x0C61), ctxGrantBad s x.pitch 1 ]

/-- FLOW_CREATE draws an IV. -/
def recordNeedsIv (s : State) (x : Job) : Bool := needsIv (flowRecOf (jobInput s x))

/-- The STREAM stalls of the plan in force, in service or not. -/
def streamPlanned (s : State) : List Nat :=
  match s.plan.inForce with
  | none => []
  | some pl => (List.range 32).filter (fun n => pl.stalls.any (fun e => e.stall.toNat == n && e.role == .stream))

/-- The STREAM stall that a new flow is bound to (R300); with none in service, which only a standby's creation can meet (R316, R443), one
of the plan's, and its frames are dropped (DEDUCED, log 55). -/
def flowStall (s : State) : BitVec 8 :=
  let live := stallsOf s .stream
  BitVec.ofNat 8 ((leastBy (flowsOn s) (if live.isEmpty then streamPlanned s else live)).getD 0)

/-- A flow placed in a free context, which goes back if its job ends otherwise. -/
def placeFlow (s : State) (x : Job) (f : Flow) : State × Nat :=
  let (is, s) := takeContexts 1 s
  let i := is.headD 0
  let s := s.setCtx (BitVec.ofNat 14 i) (some (newContext x.pitch 0x0C01 (.flow f)))
  (s.setJob { x with fresh := [BitVec.ofNat 14 i] }, i)

def createRun (s : State) (x : Job) : Ran :=
  let r := flowRecOf (jobInput s x)
  let (iv, s) := if recordNeedsIv s x then draw s x.pitch 4 else ([], s)
  let stall := flowStall s
  let (s, i) := placeFlow s x (flowInit r stall (prepared s r.a) (prepared s r.b) iv)
  { state := s, out := some (outOf stOk 0 (at64 0 (ctxId s i) ||| at64 16 (bits stall 0 5 : BitVec 5))) }

def flowCreateSpec : OpSpec :=
  { code := 0x0C01,
    own3 := flowPitchBad,
    uses := fun _ => { inp := true },
    lengths := fun _ x => badWhen (x.desc.inLen != 128) (badLength 0x0C65),
    masked := fun s x => let r := flowRecOf (jobInput s x)
      r.a.handle != 0 || r.b.handle != 0,
    draws := fun s x => if recordNeedsIv s x then .call else .nothing,
    blocked := flowBusy,
    judge := createJudge,
    run := createRun }

/-! ### FLOW_DELETE, FLOW_KEY, FLOW_SET, FLOW_RESYNC, FLOW_READ -/

/-- A job whose change of its flow is made at its completion (R27, R298). -/
def flowOpRun (op : FlowOp) (s : State) (x : Job) : Ran :=
  { state := s, out := some (outOf stOk 0), commits := [.flowOp (ctxIndex x.desc) op] }

def flowDeleteSpec : OpSpec :=
  { code := 0x0C02,
    own3 := flowPitchBad,
    uses := fun _ => { ctx := true },
    ctx := flowCtxBad true,
    blocked := flowBusy,
    judge := flowCtxBad true,
    run := flowOpRun .delete }

/-- A change of a flow that reaches its standby wraps the flow's keys for the link, each with a NONCE (R350, R443). -/
def mirrorDraw (s : State) (x : Job) : Draw :=
  match (s.flow (ctxIndex x.desc)).bind (·.standbyAt) with
  | some part => if (linkOfPart s part).isSome then .call else .nothing
  | none => .nothing

/-- The entry that FLOW_KEY writes. -/
def newEntry (s : State) (x : Job) : FlowEntry :=
  if x.desc.keyHandle = 0 then flowEntryInit else flowEntryOf (wordBytes 4 x.desc.keyHandle ++ jobInput s x)

def flowKeyB (d : Desc) : Bool := bit d.param 0
def flowActivate (d : Desc) : Bool := bit d.param 1

def flowKeyJudge (s : State) (x : Job) : Option Bad :=
  match s.flow (ctxIndex x.desc) with
  | none => flowCtxBad false s x
  | some f =>
    firstBad
      [ flowCtxBad false s x,
        badWhen (flowActivate x.desc && !f.record.egress) (badField 0x0C67),
        badWhen (x.desc.keyHandle != 0 && flowEntryBad f.record.egress (wordBytes 4 x.desc.keyHandle ++ jobInput s x)) (badField 0x0C60),
        entryKeyBad s x.pitch (newEntry s x) ]

def flowKeyRun (s : State) (x : Job) : Ran :=
  let e := newEntry s x
  flowOpRun (.key (flowKeyB x.desc) e (prepared s e) (flowActivate x.desc)) s x

def flowKeySpec : OpSpec :=
  { code := 0x0C03,
    own3 := flowPitchBad,
    uses := fun _ => { param := 3, ctx := true, key := true, inp := true },
    ctx := flowCtxBad false,
    keys := fun s x => if x.desc.keyHandle = 0 then none
      else keyCheck s x.pitch x.desc.keyHandle { typ := fun _ => true, set := fun _ => true, usage := none },
    lengths := fun _ x => badWhen (x.desc.inLen != (if x.desc.keyHandle = 0 then 0 else 12)) (badLength 0x0C65),
    masked := fun _ x => x.desc.keyHandle != 0,
    draws := mirrorDraw,
    blocked := flowBusy,
    judge := flowKeyJudge,
    run := flowKeyRun }

/-- FLOW_SET's record: its own rules, its queue, and that nothing but the mutable fields differs from what is in force. -/
def flowSetJudge (s : State) (x : Job) : Option Bad :=
  let b := jobInput s x
  let r := flowRecOf b
  match s.flow (ctxIndex x.desc) with
  | none => flowCtxBad false s x
  | some f =>
    firstBad
      [ flowCtxBad false s x,
        badWhen (flowRecBad b || (setMutable r f).record != r) (badField 0x0C60),
        flowDqBad s x.pitch r ]

def flowSetSpec : OpSpec :=
  { code := 0x0C04,
    own3 := flowPitchBad,
    uses := fun _ => { ctx := true, inp := true },
    ctx := flowCtxBad false,
    lengths := fun _ x => badWhen (x.desc.inLen != 128) (badLength 0x0C65),
    draws := mirrorDraw,
    blocked := flowBusy,
    judge := flowSetJudge,
    run := fun s x => flowOpRun (.set (flowRecOf (jobInput s x))) s x }

def flowResyncSpec : OpSpec :=
  { code := 0x0C05,
    own3 := flowPitchBad,
    uses := fun _ => { ctx := true },
    ctx := flowCtxBad false,
    blocked := flowBusy,
    judge := flowCtxBad false,
    run := flowOpRun .resync }

def flowReadSpec : OpSpec :=
  { code := 0x0C06,
    own3 := flowPitchBad,
    uses := fun _ => { ctx := true, out := true },
    ctx := flowCtxBad false,
    lengths := fun _ x => badWhen (decide (x.desc.outLen.toNat < 192)) (bad stLengthShort 0),
    judge := flowCtxBad false,
    run := fun s x => match s.flow (ctxIndex x.desc) with
      | some f => { state := s, out := some { outOf stOk 0 with output := flowImage s.clock.us f } }
      | none => { state := s, out := some (outOf stBadField 0x0C66) } }

/-! ### FLOW_STANDBY (R443) -/

/-- A standby cannot be made here: the home is this part or not UP, or the part has no STREAM stall (R443). One whose plan gives it STREAM
stalls has them, though none be left in service: FLOW_STANDBY then goes on acting (R316; DEDUCED, log 55). -/
def standbyBad (s : State) (x : Job) : Option Bad :=
  badWhen ((linkOfPart s (ctxPart x.desc)).isNone || (streamPlanned s).isEmpty) (badField 0x0C6D)

/-- The delivery queue that PARAM names on the buddy. -/
def standbyDq (d : Desc) : BitVec 8 := d.param.setWidth 8

/-- The buddy asks the home for the flow, with a context at hand; the job goes on with the home's answer. -/
def standbyRun (s : State) (x : Job) : Ran :=
  let (is, s) := takeContexts 1 s
  let i := is.headD 0
  let s := s.setCtx (BitVec.ofNat 14 i) (some (newContext x.pitch 0x0C01 .empty))
  let s := s.setJob { x with fresh := [BitVec.ofNat 14 i] }
  { state := flowMsg s (ctxPart x.desc) 0 (ctxIndex x.desc) [x.pitch], out := none }

def flowStandbySpec : OpSpec :=
  { code := 0x0C07,
    own3 := flowPitchBad,
    uses := fun _ => { param := 0xFF, ctx := true, stays := true },
    ctx := standbyBad,
    blocked := flowBusy,
    judge := fun s x => firstBad
      [ standbyBad s x, badWhen ((s.dq (standbyDq x.desc)).cfg.pitch != x.pitch) (badField 0x0C63), ctxGrantBad s x.pitch 1 ],
    run := standbyRun }

/-! ### STREAM_SEND (R311, R312) -/

/-- A raw frame: CONTEXT_ID is 0. -/
def rawSend (d : Desc) : Bool := d.contextId == 0

/-- A frame matches an egress flow and parses (R311). -/
def sendMatches (r : FlowRec) (f : Bytes) : Bool :=
  let h := headOf f
  BitVec.ofNat 8 h.kind == r.kind &&
  (match h.sort with
   | .layer2 =>
     decide (h.body + 8 ≤ f.length) && BitVec.ofNat 16 h.appid == r.appid && h.dstMac == r.dstMac && h.srcMac == r.srcMac &&
     (withCounts h.kind (f.drop (h.body + 8)) parsedNone).late.isNone
   | .routed =>
     let u := f.drop (h.body + 8)
     BitVec.ofNat 8 h.ipVer == r.ipVer && h.srcIp == r.srcIp && h.dstIp == r.dstIp && decide (30 ≤ u.length) &&
     beAt u 2 1 == 0x80 && beAt u 3 1 == commonLen && beAt u 12 2 == 2 && beAt u 20 1 == 0 && beAt u 26 4 + 30 == u.length
   | .other => false)

/-- The entry that tags: the one last written with ACTIVATE, while it is not empty. -/
def activeEntryOf (f : Flow) : Option (FlowEntry × Bytes) :=
  match f.activeEntry with
  | some true => if f.record.b.handle = 0 then none else some (f.record.b, f.keyB)
  | some false => if f.record.a.handle = 0 then none else some (f.record.a, f.keyA)
  | none => none

/-- A layer-2 frame with its extension (R292, R312): the count of the flow's frames counts this one. -/
def tagLayer2 (fl : Flow) (e : FlowEntry) (key f : Bytes) : Bytes :=
  let p := (headOf f).body
  let alg := e.alg.toNat
  let apdu := f.drop (p + 8)
  let iv := if isGmac alg then fit 4 fl.ivFixed ++ beBytes 8 (fl.sent + 1) else []
  let n := 14 + iv.length + (macLen alg).getD 0
  let r1 := beAt f (p + 4) 2 / 256 * 256 + n
  let front := f.take (p + 2) ++ beBytes 2 (8 + apdu.length + n) ++ beBytes 2 r1
  let r2 := if bit fl.record.flags 2 then headerCrc front p else slice f (p + 6) 2
  let ext := [0xAF#8, BitVec.ofNat 8 (n - 2)] ++ beBytes 4 e.timeOfKey.toNat ++ beBytes 2 e.timeToNext.toNat ++
    beBytes 4 e.keyId.toNat ++ [BitVec.ofNat 8 iv.length] ++ iv ++ [e.alg]
  let whole := front ++ r2 ++ apdu ++ ext
  whole ++ frameMac alg key iv (whole.drop p)

/-- The ones' complement checksum of a string. -/
def onesCheck (b : Bytes) : Bytes := beBytes 2 (65535 - onesSum b)

/-- Bytes of a frame replaced at an offset. -/
def patchAt (f : Bytes) (off : Nat) (b : Bytes) : Bytes := f.take off ++ b ++ f.drop (off + b.length)

/-- The IPv4 total length and header checksum written (R312). -/
def patchIp (h : Head) (f : Bytes) : Bytes :=
  if h.ipVer ≠ 4 then f
  else
    let ip := etherAt f + 2
    let n := 4 * (beAt f ip 1 % 16)
    let f := patchAt (patchAt f (ip + 2) (beBytes 2 (f.length - ip))) (ip + 10) [0, 0]
    patchAt f (ip + 10) (onesCheck (slice f ip n))

/-- The UDP length and checksum written (R312). -/
def patchUdp (h : Head) (f : Bytes) : Bytes :=
  let n := f.length - h.body
  let f := patchAt (patchAt f (h.body + 4) (beBytes 2 n)) (h.body + 6) [0, 0]
  let c := onesCheck (pseudoHeader h n ++ f.drop h.body)
  patchAt f (h.body + 6) (if beNat c = 0 then [0xFF, 0xFF] else c)

/-- A routed frame with its signature (R294, R312). -/
def tagRouted (fl : Flow) (e : FlowEntry) (key f : Bytes) : Bytes :=
  let h := headOf f
  let u := f.drop (h.body + 8)
  let alg := e.alg.toNat
  let m := (macLen alg).getD 0
  let payload := u.drop 30
  let head := u.take 1 ++ [BitVec.ofNat 8 (commonLen + 2)] ++ slice u 2 2 ++ beBytes 4 (24 + payload.length + m) ++
    beBytes 4 fl.spdu.toNat ++ slice u 12 2 ++ beBytes 4 e.timeOfKey.toNat ++ beBytes 2 e.timeToNext.toNat ++ slice u 20 1 ++
    [e.alg] ++ beBytes 4 e.keyId.toNat ++ slice u 26 4
  let body := head ++ payload
  let iv := if isGmac alg then routedIv body else []
  let session := body ++ [0x85#8, BitVec.ofNat 8 m] ++ frameMac alg key iv body
  patchUdp h (patchIp h (f.take (h.body + 8) ++ session))

/-- A frame tagged for an egress flow. -/
def tagFrame (fl : Flow) (e : FlowEntry) (key f : Bytes) : Bytes :=
  if (headOf f).sort = .routed then tagRouted fl e key f else tagLayer2 fl e key f

/-- The ports that a send goes to: both LANs under PRP. -/
def sendPorts (s : State) (d : Desc) (fl : Option Flow) : List Nat :=
  let m : BitVec 2 := match fl with
    | some f => f.record.ports
    | none => bits d.param 0 2
  (List.range 2).filter (fun p => s.stream.cfg.prp || bit m p)

/-- A port has its link. -/
def portUp (s : State) (p : Nat) : Bool := ((s.stream.ports[p]?).map (·.link)).getD false

/-- A counter of a port goes up (PB counters). -/
def countPort (c n : Nat) (p : Port) : Port := { p with counters := p.counters.modify c (fun v => satAdd v n) }

/-- A counter of a port of the part goes up by some number. -/
def countBy (port c n : Nat) (s : State) : State :=
  { s with stream := { s.stream with ports := s.stream.ports.modify port (countPort c n) } }

/-- A counter of a port of the part goes up. -/
def countAt (port c : Nat) (s : State) : State := countBy port c 1 s

/-- Bytes put into the egress buffer for a port. -/
def queueBytes (port n : Nat) (s : State) : State :=
  { s with stream := { s.stream with ports := s.stream.ports.modify port (fun p => { p with backlog := p.backlog + n }) } }

/-- A frame put into the egress buffer for a port, with its trailer under PRP and its FCS (R290, R312). Frames leave a port in the order in
which they are put there. -/
def emitFrame (f : Bytes) (s : State) (p : Nat) : State :=
  let f := if s.stream.cfg.prp then f ++ trailerFor f s.stream.egressSeq (10 + p) else f
  let f := f ++ fcs f
  queueBytes p f.length (countAt p 7 { s with out := .frame (BitVec.ofNat 1 p) f :: s.out })

/-- Bytes in the egress buffer. -/
def egressBytes (s : State) : Nat := (s.stream.ports.map (·.backlog)).sum

/-- The egress buffer (R41): units of 64 KiB under the plan. -/
def egressSize (s : State) : Nat := ((s.plan.inForce.map (fun p => p.egress.toNat)).getD 0) * 65536

/-- The egress buffer is full: a frame of the greatest length has no room in it for each port (R311; DESIGN CHOICE, log 55). -/
def egressFull (s : State) : Bool := decide (egressSize s < egressBytes s + 2 * 1528)

/-- A frame sent on ports; the sequence number counts it once (R290). -/
def emitAll (f : Bytes) (ps : List Nat) (s : State) : State :=
  let s := ps.foldl (emitFrame f) s
  if s.stream.cfg.prp then { s with stream := { s.stream with egressSeq := s.stream.egressSeq + 1 } } else s

/-- When the port's line is free for a next frame: what waits before it is sent first. -/
def lineTime (s : State) (port : Nat) : Stream :=
  let p := (s.stream.ports[port]?).getD Port.reset
  timeMoved (1000 * p.backlog / lineBytes p.cfg.rate : Nat) s.stream

/-- The transmit timestamp (R311): the time at which the frame's delimiter is sent. -/
def sendStamp (s : State) (port : Nat) : BitVec 64 :=
  let t := lineTime s port
  at64 0 t.timeNs ||| at64 30 (t.timeSec.setWidth 32) ||| at64 62 (BitVec.ofNat 2 port)

/-- A frame of some length goes out, or is refused for its length or for want of a link. -/
def sendOut (s : State) (x : Job) (fl : Option Flow) (f : Bytes) (sent : State → State) : Ran :=
  let ports := (sendPorts s x.desc fl).filter (portUp s)
  if 1528 < f.length + 4 + (if s.stream.cfg.prp then 6 else 0) then { state := s, out := some (outOf stBadLength 0x0C6C) }
  else match ports with
    | [] => { state := s, out := some (outOf stAborted 0x0C69) }
    | p :: _ => { state := sent (emitAll f ports s), out := some (outOf stOk 0 (sendStamp s p)) }

/-- A frame sent is counted in its flow (R299, R312). -/
def flowSent (i : BitVec 14) (s : State) : State :=
  changeFlow i (fun f => { f with sent := f.sent + 1, spdu := f.spdu + 1, pass := satAdd f.pass 1 }) s

def sendRun (s : State) (x : Job) : Ran :=
  let f := jobInput s x
  let i := ctxIndex x.desc
  if rawSend x.desc then sendOut s x none f (fun s => s)
  else match s.flow i with
    | none => { state := s, out := some (outOf stBadField 0x0C66) }
    | some fl =>
      if fl.record.egress = false then { state := s, out := some (outOf stBadField 0x0C67) }
      else if sendMatches fl.record f = false then { state := s, out := some (outOf stBadField 0x0C68) }
      else match activeEntryOf fl with
        | none => { state := s, out := some (outOf stKeyAbsent 0) }
        | some (e, key) =>
          if isGmac e.alg.toNat && (headOf f).sort == .layer2 && decide (2 ^ 64 - 1 ≤ fl.sent) then
            { state := s, out := some (outOf stExhausted 0) }
          else sendOut s x (some fl) (tagFrame fl e key f) (flowSent i)

/-- STREAM_SEND waits while the egress buffer is full (R311), while stream service is held (R332), and for the sends accepted before it: frames leave in the order in which
their jobs complete (R311). -/
def sendBusy (s : State) (x : Job) : Bool := egressFull s || s.rng.streamHeld || earlierAccepted (fun y => y.desc.opcode == 0x0C10 && y.forwarded.isNone) s x

def streamSendSpec : OpSpec :=
  { code := 0x0C10,
    own3 := fun s x => firstBad [badWhen (rawSend x.desc && x.pitch != 0) (bad stBadOpcode 0x0F0F), flowPitchBad s x],
    uses := fun d => { param := if rawSend d then 3 else 0, ctx := !rawSend d, inp := true },
    ctx := fun s x => if rawSend x.desc then none else flowCtxBad false s x,
    blocked := sendBusy,
    judge := fun s x => if rawSend x.desc then none else flowCtxBad false s x,
    run := sendRun }

def execFlowCreate (j : JobId) (s : State) : Host.Outcome State Fault Refusal := act s (startJob flowCreateSpec j s)

def execFlowDelete (j : JobId) (s : State) : Host.Outcome State Fault Refusal := act s (startJob flowDeleteSpec j s)

def execFlowKey (j : JobId) (s : State) : Host.Outcome State Fault Refusal := act s (startJob flowKeySpec j s)

def execFlowSet (j : JobId) (s : State) : Host.Outcome State Fault Refusal := act s (startJob flowSetSpec j s)

def execFlowResync (j : JobId) (s : State) : Host.Outcome State Fault Refusal := act s (startJob flowResyncSpec j s)

def execFlowRead (j : JobId) (s : State) : Host.Outcome State Fault Refusal := act s (startJob flowReadSpec j s)

def execFlowStandby (j : JobId) (s : State) : Host.Outcome State Fault Refusal := act s (startJob flowStandbySpec j s)

def execStreamSend (j : JobId) (s : State) : Host.Outcome State Fault Refusal := act s (startJob streamSendSpec j s)

end Sys2Proof.Machine
end

