-- ==== Sys2Proof/Machine/Images.lean ====
section
/-! DEFINITION. The signed images: the signature body, Stall Plans (R36 to R48), microcode patches (R134 to R136) and firmware
(R454, R455), and their banks (R49, R50). -/
namespace Sys2Proof.Machine

/-! ### The signature body (R46) -/

/-- The length of a signature body. -/
def sigBodyLen : Nat := 7424

/-- The two public keys of a body, as the signer key hash takes them. -/
def sigKeys (b : Bytes) : Bytes := slice b 0 2592 ++ slice b 0x0A20 97

/-- The signer key hash (R46). -/
def signerHash (keys : Bytes) : Bytes := sha384 keys

/-- The hash that boot ROM holds of one of Borsor's signers. -/
def romHash (k : Nat) : Bytes := signerHash (fit 2689 (Config.signerKeys k))

/-- Both signatures of a body verify over a message with a context string (R46). -/
def sigsVerify (s : State) (ctx : String) (msg body : Bytes) : Bool :=
  mldsaVerifies s algMlDsa87 (slice body 0 2592) (withContext ctx msg) (slice body 0x0A88 4627) &&
  verifies s algP384 (slice body 0x0A20 97) (sha384 msg) (slice body 0x1CA0 96)

/-- The padding of a body is zero. -/
def sigPadOk (b : Bytes) : Bool := allZero (slice b 0x0A81 7) && allZero (slice b 0x1C9B 5)

/-- The owner signers' hash registered at an index, and Borsor's Stall Plan signer at index 0 (R47). -/
def signerAt (s : State) (i : Nat) : Option Bytes :=
  if i = 0 then some (romHash 0) else if i ≤ 3 then (s.nv.signers[i - 1]?).getD none else none

/-! ### Sections of a plan (R37, R38) -/

/-- A section: its type and its body. -/
abbrev Section_ := Nat × Bytes

/-- The body length that R38 gives a type; none for an unknown type. -/
def sectionLen (t : Nat) (body : Bytes) : Option Nat :=
  let count := (fieldAt 16 body 0 2).toNat
  match t with
  | 1 => some (4 + 12 * count)
  | 2 => some 8
  | 3 => some 8
  | 4 => some (4 + 32 * count)
  | 5 => some 8
  | 6 => some (4 + 4 * count)
  | 7 => some 8
  | 0xFF => some sigBodyLen
  | _ => none

/-- The sections of a plan from their bytes; none where R37 or R38 is broken. -/
def planSections : Nat → Nat → Bytes → Option (List Section_)
  | _, _, [] => some []
  | 0, _, _ => none
  | n + 1, last, b =>
    let t := (fieldAt 16 b 0 2).toNat
    let len := (fieldAt 32 b 4 4).toNat
    let padded := (len + 7) / 8 * 8
    let body := slice b 8 len
    if b.length < 8 + padded ∨ t ≤ last ∨ fieldAt 16 b 2 2 ≠ 0 ∨ allZero (slice b (8 + len) (padded - len)) = false ∨
       len < 4 ∨ sectionLen t body ≠ some len then none
    else (planSections n t (b.drop (8 + padded))).map (fun r => (t, body) :: r)

/-- The body of a section, if it is there. -/
def sectionOf (ss : List Section_) (t : Nat) : Option Bytes := (ss.find? (fun e => e.1 = t)).map (·.2)

/-- Entries of a size from a section's body, after its count. -/
def entriesOf (size : Nat) (b : Bytes) : List Bytes :=
  (List.range (fieldAt 16 b 0 2).toNat).map (fun i => slice b (4 + size * i) size)

/-- Framing (check 4 of R48): the sections, where their number agrees with SECTION_COUNT. -/
def planFrame (img : Bytes) : Option (List Section_) :=
  let count := (fieldAt 16 img 6 2).toNat
  match planSections 8 0 (img.drop 0x40) with
  | none => none
  | some ss => if ss.length = count ∧ 3 ≤ count ∧ count ≤ 8 then some ss else none

/-! ### A plan's content -/

/-- A role code (STALLS). -/
def roleOfCode (c : BitVec 8) : Option Role :=
  match c.toNat with
  | 1 => some .lattice
  | 2 => some .hashsig
  | 3 => some .stream
  | 4 => some .code
  | 5 => some .general
  | _ => none

/-- The STALLS section. -/
def planStalls (ss : List Section_) : List (BitVec 8 × BitVec 8 × BitVec 64) :=
  (entriesOf 12 ((sectionOf ss 1).getD [])).map (fun e => (fieldAt 8 e 0 1, fieldAt 8 e 1 1, fieldAt 64 e 4 8))

/-- The PITCHES section's entries. -/
def planPitches (ss : List Section_) : List Bytes := entriesOf 32 ((sectionOf ss 4).getD [])

/-- SPARES, or its absent default. -/
def planSpares (ss : List Section_) : Bytes := (sectionOf ss 2).getD [0, 1, 1, 2, 3, 4, 5, 0]

/-- MEMORY, or its absent default. -/
def planMemory (ss : List Section_) : Bytes := (sectionOf ss 3).getD [96, 0, 32, 0, 0, 0, 0, 0]

/-- PROCESS_BUS, or its absent default. -/
def planBus (ss : List Section_) : Bytes := (sectionOf ss 5).getD (zeros 8)

/-- ALARM_MAP's entries. -/
def planAlarms (ss : List Section_) : List Bytes := entriesOf 4 ((sectionOf ss 6).getD (zeros 4))

/-- ENTROPY, or the Balanced values. -/
def planEntropy (ss : List Section_) : Bytes := (sectionOf ss 7).getD [100, 0, 48, 12, 0, 0, 0, 0]

/-- Set bits of a mask. -/
def popCount (m : BitVec 64) : Nat := (tilesOf m).length

/-- No element of a list is repeated. -/
def distinct {α : Type} [BEq α] : List α → Bool
  | [] => true
  | a :: t => !t.contains a && distinct t

/-- Check 9 of R48: a reserved field that is not zero. -/
def planReserved (img : Bytes) (ss : List Section_) : Bool :=
  let z (b : Bytes) (o n : Nat) : Bool := allZero (slice b o n)
  let body (t : Nat) (f : Bytes → Bool) : Bool := ((sectionOf ss t).map f).getD true
  !(z img 0x12 6 && z img 0x30 16 &&
    body 1 (fun b => z b 2 2 && (entriesOf 12 b).all (fun e => z e 2 2)) &&
    body 2 (fun b => z b 7 1) && body 3 (fun b => z b 4 4) &&
    body 4 (fun b => z b 2 2 && (entriesOf 32 b).all (fun e => z e 0x10 16)) &&
    body 5 (fun b => z b 4 4) && body 6 (fun b => z b 2 2 && (entriesOf 4 b).all (fun e => z e 3 1)) &&
    body 7 (fun b => z b 5 3) && body 0xFF sigPadOk)

/-- Checks 10 to 14 of R48. -/
def planStallsBad (ss : List Section_) : Option (BitVec 16) :=
  let es := planStalls ss
  let sp := planSpares ss
  let byte (o : Nat) : Nat := (fieldAt 8 sp o 1).toNat
  if es.isEmpty ∨ 32 < es.length ∨ es.any (fun e => decide (31 < e.1.toNat)) ∨ distinct (es.map (·.1)) = false then
    some 0x0F18
  else if es.any (fun e => (roleOfCode e.2.1).isNone) then some 0x0F19
  else if es.any (fun e => popCount e.2.2 == 0 || decide (8 < popCount e.2.2)) then some 0x0F1A
  else if 64 < (es.map (fun e => popCount e.2.2)).sum ∨
      distinct (es.flatMap (fun e => tilesOf e.2.2)) = false then some 0x0F1B
  else if 1 < byte 0 ∨ byte 1 = 0 ∨ 8 < byte 1 ∨
      ([1, 2, 3, 4, 5].all (fun c => (slice sp 2 5).contains (BitVec.ofNat 8 c))) = false then some 0x0F24
  else none

/-- The entry of one pitch. -/
def pitchPlanOf (e : Bytes) : PitchPlan :=
  { weight := fieldAt 8 e 1 1, queueMax := fieldAt 8 e 2 1, drbg := bit (fieldAt 8 e 3 1) 0,
    ctxReserve := fieldAt 16 e 4 2, ctxCeiling := fieldAt 16 e 6 2, cellReserve := fieldAt 16 e 8 2,
    cellCeiling := fieldAt 16 e 0xA 2, crateReserve := fieldAt 16 e 0xC 2, crateCeiling := fieldAt 16 e 0xE 2 }

/-- A pitch entry breaks its rules (check 17). A bit of FLAGS[7:1] is judged here alone, not with the reserved fields of check 9, though it could count
as either (DESIGN CHOICE, log 72). -/
def pitchFieldBad (e : Bytes) : Bool :=
  let p := pitchPlanOf e
  p.weight == 0 || p.queueMax == 0 || decide (64 < p.queueMax.toNat) || bits (fieldAt 8 e 3 1) 1 7 != 0 ||
  decide (p.ctxCeiling.toNat < p.ctxReserve.toNat) || decide (16384 < p.ctxCeiling.toNat) ||
  decide (p.cellCeiling.toNat < p.cellReserve.toNat) || decide (8192 < p.cellCeiling.toNat) ||
  decide (p.crateCeiling.toNat < p.crateReserve.toNat) || decide (2048 < p.crateCeiling.toNat)

/-- Checks 15 to 18 of R48. -/
def planPoolsBad (ss : List Section_) : Option (BitVec 16) :=
  let m := planMemory ss
  let ing := (fieldAt 16 m 0 2).toNat
  let egr := (fieldAt 16 m 2 2).toNat
  let es := planPitches ss
  let ps := es.map pitchPlanOf
  if ing < 8 ∨ egr < 8 ∨ ing + egr ≠ 128 then some 0x0F1E
  else if es.isEmpty ∨ 256 < es.length ∨
      (es.zip (List.range es.length)).any (fun e => fieldAt 8 e.1 0 1 != BitVec.ofNat 8 e.2) then some 0x0F1F
  else if es.any pitchFieldBad ∨ ((ps.head?.map (·.drbg)).getD false) = false then some 0x0F20
  else if 16384 < (ps.map (·.ctxReserve.toNat)).sum ∨ 8192 < (ps.map (·.cellReserve.toNat)).sum ∨
      2048 < (ps.map (·.crateReserve.toNat)).sum ∨ 4096 < (ps.map (·.queueMax.toNat)).sum then some 0x0F21
  else none

/-- Checks 19 to 22 of R48. -/
def planModesBad (ss : List Section_) : Option (BitVec 16) :=
  let b := planBus ss
  let r0 := fieldAt 8 b 0 1
  let r1 := fieldAt 8 b 1 1
  let prp := (fieldAt 8 b 2 1).toNat
  let streams := ((planStalls ss).filter (fun e => e.2.1 == 3)).length
  let as := planAlarms ss
  let srcs := as.map (fun e => fieldAt 16 e 0 2)
  let n := planEntropy ss
  let mainB := (fieldAt 8 n 2 1).toNat
  let maskB := (fieldAt 8 n 3 1).toNat
  if bits r0 3 5 ≠ 0 ∨ bits r1 3 5 ≠ 0 ∨ 1 < prp ∨ bits (fieldAt 8 b 3 1) 4 4 ≠ 0 ∨ (prp = 1 ∧ r0 &&& r1 = 0) then some 0x0F1D
  else if 2 < streams ∨ ((r0 ≠ 0 ∨ r1 ≠ 0) ↔ streams = 0) then some 0x0F1C
  else if 256 < as.length ∨ distinct srcs = false ∨ srcs.any (fun c => !allSources.any (fun i => sourceCode i == c)) ∨
      as.any (fun e => decide (3 < (fieldAt 8 e 2 1).toNat)) then some 0x0F22
  else if 1000 < (fieldAt 16 n 0 2).toNat ∨ mainB < 32 ∨ 64 < mainB ∨ maskB < 8 ∨ 16 < maskB ∨
      1 < (fieldAt 8 n 4 1).toNat then some 0x0F23
  else none

/-- The plan of sections that every check has passed. -/
def planOf (img : Bytes) (ss : List Section_) : Plan :=
  let sp := planSpares ss
  let m := planMemory ss
  let b := planBus ss
  let n := planEntropy ss
  { svn := fieldAt 16 img 0x0C 2, signer := fieldAt 8 img 0x11 1, planId := fieldAt 64 img 0x18 8,
    stalls := (planStalls ss).filterMap (fun e => (roleOfCode e.2.1).map (fun r => { stall := e.1, role := r, tiles := e.2.2 })),
    replace := fieldAt 8 sp 0 1 == 1, minTiles := fieldAt 8 sp 1 1, priority := (slice sp 2 5).filterMap roleOfCode,
    ingress := fieldAt 16 m 0 2, egress := fieldAt 16 m 2 2, pitches := (planPitches ss).map pitchPlanOf,
    pb0Rates := fieldAt 8 b 0 1, pb1Rates := fieldAt 8 b 1 1, prpAllowed := bit (fieldAt 8 b 2 1) 0,
    frameKinds := fieldAt 4 b 3 1, alarms := (planAlarms ss).map (fun e => (fieldAt 16 e 0 2, fieldAt 2 e 2 1)),
    holdMs := fieldAt 16 n 0 2, minMain := fieldAt 8 n 2 1, minMask := fieldAt 8 n 3 1,
    streamHold := bit (fieldAt 8 n 4 1) 0 }

/-- What a validation finds: the content, or the STATUS and DETAIL of the first check that fails. -/
abbrev Judged (α : Type) := Sum (BitVec 16 × BitVec 16) α

/-- A check of BAD_FIELD that fails. -/
def failsWith {α : Type} (d : BitVec 16) : Judged α := .inl (stBadField, d)

/-- The checks of R48 that need the sections, in order. -/
def planJudgeSections (s : State) (img : Bytes) (ss : List Section_) : Judged Plan :=
  match sectionOf ss 1, sectionOf ss 4, sectionOf ss 0xFF with
  | some _, some _, some body =>
    let idx := (fieldAt 8 img 0x11 1).toNat
    let msg := img.take (img.length - sigBodyLen)
    if signerAt s idx ≠ some (signerHash (sigKeys body)) then failsWith 0x0F15
    else if sigsVerify s "CQX18-STALL-PLAN" msg body = false then failsWith 0x0F16
    else if (fieldAt 16 img 0x0C 2).toNat < (svnMinOf s.nv.planSvnMin).toNat then failsWith 0x0F17
    else if planReserved img ss then failsWith 0x0F25
    else match planStallsBad ss with
      | some d => failsWith d
      | none => match planPoolsBad ss with
        | some d => failsWith d
        | none => match planModesBad ss with
          | some d => failsWith d
          | none => .inr (planOf img ss)
  | _, _, _ => failsWith 0x0F14

/-- R48 on an image of a length. -/
def planJudge (s : State) (len : Nat) (img : Bytes) : Judged Plan :=
  let l := (fieldAt 32 img 8 4).toNat
  if len = 0 ∨ len ≠ l ∨ l < 0x48 ∨ 1044480 < l ∨ l % 8 ≠ 0 then .inl (stBadLength, 0x0F12)
  else if img.take 4 ≠ ascii "CQSP" ∨ fieldAt 16 img 4 2 ≠ 1 then failsWith 0x0F10
  else if fieldAt 16 img 0x0E 2 ≠ 0x0C18 ∨ 0xB2 < (fieldAt 8 img 0x10 1).toNat then failsWith 0x0F11
  else match planFrame (img.take l) with
    | none => failsWith 0x0F13
    | some ss => planJudgeSections s (img.take l) ss

/-! ### Patches (R134 to R136) -/

/-- Pieces of a size. -/
def piecesOf (size : Nat) : Nat → Bytes → List Bytes
  | 0, _ => []
  | n + 1, b => b.take size :: piecesOf size n (b.drop size)

/-- Addresses rise strictly and stay below a bound. -/
def risingBelow (bound : Nat) : Option Nat → List Nat → Bool
  | _, [] => true
  | last, a :: t =>
    decide (a < bound) && (match last with | some l => decide (l < a) | none => true) && risingBelow bound (some a) t

/-- The entries of a patch's plaintext: tile entries, then Hall controller entries (R135). -/
def patchEntries (img plain : Bytes) : List Bytes × List Bytes :=
  let nt := (fieldAt 16 img 0x30 2).toNat
  let nh := (fieldAt 16 img 0x32 2).toNat
  (piecesOf 24 nt plain, piecesOf 40 nh (plain.drop (24 * nt)))

/-- The patch of an image's plaintext: the part computes CHECK of a tile word (R135). -/
def patchOf (img plain : Bytes) : Patch :=
  let (ts, hs) := patchEntries img plain
  { svn := fieldAt 16 img 6 2, id := fieldAt 64 img 0x10 8,
    tile := ts.map (fun e => (fieldAt 12 e 0 2, withCheck (fieldAt 135 e 4 17))),
    hall := hs.map (fun e => (fieldAt 14 e 0 2, fieldAt 288 e 4 36)) }

/-- The checks of R136 that need the plaintext. -/
def patchJudgePlain (img plain : Bytes) : Judged Patch :=
  let (ts, hs) := patchEntries img plain
  let addr (e : Bytes) : Nat := (fieldAt 16 e 0 2).toNat
  let p := patchOf img plain
  if allZero (slice img 0x34 12) = false ∨
     ts.any (fun e => !allZero (slice e 2 2) || !allZero (slice e 21 3) || bit (fieldAt 8 e 20 1) 7) ∨
     hs.any (fun e => !allZero (slice e 2 2)) then failsWith 0x0F67
  else if risingBelow 4096 none (ts.map addr) = false ∨ risingBelow 16384 none (hs.map addr) = false then failsWith 0x0F68
  else if p.tile.any (fun e => tileWordBad (e.2.setWidth 135)) ∨ p.hall.any (fun e => hallWordBad e.2) then failsWith 0x0F69
  else .inr p

/-- R136 on an image of a length, for the base release of a firmware: where none is in force, as in Shuttered mode, there is
none that BASE_ID could differ from (log 12). -/
def patchJudge (s : State) (base : Option (BitVec 64)) (len : Nat) (img : Bytes) : Judged Patch :=
  let l := (fieldAt 32 img 0x0C 4).toNat
  let nt := (fieldAt 16 img 0x30 2).toNat
  let nh := (fieldAt 16 img 0x32 2).toNat
  let pl := (fieldAt 32 img 0x2C 4).toNat
  if len = 0 ∨ len ≠ l ∨ l < 7504 ∨ 73040 < l then .inl (stBadLength, 0x0F60)
  else if img.take 4 ≠ ascii "CQMP" ∨ fieldAt 16 img 4 2 ≠ 1 ∨ 1024 < nt ∨ 1024 < nh ∨ pl ≠ 24 * nt + 40 * nh ∨
      l ≠ 7504 + pl then failsWith 0x0F61
  else if fieldAt 16 img 8 2 ≠ 0x0C18 ∨ 0xB2 < (fieldAt 8 img 0xA 1).toNat ∨ (fieldAt 8 img 0xB 1).toNat < 0xB2 then
    failsWith 0x0F62
  else
    let msg := img.take (0x50 + pl)
    let body := slice img (0x50 + pl) sigBodyLen
    let header := img.take 0x40
    let nonce := slice img 0x20 12
    let c := slice img 0x40 pl
    let key := fit 32 Config.patchKey
    if signerHash (sigKeys body) ≠ romHash 1 ∨ sigsVerify s "CQX18-MICROCODE" msg body = false then failsWith 0x0F63
    else if (fieldAt 16 img 6 2).toNat < (svnMinOf s.nv.patchSvnMin).toNat then failsWith 0x0F64
    else if base.any (fun b => b != fieldAt 64 img 0x18 8) then failsWith 0x0F65
    else if gcmTag key nonce header c ≠ slice img (0x40 + pl) 16 then failsWith 0x0F66
    else patchJudgePlain img (gcmCrypt key nonce c)

/-! ### Firmware (R454, R455) -/

/-- The firmware content that a start takes. -/
structure Firmware where
  svn  : BitVec 16
  id   : BitVec 64
  base : BitVec 64
  hall : Bytes
  tile : Bytes
  deriving DecidableEq, Repr

/-- A store word of an image fails R124, or a tile word's CHECK breaks R125. -/
def fwStoreBad (hall tile : Bytes) : Bool :=
  (piecesOf 36 16384 hall).any (fun w => hallWordBad (fieldAt 288 w 0 36)) ||
  (piecesOf 18 4096 tile).any (fun w =>
    tileWordBad (fieldAt 135 w 0 18) || decodeError (fieldAt 144 w 0 18) != .clean)

/-- R455 on an image of a length. -/
def fwJudge (s : State) (len : Nat) (img : Bytes) : Judged Firmware :=
  let l := (fieldAt 32 img 0x0C 4).toNat
  let code := (fieldAt 32 img 0x20 4).toNat
  if len = 0 ∨ len ≠ l ∨ l ≠ 671040 + code then .inl (stBadLength, 0x0FD0)
  else if img.take 4 ≠ ascii "CQFW" ∨ fieldAt 16 img 4 2 ≠ 1 ∨ code % 64 ≠ 0 ∨ code < 64 ∨ 3519168 < code then failsWith 0x0FD1
  else if fieldAt 16 img 8 2 ≠ 0x0C18 ∨ 0xB2 < (fieldAt 8 img 0xA 1).toNat ∨ (fieldAt 8 img 0xB 1).toNat < 0xB2 then
    failsWith 0x0FD2
  else
    let msg := img.take (l - sigBodyLen)
    let body := slice img (l - sigBodyLen) sigBodyLen
    let hall := hallImage img
    let tile := tileImage img
    if signerHash (sigKeys body) ≠ romHash 2 ∨ sigsVerify s "CQX18-FIRMWARE" msg body = false then failsWith 0x0FD3
    else if (fieldAt 16 img 6 2).toNat < (svnMinOf s.nv.fwSvnMin).toNat then failsWith 0x0FD4
    else if allZero (slice img 0x24 28) = false ∨ sigPadOk body = false then failsWith 0x0FD5
    else if fwStoreBad hall tile then failsWith 0x0FD6
    else .inr { svn := fieldAt 16 img 6 2, id := fieldAt 64 img 0x10 8, base := fieldAt 64 img 0x18 8, hall := hall, tile := tile }

/-! ### Banks (R49, R50) -/

/-- The committed bank with the higher sequence number. -/
def prefBank (s : State) (k : BankKind) : Option Bool :=
  let a := s.bank k false
  let b := s.bank k true
  if committed a && committed b then some (decide (a.seq.toNat < b.seq.toNat))
  else if committed a then some false
  else if committed b then some true
  else none

/-- The bank in force of a kind, if one is. -/
def bankInForce (s : State) (k : BankKind) : Option Bool :=
  match k with
  | .plan => if s.plan.inForce.isSome then some s.plan.bank else none
  | .patch => if s.seq.patch.isSome then some s.seq.bank else none
  | .fw => if s.boot.fwInForce then some s.boot.fwBank else none

/-- The bank not in force (R49). -/
def stageBank (s : State) (k : BankKind) : Bool :=
  match bankInForce s k with
  | some b => !b
  | none => match prefBank s k with
    | some b => !b
    | none => false

/-- Steps 2 to 4 of R49, less the mark: the target is uncommitted and holds the image. -/
def writeBank (k : BankKind) (b : Bool) (img : Bytes) (s : State) : State :=
  let seq := max (s.bank k false).seq.toNat (s.bank k true).seq.toNat + 1
  s.setBank k b { seq := BitVec.ofNat 32 seq, len := BitVec.ofNat 32 img.length, hash := sha384 img, mark := 0, image := img }

/-- A bank's image as stored, to the length of its header. -/
def bankImage (b : Bank) : Bytes := b.image.take b.len.toNat

/-- A bank judged at a start (R50): nothing for an uncommitted one, BANK_HASH before any other check. -/
def judgeBank {α : Type} (judge : Nat → Bytes → Judged α) (hashBad : BitVec 16) (b : Bank) : Option (Judged α) :=
  if committed b = false then none
  else if sha384 (bankImage b) ≠ b.hash then some (failsWith hashBad)
  else some (judge b.len.toNat (bankImage b))

/-- What the selection of R50 gives: the bank and its content with ALT_USED, if there is one, and the DETAIL and bank of
each refusal, in order. -/
structure Chosen (α : Type) where
  found    : Option (Bool × Bool × α)
  refusals : List (BitVec 16 × Bool)

/-- R50 over a pair of banks. -/
def chooseBank {α : Type} (judge : Nat → Bytes → Judged α) (hashBad : BitVec 16) (s : State) (k : BankKind) (fallback : Bool) :
    Chosen α :=
  match prefBank s k with
  | none => { found := none, refusals := [] }
  | some p =>
    let p := p != fallback
    let first := judgeBank judge hashBad (s.bank k p)
    let bad (j : Option (Judged α)) (b : Bool) : List (BitVec 16 × Bool) :=
      match j with
      | some (.inl d) => [(d.2, b)]
      | _ => []
    match first with
    | some (.inr x) => { found := some (p, false, x), refusals := [] }
    | _ =>
      let other := judgeBank judge hashBad (s.bank k (!p))
      match other with
      | some (.inr x) => { found := some (!p, true, x), refusals := bad first p }
      | _ => { found := none, refusals := bad first p ++ bad other (!p) }

end Sys2Proof.Machine
end

