-- ==== Sys2Proof/Machine/Rng.lean ====
section
/-! DEFINITION. The random number service (R320 to R338): beans and their tests, the grind, the mask register, failures and
their holds, the RNG opcodes. -/
namespace Sys2Proof.Machine

/-! ### Beans -/

def State.bean (s : State) (n : Nat) : Bean := Tab.get beanInit n s.rng.beans

def State.setBean (s : State) (n : Nat) (b : Bean) : State :=
  { s with rng := { s.rng with beans := Tab.set beanInit n b s.rng.beans } }

/-- RNG_INT bits set (R336). -/
def rngInt (b : BitVec 6) (s : State) : State := { s with rng := { s.rng with rint := s.rng.rint ||| b } }

/-- The main beans, and the mask beans, in service. -/
def mainInService (s : State) : Nat := ((List.range 64).filter (fun n => (s.bean n).state = .inService)).length

def maskInService (s : State) : Nat := ((List.range 16).filter (fun n => (s.bean (64 + n)).state = .inService)).length

/-- MIN_MAIN_BEANS and MIN_MASK_BEANS: the plan's, or the values of a plan without an ENTROPY section (R46). -/
def minMain (s : State) : Nat := (s.plan.inForce.map (·.minMain.toNat)).getD 48

def minMask (s : State) : Nat := (s.plan.inForce.map (·.minMask.toNat)).getD 12

/-- HOLD_MS in force. -/
def holdMs (s : State) : Nat := (s.plan.inForce.map (·.holdMs.toNat)).getD 100

/-! ### Failures and holds (R329 to R332) -/

/-- A running job that needs mask bits ends when the feeds stop (R331). -/
def maskStarved (s : State) (x : Job) : State := breakJob s x stEntropy 0x0A21

/-- The mask feeds stop (R331). A signature that awaits its second decision is released all the same (R338). -/
def stopFeeds (s : State) : State :=
  let s := rngInt 0x20 { s with rng := { s.rng with feedsStopped := true } }
  (s.jobs.filter (fun x => x.phase = .running ∧ x.masked = true ∧ x.verdict ≠ .second ∧ x.verdict ≠ .agreed)).foldl maskStarved s

/-- The value that a waiting job asks for. -/
def requestOf (s : State) (x : Job) : Draw := ((s.rng.requests.find? (fun r => r.job == some x.id)).map (·.draw)).getD .nothing

/-- A job that waits for carafe bytes ends with the main hold (R330). -/
def sourceFailed (s : State) (x : Job) : State :=
  refuseJob s x { status := stEntropy, detail := drawFailed s x.pitch (requestOf s x) }

/-- STREAM_SEND jobs that the hold kept waiting end with it (R332). -/
def streamStarved (s : State) (x : Job) : State := refuseJob s x { status := stEntropy, detail := 0x0A24 }

/-- The waiting STREAM_SEND jobs, if frames are held. -/
def starveStreams (s : State) : State :=
  if s.rng.streamHeld then
    (s.jobs.filter (fun x => x.phase = .waiting ∧ x.desc.opcode = 0x0C10)).foldl streamStarved s
  else s

/-- The hold of the main failure expires. -/
def mainExpires (s : State) : State :=
  let s := rngInt 0x10 { s with rng := { s.rng with mainHold := true } }
  let starved := (s.rng.requests.filter (fun r => drawNeed s r.pitch r.draw != 0)).filterMap (·.job)
  let s := (s.jobs.filter (fun x => x.phase = .waiting ∧ x.entropyWait = true ∧ starved.contains x.id = true)).foldl sourceFailed s
  starveStreams s

/-- The hold of the mask failure expires. -/
def maskExpires (s : State) : State :=
  starveStreams (stopFeeds (rngInt 0x10 { s with rng := { s.rng with maskHold := true } }))

/-- HOLD_MS have passed since a failure started, by the clock. -/
def holdPassed (s : State) (since : Nat) : Bool := decide (since + 1000 * holdMs s ≤ s.clock.us)

/-- HOLD_MS have passed since the start of the older failure whose hold runs (R329). -/
def holdExpires (s : State) : State :=
  let main := s.rng.mainFail && !s.rng.mainHold && holdPassed s s.rng.mainSince
  let mask := s.rng.maskFail && !s.rng.maskHold && holdPassed s s.rng.maskSince
  if main && (!mask || decide (s.rng.mainSince ≤ s.rng.maskSince)) then mainExpires s
  else if mask then maskExpires s else s

def execEntropyHoldExpiry (s : State) : Host.Outcome State Fault Refusal := act s (holdExpires s)

/-- A failure starts (R329): its alarm source trips, stream frames are held if the plan says so (R332). -/
def failureStarts (main : Bool) (s : State) : State :=
  let r := s.rng
  let r := if main then { r with mainFail := true, mainHold := false, mainSince := s.clock.us }
           else { r with maskFail := true, maskHold := false, maskSince := s.clock.us }
  let s := rngInt 4 { s with rng := { r with streamHeld := r.streamHeld || (s.plan.inForce.map (·.streamHold)).getD false } }
  let s := trip (if main then .rngMain else .rngMask) (unitReading 0) s
  if holdMs s = 0 then (if main then mainExpires s else maskExpires s) else s

/-- A failure ends (R329 to R332): requests are served in their order. The feeds open again by MASK_FEEDS_OPEN; the source is no longer in
force after 10 ms of normal readings (R380, ALARM_SOURCE_CLEAR). -/
def failureEnds (main : Bool) (s : State) : State :=
  let r := s.rng
  let r := if main then { r with mainFail := false, mainHold := false, mainSince := 0 }
           else { r with maskFail := false, maskHold := false, maskSince := 0 }
  let r := { r with streamHeld := r.streamHeld && (r.mainFail || r.maskFail) }
  let s := rngInt 8 { s with rng := r }
  serveRequests s.rng.requests.length s

/-- The failures in force follow the beans in service (R329). -/
def judgeSources (s : State) : State :=
  let s :=
    if s.rng.mainFail = false ∧ mainInService s < minMain s then failureStarts true s
    else if s.rng.mainFail = true ∧ minMain s ≤ mainInService s then failureEnds true s else s
  if s.rng.maskFail = false ∧ maskInService s < minMask s then failureStarts false s
  else if s.rng.maskFail = true ∧ minMask s ≤ maskInService s then failureEnds false s else s

/-- The mask register filled four times over from the mask beans in service, with samples that nothing tells (R322, R331; log 1). -/
def fillMask (s : State) : State :=
  let (m, s) := drawFree s
  { s with rng := { s.rng with maskReg := BitVec.ofNat 4096 m } }

/-- The mask failure over, the register is filled, and the feeds that stopped open (R331). -/
def openFeeds (s : State) : State :=
  if s.rng.maskFail ∨ s.rng.feedsStopped = false then s
  else
    let s := fillMask s
    { s with rng := { s.rng with feedsStopped := false } }

def execMaskFeedsOpen (s : State) : Host.Outcome State Fault Refusal := act s (openFeeds s)

/-! ### Exclusion, retest, retirement (R323) -/

/-- A bean before a test over fresh samples: its windows and delay line are empty, and its trim is what the loop found, which the
spec leaves open (log 1). -/
def retrimmed (s : State) (b : Bean) : State × Bean :=
  let (n, s) := drawFree s
  (s, { b with trim := BitVec.ofNat 7 n, winCount := 0, winOnes := 0, runLen := 0, aptPos := 0, aptEqual := 0, delay := [] })

/-- The trips of a test counted (RNG_TEST_FAILS). -/
def countTrip (cause : BitVec 2) (s : State) : State :=
  if cause = 1 then { s with rng := { s.rng with rctFails := satAdd s.rng.rctFails 1 } }
  else if cause = 2 then { s with rng := { s.rng with aptFails := satAdd s.rng.aptFails 1 } }
  else s

/-- A bean excluded with its cause (R323): counted and recorded; a third time it is retired, otherwise its retest begins. A test that
trips, of whichever bean, discards the grind block too (R321). -/
def excludeBean (n : Nat) (cause : BitVec 2) (s : State) : State :=
  let b := s.bean n
  let fails : BitVec 2 := if b.fails = 3 then 3 else b.fails + 1
  let gone := fails == 3
  let detail := [BitVec.ofNat 8 n, cause.setWidth 8, b.trim.setWidth 8, fails.setWidth 8]
  let (s, c) := if gone then (s, { b with delay := [], runLen := 0, aptPos := 0, aptEqual := 0 }) else retrimmed s b
  let s := s.setBean n { c with fails := fails, lastCause := cause, state := if gone then .retired else .testing }
  let s := rngInt 1 (countTrip cause { s with rng := { s.rng with grind := if cause = 3 then s.rng.grind else [] } })
  let s := note 0x0501 none detail s
  if gone then note 0x0502 none detail (rngInt 2 s) else s

/-- A bean leaves service, and the failures follow. -/
def dropBean (n : Nat) (cause : BitVec 2) (s : State) : State := judgeSources (excludeBean n cause s)

/-- A retest over 1,024 fresh samples ends (R323): 0 passed, 1 the repetition count tripped, 2 the adaptive proportion. -/
def retestDone (n : Nat) (outcome : BitVec 2) (s : State) : State :=
  if (s.bean n).state ≠ .testing then s
  else if outcome = 0 then judgeSources (s.setBean n { s.bean n with state := .inService, delay := [] })
  else dropBean n (if outcome = 1 then 1 else 2) s

def execBeanRetestDone (bean : BitVec 7) (outcome : BitVec 2) (s : State) : Host.Outcome State Fault Refusal :=
  act s (retestDone bean.toNat outcome s)

/-- A retired bean retrimmed, under one more retest. -/
def testAgain (s : State) (n : Nat) : State :=
  if (s.bean n).state = .retired then
    let (s, b) := retrimmed s (s.bean n)
    s.setBean n { b with state := .testing }
  else s

/-- RNG_CMD RETEST_RETIRED (R323): each retired bean has one more retest, its FAILS as they stand. -/
def retestRetired (s : State) : State := (List.range 80).foldl testAgain s

def execRetestRetired (s : State) : Host.Outcome State Fault Refusal := hostAct s (retestRetired s)

/-! ### Samples (R320, R321, R324, R326) -/

/-- One sample counted by the balancing loop and both tests; the cause of a trip, 0 for none. Both at one sample give RCT
(R322). -/
def sampleBean (b : Bean) (v : Bool) : Bean × BitVec 2 :=
  let run := if b.runLen ≠ 0 ∧ b.lastBit = v then b.runLen + 1 else 1
  let open_ := decide (b.winCount < 4096)
  let first := if b.aptPos = 0 then v else b.aptFirst
  let equal := if b.aptPos = 0 then 1 else if v = b.aptFirst then b.aptEqual + 1 else b.aptEqual
  let pos := if b.aptPos + 1 = 1024 then 0 else b.aptPos + 1
  let c := { b with winCount := if open_ then b.winCount + 1 else b.winCount,
                    winOnes := if open_ && v then b.winOnes + 1 else b.winOnes,
                    lastBit := v, runLen := run, aptFirst := first, aptEqual := equal, aptPos := pos }
  (c, if 81 ≤ run then 1 else if 918 ≤ equal then 2 else 0)

/-- The delay line after a sample, and the sample that leaves it (R321). -/
def delayed (b : Bean) (v : Bool) : Bean × Option Bool :=
  if b.delay.length < 128 then ({ b with delay := v :: b.delay }, none)
  else ({ b with delay := v :: b.delay.take 127 }, b.delay.getLast?)

/-- The grind takes samples: no main failure is in force, the carafe has room for a digest, and no whole block waits. -/
def grinding (s : State) : Bool :=
  !s.rng.mainFail && decide (s.rng.carafe.length + 32 ≤ 65536) && decide (s.rng.grind.length < 2048)

/-- A main bean's sample enters the grind unless a main failure has just started (R330) or the bean is read by RNG_RAW (R334). -/
def feedGrind (open_ : Bool) (b : Bean) (v : Option Bool) (s : State) : State :=
  match v with
  | some x => if open_ && !s.rng.mainFail && !b.raw then { s with rng := { s.rng with grind := s.rng.grind ++ [x] } } else s
  | none => s

/-- RNG_RAW takes a sample of its bean as made; the last one gives its output, after 400 ns for each byte (R334). -/
def feedRaw (b : Bean) (v : Bool) (s : State) : State :=
  if b.raw = false then s
  else match s.rng.rawJob.bind s.job with
    | none => s
    | some x =>
      let r := s.rng.rawBits ++ [v]
      let s := { s with rng := { s.rng with rawBits := r } }
      if r.length < 8 * x.desc.outLen.toNat ∨ x.out.isSome then s
      else
        let byte (i : Nat) : Byte := packBits 8 ((r.drop (8 * i)).take 8)
        s.setJob { x with out := some { outOf stOk 0 with
          output := (List.range x.desc.outLen.toNat).map byte, elapsed := 40 * x.desc.outLen } }

/-- A trip of a bean that is out of service already (R321): its delay line and the grind block are discarded, and its tests begin anew. A
retest tells its trips itself when it ends (DEDUCED, log 70). -/
def tripOutside (n : Nat) (c : Bean) (cause : BitVec 2) (s : State) : State :=
  let s := s.setBean n { c with delay := [], runLen := 0, aptPos := 0, aptEqual := 0 }
  if c.state = .testing then s else countTrip cause { s with rng := { s.rng with grind := [] } }

/-- One sample of a bean: every one of the 80 gives samples and has them tested, and only one in service feeds the grind (R320, R321). -/
def beanSample (open_ : Bool) (s : State) (n : Nat) (v : Bool) : State :=
  let b := s.bean n
  let s := feedRaw b v s
  let (c, cause) := sampleBean b v
  if cause ≠ 0 then (if b.state = .inService then dropBean n cause (s.setBean n c) else tripOutside n c cause s)
  else
    let (d, out) := delayed c v
    let s := s.setBean n d
    if n < 64 ∧ b.state = .inService then feedGrind open_ d out s else s

/-- The mask register reseeded by the samples of the mask beans in service, through its feedback, which the spec does not lay
out (log 2). During a mask failure it runs on without them, and while the feeds are stopped it stands still (R331). -/
def feedMask (s : State) (bits : BitVec 80) : State :=
  if s.rng.feedsStopped then s
  else
    let taken : BitVec 16 := (List.range 16).foldl (fun m n =>
      if s.rng.maskFail = false && (s.bean (64 + n)).state = .inService && bit bits (64 + n) then m ||| (1#16 <<< n) else m) 0
    let r := Config.crypto .maskFeed 0 [wordBytes 512 s.rng.maskReg, wordBytes 2 taken]
    { s with rng := { s.rng with maskReg := BitVec.ofNat 4096 (leNat r) } }

/-- One sample of every bean (R321), in the order of their numbers. Before the start-up of R322 no sample reaches anything, and that
step's own samples are told by its operand (log 70). -/
def beanSamples (bits : BitVec 80) (s : State) : State :=
  if s.rng.started = false then s
  else
    let open_ := grinding s
    feedMask ((List.range 80).foldl (fun s n => beanSample open_ s n (bit bits n)) s) bits

def execBeanSample (bits : BitVec 80) (s : State) : Host.Outcome State Fault Refusal := act s (beanSamples bits s)

/-- The balancing loop after 4,096 samples, of each of the 80 beans (R320). A retired bean is excluded already. -/
def trimWindow (n : Nat) (s : State) : State :=
  let b := s.bean n
  if 80 ≤ n ∨ b.winCount < 4096 then s
  else
    let ones := b.winOnes
    let trim := if 2112 < ones then (if b.trim = 0 then 0 else b.trim - 1)
                else if ones < 1984 then (if b.trim = 127 then 127 else b.trim + 1) else b.trim
    let s := s.setBean n { b with trim := trim, ones := BitVec.ofNat 13 ones, winCount := 0, winOnes := 0 }
    if (b.trim = 0 ∨ b.trim = 127) ∧ (ones < 1536 ∨ 2560 < ones) ∧ b.state ≠ .retired then dropBean n 3 s else s

def execBeanTrimWindow (bean : BitVec 7) (s : State) : Host.Outcome State Fault Refusal := act s (trimWindow bean.toNat s)

/-- A grind block of 2,048 samples hashed into the carafe (R324); sample `i` is bit `i` mod 8 of byte `i` / 8 (log 16). -/
def grindBlock (s : State) : State :=
  if s.rng.started = false ∨ s.rng.mainFail ∨ s.rng.grind.length < 2048 ∨ 65536 < s.rng.carafe.length + 32 then s
  else
    let g := s.rng.grind
    let block := (List.range 256).map (fun i => (packBits 8 ((g.drop (8 * i)).take 8) : Byte))
    let s := { s with rng := { s.rng with grind := g.drop 2048, carafe := s.rng.carafe ++ sha256 block } }
    serveRequests s.rng.requests.length s

def execGrindBlock (s : State) : Host.Outcome State Fault Refusal := act s (grindBlock s)

/-- 60 s have passed since the last reseed of an instance (R328). -/
def reseedDue (p : BitVec 8) (s : State) : State :=
  if (s.drbg p).seeded then s.setDrbg p { s.drbg p with due := true } else s

def execDrbgReseedDue (p : BitVec 8) (s : State) : Host.Outcome State Fault Refusal := act s (reseedDue p s)

/-! ### Start-up (R322) -/

/-- The tests that a bean trips within the step, one after another. -/
def startTrips (n : Nat) : List (BitVec 2) → State → State
  | [], s => s
  | c :: t, s =>
    if (s.bean n).state = .retired then s
    else startTrips n t (excludeBean n (if c = 1 then 1 else 2) s)

/-- A bean after the step: in service, or retired. -/
def startBean (trips : List (BitVec 7 × List (BitVec 2))) (s : State) (n : Nat) : State :=
  let cs := ((trips.find? (fun e => e.1.toNat = n)).map (·.2)).getD []
  let (s, b) := retrimmed s beanInit
  let s := startTrips n cs (s.setBean n b)
  if (s.bean n).state = .testing then s.setBean n { s.bean n with state := .inService } else s

/-- Digests added to the carafe, of samples that nothing tells (log 1). -/
def fillCarafe (n : Nat) (s : State) : State :=
  let (v, s) := drawFree s
  { s with rng := { s.rng with carafe := s.rng.carafe ++ leBytes (32 * n) v } }

/-- The carafe at the end of the step: at least 4 KiB; none under a main failure. -/
def firstCarafe (s : State) : State :=
  if s.rng.mainFail then s
  else
    let (k, s) := drawFree s
    fillCarafe (128 + k % 1920) s

/-- Every instance instantiated from the carafe at a start (R322), or under a main failure waiting for it. -/
def startInstances (ps : List Nat) (s : State) : State :=
  let s := if s.rng.mainFail then s else fillCarafe (ceilDiv (48 * ps.length) 32) s
  ps.foldl (fun s p => drbgRestart s (BitVec.ofNat 8 p)) s

/-- The pitches with the DRBG flag (R327). -/
def drbgPitches (s : State) : List Nat := (List.range 256).filter (fun p => hasDrbg s (BitVec.ofNat 8 p))

/-- The beans tested at a start, with nothing in the grind or the carafe yet (R322). -/
def startBeans (trips : List (BitVec 7 × List (BitVec 2))) (s : State) : State :=
  (List.range 80).foldl (startBean trips) { s with rng := { s.rng with grind := [], carafe := [], requests := [] } }

/-- Step 5 of the start sequence (R322): false when too few mask beans are in service. -/
def rngStart (trips : List (BitVec 7 × List (BitVec 2))) (s : State) : State × Bool :=
  let s := startBeans trips s
  if maskInService s < minMask s then (s, false)
  else
    let s := judgeSources (fillMask s)
    let s := firstCarafe (startInstances (drbgPitches s) s)
    ({ s with rng := { s.rng with started := true } }, true)

/-! ### Opcodes (R333 to R335) -/

/-- The limit of an additional input. -/
def addinBad (d : Desc) : Option Bad := badWhen (decide (64 < d.inLen.toNat)) (badLength 0x0A11)

/-- A pitch has an instance (R333). -/
def noInstance (s : State) (x : Job) : Option Bad := badWhen (!hasDrbg s x.pitch) (bad stEntropy 0x0A22)

def genLengths (x : Job) : Option Bad :=
  let d := x.desc
  let n := d.outLen.toNat
  firstBad
    [ addinBad d,
      (if d.toVault then firstBad [badWhen (decide (n < 16 ∨ 64 < n)) (badLength 0x0A15), badWhen (d.auxLen != 4) (badLength 0x0A16)]
       else badWhen (decide (65536 < n)) (badLength 0x0A10)) ]

/-- A generation of nothing completes before the instance is asked (R333). -/
def genNothing (d : Desc) : Bool := d.outLen == 0

def rngGenerateRun (s : State) (x : Job) : Ran :=
  let d := x.desc
  if genNothing d then ranWith s (outOf stNoOutput 0)
  else
    let (v, s) := drawBytes s x.pitch (bit d.param 0) (jobInput s x) d.outLen.toNat
    if d.toVault then
      let a : BitVec 32 := fieldAt 32 (jobAux s x) 0 4
      let n := reservedAt x 0
      let k := withOwnAttrs a (newKey s x.pitch 1 0 1 0 v)
      ranWith s (outOf stOk 0 ((mkHandle s n x.pitch).setWidth 64)) [.keyPut n k]
    else ranWith s { outOf stOk 0 with output := v }

/-- The attributes in AUX, known when the job's input is read. -/
def auxAttrsBad (s : State) (x : Job) : Option Bad :=
  if x.desc.toVault then secretAttrsBad (fieldAt 32 (jobAux s x) 0 4) x.desc.outLen.toNat x.pitch else none

/-- The time of an RNG job (R335), with a number of blocks and what its reseed or instantiation adds. -/
def rngTime (blocks extra : Nat) : Nat := cus 30 + 25200 * blocks + extra

/-- What a generate call adds for the reseed or the instantiation before it. -/
def reseedTime (s : State) (p : BitVec 8) (fresh : Bool) : Nat :=
  let d := s.drbg p
  if !d.seeded then cus 150 else if (fresh || d.due) && reseedServed s then cus 120 else 0

def rngGenerateSpec : OpSpec :=
  { code := 0x0A01, vault := true,
    uses := fun d => { param := 1, inp := true, out := !d.toVault, outLenOnly := true, aux := d.toVault },
    lengths := fun _ x => genLengths x,
    late := fun s x => firstBad [auxAttrsBad s x, (if genNothing x.desc then none else noInstance s x)],
    slots := fun s x => if x.desc.toVault then [slotFor 1 x.desc.outLen.toNat (bit (fieldAt 32 (jobAux s x) 0 4) 16)] else [],
    draws := fun _ x => if genNothing x.desc then .nothing else if bit x.desc.param 0 then .fresh else .call,
    time := fun s x _ => some (if genNothing x.desc then rngTime 0 0
      else rngTime (ceilDiv x.desc.outLen.toNat 16) (reseedTime s x.pitch (bit x.desc.param 0))),
    run := rngGenerateRun }

def drbgReseedRun (s : State) (x : Job) : Ran :=
  let d := s.drbg x.pitch
  ranWith (if d.seeded then drbgReseed s x.pitch (jobInput s x) else drbgInstantiate s x.pitch []) (outOf stNoOutput 0)

def drbgReseedSpec : OpSpec :=
  { code := 0x0A02,
    uses := fun _ => { inp := true },
    lengths := fun _ x => addinBad x.desc,
    late := noInstance,
    draws := fun _ _ => .reseed,
    time := fun s x _ => some (rngTime 0 (if (s.drbg x.pitch).seeded then cus 120 else cus 150)),
    run := drbgReseedRun }

def drbgInstantiateSpec : OpSpec :=
  { code := 0x0A03,
    uses := fun _ => { inp := true },
    lengths := fun _ x => addinBad x.desc,
    late := noInstance,
    draws := fun _ _ => .instantiate,
    time := fun _ _ _ => some (rngTime 0 (cus 150)),
    run := fun s x => ranWith (drbgInstantiate s x.pitch (jobInput s x)) (outOf stNoOutput 0) }

/-- RESULT of DRBG_INFO. -/
def drbgInfo (s : State) (p : BitVec 8) : BitVec 64 :=
  let d := s.drbg p
  at64 0 d.calls ||| at64 32 (flag 1 d.seeded) ||| at64 33 (flag 1 d.due) ||| at64 34 (flag 1 s.rng.mainFail) |||
  at64 35 (flag 1 s.rng.mainHold) ||| at64 36 (flag 1 s.rng.feedsStopped)

def drbgInfoSpec : OpSpec :=
  { code := 0x0A04,
    uses := fun _ => {},
    time := fun _ _ _ => some (rngTime 0 0),
    run := fun s x => ranWith s (outOf stNoOutput 0 (drbgInfo s x.pitch)) }

/-- The life-cycle states, and the debug scope, that permit RNG_RAW (R334, R370). -/
def rawPermitted (s : State) : Bool :=
  let n := s.life.inForce.toNat
  (decide (1 ≤ n ∧ n ≤ 8)) || n == 0x11 || n == 0x13 ||
  (inField s && ((s.life.granted.map (fun g => bit g.1 3)).getD false))

/-- The bean that RNG_RAW reads. -/
def rawBean (d : Desc) : BitVec 7 := d.param.setWidth 7

/-- The sampled bean's removal would start a main failure. -/
def rawBelow (s : State) (d : Desc) : Bool :=
  (s.bean (rawBean d).toNat).state == .inService && decide (mainInService s - 1 < minMain s)

def rngRawRun (s : State) (x : Job) : Ran :=
  let n := (rawBean x.desc).toNat
  let s := s.setBean n { s.bean n with raw := true }
  { state := { s with rng := { s.rng with rawJob := some x.id, rawBits := [] } }, out := none }

def rngRawSpec : OpSpec :=
  { code := 0x0A10, admin := true,
    own3 := fun s _ => badWhen (!rawPermitted s) (bad stBadOpcode 0x0A12),
    uses := fun _ => { param := 0x7F, out := true },
    fields := fun s x => firstBad [ badWhen (decide (63 < (rawBean x.desc).toNat)) (badField 0x0A13),
      badWhen (rawBelow s x.desc) (badField 0x0A17) ],
    lengths := fun _ x =>
      let n := x.desc.outLen.toNat
      badWhen (decide (n < 128 ∨ 65536 < n ∨ n % 128 ≠ 0)) (badLength 0x0A14),
    blocked := fun s _ => s.rng.rawJob.isSome,
    run := rngRawRun }

def execRngGenerate (j : JobId) (s : State) : Host.Outcome State Fault Refusal := act s (startJob rngGenerateSpec j s)

def execDrbgReseed (j : JobId) (s : State) : Host.Outcome State Fault Refusal := act s (startJob drbgReseedSpec j s)

def execDrbgInstantiate (j : JobId) (s : State) : Host.Outcome State Fault Refusal := act s (startJob drbgInstantiateSpec j s)

def execDrbgInfo (j : JobId) (s : State) : Host.Outcome State Fault Refusal := act s (startJob drbgInfoSpec j s)

def execRngRaw (j : JobId) (s : State) : Host.Outcome State Fault Refusal := act s (startJob rngRawSpec j s)

end Sys2Proof.Machine
end

