-- ==== Sys2Proof/Machine/Vault.lean ====
section
/-! DEFINITION. The key vault: its opcodes, measurement-bound derivation, and the persistent keys at a start (R339 to R359). -/
namespace Sys2Proof.Machine

/-! ### Keys derived from the device (R350, R356) -/

/-- The device derivation secret (R356). -/
def deriveRoot (s : State) : Bytes :=
  kmac256 (Config.deviceSecret ++ s.battery.rootKey.getD []) (ascii "CQX18-DERIVE-ROOT") 32 []

/-! ### Shared checks -/

/-- ATTRS asks for VPROG usage, and so names a program signer (R342, R343). -/
def wantsVprog (d : Desc) : Bool := bit (attrsOf d) 9

/-- Steps 1 to 5 of R344 for the program signer; that it may sign programs is judged later (R354). -/
def signerThere (s : State) (x : Job) : Option Bad :=
  if wantsVprog x.desc && x.desc.keyHandle2 != 0 then
    keyCheck s x.pitch x.desc.keyHandle2 { typ := fun _ => true, set := fun _ => true, usage := none }
  else none

/-- The program signer carries PROG_SIGN (check 4 of R354, R356). -/
def signerBad (s : State) (x : Job) : Option Bad :=
  badWhen (wantsVprog x.desc && x.desc.keyHandle2 != 0 &&
    !((keyOf s x.desc.keyHandle2).map (fun k => bit k.usage 8)).getD false) (bad stKeyPolicy 0x0B13)

/-- A usage of programs needs a signer (R343). -/
def vprogUnsigned (d : Desc) : Bool := wantsVprog d && d.keyHandle2 == 0

/-- A vault job's time (R353): 0.8 µs, 16.2 ns for each masked permutation and 50.4 ns for each 16 bytes encrypted or decrypted. The tags of
R347 and the writing of a persistent record are not counted: the example of R359 counts neither, and R348 leaves the second out (DEDUCED,
log 71). -/
def vaultTime (perms bytes : Nat) : Nat := cus 80 + 16200 * perms + 50400 * ceilDiv bytes 16

/-- The time of a vault job that computes nothing but its header and its copy. -/
def vaultPlainTime (_ : State) (_ : Job) (_ : JobOut) : Option Nat := some (vaultTime 0 0)

/-- The permutations of a KMAC256: its prefix, its key, and its input with the length of the output. -/
def kmacPermutations (key : Bytes) (input out : Nat) : Nat :=
  1 + (bytepad (encodeString key) 136).length / 136 + (furtherBlocks 136 (input + (rightEncode (8 * out)).length) + 1)

/-- The time of a job that wraps or unwraps a record under a key (R350): the record's own key, and its value. -/
def recordTime (wrapping : Bytes) (len : Nat) : Nat := vaultTime (kmacPermutations wrapping 32 32) len

/-- The value that a persistent key's NONCE takes from the pitch's instance (R330, R350). -/
def persistDraw (a : BitVec 32) : Draw := if bit a 16 then .call else .nothing

/-! ### VAULT_IMPORT (R354) -/

def importType (d : Desc) : BitVec 16 := d.param.setWidth 16

def importWrapped (d : Desc) : Bool := bit d.param 16

/-- PARAM_SET is one that some family's chapter defines (R354). -/
def setDefined (x : BitVec 16) : Bool :=
  x == 0 || x == 0xFF || [0x11, 0x12, 0x13, 0x14].contains x.toNat ||
  (List.range 16).any (fun f => (sizeOf f x.toNat).isSome)

/-- TYPE is defined, and PARAM_SET is a set of its family (check 1 of R354). -/
def importTypeOk (typ set : BitVec 16) : Bool :=
  let f := familyOf typ
  if f = 1 then typ == 1 && set == 0
  else if typ = 0x800A then false
  else decide (f < 16) && ((sizeOf f set.toNat).isSome || (f == 11 && set == 0xFF))

/-- The length of a value of a TYPE and set, where the set fixes it; a loaded curve's key has none of its own (log 15). -/
def importLenOk (typ set : BitVec 16) (n : Nat) : Bool :=
  if typ = 1 then decide (1 ≤ n ∧ n ≤ 128)
  else match sizeOf (familyOf typ) set.toNat with
    | none => false
    | some z => n == (if publicOnly typ then z.pub else privateLen (familyOf typ) z)

/-- The length of the value that an import's input holds. -/
def importValueLen (d : Desc) : Nat := d.inLen.toNat - (if importWrapped d then 128 else 0)

/-- The cells of an imported key. -/
def importCells (typ set : BitVec 16) (len : Nat) : Nat :=
  if typ = 1 then 1 else if publicOnly typ then publicCells len
  else ((sizeOf (familyOf typ) set.toNat).map (·.cells)).getD 1

/-- Checks 1 to 5 of R354. -/
def importLate (s : State) (x : Job) : Option Bad :=
  let d := x.desc
  let typ := importType d
  let a := attrsOf d
  firstBad
    [ badWhen (!importTypeOk typ d.paramSet) (badField 0x0B21),
      badWhen (typ == 6 || typ == 7 || typ == 8) (badField 0x0B22),
      badWhen (!attrsOk a (usageAllowed typ d.paramSet (importValueLen d) x.pitch true) (typ == 1) false false false ||
        vprogUnsigned d) (badField 0x0B20),
      signerBad s x,
      badWhen ((importWrapped d && decide (d.inLen.toNat < 128)) || !importLenOk typ d.paramSet (importValueLen d))
        (badLength 0x0B26) ]

/-- The wrapping key that a handle names. -/
def wrappingKey (s : State) (h : BitVec 32) : Bytes := ((keyOf s h).map (·.value)).getD []

/-- What an import's input comes to (checks 6 to 8 of R354). -/
def importValue (s : State) (x : Job) : Sum Bad Bytes :=
  let d := x.desc
  let typ := importType d
  let inp := jobInput s x
  let value : Sum Bad Bytes :=
    if importWrapped d = false then .inr inp
    else
      let h := recordHeader inp
      if recordLayoutOk 2 inp = false ∨ fieldAt 16 h 0 2 ≠ typ ∨ fieldAt 16 h 2 2 ≠ d.paramSet then
        .inl { status := stBadField, detail := 0x0B24 }
      else match unwrapRecord 2 (wrappingKey s d.keyHandle) inp with
        | none => .inl { status := stSigInvalid, detail := 0x0B25 }
        | some v => .inr v
  match value with
  | .inl b => .inl b
  | .inr v => if keyValueOk typ d.paramSet.toNat v then .inr v else .inl { status := stInputRange, detail := 0x0B27 }

/-- A vault refusal at the grant (check 9 of R354), as a check of R171 its ELAPSED is 0; 0x0B42 sets VLT_INT.NV_FULL (R357). -/
def grantRefused (s : State) (b : Bad) : Ran :=
  { state := if b.detail = 0x0B42 then { s with vault := { s.vault with vint := s.vault.vint ||| 4 } } else s,
    out := some (outOf b.status b.detail b.result) }

/-- A key placed at the end of its job in a slot granted now. -/
def ranNewKey (s : State) (x : Job) (len : Nat) (k : Key) : Ran :=
  match reserveAll x.pitch [slotFor k.cells.toNat len k.persist] s [] with
  | .inl b => grantRefused s b
  | .inr (t, ns) =>
    let n := (ns.head?).getD 0
    let t := t.setJob { x with reserved := ns }
    ranWith t (outOf stOk 0 ((mkHandle t n x.pitch).setWidth 64)) [.keyPut n k]

def vaultImportRun (s : State) (x : Job) : Ran :=
  match importValue s x with
  | .inl b => ranBad s b
  | .inr v =>
    let d := x.desc
    let typ := importType d
    let k := newKey s x.pitch typ d.paramSet (importCells typ d.paramSet v.length) 1 v
    ranNewKey s x v.length { withOwnAttrs (attrsOf d) k with progSigner := if wantsVprog d then d.keyHandle2 else 0 }

/-- The time of a VAULT_IMPORT whose input is judged to the end. -/
def importTime (s : State) (x : Job) (o : JobOut) : Option Nat :=
  if importWrapped x.desc = false then some (vaultTime 0 0)
  else if o.detail = 0x0B24 then none
  else some (recordTime (wrappingKey s x.desc.keyHandle) (importValueLen x.desc))

def vaultImportSpec : OpSpec :=
  { code := 0x0B01,
    uses := fun d => { param := 0xFFFFFFFF0001FFFF, set := true, key := importWrapped d, key2 := wantsVprog d, inp := true },
    sets := setDefined,
    keys := fun s x => firstBad
      [ (if importWrapped x.desc then
           keyCheck s x.pitch x.desc.keyHandle { typ := fun t => t == 1, set := fun _ => true, usage := some 5 } else none),
        signerThere s x ],
    late := importLate,
    masked := fun _ _ => true,
    draws := fun _ x => persistDraw (attrsOf x.desc),
    time := importTime,
    run := vaultImportRun }

/-! ### VAULT_EXPORT (R355) -/

/-- EXPORTABLE, and no public-only key (R355). -/
def exportBad (k : Key) : Option Bad := badWhen (!k.exportable || publicOnly k.typ) (bad stKeyPolicy 0x0B11)

/-- The authorisation of R355. -/
def exportAuthBad (s : State) : Option Bad :=
  badWhen (!(inProvisioning s || (inField s && quorumOpen s 3))) (bad stKeyPolicy 0x0B12)

/-- The length of an export's record. -/
def exportLen (s : State) (d : Desc) : Nat := 128 + ((keyOf s d.keyHandle).map (·.value.length)).getD 0

def vaultExportRun (s : State) (x : Job) : Ran :=
  match keyOf s x.desc.keyHandle with
  | none => ranBad s { status := stKeyAbsent, detail := 0x0B03 }
  | some k =>
    let (nonce, s) := draw s x.pitch 12
    let r := wrapRecord 2 (wrappingKey s x.desc.keyHandle2) 0 (keyHeader x.desc.keyHandle k) nonce k.value
    ranWith s { outOf stOk 0 with output := r }

def vaultExportSpec : OpSpec :=
  { code := 0x0B02,
    uses := fun _ => { key := true, key2 := true, out := true },
    keys := fun s x => firstBad
      [ keyCheck s x.pitch x.desc.keyHandle { typ := fun _ => true, set := fun _ => true, usage := none, more := exportBad },
        keyCheck s x.pitch x.desc.keyHandle2 { typ := fun t => t == 1, set := fun _ => true, usage := some 5 },
        exportAuthBad s ],
    lengths := fun s x =>
      let n := exportLen s x.desc
      badWhen (decide (x.desc.outLen.toNat < n)) (some { status := stLengthShort, detail := 0, result := BitVec.ofNat 64 n }),
    masked := fun _ _ => true,
    draws := fun _ _ => .call,
    time := fun s x _ => some (recordTime (wrappingKey s x.desc.keyHandle2) (exportLen s x.desc - 128)),
    run := vaultExportRun }

/-! ### VAULT_DELETE, VAULT_INFO, VAULT_MODIFY (R353) -/

def vaultDeleteSpec : OpSpec :=
  { code := 0x0B03,
    uses := fun _ => { key := true },
    keys := fun s x => keyThere s x.pitch x.desc.keyHandle true,
    time := vaultPlainTime,
    run := fun s x => ranWith (dropKey s (handleSlot x.desc.keyHandle)) (outOf stOk 0) }

/-- The header of a slot's key, or the one in the record of a key that is not loaded (R344). -/
def slotHeader (s : State) (h : BitVec 32) : Bytes :=
  match s.slot (handleSlot h) with
  | .key k => keyHeader h k
  | .unloaded _ => ((Tab.get none (handleSlot h).toNat s.nv.keys).map NvKey.header).getD []
  | _ => []

def vaultInfoSpec : OpSpec :=
  { code := 0x0B04,
    uses := fun _ => { key := true, out := true },
    keys := fun s x => keyThere s x.pitch x.desc.keyHandle true,
    lengths := fun _ x => badWhen (decide (x.desc.outLen.toNat < 64)) (bad stLengthShort 0),
    time := vaultPlainTime,
    run := fun s x => ranWith s { outOf stOk 0 with output := slotHeader s x.desc.keyHandle } }

/-- SET_PERSIST needs blocks of the wrapped area (R348). -/
def modifyFull (s : State) (k m : Key) : Bool :=
  m.persist && !k.persist && decide (blocksSpoken s + blocksOf k.value.length k.stateful.isSome > 8064)

def vaultModifyRun (s : State) (x : Job) : Ran :=
  match keyOf s x.desc.keyHandle with
  | none => ranBad s { status := stKeyAbsent, detail := 0x0B03 }
  | some k =>
    let m := modified x.desc.param k
    if m = k then ranWith s (outOf stNoOutput 0)
    else if modifyFull s k m then grantRefused s { status := stCtxFull, detail := 0x0B42 }
    else ranWith s (outOf stOk 0) [.keyRights x.desc.keyHandle x.desc.param]

/-- A VAULT_MODIFY that writes a persistent key's record anew draws its NONCE (R350). -/
def modifyDraw (s : State) (x : Job) : Draw :=
  match keyOf s x.desc.keyHandle with
  | some k => if modified x.desc.param k ≠ k ∧ (modified x.desc.param k).persist = true then .call else .nothing
  | none => .nothing

def vaultModifySpec : OpSpec :=
  { code := 0x0B06,
    uses := fun _ => { param := 0x7FFFF, key := true },
    keys := fun s x => keyCheck s x.pitch x.desc.keyHandle { typ := fun _ => true, set := fun _ => true, usage := none },
    masked := fun _ _ => true,
    draws := modifyDraw,
    time := vaultPlainTime,
    run := vaultModifyRun }

/-! ### VAULT_DERIVE (R356) -/

/-- SEL, MODE and LEN of PARAM. -/
def deriveSel (d : Desc) : BitVec 8 := d.param.setWidth 8

def deriveSigner (d : Desc) : Bool := bit d.param 8

def deriveLen (d : Desc) : Nat := (bits d.param 16 8).toNat

/-- MIN_SVN of a measurement, from the AUX bytes. -/
def minSvn (aux : Bytes) (n : Nat) : BitVec 16 := fieldAt 16 aux (2 * n) 2

/-- The measurement's signer key hash and SVN in force (VLT_SIGNER, VLT_SVN). -/
def signerOf (s : State) (n : Nat) : Bytes := (s.vault.signers[n]?).getD (zeros 48)

def svnOf (s : State) (n : Nat) : BitVec 16 := (s.vault.svns[n]?).getD 0

/-- The reserved bits of PARAM have a DETAIL of their own at check 6 (R70, R356). -/
def deriveParamBad (d : Desc) : Option Bad := badWhen (bits d.param 9 7 != 0 || bits d.param 24 8 != 0) (badField 0x0B23)

/-- ATTRS of a derivation. -/
def deriveFieldsBad (x : Job) : Option Bad :=
  let d := x.desc
  badWhen (!attrsOk (attrsOf d) (usageAllowed 1 0 (deriveLen d) x.pitch true &&& ~~~0x100#16) true false false false || vprogUnsigned d)
    (badField 0x0B20)

def deriveLengthsBad (x : Job) : Option Bad :=
  let d := x.desc
  badWhen (decide (deriveLen d < 16 ∨ 64 < deriveLen d ∨ 256 < d.inLen.toNat) ||
    d.auxLen != (if deriveSigner d then 16 else 0)) (badLength 0x0B26)

/-- What the AUX bytes of SIGNER mode and the measurements refuse. -/
def deriveBindBad (s : State) (x : Job) : Option Bad :=
  let aux := jobAux s x
  let sel := deriveSel x.desc
  if deriveSigner x.desc = false then none
  else firstBad
    [ badWhen ((List.range 8).any (fun n => !bit sel n && minSvn aux n != 0)) (badField 0x0B23),
      badWhen ((List.range 8).any (fun n => bit sel n && decide ((svnOf s n).toNat < (minSvn aux n).toNat)))
        (bad stKeyPolicy 0x0B14) ]

/-- The string that a derived key is computed from. -/
def deriveInput (s : State) (x : Job) : Bytes :=
  let d := x.desc
  let aux := jobAux s x
  let label := jobInput s x
  let part (n : Nat) : Bytes :=
    if bit (deriveSel d) n = false then []
    else if deriveSigner d then fit 48 (signerOf s n) ++ wordBytes 2 (minSvn aux n)
    else fit 48 ((s.boot.meas[n]?).getD [])
  [flag 8 (deriveSigner d), deriveSel d, x.pitch, BitVec.ofNat 8 (deriveLen d)] ++ (List.range 8).flatMap part ++
  leBytes 2 label.length ++ label

/-- The base of a derivation. -/
def deriveBase (s : State) (d : Desc) : Bytes := if d.keyHandle = 0 then deriveRoot s else wrappingKey s d.keyHandle

def vaultDeriveRun (s : State) (x : Job) : Ran :=
  match deriveBindBad s x with
  | some b => ranBad s b
  | none =>
    let d := x.desc
    let v := kmac256 (deriveBase s d) (ascii "CQX18-DERIVE") (deriveLen d) (deriveInput s x)
    let k := withOwnAttrs (attrsOf d) (newKey s x.pitch 1 0 1 2 v)
    ranNewKey s x v.length { k with progSigner := if wantsVprog d then d.keyHandle2 else 0 }

/-- The time of a VAULT_DERIVE. -/
def deriveTime (s : State) (x : Job) (o : JobOut) : Option Nat :=
  if o.status = stOk then
    some (vaultTime (kmacPermutations (deriveBase s x.desc) (deriveInput s x).length (deriveLen x.desc)) 0)
  else none

def vaultDeriveSpec : OpSpec :=
  { code := 0x0B05,
    uses := fun d => { param := 0xFFFFFFFFFFFFFFFF, key := true, key2 := wantsVprog d, inp := true, aux := true },
    own6 := deriveParamBad,
    fields := fun _ x => deriveFieldsBad x,
    keys := fun s x => firstBad
      [ (if x.desc.keyHandle = 0 then none else
           keyCheck s x.pitch x.desc.keyHandle { typ := fun t => t == 1, set := fun _ => true, usage := some 7 }),
        signerThere s x, signerBad s x ],
    lengths := fun _ x => deriveLengthsBad x,
    masked := fun _ _ => true,
    draws := fun _ x => persistDraw (attrsOf x.desc),
    time := deriveTime,
    run := vaultDeriveRun }

def execVaultImport (j : JobId) (s : State) : Host.Outcome State Fault Refusal := act s (startJob vaultImportSpec j s)

def execVaultExport (j : JobId) (s : State) : Host.Outcome State Fault Refusal := act s (startJob vaultExportSpec j s)

def execVaultDelete (j : JobId) (s : State) : Host.Outcome State Fault Refusal := act s (startJob vaultDeleteSpec j s)

def execVaultInfo (j : JobId) (s : State) : Host.Outcome State Fault Refusal := act s (startJob vaultInfoSpec j s)

def execVaultDerive (j : JobId) (s : State) : Host.Outcome State Fault Refusal := act s (startJob vaultDeriveSpec j s)

def execVaultModify (j : JobId) (s : State) : Host.Outcome State Fault Refusal := act s (startJob vaultModifySpec j s)

/-! ### Persistent keys at a start (R346, R349) -/

/-- A free slot's generation at a start, and a vault of no keys. -/
def freshVault (s : State) : State :=
  { s with vault := { s.vault with slots := [], gens := [], startGen := s.ledger.cycles.setWidth 8, freed := [], returned := [] } }

/-- A persistent key's record read at a start (R349): the slot loads, stays held, or turns BAD. -/
def loadRecord (kwk : Bytes) (s : State) (n : Nat) (r : NvKey) : State :=
  let i := BitVec.ofNat 13 n
  let k := r.shell
  let s := { s with vault := { s.vault with gens := Tab.set none n (some r.gen) s.vault.gens } }
  if r.migrated ∨ (s.pitch k.pitch).state = .absent ∨ grant s .cells k.pitch k.cells.toNat ≠ .granted then
    s.setSlot i (.unloaded k)
  else match r.key kwk with
    | some k => s.setSlot i (.key (skipToFree kwk k))
    | none =>
      let t := s.setSlot i (.key { k with bad := some 0x0B06 })
      let t := { t with vault := { t.vault with loadFails := satAdd t.vault.loadFails 1, vint := t.vault.vint ||| 2 } }
      note 0x0602 (some k.pitch) (wordBytes 4 (mkHandle t i k.pitch)) t

/-- A record with NEXT at its bound. -/
def startRecord (kwk : Bytes) (r : NvKey) : NvKey :=
  { r with stateful := r.stateful.map (fun f => (skipState kwk f).getD { f with caches := [] }) }

/-- The Ledger's record of a key low on indices (event 0x0604). -/
def noteLow (h : BitVec 32) (left : Nat) (b : BitVec 2) (s : State) : State :=
  if b = 0 then s else note 0x0604 (some (handlePitch h)) (wordBytes 4 h ++ zeros 4 ++ leBytes 8 left) s

/-- The Ledger's records of the indices that a key has left where NEXT has moved to its bound (R202, R204). -/
def noteSkipped (kwk : Bytes) (s : State) (n : Nat) (r : NvKey) : State :=
  match r.stateful, r.stateful.bind (skipState kwk) with
  | some old, some f =>
    let h := mkHandle s (BitVec.ofNat 13 n) r.pitch
    let left := f.limit - f.next
    let due := f.lowSaid &&& ~~~old.lowSaid
    noteLow h left (due &&& 2) (noteLow h left (due &&& 1) s)
  | _, _ => s

/-- The keys of a pitch that its quotas leave on the non-volatile die. -/
def leftKeys (s : State) (p : BitVec 8) : Nat :=
  (s.vault.slots.filter (fun e => match e.2 with
    | .unloaded k => k.pitch == p
    | _ => false)).length

/-- The Ledger's record of a pitch whose keys its quotas leave unloaded (event 0x0102). -/
def noteLeft (s : State) (p : Nat) : State :=
  let p := BitVec.ofNat 8 p
  let n := leftKeys s p
  if n = 0 ∨ (s.pitch p).state = .absent then s else note 0x0102 (some p) (wordBytes 2 (BitVec.ofNat 16 n)) s

/-- Every record with a valid entry, in ascending slot order: an entry whose mark is torn is none (R348). -/
def loadKeys (s : State) : State :=
  let kwk := vaultKey s
  let old := s.nv.keys.filter (fun (e : Nat × Option NvKey) => (e.2.map (fun r => r.mark == 0x5A)).getD false)
  let s := { s with nv := { s.nv with keys := old.map (fun (e : Nat × Option NvKey) => (e.1, e.2.map (startRecord kwk))) } }
  let s := s.nv.keys.foldl (fun (s : State) (e : Nat × Option NvKey) => match e.2 with
    | some r => loadRecord kwk s e.1 r
    | none => s) s
  let s := old.foldl (fun (s : State) (e : Nat × Option NvKey) => match e.2 with
    | some r => noteSkipped kwk s e.1 r
    | none => s) s
  let s := (List.range 256).foldl noteLeft s
  { s with vault := { s.vault with nvLoaded := true } }

/-- A new root key from the carafe, where the old one is absent (R349). Bytes that the carafe lacks at a start under a main
failure are open (log 1). -/
def newRoot (s : State) : State :=
  let (got, s) := carafeTake s 32
  let (free, s) := drawFree s
  let root := got ++ leBytes (32 - got.length) free
  let s := writeFile (fun b => { b with rootKey := some root }) s
  let s := { s with nv := { s.nv with keys := [] }, vault := { s.vault with rootNew := true } }
  note 0x0603 none [] s

/-- The vault at a start (R346, R349). -/
def vaultStart (s : State) : State :=
  let s := freshVault s
  let s := match s.battery.rootKey with
    | some _ => s
    | none => newRoot s
  let root := s.battery.rootKey.getD []
  loadKeys { s with vault := { s.vault with rootValid := true, tagKey := Config.tagKey Config.deviceSecret root s.ledger.cycles } }

end Sys2Proof.Machine
end

