-- ==== Sys2Proof/Machine/Life.lean ====
section
/-! DEFINITION. Life-cycle states, certificates, transitions with their wipe, debug grants, boundary scan, and the second
comparator of every double decision (R185, R360 to R371, R375, R376, R388, R389). -/
namespace Sys2Proof.Machine

/-! ### Fuse words (R360 to R362) -/

/-- The constants of W0 to W19. -/
def fuseConsts : List (BitVec 16) :=
  [0x0FF0, 0x33CC, 0x55AA, 0x6699, 0x3C3C, 0x5A5A, 0x9669, 0xA5A5, 0xC3C3, 0x0F0F,
   0xF00F, 0x3CC3, 0x5AA5, 0x6996, 0x9966, 0xAA55, 0xCC33, 0xF0F0, 0xA55A, 0xFFFF]

/-- A word's constant. -/
def fuseConst (k : Nat) : BitVec 16 := (fuseConsts[k]?).getD 0

/-- A word of a field of fuses. -/
def fuseWord (ws : List (BitVec 16)) (k : Nat) : BitVec 16 := (ws[k]?).getD 0

def wordWhole (ws : List (BitVec 16)) (k : Nat) : Bool := fuseWord ws k == fuseConst k

def wordBlank (ws : List (BitVec 16)) (k : Nat) : Bool := fuseWord ws k == 0

def wordPartial (ws : List (BitVec 16)) (k : Nat) : Bool := !wordWhole ws k && !wordBlank ws k

/-- The whole words, counted. -/
def wholeCount (ws : List (BitVec 16)) : Nat := ((List.range 20).filter (wordWhole ws)).length

/-- How many words from W0 on are whole, when every later one to W15 is blank: none for any other pattern. -/
def testPrefix (ws : List (BitVec 16)) : Option Nat :=
  let n := ((List.range 16).takeWhile (wordWhole ws)).length
  if ((List.range 16).drop n).all (wordBlank ws) then some n else none

/-- The state that the words decode to (R361). -/
def decodeFuses (ws : List (BitVec 16)) : BitVec 5 :=
  if wordWhole ws 19 then 0x14
  else if (List.range 20).any (wordPartial ws) then 0x1F
  else if (List.range 20).all (wordBlank ws) then 0x00
  else match testPrefix ws with
    | none => 0x1F
    | some 0 => 0x1F
    | some (j + 1) =>
      let late := (wordWhole ws 16, wordWhole ws 17, wordWhole ws 18)
      if late = (false, false, false) then BitVec.ofNat 5 (if j % 2 = 0 then 1 + j / 2 else 9 + j / 2)
      else if late = (true, false, false) then 0x11
      else if late = (true, true, false) then 0x12
      else if late.1 && late.2.2 then 0x13
      else 0x1F

/-- What a transition needs (R364). -/
inductive LifeAuth where
  | nothing
  | token (n : Nat)
  | certificate
  | quorum
  | certificateAndQuorum
  deriving DecidableEq, Repr

/-- A row of R364: the word that it burns, its authorisation, and whether it wipes. -/
structure LifeRow where
  word : Nat
  auth : LifeAuth
  wipe : Bool
  deriving DecidableEq, Repr

/-- The permitted transitions (R364), by state codes. -/
def lifeRow (src dst : Nat) : Option LifeRow :=
  if src = 0 ∧ dst = 1 then some ⟨0, .token 0, false⟩
  else if 1 ≤ src ∧ src ≤ 8 ∧ dst = src + 8 then some ⟨2 * (src - 1) + 1, .nothing, false⟩
  else if 9 ≤ src ∧ src ≤ 0x0F ∧ dst = src - 7 then some ⟨2 * (src - 9) + 2, .token (src - 8), false⟩
  else if 1 ≤ src ∧ src ≤ 0x10 ∧ dst = 0x11 then some ⟨16, .certificate, true⟩
  else if src = 0x11 ∧ dst = 0x12 then some ⟨17, .nothing, false⟩
  else if src = 0x11 ∧ dst = 0x13 then some ⟨18, .certificate, true⟩
  else if src = 0x12 ∧ dst = 0x13 then some ⟨18, .certificateAndQuorum, true⟩
  else if src = 0x12 ∧ dst = 0x14 then some ⟨19, .quorum, true⟩
  else if src ≠ 0x14 ∧ dst = 0x14 then some ⟨19, .nothing, true⟩
  else none

/-- The one partial word, if exactly one is partial and its burned bits are bits of its constant. -/
def partialWord (ws : List (BitVec 16)) : Option Nat :=
  match (List.range 20).filter (wordPartial ws) with
  | [k] => if fuseWord ws k &&& ~~~(fuseConst k) = 0 then some k else none
  | _ => none

/-- The source and target of a transition that a partial word left unfinished (R362). -/
def pendingPair (ws : List (BitVec 16)) : Option (BitVec 5 × BitVec 5) :=
  if decodeFuses ws ≠ 0x1F then none
  else match partialWord ws with
    | none => none
    | some k =>
      let a := decodeFuses (ws.set k 0)
      let b := decodeFuses (ws.set k (fuseConst k))
      if (lifeRow a.toNat b.toNat).isSome then some (a, b) else none

/-- LC_STATE.PENDING_TARGET (R362, R377). -/
def pendingTarget (s : State) : BitVec 5 := ((pendingPair s.life.fuses).map (·.2)).getD 0x1F

/-- The state that a transition starts from, for its row and its certificate: under INVALID, the pending one's source. -/
def lifeSource (s : State) (target : BitVec 5) : BitVec 5 :=
  if s.life.inForce = 0x1F then
    match pendingPair s.life.fuses with
    | some (a, b) => if b = target then a else 0x1F
    | none => 0x1F
  else s.life.inForce

/-- The row of a transition asked for now (R364); under INVALID, the pending target and SCRAP alone (R362). -/
def rowNow (s : State) (target : BitVec 5) : Option LifeRow := lifeRow (lifeSource s target).toNat target.toNat

/-! ### Scopes (R363, R370) -/

/-- The scopes that a state gives without a certificate. -/
def stateScopes (c : BitVec 5) : BitVec 16 :=
  let n := c.toNat
  if (1 ≤ n ∧ n ≤ 8) ∨ n = 0x13 then 0x3F else if n = 0x11 then 0x1F else 0

/-- The scopes in force. -/
def scopes (s : State) : BitVec 16 := stateScopes s.life.inForce ||| ((s.life.granted.map (·.1)).getD 0)

/-- LC_INT bits set (R377). -/
def lifeInt (b : BitVec 4) (s : State) : State := { s with life := { s.life with lint := s.life.lint ||| b } }

/-! ### Certificates (R366, R367) -/

/-- A refusal of a certificate or transition: the host's STATUS and DETAIL, and the monitor's code. -/
structure LifeBad where
  status : BitVec 16
  detail : BitVec 16
  code   : BitVec 8
  deriving DecidableEq, Repr

def lifeBad (d : BitVec 16) (c : BitVec 8) : LifeBad := { status := stBadField, detail := d, code := c }

/-- Check 2 of R367. -/
def certFormatOk (kind : Nat) (cert : Bytes) : Bool :=
  let h := cert.take 64
  h.take 4 == ascii "CQLC" && fieldAt 16 h 4 2 == 1 && fieldAt 8 h 6 1 == BitVec.ofNat 8 kind &&
  allZero (slice h 0x13 1) && allZero (slice h 0x16 2) && allZero (slice h 0x38 8) && sigPadOk (cert.drop 64) &&
  (if kind = 1 then allZero (slice h 0x14 2) && allZero (slice h 0x18 32) else allZero (slice h 0x10 3))

/-- The signer of a certificate (R366). -/
def certIndex (cert : Bytes) : Nat := (fieldAt 8 cert 7 1).toNat

/-- The hash that an index stands for. -/
def lifeSigner (s : State) (i : Nat) : Option Bytes := if i = 0 then some (romHash 3) else signerAt s i

/-- Checks 1 to 5 of R367. -/
def certBad (s : State) (kind : Nat) (cert : Bytes) : Option LifeBad :=
  let body := cert.drop 64
  if cert.length ≠ 7488 then some { status := stBadLength, detail := 0x0F70, code := 0x06 }
  else if certFormatOk kind cert = false then some (lifeBad 0x0F71 0x06)
  else if fieldAt 64 cert 8 8 ≠ s.dev.uid then some (lifeBad 0x0F72 0x08)
  else if (kind = 1 ∧ certIndex cert ≠ 0) ∨ lifeSigner s (certIndex cert) ≠ some (signerHash (sigKeys body)) then
    some (lifeBad 0x0F73 0x07)
  else if sigsVerify s (if kind = 1 then "CQX18-LIFECYCLE" else "CQX18-DEBUG-CERT") (cert.take 64) body = false then
    some (lifeBad 0x0F74 0x07)
  else none

/-- Check 6 of R367 for a life-cycle certificate. -/
def lifeBindingOk (s : State) (src dst : BitVec 5) (cert : Bytes) : Bool :=
  fieldAt 8 cert 0x10 1 == src.setWidth 8 && fieldAt 8 cert 0x11 1 == dst.setWidth 8 &&
  fieldAt 8 cert 0x12 1 == BitVec.ofNat 8 (wholeCount s.life.fuses)

/-- A life-cycle certificate for a transition (R367). -/
def lifeCertBad (s : State) (target : BitVec 5) (cert : Bytes) : Option LifeBad :=
  match certBad s 1 cert with
  | some b => some b
  | none => if lifeBindingOk s (lifeSource s target) target cert then none else some (lifeBad 0x0F75 0x08)

/-- SCOPES of a certificate. -/
def certScopes (cert : Bytes) : BitVec 16 := fieldAt 16 cert 0x14 2

/-- Check 7 of R367: the state accepts a debug certificate of this signer for these scopes (R363; log 17). -/
def grantAllowed (s : State) (cert : Bytes) : Bool :=
  let sc := certScopes cert
  let i := certIndex cert
  (inField s || (inProvisioning s && i == 0 && sc == 0x20)) && (sc &&& 0xFFC0) == 0 && (!bit sc 5 || i == 0)

/-- A debug certificate judged (R367): it uses up the nonce once it has passed check 2, and a refusal is counted. -/
def grantBad (s : State) (cert : Bytes) : Option LifeBad :=
  match certBad s 2 cert with
  | some b => some b
  | none =>
    if s.life.nonce ≠ some (slice cert 0x18 32) then some (lifeBad 0x0F75 0x08)
    else if grantAllowed s cert then none else some (lifeBad 0x0F76 0x04)

/-- What a certificate's judgement leaves behind. -/
def certUsed (debug : Bool) (cert : Bytes) (bad : Option LifeBad) (s : State) : State :=
  let l := s.life
  let l := if debug && decide (cert.length = 7488) && certFormatOk 2 cert then { l with nonce := none } else l
  let l := if bad.isSome then { l with refusals := satAdd l.refusals 1 } else l
  let s := { s with life := l }
  if debug && bad.isSome then lifeInt 2 s else s

/-! ### Transitions (R364, R365, R368, R369) -/

/-- A transition is asked for and undecided, or decided and not at its end. -/
def transiting (s : State) : Bool :=
  match s.life.decision with
  | some d => match d.ask with
    | .transition _ _ => true
    | .grant _ _ => false
  | none => false

/-- A word is being burned (LC_STATE.BURNING, R377): the comparators have agreed on a transition, and it has not come to its end. The wipe
before the burn is no step of its own in the model (DESIGN CHOICE, log 72). -/
def burning (s : State) : Bool := transiting s && ((s.life.decision.map (·.agreed)).getD false)

/-- A transition is under way, or done with the restart to come, or a journal is open for another target (R365). -/
def lifeBusy (s : State) (target : BitVec 5) : Bool :=
  transiting s || (s.dev.restartDue && decodeFuses s.life.fuses != s.life.inForce) ||
  (journalOpen s.nv.wipe && journalTarget s.nv.wipe != target)

/-- The consent of a quorum is on record: the journal of this target is in phase WIPED (R368). -/
def consentKept (s : State) (target : BitVec 5) : Bool :=
  journalPhase s.nv.wipe == 2 && journalTarget s.nv.wipe == target

/-- The quorum of R364 stands; INVALID completes an earlier consent or needs the state's own. -/
def quorumBad (s : State) (target : BitVec 5) : Option LifeBad :=
  if consentKept s target ∨ quorumOpen s 4 then none else some (lifeBad 0x0F78 0x0D)

/-- The length of input that a row's authorisation takes. -/
def authLen : LifeAuth → Nat
  | .nothing => 0
  | .quorum => 0
  | .token _ => 16
  | _ => 7488

/-- The authorisation of a row judged (R364, R367). -/
def authBad (s : State) (target : BitVec 5) (r : LifeRow) (auth : Bytes) : Option LifeBad :=
  match r.auth with
  | .nothing => none
  | .token n => if sha3_256 auth = Config.tokenDigest n then none else some (lifeBad 0x0F79 0x09)
  | .certificate => lifeCertBad s target auth
  | .quorum => quorumBad s target
  | .certificateAndQuorum => match lifeCertBad s target auth with
    | some b => some b
    | none => quorumBad s target

/-- A transition asked for is judged (R364, R365): comparator A's decision. -/
def transitionBad (s : State) (target : BitVec 5) (auth : Bytes) : Option LifeBad :=
  if lifeBusy s target then some (lifeBad 0x0F7C 0x0B)
  else match rowNow s target with
    | none => some (lifeBad 0x0F77 0x0D)
    | some r =>
      if auth.length ≠ authLen r.auth then
        some { status := stBadLength, detail := 0x0F70, code := if authLen r.auth = 7488 then 0x06 else 0x0D }
      else authBad s target r auth

/-- A transition refused: the flag, and a refused certificate's count. -/
def transitionRefused (s : State) (target : BitVec 5) (auth : Bytes) (b : LifeBad) : State :=
  let cert := match rowNow s target with
    | some r => decide (authLen r.auth = 7488 ∧ b.detail ≠ 0x0F78)
    | none => false
  lifeInt 4 (if cert && !lifeBusy s target then certUsed false auth (some b) s else s)

/-- The session that a transition consumes in FIELD (R417). -/
def consumeLife (s : State) (r : LifeRow) : State :=
  match r.auth with
  | .quorum => consume s 4
  | .certificateAndQuorum => consume s 4
  | _ => s

/-- A transition that A accepts waits for B (R365); the journal will keep the authorisation's hash. -/
def askTransition (job : Option JobId) (target : BitVec 5) (auth : Bytes) (s : State) : State :=
  let s := match rowNow s target with
    | some r => consumeLife s r
    | none => s
  let d : LifeDecision := { job := job, ask := .transition target (sha384 auth), bad := none, agreed := false }
  { s with life := { s.life with decision := some d } }

/-- A transition or a grant that A refuses waits for B too (R388). -/
def askRefused (job : Option JobId) (ask : LifeAsk) (b : LifeBad) (s : State) : State :=
  let d : LifeDecision := { job := job, ask := ask, bad := some (b.status, b.detail, b.code), agreed := false }
  { s with life := { s.life with decision := some d } }

/-- Step 2 of R368, once B has agreed: the journal is opened for a transition that wipes, and a descriptor that has not started is judged as
one fetched under LOCK (R77). -/
def openJournal (target : BitVec 5) (auth : Bytes) (s : State) : State :=
  match rowNow s target with
  | some r => if r.wipe then
      let s := { s with nv := { s.nv with wipe := journalWrite 1 target auth s.nv.wipe }, life := { s.life with closing := true } }
      (s.jobs.filter (fun x => x.phase = .waiting)).foldl judgeJob s
    else s
  | none => s

/-- A context zeroed in place. -/
def zeroContext (c : Context) : Context := { c with kind := 0, data := .empty }

/-- Steps 3 to 5 of R368: the destroy line acts, the persistent areas are erased, the contexts zeroed, the journal says WIPED. -/
def wipeAll (s : State) : State :=
  let s := destroyLine s
  let j := s.nv.wipe
  { s with nv := { s.nv with keys := [], dormant := none, user := [],
                             wipe := if journalOpen j then journalWrite 2 (journalTarget j) (journalData j) j else j },
           contexts := Tab.mapVals none (fun _ c => c.map zeroContext) s.contexts }

/-- Bits of a word burned: burning only ever sets bits (R360). -/
def burnTo (k : Nat) (v : BitVec 16) (s : State) : State :=
  { s with life := { s.life with fuses := s.life.fuses.set k (fuseWord s.life.fuses k ||| v) } }

/-- The wipe of a row, if it has one. -/
def wipeFor (r : LifeRow) (s : State) : State := if r.wipe then wipeAll s else s

/-- A life-cycle decision's entry in the Evidence Log (R365, R370, R394): in the bytes of the measured value the states from and to of a
transition, or the scopes of a grant, and in the byte of the flags its outcome, 0 done, 1 a burn that failed, 2 refused. The spec gives the
entry no layout of its own (DESIGN CHOICE, log 72). -/
def lifeEvidence (source : BitVec 16) (value : BitVec 16) (outcome : BitVec 8) (s : State) : State :=
  evidence source 0 (wordBytes 2 value ++ zeros 6 ++ [outcome]) s

/-- A transition recorded with the state that it gives (R365). -/
def recordTransition (src : BitVec 5) (outcome : BitVec 8) (s : State) : State :=
  let dst := decodeFuses s.life.fuses
  lifeEvidence 0xF001 (src.setWidth 16 ||| (dst.setWidth 16 <<< 8)) outcome (note 0x0801 none [src.setWidth 8, dst.setWidth 8] s)

/-- Steps 3 to 7 of R368 and the burn of R369: the transition is recorded, and the part restarts. -/
def doTransition (target : BitVec 5) (s : State) : State :=
  match rowNow s target with
  | none => s
  | some r =>
    let src := s.life.inForce
    let s := burnTo r.word (fuseConst r.word) (wipeFor r s)
    let s := { s with nv := { s.nv with wipe := journalClose s.nv.wipe }, life := { s.life with decision := none },
                      dev := { s.dev with restartDue := true } }
    recordTransition src 0 s

/-- A burn broken off: of the bits still to burn, some first ones in ascending order are burned, how many is open (log 1): of a cut perhaps
all, of a burn that fails not the last. -/
def burnPart (cut : Bool) (r : LifeRow) (s : State) : State :=
  let (n, s) := drawFree s
  let want := (List.range 16).filter (fun i => bit (fuseConst r.word) i && !bit (fuseWord s.life.fuses r.word) i)
  let got := want.take (n % (if cut then want.length + 1 else max 1 want.length))
  burnTo r.word (got.foldl (fun v i => v ||| (1#16 <<< i)) (fuseWord s.life.fuses r.word)) s

/-- The burn fails its read-backs (R369): the partial word makes the state INVALID at once, and a completion may be tried. Where the very
first bit failed the word is still blank, and the state is as it was. The outcome is recorded (R365). -/
def burnFails (target : BitVec 5) (s : State) : State :=
  match rowNow s target with
  | none => s
  | some r =>
    let src := s.life.inForce
    let s := burnPart false r (wipeFor r s)
    recordTransition src 1 { s with life := { s.life with decision := none, inForce := decodeFuses s.life.fuses } }

/-- The last write of the wipe journal cut (R368). -/
def tearWipe (s : State) : State :=
  let (n, s) := drawFree s
  let (v, s) := drawFree s
  { s with nv := { s.nv with wipe := journalTear n v s.nv.wipe } }

/-- A power cut during a transition (R368): how far it had come is open (log 1). A row without a wipe has no journal. -/
def cutTransition (s : State) : State :=
  match s.life.decision with
  | none => s
  | some d => match d.ask, d.agreed with
    | .transition target _, true => match rowNow s target with
      | none => s
      | some r =>
        let (n, s) := drawFree s
        match n % 5 with
        | 0 => s
        | 1 => if r.wipe then tearWipe s else s
        | 2 => if r.wipe then tearWipe (wipeAll s) else s
        | 3 => wipeFor r s
        | _ => burnPart true r (wipeFor r s)
    | _, _ => s

/-! ### Grants (R370) -/

/-- Scopes granted (R370). -/
def doGrant (sc : BitVec 16) (signer : BitVec 2) (s : State) : State :=
  let s := lifeInt 1 { s with life := { s.life with granted := some (sc, signer), decision := none } }
  lifeEvidence 0xF002 sc 0 (note 0x0802 none ([0, 0] ++ wordBytes 2 sc ++ [signer.setWidth 8]) s)

/-- What a debug certificate asks for. -/
def grantAsk (cert : Bytes) : LifeAsk := .grant (certScopes cert) (BitVec.ofNat 2 (certIndex cert))

/-- A grant that A accepts waits for B. -/
def askGrant (job : Option JobId) (cert : Bytes) (s : State) : State :=
  let d : LifeDecision := { job := job, ask := grantAsk cert, bad := none, agreed := false }
  { s with life := { s.life with decision := some d } }

/-! ### Opcodes (R371, R376) -/

/-- A nonce drawn from the carafe (R371). -/
def newNonce (s : State) : Bytes × State :=
  let (n, s) := carafeTake s 32
  (n, { s with life := { s.life with nonce := some n } })

def lcNonceSpec : OpSpec :=
  { code := 0x0F30, admin := true,
    uses := fun _ => { out := true },
    lengths := fun _ x => badWhen (decide (x.desc.outLen.toNat < 32)) (bad stLengthShort 0),
    draws := fun _ _ => .carafe 32,
    run := fun s _ =>
      let (n, s) := newNonce s
      { state := s, out := some { outOf stOk 0 with output := n } } }

/-- The target that LC_TRANSITION names. -/
def lcTarget (d : Desc) : BitVec 5 := d.param.setWidth 5

/-- A transition that A refuses: LC_BUSY at once, any other refusal once B has evaluated the request too (R388). -/
def refuseTransition (job : Option JobId) (t : BitVec 5) (auth : Bytes) (b : LifeBad) (s : State) : State :=
  askRefused job (.transition t (sha384 auth)) b (transitionRefused s t auth b)

def lcTransitionRun (s : State) (x : Job) : Ran :=
  let auth := jobInput s x
  let t := lcTarget x.desc
  match transitionBad s t auth with
  | some b => if b.detail = 0x0F7C then { state := transitionRefused s t auth b, out := some (outOf b.status b.detail) }
              else { state := refuseTransition (some x.id) t auth b s, out := none }
  | none => { state := askTransition (some x.id) t auth s, out := none }

/-- What a refusal by a check of R71 leaves (R367, R377): TRANSITION_REFUSED where the confirm value or the length fails, and a refused
certificate counted where the transition asks for one. -/
def transitionChecked (s : State) (x : Job) (b : Bad) : State :=
  if b.detail = 0x0F7A then lifeInt 4 s
  else if b.detail = 0x0F70 then transitionRefused s (lcTarget x.desc) [] { status := b.status, detail := b.detail, code := 0x06 }
  else s

/-- A grant waits for its second comparator: a transition waits for it in turn. -/
def grantDeciding (s : State) : Bool :=
  match s.life.decision with
  | some d => match d.ask with
    | .grant _ _ => true
    | .transition _ _ => false
  | none => false

def lcTransitionSpec : OpSpec :=
  { code := 0x0F31, admin := true,
    uses := fun _ => { param := 0xFFFFFFFF0000001F, inp := true },
    fields := fun _ x => badWhen (bits x.desc.param 32 32 != 0x4C435452#32) (badField 0x0F7A),
    lengths := fun _ x => badWhen (!([0, 16, 7488].contains x.desc.inLen.toNat)) (badLength 0x0F70),
    refused := transitionChecked,
    blocked := fun s _ => grantDeciding s,
    run := lcTransitionRun }

def debugGrantRun (s : State) (x : Job) : Ran :=
  let cert := jobInput s x
  let b := grantBad s cert
  let t := certUsed true cert b s
  match b with
  | some b => { state := askRefused (some x.id) (grantAsk cert) b t, out := none }
  | none => { state := askGrant (some x.id) cert t, out := none }

/-- A debug certificate that fails check 1 of R367 is refused and counted too. -/
def grantChecked (s : State) (_ : Job) (b : Bad) : State :=
  if b.detail = 0x0F70 then certUsed true [] (some { status := b.status, detail := b.detail, code := 0x06 }) s else s

/-- One decision of the life-cycle block is taken at a time. -/
def lifeDeciding (s : State) : Bool := s.life.decision.isSome

def debugGrantSpec : OpSpec :=
  { code := 0x0F32, admin := true,
    uses := fun _ => { inp := true },
    lengths := fun _ x => badWhen (x.desc.inLen != 7488) (badLength 0x0F70),
    refused := grantChecked,
    blocked := fun s _ => lifeDeciding s,
    run := debugGrantRun }

def execLcNonce (j : JobId) (s : State) : Host.Outcome State Fault Refusal := act s (startJob lcNonceSpec j s)

def execLcTransition (j : JobId) (s : State) : Host.Outcome State Fault Refusal := act s (startJob lcTransitionSpec j s)

def execDebugGrant (j : JobId) (s : State) : Host.Outcome State Fault Refusal := act s (startJob debugGrantSpec j s)

/-! ### The second comparator (R185, R365, R388, R389) -/

/-- A line that the monitor sends (R372). -/
def sendLine (t : Bytes) (s : State) : State := { s with out := .line (t ++ [0x0D#8, 0x0A#8]) :: s.out }

/-- A number in upper-case hexadecimal digits. -/
def hexDigits : Nat → Nat → Bytes
  | 0, _ => []
  | k + 1, v =>
    let d := v % 16
    hexDigits k (v / 16) ++ [BitVec.ofNat 8 (if d < 10 then 48 + d else 55 + d)]

/-- The answer ER with a code. -/
def answerEr (c : BitVec 8) (s : State) : State := sendLine (ascii "ER " ++ hexDigits 2 c.toNat) s

/-- The answer OK with its fields. -/
def answerOk (fields : List Bytes) (s : State) : State := sendLine (ascii "OK" ++ fields.flatMap (fun f => 0x20#8 :: f)) s

/-- The lines of the monitor's staging buffer forgotten. -/
def clearLines (s : State) : State := { s with life := { s.life with staging := [] } }

/-- No decision of the life-cycle block is pending any more. -/
def dropDecision (s : State) : State := { s with life := { s.life with decision := none } }

/-- The result of a host job that has waited for the second comparator. -/
def settleJob (j : JobId) (o : JobOut) (s : State) : State :=
  match s.job j with
  | some x => s.setJob { x with out := some o }
  | none => s

/-- A decision asks for a grant. -/
def asksGrant (d : LifeDecision) : Bool :=
  match d.ask with
  | .grant _ _ => true
  | .transition _ _ => false

/-- Both comparators refuse: the request is answered, and the decision recorded (R394). -/
def bothRefuse (d : LifeDecision) (b : BitVec 16 × BitVec 16 × BitVec 8) (s : State) : State :=
  let s := match d.ask with
    | .grant sc _ => lifeEvidence 0xF002 sc 2 (dropDecision s)
    | .transition t _ => lifeEvidence 0xF001 (s.life.inForce.setWidth 16 ||| (t.setWidth 16 <<< 8)) 2 (dropDecision s)
  match d.job with
  | some j => settleJob j (outOf b.1 b.2.1) s
  | none => answerEr b.2.2 (clearLines s)

/-- B agrees on a decision of the life-cycle block: what both refuse is refused; a grant stands at once; a transition opens its journal, and
its wipe and burn go on, with the job's record for a host. -/
def lifeAgrees (d : LifeDecision) (s : State) : State :=
  match d.bad, d.ask, d.job with
  | some b, _, _ => bothRefuse d b s
  | none, .grant sc i, some j => settleJob j (outOf stOk 0 (sc.setWidth 64)) (doGrant sc i s)
  | none, .grant sc i, none => answerOk [hexDigits 4 sc.toNat] (clearLines (doGrant sc i s))
  | none, .transition t a, j =>
    let said := openJournal t a { s with life := { s.life with decision := some { d with agreed := true } } }
    match j with
    | some j => settleJob j (outOf stOk 0) said
    | none => said

/-- The write of a monitor's transition is over (R369): it is done, or its burn has failed. -/
def monitorBurned (same : Bool) (s : State) : State :=
  match s.life.decision with
  | some d => match d.ask with
    | .transition t _ =>
      if d.agreed && d.job.isNone then
        if same then answerOk [] (clearLines (doTransition t s)) else answerEr 0x0D (clearLines (burnFails t s))
      else s
    | .grant _ _ => s
  | none => s

/-- The comparators disagree on it, whichever of them refuses (R389): nothing is granted or burned, DECISION is raised, the host's job
completes as R77 gives under LOCK, be the latch set before or not, and the monitor's command is refused (log 18). -/
def lifeDisagrees (d : LifeDecision) (s : State) : State :=
  let s := raiseDecision (lifeInt (if asksGrant d then 2 else 4) (dropDecision s))
  match d.job with
  | none => answerEr (if asksGrant d then 0x04 else 0x0D) (clearLines s)
  | some j => match s.job j with
    | some x => if x.phase = .running then lockJob s x else s
    | none => s

/-- A result waits for its second comparator (R185). -/
def awaitsVerdict (x : Job) : Bool := x.phase == .running && x.verdict == .second

/-- Comparator B decides one of the results that wait: each has its own delay, so which one is a free value. A disagreement raises
DECISION, whose LOCK ends the job (R185, R389). -/
def verdictDecides (agree : Bool) (s : State) : State :=
  let js := s.jobs.filter awaitsVerdict
  if js.isEmpty then s
  else
    let (v, s) := drawFree s
    match js[v % js.length]? with
    | some x => if agree then s.setJob { x with verdict := .agreed } else raiseDecision s
    | none => s

/-- Comparator B decides what A has decided: an alarm first, then the life-cycle block, then a result under
verify-before-release. -/
def secondDecides (agree : Bool) (s : State) : State :=
  match s.alarm.decision, s.life.decision with
  | some _, _ => decideAlarm agree s
  | none, some d =>
    if d.agreed then s else if agree then lifeAgrees d s else lifeDisagrees d s
  | none, none => verdictDecides agree s

def execDecisionSecond (agree : Bool) (s : State) : Host.Outcome State Fault Refusal := act s (secondDecides agree s)

/-- A host's transition runs to its end before its record is written (R365). -/
def endTransition (j : JobId) (s : State) : State :=
  match s.life.decision with
  | some d => match d.ask with
    | .transition t _ => if d.agreed ∧ d.job = some j then doTransition t s else s
    | .grant _ _ => s
  | none => s

/-! ### Boundary scan (R375) -/

/-- The states in which output-driving instructions take effect (R363, R375). -/
def bscanAllowed (s : State) : Bool :=
  if inField s then bit (scopes s) 4 else s.life.inForce != 0x1F

/-- An instruction that drives outputs: EXTEST, CLAMP, HIGHZ. -/
def drivesPins (ir : BitVec 8) : Bool := ir == 0x00 || ir == 0x04 || ir == 0x05

/-- The data register that the instruction in force selects: the identification, the boundary-scan chain, whose cells hold what the balls then
have, which is free (log 1), or the one bit of BYPASS, which captures 0; HIGHZ and CLAMP select that one (IEEE 1149.1). -/
def selectTdr (s : State) : State :=
  let chain := s.dev.tap == 0x00 || s.dev.tap == 0x02
  let (v, s) := if chain then drawFree s else (0, s)
  { s with dev := { s.dev with tdr := if s.dev.tap = 0x01 then idcode else if chain then BitVec.ofNat 32 v else 0 } }

/-- An instruction is loaded at the JTAG port: one that drives outputs takes effect where the state allows it, and reads as BYPASS
elsewhere (R375). -/
def bscanTakes (ir : BitVec 8) (s : State) : State :=
  let takes := drivesPins ir && bscanAllowed s && alive s
  let known := takes || ir == 0x01 || ir == 0x02
  let s := selectTdr { s with dev := { s.dev with tap := if known then ir else 0xFF } }
  if takes = false ∨ s.dev.bscan then s
  else
    let s := lifeInt 8 { s with dev := { s.dev with bscan := true } }
    let s := (s.jobs.filter (fun x => x.phase = .running ∨ x.phase = .suspended ∨ x.phase = .storing)).foldl lockJob s
    let s := (s.jobs.filter (fun x => x.phase = .waiting)).foldl judgeJob s
    let s := { s with stream := { s.stream with ports := s.stream.ports.map dropPort } }
    note 0x0803 none [] s

def execBoundaryScanTakeover (ir : BitVec 8) (s : State) : Host.Outcome State Fault Refusal := act s (bscanTakes ir s)

end Sys2Proof.Machine
end

