-- ==== Sys2Proof/Machine/Staging.lean ====
section
/-! DEFINITION. The administration opcodes of the Stall Plan, the patches and the firmware (R49 to R52, R137, R138, R456). -/
namespace Sys2Proof.Machine

/-- The opcodes that run one at a time, in the order of their acceptance (R51, R138, R456). -/
def adminOps : List Nat := [0x0F01, 0x0F02, 0x0F03, 0x0F04, 0x0F05, 0x0F08, 0x0F09, 0x0F10, 0x0F11]

/-- An administration job waits for its turn, and for the rails of the die it writes (R51, R384). -/
def adminBusy (s : State) (x : Job) : Bool := earlierOf adminOps s x || nvHeld s

/-- A staging command: it starts its descriptor, or places it when it waits, and says whether the read-back at step 5 of
R49 agrees. -/
def stageJob (sp : OpSpec) (j : JobId) (s : State) : State :=
  match s.job j with
  | none => s
  | some x => if x.phase = .waiting ∧ x.desc.opcode = sp.code then placeJob sp s x else startJob sp j s

/-- A run that ends with nothing changed. -/
def endsWith (s : State) (st dt : BitVec 16) : Ran := { state := s, out := some (outOf st dt) }

/-- Steps 2 to 6 of R49: the mark is written with the record of the job, so that a job that ends otherwise leaves the
bank uncommitted. -/
def stageRun (k : BankKind) (same : Bool) (writeFails : BitVec 16) (s : State) (img : Bytes) : Ran :=
  let b := stageBank s k
  let s := writeBank k b img s
  if same then
    { state := s, out := some (outOf stOk 0 (at64 0 (s.bank k b).seq ||| at64 32 (flag 1 b))), commits := [.marked k b] }
  else endsWith s stFault writeFails

/-! ### Stall Plan (R52) -/

/-- PLAN_ERROR. -/
def planError (d : BitVec 16) (atStart bankB : Bool) (s : State) : State :=
  { s with plan := { s.plan with errDetail := d, errAtStart := atStart, errBank := bankB } }

/-- Where a staging verifies: on T0 and BN0 in Shuttered mode (R462, R463), else on the Hall controller, which shows no unit. -/
def stagePlace (s : State) (_ : Job) : Place := if s.isShuttered then .boot else .core

def planStageSpec (same : Bool) : OpSpec :=
  { code := 0x0F01, admin := true,
    place := stagePlace,
    uses := fun _ => { inp := true },
    blocked := adminBusy,
    run := fun s x =>
      let img := jobInput s x
      match planJudge s x.desc.inLen.toNat img with
      | .inl (st, d) => endsWith (planError d false false s) st d
      | .inr _ => stageRun .plan same 0x0F26 s img }

/-- The index of PLAN_SIGNER_ADD and PLAN_SIGNER_REMOVE. -/
def signerIx (d : Desc) : Nat := (bits d.param 0 2).toNat

/-- The authorisation of R47. It is judged before the other conditions on the signer's place: the spec gives no order among their DETAILs
(log 64). -/
def signerAuthBad (s : State) : Option Bad := badWhen (!(inProvisioning s || (inField s && quorumOpen s 5))) (badField 0x0F0E)

def planSignerAddSpec : OpSpec :=
  { code := 0x0F02, admin := true,
    uses := fun _ => { param := 3, inp := true },
    fields := fun _ x => badWhen (signerIx x.desc == 0) (badField 0),
    lengths := fun _ x => badWhen (x.desc.inLen != 2689) (badLength 0),
    blocked := adminBusy,
    judge := fun s x => firstBad [signerAuthBad s, badWhen (signerAt s (signerIx x.desc)).isSome (badField 0x0F0B)],
    run := fun s x =>
      { state := consume s 5, out := some (outOf stOk 0), commits := [.signer (signerIx x.desc) (some (signerHash (jobInput s x)))] } }

def planSignerRemoveSpec : OpSpec :=
  { code := 0x0F03, admin := true,
    uses := fun _ => { param := 3 },
    fields := fun _ x => badWhen (signerIx x.desc == 0) (badField 0),
    blocked := adminBusy,
    judge := fun s x => firstBad [signerAuthBad s,
      badWhen ((s.plan.inForce.map (·.signer.toNat)) == some (signerIx x.desc)) (badField 0x0F0D)],
    run := fun s x =>
      let empty := (signerAt s (signerIx x.desc)).isNone
      { state := consume s 5, out := some (outOf (if empty then stNoOutput else stOk) 0), commits := [.signer (signerIx x.desc) none] } }

/-- The new minimum of the SVN opcodes. -/
def newMin (d : Desc) : BitVec 16 := d.param.setWidth 16

/-- What raising a minimum comes to: nothing to do, too high, or raised, both copies before the record. -/
def raiseRun (s : State) (x : Job) (k : BankKind) (now : SvnMin) (cap tooHigh : BitVec 16) : Ran :=
  let v := newMin x.desc
  if v.toNat ≤ (svnMinOf now).toNat then endsWith s stNoOutput 0
  else if cap.toNat < v.toNat then endsWith s stBadField tooHigh
  else { state := s, out := some (outOf stOk 0), commits := [.svn k v] }

def planSvnRaiseSpec : OpSpec :=
  { code := 0x0F04, admin := true,
    uses := fun _ => { param := 0xFFFF },
    blocked := adminBusy,
    run := fun s x => raiseRun s x .plan s.nv.planSvnMin ((s.plan.inForce.map (·.svn)).getD 0) 0x0F0C }

/-- The bank that PLAN_READ reads, with whether no plan is in force. -/
def readBank (s : State) : Option (Bool × Bool) :=
  match bankInForce s .plan with
  | some b => some (b, false)
  | none => (prefBank s .plan).map (fun b => (b, true))

def planReadRun (s : State) (x : Job) : Ran :=
  match readBank s with
  | none => endsWith s stNoOutput 0
  | some (b, none_) =>
    let img := bankImage (s.bank .plan b)
    let n := min img.length x.desc.outLen.toNat
    let r : BitVec 64 := at64 32 (flag 1 b) ||| at64 33 (flag 1 none_)
    if n = 0 then { state := s, out := some (outOf stNoOutput 0 r) }
    else { state := s, out := some { outOf (if n < img.length then stTruncated else stOk) 0 r with output := img.take n } }

def planReadSpec : OpSpec :=
  { code := 0x0F05, admin := true,
    uses := fun _ => { out := true },
    blocked := earlierOf adminOps,
    run := planReadRun }

def execPlanStage (j : JobId) (same : Bool) (s : State) : Host.Outcome State Fault Refusal := act s (stageJob (planStageSpec same) j s)

def execPlanSignerAdd (j : JobId) (s : State) : Host.Outcome State Fault Refusal := act s (startJob planSignerAddSpec j s)

def execPlanSignerRemove (j : JobId) (s : State) : Host.Outcome State Fault Refusal := act s (startJob planSignerRemoveSpec j s)

def execPlanSvnRaise (j : JobId) (s : State) : Host.Outcome State Fault Refusal := act s (startJob planSvnRaiseSpec j s)

def execPlanRead (j : JobId) (s : State) : Host.Outcome State Fault Refusal := act s (startJob planReadSpec j s)

/-! ### Microcode patches (R137, R138) -/

/-- SEQ_ERROR. -/
def patchError (d : BitVec 16) (atStart bankB : Bool) (s : State) : State :=
  { s with seq := { s.seq with errDetail := d, errAtStart := atStart, errBank := bankB } }

def patchStageSpec (same : Bool) : OpSpec :=
  { code := 0x0F08, admin := true,
    place := stagePlace,
    uses := fun _ => { inp := true },
    blocked := adminBusy,
    run := fun s x =>
      let img := jobInput s x
      match patchJudge s (if s.boot.fwInForce then some s.boot.baseId else none) x.desc.inLen.toNat img with
      | .inl (st, d) => endsWith (patchError d false false s) st d
      | .inr _ => stageRun .patch same 0x0F6A s img }

def patchSvnRaiseSpec : OpSpec :=
  { code := 0x0F09, admin := true,
    uses := fun _ => { param := 0xFFFF },
    blocked := adminBusy,
    run := fun s x => raiseRun s x .patch s.nv.patchSvnMin ((s.seq.patch.map (·.svn)).getD 0) 0x0F6B }

def execPatchStage (j : JobId) (same : Bool) (s : State) : Host.Outcome State Fault Refusal := act s (stageJob (patchStageSpec same) j s)

def execPatchSvnRaise (j : JobId) (s : State) : Host.Outcome State Fault Refusal := act s (startJob patchSvnRaiseSpec j s)

/-! ### Firmware (R456) -/

def fwStageSpec (same : Bool) : OpSpec :=
  { code := 0x0F10, admin := true,
    place := stagePlace,
    uses := fun _ => { inp := true },
    blocked := adminBusy,
    run := fun s x =>
      let img := jobInput s x
      match fwJudge s x.desc.inLen.toNat img with
      | .inl (st, d) => endsWith s st d
      | .inr _ => stageRun .fw same 0x0FD7 s img }

def fwSvnRaiseSpec : OpSpec :=
  { code := 0x0F11, admin := true,
    uses := fun _ => { param := 0xFFFF },
    blocked := adminBusy,
    run := fun s x => raiseRun s x .fw s.nv.fwSvnMin s.boot.fwSvn 0x0FD8 }

def execFwStage (j : JobId) (same : Bool) (s : State) : Host.Outcome State Fault Refusal := act s (stageJob (fwStageSpec same) j s)

def execFwSvnRaise (j : JobId) (s : State) : Host.Outcome State Fault Refusal := act s (startJob fwSvnRaiseSpec j s)

end Sys2Proof.Machine
end

