-- ==== Sys2Proof/Machine/Float.lean ====
section
/-! DEFINITION. The floating-point unit of a tile (R156): IEEE 754 binary64, each result correctly rounded under one of four
modes, subnormals in full, one NaN. -/
namespace Sys2Proof.Machine

/-- The value of a binary64 word: a finite one is `m` × 2^`e` with its sign, `m` not zero. -/
inductive Fp where
  | nan
  | inf (neg : Bool)
  | zero (neg : Bool)
  | fin (neg : Bool) (m : Nat) (e : Int)
  deriving DecidableEq, Repr

/-- The one NaN (R156). -/
def fpNan : BitVec 64 := 0x7FF8000000000000

/-- The value that a word spells. -/
def fpOf (x : BitVec 64) : Fp :=
  let neg := bit x 63
  let ex := (bits x 52 11 : BitVec 11).toNat
  let fr := (bits x 0 52 : BitVec 52).toNat
  if ex = 0x7FF then (if fr = 0 then .inf neg else .nan)
  else if ex = 0 then (if fr = 0 then .zero neg else .fin neg fr (-1074))
  else .fin neg (2 ^ 52 + fr) ((ex : Int) - 1075)

/-- A word of a sign, an exponent field and a fraction. -/
def fpWord (neg : Bool) (ex fr : Nat) : BitVec 64 :=
  at64 63 (flag 1 neg) ||| at64 52 (BitVec.ofNat 11 ex) ||| (BitVec.ofNat 52 fr).setWidth 64

/-- Whether a truncated magnitude goes up: `odd` is its last bit, `above` and `half` compare what was cut with one half, and
`exact` says that nothing was cut. -/
def fpUp (mode : BitVec 2) (neg odd above half exact : Bool) : Bool :=
  match mode.toNat with
  | 0 => above || (half && odd)
  | 1 => false
  | 2 => neg && !exact
  | _ => !neg && !exact

/-- A magnitude cut by 2^`k` and rounded; `sticky` says that it lies above `m` by less than one. -/
def fpCut (mode : BitVec 2) (neg : Bool) (m k : Nat) (sticky : Bool) : Nat :=
  let q := m / 2 ^ k
  let r := 2 * (m % 2 ^ k)
  let up := fpUp mode neg (q % 2 == 1) (decide (2 ^ k < r) || (r == 2 ^ k && sticky)) (r == 2 ^ k && !sticky)
    (r == 0 && !sticky)
  if up then q + 1 else q

/-- What an overflow gives. -/
def fpOver (mode : BitVec 2) (neg : Bool) : BitVec 64 :=
  if fpUp mode neg false true false false then fpWord neg 0x7FF 0 else fpWord neg 0x7FE (2 ^ 52 - 1)

/-- `m` × 2^`e`, rounded to a word; `sticky` says that the exact value lies above `m` by less than one. -/
def fpRound (mode : BitVec 2) (neg : Bool) (m : Nat) (e : Int) (sticky : Bool := false) : BitVec 64 :=
  let q := max (e + (Nat.log2 m : Int) - 52) (-1074)
  let n := if q ≤ e then m * 2 ^ (e - q).toNat else fpCut mode neg m (q - e).toNat sticky
  let (n, q) := if n = 2 ^ 53 then (2 ^ 52, q + 1) else (n, q)
  if n < 2 ^ 52 then fpWord neg 0 n
  else if q + 1075 ≥ 2047 then fpOver mode neg
  else fpWord neg (q + 1075).toNat (n - 2 ^ 52)

/-- The sign of an exact zero sum. -/
def fpZeroSum (mode : BitVec 2) : BitVec 64 := fpWord (mode == 2) 0 0

/-- A signed integer × 2^`e`, rounded. -/
def fpSigned (mode : BitVec 2) (v e : Int) : BitVec 64 :=
  if v = 0 then fpZeroSum mode else fpRound mode (decide (v < 0)) v.natAbs e

/-- The signed mantissa of a finite value at an exponent not above its own. -/
def fpAt (neg : Bool) (m : Nat) (e lo : Int) : Int :=
  let v : Int := (m * 2 ^ (e - lo).toNat : Nat)
  if neg then -v else v

/-- A value given back as a word. -/
def fpBack (mode : BitVec 2) : Fp → BitVec 64
  | .nan => fpNan
  | .inf n => fpWord n 0x7FF 0
  | .zero n => fpWord n 0 0
  | .fin n m e => fpRound mode n m e

/-- The sum of two values. -/
def fpAddV (mode : BitVec 2) (x y : Fp) : BitVec 64 :=
  match x, y with
  | .nan, _ => fpNan
  | _, .nan => fpNan
  | .inf a, .inf b => if a = b then fpWord a 0x7FF 0 else fpNan
  | .inf a, _ => fpWord a 0x7FF 0
  | _, .inf b => fpWord b 0x7FF 0
  | .zero a, .zero b => if a = b then fpWord a 0 0 else fpZeroSum mode
  | .zero _, v => fpBack mode v
  | v, .zero _ => fpBack mode v
  | .fin a m e, .fin b n f => fpSigned mode (fpAt a m e (min e f) + fpAt b n f (min e f)) (min e f)

/-- The exact product of two values. -/
def fpMulV (x y : Fp) : Fp :=
  match x, y with
  | .nan, _ => .nan
  | _, .nan => .nan
  | .inf a, .inf b => .inf (a != b)
  | .inf a, .fin b _ _ => .inf (a != b)
  | .fin a _ _, .inf b => .inf (a != b)
  | .inf _, .zero _ => .nan
  | .zero _, .inf _ => .nan
  | .zero a, .zero b => .zero (a != b)
  | .zero a, .fin b _ _ => .zero (a != b)
  | .fin a _ _, .zero b => .zero (a != b)
  | .fin a m e, .fin b n f => .fin (a != b) (m * n) (e + f)

/-- A value with its sign inverted. -/
def fpFlip : Fp → Fp
  | .nan => .nan
  | .inf a => .inf (!a)
  | .zero a => .zero (!a)
  | .fin a m e => .fin (!a) m e

def fpAdd (mode : BitVec 2) (a b : BitVec 64) : BitVec 64 := fpAddV mode (fpOf a) (fpOf b)

def fpSub (mode : BitVec 2) (a b : BitVec 64) : BitVec 64 := fpAddV mode (fpOf a) (fpFlip (fpOf b))

def fpMul (mode : BitVec 2) (a b : BitVec 64) : BitVec 64 := fpBack mode (fpMulV (fpOf a) (fpOf b))

def fpFma (mode : BitVec 2) (a b c : BitVec 64) : BitVec 64 := fpAddV mode (fpMulV (fpOf a) (fpOf b)) (fpOf c)

def fpDiv (mode : BitVec 2) (a b : BitVec 64) : BitVec 64 :=
  match fpOf a, fpOf b with
  | .nan, _ => fpNan
  | _, .nan => fpNan
  | .inf _, .inf _ => fpNan
  | .zero _, .zero _ => fpNan
  | .inf a, .zero b => fpWord (a != b) 0x7FF 0
  | .inf a, .fin b _ _ => fpWord (a != b) 0x7FF 0
  | .fin a _ _, .zero b => fpWord (a != b) 0x7FF 0
  | .zero a, .inf b => fpWord (a != b) 0 0
  | .zero a, .fin b _ _ => fpWord (a != b) 0 0
  | .fin a _ _, .inf b => fpWord (a != b) 0 0
  | .fin a m e, .fin b n f =>
    let p := m * 2 ^ 110
    fpRound mode (a != b) (p / n) (e - f - 110) (p % n != 0)

/-- The integer square root of `n`, whose bits below bit `k` are still to be found beside the root `r` so far. -/
def isqrtFrom (n : Nat) : Nat → Nat → Nat
  | 0, r => r
  | k + 1, r => isqrtFrom n k (if (r + 2 ^ k) * (r + 2 ^ k) ≤ n then r + 2 ^ k else r)

def fpSqrt (mode : BitVec 2) (a : BitVec 64) : BitVec 64 :=
  match fpOf a with
  | .nan => fpNan
  | .zero n => fpWord n 0 0
  | .inf false => fpWord false 0x7FF 0
  | .inf true => fpNan
  | .fin true _ _ => fpNan
  | .fin false m e =>
    let k := 112 - Nat.log2 m
    let k := if (e - (k : Int)) % 2 = 0 then k else k + 1
    let p := m * 2 ^ k
    let r := isqrtFrom p 64 0
    fpRound mode false r ((e - (k : Int)) / 2) (r * r != p)

/-- A finite value rounded to an integer. -/
def fpInt (mode : BitVec 2) (neg : Bool) (m : Nat) (e : Int) : Nat :=
  if 0 ≤ e then m * 2 ^ e.toNat else fpCut mode neg m (-e).toNat false

/-- FROUND. -/
def fpRint (mode : BitVec 2) (a : BitVec 64) : BitVec 64 :=
  match fpOf a with
  | .fin n m e => let v := fpInt mode n m e
    if v = 0 then fpWord n 0 0 else fpRound mode n v 0
  | v => fpBack mode v

/-- FCVT.G.D: an integer, saturated to the range of 36 bits. -/
def fpToInt (mode : BitVec 2) (a : BitVec 64) : BitVec 36 :=
  let sat (v : Int) : BitVec 36 := BitVec.ofInt 36 (max (-(2 ^ 35)) (min (2 ^ 35 - 1) v))
  match fpOf a with
  | .nan => 0
  | .zero _ => 0
  | .inf n => sat (if n then -(2 ^ 35) else 2 ^ 35)
  | .fin n m e => let v : Int := (fpInt mode n m e : Nat)
    sat (if n then -v else v)

/-- FCVT.D.G. -/
def fpFromInt (g : BitVec 36) : BitVec 64 := if g = 0 then 0 else fpSigned 0 g.toInt 0

/-- FEQ. -/
def fpEq (a b : BitVec 64) : Bool :=
  match fpOf a, fpOf b with
  | .nan, _ => false
  | _, .nan => false
  | .zero _, .zero _ => true
  | x, y => x == y

/-- FLT. -/
def fpLt (a b : BitVec 64) : Bool :=
  match fpOf a, fpOf b with
  | .nan, _ => false
  | _, .nan => false
  | .inf n, .inf k => n && !k
  | .inf n, _ => n
  | _, .inf k => !k
  | .zero _, .zero _ => false
  | .zero _, .fin n _ _ => !n
  | .fin n _ _, .zero _ => n
  | .fin a m e, .fin b n f => decide (fpAt a m e (min e f) < fpAt b n f (min e f))

end Sys2Proof.Machine
end

