-- ==== Sys2Proof/Machine/Vector.lean ====
section
/-! DEFINITION. The tile vector instruction set (R139 to R156): one instruction of a tile core, its static checks, its beats and its
effect on the core's registers and workbench. -/
namespace Sys2Proof.Machine

/-! ### Instructions (R144, R145) -/

/-- A tile core instruction, its fields apart (R144). -/
structure VInsn where
  op   : Nat
  d    : Nat
  a    : Nat
  b    : Nat
  m    : Nat
  form : BitVec 2
  long : Bool
  qsel : Nat
  rsv  : Bool
  imm  : BitVec 28
  deriving DecidableEq, Repr

/-- The instruction that a word of 64 bits spells. -/
def vinsnOf (x : BitVec 64) : VInsn :=
  { op := (bits x 0 8 : BitVec 8).toNat, d := (bits x 8 5 : BitVec 5).toNat, a := (bits x 13 5 : BitVec 5).toNat,
    b := (bits x 18 5 : BitVec 5).toNat, m := (bits x 23 5 : BitVec 5).toNat, form := bits x 28 2, long := bit x 30,
    qsel := (bits x 31 4 : BitVec 4).toNat, rsv := bit x 35, imm := bits x 36 28 }

/-- The fields that an instruction uses beside OP. -/
structure VUses where
  d    : Bool := false
  a    : Bool := false
  b    : Bool := false
  m    : Bool := false
  form : Bool := false
  long : Bool := false
  q    : Bool := false
  imm  : Bool := false
  deriving DecidableEq, Repr

/-- A vector instruction's fields: D and A, with B, M, QSEL and IMM where they are named. -/
def vUses (b m q imm : Bool) : VUses := { d := true, a := true, b := b, m := m, form := true, long := true, q := q, imm := imm }

/-- A defined OP, with the fields it uses (R145 to R156). FORM of a floating-point instruction that rounds nothing is not used
(log 27). -/
def opUses (op : Nat) : Option VUses :=
  if [0x01, 0x02, 0x03, 0x04, 0x05, 0x06, 0x07, 0x0D, 0x0E, 0x0F, 0x20, 0x21, 0x22, 0x23].contains op then
    some (vUses true false false false)
  else if [0x08, 0x10, 0x11, 0x48, 0x49].contains op then some (vUses false false false false)
  else if [0x09, 0x0A, 0x0B, 0x12, 0x13, 0x25, 0x42, 0x43].contains op then some (vUses false false false true)
  else if op = 0x0C then some (vUses true true false false)
  else if [0x24, 0x40, 0x41, 0xEC, 0xED, 0xEE].contains op then some (vUses true false false true)
  else if [0x30, 0x31, 0x32].contains op then some (vUses true false true false)
  else if [0x33, 0x34].contains op then some (vUses false false true false)
  else if [0x35, 0x36].contains op then some (vUses true true true false)
  else if [0x80, 0x81, 0x84, 0x85, 0x86, 0x87, 0x88, 0x89, 0x8A, 0x8B, 0x8C, 0x8D, 0xCB, 0xCC].contains op then
    some { d := true, a := true, b := true }
  else if [0x82, 0xE0, 0xE1, 0xE2, 0xE4, 0xE5, 0xE6, 0xE8, 0xE9, 0xF0].contains op then some { d := true, a := true, imm := true }
  else if [0x83, 0xA4].contains op then some { d := true, imm := true }
  else if op = 0x8E then some { d := true, a := true, b := true, m := true }
  else if [0xA0, 0xA1, 0xA2, 0xA3].contains op then some { a := true, b := true, imm := true }
  else if [0xA5, 0xF2].contains op then some { a := true }
  else if [0xF1, 0xF3].contains op then some { d := true }
  else if [0xC0, 0xC1, 0xC2, 0xC3].contains op then some { d := true, a := true, b := true, form := true }
  else if [0xC4, 0xC9, 0xCA].contains op then some { d := true, a := true, form := true }
  else if op = 0xC5 then some { d := true, a := true, b := true, m := true, form := true }
  else if [0xC6, 0xC7, 0xC8].contains op then some { d := true, a := true }
  else if [0xF8, 0xF9].contains op then some {}
  else none

/-- An instruction of the vector forms (R141): the vector operations and the vector loads and stores. -/
def isVector (op : Nat) : Bool := decide (op < 0x80) || op == 0xEC || op == 0xED || op == 0xEE

/-- The element width of a FORM (R141). -/
def elemWidth (form : BitVec 2) : Nat :=
  match form.toNat with
  | 0 => 18
  | 1 => 36
  | _ => 9

/-- The element count N of a FORM and LONG (R141). -/
def elemCount (form : BitVec 2) (long : Bool) : Nat := (if long then 4608 else 288) / elemWidth form

/-- Bits per element of a load and store format (R152). -/
def formatBits (b : Nat) : Nat :=
  match b with
  | 0 => 8
  | 1 => 12
  | 2 => 16
  | 3 => 18
  | 4 => 23
  | _ => 16

/-- A format suits a form (R152). -/
def formatOk (b : Nat) (form : BitVec 2) : Bool :=
  match b with
  | 0 => form != 3
  | 1 => form == 0
  | 2 => form == 0 || form == 1
  | 3 => form == 0
  | 4 => form == 1
  | 5 => form == 0 || form == 1
  | _ => false

/-- The fixed modulus of QSEL (R148). -/
def fixedModulus (q : Nat) : Nat :=
  match q with
  | 1 => 3329
  | 2 => 12289
  | _ => 8380417

/-- QSEL suits a form: e9 has no modular operation (R148). -/
def qselOk (q : Nat) (form : BitVec 2) : Bool :=
  match q with
  | 0 => form == 0 || form == 1
  | 1 => form == 0 || form == 1
  | 2 => form == 0 || form == 1
  | 3 => form == 1
  | _ => false

/-- The immediate is in range (R142, R146, R147, R150). -/
def immOk (i : VInsn) : Bool :=
  let w := elemWidth i.form
  let n := elemCount i.form i.long
  let k := i.imm.toNat
  if [0x09, 0x0A, 0x0B].contains i.op then decide (k < w)
  else if [0x12, 0x13, 0x42, 0x43].contains i.op then decide (k < n)
  else if i.op = 0x24 then decide (1 ≤ k ∧ k < 2 * w)
  else if i.op = 0x25 then decide (1 ≤ k ∧ k < w)
  else if i.op = 0x40 ∨ i.op = 0x41 then decide (k < 10 ∧ 2 ^ k < n)
  else if i.op = 0xF0 then decide (1 ≤ k ∧ k ≤ 512)
  else true

/-- A branch target (R155): pc + 8 × IMM. -/
def branchTarget (pc : Nat) (i : VInsn) : Int := (pc : Int) + 8 * i.imm.toInt

/-- An offset lies inside the code section. -/
def inCode (codeLen : Nat) (t : Int) : Bool := decide (0 ≤ t ∧ t < (codeLen : Int))

/-- The static checks of one instruction at an offset of the code section (R159). -/
def vinsnOk (codeLen pc : Nat) (i : VInsn) : Bool :=
  match opUses i.op with
  | none => false
  | some u =>
    !i.rsv && (u.d || i.d == 0) && (u.a || i.a == 0) && (u.b || i.b == 0) && (u.m || i.m == 0) && (u.form || i.form == 0) &&
    (u.long || !i.long) && (u.q || i.qsel == 0) && (u.imm || i.imm == 0) &&
    (!isVector i.op || i.form != 3) && immOk i &&
    (!([0x35, 0x36, 0x40, 0x41].contains i.op) || i.d % 2 == 0) &&
    (!([0xEC, 0xED, 0xEE].contains i.op) || formatOk i.b i.form) &&
    (!u.q || qselOk i.qsel i.form) &&
    (!([0xA0, 0xA1, 0xA2, 0xA3, 0xA4].contains i.op) || inCode codeLen (branchTarget pc i))

/-- The first instruction of a code section that breaks a check, as an index (R159). -/
def firstBadInsn (code : Bytes) : Option Nat :=
  (List.range (code.length / 8)).find? (fun k => !vinsnOk code.length (8 * k) (vinsnOf (fieldAt 64 code (8 * k) 8)))

/-- The beats of an instruction (R143). -/
def insnBeats (i : VInsn) : Nat :=
  let lng (s l : Nat) : Nat := if i.long then l else s
  let wide := i.form == 1
  if [0x03, 0x04, 0x24, 0x32].contains i.op then (if wide then lng 2 8 else lng 1 4)
  else if [0x35, 0x36].contains i.op then (if wide then lng 4 16 else lng 2 8)
  else if [0x40, 0x41].contains i.op then lng 2 8
  else if [0x48, 0x49].contains i.op then lng 2 6
  else if [0x12, 0x13].contains i.op then 1
  else if isVector i.op then lng 1 4
  else if [0xC0, 0xC1, 0xC2].contains i.op then 2
  else if i.op = 0xC5 then 3
  else if [0xC3, 0xC4].contains i.op then 14
  else 1

/-! ### Registers (R139, R140) -/

/-- A scalar register; g0 reads as zero. -/
def VCore.getG (c : VCore) (n : Nat) : BitVec 36 := if n = 0 then 0 else Tab.get 0#36 n c.g

/-- A scalar register written; a write to g0 is discarded. -/
def VCore.setG (c : VCore) (n : Nat) (v : BitVec 36) : VCore := if n = 0 then c else { c with g := Tab.set 0#36 n v c.g }

def VCore.getW (c : VCore) (n : Nat) : BitVec 4608 := Tab.get 0#4608 n c.w

def VCore.setW (c : VCore) (n : Nat) (v : BitVec 4608) : VCore := { c with w := Tab.set 0#4608 n v c.w }

/-- A floating-point register is the low 64 bits of its vector register (R140). -/
def VCore.getF (c : VCore) (n : Nat) : BitVec 64 := (c.getW n).setWidth 64

/-- A floating-point register written: the rest of its vector register becomes zero (R140). -/
def VCore.setF (c : VCore) (n : Nat) (v : BitVec 64) : VCore := c.setW n (v.setWidth 4608)

/-! ### Elements (R141, R142) -/

/-- The first `n` elements of width `w` of a vector register. -/
def elems (w n : Nat) (v : BitVec 4608) : List Nat := (List.range n).map (fun i => v.toNat / 2 ^ (w * i) % 2 ^ w)

/-- A vector register of elements, the rest of it zero. -/
def packElems (w : Nat) (es : List Nat) : BitVec 4608 := BitVec.ofNat 4608 (es.foldr (fun e a => a * 2 ^ w + e % 2 ^ w) 0)

/-- An element as a two's complement number. -/
def elemInt (w x : Nat) : Int := if x < 2 ^ (w - 1) then x else (x : Int) - (2 ^ w : Nat)

/-- A number wrapped to an element. -/
def wrapInt (w : Nat) (v : Int) : Nat := (v % ((2 ^ w : Nat) : Int)).toNat

/-- A number replaced by the nearest end of the signed range of width `w` (R147). -/
def satInt (w : Nat) (v : Int) : Nat :=
  wrapInt w (max (-((2 ^ (w - 1) : Nat) : Int)) (min (((2 ^ (w - 1) : Nat) : Int) - 1) v))

/-- All ones, or zero: the outcome of a compare (R146). -/
def truth (w : Nat) (b : Bool) : Nat := if b then 2 ^ w - 1 else 0

/-- Active elements of an instruction (R142). -/
def VCore.active (c : VCore) (i : VInsn) : Nat := min c.vlen.toNat (elemCount i.form i.long)

/-- The modulus of an instruction: none where vq is not valid for its form (R148). -/
def VCore.modulus (c : VCore) (i : VInsn) : Option Nat :=
  if i.qsel ≠ 0 then some (fixedModulus i.qsel)
  else
    let q := c.vq.toNat
    if q % 2 = 1 ∧ 3 ≤ q ∧ q < 2 ^ (elemWidth i.form - 1) then some q else none

/-- One element of an operation without a modulus, of elements `a`, `b` and `m` (R146, R147). -/
def elemOp (op w k a b m : Nat) : Nat :=
  match op with
  | 0x01 => a + b
  | 0x02 => a + 2 ^ w - b
  | 0x03 => a * b
  | 0x04 => a * b / 2 ^ w
  | 0x05 => a &&& b
  | 0x06 => a ||| b
  | 0x07 => a ^^^ b
  | 0x08 => 2 ^ w - 1 - a
  | 0x09 => a * 2 ^ k
  | 0x0A => a / 2 ^ k
  | 0x0B => wrapInt w (elemInt w a / ((2 ^ k : Nat) : Int))
  | 0x0C => (m &&& a) ||| ((2 ^ w - 1 - m) &&& b)
  | 0x0D => truth w (a == b)
  | 0x0E => truth w (decide (a < b))
  | 0x0F => truth w (decide (elemInt w a < elemInt w b))
  | 0x10 => a
  | 0x20 => satInt w (elemInt w a + elemInt w b)
  | 0x21 => satInt w (elemInt w a - elemInt w b)
  | 0x22 => min (a + b) (2 ^ w - 1)
  | 0x23 => a - b
  | 0x24 => satInt w ((elemInt w a * elemInt w b + ((2 ^ (k - 1) : Nat) : Int)) / ((2 ^ k : Nat) : Int))
  | 0x25 => wrapInt w ((elemInt w a + ((2 ^ (k - 1) : Nat) : Int)) / ((2 ^ k : Nat) : Int))
  | _ => 0

/-- One element of a modular operation; for a butterfly, that of D and that of D + 1 (R148, R149). -/
def elemModOp (op w q a b m : Nat) : Nat × Nat :=
  let sub (x y : Nat) : Nat := (x + (q - y % q)) % q
  match op with
  | 0x30 => ((a + b) % q, 0)
  | 0x31 => (sub a b, 0)
  | 0x32 => (a * b % q, 0)
  | 0x33 => (a % q, 0)
  | 0x34 => let r := a % q
    (if (q - 1) / 2 < r then 2 ^ w + r - q else r, 0)
  | 0x35 => ((a + m * b) % q, sub a (m * b))
  | 0x36 => ((a + b) % q, sub a b * m % q)
  | _ => (0, 0)

/-- Elements of three registers combined, `n` of them. -/
def zip3 (f : Nat → Nat → Nat → Nat) (xs ys zs : List Nat) : List Nat :=
  (xs.zip (ys.zip zs)).map (fun (e : Nat × Nat × Nat) => f e.1 e.2.1 e.2.2)

/-! ### Memory (R151) -/

/-- A byte may be loaded. -/
def VCore.loadable (c : VCore) (a : Nat) : Bool :=
  if a < 0x10000 then decide (a < c.codeLen + c.constLen)
  else if a < 0x20000 then decide (a % 0x4000 < (if a < 0x18000 then c.key1 else c.key2))
  else decide (a < 0x60000)

/-- A byte may be stored. -/
def storable (a : Nat) : Bool := decide (0x20000 ≤ a ∧ a < 0x60000)

/-- The address of an access: gA + IMM, with IMM signed. -/
def VCore.addr (c : VCore) (i : VInsn) : Nat := (c.getG i.a + i.imm.signExtend 36).toNat

def VCore.read (c : VCore) (a n : Nat) : Bytes := Tab.read 0#8 c.mem a n

def VCore.write (c : VCore) (a : Nat) (b : Bytes) : VCore := { c with mem := Tab.write 0#8 c.mem a b }

/-- Every byte of an access passes a test. -/
def allBytes (p : Nat → Bool) (a n : Nat) : Bool := (List.range n).all (fun k => p (a + k))

/-- Element `j` of an access of `b`-bit elements is wholly allowed (R153, R154). -/
def elemAllowed (p : Nat → Bool) (a b j : Nat) : Bool :=
  allBytes p (a + b * j / 8) ((b * j + b - 1) / 8 - b * j / 8 + 1)

/-- The elements of a format that bytes spell, extended to width `w` (R152, R153). -/
def loadElems (fmt w n : Nat) (bs : Bytes) : List Nat :=
  let b := formatBits fmt
  let v := leNat bs
  (List.range n).map (fun i =>
    let x := v / 2 ^ (b * i) % 2 ^ b
    if fmt = 5 then wrapInt w (elemInt 16 x) else x)

/-- The bytes of stored elements (R153). -/
def storeElems (fmt : Nat) (es : List Nat) : Bytes :=
  let b := formatBits fmt
  leBytes (ceilDiv (es.length * b) 8) (es.foldr (fun e a => a * 2 ^ b + e % 2 ^ b) 0)

/-! ### One instruction -/

/-- How a run ends (R163). -/
inductive VEnd where
  | halt | read | write | pc | modulus
  deriving DecidableEq, Repr

/-- What an instruction leaves: the core at its next instruction, or the end of the run. -/
inductive VStep where
  | on (c : VCore)
  | ends (e : VEnd) (c : VCore)
  deriving DecidableEq, Repr

/-- The core goes on at the next instruction. -/
def VCore.next (c : VCore) : VStep := .on { c with pc := c.pc + 8 }

/-- A vector operation without memory (R146 to R150). -/
def vectorStep (c : VCore) (i : VInsn) : VStep :=
  let w := elemWidth i.form
  let n := elemCount i.form i.long
  let act := c.active i
  let k := i.imm.toNat
  let xs := elems w act (c.getW i.a)
  let ys := elems w act (c.getW i.b)
  let zs := elems w act (c.getW i.m)
  let xa := elems w n (c.getW i.a)
  let yb := elems w n (c.getW i.b)
  let blk : Nat := 2 ^ k
  match i.op with
  | 0x11 => (c.setW i.d (packElems w (List.replicate act (c.getG i.a).toNat))).next
  | 0x12 => (c.setG i.d (BitVec.ofNat 36 ((xa[k]?).getD 0))).next
  | 0x13 => (c.setW i.d (packElems w ((elems w n (c.getW i.d)).set k (c.getG i.a).toNat))).next
  | 0x48 => (c.setG i.d (BitVec.ofNat 36 xs.sum)).next
  | 0x49 => (c.setG i.d (flag 36 (xs.any (· != 0)))).next
  | 0x40 =>
    let out := (List.range (2 * n)).map (fun j =>
      let src := if j / blk % 2 = 0 then xa else yb
      (src[j / (2 * blk) * blk + j % blk]?).getD 0)
    ((c.setW i.d (packElems w (out.take n))).setW (i.d + 1) (packElems w (out.drop n))).next
  | 0x41 =>
    let seq := xa ++ yb
    let pick (odd : Nat) : List Nat := (List.range n).map (fun j => (seq[(j / blk * 2 + odd) * blk + j % blk]?).getD 0)
    ((c.setW i.d (packElems w (pick 0))).setW (i.d + 1) (packElems w (pick 1))).next
  | 0x42 => (c.setW i.d (packElems w ((List.replicate k 0 ++ xa).take n))).next
  | 0x43 => (c.setW i.d (packElems w (xa.drop k))).next
  | op =>
    if 0x30 ≤ op ∧ op ≤ 0x36 then
      match c.modulus i with
      | none => .ends .modulus c
      | some q =>
        let c' := c.setW i.d (packElems w (zip3 (fun a b m => (elemModOp op w q a b m).1) xs ys zs))
        (if op = 0x35 ∨ op = 0x36 then
          c'.setW (i.d + 1) (packElems w (zip3 (fun a b m => (elemModOp op w q a b m).2) xs ys zs))
         else c').next
    else (c.setW i.d (packElems w (zip3 (elemOp op w k) xs ys zs))).next

/-- A vector load or store (R152 to R154). -/
def vectorMem (c : VCore) (i : VInsn) : VStep :=
  let w := elemWidth i.form
  let n := c.active i
  let b := formatBits i.b
  let a := c.addr i
  let len := ceilDiv (n * b) 8
  match i.op with
  | 0xEC =>
    if allBytes c.loadable a len then (c.setW i.d (packElems w (loadElems i.b w n (c.read a len)))).next
    else .ends .read c
  | 0xED =>
    if allBytes storable a len then (c.write a (storeElems i.b (elems w n (c.getW i.d)))).next
    else .ends .write c
  | _ =>
    match (List.range n).find? (fun j => !elemAllowed c.loadable a b j) with
    | some 0 => .ends .read c
    | r =>
      let m := r.getD n
      let c := { c with vbound := BitVec.ofNat 10 m }
      (c.setW i.d (packElems w (loadElems i.b w m (c.read a (ceilDiv (m * b) 8))))).next

/-- A scalar load of `n` bytes. -/
def scalarLoad (c : VCore) (i : VInsn) (n : Nat) : VStep :=
  let a := c.addr i
  if allBytes c.loadable a n then (c.setG i.d (BitVec.ofNat 36 (leNat (c.read a n)))).next else .ends .read c

/-- A scalar store of `n` bytes. -/
def scalarStore (c : VCore) (i : VInsn) (n : Nat) : VStep :=
  let a := c.addr i
  if allBytes storable a n then (c.write a (leBytes n (c.getG i.d).toNat)).next else .ends .write c

/-- A branch that is taken, or not. The static checks have put the target inside the code section. -/
def branch (c : VCore) (i : VInsn) (taken : Bool) : VStep :=
  if taken then .on { c with pc := BitVec.ofInt 16 (branchTarget c.pc.toNat i) } else c.next

/-- A shift amount of a scalar shift (R155). -/
def shiftAmount (g : BitVec 36) : Nat := (bits g 0 6 : BitVec 6).toNat

/-- A scalar, branch, load, store or control instruction (R155). -/
def scalarStep (c : VCore) (i : VInsn) : VStep :=
  let a := c.getG i.a
  let b := c.getG i.b
  let imm := i.imm.signExtend 36
  let put (v : BitVec 36) : VStep := (c.setG i.d v).next
  match i.op with
  | 0x80 => put (a + b)
  | 0x81 => put (a - b)
  | 0x82 => put (a + imm)
  | 0x83 => put ((i.imm.setWidth 36) <<< 8)
  | 0x84 => put (a &&& b)
  | 0x85 => put (a ||| b)
  | 0x86 => put (a ^^^ b)
  | 0x87 => put (a <<< shiftAmount b)
  | 0x88 => put (a >>> shiftAmount b)
  | 0x89 => put (a.sshiftRight (shiftAmount b))
  | 0x8A => put (a * b)
  | 0x8B => put (BitVec.ofNat 36 (a.toNat * b.toNat / 2 ^ 36))
  | 0x8C => put (flag 36 (decide (a.toNat < b.toNat)))
  | 0x8D => put (flag 36 (decide (a.toInt < b.toInt)))
  | 0x8E => put (if c.getG i.m ≠ 0 then a else b)
  | 0xA0 => branch c i (a == b)
  | 0xA1 => branch c i (a != b)
  | 0xA2 => branch c i (decide (a.toNat < b.toNat))
  | 0xA3 => branch c i (decide (b.toNat ≤ a.toNat))
  | 0xA4 => branch (c.setG i.d (BitVec.ofNat 36 (c.pc.toNat + 8))) i true
  | 0xA5 =>
    if a.toNat < c.codeLen ∧ a.toNat % 8 = 0 then .on { c with pc := a.setWidth 16 } else .ends .pc c
  | 0xE0 => scalarLoad c i 1
  | 0xE1 => scalarLoad c i 2
  | 0xE2 => scalarLoad c i 4
  | 0xE4 => scalarStore c i 1
  | 0xE5 => scalarStore c i 2
  | 0xE6 => scalarStore c i 4
  | 0xE8 =>
    if allBytes c.loadable (c.addr i) 8 then (c.setF i.d (BitVec.ofNat 64 (leNat (c.read (c.addr i) 8)))).next else .ends .read c
  | 0xE9 =>
    if allBytes storable (c.addr i) 8 then (c.write (c.addr i) (wordBytes 8 (c.getF i.d))).next else .ends .write c
  | 0xF0 =>
    let n := min a.toNat i.imm.toNat
    ({ c with vlen := BitVec.ofNat 10 n }.setG i.d (a - BitVec.ofNat 36 n)).next
  | 0xF1 => put (c.vbound.setWidth 36)
  | 0xF2 => { c with vq := a }.next
  | 0xF3 => put c.vq
  | 0xF8 => .ends .halt c
  | _ => c.next

/-- A floating-point instruction (R156). -/
def floatStep (c : VCore) (i : VInsn) : VStep :=
  let a := c.getF i.a
  let b := c.getF i.b
  let put (v : BitVec 64) : VStep := (c.setF i.d v).next
  let md := i.form
  match i.op with
  | 0xC0 => put (fpAdd md a b)
  | 0xC1 => put (fpSub md a b)
  | 0xC2 => put (fpMul md a b)
  | 0xC3 => put (fpDiv md a b)
  | 0xC4 => put (fpSqrt md a)
  | 0xC5 => put (fpFma md a b (c.getF i.m))
  | 0xC6 => put (a ^^^ 0x8000000000000000)
  | 0xC7 => put (a &&& 0x7FFFFFFFFFFFFFFF)
  | 0xC8 => put (fpFromInt (c.getG i.a))
  | 0xC9 => (c.setG i.d (fpToInt md a)).next
  | 0xCA => put (fpRint md a)
  | 0xCB => (c.setG i.d (flag 36 (fpEq a b))).next
  | _ => (c.setG i.d (flag 36 (fpLt a b))).next

/-- One instruction of a core, fetched at its pc (R151, R163). An OP that the static checks refuse does not come here. -/
def coreStep (c : VCore) : VStep :=
  if c.codeLen ≤ c.pc.toNat ∨ c.pc.toNat % 8 ≠ 0 then .ends .pc c
  else
    let i := vinsnOf (fieldAt 64 (c.read c.pc.toNat 8) 0 8)
    let c := { c with beats := c.beats + insnBeats i }
    if i.op < 0x80 then vectorStep c i
    else if i.op = 0xEC ∨ i.op = 0xED ∨ i.op = 0xEE then vectorMem c i
    else if 0xC0 ≤ i.op ∧ i.op < 0xE0 then floatStep c i
    else scalarStep c i

/-- A program run for at most `n` instructions and `limit` beats: its end, if it comes to one in that time; else the core before the
instruction during which the limit passes. -/
def coreRun (limit : Nat) : Nat → VCore → Option VEnd × VCore
  | 0, c => (none, c)
  | n + 1, c =>
    match coreStep c with
    | .ends e d => if d.beats ≤ limit then (some e, d) else (none, c)
    | .on d => if d.beats ≤ limit then coreRun limit n d else (none, c)

end Sys2Proof.Machine
end

