-- ==== Sys2Proof/Machine/Vprog.lean ====
section
/-! DEFINITION. Vector program images and the opcodes that verify and run them (R157 to R164). -/
namespace Sys2Proof.Machine

/-! ### Images (R157) -/

/-- The lengths that an image's header gives. -/
structure VImage where
  codeLen  : Nat
  constLen : Nat
  entry    : Nat
  progId   : BitVec 64
  deriving DecidableEq, Repr

def vimageOf (b : Bytes) : VImage :=
  { codeLen := leNat (slice b 8 4), constLen := leNat (slice b 0x0C 4), progId := fieldAt 64 b 0x10 8,
    entry := leNat (slice b 0x18 4) }

/-- The bytes before the signature. -/
def VImage.signedLen (v : VImage) : Nat := 64 + v.codeLen + v.constLen

/-- The header keeps R157. -/
def vheaderOk (b : Bytes) : Bool :=
  let v := vimageOf b
  b.take 4 == ascii "CQVP" && fieldAt 16 b 4 2 == 1 && fieldAt 16 b 6 2 == 0 && v.codeLen % 8 == 0 && decide (8 ≤ v.codeLen) &&
  decide (v.codeLen + v.constLen ≤ 65536) && v.entry % 8 == 0 && decide (v.entry < v.codeLen) && allZero (slice b 0x1C 36)

/-- The code section of an image. -/
def vcode (b : Bytes) : Bytes := slice b 64 (vimageOf b).codeLen

/-! ### VPROG contexts (R158) -/

/-- The content of a VPROG context. -/
structure VRecord where
  digest : Bytes
  signer : BitVec 32
  image  : VImage
  len    : Nat
  deriving DecidableEq, Repr

def vrecordBytes (r : VRecord) : Bytes :=
  fit 1024 (fit 48 r.digest ++ wordBytes 4 r.signer ++ leBytes 4 r.image.codeLen ++ leBytes 4 r.image.constLen ++
    leBytes 4 r.image.entry ++ wordBytes 8 r.image.progId ++ leBytes 4 r.len)

def vrecordOf (b : Bytes) : VRecord :=
  { digest := b.take 48, signer := fieldAt 32 b 48 4,
    image := { codeLen := leNat (slice b 52 4), constLen := leNat (slice b 56 4), entry := leNat (slice b 60 4),
               progId := fieldAt 64 b 64 8 },
    len := leNat (slice b 72 4) }

/-- The program that a job's context holds, if it is of kind VPROG. -/
def vrecord (s : State) (x : Job) : Option VRecord :=
  match s.ctx (ctxIndex x.desc) with
  | some c => if c.kind ≠ 0x0D01 then none
              else match c.data with
                | .bytes b => some (vrecordOf b)
                | _ => none
  | none => none

/-! ### VPROG_VERIFY (R160) -/

/-- The signing key's check, whose type fails with its own DETAIL. -/
def vsignerBad (s : State) (x : Job) : Option Bad :=
  (keyCheck s x.pitch x.desc.keyHandle
    { typ := fun t => t == 0x0003 || t == 0x8003, set := fun n => n == 2 || n == 3, usage := some 8 }).map
    (fun b => if b.detail = 0x0213 then { b with detail := 0x0D12 } else b)

/-- The signature length of a signing key. -/
def vsigLen (s : State) (x : Job) : Nat :=
  match keyOf s x.desc.keyHandle with
  | some k => if k.paramSet = 2 then 3309 else 4627
  | none => 0

/-- Orders 2 to 5 of VPROG_VERIFY. -/
def vverifyJudge (s : State) (x : Job) : Option Bad :=
  let img := jobInput s x
  let n := x.desc.inLen.toNat
  firstBad
    [ ctxBad s x, vsignerBad s x,
      badWhen (decide (n < 64) || n != (vimageOf img).signedLen + vsigLen s x) (badLength 0x0D10),
      badWhen (!vheaderOk img) (badField 0x0D11),
      (match s.ctx (ctxIndex x.desc) with
       | some c => badWhen (c.kind != 0 && c.kind != 0x0D01) (badField 0x0D14)
       | none => none),
      badWhen (ctxInUse s x (ctxIndex x.desc)) (badField 0x0F42) ]

/-- The image's signature verifies. -/
def vsigned (s : State) (k : Key) (img : Bytes) : Bool :=
  let n := (vimageOf img).signedLen
  mldsaVerifies s (65536 * 3 + 256 * k.paramSet.toNat) (publicOf k) (pureMessage (ascii "CQX18-VECTOR-PROG") (img.take n))
    (img.drop n)

/-- A context that holds a verified image (R158). -/
def vrecordPut (s : State) (x : Job) (img : Bytes) : List Commit :=
  match s.ctx (ctxIndex x.desc) with
  | some c => [.ctxPut (ctxIndex x.desc) { c with kind := 0x0D01, data := .bytes (vrecordBytes
      { digest := sha384 img, signer := x.desc.keyHandle, image := vimageOf img, len := img.length }) }]
  | none => []

def vverifyRun (s : State) (x : Job) : Ran :=
  let img := jobInput s x
  match keyOf s x.desc.keyHandle with
  | none => ranBad s { status := stKeyAbsent, detail := 0x0B03 }
  | some k =>
    if vsigned s k img = false then ranWith s (verdict false)
    else match firstBadInsn (vcode img) with
      | some i => ranBad s { status := stBadField, detail := 0x0D13, result := BitVec.ofNat 64 i }
      | none => ranWith s (outOf stOk 0 (vimageOf img).progId) (vrecordPut s x img)

def vprogVerifySpec : OpSpec :=
  { code := 0x0D01, place := fun _ _ => .tile,
    uses := fun _ => { ctx := true, key := true, inp := true },
    ctx := ctxBad,
    keys := vsignerBad,
    judge := vverifyJudge,
    run := vverifyRun }

def execVprogVerify (j : JobId) (s : State) : Host.Outcome State Fault Refusal := act s (startJob vprogVerifySpec j s)

/-! ### VPROG_RUN (R160 to R163) -/

def vkey1 (d : Desc) : Bool := bit d.param 0
def vkey2 (d : Desc) : Bool := bit d.param 1

/-- LIMIT, in microseconds. -/
def vlimit (d : Desc) : Nat := (bits d.param 8 24 : BitVec 24).toNat

/-- Check 11 of R71 for a key that is present; its usage is the chapter's own check. -/
def vkeyBad (s : State) (p : BitVec 8) (present : Bool) (h : BitVec 32) : Option Bad :=
  if present then keyCheck s p h { typ := fun _ => true, set := fun _ => true, usage := none } else none

def vkeysBad (s : State) (x : Job) : Option Bad :=
  firstBad [vkeyBad s x.pitch (vkey1 x.desc) x.desc.keyHandle, vkeyBad s x.pitch (vkey2 x.desc) x.desc.keyHandle2]

/-- Order 6: a key's usage and its bound program signer. -/
def vboundBad (s : State) (signer : BitVec 32) (present : Bool) (h : BitVec 32) : Option Bad :=
  if present then
    match keyOf s h with
    | some k => badWhen (!bit k.usage 9 || k.progSigner != signer) (bad stKeyPolicy 0x0D30)
    | none => none
  else none

/-- Orders 4 to 6 of VPROG_RUN, on what the part holds when the run starts. -/
def vrunJudge (s : State) (x : Job) : Option Bad :=
  let d := x.desc
  firstBad
    [ ctxBad s x, vkeysBad s x,
      (match vrecord s x with
       | none => badField 0x0D15
       | some r => firstBad
           [ badWhen (d.auxLen.toNat != r.len) (badLength 0x0D10),
             vboundBad s r.signer (vkey1 d) d.keyHandle, vboundBad s r.signer (vkey2 d) d.keyHandle2 ]) ]

/-- Orders 1 to 3. -/
def vrunLate (_s : State) (x : Job) : Option Bad :=
  let d := x.desc
  firstBad
    [ badWhen ((!vkey1 d && d.keyHandle != 0) || (!vkey2 d && d.keyHandle2 != 0)) (badField 0x0004),
      badWhen (vlimit d == 0) (badField 0x0D17),
      badWhen (decide (131072 < d.inLen.toNat) || decide (131072 < d.outLen.toNat)) (badLength 0x0D18) ]

/-- Bytes of the workbench from an address up, in the canonical form of a table. -/
def placed (a : Nat) (b : Bytes) : Tab Byte :=
  ((List.range b.length).zip b).filterMap (fun (e : Nat × Byte) => if e.2 = 0 then none else some (a + e.1, e.2))

/-- The value of a key that is delivered. -/
def vkeyValue (s : State) (present : Bool) (h : BitVec 32) : Bytes :=
  if present then ((keyOf s h).map (·.value)).getD [] else []

/-- The core at the start of a run (R161): share A of a key is random, share B the key XOR share A (R162). -/
def vcoreStart (s : State) (x : Job) (r : VRecord) (randA randB : Nat) : VCore :=
  let img := jobAux s x
  let k1 := vkeyValue s (vkey1 x.desc) x.desc.keyHandle
  let k2 := vkeyValue s (vkey2 x.desc) x.desc.keyHandle2
  let a1 := leBytes k1.length randA
  let a2 := leBytes k2.length randB
  let c : VCore :=
    { coreInit with
      mem := placed 0 (slice img 64 (r.image.codeLen + r.image.constLen)) ++ placed 0x10000 a1 ++ placed 0x14000 (xorBytes k1 a1) ++
             placed 0x18000 a2 ++ placed 0x1C000 (xorBytes k2 a2) ++ placed 0x20000 (jobInput s x),
      codeLen := r.image.codeLen, constLen := r.image.constLen, key1 := k1.length, key2 := k2.length, vlen := 256,
      pc := BitVec.ofNat 16 r.image.entry }
  ((((c.setG 1 (x.desc.inLen.setWidth 36)).setG 2 (x.desc.outLen.setWidth 36)).setG 3 (BitVec.ofNat 36 k1.length)).setG 4
    (BitVec.ofNat 36 k2.length)).setG 5 ((bits x.desc.param 32 32 : BitVec 32).setWidth 36)

/-- A run's abort: RESULT gives the pc (R163). -/
def vabort (d : BitVec 16) (c : VCore) : JobOut := outOf stAborted d (c.pc.setWidth 64)

/-- The record of a run's end (R163). -/
def vended (d : Desc) (e : VEnd) (c : VCore) : JobOut :=
  let n := (c.getG 2).toNat
  let r : BitVec 64 := (c.getG 1).setWidth 64
  match e with
  | .halt =>
    if n ≤ d.outLen.toNat then { outOf stOk 0 r with output := c.read 0x40000 n }
    else if n ≤ 131072 then { outOf stTruncated 0 r with output := c.read 0x40000 d.outLen.toNat }
    else outOf stAborted 0x0D24
  | .read => vabort 0x0D20 c
  | .write => vabort 0x0D21 c
  | .pc => vabort 0x0D22 c
  | .modulus => vabort 0x0D23 c

/-- The tile core of a job, put on its tile. -/
def setCore (x : Job) (c : VCore) (s : State) : State :=
  x.units.foldl (fun s u => match u with
    | .tile t => s.setTile t { s.tile t with core := c }
    | _ => s) s

/-- The beats that LIMIT allows at the beat of now; where none has been read, a beat lasts longer than 1 ns (log 28), so LIMIT allows
fewer than this. -/
def beatLimit (s : State) (d : Desc) : Nat :=
  if s.pace.beat = 0 then 1000 * vlimit d else 1000000 * vlimit d / s.pace.beat.toNat

/-- The time at floor pace of the image hash (R160), in picoseconds. -/
def imageHashTime (len : Nat) : Nat := 72000 * ((len + 16) / 128 + 1)

/-- The run: to its end when it has one before LIMIT; a run without one goes on until VPROG_TIME_LIMIT. -/
def vrunRun (s : State) (x : Job) : Ran :=
  match vrecord s x with
  | none => ranBad s { status := stBadField, detail := 0x0D15 }
  | some r =>
    let hash := imageHashTime (jobAux s x).length
    if sha384 (jobAux s x) ≠ r.digest then { ranBad s { status := stBadField, detail := 0x0D16 } with ps := some hash }
    else
      let (ra, s) := drawFree s
      let (rb, s) := drawFree s
      let e := coreRun (beatLimit s x.desc) (beatLimit s x.desc) (vcoreStart s x r ra rb)
      let s := setCore x e.2 s
      match e.1 with
      | some w => { ranWith s (vended x.desc w e.2) with ps := some (hash + 1800 * e.2.beats) }
      | none => { state := s, out := none }

def vprogRunSpec : OpSpec :=
  { code := 0x0D02, place := fun _ _ => .tile,
    uses := fun _ => { param := 0xFFFFFFFFFFFFFF03, ctx := true, key := true, key2 := true, inp := true, out := true, aux := true },
    ctx := ctxBad,
    keys := vkeysBad,
    late := vrunLate,
    masked := fun _ x => vkey1 x.desc || vkey2 x.desc,
    judge := vrunJudge,
    run := vrunRun }

def execVprogRun (j : JobId) (s : State) : Host.Outcome State Fault Refusal := act s (startJob vprogRunSpec j s)

/-- The tile core of a running program. -/
def runningCore (s : State) (x : Job) : VCore :=
  match x.units.find? (fun u => match u with | .tile _ => true | _ => false) with
  | some (.tile t) => (s.tile t).core
  | _ => coreInit

/-- A run still goes on when LIMIT µs have passed since its program started: it has no end within LIMIT. Where its end would come before LIMIT at
the least beat that has applied and after it at the greatest, or no beat has been read, which of the two comes first is open, and a free value
decides (log 28). A run that check 7 refused never started. -/
def ranOver (s : State) (x : Job) : Bool × State :=
  let open_ : Bool × State := ((drawFree s).1 % 2 == 1, (drawFree s).2)
  match x.out with
  | none => (true, s)
  | some o =>
    if o.detail = 0x0D16 then (false, s)
    else match x.paced with
      | some (ps, fast, slow) =>
        let past (beat : Nat) : Bool := decide (1000000 * vlimit x.desc < (ps - imageHashTime x.desc.auxLen.toNat) * beat / 1800)
        if past fast then (true, s) else if past slow then open_ else (false, s)
      | none => open_

/-- The beat changes under a program that has no end within LIMIT at the beats so far (R21, R163): at a shorter beat it goes further within
LIMIT, and may come to its end. How many beats each beat time took is not known, so that its ELAPSED lies between the counts at the least beat and at
the greatest there is (log 28). -/
def extendRun (s : State) (x : Job) : State :=
  if x.phase ≠ .running ∨ x.desc.opcode ≠ 0x0D02 ∨ x.forwarded.isSome = true ∨ x.out.isSome = true then s
  else
    let e := coreRun (beatLimit s x.desc) (beatLimit s x.desc) (runningCore s x)
    let s := setCore x e.2 s
    match e.1 with
    | none => s.setJob { x with paced := some (0, 0, 4095) }
    | some w =>
      let ps := imageHashTime x.desc.auxLen.toNat + 1800 * e.2.beats
      let lo := s.pace.beat.toNat
      let (n, s) := drawFree s
      let o := { vended x.desc w e.2 with elapsed := BitVec.ofNat 32 (atBeat ps lo + n % (atBeat ps 4095 - atBeat ps lo + 1)) }
      s.setJob { x with out := some o, paced := some (ps, lo, 4095) }

/-- RESULT of a run that LIMIT ended: the pc of the instruction that it was in, which the model computes where one beat has applied since the
start; else it is some instruction of the code section (log 28). -/
def limitPc (s : State) (x : Job) : BitVec 64 × State :=
  let c := runningCore s x
  if x.out.isNone && x.paced.isNone && s.pace.beat != 0 then (c.pc.setWidth 64, s)
  else
    let (n, s) := drawFree s
    (BitVec.ofNat 64 (8 * (n % max 1 (c.codeLen / 8))), s)

/-- ELAPSED of such a run: the image hash at the beat of now, and LIMIT; where no beat has been read the time of the hash is free. -/
def limitElapsed (s : State) (x : Job) : BitVec 32 × State :=
  let (hash, s) : Nat × State :=
    if s.pace.beat = 0 then drawFree s else (atBeat (imageHashTime x.desc.auxLen.toNat) s.pace.beat.toNat, s)
  (BitVec.ofNat 32 (min (hash + 100 * vlimit x.desc) (2 ^ 32 - 1)), s)

/-- LIMIT µs have passed since a running program started (R163); a run that has ended by then is not touched. -/
def timeLimit (j : JobId) (s : State) : State :=
  match s.job j with
  | none => s
  | some x =>
    if x.phase ≠ .running ∨ x.desc.opcode ≠ 0x0D02 ∨ x.forwarded.isSome = true then s
    else
      let (late, s) := ranOver s x
      if late = false then s
      else
        let (pc, s) := limitPc s x
        let (e, s) := limitElapsed s x
        s.setJob { x with out := some { outOf stAborted 0x0D25 pc with elapsed := e }, commits := [], paced := none }

def execVprogTimeLimit (j : JobId) (s : State) : Host.Outcome State Fault Refusal := act s (timeLimit j s)

end Sys2Proof.Machine
end

