-- ==== Sys2Proof/Machine/Power.lean ====
section
/-! DEFINITION. Power, pace, the battery domain, and what a reset reaches (R448 to R453, R464, R465, R482). -/
namespace Sys2Proof.Machine

/-! ### Pace (R450, R451) -/

/-- PACE_INT bits set (R467). -/
def paceInt (b : BitVec 3) (s : State) : State := { s with pace := { s.pace with pint := s.pace.pint ||| b } }

/-- A TARGET is taken from 1,000 to 1,760 ps. -/
def targetOk (v : BitVec 32) : Bool := decide (1000 ≤ (bits v 0 12).toNat ∧ (bits v 0 12).toNat ≤ 1760)

/-- A write of PACE_CFG (R450): one whose TARGET is out of its range is ignored, AVS_RAIL with it, and sets REFUSED (log 45). -/
def paceWrite (v : BitVec 32) (s : State) : State :=
  if targetOk v then { s with pace := { s.pace with avsRail := bits v 16 4, target := bits v 0 12 } }
  else { s with pace := { s.pace with refused := true } }

def execPaceTargetWrite (v : BitVec 32) (s : State) : Host.Outcome State Fault Refusal := hostAct s (paceWrite v s)

/-- The voltage that the loop commands next, from the one in force and the beat. -/
def nextVolts (mv beat target : Nat) : Nat :=
  if 102 * target < 100 * beat then (if mv + 5 ≤ 900 then mv + 5 else mv)
  else if 100 * beat < 96 * target then (if 605 ≤ mv then mv - 5 else mv)
  else mv

/-- The frames of a write (R451), addressed to AVS_RAIL: the write, the read of Vout, and then that of the status, whose moment the rule does not
give (DESIGN CHOICE, log 72). -/
def avsWrite (mv : BitVec 12) (s : State) : State :=
  let r := s.pace.avsRail
  { s with out := .avs r .readStatus :: .avs r .readVout :: .avs r (.write mv) :: s.out }

/-- VCORE commanded over AVSBus; the rail monitor tracks the commanded value (R381). -/
def commandVolts (mv : BitVec 12) (s : State) : State :=
  avsWrite mv { s with pace := { s.pace with commanded := mv, commandAge := 0 },
                       alarm := { s.alarm with railTracked := s.alarm.railTracked.set 0 mv } }

/-- A sample of the replica paths (R450): BEAT and SLOW, and at most one command in 10 µs. -/
def paceReads (beat : BitVec 12) (s : State) : State :=
  if s.pace.running = false ∨ alive s = false then s
  else
    let slow := decide (1800 < beat.toNat)
    let was := decide (1800 < s.pace.beat.toNat)
    let s := if slow && !was then paceInt 4 s else s
    let p : Pace := { s.pace with beat := beat, commandAge := min 10 (s.pace.commandAge + 1) }
    let s := { s with pace := p }
    let mv := nextVolts p.commanded.toNat beat.toNat p.target.toNat
    if p.avsFault ∨ p.commandAge < 10 ∨ mv = p.commanded.toNat then s else commandVolts (BitVec.ofNat 12 mv) s

/-- The beat changes under a job that computes (R21): its ELAPSED lies between the counts at the least and at the greatest beat that
applied, where the sample does not tell how many beats each of them took (log 61). -/
def repaceJob (s : State) (x : Job) : State :=
  match x.out, x.paced with
  | some o, some (ps, lo, hi) =>
    if (x.phase ≠ .running ∧ x.phase ≠ .suspended) ∨ x.verdict = .second ∨ x.verdict = .agreed then s
    else
      let lo := min lo s.pace.beat.toNat
      let hi := max hi s.pace.beat.toNat
      let (n, t) := drawFree s
      let e := atBeat ps lo + n % (atBeat ps hi - atBeat ps lo + 1)
      t.setJob { x with out := some { o with elapsed := BitVec.ofNat 32 e }, paced := some (ps, lo, hi) }
  | _, _ => s

/-- One pass of the pace loop, with the jobs that compute meanwhile. -/
def paceSample (beat : BitVec 12) (s : State) : State :=
  let t := paceReads beat s
  if t.pace.beat = s.pace.beat then t else t.jobs.foldl (fun s x => extendRun (repaceJob s x) x) t

def execPaceSample (beat : BitVec 12) (s : State) : Host.Outcome State Fault Refusal := act s (paceSample beat s)

/-- The regulator is judged faulty (R451), by its acknowledge or CRC, or by its read-back. -/
def avsFails (readback : Bool) (s : State) : State :=
  if s.pace.avsFault then s
  else
    let s := paceInt 1 { s with pace := { s.pace with avsFault := true } }
    note 0x0D01 none (wordBytes 2 s.pace.commanded ++ wordBytes 2 s.pace.readback ++ [flag 8 readback]) s

/-- The read-back differs from the commanded value by more than 20 mV. -/
def readbackOff (commanded readback : BitVec 12) : Bool :=
  decide (commanded.toNat + 20 < readback.toNat ∨ readback.toNat + 20 < commanded.toNat)

/-- An AVSBus response (R451). -/
def avsResponse (r : AvsResponse) (s : State) : State :=
  let p := s.pace
  if r.good = false then
    let n := min 3 (p.badFrames + 1)
    let s := { s with pace := { p with badFrames := n } }
    if n = 3 then avsFails false s else s
  else
    let s := { s with pace := { p with badFrames := 0, readback := r.readback } }
    if readbackOff p.commanded r.readback then (if r.lasted then avsFails true s else s)
    else if p.avsFault then paceInt 2 { s with pace := { s.pace with avsFault := false } }
    else s

def execAvsFrameResponse (r : AvsResponse) (s : State) : Host.Outcome State Fault Refusal :=
  if alive s then act s (avsResponse r s) else .next s

/-- The write that is retried each millisecond while the regulator is judged faulty. -/
def avsRetry (s : State) : State :=
  if s.pace.avsFault && alive s then avsWrite s.pace.commanded s else s

def execAvsRetry (s : State) : Host.Outcome State Fault Refusal := act s (avsRetry s)

/-! ### The battery domain (R449, R482) -/

/-- The domain switches between VDDIO and VBAT. -/
def switchBattery (toBattery : Bool) (s : State) : State := { s with battery := { s.battery with onBattery := toBattery } }

def execBatterySwitchover (toBattery : Bool) (s : State) : Host.Outcome State Fault Refusal := act s (switchBattery toBattery s)

/-- What a battery domain without any supply, or with a register file that fails its check, holds of the file (R449). -/
def lostFile (b : Battery) : Battery :=
  { b with fileGood := false, rootKey := none, attempts := 0, lockLatch := false, dormant := false, lifecycleShutter := false,
           lockSource := 0, secondsCopy := b.seconds, responses := none, delayReg := 0, history := [], unrecorded := [],
           inStart := false }

/-- The file is lost; with the lock latch goes the level of TAMPER_OUT_N (R472). -/
def loseFile (s : State) : State :=
  let t := { s with battery := lostFile s.battery }
  if s.battery.lockLatch then setPins [(.tamperOutN, true)] t else t

/-- A rewrite of the file in progress when power goes leaves it with a CRC that is not its own: the moment of a rewrite is that of the command that
makes it, and how far it had come is open (log 72). -/
def cutFile (s : State) : State :=
  if s.battery.wroteAt ≠ s.clock.us then s
  else
    let (n, s) := drawFree s
    let (v, s) := drawFree s
    if n % 2 = 0 then s else { s with battery := { s.battery with crc := BitVec.ofNat 32 v } }

/-- The balls of the VDDIO domain while internal reset is held (R472): no SerDes transmitter and no shift at TDO drives. -/
def resetPins (s : State) : State :=
  setPins [(.dormantN, true), (.avsClk, false), (.avsMdata, true), (.dbgTxd, true), (.tdo, false), (.cardRstN, false), (.cardClk, false),
           (.cardIo, false), (.cardVccEn, false), (.sdClk, false), (.serdesTx, false)] s

/-! ### What a reset reaches (R452) -/

/-- The Ledger after a power-on reset: what the die holds, a clear that its journal keeps open (R408), and the operating time from its higher copy (R400). -/
def ledgerKept (s : State) : Ledger :=
  let a := s.nv.optimeA.getD 0
  let b := s.nv.optimeB.getD 0
  let o := if optimeSecs a < optimeSecs b then b else a
  { Ledger.reset with slots := s.ledger.slots, full := s.ledger.full, total := s.ledger.total, lost := s.ledger.lost,
                      cycles := s.ledger.cycles, hours := bits o 0 20, secs := bits o 20 12, clearing := journalOpen s.nv.clear }

/-- The contexts that a reset takes, with their owners, beside those that are lost already (R439). -/
def contextsLost (s : State) : List (BitVec 14 × BitVec 8) :=
  s.contexts.filterMap (fun e => e.2.map (fun c => (BitVec.ofNat 14 e.1, c.owner))) ++
  s.links.lostCtx.filter (fun e => (s.ctx e.1).isNone)

/-- Every block of the logic die reset (R452). The battery domain, the fuses, the die and what stands outside the part stay. -/
def logicReset (s : State) : State :=
  { State.reset with
      pending := s.pending, nv := s.nv, battery := s.battery, host := s.host, out := s.out, genuine := s.genuine,
      draws := s.draws, clock := { s.clock with optFrac := 0 }, ledger := ledgerKept s,
      dev := { Dev.reset with orderCode := s.dev.orderCode, uid := s.dev.uid },
      links := { Links.reset with lostCtx := contextsLost s },
      life := { Life.reset with fuses := s.life.fuses, inForce := s.life.inForce },
      alarm := { Alarm.reset with loops := s.alarm.loops, lid := s.alarm.lid, mesh := s.alarm.mesh },
      cards := { Cards.reset with keeperIn := s.cards.keeperIn, arcCard := s.cards.arcCard, arcGiven := s.cards.arcGiven } }

/-- A save of the operating time in progress when power goes tears the copy whose turn it is; whether one is, is open (R400; log 1). -/
def cutOptime (s : State) : State :=
  let (n, s) := drawFree s
  if n % 2 = 0 then s
  else if s.nv.optimeNext then { s with nv := { s.nv with optimeB := none } }
  else { s with nv := { s.nv with optimeA := none } }

/-- The power-cycle count being written when power goes early in a start: its copies are written one after the other (R400; log 1). -/
def cutCycles (s : State) : State :=
  match s.ledger.counting with
  | none => s
  | some (a, b) =>
    let (n, s) := drawFree s
    let now := some s.ledger.cycles
    let put (x : Option (BitVec 24) × Option (BitVec 24)) : State := { s with nv := { s.nv with cyclesA := x.1, cyclesB := x.2 } }
    match n % 4, b.isSome with
    | 0, _ => s
    | 1, true => put (none, b)
    | 1, false => put (a, none)
    | 2, true => put (now, none)
    | 2, false => put (none, now)
    | _, _ => put (a, b)

/-- A Ledger write in progress when power goes (R398, R402, R408): how far it had come is open (log 1). A clear has its journal open, or
the record that opens it is torn. -/
def cutLedger (s : State) : State :=
  let l := s.ledger
  if nvReady s = false then s
  else if l.clearing then
    let (n, s) := drawFree s
    let (v, s) := drawFree s
    if n % 2 = 0 then s else { s with nv := { s.nv with clear := journalTear (n / 2) v s.nv.clear } }
  else cutRecord s

/-- A stateful key's reservation being written when power goes: not begun, torn, or whole (R203; log 1). -/
def cutReserve (s : State) (x : Job) : State :=
  if statefulSign x.desc.opcode = false ∨ x.phase ≠ .running ∨ x.out.isSome ∨ x.forwarded.isSome then s
  else
    let (n, s) := drawFree s
    let h := x.desc.keyHandle
    if n % 3 = 0 then s else if n % 3 = 1 then tearBlock h s else reserveBlock h s

/-- The mark of a new key's directory entry when power goes before it is whole: any byte (R348). -/
def tearMark (n : BitVec 13) (v : BitVec 8) (s : State) : State :=
  { s with nv := { s.nv with keys := Tab.set none n.toNat ((Tab.get none n.toNat s.nv.keys).map (fun r => { r with mark := v })) s.nv.keys } }

/-- A persistent key being written when power goes (R348; log 1): its blocks in writing, its directory entry there with a mark that is torn, or
whole. A record that replaces another is the old one or the new one. -/
def cutStore (s : State) (x : Job) : State :=
  if x.phase ≠ .storing then s
  else
    let (n, s) := drawFree s
    let (v, s) := drawFree s
    if n % 3 = 0 then s
    else x.commits.foldl (fun s c => match c with
      | .keyPut i k =>
        let t := storeKey k.pitch s i k
        if n % 3 = 1 then tearMark i (BitVec.ofNat 8 v) t else t
      | .keyRights h p =>
        match rightsLeft s h p with
        | some k => storeKey k.pitch s (handleSlot h) k
        | none => s
      | _ => s) s

/-- A minimum SVN being written when power goes: its copies are written one after the other (R52; log 64). -/
def cutSvn (s : State) (x : Job) : State :=
  if x.phase ≠ .running then s
  else x.commits.foldl (fun s c => match c with
    | .svn k v =>
      let (n, s) := drawFree s
      s.writeSvn k (n % 5) v
    | _ => s) s

/-- The custodian table or the thresholds being written when power goes: the old entry stands, or the new one (R417; log 71). -/
def cutCustodians (s : State) (x : Job) : State :=
  let writes (c : Commit) : Bool := match c with
    | .custodian _ _ => true
    | .quorum _ _ => true
    | _ => false
  if x.phase ≠ .running ∨ x.commits.any writes = false then s
  else
    let (n, s) := drawFree s
    if n % 2 = 0 then s else (x.commits.filter writes).foldl applyCommit s

/-- A bank's mark being written when power goes: it is written, torn, or as it was (R49, R456; log 1). A cut after the whole mark and before
the job's record leaves the bank committed. -/
def cutMark (s : State) (k : BankKind) (b : Bool) (old new : BitVec 32) : State :=
  let (n, s) := drawFree s
  let (v, s) := drawFree s
  match n % 3 with
  | 0 => markBank k b old s
  | 1 => markBank k b (BitVec.ofNat 32 v) s
  | _ => markBank k b new s

/-- A bank's commit, or a registered signer, being written when power goes (R47, R49, R456). Of a signer, whose valid mark is written last, the
index stands as it was, or empty, or with the new hash. -/
def cutCommits (s : State) (x : Job) : State :=
  if x.phase ≠ .running then s
  else x.commits.foldl (fun s c => match c with
    | .marked k b => cutMark s k b (s.bank k b).mark commitMark
    | .signer i h =>
      let (n, s) := drawFree s
      (match n % 3 with
       | 0 => s
       | 1 => setSigner i none s
       | _ => setSigner i h s)
    | _ => s) s

/-- The marks that a start under fallback was writing when power went (R460): 40 µs each, one after the other, the last of them torn or not
written (log 72). -/
def cutMarks (s : State) : State :=
  if s.boot.marks.isEmpty ∨ s.boot.marksAt + 40 * s.boot.marks.length < s.clock.us then s
  else
    let (n, s) := drawFree s
    match s.boot.marks.drop (n % (s.boot.marks.length + 1)) with
    | [] => s
    | e :: t => t.foldl (fun s e => markBank e.1 e.2 commitMark s) (cutMark s e.1 e.2 commitMark 0)

/-- What the die was being given by the jobs that a power-on reset cuts short. -/
def cutJobs (s : State) : State :=
  s.jobs.foldl (fun s x => cutCommits (cutCustodians (cutSvn (cutReserve (cutStore s x) x) x) x) x) s

/-- Internal reset asserted (R448): what the die was being given is cut, and the logic die holds nothing. -/
def assertReset (s : State) : State :=
  if s.dev.phase = .unpowered then s
  else
    let s := cutFile (cutMarks (cutCycles (cutOptime (cutEvidence (arcBreak (cutTransition (cutLedger s)))))))
    let t := resetPins (logicReset (cutJobs s))
    { t with dev := { t.dev with phase := .unpowered } }

def execInternalResetAssert (s : State) : Host.Outcome State Fault Refusal := .next (assertReset s)

/-- VDDIO is absent and VBAT goes: the domain loses its file and its RAM (R449). -/
def batteryLoss (s : State) : State :=
  let s := loseFile (assertReset s)
  { s with battery := { s.battery with powered := false, onBattery := false, abnormal := [], vbatMv := 0, buffer := [] } }

def execBatteryDomainPowerLoss (s : State) : Host.Outcome State Fault Refusal := .next (batteryLoss s)

/-- The domain comes up from no supply at all: the counter restarts from zero (R449). -/
def batteryUp (s : State) : State :=
  if s.battery.powered then s
  else { s with battery := { lostFile s.battery with powered := true, seconds := 0, secondsCopy := 0 },
                clock := { s.clock with batFrac := 0 } }

def execBatteryDomainPowerUp (s : State) : Host.Outcome State Fault Refusal := act s (batteryUp s)

/-- The 32.768 kHz crystal stops: the counter stops, and sampling goes on from the internal oscillator (R482). -/
def stopCrystal (s : State) : State := { s with battery := { s.battery with crystal := false } }

def execCrystalStopped (s : State) : Host.Outcome State Fault Refusal := act s (stopCrystal s)

/-! ### PCIe resets and the test port (R452) -/

/-- The endpoint reset (R452): configuration space, MSI-X table, pending bits and ATS cache; the link is as it trained, at its full rate
and width (log 64). The lower halves held and the upper halves latched under R9, which no rule names here, go too (DESIGN CHOICE, log 64). -/
def resetEndpoint (s : State) : State := { s with pcie := Pcie.reset, bus := Bus.reset }

/-- Every pitch reset and every delivery queue disabled; before service there is none (R452). -/
def resetFunction (s : State) : State := disableDqs (resetEveryPitch .pcie s)

/-- A PCIe conventional reset: the function and the Device ID, which follows EPOCH_STRAP (R29). -/
def pcieReset (strap : Bool) (s : State) : State :=
  if alive s = false then s
  else
    let s := resetEndpoint (resetFunction s)
    { s with dev := { s.dev with pciId := if strap then 0x0C12 else 0x0C18 } }

def execPcieConventionalReset (epochStrap : Bool) (s : State) : Host.Outcome State Fault Refusal := act s (pcieReset epochStrap s)

/-- A function-level reset: as a conventional one, with the link kept, and so the Device ID with it. -/
def functionReset (s : State) : State := if alive s = false then s else resetEndpoint (resetFunction s)

def execFunctionLevelReset (s : State) : Host.Outcome State Fault Refusal := act s (functionReset s)

/-- TRST_N low: the test access port alone goes to its reset state, whose instruction is IDCODE (R375, R452). -/
def testReset (s : State) : State := { s with dev := { s.dev with tap := 0x01, tdr := idcode } }

def execJtagTestReset (s : State) : Host.Outcome State Fault Refusal := act s (testReset s)

/-! ### Restarts asked for (R452, R464) -/

/-- PWR_CMD (R467): RESTART under its confirm value, and nothing else. -/
def powerCommand (v : BitVec 32) (s : State) : State :=
  if bits v 0 3 = 1#3 ∧ bits v 16 16 = 0x5253#16 ∧ alive s then { s with dev := { s.dev with restartDue := true } } else s

def execPwrRestart (v : BitVec 32) (s : State) : Host.Outcome State Fault Refusal := hostAct s (powerCommand v s)

/-- The part is Shuttered (R464). -/
def notShuttered (s : State) (_ : Job) : Option Bad := badWhen (!s.isShuttered) (bad stBadOpcode 0x0FDB)

/-- BOOT_RETRY (R464). -/
def bootRetrySpec : OpSpec :=
  { code := 0x0F13, admin := true,
    own3 := notShuttered,
    uses := fun _ => { param := 0xFFFFFFFF00000000 },
    fields := fun _ x => badWhen (bits x.desc.param 32 32 != 0x52455452#32) (badField 0x0FDA),
    blocked := earlierOf adminOps,
    run := fun s _ =>
      { state := writeFile (fun b => { b with attempts := 0 }) { s with dev := { s.dev with restartDue := true } },
        out := some (outOf stOk 0) } }

def execBootRetry (j : JobId) (s : State) : Host.Outcome State Fault Refusal := act s (startJob bootRetrySpec j s)

/-! ### Entry to the Dormant state (R465) -/

/-- What refuses the entry. -/
def dormantBusy (s : State) (x : Job) : Bool :=
  migrating s || transiting s || s.life.closing || journalOpen s.nv.wipe || journalOpen s.nv.clear ||
  s.jobs.any (fun y => y.id != x.id && adminOps.contains y.desc.opcode.toNat && (y.phase == .running || y.phase == .storing))

/-- Fetch stops, and the ports take no frame. The jobs that run go on to their end. -/
def dormantRun (s : State) (_ : Job) : Ran :=
  { state := { s with dev := { s.dev with phase := .enteringDormant } }, out := some (outOf stOk 0) }

/-- DORMANT_ENTER (R465). -/
def dormantEnterSpec : OpSpec :=
  { code := 0x0F12, admin := true,
    uses := fun _ => { param := 0xFFFFFFFF00000000 },
    fields := fun _ x => badWhen (bits x.desc.param 32 32 != 0x444F524D#32) (badField 0x0FDA),
    judge := fun s x => badWhen (dormantBusy s x) (badField 0x0FD9),
    run := dormantRun }

def execDormantEnter (j : JobId) (s : State) : Host.Outcome State Fault Refusal := act s (startJob dormantEnterSpec j s)

/-- A slot that holds a key which does not outlive the stay. -/
def volatileSlot (x : Slot) : Bool :=
  match x with
  | .key k => !k.persist
  | .reserved _ _ => true
  | _ => false

/-- The cache bindings of the stateful keys. -/
def bindingsOf (s : State) : Tab (List (BitVec 14)) :=
  s.vault.slots.filterMap (fun (e : Nat × Slot) => match e.2 with
    | .key k => match k.stateful with
      | some f => if f.caches.isEmpty then none else some (e.1, f.caches)
      | none => none
    | _ => none)

/-- The Dormant record (R465). -/
def dormantRecord (s : State) : DormantRecord :=
  { contexts := s.contexts, gens := s.vault.gens, startGen := s.vault.startGen,
    bindings := bindingsOf s,
    volatile := (s.vault.slots.filter (fun e => volatileSlot e.2)).map (fun e => BitVec.ofNat 13 e.1),
    queues := s.queues, pitches := s.pitches, porter := s.porter, crates := s.crates.held,
    parked := s.crates.parked, links := s.links,
    target := s.pace.target, avsRail := s.pace.avsRail, stream := s.stream, epoch := s.dev.epoch, lock := s.dev.lock }

/-- Jobs other than one still run. -/
def othersRun (s : State) (j : JobId) : Bool :=
  s.jobs.any (fun y => y.id != j && (y.phase == .running || y.phase == .suspended || y.phase == .storing))

/-- The part goes dormant once every other job has ended and the entry's record is written: the pending tally and the operating time are
written (R400, R402), the Dormant record and the flag stand, DORMANT_N is low, the links are down
and a quorum session ends (R418, R437, R465). -/
def goDormant (s : State) : State :=
  let s := optimeSave (ledgerTallyWrite s)
  let s := writeFile (fun b => { b with dormant := true }) { s with nv := { s.nv with dormant := some (dormantRecord s) } }
  let s := { s with rng := { s.rng with drbgs := [], requests := [] } }
  let s := endSession (dropLinks .down s)
  { s with dev := { s.dev with phase := .dormant }, out := .pin .dormantN false :: s.out }

/-- A job's result is ready and its record due (R73). A life-cycle transition first runs to its end (R365), and an entry to the
Dormant state first lets every other job end (R465). -/
def endJob (j : JobId) (w : RecordWrite) (s : State) : State :=
  let t := dueResets (jobComplete j w (if s.seq.reloading then s else endTransition j s))
  match s.job j with
  | none => t
  | some x =>
    if x.desc.opcode = 0x0F12 ∧ x.phase = .running then
      (if othersRun s j then s else if s.seq.reloading then t else goDormant t)
    else t

def execJobComplete (j : JobId) (w : RecordWrite) (s : State) : Host.Outcome State Fault Refusal := act s (endJob j w s)

end Sys2Proof.Machine
end

