-- ==== Sys2Proof/Machine/Start.lean ====
section
/-! DEFINITION. The start sequence (R457 to R463), measurements (R459), Shuttered mode and the return from the Dormant state
(R466). -/
namespace Sys2Proof.Machine

/-! ### Measurements (R459) -/

/-- A measurement taken, with what VLT_SIGNER and VLT_SVN hold for it. -/
def setMeas (n : Nat) (v signer : Bytes) (svn : BitVec 16) (s : State) : State :=
  { s with boot := { s.boot with meas := s.boot.meas.set n v },
           vault := { s.vault with signers := s.vault.signers.set n signer, svns := s.vault.svns.set n svn } }

/-- A measurement that is its own signer entry. -/
def setOwnMeas (n : Nat) (m : Bytes) (s : State) : State := let v := sha384 m; setMeas n v v 0 s

/-- Unlock words burned: W0, W2 to W14, of those whole. -/
def tokensUsed (s : State) : Nat := ((List.range 8).filter (fun k => wordWhole s.life.fuses (2 * k))).length

/-- The 54 bytes of a custodian entry, as MEAS7 takes them. -/
def custodianBytes (c : Option Custodian) : Bytes :=
  match c with
  | some c => wordBytes 4 c.serial ++ fit 48 c.keyHash ++ [c.roles, 1]
  | none => zeros 54

/-- MEAS4 to MEAS7. -/
def measureState (strap : Bool) (s : State) : State :=
  let s := setOwnMeas 4 [s.life.inForce.setWidth 8, BitVec.ofNat 8 (tokensUsed s), s.dev.orderCode.setWidth 8, flag 8 strap] s
  let s := setOwnMeas 5 (wordBytes 2 (svnMinOf s.nv.fwSvnMin) ++ wordBytes 2 (svnMinOf s.nv.planSvnMin) ++ wordBytes 2 (svnMinOf s.nv.patchSvnMin)) s
  let s := setOwnMeas 6 (s.nv.signers.flatMap (fun h => fit 48 (h.getD []))) s
  setOwnMeas 7 ((List.range 16).flatMap (fun i => custodianBytes (Tab.get none i s.nv.custodians)) ++
    s.nv.thresholds.map (fun t => t.setWidth 8)) s

/-! ### Step 1: the boot ROM (R449, R457, R460) -/

/-- The register-file check: a file that fails its CRC is lost, and the battery RAM with it (R391, R449). -/
def checkFile (s : State) : State :=
  if fileHolds s.battery then s
  else
    let s := loseFile { s with boot := { s.boot with ramLost := true } }
    let s := writeFile (fun b => { b with fileGood := true }) s
    evidence (sourceCode .vbatLow) 0 (zeros 8 ++ [1#8]) s

/-- This start is a return from the Dormant state (R466). -/
def returning (s : State) : Bool := s.battery.dormant && s.nv.dormant.isSome

/-- The power-cycle count is the higher intact copy's, plus one at a power-on reset, and not at a return (R400, R466). -/
def countCycle (s : State) : State :=
  let a := s.nv.cyclesA.getD 0
  let b := s.nv.cyclesB.getD 0
  let now := if a.toNat < b.toNat then b else a
  if fileHolds s.battery && returning s then { s with ledger := { s.ledger with cycles := now } }
  else
    let n := satAdd now 1
    { s with ledger := { s.ledger with cycles := n, counting := some (s.nv.cyclesA, s.nv.cyclesB) },
             nv := { s.nv with cyclesA := some n, cyclesB := some n } }

/-- The straps sampled at the release of reset (R29, R473). -/
def sampleStraps (i : StartInput) (s : State) : State :=
  { s with dev := { s.dev with epoch := if i.epochStrap then 1 else 2, pciId := if i.epochStrap then 0x0C12 else 0x0C18,
                               bootReason := (s.battery.history.head?).getD 0 },
           links := { s.links with part := i.linkId } }

/-- The double fuse decode (R361): two decodes that differ give INVALID and trip LC_DECODE. -/
def decodeLife (agree : Bool) (s : State) : State :=
  let s := { s with life := { s.life with inForce := if agree then decodeFuses s.life.fuses else 0x1F } }
  if agree then s else trip .lcDecode (unitReading 0) s

/-- The states that start nothing. -/
def lifeShutters (s : State) : Bool := s.life.inForce == 0 || s.life.inForce == 0x14 || s.life.inForce == 0x1F

/-! ### Shuttered mode (R460 to R463) -/

/-- Pitch 0 as Shuttered mode has it. -/
def shutteredPitch : Pitch :=
  let c := { pitchCfgInit with weight := 1, queueLimit := 1 }
  { pitchInit with shadow := c, cfg := c, state := .unbound }

/-- The random number service of Shuttered mode (R463): what of R322 can be, and pitch 0's instance. -/
def shutteredRng (trips : List (BitVec 7 × List (BitVec 2))) (s : State) : State :=
  let s := judgeSources (fillMask (startBeans trips s))
  let s := firstCarafe (startInstances [0] s)
  { s with rng := { s.rng with started := true } }

/-- The part enters Shuttered mode. -/
def enterShuttered (c : ShutterCause) (i : StartInput) (s : State) : State :=
  let s := { s with dev := { s.dev with phase := .shuttered c }, pitches := [(0, shutteredPitch)],
                    plan := PlanBlock.reset }
  shutteredRng i.beanTrips s

/-! ### Steps 2 to 4: firmware, Stall Plan, patch (R50, R137, R455) -/

/-- A step of the start: the state it leaves, or the reason for which the start fails with it. -/
abbrev StartStep := Sum (BitVec 16 × State) State

/-- The firmware bank in force. -/
def useFirmware (b alt : Bool) (f : Firmware) (s : State) : State :=
  let s := { s with
    boot := { s.boot with fwBank := b, fwAltUsed := alt, fwSvn := f.svn, fwId := f.id, baseId := f.base, fwInForce := true },
    seq := { s.seq with tileBase := f.tile, hallA := f.hall, hallB := f.hall } }
  let s := tagStores s
  setMeas 1 (sha384 (bankImage (s.bank .fw b))) (romHash 2) f.svn s

/-- Step 2. -/
def startFirmware (i : StartInput) (s : State) : StartStep :=
  if i.nvOk = false then .inl (0x0901, s)
  else
    let c := chooseBank (fwJudge s) 0x0FDC s .fw s.boot.fallback
    let s := match c.refusals.head? with
      | some r => { s with boot := { s.boot with fwDetail := r.1 } }
      | none => s
    match c.found with
    | none => .inl (0x0301, s)
    | some (b, alt, f) => if i.storesOk then .inr (useFirmware b alt f s) else .inl (0x0302, useFirmware b alt f s)

/-- The tiles of a plan's stalls, together. -/
def planTiles (p : Plan) : BitVec 64 := p.stalls.foldl (fun m e => m ||| e.tiles) 0

/-- A pitch as the plan gives it (R98, R99). -/
def plannedPitch (x : PitchPlan) : Pitch :=
  let c := { pitchCfgInit with weight := x.weight, queueLimit := x.queueMax.setWidth 7, ctxCeiling := x.ctxCeiling.setWidth 15,
                               cellCeiling := x.cellCeiling.setWidth 14, crateCeiling := x.crateCeiling.setWidth 12 }
  { pitchInit with shadow := c, cfg := c, state := .unbound }

/-- The pitches of a plan, from pitch 0 on. -/
def plannedPitches (ps : List PitchPlan) : Tab Pitch := (List.range ps.length).zip (ps.map plannedPitch)

/-- The highest rate that a port's set allows: its code is 0 for none or 1000BASE-X, 1 and 2 for the faster ones (R285, R286). -/
def highestRate (m : BitVec 8) : BitVec 2 := if bit m 2 then 2 else if bit m 1 then 1 else 0

/-- A port at its plan's highest rate. -/
def plannedPort (rates : BitVec 8) : Port :=
  let c := { PortCfg.reset with rate := highestRate rates }
  { Port.reset with shadow := c, cfg := c }

/-- The Stall Plan in force (R40, R45, R50, R98). -/
def usePlan (b alt : Bool) (p : Plan) (s : State) : State :=
  let s := { s with
    plan := { s.plan with
      inForce := some p, bank := b, altUsed := alt,
      members := p.stalls.foldl (fun (t : Tab (BitVec 64)) (e : StallEntry) => Tab.set 0#64 e.stall.toNat e.tiles t) [], spares := ~~~(planTiles p) },
    pitches := plannedPitches p.pitches,
    stream := { s.stream with ports := [plannedPort p.pb0Rates, plannedPort p.pb1Rates] } }
  let s := { s with plan := { s.plan with
    floorApplied := allSources.any (fun i => decide ((planResponse s i).toNat < (floorNow s i).toNat)) } }
  setMeas 2 (sha384 (bankImage (s.bank .plan b))) (((signerAt s p.signer.toNat)).getD (zeros 48)) p.svn s

/-- Step 3. -/
def startPlan (s : State) : StartStep :=
  let s := { s with plan := { s.plan with fallback := s.boot.fallback } }
  let c := chooseBank (planJudge s) 0x0F27 s .plan s.boot.fallback
  let s := c.refusals.foldl (fun s r => planError r.1 true r.2 s) s
  match c.found with
  | none => .inl (0x0401, s)
  | some (b, alt, p) => .inr (usePlan b alt p s)

/-- The patch in force. -/
def usePatch (b alt : Bool) (p : Patch) (s : State) : State :=
  let s := { s with seq := { s.seq with patch := some p, bank := b, altUsed := alt } }
  let s := tagPatch p s
  setMeas 3 (sha384 (bankImage (s.bank .patch b))) (romHash 1) p.svn s

/-- No patch is in force (R137). -/
def unpatched (s : State) : State :=
  setMeas 3 (zeros 48) (romHash 1) 0 { s with seq := { s.seq with unpatched := true } }

/-- Step 4. -/
def startPatch (i : StartInput) (s : State) : StartStep :=
  let c := chooseBank (patchJudge s (some s.boot.baseId)) 0x0F6C s .patch s.boot.fallback
  let s := c.refusals.foldl (fun s r => patchError r.1 true r.2 s) s
  match c.found with
  | some (b, alt, p) => .inr (measureState i.epochStrap (usePatch b alt p s))
  | none => if svnMinOf s.nv.patchSvnMin = 0 then .inr (measureState i.epochStrap (unpatched s)) else .inl (0x0501, s)

/-! ### Steps 5 and 6: random numbers and known answers (R322, R458) -/

/-- Step 5. -/
def startRng (i : StartInput) (s : State) : StartStep :=
  match rngStart i.beanTrips s with
  | (s, true) => .inr s
  | (s, false) => .inl (0x0601, s)

/-- The tiles of the stalls that fail their tests. -/
def failingTiles (i : StartInput) (s : State) : List Nat :=
  (tilesOf i.tilesFail).filter (fun t => (stallOfTile s t).isSome)

/-- The engines that fail. -/
def failingEngines (i : StartInput) : List Nat := (List.range 8).filter (bit i.enginesFail)

/-- Step 6: a failing tile or engine is retired, and the start goes on unless too many fail. -/
def startTests (i : StartInput) (s : State) : StartStep :=
  let ts := failingTiles i s
  let es := failingEngines i
  if i.vaultKatFail ∨ 8 < ts.length ∨ 4 < es.length then .inl (0x0701, s)
  else
    let s := ts.foldl (fun s t => retireTile (BitVec.ofNat 6 t) s) s
    let s := es.foldl (fun s e => retireEngine (BitVec.ofNat 3 e) 0 s) s
    .inr { s with dev := { s.dev with katPass := true } }

/-! ### Step 7: journals, vault, evidence, Dormant record -/

/-- An open wipe journal (R368): one of a state now in force is closed, and one not yet wiped has its wipe done. -/
def startWipe (s : State) : State :=
  if journalOpen s.nv.wipe = false then s
  else if journalTarget s.nv.wipe = s.life.inForce then { s with nv := { s.nv with wipe := journalClose s.nv.wipe } }
  else if journalPhase s.nv.wipe = 2 then s
  else wipeAll s

/-- The Ledger as a start finds it: the CRCs that fail are counted (R399, R409), the tally is repaired (R402), and a Ledger whose slot 16,382
a cut has torn is closed (R405). -/
def startTally (s : State) : State := closeFull (repairTally { s with ledger := { s.ledger with badCrc := BitVec.ofNat 32 (badCrcs s.ledger) } })
where
 /-- The tally repair (R402). -/
 repairTally (s : State) : State :=
  match lastRecord s.ledger with
  | none => s
  | some r =>
    if r.check = tallyCheck r.tally then s
    else
      let fix (r : Record) : Record := { r with check := tallyCheck r.tally, flags := r.flags ||| 1 }
      let l := s.ledger
      { s with ledger := { l with slots := changeLast fix l.slots, tornAtStart := true } }

/-- Migrated records are deleted (R117). -/
def dropMigrated (s : State) : State :=
  { s with nv := { s.nv with keys := s.nv.keys.filter (fun (e : Nat × Option NvKey) => !((e.2.map (·.migrated)).getD false)) } }

/-- An import whose journal entry is open is undone: every key that it placed is deleted (R117). Its pitch held none before it. -/
def dropImported (s : State) : State :=
  match s.nv.importOpen with
  | none => s
  | some (_, p) =>
    let placed (e : Nat × Option NvKey) : Bool := (e.2.map (fun r => r.pitch == p)).getD false
    { s with nv := { s.nv with importOpen := none, keys := s.nv.keys.filter (fun e => !placed e) } }

/-- The vault at a start (R349), with VLT_INT.ROOT_NEW. -/
def startVault (s : State) : State :=
  let s := vaultStart (dropImported (dropMigrated s))
  if s.vault.rootNew then { s with vault := { s.vault with vint := s.vault.vint ||| 8 } } else s

/-- The evidence buffer moved into the log, in order, with FROM_BUFFER (R391). A power cut within the time that the transfer takes leaves the
entries that had not come to their valid mark in the buffer (`cutEvidence`). -/
def startEvidence (s : State) : State :=
  let b := s.battery.buffer
  let s := b.foldl (fun s e => appendEvidence { e with flags := e.flags ||| 2 } s)
    { s with battery := { s.battery with buffer := [] } }
  { s with alarm := { s.alarm with transferred := BitVec.ofNat 7 b.length } }

/-- The generations of slots whose keys did not outlive the stay (R346). -/
def advanceGens (start : BitVec 8) (t : Tab (Option (BitVec 8))) (n : BitVec 13) : Tab (Option (BitVec 8)) :=
  Tab.set none n.toNat (some ((Tab.get none n.toNat t).getD start + 1)) t

/-- A committed set restored into a queue, a channel, a port or a delivery queue that is off. -/
def restoreQueue (q : Queue) : Queue := { queueInit with shadow := q.cfg, cfg := q.cfg }

/-- A queue that the plan in force does not allow its pitch, the pitch absent or at its limit before it, comes back unassigned (R35;
log 45). -/
def restoreQueues (s : State) (qs : Tab Queue) : Tab Queue :=
  let fits (n : Nat) (q : Queue) : Bool :=
    !q.cfg.assigned || ((s.pitch q.cfg.pitch).state != .absent &&
      decide ((qs.filter (fun e => e.1 < n && assignedTo q.cfg.pitch e.2)).length < (s.pitch q.cfg.pitch).cfg.queueLimit.toNat))
  Tab.mapVals queueInit (fun n q => restoreQueue (if fits n q then q else { q with cfg := { q.cfg with assigned := false } })) qs

/-- A channel's set; one whose pitch the plan in force lacks comes back unassigned (R35; log 45). -/
def restoreChannel (s : State) (c : Channel) : Channel :=
  let cfg := if (s.pitch c.cfg.pitch).state = .absent then { c.cfg with assigned := false } else c.cfg
  { channelInit with shadow := cfg, cfg := cfg }

/-- A port comes back disabled (R466); a rate that its plan no longer allows gives way to the highest that it does (R35, R44; log 45). -/
def restorePort (p now : Port) (rates : BitVec 8) : Port :=
  let ok := bit rates p.cfg.rate.toNat
  let rate := if ok then p.cfg.rate else now.cfg.rate
  let c := { p.cfg with enable := false, rate := rate, fec := (if ok then p.cfg.fec else 0) }
  { Port.reset with shadow := c, cfg := c }

/-- The lesser of two settings. -/
def lesser (x y : BitVec w) : BitVec w := if y.toNat < x.toNat then y else x

/-- A saved set of a pitch within what the plan in force allows (R35; log 45). -/
def withinPlan (c now : PitchCfg) : PitchCfg :=
  { c with weight := lesser c.weight now.weight, queueLimit := lesser c.queueLimit now.queueLimit,
           ctxCeiling := lesser c.ctxCeiling now.ctxCeiling, cellCeiling := lesser c.cellCeiling now.cellCeiling,
           crateCeiling := lesser c.crateCeiling now.crateCeiling }

/-- A pitch's set restored, with the epoch advanced (R466). -/
def restorePitch (s : State) (e : Nat × Pitch) : State :=
  let p := BitVec.ofNat 8 e.1
  if (s.pitch p).state = .absent then s
  else
    let c := withinPlan e.2.cfg (s.pitch p).cfg
    s.setPitch p { pitchInit with shadow := c, cfg := c, epoch := e.2.epoch + 1, state := if c.bound then .active else .unbound }

/-- The saved STREAM set within what the plan in force allows (R35, R44; log 45). -/
def restoreStream (s : State) (d : Stream) : Stream :=
  let allowed := (s.plan.inForce.map (·.prpAllowed)).getD false
  let kinds := (s.plan.inForce.map (·.frameKinds)).getD 0
  let rates (n : Nat) : BitVec 8 := (s.plan.inForce.map (fun pl => if n = 0 then pl.pb0Rates else pl.pb1Rates)).getD 0
  let c := { d.cfg with prp := d.cfg.prp && allowed, kinds := d.cfg.kinds &&& kinds }
  { s.stream with shadow := c, cfg := c, setSec := d.setSec, setNs := d.setNs,
                  ports := (s.stream.ports.zip (List.range s.stream.ports.length)).map (fun e =>
                    restorePort ((d.ports[e.2]?).getD e.1) e.1 (rates e.2)),
                  dqs := (d.dqs.filter (fun e => (s.pitch e.2.cfg.pitch).state != .absent)).map restoreDq }
where
  /-- A delivery queue's set; one whose pitch the plan in force lacks comes back as after reset (R35; log 45). -/
  restoreDq (e : Nat × Dq) : Nat × Dq :=
    (e.1, { e.2 with shadow := e.2.cfg, enabled := false, commitRefused := false, cmdRefused := false, ciFault := false,
                     refuseDetail := 0, pi := 0, ci := 0, drops := 0, since := 0, accumulated := 0, waiting := [] })

/-- A crate returned zeroed and HOST to the pitch that held it, and free where the plan in force lacks that pitch (R35; log 45). -/
def restoreCrate (s : State) (c : Crate) : Option Crate :=
  if (s.pitch c.pitch).state = .absent then none else some { c with flag := 0, returning := false }

/-- A context returned stale (R105), and free where the plan in force lacks its owner (R35; log 45). -/
def restoreContext (s : State) (c : Context) : Option Context :=
  if (s.pitch c.owner).state = .absent then none else some { c with stale := .oldEpoch, data := .empty }

/-- The Dormant record restored (R466). -/
def restoreDormant (d : DormantRecord) (s : State) : State :=
  let s := d.pitches.foldl restorePitch s
  let lk := s.links
  { s with
      contexts := Tab.mapVals none (fun _ c => c.bind (restoreContext s)) d.contexts,
      vault := { s.vault with startGen := d.startGen, gens := d.volatile.foldl (advanceGens d.startGen) d.gens,
                              returned := d.volatile.map (fun n => (n, (Tab.get none n.toNat d.gens).getD d.startGen)) },
      queues := restoreQueues s d.queues,
      porter := Tab.mapVals channelInit (fun _ c => restoreChannel s c) d.porter,
      crates := { s.crates with held := Tab.mapVals none (fun _ c => c.bind (restoreCrate s)) d.crates, parked := d.parked },
      stream := restoreStream s d.stream,
      links := { lk with spill := d.links.spill, spillBeats := d.links.spillBeats, allow := d.links.allow,
                         spillShadow := d.links.spill, beatsShadow := d.links.spillBeats, allowShadow := d.links.allow },
      pace := { s.pace with target := d.target, avsRail := d.avsRail },
      dev := { s.dev with epoch := d.epoch, lock := d.lock },
      boot := { s.boot with dormantReturn := true },
      nv := { s.nv with dormant := none } } |> writeFile (fun b => { b with dormant := false }) |> restoreBindings d
where
  /-- The cache bindings, whose contexts are stale (R207). -/
  restoreBindings (d : DormantRecord) (s : State) : State :=
    d.bindings.foldl (fun s e => bindCaches s (BitVec.ofNat 13 e.1) e.2) s

/-- The Dormant record restored on a return; an ordinary start leaves it out of account and erases it. -/
def startDormant (back : Bool) (s : State) : State :=
  match s.nv.dormant with
  | some d => if back then restoreDormant d s
              else writeFile (fun b => { b with dormant := false }) { s with nv := { s.nv with dormant := none } }
  | none => if s.battery.dormant then writeFile (fun b => { b with dormant := false }) s else s

/-- The copy of the responses for the battery domain (R390). -/
def startResponses (s : State) : State :=
  writeFile (fun b => { b with responses := some (allSources.map (responseOf s)), abnormal := [] }) s

/-- Step 7 to its end before READY. -/
def startJournals (back : Bool) (s : State) : State :=
  let s := startTally (finishClear true (startWipe s))
  startResponses (startDormant back (startEvidence (startVault s)))

/-! ### READY (R457, R460) -/

/-- The bank of a pair that a start under fallback decommits (R460): the one that normal selection prefers, where it is not in force. -/
def decommits (s : State) (k : BankKind) : Option (BankKind × Bool) :=
  match prefBank s k with
  | none => none
  | some b => if bankInForce s k = some b then none else some (k, b)

/-- The records of the failed starts, oldest first (event 0x0F02). -/
def noteFailed (s : State) : State :=
  let s := s.battery.unrecorded.reverse.foldl (fun s e => note 0x0F02 none (wordBytes 2 e.1 ++ [e.2]) s) s
  { s with battery := { s.battery with unrecorded := [] } }

/-- READY: ATTEMPTS and BOOT_REASON are zero, the links train (R434), and event 0x0F01 is recorded. The microseconds since the
release of reset, and what the mask feeds put into the delay register (R388), are open (log 1). -/
def reachReady (s : State) : State :=
  let (us, s) := drawFree s
  let (delay, s) := drawFree s
  let s := if s.boot.fallback then
      (let marks := [BankKind.fw, .plan, .patch].filterMap (decommits s)
       let t := marks.foldl (fun s e => markBank e.1 e.2 0 s) s
       { t with boot := { t.boot with marks := marks, marksAt := t.clock.us } })
    else s
  let s := { s with ledger := { s.ledger with counting := none } }
  let s := { s with links := { s.links with link := s.links.link.map (fun (l : Link) => { l with state := .training }) } }
  let file (b : Battery) : Battery :=
    { b with attempts := 0, inStart := false, lifecycleShutter := false, delayReg := BitVec.ofNat 16 delay }
  let s := writeFile file s
  let s := { s with dev := { s.dev with phase := .ready, bootReason := 0 },
                    boot := { s.boot with readyUs := BitVec.ofNat 32 us } }
  let s := if s.plan.altUsed then planInt 8 s else s
  let s := if s.ledger.tornAtStart then { s with ledger := { s.ledger with lint := s.ledger.lint ||| 0x10 } } else s
  note 0x0F01 none (wordBytes 2 ((devStatus s).setWidth 16 : BitVec 16) ++ [flag 8 s.plan.bank, flag 8 s.seq.bank, flag 8 s.boot.fwBank])
    (noteFailed s)

/-! ### The sequence (R457) -/

/-- One step after another; the first that fails ends the start with its reason. -/
def thenStep (r : StartStep) (f : State → StartStep) : StartStep :=
  match r with
  | .inl e => .inl e
  | .inr s => f s

/-- Steps 2 to 6. -/
def startSteps (i : StartInput) (s : State) : StartStep :=
  let r := if i.romOk then startFirmware i s else .inl (0x0101, s)
  thenStep (thenStep (thenStep (thenStep r startPlan) (startPatch i)) (startRng i)) (startTests i)

/-- The pace loop starts at the end of step 1 (R450). -/
def startPace (s : State) : State :=
  { s with pace := { s.pace with running := true }, alarm := { s.alarm with railTracked := s.alarm.railTracked.set 0 s.pace.commanded } }

/-- ATTEMPTS raised (R460): the start is under way. -/
def raiseAttempts (s : State) : State :=
  let n := s.battery.attempts + 1
  let s := writeFile (fun b => { b with attempts := n, inStart := true, lifecycleShutter := false }) s
  { s with boot := { s.boot with attempts := n.setWidth 3, fallback := decide (4 ≤ n.toNat) } }

/-- What follows step 1. -/
def startOn (i : StartInput) (s : State) : State :=
  let back := returning s
  let s := raiseAttempts s
  if i.completes = false then { s with dev := { s.dev with phase := .boot } }
  else match startSteps i s with
    | .inl (reason, s) => startFails reason s
    | .inr s => reachReady (startJournals back s)

/-- The start sequence from a release of internal reset. -/
def startSequence (i : StartInput) (s : State) : State :=
  let s := sampleStraps i (checkFile (countCycle s))
  let s := setOwnMeas 0 Config.bootRom (startPace (decodeLife i.decodeAgree { s with dev := { s.dev with phase := .boot } }))
  let s := if s.battery.inStart then recordFailure 0x0C01 s else s
  if lifeShutters s then
    let s := startWipe (recordFailure 0x0201 s)
    let s := writeFile (fun b => { b with lifecycleShutter := true }) s
    enterShuttered .lifecycle i { s with boot := { s.boot with attempts := s.battery.attempts.setWidth 3 } }
  else if 6 ≤ s.battery.attempts.toNat then
    enterShuttered .failedStarts i
      (writeFile (fun b => { b with attempts := 6 }) { startWipe s with boot := { s.boot with attempts := 6 } })
  else startOn i s

/-- Internal reset is released (R448, R457): from no power, or at the very first. -/
def powerOn (i : StartInput) (s : State) : State :=
  match s.dev.phase with
  | .unpowered => startSequence i s
  | .boot => if s.battery.inStart then s else startSequence i s
  | _ => s

def execPowerOnReset (i : StartInput) (s : State) : Host.Outcome State Fault Refusal := .next (powerOn i s)

/-- The start has not reached READY 5 s after the release of reset (R457). -/
def startTimeout (s : State) : State :=
  if s.dev.phase ≠ .boot then s
  else startFails 0x0A01 (if s.battery.inStart then s else raiseAttempts s)

def execStartTimeout (s : State) : Host.Outcome State Fault Refusal := act s (startTimeout s)

/-- A device restart: a power-on reset with the supplies left up (R452), which cuts the jobs that run. -/
def restart (i : StartInput) (s : State) : State := startSequence i (resetPins (logicReset (cutJobs s)))

/-- 10 ms after a failed start (R460). -/
def execFailedStartRestart (i : StartInput) (s : State) : Host.Outcome State Fault Refusal :=
  .next (if s.dev.phase = .restarting then restart i s else s)

/-- The record of the job that asked for a restart is still to be written (R393, R464). -/
def restartHeld (s : State) : Bool :=
  s.jobs.any (fun x => (x.desc.opcode == 0x0F13 || x.desc.opcode == 0x0F41) && (x.phase == .running || x.phase == .ended))

/-- The delay after a restart request is over (R452). -/
def execDeviceRestart (i : StartInput) (s : State) : Host.Outcome State Fault Refusal :=
  .next (if s.dev.restartDue && !restartHeld s && alive s then restart i s else s)

/-- The supplies are still present 1 s after DORMANT_N fell (R465): a return without a power cycle. -/
def execDormantStayTimeout (i : StartInput) (s : State) : Host.Outcome State Fault Refusal :=
  .next (if s.dev.phase = .dormant then restart i s else s)

end Sys2Proof.Machine
end

