-- ==== Sys2Proof/Machine/HashSig.lean ====
section
/-! DEFINITION. Hash-based signatures: SLH-DSA, LMS with HSS, XMSS with XMSS^MT, and the state of their keys (R191 to R213); and
the end of a write to the non-volatile die (R348). -/
namespace Sys2Proof.Machine

/-! ### SLH-DSA (R192 to R194) -/

/-- The number under which SLH-DSA signatures verify. -/
def slhAlg (d : Desc) : Nat := 65536 * 5 + 256 * d.paramSet.toNat

/-- `n` of a set: a quarter of the private key. -/
def slhN (d : Desc) : Nat := (setSize 5 d).priv / 4

/-- KEYGEN (R208, R210): VERIFY adds a signature over 32 zero bytes and its verification. The whole of a split job's figure is spread once
(R191). -/
def slhKeygenTime (_ : State) (x : Job) (_ : JobOut) : Option Nat :=
  let d := x.desc
  let f := slhFigures d.paramSet.toNat
  let m := keygenMode d
  let three := bit d.param 0
  (inAdded m (some (inShares three (cus f.2.1) + cus f.2.2)) (inInvariant m 200 (inShares three (cus f.1)))).map (spread x)

/-- SIGN (R208, R210). -/
def slhSignTime (s : State) (x : Job) (_ : JobOut) : Option Nat :=
  let d := x.desc
  let f := slhFigures d.paramSet.toNat
  let m := modeWith s d
  let more := cus (6 * stretches d.inLen.toNat)
  (inAdded m (some (cus f.2.2 + more)) (inInvariant m 200 (inShares (keyThree s d) (cus f.2.1 + more)))).map (spread x)

/-- VERIFY (R195, R210): the beats follow from the message, the randomiser and the key, and are at most twice the mean. -/
def slhVerifyTime (s : State) (x : Job) (_ : JobOut) : Option Nat :=
  let d := x.desc
  let (pk, rest) := givenPublic s x (setSize 5 d).pub
  let mean := cus ((slhFigures d.paramSet.toNat).2.2 + 6 * stretches d.inLen.toNat)
  some (inInvariant (modeWith s d) 200 (walked d mean
    [beNat pk, beNat (messageOf d (rest.drop (setSize 5 d).out) (jobInput s x)), beNat (rest.take (slhN d))]))

def slhdsaKeygenRun (s : State) (x : Job) : Ran :=
  let d := x.desc
  let seeded := d.inLen != 0
  let (seed, s) := if seeded then (jobInput s x, s) else draw s x.pitch (3 * slhN d)
  let k := keygenKey s x 5 d.paramSet.toNat (setSize 5 d) useSign seeded seed
  ranWith s { outOf (outStatus d) 0 (handles s x 0) with output := outBytes d (publicOf k) } [.keyPut (reservedAt x 0) k]

def slhdsaKeygenSpec : OpSpec :=
  { code := 0x0501, modes := true, vault := true, place := fun _ _ => .stall,
    more5 := fun _ x => vaultRequired x.desc,
    uses := fun _ => { param := 0xFFFFFFFF00000007, set := true, inp := true, out := true },
    sets := isSet 5,
    fields := fun _ x => keygenAttrsBad x.desc,
    keys := fun _ x => keygenFaultBad x.desc,
    lengths := fun _ x => firstBad
      [ badWhen (x.desc.inLen != 0 && x.desc.inLen.toNat != 3 * slhN x.desc) (badLength 0x0202),
        needOutOr0 x.desc (setSize 5 x.desc).pub ],
    slots := fun _ x => [slotFor (setSize 5 x.desc).cells (setSize 5 x.desc).priv (bit (attrsOf x.desc) 16)],
    masked := fun _ _ => true,
    draws := fun _ x => if x.desc.inLen = 0 then .call else .nothing,
    time := slhKeygenTime,
    run := slhdsaKeygenRun }

/-- SIGN: opt_rand is PK.seed under DETERMINISTIC, and RESULT stays 0. -/
def slhdsaSignRun (s : State) (x : Job) : Ran :=
  let d := x.desc
  match keyOf s d.keyHandle with
  | none => ranBad s { status := stKeyAbsent, detail := 0x0B03 }
  | some k =>
    let pk := publicOf k
    let (rnd, s) := if deterministic d then (pk.take (slhN d), s) else draw s x.pitch (slhN d)
    let msg := messageOf d (jobAux s x) (jobInput s x)
    let sig := fit (setSize 5 d).out (Config.crypto .sigSign (keyAlg 5 d.paramSet.toNat) [k.value, msg, rnd])
    ranWith (signed s (slhAlg d) pk msg sig) { outOf stOk 0 with output := sig }

def slhdsaSignSpec : OpSpec :=
  { code := 0x0502, modes := true, place := fun _ _ => .stall,
    more5 := fun _ x => vaultForbidden x.desc,
    uses := fun _ => { param := 0xFF07, set := true, key := true, inp := true, out := true, aux := true },
    sets := isSet 5,
    fields := fun _ x => formBad false x.desc,
    keys := fun s x => keyCheck s x.pitch x.desc.keyHandle (privateNeed x.desc 5 x.desc.paramSet (some 0)),
    lengths := fun _ x => firstBad [formLenBad x.desc, signCtxBad x.desc, needOut x.desc (setSize 5 x.desc).out],
    masked := fun _ _ => true,
    draws := fun _ x => if deterministic x.desc then .nothing else .call,
    time := slhSignTime,
    run := slhdsaSignRun }

def slhdsaVerifyRun (s : State) (x : Job) : Ran :=
  let d := x.desc
  let (pk, rest) := givenPublic s x (setSize 5 d).pub
  let n := (setSize 5 d).out
  ranWith s (verdict (verifies s (slhAlg d) pk (messageOf d (rest.drop n) (jobInput s x)) (rest.take n)))

def slhdsaVerifySpec : OpSpec :=
  { code := 0x0503, modes := true, place := fun _ _ => .tile,
    more5 := fun _ x => vaultForbidden x.desc,
    uses := fun _ => { param := 0xFF07, set := true, key := true, inp := true, aux := true },
    sets := isSet 5,
    fields := fun _ x => firstBad [formBad false x.desc, badWhen (deterministic x.desc) (badField 0x0307)],
    keys := fun s x => slotPublicBad s x 5,
    lengths := fun _ x => firstBad [formLenBad x.desc, verifyAuxBad x.desc (setSize 5 x.desc).pub (setSize 5 x.desc).out],
    time := slhVerifyTime,
    run := slhdsaVerifyRun }

def slhdsaPubkeySpec : OpSpec := pubkeySpec 0x0504 5 .tile

def execSlhdsaKeygen (j : JobId) (s : State) : Host.Outcome State Fault Refusal := act s (startJob slhdsaKeygenSpec j s)

def execSlhdsaSign (j : JobId) (s : State) : Host.Outcome State Fault Refusal := act s (startJob slhdsaSignSpec j s)

def execSlhdsaVerify (j : JobId) (s : State) : Host.Outcome State Fault Refusal := act s (startJob slhdsaVerifySpec j s)

def execSlhdsaPubkey (j : JobId) (s : State) : Host.Outcome State Fault Refusal := act s (startJob slhdsaPubkeySpec j s)

/-! ### Stateful families (R197 to R200) -/

/-- A stateful family: TYPE and the first of its four opcodes. -/
structure TreeSig where
  typ  : Nat
  code : BitVec 16
  deriving DecidableEq, Repr

def lmsFamily : TreeSig := { typ := 6, code := 0x0601 }
def xmssFamily : TreeSig := { typ := 7, code := 0x0611 }
def xmssmtFamily : TreeSig := { typ := 8, code := 0x0615 }

/-- The number under which a family's signatures verify. -/
def treeAlg (typ : Nat) : Nat := 65536 * typ

/-- The tree of a KEYGEN: LEVELS levels of LMS, the set's own of XMSS. -/
def withLevels (typ levels : Nat) (t : TreeSet) : TreeSet := if typ = 6 then { t with levels := levels } else t

/-- A set that KEYGEN takes: LMS heights to 20 (R197). -/
def keygenTree (typ : Nat) (set : BitVec 16) : Option TreeSet :=
  match treeOf typ set.toNat with
  | some t => if typ = 6 ∧ t.height = 25 then none else some t
  | none => none

/-- LEVELS of PARAM. -/
def levelsOf (d : Desc) : Nat := (bits d.param 4 4).toNat

/-- The tree of a KEYGEN's descriptor. -/
def descTree (f : TreeSig) (d : Desc) : TreeSet :=
  withLevels f.typ (levelsOf d) ((treeOf f.typ d.paramSet.toNat).getD ⟨1, 5, 32, 67⟩)

/-- The types that stand in front of a public key: for LMS the levels and both typecodes, for XMSS the OID. -/
def treeHead (typ : Nat) (set : BitVec 16) (t : TreeSet) : Bytes :=
  if typ = 6 then beBytes 4 t.levels ++ beBytes 4 (set.toNat % 256) ++ beBytes 4 (set.toNat / 256) else beBytes 4 set.toNat

/-- The tree that a public key names; none where its types are of no set. -/
def treeOfPub (typ : Nat) (pk : Bytes) : Option TreeSet :=
  if typ = 6 then
    let lms := beNat (slice pk 4 4)
    let ots := beNat (slice pk 8 4)
    let l := beNat (pk.take 4)
    if pk.length < 12 ∨ 255 < lms ∨ 255 < ots ∨ l < 1 ∨ 8 < l then none
    else (treeOf 6 (lms + 256 * ots)).map (withLevels 6 l)
  else if pk.length < 4 then none
  else treeOf typ (beNat (pk.take 4))

/-- The random bytes of a new key: SEED and I of LMS, or SK_SEED, SK_PRF and PK_SEED (log 22). -/
def treeSeedLen (typ : Nat) (t : TreeSet) : Nat := if typ = 6 then t.n + 16 else 3 * t.n

/-- A new stateful key (R198): persistent, with the stateful-signing usage alone, and record A with SEQ 1 and NEXT_FREE 0 (R201). -/
def treeKey (s : State) (x : Job) (f : TreeSig) (seed : Bytes) : Key :=
  let d := x.desc
  let t := descTree f d
  let head := treeHead f.typ d.paramSet t
  let body := fit (treePub f.typ t - head.length) (Config.crypto .sigKeygen (keyAlg f.typ d.paramSet.toNat) [leBytes 1 t.levels, seed])
  let limit := 2 ^ (t.levels * t.height)
  let st : Stateful :=
    { seed := seed, pub := head ++ body, levels := t.levels, height := t.height, next := 0, nextFree := 0,
      limit := limit, recA := hsRecord (vaultKey s) (mkHandle s (reservedAt x 0) x.pitch) 1 0 limit, recB := zeros 64, lowSaid := 0,
      caches := [] }
  let k := newKey s x.pitch (BitVec.ofNat 16 f.typ) d.paramSet 1 0 []
  ownPolicy d { k with persist := true, usage := 0x400, stateful := some st }

/-- KEYGEN (R211): the leaves of every level, split. What its one-time signature under VERIFY takes (R208) is not stated (log 61). -/
def treeKeygenTime (f : TreeSig) (_ : State) (x : Job) (_ : JobOut) : Option Nat :=
  let d := x.desc
  let t := descTree f d
  let m := keygenMode d
  (inAdded m none (inInvariant m 200 (inShares (bit d.param 0) (wholeUs (t.levels * 2 ^ t.height * leafCost f.typ d.paramSet.toNat))))).map
    (spread x)

def treeKeygenRun (f : TreeSig) (s : State) (x : Job) : Ran :=
  let d := x.desc
  let (seed, s) := draw s x.pitch (treeSeedLen f.typ (descTree f d))
  let k := treeKey s x f seed
  ranWith s { outOf (outStatus d) 0 (handles s x 0) with output := outBytes d (publicOf k) } [.keyPut (reservedAt x 0) k]

/-- LEVELS (R199). -/
def levelsBad (f : TreeSig) (d : Desc) : Option Bad :=
  let l := levelsOf d
  let h := ((treeOf f.typ d.paramSet.toNat).getD ⟨1, 5, 32, 67⟩).height
  if f.typ = 6 then badWhen (decide (l = 0 ∨ 8 < l ∨ 60 < l * h)) (badField 0x0603) else none

def treeKeygenSpec (f : TreeSig) : OpSpec :=
  { code := f.code, modes := true, vault := true, place := fun _ _ => .stall,
    more5 := fun _ x => vaultRequired x.desc,
    uses := fun _ => { param := if f.typ = 6 then 0xFFFFFFFF000000F7 else 0xFFFFFFFF00000007, set := true, inp := true, out := true },
    sets := fun n => (keygenTree f.typ n).isSome,
    fields := fun _ x => firstBad [levelsBad f x.desc, keygenAttrsBad x.desc],
    keys := fun _ x => keygenFaultBad x.desc,
    lengths := fun _ x => firstBad
      [badWhen (x.desc.inLen != 0) (badLength 0x0202), needOutOr0 x.desc (treePub f.typ (descTree f x.desc))],
    slots := fun _ _ => [slotFor 1 0 true true],
    masked := fun _ _ => true,
    draws := fun _ _ => .call,
    time := treeKeygenTime f,
    run := treeKeygenRun f }

/-! ### Indices (R202 to R205) -/

/-- A key's tree. -/
def treeOfKey (k : Key) (f : Stateful) : TreeSet :=
  withLevels (familyOf k.typ) f.levels ((treeOf (familyOf k.typ) k.paramSet.toNat).getD ⟨1, 5, 32, 67⟩)

/-- The index of a job's signature: the one it was given, or NEXT. -/
def signIndex (x : Job) (f : Stateful) : Nat := ((x.kept.bind (·.2))).getD f.next

/-- The index that a job was given. -/
def givenIndex (x : Job) : Option Nat := x.kept.bind (·.2)

/-- The stateful key of a job, with its state. -/
def treeKeyOf (s : State) (x : Job) : Option (Key × Stateful) :=
  match keyOf s x.desc.keyHandle with
  | some k => k.stateful.map (fun f => (k, f))
  | none => none

/-- Index NEXT given to a job, and NEXT one more (step 4 of R202), with the records of R204. -/
def giveIndex (h : BitVec 32) (s : State) : State :=
  let n := handleSlot h
  match (s.key n).bind (·.stateful) with
  | none => s
  | some f =>
    let left := f.limit - (f.next + 1)
    let due := lowNow f.limit left &&& ~~~f.lowSaid
    let s := setStateful n (fun f => { f with next := f.next + 1, lowSaid := f.lowSaid ||| lowNow f.limit left }) s
    noteLow h left (due &&& 2) (noteLow h left (due &&& 1) s)

/-- A SIGN that finds no reserved index left (step 3 of R202). -/
def needsBlock (s : State) (x : Job) : Bool :=
  match treeKeyOf s x with
  | some (_, f) => (givenIndex x).isNone && decide (f.next = f.nextFree)
  | none => false

/-- A signature at an index opens a new lower-level tree (R191, R211). -/
def opensTree (f : Stateful) (i : Nat) : Bool := decide (1 < f.levels ∧ 0 < i ∧ i % 2 ^ f.height = 0)

/-- Where a SIGN computes: on the Hall controller while it waits for its block, on one tile, or on its stall. -/
def signPlace (s : State) (x : Job) : Place :=
  match treeKeyOf s x with
  | some (_, f) => if needsBlock s x then .core else if opensTree f (signIndex x f) then .stall else .tile
  | none => .tile

/-- The lower-level trees that a signature at an index opens (R191, R211). -/
def opened (f : Stateful) (i : Nat) : Nat :=
  ((List.range (f.levels - 1)).filter (fun t => decide (0 < i ∧ i % 2 ^ (f.height * (t + 1)) = 0))).length

/-- SIGN (R211): the leaves for the traversal of the bottom tree and its own, one of each upper level; and each tree that it opens, in which case
the job is split across its stall (R191). VERIFY adds the set's mean VERIFY figure (R208). -/
def treeSignTime (s : State) (x : Job) (o : JobOut) : Option Nat :=
  match treeKeyOf s x with
  | none => none
  | some (k, f) =>
    let typ := familyOf k.typ
    let cost := leafCost typ k.paramSet.toNat
    let m := modeWith s x.desc
    let own := wholeUs ((1 + ceilDiv f.height 2 + (f.levels - 1)) * cost)
    let trees := opened f o.result.toNat * 2 ^ f.height * cost
    let fig := inAdded m ((treeVerifyMean typ k.paramSet.toNat f.levels).map cus) (inInvariant m 200 (inShares k.shares3 (own + trees)))
    if trees = 0 then fig else fig.map (spread x)

/-- HS_STATE_BIND (R211): the leaves of every level, split. -/
def bindTime (s : State) (x : Job) (_ : JobOut) : Option Nat :=
  (treeKeyOf s x).map (fun e =>
    spread x (inShares e.1.shares3 (wholeUs (e.2.levels * 2 ^ e.2.height * leafCost (familyOf e.1.typ) e.1.paramSet.toNat))))

/-! ### Caches (R206, R207) -/

/-- The content of a level's cache for the tree that holds an index (R206), of a key with hash values of `n` bytes. -/
def cacheBytes (h : BitVec 32) (n : Nat) (f : Stateful) (level i : Nat) : Bytes :=
  let below := f.height * (f.levels - level)
  let tree := i / 2 ^ below
  let leaf := i / 2 ^ (below - f.height) % 2 ^ f.height
  let at_ : List Bytes := [f.seed, leBytes 8 level, leBytes 8 tree]
  wordBytes 2 (0x0601#16) ++ leBytes 1 level ++ leBytes 1 f.height ++ wordBytes 4 h ++ leBytes 8 tree ++ leBytes 8 leaf ++
  fit 40 (fit n (Config.crypto .chainState 0 at_)) ++
  fit 640 (fit (f.height * n) (Config.crypto .chainState 1 (at_ ++ [leBytes 8 leaf]))) ++
  fit 256 (Config.crypto .chainState 2 (at_ ++ [leBytes 8 leaf])) ++ zeros 64

/-- The index whose caches stand after a signature: the next one of the same lowest tree. -/
def cacheAfter (f : Stateful) (i : Nat) : Nat := if (i + 1) % 2 ^ f.height = 0 then i else i + 1

/-- The contexts with the caches of an index, one for each level. -/
def cachePuts (s : State) (h : BitVec 32) (n : Nat) (f : Stateful) (cs : List (BitVec 14)) (i : Nat) : List Commit :=
  (cs.zip (List.range f.levels)).filterMap (fun (e : BitVec 14 × Nat) =>
    (s.ctx e.1).map (fun c => .ctxPut e.1 { c with kind := 0x0601, data := .bytes (cacheBytes h n f e.2 i) }))

/-- The cache check of a SIGN (step 1 of R202, R207). -/
def cacheBad (s : State) (x : Job) : Option Bad :=
  match treeKeyOf s x with
  | none => none
  | some (_, f) =>
    if f.caches.isEmpty then badField 0x0610
    else if f.caches.any (fun i => ((s.ctx i).map (fun c => c.stale == .damaged)).getD false) then bad stCtxStale 0x0F44
    else badWhen (f.caches.any (fun i => ((s.ctx i).map (fun c => c.stale == .oldEpoch)).getD false)) (bad stCtxStale 0x0F45)

/-! ### SIGN (R202) -/

/-- The random bytes of a signature: C of the lowest level of LMS. -/
def signRnd (f : TreeSig) (s : State) (x : Job) : Bytes × State :=
  match x.kept, treeKeyOf s x with
  | some e, _ => (e.1, s)
  | none, some (k, st) => if f.typ = 6 then draw s x.pitch (treeOfKey k st).n else ([], s)
  | none, none => ([], s)

/-- Step 4 and step 5 of R202, or the wait for a block of indices. -/
def treeSignRun (f : TreeSig) (s : State) (x : Job) : Ran :=
  let h := x.desc.keyHandle
  match treeKeyOf s x with
  | none => ranBad s { status := stKeyAbsent, detail := 0x0B03 }
  | some (k, st) =>
    let (c, s) := signRnd f s x
    if needsBlock s x then { state := s.setJob { x with kept := some (c, none) }, out := none }
    else
      let i := signIndex x st
      let s := if (givenIndex x).isSome then s else giveIndex h s
      let s := s.setJob { x with kept := some (c, some i) }
      let msg := jobInput s x
      let sig := fit (treeSig f.typ (treeOfKey k st))
        (Config.crypto .sigSign (keyAlg f.typ k.paramSet.toNat) [st.seed, leBytes 1 st.levels, leBytes 8 i, c, msg])
      ranWith (signed s (treeAlg f.typ) st.pub msg sig) { outOf stOk 0 (BitVec.ofNat 64 i) with output := sig }
        (cachePuts s h (treeOfKey k st).n st st.caches (cacheAfter st i))

/-- What a SIGN asks of its private key: the types that PARAM_SET names are the key's (R197). -/
def treeNeed (typ : Nat) (signs : Bool) (d : Desc) : KeyNeed :=
  { typ := fun t => t == BitVec.ofNat 16 typ, set := fun n => n == d.paramSet, usage := some 10,
    more := faultWeaker d, signs := signs }

/-- The length of a key's signatures. -/
def keySigLen (s : State) (x : Job) : Nat :=
  match treeKeyOf s x with
  | some (k, f) => treeSig (familyOf k.typ) (treeOfKey k f)
  | none => 0

/-- A SIGN or a BIND of the same key was accepted before and has not completed (R205). -/
def sameKeyEarlier (s : State) (x : Job) : Bool :=
  earlierAccepted (fun y => y.forwarded.isNone && (statefulSign y.desc.opcode || y.desc.opcode == 0x0630) &&
    handleSlot y.desc.keyHandle == handleSlot x.desc.keyHandle) s x

/-- What a SIGN is judged on when its turn comes: its key once more, and its caches. -/
def signJudge (f : TreeSig) (s : State) (x : Job) : Option Bad :=
  if (givenIndex x).isSome then none
  else firstBad [keyCheck s x.pitch x.desc.keyHandle (treeNeed f.typ true x.desc), cacheBad s x]

def treeSignSpec (f : TreeSig) : OpSpec :=
  { code := f.code + 1, modes := true, place := signPlace,
    more5 := fun _ x => vaultForbidden x.desc,
    uses := fun _ => { set := true, key := true, inp := true, out := true },
    sets := fun n => (keygenTree f.typ n).isSome,
    keys := fun s x => keyCheck s x.pitch x.desc.keyHandle (treeNeed f.typ true x.desc),
    lengths := fun s x => needOut x.desc (keySigLen s x),
    late := cacheBad,
    masked := fun _ _ => true,
    draws := fun _ x => if f.typ = 6 ∧ x.kept.isNone then .call else .nothing,
    blocked := sameKeyEarlier,
    judge := signJudge f,
    time := treeSignTime,
    run := treeSignRun f }

/-! ### VERIFY and PUBKEY -/

/-- The public key that a VERIFY uses, and the signature after it. -/
def treeGiven (f : TreeSig) (s : State) (x : Job) : Bytes × Bytes :=
  let aux := jobAux s x
  if x.desc.keyHandle ≠ 0 then (((keyOf s x.desc.keyHandle).map publicOf).getD [], aux)
  else
    let n := match treeOfPub f.typ aux with
      | some t => treePub f.typ t
      | none => aux.length
    (aux.take n, aux.drop n)

/-- Every defect, of the types and of the length too, is a verdict (R199). -/
def treeVerifyRun (f : TreeSig) (s : State) (x : Job) : Ran :=
  let (pk, sig) := treeGiven f s x
  let ok := match treeOfPub f.typ pk with
    | some t => decide (pk.length = treePub f.typ t ∧ sig.length = treeSig f.typ t) && verifies s (treeAlg f.typ) pk (jobInput s x) sig
    | none => false
  ranWith s (verdict ok)

/-- The index and the randomiser at the head of a stateful signature (R195): of an LMS signature those of its last level, without the typecode
between them; of XMSS an index of 4 bytes, of XMSS^MT one of as many as its height fills. -/
def sigHead (typ : Nat) (t : TreeSet) (sig : Bytes) : Bytes :=
  if typ = 6 then
    let one := sig.drop (sig.length - treeSig 6 { t with levels := 1 } + 4)
    one.take 4 ++ slice one 8 t.n
  else sig.take ((if typ = 7 then 4 else ceilDiv (t.levels * t.height) 8) + t.n)

/-- VERIFY (R195, R211): the beats follow from the message, the randomiser and the index, and are at most twice the mean where the
spec gives one. -/
def treeVerifyTime (f : TreeSig) (s : State) (x : Job) (_ : JobOut) : Option Nat :=
  let (pk, sig) := treeGiven f s x
  let set := if f.typ = 6 then (slice pk 7 1 ++ slice pk 11 1) else (slice pk 3 1)
  match treeOfPub f.typ pk with
  | none => none
  | some t =>
    let n := leNat set
    (treeVerifyMean f.typ n t.levels).map (fun m =>
      inInvariant (modeWith s x.desc) 200 (walked x.desc (cus m) [beNat pk, beNat (jobInput s x), beNat (sigHead f.typ t sig)]))

/-- An inline LMS key shorter than its own types require (R199). -/
def inlineShort (f : TreeSig) (s : State) (x : Job) : Option Bad :=
  if f.typ ≠ 6 ∨ x.desc.keyHandle ≠ 0 then none
  else
    let n := x.desc.auxLen.toNat
    let need := match treeOfPub 6 (jobAux s x) with
      | some t => treePub 6 t
      | none => 12
    badWhen (decide (n < need)) (badLength 0x0203)

/-- What a VERIFY asks of a slot. -/
def treePublicNeed (typ : Nat) (d : Desc) : KeyNeed :=
  { publicNeed d (BitVec.ofNat 16 typ) 0 with set := fun _ => true }

def treeVerifySpec (f : TreeSig) : OpSpec :=
  { code := f.code + 2, modes := true, place := fun _ _ => .tile,
    more5 := fun _ x => vaultForbidden x.desc,
    uses := fun _ => { set := true, key := true, inp := true, aux := true },
    keys := fun s x => if x.desc.keyHandle = 0 then none else keyCheck s x.pitch x.desc.keyHandle (treePublicNeed f.typ x.desc),
    late := inlineShort f,
    time := treeVerifyTime f,
    run := treeVerifyRun f }

def treePubkeySpec (f : TreeSig) : OpSpec :=
  { code := f.code + 3, place := fun _ _ => .tile,
    more5 := fun _ x => vaultForbidden x.desc,
    uses := fun _ => { set := true, key := true, out := true },
    keys := fun s x => keyCheck s x.pitch x.desc.keyHandle
      { typ := fun t => t == BitVec.ofNat 16 f.typ || t == (BitVec.ofNat 16 f.typ ||| 0x8000), set := fun _ => true, usage := none },
    lengths := fun s x => needOut x.desc (((keyOf s x.desc.keyHandle).map publicOf).getD []).length,
    run := pubkeyRun }

/-! ### HS_STATE_BIND and HS_STATE_QUERY (R204, R206) -/

/-- The contexts that AUX names, as 16-bit IDs. -/
def bindIds (s : State) (x : Job) (levels : Nat) : List (BitVec 16) :=
  (List.range levels).map (fun i => fieldAt 16 (jobAux s x) (2 * i) 2)

/-- A context holds a cache of a key. -/
def cacheOf (h : BitVec 32) (c : Context) : Bool :=
  c.kind == 0x0601 && (match c.data with
    | .bytes b => fieldAt 32 b 4 4 == h
    | _ => false)

/-- A context that a BIND may not name. -/
def bindIdBad (s : State) (x : Job) (id : BitVec 16) : Bool :=
  bits id 14 2 != s.links.part ||
  (match s.ctx (bits id 0 14) with
   | none => true
   | some c => c.owner != x.pitch || c.stale != .current || ctxInUse s x (bits id 0 14) ||
       !(c.kind == 0 || cacheOf x.desc.keyHandle c))

/-- CACHE_CTX; a context named twice is refused too (log 24). -/
def bindBad (s : State) (x : Job) : Option Bad :=
  match treeKeyOf s x with
  | none => none
  | some (_, f) =>
    let ids := bindIds s x f.levels
    badWhen (ids.any (bindIdBad s x) || decide (ids.eraseDups.length < ids.length)) (badField 0x0612)

/-- Earlier caches that are not named again lose their kind. -/
def dropOldCaches (s : State) (h : BitVec 32) (f : Stateful) (cs : List (BitVec 14)) : List Commit :=
  s.contexts.filterMap (fun (e : Nat × Option Context) => match e.2 with
    | some c =>
      let i := BitVec.ofNat 14 e.1
      if (f.caches.contains i && c.kind == 0x0601 || cacheOf h c) && !cs.contains i then
        some (Commit.ctxPut i { c with kind := 0, data := .empty })
      else none
    | none => none)

def bindRun (s : State) (x : Job) : Ran :=
  let h := x.desc.keyHandle
  match treeKeyOf s x with
  | none => ranBad s { status := stKeyAbsent, detail := 0x0B03 }
  | some (k, f) =>
    let cs : List (BitVec 14) := (bindIds s x f.levels).map (fun n => bits n 0 14)
    ranWith s (outOf stNoOutput 0) (dropOldCaches s h f cs ++ cachePuts s h (treeOfKey k f).n f cs (min f.next (f.limit - 1)) ++ [.bound (handleSlot h) cs])

/-- What BIND and QUERY ask of their key. -/
def stateNeed (d : Desc) : KeyNeed :=
  { typ := fun t => statefulType t.toNat, set := fun _ => true, usage := some 10, more := faultWeaker d }

def hsStateBindSpec : OpSpec :=
  { code := 0x0630, place := fun _ _ => .stall,
    more5 := fun _ x => vaultForbidden x.desc,
    uses := fun _ => { set := true, key := true, aux := true },
    keys := fun s x => keyCheck s x.pitch x.desc.keyHandle (stateNeed x.desc),
    lengths := fun s x => badWhen (x.desc.auxLen.toNat != 2 * (((treeKeyOf s x).map (fun e => e.2.levels)).getD 0)) (badLength 0x0611),
    late := bindBad,
    masked := fun _ _ => true,
    blocked := sameKeyEarlier,
    judge := fun s x => firstBad [keyCheck s x.pitch x.desc.keyHandle (stateNeed x.desc), bindBad s x],
    time := bindTime,
    run := bindRun }

/-- NEXT and NEXT_FREE, and in RESULT the indices left (R199, R204). -/
def queryRun (s : State) (x : Job) : Ran :=
  match treeKeyOf s x with
  | none => { state := s, out := some (outOf stKeyAbsent 0x0B03) }
  | some (_, f) =>
    { state := s,
      out := some { outOf (outStatus x.desc) 0 (BitVec.ofNat 64 (f.limit - f.next)) with
        output := outBytes x.desc (leBytes 8 f.next ++ leBytes 8 f.nextFree) } }

def hsStateQuerySpec : OpSpec :=
  { code := 0x0631,
    more5 := fun _ x => vaultForbidden x.desc,
    uses := fun _ => { set := true, key := true, out := true },
    keys := fun s x => keyCheck s x.pitch x.desc.keyHandle (stateNeed x.desc),
    lengths := fun _ x => needOutOr0 x.desc 16,
    run := queryRun }

def execLmsKeygen (j : JobId) (s : State) : Host.Outcome State Fault Refusal := act s (startJob (treeKeygenSpec lmsFamily) j s)

def execLmsSign (j : JobId) (s : State) : Host.Outcome State Fault Refusal := act s (startJob (treeSignSpec lmsFamily) j s)

def execLmsVerify (j : JobId) (s : State) : Host.Outcome State Fault Refusal := act s (startJob (treeVerifySpec lmsFamily) j s)

def execLmsPubkey (j : JobId) (s : State) : Host.Outcome State Fault Refusal := act s (startJob (treePubkeySpec lmsFamily) j s)

def execXmssKeygen (j : JobId) (s : State) : Host.Outcome State Fault Refusal := act s (startJob (treeKeygenSpec xmssFamily) j s)

def execXmssSign (j : JobId) (s : State) : Host.Outcome State Fault Refusal := act s (startJob (treeSignSpec xmssFamily) j s)

def execXmssVerify (j : JobId) (s : State) : Host.Outcome State Fault Refusal := act s (startJob (treeVerifySpec xmssFamily) j s)

def execXmssPubkey (j : JobId) (s : State) : Host.Outcome State Fault Refusal := act s (startJob (treePubkeySpec xmssFamily) j s)

def execXmssmtKeygen (j : JobId) (s : State) : Host.Outcome State Fault Refusal := act s (startJob (treeKeygenSpec xmssmtFamily) j s)

def execXmssmtSign (j : JobId) (s : State) : Host.Outcome State Fault Refusal := act s (startJob (treeSignSpec xmssmtFamily) j s)

def execXmssmtVerify (j : JobId) (s : State) : Host.Outcome State Fault Refusal := act s (startJob (treeVerifySpec xmssmtFamily) j s)

def execXmssmtPubkey (j : JobId) (s : State) : Host.Outcome State Fault Refusal := act s (startJob (treePubkeySpec xmssmtFamily) j s)

def execHsStateBind (j : JobId) (s : State) : Host.Outcome State Fault Refusal := act s (startJob hsStateBindSpec j s)

def execHsStateQuery (j : JobId) (s : State) : Host.Outcome State Fault Refusal := act s (startJob hsStateQuerySpec j s)

/-! ### Writes to the non-volatile die that a job waits for (R202, R348, R369) -/

/-- The block that a SIGN waits for is written and read back: it gets its index, and goes on to a tile (R202). -/
def blockDone (f : TreeSig) (same : Bool) (s : State) (x : Job) : State :=
  if same = false then breakWith (tearBlock x.desc.keyHandle s) x stFault 0x0613 0
  else
    match treeKeyOf s x with
    | none => breakWith s x stKeyAbsent 0x0B03 0
    | some (_, st) =>
      let s := giveIndex x.desc.keyHandle (reserveBlock x.desc.keyHandle s)
      let y := { x with kept := x.kept.map (fun e => (e.1, some st.next)), phase := .waiting, units := [] }
      placeJob (treeSignSpec f) (s.setJob y) y

/-- The family of a stateful SIGN. -/
def signFamily (c : BitVec 16) : TreeSig := if c = 0x0602 then lmsFamily else if c = 0x0612 then xmssFamily else xmssmtFamily

/-- A burn that fails its read-backs ends its job (R369). -/
def burnOf (s : State) (j : JobId) : Option (BitVec 5) :=
  match s.life.decision with
  | some d => match d.ask with
    | .transition t _ => if d.agreed ∧ d.job = some j then some t else none
    | .grant _ _ => none
  | none => none

/-- A job's write to the non-volatile die is read back: the record of a persistent key (R348), a block of indices (R202), or the
fuses of a transition (R369; log 25): the monitor's, which has no job, where none is named. -/
def nvWriteDone (j : JobId) (same : Bool) (s : State) : State :=
  match s.job j with
  | none => if s.seq.reloading then s else monitorBurned same s
  | some x =>
    if nvReady s = false ∨ s.seq.reloading then s
    else match x.phase, x.out with
      | .storing, some o =>
        if same then s.setJob { x with phase := .ended, units := [] } |> fun s => storedJob s x o
        else breakJob s x stFault 0x0B43
      | .running, none =>
        if statefulSign x.desc.opcode && x.forwarded.isNone then blockDone (signFamily x.desc.opcode) same s x else s
      | .running, some _ => match burnOf s j with
        | some t => if same then s else breakJob (burnFails t s) x stFault 0x0F7B
        | none => s
      | _, _ => s
where
  /-- A job whose keys stand on the die: its changes are made, and its record is due. -/
  storedJob (s : State) (x : Job) (o : JobOut) : State :=
    let s := (unusedSlots x).foldl unreserve s
    let s := x.commits.foldl applyCommit s
    s.setJob { x with phase := .ended, units := [], reserved := [], commits := [], out := some o }

def execNvWriteDone (j : JobId) (same : Bool) (s : State) : Host.Outcome State Fault Refusal := act s (nvWriteDone j same s)

end Sys2Proof.Machine
end

