-- ==== Sys2Proof/Machine/LinkNet.lean ====
section
/-! DEFINITION. Prokai Link (R433 to R446): training, the authenticated handshake, heartbeats, jobs that cross a link, the standbys of
flows. -/
namespace Sys2Proof.Machine

/-! ### The device identity (R435) -/

/-- The sizes of the handshake's algorithms: ML-DSA-65, ML-KEM-768, X25519. -/
def idSize : SetSize := (sizeOf 3 2).getD ⟨0, 0, 0, 0, 1⟩

def shakeKem : SetSize := (sizeOf 2 2).getD ⟨0, 0, 0, 0, 1⟩

def shakeX : SetSize := (sizeOf 13 1).getD ⟨0, 0, 0, 0, 1⟩

/-- The part's identity key pair, made at manufacture (log 2). -/
def identityValue : Bytes := fit (privateLen 3 idSize) (Config.crypto .deviceKey 0 [Config.deviceSecret])

def identityKey : Bytes := publicPart 3 idSize identityValue

/-- What a device certificate signs. -/
def certBody (uid : BitVec 64) (key : Bytes) : Bytes := wordBytes 8 uid ++ key

/-- Borsor's signature in the part's certificate. -/
def ownCertSig (s : State) : Bytes := fit 4627 (Config.crypto .deviceKey 1 [certBody s.dev.uid identityKey])

/-- A string signed with the part's identity key, and the state that has drawn the randomness of the signature. -/
def identitySign (m : Bytes) (s : State) : Bytes × State :=
  let (rnd, s) := draw s 0 32
  let mu := mldsaMu identityKey (withContext "" m)
  let sig := latticeSignature mldsaFamily algMlDsa65 idSize identityValue mu rnd
  (sig, signed s algMlDsa65 identityKey mu sig)

/-! ### Handshake messages -/

/-- The part that initiates a link's handshake: the lower number. -/
def initiates (s : State) (k : BitVec 2) : Bool := decide (s.links.part.toNat < (peerPart s k).toNat)

/-- The flows of this part whose standbys the peer of a link holds (R444). -/
def heldFor (s : State) (k : BitVec 2) : List (BitVec 14) :=
  (Tab.keysWhere (fun _ c => ((flowOf c).bind (·.standbyAt)) == some (peerPart s k)) s.contexts).map (BitVec.ofNat 14)

/-- A message of this part. -/
def ownMsg (s : State) (k : BitVec 2) (step : BitVec 2) (nonce xPub kem sig : Bytes) : HandshakeMsg :=
  { step := step, linkId := s.links.part, uid := s.dev.uid, nonce := nonce, xPub := xPub, kem := kem, certUid := s.dev.uid,
    certKey := identityKey, certSig := ownCertSig s, sig := sig, inField := inField s, holds := heldFor s k }

/-- The content of a message without its signature. -/
def msgBody (m : HandshakeMsg) : Bytes :=
  if m.step = 3 then []
  else [m.linkId.setWidth 8] ++ wordBytes 8 m.uid ++ m.nonce ++ m.xPub ++ m.kem ++ wordBytes 8 m.certUid ++ m.certKey ++ m.certSig

/-- A handshake message sent. -/
def sendStep (k : BitVec 2) (m : HandshakeMsg) (s : State) : State :=
  match s.link k with
  | some l => ({ s with out := .linkHandshake k m :: s.out }).setLink k { l with tx := satAdd l.tx 1 }
  | none => s

/-- Step 1: the nonce, the ephemeral keys and the certificate (log 33 on a DRBG that gives nothing). -/
def sendStep1 (k : BitVec 2) (s : State) : State :=
  match s.link k with
  | none => s
  | some l =>
    if drawsNow s 0 = false then s
    else
      let (r, s) := draw s 0 128
      let x := slice r 32 32
      let dk := makeValue 2 2 shakeKem (r.drop 64)
      let m := ownMsg s k 1 (r.take 32) ((x25519Curve.pub noBlinding x).1) (publicPart 2 shakeKem dk) []
      sendStep k m (s.setLink k { l with step := 1, transcript := msgBody m, ephemeral := x ++ dk })

/-- The two session keys of a finished handshake: of the initiator's direction, and the other. -/
def sessionKeys (secret transcript : Bytes) : Bytes × Bytes :=
  let b := kmac256 secret (ascii "CQX18-PROKAI") 64 (sha3_256 transcript)
  (b.take 32, b.drop 32)

/-! ### Refusals (R436) -/

/-- A link refused: event 0x0C01 of the Ledger, and the link stays down. -/
def refuseLink (k : BitVec 2) (detail : BitVec 16) (peerId : BitVec 2) (uid : BitVec 64) (s : State) : State :=
  let s := dropLink k .refused s
  let s := match s.link k with
    | some l => s.setLink k { l with refuseDetail := detail }
    | none => s
  note 0x0C01 none ([k.setWidth 8, peerId.setWidth 8] ++ wordBytes 2 detail ++ zeros 4 ++ wordBytes 8 uid) (linkInt 4 s)

/-- LINK_ALLOW admits a UID as a part. -/
def admitted (s : State) (part : BitVec 2) (uid : BitVec 64) : Bool :=
  let a := (s.links.allow[part.toNat]?).getD 0
  a == 0 || a == uid

/-- Checks 1 to 5 of R436 on a message that identifies its sender. A peer of the part's own number fails checks 1 and 2 both, and is told 0x0FC5
as R446's table has it (DEDUCED, log 34). -/
def peerBad (s : State) (k : BitVec 2) (m : HandshakeMsg) : Option (BitVec 16) :=
  if m.linkId = s.links.part then some 0x0FC5
  else if m.linkId ≠ peerPart s k then some 0x0FC4
  else if m.certUid ≠ m.uid || !mldsaVerifies s algMlDsa87 Config.deviceSigner (withContext "CQX18-DEVICE" (certBody m.certUid m.certKey)) m.certSig then
    some 0x0FC6
  else if admitted s m.linkId m.uid = false then some 0x0FC7
  else if m.inField ≠ inField s then some 0x0FC8
  else none

/-- The UID that a refusal is recorded with: zero before a certificate is read. -/
def readUid (detail : BitVec 16) (m : HandshakeMsg) : BitVec 64 := if detail = 0x0FC4 ∨ detail = 0x0FC5 then 0 else m.certUid

/-- A signature of a peer over a transcript. -/
def stepSigned (s : State) (key transcript sig : Bytes) : Bool :=
  mldsaVerifies s algMlDsa65 key (withContext "" (sha3_256 transcript)) sig

/-! ### UP (R434, R439, R444) -/

/-- The flows of this part whose standby a part holds are sent to it again (R444, R446). -/
def refreshStandbys (part : BitVec 2) (s : State) : State :=
  (Tab.keysWhere (fun _ c => ((flowOf c).bind (·.standbyAt)) == some part) s.contexts).foldl
    (fun s i => mirrorEntries (BitVec.ofNat 14 i) s) s

/-- The copies of a part's flows that the home still holds are standbys again (R444). -/
def standDown (part : BitVec 2) (homes : List (BitVec 14)) (s : State) : State :=
  mapFlows (fun f => match f.standby with
    | some (p, home) => if p = part ∧ homes.contains home then { f with active := false, takeover := false } else f
    | none => f) s

/-- Step 3 is done: the session's keys are in force, and a link that was not UP is; the copies of its peer's flows are standbys again, and
mirroring resumes (R444). -/
def linkReady (k : BitVec 2) (s : State) : State :=
  match s.link k with
  | none => s
  | some l =>
    let (a, b) := sessionKeys l.secret l.transcript
    let keys := if initiates s k then (a, b) else (b, a)
    let t := s.setLink k { l with state := .up, keys := some keys, rekeying := false, step := 0, transcript := [], secret := [],
                                  ephemeral := [] }
    if l.state = .up then t else refreshStandbys (peerPart s k) (standDown (peerPart s k) l.peerHolds (linkInt 1 t))

/-! ### The steps (R435) -/

/-- The responder takes step 1 and sends step 2. -/
def takeStep1 (k : BitVec 2) (l : Link) (m : HandshakeMsg) (s : State) : State :=
  match peerBad s k m with
  | some d => refuseLink k d m.linkId (readUid d m) s
  | none =>
    if drawsNow s 0 = false then s
    else
      let (r, s) := draw s 0 96
      let x := slice r 32 32
      let kr := kemKr m.kem (r.drop 64)
      let ct := kemCipher (keyAlg 2 2) shakeKem m.kem (r.drop 64) (kr.drop 32)
      let ss := kr.take 32 ++ x25519Curve.exchange x m.xPub
      let a := ownMsg s k 2 (r.take 32) ((x25519Curve.pub noBlinding x).1) ct []
      let both := msgBody m ++ msgBody a
      let (sig, s) := identitySign (sha3_256 both) s
      sendStep k { a with sig := sig }
        (s.setLink k { l with step := 2, transcript := both ++ sig, peerKey := m.certKey, peerUid := m.uid, secret := ss, peerHolds := m.holds })

/-- The initiator takes step 2 and sends step 3. -/
def takeStep2 (k : BitVec 2) (l : Link) (m : HandshakeMsg) (s : State) : State :=
  match peerBad s k m with
  | some d => refuseLink k d m.linkId (readUid d m) s
  | none =>
    let both := l.transcript ++ msgBody m
    if stepSigned s m.certKey both m.sig = false then refuseLink k 0x0FC9 m.linkId m.certUid s
    else if drawsNow s 0 = false then s
    else
      let x := l.ephemeral.take shakeX.priv
      let dk := l.ephemeral.drop shakeX.priv
      let ss := kemDecaps (keyAlg 2 2) shakeKem dk m.kem ++ x25519Curve.exchange x m.xPub
      let t := both ++ m.sig
      let (sig, s) := identitySign (sha3_256 t) s
      linkReady k (sendStep k (ownMsg s k 3 [] [] [] sig)
        (s.setLink k { l with transcript := t ++ sig, peerKey := m.certKey, peerUid := m.uid, secret := ss, peerHolds := m.holds }))

/-- The responder takes step 3. -/
def takeStep3 (k : BitVec 2) (l : Link) (m : HandshakeMsg) (s : State) : State :=
  if stepSigned s l.peerKey l.transcript m.sig = false then refuseLink k 0x0FC9 (peerPart s k) l.peerUid s
  else linkReady k (s.setLink k { l with transcript := l.transcript ++ m.sig })

/-- A message received is counted (LPL_RX). -/
def countRx (k : BitVec 2) (s : State) : State :=
  match s.link k with
  | some l => s.setLink k { l with rx := satAdd l.rx 1 }
  | none => s

/-- A message that identifies its sender arrives where it is not due: a peer that fails the checks of R436 is refused, any other message changes
nothing. Two parts of one number that both initiate find each other out so (R446). -/
def strayMessage (k : BitVec 2) (m : HandshakeMsg) (s : State) : State :=
  match (if m.step = 3 then none else peerBad s k m) with
  | some d => refuseLink k d m.linkId (readUid d m) s
  | none => s

/-- A handshake message arrives: the step that is due is taken, another changes nothing of a good peer. A fresh handshake on an UP link goes on
under the old keys (R435). -/
def handshakeMessage (k : BitVec 2) (m : HandshakeMsg) (s : State) : State :=
  let s := countRx k s
  match s.link k with
  | none => s
  | some l =>
    if l.state ≠ .handshake ∧ l.state ≠ .up then s
    else if initiates s k then (if m.step = 2 ∧ l.step = 1 then takeStep2 k l m s else if l.state = .handshake then strayMessage k m s else s)
    else if m.step = 1 ∧ (l.state = .up ∨ l.step = 0) then takeStep1 k { l with rekeying := l.state == .up } m s
    else if m.step = 3 ∧ l.step = 2 then takeStep3 k l m s
    else if l.state = .handshake then strayMessage k m s
    else s

def execHandshakeMessage (k : BitVec 2) (m : HandshakeMsg) (s : State) : Host.Outcome State Fault Refusal :=
  act s (handshakeMessage k m s)

/-- A step has not arrived within 5 ms (R436). -/
def handshakeTimeout (k : BitVec 2) (s : State) : State :=
  match s.link k with
  | some l => if l.state = .handshake ∨ (l.state = .up ∧ l.rekeying) then refuseLink k 0x0FC9 (peerPart s k) l.peerUid s else s
  | none => s

def execHandshakeTimeout (k : BitVec 2) (s : State) : Host.Outcome State Fault Refusal := act s (handshakeTimeout k s)

/-- 600 s, or 2^31 messages, on a session: a fresh handshake (R435). -/
def sessionRekey (k : BitVec 2) (s : State) : State :=
  match s.link k with
  | some l =>
    if l.state ≠ .up ∨ l.rekeying then s
    else
      let s := s.setLink k { l with rekeying := true, step := 0 }
      if initiates s k then sendStep1 k s else s
  | none => s

def execSessionRekey (k : BitVec 2) (s : State) : Host.Outcome State Fault Refusal := act s (sessionRekey k s)

/-! ### Training (R434) -/

/-- A down link attempts training. -/
def linkTrainAttempt (k : BitVec 2) (s : State) : State :=
  match s.link k with
  | some l => if s.dev.phase = .ready ∧ l.state = .down then s.setLink k (bareLink l .training) else s
  | none => s

def execLinkTrainAttempt (k : BitVec 2) (s : State) : Host.Outcome State Fault Refusal := act s (linkTrainAttempt k s)

/-- Training completes: with 4 lanes or with 2 the handshake begins; with fewer the link stays down. A refused link attempts no training: that
it is trained says that its peer came back from a power-on reset, which lifts the refusal (R436; DEDUCED, log 34). -/
def linkTrainingComplete (k : BitVec 2) (lanes : BitVec 3) (s : State) : State :=
  match s.link k with
  | some l =>
    if (l.state ≠ .training ∧ l.state ≠ .refused) ∨ s.dev.phase ≠ .ready then s
    else if lanes ≠ 4 ∧ lanes ≠ 2 then (if l.state = .refused then s else s.setLink k { l with state := .down })
    else
      let s := s.setLink k { l with state := .handshake, step := 0, lanes := if lanes = 4 then 2 else 1 }
      if initiates s k then sendStep1 k s else s
  | none => s

def execLinkTrainingComplete (k : BitVec 2) (lanes : BitVec 3) (s : State) : Host.Outcome State Fault Refusal :=
  act s (linkTrainingComplete k lanes s)

/-- LINK_CMD RETRAIN: the link goes down and trains again, a refused one too. -/
def retrain (k : BitVec 2) (s : State) : State :=
  if s.dev.phase = .ready then dropLink k .training s else s

def execRetrain (k : BitVec 2) (s : State) : Host.Outcome State Fault Refusal := hostAct s (retrain k s)

/-! ### LINK_CMD COMMIT (R445) -/

/-- What a commit makes of a link: an UP peer no longer admitted loses it, a refused link trains again. -/
def readmit (s : State) (k : BitVec 2) : State :=
  match s.link k with
  | none => s
  | some l =>
    if l.state = .up ∧ admitted s (peerPart s k) l.peerUid = false then dropLink k .down s
    else if l.state = .refused then s.setLink k (bareLink l .training)
    else s

/-- LINK_CMD COMMIT. SPILL_BEATS 0 is refused with 0x0FCA, a DETAIL for which R445 gives no register (log 73). -/
def linkCommit (s : State) : State :=
  let l := s.links
  if l.beatsShadow = 0 then linkInt 16 { s with links := { l with commitDetail := 0x0FCA } }
  else
    [0#2, 1#2, 2#2].foldl readmit
      { s with links := { l with commitDetail := 0, spill := l.spillShadow, spillBeats := l.beatsShadow, allow := l.allowShadow } }

def execLinkCommit (s : State) : Host.Outcome State Fault Refusal := hostAct s (linkCommit s)

/-! ### Heartbeats and loads (R437, R440) -/

/-- A link is UP. -/
def linkUp (s : State) (k : BitVec 2) : Bool := (s.link k).any (fun l => l.state == .up)

/-- An UP link sends a heartbeat. -/
def heartbeatSend (k : BitVec 2) (s : State) : State := if linkUp s k then sendLink k 5 [] s else s

def execHeartbeatSend (k : BitVec 2) (s : State) : Host.Outcome State Fault Refusal := act s (heartbeatSend k s)

/-- A message from a peer is received and checked: one whose tag fails loses the peer. -/
def heartbeatReceive (k : BitVec 2) (m : LinkMsg) (tagOk : Bool) (s : State) : State :=
  if linkUp s k = false then s
  else
    let s := countRx k s
    match s.link k with
    | none => s
    | some l =>
      if tagOk = false then dropLink k .down (s.setLink k { l with tagFail := satAdd l.tagFail 1 })
      else match m with
        | .heartbeat => s
        | .load beats full => s.setLink k { l with load := beats.take 6, loadFull := full }

def execHeartbeatReceive (k : BitVec 2) (m : LinkMsg) (tagOk : Bool) (s : State) : Host.Outcome State Fault Refusal :=
  act s (heartbeatReceive k m tagOk s)

/-- No message for 50 µs (R437). -/
def peerLost (k : BitVec 2) (s : State) : State := if linkUp s k then dropLink k .down s else s

def execPeerLost (k : BitVec 2) (s : State) : Host.Outcome State Fault Refusal := act s (peerLost k s)

/-- Spilled jobs of peers that the part holds. -/
def spilledIn (s : State) : Nat := (s.jobs.filter (fun x => x.id.src != 0 && x.spilled)).length

/-- The beats queued for the five roles and the engines, as a peer reads them; all ones where nothing of the kind is in service. -/
def ownLoads (s : State) : List (BitVec 32) :=
  let cut (n : Option Nat) : BitVec 32 := match n with
    | some v => BitVec.ofNat 32 (min v 0xFFFFFFFF)
    | none => 0xFFFFFFFF
  [0x0201, 0x0101, 0x0C01, 0x0701, 0x0D01, 0x0901].map (fun c => cut (localLoad s (BitVec.ofNat 16 c)))

/-- Every UP peer is told the part's load (R440). -/
def loadAdvertise (s : State) : State :=
  let body := (ownLoads s).flatMap (wordBytes 4) ++ [flag 8 (decide (1024 ≤ spilledIn s))]
  [0#2, 1#2, 2#2].foldl (fun t k => if linkUp s k then sendLink k 6 body t else t) s

def execLoadAdvertise (s : State) : Host.Outcome State Fault Refusal := act s (loadAdvertise s)

/-! ### Jobs that cross a link (R438 to R441) -/

/-- A peer's job as this part takes it: `queue` 0 for a forwarded one, 1 for a spilled one, the message's number as its place. -/
def peerJob (k : BitVec 2) (queue : BitVec 12) (n : BitVec 32) (p : BitVec 8) (d : Desc) (input aux : Bytes) : Job :=
  { jobInit { src := k + 1, queue := queue, pos := n } 0 p d with input := some input, aux := some aux }

/-- A peer's job joins the jobs of this part. -/
def takeJob (x : Job) (s : State) : State := if (s.job x.id).isSome then s else { s with jobs := s.jobs ++ [x] }

/-- A home receives a forwarded job (R438); its opcode's command checks and runs it. -/
def jobForwardReceive (k : BitVec 2) (n : BitVec 32) (p : BitVec 8) (d : Desc) (input aux : Bytes) (s : State) : State :=
  if linkUp s k then takeJob (peerJob k 0 n p d input aux) (countRx k s) else s

def execJobForwardReceive (k : BitVec 2) (n : BitVec 32) (p : BitVec 8) (d : Desc) (input aux : List Byte) (s : State) :
    Host.Outcome State Fault Refusal :=
  act s (jobForwardReceive k n p d input aux s)

/-- A key record that crossed a link (R442), opened under the session key of the direction. -/
def openKey (s : State) (k : BitVec 2) (n : BitVec 32) (r : Bytes) : Option Bytes :=
  match (s.link k).bind (·.keys) with
  | some (_, rx) => if recordFormatOk 3 (n.setWidth 64) r then unwrapRecord 3 rx r else none
  | none => none

/-- The key records that came with a spilled job, one behind the other. -/
def openKeys (s : State) (k : BitVec 2) (n : BitVec 32) : Nat → Bytes → Option (List (BitVec 32 × Key))
  | 0, _ => some []
  | i + 1, b =>
    if b.isEmpty then some []
    else
      let r := b.take ((fieldAt 32 b 8 4).toNat + 128)
      match openKey s k n r, openKeys s k n i (b.drop r.length) with
      | some v, some t => some ((fieldAt 32 (recordHeader r) 4 4, travelled (recordHeader r) v) :: t)
      | _, _ => none

/-- A spilled job that this part does not run goes back as lost (R446). -/
def returnLost (x : Job) (s : State) : State := answerPeer s x (outOf stAborted 0x0FC0)

/-- A peer receives a spilled job with its wrapped keys (R441), at most 1,024 of them at a time (R440). -/
def spillReceive (k : BitVec 2) (n : BitVec 32) (p : BitVec 8) (d : Desc) (input aux key : Bytes) (s : State) : State :=
  if linkUp s k = false then s
  else
    let s := countRx k s
    let x := { peerJob k 1 n p d input aux with spilled := true }
    if s.locked ∨ 1024 ≤ spilledIn s then returnLost x s
    else match openKeys s k n 2 key with
      | some ks => takeJob { x with lent := ks } s
      | none => returnLost x s

def execSpillReceive (k : BitVec 2) (n : BitVec 32) (p : BitVec 8) (d : Desc) (input aux key : List Byte) (s : State) :
    Host.Outcome State Fault Refusal :=
  act s (spillReceive k n p d input aux key s)

/-- What a peer answered, as the content of the job's record. -/
def peerOut (r : PeerResult) : JobOut :=
  { outOf r.status r.detail r.result with output := r.output, elapsed := r.elapsed }

/-- CTX_ALLOC that one peer cannot grant: the next UP peer is asked, and after the last one the local part's refusal stands (R439). -/
def allocElsewhere (x : Job) (k : BitVec 2) (s : State) : State :=
  match upPeersFrom s ((peerPart s k).toNat + 1) with
  | k2 :: _ => forwardJob s x k2
  | [] =>
    let r := x.refusal.getD (stCtxFull, 0x0F41)
    s.setJob { x with out := some (outOf r.1 r.2) }

/-- The origin receives a forwarded job's result; its record is written as any other job's (log 35). -/
def jobForwardResult (j : JobId) (r : PeerResult) (s : State) : State :=
  match s.job j with
  | none => s
  | some x => match x.forwarded with
    | none => s
    | some k =>
      if x.spilled ∨ x.phase ≠ .running ∨ x.out.isSome then s
      else
        let s := countRx k s
        if x.desc.opcode = 0x0F20 ∧ r.status ≠ stOk then allocElsewhere x k s
        else s.setJob { x with out := some (peerOut r) }

def execJobForwardResult (j : JobId) (r : PeerResult) (s : State) : Host.Outcome State Fault Refusal := act s (jobForwardResult j r s)

/-- The origin receives a spilled job's result; one returned as lost runs again here (R441, R446). -/
def spillResult (j : JobId) (r : PeerResult) (s : State) : State :=
  match s.job j with
  | none => s
  | some x => match x.forwarded with
    | none => s
    | some k =>
      if x.spilled = false ∨ x.phase ≠ .running ∨ x.out.isSome then s
      else
        let s := countRx k s
        if r.status = stAborted ∧ r.detail = 0x0FC0 then lostAt k s x
        else s.setJob { x with out := some (peerOut r) }

def execSpillResult (j : JobId) (r : PeerResult) (s : State) : Host.Outcome State Fault Refusal := act s (spillResult j r s)

/-! ### Standbys (R443, R444) -/

/-- The context of the standby of a home's flow. -/
def standbyOf (s : State) (part : BitVec 2) (home : BitVec 14) : Option (BitVec 14) :=
  (Tab.keysWhere (fun _ c => ((flowOf c).bind (·.standby)) == some (part, home)) s.contexts).head?.map (BitVec.ofNat 14)

/-- The home is asked for a standby: it gives the flow, or denies it. -/
def standbyAsked (part : BitVec 2) (home : BitVec 14) (p : BitVec 8) (s : State) : State :=
  let good : Bool := match s.ctx home, s.flow home with
    | some c, some f => c.owner == p && c.stale == .current && !f.record.egress && f.standbyAt.isNone && f.active
    | _, _ => false
  if good then changeFlow home (fun f => { f with standbyAt := some part }) (sendFlow 1 part home s)
  else flowMsg s part 2 home []

/-- The FLOW_STANDBY job that waits for the answer about a home's flow. -/
def askingJob (s : State) (part : BitVec 2) (home : BitVec 14) : Option Job :=
  s.jobs.find? (fun x => asksPart part x && ctxIndex x.desc == home)

/-- A standby made from what the home gave: it delivers to a queue of this part. -/
def standbyFlow (s : State) (part : BitVec 2) (home : BitVec 14) (dq : BitVec 8) (image a b : Bytes) : Flow :=
  { withImage s.clock.us image (flowInit { flowRecOf image with dq := dq.setWidth 16 } (flowStall s) a b []) with
      standby := some (part, home), active := false }

/-- The home gave the flow: the waiting job has its context (R443). -/
def standbyGiven (part : BitVec 2) (home : BitVec 14) (image a b : Bytes) (s : State) : State :=
  match askingJob s part home with
  | none => flowMsg s part 6 home []
  | some x =>
    let f := standbyFlow s part home (standbyDq x.desc) image a b
    match x.fresh.head? with
    | none => flowMsg s part 6 home []
    | some i =>
      if keyTaken s f.record then refuseJob (flowMsg s part 6 home []) x { status := stBadField, detail := 0x0C61 }
      else
        (s.setCtx i (some (newContext x.pitch 0x0C01 (.flow f)))).setJob
          { x with out := some (outOf stOk 0 (at64 0 (ctxId s i.toNat))) }

/-- The home denied the flow. -/
def standbyDenied (part : BitVec 2) (home : BitVec 14) (s : State) : State :=
  match askingJob s part home with
  | some x => refuseJob s x { status := stBadField, detail := 0x0C6D }
  | none => s

/-- The home's record, entries and replay state of a flow: the copy is a standby (again), with its own queue. -/
def standbyRefreshed (i : BitVec 14) (image a b : Bytes) (s : State) : State :=
  changeFlow i (fun f =>
    withImage s.clock.us image
      { f with record := { flowRecOf image with dq := f.record.dq }, keyA := a, keyB := b, active := false, takeover := false }) s

/-- A key record of a flow message; none stands for an empty entry. -/
def openFlowKey (s : State) (k : BitVec 2) (n : BitVec 32) (r : Bytes) : Option Bytes :=
  if r.isEmpty then some [] else openKey s k n r

/-- A message about a flow and its standby. -/
def flowMirror (k : BitVec 2) (m : FlowMsg) (s : State) : State :=
  let part := peerPart s k
  match m with
  | .ask home p => standbyAsked part home p s
  | .given home n image a b => match openFlowKey s k n a, openFlowKey s k n b with
    | some a, some b => standbyGiven part home image a b s
    | _, _ => standbyDenied part home (flowMsg s part 6 home [])
  | .denied home => standbyDenied part home s
  | .state home image => match standbyOf s part home with
    | some i => changeFlow i (withImage s.clock.us image) s
    | none => flowMsg s part 6 home []
  | .entries home n image a b => match standbyOf s part home, openFlowKey s k n a, openFlowKey s k n b with
    | some i, some a, some b => standbyRefreshed i image a b s
    | none, _, _ => flowMsg s part 6 home []
    | _, _, _ => s
  | .gone home => match standbyOf s part home with
    | some i => s.setCtx i none
    | none => s
  | .ended home => changeFlow home (fun f => if f.standbyAt = some part then { f with standbyAt := none } else f) s

def flowMirrorUpdate (k : BitVec 2) (m : FlowMsg) (s : State) : State :=
  if linkUp s k then flowMirror k m (countRx k s) else s

def execFlowMirrorUpdate (k : BitVec 2) (m : FlowMsg) (s : State) : Host.Outcome State Fault Refusal := act s (flowMirrorUpdate k m s)

end Sys2Proof.Machine
end

