-- ==== Sys2Proof/Machine/PciConfig.lean ====
section
/-! DEFINITION. Configuration space of the PCIe endpoint (R53 to R57): the registers that the spec names, in the PCI Express layout. The
places of the capabilities are this model's (log 64). -/
namespace Sys2Proof.Machine

/-- Offsets of the capabilities: power management, MSI-X, PCI Express; AER, PASID and ATS in extended space (log 64). -/
def pmCap : Nat := 0x40
def msixCap : Nat := 0x50
def pcieCap : Nat := 0x60
def aerCap : Nat := 0x100
def pasidCap : Nat := 0x148
def atsCap : Nat := 0x150

/-- A base address register of 64 bits, of `size` bytes, as it reads: its base with the type bits of R55. -/
def barWord (base : BitVec 64) (prefetchable : Bool) : BitVec 64 := base ||| (if prefetchable then 0xC else 0x4)

/-- A base written: the bits below its size stay zero. -/
def barBase (v : BitVec 64) (size : Nat) : BitVec 64 := v &&& ~~~(BitVec.ofNat 64 (size - 1))

/-- The sizes of the three windows (R55). -/
def controlSize : Nat := 0x4000000
def doorbellSize : Nat := 0x100000
def crateSize : Nat := 0x800000

/-- The Message Control word of the MSI-X capability, in the PCI Express layout: 2,048 vectors, the Function Mask, the Enable. -/
def messageControl (s : State) : BitVec 64 := 0x7FF#64 ||| at64 14 (flag 1 s.pcie.funcMask) ||| at64 15 (flag 1 s.pcie.msixEnable)

/-- A write of it (R56): a mask set holds messages back, a mask cleared lets them go, Enable set signals a pending summary. -/
def messageControlWrite (v : BitVec 64) (s : State) : State :=
  let s := { s with pcie := { s.pcie with funcMask := bit v 14 } }
  let s := if bit v 15 then msixOn s else { s with pcie := { s.pcie with msixEnable := false } }
  if bit v 14 then s else functionUnmask s

/-- Device Control of the PCI Express capability: relaxed ordering, the payload size, the read request size. -/
def deviceControl (s : State) : BitVec 32 :=
  at32 4 (flag 1 s.pcie.relaxed) ||| at32 5 s.pcie.payload ||| at32 12 s.pcie.readRequest

/-- A write of Device Control; a size that R53 does not name is not taken (log 64). -/
def deviceControlWrite (v : BitVec 32) (s : State) : State :=
  let p := s.pcie
  { s with pcie := { p with relaxed := bit v 4,
                            payload := if (bits v 5 3).toNat ≤ 2 then bits v 5 3 else p.payload,
                            readRequest := if (bits v 12 3).toNat ≤ 5 then bits v 12 3 else p.readRequest } }

/-- The ATS enable written: with it clear, nothing stays cached. -/
def atsWrite (on : Bool) (s : State) : State :=
  { s with pcie := { s.pcie with atsEnable := on, ats := if on then s.pcie.ats else [] } }

/-- A word of configuration space. -/
def configWord (s : State) (o : Nat) : BitVec 32 :=
  let p := s.pcie
  match o with
  | 0x00 => at32 0 Config.vendorId ||| at32 16 s.dev.pciId
  | 0x04 => 0x00100000
  | 0x08 => 0x10800000
  | 0x10 => bits (barWord p.bar0 false) 0 32
  | 0x14 => bits p.bar0 32 32
  | 0x18 => bits (barWord p.bar2 false) 0 32
  | 0x1C => bits p.bar2 32 32
  | 0x20 => bits (barWord p.bar4 true) 0 32
  | 0x24 => bits p.bar4 32 32
  | 0x34 => BitVec.ofNat 32 pmCap
  | 0x40 => 0x00035001
  | 0x44 => (if p.d3hot then 3 else 0) ||| 0x8
  | 0x50 => 0x00006011 ||| at32 16 ((messageControl s).setWidth 16 : BitVec 16)
  | 0x54 => 0x00008000
  | 0x58 => 0x00007000
  | 0x60 => 0x00020010
  | 0x64 => 0x10008002
  | 0x68 => deviceControl s
  | 0x6C => 0x00000105
  | 0x70 => at32 16 p.linkRate ||| at32 20 p.linkWidth
  | 0x84 => 0x00030000
  | 0x88 => at32 12 (flag 1 p.tags10)
  | 0x100 => 0x14820001
  | 0x148 => 0x1501001B
  | 0x14C => 0x00001400 ||| at32 16 (flag 1 p.pasidEnable)
  | 0x150 => 0x0001000F
  | 0x154 => 0x00000020 ||| at32 31 (flag 1 p.atsEnable)
  | _ => 0

/-- A write to a word of configuration space: what the spec leaves to the host. The power state has commands of its own. -/
def configWrite (o : Nat) (v : BitVec 32) (s : State) : State :=
  let p := s.pcie
  match o with
  | 0x10 => { s with pcie := { p with bar0 := barBase (bits p.bar0 32 32 ++ v) controlSize } }
  | 0x14 => { s with pcie := { p with bar0 := v ++ bits p.bar0 0 32 } }
  | 0x18 => { s with pcie := { p with bar2 := barBase (bits p.bar2 32 32 ++ v) doorbellSize } }
  | 0x1C => { s with pcie := { p with bar2 := v ++ bits p.bar2 0 32 } }
  | 0x20 => { s with pcie := { p with bar4 := barBase (bits p.bar4 32 32 ++ v) crateSize } }
  | 0x24 => { s with pcie := { p with bar4 := v ++ bits p.bar4 0 32 } }
  | 0x50 => messageControlWrite (bits v 16 16 |>.setWidth 64) s
  | 0x68 => deviceControlWrite v s
  | 0x88 => { s with pcie := { p with tags10 := bit v 12 } }
  | 0x14C => { s with pcie := { p with pasidEnable := bit v 16 } }
  | 0x154 => atsWrite (bit v 31) s
  | _ => s

end Sys2Proof.Machine
end

