-- ==== Sys2Proof/Machine/Place.lean ====
section
/-! DEFINITION. A job that waited is placed (R15, R69), a digest yields its tile (R223). -/
namespace Sys2Proof.Machine

/-- The opcodes of the part, first part. -/
def specs1 : List OpSpec :=
  [aesSpec false, aesSpec true, alarmUnlockSpec, archiveExportSpec, archiveFormatSpec, archiveMountSpec, bootRetrySpec,
   ctxAllocSpec, ctxFreeSpec, curveLoadSpec, custodianEnrolSpec, custodianRemoveSpec, debugGrantSpec, dhSpec,
   dhKeygenSpec, dhPubkeySpec, digestSpec, digestKeySpec, dormantEnterSpec, drbgInfoSpec, drbgInstantiateSpec,
   drbgReseedSpec, ecKeygenSpec, ecPubkeySpec, ecdhSpec, ecdsaSignSpec, ecdsaVerifySpec, eddsaKeygenSpec,
   eddsaPubkeySpec, eddsaSignSpec]

/-- The opcodes of the part, second part. -/
def specs2 : List OpSpec :=
  [eddsaVerifySpec, evidenceReadSpec, flowCreateSpec, flowDeleteSpec, flowKeySpec, flowReadSpec, flowResyncSpec,
   flowSetSpec, flowStandbySpec, fndsaKeygenSpec, fndsaPubkeySpec, fndsaSignSpec, fndsaVerifySpec, fwStageSpec true,
   fwSvnRaiseSpec, hqcDecapsSpec, hqcEncapsSpec, hqcKeygenSpec, hqcPubkeySpec, hsStateBindSpec, hsStateQuerySpec,
   keeperIdentifySpec, keeperPresentSpec, lcNonceSpec, lcTransitionSpec, ledgerClearSpec, ledgerReadSpec,
   treeKeygenSpec lmsFamily, treePubkeySpec lmsFamily, treeSignSpec lmsFamily]

/-- The opcodes of the part, third part. -/
def specs3 : List OpSpec :=
  [treeVerifySpec lmsFamily, mceDecapsSpec, mceEncapsSpec, mceKeygenSpec, mcePkPinSpec, mcePubkeySpec, mldsaKeygenSpec,
   mldsaPubkeySpec, mldsaSignSpec, mldsaVerifySpec, mlkemDecapsSpec, mlkemEncapsSpec, mlkemKeygenSpec, mlkemPubkeySpec,
   patchStageSpec true, patchSvnRaiseSpec, pitchExportSpec, pitchImportSpec, planReadSpec, planSignerAddSpec,
   planSignerRemoveSpec, planStageSpec true, planSvnRaiseSpec, porterStartSpec, porterStopSpec, quorumCloseSpec,
   quorumOpenSpec, quorumSetSpec, rngGenerateSpec, rngRawSpec]

/-- The opcodes of the part, fourth part. -/
def specs4 : List OpSpec :=
  [rsaDecryptSpec, rsaEncryptSpec, rsaKeygenSpec, rsaPubkeySpec, rsaSignSpec, rsaVerifySpec, slhdsaKeygenSpec,
   slhdsaPubkeySpec, slhdsaSignSpec, slhdsaVerifySpec, streamSendSpec, vaultDeleteSpec, vaultDeriveSpec,
   vaultExportSpec, vaultImportSpec, vaultInfoSpec, vaultModifySpec, vprogRunSpec, vprogVerifySpec, xdhSpec,
   xdhKeygenSpec, xdhPubkeySpec, treeKeygenSpec xmssFamily, treePubkeySpec xmssFamily, treeSignSpec xmssFamily,
   treeVerifySpec xmssFamily, treeKeygenSpec xmssmtFamily, treePubkeySpec xmssmtFamily, treeSignSpec xmssmtFamily,
   treeVerifySpec xmssmtFamily]

/-- Every opcode of the part. -/
def allSpecs : List OpSpec := specs1 ++ specs2 ++ specs3 ++ specs4

/-- What the spec says of an opcode. -/
def specOf (c : BitVec 16) : Option OpSpec := allSpecs.find? (fun sp => sp.code == c)

/-- The job to which a digest gave its tile waits for the other tiles of that stall. -/
def promised (s : State) (x : Job) (n : Nat) : Bool :=
  s.jobs.any (fun z => x.gave == some z.id && z.split && z.phase == .waiting && z.stall == some n)

/-- The stall on which a digest that yielded its tile goes on: of those with an idle tile, the one of R15. -/
def resumeStall (s : State) (x : Job) : Option Nat :=
  leastBy (stallLoad s) ((stallsOf s .hashsig).filter (fun n => !(idleTiles s n).isEmpty && !promised s x n))

/-- Bytes of a segment. -/
def segment : Nat := 65536

/-- A running digest that comes to a segment boundary while a job of another pitch waits for its tile: a job that is spread over a
stall waits for the tiles of that one. -/
def yields (x y : Job) : Bool :=
  y.desc.opcode == 0x0101 && y.phase == .running && y.pitch != x.pitch && decide (segment < y.desc.inLen.toNat) &&
  y.forwarded.isNone && (!x.split || y.stall == x.stall)

/-- Digest jobs in the suspend store, which has 32 entries. -/
def suspendedCount (s : State) : Nat := (s.jobs.filter (fun y => y.phase == .suspended)).length

/-- A digest job gives up its tile for a job that waits for one, a suspended digest among them (R223): its place in its input moves to the
suspend store, and the tile takes the waiting job. -/
def yieldFor (s : State) (x : Job) : State :=
  if 32 ≤ suspendedCount s then s
  else match s.jobs.find? (yields x) with
    | none => s
    | some y =>
      let s := (y.units.foldl leaveUnit s).setJob { y with phase := .suspended, units := [], stall := none, gave := some x.id }
      s.setJob { x with stall := if x.split then x.stall else y.stall }

/-- A digest job that yielded its tile takes one again (R223); where none is idle, a digest of another pitch yields one for it. -/
def resumeJob (s : State) (x : Job) : State :=
  if placing s = false then s
  else
    let free := resumeStall s x
    let u := if free.isNone && !behind s .hashsig x then yieldFor s x else s
    let y := (u.job x.id).getD x
    let y := { y with stall := if free.isSome then free else y.stall }
    match tilesNow u .hashsig y with
    | none => u
    | some us =>
      let y := { y with phase := .running, units := us, gave := none }
      us.foldl (takeUnit y) (u.setJob y)

/-- A job waits for a HASHSIG tile and for nothing else: it is not behind another one that waits. A suspended digest that goes before it
does not keep a running one from yielding to it (R223). -/
def wantsTile (sp : OpSpec) (p : Place) (s : State) (x : Job) : Bool :=
  roleOf x.desc.opcode == some .hashsig && p.tiled && placing s && !sp.blocked s x && !ctxBusy s x && (startBad sp s x).isNone &&
  (spillLink sp s x).isNone && !x.entropyWait && !behind s .hashsig x && (tilesNow s .hashsig x).isNone

/-- A waiting job placed; where it finds no HASHSIG tile on the stall on which it is queued, a digest of another pitch yields one. -/
def placeWaiting (s : State) (x : Job) : State :=
  match specOf x.desc.opcode with
  | none => s
  | some sp =>
    let v := lend x s
    let p := sp.place v x
    let y := placeOn v { x with queued := queuedBeats sp v x } p
    if wantsTile sp p v y then
      let u := yieldFor (s.setJob y) y
      placeWithKey sp u ((u.job x.id).getD y)
    else placeWithKey sp s x

/-- A job that waits, or that yielded its tile, is placed (R15). -/
def jobPlace (j : JobId) (s : State) : State :=
  match s.job j with
  | none => s
  | some x => match x.phase with
    | .waiting => placeWaiting s x
    | .suspended => resumeJob s x
    | _ => s

def execJobPlace (j : JobId) (s : State) : Host.Outcome State Fault Refusal := act s (jobPlace j s)

end Sys2Proof.Machine
end

