-- ==== Sys2Proof/Machine/Keeper.lean ====
section
/-! DEFINITION. The verification of a keeper card's two signatures on a LATTICE tile, as internal jobs (R419). -/
namespace Sys2Proof.Machine

/-- What a verification takes at floor pace (R182, R187): Borsor's ML-DSA-87 signature over the identity record, or the card's ML-DSA-65
signature over the challenge. -/
def checkTime (auth : Bool) : Nat :=
  let message := if auth then 41 else 0x7C0
  cus ((sigFigures 3 (if auth then 2 else 3)).verify + 5 * furtherBlocks 136 (64 + 2 + 12 + message))

/-- The tiles that may verify a signature now: idle ones of the LATTICE stalls, another one than it had where one is idle. Under a plan with no
LATTICE stall it is any idle tile (DESIGN CHOICE, log 71). -/
def checkTiles (s : State) (k : KeeperRun) : List Nat :=
  let idle := match stallsOf s .lattice with
    | [] => (List.range 64).filter (fun t => (s.tile (BitVec.ofNat 6 t)).state == .idle)
    | ns => ns.flatMap (idleTiles s)
  let others := idle.filter (fun t => k.avoid != some (BitVec.ofNat 6 t))
  if others.isEmpty then idle else others

/-- A verification takes its tile. How long it holds it is free where no beat has been read (log 61). -/
def takeCheck (auth : Bool) (k : KeeperRun) (t : Nat) (s : State) : State :=
  match s.job k.job with
  | none => s
  | some x =>
    let (us, s) := if s.pace.beat = 0 then drawFree s else (ceilDiv (atBeat (checkTime auth) s.pace.beat.toNat) 100, s)
    setKeeper { k with unit := some (BitVec.ofNat 6 t), doneAt := s.clock.us + us } (takeUnit x s (.tile (BitVec.ofNat 6 t)))

/-- The keeper exchange as time passes (R419): a signature that waits takes a tile, and one that has been verified releases it. -/
def tickKeeper (s : State) : State :=
  match s.cards.keeper with
  | none => s
  | some k => match k.stage, k.unit with
    | .checking auth, none =>
      if placing s then
        (match checkTiles s k with
         | t :: _ => takeCheck auth k t s
         | [] => s)
      else s
    | .checking auth, some _ =>
      if k.doneAt ≤ s.clock.us then
        let k := { k with unit := none, faults := 0, avoid := none }
        checkDone auth k (setKeeper k (leaveKeeper s))
      else s
    | _, _ => s

end Sys2Proof.Machine
end

