-- ==== Sys2Proof/Machine/Sequencer.lean ====
section
/-! DEFINITION. The sequencers of the control stores: a tile microword's effect and the choice of the next one (R119 to R123, R126),
the Hall controller's word (R129), and the end of a Hall controller reload (R131, R133). -/
namespace Sys2Proof.Machine

/-! ### A tile microword (R122) -/

/-- A tile microword, its fields apart. -/
structure MicroWord where
  next   : BitVec 12
  alt    : BitVec 12
  bsel   : Nat
  lcsel  : Nat
  lcop   : Nat
  lcimm  : BitVec 12
  vec    : VInsn
  mop    : Nat
  areg   : Nat
  aoff   : Nat
  aupd   : Nat
  kop    : Nat
  kunit  : Nat
  sop    : Nat
  eop    : Nat
  maskop : Nat
  xfer   : Nat
  rstat  : Nat
  wipe   : Nat
  deriving DecidableEq, Repr

/-- The microword that a payload spells. A vector operation's immediate is LCIMM (DESIGN CHOICE, log 67). -/
def microOf (w : BitVec 135) : MicroWord :=
  let f (lo n : Nat) : Nat := (bits w lo n).toNat
  { next := bits w 0 12, alt := bits w 12 12, bsel := f 24 5, lcsel := f 29 2, lcop := f 31 3, lcimm := bits w 34 12,
    vec := { op := f 46 8, d := f 54 5, a := f 59 5, b := f 64 5, m := f 69 5, form := bits w 74 2, long := bit w 76,
             qsel := f 77 4, rsv := false, imm := (bits w 34 12).setWidth 28 },
    mop := f 81 3, areg := f 84 3, aoff := f 87 13, aupd := f 100 3, kop := f 103 4, kunit := f 107 2, sop := f 109 3,
    eop := f 112 3, maskop := f 115 4, xfer := f 119 4, rstat := f 123 4, wipe := f 127 3 }

/-! ### The next address (R119, R123) -/

/-- A loop counter. -/
def Micro.counter (m : Micro) (i : Nat) : BitVec 12 := (m.lc[i]?).getD 0

/-- The loop counter operation of a word (LCOP), with the job's public parameter words. -/
def lcStep (param : Nat → BitVec 12) (i : MicroWord) (m : Micro) : Micro :=
  let old := m.counter i.lcsel
  let new : BitVec 12 :=
    match i.lcop with
    | 1 => i.lcimm
    | 2 => param (bits i.lcimm 0 4 : BitVec 4).toNat
    | 3 => if old = 0 then 0 else old - 1
    | _ => old
  { m with lc := m.lc.set i.lcsel new }

/-- The branch is taken (R123), on the state after the LCOP. -/
def branchTaken (bsel : Nat) (m : Micro) : Bool :=
  if bsel = 0 then false
  else if bsel ≤ 4 then m.counter (bsel - 1) != 0
  else if bsel = 5 then m.pubflag
  else if bsel = 6 then m.more != 0
  else if bsel = 7 then m.abortReq
  else if bsel < 16 then bit m.jobKind (bsel - 8)
  else false

/-- The next address of a microword. -/
def nextAddress (i : MicroWord) (m : Micro) : BitVec 12 := if branchTaken i.bsel m then i.alt else i.next

/-! ### What a microword does -/

/-- A tile as its microwords see it: the core's registers and workbench, and the sequencer. -/
abbrev Lane := VCore × Micro

/-- The shares of a vector register: the first one is the core's register. -/
def sharesOf (r : Nat) (l : Lane) : List (BitVec 4608) :=
  [l.1.getW r, Tab.get 0#4608 r l.2.shareB] ++ (if l.2.three then [Tab.get 0#4608 r l.2.shareC] else [])

/-- A vector register with its shares combined. -/
def combined (r : Nat) (l : Lane) : BitVec 4608 := (sharesOf r l).foldl (fun a b => a ^^^ b) 0#4608

/-- The shares of a vector register written. -/
def putShares (r : Nat) (a b c : BitVec 4608) (l : Lane) : Lane :=
  (l.1.setW r a, { l.2 with shareB := Tab.set 0#4608 r b l.2.shareB, shareC := Tab.set 0#4608 r c l.2.shareC })

/-- One vector operation on the registers of one share, with every element active. -/
def shareOp (i : VInsn) (c : VCore) (regs : Tab (BitVec 4608)) : Tab (BitVec 4608) :=
  match vectorStep { c with w := regs, vlen := BitVec.ofNat 10 (elemCount i.form i.long) } i with
  | .on c => c.w
  | .ends _ c => c.w

/-- VOP, on each share (R121 says it of the masked select; of the others log 67): the mask of a select is the full-lane mask of the
first share. An operation whose result is a scalar, VSUM or VORR, gives register gVD of the core that of the first share, scalar registers
having no shares (DESIGN CHOICE, log 67). -/
def vopStep (i : MicroWord) (l : Lane) : Lane :=
  if i.vec.op = 0 then l
  else
    let mask (regs : Tab (BitVec 4608)) : Tab (BitVec 4608) :=
      if i.vec.op = 0x0C then Tab.set 0#4608 i.vec.m (l.1.getW i.vec.m) regs else regs
    let restore (regs new : Tab (BitVec 4608)) : Tab (BitVec 4608) :=
      if i.vec.op = 0x0C ∧ i.vec.d ≠ i.vec.m then Tab.set 0#4608 i.vec.m (Tab.get 0#4608 i.vec.m regs) new else new
    let run (regs : Tab (BitVec 4608)) : Tab (BitVec 4608) := restore regs (shareOp i.vec l.1 (mask regs))
    let first := match vectorStep { l.1 with vlen := BitVec.ofNat 10 (elemCount i.vec.form i.vec.long) } i.vec with
      | .on c => c
      | .ends _ c => c
    ({ l.1 with g := first.g, w := first.w },
     { l.2 with shareB := run l.2.shareB, shareC := if l.2.three then run l.2.shareC else l.2.shareC })

/-- The workbench address of a word: AREG plus AOFF units of 48 bytes. It wraps at the end of the workbench that the job has: 384 KiB, or
128 KiB beside a shelf that holds a key (R240; log 67). -/
def microAddr (i : MicroWord) (m : Micro) : Nat := (((m.areg[i.areg]?).getD 0) + 48 * i.aoff) % m.bench

/-- Bytes written to a job's workbench: those that would fall on a shelf are not (R240). -/
def benchWrite (a : Nat) (b : Bytes) (l : Lane) : Lane := (l.1.write a (b.take (l.2.room - a)), l.2)

/-- A vector register loaded from the workbench or stored there (MOP). Of a register's shares it loads and stores the first, and leaves the
others as they were: the spec does not say which share a word moves (DESIGN CHOICE, log 67). The vector unit cannot write the public operand
region (R120). -/
def mopStep (i : MicroWord) (l : Lane) : Lane :=
  let a := microAddr i l.2
  match i.mop with
  | 1 => (l.1.setW i.vec.d (BitVec.ofNat 4608 (leNat (l.1.read a 576))), l.2)
  | 2 =>
    let pub := decide (l.2.pubBase < a + 576) && decide (a < l.2.pubBase + l.2.pubLen)
    if pub then l else benchWrite a (leBytes 576 (l.1.getW i.vec.d).toNat) l
  | _ => l

/-- The address register after a word (AUPD). -/
def areaStep (i : MicroWord) (m : Micro) : Micro :=
  let old := (m.areg[i.areg]?).getD 0
  let new : Nat :=
    match i.aupd with
    | 1 => old + 48 * i.aoff
    | 2 => old + 576
    | 3 => m.base
    | _ => old
  { m with areg := m.areg.set i.areg (new % m.bench) }

/-- The lanes that a register spells, and the register that lanes spell. -/
def regLanes (v : BitVec 4608) : List Nat := (List.range 25).map (fun k => v.toNat / 2 ^ (64 * k) % 2 ^ 64)

def lanesReg (ls : List Nat) : BitVec 4608 := BitVec.ofNat 4608 (ls.foldr (fun x a => x + 2 ^ 64 * a) 0)

/-- A Keccak operation on the unit that KUNIT names (KOP): absorb adds register VA into the state, squeeze gives it to VD. It reads and
writes the first share of a register (DESIGN CHOICE, log 67). -/
def kopStep (i : MicroWord) (l : Lane) : Lane :=
  let k := (l.2.keccak[i.kunit]?).getD []
  let put (k : List Nat) : Lane := (l.1, { l.2 with keccak := l.2.keccak.set i.kunit k })
  match i.kop with
  | 1 => put ((k.zip (regLanes (l.1.getW i.vec.a))).map (fun p => p.1 ^^^ p.2))
  | 2 => put (keccakF k)
  | 3 => (l.1.setW i.vec.d (lanesReg k), l.2)
  | _ => l

/-- The bytes of a register, lowest first. -/
def regBytes (n : Nat) (v : BitVec 4608) : Bytes := leBytes n v.toNat

/-- The midstate as a list of words. -/
def regsList (h : Sha2Regs) : List Nat := [h.a, h.b, h.c, h.d, h.e, h.f, h.g, h.h]

/-- A SHA-2 operation (SOP): a compression of the block in VA into the midstate, or the midstate loaded from VA, on the first share of a
register. SOP has no field for one of the tile's two SHA-2 units: a tile has one midstate here, which every SOP works on (DESIGN CHOICE, log
67). -/
def sopStep (i : MicroWord) (l : Lane) : Lane :=
  let v := l.1.getW i.vec.a
  match i.sop with
  | 1 => (l.1, { l.2 with midstate := regsList (shaBlock shaSmall (shaRegs l.2.midstate) (regBytes 64 v)) })
  | 2 => (l.1, { l.2 with midstate := regsList (shaBlock shaLarge (shaRegs l.2.midstate) (regBytes 128 v)) })
  | 3 => (l.1, { l.2 with midstate := (List.range 8).map (fun k => v.toNat / 2 ^ (64 * k) % 2 ^ 64) })
  | _ => l

/-- An AES or GHASH operation (EOP): one round of the state in VA under the round key in VB, or a product of both, to VD. It reads and
writes the first share of a register (DESIGN CHOICE, log 67). -/
def eopStep (i : MicroWord) (l : Lane) : Lane :=
  let a := regBytes 16 (l.1.getW i.vec.a)
  let b := regBytes 16 (l.1.getW i.vec.b)
  let put (x : Bytes) : Lane := (l.1.setW i.vec.d (BitVec.ofNat 4608 (leNat x)), l.2)
  match i.eop with
  | 1 => put (xorBytes (mixCols 2 3 1 1 (shiftRows 1 (a.map sboxOf))) b)
  | 2 => put (mixCols 14 11 13 9 (xorBytes ((shiftRows 3 a).map invSboxOf) b))
  | 3 => put (beBytes 16 (gf128Mul (beNat a) (beNat b)))
  | _ => l

/-- The 36-bit word of the public operand region that PUBTEST reads: its address is taken relative to the region's base, modulo the
region's size (R120). -/
def publicOperand (i : MicroWord) (l : Lane) : BitVec 36 :=
  if l.2.pubLen = 0 then 0
  else
    let at_ (k : Nat) : Nat := l.2.pubBase + (microAddr i l.2 + k) % l.2.pubLen
    BitVec.ofNat 36 (leNat ((List.range 5).flatMap (fun k => l.1.read (at_ k) 1)))

/-- Mask bits added to a share, and taken from another (R183): element by element modulo the word's QSEL entry, the sharing of arithmetic,
or bit by bit where QSEL names none, the sharing of hashing. Which of the two a MASKOP means is not coded in the word (DESIGN CHOICE, log 67). -/
def addMask (i : MicroWord) (add : Bool) (v r : BitVec 4608) : BitVec 4608 :=
  if i.vec.qsel = 0 then v ^^^ r
  else
    let q := fixedModulus i.vec.qsel
    let w := elemWidth i.vec.form
    let n := elemCount i.vec.form true
    packElems w (List.zipWith (fun x y => (if add then x + y % q else x + (q - y % q)) % q) (elems w n v) (elems w n r))

/-- A MASKOP, with mask bits from the feeds: the only writers of PUBFLAG are PUBTEST and DECLASSIFY (R120). The vector register that DECLASSIFY
names is taken to be the one of VD, and PUBTEST acts with or without MOP 0b011, PUBTEST source, which has no effect of its own (DESIGN
CHOICE, log 67). -/
def maskStep (r1 r2 : BitVec 4608) (i : MicroWord) (l : Lane) : Lane :=
  let d := i.vec.d
  let a := l.1.getW d
  let b := Tab.get 0#4608 d l.2.shareB
  let c := Tab.get 0#4608 d l.2.shareC
  match i.maskop with
  | 1 =>
    if l.2.three then putShares d (addMask i true (addMask i true a r1) r2) (addMask i false b r1) (addMask i false c r2) l
    else putShares d (addMask i true a r1) (addMask i false b r1) c l
  | 2 =>
    let l := putShares d (addMask i true (addMask i true a r1) r2) (addMask i false b r1) (addMask i false c r2) l
    (l.1, { l.2 with three := true })
  | 8 => (l.1, { l.2 with pubflag := publicOperand i l != 0 })
  | 9 => (l.1, { l.2 with pubflag := bit (combined d l) 0, iters := l.2.iters + 1 })
  | _ => l

/-- What the aisle brings to a tile: the job's input, its key in two or three shares, its context. -/
structure AisleIn where
  input  : Bytes
  shares : List Bytes
  ctx    : Bytes
  deriving DecidableEq, Repr

/-- An aisle transfer at the word's workbench address (XFER): blocks are of 576 bytes, a context of 1 KiB (log 67). -/
def xferStep (x : AisleIn) (i : MicroWord) (l : Lane) : Lane :=
  let a := microAddr i l.2
  match i.xfer with
  | 1 =>
    let b := slice x.input (x.input.length - l.2.more) 576
    ((benchWrite a b l).1, { l.2 with more := l.2.more - b.length })
  | 2 => (x.shares.foldl (fun y b => (benchWrite (y.2 % l.2.bench) b y.1, y.2 + b.length)) (l, a)).1
  | 3 => (l.1, { l.2 with sent := l.2.sent ++ l.1.read a 576 })
  | 4 => benchWrite a x.ctx l
  | 5 => (l.1, { l.2 with sentCtx := l.1.read a 1024 })
  | _ => l

/-- RSTAT and WIPE, at the end of a word: the failure mask is the register that VM names, its shares combined (R121, log 67). -/
def endStep (i : MicroWord) (l : Lane) : Lane :=
  let l : Lane :=
    match i.rstat with
    | 1 => (l.1, { l.2 with ended := some (.done (combined i.vec.m l)) })
    | 2 => (l.1, { l.2 with ended := some .detected })
    | _ => l
  if i.wipe = 1 then (coreInit, { microInit with next := l.2.next, jobKind := l.2.jobKind, abortReq := l.2.abortReq,
                                                 iters := l.2.iters, ended := l.2.ended, sent := l.2.sent,
                                                 sentCtx := l.2.sentCtx, bench := l.2.bench, room := l.2.room }) else l

/-- One microword (R119 to R123): its operations in the order of its fields, the next address on the state after the LCOP. R123 gives that
order for the LCOP alone: here BSEL 0x05 and 0x06 also see PUBFLAG and MORE as the word's MASKOP and XFER leave them (DESIGN CHOICE, log
67). -/
def microStep (param : Nat → BitVec 12) (x : AisleIn) (r1 r2 : BitVec 4608) (i : MicroWord) (l : Lane) : Lane :=
  let l := xferStep x i (maskStep r1 r2 i (eopStep i (sopStep i (kopStep i (mopStep i (vopStep i l))))))
  let m := lcStep param i (areaStep i l.2)
  endStep i (l.1, { m with next := nextAddress i m })

/-! ### A tile at work -/

/-- The job that a tile's sequencer runs: a vector program runs on the core. -/
def sequencedJob (s : State) (t : BitVec 6) : Option Job :=
  (tileJob s t.toNat).bind (fun x => if x.desc.opcode >>> 8 = 0x0D ∨ (s.tile t).micro.ended.isSome then none else some x)

/-- What the aisle brings to a job's tile: the key is the one that the job loaded when it started (R26), in shares of random values. -/
def aisleIn (s : State) (x : Job) (r1 r2 : Nat) : AisleIn :=
  let k := (x.loaded.map (·.value)).getD []
  let a := leBytes k.length r1
  let b := leBytes k.length r2
  let c := match (if namesCtx x.desc then s.ctx (ctxIndex x.desc) else none) with
    | some c => (match c.data with
      | .bytes b => fit 1024 b
      | _ => zeros 1024)
    | none => zeros 1024
  { input := x.input.getD [], ctx := c,
    shares := if jobThree x then [a, b, xorBytes (xorBytes k a) b] else [a, xorBytes k a] }

/-- A tile's next word, fetched and decoded (R126, R133): one of the patch RAM in place of the store's, a corrected one, or none after
an uncorrectable error, which R127 handles, or R131 where it is in patch RAM. -/
def fetchMicro (t : BitVec 6) (s : State) : Option (BitVec 135) × State :=
  let a := (s.tile t).micro.next
  match patchedTile s a with
  | some (k, w) =>
    let r := readEntry (a.setWidth 14) false k s
    if r.1 = .uncorrectable then (none, patchRamError (a.setWidth 14) false r.2) else (some (w.setWidth 135), r.2)
  | none =>
    let r := readStore t a s
    if r.1 = .uncorrectable then (none, storeError false t a r.2) else (some ((storedWord r.2 t a).setWidth 135), r.2)

/-- Two free values. -/
def twoDraws (s : State) : Nat × Nat × State :=
  let (a, s) := drawFree s
  let (b, s) := drawFree s
  (a, b, s)

/-- The opcodes whose RESULT reports the iteration counter: signing with a rejection loop (R120, R182). -/
def countsIterations (c : BitVec 16) : Bool := c == 0x0302 || c == 0x0402

/-- A job's result as its tile reports it (R120 to R122): its output is what XFER has sent out where it has sent any, and RESULT of a
signature carries the iteration counter. A job that is split across tiles keeps the output of its opcode (DESIGN CHOICE, log 67). -/
def reported (x : Job) (m : Micro) (o : JobOut) : JobOut :=
  let o := if m.sent.isEmpty ∨ x.units.length ≠ 1 then o else { o with output := fit o.output.length m.sent }
  if countsIterations x.desc.opcode && o.status == stOk then
    { o with result := bits o.result 16 48 ++ BitVec.ofNat 16 m.iters }
  else o

/-- A context that XFER has sent out goes to the context store with the job's other changes. -/
def reportedCtx (m : Micro) (c : Commit) : Commit :=
  match c with
  | .ctxPut i d => (match d.data with
    | .bytes _ => if m.sentCtx.isEmpty then .ctxPut i d else .ctxPut i { d with data := .bytes m.sentCtx }
    | _ => .ctxPut i d)
  | c => c

/-- RSTAT ends the job (R121, R122). FAULT_DETECTED is a fault that the tile reports (R186). A failure mask that is not zero gives the
job its STATUS and DETAIL, in a coding that the spec does not state; with a mask of zero, or where the opcode's own checks have failed the
job, it ends as its opcode says (log 67). -/
def jobReports (j : JobId) (m : Micro) (s : State) : State :=
  match m.ended, s.job j with
  | some .detected, _ => tileFault j false s
  | some (.done mask), some x =>
    match x.out with
    | none => s
    | some o =>
      if mask = 0 ∨ o.status ≠ stOk then s.setJob { x with out := some (reported x m o), commits := x.commits.map (reportedCtx m) }
      else
        let f := Config.failureStatus x.desc.opcode mask
        finishJob s x { o with status := f.1, detail := f.2, result := 0, output := [] }
  | _, _ => s

/-- One beat of a tile: its next microword. -/
def tileBeat (t : BitVec 6) (s : State) : State :=
  match sequencedJob s t with
  | none => s
  | some x =>
    match fetchMicro t s with
    | (none, s) => s
    | (some w, s) =>
      let i := microOf w
      let (r1, r2, s) := if i.maskop = 1 ∨ i.maskop = 2 ∨ i.xfer = 2 then twoDraws s else (0, 0, s)
      let y := s.tile t
      let l := microStep (Config.publicWord x.desc.opcode x.desc.paramSet) (aisleIn s x r1 r2) (BitVec.ofNat 4608 r1)
        (BitVec.ofNat 4608 r2) i (y.core, y.micro)
      jobReports x.id l.2 (s.setTile t { y with core := l.1, micro := l.2 })

/-- A tile over a number of beats. -/
def tileBeats (t : BitVec 6) : Nat → State → State
  | 0, s => s
  | n + 1, s => tileBeats t n (tileBeat t s)

/-- The tiles whose sequencers run a job. -/
def sequencing (s : State) : List (BitVec 6) := ((List.range 64).map (BitVec.ofNat 6)).filter (fun t => (sequencedJob s t).isSome)

/-! ### The Hall controller's word (R129) -/

/-- The STATUS values of R76, in the order of its table. -/
def statusTable : List (BitVec 16) :=
  [stOk, stTruncated, stNoOutput, stSigInvalid, stRetried, stBadOpcode, stBadField, stBadLength, stBadAddress, stLengthShort,
   stInputZero, stInputRange, stNotOnCurve, stBadCurve, stKeyAbsent, stKeyBad, stKeyPolicy, stExhausted, stCtxFull, stCtxStale,
   stEntropy, stAborted, stFault, stLocked, stPitchReset]

/-- The STATUS of an index of that table. -/
def statusOf (i : Nat) : BitVec 16 := (statusTable[i]?).getD 0

/-- What a word has the controller do, on the field that FSEL selects. -/
def hallOpOf (w : BitVec 288) (field : BitVec 64) : HallOp :=
  let v : BitVec 4 := bits w 34 4
  let tgt : BitVec 8 := bits w 42 8
  let fsel : BitVec 14 := bits w 50 14
  let imm : BitVec 64 := bits w 64 64
  match (bits w 38 4 : BitVec 4).toNat with
  | 1 => .fetch v tgt fsel imm
  | 2 => .check field
  | 3 => .complete (statusOf (bits w 272 8 : BitVec 8).toNat) (bits w 256 16)
  | 4 => .place v tgt imm
  | 5 => .vault v tgt fsel
  | 6 => .move v tgt fsel imm
  | 7 => .ctx v tgt fsel imm
  | 8 => .alarm v tgt imm
  | _ => .none_

/-- A unit is free, and a queue is eligible: the other inputs of a Hall controller branch. -/
def resourceFree (s : State) : Bool :=
  (List.range 64).any (fun t => (s.tile (BitVec.ofNat 6 t)).state == .idle && (stallOfTile s t).isSome) ||
  (List.range 8).any (fun e => (s.engine (BitVec.ofNat 3 e)).state == .idle)

def someEligible (s : State) : Bool := (List.range 256).any (fun p => pitchEligible s (BitVec.ofNat 8 p))

/-- The branch of a Hall controller word is taken. -/
def hallTaken (s : State) (bsel : Nat) (h : HallSeq) : Bool :=
  match bsel with
  | 1 => h.check
  | 2 => resourceFree s
  | 3 => someEligible s
  | 4 => ((h.loops[0]?).getD 0) != 0
  | 5 => ((h.loops[1]?).getD 0) != 0
  | 6 => ((h.loops[2]?).getD 0) != 0
  | 7 => ((h.loops[3]?).getD 0) != 0
  | _ => false

/-- The descriptor that the controller has in hand: the first that is read and not yet checked. -/
def descInHand (s : State) : Bytes := ((s.jobs.find? (fun x => x.phase == .fetched)).map (fun x => descBytes x.desc)).getD []

/-- The completion record in hand: of the first job whose result is ready. -/
def recordInHand (s : State) : Bytes :=
  match s.jobs.find? (fun x => x.out.isSome && x.id.src == 0) with
  | some x => (x.out.map (recordBytes (s.q x.id.queue) x)).getD []
  | none => []

/-- The states of the queues, stalls and engines, which a field selector can name (R129): of each queue that is ENABLED its number, of each stall its tiles,
of each engine that is idle its number, of each tile that is idle its number. -/
def hallRegisters (s : State) : List Nat :=
  Tab.keysWhere (fun _ q => q.state == .enabled) s.queues ++ (List.range 32).map (fun n => (stallTiles s n).toNat) ++
  (List.range 8).filter (fun e => (s.engine (BitVec.ofNat 3 e)).state == .idle) ++
  (List.range 64).filter (fun t => (s.tile (BitVec.ofNat 6 t)).state == .idle)

/-- One Hall controller word (R129): CHECK compares the field under MASKV with CMPV. What the other classes ask for is done by the
commands of the opcode table; the word leaves here what it asks for (log 67). -/
def hallStep (s : State) (w : BitVec 288) (h : HallSeq) : HallSeq :=
  let field := Config.hallField (bits w 50 14) (descInHand s) (recordInHand s) (hallRegisters s)
  let op := hallOpOf w field
  let check := match op with
    | .check f => f &&& bits w 128 64 == bits w 192 64
    | _ => h.check
  let h := { h with check := check, loops := Config.hallLoops w h.loops, op := op }
  { h with next := if hallTaken s (bits w 28 6 : BitVec 6).toNat h then bits w 14 14 else bits w 0 14 }

/-- The controller's next word, of patch RAM or of both copies: none where the copies differ (R131), or patch RAM has an uncorrectable
error (R133), which begin a reload. -/
def fetchHall (s : State) : Option (BitVec 288) × State :=
  let a := s.seq.hallSeq.next
  match patchedHall s a with
  | some (k, w) =>
    let r := readEntry a true k s
    if r.1 = .uncorrectable then (none, patchRamError a true r.2) else (some w, r.2)
  | none =>
    let w (b : Bytes) : BitVec 288 := fieldAt 288 b (36 * a.toNat) 36
    if w s.seq.hallA = w s.seq.hallB then (some (w s.seq.hallA), s) else (none, copyMismatch a s)

/-- One word of the Hall controller: it stops while its store is reloaded, and on a mismatch. -/
def hallBeat (s : State) : State :=
  if s.seq.reloading ∨ s.seq.hallA.isEmpty then s
  else match fetchHall s with
    | (some w, s) => { s with seq := { s.seq with hallSeq := hallStep s w s.seq.hallSeq } }
    | (none, s) => s

/-- The controller over a number of words. -/
def hallBeats : Nat → State → State
  | 0, s => s
  | n + 1, s => hallBeats n (hallBeat s)

/-- Beats of a microsecond at the pace of now. -/
def beatsNow (s : State) : Nat := if s.pace.beat = 0 then 0 else 1000000 / s.pace.beat.toNat

/-- The sequencers over one microsecond: each takes a word a beat (DESIGN CHOICE, log 67). -/
def seqTick (s : State) : State :=
  if alive s = false then s
  else (sequencing s).foldl (fun s t => tileBeats t (beatsNow s) s) (hallBeats (beatsNow s) s)

/-! ### The end of a Hall controller reload (R131, R133) -/

/-- The patch entries as a reload reads them from the patch bank in force. -/
def reloadedPatch (s : State) : Option Patch :=
  match bankInForce s .patch with
  | none => none
  | some b =>
    let img := bankImage (s.bank .patch b)
    let pl := (fieldAt 32 img 0x2C 4).toNat
    some (patchOf img (gcmCrypt (fit 32 Config.patchKey) (slice img 0x20 12) (slice img 0x40 pl)))

/-- The tags of the patch entries agree with the table (R133); there are none without a patch. -/
def patchTagsOk (s : State) : Bool :=
  match reloadedPatch s with
  | none => true
  | some p => segmentTags s.seq.reloadKey (patchBytes p) == s.seq.tagsA.patch

/-- Both copies hold the image of the firmware bank in force again, and patch RAM the entries of its bank. -/
def hallReloaded (s : State) : State :=
  let img := hallImage (firmwareNow s)
  { s with seq := { s.seq with hallA := img, hallB := img,
                               patch := match s.seq.patch, reloadedPatch s with
                                 | some p, some r => some { p with tile := r.tile, hall := r.hall }
                                 | p, _ => p,
                               patchFlips := [],
                               hallSeq := { s.seq.hallSeq with next := 0, check := false } } }

/-- A reload ends (R131): `ok` says that what it read arrived whole. Its tags are checked; service goes on, each intake routine from its
beginning, or the reload is repeated once, or the part restarts after a failed start. -/
def hallReloadDone (ok : Bool) (s : State) : State :=
  let good := ok && hallTagsOk s && patchTagsOk s
  if s.seq.reloading = false then s
  else if good = false ∧ s.seq.attempt = 1 then { s with seq := { s.seq with attempt := 2 } }
  else
    let q := s.seq
    let s := { s with seq := { q with reloading := false, attempt := 0, mismatches := 0, hallReloads := satAdd q.hallReloads 1 } }
    let s := noteReload q.mismatches (BitVec.ofNat 8 q.attempt) q.mismatchAddr (seqInt 4 s)
    if good then hallReloaded s
    else startFails 0x0B01 (writeFile (fun b => { b with attempts := b.attempts + 1 }) s)

def execHallReloadDone (ok : Bool) (s : State) : Host.Outcome State Fault Refusal := act s (hallReloadDone ok s)

end Sys2Proof.Machine
end

