-- ==== Sys2Proof/Machine/Tick.lean ====
section
/-! DEFINITION. What passes with a microsecond (log 20): the counters and the sequencers that run whatever is commanded. -/
namespace Sys2Proof.Machine

/-- Microseconds of a second. -/
def usPerSec : Nat := 1000000

/-- One second more in the operating time (R400): hours saturate. -/
def optimeSecond (l : Ledger) : Ledger :=
  if l.secs.toNat < 3599 then { l with secs := l.secs + 1 }
  else if l.hours = 1048575 then l
  else { l with secs := 0, hours := l.hours + 1 }

/-- The operating time runs while VCORE is powered (R400). -/
def tickOptime (s : State) : State :=
  if alive s = false then s
  else if s.clock.optFrac + 1 < usPerSec then { s with clock := { s.clock with optFrac := s.clock.optFrac + 1 } }
  else { s with clock := { s.clock with optFrac := 0 }, ledger := optimeSecond s.ledger }

/-- Battery seconds run on the crystal while the domain is powered (R449, R482). -/
def tickBattery (s : State) : State :=
  if s.battery.powered = false ∨ s.battery.crystal = false then s
  else if s.clock.batFrac + 1 < usPerSec then { s with clock := { s.clock with batFrac := s.clock.batFrac + 1 } }
  else { s with clock := { s.clock with batFrac := 0 }, battery := { s.battery with seconds := s.battery.seconds + 1 } }

/-- The PTP time counter over one microsecond, corrected by STR_TIME_RATE, in units of 2^−12 ns per second (R310). -/
def tickTime (s : State) : State :=
  if alive s = false then s
  else
    let t := s.stream
    let acc := t.rateAcc + t.rate.toInt
    let unit : Int := 4096 * 1000000
    { s with stream := timeMoved (1000 + acc / unit) { t with rateAcc := acc % unit } }

/-- What the ports send in a microsecond leaves the egress buffer (R311). A frame's time on the line counts its bytes alone (DESIGN
CHOICE, log 55). -/
def tickEgress (s : State) : State :=
  { s with stream := { s.stream with ports := s.stream.ports.map (fun p => { p with backlog := p.backlog - lineBytes p.cfg.rate }) } }

/-- The rails are read while the part runs (R381). -/
def tickRails (s : State) : State := if alive s then readRails s else s

/-- One microsecond without a command. -/
def tick (s : State) : State :=
  tickKeeper <| seqTick (tickRails <| tickEgress <| tickTime (tickBattery (tickOptime { s with clock := { s.clock with us := s.clock.us + 1 } })))

end Sys2Proof.Machine
end

