-- ==== Sys2Proof/Machine/Stream.lean ====
section
/-! DEFINITION. The process bus (R285 to R289, R295, R296, R300 to R310, R316, R317): frames received, classified and checked, the
ports, the time counter, the delivery queues' commands. -/
namespace Sys2Proof.Machine

/-- The STREAM block changed. -/
def onStream (f : Stream → Stream) (s : State) : State := { s with stream := f s.stream }

/-- STR_INT bits set. -/
def streamInt (b : BitVec 4) (s : State) : State := onStream (fun t => { t with sint := t.sint ||| b }) s

/-! ### Duplicate discard (R289) -/

/-- What the table makes of a frame with a trailer. -/
inductive PrpSays where
  | discard
  | accept
  | untracked
  deriving DecidableEq, Repr

/-- A sequence number against its source's entry: in the window of 64 positions, ahead of it, or below it. -/
def prpSeen (q : BitVec 16) (e : PrpEntry) : PrpSays × PrpEntry :=
  let back := (e.highest - q).toNat
  let ahead := (q - e.highest).toNat
  if back < 64 then
    (if e.seen.getLsbD back then (.discard, e) else (.accept, { e with seen := e.seen ||| (1#64 <<< back) }))
  else if ahead < 32768 then (.accept, { e with highest := q, seen := (e.seen <<< ahead) ||| 1#64 })
  else (.accept, e)

/-- A frame against the table. -/
def prpLook (src : BitVec 48) (q : BitVec 16) (t : List PrpEntry) : PrpSays × List PrpEntry :=
  match t.find? (fun e => e.src == src) with
  | some e =>
    let (r, e') := prpSeen q e
    (r, t.map (fun y => if y.src = src then e' else y))
  | none => if t.length < 4096 then (.accept, t ++ [{ src := src, highest := q, seen := 1 }]) else (.untracked, t)

/-! ### Delivery records (R308) -/

/-- What a record says beside the frame. -/
structure Said where
  flow    : BitVec 16
  verdict : BitVec 3
  detail  : BitVec 16
  keyB    : Bool := false
  newKey  : Bool := false
  noFrame : Bool := false
  unchecked : Bool := false
  user    : BitVec 32 := 0
  deriving DecidableEq, Repr

/-- The 64 bytes of a record, without PHASE and DROPS, and the frame bytes that a slot holds. -/
def frameRecord (q : Dq) (h : Held) (p : Parsed) (d : Said) : Bytes :=
  let roomFor := dqSlotSize q.cfg.slot - 64
  let stored := if d.noFrame then [] else h.bytes.take roomFor
  let word : BitVec 32 := at32 0 d.flow ||| at32 16 d.verdict ||| at32 19 h.port ||| at32 20 (flag 1 h.rct) ||| at32 21 (flag 1 p.sim) |||
    at32 22 (flag 1 d.keyB) ||| at32 23 (flag 1 d.newKey) ||| at32 24 (flag 1 (decide (roomFor < h.bytes.length))) |||
    at32 25 (flag 1 d.noFrame) ||| at32 26 (flag 1 d.unchecked)
  wordBytes 4 word ++ wordBytes 2 d.detail ++ leBytes 2 h.bytes.length ++ wordBytes 8 h.sec ++ wordBytes 4 h.ns ++
  wordBytes 4 (p.keyId.getD 0) ++ leBytes 4 p.last ++ leBytes 4 p.st ++ zeros 4 ++ wordBytes 4 d.user ++ wordBytes 2 h.seq ++
  leBytes 2 stored.length ++ zeros 20 ++ stored

/-- A frame delivered to a queue with its record. -/
def deliverFrame (d : BitVec 8) (h : Held) (p : Parsed) (x : Said) (s : State) : State := deliver d s (frameRecord (s.dq d) h p x)

/-! ### The host path and unmatched frames (R295, R296) -/

/-- A frame that is no stream frame. -/
def hostPath (h : Held) (hd : Head) (s : State) : State :=
  if isPtp hd || isSupervision hd || s.stream.cfg.otherDeliver then
    deliverFrame (if h.port = 0 then s.stream.cfg.pb0Dq else s.stream.cfg.pb1Dq) h parsedNone
      { flow := 0, verdict := 6, detail := 0x0C5A } s
  else onStream (fun t => { t with dropsOther := satAdd t.dropsOther 1 }) s

/-- A stream frame of no flow, or of a kind that is off. -/
def unmatched (h : Held) (p : Parsed) (detail : BitVec 16) (s : State) : State :=
  if s.stream.cfg.unmatchedDeliver && decide (0 < s.stream.tokens) then
    deliverFrame s.stream.cfg.unmatchedDq h p { flow := 0, verdict := 6, detail := detail }
      (onStream (fun t => { t with tokens := t.tokens - 1 }) s)
  else onStream (fun t => { t with dropsUnmatched := satAdd t.dropsUnmatched 1 }) s

/-! ### Classification (R295) -/

/-- A frame has a flow's key. -/
def frameMatches (prp : Bool) (port : BitVec 1) (h : Head) (r : FlowRec) : Bool :=
  !r.egress && r.kind == BitVec.ofNat 8 h.kind &&
  (match h.sort with
   | .layer2 =>
     r.tagged == (h.vid != 0) && r.vid.toNat == h.vid && r.appid.toNat == h.appid && r.dstMac == h.dstMac && r.srcMac == h.srcMac &&
     (prp || bit r.ports port.toNat)
   | .routed => r.ipVer.toNat == h.ipVer && r.srcIp == h.srcIp && r.dstIp == h.dstIp
   | .other => false)

/-- The flow that a frame matches. -/
def flowFor (s : State) (port : BitVec 1) (h : Head) : Option (BitVec 14 × Flow) :=
  s.contexts.findSome? (fun e => match flowOf e.2 with
    | some f => if frameMatches s.stream.cfg.prp port h f.record then some (BitVec.ofNat 14 e.1, f) else none
    | none => none)

/-- The kind of a stream frame is off in STR_MODE.KINDS. -/
def kindOff (s : State) (h : Head) : Bool := h.kind != 0 && !bit s.stream.cfg.kinds (h.kind - 1)

/-! ### The checks of R301 -/

/-- An entry of a flow: A, or B. -/
def entryAt (f : Flow) (b : Bool) : FlowEntry := if b then f.record.b else f.record.a

/-- The entry that a KeyID selects, the newer one first (R302). -/
def entryOfId (f : Flow) (id : BitVec 32) : Option Bool :=
  [f.newerB, !f.newerB].find? (fun b => (entryAt f b).handle != 0 && (entryAt f b).keyId == id)

/-- The directory check of R306. A handle that another part is home to was checked there (log 31). -/
def directoryOk (s : State) (h : BitVec 32) : Bool :=
  handlePart h != s.links.part ||
  (match s.slot (handleSlot h) with
   | .key k => s.gen (handleSlot h) == handleGen h && k.bad.isNone && bit k.usage 6
   | _ => false)

/-- The range of SV sample counts (R297). -/
def wrapOf (r : FlowRec) : Nat := if r.wrap = 0 then 65536 else r.wrap.toNat

/-- Check 1: the DETAIL of the first rule of R483 that the frame breaks. -/
def parseCheck (r : FlowRec) (h : Head) (p : Parsed) (f : Bytes) : Option (BitVec 16) :=
  match p.early with
  | some d => some d
  | none =>
    if bit r.flags 2 && crcBad h f then some 0x0C22
    else match p.late with
      | some d => some d
      | none => if r.kind = 2 ∧ wrapOf r ≤ max p.first p.last then some 0x0C23 else none

/-- Check 4: the key's time window (R303), against the frame's own timestamp. -/
def timeCheck (s : State) (r : FlowRec) (h : Held) (p : Parsed) : Option (BitVec 16) :=
  let t : Int := ((h.sec.toNat : Int) - s.stream.utcOffset.toInt) * 1000000000 + (h.ns.toNat : Int)
  let a : Int := (p.tok : Int) * 1000000000
  let skew : Int := (r.skewMs.toNat : Int) * 1000000
  if t < a - skew then some 0x0C40
  else if a + 60 * (p.ttn : Int) * 1000000000 + skew < t then some 0x0C41
  else none

/-- Check 5: the counters of a flow in TRACKING (R304). -/
def replayCheck (f : Flow) (p : Parsed) : Option (BitVec 16) :=
  let pair : Int × Int :=
    if f.record.kind = 2 then (((wrapOf f.record : Nat) : Int), (p.first : Int) - (f.counter.toNat : Int))
    else if f.record.kind = 1 ∧ p.st ≠ f.stNum.toNat then (2 ^ 32, (p.st : Int) - (f.stNum.toNat : Int))
    else (2 ^ 32, (p.last : Int) - (f.counter.toNat : Int))
  let d := pair.2 % pair.1
  let w : Int := (f.record.window.toNat : Int)
  if 1 ≤ d ∧ d ≤ w then none
  else if d = 0 ∨ pair.1 - d ≤ w then some 0x0C48
  else some 0x0C49

/-- A verdict of a failed check, or none for PASS. -/
abbrev Failed := Option (BitVec 3 × BitVec 16)

/-- One check after another: the first failure counts. -/
def firstFail (v : BitVec 3) (c : Option (BitVec 16)) (rest : Failed) : Failed :=
  match c with
  | some d => some (v, d)
  | none => rest

/-- Check 3 on an entry. -/
def macCheck (f : Flow) (b : Bool) (p : Parsed) : Option (BitVec 16) :=
  if (entryAt f b).alg.toNat ≠ p.alg then some 0x0C31
  else if frameMac p.alg (if b then f.keyB else f.keyA) p.iv p.macIn ≠ p.mac then some 0x0C30
  else none

/-- Checks 2 to 4 of a frame with a KeyID. -/
def keyedChecks (s : State) (f : Flow) (h : Held) (p : Parsed) (id : BitVec 32) (rest : Failed) : Failed :=
  match entryOfId f id with
  | none => some (3, if f.retiredA = some id ∨ f.retiredB = some id then 0x0C3A else 0x0C38)
  | some b =>
    if directoryOk s (entryAt f b).handle = false then some (3, 0x0C39)
    else firstFail 1 (macCheck f b p)
      (firstFail 5 (if bit f.record.flags 1 && s.stream.timeValid then timeCheck s f.record h p else none) rest)

/-- The checks of R301 in their order; LOCK comes before all of them (R386). -/
def frameFails (s : State) (f : Flow) (h : Held) (hd : Head) (p : Parsed) : Failed :=
  if s.locked then some (3, 0x0C3B)
  else
    let replay : Failed := firstFail 2 (if f.tracking then replayCheck f p else none) none
    firstFail 4 (parseCheck f.record hd p h.bytes)
      (match p.keyId with
       | none => if bit f.record.flags 0 then replay else some (1, 0x0C32)
       | some id => keyedChecks s f h p id replay)

/-- The DETAIL of a frame that passes (R301, R304, R444). -/
def passDetail (f : Flow) (p : Parsed) : BitVec 16 :=
  if f.takeover then 0x0C53 else if p.keyId.isNone then 0x0C50 else if f.tracking then 0 else 0x0C52

/-- The entry under which a frame with a KeyID is checked. -/
def entryUsed (f : Flow) (p : Parsed) : Option Bool := p.keyId.bind (entryOfId f)

/-- A passing frame is the first under the newer entry (R302). -/
def firstUnderNewer (f : Flow) (p : Parsed) : Bool := entryUsed f p == some f.newerB && f.newFirst

/-- The grace of a rollover begins; GRACE_MS 0 ends it at once. -/
def beginGrace (now : Nat) (f : Flow) : Flow :=
  let f := { f with newFirst := false }
  if f.record.graceMs = 0 then retireOlder f else { f with graceEnd := some (now + 1000 * f.record.graceMs.toNat) }

/-- What a passing frame changes in its flow. -/
def passFlow (now : Nat) (h : Held) (p : Parsed) (f : Flow) : Flow :=
  let g := { f with tracking := true, takeover := false, counter := BitVec.ofNat 32 p.last,
                    stNum := if f.record.kind = 1 then BitVec.ofNat 32 p.st else 0,
                    rxSec := h.sec, rxNs := h.ns, pass := satAdd f.pass 1 }
  if firstUnderNewer f p then beginGrace now g else g

/-- A failed frame's count (R299). -/
def failFlow (v : BitVec 3) (f : Flow) : Flow :=
  match v.toNat with
  | 1 => { f with failMac := satAdd f.failMac 1 }
  | 2 => { f with failReplay := satAdd f.failReplay 1 }
  | 3 => { f with failKey := satAdd f.failKey 1 }
  | 4 => { f with failLen := satAdd f.failLen 1 }
  | _ => { f with failTime := satAdd f.failTime 1 }

/-- The time check was skipped for want of a valid time (R303). -/
def timeUnchecked (s : State) (f : Flow) (p : Parsed) : Bool :=
  bit f.record.flags 1 && !s.stream.timeValid && p.keyId.isSome && !s.locked

/-- The replay state of a flow goes to its standby (R443). -/
def mirrorState (i : BitVec 14) (s : State) : State :=
  match s.flow i with
  | some f => match f.standbyAt with
    | some part => flowMsg s part 3 i (mirrorImage s.clock.us f)
    | none => s
  | none => s

/-- A frame of a flow, checked, counted and delivered with its verdict: under LOCK each one is delivered, FAIL_DROP or not (R386). -/
def checkFlow (i : BitVec 14) (f : Flow) (h : Held) (hd : Head) (p : Parsed) (s : State) : State :=
  let dq : BitVec 8 := f.record.dq.setWidth 8
  let said (v : BitVec 3) (d : BitVec 16) : Said :=
    { flow := ctxId s i.toNat, verdict := v, detail := d, keyB := entryUsed f p == some true,
      newKey := decide (v = 0) && firstUnderNewer f p, noFrame := decide (v = 0) && bit f.record.flags 4,
      unchecked := timeUnchecked s f p, user := f.record.user }
  match frameFails s f h hd p with
  | none => mirrorState i (deliverFrame dq h p (said 0 (passDetail f p)) (changeFlow i (passFlow s.clock.us h p) s))
  | some (v, d) =>
    let t := changeFlow i (failFlow v) s
    if bit f.record.flags 3 && d != 0x0C3B then t else deliverFrame dq h p (said v d) t

/-- A stream frame: unmatched, or checked for its flow; a frame of a flow that stands by is dropped (R443), as is every one while
no STREAM stall is in service (R316). -/
def streamFrame (h : Held) (hd : Head) (s : State) : State :=
  let p := parseFrame hd h.bytes
  if (stallsOf s .stream).isEmpty then
    streamInt 4 (onStream (fun t => { t with dropsNoStall := satAdd t.dropsNoStall 1 }) s)
  else if kindOff s hd then unmatched h p 0x0C59 s
  else match flowFor s h.port hd with
    | none => unmatched h p 0x0C58 s
    | some (i, f) => if f.active then checkFlow i f h hd p s else s

/-! ### Ingress (R285, R314) -/

/-- Frames neither pass to the host nor are checked: a rail outside its window, or a reload (R131, R384). The provisional hold of R388 stops jobs and
the delivery of keys, and a frame is checked with the key material that its context holds (R306). -/
def framesWait (s : State) : Bool := coreHeld s || s.seq.reloading

/-- A frame taken to its path. -/
def takeFrame (h : Held) (s : State) : State :=
  let hd := headOf h.bytes
  if hd.sort = .other then hostPath h hd s else streamFrame h hd s

/-- Bytes in the ingress buffer. -/
def ingressBytes (s : State) : Nat := (s.stream.held.map (fun h => h.bytes.length)).sum

/-- The ingress buffer (R41): units of 64 KiB under the plan. -/
def ingressSize (s : State) : Nat := ((s.plan.inForce.map (fun p => p.ingress.toNat)).getD 0) * 65536

/-- A frame put into the ingress buffer, behind those already there. -/
def holdFrame (h : Held) (s : State) : State := onStream (fun t => { t with held := t.held ++ [h] }) s

/-- A held frame is one of the host path. -/
def hostFrame (h : Held) : Bool := (headOf h.bytes).sort == .other

/-- A frame accepted at its port: a host-path frame goes on at once, behind none of its kind, a stream frame waits for its stall. -/
def acceptFrame (h : Held) (s : State) : State :=
  if hostFrame h && !framesWait s && !s.stream.held.any hostFrame then takeFrame h s else holdFrame h s

/-- A frame past its length and FCS: the buffer, then under PRP the trailer and the duplicate-discard table. -/
def ingressFrame (port : BitVec 1) (f : Bytes) (s : State) : State :=
  let h : Held := { port := port, sec := s.stream.timeSec, ns := s.stream.timeNs.setWidth 32, rct := false, seq := 0, bytes := f }
  if isPause f then s
  else if ingressSize s < ingressBytes s + f.length then streamInt 1 (countAt port.toNat 3 s)
  else if s.stream.cfg.prp = false then acceptFrame h s
  else match trailerOf f with
    | none => acceptFrame h s
    | some (q, lan) =>
      let s := if lan = 11 - port.toNat then countAt port.toNat 6 s else s
      let h := { h with rct := true, seq := q, bytes := f.take (f.length - 6) }
      if isSupervision (headOf h.bytes) then acceptFrame h s
      else
        let (r, t) := prpLook (BitVec.ofNat 48 (beAt f 6 6)) q s.stream.prp
        let s := onStream (fun x => { x with prp := t }) s
        match r with
        | .discard => countAt port.toNat 4 s
        | .accept => acceptFrame h s
        | .untracked => acceptFrame h (streamInt 8 (countAt port.toNat 5 s))

/-- The codewords that a port's FEC corrected since the frame before, and could not correct (PB counters): how many is open, and an
uncorrectable one ends in a frame whose FCS is bad (log 55). -/
def countFec (port : BitVec 1) (good : Bool) (s : State) : State :=
  if ((s.stream.ports[port.toNat]?).map (·.cfg.fec)).getD 0 = 0 then s
  else
    let (n, s) := drawFree s
    let s := countBy port.toNat 8 n s
    if good then s
    else
      let (m, s) := drawFree s
      countBy port.toNat 9 m s

/-- A frame arrives, FCS included (R285). -/
def frameReceive (port : BitVec 1) (f : Bytes) (s : State) : State :=
  if s.dev.phase ≠ .ready ∨ portUp s port.toNat = false then s
  else
    let s := countFec port (fcsOk f) s
    if f.length < 64 then countAt port.toNat 10 s
    else if 1528 < f.length then countAt port.toNat 2 s
    else if fcsOk f = false then countAt port.toNat 1 s
    else ingressFrame port (f.take (f.length - 4)) (countAt port.toNat 0 s)

def execFrameReceive (port : BitVec 1) (frame : List Byte) (s : State) : Host.Outcome State Fault Refusal :=
  act s (frameReceive port frame s)

/-- A held frame may be taken now: stream frames wait while stream service is held (R332). -/
def mayTake (s : State) (h : Held) : Bool := !(s.rng.streamHeld && !hostFrame h)

/-- The first frame of the ingress buffer that may be taken, and the others. -/
def firstFrame (s : State) : List Held → Option (Held × List Held)
  | [] => none
  | h :: t => if mayTake s h then some (h, t) else (firstFrame s t).map (fun r => (r.1, h :: r.2))

/-- The next frame is checked, or taken to the host (R301). -/
def frameCheck (s : State) : State :=
  if framesWait s || s.dev.phase != .ready then s
  else match firstFrame s s.stream.held with
    | none => s
    | some (h, rest) => takeFrame h (onStream (fun t => { t with held := rest }) s)

def execFrameCheck (s : State) : Host.Outcome State Fault Refusal := act s (frameCheck s)

/-- The token bucket of unmatched frames gains a token (R295). -/
def unmatchedToken (s : State) : State := onStream (fun t => { t with tokens := min 1024 (t.tokens + 1) }) s

def execUnmatchedToken (s : State) : Host.Outcome State Fault Refusal := act s (unmatchedToken s)

/-- A duplicate-discard entry without a frame for 400 ms is freed (R289). -/
def prpEntryAge (src : BitVec 48) (s : State) : State :=
  onStream (fun t => { t with prp := t.prp.filter (fun e => e.src != src) }) s

def execPrpEntryAge (src : BitVec 48) (s : State) : Host.Outcome State Fault Refusal := act s (prpEntryAge src s)

/-- A grace ends, and the older entry is emptied (R302). -/
def keyGraceExpiry (i : BitVec 14) (s : State) : State :=
  match s.flow i with
  | some f => if f.graceEnd.isSome then changeFlow i retireOlder s else s
  | none => s

def execKeyGraceExpiry (ctx : BitVec 14) (s : State) : Host.Outcome State Fault Refusal := act s (keyGraceExpiry ctx s)

/-! ### Ports (R286, R287) -/

/-- A port of the part. -/
def State.port (s : State) (p : BitVec 1) : Port := (s.stream.ports[p.toNat]?).getD Port.reset

/-- A port of the part replaced. -/
def State.setPort (s : State) (p : BitVec 1) (x : Port) : State := onStream (fun t => { t with ports := t.ports.set p.toNat x }) s

/-- The rates that the plan allows a port (R44). -/
def planRates (s : State) (p : BitVec 1) : BitVec 8 :=
  match s.plan.inForce with
  | some pl => if p = 0 then pl.pb0Rates else pl.pb1Rates
  | none => 0

/-- Why a commit of a port is refused (R286). -/
def portCommitBad (s : State) (p : BitVec 1) : Option (BitVec 16) :=
  let x := s.port p
  let n := x.shadow
  if bit (planRates s p) n.rate.toNat = false || n.fec == 3 || (n.fec == 2 && n.rate != 2) then some 0x0C70
  else if s.stream.cfg.prp && (n.rate != x.cfg.rate || n.fec != x.cfg.fec || !n.enable) then some 0x0C71
  else none

/-- The frames in flight on a port that takes its link down, which are lost, counted as received FCS errors (R286): how many there are is
open. -/
def loseInFlight (p : BitVec 1) (s : State) : State :=
  if portUp s p.toNat then
    let (n, s) := drawFree s
    countBy p.toNat 1 n s
  else s

/-- PB_CMD COMMIT (R286). -/
def portCommit (p : BitVec 1) (s : State) : State :=
  let x := s.port p
  match portCommitBad s p with
  | some d => s.setPort p { x with commitRefused := true, refuseDetail := d }
  | none =>
    let y := { x with cfg := x.shadow }
    let moved := x.shadow.rate != x.cfg.rate || x.shadow.fec != x.cfg.fec || x.shadow.enable != x.cfg.enable
    if moved then
      let t := loseInFlight p s
      t.setPort p (dropPort { y with counters := (t.port p).counters })
    else s.setPort p y

def execPortCommit (port : BitVec 1) (s : State) : Host.Outcome State Fault Refusal := hostAct s (portCommit port s)

/-- A port's link comes up, which takes a committed ENABLE, a port that the plan enables (R44) and an adapted equaliser, or goes down. -/
def portLinkChange (p : BitVec 1) (up : Bool) (s : State) : State :=
  let x := s.port p
  if up then
    (if s.dev.phase = .ready ∧ s.dev.bscan = false ∧ x.cfg.enable ∧ planRates s p ≠ 0 ∧ x.eqAdapted ∧ x.link = false then
      s.setPort p { x with link := true, linkChange := true, anDone := x.cfg.rate == 0 && x.cfg.an, fecLock := x.cfg.fec != 0 }
     else s)
  else if x.link then s.setPort p (dropPort x)
  else s

def execPortLinkChange (port : BitVec 1) (up : Bool) (s : State) : Host.Outcome State Fault Refusal := act s (portLinkChange port up s)

/-- A port's equaliser has converged; what PB_EQ then reads is free (R287). -/
def equaliserAdapted (p : BitVec 1) (s : State) : State :=
  let x := s.port p
  if x.cfg.enable = false ∨ s.dev.phase ≠ .ready ∨ s.dev.bscan then s
  else
    let (v, s) := drawFree s
    s.setPort p { x with eqAdapted := true, eq := BitVec.ofNat 32 v &&& 0xFFFFFF3F }

def execEqualiserAdapted (port : BitVec 1) (s : State) : Host.Outcome State Fault Refusal := act s (equaliserAdapted port s)

/-! ### STR_CMD and the time counter (R310, R317) -/

/-- Both ports are committed with ENABLE 1 and the same RATE and FEC (R288). -/
def portsMatch (s : State) : Bool :=
  let a := (s.port 0).cfg
  let b := (s.port 1).cfg
  a.enable && b.enable && a.rate == b.rate && a.fec == b.fec

/-- Why a commit of STR_MODE and STR_HOSTPATH is refused, in the order of R317. -/
def streamCommitBad (s : State) : Option (BitVec 16) :=
  let n := s.stream.shadow
  let allowed := (s.plan.inForce.map (·.prpAllowed)).getD false
  let kinds : BitVec 4 := (s.plan.inForce.map (·.frameKinds)).getD 0
  if n.prp && !allowed then some 0x0C70
  else if n.prp && !portsMatch s then some 0x0C71
  else if n.kinds &&& ~~~kinds ≠ 0 then some 0x0C70
  else if [n.unmatchedDq, n.pb0Dq, n.pb1Dq].any (fun d => (s.dq d).cfg.pitch != 0) then some 0x0C73
  else none

/-- STR_CMD COMMIT. -/
def streamCommit (s : State) : State :=
  match streamCommitBad s with
  | some d => onStream (fun t => { t with commitRefused := true, refuseDetail := d }) s
  | none => onStream (fun t => { t with cfg := t.shadow, tokens := if t.shadow.unmatchedDeliver then 1024 else t.tokens }) s

def execStreamCommit (s : State) : Host.Outcome State Fault Refusal := hostAct s (streamCommit s)

/-- STR_TIME_CMD SET. -/
def timeSet (s : State) : State := onStream (fun t => { t with timeSec := t.setSec, timeNs := t.setNs, timeValid := true }) s

def execTimeSet (s : State) : Host.Outcome State Fault Refusal := hostAct s (timeSet s)

/-- STR_TIME_CMD INVALIDATE. -/
def timeInvalidate (s : State) : State := onStream (fun t => { t with timeValid := false }) s

def execTimeInvalidate (s : State) : Host.Outcome State Fault Refusal := hostAct s (timeInvalidate s)

/-- A write of STR_TIME_ADJ: a signed step. -/
def timeStep (v : BitVec 64) (s : State) : State := onStream (timeMoved v.toInt) s

def execTimeStep (v : BitVec 64) (s : State) : Host.Outcome State Fault Refusal := hostAct s (timeStep v s)

/-! ### Delivery queues' commands (R307) -/

/-- Why a commit of a delivery queue is refused. -/
def dqCommitBad (s : State) (d : BitVec 8) : Option (BitVec 16) :=
  let q := s.dq d
  let n := q.shadow
  let moved := n.base != q.cfg.base || n.ciAddr != q.cfg.ciAddr || n.log2Slots != q.cfg.log2Slots || n.slot != q.cfg.slot ||
    n.pitch != q.cfg.pitch
  let named := someFlow (fun f => !f.record.egress && f.record.dq == d.setWidth 16) s
  if (q.enabled && moved) || (n.pitch != q.cfg.pitch && named) then some 0x0C74
  else if n.log2Slots.toNat < 4 ∨ 16 < n.log2Slots.toNat ∨ 2 ^ 64 < n.base.toNat + dqSlotSize n.slot * 2 ^ n.log2Slots.toNat ∨
      (n.coalCount ≠ 0 ∧ n.coalTime = 0) then some 0x0C75
  else if (s.pitch n.pitch).state = .absent then some 0x0C76
  else none

/-- DQ_CMD COMMIT. -/
def dqCommit (d : BitVec 8) (s : State) : State :=
  let q := s.dq d
  match dqCommitBad s d with
  | some x => s.setDq d { q with commitRefused := true, refuseDetail := x }
  | none => s.setDq d { q with cfg := q.shadow }

def execDqCommit (d : BitVec 8) (s : State) : Host.Outcome State Fault Refusal := hostAct s (dqCommit d s)

/-- DQ_CMD ENABLE. -/
def dqEnable (d : BitVec 8) (s : State) : State :=
  let q := s.dq d
  if q.enabled then s.setDq d { q with cmdRefused := true, refuseDetail := 0x0C78 }
  else if q.cfg.base = 0 ∨ q.cfg.ciAddr = 0 ∨ (s.pitch q.cfg.pitch).cfg.bound = false then
    s.setDq d { q with cmdRefused := true, refuseDetail := 0x0C77 }
  else s.setDq d { q with enabled := true, pi := 0, ci := 0, accumulated := 0 }

def execDqEnable (d : BitVec 8) (s : State) : Host.Outcome State Fault Refusal := hostAct s (dqEnable d s)

/-- DQ_CMD DISABLE: the records that wait are dropped. -/
def dqDisable (d : BitVec 8) (s : State) : State := dropWaiting d (s.setDq d { s.dq d with enabled := false })

def execDqDisable (d : BitVec 8) (s : State) : Host.Outcome State Fault Refusal := hostAct s (dqDisable d s)

end Sys2Proof.Machine
end

