-- ==== Sys2Proof/Machine/RegMap.lean ====
section
/-! DEFINITION. The registers of the three windows (R32 and the register tables of every chapter): what each reads as, and what a
write of it does. -/
namespace Sys2Proof.Machine

/-- What an offset on a 4-byte boundary holds: nothing (R10), a 32-bit register, or, on an 8-byte boundary, a 64-bit one. A
register gives its present value and the effect of a write. -/
inductive Reg where
  | nothing
  | word (v : BitVec 32) (w : BitVec 32 → State → State)
  | wide (v : BitVec 64) (w : BitVec 64 → State → State)

/-- A read-only register (R7). -/
def ro (v : BitVec 32) : Reg := .word v (fun _ s => s)

def roWide (v : BitVec 64) : Reg := .wide v (fun _ s => s)

/-- A count of one register. -/
def roNat (n : Nat) : Reg := ro (BitVec.ofNat 32 n)

/-- A write-only register: it reads as zero. -/
def wo (w : BitVec 32 → State → State) : Reg := .word 0 w

/-- A byte string read in 64-bit accesses (MEAS, the nonce, the chain): the eight bytes at an offset of it. -/
def roBytes (bs : Bytes) (off : Nat) : Reg := if off % 8 = 0 then roWide (fieldAt 64 bs off 8) else .nothing

/-- A Bool cleared by a 1 at bit `i` (W1C). -/
def w1cFlag (b : Bool) (v : BitVec 32) (i : Nat) : Bool := b && !bit v i

/-- A Bool at bit `i` of a register. -/
def flagAt (i : Nat) (b : Bool) : BitVec 32 := at32 i (flag 1 b)

/-- The elements of a list at and after a place, as nothing where it ends. -/
def regAtIx {α : Type} (l : List α) (i : Nat) (f : α → Reg) : Reg := ((l[i]?).map f).getD .nothing

/-! ### DEV (R33) and the MSI-X structures (R56) -/

/-- EPOCH_SELECT: what a write clears is cleared first, then the EPOCH change is judged, then the LOCK (R7, R31). -/
def epochSelectWrite (v : BitVec 32) (s : State) : State :=
  let s := { s with dev := { s.dev with refused := w1cFlag s.dev.refused v 16, lockRefused := w1cFlag s.dev.lockRefused v 17 } }
  let s := epochWrite (bits v 0 2) s
  if bit v 8 then epochLock s else s

def regDev (s : State) (o : Nat) : Reg :=
  match o with
  | 0x00 => ro (0x0C18#32 ||| at32 16 (0xB2#8) ||| at32 24 s.dev.orderCode)
  | 0x04 => ro (at32 0 s.dev.pciId)
  | 0x08 => roWide s.dev.uid
  | 0x10 => ro (devCaps s)
  | 0x20 => .word (at32 0 s.dev.epoch ||| flagAt 8 s.dev.lock ||| flagAt 16 s.dev.refused ||| flagAt 17 s.dev.lockRefused)
      epochSelectWrite
  | 0x30 => ro (devStatus s)
  | 0x40 => ro (at32 0 (pendingBits s))
  | 0x48 => .word (at32 0 s.dev.intEnable) intMaskWrite
  | _ => .nothing

/-- A field of an entry of the MSI-X table written. -/
def msixEntryWrite (v : BitVec 11) (f : MsixEntry → MsixEntry) (s : State) : State :=
  { s with pcie := { s.pcie with table := Tab.set msixInit v.toNat (f (Tab.get msixInit v.toNat s.pcie.table)) s.pcie.table } }

/-- The Vector Control word of an entry written. -/
def vectorControlWrite (v : BitVec 11) (x : BitVec 32) (s : State) : State :=
  if bit x 0 then msixEntryWrite v (fun (e : MsixEntry) => { e with masked := true }) s else vectorUnmask v s

def regMsix (s : State) (o : Nat) : Reg :=
  let v := BitVec.ofNat 11 (o / 16)
  let e := Tab.get msixInit v.toNat s.pcie.table
  match o % 16 with
  | 0 => .word (bits e.addr 0 32) (fun x => msixEntryWrite v (fun (e : MsixEntry) => { e with addr := bits e.addr 32 32 ++ x }))
  | 4 => .word (bits e.addr 32 32) (fun x => msixEntryWrite v (fun (e : MsixEntry) => { e with addr := x ++ bits e.addr 0 32 }))
  | 8 => .word e.data (fun x => msixEntryWrite v (fun (e : MsixEntry) => { e with data := x }))
  | _ => .word (flagAt 0 e.masked) (vectorControlWrite v)

/-- 0x0000_0000 to 0x0000_FFFF. -/
def regDevBlock (s : State) (o : Nat) : Reg :=
  if o < 0x7000 then regDev s o
  else if o < 0x7100 then ro (bits s.pcie.pba (8 * (o - 0x7000)) 32)
  else if 0x8000 ≤ o then regMsix s (o - 0x8000)
  else .nothing

/-! ### PLAN and SEQ -/

/-- A job of one of these opcodes is running. -/
def runningAny (s : State) (codes : List Nat) : Bool :=
  s.jobs.any (fun x => x.phase == .running && codes.contains x.desc.opcode.toNat)

/-- A bank's sequence number, 0 where it is not committed. -/
def bankSeq (b : Bank) : Reg := ro (if committed b then b.seq else 0)

def regPlan (s : State) (o : Nat) : Reg :=
  let p := s.plan
  match o with
  | 0x00 => ro (flagAt 0 p.inForce.isSome ||| flagAt 1 p.bank ||| flagAt 2 p.altUsed ||| flagAt 3 p.fallback |||
      flagAt 4 p.floorApplied ||| flagAt 5 (runningAny s [0x0F01, 0x0F02, 0x0F03, 0x0F04, 0x0F05]) |||
      at32 8 (bits ((p.inForce.map (·.signer)).getD 0) 0 2) ||| at32 16 ((p.inForce.map (·.svn)).getD 0))
  | 0x04 => ro (at32 0 p.errDetail ||| flagAt 16 p.errAtStart ||| flagAt 17 p.errBank)
  | 0x08 => bankSeq s.nv.planA
  | 0x0C => bankSeq s.nv.planB
  | 0x10 => roWide ((p.inForce.map (·.planId)).getD 0)
  | 0x18 => ro (at32 0 (svnMinOf s.nv.planSvnMin))
  | 0x1C => ro (at32 0 (packBits 4 (true :: s.nv.signers.map (·.isSome))))
  | 0x20 => ro (at32 0 (BitVec.ofNat 7 (sparesFree s)) ||| at32 8 p.usedSpares |||
      at32 16 (BitVec.ofNat 5 ((List.range 32).filter (bit p.retired)).length))
  | 0x24 => .word (at32 0 p.pint) (fun v s => { s with plan := { s.plan with pint := w1c s.plan.pint (bits v 0 4) } })
  | 0x28 => .word (at32 0 p.pmask) (fun v s => { s with plan := { s.plan with pmask := bits v 0 4 } })
  | _ => .nothing

def regSeq (s : State) (o : Nat) : Reg :=
  let q := s.seq
  match o with
  | 0x40 => ro (flagAt 0 q.patch.isSome ||| flagAt 1 q.unpatched ||| flagAt 2 q.bank ||| flagAt 3 q.altUsed |||
      flagAt 4 q.reloading ||| at32 16 ((q.patch.map (·.svn)).getD 0))
  | 0x48 => roWide ((q.patch.map (·.id)).getD 0)
  | 0x50 => ro (at32 0 (svnMinOf s.nv.patchSvnMin))
  | 0x54 => bankSeq s.nv.patchA
  | 0x58 => bankSeq s.nv.patchB
  | 0x5C => ro (at32 0 q.errDetail ||| flagAt 16 q.errAtStart ||| flagAt 17 q.errBank)
  | 0x60 => ro q.eccCorr
  | 0x64 => ro q.eccUncorr
  | 0x68 => ro (at32 0 q.hallReloads ||| at32 16 q.tileReloads)
  | 0x6C => ro (at32 0 q.faultAddr ||| flagAt 14 q.faultHall ||| at32 16 (if q.faultHall then 0#6 else q.faultTile) |||
      at32 22 q.faultKind)
  | 0x70 => .word (at32 0 q.sint) (fun v s => { s with seq := { s.seq with sint := w1c s.seq.sint (bits v 0 3) } })
  | 0x74 => .word (at32 0 q.smask) (fun v s => { s with seq := { s.seq with smask := bits v 0 3 } })
  | _ => .nothing

/-- 0x0001_0000 to 0x0001_FFFF. -/
def regPlanBlock (s : State) (o : Nat) : Reg :=
  if o < 0x40 then regPlan s o
  else if o < 0x100 then regSeq s o
  else if o < 0x280 then roBytes s.boot.meas.flatten (o - 0x100)
  else .nothing

/-! ### PACE, power and boot (R467) -/

def shutterCode (s : State) : BitVec 2 :=
  match s.dev.phase with
  | .shuttered .failedStarts => 1
  | .shuttered .lifecycle => 2
  | _ => 0

def regPower (s : State) (o : Nat) : Reg :=
  let p := s.pace
  let b := s.boot
  match o with
  | 0x00 => .word (at32 0 p.target ||| at32 16 p.avsRail) paceWrite
  | 0x04 => .word (at32 0 p.beat ||| flagAt 12 p.avsFault ||| flagAt 13 (p.commanded == 900 && decide (p.target.toNat < p.beat.toNat)) |||
        flagAt 14 (decide (1800 < p.beat.toNat)) ||| flagAt 15 p.refused)
      (fun v s => { s with pace := { s.pace with refused := w1cFlag s.pace.refused v 15 } })
  | 0x08 => ro (at32 0 p.commanded ||| at32 16 p.readback)
  | 0x10 => .word (at32 0 p.pint) (fun v s => { s with pace := { s.pace with pint := w1c s.pace.pint (bits v 0 3) } })
  | 0x14 => .word (at32 0 p.pmask) (fun v s => { s with pace := { s.pace with pmask := bits v 0 3 } })
  | 0x20 => wo powerCommand
  | 0x30 => ro (at32 0 b.attempts ||| flagAt 3 b.fallback ||| flagAt 4 b.fwBank ||| flagAt 5 b.fwAltUsed |||
      flagAt 6 b.dormantReturn ||| flagAt 7 b.ramLost ||| at32 8 (shutterCode s) ||| at32 16 b.fwDetail)
  | 0x34 => ro b.readyUs
  | 0x38 => bankSeq s.nv.fwA
  | 0x3C => bankSeq s.nv.fwB
  | 0x40 => ro (at32 0 (svnMinOf s.nv.fwSvnMin) ||| at32 16 b.fwSvn)
  | 0x48 => roWide b.fwId
  | 0x70 => ro s.battery.seconds
  | _ => if 0x50 ≤ o ∧ o < 0x68 then ro (at32 0 ((s.battery.history[(o - 0x50) / 4]?).getD 0)) else .nothing

/-! ### QUEUE (03_work_queues) -/

/-- A queue changed. -/
def onQueue (n : BitVec 12) (f : Queue → Queue) (s : State) : State := s.setQ n (f (s.q n))

/-- The shadowed set of a queue changed. -/
def onQueueSet (n : BitVec 12) (f : QueueCfg → QueueCfg) (s : State) : State :=
  onQueue n (fun (q : Queue) => { q with shadow := f q.shadow }) s

def queueCode : QueueState → BitVec 3
  | .disabled => 0
  | .enabled => 1
  | .draining => 2
  | .error => 3

/-- Q_CMD. -/
def queueCmd (n : BitVec 12) (v : BitVec 32) (s : State) : State :=
  match (bits v 0 3).toNat with
  | 1 => queueCommit n s
  | 2 => queueEnable n s
  | 3 => queueDisable n s
  | 4 => queueRestart n s
  | _ => onQueue n (fun (q : Queue) => { q with cmdRefused := true }) s

/-- Q_CFG and Q_CFG2 written into a set. -/
def queueCfgWrite (v : BitVec 32) (c : QueueCfg) : QueueCfg :=
  { c with log2Size := bits v 0 5, local_ := bits v 8 6, assigned := bit v 14, pitch := bits v 16 8, weight := bits v 24 8 }

def queueStatus (q : Queue) : BitVec 32 :=
  at32 0 (queueCode q.state) ||| flagAt 4 q.commitRefused ||| flagAt 5 q.cmdRefused ||| flagAt 6 q.dbRejected |||
  flagAt 7 q.errorInt ||| at32 16 q.refuseDetail

def queueStatusWrite (v : BitVec 32) (q : Queue) : Queue :=
  { q with commitRefused := w1cFlag q.commitRefused v 4, cmdRefused := w1cFlag q.cmdRefused v 5,
           dbRejected := w1cFlag q.dbRejected v 6, errorInt := w1cFlag q.errorInt v 7 }

/-- Descriptors of a queue that are fetched and have no record yet. -/
def inFlight (s : State) (n : BitVec 12) : Nat := (s.jobs.filter (fun x => x.id.src = 0 ∧ x.id.queue = n)).length

def regQueue (s : State) (n : BitVec 12) (o : Nat) : Reg :=
  let q := s.q n
  let c := q.shadow
  match o with
  | 0x00 => .wide c.descBase (fun v => onQueueSet n (fun (c : QueueCfg) => { c with descBase := v &&& ~~~0x3F#64 }))
  | 0x08 => .wide c.cplBase (fun v => onQueueSet n (fun (c : QueueCfg) => { c with cplBase := v &&& ~~~0x1F#64 }))
  | 0x10 => .word (at32 0 c.log2Size ||| at32 8 c.local_ ||| flagAt 14 c.assigned ||| at32 16 c.pitch ||| at32 24 c.weight)
      (fun v => onQueueSet n (queueCfgWrite v))
  | 0x14 => .word (at32 0 c.burst ||| at32 8 c.vector)
      (fun v => onQueueSet n (fun (c : QueueCfg) => { c with burst := bits v 0 7, vector := bits v 8 11 }))
  | 0x18 => .word (at32 0 c.coalCount ||| at32 16 c.coalTime)
      (fun v => onQueueSet n (fun (c : QueueCfg) => { c with coalCount := bits v 0 8, coalTime := bits v 16 16 }))
  | 0x1C => wo (queueCmd n)
  | 0x20 => .word (queueStatus q) (fun v => onQueue n (queueStatusWrite v))
  | 0x24 => ro (at32 0 q.errDetail)
  | 0x28 => ro q.h
  | 0x2C => ro q.w
  | 0x30 => ro q.p
  | 0x34 => ro q.c
  | 0x38 => roNat (inFlight s n)
  | 0x3C => ro (at32 0 q.dbRejects ||| at32 16 q.cplDropped)
  | _ => .nothing

/-! ### PITCH table (R99) -/

def onPitch (p : BitVec 8) (f : Pitch → Pitch) (s : State) : State := s.setPitch p (f (s.pitch p))

def onPitchSet (p : BitVec 8) (f : PitchCfg → PitchCfg) (s : State) : State :=
  onPitch p (fun (x : Pitch) => { x with shadow := f x.shadow }) s

def pitchCode : PitchState → BitVec 3
  | .absent => 0
  | .unbound => 1
  | .active => 2
  | .resetting => 3
  | .freezing => 4
  | .frozen => 5
  | .exported => 6

/-- PT_CMD; 0b000 is ignored. -/
def pitchCmd (p : BitVec 8) (v : BitVec 32) (s : State) : State :=
  match (bits v 0 3).toNat with
  | 1 => pitchCommit p s
  | 2 => pitchReset p (bit v 3) s
  | 3 => freeze p s
  | 4 => thaw p s
  | 5 => logEnable p s
  | 6 => logSwap p s
  | 7 => logDisable p s
  | _ => s

def pitchStatus (x : Pitch) : BitVec 32 :=
  at32 0 (pitchCode x.state) ||| flagAt 3 x.logOn ||| flagAt 4 x.logBuf ||| flagAt 5 x.logOverflow ||| flagAt 6 x.commitRefused |||
  flagAt 7 x.cmdRefused ||| flagAt 8 x.eventInt ||| flagAt 9 x.faultReset ||| at32 16 x.refuseDetail

def pitchStatusWrite (v : BitVec 32) (x : Pitch) : Pitch :=
  { x with logOverflow := w1cFlag x.logOverflow v 5, commitRefused := w1cFlag x.commitRefused v 6,
           cmdRefused := w1cFlag x.cmdRefused v 7, eventInt := w1cFlag x.eventInt v 8, faultReset := w1cFlag x.faultReset v 9 }

/-- PT_USE and PP_USE. -/
def pitchUse (s : State) (p : BitVec 8) : BitVec 32 :=
  at32 0 (BitVec.ofNat 15 (ctxUsed s p.toNat)) ||| at32 16 (BitVec.ofNat 14 (cellsUsed s p.toNat))

/-- PT_USE2 and PP_USE2. -/
def pitchUse2 (s : State) (p : BitVec 8) : BitVec 32 :=
  at32 0 (BitVec.ofNat 12 (cratesUsed s p.toNat)) |||
  at32 16 (BitVec.ofNat 7 (s.queues.filter (fun e => assignedTo p e.2)).length)

/-- The registers of an entry of a pitch that exists. -/
def regPitchOf (s : State) (p : BitVec 8) (o : Nat) : Reg :=
  let x := s.pitch p
  let c := x.shadow
  match o with
  | 0x00 => .wide (at64 0 c.pasid ||| at64 20 c.rid ||| at64 36 (flag 1 c.bound))
      (fun v => onPitchSet p (fun (c : PitchCfg) => { c with pasid := bits v 0 20, rid := bits v 20 16, bound := bit v 36 }))
  | 0x08 => .word (at32 0 c.weight ||| at32 8 c.queueLimit ||| flagAt 15 c.migMode ||| at32 16 c.vector)
      (fun v => onPitchSet p (fun (c : PitchCfg) =>
        { c with weight := bits v 0 8, queueLimit := bits v 8 7, migMode := bit v 15, vector := bits v 16 11 }))
  | 0x0C => .word (at32 0 c.ctxCeiling ||| at32 16 c.cellCeiling)
      (fun v => onPitchSet p (fun (c : PitchCfg) => { c with ctxCeiling := bits v 0 15, cellCeiling := bits v 16 14 }))
  | 0x10 => .word (at32 0 c.crateCeiling) (fun v => onPitchSet p (fun (c : PitchCfg) => { c with crateCeiling := bits v 0 12 }))
  | 0x14 => wo (pitchCmd p)
  | 0x18 => .word (pitchStatus x) (fun v => onPitch p (pitchStatusWrite v))
  | 0x1C => ro (at32 0 x.epoch)
  | 0x20 => ro (pitchUse s p)
  | 0x24 => ro (pitchUse2 s p)
  | 0x28 => .wide c.logBase (fun v => onPitchSet p (fun (c : PitchCfg) => { c with logBase := v &&& ~~~0xFFF#64 }))
  | 0x30 => .word (at32 0 c.logPages) (fun v => onPitchSet p (fun (c : PitchCfg) => { c with logPages := bits v 0 28 }))
  | 0x38 => .wide c.logBuf0 (fun v => onPitchSet p (fun (c : PitchCfg) => { c with logBuf0 := v &&& ~~~0x3F#64 }))
  | 0x40 => .wide c.logBuf1 (fun v => onPitchSet p (fun (c : PitchCfg) => { c with logBuf1 := v &&& ~~~0x3F#64 }))
  | 0x48 => ro (at32 0 x.keysExcluded)
  | _ => .nothing

/-- The entry of a pitch: one that is ABSENT reads as zero (R99); its commands are refused (R101), and nothing else of it is
written. -/
def regPitch (s : State) (p : BitVec 8) (o : Nat) : Reg :=
  if (s.pitch p).state = .absent then (if o = 0x14 then wo (pitchCmd p) else .nothing) else regPitchOf s p o

/-! ### PORTER and CRATE -/

def onChan (c : BitVec 6) (f : Channel → Channel) (s : State) : State := s.setChan c (f (s.chan c))

/-- PC_CMD. -/
def channelCmd (c : BitVec 6) (v : BitVec 32) (s : State) : State :=
  match (bits v 0 3).toNat with
  | 1 => channelCommit c s
  | 2 => channelStart c .ok s
  | 3 => porterStop c [] s
  | _ => onChan c (fun (x : Channel) => { x with cmdRefused := true }) s

/-- PC_STATUS.STATE. -/
def channelCode (x : Channel) : BitVec 2 :=
  match x.run with
  | none => 0
  | some r => if r.stopping then 3 else if r.waiting then 2 else 1

def channelStatus (x : Channel) : BitVec 32 :=
  at32 0 (channelCode x) ||| flagAt 4 x.commitRefused ||| flagAt 5 x.cmdRefused ||| flagAt 6 x.doneInt ||| flagAt 7 x.errInt |||
  at32 16 x.refuseDetail

def channelStatusWrite (v : BitVec 32) (x : Channel) : Channel :=
  { x with commitRefused := w1cFlag x.commitRefused v 4, cmdRefused := w1cFlag x.cmdRefused v 5,
           doneInt := w1cFlag x.doneInt v 6, errInt := w1cFlag x.errInt v 7 }

/-- PC_CFG written into a set. -/
def channelCfgWrite (v : BitVec 32) (x : Channel) : Channel :=
  let c := { x.shadow with assigned := bit v 0, progLen := bits v 1 7, pitch := bits v 8 8, vector := bits v 16 11 }
  { x with shadow := c }

def regChannel (s : State) (c : BitVec 6) (o : Nat) : Reg :=
  let x := s.chan c
  match o with
  | 0x00 => .word (flagAt 0 x.shadow.assigned ||| at32 1 x.shadow.progLen ||| at32 8 x.shadow.pitch ||| at32 16 x.shadow.vector)
      (fun v => onChan c (channelCfgWrite v))
  | 0x08 => .wide x.shadow.base
      (fun v => onChan c (fun (x : Channel) => { x with shadow := { x.shadow with base := v &&& ~~~0x1F#64 } }))
  | 0x14 => wo (channelCmd c)
  | 0x18 => .word (channelStatus x) (fun v => onChan c (channelStatusWrite v))
  | 0x1C => ro (at32 0 x.lastIndex ||| at32 16 x.endDetail)
  | 0x20 => roWide x.bytes
  | _ => .nothing

def onCrates (f : Crates → Crates) (s : State) : State := { s with crates := f s.crates }

/-- CR_STATE of a crate. -/
def crateState (s : State) (n : Nat) : BitVec 32 :=
  let refs := at32 24 (BitVec.ofNat 8 (min 255 (crateRefs s n)))
  match s.crate n with
  | none => 0xFF#32 ||| at32 16 (Tab.get 0#8 n s.crates.parked) ||| refs
  | some c => at32 0 c.flag ||| flagAt 8 true ||| flagAt 9 c.returning ||| at32 16 c.pitch ||| refs

def crateStatusWrite (v : BitVec 32) (c : Crates) : Crates :=
  { c with commitRefused := w1cFlag c.commitRefused v 0, cmdRefused := w1cFlag c.cmdRefused v 1,
           dropInt := w1cFlag c.dropInt v 2, flagInt := w1cFlag c.flagInt v 3, poisonInt := w1cFlag c.poisonInt v 4 }

def regCrate (s : State) (o : Nat) : Reg :=
  let c := s.crates
  match o with
  | 0x00 => .word (at32 0 c.selShadow) (fun v => onCrates (fun (c : Crates) => { c with selShadow := bits v 0 11 }))
  | 0x04 => .word (at32 0 c.pitchShadow ||| flagAt 8 c.assignedShadow)
      (fun v => onCrates (fun (c : Crates) => { c with pitchShadow := bits v 0 8, assignedShadow := bit v 8 }))
  | 0x08 => wo (fun v s => if bits v 0 3 = 1#3 then crateCommit s else onCrates (fun (c : Crates) => { c with cmdRefused := true }) s)
  | 0x0C => ro (crateState s c.selShadow.toNat)
  | 0x10 => .word (flagAt 0 c.commitRefused ||| flagAt 1 c.cmdRefused ||| flagAt 2 c.dropInt ||| flagAt 3 c.flagInt |||
        flagAt 4 c.poisonInt ||| at32 16 c.refuseDetail) (fun v => onCrates (crateStatusWrite v))
  | 0x14 => ro c.drops
  | 0x18 => ro c.flagRejects
  | 0x1C => .word (at32 0 c.mask) (fun v => onCrates (fun (c : Crates) => { c with mask := bits v 0 3 }))
  | _ => .nothing

end Sys2Proof.Machine
end

