-- ==== Sys2Proof/Machine/RegMapB.lean ====
section
/-! DEFINITION. The registers of the windows, second part: STREAM to LINK of the CONTROL window, the pitch pages of the DOORBELL
window (R55, R59, R65, R80, R106), and the map of R32. -/
namespace Sys2Proof.Machine

/-! ### STREAM (R317) -/

def streamSet (f : StrCfg → StrCfg) (s : State) : State := onStream (fun (t : Stream) => { t with shadow := f t.shadow }) s

/-- Flows of one direction. -/
def flowCount (s : State) (egress : Bool) : Nat := (s.contexts.filter (fun e => (flowOf e.2).any (fun f => f.record.egress == egress))).length

/-- Word `i` of STR_FLOW_PITCHES and CARD_PITCHES replaced. -/
def allowWrite (i : Nat) (v : BitVec 32) (m : BitVec 256) : BitVec 256 :=
  (m &&& ~~~(0xFFFFFFFF#256 <<< (32 * i))) ||| (v.setWidth 256 <<< (32 * i))

/-- STR_TIME_CMD. -/
def timeCmd (v : BitVec 32) (s : State) : State :=
  match (bits v 0 3).toNat with
  | 1 => timeSet s
  | 2 => timeInvalidate s
  | _ => s

/-- STR_TIME and the counters of its form. -/
def timeWord (ns : BitVec 30) (sec : BitVec 48) : BitVec 64 := at64 0 ns ||| at64 32 (bits sec 0 32)

def regStreamTime (s : State) (o : Nat) : Reg :=
  let t := s.stream
  match o with
  | 0x40 => roWide (timeWord t.timeNs t.timeSec)
  | 0x48 => ro (at32 0 (bits t.timeSec 32 16))
  | 0x50 => .wide (timeWord t.setNs t.setSec)
      (fun v => onStream (fun (t : Stream) => { t with setNs := bits v 0 30, setSec := bits t.setSec 32 16 ++ bits v 32 32 }))
  | 0x58 => .word (at32 0 (bits t.setSec 32 16))
      (fun v => onStream (fun (t : Stream) => { t with setSec := bits v 0 16 ++ bits t.setSec 0 32 }))
  | 0x60 => .wide 0 timeStep
  | 0x68 => .word t.rate (fun v => onStream (fun (t : Stream) => { t with rate := v }))
  | 0x6C => wo timeCmd
  | _ =>
    if 0x80 ≤ o ∧ o < 0xA0 then
      .word (bits t.flowPitches (8 * (o - 0x80)) 32)
        (fun v => onStream (fun (t : Stream) => { t with flowPitches := allowWrite ((o - 0x80) / 4) v t.flowPitches }))
    else .nothing

def regStreamTop (s : State) (o : Nat) : Reg :=
  let t := s.stream
  let c := t.shadow
  match o with
  | 0x00 => .word (flagAt 0 t.cfg.prp ||| flagAt 1 t.timeValid ||| at32 2 (BitVec.ofNat 2 (stallsOf s .stream).length) |||
        flagAt 4 t.commitRefused ||| at32 16 t.refuseDetail)
      (fun v => onStream (fun (t : Stream) => { t with commitRefused := w1cFlag t.commitRefused v 4 }))
  | 0x04 => ro (at32 0 (BitVec.ofNat 15 (flowCount s false)) ||| at32 16 (BitVec.ofNat 15 (flowCount s true)))
  | 0x08 => .word (flagAt 0 c.prp ||| at32 1 c.kinds ||| flagAt 5 c.unmatchedDeliver ||| flagAt 6 c.otherDeliver)
      (fun v => streamSet (fun (c : StrCfg) =>
        { c with prp := bit v 0, kinds := bits v 1 4, unmatchedDeliver := bit v 5, otherDeliver := bit v 6 }))
  | 0x0C => .word (at32 0 c.unmatchedDq ||| at32 8 c.pb0Dq ||| at32 16 c.pb1Dq)
      (fun v => streamSet (fun (c : StrCfg) => { c with unmatchedDq := bits v 0 8, pb0Dq := bits v 8 8, pb1Dq := bits v 16 8 }))
  | 0x10 => wo (fun v s => if bits v 0 3 = 1#3 then streamCommit s else s)
  | 0x14 => .word (at32 0 t.utcOffset) (fun v => onStream (fun (t : Stream) => { t with utcOffset := bits v 0 16 }))
  | 0x18 => .word (at32 0 t.sint) (fun v => onStream (fun (t : Stream) => { t with sint := w1c t.sint (bits v 0 4) }))
  | 0x1C => .word (at32 0 t.smask) (fun v => onStream (fun (t : Stream) => { t with smask := bits v 0 4 }))
  | 0x20 => ro t.dropsUnmatched
  | 0x24 => ro t.dropsNoStall
  | 0x28 => ro t.dropsOther
  | _ => regStreamTime s o

/-- A port changed. -/
def onPort (p : BitVec 1) (f : Port → Port) (s : State) : State := s.setPort p (f (s.port p))

def portCfgWrite (v : BitVec 32) (x : Port) : Port :=
  let c : PortCfg := { rate := bits v 0 2, fec := bits v 2 2, enable := bit v 4, an := bit v 5 }
  { x with shadow := c }

/-- The registers of a port. -/
def regPort (s : State) (p : BitVec 1) (o : Nat) : Reg :=
  let x := s.port p
  let c := x.shadow
  match o with
  | 0x00 => .word (at32 0 c.rate ||| at32 2 c.fec ||| flagAt 4 c.enable ||| flagAt 5 c.an) (fun v => onPort p (portCfgWrite v))
  | 0x04 => wo (fun v s => if bits v 0 3 = 1#3 then portCommit p s else s)
  | 0x08 => .word (flagAt 0 x.link ||| flagAt 1 x.eqAdapted ||| flagAt 2 x.anDone ||| flagAt 3 x.fecLock |||
        flagAt 4 x.commitRefused ||| flagAt 5 x.linkChange ||| at32 16 x.refuseDetail)
      (fun v => onPort p (fun (x : Port) =>
        { x with commitRefused := w1cFlag x.commitRefused v 4, linkChange := w1cFlag x.linkChange v 5 }))
  | 0x0C => ro x.eq
  | _ => if 0x20 ≤ o then regAtIx x.counters ((o - 0x20) / 4) ro else .nothing

def onDq (d : BitVec 8) (f : Dq → Dq) (s : State) : State := s.setDq d (f (s.dq d))

def onDqSet (d : BitVec 8) (f : DqCfg → DqCfg) (s : State) : State := onDq d (fun (x : Dq) => { x with shadow := f x.shadow }) s

/-- DQ_CMD; undefined values are ignored. -/
def dqCmd (d : BitVec 8) (v : BitVec 32) (s : State) : State :=
  match (bits v 0 3).toNat with
  | 1 => dqCommit d s
  | 2 => dqEnable d s
  | 3 => dqDisable d s
  | _ => s

def dqStatusWrite (v : BitVec 32) (x : Dq) : Dq :=
  { x with commitRefused := w1cFlag x.commitRefused v 1, cmdRefused := w1cFlag x.cmdRefused v 2, ciFault := w1cFlag x.ciFault v 3 }

def regDq (s : State) (d : BitVec 8) (o : Nat) : Reg :=
  let x := s.dq d
  let c := x.shadow
  match o with
  | 0x00 => .wide c.base (fun v => onDqSet d (fun (c : DqCfg) => { c with base := v &&& ~~~0xFF#64 }))
  | 0x08 => .wide c.ciAddr (fun v => onDqSet d (fun (c : DqCfg) => { c with ciAddr := v &&& ~~~3#64 }))
  | 0x10 => .word (at32 0 c.log2Slots ||| at32 5 c.slot ||| at32 8 c.pitch ||| at32 16 c.vector)
      (fun v => onDqSet d (fun (c : DqCfg) =>
        { c with log2Slots := bits v 0 5, slot := bits v 5 2, pitch := bits v 8 8, vector := bits v 16 11 }))
  | 0x14 => .word (at32 0 c.coalCount ||| at32 16 c.coalTime)
      (fun v => onDqSet d (fun (c : DqCfg) => { c with coalCount := bits v 0 8, coalTime := bits v 16 16 }))
  | 0x18 => wo (dqCmd d)
  | 0x1C => .word (flagAt 0 x.enabled ||| flagAt 1 x.commitRefused ||| flagAt 2 x.cmdRefused ||| flagAt 3 x.ciFault |||
        at32 16 x.refuseDetail) (fun v => onDq d (dqStatusWrite v))
  | 0x20 => ro x.pi
  | 0x24 => ro x.drops
  | _ => .nothing

/-- 0x0020_0000 to 0x002F_FFFF. A port whose plan entry is 0 reads as zero (R44). -/
def regStream (s : State) (o : Nat) : Reg :=
  if o < 0x1000 then regStreamTop s o
  else if o < 0x3000 then
    let p := BitVec.ofNat 1 (o / 0x1000 - 1)
    if planRates s p = 0 then .nothing else regPort s p (o % 0x1000)
  else if 0x8000 ≤ o ∧ o < 0xC000 then regDq s (BitVec.ofNat 8 ((o - 0x8000) / 0x40)) (o % 0x40)
  else .nothing

/-! ### RNG, VAULT, ENGINE -/

def onRng (f : Rng → Rng) (s : State) : State := { s with rng := f s.rng }

/-- Milliseconds since the older failure in force began, saturating. -/
def failAge (s : State) : BitVec 32 :=
  let r := s.rng
  let since := match r.mainFail, r.maskFail with
    | true, true => some (min r.mainSince r.maskSince)
    | true, false => some r.mainSince
    | false, true => some r.maskSince
    | false, false => none
  satAdd 0 (((since.map (fun t => (s.clock.us - t) / 1000))).getD 0)

/-- A bean is excluded or retired: an excluded bean stays so through its retest (R323). -/
def beanOut (s : State) (n : Nat) : Bool :=
  match (s.bean n).state with
  | .excluded => true
  | .retired => true
  | .testing => (s.bean n).fails != 0
  | .inService => false

def beanCode : BeanState → BitVec 2
  | .inService => 0
  | .testing => 1
  | .excluded => 2
  | .retired => 3

/-- A count that the start-up test of R322 makes: 0 before it is complete. -/
def startedNat (s : State) (n : Nat) : Nat := if s.rng.started then n else 0

def regBean (b : Bean) : Reg :=
  ro (at32 0 (beanCode b.state) ||| at32 2 b.fails ||| at32 4 b.lastCause ||| at32 8 b.trim ||| at32 16 b.ones)

def regRng (s : State) (o : Nat) : Reg :=
  let r := s.rng
  match o with
  | 0x00 => ro (flagAt 0 r.started ||| flagAt 1 r.mainFail ||| flagAt 2 r.maskFail |||
      flagAt 3 ((r.mainFail && r.mainHold) || (r.maskFail && r.maskHold)) ||| flagAt 4 r.feedsStopped |||
      flagAt 5 r.streamHeld ||| flagAt 6 r.rawJob.isSome ||| at32 8 (BitVec.ofNat 7 (startedNat s (mainInService s))) |||
      at32 16 (BitVec.ofNat 5 (startedNat s (maskInService s))))
  | 0x04 => roNat r.carafe.length
  | 0x08 => ro (failAge s)
  | 0x10 => roWide (packBits 64 ((List.range 64).map (beanOut s)))
  | 0x18 => ro (at32 0 (packBits 16 ((List.range 16).map (fun n => beanOut s (64 + n)))))
  | 0x20 => .word (at32 0 r.rint) (fun v => onRng (fun (r : Rng) => { r with rint := w1c r.rint (bits v 0 6) }))
  | 0x24 => .word (at32 0 r.rmask) (fun v => onRng (fun (r : Rng) => { r with rmask := bits v 0 6 }))
  | 0x28 => wo (fun v s => if bits v 0 3 = 1#3 then retestRetired s else s)
  | 0x30 => ro (at32 0 r.rctFails ||| at32 16 r.aptFails)
  | 0x34 => ro r.reseeds
  | 0x38 => ro r.entropyFails
  | _ => if 0x100 ≤ o ∧ o < 0x240 then regBean (s.bean ((o - 0x100) / 4)) else .nothing

def onVault (f : Vault → Vault) (s : State) : State := { s with vault := f s.vault }

/-- Slots in use, BAD ones among them (VLT_USE). -/
def slotsUsed (s : State) : Nat :=
  (s.vault.slots.filter (fun e => match e.2 with
    | .key _ => true
    | _ => false)).length

/-- Cells in use: a reserved slot holds no key yet. -/
def cellsInUse (s : State) : Nat :=
  (s.vault.slots.map (fun e => match e.2 with
    | .key k => k.cells.toNat
    | _ => 0)).sum

/-- Slots that are BAD. -/
def slotsBad (s : State) : Nat :=
  (s.vault.slots.filter (fun e => match e.2 with
    | .key k => k.bad.isSome
    | _ => false)).length

def regVault (s : State) (o : Nat) : Reg :=
  let v := s.vault
  match o with
  | 0x00 => ro (flagAt 0 v.rootValid ||| flagAt 1 v.rootNew ||| flagAt 2 v.nvLoaded ||| flagAt 3 v.destroyed ||| at32 16 v.loadFails)
  | 0x04 => ro (at32 0 (BitVec.ofNat 14 (slotsUsed s)) ||| at32 16 (BitVec.ofNat 14 (cellsInUse s)))
  | 0x08 => roNat (nvBlocks s)
  | 0x0C => roNat (slotsBad s)
  | 0x10 => .word (at32 0 v.vint) (fun x => onVault (fun (v : Vault) => { v with vint := w1c v.vint (bits x 0 4) }))
  | 0x14 => .word (at32 0 v.vmask) (fun x => onVault (fun (v : Vault) => { v with vmask := bits x 0 4 }))
  | _ =>
    if 0x100 ≤ o ∧ o < 0x300 then
      let n := (o - 0x100) / 0x40
      if o % 0x40 < 0x30 then roBytes (signerOf s n) (o % 0x40)
      else if o % 0x40 = 0x30 then ro (at32 0 (svnOf s n)) else .nothing
    else .nothing

/-- Engines in a state, one bit each. -/
def enginesWhere (s : State) (p : EngineState → Bool) : BitVec 8 :=
  packBits 8 ((List.range 8).map (fun n => p (s.engine (BitVec.ofNat 3 n)).state))

def engineCode : EngineState → BitVec 2
  | .idle => 0
  | .running _ => 1
  | .wiping => 2
  | .retired => 3

def engineBusy : EngineState → Bool
  | .running _ => true
  | .wiping => true
  | _ => false

def engineRuns : EngineState → Bool
  | .running _ => true
  | _ => false

def regEngineOf (x : Engine) (o : Nat) : Reg :=
  match o with
  | 0x0 => ro (at32 0 (engineCode x.state) ||| at32 8 (if engineRuns x.state then x.pitch else 0) |||
      at32 16 (if engineRuns x.state then x.opcode else 0))
  | 0x4 => ro x.jobs
  | 0x8 => ro (at32 0 x.trips ||| at32 16 x.cause)
  | _ => .nothing

def regEngine (s : State) (o : Nat) : Reg :=
  match o with
  | 0x00 => ro (at32 0 (enginesInService s) ||| at32 8 (enginesWhere s engineBusy) ||| at32 16 (enginesWhere s (· == .retired)))
  | 0x04 => .word (at32 0 s.engInt) (fun v s => { s with engInt := w1c s.engInt (bits v 0 3) })
  | 0x08 => .word (at32 0 s.engMask) (fun v s => { s with engMask := bits v 0 3 })
  | _ => if 0x100 ≤ o ∧ o < 0x180 then regEngineOf (s.engine (BitVec.ofNat 3 ((o - 0x100) / 0x10))) (o % 0x10) else .nothing

/-! ### LIFECYCLE (R377), ALARM and EVIDENCE (R396), LEDGER (R409) -/

def onLife (f : Life → Life) (s : State) : State := { s with life := f s.life }

/-- LC_STATE. A word is burned within one command of this model, so BURNING reads 0. -/
def lcState (s : State) : BitVec 32 :=
  at32 0 s.life.inForce ||| at32 8 (pendingTarget s) ||| flagAt 13 (journalOpen s.nv.wipe) ||| flagAt 14 (burning s) ||| at32 16 (BitVec.ofNat 4 (tokensUsed s))

/-- DBG_SCOPES. -/
def dbgScopes (s : State) : BitVec 32 :=
  let source : BitVec 2 := if s.life.granted.isSome then 2 else if stateScopes s.life.inForce = 0 then 0 else 1
  at32 0 (scopes s) ||| at32 16 source ||| at32 18 ((s.life.granted.map (·.2)).getD 0)

def wordBits (f : List (BitVec 16) → Nat → Bool) (s : State) : Reg :=
  ro (at32 0 (packBits 20 ((List.range 20).map (f s.life.fuses))))

def regLife (s : State) (o : Nat) : Reg :=
  let l := s.life
  match o with
  | 0x00 => ro (lcState s)
  | 0x04 => wordBits wordWhole s
  | 0x08 => wordBits wordPartial s
  | 0x10 => .word (at32 0 l.lint) (fun v => onLife (fun (l : Life) => { l with lint := w1c l.lint (bits v 0 4) }))
  | 0x14 => .word (at32 0 l.lmask) (fun v => onLife (fun (l : Life) => { l with lmask := bits v 0 4 }))
  | 0x20 => ro (dbgScopes s)
  | 0x24 => ro (at32 0 l.refusals)
  | _ => if 0x40 ≤ o ∧ o < 0x60 then roBytes (l.nonce.getD (zeros 32)) (o - 0x40) else .nothing

def onAlarm (f : Alarm → Alarm) (s : State) : State := { s with alarm := f s.alarm }

/-- ALM_SRC of one source. -/
def alarmSource (s : State) (i : AlarmSource) : BitVec 32 :=
  let x := s.source i
  at32 0 (responseOf s i) ||| at32 2 (sourceDefault i) ||| at32 4 (floorNow s i) ||| flagAt 8 x.inForce ||| at32 16 x.trips

/-- ALM_ACTIVE. -/
def alarmActive (s : State) : BitVec 64 := packBits 64 (allSources.map (fun i => (s.source i).inForce))

def regAlarm (s : State) (o : Nat) : Reg :=
  let a := s.alarm
  match o with
  | 0x00 => ro (flagAt 0 s.locked ||| flagAt 1 a.erased ||| flagAt 2 (held s) ||| flagAt 3 (a.transferred != 0) |||
      at32 8 (actingNow s) ||| at32 16 s.battery.lockSource)
  | 0x08 => roWide (alarmActive s)
  | 0x10 => .word (at32 0 a.aint) (fun v => onAlarm (fun (a : Alarm) => { a with aint := w1c a.aint (bits v 0 5) }))
  | 0x14 => .word (at32 0 a.amask) (fun v => onAlarm (fun (a : Alarm) => { a with amask := bits v 0 5 }))
  | 0x18 => ro a.dataCorr
  | 0x20 => ro (at32 0 a.loops ||| flagAt 4 a.lid ||| flagAt 5 a.mesh ||| flagAt 6 (s.locked || held s))
  | 0x24 => ro (at32 0 a.tj ||| at32 16 (tjTracked s))
  | _ =>
    if 0x40 ≤ o ∧ o < 0x60 then
      let n := (o - 0x40) / 4
      ro (at32 0 (if n = 7 then s.battery.vbatMv else (a.railTracked[n]?).getD 0) ||| at32 16 ((a.railNow[n]?).getD 0))
    else if 0x100 ≤ o then regAtIx allSources ((o - 0x100) / 4) (fun i => ro (alarmSource s i))
    else .nothing

def onLedger (f : Ledger → Ledger) (s : State) : State := { s with ledger := f s.ledger }

def regLedger (s : State) (o : Nat) : Reg :=
  let l := s.ledger
  match o with
  | 0x00 => ro (at32 0 (BitVec.ofNat 15 l.slots.length) ||| flagAt 15 l.full ||| flagAt 16 l.clearing ||| flagAt 17 l.tornAtStart)
  | 0x04 => ro l.total
  | 0x08 => ro l.lost
  | 0x0C => ro l.dropped
  | 0x10 => ro l.badCrc
  | 0x14 => ro s.optime
  | 0x18 => ro (at32 0 l.cycles)
  | 0x20 => .word (at32 0 l.lint) (fun v => onLedger (fun (l : Ledger) => { l with lint := w1c l.lint (bits v 0 5) }))
  | 0x24 => .word (at32 0 l.lmask) (fun v => onLedger (fun (l : Ledger) => { l with lmask := bits v 0 5 }))
  | _ => .nothing

def regEvidence (s : State) (o : Nat) : Reg :=
  match o with
  | 0x00 => ro (at32 0 (BitVec.ofNat 16 s.nv.evidence.length) ||| flagAt 16 s.nv.evFull ||| at32 24 s.alarm.transferred)
  | 0x04 => ro s.nv.evLost
  | _ => if 0x10 ≤ o ∧ o < 0x20 then roBytes (evidenceHead s) (o - 0x10) else .nothing

/-- 0x0035_0000 to 0x0035_FFFF. -/
def regLedgerBlock (s : State) (o : Nat) : Reg := if o < 0x8000 then regLedger s o else regEvidence s (o - 0x8000)

/-! ### CARDS (R430) and LINK (R445) -/

def onCards (f : Cards → Cards) (s : State) : State := { s with cards := f s.cards }

/-- CARD_STATUS. -/
def cardStatus (s : State) : BitVec 32 :=
  let c := s.cards
  let m := c.arcMount
  flagAt 0 c.keeperIn ||| flagAt 1 c.keeper.isSome ||| flagAt 2 c.arcCard.isSome ||| flagAt 3 m.isSome |||
  flagAt 4 (m.any (·.readonly)) ||| flagAt 5 (m.any (·.wide)) ||| flagAt 6 (m.any (·.highSpeed)) |||
  at32 8 (((c.keeper.bind (fun k => s.job k.job)).map (·.pitch)).getD 0)

/-- QUORUM_STATUS; SECONDS_LEFT counts whole seconds. -/
def quorumStatus (s : State) : BitVec 32 :=
  match sessionNow s with
  | none => 0
  | some q => at32 0 q.purpose ||| at32 3 (if q.opened then 2#2 else 1#2) ||| at32 8 (BitVec.ofNat 4 q.serials.length) |||
      at32 12 (threshold s q.purpose) ||| at32 16 (BitVec.ofNat 16 ((q.endsAt - s.clock.us) / 1000000))

/-- The serials counted: the session's, or those of the last one. -/
def quorumSerials (s : State) : List (BitVec 32) := ((s.cards.session.map (·.serials)).getD s.cards.lastSerials)

/-- CUST_ENTRY of an entry. -/
def custodianWord (c : Option Custodian) : BitVec 64 :=
  match c with
  | none => 0
  | some c => at64 0 c.serial ||| at64 32 c.roles ||| at64 40 1#1

/-- A word of the mounted card's superblock. -/
def mountWord (s : State) (f : ArcMount → BitVec 32) : Reg := ro ((s.cards.arcMount.map f).getD 0)

def regCards (s : State) (o : Nat) : Reg :=
  let c := s.cards
  match o with
  | 0x00 => ro (cardStatus s)
  | 0x04 => ro (at32 0 c.fi ||| at32 4 c.di ||| at32 8 c.ifsc ||| at32 16 c.bwi ||| at32 20 c.cwi ||| at32 24 c.retries)
  | 0x08 => ro (quorumStatus s)
  | 0x30 => mountWord s (·.nextLba)
  | 0x34 => mountWord s (fun _ => BitVec.ofNat 32 ((c.arcCard.map arcSectors).getD 0))
  | 0x38 => mountWord s (·.ledgerMark)
  | 0x3C => mountWord s (·.evidenceMark)
  | 0x40 => .word (at32 0 c.cint) (fun v => onCards (fun (c : Cards) => { c with cint := w1c c.cint (bits v 0 6) }))
  | 0x44 => .word (at32 0 c.cmask) (fun v => onCards (fun (c : Cards) => { c with cmask := bits v 0 6 }))
  | 0x60 => roNat ((List.range 6).map (fun i => ((s.nv.thresholds[i]?).getD 0).toNat * 16 ^ i)).sum
  | _ =>
    if 0x10 ≤ o ∧ o < 0x30 then ro (((quorumSerials s)[(o - 0x10) / 4]?).getD 0)
    else if 0x80 ≤ o ∧ o < 0xA0 then
      .word (bits c.pitches (8 * (o - 0x80)) 32)
        (fun v => onCards (fun (c : Cards) => { c with pitches := allowWrite ((o - 0x80) / 4) v c.pitches }))
    else if 0x100 ≤ o ∧ o < 0x200 ∧ o % 0x10 = 0 then roWide (custodianWord (custodian s ((o - 0x100) / 0x10)))
    else .nothing

def onLinks (f : Links → Links) (s : State) : State := { s with links := f s.links }

def linkCode : LinkState → BitVec 3
  | .down => 0
  | .training => 1
  | .handshake => 2
  | .up => 3
  | .refused => 4

/-- PEERS_UP: bit `n` says that part `n` is UP. -/
def peersUp (s : State) : BitVec 4 :=
  [0#2, 1#2, 2#2].foldl (fun m k => if linkUp s k then m ||| (1#4 <<< (peerPart s k).toNat) else m) 0

/-- LINK_CMD. -/
def linkCmd (v : BitVec 32) (s : State) : State :=
  match (bits v 0 3).toNat with
  | 1 => linkCommit s
  | 2 => if bits v 3 2 = 3#2 then s else retrain (bits v 3 2) s
  | _ => s

def regLinkOf (s : State) (k : BitVec 2) (l : Link) (o : Nat) : Reg :=
  match o with
  | 0x00 => ro (at32 0 (linkCode l.state) ||| at32 3 l.lanes ||| at32 5 (if l.state = .up then peerPart s k else 0) |||
      at32 16 l.refuseDetail)
  | 0x08 => roWide (if l.state = .up then l.peerUid else 0)
  | 0x10 => ro l.tx
  | 0x14 => ro l.rx
  | 0x18 => ro l.tagFail
  | 0x1C => ro l.retrains
  | _ => .nothing

def regLink (s : State) (o : Nat) : Reg :=
  let l := s.links
  match o with
  | 0x00 => ro (at32 0 l.part ||| at32 4 (peersUp s) ||| at32 16 (BitVec.ofNat 11 (spilledIn s)))
  | 0x04 => .word (flagAt 0 l.spillShadow ||| at32 8 l.beatsShadow)
      (fun v => onLinks (fun (l : Links) => { l with spillShadow := bit v 0, beatsShadow := bits v 8 24 }))
  | 0x08 => wo linkCmd
  | 0x10 => .word (at32 0 l.lint) (fun v => onLinks (fun (l : Links) => { l with lint := w1c l.lint (bits v 0 5) }))
  | 0x14 => .word (at32 0 l.lmask) (fun v => onLinks (fun (l : Links) => { l with lmask := bits v 0 5 }))
  | _ =>
    if 0x40 ≤ o ∧ o < 0x60 ∧ o % 8 = 0 then
      let n := (o - 0x40) / 8
      .wide ((l.allowShadow[n]?).getD 0) (fun v => onLinks (fun (l : Links) => { l with allowShadow := l.allowShadow.set n v }))
    else if 0x100 ≤ o then
      regAtIx l.link ((o - 0x100) / 0x40) (fun x => regLinkOf s (BitVec.ofNat 2 ((o - 0x100) / 0x40)) x (o % 0x40))
    else .nothing

/-! ### The map of the CONTROL window (R32) -/

def regControl (s : State) (o : Nat) : Reg :=
  let low := o % 0x10000
  match o / 0x10000 with
  | 0x00 => regDevBlock s low
  | 0x01 => regPlanBlock s low
  | 0x02 => regPower s low
  | 0x10 => regQueue s (BitVec.ofNat 12 (o / 0x40)) (o % 0x40)
  | 0x11 => regQueue s (BitVec.ofNat 12 (o / 0x40)) (o % 0x40)
  | 0x12 => regQueue s (BitVec.ofNat 12 (o / 0x40)) (o % 0x40)
  | 0x13 => regQueue s (BitVec.ofNat 12 (o / 0x40)) (o % 0x40)
  | 0x14 => regPitch s (BitVec.ofNat 8 (o / 0x400)) (o % 0x400)
  | 0x15 => regPitch s (BitVec.ofNat 8 (o / 0x400)) (o % 0x400)
  | 0x16 => regPitch s (BitVec.ofNat 8 (o / 0x400)) (o % 0x400)
  | 0x17 => regPitch s (BitVec.ofNat 8 (o / 0x400)) (o % 0x400)
  | 0x18 => regChannel s (BitVec.ofNat 6 (low / 0x400)) (o % 0x400)
  | 0x19 => regCrate s low
  | 0x20 => regStream s low
  | 0x30 => regRng s low
  | 0x31 => regVault s low
  | 0x32 => regEngine s low
  | 0x33 => regLife s low
  | 0x34 => regAlarm s low
  | 0x35 => regLedgerBlock s low
  | 0x36 => regCards s low
  | 0x37 => regLink s low
  | _ => .nothing

/-! ### The pitch pages of the DOORBELL window (R55) -/

/-- The four flag bytes at crates `n` to `n` + 3 as a pitch's page shows them (R80). -/
def flagWord (s : State) (p : BitVec 8) (n : Nat) : BitVec 32 :=
  let byte (k : Nat) : Byte :=
    match s.crate k with
    | some c => if c.pitch = p then c.flag else 0xFF
    | none => 0xFF
  byte (n + 3) ++ byte (n + 2) ++ byte (n + 1) ++ byte n

/-- A doorbell of a local index: SQ_PI, or CQ_CI (R65). -/
def regDoorbell (s : State) (p : BitVec 8) (l : BitVec 6) (ci : Bool) : Reg :=
  match queueOf s p l with
  | none => .nothing
  | some n => if ci then .word (s.q n).c (cqCi p l) else .word (s.q n).p (sqPi p l)

/-- PQ_STATE (R65); an unassigned local index reads as zero. -/
def pqState (s : State) (p : BitVec 8) (l : BitVec 6) : BitVec 32 :=
  match queueOf s p l with
  | none => 0
  | some n => at32 0 (queueCode (s.q n).state) ||| flagAt 3 true ||| at32 4 n ||| at32 16 (s.q n).errDetail

def ppStatus (x : Pitch) : BitVec 32 :=
  at32 0 (pitchCode x.state) ||| flagAt 3 x.ppMigrated ||| flagAt 4 x.ppResetDone ||| flagAt 5 x.ppFaultReset ||| at32 16 x.epoch

def ppStatusWrite (v : BitVec 32) (x : Pitch) : Pitch :=
  { x with ppMigrated := w1cFlag x.ppMigrated v 3, ppResetDone := w1cFlag x.ppResetDone v 4,
           ppFaultReset := w1cFlag x.ppFaultReset v 5 }

/-- PP_CTRL (R106). -/
def ppCtrl (p : BitVec 8) (v : BitVec 32) (s : State) : State := if bit v 0 then selfReset p (bits v 16 16) s else s

/-- The pitch's own view (R106). -/
def regPitchView (s : State) (p : BitVec 8) (o : Nat) : Reg :=
  let x := s.pitch p
  match o with
  | 0x300 => .word (ppStatus x) (fun v => onPitch p (ppStatusWrite v))
  | 0x304 => ro (pitchUse s p)
  | 0x308 => ro (pitchUse2 s p)
  | 0x30C => ro (at32 0 x.cfg.ctxCeiling ||| at32 16 x.cfg.cellCeiling)
  | 0x310 => ro (at32 0 x.cfg.crateCeiling ||| at32 16 x.cfg.queueLimit ||| at32 24 x.cfg.weight)
  | 0x314 => wo (ppCtrl p)
  | 0x318 => .word (at32 0 x.ppMask) (fun v => onPitch p (fun (x : Pitch) => { x with ppMask := bits v 0 3 }))
  | _ => .nothing

/-- A page of the DOORBELL window; the page of a pitch that the plan does not hold reads as zero and ignores writes. -/
def regPage (s : State) (p : BitVec 8) (o : Nat) : Reg :=
  if (s.pitch p).state = .absent then .nothing
  else if o < 0x200 then regDoorbell s p (BitVec.ofNat 6 (o / 8)) (decide (o % 8 = 4))
  else if o < 0x300 then ro (pqState s p (BitVec.ofNat 6 ((o - 0x200) / 4)))
  else if o < 0x800 then regPitchView s p o
  else .word (flagWord s p (o - 0x800)) (fun v => flagBytes p (o - 0x800) (wordBytes 4 v))

/-- What an offset on a 4-byte boundary of a window holds. -/
def regAt (s : State) (w : Window) (o : Nat) : Reg :=
  match w with
  | .control => regControl s o
  | .doorbell => if o < 0x100000 then regPage s (BitVec.ofNat 8 (o / 0x1000)) (o % 0x1000) else .nothing
  | .crate => .nothing
  | .msixControl => .nothing
  | .config => .nothing

end Sys2Proof.Machine
end

