-- ==== Sys2Proof/Machine/Regs.lean ====
section
/-! DEFINITION. Register access (R7 to R10): widths and boundaries, the two halves of a 64-bit register, accesses that cover two
registers, and the crate window's reads. -/
namespace Sys2Proof.Machine

/-! ### Halves (R9) -/

/-- The lower half held for a 64-bit register of the CONTROL window. -/
def heldHalf (s : State) (o : Nat) : Option (BitVec 32) := Tab.get none o s.bus.held

def setHeld (o : Nat) (v : Option (BitVec 32)) (s : State) : State :=
  { s with bus := { s.bus with held := Tab.set none o v s.bus.held } }

/-- The value latched for the offset of an upper half, or for STR_TIME_HI. -/
def latched (s : State) (o : Nat) : Option (BitVec 32) := Tab.get none o s.bus.latch

def setLatch (o : Nat) (v : Option (BitVec 32)) (s : State) : State :=
  { s with bus := { s.bus with latch := Tab.set none o v s.bus.latch } }

/-- STR_TIME, and STR_TIME_HI, which a read of its lower half latches (R317). -/
def strTime : Nat := 0x200040
def strTimeHi : Nat := 0x200048

/-- The 64-bit register whose upper half an offset is. -/
def upperOf (s : State) (w : Window) (o : Nat) : Option (BitVec 64 × (BitVec 64 → State → State)) :=
  if o % 8 = 4 then
    match regAt s w (o - 4) with
    | .wide v f => some (v, f)
    | _ => none
  else none

/-- A latched value returned and used up, or the present one. -/
def useLatch (o : Nat) (now : BitVec 32) (s : State) : BitVec 32 × State :=
  match latched s o with
  | some v => (v, setLatch o none s)
  | none => (now, s)

/-- A read of 32 bits on a 4-byte boundary. -/
def read32 (w : Window) (o : Nat) (s : State) : BitVec 32 × State :=
  match upperOf s w o with
  | some (v, _) => useLatch o (bits v 32 32) s
  | none =>
    match regAt s w o with
    | .nothing => (0, s)
    | .word v _ => if w = .control ∧ o = strTimeHi then useLatch o v s else (v, s)
    | .wide v _ =>
      let s' := setLatch (o + 4) (some (bits v 32 32)) s
      (bits v 0 32, if o = strTime then setLatch strTimeHi (some (bits s.stream.timeSec 32 16 |>.setWidth 32)) s' else s')

/-- The summary vector settled after a write, but for INT_SUMMARY_MASK, whose write settles it itself (R34). -/
def settleWrite (w : Window) (o : Nat) (s t : State) : State := if w = .control ∧ o = 0x48 then t else settle s t

/-- A write of 32 bits on a 4-byte boundary. The upper half of a 64-bit register is applied with the lower half held, or with the
register's own. -/
def write32 (w : Window) (o : Nat) (v : BitVec 32) (s : State) : State :=
  match upperOf s w o with
  | some (now, f) => settle s (f (v ++ ((heldHalf s (o - 4)).getD (bits now 0 32))) (setHeld (o - 4) none s))
  | none =>
    match regAt s w o with
    | .nothing => s
    | .word _ f => settleWrite w o s (f v s)
    | .wide _ _ => setHeld o (some v) s

/-- A read of 64 bits on an 8-byte boundary: a 64-bit register whole, with any latch left alone, or two 32-bit accesses. -/
def read64 (w : Window) (o : Nat) (s : State) : BitVec 64 × State :=
  match regAt s w o with
  | .wide v _ => (v, s)
  | _ =>
    let (lo, s) := read32 w o s
    let (hi, s) := read32 w (o + 4) s
    (hi ++ lo, s)

/-- An offset of a pitch page is a doorbell pair's (R65). -/
def doorbellPair (w : Window) (o : Nat) : Bool := w == .doorbell && decide (o % 0x1000 < 0x200)

/-- A write of 64 bits on an 8-byte boundary: a 64-bit register whole, with no half held any more; or two 32-bit writes, the lower
offset first, and for a doorbell pair CQ_CI first. -/
def write64 (w : Window) (o : Nat) (v : BitVec 64) (s : State) : State :=
  match regAt s w o with
  | .wide _ f => settle s (f v (setHeld o none s))
  | _ =>
    if doorbellPair w o then write32 w o (bits v 0 32) (write32 w (o + 4) (bits v 32 32) s)
    else write32 w (o + 4) (bits v 32 32) (write32 w o (bits v 0 32) s)

/-! ### Accesses -/

/-- All-ones of a width, at most 64. -/
def allOnes (width : Nat) : BitVec 64 := BitVec.ofNat 64 (2 ^ min 64 width - 1)

/-- The bytes that an access of the CRATE window covers: at most eight. -/
def crateWidth (width : Nat) : Nat := min 8 (width / 8)

/-- One byte that the host reads in the CRATE window (R81). -/
def crateReadByte (s : State) (a : Nat) : Byte := if crateOpen s (a / 4096) then Tab.get 0#8 a s.crates.data else 0xFF#8

/-- A read of the CRATE window, which is memory: any bytes (R81). -/
def crateRead (s : State) (o width : Nat) : BitVec 64 :=
  BitVec.ofNat 64 (leNat ((List.range (crateWidth width)).map (fun i => crateReadByte s (o + i))))

/-- A read (R9): 32 bits on a 4-byte boundary, 64 bits on an 8-byte boundary; any other returns all-ones. -/
def readReg (w : Window) (o width : Nat) (s : State) : BitVec 64 × State :=
  if w = .crate then (crateRead s o width, s)
  else if width = 32 ∧ o % 4 = 0 then
    let (v, s) := read32 w o s
    (v.setWidth 64, s)
  else if width = 64 ∧ o % 8 = 0 then read64 w o s
  else (allOnes width, s)

/-- A write (R9): any other than the two forms is discarded. -/
def writeReg (w : Window) (o width : Nat) (v : BitVec 64) (s : State) : State :=
  if w = .crate then
    (if o < 0x800000 then crateDataWrite (BitVec.ofNat 23 o) ((wordBytes 8 v).take (crateWidth width)) s else s)
  else if width = 32 ∧ o % 4 = 0 then write32 w o (bits v 0 32) s
  else if width = 64 ∧ o % 8 = 0 then write64 w o v s
  else s

/-- A value returned to the host. -/
def answerRead (v : BitVec 64) (s : State) : State := { s with bus := { s.bus with readData := v } }

/-- A read by the host: while the windows are closed it completes as an Unsupported Request, and the host sees all-ones. -/
def hostRead (w : Window) (o width : Nat) (s : State) : State :=
  if w = .msixControl then (if alive s then answerRead (messageControl s) s else s)
  else if w = .config then
    (if alive s then answerRead (if width = 32 ∧ o % 4 = 0 then (configWord s o).setWidth 64 else allOnes width) s else s)
  else if windowsOpen s then
    let (v, s) := readReg w o width s
    answerRead v s
  else answerRead (allOnes width) s

/-- A write by the host; configuration space is open in D3hot too. -/
def hostWrite (w : Window) (o width : Nat) (v : BitVec 64) (s : State) : State :=
  if w = .msixControl then (if alive s then messageControlWrite v s else s)
  else if w = .config then (if alive s ∧ width = 32 ∧ o % 4 = 0 then configWrite o (bits v 0 32) s else s)
  else if windowsOpen s then writeReg w o width v s else s

def execRegisterRead (w : Window) (off : BitVec 26) (width : BitVec 7) (s : State) : Host.Outcome State Fault Refusal :=
  .next (hostRead w off.toNat width.toNat s)

def execRegisterWrite (w : Window) (off : BitVec 26) (width : BitVec 7) (v : BitVec 64) (s : State) :
    Host.Outcome State Fault Refusal :=
  .next (hostWrite w off.toNat width.toNat v s)

end Sys2Proof.Machine
end

