-- ==== Sys2Proof/Machine/Monitor.lean ====
section
/-! DEFINITION. The Dexga monitor (R371 to R374): lines at the debug UART, their answers, and the change of baud rate. -/
namespace Sys2Proof.Machine

/-! ### Lines (R372) -/

/-- A line without its line feeds, which the monitor ignores. -/
def lineOf (line : Bytes) : Bytes := line.filter (· != 0x0A#8)

/-- The fields of a line, between single spaces. -/
def lineFields : Bytes → List Bytes
  | [] => [[]]
  | b :: t =>
    if b = 0x20 then [] :: lineFields t
    else match lineFields t with
      | [] => [[b]]
      | f :: r => (b :: f) :: r

/-- An upper-case hexadecimal digit. -/
def hexDigit (b : Byte) : Option Nat :=
  let n := b.toNat
  if 48 ≤ n ∧ n ≤ 57 then some (n - 48) else if 65 ≤ n ∧ n ≤ 70 then some (n - 55) else none

/-- Digits read one by one onto a number. -/
def hexOnto : Nat → Bytes → Option Nat
  | acc, [] => some acc
  | acc, b :: t => (hexDigit b).bind (fun d => hexOnto (16 * acc + d) t)

/-- A number of 1 to 8 digits. -/
def hexNat (f : Bytes) : Option Nat := if f.isEmpty || decide (8 < f.length) then none else hexOnto 0 f

/-- A data group: eight digits, four bytes in ascending address order. -/
def hexGroup (f : Bytes) : Option Bytes := if f.length = 8 then (hexOnto 0 f).map (beBytes 4) else none

/-- Every element read, or nothing. -/
def readAll {α β : Type} (f : α → Option β) : List α → Option (List β)
  | [] => some []
  | a :: t => (f a).bind (fun b => (readAll f t).map (b :: ·))

/-- Bytes as groups of eight digits. -/
def groupsOf : Nat → Bytes → List Bytes
  | 0, _ => []
  | k + 1, bs => if bs.isEmpty then [] else hexDigits 8 (beNat (fit 4 (bs.take 4))) :: groupsOf k (bs.drop 4)

/-- A line longer than the monitor takes. -/
def lineLong (line : Bytes) : Bool := decide (320 < (lineOf line).length)

/-- The state in which the part is SCRAP (R361). -/
def inScrap (s : State) : Bool := s.life.inForce == 0x14

/-- The answer to an earlier line is still due: what arrives is discarded (R372). -/
def answerDue (s : State) : Bool :=
  match s.life.decision with
  | some d => d.job.isNone
  | none => false

/-- The UART falls back to its old rate (R374). -/
def revertBaud (s : State) : State :=
  answerEr 0x0A { s with life := { s.life with baudNew := none, baudSwitched := false } }

/-- A line reaches the monitor: at a new rate that is not confirmed, every line but BC ends the trial (R374). -/
def monitorTakes (f : State → State) (s : State) : State :=
  if alive s = false ∨ answerDue s then s else if s.life.baudSwitched then revertBaud s else f s

/-- DC and LC clear the buffer whatever they answer (R373). -/
def refusedClear (c : BitVec 8) (s : State) : State := answerEr c (clearLines s)

/-- ER 02 for a command. -/
def syntaxEr (c : Bytes) (s : State) : State :=
  if c = ascii "DC" ∨ c = ascii "LC" then refusedClear 0x02 s else answerEr 0x02 s

/-- A line of a command with its fields, read by the command's own syntax: ER 03 and ER 02 as R372 gives. A line that is not the
command's changes nothing (log 7). -/
def monitorLine {α : Type} (name : String) (syn : List Bytes → Option α) (line : Bytes) (f : α → State → State) (s : State) : State :=
  match lineFields (lineOf line) with
  | [] => s
  | c :: fs =>
    if c ≠ ascii name then s
    else monitorTakes (fun s =>
      if lineLong line then answerEr 0x03 s
      else match syn fs with
        | none => syntaxEr c s
        | some a => f a s) s

/-- A command that a condition of the state allows, and otherwise ER 04. -/
def permitted (ok : Bool) (f : State → State) (s : State) : State := if ok then f s else answerEr 0x04 s

/-! ### ID, ST, NC, DX (R373) -/

def monitorIdAnswer (s : State) : State :=
  answerOk [hexDigits 4 0x0C18, hexDigits 2 0xB2, hexDigits 1 s.dev.orderCode.toNat, hexDigits 8 (s.dev.uid.toNat / 2 ^ 32),
            hexDigits 8 s.dev.uid.toNat, hexDigits 2 s.life.inForce.toNat] s

def execMonitorId (s : State) : Host.Outcome State Fault Refusal := act s (monitorTakes monitorIdAnswer s)

def monitorStAnswer (s : State) : State :=
  answerOk [hexDigits 8 (devStatus s).toNat, hexDigits 8 (lcState s).toNat, hexDigits 8 (dbgScopes s).toNat] s

def execMonitorSt (s : State) : Host.Outcome State Fault Refusal := act s (monitorTakes monitorStAnswer s)

/-- NC: a nonce where the carafe has its 32 bytes, and otherwise ER 0E (R371). -/
def monitorNcAnswer (s : State) : State :=
  if s.rng.carafe.length < 32 then answerEr 0x0E s
  else
    let (n, s) := newNonce s
    answerOk (groupsOf 8 n) s

def execMonitorNc (s : State) : Host.Outcome State Fault Refusal :=
  act s (monitorTakes (fun s => permitted (!inScrap s) monitorNcAnswer s) s)

/-- DX: every scope that a certificate granted is dropped. -/
def monitorDxAnswer (s : State) : State := answerOk [] { s with life := { s.life with granted := none } }

def execMonitorDx (s : State) : Host.Outcome State Fault Refusal := act s (monitorTakes monitorDxAnswer s)

/-! ### LD, DC, LC -/

/-- LD offset data: 1 to 32 groups. -/
def ldSyntax : List Bytes → Option (Nat × Bytes)
  | o :: gs =>
    if gs.isEmpty || decide (32 < gs.length) then none
    else (hexNat o).bind (fun o => (readAll hexGroup gs).map (fun bs => (o, bs.flatten)))
  | [] => none

def monitorLoad (a : Nat × Bytes) (s : State) : State :=
  if 8192 < a.1 + a.2.length then answerEr 0x0C s
  else answerOk [] { s with life := { s.life with staging := Tab.write 0#8 s.life.staging a.1 a.2 } }

def execMonitorLd (line : List Byte) (s : State) : Host.Outcome State Fault Refusal :=
  act s (monitorLine "LD" ldSyntax line (fun a => permitted (!inScrap s) (monitorLoad a)) s)

/-- The first bytes of the staging buffer. -/
def stagedBytes (s : State) (n : Nat) : Bytes := Tab.read 0#8 s.life.staging 0 n

/-- One field, a number. -/
def oneNumber : List Bytes → Option Nat
  | [a] => hexNat a
  | _ => none

/-- DC length: R367's checks in order, and the grant's second comparator. A host's decision in progress gives ER 0B. The buffer is
cleared with the answer. -/
def monitorDcAnswer (len : Nat) (s : State) : State :=
  if lifeDeciding s then answerEr 0x0B (clearLines s)
  else
    let cert := stagedBytes s (min len 8192)
    let b := grantBad s cert
    let t := certUsed true cert b s
    match b with
    | some b => askRefused none (grantAsk cert) b t
    | none => askGrant none cert t

def execMonitorDc (line : List Byte) (s : State) : Host.Outcome State Fault Refusal :=
  act s (monitorLine "DC" oneNumber line
    (fun n s => if inProvisioning s || inField s then monitorDcAnswer n s else refusedClear 0x04 s) s)

/-- LC target length confirm: a length of 0, 16 or 7,488 and the confirm value. -/
def lcSyntax : List Bytes → Option (BitVec 5 × Nat)
  | [t, n, c] =>
    (hexNat t).bind (fun t => (hexNat n).bind (fun n => (hexNat c).bind (fun c =>
      if t < 32 ∧ (n = 0 ∨ n = 16 ∨ n = 7488) ∧ c = 0x4C435452 then some (BitVec.ofNat 5 t, n) else none)))
  | _ => none

def monitorLcAnswer (a : BitVec 5 × Nat) (s : State) : State :=
  if grantDeciding s then refusedClear 0x0B s
  else
    let auth := stagedBytes s a.2
    match transitionBad s a.1 auth with
    | some b => if b.detail = 0x0F7C then answerEr b.code (clearLines (transitionRefused s a.1 auth b))
                else refuseTransition none a.1 auth b s
    | none => askTransition none a.1 auth s

def execMonitorLc (line : List Byte) (s : State) : Host.Outcome State Fault Refusal :=
  act s (monitorLine "LC" lcSyntax line (fun a s => if inScrap s then refusedClear 0x04 s else monitorLcAnswer a s) s)

/-! ### RR, RW -/

/-- A scope is in force (R370). -/
def scopeOn (s : State) (k : Nat) : Bool := bit (scopes s) k

/-- RR offset: the value at an offset of the CONTROL window. -/
def monitorRead (o : Nat) (s : State) : State :=
  if 0x4000000 ≤ o then answerEr 0x0C s
  else
    let (v, s) := readReg .control o 32 s
    answerOk [hexDigits 8 v.toNat] s

def execMonitorRr (line : List Byte) (s : State) : Host.Outcome State Fault Refusal :=
  .next (monitorLine "RR" oneNumber line (fun o => permitted (scopeOn s 0) (monitorRead o)) s)

/-- Two fields, numbers. -/
def twoNumbers : List Bytes → Option (Nat × Nat)
  | [a, b] => (hexNat a).bind (fun a => (hexNat b).map (fun b => (a, b)))
  | _ => none

/-- RW offset value: 32 bits written. -/
def monitorWrite (a : Nat × Nat) (s : State) : State :=
  if 0x4000000 ≤ a.1 then answerEr 0x0C s
  else answerOk [] (writeReg .control a.1 32 (BitVec.ofNat 64 a.2) s)

def execMonitorRw (line : List Byte) (s : State) : Host.Outcome State Fault Refusal :=
  .next (monitorLine "RW" twoNumbers line (fun a => permitted (scopeOn s 1) (monitorWrite a)) s)

/-! ### NR, SR -/

/-- A byte of a list of bytes that lies at the start of an erased area. -/
def areaByte (bs : Bytes) (i : Nat) : Byte := (bs[i]?).getD Config.erasedByte

/-- The 64 bytes of a bank header (02_stall_plan, Stall Plan banks). -/
def headerBytes (b : Bank) : Bytes := wordBytes 4 b.seq ++ wordBytes 4 b.len ++ fit 48 b.hash ++ zeros 4 ++ wordBytes 4 b.mark

/-- A byte of a bank: its header of 4 KiB, then the image. A bank that nothing has written is erased. -/
def bankByte (b : Bank) (i : Nat) : Byte :=
  if b = emptyBank then Config.erasedByte
  else if i < 4096 then areaByte (headerBytes b) i
  else areaByte b.image (i - 4096)

/-- Byte `i` of 64-byte slots. -/
def slotByte (slot : Nat → Option Bytes) (i : Nat) : Byte := areaByte ((slot (i / 64)).getD []) (i % 64)

/-- The bytes of a slot of the Evidence Log; a torn one reads as erased. -/
def evSlotBytes (e : EvSlot) : Bytes := if e.torn then [] else evidenceBytes e.seq e.entry e.chain

/-- The size of an area of NR (R453). -/
def areaSize (a : Nat) : Nat :=
  match a with
  | 0 => 0x400000
  | 1 => 0x400000
  | 2 => 0x100000
  | 3 => 0x100000
  | 4 => 0x80000
  | 5 => 0x80000
  | 6 => 0x100000
  | _ => 0x200000

/-- A byte of an area of NR. -/
def nvByte (s : State) (a i : Nat) : Byte :=
  match a with
  | 0 => bankByte s.nv.fwA i
  | 1 => bankByte s.nv.fwB i
  | 2 => bankByte s.nv.planA i
  | 3 => bankByte s.nv.planB i
  | 4 => bankByte s.nv.patchA i
  | 5 => bankByte s.nv.patchB i
  | 6 => slotByte (fun n => (s.ledger.slots[n]?).map slotBytes) i
  | _ => slotByte (fun n => (s.nv.evidence[n]?).map evSlotBytes) i

/-- NR area offset. -/
def nrSyntax (fs : List Bytes) : Option (Nat × Nat) := (twoNumbers fs).bind (fun a => if a.1 < 8 then some a else none)

def monitorNv (a : Nat × Nat) (s : State) : State :=
  if areaSize a.1 < a.2 + 64 then answerEr 0x0C s
  else answerOk (groupsOf 16 ((List.range 64).map (fun i => nvByte s a.1 (a.2 + i)))) s

def execMonitorNr (line : List Byte) (s : State) : Host.Outcome State Fault Refusal :=
  act s (monitorLine "NR" nrSyntax line (fun a => permitted (scopeOn s 2) (monitorNv a)) s)

/-- SR store tile address. -/
def srSyntax : List Bytes → Option (Nat × Nat × Nat)
  | [k, t, a] =>
    (hexNat k).bind (fun k => (hexNat t).bind (fun t => (hexNat a).bind (fun a =>
      if k < 3 ∧ t < 64 then some (k, t, a) else none)))
  | _ => none

/-- Words of a store, and the bytes of one: a tile's word of 144 bits, a Hall controller word of 288, a 64-bit unit of patch RAM. -/
def storeWords (k : Nat) : Nat := if k = 0 then 4096 else if k = 1 then 16384 else 8192

def storeWidth (k : Nat) : Nat := if k = 0 then 18 else if k = 1 then 36 else 8

/-- A word of a store as it is stored, in a tile with the bits that have turned in it, or a free value where the store holds nothing
that the spec gives: before any load, and in patch RAM without a patch (log 1). Patch RAM's layout is this model's (log 67). -/
def storeWord (k t a : Nat) (s : State) : Bytes × State :=
  let base := if k = 0 then s.seq.tileBase else if k = 1 then s.seq.hallA else []
  if k = 2 && s.seq.patch.isSome then (storedUnit s (BitVec.ofNat 13 a), s)
  else if k = 0 && !base.isEmpty then
    (wordBytes 18 (storedWord s (BitVec.ofNat 6 t) (BitVec.ofNat 12 a)), s)
  else if base.isEmpty then
    let (n, s) := drawFree s
    (leBytes (storeWidth k) n, s)
  else (fit (storeWidth k) (slice base (storeWidth k * a) (storeWidth k)), s)

def monitorStore (x : Nat × Nat × Nat) (s : State) : State :=
  if storeWords x.1 ≤ x.2.2 then answerEr 0x0C s
  else
    let (w, s) := storeWord x.1 x.2.1 x.2.2 s
    answerOk (groupsOf 9 w) s

def execMonitorSr (line : List Byte) (s : State) : Host.Outcome State Fault Refusal :=
  act s (monitorLine "SR" srSyntax line (fun x => permitted (scopeOn s 5) (monitorStore x)) s)

/-! ### BR and the baud rate (R374) -/

/-- BR rate: a code of 0 to 4. -/
def brSyntax (fs : List Bytes) : Option Nat := (oneNumber fs).bind (fun n => if n ≤ 4 then some n else none)

def monitorRate (n : Nat) (s : State) : State :=
  answerOk [ascii "BR", hexDigits 1 n]
    { s with life := { s.life with baudNew := some (BitVec.ofNat 3 n), baudSwitched := false } }

def execMonitorBr (line : List Byte) (s : State) : Host.Outcome State Fault Refusal :=
  act s (monitorLine "BR" brSyntax line monitorRate s)

/-- 1 ms after the answer the UART runs at the new rate, on trial. -/
def baudSwitch (s : State) : State :=
  if alive s && s.life.baudNew.isSome then { s with life := { s.life with baudSwitched := true } } else s

def execBaudSwitch (s : State) : Host.Outcome State Fault Refusal := act s (baudSwitch s)

/-- BC at the new rate confirms it; outside a trial it is no command. -/
def confirmBaud (s : State) : State :=
  if alive s = false ∨ answerDue s then s
  else if s.life.baudSwitched then
    answerOk [ascii "BC"]
      { s with life := { s.life with baud := s.life.baudNew.getD s.life.baud, baudNew := none, baudSwitched := false } }
  else answerEr 0x01 s

def execMonitorBc (s : State) : Host.Outcome State Fault Refusal := act s (confirmBaud s)

def execBaudReverted (s : State) : Host.Outcome State Fault Refusal := act s (if s.life.baudSwitched then revertBaud s else s)

/-! ### Lines that no command takes (R372) -/

/-- The line names a command of R373. -/
def knownCommand (c : Bytes) : Bool :=
  ["ID", "ST", "NC", "LD", "DC", "DX", "LC", "RR", "RW", "NR", "SR", "BR"].any (fun n => ascii n == c)

/-- The fields of a known command break its syntax. -/
def brokenFields (c : Bytes) (fs : List Bytes) : Bool :=
  if c = ascii "LD" then (ldSyntax fs).isNone
  else if c = ascii "LC" then (lcSyntax fs).isNone
  else if c = ascii "RW" then (twoNumbers fs).isNone
  else if c = ascii "NR" then (nrSyntax fs).isNone
  else if c = ascii "SR" then (srSyntax fs).isNone
  else if c = ascii "BR" then (brSyntax fs).isNone
  else if c = ascii "DC" ∨ c = ascii "RR" then (oneNumber fs).isNone
  else !fs.isEmpty

/-- A line that is too long, that no command takes, or that breaks its command's syntax; another line changes nothing (log 7). -/
def badLine (line : Bytes) (s : State) : State :=
  if lineLong line then answerEr 0x03 s
  else match lineFields (lineOf line) with
    | [] => answerEr 0x01 s
    | c :: fs =>
      if knownCommand c = false then answerEr 0x01 s
      else if brokenFields c fs then syntaxEr c s
      else s

def execMonitorUnknownCmd (line : List Byte) (s : State) : Host.Outcome State Fault Refusal :=
  act s (if lineOf line = ascii "BC" then confirmBaud s else monitorTakes (badLine line) s)

end Sys2Proof.Machine
end

