-- ==== Sys2Proof/Machine/Dispatch.lean ====
section
/-! DEFINITION. The one dispatch of commands to meanings: one arm per row of spec/opcode_table.json. -/
namespace Sys2Proof.Machine

/-- The effect of a command on everything but the queue of waiting commands. -/
def exec (i : Instr) (s : State) : Host.Outcome State Fault Refusal :=
  match i with
  | .mlkemKeygen j => Sys2Proof.Machine.execMlkemKeygen j s
  | .mlkemEncaps j => Sys2Proof.Machine.execMlkemEncaps j s
  | .mlkemDecaps j => Sys2Proof.Machine.execMlkemDecaps j s
  | .mlkemPubkey j => Sys2Proof.Machine.execMlkemPubkey j s
  | .mldsaKeygen j => Sys2Proof.Machine.execMldsaKeygen j s
  | .mldsaSign j => Sys2Proof.Machine.execMldsaSign j s
  | .mldsaVerify j => Sys2Proof.Machine.execMldsaVerify j s
  | .mldsaPubkey j => Sys2Proof.Machine.execMldsaPubkey j s
  | .fndsaKeygen j => Sys2Proof.Machine.execFndsaKeygen j s
  | .fndsaSign j => Sys2Proof.Machine.execFndsaSign j s
  | .fndsaVerify j => Sys2Proof.Machine.execFndsaVerify j s
  | .fndsaPubkey j => Sys2Proof.Machine.execFndsaPubkey j s
  | .slhdsaKeygen j => Sys2Proof.Machine.execSlhdsaKeygen j s
  | .slhdsaSign j => Sys2Proof.Machine.execSlhdsaSign j s
  | .slhdsaVerify j => Sys2Proof.Machine.execSlhdsaVerify j s
  | .slhdsaPubkey j => Sys2Proof.Machine.execSlhdsaPubkey j s
  | .lmsKeygen j => Sys2Proof.Machine.execLmsKeygen j s
  | .lmsSign j => Sys2Proof.Machine.execLmsSign j s
  | .lmsVerify j => Sys2Proof.Machine.execLmsVerify j s
  | .lmsPubkey j => Sys2Proof.Machine.execLmsPubkey j s
  | .xmssKeygen j => Sys2Proof.Machine.execXmssKeygen j s
  | .xmssSign j => Sys2Proof.Machine.execXmssSign j s
  | .xmssVerify j => Sys2Proof.Machine.execXmssVerify j s
  | .xmssPubkey j => Sys2Proof.Machine.execXmssPubkey j s
  | .xmssmtKeygen j => Sys2Proof.Machine.execXmssmtKeygen j s
  | .xmssmtSign j => Sys2Proof.Machine.execXmssmtSign j s
  | .xmssmtVerify j => Sys2Proof.Machine.execXmssmtVerify j s
  | .xmssmtPubkey j => Sys2Proof.Machine.execXmssmtPubkey j s
  | .hsStateBind j => Sys2Proof.Machine.execHsStateBind j s
  | .hsStateQuery j => Sys2Proof.Machine.execHsStateQuery j s
  | .digest j => Sys2Proof.Machine.execDigest j s
  | .digestKey j => Sys2Proof.Machine.execDigestKey j s
  | .aesEncrypt j => Sys2Proof.Machine.execAesEncrypt j s
  | .aesDecrypt j => Sys2Proof.Machine.execAesDecrypt j s
  | .hqcKeygen j => Sys2Proof.Machine.execHqcKeygen j s
  | .hqcEncaps j => Sys2Proof.Machine.execHqcEncaps j s
  | .hqcDecaps j => Sys2Proof.Machine.execHqcDecaps j s
  | .hqcPubkey j => Sys2Proof.Machine.execHqcPubkey j s
  | .mceKeygen j => Sys2Proof.Machine.execMceKeygen j s
  | .mceEncaps j => Sys2Proof.Machine.execMceEncaps j s
  | .mceDecaps j => Sys2Proof.Machine.execMceDecaps j s
  | .mcePubkey j => Sys2Proof.Machine.execMcePubkey j s
  | .mcePkPin j => Sys2Proof.Machine.execMcePkPin j s
  | .ecKeygen j => Sys2Proof.Machine.execEcKeygen j s
  | .ecdsaSign j => Sys2Proof.Machine.execEcdsaSign j s
  | .ecdsaVerify j => Sys2Proof.Machine.execEcdsaVerify j s
  | .ecdh j => Sys2Proof.Machine.execEcdh j s
  | .ecPubkey j => Sys2Proof.Machine.execEcPubkey j s
  | .eddsaKeygen j => Sys2Proof.Machine.execEddsaKeygen j s
  | .eddsaSign j => Sys2Proof.Machine.execEddsaSign j s
  | .eddsaVerify j => Sys2Proof.Machine.execEddsaVerify j s
  | .eddsaPubkey j => Sys2Proof.Machine.execEddsaPubkey j s
  | .xdhKeygen j => Sys2Proof.Machine.execXdhKeygen j s
  | .xdh j => Sys2Proof.Machine.execXdh j s
  | .xdhPubkey j => Sys2Proof.Machine.execXdhPubkey j s
  | .rsaKeygen j => Sys2Proof.Machine.execRsaKeygen j s
  | .rsaSign j => Sys2Proof.Machine.execRsaSign j s
  | .rsaVerify j => Sys2Proof.Machine.execRsaVerify j s
  | .rsaEncrypt j => Sys2Proof.Machine.execRsaEncrypt j s
  | .rsaDecrypt j => Sys2Proof.Machine.execRsaDecrypt j s
  | .rsaPubkey j => Sys2Proof.Machine.execRsaPubkey j s
  | .dhKeygen j => Sys2Proof.Machine.execDhKeygen j s
  | .dh j => Sys2Proof.Machine.execDh j s
  | .dhPubkey j => Sys2Proof.Machine.execDhPubkey j s
  | .curveLoad j => Sys2Proof.Machine.execCurveLoad j s
  | .rngGenerate j => Sys2Proof.Machine.execRngGenerate j s
  | .drbgReseed j => Sys2Proof.Machine.execDrbgReseed j s
  | .drbgInstantiate j => Sys2Proof.Machine.execDrbgInstantiate j s
  | .drbgInfo j => Sys2Proof.Machine.execDrbgInfo j s
  | .rngRaw j => Sys2Proof.Machine.execRngRaw j s
  | .vaultImport j => Sys2Proof.Machine.execVaultImport j s
  | .vaultExport j => Sys2Proof.Machine.execVaultExport j s
  | .vaultDelete j => Sys2Proof.Machine.execVaultDelete j s
  | .vaultInfo j => Sys2Proof.Machine.execVaultInfo j s
  | .vaultDerive j => Sys2Proof.Machine.execVaultDerive j s
  | .vaultModify j => Sys2Proof.Machine.execVaultModify j s
  | .nvWriteDone j same => Sys2Proof.Machine.execNvWriteDone j same s
  | .flowCreate j => Sys2Proof.Machine.execFlowCreate j s
  | .flowDelete j => Sys2Proof.Machine.execFlowDelete j s
  | .flowKey j => Sys2Proof.Machine.execFlowKey j s
  | .flowSet j => Sys2Proof.Machine.execFlowSet j s
  | .flowResync j => Sys2Proof.Machine.execFlowResync j s
  | .flowRead j => Sys2Proof.Machine.execFlowRead j s
  | .flowStandby j => Sys2Proof.Machine.execFlowStandby j s
  | .streamSend j => Sys2Proof.Machine.execStreamSend j s
  | .vprogVerify j => Sys2Proof.Machine.execVprogVerify j s
  | .vprogRun j => Sys2Proof.Machine.execVprogRun j s
  | .vprogTimeLimit j => Sys2Proof.Machine.execVprogTimeLimit j s
  | .porterStart j => Sys2Proof.Machine.execPorterStart j s
  | .porterStop j => Sys2Proof.Machine.execPorterStop j s
  | .porterInstruction c a => Sys2Proof.Machine.execPorterInstruction c a s
  | .porterMoveUnit c a => Sys2Proof.Machine.execPorterMoveUnit c a s
  | .porterWaitPoll c expired a => Sys2Proof.Machine.execPorterWaitPoll c expired a s
  | .planStage j same => Sys2Proof.Machine.execPlanStage j same s
  | .planSignerAdd j => Sys2Proof.Machine.execPlanSignerAdd j s
  | .planSignerRemove j => Sys2Proof.Machine.execPlanSignerRemove j s
  | .planSvnRaise j => Sys2Proof.Machine.execPlanSvnRaise j s
  | .planRead j => Sys2Proof.Machine.execPlanRead j s
  | .patchStage j same => Sys2Proof.Machine.execPatchStage j same s
  | .patchSvnRaise j => Sys2Proof.Machine.execPatchSvnRaise j s
  | .fwStage j same => Sys2Proof.Machine.execFwStage j same s
  | .fwSvnRaise j => Sys2Proof.Machine.execFwSvnRaise j s
  | .dormantEnter j => Sys2Proof.Machine.execDormantEnter j s
  | .bootRetry j => Sys2Proof.Machine.execBootRetry j s
  | .ctxAlloc j => Sys2Proof.Machine.execCtxAlloc j s
  | .ctxFree j => Sys2Proof.Machine.execCtxFree j s
  | .pitchExport j => Sys2Proof.Machine.execPitchExport j s
  | .pitchImport j => Sys2Proof.Machine.execPitchImport j s
  | .lcNonce j => Sys2Proof.Machine.execLcNonce j s
  | .lcTransition j => Sys2Proof.Machine.execLcTransition j s
  | .debugGrant j => Sys2Proof.Machine.execDebugGrant j s
  | .alarmUnlock j => Sys2Proof.Machine.execAlarmUnlock j s
  | .evidenceRead j => Sys2Proof.Machine.execEvidenceRead j s
  | .ledgerRead j => Sys2Proof.Machine.execLedgerRead j s
  | .ledgerClear j => Sys2Proof.Machine.execLedgerClear j s
  | .custodianEnrol j => Sys2Proof.Machine.execCustodianEnrol j s
  | .custodianRemove j => Sys2Proof.Machine.execCustodianRemove j s
  | .quorumSet j => Sys2Proof.Machine.execQuorumSet j s
  | .quorumOpen j => Sys2Proof.Machine.execQuorumOpen j s
  | .keeperPresent j => Sys2Proof.Machine.execKeeperPresent j s
  | .quorumClose j => Sys2Proof.Machine.execQuorumClose j s
  | .keeperIdentify j => Sys2Proof.Machine.execKeeperIdentify j s
  | .archiveMount j => Sys2Proof.Machine.execArchiveMount j s
  | .archiveFormat j => Sys2Proof.Machine.execArchiveFormat j s
  | .archiveExport j => Sys2Proof.Machine.execArchiveExport j s
  | .opcodeUndefined j => Sys2Proof.Machine.execOpcodeUndefined j s
  | .descriptorFetch => Sys2Proof.Machine.execDescriptorFetch s
  | .ringReadFail q c => Sys2Proof.Machine.execRingReadFail q c s
  | .jobPlace j => Sys2Proof.Machine.execJobPlace j s
  | .jobComplete j w => Sys2Proof.Machine.execJobComplete j w s
  | .dmaFault j k => Sys2Proof.Machine.execDmaFault j k s
  | .coalTimeExpiry q => Sys2Proof.Machine.execCoalTimeExpiry q s
  | .sqPi p l v => Sys2Proof.Machine.execSqPi p l v s
  | .cqCi p l v => Sys2Proof.Machine.execCqCi p l v s
  | .queueCommit q => Sys2Proof.Machine.execQueueCommit q s
  | .queueEnable q => Sys2Proof.Machine.execQueueEnable q s
  | .queueDisable q => Sys2Proof.Machine.execQueueDisable q s
  | .queueRestart q => Sys2Proof.Machine.execQueueRestart q s
  | .crateFlagWrite p first flags => Sys2Proof.Machine.execCrateFlagWrite p first flags s
  | .crateDataWrite off data => Sys2Proof.Machine.execCrateDataWrite off data s
  | .crateCommit => Sys2Proof.Machine.execCrateCommit s
  | .channelCommit c => Sys2Proof.Machine.execChannelCommit c s
  | .channelStart c => Sys2Proof.Machine.execChannelStart c s
  | .channelStop c => Sys2Proof.Machine.execChannelStop c s
  | .pitchCommit p => Sys2Proof.Machine.execPitchCommit p s
  | .pitchReset p releaseCtx => Sys2Proof.Machine.execPitchReset p releaseCtx s
  | .selfReset p confirm => Sys2Proof.Machine.execSelfReset p confirm s
  | .pitchResetEnd p => Sys2Proof.Machine.execPitchResetEnd p s
  | .pitchStateFault p => Sys2Proof.Machine.execPitchStateFault p s
  | .freeze p => Sys2Proof.Machine.execFreeze p s
  | .pitchFrozen p => Sys2Proof.Machine.execPitchFrozen p s
  | .thaw p => Sys2Proof.Machine.execThaw p s
  | .logEnable p => Sys2Proof.Machine.execLogEnable p s
  | .logSwap p => Sys2Proof.Machine.execLogSwap p s
  | .logSwapDone p => Sys2Proof.Machine.execLogSwapDone p s
  | .logDisable p => Sys2Proof.Machine.execLogDisable p s
  | .epochWrite v => Sys2Proof.Machine.execEpochWrite v s
  | .epochLock => Sys2Proof.Machine.execEpochLock s
  | .intSummaryMaskWrite v => Sys2Proof.Machine.execIntSummaryMaskWrite v s
  | .streamCommit => Sys2Proof.Machine.execStreamCommit s
  | .timeSet => Sys2Proof.Machine.execTimeSet s
  | .timeInvalidate => Sys2Proof.Machine.execTimeInvalidate s
  | .timeStep v => Sys2Proof.Machine.execTimeStep v s
  | .portCommit port => Sys2Proof.Machine.execPortCommit port s
  | .dqCommit d => Sys2Proof.Machine.execDqCommit d s
  | .dqEnable d => Sys2Proof.Machine.execDqEnable d s
  | .dqDisable d => Sys2Proof.Machine.execDqDisable d s
  | .retestRetired => Sys2Proof.Machine.execRetestRetired s
  | .linkCommit => Sys2Proof.Machine.execLinkCommit s
  | .retrain k => Sys2Proof.Machine.execRetrain k s
  | .pwrRestart v => Sys2Proof.Machine.execPwrRestart v s
  | .paceTargetWrite v => Sys2Proof.Machine.execPaceTargetWrite v s
  | .registerWrite w off width v => Sys2Proof.Machine.execRegisterWrite w off width v s
  | .msixVectorUnmask v => Sys2Proof.Machine.execMsixVectorUnmask v s
  | .msixFunctionUnmask => Sys2Proof.Machine.execMsixFunctionUnmask s
  | .msixEnable => Sys2Proof.Machine.execMsixEnable s
  | .atsInvalidation r => Sys2Proof.Machine.execAtsInvalidation r s
  | .d3hotEntry => Sys2Proof.Machine.execD3hotEntry s
  | .d0Return => Sys2Proof.Machine.execD0Return s
  | .pcieConventionalReset epochStrap => Sys2Proof.Machine.execPcieConventionalReset epochStrap s
  | .functionLevelReset => Sys2Proof.Machine.execFunctionLevelReset s
  | .powerOnReset x => Sys2Proof.Machine.execPowerOnReset x s
  | .internalResetAssert => Sys2Proof.Machine.execInternalResetAssert s
  | .startTimeout => Sys2Proof.Machine.execStartTimeout s
  | .failedStartRestart x => Sys2Proof.Machine.execFailedStartRestart x s
  | .deviceRestart x => Sys2Proof.Machine.execDeviceRestart x s
  | .dormantStayTimeout x => Sys2Proof.Machine.execDormantStayTimeout x s
  | .batterySwitchover toBattery => Sys2Proof.Machine.execBatterySwitchover toBattery s
  | .batterySample r => Sys2Proof.Machine.execBatterySample r s
  | .lidEdge level => Sys2Proof.Machine.execLidEdge level s
  | .tempSample t0 t1 t2 t3 => Sys2Proof.Machine.execTempSample t0 t1 t2 t3 s
  | .alarmTrip x v => Sys2Proof.Machine.execAlarmTrip x v s
  | .decisionSecond agree => Sys2Proof.Machine.execDecisionSecond agree s
  | .alarmSourceClear x => Sys2Proof.Machine.execAlarmSourceClear x s
  | .railWindowReturn rail => Sys2Proof.Machine.execRailWindowReturn rail s
  | .dualRailFault u => Sys2Proof.Machine.execDualRailFault u s
  | .storeEccUncorrectable tile addr => Sys2Proof.Machine.execStoreEccUncorrectable tile addr s
  | .tileStoreReloadDone tile ok => Sys2Proof.Machine.execTileStoreReloadDone tile ok s
  | .scrubTick errs patch => Sys2Proof.Machine.execScrubTick errs patch s
  | .hallCopyMismatch addr => Sys2Proof.Machine.execHallCopyMismatch addr s
  | .hallReloadDone ok => Sys2Proof.Machine.execHallReloadDone ok s
  | .dataEccError w => Sys2Proof.Machine.execDataEccError w s
  | .tileFault j dkHash => Sys2Proof.Machine.execTileFault j dkHash s
  | .tileSelfTestDone tile ok => Sys2Proof.Machine.execTileSelfTestDone tile ok s
  | .spareJoin => Sys2Proof.Machine.execSpareJoin s
  | .engineFcmTrip e => Sys2Proof.Machine.execEngineFcmTrip e s
  | .engineWipeDone e ok => Sys2Proof.Machine.execEngineWipeDone e ok s
  | .frameReceive port frame => Sys2Proof.Machine.execFrameReceive port frame s
  | .frameCheck => Sys2Proof.Machine.execFrameCheck s
  | .dqCiRead d a => Sys2Proof.Machine.execDqCiRead d a s
  | .unmatchedToken => Sys2Proof.Machine.execUnmatchedToken s
  | .prpEntryAge src => Sys2Proof.Machine.execPrpEntryAge src s
  | .keyGraceExpiry ctx => Sys2Proof.Machine.execKeyGraceExpiry ctx s
  | .portLinkChange port up => Sys2Proof.Machine.execPortLinkChange port up s
  | .beanSample bits => Sys2Proof.Machine.execBeanSample bits s
  | .beanTrimWindow bean => Sys2Proof.Machine.execBeanTrimWindow bean s
  | .beanRetestDone bean outcome => Sys2Proof.Machine.execBeanRetestDone bean outcome s
  | .grindBlock => Sys2Proof.Machine.execGrindBlock s
  | .entropyHoldExpiry => Sys2Proof.Machine.execEntropyHoldExpiry s
  | .maskFeedsOpen => Sys2Proof.Machine.execMaskFeedsOpen s
  | .drbgReseedDue p => Sys2Proof.Machine.execDrbgReseedDue p s
  | .ledgerRecordWrite => Sys2Proof.Machine.execLedgerRecordWrite s
  | .ledgerTallyWrite => Sys2Proof.Machine.execLedgerTallyWrite s
  | .optimeSave => Sys2Proof.Machine.execOptimeSave s
  | .paceSample beat => Sys2Proof.Machine.execPaceSample beat s
  | .avsFrameResponse r => Sys2Proof.Machine.execAvsFrameResponse r s
  | .avsRetry => Sys2Proof.Machine.execAvsRetry s
  | .keeperCardInsert => Sys2Proof.Machine.execKeeperCardInsert s
  | .keeperCardRemove => Sys2Proof.Machine.execKeeperCardRemove s
  | .atrReceive atr => Sys2Proof.Machine.execAtrReceive atr s
  | .ppsResponse pps => Sys2Proof.Machine.execPpsResponse pps s
  | .cardBlockReceive block => Sys2Proof.Machine.execCardBlockReceive block s
  | .cardBlockTimeout => Sys2Proof.Machine.execCardBlockTimeout s
  | .quorumSessionExpiry => Sys2Proof.Machine.execQuorumSessionExpiry s
  | .arcCardInsert c => Sys2Proof.Machine.execArcCardInsert c s
  | .arcCardRemove => Sys2Proof.Machine.execArcCardRemove s
  | .arcBusyTimeout => Sys2Proof.Machine.execArcBusyTimeout s
  | .linkTrainAttempt k => Sys2Proof.Machine.execLinkTrainAttempt k s
  | .handshakeMessage k m => Sys2Proof.Machine.execHandshakeMessage k m s
  | .handshakeTimeout k => Sys2Proof.Machine.execHandshakeTimeout k s
  | .sessionRekey k => Sys2Proof.Machine.execSessionRekey k s
  | .heartbeatSend k => Sys2Proof.Machine.execHeartbeatSend k s
  | .heartbeatReceive k m tagOk => Sys2Proof.Machine.execHeartbeatReceive k m tagOk s
  | .peerLost k => Sys2Proof.Machine.execPeerLost k s
  | .loadAdvertise => Sys2Proof.Machine.execLoadAdvertise s
  | .jobForwardReceive k n p d input aux => Sys2Proof.Machine.execJobForwardReceive k n p d input aux s
  | .jobForwardResult j r => Sys2Proof.Machine.execJobForwardResult j r s
  | .spillReceive k n p d input aux key => Sys2Proof.Machine.execSpillReceive k n p d input aux key s
  | .spillResult j r => Sys2Proof.Machine.execSpillResult j r s
  | .flowMirrorUpdate k m => Sys2Proof.Machine.execFlowMirrorUpdate k m s
  | .boundaryScanTakeover ir => Sys2Proof.Machine.execBoundaryScanTakeover ir s
  | .jtagTestReset => Sys2Proof.Machine.execJtagTestReset s
  | .monitorId => Sys2Proof.Machine.execMonitorId s
  | .monitorSt => Sys2Proof.Machine.execMonitorSt s
  | .monitorNc => Sys2Proof.Machine.execMonitorNc s
  | .monitorLd line => Sys2Proof.Machine.execMonitorLd line s
  | .monitorDc line => Sys2Proof.Machine.execMonitorDc line s
  | .monitorDx => Sys2Proof.Machine.execMonitorDx s
  | .monitorLc line => Sys2Proof.Machine.execMonitorLc line s
  | .monitorRr line => Sys2Proof.Machine.execMonitorRr line s
  | .monitorRw line => Sys2Proof.Machine.execMonitorRw line s
  | .monitorNr line => Sys2Proof.Machine.execMonitorNr line s
  | .monitorSr line => Sys2Proof.Machine.execMonitorSr line s
  | .monitorBr line => Sys2Proof.Machine.execMonitorBr line s
  | .baudSwitch => Sys2Proof.Machine.execBaudSwitch s
  | .monitorBc => Sys2Proof.Machine.execMonitorBc s
  | .baudReverted => Sys2Proof.Machine.execBaudReverted s
  | .monitorUnknownCmd line => Sys2Proof.Machine.execMonitorUnknownCmd line s
  | .registerRead w off width => Sys2Proof.Machine.execRegisterRead w off width s
  | .equaliserAdapted port => Sys2Proof.Machine.execEqualiserAdapted port s
  | .linkTrainingComplete k lanes => Sys2Proof.Machine.execLinkTrainingComplete k lanes s
  | .cardWaitTimeout => Sys2Proof.Machine.execCardWaitTimeout s
  | .arcReadyTimeout => Sys2Proof.Machine.execArcReadyTimeout s
  | .batteryDomainPowerLoss => Sys2Proof.Machine.execBatteryDomainPowerLoss s
  | .batteryDomainPowerUp => Sys2Proof.Machine.execBatteryDomainPowerUp s
  | .crystalStopped => Sys2Proof.Machine.execCrystalStopped s

end Sys2Proof.Machine
end

