-- ==== Sys2Proof/Safety.lean ====
section
/-! DEFINITION. What the statements rely on in every state: the canonical form of the memories and tables, the identity that is
fused, and the shape of what the part has a fixed number of; and what it is for a job to start, with the commands that start one. -/
namespace Sys2Proof.Machine

/-- The two memories that the part addresses by the byte are in their canonical form: host memory, and the crates. -/
abbrev State.memWf (s : State) : Prop := Tab.wf (0#8) s.host = true ∧ Tab.wf (0#8) s.crates.data = true

/-- What is fused reads as fused (R33). -/
abbrev State.fused (s : State) : Prop := s.dev.uid = Config.deviceUid ∧ s.dev.orderCode = (if Config.isXL then 2#4 else 1#4)

/-- Three links (R433), two process-bus ports (R285), in the record of a Dormant stay too (R465), and twenty fuse words (R360). -/
abbrev State.shaped (s : State) : Prop :=
  s.links.link.length = 3 ∧ s.stream.ports.length = 2 ∧ s.life.fuses.length = 20 ∧
  s.nv.dormant.all (fun d => d.stream.ports.length == 2) = true

/-- The invariant of the part. -/
abbrev State.Inv (s : State) : Prop := s.memWf ∧ s.fused ∧ s.shaped

/-! ### Jobs that start -/

/-- A job that passed the checks of R71, as it stands in the list of jobs when it looks for its unit: it holds its references
(R84), and it has its place in the order of acceptance. -/
def accepted (s : State) (x : Job) : Job := { x with phase := .waiting, held := x.id.src == 0, turn := nextTurn s }

/-- The state in which an accepted job looks for its unit. -/
def offered (s : State) (x : Job) : State := lend (accepted s x) (s.setJob (accepted s x))

/-- A descriptor that is read and next in its queue, of the opcode of a command, passes every check of R71 and computes on this
part (R14 to R17, R71, R74, R438). -/
structure Passes (sp : OpSpec) (s : State) (x : Job) : Prop where
  named   : s.job x.id = some x
  fetched : x.phase = .fetched
  opcode  : x.desc.opcode = sp.code
  next    : mayStart s x = true
  checked : checkWithKey sp s x = none
  late    : lateBad sp (lend x s) x = none
  here    : forwardLink s (sp.uses x.desc) x = none

/-- An accepted job with the stall and the engine on which it is queued (R15, R254). -/
def queuedOn (sp : OpSpec) (v : State) (y : Job) : Job := placeOn v { y with queued := queuedBeats sp v y } (sp.place v y)

/-- What an accepted job finds when it can start at once: the Hall controller places jobs (R384, R388), nothing that its chapter
names holds it back and no earlier job its context (R222), what is judged again at its start stands (R26), it stays on this part
(R440), the units `us` are free for it (R15), its new slots are granted as `rs` with the state `t` (R171), its masks are at hand (R331),
and so are the values that it draws (R330), none of which falls short within it (R328; log 70). -/
structure Finds (sp : OpSpec) (v : State) (y : Job) (us : List Unit_) (t : State) (rs : List (BitVec 13)) : Prop where
  placing  : placing v = true
  free     : sp.blocked v y = false
  alone    : ctxBusy v y = false
  judged   : startBad sp v y = none
  stays    : spillLink sp v y = none
  units    : unitsFor v (queuedOn sp v y) (sp.place v y) = some us
  none_yet : y.reserved = []
  slots    : reserveAll y.pitch (sp.slots v (queuedOn sp v y)) v [] = .inr (t, rs)
  masks    : sp.masked v (queuedOn sp v y) = true → v.rng.feedsStopped = false
  drawn    : drawReady v (some y.id) y.pitch (drawsOf sp v (queuedOn sp v y)) = .ready
  ample    : drawnDry (runJob sp t (queuedOn sp v y) us rs) y.pitch = false

/-- A descriptor of a command's opcode passes every check and starts. -/
structure Starts (sp : OpSpec) (s : State) (x : Job) (us : List Unit_) (t : State) (rs : List (BitVec 13)) : Prop where
  passes : Passes sp s x
  finds  : Finds sp (offered s x) (accepted s x) us t rs

/-- The state after a job's start: it computes on its units with its slots reserved, by what its chapter says (`sp.run`), and a key
that a peer lent it has left the vault again (R442). -/
def startedOn (sp : OpSpec) (s : State) (x : Job) (us : List Unit_) (t : State) (rs : List (BitVec 13)) : State :=
  takeBack (accepted s x) (s.setJob (accepted s x)) (runJob sp t (queuedOn sp (offered s x) (accepted s x)) us rs)

/-! ### The commands of a job's start, by chapter -/

/-- ML-KEM, ML-DSA and FN-DSA (08_lattice). -/
def latticeJobs (j : JobId) : List (Instr × OpSpec) :=
  [(.mlkemKeygen j, mlkemKeygenSpec), (.mlkemEncaps j, mlkemEncapsSpec), (.mlkemDecaps j, mlkemDecapsSpec),
   (.mlkemPubkey j, mlkemPubkeySpec), (.mldsaKeygen j, mldsaKeygenSpec), (.mldsaSign j, mldsaSignSpec),
   (.mldsaVerify j, mldsaVerifySpec), (.mldsaPubkey j, mldsaPubkeySpec), (.fndsaKeygen j, fndsaKeygenSpec),
   (.fndsaSign j, fndsaSignSpec), (.fndsaVerify j, fndsaVerifySpec), (.fndsaPubkey j, fndsaPubkeySpec)]

/-- SLH-DSA, LMS, XMSS and XMSS^MT, with their state. -/
def hashSigJobs (j : JobId) : List (Instr × OpSpec) :=
  [(.slhdsaKeygen j, slhdsaKeygenSpec), (.slhdsaSign j, slhdsaSignSpec), (.slhdsaVerify j, slhdsaVerifySpec),
   (.slhdsaPubkey j, slhdsaPubkeySpec), (.lmsKeygen j, treeKeygenSpec lmsFamily), (.lmsSign j, treeSignSpec lmsFamily),
   (.lmsVerify j, treeVerifySpec lmsFamily), (.lmsPubkey j, treePubkeySpec lmsFamily),
   (.xmssKeygen j, treeKeygenSpec xmssFamily), (.xmssSign j, treeSignSpec xmssFamily),
   (.xmssVerify j, treeVerifySpec xmssFamily), (.xmssPubkey j, treePubkeySpec xmssFamily),
   (.xmssmtKeygen j, treeKeygenSpec xmssmtFamily), (.xmssmtSign j, treeSignSpec xmssmtFamily),
   (.xmssmtVerify j, treeVerifySpec xmssmtFamily), (.xmssmtPubkey j, treePubkeySpec xmssmtFamily),
   (.hsStateBind j, hsStateBindSpec), (.hsStateQuery j, hsStateQuerySpec)]

/-- Digests, AES, HQC and Classic McEliece. -/
def digestAndCodeJobs (j : JobId) : List (Instr × OpSpec) :=
  [(.digest j, digestSpec), (.digestKey j, digestKeySpec), (.aesEncrypt j, aesSpec true), (.aesDecrypt j, aesSpec false),
   (.hqcKeygen j, hqcKeygenSpec), (.hqcEncaps j, hqcEncapsSpec), (.hqcDecaps j, hqcDecapsSpec), (.hqcPubkey j, hqcPubkeySpec),
   (.mceKeygen j, mceKeygenSpec), (.mceEncaps j, mceEncapsSpec), (.mceDecaps j, mceDecapsSpec), (.mcePubkey j, mcePubkeySpec),
   (.mcePkPin j, mcePkPinSpec)]

/-- The big-number engines. -/
def bigNumberJobs (j : JobId) : List (Instr × OpSpec) :=
  [(.ecKeygen j, ecKeygenSpec), (.ecdsaSign j, ecdsaSignSpec), (.ecdsaVerify j, ecdsaVerifySpec), (.ecdh j, ecdhSpec),
   (.ecPubkey j, ecPubkeySpec), (.eddsaKeygen j, eddsaKeygenSpec), (.eddsaSign j, eddsaSignSpec),
   (.eddsaVerify j, eddsaVerifySpec), (.eddsaPubkey j, eddsaPubkeySpec), (.xdhKeygen j, xdhKeygenSpec), (.xdh j, xdhSpec),
   (.xdhPubkey j, xdhPubkeySpec), (.rsaKeygen j, rsaKeygenSpec), (.rsaSign j, rsaSignSpec), (.rsaVerify j, rsaVerifySpec),
   (.rsaEncrypt j, rsaEncryptSpec), (.rsaDecrypt j, rsaDecryptSpec), (.rsaPubkey j, rsaPubkeySpec),
   (.dhKeygen j, dhKeygenSpec), (.dh j, dhSpec), (.dhPubkey j, dhPubkeySpec), (.curveLoad j, curveLoadSpec)]

/-- Random numbers and the vault. -/
def randomAndVaultJobs (j : JobId) : List (Instr × OpSpec) :=
  [(.rngGenerate j, rngGenerateSpec), (.drbgReseed j, drbgReseedSpec), (.drbgInstantiate j, drbgInstantiateSpec),
   (.drbgInfo j, drbgInfoSpec), (.rngRaw j, rngRawSpec), (.vaultImport j, vaultImportSpec), (.vaultExport j, vaultExportSpec),
   (.vaultDelete j, vaultDeleteSpec), (.vaultInfo j, vaultInfoSpec), (.vaultDerive j, vaultDeriveSpec),
   (.vaultModify j, vaultModifySpec)]

/-- The process bus, vector programs and the Porter. -/
def flowAndProgramJobs (j : JobId) : List (Instr × OpSpec) :=
  [(.flowCreate j, flowCreateSpec), (.flowDelete j, flowDeleteSpec), (.flowKey j, flowKeySpec), (.flowSet j, flowSetSpec),
   (.flowResync j, flowResyncSpec), (.flowRead j, flowReadSpec), (.flowStandby j, flowStandbySpec),
   (.streamSend j, streamSendSpec), (.vprogVerify j, vprogVerifySpec), (.vprogRun j, vprogRunSpec),
   (.porterStart j, porterStartSpec), (.porterStop j, porterStopSpec)]

/-- The administration opcodes of the part itself: plans, patches, firmware, contexts, pitches, life cycle, alarms, records. -/
def partJobs (j : JobId) (same : Bool) : List (Instr × OpSpec) :=
  [(.planStage j same, planStageSpec same), (.planSignerAdd j, planSignerAddSpec), (.planSignerRemove j, planSignerRemoveSpec),
   (.planSvnRaise j, planSvnRaiseSpec), (.planRead j, planReadSpec), (.patchStage j same, patchStageSpec same),
   (.patchSvnRaise j, patchSvnRaiseSpec), (.fwStage j same, fwStageSpec same), (.fwSvnRaise j, fwSvnRaiseSpec),
   (.dormantEnter j, dormantEnterSpec), (.bootRetry j, bootRetrySpec), (.ctxAlloc j, ctxAllocSpec), (.ctxFree j, ctxFreeSpec),
   (.pitchExport j, pitchExportSpec), (.pitchImport j, pitchImportSpec), (.lcNonce j, lcNonceSpec),
   (.lcTransition j, lcTransitionSpec), (.debugGrant j, debugGrantSpec), (.alarmUnlock j, alarmUnlockSpec),
   (.evidenceRead j, evidenceReadSpec), (.ledgerRead j, ledgerReadSpec), (.ledgerClear j, ledgerClearSpec)]

/-- The cards. -/
def cardJobs (j : JobId) : List (Instr × OpSpec) :=
  [(.custodianEnrol j, custodianEnrolSpec), (.custodianRemove j, custodianRemoveSpec), (.quorumSet j, quorumSetSpec),
   (.quorumOpen j, quorumOpenSpec), (.keeperPresent j, keeperPresentSpec), (.quorumClose j, quorumCloseSpec),
   (.keeperIdentify j, keeperIdentifySpec), (.archiveMount j, archiveMountSpec), (.archiveFormat j, archiveFormatSpec),
   (.archiveExport j, archiveExportSpec)]

/-- Every command that starts a job. -/
def jobCommands (j : JobId) (same : Bool) : List (Instr × OpSpec) :=
  latticeJobs j ++ hashSigJobs j ++ digestAndCodeJobs j ++ bigNumberJobs j ++ randomAndVaultJobs j ++ flowAndProgramJobs j ++
  partJobs j same ++ cardJobs j

end Sys2Proof.Machine
end

