-- ==== Sys2Proof/Certificates/Slice0/Obligations.lean ====
section
/-! DEFINITION. The statements about the part, each from numbered rules of the spec: what every command does, with its whole next
state where the rules give it, and what no step changes. -/

open Sys2Proof Sys2Proof.Machine

/-- R62 and R63: the queue commands, each with its whole next state: those that the table accepts, and every refusal of ENABLE, DISABLE
and RESTART with its DETAIL, Shuttered mode (R77) and the time before READY (R452) among them. R61: the eight checks of COMMIT in
their order; the first that fails sets COMMIT_REFUSED with its DETAIL and leaves the committed set. A 65th queue of a pitch is
refused with Q_PITCH_FULL although its LOCAL is taken too, whatever it is (R59; the model's reading, log 64). -/
def Obligations.QueueCommandsTakeEffect : Prop :=
  (∀ (s : State) (n : BitVec 12), windowsOpen s = true →
     let q := s.q n
     let refused (c : Instr) (d : BitVec 16) : Prop :=
       exec c s = .next (settle s (s.setQ n { q with cmdRefused := true, refuseDetail := d }))
     let mine : Prop := s.dev.phase = .ready ∨ (s.isShuttered = true ∧ n = 0 ∧ (q.cfg.assigned = true → q.cfg.pitch = 0))
     (queueCommitBad s n = none →
       exec (.queueCommit n) s = .next (settle s (s.setQ n { q with cfg := q.shadow }))) ∧
     (q.state = .disabled → mine → q.cfg.assigned = true → q.cfg.descBase ≠ 0 → q.cfg.cplBase ≠ 0 →
       (s.pitch q.cfg.pitch).cfg.bound = true →
       exec (.queueEnable n) s = .next (settle s (s.setQ n
         { q with state := .enabled, h := 0, w := 0, p := 0, c := 0, left := 0, accumulated := 0 }))) ∧
     (q.state ≠ .disabled → refused (.queueEnable n) 0x003C) ∧
     (s.dev.phase ≠ .ready → s.isShuttered = false → refused (.queueEnable n) 0x003C) ∧
     (q.state = .disabled → s.isShuttered = true → (n ≠ 0 ∨ (q.cfg.assigned = true ∧ q.cfg.pitch ≠ 0)) →
       refused (.queueEnable n) 0x003B) ∧
     (q.state = .disabled → mine → q.cfg.assigned = false → refused (.queueEnable n) 0x0038) ∧
     (q.state = .disabled → mine → q.cfg.assigned = true → (q.cfg.descBase = 0 ∨ q.cfg.cplBase = 0) →
       refused (.queueEnable n) 0x0039) ∧
     (q.state = .disabled → mine → q.cfg.assigned = true → q.cfg.descBase ≠ 0 → q.cfg.cplBase ≠ 0 →
       (s.pitch q.cfg.pitch).cfg.bound = false → refused (.queueEnable n) 0x003A) ∧
     (q.state = .enabled ∨ q.state = .error → inflight s n ≠ 0 →
       exec (.queueDisable n) s = .next (settle s (s.setQ n { q with state := .draining }))) ∧
     (q.state = .enabled ∨ q.state = .error → inflight s n = 0 →
       exec (.queueDisable n) s = .next (settle s
         ((s.setQ n { q with state := .draining }).setQ n { q with state := .disabled }))) ∧
     (q.state = .disabled → exec (.queueDisable n) s = .next (settle s s)) ∧
     (q.state = .draining → refused (.queueDisable n) 0x003C) ∧
     (q.state = .error → exec (.queueRestart n) s = .next (settle s (s.setQ n { q with state := .enabled }))) ∧
     (q.state ≠ .error → refused (.queueRestart n) 0x003C)) ∧
  (∀ (s : State) (n : BitVec 12), windowsOpen s = true →
     let q := s.q n
     let c := q.shadow
     let refused (d : BitVec 16) : Prop :=
       exec (.queueCommit n) s = .next (settle s (s.setQ n { q with commitRefused := true, refuseDetail := d }))
     let others : Nat := (s.queues.filter (fun e => e.1 ≠ n.toNat ∧ e.2.cfg.assigned = true ∧ e.2.cfg.pitch = c.pitch)).length
     let comes : Prop := c.assigned = true ∧ ¬(q.cfg.assigned = true ∧ q.cfg.pitch = c.pitch)
     let busy : Prop := q.state ≠ .disabled ∧ (c.descBase ≠ q.cfg.descBase ∨ c.cplBase ≠ q.cfg.cplBase ∨
       c.log2Size ≠ q.cfg.log2Size ∨ c.local_ ≠ q.cfg.local_ ∨ c.assigned ≠ q.cfg.assigned ∨ c.pitch ≠ q.cfg.pitch)
     let size : Prop := c.log2Size.toNat < 4 ∨ 16 < c.log2Size.toNat
     let range : Prop := 2 ^ 64 < c.descBase.toNat + 64 * 2 ^ c.log2Size.toNat ∨ 2 ^ 64 < c.cplBase.toNat + 32 * 2 ^ c.log2Size.toNat
     let weight : Prop := c.weight = 0 ∨ c.burst = 0 ∨ 64 < c.burst.toNat
     let mod_ : Prop := c.coalCount ≠ 0 ∧ c.coalTime = 0
     let absent : Prop := c.assigned = true ∧ (s.pitch c.pitch).state = .absent
     let taken : Prop := c.assigned = true ∧ ∃ e ∈ s.queues, e.1 ≠ n.toNat ∧ e.2.cfg.assigned = true ∧ e.2.cfg.pitch = c.pitch ∧
       e.2.cfg.local_ = c.local_
     let full : Prop := comes ∧ (s.pitch c.pitch).cfg.queueLimit.toNat ≤ others
     (busy → refused 0x0030) ∧
     (¬busy → size → refused 0x0031) ∧
     (¬busy → ¬size → range → refused 0x0032) ∧
     (¬busy → ¬size → ¬range → weight → refused 0x0036) ∧
     (¬busy → ¬size → ¬range → ¬weight → mod_ → refused 0x0037) ∧
     (¬busy → ¬size → ¬range → ¬weight → ¬mod_ → absent → refused 0x0033) ∧
     (¬busy → ¬size → ¬range → ¬weight → ¬mod_ → ¬absent → comes → 64 ≤ others → refused 0x0035) ∧
     (¬busy → ¬size → ¬range → ¬weight → ¬mod_ → ¬absent → ¬(comes ∧ 64 ≤ others) → taken → refused 0x0034) ∧
     (¬busy → ¬size → ¬range → ¬weight → ¬mod_ → ¬absent → ¬taken → full → refused 0x0035) ∧
     (¬busy → ¬size → ¬range → ¬weight → ¬mod_ → ¬absent → ¬taken → ¬(comes ∧ 64 ≤ others) → ¬full →
       exec (.queueCommit n) s = .next (settle s (s.setQ n { q with cfg := c }))))

/-- R65: a doorbell value that lies within the ring moves the index; any other is rejected and counted. -/
def Obligations.DoorbellsMoveTheirIndices : Prop :=
  ∀ (s : State) (p : BitVec 8) (l : BitVec 6) (v : BitVec 32) (n : BitVec 12), windowsOpen s = true → queueOf s p l = some n →
    (s.pitch p).state ≠ .resetting → (s.q n).state = .enabled ∨ (s.q n).state = .error →
    let q := s.q n
    let rejected : State := s.setQ n { q with dbRejected := true, dbRejects := satAdd q.dbRejects 1 }
    ((v - q.c).toNat ≤ ringSize q → (v - q.h).toNat ≤ ringSize q →
      exec (.sqPi p l v) s = .next (settle s (s.setQ n { q with p := v }))) ∧
    (ringSize q < (v - q.c).toNat ∨ ringSize q < (v - q.h).toNat → exec (.sqPi p l v) s = .next (settle s rejected)) ∧
    ((q.w - v).toNat ≤ ringSize q → (v - q.c).toNat ≤ ringSize q →
      exec (.cqCi p l v) s = .next (settle s (s.setQ n { q with c := v }))) ∧
    (ringSize q < (q.w - v).toNat ∨ ringSize q < (v - q.c).toNat → exec (.cqCi p l v) s = .next (settle s rejected))

/-- R30: an accepted change of EPOCH, a refused one, and a write of the value in force. -/
def Obligations.EpochWriteChangesOrIsRefused : Prop :=
  ∀ (s : State) (v : BitVec 2), windowsOpen s = true →
    let free : Prop := s.dev.lock = false ∧ (v = 1 ∨ v = 2) ∧ (∀ e ∈ s.queues, e.2.state = .disabled) ∧ migrating s = false ∧
      s.isShuttered = false
    (v = s.dev.epoch → exec (.epochWrite v) s = .next (settle s s)) ∧
    (v ≠ s.dev.epoch → free → exec (.epochWrite v) s = .next (settle s { s with dev := { s.dev with epoch := v } })) ∧
    (v ≠ s.dev.epoch → ¬free → exec (.epochWrite v) s = .next (settle s
      (note 0x0F03 none [v.setWidth 8, s.dev.epoch.setWidth 8] { s with dev := { s.dev with refused := true } })))

/-- R31: LOCK sets the lock on an XL, and is refused on an XE, which leaves EPOCH as it was. -/
def Obligations.EpochLockActsByOrderCode : Prop :=
  ∀ s : State, windowsOpen s = true →
    (s.dev.orderCode = 2 → exec .epochLock s = .next (settle s { s with dev := { s.dev with lock := true } })) ∧
    (s.dev.orderCode ≠ 2 → exec .epochLock s = .next (settle s { s with dev := { s.dev with lockRefused := true } }))

/-- R66 to R68: a turn of the fetcher serves the queue that is due with its burst, and each descriptor is read at H and joins the jobs
in order. -/
def Obligations.FetchTurnServesTheQueueThatIsDue : Prop :=
  (∀ (s : State) (p : BitVec 8) (allow l : Nat) (n : BitVec 12),
    let u := if (eligibleOf s p).all (fun m => (s.q m).left = 0) then newRound s p else s
    let q := u.q n
    let k := min (min q.cfg.burst.toNat q.left) (min allow (q.p - q.h).toNat)
    let got := fetchUpTo n (if u.isShuttered then min k 1 else k) u 0
    fetching s = true → visitNow s = some (p, allow) →
    nextAfter ((Tab.get none p.toNat u.arb.lastLocal).map (fun m => m.toNat))
      (((eligibleOf u p).filter (fun m => (u.q m).left ≠ 0)).map (fun m => (u.q m).cfg.local_.toNat)) = some l →
    queueOf u p (BitVec.ofNat 6 l) = some n →
    exec .descriptorFetch s = .next (settle s { got.1 with
      arb := { got.1.arb with visit := some (p, allow - got.2), lastPitch := some p,
                              lastLocal := Tab.set none p.toNat (some (BitVec.ofNat 6 l)) got.1.arb.lastLocal } })) ∧
  (∀ (s : State) (n : BitVec 12),
    let q := s.q n
    let slot := q.h.toNat % ringSize q
    let a := (q.cfg.descBase.toNat + 64 * slot) % 2 ^ 64
    (fetchOne s n).jobs = s.jobs ++ [jobInit { src := 0, queue := n, pos := q.h } (BitVec.ofNat 16 slot) q.cfg.pitch
      (descOf (readHost s q.cfg.pitch a 64))] ∧
    (fetchOne s n).queues = Tab.set queueInit n.toNat { q with h := q.h + 1, left := q.left - 1 } s.queues ∧
    { fetchOne s n with jobs := s.jobs, queues := s.queues } = translated q.cfg.pitch a 64 s)

/-- R67: a queue whose descriptor ring or completion ring fails enters ERROR with the DETAIL of its cause. R72, R96: a running job whose
access fails ends with BAD_ADDRESS and the DETAIL of the failure; the accesses of a running PORTER_START are those of its program,
which ends with it. R71, check 1: a descriptor of an opcode that no chapter defines is refused with BAD_OPCODE, DETAIL 0x0001. -/
def Obligations.FailuresOfRingsAccessesAndOpcodes : Prop :=
  (∀ (s : State) (n : BitVec 12),
     let inError := s.setQ n { s.q n with state := .error }
     let stopped (d : BitVec 16) : State :=
       if (ringFails inError n d).e1 then stopUnstarted (ringFails inError n d) n else ringFails inError n d
     ((s.q n).state = .enabled →
       exec (.ringReadFail n .ringRead) s = .next (settle s (stopped 0x0040)) ∧
       exec (.ringReadFail n .ringTimeout) s = .next (settle s (stopped 0x0041)) ∧
       exec (.ringReadFail n .ringTranslation) s = .next (settle s (stopped 0x0042)) ∧
       exec (.ringReadFail n .cplTranslation) s = .next (settle s (stopped 0x0043))) ∧
     ((s.q n).state = .draining ∨ (s.q n).state = .error →
       exec (.ringReadFail n .cplTranslation) s = .next (settle s (ringFails s n 0x0043)))) ∧
  (∀ (s : State) (j : JobId) (x : Job), s.job j = some x → x.phase = .running →
     let porter : Prop := x.desc.opcode = 0x0E01 ∧ x.forwarded = none ∧ x.out = none
     (¬porter → exec (.dmaFault j .read) s = .next (settle s (breakJob s x 0x0104 0x000B)) ∧
       exec (.dmaFault j .write) s = .next (settle s (breakJob s x 0x0104 0x000C)) ∧
       exec (.dmaFault j .translation) s = .next (settle s (breakJob s x 0x0104 0x000D))) ∧
     (porter → exec (.dmaFault j .read) s = .next (settle s (channelFails (chanOf x.desc) 0x000B s)) ∧
       exec (.dmaFault j .write) s = .next (settle s (channelFails (chanOf x.desc) 0x000C s)) ∧
       exec (.dmaFault j .translation) s = .next (settle s (channelFails (chanOf x.desc) 0x000D s)))) ∧
  (∀ (s : State) (j : JobId) (x : Job), s.job j = some x → x.phase = .fetched → opcodeDefined x.desc.opcode = false →
     mayStart s x = true →
     exec (.opcodeUndefined j) s = .next (settle s (refuseJob s x { status := 0x0101, detail := 0x0001 })))

/-- R34, R56, R57, R75, R309: the messages that masks, the summary and coalescing hold back or let go. -/
def Obligations.InterruptCommandsSendWhatIsDue : Prop :=
  ∀ s : State,
    (∀ (v : BitVec 11), windowsOpen s = true →
      let e := Tab.get msixInit v.toNat s.pcie.table
      exec (.msixVectorUnmask v) s = .next (settle s (sendPending
        { s with pcie := { s.pcie with table := Tab.set msixInit v.toNat { e with masked := false } s.pcie.table } } v.toNat))) ∧
    exec .msixFunctionUnmask s = .next (settle s
      ((List.range 2048).foldl sendPending { s with pcie := { s.pcie with funcMask := false } })) ∧
    (let t : State := (List.range 2048).foldl sendPending { s with pcie := { s.pcie with msixEnable := true } }
     s.pcie.msixEnable = false →
      (summary t ≠ 0 → exec .msixEnable s = .next (settle s (msixSend 0 t))) ∧
      (summary t = 0 → exec .msixEnable s = .next (settle s t))) ∧
    (∀ r : AtsRange, alive s = true → s.pcie.atsEnable = true →
      exec (.atsInvalidation r) s = .next (settle s
        { s with pcie := { s.pcie with ats := s.pcie.ats.filter (apart r.pasid r.first.toNat r.count.toNat) },
                 out := .atsDone r.tag :: s.out })) ∧
    (∀ v : BitVec 32, windowsOpen s = true →
      let t : State := { s with dev := { s.dev with intEnable := v.setWidth 15 } }
      (summary t ≠ 0 → exec (.intSummaryMaskWrite v) s = .next (msixSend 0 t)) ∧
      (summary t = 0 → exec (.intSummaryMaskWrite v) s = .next t)) ∧
    (∀ n : BitVec 12, (s.q n).accumulated ≠ 0 → (s.q n).cfg.coalTime ≠ 0 →
      exec (.coalTimeExpiry (.queue n)) s = .next (settle s
        (signal (s.q n).cfg.vector (s.setQ n { s.q n with accumulated := 0 })))) ∧
    (∀ d : BitVec 8, (s.dq d).accumulated ≠ 0 → (s.dq d).cfg.coalTime ≠ 0 →
      exec (.coalTimeExpiry (.delivery d)) s = .next (settle s
        (signal (s.dq d).cfg.vector (s.setDq d { s.dq d with accumulated := 0 }))))

/-- R98 to R101, R111 to R113: the commands of the pitch table, each with its whole next state. -/
def Obligations.PitchTableCommandsTakeEffect : Prop :=
  ∀ (s : State) (p : BitVec 8),
    let x := s.pitch p
    (windowsOpen s = true → pitchCommitBad s p = none → exec (.pitchCommit p) s = .next (settle s
      (s.setPitch p { x with cfg := x.shadow, state := boundState x.state x.shadow.bound }))) ∧
    (windowsOpen s = true → x.state = .active → s.e1 = false →
      exec (.freeze p) s = .next (settle s (s.setPitch p { x with state := .freezing }))) ∧
    (windowsOpen s = true → x.state = .active → s.e1 = true → exec (.freeze p) s = .next (settle s
      ((s.jobs.filter (fun y => y.pitch = p ∧ notStarted y)).foldl
        (fun t y => breakJob t y 0x0601 0x0022) (s.setPitch p { x with state := .freezing })))) ∧
    (x.state = .freezing → pitchDrained s p = true →
      exec (.pitchFrozen p) s = .next (settle s (s.setPitch p { x with state := .frozen, eventInt := true }))) ∧
    (windowsOpen s = true → x.state = .freezing ∨ (x.state = .frozen ∧ exporting s p = false) →
      exec (.thaw p) s = .next (settle s (s.setPitch p { x with state := .active }))) ∧
    (windowsOpen s = true → x.state = .active ∨ x.state = .freezing ∨ x.state = .frozen → s.e1 = false → x.cfg.migMode = false →
      x.cfg.logPages ≠ 0 → x.cfg.logBuf0 ≠ 0 → x.cfg.logBuf1 ≠ 0 →
      exec (.logEnable p) s = .next (settle s (s.setPitch p { x with logOn := true, logBuf := false, swapPending := false }))) ∧
    (windowsOpen s = true → x.state ≠ .absent → x.logOn = true → x.swapPending = false →
      exec (.logSwap p) s = .next (settle s (s.setPitch p { x with swapPending := true }))) ∧
    (x.swapPending = true → exec (.logSwapDone p) s = .next (settle s
      (s.setPitch p { x with swapPending := false, logBuf := !x.logBuf, eventInt := true }))) ∧
    (windowsOpen s = true → x.state ≠ .absent →
      exec (.logDisable p) s = .next (settle s (s.setPitch p { x with logOn := false, swapPending := false })))

/-- R101, R106, R107, R109, R110: a reset begins at once, or waits for the migration job that runs. R107, R108, R109, R132: a reset that
ends leaves the pitch ACTIVE or UNBOUND by its binding, its logging off, and the events set; resets that waited for a migration job
which it ended then begin, and nothing ends while the Hall controller store is reloaded. -/
def Obligations.PitchResetsBeginAndEnd : Prop :=
  (∀ (s : State) (p : BitVec 8) (release : Bool), (s.pitch p).state ≠ .absent → (s.pitch p).state ≠ .resetting →
     let later (r : Bool) (c : ResetCause) : State := s.setPitch p { s.pitch p with resetDue := some r, resetCause := c }
     (migrationJob s p = false →
       (windowsOpen s = true → exec (.pitchReset p release) s = .next (settle s (beginReset p release .command s))) ∧
       (windowsOpen s = true → exec (.selfReset p 0xA5A5) s = .next (settle s (beginReset p false .self s))) ∧
       exec (.pitchStateFault p) s = .next (settle s (beginReset p false .fault s))) ∧
     (migrationJob s p = true →
       (windowsOpen s = true → exec (.pitchReset p release) s = .next (settle s (later release .command))) ∧
       (windowsOpen s = true → exec (.selfReset p 0xA5A5) s = .next (settle s (later false .self))) ∧
       exec (.pitchStateFault p) s = .next (settle s (later false .fault)))) ∧
  (∀ (s : State) (p : BitVec 8), (s.pitch p).state = .resetting → s.seq.reloading = false →
     ∃ t, exec (.pitchResetEnd p) s = .next (settle s (dueResets t)) ∧
       (t.pitch p).state = (if (t.pitch p).cfg.bound then .active else .unbound) ∧
       (t.pitch p).logOn = false ∧ (t.pitch p).swapPending = false ∧ (t.pitch p).eventInt = true ∧
       (t.pitch p).releaseCtx = false ∧ (t.pitch p).ppResetDone = true)

/-- R54: D3hot resets every pitch and takes the delivery queues out of service; on the return, what is pending is sent. -/
def Obligations.PowerStatesOfTheFunction : Prop :=
  ∀ s : State,
    (s.pcie.d3hot = false → exec .d3hotEntry s = .next (settle s
      (disableDqs (resetEveryPitch .d3hot { s with pcie := { s.pcie with d3hot := true } })))) ∧
    exec .d0Return s = .next (settle s ((List.range 2048).foldl sendPending { s with pcie := { s.pcie with d3hot := false } }))

/-- R79 to R82, R86: a crate assigned and taken back, with the refusals of COMMIT in their order; the flag bytes of a write one by one,
each by the table of R82; and the data that a host writes, which is dropped and counted where a crate is closed to it. R81: a byte
that the host writes into a crate reaches it, and every other byte of the crates stays. -/
def Obligations.CratesAreGrantedAndWritten : Prop :=
  (∀ s : State, windowsOpen s = true →
     (let n := s.crates.selShadow.toNat
      let free := zeroCrate (s.setCrate n none) n
      let park (p : BitVec 8) (t : State) : State := { t with crates := { t.crates with parked := Tab.set 0#8 n p t.crates.parked } }
      let refused (d : BitVec 16) : State := { s with crates := { s.crates with commitRefused := true, refuseDetail := d } }
      (s.crates.assignedShadow = true → s.crate n = none → crateRefs s n = 0 →
        ((s.pitch s.crates.pitchShadow).state = .absent → exec .crateCommit s = .next (settle s (refused 0x0E41))) ∧
        ((s.pitch s.crates.pitchShadow).state ≠ .absent → grant free .crates s.crates.pitchShadow 1 ≠ .granted →
          exec .crateCommit s = .next (settle s (refused 0x0E42))) ∧
        ((s.pitch s.crates.pitchShadow).state ≠ .absent → grant free .crates s.crates.pitchShadow 1 = .granted →
          exec .crateCommit s = .next (settle s
            (park 0 (free.setCrate n (some { pitch := s.crates.pitchShadow, flag := 0, returning := false })))))) ∧
      (∀ c, s.crate n = some c →
        (s.crates.assignedShadow = true → c.pitch = s.crates.pitchShadow → exec .crateCommit s = .next (settle s s)) ∧
        (s.crates.assignedShadow = false →
          (c.flag = 1 ∨ crateRefs s n ≠ 0 → exec .crateCommit s = .next (settle s (refused 0x0E40))) ∧
          (c.flag ≠ 1 → crateRefs s n = 0 → exec .crateCommit s = .next (settle s (park s.crates.pitchShadow free)))))) ∧
     (∀ (p : BitVec 8) (k : BitVec 11) (bs : List Byte),
       bs.length = 4 ∧ k.toNat % 4 = 0 ∨ bs.length = 8 ∧ k.toNat % 8 = 0 →
       exec (.crateFlagWrite p k bs) s = .next (settle s
         (((List.range bs.length).zip bs).foldl (fun t e => flagByte p (k.toNat + e.1) e.2 t) s))) ∧
     (∀ (p : BitVec 8) (n : Nat) (v : Byte),
       (s.crate n = none → flagByte p n v s = s) ∧
       (∀ c, s.crate n = some c →
         (c.pitch ≠ p ∨ v = 0xFF ∨ v = c.flag → flagByte p n v s = s) ∧
         (c.pitch = p →
           (c.flag = 0 ∨ c.flag = 2 → flagByte p n 1 s = s.setCrate n (some { c with flag := 1 })) ∧
           (c.flag = 2 → flagByte p n 0 s = s.setCrate n (some { c with flag := 0 })) ∧
           (c.flag = 1 → flagByte p n 2 s = completeReturns (s.setCrate n (some { c with returning := true }))) ∧
           (c.flag = 0x0F → flagByte p n 0 s = (zeroCrate s n).setCrate n (some { c with flag := 0 })) ∧
           (v ≠ 0xFF → v ≠ c.flag → ¬(v = 1 ∧ (c.flag = 0 ∨ c.flag = 2)) → ¬(v = 0 ∧ (c.flag = 2 ∨ c.flag = 0x0F)) →
             ¬(v = 2 ∧ c.flag = 1) →
             flagByte p n v s = { s with crates := { s.crates with flagInt := true,
                                                                   flagRejects := satAdd s.crates.flagRejects 1 } })))) ∧
     (∀ (off : BitVec 23) (data : List Byte), off.toNat + data.length ≤ 0x800000 →
       let t := crateBytes off.toNat data s
       ((∀ n ∈ crateRange off.toNat data.length, crateOpen s n = true) →
         exec (.crateDataWrite off data) s = .next (settle s t)) ∧
       ((∃ n ∈ crateRange off.toNat data.length, crateOpen s n = false) →
         exec (.crateDataWrite off data) s = .next (settle s
           { t with crates := { t.crates with dropInt := true, drops := satAdd t.crates.drops 1 } })))) ∧
  (∀ (s : State) (off : BitVec 23) (data : List Byte), windowsOpen s = true → s.memWf →
     off.toNat + data.length ≤ 0x800000 → (∀ n ∈ crateRange off.toNat data.length, crateOpen s n = true) →
     ∃ t, exec (.crateDataWrite off data) s = .next t ∧ t.host = s.host ∧
       (∀ i (h : i < data.length), Tab.get 0#8 (off.toNat + i) t.crates.data = data[i]) ∧
       (∀ a, a < off.toNat ∨ off.toNat + data.length ≤ a → Tab.get 0#8 a t.crates.data = Tab.get 0#8 a s.crates.data))

/-- R87 to R89, R97: the registers of a Porter channel. R90 to R94: the six instructions of a Porter program, where no access of theirs
fails. R92, R94: a unit of a MOVE between places that answer, and a read of a WAIT. -/
def Obligations.PorterChannelsRunTheirPrograms : Prop :=
  (∀ (s : State) (c : BitVec 6), windowsOpen s = true →
     let x := s.chan c
     (x.run = none → x.shadow.progLen.toNat ≤ 64 →
       (x.shadow.assigned = false ∨ (s.pitch x.shadow.pitch).state ≠ .absent) →
       exec (.channelCommit c) s = .next (settle s (s.setChan c
         { x with cfg := x.shadow, unread := if x.shadow.pitch = x.cfg.pitch then x.unread else none }))) ∧
     (∀ p, x.run = none → x.cfg.assigned = true → x.cfg.progLen ≠ 0 → pProgram (registeredProgram c s) = .inr p →
       exec (.channelStart ⟨c, .ok⟩) s = .next (settle s (pStart c p none s))) ∧
     (x.run = none → x.cfg.assigned = true → x.cfg.progLen ≠ 0 →
       exec (.channelStart ⟨c, .readFails⟩) s = .next (settle s (s.setChan c { x with errInt := true, endDetail := 0x000B })) ∧
       exec (.channelStart ⟨c, .translationFails⟩) s = .next (settle s (s.setChan c { x with errInt := true, endDetail := 0x000D }))) ∧
     (∀ r, x.run = some r → r.moving = none → r.signalling = false →
       exec (.channelStop c) s = .next (settle s (pEnd c r 0x0601 0x0E31 0 s))) ∧
     (∀ r, x.run = some r → (r.moving.isSome = true ∨ r.signalling = true) →
       exec (.channelStop c) s = .next (settle s (setRun c { r with stopping := true } s)))) ∧
  (∀ (s : State) (c : BitVec 6) (r : PRun), (s.chan c).run = some r → r.moving = none → r.waiting = false →
     let u := s.setChan c { s.chan c with lastIndex := BitVec.ofNat 6 r.pc }
     (∀ sc dc swap len src dst ss ds, r.prog[r.pc]? = some (.move sc dc swap len src dst ss ds) →
       exec (.porterInstruction c .ok) s = .next (settle s (moveStart c r sc dc swap len src dst ss ds u))) ∧
     (∀ body, r.prog[r.pc]? = some (.loop 0 body) →
       exec (.porterInstruction c .ok) s = .next (settle s (setRun c (pNext r (r.pc + body.toNat)) u))) ∧
     (∀ count body, r.prog[r.pc]? = some (.loop count body) → count ≠ 0 →
       exec (.porterInstruction c .ok) s = .next (settle s (setRun c
         { r with pc := r.pc + 1,
                  loops := { first := r.pc + 1, last := r.pc + body.toNat, iter := 0, count := count.toNat } :: r.loops } u))) ∧
     (∀ cond timeout addr value mask, r.prog[r.pc]? = some (.wait cond timeout addr value mask) →
       (waitTest c cond addr value mask u = true →
         exec (.porterInstruction c .ok) s = .next (settle s (setRun c (pNext r r.pc) u))) ∧
       (waitTest c cond addr value mask u = false → timeout ≠ 0 →
         exec (.porterInstruction c .ok) s = .next (settle s (setRun c { r with waiting := true } u)))) ∧
     (∀ wr irq value addr, r.prog[r.pc]? = some (.signal wr irq false value addr 0 0) → r.signalling = false → r.awaiting = [] →
       r.stopping = false →
       exec (.porterInstruction c .ok) s = .next (settle s (signalEnd c { r with lastWrite := none } wr irq value addr .ok u))) ∧
     (r.prog[r.pc]? = some .fence →
       exec (.porterInstruction c .ok) s = .next (settle s (setRun c (pNext { r with lastWrite := none } r.pc) u))) ∧
     (∀ value, r.prog[r.pc]? = some (.fin value) →
       exec (.porterInstruction c .ok) s = .next (settle s (pEnd c r 0 0 value u)))) ∧
  ((∀ (s0 : State) (c : BitVec 6) (r : PRun) (m : PMove), (s0.chan c).run = some r → r.moving = some m → r.stopping = false →
     moverNext s0 = some c.toNat →
     let s : State := { s0 with arb := { s0.arb with lastMover := some c } }
     let p := (s.chan c).cfg.pitch
     let k := min 512 (m.len - m.done)
     let data := swapBytes m.swap (if m.srcCrate then readCrates s (m.src + m.done) k else readHost s p (m.src + m.done) k)
     let t := if m.dstCrate then writeCrates s (m.dst + m.done) data else writeHost s p (m.dst + m.done) data
     let u := t.setChan c { t.chan c with bytes := (t.chan c).bytes + BitVec.ofNat 64 k }
     let r' := { r with lastWrite := if m.dstCrate then r.lastWrite else some (m.dst + m.done + k - 1) }
     (m.done + k < m.len → exec (.porterMoveUnit c .ok) s0 = .next (settle s0
       (setRun c { r' with moving := some { m with done := m.done + k } } u))) ∧
     (m.len ≤ m.done + k → exec (.porterMoveUnit c .ok) s0 = .next (settle s0 (completeReturns (setRun c (pNext r' r'.pc) u))))) ∧
   (∀ (s : State) (c : BitVec 6) (r : PRun) (expired : Bool) (cond : BitVec 2) (timeout : BitVec 32) (addr : BitVec 64)
     (value mask : BitVec 32), (s.chan c).run = some r → r.waiting = true →
     r.prog[r.pc]? = some (.wait cond timeout addr value mask) →
     (waitTest c cond addr value mask s = true →
       exec (.porterWaitPoll c expired .ok) s = .next (settle s (setRun c (pNext r r.pc) s))) ∧
     (waitTest c cond addr value mask s = false →
       exec (.porterWaitPoll c true .ok) s = .next (settle s (pEnd c r 0x0601 0x0E30 0 s)) ∧
       exec (.porterWaitPoll c false .ok) s = .next (settle s s))))

/-- R285 to R287, R310, R317: the commands of the stream block, its time counter and its two ports. R307: the commands of a delivery
queue, each with its whole next state or its refusal. -/
def Obligations.StreamPortsAndDeliveryQueuesTakeCommands : Prop :=
  (∀ s : State,
     (windowsOpen s = true → streamCommitBad s = none → exec .streamCommit s = .next (settle s
       { s with stream := { s.stream with cfg := s.stream.shadow,
                                          tokens := if s.stream.shadow.unmatchedDeliver then 1024 else s.stream.tokens } })) ∧
     (windowsOpen s = true → exec .timeSet s = .next (settle s
       { s with stream := { s.stream with timeSec := s.stream.setSec, timeNs := s.stream.setNs, timeValid := true } })) ∧
     (windowsOpen s = true → exec .timeInvalidate s = .next (settle s { s with stream := { s.stream with timeValid := false } })) ∧
     (∀ v : BitVec 64, windowsOpen s = true →
       exec (.timeStep v) s = .next (settle s { s with stream := timeMoved v.toInt s.stream })) ∧
     (∀ p : BitVec 1, let x := s.port p
       (windowsOpen s = true → portCommitBad s p = none →
         (x.shadow.rate = x.cfg.rate ∧ x.shadow.fec = x.cfg.fec ∧ x.shadow.enable = x.cfg.enable →
           exec (.portCommit p) s = .next (settle s (s.setPort p { x with cfg := x.shadow }))) ∧
         (¬(x.shadow.rate = x.cfg.rate ∧ x.shadow.fec = x.cfg.fec ∧ x.shadow.enable = x.cfg.enable) →
           (let t := loseInFlight p s
            exec (.portCommit p) s = .next (settle s
              (t.setPort p (dropPort { x with cfg := x.shadow, counters := (t.port p).counters })))))) ∧
       (s.dev.phase = .ready → s.dev.bscan = false → x.cfg.enable = true → planRates s p ≠ 0 → x.eqAdapted = true → x.link = false →
         exec (.portLinkChange p true) s = .next (settle s (s.setPort p
           { x with link := true, linkChange := true, anDone := x.cfg.rate == 0 && x.cfg.an, fecLock := x.cfg.fec != 0 }))) ∧
       (x.link = true → exec (.portLinkChange p false) s = .next (settle s (s.setPort p (dropPort x)))) ∧
       (s.dev.phase = .ready → s.dev.bscan = false → x.cfg.enable = true →
         exec (.equaliserAdapted p) s = .next (settle s ((drawFree s).2.setPort p
           { x with eqAdapted := true, eq := BitVec.ofNat 32 (drawFree s).1 &&& 0xFFFFFF3F }))) ∧
       (s.dev.bscan = true → exec (.equaliserAdapted p) s = .next (settle s s) ∧ exec (.portLinkChange p true) s = .next (settle s s)))) ∧
  (∀ (s : State) (d : BitVec 8), windowsOpen s = true →
     let q := s.dq d
     let refused (x : BitVec 16) : State := s.setDq d { q with cmdRefused := true, refuseDetail := x }
     (dqCommitBad s d = none → exec (.dqCommit d) s = .next (settle s (s.setDq d { q with cfg := q.shadow }))) ∧
     (∀ x, dqCommitBad s d = some x →
       exec (.dqCommit d) s = .next (settle s (s.setDq d { q with commitRefused := true, refuseDetail := x }))) ∧
     (q.enabled = true → exec (.dqEnable d) s = .next (settle s (refused 0x0C78))) ∧
     (q.enabled = false → q.cfg.base = 0 ∨ q.cfg.ciAddr = 0 ∨ (s.pitch q.cfg.pitch).cfg.bound = false →
       exec (.dqEnable d) s = .next (settle s (refused 0x0C77))) ∧
     (q.enabled = false → q.cfg.base ≠ 0 → q.cfg.ciAddr ≠ 0 → (s.pitch q.cfg.pitch).cfg.bound = true →
       exec (.dqEnable d) s = .next (settle s (s.setDq d { q with enabled := true, pi := 0, ci := 0, accumulated := 0 }))) ∧
     exec (.dqDisable d) s = .next (settle s (dropWaiting d (s.setDq d { q with enabled := false }))))

/-- R309: after a read of the consumer's count the records that wait are written or dropped; a failed read drops them. -/
def Obligations.ConsumerCountLetsRecordsGo : Prop :=
  ∀ (s : State) (d : BitVec 8), (s.dq d).waiting ≠ [] →
    let q := s.dq d
    let q' := { q with ci := BitVec.ofNat 32 (leNat (readHost s q.cfg.pitch q.cfg.ciAddr.toNat 4)) }
    exec (.dqCiRead d .ok) s = .next (settle s (flushDq d (s.setDq d q'))) ∧
    exec (.dqCiRead d .translationFails) s = .next (settle s (dropWaiting d (s.setDq d { q with ciFault := true }))) ∧
    (∀ r, q.waiting = [r] → q'.room = true → q.enabled = true → (s.pitch q.cfg.pitch).cfg.bound = true →
      exec (.dqCiRead d .ok) s = .next (settle s (writeRecordDq d ((s.setDq d q').setDq d { q' with waiting := [] }) r)))

/-- R285, R286: what a port does with a frame by its length and its FCS, and what it accepts in order. R295, R301, R302, R289: the next
frame of the buffer is taken, tokens come back, entries of the table and of a flow end. -/
def Obligations.FramesAreTakenAndWaitTheirTurn : Prop :=
  (∀ (s : State) (p : BitVec 1) (f : List Byte), s.dev.phase = .ready → portUp s p.toNat = true →
     let u := countFec p (fcsOk f) s
     (f.length < 64 → exec (.frameReceive p f) s = .next (settle s (countAt p.toNat 10 u))) ∧
     (1528 < f.length → exec (.frameReceive p f) s = .next (settle s (countAt p.toNat 2 u))) ∧
     (64 ≤ f.length → f.length ≤ 1528 → fcsOk f = false →
       exec (.frameReceive p f) s = .next (settle s (countAt p.toNat 1 u))) ∧
     (let t := countAt p.toNat 0 u
      let b := f.take (f.length - 4)
      let h : Held := { port := p, sec := t.stream.timeSec, ns := t.stream.timeNs.setWidth 32, rct := false, seq := 0, bytes := b }
      64 ≤ f.length → f.length ≤ 1528 → fcsOk f = true → isPause b = false → ingressBytes t + b.length ≤ ingressSize t →
      t.stream.cfg.prp = false → hostFrame h = false →
       exec (.frameReceive p f) s = .next (settle s { t with stream := { t.stream with held := t.stream.held ++ [h] } }))) ∧
  (∀ s : State,
     (∀ h rest, framesWait s = false → s.dev.phase = .ready → firstFrame s s.stream.held = some (h, rest) →
       exec .frameCheck s = .next (settle s (takeFrame h { s with stream := { s.stream with held := rest } }))) ∧
     exec .unmatchedToken s = .next (settle s
       { s with stream := { s.stream with tokens := min 1024 (s.stream.tokens + 1) } }) ∧
     (∀ src : BitVec 48, exec (.prpEntryAge src) s = .next (settle s
       { s with stream := { s.stream with prp := s.stream.prp.filter (fun e => e.src != src) } })) ∧
     (∀ (i : BitVec 14) (f : Flow), s.flow i = some f → f.graceEnd.isSome = true →
       exec (.keyGraceExpiry i) s = .next (settle s (changeFlow i retireOlder s))))

/-- R301: the order of the checks of a frame, and its verdict: the first failure alone counts. -/
def Obligations.FrameVerdictsFollowTheOrderOfChecks : Prop :=
  ∀ (s : State) (f : Flow) (h : Held) (hd : Head) (p : Parsed),
    (s.locked = true → frameFails s f h hd p = some (3, 0x0C3B)) ∧
    (s.locked = false →
      (∀ d, parseCheck f.record hd p h.bytes = some d → frameFails s f h hd p = some (4, d)) ∧
      (parseCheck f.record hd p h.bytes = none →
        (p.keyId = none → bit f.record.flags 0 = false → frameFails s f h hd p = some (1, 0x0C32)) ∧
        (∀ id, p.keyId = some id → entryOfId f id = none →
          frameFails s f h hd p = some (3, if f.retiredA = some id ∨ f.retiredB = some id then 0x0C3A else 0x0C38)) ∧
        (∀ id b, p.keyId = some id → entryOfId f id = some b →
          (directoryOk s (entryAt f b).handle = false → frameFails s f h hd p = some (3, 0x0C39)) ∧
          (directoryOk s (entryAt f b).handle = true → ∀ d, macCheck f b p = some d → frameFails s f h hd p = some (1, d)) ∧
          (directoryOk s (entryAt f b).handle = true → macCheck f b p = none → bit f.record.flags 1 = true →
            s.stream.timeValid = true → ∀ d, timeCheck s f.record h p = some d → frameFails s f h hd p = some (5, d)) ∧
          (directoryOk s (entryAt f b).handle = true → macCheck f b p = none → bit f.record.flags 1 = false →
            f.tracking = true → ∀ d, replayCheck f p = some d → frameFails s f h hd p = some (2, d)))))

/-- R40, R130: a spare tile joins the stall that comes first of those that wait for one, its store loaded and checked; one whose load
fails its check is retired (the model's choice, log 72). R186, R392, R419: faults of tiles and of what computes on them, a job or
the verification of a keeper's signature, and the self-test that follows. -/
def Obligations.TilesJoinAndRecover : Prop :=
  (∀ (s : State) (n t : Nat),
     leastBy (spareRank s) s.plan.joining = some n → (tilesOf s.plan.spares).head? = some t →
     let u := s.setTile (BitVec.ofNat 6 t) { s.tile (BitVec.ofNat 6 t) with flips := [], reloadDue := false }
     (tileTagsOk s = true → exec .spareJoin s = .next (settle s { u with plan := { s.plan with
       joining := s.plan.joining.erase n, spares := s.plan.spares &&& ~~~(1#64 <<< t),
       members := Tab.set 0#64 n (stallTiles s n ||| (1#64 <<< t)) s.plan.members,
       usedSpares := s.plan.usedSpares + 1, pint := s.plan.pint ||| 1 } })) ∧
     (tileTagsOk s = false → exec .spareJoin s = .next (settle s (retireTile (BitVec.ofNat 6 t) s)))) ∧
  ((∀ (s : State) (j : JobId) (x y : Job) (t : BitVec 6) (dk : Bool), s.job j = some x → x.phase = .running →
     x.units = [.tile t] ∨ (x.units = [] ∧ keeperTile s j = some t) →
     let u := trip .engineFcm (unitReading (t.setWidth 8)) s
     u.job j = some y → y.phase = .running →
     exec (.tileFault j dk) s = .next (settle s
       (tileFaultJob (if y.dkFault && dk then 0x0214 else 0x0216) t.toNat (u.setJob { y with dkFault := dk })))) ∧
   (∀ (s : State) (d : BitVec 16) (t : Nat) (x : Job), tileJob s t = some x →
     (keeperTile s x.id = some (BitVec.ofNat 6 t) → tileFaultJob d t s = keeperAgain s) ∧
     (keeperTile s x.id ≠ some (BitVec.ofNat 6 t) → tileFaultJob d t s = jobFault d [.tile (BitVec.ofNat 6 t)] s x)) ∧
   (∀ (s : State) (t : BitVec 6), (s.tile t).state = .testing →
     exec (.tileSelfTestDone t true) s = .next (settle s (s.setTile t { s.tile t with state := .idle })) ∧
     exec (.tileSelfTestDone t false) s = .next (settle s (retireTile t s))))

/-- R126 to R133: errors of the control stores, the reloads that repair them, and the walk of the scrubber. -/
def Obligations.ControlStoreErrorsAreRepaired : Prop :=
  (∀ (s : State) (t : BitVec 6) (a : BitVec 12), (s.tile t).state ≠ .retired →
    let u := trip .storeEcc (unitReading (t.setWidth 8)) { s with seq := { s.seq with
      eccUncorr := satAdd s.seq.eccUncorr 1, sint := s.seq.sint ||| 2, faultAddr := a.setWidth 14, faultHall := false,
      faultTile := t, faultKind := 1 } }
    let again : Bool := (s.tile t).badWords.any (fun b => b.addr == a && b.reloaded)
    let bad := (u.tile t).badWords.filter (fun b => b.addr != a) ++ [{ addr := a, scrub := u.seq.scrubAt, reloaded := false }]
    (again = true →
      exec (.storeEccUncorrectable t a) s = .next (settle s (retireTile t u))) ∧
    (again = false →
      exec (.storeEccUncorrectable t a) s = .next (settle s (reloadTile false t (tileFaultJob 0x0216 t.toNat
        (u.setTile t { u.tile t with badWords := bad })))))) ∧
  (∀ (s : State) (t : BitVec 6), (s.tile t).state = .reloading →
    let u : State := { s with seq := { s.seq with tileReloads := satAdd s.seq.tileReloads 1 } }
    (tileTagsOk u = true → exec (.tileStoreReloadDone t true) s = .next (settle s (u.setTile t
      { s.tile t with state := .idle, flips := [], badWords := (s.tile t).badWords.map (fun b => { b with reloaded := true }) }))) ∧
    (tileTagsOk u = false → exec (.tileStoreReloadDone t true) s = .next (settle s (retireTile t u))) ∧
    exec (.tileStoreReloadDone t false) s = .next (settle s (retireTile t u))) ∧
  (∀ s : State, upsetTiles s s.seq.scrubAt = [] →
    let walked (t : State) : State := { t with
      seq := { t.seq with scrubAt := t.seq.scrubAt + 1, patchAt := t.seq.patchAt + 1 },
      tiles := Tab.mapVals tileInit (fun _ x =>
        { x with badWords := x.badWords.filter (fun b => b.scrub != t.seq.scrubAt + 1) }) t.tiles }
    let e := unitFlips s.seq s.seq.patchAt
    let w := unitAddr s s.seq.patchAt
    (e = 0 → exec (.scrubTick [] []) s = .next (settle s (walked s))) ∧
    (decodeUnit e = .corrected → exec (.scrubTick [] []) s = .next (settle s (walked
      (storeCorrected 0 w.1 w.2 3 { s with seq := turnUnit s.seq.patchAt (unitErrorBit e) s.seq })))) ∧
    (decodeUnit e = .uncorrectable → exec (.scrubTick [] []) s = .next (settle s (walked (patchRamError w.1 w.2 s))))) ∧
  (∀ (s : State) (a : BitVec 14),
    let u := trip .hallCopy (unitReading 0) s
    let v : State := { u with seq := { u.seq with faultAddr := a, faultHall := true, faultTile := 0, faultKind := 2 } }
    (u.seq.reloading = false → exec (.hallCopyMismatch a) s = .next (settle s
      { v with seq := { v.seq with reloading := true, attempt := 1, mismatches := 1, mismatchAddr := a } })) ∧
    (u.seq.reloading = true → exec (.hallCopyMismatch a) s = .next (settle s
      { v with seq := { v.seq with mismatches := u.seq.mismatches + 1 } }))) ∧
  (∀ s : State, s.seq.reloading = true →
    let u := noteReload s.seq.mismatches (BitVec.ofNat 8 s.seq.attempt) s.seq.mismatchAddr { s with seq := { s.seq with
      reloading := false, attempt := 0, mismatches := 0, hallReloads := satAdd s.seq.hallReloads 1, sint := s.seq.sint ||| 4 } }
    (hallTagsOk s = true → patchTagsOk s = true → exec (.hallReloadDone true) s = .next (settle s (hallReloaded u))) ∧
    (s.seq.attempt = 1 → exec (.hallReloadDone false) s = .next (settle s { s with seq := { s.seq with attempt := 2 } })) ∧
    (s.seq.attempt ≠ 1 → exec (.hallReloadDone false) s = .next (settle s (startFails 0x0B01
      (writeFile (fun b => { b with attempts := b.attempts + 1 }) u)))))

/-- R392: what a dual-rail fault and an error of a data pool do, by the place where they lie. R255, R280: a trip of an engine, the end
of its wipe, and the checks of a run on it: one that fails gives no result. -/
def Obligations.FaultsActByTheirPlace : Prop :=
  (∀ s : State,
     let u := trip .dualRail (unitReading 0) s
     let v := trip .dataEcc (unitReading 0) s
     (∀ t : BitVec 6, let w := trip .dualRail (unitReading (t.setWidth 8)) s
       (w.tile t).state ≠ .retired → (w.tile t).faultAt = none →
       exec (.dualRailFault (.tile t)) s = .next (settle s
         (let r := tileFaultJob 0x0216 t.toNat w
          r.setTile t { r.tile t with state := .testing, faultAt := some r.clock.us, reloadDue := false, core := coreInit, micro := microInit }))) ∧
     (∀ e : BitVec 3, let w := trip .dualRail (unitReading (e.setWidth 8)) s
       (w.engine e).state ≠ .retired → exec (.dualRailFault (.engine e)) s = .next (settle s (retireEngine e 3 w))) ∧
     (∀ a : BitVec 14, u.seq.reloading = false → exec (.dualRailFault (.hall a)) s = .next (settle s
       { u with seq := { u.seq with reloading := true, attempt := 1, mismatches := 1, mismatchAddr := a } })) ∧
     (∀ (j : JobId) (x : Job), u.job j = some x → onCore x = true → x.transfers = 0 →
       exec (.dualRailFault (.aisle j)) s = .next (settle s (u.setJob { x with transfers := 1, retried := true })) ∧
       exec (.dualRailFault (.vault j)) s = .next (settle s (u.setJob { x with transfers := 1, retried := true }))) ∧
     exec (.dataEccError .corrected) s = .next (settle s
       { s with alarm := { s.alarm with dataCorr := satAdd s.alarm.dataCorr 1 } }) ∧
     (∀ c : BitVec 14, exec (.dataEccError (.context c)) s = .next (settle s (staleContext .damaged v c))) ∧
     (∀ n : BitVec 13, exec (.dataEccError (.slot n)) s = .next (settle s (slotBad n 0x0B05 v))) ∧
     (∀ n : BitVec 11, (s.crate n.toNat).isSome = true → exec (.dataEccError (.crate n)) s = .next (settle s (poison v [n.toNat]))) ∧
     (∀ n : BitVec 16, exec (.dataEccError (.frame n)) s = .next (settle s (dropHeld n.toNat v))) ∧
     (∀ (j : JobId) (x : Job), v.job j = some x → onUnits x = true →
       exec (.dataEccError (.workbench j)) s = .next (settle s (jobFault 0x0216 x.units v x))) ∧
     (∀ (t : BitVec 6) (c : BitVec 14), (v.tile t).shelf = some c → (∀ x, tileJob v t.toNat = some x → residentEncaps x = false) →
       exec (.dataEccError (.shelf t)) s = .next (settle s (staleContext .damaged v c)))) ∧
  ((∀ (s : State) (e : BitVec 3), (s.engine e).state ≠ .retired →
     let u := s.setEngine e { s.engine e with trips := satAdd (s.engine e).trips 1, tripAt := some s.clock.us }
     let v := trip .engineFcm (unitReading (e.setWidth 8)) { u with engInt := u.engInt ||| 1 }
     ((∀ n, (s.engine e).tripAt = some n → n + 1000000 < s.clock.us) →
       exec (.engineFcmTrip e) s = .next (settle s (engineFaultJob e v))) ∧
     ((∃ n, (s.engine e).tripAt = some n ∧ s.clock.us ≤ n + 1000000) →
       exec (.engineFcmTrip e) s = .next (settle s (retireEngine e 1 v)))) ∧
   (∀ (s : State) (e : BitVec 3), (s.engine e).state = .wiping →
     exec (.engineWipeDone e true) s = .next (settle s (s.setEngine e { clearEngine (s.engine e) with state := .idle })) ∧
     exec (.engineWipeDone e false) s = .next (settle s (retireEngine e 2 (trip .engineFcm (unitReading (e.setWidth 8)) s)))) ∧
   (∀ (s : State) (x : Job) (e : BitVec 3) (r : Ran), engineOf x = some e →
     checkedRun s x true true r = r ∧
     (∀ ver, (checkedRun s x false ver r).state = engineTrip e s ∧ (checkedRun s x false ver r).out = none) ∧
     (checkedRun s x true false r).state = engineFaultJob e (trip .engineFcm (unitReading (e.setWidth 8)) s) ∧
     (checkedRun s x true false r).out = none))

/-- R448, R457, R464, R465: what releases internal reset runs the start sequence, after the resets of R452 where power stayed. R448,
R449, R457, R472: internal reset with the levels of the balls under it, a start that takes too long, and the supplies of the battery
domain. -/
def Obligations.ResetsAndSuppliesAct : Prop :=
  (∀ (s : State) (i : StartInput),
     (s.dev.phase = .unpowered → exec (.powerOnReset i) s = .next (startSequence i s)) ∧
     (s.dev.phase = .restarting → exec (.failedStartRestart i) s = .next (startSequence i (resetPins (logicReset (cutJobs s))))) ∧
     (s.dev.restartDue = true → restartHeld s = false → alive s = true →
       exec (.deviceRestart i) s = .next (startSequence i (resetPins (logicReset (cutJobs s))))) ∧
     (s.dev.phase = .dormant → exec (.dormantStayTimeout i) s = .next (startSequence i (resetPins (logicReset (cutJobs s)))))) ∧
  (∀ s : State,
     (s.dev.phase = .boot → s.battery.inStart = true → exec .startTimeout s = .next (settle s (startFails 0x0A01 s))) ∧
     (s.dev.phase = .boot → s.battery.inStart = false →
       exec .startTimeout s = .next (settle s (startFails 0x0A01 (raiseAttempts s)))) ∧
     (s.dev.phase ≠ .unpowered → ∃ t, exec .internalResetAssert s = .next t ∧ t.dev.phase = .unpowered ∧ t.pending = s.pending ∧
       t.jobs = [] ∧ t.queues = [] ∧ t.contexts = [] ∧ t.vault = State.reset.vault ∧ t.rng = State.reset.rng ∧
       t.dev.uid = s.dev.uid ∧ t.dev.orderCode = s.dev.orderCode ∧
       (s.life.decision = none → t.life.fuses = s.life.fuses) ∧
       (s.life.decision = none → s.alarm.evFresh = 0 → s.battery.wroteAt ≠ s.clock.us → t.battery = s.battery) ∧
       (∀ p ∈ [(Pin.dormantN, true), (.avsClk, false), (.avsMdata, true), (.dbgTxd, true), (.tdo, false), (.cardRstN, false),
         (.cardClk, false), (.cardIo, false), (.cardVccEn, false), (.sdClk, false), (.serdesTx, false)], Out.pin p.1 p.2 ∈ t.out)) ∧
     (∃ t, exec .batteryDomainPowerLoss s = .next t ∧ t.battery.powered = false ∧ t.battery.fileGood = false ∧
       t.battery.rootKey = none ∧ t.battery.lockLatch = false ∧ t.battery.buffer = [] ∧ t.battery.history = []) ∧
     (s.battery.powered = false → exec .batteryDomainPowerUp s = .next (settle s { s with
       battery := { lostFile s.battery with powered := true, seconds := 0, secondsCopy := 0 },
       clock := { s.clock with batFrac := 0 } })) ∧
     (∀ b : Bool, exec (.batterySwitchover b) s = .next (settle s { s with battery := { s.battery with onBattery := b } })) ∧
     exec .crystalStopped s = .next (settle s { s with battery := { s.battery with crystal := false } }))

/-- R457, R460: a start whose steps pass reaches READY with ATTEMPTS and BOOT_REASON 0; one that fails records its reason, and the part
restarts. -/
def Obligations.StartsEndReadyOrRecorded : Prop :=
  ∀ (i : StartInput) (s : State), i.completes = true →
    match startSteps i (raiseAttempts s) with
    | .inr _ => (startOn i s).dev.phase = .ready ∧ (startOn i s).battery.attempts = 0 ∧ (startOn i s).dev.bootReason = 0
    | .inl (reason, u) =>
      (startOn i s).dev.phase = .restarting ∧ (startOn i s).dev.bootReason = reason ∧ (startOn i s).jobs = [] ∧
      (startOn i s).battery.history = (reason :: u.battery.history).take 6

/-- R29, R452, R467: the resets of PCIe, the restart that a host asks for, and a write of PACE_CFG. -/
def Obligations.FunctionResetsAndPowerRegisters : Prop :=
  ∀ s : State,
    (alive s = true →
      let u : State := { disableDqs (resetEveryPitch .pcie s) with pcie := Pcie.reset, bus := Bus.reset }
      exec .functionLevelReset s = .next (settle s u) ∧
      ∀ strap : Bool, exec (.pcieConventionalReset strap) s = .next (settle s
        { u with dev := { u.dev with pciId := if strap then 0x0C12 else 0x0C18 } })) ∧
    (∀ v : BitVec 32, windowsOpen s = true → bits v 0 3 = 1#3 → bits v 16 16 = 0x5253#16 →
      exec (.pwrRestart v) s = .next (settle s { s with dev := { s.dev with restartDue := true } })) ∧
    (∀ v : BitVec 32, windowsOpen s = true →
      (1000 ≤ (bits v 0 12).toNat → (bits v 0 12).toNat ≤ 1760 → exec (.paceTargetWrite v) s = .next (settle s
        { s with pace := { s.pace with avsRail := bits v 16 4, target := bits v 0 12 } })) ∧
      ((bits v 0 12).toNat < 1000 ∨ 1760 < (bits v 0 12).toNat → exec (.paceTargetWrite v) s = .next (settle s
        { s with pace := { s.pace with refused := true } })))

/-- R450, R451: a sample of the pace loop and the voltage that it commands, written and read back at the rail that AVS_RAIL selects, and
what a response of the regulator does. That the status is read after it is the model's choice (log 72). -/
def Obligations.PaceLoopCommandsItsVoltage : Prop :=
  ∀ s : State,
    let frames (mv : BitVec 12) : List Out :=
      [.avs s.pace.avsRail .readStatus, .avs s.pace.avsRail .readVout, .avs s.pace.avsRail (.write mv)]
    (∀ beat : BitVec 12, s.pace.running = true → alive s = true →
      let slow : State := if 1800 < beat.toNat ∧ s.pace.beat.toNat ≤ 1800 then
        { s with pace := { s.pace with pint := s.pace.pint ||| 4 } } else s
      let p : Pace := { slow.pace with beat := beat, commandAge := min 10 (slow.pace.commandAge + 1) }
      let mv := nextVolts p.commanded.toNat beat.toNat p.target.toNat
      let hold := p.avsFault = true ∨ p.commandAge < 10 ∨ mv = p.commanded.toNat
      let after (t : State) : State := if beat = s.pace.beat then t else t.jobs.foldl (fun s x => extendRun (repaceJob s x) x) t
      (hold → exec (.paceSample beat) s = .next (settle s (after { slow with pace := p }))) ∧
      (¬hold → exec (.paceSample beat) s = .next (settle s (after
        { slow with pace := { p with commanded := BitVec.ofNat 12 mv, commandAge := 0 },
                    alarm := { slow.alarm with railTracked := slow.alarm.railTracked.set 0 (BitVec.ofNat 12 mv) },
                    out := frames (BitVec.ofNat 12 mv) ++ slow.out })))) ∧
    (∀ r : AvsResponse, alive s = true →
      let bad : State := { s with pace := { s.pace with badFrames := min 3 (s.pace.badFrames + 1) } }
      let ok : State := { s with pace := { s.pace with badFrames := 0, readback := r.readback } }
      (r.good = false → bad.pace.badFrames ≠ 3 → exec (.avsFrameResponse r) s = .next (settle s bad)) ∧
      (r.good = false → bad.pace.badFrames = 3 → exec (.avsFrameResponse r) s = .next (settle s (avsFails false bad))) ∧
      (r.good = true → readbackOff s.pace.commanded r.readback = true → r.lasted = true →
        exec (.avsFrameResponse r) s = .next (settle s (avsFails true ok))) ∧
      (r.good = true → readbackOff s.pace.commanded r.readback = false → s.pace.avsFault = false →
        exec (.avsFrameResponse r) s = .next (settle s ok)) ∧
      (r.good = true → readbackOff s.pace.commanded r.readback = false → s.pace.avsFault = true →
        exec (.avsFrameResponse r) s = .next (settle s
          { ok with pace := { ok.pace with avsFault := false, pint := s.pace.pint ||| 2 } }))) ∧
    (s.pace.avsFault = true → alive s = true → 
      exec .avsRetry s = .next (settle s { s with out := frames s.pace.commanded ++ s.out }))

/-- R383, R387, R388: a source that trips is counted and recorded, and both comparators evaluate it; at LOCK or ERASE it waits for their
decision with TAMPER_OUT_N low. That NOTE and HALT act once A has decided is the model's choice (log 72). -/
def Obligations.AlarmTripsCountAndAct : Prop :=
  ∀ (s : State) (i : AlarmSource) (v : TripReading), alive s = true → windowLeft s i v = true →
    let w := keptReading s i v
    let r := responseOf s i
    let n := note 0x0901 none (wordBytes 2 (sourceCode i) ++ [r.setWidth 8, 0] ++ tripDetail w)
      (alarmInt 1 (leaveWindow i w (tamperInput i true
        (s.setSource i { s.source i with inForce := true, trips := satAdd (s.source i).trips 1 }))))
    let u := if i = .vaultIntegrity then tagFails (w.measured.setWidth 13) n else n
    let joined (t : State) : State :=
      let d := t.alarm.decision.getD { sources := [], response := 0 }
      { t with alarm := { t.alarm with decision := some { d with
          sources := d.sources ++ [(i, w)], response := if v.agreesA then maxResp d.response r else d.response } } }
    (v.agreesA = true → r = 0 → exec (.alarmTrip i v) s = .next (settle s
      (joined (tripEvidence i w 0 false (u.setSource i { u.source i with acting := 0 }))))) ∧
    (v.agreesA = true → r = 1 → exec (.alarmTrip i v) s = .next (settle s
      (joined (tripEvidence i w 1 false (haltEffect i (u.setSource i { u.source i with acting := 1 })))))) ∧
    (v.agreesA = true → 2 ≤ r.toNat → exec (.alarmTrip i v) s = .next (settle s
      (joined (if u.battery.lockLatch then u else { u with out := .pin .tamperOutN false :: u.out })))) ∧
    (v.agreesA = false → exec (.alarmTrip i v) s = .next (settle s (joined u)))

/-- R185, R365, R388, R389: comparator B agrees with A and the decision acts, or it does not and DECISION locks the part; an alarm is
decided first, then the life cycle, then a result. -/
def Obligations.SecondComparatorDecides : Prop :=
  ∀ s : State,
    (∀ d : Decision, s.alarm.decision = some d →
      let u : State := { s with alarm := { s.alarm with decision := none } }
      exec (.decisionSecond true) s = .next (settle s (decisionActs d u)) ∧
      exec (.decisionSecond false) s = .next (settle s
        (raiseDecision ((unrecorded u d).foldl (fun t e => tripEvidence e.1 e.2.1 e.2.2 false t) u)))) ∧
    (∀ d : LifeDecision, s.alarm.decision = none → s.life.decision = some d → d.agreed = false →
      exec (.decisionSecond true) s = .next (settle s (lifeAgrees d s)) ∧
      exec (.decisionSecond false) s = .next (settle s (lifeDisagrees d s))) ∧
    (∀ x : Job, s.alarm.decision = none → s.life.decision = none → s.jobs.filter awaitsVerdict = [x] →
      exec (.decisionSecond true) s = .next (settle s ((drawFree s).2.setJob { x with verdict := .agreed })) ∧
      exec (.decisionSecond false) s = .next (settle s (raiseDecision (drawFree s).2)))

/-- R380, R382, R384, R390, R396: the readings that clear, the temperature, the lid, and the watch on the backup cell. That comparator
B's view of the lid on the cell is open is log 72. R351, R386, R389, R390: an event on the backup cell locks and, at ERASE, zeroes
the root key; two comparators that differ lock. -/
def Obligations.DetectorsAndTheBackupCell : Prop :=
  (∀ s : State,
     (∀ i : AlarmSource, exec (.alarmSourceClear i) s = .next (settle s
       (if stillFailing s i then s else tamperInput i false (s.setSource i { s.source i with inForce := false, acting := 0 })))) ∧
     (∀ m : Monitor,
       let t : State := { s with alarm := { s.alarm with badRails := s.alarm.badRails.filter (· ≠ m) } }
       exec (.railWindowReturn m) s = .next (settle s (if nvHeld s then drainEvidence t else t))) ∧
     (∀ (t0 t1 t2 t3 : BitVec 12) (a : Int), alive s = true → s.alarm.tjAcc = some a → nvHeld s = false →
       let tj := maxTemp (maxTemp t0 t1) (maxTemp t2 t3)
       tjBad tj.toInt (a / 3000000) = false → exec (.tempSample t0 t1 t2 t3) s = .next (settle s
         { s with alarm := { s.alarm with tj := tj, tjAcc := some (a + (tj.toInt * 3000000 - a) / 3000000),
                                          badRails := s.alarm.badRails.filter (· ≠ .tj) } })) ∧
     (∀ level : Bool, s.alarm.lid ≠ level →
       let u : State := { s with alarm := { s.alarm with lid := level } }
       (onCell s = true → exec (.lidEdge level) s = .next (settle s
         (batteryEvent .lid (unitReading 0) ((drawFree u).1 % 2 == 0) (drawFree u).2))) ∧
       (onCell s = false → alive s = true → exec (.lidEdge level) s = .next (settle s (trip .lid (unitReading 0) u)))) ∧
     (∀ r : BatteryReading, onCell s = true →
       exec (.batterySample r) s = .next (settle s
         (((abnormalNow r).filter (fun i => !s.battery.abnormal.contains i)).foldl
           (fun t i => batteryEvent i (batteryReadingOf r i) r.agreesB t)
           { s with battery := { s.battery with abnormal := abnormalNow r, vbatMv := r.vbatMv },
                    alarm := { s.alarm with loops := r.loops, mesh := r.meshFault } })))) ∧
  (∀ (s : State) (i : AlarmSource) (v : TripReading),
     (2 ≤ (batteryResponse s i).toNat → (batteryEvent i v true s).battery.lockLatch = true ∧
       (s.battery.lockLatch = false → (batteryEvent i v true s).battery.lockSource = sourceCode i)) ∧
     (batteryResponse s i = 3 → (batteryEvent i v true s).battery.rootKey = none) ∧
     (batteryEvent i v false s).battery.lockLatch = true ∧ (batteryEvent i v false s).battery.rootKey = s.battery.rootKey ∧
     (s.battery.lockLatch = false → (batteryEvent i v false s).battery.lockSource = sourceCode .decision))

/-- R320, R321, R323, R326: a sample of the beans, the balancing loop of one bean, and the end of a retest. R324, R328 to R331: a whole
block goes into the carafe and serves who waits, and what the holds and the feeds do. -/
def Obligations.BeansFillTheCarafe : Prop :=
  (∀ s : State,
     (∀ bits : BitVec 80, s.rng.started = false → exec (.beanSample bits) s = .next (settle s s)) ∧
     (∀ bits : BitVec 80, s.rng.started = true → exec (.beanSample bits) s = .next (settle s
       (feedMask ((List.range 80).foldl (fun t n => beanSample (grinding s) t n (bit bits n)) s) bits))) ∧
     (∀ n : BitVec 7, let b := s.bean n.toNat
       n.toNat < 80 → 4096 ≤ b.winCount →
       (2112 < b.winOnes → b.winOnes ≤ 2560 → b.trim ≠ 0 → exec (.beanTrimWindow n) s = .next (settle s (s.setBean n.toNat
         { b with trim := b.trim - 1, ones := BitVec.ofNat 13 b.winOnes, winCount := 0, winOnes := 0 }))) ∧
       (1536 ≤ b.winOnes → b.winOnes < 1984 → b.trim ≠ 127 → exec (.beanTrimWindow n) s = .next (settle s (s.setBean n.toNat
         { b with trim := b.trim + 1, ones := BitVec.ofNat 13 b.winOnes, winCount := 0, winOnes := 0 }))) ∧
       (1984 ≤ b.winOnes → b.winOnes ≤ 2112 → exec (.beanTrimWindow n) s = .next (settle s (s.setBean n.toNat
         { b with ones := BitVec.ofNat 13 b.winOnes, winCount := 0, winOnes := 0 })))) ∧
     (∀ n : BitVec 7, (s.bean n.toNat).state = .testing →
       exec (.beanRetestDone n 0) s = .next (settle s (judgeSources (s.setBean n.toNat { s.bean n.toNat with state := .inService, delay := [] }))) ∧
       exec (.beanRetestDone n 1) s = .next (settle s (judgeSources (excludeBean n.toNat 1 s))) ∧
       exec (.beanRetestDone n 2) s = .next (settle s (judgeSources (excludeBean n.toNat 2 s)))) ∧
     (windowsOpen s = true → exec .retestRetired s = .next (settle s ((List.range 80).foldl testAgain s)))) ∧
  (∀ s : State,
     (s.rng.started = true → s.rng.mainFail = false → 2048 ≤ s.rng.grind.length → s.rng.carafe.length + 32 ≤ 65536 →
       exec .grindBlock s = .next (settle s (serveRequests s.rng.requests.length { s with rng := { s.rng with
         grind := s.rng.grind.drop 2048,
         carafe := s.rng.carafe ++ sha256 ((List.range 256).map
           (fun i => (packBits 8 ((s.rng.grind.drop (8 * i)).take 8) : Byte))) } }))) ∧
     (let due (f h : Bool) (since : Nat) : Prop := f = true ∧ h = false ∧ since + 1000 * holdMs s ≤ s.clock.us
      let main := due s.rng.mainFail s.rng.mainHold s.rng.mainSince
      let mask := due s.rng.maskFail s.rng.maskHold s.rng.maskSince
      (main → (mask → s.rng.mainSince ≤ s.rng.maskSince) → exec .entropyHoldExpiry s = .next (settle s (mainExpires s))) ∧
      (mask → (main → s.rng.maskSince < s.rng.mainSince) → exec .entropyHoldExpiry s = .next (settle s (maskExpires s))) ∧
      (¬main → ¬mask → exec .entropyHoldExpiry s = .next (settle s s))) ∧
     (let t := (drawFree s).2
      s.rng.maskFail = false → s.rng.feedsStopped = true → exec .maskFeedsOpen s = .next (settle s
        { t with rng := { t.rng with maskReg := BitVec.ofNat 4096 (drawFree s).1, feedsStopped := false } })) ∧
     (s.rng.maskFail = true ∨ s.rng.feedsStopped = false → exec .maskFeedsOpen s = .next (settle s s)) ∧
     (∀ p : BitVec 8, (s.drbg p).seeded = true →
       exec (.drbgReseedDue p) s = .next (settle s (s.setDrbg p { s.drbg p with due := true }))))

/-- R400, R402, R403, R405: the event at the head of the queue is written to its slot, the last one with the record that closes the
Ledger; the tally and the operating time are saved. -/
def Obligations.LedgerWritesItsRecords : Prop :=
  ∀ s : State, nvReady s = true →
    (∀ e rest, s.ledger.clearing = false → s.ledger.queue = e :: rest → s.ledger.slots.length < 16382 →
      let l := putRecord (recordOf e s.ledger.droppedBefore) (tallyWrite s.ledger)
      exec .ledgerRecordWrite s = .next (settle s { s with ledger := { l with queue := rest, droppedBefore := false } })) ∧
    (∀ e rest, s.ledger.clearing = false → s.ledger.queue = e :: rest → s.ledger.slots.length = 16382 →
      let l := putRecord (recordOf e s.ledger.droppedBefore) (tallyWrite s.ledger)
      exec .ledgerRecordWrite s = .next (settle s (closeFull { s with ledger := { l with queue := rest, droppedBefore := false } }))) ∧
    (s.ledger.clearing = false → exec .ledgerTallyWrite s = .next (settle s { s with ledger := tallyWrite s.ledger })) ∧
    (s.nv.optimeNext = true →
      exec .optimeSave s = .next (settle s { s with nv := { s.nv with optimeB := some s.optime, optimeNext := false } })) ∧
    (s.nv.optimeNext = false →
      exec .optimeSave s = .next (settle s { s with nv := { s.nv with optimeA := some s.optime, optimeNext := true } }))

/-- R411 to R415, R418, R419: the keeper socket, the activation of its card, what ends or repeats an exchange, and the tile that
verifies a card's signature. R422, R427: the archive socket, and the ends of its job. -/
def Obligations.CardEventsTakeEffect : Prop :=
  (∀ s : State,
     (s.cards.keeperIn = false → exec .keeperCardInsert s = .next (settle s
       { s with cards := { s.cards with keeperIn := true, cint := s.cards.cint ||| 1 } })) ∧
     (s.cards.keeperIn = true → exec .keeperCardRemove s = .next (settle s
       (keeperAbort 0x0FA2 { s with cards := { s.cards with keeperIn := false, cint := s.cards.cint ||| 2 } }))) ∧
     (∀ q : Session, s.cards.session = some q → q.endsAt ≤ s.clock.us → exec .quorumSessionExpiry s = .next (settle s
       { s with cards := { s.cards with session := none, lastSerials := q.serials, cint := s.cards.cint ||| 8 } })) ∧
     (∀ q : Session, s.cards.session = some q → s.clock.us < q.endsAt → exec .quorumSessionExpiry s = .next (settle s s)) ∧
     (∀ k : KeeperRun, s.cards.keeper = some k →
       (∀ a : List Byte, k.stage = .atr →
         (atrParse a = none → exec (.atrReceive a) s = .next (settle s (keeperAbort 0x0FA1 s))) ∧
         (∀ t, atrParse a = some t → k.second = true → exec (.atrReceive a) s = .next (settle s
           (sendIfs k { s with cards := { s.cards with ifsc := t.ifsc, bwi := t.bwi, cwi := t.cwi } }))) ∧
         (∀ t, atrParse a = some t → k.second = false →
           let u : State := { s with cards := { s.cards with ifsc := t.ifsc, bwi := t.bwi, cwi := t.cwi } }
           let req : Bytes := if pairOk t.ta1 then [0xFF, 0x11, t.ta1] else [0xFF, 0x01]
           (t.ta2.isSome = true → pairOk t.ta1 = true → exec (.atrReceive a) s = .next (settle s (sendIfs k (setPair t.ta1 u)))) ∧
           (t.ta2.isSome = true → pairOk t.ta1 = false → exec (.atrReceive a) s = .next (settle s (keeperAbort 0x0FA1 u))) ∧
           (t.ta2 = none → exec (.atrReceive a) s = .next (settle s
             (cardSend (req ++ [xorSum req]) (setKeeper { k with stage := .pps (req ++ [xorSum req]) } u)))))) ∧
       (∀ req : Bytes, k.stage = .pps req →
         (req.length = 4 → exec (.ppsResponse req) s = .next (settle s (sendIfs k (setPair ((req[2]?).getD 0x11) s)))) ∧
         (∀ r : List Byte, r ≠ req → r ≠ [0xFF, 0x01, 0xFE] → k.second = true →
           exec (.ppsResponse r) s = .next (settle s (keeperAbort 0x0FA1 s))) ∧
         (∀ r : List Byte, r ≠ req → r ≠ [0xFF, 0x01, 0xFE] → k.second = false →
           exec (.ppsResponse r) s = .next (settle s (activate { k with second := true } (deactivate s)))) ∧
         (k.second = true → exec .cardWaitTimeout s = .next (settle s (keeperAbort 0x0FA1 s))) ∧
         (k.second = false → exec .cardWaitTimeout s = .next (settle s (activate { k with second := true } (deactivate s))))) ∧
       (k.stage = .atr → exec .cardWaitTimeout s = .next (settle s (keeperAbort 0x0FA1 s))) ∧
       (k.stage = .identity ∨ k.stage = .authorise ∨ k.stage = .ifs →
         exec .cardBlockTimeout s = .next (settle s (blockError k false s)) ∧
         (∀ b : List Byte, t1Good b = false → exec (.cardBlockReceive b) s = .next (settle s
           (blockError k (t1Long b && xorSum b != 0) s))) ∧
         (∀ b : List Byte, t1Good b = true → k.resyncing = false → (t1Pcb b).getLsbD 7 = false →
           exec (.cardBlockReceive b) s = .next (settle s (takeI k (t1Pcb b) (t1Inf b) s))) ∧
         (∀ b : List Byte, t1Good b = true → k.resyncing = false → (t1Pcb b).getLsbD 7 = true → (t1Pcb b).getLsbD 6 = false →
           exec (.cardBlockReceive b) s = .next (settle s (takeR k (t1Pcb b) (t1Inf b) s))) ∧
         (∀ b : List Byte, t1Good b = true → k.resyncing = false → (t1Pcb b).getLsbD 7 = true → (t1Pcb b).getLsbD 6 = true →
           exec (.cardBlockReceive b) s = .next (settle s (takeS k (t1Pcb b) (t1Inf b) s)))) ∧
       (∀ auth : Bool, k.stage = .checking auth →
         (∀ b : List Byte, exec (.cardBlockReceive b) s = .next (settle s s)) ∧
         (∀ u, k.unit = some u → k.doneAt ≤ s.clock.us → tickKeeper s =
           let k' : KeeperRun := { k with unit := none, faults := 0, avoid := none }
           checkDone auth k' (setKeeper k' (leaveKeeper s))) ∧
         (∀ u, k.unit = some u → s.clock.us < k.doneAt → tickKeeper s = s) ∧
         (∀ t ts, k.unit = none → placing s = true → checkTiles s k = t :: ts → tickKeeper s = takeCheck auth k t s) ∧
         (k.unit = none → checkTiles s k = [] → tickKeeper s = s)))) ∧
  (∀ s : State,
     (∀ c : ArcCard, s.cards.arcCard = none →
       let bs : Tab Bytes := c.blocks.foldl (fun t w => Tab.set (zeros 512) w.1 (fit 512 w.2) t) []
       exec (.arcCardInsert c) s = .next (settle s
         { s with cards := { s.cards with arcCard := some { c with blocks := bs }, arcGiven := 0, cint := s.cards.cint ||| 0x10 } })) ∧
     (s.cards.arcCard.isSome = true →
       let t := arcJobEnds 0x0FB6 archiveOps s
       exec .arcCardRemove s = .next (settle s
         { t with cards := { t.cards with arcCard := none, arcMount := none, cint := t.cards.cint ||| 0x20 } })) ∧
     (∀ x : Job, s.jobs.find? (fun y => y.phase = .running ∧ archiveOps.contains y.desc.opcode.toNat) = some x →
       (∀ w, s.cards.arcWork = some w → w.writes ≠ [] → archiveOps.contains x.desc.opcode.toNat = true →
         exec .arcBusyTimeout s = .next (settle s (breakJob s x 0x0601 0x0FB7))) ∧
       (s.cards.arcMount = none → x.desc.opcode = 0x0F68 ∨ x.desc.opcode = 0x0F69 →
         exec .arcReadyTimeout s = .next (settle s (breakJob s x 0x0601 0x0FB2)))))

/-- R434 to R436, R445: the commands of a link, its training, and the handshake that follows. R435, R436, R446: each side takes the step
that is due to it; a message that is not due only shows whether its sender is the peer. -/
def Obligations.LinksTrainAndHandshake : Prop :=
  (∀ (s : State) (k : BitVec 2),
     (windowsOpen s = true → s.links.beatsShadow = 0 → exec .linkCommit s = .next (settle s
       (linkInt 16 { s with links := { s.links with commitDetail := 0x0FCA } }))) ∧
     (windowsOpen s = true → s.links.beatsShadow ≠ 0 → exec .linkCommit s = .next (settle s
       ([0#2, 1#2, 2#2].foldl readmit { s with links := { s.links with
         commitDetail := 0, spill := s.links.spillShadow, spillBeats := s.links.beatsShadow, allow := s.links.allowShadow } }))) ∧
     (windowsOpen s = true → s.dev.phase = .ready → exec (.retrain k) s = .next (settle s (dropLink k .training s))) ∧
     (∀ l : Link, s.link k = some l →
       (s.dev.phase = .ready → l.state = .down →
         exec (.linkTrainAttempt k) s = .next (settle s (s.setLink k (bareLink l .training)))) ∧
       (∀ n : BitVec 3, s.dev.phase = .ready → l.state = .training ∨ l.state = .refused →
         let u := s.setLink k { l with state := .handshake, step := 0, lanes := if n = 4 then 2 else 1 }
         (n ≠ 4 → n ≠ 2 → l.state = .training →
           exec (.linkTrainingComplete k n) s = .next (settle s (s.setLink k { l with state := .down }))) ∧
         (n ≠ 4 → n ≠ 2 → l.state = .refused → exec (.linkTrainingComplete k n) s = .next (settle s s)) ∧
         (n = 4 ∨ n = 2 → initiates u k = true →
           exec (.linkTrainingComplete k n) s = .next (settle s (sendStep1 k u))) ∧
         (n = 4 ∨ n = 2 → initiates u k = false → exec (.linkTrainingComplete k n) s = .next (settle s u))) ∧
       (l.state = .handshake ∨ (l.state = .up ∧ l.rekeying = true) → exec (.handshakeTimeout k) s = .next (settle s
         (refuseLink k 0x0FC9 (peerPart s k) l.peerUid s))) ∧
       (l.state = .up → l.rekeying = false →
         let u := s.setLink k { l with rekeying := true, step := 0 }
         (initiates u k = true → exec (.sessionRekey k) s = .next (settle s (sendStep1 k u))) ∧
         (initiates u k = false → exec (.sessionRekey k) s = .next (settle s u))))) ∧
  (∀ (s : State) (k : BitVec 2) (m : HandshakeMsg) (l : Link),
     let u := countRx k s
     u.link k = some l → l.state = .handshake →
     (initiates u k = true → m.step = 2 → l.step = 1 →
       exec (.handshakeMessage k m) s = .next (settle s (takeStep2 k l m u))) ∧
     (initiates u k = true → (m.step ≠ 2 ∨ l.step ≠ 1) →
       (∀ d, m.step ≠ 3 → peerBad u k m = some d →
         exec (.handshakeMessage k m) s = .next (settle s (refuseLink k d m.linkId (readUid d m) u))) ∧
       (m.step = 3 ∨ peerBad u k m = none → exec (.handshakeMessage k m) s = .next (settle s u))) ∧
     (initiates u k = false → m.step = 1 → l.step = 0 →
       exec (.handshakeMessage k m) s = .next (settle s (takeStep1 k { l with rekeying := false } m u))) ∧
     (initiates u k = false → m.step = 3 → l.step = 2 →
       exec (.handshakeMessage k m) s = .next (settle s (takeStep3 k l m u))))

/-- R437, R440: heartbeats, loads, and what an UP link does with a message or its absence. R438 to R443: jobs, results and flow messages
that cross a link. -/
def Obligations.UpLinksCarryTheirMessages : Prop :=
  (∀ (s : State) (k : BitVec 2),
     exec .loadAdvertise s = .next (settle s ([0#2, 1#2, 2#2].foldl (fun t j => if linkUp s j then
       sendLink j 6 ((ownLoads s).flatMap (wordBytes 4) ++ [flag 8 (decide (1024 ≤ spilledIn s))]) t else t) s)) ∧
     (linkUp s k = true →
       exec (.heartbeatSend k) s = .next (settle s (sendLink k 5 [] s)) ∧
       exec (.peerLost k) s = .next (settle s (dropLink k .down s)) ∧
       (∀ l : Link, (countRx k s).link k = some l →
         exec (.heartbeatReceive k .heartbeat true) s = .next (settle s (countRx k s)) ∧
         (∀ beats full, exec (.heartbeatReceive k (.load beats full) true) s = .next (settle s
           ((countRx k s).setLink k { l with load := beats.take 6, loadFull := full }))) ∧
         (∀ m, exec (.heartbeatReceive k m false) s = .next (settle s
           (dropLink k .down ((countRx k s).setLink k { l with tagFail := satAdd l.tagFail 1 }))))))) ∧
  ((∀ (s : State) (k : BitVec 2) (n : BitVec 32) (p : BitVec 8) (d : Desc) (inp aux : List Byte), linkUp s k = true →
     let u := countRx k s
     let x := peerJob k 0 n p d inp aux
     let y : Job := { peerJob k 1 n p d inp aux with spilled := true }
     (u.job x.id = none →
       exec (.jobForwardReceive k n p d inp aux) s = .next (settle s { u with jobs := u.jobs ++ [x] })) ∧
     (∀ (key : List Byte) (ks : List (BitVec 32 × Key)), u.locked = false → spilledIn u < 1024 → openKeys u k n 2 key = some ks →
       u.job y.id = none →
       exec (.spillReceive k n p d inp aux key) s = .next (settle s { u with jobs := u.jobs ++ [{ y with lent := ks }] })) ∧
     (∀ key : List Byte, u.locked = true ∨ 1024 ≤ spilledIn u ∨ openKeys u k n 2 key = none →
       exec (.spillReceive k n p d inp aux key) s = .next (settle s (returnLost y u)))) ∧
   (∀ (s : State) (j : JobId) (r : PeerResult) (x : Job) (k : BitVec 2), s.job j = some x → x.forwarded = some k →
     x.phase = .running → x.out = none →
     let u := countRx k s
     (x.spilled = false → x.desc.opcode = 0x0F20 → r.status ≠ stOk →
       exec (.jobForwardResult j r) s = .next (settle s (allocElsewhere x k u))) ∧
     (x.spilled = false → x.desc.opcode ≠ 0x0F20 ∨ r.status = stOk →
       exec (.jobForwardResult j r) s = .next (settle s (u.setJob { x with out := some (peerOut r) }))) ∧
     (x.spilled = true → r.status ≠ 0x0601 ∨ r.detail ≠ 0x0FC0 →
       exec (.spillResult j r) s = .next (settle s (u.setJob { x with out := some (peerOut r) }))) ∧
     (x.spilled = true → r.status = 0x0601 → r.detail = 0x0FC0 →
       exec (.spillResult j r) s = .next (settle s (lostAt k u x)))) ∧
   (∀ (s : State) (k : BitVec 2) (home : BitVec 14), linkUp s k = true →
     let u := countRx k s
     let part := peerPart u k
     (∀ p, exec (.flowMirrorUpdate k (.ask home p)) s = .next (settle s (standbyAsked part home p u))) ∧
     exec (.flowMirrorUpdate k (.denied home)) s = .next (settle s (standbyDenied part home u)) ∧
     (∀ image i, standbyOf u part home = some i →
       exec (.flowMirrorUpdate k (.state home image)) s = .next (settle s (changeFlow i (withImage u.clock.us image) u)) ∧
       exec (.flowMirrorUpdate k (.gone home)) s = .next (settle s (u.setCtx i none))) ∧
     exec (.flowMirrorUpdate k (.ended home)) s = .next (settle s
       (changeFlow home (fun f => if f.standbyAt = some part then { f with standbyAt := none } else f) u))))

/-- R7 to R10, R55: what the host reads and writes, by the width, the boundary and the register that is there. R33, R48, R53 to R56:
registers in full: DEV_ID, PLAN_INT, the Message Control word, and the window of the crates; and, whenever the part is up,
configuration space: a dword on its boundary, all ones at another place, the IDs, the class code, the power state with
No_Soft_Reset, no interrupt pin, a base of which the bits below the window's size stay zero, and the ATS enable, without which
nothing stays cached. The places of the registers of configuration space are this model's (log 64). -/
def Obligations.RegistersReadAndWriteAsTheirTables : Prop :=
  (∀ (s : State) (w : Window) (off : BitVec 26) (v : BitVec 64), w ≠ .crate → w ≠ .msixControl → w ≠ .config →
     let o := off.toNat
     let answered (x : BitVec 64) (t : State) : State := { t with bus := { t.bus with readData := x } }
     (windowsOpen s = false →
       exec (.registerRead w off 32) s = .next (answered 0xFFFFFFFF s) ∧ exec (.registerWrite w off 32 v) s = .next s) ∧
     (windowsOpen s = true →
       (∀ width : BitVec 7, width ≠ 32 → width ≠ 64 →
         exec (.registerRead w off width) s = .next (answered (allOnes width.toNat) s) ∧
         exec (.registerWrite w off width v) s = .next s) ∧
       (upperOf s w o = none → o % 4 = 0 →
         (regAt s w o = .nothing →
           exec (.registerRead w off 32) s = .next (answered 0 s) ∧ exec (.registerWrite w off 32 v) s = .next s) ∧
         (∀ x f, regAt s w o = .word x f → ¬(w = .control ∧ o = strTimeHi) → ¬(w = .control ∧ o = 0x48) →
           exec (.registerRead w off 32) s = .next (answered (x.setWidth 64) s) ∧
           exec (.registerWrite w off 32 v) s = .next (settle s (f (bits v 0 32) s))) ∧
         (∀ x f, regAt s w o = .wide x f → o ≠ strTime →
           exec (.registerRead w off 32) s = .next (answered ((bits x 0 32 : BitVec 32).setWidth 64) (setLatch (o + 4) (some (bits x 32 32)) s)) ∧
           exec (.registerWrite w off 32 v) s = .next (setHeld o (some (bits v 0 32)) s))) ∧
       (∀ x f, o % 8 = 0 → regAt s w o = .wide x f →
         exec (.registerRead w off 64) s = .next (answered x s) ∧
         exec (.registerWrite w off 64 v) s = .next (settle s (f v (setHeld o none s)))) ∧
       (∀ x f, o % 4 = 0 → upperOf s w o = some (x, f) →
         (latched s o = none → exec (.registerRead w off 32) s = .next (answered ((bits x 32 32 : BitVec 32).setWidth 64) s)) ∧
         (∀ h, heldHalf s (o - 4) = some h → exec (.registerWrite w off 32 v) s = .next
           (settle s (f ((bits v 0 32 : BitVec 32) ++ h) (setHeld (o - 4) none s))))))) ∧
  (∀ s : State, (windowsOpen s = true →
     exec (.registerRead .control 0 32) s = .next { s with bus := { s.bus with
       readData := ((0x0C18#32 ||| at32 16 (0xB2#8) ||| at32 24 s.dev.orderCode).setWidth 64) } } ∧
     (∀ v : BitVec 64, exec (.registerWrite .control 0 32 v) s = .next (settle s s)) ∧
     (∀ v : BitVec 64, exec (.registerWrite .control 0x10024 32 v) s = .next (settle s
       { s with plan := { s.plan with pint := w1c s.plan.pint (bits (bits v 0 32 : BitVec 32) 0 4) } })) ∧
     exec (.registerRead .msixControl 0 32) s = .next { s with bus := { s.bus with readData := messageControl s } } ∧
     (∀ (off : BitVec 26) (k : BitVec 7), exec (.registerRead .crate off k) s = .next
       { s with bus := { s.bus with readData := crateRead s off.toNat k.toNat } })) ∧
   (∀ (off : BitVec 26) (v : BitVec 64), alive s = true →
     let read (o : BitVec 26) (x : BitVec 64) : Prop :=
       exec (.registerRead .config o 32) s = .next { s with bus := { s.bus with readData := x } }
     (off.toNat % 4 = 0 → read off ((configWord s off.toNat).setWidth 64)) ∧
     (off.toNat % 4 ≠ 0 → read off 0xFFFFFFFF) ∧
     read 0 ((at32 0 Config.vendorId ||| at32 16 s.dev.pciId).setWidth 64) ∧ read 0x08 0x10800000 ∧
     read 0x44 (if s.pcie.d3hot then 0xB else 0x8) ∧ read 0x3C 0 ∧
     read 0x50 ((0x00006011#32 ||| at32 16 ((messageControl s).setWidth 16 : BitVec 16)).setWidth 64) ∧
     exec (.registerWrite .config 0x10 32 v) s = .next { s with pcie := { s.pcie with
       bar0 := (bits s.pcie.bar0 32 32 ++ (bits v 0 32 : BitVec 32)) &&& ~~~0x3FFFFFF#64 } } ∧
     exec (.registerWrite .config 0x154 32 v) s = .next { s with pcie := { s.pcie with
       atsEnable := bit v 31, ats := if bit v 31 then s.pcie.ats else [] } }))

/-- R371 to R374: the commands of the monitor that take no field, and the change of the baud rate. R370 to R374: the commands of the
monitor that read fields, each on a line of its syntax that its scope or state permits. -/
def Obligations.MonitorAnswersItsCommands : Prop :=
  (∀ s : State, alive s = true → answerDue s = false →
     (s.life.baudSwitched = false →
       exec .monitorId s = .next (settle s (answerOk [hexDigits 4 0x0C18, hexDigits 2 0xB2, hexDigits 1 s.dev.orderCode.toNat,
         hexDigits 8 (s.dev.uid.toNat / 2 ^ 32), hexDigits 8 s.dev.uid.toNat, hexDigits 2 s.life.inForce.toNat] s)) ∧
       exec .monitorSt s = .next (settle s (answerOk [hexDigits 8 (devStatus s).toNat, hexDigits 8 (lcState s).toNat,
         hexDigits 8 (dbgScopes s).toNat] s)) ∧
       (inScrap s = false → 32 ≤ s.rng.carafe.length →
         exec .monitorNc s = .next (settle s (answerOk (groupsOf 8 (newNonce s).1) (newNonce s).2))) ∧
       (inScrap s = false → s.rng.carafe.length < 32 → exec .monitorNc s = .next (settle s (answerEr 0x0E s))) ∧
       (inScrap s = true → exec .monitorNc s = .next (settle s (answerEr 0x04 s))) ∧
       exec .monitorDx s = .next (settle s (answerOk [] { s with life := { s.life with granted := none } })) ∧
       exec .monitorBc s = .next (settle s (answerEr 0x01 s))) ∧
     (s.life.baudSwitched = true →
       exec .monitorBc s = .next (settle s (answerOk [ascii "BC"] { s with life := { s.life with
         baud := s.life.baudNew.getD s.life.baud, baudNew := none, baudSwitched := false } })) ∧
       exec .baudReverted s = .next (settle s
         (answerEr 0x0A { s with life := { s.life with baudNew := none, baudSwitched := false } }))) ∧
     (s.life.baudNew.isSome = true →
       exec .baudSwitch s = .next (settle s { s with life := { s.life with baudSwitched := true } }))) ∧
  (∀ (s : State) (line : List Byte) (fs : List Bytes), alive s = true → answerDue s = false → s.life.baudSwitched = false →
     lineLong line = false →
     let reads (name : String) : Prop := lineFields (lineOf line) = ascii name :: fs
     (∀ o data, reads "LD" → ldSyntax fs = some (o, data) → inScrap s = false →
       (o + data.length ≤ 8192 → exec (.monitorLd line) s = .next (settle s
         (answerOk [] { s with life := { s.life with staging := Tab.write 0#8 s.life.staging o data } }))) ∧
       (8192 < o + data.length → exec (.monitorLd line) s = .next (settle s (answerEr 0x0C s)))) ∧
     (∀ n, reads "DC" → oneNumber fs = some n → inProvisioning s = true ∨ inField s = true → lifeDeciding s = false →
       let cert := stagedBytes s (min n 8192)
       match grantBad s cert with
       | none => exec (.monitorDc line) s = .next (settle s (askGrant none cert (certUsed true cert none s)))
       | some b => exec (.monitorDc line) s = .next (settle s (askRefused none (grantAsk cert) b (certUsed true cert (some b) s)))) ∧
     (∀ t n, reads "LC" → lcSyntax fs = some (t, n) → inScrap s = false → grantDeciding s = false →
       match transitionBad s t (stagedBytes s n) with
       | none => exec (.monitorLc line) s = .next (settle s (askTransition none t (stagedBytes s n) s))
       | some b =>
         (b.detail = 0x0F7C → exec (.monitorLc line) s = .next (settle s
           (answerEr b.code (clearLines (transitionRefused s t (stagedBytes s n) b))))) ∧
         (b.detail ≠ 0x0F7C → exec (.monitorLc line) s = .next (settle s
           (refuseTransition none t (stagedBytes s n) b s)))) ∧
     (∀ o, reads "RR" → oneNumber fs = some o →
       (scopeOn s 0 = true → o < 0x4000000 → exec (.monitorRr line) s = .next
         (answerOk [hexDigits 8 (readReg .control o 32 s).1.toNat] (readReg .control o 32 s).2)) ∧
       (scopeOn s 0 = true → 0x4000000 ≤ o → exec (.monitorRr line) s = .next (answerEr 0x0C s)) ∧
       (scopeOn s 0 = false → exec (.monitorRr line) s = .next (answerEr 0x04 s))) ∧
     (∀ o v, reads "RW" → twoNumbers fs = some (o, v) →
       (scopeOn s 1 = true → o < 0x4000000 →
         exec (.monitorRw line) s = .next (answerOk [] (writeReg .control o 32 (BitVec.ofNat 64 v) s))) ∧
       (scopeOn s 1 = true → 0x4000000 ≤ o → exec (.monitorRw line) s = .next (answerEr 0x0C s)) ∧
       (scopeOn s 1 = false → exec (.monitorRw line) s = .next (answerEr 0x04 s))) ∧
     (∀ a o, reads "NR" → nrSyntax fs = some (a, o) →
       (scopeOn s 2 = true → o + 64 ≤ areaSize a → exec (.monitorNr line) s = .next (settle s
         (answerOk (groupsOf 16 ((List.range 64).map (fun i => nvByte s a (o + i)))) s))) ∧
       (scopeOn s 2 = true → areaSize a < o + 64 → exec (.monitorNr line) s = .next (settle s (answerEr 0x0C s))) ∧
       (scopeOn s 2 = false → exec (.monitorNr line) s = .next (settle s (answerEr 0x04 s)))) ∧
     (∀ k t a, reads "SR" → srSyntax fs = some (k, t, a) →
       (scopeOn s 5 = true → a < storeWords k → exec (.monitorSr line) s = .next (settle s
         (answerOk (groupsOf 9 (storeWord k t a s).1) (storeWord k t a s).2))) ∧
       (scopeOn s 5 = true → storeWords k ≤ a → exec (.monitorSr line) s = .next (settle s (answerEr 0x0C s))) ∧
       (scopeOn s 5 = false → exec (.monitorSr line) s = .next (settle s (answerEr 0x04 s)))) ∧
     (∀ n, reads "BR" → brSyntax fs = some n → exec (.monitorBr line) s = .next (settle s
       (answerOk [ascii "BR", hexDigits 1 n]
         { s with life := { s.life with baudNew := some (BitVec.ofNat 3 n), baudSwitched := false } }))) ∧
     (∀ c, lineFields (lineOf line) = c :: fs → lineOf line ≠ ascii "BC" → knownCommand c = false →
       exec (.monitorUnknownCmd line) s = .next (settle s (answerEr 0x01 s))))

/-- R375, R452: the test port. Its identification carries version 0x2, part number 0x0C18 and the JEDEC code, with bit 0 set; what the
boundary-scan chain captures is free (log 1). -/
def Obligations.TestPortInstructions : Prop :=
  (bits idcode 28 4 = (2 : BitVec 4) ∧ bits idcode 12 16 = (0x0C18 : BitVec 16) ∧ bits idcode 1 11 = Config.jedecCode ∧
    idcode.getLsbD 0 = true) ∧
  ∀ s : State,
    exec .jtagTestReset s = .next (settle s { s with dev := { s.dev with tap := 0x01, tdr := idcode } }) ∧
    exec (.boundaryScanTakeover 0x01) s = .next (settle s { s with dev := { s.dev with tap := 0x01, tdr := idcode } }) ∧
    (∀ ir : BitVec 8, ir ∉ [0x00, 0x01, 0x02, 0x04, 0x05] →
      exec (.boundaryScanTakeover ir) s = .next (settle s { s with dev := { s.dev with tap := 0xFF, tdr := 0 } })) ∧
    exec (.boundaryScanTakeover 0x02) s = .next (settle s
      { s with dev := { s.dev with tap := 0x02, tdr := BitVec.ofNat 32 (drawFree s).1 }, draws := (drawFree s).2.draws }) ∧
    (bscanAllowed s = false ∨ alive s = false → ∀ ir : BitVec 8, ir ∈ [0x00, 0x04, 0x05] →
      exec (.boundaryScanTakeover ir) s = .next (settle s { s with dev := { s.dev with tap := 0xFF, tdr := 0 } })) ∧
    (bscanAllowed s = true → alive s = true → ∀ ir : BitVec 8, ir ∈ [0x00, 0x04, 0x05] →
      let t := selectTdr { s with dev := { s.dev with tap := ir } }
      (s.dev.bscan = true → exec (.boundaryScanTakeover ir) s = .next (settle s t)) ∧
      (s.dev.bscan = false →
        let u : State := { t with dev := { t.dev with bscan := true }, life := { t.life with lint := t.life.lint ||| 8 } }
        let v := (u.jobs.filter (fun x => x.phase = .running ∨ x.phase = .suspended ∨ x.phase = .storing)).foldl lockJob u
        let w := (v.jobs.filter (fun x => x.phase = .waiting)).foldl judgeJob v
        exec (.boundaryScanTakeover ir) s = .next (settle s
          (note 0x0803 none [] { w with stream := { w.stream with ports := w.stream.ports.map dropPort } }))))

/-- A step takes the command at the front of the queue and is exec of it on the state with the queue's rest. -/
def Obligations.StepRunsTheCommandInFront : Prop :=
  ∀ (c : Instr) (s : State),
    step (s.withCommand c) = exec c s ∧ ∀ rest, s.pending = c :: rest → step s = exec c { s with pending := rest }

/-- On an empty queue a microsecond passes (the model's choice, log 20): the clocks and the counters of time move, the egress buffers
drain, the rails are read, and then the sequencers run, and the tile that verifies a keeper card's signature; where none has a word
to run, nothing else moves, and with no job on a tile, no patch and equal copies of the Hall controller's store only the
controller's own sequencer does (the model's choice, log 67). -/
def Obligations.IdleStepLetsAMicrosecondPass : Prop :=
  ∀ s : State, s.pending = [] → ∃ w, step s = .next (tickKeeper (seqTick w)) ∧
    w.clock.us = s.clock.us + 1 ∧
    { w with clock := s.clock, ledger := s.ledger, battery := s.battery, stream := s.stream, alarm := s.alarm, draws := s.draws } = s ∧
    w.ledger.slots = s.ledger.slots ∧ w.ledger.queue = s.ledger.queue ∧
    w.battery.rootKey = s.battery.rootKey ∧ w.battery.lockLatch = s.battery.lockLatch ∧
    w.stream.cfg = s.stream.cfg ∧ w.stream.held = s.stream.held ∧
    w.stream.ports = s.stream.ports.map (fun p => { p with backlog := p.backlog - lineBytes p.cfg.rate }) ∧
    { w.alarm with railNow := s.alarm.railNow, railTracked := s.alarm.railTracked, railAcc := s.alarm.railAcc } = s.alarm ∧
    (alive s = false → w.alarm = s.alarm ∧ w.draws = s.draws) ∧
    (alive s = false ∨ beatsNow s = 0 ∨ sequencing s = [] ∧ s.seq.hallA = [] → seqTick w = w) ∧
    (sequencing s = [] → s.seq.hallA = s.seq.hallB → s.seq.patch = none → ∃ h, seqTick w = { w with seq := { w.seq with hallSeq := h } }) ∧
    (s.cards.keeper = none → seqTick w = w → step s = .next w)

/-- No command stops the block: each answers a next state from every state, with the queue of waiting commands as it was. -/
def Obligations.EveryCommandAnswersANextState : Prop :=
  ∀ (c : Instr) (s : State), ∃ t, exec c s = .next t ∧ t.pending = s.pending

/-- The state after reset meets the invariant, with an empty queue. -/
def Obligations.ResetMeetsTheInvariant : Prop :=
  State.reset.Inv ∧ State.reset.pending = []

/-- Every step from a state that meets the invariant ends in one that meets it: the memories keep their canonical form, the fused
identity reads as fused (R33), and the links, ports and fuse words keep their number. -/
def Obligations.EveryStepKeepsTheInvariant : Prop :=
  ∀ s t : State, s.Inv → step s = .next t → t.Inv

/-- R33: no step changes the UID or the order code, and a step takes exactly its command from the queue. -/
def Obligations.NoStepChangesTheIdentity : Prop :=
  ∀ s t : State, step s = .next t →
    t.dev.uid = s.dev.uid ∧ t.dev.orderCode = s.dev.orderCode ∧ t.pending = s.pending.tail

/-- R394: no step removes or alters an entry of the Evidence Log that is written, its 40 µs over: what it held stands in front of what
it holds. -/
def Obligations.EvidenceLogOnlyGrows : Prop :=
  ∀ s t : State, step s = .next t → writtenEvidence s <+: writtenEvidence t

/-- R360: burning only ever sets bits: a bit of a fuse word that is set stays set in every step. -/
def Obligations.FuseBitsAreOnlySet : Prop :=
  ∀ (s t : State), step s = .next t → ∀ (k i : Nat), (fuseWord s.life.fuses k).getLsbD i = true → (fuseWord t.life.fuses k).getLsbD i = true

/-- R47, R135, R455: no step lowers a minimum SVN, of the Stall Plan, of the patch or of the firmware. -/
def Obligations.MinimumSvnsNeverFall : Prop :=
  ∀ (s t : State), step s = .next t →
    (svnMinOf s.nv.planSvnMin).toNat ≤ (svnMinOf t.nv.planSvnMin).toNat ∧ (svnMinOf s.nv.patchSvnMin).toNat ≤ (svnMinOf t.nv.patchSvnMin).toNat ∧
    (svnMinOf s.nv.fwSvnMin).toNat ≤ (svnMinOf t.nv.fwSvnMin).toNat

/-- R54: while the windows are closed, a command that a host gives through them changes nothing at all, but for what follows every
command: a visit of the fetcher whose pitch is no longer eligible is over (R68). -/
def Obligations.ClosedWindowsLetNoCommandThrough : Prop :=
  ∀ s : State, windowsOpen s = false →
    let same (c : Instr) : Prop := exec c s = .next (settle s s)
    (s.arb.visit = none → settle s s = s) ∧
    (∀ n : BitVec 12, same (.queueCommit n) ∧ same (.queueEnable n) ∧ same (.queueDisable n) ∧ same (.queueRestart n)) ∧
    (∀ (p : BitVec 8) (l : BitVec 6) (v : BitVec 32), same (.sqPi p l v) ∧ same (.cqCi p l v)) ∧
    (∀ (p : BitVec 8) (b : Bool), same (.pitchCommit p) ∧ same (.pitchReset p b) ∧ same (.freeze p) ∧ same (.thaw p) ∧
      same (.logEnable p) ∧ same (.logSwap p) ∧ same (.logDisable p) ∧ ∀ k, same (.selfReset p k)) ∧
    (∀ (off : BitVec 23) (bs : Bytes), same .crateCommit ∧ same (.crateDataWrite off bs)) ∧
    (∀ (c : BitVec 6) (w : Access), same (.channelCommit c) ∧ same (.channelStart ⟨c, w⟩) ∧ same (.channelStop c)) ∧
    (∀ d : BitVec 8, same (.dqCommit d) ∧ same (.dqEnable d) ∧ same (.dqDisable d)) ∧
    (∀ (e : BitVec 2) (w : BitVec 32), same (.epochWrite e) ∧ same .epochLock ∧ exec (.intSummaryMaskWrite w) s = .next s ∧
      same (.pwrRestart w) ∧ same (.paceTargetWrite w)) ∧
    (∀ (b : BitVec 1) (k : BitVec 2) (v : BitVec 11) (x : BitVec 64), same .streamCommit ∧ same .timeSet ∧ same .timeInvalidate ∧
      same (.timeStep x) ∧ same (.portCommit b) ∧ same .retestRetired ∧ same .linkCommit ∧ same (.retrain k) ∧
      same (.msixVectorUnmask v))

/-- R8, R31, R57, R61, R98: what reset leaves, of the values that the spec's register tables give. The levels of the straps before one
is read (EPOCH 2, the PCI device ID 0x0C18) are the model's choice (log 36), and the reset values of the message table are PCI
Express's (log 5). -/
def Obligations.ResetLeavesTheTablesValues : Prop :=
  State.reset.dev.epoch = 2 ∧ State.reset.dev.lock = false ∧ State.reset.dev.intEnable = 0 ∧ State.reset.dev.pciId = 0x0C18 ∧
  State.reset.pcie.msixEnable = false ∧ State.reset.pcie.pba = 0 ∧
  (∀ n : BitVec 12, (State.reset.q n).state = .disabled ∧ (State.reset.q n).cfg.log2Size = (State.reset.q n).shadow.log2Size) ∧
  (∀ c : BitVec 6, (State.reset.chan c).run = none) ∧ (∀ n : Nat, State.reset.crate n = none) ∧
  State.reset.jobs = [] ∧ State.reset.vault.slots = [] ∧ State.reset.alarm.decision = none ∧ State.reset.links.link.length = 3 ∧
  State.reset.out = []

/-- R113: LOG_SWAP leaves LOG_BUF as it is while the swap is under way; its end sets LOG_BUF to the other buffer, so that the bits of
later writes go there, and EVENT_INT; a LOG_SWAP before that end is refused with 0x0F3A. -/
def Obligations.LogSwapMovesLoggingToTheOtherBuffer : Prop :=
  ∀ (s : State) (p : BitVec 8), (s.pitch p).state ≠ .absent →
    (windowsOpen s = true → (s.pitch p).logOn = true → (s.pitch p).swapPending = false →
      ∃ t, exec (.logSwap p) s = .next t ∧ (t.pitch p).swapPending = true ∧ (t.pitch p).logBuf = (s.pitch p).logBuf ∧
        (t.pitch p).eventInt = (s.pitch p).eventInt ∧
        ∃ u, exec (.logSwapDone p) t = .next u ∧ (u.pitch p).swapPending = false ∧ (u.pitch p).logBuf = !(s.pitch p).logBuf ∧
          (u.pitch p).eventInt = true) ∧
    (windowsOpen s = true → (s.pitch p).swapPending = true →
      exec (.logSwap p) s = .next (settle s (s.setPitch p { s.pitch p with cmdRefused := true, refuseDetail := 0x0F3A }))) ∧
    (∀ (a k : Nat), (s.pitch p).logOn = true → k ≠ 0 →
      let x := s.pitch p
      let base := x.cfg.logBase.toNat / 4096
      let pages := x.cfg.logPages.toNat
      let lo := max (a / 4096) base
      let hi := min ((a + k - 1) / 4096 + 1) (base + pages)
      (logWrite s p a k).host =
        markPages s.host (hostAddr (s.pitch 0).cfg.pasid (if x.logBuf then x.cfg.logBuf1 else x.cfg.logBuf0).toNat) (lo - base) (hi - lo))

/-- R140: f n is w n [63:0]; a write to f n sets those bits and zeroes the rest; a write to w n changes f n with it; in form e18, f n
holds lanes 0 to 2 and bits [9:0] of lane 3. A write to one register leaves every other as it was, and g0 reads as zero (R139). -/
def Obligations.FloatRegistersLieInVectorRegisters : Prop :=
  ∀ (c : VCore) (n m : Nat) (v : BitVec 64) (w : BitVec 4608) (g : BitVec 36), Tab.wf (0#4608) c.w = true → Tab.wf (0#36) c.g = true →
    c.getF n = (c.getW n).extractLsb' 0 64 ∧
    (c.setF n v).getF n = v ∧ ((c.setF n v).getW n).extractLsb' 64 4544 = 0#4544 ∧
    (c.setW n w).getF n = w.extractLsb' 0 64 ∧
    c.getF n = (c.getW n).extractLsb' 54 10 ++ (c.getW n).extractLsb' 36 18 ++ (c.getW n).extractLsb' 18 18 ++
      (c.getW n).extractLsb' 0 18 ∧
    (m ≠ n → (c.setF n v).getW m = c.getW m ∧ (c.setW n w).getW m = c.getW m ∧ (c.setG n g).getG m = c.getG m) ∧
    c.getG 0 = 0 ∧ c.setG 0 g = c ∧ (n ≠ 0 → (c.setG n g).getG n = g)

/-- R71. Chapter 08 (R165 to R190): the commands of ML-KEM, ML-DSA and FN-DSA: a descriptor that passes every check and finds its place,
units, slots, masks and random values computes at once; the next state is that of its start, whole. -/
def Obligations.LatticeJobsStart : Prop :=
  ∀ (sp : OpSpec) (c : Instr) (s : State) (x : Job) (us : List Unit_) (t : State) (rs : List (BitVec 13)),
    (c, sp) ∈ latticeJobs x.id → Starts sp s x us t rs → exec c s = .next (settle s (startedOn sp s x us t rs))

/-- R71. Chapter 09 (R191 to R213): the commands of SLH-DSA, LMS, XMSS and XMSS^MT, and those of a stateful key's caches and state: a
descriptor that passes every check and finds its place, units, slots, masks and random values computes at once; the next state is
that of its start, whole. -/
def Obligations.HashSignatureJobsStart : Prop :=
  ∀ (sp : OpSpec) (c : Instr) (s : State) (x : Job) (us : List Unit_) (t : State) (rs : List (BitVec 13)),
    (c, sp) ∈ hashSigJobs x.id → Starts sp s x us t rs → exec c s = .next (settle s (startedOn sp s x us t rs))

/-- R71. Chapters 10 and 11 (R214 to R252): digests, AES, HQC and Classic McEliece: a descriptor that passes every check and finds its
place, units, slots, masks and random values computes at once; the next state is that of its start, whole. -/
def Obligations.DigestAndCodeJobsStart : Prop :=
  ∀ (sp : OpSpec) (c : Instr) (s : State) (x : Job) (us : List Unit_) (t : State) (rs : List (BitVec 13)),
    (c, sp) ∈ digestAndCodeJobs x.id → Starts sp s x us t rs → exec c s = .next (settle s (startedOn sp s x us t rs))

/-- R71. Chapter 12 (R253 to R284): the commands of the big-number engines: a descriptor that passes every check and finds its place,
units, slots, masks and random values computes at once; the next state is that of its start, whole. -/
def Obligations.BigNumberJobsStart : Prop :=
  ∀ (sp : OpSpec) (c : Instr) (s : State) (x : Job) (us : List Unit_) (t : State) (rs : List (BitVec 13)),
    (c, sp) ∈ bigNumberJobs x.id → Starts sp s x us t rs → exec c s = .next (settle s (startedOn sp s x us t rs))

/-- R71. Chapters 14 and 15 (R320 to R359): random numbers, DRBG instances and the vault: a descriptor that passes every check and finds
its place, units, slots, masks and random values computes at once; the next state is that of its start, whole. -/
def Obligations.RandomAndVaultJobsStart : Prop :=
  ∀ (sp : OpSpec) (c : Instr) (s : State) (x : Job) (us : List Unit_) (t : State) (rs : List (BitVec 13)),
    (c, sp) ∈ randomAndVaultJobs x.id → Starts sp s x us t rs → exec c s = .next (settle s (startedOn sp s x us t rs))

/-- R71. Chapters 04, 07 and 13: flows of the process bus, vector programs, and the Porter's jobs: a descriptor that passes every check
and finds its place, units, slots, masks and random values computes at once; the next state is that of its start, whole. -/
def Obligations.FlowAndProgramJobsStart : Prop :=
  ∀ (sp : OpSpec) (c : Instr) (s : State) (x : Job) (us : List Unit_) (t : State) (rs : List (BitVec 13)),
    (c, sp) ∈ flowAndProgramJobs x.id → Starts sp s x us t rs → exec c s = .next (settle s (startedOn sp s x us t rs))

/-- R71. Chapters 02, 05, 06, 16, 17, 18 and 21: the administration commands of plans, patches, firmware, contexts, pitches, the life
cycle, alarms and records: a descriptor that passes every check and finds its place, units, slots, masks and random values computes
at once; the next state is that of its start, whole. -/
def Obligations.PartJobsStart : Prop :=
  ∀ (sp : OpSpec) (c : Instr) (s : State) (x : Job) (us : List Unit_) (t : State) (rs : List (BitVec 13)) (same : Bool),
    (c, sp) ∈ partJobs x.id same → Starts sp s x us t rs → exec c s = .next (settle s (startedOn sp s x us t rs))

/-- R71. Chapter 19: the commands of the keeper card and the archive card: a descriptor that passes every check and finds its place,
units, slots, masks and random values computes at once; the next state is that of its start, whole. -/
def Obligations.CardJobsStart : Prop :=
  ∀ (sp : OpSpec) (c : Instr) (s : State) (x : Job) (us : List Unit_) (t : State) (rs : List (BitVec 13)),
    (c, sp) ∈ cardJobs x.id → Starts sp s x us t rs → exec c s = .next (settle s (startedOn sp s x us t rs))

/-- R26, R71, R438, R15, R222, R331, R440: what becomes of a descriptor that does not start here at once, for every command of a job:
refused with the STATUS and DETAIL of the first check that fails; forwarded to the part that its items name; kept waiting while the
Hall controller places nothing, or while its chapter or its context holds it; refused by what is judged again at its start; spilled
to a peer, which waits for the random values that wrap its keys (R350); queued on its stall or engine while no unit is free; refused
without a slot, or with 0x0A21 while the mask feeds are stopped; put to wait for its random bytes, or refused without them. -/
def Obligations.JobsThatDoNotStartAtOnce : Prop :=
  ∀ (sp : OpSpec) (c : Instr) (s : State) (x : Job) (same : Bool), (c, sp) ∈ jobCommands x.id same →
    let y := accepted s x
    let v := offered s x
    let q := queuedOn sp v y
    let back (t : State) : Host.Outcome State Fault Refusal := .next (settle s (takeBack y (s.setJob y) t))
    (∀ b, s.job x.id = some x → x.phase = .fetched → x.desc.opcode = sp.code → mayStart s x = true →
      checkWithKey sp s x = some b → exec c s = .next (settle s (refuseChecked sp s x b))) ∧
    (∀ b, s.job x.id = some x → x.phase = .fetched → x.desc.opcode = sp.code → mayStart s x = true →
      checkWithKey sp s x = none → lateBad sp (lend x s) x = some b →
      exec c s = .next (settle s (refuseChecked sp s { x with held := x.id.src == 0 } b))) ∧
    (∀ k, s.job x.id = some x → x.phase = .fetched → x.desc.opcode = sp.code → mayStart s x = true →
      checkWithKey sp s x = none → lateBad sp (lend x s) x = none → forwardLink s (sp.uses x.desc) x = some k →
      exec c s = .next (settle s (forwardJob s x k))) ∧
    (Passes sp s x → placing v = false ∨ sp.blocked v y = true ∨ ctxBusy v y = true → exec c s = back v) ∧
    (Passes sp s x → placing v = true → sp.blocked v y = false → ctxBusy v y = false →
      (∀ b, startBad sp v y = some b → exec c s = back (refuseJob v y b)) ∧
      (startBad sp v y = none →
        match spillLink sp v y with
        | some k =>
          (keysNamed v y = [] → exec c s = back (spillJob v y k)) ∧
          (keysNamed v y ≠ [] →
            (drawReady v (some y.id) y.pitch .call = .wait → exec c s = back (awaitDraw sp v q .call)) ∧
            (∀ d, drawReady v (some y.id) y.pitch .call = .fails d →
              exec c s = back (refuseJob v q { status := 0x0501, detail := d })) ∧
            (drawReady v (some y.id) y.pitch .call = .ready → drawnDry (spillJob v y k) y.pitch = true →
              exec c s = back (awaitDraw sp v q .fresh)) ∧
            (drawReady v (some y.id) y.pitch .call = .ready → drawnDry (spillJob v y k) y.pitch = false →
              exec c s = back (spillJob v y k)))
        | none =>
          (unitsFor v q (sp.place v y) = none → exec c s = back (v.setJob q)) ∧
          (∀ us b, unitsFor v q (sp.place v y) = some us → y.reserved = [] →
            reserveAll y.pitch (sp.slots v q) v [] = .inl b → exec c s = back (refuseJob v q b)) ∧
          (∀ us t rs, unitsFor v q (sp.place v y) = some us → y.reserved = [] →
            reserveAll y.pitch (sp.slots v q) v [] = .inr (t, rs) →
            (sp.masked v q = true → v.rng.feedsStopped = true →
              exec c s = back (refuseJob v q { status := 0x0501, detail := 0x0A21 })) ∧
            (sp.masked v q = false ∨ v.rng.feedsStopped = false →
              (drawReady v (some y.id) y.pitch (drawsOf sp v q) = .wait → exec c s = back (awaitDraw sp v q (drawsOf sp v q))) ∧
              (∀ d, drawReady v (some y.id) y.pitch (drawsOf sp v q) = .fails d →
                exec c s = back (refuseJob (takeDown sp v q) q { status := 0x0501, detail := d })) ∧
              (drawReady v (some y.id) y.pitch (drawsOf sp v q) = .ready → drawnDry (runJob sp t q us rs) y.pitch = true →
                exec c s = back (awaitDraw sp v q .fresh))))))

/-- A command that names no descriptor of its opcode that is read and next in its queue changes nothing (the model's reading, log 7). -/
def Obligations.CommandsWithoutTheirDescriptorChangeNothing : Prop :=
  ∀ (sp : OpSpec) (c : Instr) (s : State) (j : JobId) (same : Bool), (c, sp) ∈ jobCommands j same →
    (s.job j = none ∨ ∃ x, s.job j = some x ∧ x.phase ≠ .waiting ∧
      (x.phase ≠ .fetched ∨ x.desc.opcode ≠ sp.code ∨ mayStart s x = false)) →
    exec c s = .next (settle s s)

/-- R25, R67, R73, R74, R112: a job whose result is ready leaves its units and the list. Its output stands at OUT_ADDR, in host memory
or in a crate, and its record of 32 bytes at the slot of W, 32 x (W mod the ring's size) above CPL_BASE, in the space of the queue's
pitch, with the phase bit of the ring's round; no other byte of host memory changes, but for the bits that R112 logs. W goes up by
one. A record whose write is lost, or whose ring's translation fails, is dropped and counted in CPL_DROPPED, W goes up all the same,
and no byte of host memory changes. -/
def Obligations.RecordsAreWrittenAtW : Prop :=
  ∀ (s : State) (x : Job) (o : JobOut), s.job x.id = some x → s.seq.reloading = false → s.life.decision = none →
    x.desc.opcode ≠ 0x0F12 → x.phase = .running ∨ x.phase = .ended → x.verdict = .single ∨ x.verdict = .agreed → x.out = some o →
    needsStore s x = false ∨ x.phase = .ended →
    (∀ w, exec (.jobComplete x.id w) s = .next (settle s (dueResets (completeJob w s x o)))) ∧
    (∀ (u : State), (u.q x.id.queue).cfg.assigned = true →
      let q := u.q x.id.queue
      let p := q.cfg.pitch
      let a := (q.cfg.cplBase.toNat + 32 * (q.w.toNat % 2 ^ q.cfg.log2Size.toNat)) % 2 ^ 64
      let at_ := hostAddr (u.pitch p).cfg.pasid a
      let kept := u.jobs.filter (fun y => y.id ≠ x.id)
      let v := writeRecord .visible u x o
      (∀ w : RecordWrite, w = .lost ∨ w = .translationFails →
        (writeRecord w u x o).host = u.host ∧ ((writeRecord w u x o).q x.id.queue).w = q.w + 1 ∧
        ((writeRecord w u x o).q x.id.queue).cplDropped = satAdd q.cplDropped 1) ∧
      (writeRecord .lost u x o).jobs = kept ∧
      (q.state ≠ .enabled → (writeRecord .translationFails u x o).jobs = kept) ∧
      (v.q x.id.queue).w = q.w + 1 ∧ v.jobs = kept ∧
      v.host = (logWrite { u with host := Tab.write 0#8 u.host at_ (recordBytes q x o) } p a 32).host ∧
      (Tab.wf 0#8 u.host = true → (u.pitch p).logOn = false →
        (∀ (i : Nat) (h : i < (recordBytes q x o).length), Tab.get 0#8 (at_ + i) v.host = (recordBytes q x o)[i]) ∧
        (∀ m : Nat, m < at_ ∨ at_ + 32 ≤ m → Tab.get 0#8 m v.host = Tab.get 0#8 m u.host))) ∧
    (∀ (u : State) (bs : List Byte),
      let at_ := hostAddr (u.pitch x.pitch).cfg.pasid x.desc.outAddr.toNat
      let v := writeOutput u x bs
      (x.desc.outCrate = true → v.host = u.host ∧ (Tab.wf 0#8 u.crates.data = true →
        (∀ (i : Nat) (h : i < bs.length), Tab.get 0#8 (x.desc.outAddr.toNat + i) v.crates.data = bs[i]) ∧
        (∀ m : Nat, m < x.desc.outAddr.toNat ∨ x.desc.outAddr.toNat + bs.length ≤ m →
          Tab.get 0#8 m v.crates.data = Tab.get 0#8 m u.crates.data))) ∧
      (x.desc.outCrate = false → v.crates = u.crates ∧
        v.host = (logWrite { u with host := Tab.write 0#8 u.host at_ bs } x.pitch x.desc.outAddr.toNat bs.length).host ∧
        (Tab.wf 0#8 u.host = true → (u.pitch x.pitch).logOn = false →
          (∀ (i : Nat) (h : i < bs.length), Tab.get 0#8 (at_ + i) v.host = bs[i]) ∧
          (∀ m : Nat, m < at_ ∨ at_ + bs.length ≤ m → Tab.get 0#8 m v.host = Tab.get 0#8 m u.host)))) ∧
    (∀ q : Queue, recordBytes q x o =
      wordBytes 4 x.desc.tag ++ wordBytes 2 o.status ++ wordBytes 2 o.detail ++ wordBytes 4 (outWritten o) ++
      wordBytes 4 ((if (q.w.toNat / 2 ^ q.cfg.log2Size.toNat) % 2 = 0 then 0x80000000#32 else 0#32) ||| at32 12 x.index |||
        at32 0 x.id.queue) ++ wordBytes 8 o.result ++ wordBytes 4 o.elapsed ++ List.replicate 4 0#8 ∧
      (recordBytes q x o).length = 32)

/-- R25, R185, R348: JOB_COMPLETE of a job whose record's content stands. A job that need not store a key, or has stored it, ends: its
output, its changes, its record and its signal follow (the record stands in full in RecordsAreWrittenAtW). A job that stores a key
frees its units first; a signature or a verdict that is decided twice takes its second decision first. -/
def Obligations.JobCompleteEndsAJob : Prop :=
  ∀ (j : JobId) (w : RecordWrite) (s : State) (x : Job) (o : JobOut), s.job j = some x → x.out = some o →
    s.seq.reloading = false → s.life.decision = none → x.desc.opcode ≠ 0x0F12 →
    (x.phase = .running → x.verdict = .single ∨ x.verdict = .agreed → needsStore s x = false →
      exec (.jobComplete j w) s = .next (settle s (dueResets (completeJob w s x o)))) ∧
    (x.phase = .ended → exec (.jobComplete j w) s = .next (settle s (dueResets (completeJob w s x o)))) ∧
    (x.phase = .running → x.verdict = .single ∨ x.verdict = .agreed → needsStore s x = true →
      exec (.jobComplete j w) s = .next (settle s
        (dueResets ((freeUnits s x).setJob { x with phase := .storing, units := [] })))) ∧
    (x.phase = .running → x.verdict = .due → exec (.jobComplete j w) s = .next (settle s (dueResets (firstDecides s x)))) ∧
    (x.phase = .running → x.verdict = .second → exec (.jobComplete j w) s = .next (settle s (dueResets s)))

/-- R15, R223, R348, R163: what moves a job on between its start and its record. A waiting job that finds its units starts, by JOB_PLACE
as by the command of its opcode; a digest in the suspend store takes a tile again, and stays there while none is free and it is not
the next to have one; a key record written to the die as it should be lets its job end with its changes made, one that reads back
otherwise ends it with FAULT, 0x0B43; a vector program that has not ended within its limit has its record's content: ABORTED,
0x0D25, the address that it has come to, ELAPSED of the image hash and the limit. One that has ended earlier is not touched. The
address is a free one within its code where the beat has changed since the start or is not known, and so is the judgement of a run
that one of its beats would have ended and the other not (the model's choice, log 28). -/
def Obligations.JobsMoveOn : Prop :=
  (∀ (sp : OpSpec) (s : State) (x : Job), s.job x.id = some x → x.phase = .waiting → specOf x.desc.opcode = some sp →
    ∀ us t rs, x.lent = [] → Finds sp s x us t rs →
      exec (.jobPlace x.id) s = .next (settle s (runJob sp t (queuedOn sp s x) us rs))) ∧
  (∀ (s : State) (x : Job), s.job x.id = some x → x.phase = .suspended → placing s = true →
    (∀ (n : Nat) (us : List Unit_), resumeStall s x = some n → tilesNow s .hashsig { x with stall := some n } = some us →
      let y := { x with stall := some n, phase := .running, units := us, gave := none }
      exec (.jobPlace x.id) s = .next (settle s (us.foldl (takeUnit y) (s.setJob y)))) ∧
    (resumeStall s x = none → behind s .hashsig x = true → tilesNow s .hashsig x = none →
      exec (.jobPlace x.id) s = .next (settle s s))) ∧
  (∀ (s : State) (x : Job) (o : JobOut), s.job x.id = some x → nvReady s = true → s.seq.reloading = false →
    x.phase = .storing → x.out = some o →
    (let z := (unusedSlots x).foldl unreserve (s.setJob { x with phase := .ended, units := [] })
     exec (.nvWriteDone x.id true) s = .next (settle s ((x.commits.foldl applyCommit z).setJob
       { x with phase := .ended, units := [], reserved := [], commits := [], out := some o }))) ∧
    exec (.nvWriteDone x.id false) s = .next (settle s (breakJob s x 0x0603 0x0B43))) ∧
  (∀ (s : State) (x : Job), s.job x.id = some x → x.phase = .running → x.desc.opcode = 0x0D02 → x.forwarded = none →
    let u := (ranOver s x).2
    ((ranOver s x).1 = false → exec (.vprogTimeLimit x.id) s = .next (settle s u)) ∧
    ((ranOver s x).1 = true →
      let c := (runningCore u x).codeLen
      let v := (limitPc u x).2
      let o : JobOut := { status := 0x0601, detail := 0x0D25, output := [], result := (limitPc u x).1, elapsed := (limitElapsed v x).1,
                          moved := none }
      exec (.vprogTimeLimit x.id) s = .next (settle s
        ((limitElapsed v x).2.setJob { x with out := some o, commits := [], paced := none })) ∧
      (x.out = none → x.paced = none → u.pace.beat ≠ 0 → (limitPc u x).1 = (runningCore u x).pc.setWidth 64) ∧
      (x.out ≠ none ∨ x.paced ≠ none ∨ u.pace.beat = 0 → 8 ≤ c → c < 2 ^ 32 →
        (limitPc u x).1.toNat < c ∧ (limitPc u x).1.toNat % 8 = 0) ∧
      (v.pace.beat ≠ 0 → (limitElapsed v x).1 = BitVec.ofNat 32 (min
        (atBeat (imageHashTime x.desc.auxLen.toNat) v.pace.beat.toNat + 100 * vlimit x.desc) (2 ^ 32 - 1))) ∧
      { (limitElapsed v x).2 with draws := s.draws } = s) ∧
    { u with draws := s.draws } = s ∧
    (x.out = none → ranOver s x = (true, s)) ∧
    (∀ o, x.out = some o → o.detail = 0x0D16 → ranOver s x = (false, s)) ∧
    (∀ o ps fast slow, x.out = some o → o.detail ≠ 0x0D16 → x.paced = some (ps, fast, slow) →
      let past (beat : Nat) : Prop := 1000000 * vlimit x.desc < (ps - imageHashTime x.desc.auxLen.toNat) * beat / 1800
      (past fast → ranOver s x = (true, s)) ∧ (¬ past fast → ¬ past slow → ranOver s x = (false, s))))
end

