-- ==== Sys2Proof/Laws/State.lean ====
section
/-! SUPPORT. Each update of the state changes one block of it: for each update one lemma for each other field, so that no proof
unfolds a record update. -/
namespace Sys2Proof.Machine

variable (s : State)

/-! ### State.setQ changes queues alone -/

@[simp] theorem State.setQ_pending (n : BitVec 12) (x : Queue) : (s.setQ n x).pending = s.pending := rfl
@[simp] theorem State.setQ_dev (n : BitVec 12) (x : Queue) : (s.setQ n x).dev = s.dev := rfl
@[simp] theorem State.setQ_pcie (n : BitVec 12) (x : Queue) : (s.setQ n x).pcie = s.pcie := rfl
@[simp] theorem State.setQ_bus (n : BitVec 12) (x : Queue) : (s.setQ n x).bus = s.bus := rfl
@[simp] theorem State.setQ_plan (n : BitVec 12) (x : Queue) : (s.setQ n x).plan = s.plan := rfl
@[simp] theorem State.setQ_tiles (n : BitVec 12) (x : Queue) : (s.setQ n x).tiles = s.tiles := rfl
@[simp] theorem State.setQ_engines (n : BitVec 12) (x : Queue) : (s.setQ n x).engines = s.engines := rfl
@[simp] theorem State.setQ_engInt (n : BitVec 12) (x : Queue) : (s.setQ n x).engInt = s.engInt := rfl
@[simp] theorem State.setQ_engMask (n : BitVec 12) (x : Queue) : (s.setQ n x).engMask = s.engMask := rfl
@[simp] theorem State.setQ_arb (n : BitVec 12) (x : Queue) : (s.setQ n x).arb = s.arb := rfl
@[simp] theorem State.setQ_jobs (n : BitVec 12) (x : Queue) : (s.setQ n x).jobs = s.jobs := rfl
@[simp] theorem State.setQ_crates (n : BitVec 12) (x : Queue) : (s.setQ n x).crates = s.crates := rfl
@[simp] theorem State.setQ_porter (n : BitVec 12) (x : Queue) : (s.setQ n x).porter = s.porter := rfl
@[simp] theorem State.setQ_pitches (n : BitVec 12) (x : Queue) : (s.setQ n x).pitches = s.pitches := rfl
@[simp] theorem State.setQ_contexts (n : BitVec 12) (x : Queue) : (s.setQ n x).contexts = s.contexts := rfl
@[simp] theorem State.setQ_vault (n : BitVec 12) (x : Queue) : (s.setQ n x).vault = s.vault := rfl
@[simp] theorem State.setQ_seq (n : BitVec 12) (x : Queue) : (s.setQ n x).seq = s.seq := rfl
@[simp] theorem State.setQ_rng (n : BitVec 12) (x : Queue) : (s.setQ n x).rng = s.rng := rfl
@[simp] theorem State.setQ_life (n : BitVec 12) (x : Queue) : (s.setQ n x).life = s.life := rfl
@[simp] theorem State.setQ_alarm (n : BitVec 12) (x : Queue) : (s.setQ n x).alarm = s.alarm := rfl
@[simp] theorem State.setQ_battery (n : BitVec 12) (x : Queue) : (s.setQ n x).battery = s.battery := rfl
@[simp] theorem State.setQ_ledger (n : BitVec 12) (x : Queue) : (s.setQ n x).ledger = s.ledger := rfl
@[simp] theorem State.setQ_nv (n : BitVec 12) (x : Queue) : (s.setQ n x).nv = s.nv := rfl
@[simp] theorem State.setQ_pace (n : BitVec 12) (x : Queue) : (s.setQ n x).pace = s.pace := rfl
@[simp] theorem State.setQ_boot (n : BitVec 12) (x : Queue) : (s.setQ n x).boot = s.boot := rfl
@[simp] theorem State.setQ_links (n : BitVec 12) (x : Queue) : (s.setQ n x).links = s.links := rfl
@[simp] theorem State.setQ_stream (n : BitVec 12) (x : Queue) : (s.setQ n x).stream = s.stream := rfl
@[simp] theorem State.setQ_cards (n : BitVec 12) (x : Queue) : (s.setQ n x).cards = s.cards := rfl
@[simp] theorem State.setQ_host (n : BitVec 12) (x : Queue) : (s.setQ n x).host = s.host := rfl
@[simp] theorem State.setQ_out (n : BitVec 12) (x : Queue) : (s.setQ n x).out = s.out := rfl
@[simp] theorem State.setQ_genuine (n : BitVec 12) (x : Queue) : (s.setQ n x).genuine = s.genuine := rfl
@[simp] theorem State.setQ_draws (n : BitVec 12) (x : Queue) : (s.setQ n x).draws = s.draws := rfl
@[simp] theorem State.setQ_clock (n : BitVec 12) (x : Queue) : (s.setQ n x).clock = s.clock := rfl

/-! ### State.setPitch changes pitches alone -/

@[simp] theorem State.setPitch_pending (p : BitVec 8) (x : Pitch) : (s.setPitch p x).pending = s.pending := rfl
@[simp] theorem State.setPitch_dev (p : BitVec 8) (x : Pitch) : (s.setPitch p x).dev = s.dev := rfl
@[simp] theorem State.setPitch_pcie (p : BitVec 8) (x : Pitch) : (s.setPitch p x).pcie = s.pcie := rfl
@[simp] theorem State.setPitch_bus (p : BitVec 8) (x : Pitch) : (s.setPitch p x).bus = s.bus := rfl
@[simp] theorem State.setPitch_plan (p : BitVec 8) (x : Pitch) : (s.setPitch p x).plan = s.plan := rfl
@[simp] theorem State.setPitch_tiles (p : BitVec 8) (x : Pitch) : (s.setPitch p x).tiles = s.tiles := rfl
@[simp] theorem State.setPitch_engines (p : BitVec 8) (x : Pitch) : (s.setPitch p x).engines = s.engines := rfl
@[simp] theorem State.setPitch_engInt (p : BitVec 8) (x : Pitch) : (s.setPitch p x).engInt = s.engInt := rfl
@[simp] theorem State.setPitch_engMask (p : BitVec 8) (x : Pitch) : (s.setPitch p x).engMask = s.engMask := rfl
@[simp] theorem State.setPitch_queues (p : BitVec 8) (x : Pitch) : (s.setPitch p x).queues = s.queues := rfl
@[simp] theorem State.setPitch_arb (p : BitVec 8) (x : Pitch) : (s.setPitch p x).arb = s.arb := rfl
@[simp] theorem State.setPitch_jobs (p : BitVec 8) (x : Pitch) : (s.setPitch p x).jobs = s.jobs := rfl
@[simp] theorem State.setPitch_crates (p : BitVec 8) (x : Pitch) : (s.setPitch p x).crates = s.crates := rfl
@[simp] theorem State.setPitch_porter (p : BitVec 8) (x : Pitch) : (s.setPitch p x).porter = s.porter := rfl
@[simp] theorem State.setPitch_contexts (p : BitVec 8) (x : Pitch) : (s.setPitch p x).contexts = s.contexts := rfl
@[simp] theorem State.setPitch_vault (p : BitVec 8) (x : Pitch) : (s.setPitch p x).vault = s.vault := rfl
@[simp] theorem State.setPitch_seq (p : BitVec 8) (x : Pitch) : (s.setPitch p x).seq = s.seq := rfl
@[simp] theorem State.setPitch_rng (p : BitVec 8) (x : Pitch) : (s.setPitch p x).rng = s.rng := rfl
@[simp] theorem State.setPitch_life (p : BitVec 8) (x : Pitch) : (s.setPitch p x).life = s.life := rfl
@[simp] theorem State.setPitch_alarm (p : BitVec 8) (x : Pitch) : (s.setPitch p x).alarm = s.alarm := rfl
@[simp] theorem State.setPitch_battery (p : BitVec 8) (x : Pitch) : (s.setPitch p x).battery = s.battery := rfl
@[simp] theorem State.setPitch_ledger (p : BitVec 8) (x : Pitch) : (s.setPitch p x).ledger = s.ledger := rfl
@[simp] theorem State.setPitch_nv (p : BitVec 8) (x : Pitch) : (s.setPitch p x).nv = s.nv := rfl
@[simp] theorem State.setPitch_pace (p : BitVec 8) (x : Pitch) : (s.setPitch p x).pace = s.pace := rfl
@[simp] theorem State.setPitch_boot (p : BitVec 8) (x : Pitch) : (s.setPitch p x).boot = s.boot := rfl
@[simp] theorem State.setPitch_links (p : BitVec 8) (x : Pitch) : (s.setPitch p x).links = s.links := rfl
@[simp] theorem State.setPitch_stream (p : BitVec 8) (x : Pitch) : (s.setPitch p x).stream = s.stream := rfl
@[simp] theorem State.setPitch_cards (p : BitVec 8) (x : Pitch) : (s.setPitch p x).cards = s.cards := rfl
@[simp] theorem State.setPitch_host (p : BitVec 8) (x : Pitch) : (s.setPitch p x).host = s.host := rfl
@[simp] theorem State.setPitch_out (p : BitVec 8) (x : Pitch) : (s.setPitch p x).out = s.out := rfl
@[simp] theorem State.setPitch_genuine (p : BitVec 8) (x : Pitch) : (s.setPitch p x).genuine = s.genuine := rfl
@[simp] theorem State.setPitch_draws (p : BitVec 8) (x : Pitch) : (s.setPitch p x).draws = s.draws := rfl
@[simp] theorem State.setPitch_clock (p : BitVec 8) (x : Pitch) : (s.setPitch p x).clock = s.clock := rfl

/-! ### State.setChan changes porter alone -/

@[simp] theorem State.setChan_pending (c : BitVec 6) (x : Channel) : (s.setChan c x).pending = s.pending := rfl
@[simp] theorem State.setChan_dev (c : BitVec 6) (x : Channel) : (s.setChan c x).dev = s.dev := rfl
@[simp] theorem State.setChan_pcie (c : BitVec 6) (x : Channel) : (s.setChan c x).pcie = s.pcie := rfl
@[simp] theorem State.setChan_bus (c : BitVec 6) (x : Channel) : (s.setChan c x).bus = s.bus := rfl
@[simp] theorem State.setChan_plan (c : BitVec 6) (x : Channel) : (s.setChan c x).plan = s.plan := rfl
@[simp] theorem State.setChan_tiles (c : BitVec 6) (x : Channel) : (s.setChan c x).tiles = s.tiles := rfl
@[simp] theorem State.setChan_engines (c : BitVec 6) (x : Channel) : (s.setChan c x).engines = s.engines := rfl
@[simp] theorem State.setChan_engInt (c : BitVec 6) (x : Channel) : (s.setChan c x).engInt = s.engInt := rfl
@[simp] theorem State.setChan_engMask (c : BitVec 6) (x : Channel) : (s.setChan c x).engMask = s.engMask := rfl
@[simp] theorem State.setChan_queues (c : BitVec 6) (x : Channel) : (s.setChan c x).queues = s.queues := rfl
@[simp] theorem State.setChan_arb (c : BitVec 6) (x : Channel) : (s.setChan c x).arb = s.arb := rfl
@[simp] theorem State.setChan_jobs (c : BitVec 6) (x : Channel) : (s.setChan c x).jobs = s.jobs := rfl
@[simp] theorem State.setChan_crates (c : BitVec 6) (x : Channel) : (s.setChan c x).crates = s.crates := rfl
@[simp] theorem State.setChan_pitches (c : BitVec 6) (x : Channel) : (s.setChan c x).pitches = s.pitches := rfl
@[simp] theorem State.setChan_contexts (c : BitVec 6) (x : Channel) : (s.setChan c x).contexts = s.contexts := rfl
@[simp] theorem State.setChan_vault (c : BitVec 6) (x : Channel) : (s.setChan c x).vault = s.vault := rfl
@[simp] theorem State.setChan_seq (c : BitVec 6) (x : Channel) : (s.setChan c x).seq = s.seq := rfl
@[simp] theorem State.setChan_rng (c : BitVec 6) (x : Channel) : (s.setChan c x).rng = s.rng := rfl
@[simp] theorem State.setChan_life (c : BitVec 6) (x : Channel) : (s.setChan c x).life = s.life := rfl
@[simp] theorem State.setChan_alarm (c : BitVec 6) (x : Channel) : (s.setChan c x).alarm = s.alarm := rfl
@[simp] theorem State.setChan_battery (c : BitVec 6) (x : Channel) : (s.setChan c x).battery = s.battery := rfl
@[simp] theorem State.setChan_ledger (c : BitVec 6) (x : Channel) : (s.setChan c x).ledger = s.ledger := rfl
@[simp] theorem State.setChan_nv (c : BitVec 6) (x : Channel) : (s.setChan c x).nv = s.nv := rfl
@[simp] theorem State.setChan_pace (c : BitVec 6) (x : Channel) : (s.setChan c x).pace = s.pace := rfl
@[simp] theorem State.setChan_boot (c : BitVec 6) (x : Channel) : (s.setChan c x).boot = s.boot := rfl
@[simp] theorem State.setChan_links (c : BitVec 6) (x : Channel) : (s.setChan c x).links = s.links := rfl
@[simp] theorem State.setChan_stream (c : BitVec 6) (x : Channel) : (s.setChan c x).stream = s.stream := rfl
@[simp] theorem State.setChan_cards (c : BitVec 6) (x : Channel) : (s.setChan c x).cards = s.cards := rfl
@[simp] theorem State.setChan_host (c : BitVec 6) (x : Channel) : (s.setChan c x).host = s.host := rfl
@[simp] theorem State.setChan_out (c : BitVec 6) (x : Channel) : (s.setChan c x).out = s.out := rfl
@[simp] theorem State.setChan_genuine (c : BitVec 6) (x : Channel) : (s.setChan c x).genuine = s.genuine := rfl
@[simp] theorem State.setChan_draws (c : BitVec 6) (x : Channel) : (s.setChan c x).draws = s.draws := rfl
@[simp] theorem State.setChan_clock (c : BitVec 6) (x : Channel) : (s.setChan c x).clock = s.clock := rfl

/-! ### State.setCtx changes contexts alone -/

@[simp] theorem State.setCtx_pending (i : BitVec 14) (x : Option Context) : (s.setCtx i x).pending = s.pending := rfl
@[simp] theorem State.setCtx_dev (i : BitVec 14) (x : Option Context) : (s.setCtx i x).dev = s.dev := rfl
@[simp] theorem State.setCtx_pcie (i : BitVec 14) (x : Option Context) : (s.setCtx i x).pcie = s.pcie := rfl
@[simp] theorem State.setCtx_bus (i : BitVec 14) (x : Option Context) : (s.setCtx i x).bus = s.bus := rfl
@[simp] theorem State.setCtx_plan (i : BitVec 14) (x : Option Context) : (s.setCtx i x).plan = s.plan := rfl
@[simp] theorem State.setCtx_tiles (i : BitVec 14) (x : Option Context) : (s.setCtx i x).tiles = s.tiles := rfl
@[simp] theorem State.setCtx_engines (i : BitVec 14) (x : Option Context) : (s.setCtx i x).engines = s.engines := rfl
@[simp] theorem State.setCtx_engInt (i : BitVec 14) (x : Option Context) : (s.setCtx i x).engInt = s.engInt := rfl
@[simp] theorem State.setCtx_engMask (i : BitVec 14) (x : Option Context) : (s.setCtx i x).engMask = s.engMask := rfl
@[simp] theorem State.setCtx_queues (i : BitVec 14) (x : Option Context) : (s.setCtx i x).queues = s.queues := rfl
@[simp] theorem State.setCtx_arb (i : BitVec 14) (x : Option Context) : (s.setCtx i x).arb = s.arb := rfl
@[simp] theorem State.setCtx_jobs (i : BitVec 14) (x : Option Context) : (s.setCtx i x).jobs = s.jobs := rfl
@[simp] theorem State.setCtx_crates (i : BitVec 14) (x : Option Context) : (s.setCtx i x).crates = s.crates := rfl
@[simp] theorem State.setCtx_porter (i : BitVec 14) (x : Option Context) : (s.setCtx i x).porter = s.porter := rfl
@[simp] theorem State.setCtx_pitches (i : BitVec 14) (x : Option Context) : (s.setCtx i x).pitches = s.pitches := rfl
@[simp] theorem State.setCtx_vault (i : BitVec 14) (x : Option Context) : (s.setCtx i x).vault = s.vault := rfl
@[simp] theorem State.setCtx_seq (i : BitVec 14) (x : Option Context) : (s.setCtx i x).seq = s.seq := rfl
@[simp] theorem State.setCtx_rng (i : BitVec 14) (x : Option Context) : (s.setCtx i x).rng = s.rng := rfl
@[simp] theorem State.setCtx_life (i : BitVec 14) (x : Option Context) : (s.setCtx i x).life = s.life := rfl
@[simp] theorem State.setCtx_alarm (i : BitVec 14) (x : Option Context) : (s.setCtx i x).alarm = s.alarm := rfl
@[simp] theorem State.setCtx_battery (i : BitVec 14) (x : Option Context) : (s.setCtx i x).battery = s.battery := rfl
@[simp] theorem State.setCtx_ledger (i : BitVec 14) (x : Option Context) : (s.setCtx i x).ledger = s.ledger := rfl
@[simp] theorem State.setCtx_nv (i : BitVec 14) (x : Option Context) : (s.setCtx i x).nv = s.nv := rfl
@[simp] theorem State.setCtx_pace (i : BitVec 14) (x : Option Context) : (s.setCtx i x).pace = s.pace := rfl
@[simp] theorem State.setCtx_boot (i : BitVec 14) (x : Option Context) : (s.setCtx i x).boot = s.boot := rfl
@[simp] theorem State.setCtx_links (i : BitVec 14) (x : Option Context) : (s.setCtx i x).links = s.links := rfl
@[simp] theorem State.setCtx_stream (i : BitVec 14) (x : Option Context) : (s.setCtx i x).stream = s.stream := rfl
@[simp] theorem State.setCtx_cards (i : BitVec 14) (x : Option Context) : (s.setCtx i x).cards = s.cards := rfl
@[simp] theorem State.setCtx_host (i : BitVec 14) (x : Option Context) : (s.setCtx i x).host = s.host := rfl
@[simp] theorem State.setCtx_out (i : BitVec 14) (x : Option Context) : (s.setCtx i x).out = s.out := rfl
@[simp] theorem State.setCtx_genuine (i : BitVec 14) (x : Option Context) : (s.setCtx i x).genuine = s.genuine := rfl
@[simp] theorem State.setCtx_draws (i : BitVec 14) (x : Option Context) : (s.setCtx i x).draws = s.draws := rfl
@[simp] theorem State.setCtx_clock (i : BitVec 14) (x : Option Context) : (s.setCtx i x).clock = s.clock := rfl

/-! ### State.setTile changes tiles alone -/

@[simp] theorem State.setTile_pending (t : BitVec 6) (x : Tile) : (s.setTile t x).pending = s.pending := rfl
@[simp] theorem State.setTile_dev (t : BitVec 6) (x : Tile) : (s.setTile t x).dev = s.dev := rfl
@[simp] theorem State.setTile_pcie (t : BitVec 6) (x : Tile) : (s.setTile t x).pcie = s.pcie := rfl
@[simp] theorem State.setTile_bus (t : BitVec 6) (x : Tile) : (s.setTile t x).bus = s.bus := rfl
@[simp] theorem State.setTile_plan (t : BitVec 6) (x : Tile) : (s.setTile t x).plan = s.plan := rfl
@[simp] theorem State.setTile_engines (t : BitVec 6) (x : Tile) : (s.setTile t x).engines = s.engines := rfl
@[simp] theorem State.setTile_engInt (t : BitVec 6) (x : Tile) : (s.setTile t x).engInt = s.engInt := rfl
@[simp] theorem State.setTile_engMask (t : BitVec 6) (x : Tile) : (s.setTile t x).engMask = s.engMask := rfl
@[simp] theorem State.setTile_queues (t : BitVec 6) (x : Tile) : (s.setTile t x).queues = s.queues := rfl
@[simp] theorem State.setTile_arb (t : BitVec 6) (x : Tile) : (s.setTile t x).arb = s.arb := rfl
@[simp] theorem State.setTile_jobs (t : BitVec 6) (x : Tile) : (s.setTile t x).jobs = s.jobs := rfl
@[simp] theorem State.setTile_crates (t : BitVec 6) (x : Tile) : (s.setTile t x).crates = s.crates := rfl
@[simp] theorem State.setTile_porter (t : BitVec 6) (x : Tile) : (s.setTile t x).porter = s.porter := rfl
@[simp] theorem State.setTile_pitches (t : BitVec 6) (x : Tile) : (s.setTile t x).pitches = s.pitches := rfl
@[simp] theorem State.setTile_contexts (t : BitVec 6) (x : Tile) : (s.setTile t x).contexts = s.contexts := rfl
@[simp] theorem State.setTile_vault (t : BitVec 6) (x : Tile) : (s.setTile t x).vault = s.vault := rfl
@[simp] theorem State.setTile_seq (t : BitVec 6) (x : Tile) : (s.setTile t x).seq = s.seq := rfl
@[simp] theorem State.setTile_rng (t : BitVec 6) (x : Tile) : (s.setTile t x).rng = s.rng := rfl
@[simp] theorem State.setTile_life (t : BitVec 6) (x : Tile) : (s.setTile t x).life = s.life := rfl
@[simp] theorem State.setTile_alarm (t : BitVec 6) (x : Tile) : (s.setTile t x).alarm = s.alarm := rfl
@[simp] theorem State.setTile_battery (t : BitVec 6) (x : Tile) : (s.setTile t x).battery = s.battery := rfl
@[simp] theorem State.setTile_ledger (t : BitVec 6) (x : Tile) : (s.setTile t x).ledger = s.ledger := rfl
@[simp] theorem State.setTile_nv (t : BitVec 6) (x : Tile) : (s.setTile t x).nv = s.nv := rfl
@[simp] theorem State.setTile_pace (t : BitVec 6) (x : Tile) : (s.setTile t x).pace = s.pace := rfl
@[simp] theorem State.setTile_boot (t : BitVec 6) (x : Tile) : (s.setTile t x).boot = s.boot := rfl
@[simp] theorem State.setTile_links (t : BitVec 6) (x : Tile) : (s.setTile t x).links = s.links := rfl
@[simp] theorem State.setTile_stream (t : BitVec 6) (x : Tile) : (s.setTile t x).stream = s.stream := rfl
@[simp] theorem State.setTile_cards (t : BitVec 6) (x : Tile) : (s.setTile t x).cards = s.cards := rfl
@[simp] theorem State.setTile_host (t : BitVec 6) (x : Tile) : (s.setTile t x).host = s.host := rfl
@[simp] theorem State.setTile_out (t : BitVec 6) (x : Tile) : (s.setTile t x).out = s.out := rfl
@[simp] theorem State.setTile_genuine (t : BitVec 6) (x : Tile) : (s.setTile t x).genuine = s.genuine := rfl
@[simp] theorem State.setTile_draws (t : BitVec 6) (x : Tile) : (s.setTile t x).draws = s.draws := rfl
@[simp] theorem State.setTile_clock (t : BitVec 6) (x : Tile) : (s.setTile t x).clock = s.clock := rfl

/-! ### State.setEngine changes engines alone -/

@[simp] theorem State.setEngine_pending (e : BitVec 3) (x : Engine) : (s.setEngine e x).pending = s.pending := rfl
@[simp] theorem State.setEngine_dev (e : BitVec 3) (x : Engine) : (s.setEngine e x).dev = s.dev := rfl
@[simp] theorem State.setEngine_pcie (e : BitVec 3) (x : Engine) : (s.setEngine e x).pcie = s.pcie := rfl
@[simp] theorem State.setEngine_bus (e : BitVec 3) (x : Engine) : (s.setEngine e x).bus = s.bus := rfl
@[simp] theorem State.setEngine_plan (e : BitVec 3) (x : Engine) : (s.setEngine e x).plan = s.plan := rfl
@[simp] theorem State.setEngine_tiles (e : BitVec 3) (x : Engine) : (s.setEngine e x).tiles = s.tiles := rfl
@[simp] theorem State.setEngine_engInt (e : BitVec 3) (x : Engine) : (s.setEngine e x).engInt = s.engInt := rfl
@[simp] theorem State.setEngine_engMask (e : BitVec 3) (x : Engine) : (s.setEngine e x).engMask = s.engMask := rfl
@[simp] theorem State.setEngine_queues (e : BitVec 3) (x : Engine) : (s.setEngine e x).queues = s.queues := rfl
@[simp] theorem State.setEngine_arb (e : BitVec 3) (x : Engine) : (s.setEngine e x).arb = s.arb := rfl
@[simp] theorem State.setEngine_jobs (e : BitVec 3) (x : Engine) : (s.setEngine e x).jobs = s.jobs := rfl
@[simp] theorem State.setEngine_crates (e : BitVec 3) (x : Engine) : (s.setEngine e x).crates = s.crates := rfl
@[simp] theorem State.setEngine_porter (e : BitVec 3) (x : Engine) : (s.setEngine e x).porter = s.porter := rfl
@[simp] theorem State.setEngine_pitches (e : BitVec 3) (x : Engine) : (s.setEngine e x).pitches = s.pitches := rfl
@[simp] theorem State.setEngine_contexts (e : BitVec 3) (x : Engine) : (s.setEngine e x).contexts = s.contexts := rfl
@[simp] theorem State.setEngine_vault (e : BitVec 3) (x : Engine) : (s.setEngine e x).vault = s.vault := rfl
@[simp] theorem State.setEngine_seq (e : BitVec 3) (x : Engine) : (s.setEngine e x).seq = s.seq := rfl
@[simp] theorem State.setEngine_rng (e : BitVec 3) (x : Engine) : (s.setEngine e x).rng = s.rng := rfl
@[simp] theorem State.setEngine_life (e : BitVec 3) (x : Engine) : (s.setEngine e x).life = s.life := rfl
@[simp] theorem State.setEngine_alarm (e : BitVec 3) (x : Engine) : (s.setEngine e x).alarm = s.alarm := rfl
@[simp] theorem State.setEngine_battery (e : BitVec 3) (x : Engine) : (s.setEngine e x).battery = s.battery := rfl
@[simp] theorem State.setEngine_ledger (e : BitVec 3) (x : Engine) : (s.setEngine e x).ledger = s.ledger := rfl
@[simp] theorem State.setEngine_nv (e : BitVec 3) (x : Engine) : (s.setEngine e x).nv = s.nv := rfl
@[simp] theorem State.setEngine_pace (e : BitVec 3) (x : Engine) : (s.setEngine e x).pace = s.pace := rfl
@[simp] theorem State.setEngine_boot (e : BitVec 3) (x : Engine) : (s.setEngine e x).boot = s.boot := rfl
@[simp] theorem State.setEngine_links (e : BitVec 3) (x : Engine) : (s.setEngine e x).links = s.links := rfl
@[simp] theorem State.setEngine_stream (e : BitVec 3) (x : Engine) : (s.setEngine e x).stream = s.stream := rfl
@[simp] theorem State.setEngine_cards (e : BitVec 3) (x : Engine) : (s.setEngine e x).cards = s.cards := rfl
@[simp] theorem State.setEngine_host (e : BitVec 3) (x : Engine) : (s.setEngine e x).host = s.host := rfl
@[simp] theorem State.setEngine_out (e : BitVec 3) (x : Engine) : (s.setEngine e x).out = s.out := rfl
@[simp] theorem State.setEngine_genuine (e : BitVec 3) (x : Engine) : (s.setEngine e x).genuine = s.genuine := rfl
@[simp] theorem State.setEngine_draws (e : BitVec 3) (x : Engine) : (s.setEngine e x).draws = s.draws := rfl
@[simp] theorem State.setEngine_clock (e : BitVec 3) (x : Engine) : (s.setEngine e x).clock = s.clock := rfl

/-! ### State.setSlot changes vault alone -/

@[simp] theorem State.setSlot_pending (n : BitVec 13) (x : Slot) : (s.setSlot n x).pending = s.pending := rfl
@[simp] theorem State.setSlot_dev (n : BitVec 13) (x : Slot) : (s.setSlot n x).dev = s.dev := rfl
@[simp] theorem State.setSlot_pcie (n : BitVec 13) (x : Slot) : (s.setSlot n x).pcie = s.pcie := rfl
@[simp] theorem State.setSlot_bus (n : BitVec 13) (x : Slot) : (s.setSlot n x).bus = s.bus := rfl
@[simp] theorem State.setSlot_plan (n : BitVec 13) (x : Slot) : (s.setSlot n x).plan = s.plan := rfl
@[simp] theorem State.setSlot_tiles (n : BitVec 13) (x : Slot) : (s.setSlot n x).tiles = s.tiles := rfl
@[simp] theorem State.setSlot_engines (n : BitVec 13) (x : Slot) : (s.setSlot n x).engines = s.engines := rfl
@[simp] theorem State.setSlot_engInt (n : BitVec 13) (x : Slot) : (s.setSlot n x).engInt = s.engInt := rfl
@[simp] theorem State.setSlot_engMask (n : BitVec 13) (x : Slot) : (s.setSlot n x).engMask = s.engMask := rfl
@[simp] theorem State.setSlot_queues (n : BitVec 13) (x : Slot) : (s.setSlot n x).queues = s.queues := rfl
@[simp] theorem State.setSlot_arb (n : BitVec 13) (x : Slot) : (s.setSlot n x).arb = s.arb := rfl
@[simp] theorem State.setSlot_jobs (n : BitVec 13) (x : Slot) : (s.setSlot n x).jobs = s.jobs := rfl
@[simp] theorem State.setSlot_crates (n : BitVec 13) (x : Slot) : (s.setSlot n x).crates = s.crates := rfl
@[simp] theorem State.setSlot_porter (n : BitVec 13) (x : Slot) : (s.setSlot n x).porter = s.porter := rfl
@[simp] theorem State.setSlot_pitches (n : BitVec 13) (x : Slot) : (s.setSlot n x).pitches = s.pitches := rfl
@[simp] theorem State.setSlot_contexts (n : BitVec 13) (x : Slot) : (s.setSlot n x).contexts = s.contexts := rfl
@[simp] theorem State.setSlot_seq (n : BitVec 13) (x : Slot) : (s.setSlot n x).seq = s.seq := rfl
@[simp] theorem State.setSlot_rng (n : BitVec 13) (x : Slot) : (s.setSlot n x).rng = s.rng := rfl
@[simp] theorem State.setSlot_life (n : BitVec 13) (x : Slot) : (s.setSlot n x).life = s.life := rfl
@[simp] theorem State.setSlot_alarm (n : BitVec 13) (x : Slot) : (s.setSlot n x).alarm = s.alarm := rfl
@[simp] theorem State.setSlot_battery (n : BitVec 13) (x : Slot) : (s.setSlot n x).battery = s.battery := rfl
@[simp] theorem State.setSlot_ledger (n : BitVec 13) (x : Slot) : (s.setSlot n x).ledger = s.ledger := rfl
@[simp] theorem State.setSlot_nv (n : BitVec 13) (x : Slot) : (s.setSlot n x).nv = s.nv := rfl
@[simp] theorem State.setSlot_pace (n : BitVec 13) (x : Slot) : (s.setSlot n x).pace = s.pace := rfl
@[simp] theorem State.setSlot_boot (n : BitVec 13) (x : Slot) : (s.setSlot n x).boot = s.boot := rfl
@[simp] theorem State.setSlot_links (n : BitVec 13) (x : Slot) : (s.setSlot n x).links = s.links := rfl
@[simp] theorem State.setSlot_stream (n : BitVec 13) (x : Slot) : (s.setSlot n x).stream = s.stream := rfl
@[simp] theorem State.setSlot_cards (n : BitVec 13) (x : Slot) : (s.setSlot n x).cards = s.cards := rfl
@[simp] theorem State.setSlot_host (n : BitVec 13) (x : Slot) : (s.setSlot n x).host = s.host := rfl
@[simp] theorem State.setSlot_out (n : BitVec 13) (x : Slot) : (s.setSlot n x).out = s.out := rfl
@[simp] theorem State.setSlot_genuine (n : BitVec 13) (x : Slot) : (s.setSlot n x).genuine = s.genuine := rfl
@[simp] theorem State.setSlot_draws (n : BitVec 13) (x : Slot) : (s.setSlot n x).draws = s.draws := rfl
@[simp] theorem State.setSlot_clock (n : BitVec 13) (x : Slot) : (s.setSlot n x).clock = s.clock := rfl

/-! ### State.setCrate changes crates alone -/

@[simp] theorem State.setCrate_pending (n : Nat) (x : Option Crate) : (s.setCrate n x).pending = s.pending := rfl
@[simp] theorem State.setCrate_dev (n : Nat) (x : Option Crate) : (s.setCrate n x).dev = s.dev := rfl
@[simp] theorem State.setCrate_pcie (n : Nat) (x : Option Crate) : (s.setCrate n x).pcie = s.pcie := rfl
@[simp] theorem State.setCrate_bus (n : Nat) (x : Option Crate) : (s.setCrate n x).bus = s.bus := rfl
@[simp] theorem State.setCrate_plan (n : Nat) (x : Option Crate) : (s.setCrate n x).plan = s.plan := rfl
@[simp] theorem State.setCrate_tiles (n : Nat) (x : Option Crate) : (s.setCrate n x).tiles = s.tiles := rfl
@[simp] theorem State.setCrate_engines (n : Nat) (x : Option Crate) : (s.setCrate n x).engines = s.engines := rfl
@[simp] theorem State.setCrate_engInt (n : Nat) (x : Option Crate) : (s.setCrate n x).engInt = s.engInt := rfl
@[simp] theorem State.setCrate_engMask (n : Nat) (x : Option Crate) : (s.setCrate n x).engMask = s.engMask := rfl
@[simp] theorem State.setCrate_queues (n : Nat) (x : Option Crate) : (s.setCrate n x).queues = s.queues := rfl
@[simp] theorem State.setCrate_arb (n : Nat) (x : Option Crate) : (s.setCrate n x).arb = s.arb := rfl
@[simp] theorem State.setCrate_jobs (n : Nat) (x : Option Crate) : (s.setCrate n x).jobs = s.jobs := rfl
@[simp] theorem State.setCrate_porter (n : Nat) (x : Option Crate) : (s.setCrate n x).porter = s.porter := rfl
@[simp] theorem State.setCrate_pitches (n : Nat) (x : Option Crate) : (s.setCrate n x).pitches = s.pitches := rfl
@[simp] theorem State.setCrate_contexts (n : Nat) (x : Option Crate) : (s.setCrate n x).contexts = s.contexts := rfl
@[simp] theorem State.setCrate_vault (n : Nat) (x : Option Crate) : (s.setCrate n x).vault = s.vault := rfl
@[simp] theorem State.setCrate_seq (n : Nat) (x : Option Crate) : (s.setCrate n x).seq = s.seq := rfl
@[simp] theorem State.setCrate_rng (n : Nat) (x : Option Crate) : (s.setCrate n x).rng = s.rng := rfl
@[simp] theorem State.setCrate_life (n : Nat) (x : Option Crate) : (s.setCrate n x).life = s.life := rfl
@[simp] theorem State.setCrate_alarm (n : Nat) (x : Option Crate) : (s.setCrate n x).alarm = s.alarm := rfl
@[simp] theorem State.setCrate_battery (n : Nat) (x : Option Crate) : (s.setCrate n x).battery = s.battery := rfl
@[simp] theorem State.setCrate_ledger (n : Nat) (x : Option Crate) : (s.setCrate n x).ledger = s.ledger := rfl
@[simp] theorem State.setCrate_nv (n : Nat) (x : Option Crate) : (s.setCrate n x).nv = s.nv := rfl
@[simp] theorem State.setCrate_pace (n : Nat) (x : Option Crate) : (s.setCrate n x).pace = s.pace := rfl
@[simp] theorem State.setCrate_boot (n : Nat) (x : Option Crate) : (s.setCrate n x).boot = s.boot := rfl
@[simp] theorem State.setCrate_links (n : Nat) (x : Option Crate) : (s.setCrate n x).links = s.links := rfl
@[simp] theorem State.setCrate_stream (n : Nat) (x : Option Crate) : (s.setCrate n x).stream = s.stream := rfl
@[simp] theorem State.setCrate_cards (n : Nat) (x : Option Crate) : (s.setCrate n x).cards = s.cards := rfl
@[simp] theorem State.setCrate_host (n : Nat) (x : Option Crate) : (s.setCrate n x).host = s.host := rfl
@[simp] theorem State.setCrate_out (n : Nat) (x : Option Crate) : (s.setCrate n x).out = s.out := rfl
@[simp] theorem State.setCrate_genuine (n : Nat) (x : Option Crate) : (s.setCrate n x).genuine = s.genuine := rfl
@[simp] theorem State.setCrate_draws (n : Nat) (x : Option Crate) : (s.setCrate n x).draws = s.draws := rfl
@[simp] theorem State.setCrate_clock (n : Nat) (x : Option Crate) : (s.setCrate n x).clock = s.clock := rfl

/-! ### State.setJob changes jobs alone -/

@[simp] theorem State.setJob_pending (x : Job) : (s.setJob x).pending = s.pending := rfl
@[simp] theorem State.setJob_dev (x : Job) : (s.setJob x).dev = s.dev := rfl
@[simp] theorem State.setJob_pcie (x : Job) : (s.setJob x).pcie = s.pcie := rfl
@[simp] theorem State.setJob_bus (x : Job) : (s.setJob x).bus = s.bus := rfl
@[simp] theorem State.setJob_plan (x : Job) : (s.setJob x).plan = s.plan := rfl
@[simp] theorem State.setJob_tiles (x : Job) : (s.setJob x).tiles = s.tiles := rfl
@[simp] theorem State.setJob_engines (x : Job) : (s.setJob x).engines = s.engines := rfl
@[simp] theorem State.setJob_engInt (x : Job) : (s.setJob x).engInt = s.engInt := rfl
@[simp] theorem State.setJob_engMask (x : Job) : (s.setJob x).engMask = s.engMask := rfl
@[simp] theorem State.setJob_queues (x : Job) : (s.setJob x).queues = s.queues := rfl
@[simp] theorem State.setJob_arb (x : Job) : (s.setJob x).arb = s.arb := rfl
@[simp] theorem State.setJob_crates (x : Job) : (s.setJob x).crates = s.crates := rfl
@[simp] theorem State.setJob_porter (x : Job) : (s.setJob x).porter = s.porter := rfl
@[simp] theorem State.setJob_pitches (x : Job) : (s.setJob x).pitches = s.pitches := rfl
@[simp] theorem State.setJob_contexts (x : Job) : (s.setJob x).contexts = s.contexts := rfl
@[simp] theorem State.setJob_vault (x : Job) : (s.setJob x).vault = s.vault := rfl
@[simp] theorem State.setJob_seq (x : Job) : (s.setJob x).seq = s.seq := rfl
@[simp] theorem State.setJob_rng (x : Job) : (s.setJob x).rng = s.rng := rfl
@[simp] theorem State.setJob_life (x : Job) : (s.setJob x).life = s.life := rfl
@[simp] theorem State.setJob_alarm (x : Job) : (s.setJob x).alarm = s.alarm := rfl
@[simp] theorem State.setJob_battery (x : Job) : (s.setJob x).battery = s.battery := rfl
@[simp] theorem State.setJob_ledger (x : Job) : (s.setJob x).ledger = s.ledger := rfl
@[simp] theorem State.setJob_nv (x : Job) : (s.setJob x).nv = s.nv := rfl
@[simp] theorem State.setJob_pace (x : Job) : (s.setJob x).pace = s.pace := rfl
@[simp] theorem State.setJob_boot (x : Job) : (s.setJob x).boot = s.boot := rfl
@[simp] theorem State.setJob_links (x : Job) : (s.setJob x).links = s.links := rfl
@[simp] theorem State.setJob_stream (x : Job) : (s.setJob x).stream = s.stream := rfl
@[simp] theorem State.setJob_cards (x : Job) : (s.setJob x).cards = s.cards := rfl
@[simp] theorem State.setJob_host (x : Job) : (s.setJob x).host = s.host := rfl
@[simp] theorem State.setJob_out (x : Job) : (s.setJob x).out = s.out := rfl
@[simp] theorem State.setJob_genuine (x : Job) : (s.setJob x).genuine = s.genuine := rfl
@[simp] theorem State.setJob_draws (x : Job) : (s.setJob x).draws = s.draws := rfl
@[simp] theorem State.setJob_clock (x : Job) : (s.setJob x).clock = s.clock := rfl

/-! ### State.dropJob changes jobs alone -/

@[simp] theorem State.dropJob_pending (j : JobId) : (s.dropJob j).pending = s.pending := rfl
@[simp] theorem State.dropJob_dev (j : JobId) : (s.dropJob j).dev = s.dev := rfl
@[simp] theorem State.dropJob_pcie (j : JobId) : (s.dropJob j).pcie = s.pcie := rfl
@[simp] theorem State.dropJob_bus (j : JobId) : (s.dropJob j).bus = s.bus := rfl
@[simp] theorem State.dropJob_plan (j : JobId) : (s.dropJob j).plan = s.plan := rfl
@[simp] theorem State.dropJob_tiles (j : JobId) : (s.dropJob j).tiles = s.tiles := rfl
@[simp] theorem State.dropJob_engines (j : JobId) : (s.dropJob j).engines = s.engines := rfl
@[simp] theorem State.dropJob_engInt (j : JobId) : (s.dropJob j).engInt = s.engInt := rfl
@[simp] theorem State.dropJob_engMask (j : JobId) : (s.dropJob j).engMask = s.engMask := rfl
@[simp] theorem State.dropJob_queues (j : JobId) : (s.dropJob j).queues = s.queues := rfl
@[simp] theorem State.dropJob_arb (j : JobId) : (s.dropJob j).arb = s.arb := rfl
@[simp] theorem State.dropJob_crates (j : JobId) : (s.dropJob j).crates = s.crates := rfl
@[simp] theorem State.dropJob_porter (j : JobId) : (s.dropJob j).porter = s.porter := rfl
@[simp] theorem State.dropJob_pitches (j : JobId) : (s.dropJob j).pitches = s.pitches := rfl
@[simp] theorem State.dropJob_contexts (j : JobId) : (s.dropJob j).contexts = s.contexts := rfl
@[simp] theorem State.dropJob_vault (j : JobId) : (s.dropJob j).vault = s.vault := rfl
@[simp] theorem State.dropJob_seq (j : JobId) : (s.dropJob j).seq = s.seq := rfl
@[simp] theorem State.dropJob_rng (j : JobId) : (s.dropJob j).rng = s.rng := rfl
@[simp] theorem State.dropJob_life (j : JobId) : (s.dropJob j).life = s.life := rfl
@[simp] theorem State.dropJob_alarm (j : JobId) : (s.dropJob j).alarm = s.alarm := rfl
@[simp] theorem State.dropJob_battery (j : JobId) : (s.dropJob j).battery = s.battery := rfl
@[simp] theorem State.dropJob_ledger (j : JobId) : (s.dropJob j).ledger = s.ledger := rfl
@[simp] theorem State.dropJob_nv (j : JobId) : (s.dropJob j).nv = s.nv := rfl
@[simp] theorem State.dropJob_pace (j : JobId) : (s.dropJob j).pace = s.pace := rfl
@[simp] theorem State.dropJob_boot (j : JobId) : (s.dropJob j).boot = s.boot := rfl
@[simp] theorem State.dropJob_links (j : JobId) : (s.dropJob j).links = s.links := rfl
@[simp] theorem State.dropJob_stream (j : JobId) : (s.dropJob j).stream = s.stream := rfl
@[simp] theorem State.dropJob_cards (j : JobId) : (s.dropJob j).cards = s.cards := rfl
@[simp] theorem State.dropJob_host (j : JobId) : (s.dropJob j).host = s.host := rfl
@[simp] theorem State.dropJob_out (j : JobId) : (s.dropJob j).out = s.out := rfl
@[simp] theorem State.dropJob_genuine (j : JobId) : (s.dropJob j).genuine = s.genuine := rfl
@[simp] theorem State.dropJob_draws (j : JobId) : (s.dropJob j).draws = s.draws := rfl
@[simp] theorem State.dropJob_clock (j : JobId) : (s.dropJob j).clock = s.clock := rfl

/-! ### State.setDq changes stream alone -/

@[simp] theorem State.setDq_pending (d : BitVec 8) (x : Dq) : (s.setDq d x).pending = s.pending := rfl
@[simp] theorem State.setDq_dev (d : BitVec 8) (x : Dq) : (s.setDq d x).dev = s.dev := rfl
@[simp] theorem State.setDq_pcie (d : BitVec 8) (x : Dq) : (s.setDq d x).pcie = s.pcie := rfl
@[simp] theorem State.setDq_bus (d : BitVec 8) (x : Dq) : (s.setDq d x).bus = s.bus := rfl
@[simp] theorem State.setDq_plan (d : BitVec 8) (x : Dq) : (s.setDq d x).plan = s.plan := rfl
@[simp] theorem State.setDq_tiles (d : BitVec 8) (x : Dq) : (s.setDq d x).tiles = s.tiles := rfl
@[simp] theorem State.setDq_engines (d : BitVec 8) (x : Dq) : (s.setDq d x).engines = s.engines := rfl
@[simp] theorem State.setDq_engInt (d : BitVec 8) (x : Dq) : (s.setDq d x).engInt = s.engInt := rfl
@[simp] theorem State.setDq_engMask (d : BitVec 8) (x : Dq) : (s.setDq d x).engMask = s.engMask := rfl
@[simp] theorem State.setDq_queues (d : BitVec 8) (x : Dq) : (s.setDq d x).queues = s.queues := rfl
@[simp] theorem State.setDq_arb (d : BitVec 8) (x : Dq) : (s.setDq d x).arb = s.arb := rfl
@[simp] theorem State.setDq_jobs (d : BitVec 8) (x : Dq) : (s.setDq d x).jobs = s.jobs := rfl
@[simp] theorem State.setDq_crates (d : BitVec 8) (x : Dq) : (s.setDq d x).crates = s.crates := rfl
@[simp] theorem State.setDq_porter (d : BitVec 8) (x : Dq) : (s.setDq d x).porter = s.porter := rfl
@[simp] theorem State.setDq_pitches (d : BitVec 8) (x : Dq) : (s.setDq d x).pitches = s.pitches := rfl
@[simp] theorem State.setDq_contexts (d : BitVec 8) (x : Dq) : (s.setDq d x).contexts = s.contexts := rfl
@[simp] theorem State.setDq_vault (d : BitVec 8) (x : Dq) : (s.setDq d x).vault = s.vault := rfl
@[simp] theorem State.setDq_seq (d : BitVec 8) (x : Dq) : (s.setDq d x).seq = s.seq := rfl
@[simp] theorem State.setDq_rng (d : BitVec 8) (x : Dq) : (s.setDq d x).rng = s.rng := rfl
@[simp] theorem State.setDq_life (d : BitVec 8) (x : Dq) : (s.setDq d x).life = s.life := rfl
@[simp] theorem State.setDq_alarm (d : BitVec 8) (x : Dq) : (s.setDq d x).alarm = s.alarm := rfl
@[simp] theorem State.setDq_battery (d : BitVec 8) (x : Dq) : (s.setDq d x).battery = s.battery := rfl
@[simp] theorem State.setDq_ledger (d : BitVec 8) (x : Dq) : (s.setDq d x).ledger = s.ledger := rfl
@[simp] theorem State.setDq_nv (d : BitVec 8) (x : Dq) : (s.setDq d x).nv = s.nv := rfl
@[simp] theorem State.setDq_pace (d : BitVec 8) (x : Dq) : (s.setDq d x).pace = s.pace := rfl
@[simp] theorem State.setDq_boot (d : BitVec 8) (x : Dq) : (s.setDq d x).boot = s.boot := rfl
@[simp] theorem State.setDq_links (d : BitVec 8) (x : Dq) : (s.setDq d x).links = s.links := rfl
@[simp] theorem State.setDq_cards (d : BitVec 8) (x : Dq) : (s.setDq d x).cards = s.cards := rfl
@[simp] theorem State.setDq_host (d : BitVec 8) (x : Dq) : (s.setDq d x).host = s.host := rfl
@[simp] theorem State.setDq_out (d : BitVec 8) (x : Dq) : (s.setDq d x).out = s.out := rfl
@[simp] theorem State.setDq_genuine (d : BitVec 8) (x : Dq) : (s.setDq d x).genuine = s.genuine := rfl
@[simp] theorem State.setDq_draws (d : BitVec 8) (x : Dq) : (s.setDq d x).draws = s.draws := rfl
@[simp] theorem State.setDq_clock (d : BitVec 8) (x : Dq) : (s.setDq d x).clock = s.clock := rfl

/-! ### State.setDrbg changes rng alone -/

@[simp] theorem State.setDrbg_pending (p : BitVec 8) (x : Drbg) : (s.setDrbg p x).pending = s.pending := rfl
@[simp] theorem State.setDrbg_dev (p : BitVec 8) (x : Drbg) : (s.setDrbg p x).dev = s.dev := rfl
@[simp] theorem State.setDrbg_pcie (p : BitVec 8) (x : Drbg) : (s.setDrbg p x).pcie = s.pcie := rfl
@[simp] theorem State.setDrbg_bus (p : BitVec 8) (x : Drbg) : (s.setDrbg p x).bus = s.bus := rfl
@[simp] theorem State.setDrbg_plan (p : BitVec 8) (x : Drbg) : (s.setDrbg p x).plan = s.plan := rfl
@[simp] theorem State.setDrbg_tiles (p : BitVec 8) (x : Drbg) : (s.setDrbg p x).tiles = s.tiles := rfl
@[simp] theorem State.setDrbg_engines (p : BitVec 8) (x : Drbg) : (s.setDrbg p x).engines = s.engines := rfl
@[simp] theorem State.setDrbg_engInt (p : BitVec 8) (x : Drbg) : (s.setDrbg p x).engInt = s.engInt := rfl
@[simp] theorem State.setDrbg_engMask (p : BitVec 8) (x : Drbg) : (s.setDrbg p x).engMask = s.engMask := rfl
@[simp] theorem State.setDrbg_queues (p : BitVec 8) (x : Drbg) : (s.setDrbg p x).queues = s.queues := rfl
@[simp] theorem State.setDrbg_arb (p : BitVec 8) (x : Drbg) : (s.setDrbg p x).arb = s.arb := rfl
@[simp] theorem State.setDrbg_jobs (p : BitVec 8) (x : Drbg) : (s.setDrbg p x).jobs = s.jobs := rfl
@[simp] theorem State.setDrbg_crates (p : BitVec 8) (x : Drbg) : (s.setDrbg p x).crates = s.crates := rfl
@[simp] theorem State.setDrbg_porter (p : BitVec 8) (x : Drbg) : (s.setDrbg p x).porter = s.porter := rfl
@[simp] theorem State.setDrbg_pitches (p : BitVec 8) (x : Drbg) : (s.setDrbg p x).pitches = s.pitches := rfl
@[simp] theorem State.setDrbg_contexts (p : BitVec 8) (x : Drbg) : (s.setDrbg p x).contexts = s.contexts := rfl
@[simp] theorem State.setDrbg_vault (p : BitVec 8) (x : Drbg) : (s.setDrbg p x).vault = s.vault := rfl
@[simp] theorem State.setDrbg_seq (p : BitVec 8) (x : Drbg) : (s.setDrbg p x).seq = s.seq := rfl
@[simp] theorem State.setDrbg_life (p : BitVec 8) (x : Drbg) : (s.setDrbg p x).life = s.life := rfl
@[simp] theorem State.setDrbg_alarm (p : BitVec 8) (x : Drbg) : (s.setDrbg p x).alarm = s.alarm := rfl
@[simp] theorem State.setDrbg_battery (p : BitVec 8) (x : Drbg) : (s.setDrbg p x).battery = s.battery := rfl
@[simp] theorem State.setDrbg_ledger (p : BitVec 8) (x : Drbg) : (s.setDrbg p x).ledger = s.ledger := rfl
@[simp] theorem State.setDrbg_nv (p : BitVec 8) (x : Drbg) : (s.setDrbg p x).nv = s.nv := rfl
@[simp] theorem State.setDrbg_pace (p : BitVec 8) (x : Drbg) : (s.setDrbg p x).pace = s.pace := rfl
@[simp] theorem State.setDrbg_boot (p : BitVec 8) (x : Drbg) : (s.setDrbg p x).boot = s.boot := rfl
@[simp] theorem State.setDrbg_links (p : BitVec 8) (x : Drbg) : (s.setDrbg p x).links = s.links := rfl
@[simp] theorem State.setDrbg_stream (p : BitVec 8) (x : Drbg) : (s.setDrbg p x).stream = s.stream := rfl
@[simp] theorem State.setDrbg_cards (p : BitVec 8) (x : Drbg) : (s.setDrbg p x).cards = s.cards := rfl
@[simp] theorem State.setDrbg_host (p : BitVec 8) (x : Drbg) : (s.setDrbg p x).host = s.host := rfl
@[simp] theorem State.setDrbg_out (p : BitVec 8) (x : Drbg) : (s.setDrbg p x).out = s.out := rfl
@[simp] theorem State.setDrbg_genuine (p : BitVec 8) (x : Drbg) : (s.setDrbg p x).genuine = s.genuine := rfl
@[simp] theorem State.setDrbg_draws (p : BitVec 8) (x : Drbg) : (s.setDrbg p x).draws = s.draws := rfl
@[simp] theorem State.setDrbg_clock (p : BitVec 8) (x : Drbg) : (s.setDrbg p x).clock = s.clock := rfl

/-! ### State.setLink changes links alone -/

@[simp] theorem State.setLink_pending (k : BitVec 2) (x : Link) : (s.setLink k x).pending = s.pending := rfl
@[simp] theorem State.setLink_dev (k : BitVec 2) (x : Link) : (s.setLink k x).dev = s.dev := rfl
@[simp] theorem State.setLink_pcie (k : BitVec 2) (x : Link) : (s.setLink k x).pcie = s.pcie := rfl
@[simp] theorem State.setLink_bus (k : BitVec 2) (x : Link) : (s.setLink k x).bus = s.bus := rfl
@[simp] theorem State.setLink_plan (k : BitVec 2) (x : Link) : (s.setLink k x).plan = s.plan := rfl
@[simp] theorem State.setLink_tiles (k : BitVec 2) (x : Link) : (s.setLink k x).tiles = s.tiles := rfl
@[simp] theorem State.setLink_engines (k : BitVec 2) (x : Link) : (s.setLink k x).engines = s.engines := rfl
@[simp] theorem State.setLink_engInt (k : BitVec 2) (x : Link) : (s.setLink k x).engInt = s.engInt := rfl
@[simp] theorem State.setLink_engMask (k : BitVec 2) (x : Link) : (s.setLink k x).engMask = s.engMask := rfl
@[simp] theorem State.setLink_queues (k : BitVec 2) (x : Link) : (s.setLink k x).queues = s.queues := rfl
@[simp] theorem State.setLink_arb (k : BitVec 2) (x : Link) : (s.setLink k x).arb = s.arb := rfl
@[simp] theorem State.setLink_jobs (k : BitVec 2) (x : Link) : (s.setLink k x).jobs = s.jobs := rfl
@[simp] theorem State.setLink_crates (k : BitVec 2) (x : Link) : (s.setLink k x).crates = s.crates := rfl
@[simp] theorem State.setLink_porter (k : BitVec 2) (x : Link) : (s.setLink k x).porter = s.porter := rfl
@[simp] theorem State.setLink_pitches (k : BitVec 2) (x : Link) : (s.setLink k x).pitches = s.pitches := rfl
@[simp] theorem State.setLink_contexts (k : BitVec 2) (x : Link) : (s.setLink k x).contexts = s.contexts := rfl
@[simp] theorem State.setLink_vault (k : BitVec 2) (x : Link) : (s.setLink k x).vault = s.vault := rfl
@[simp] theorem State.setLink_seq (k : BitVec 2) (x : Link) : (s.setLink k x).seq = s.seq := rfl
@[simp] theorem State.setLink_rng (k : BitVec 2) (x : Link) : (s.setLink k x).rng = s.rng := rfl
@[simp] theorem State.setLink_life (k : BitVec 2) (x : Link) : (s.setLink k x).life = s.life := rfl
@[simp] theorem State.setLink_alarm (k : BitVec 2) (x : Link) : (s.setLink k x).alarm = s.alarm := rfl
@[simp] theorem State.setLink_battery (k : BitVec 2) (x : Link) : (s.setLink k x).battery = s.battery := rfl
@[simp] theorem State.setLink_ledger (k : BitVec 2) (x : Link) : (s.setLink k x).ledger = s.ledger := rfl
@[simp] theorem State.setLink_nv (k : BitVec 2) (x : Link) : (s.setLink k x).nv = s.nv := rfl
@[simp] theorem State.setLink_pace (k : BitVec 2) (x : Link) : (s.setLink k x).pace = s.pace := rfl
@[simp] theorem State.setLink_boot (k : BitVec 2) (x : Link) : (s.setLink k x).boot = s.boot := rfl
@[simp] theorem State.setLink_stream (k : BitVec 2) (x : Link) : (s.setLink k x).stream = s.stream := rfl
@[simp] theorem State.setLink_cards (k : BitVec 2) (x : Link) : (s.setLink k x).cards = s.cards := rfl
@[simp] theorem State.setLink_host (k : BitVec 2) (x : Link) : (s.setLink k x).host = s.host := rfl
@[simp] theorem State.setLink_out (k : BitVec 2) (x : Link) : (s.setLink k x).out = s.out := rfl
@[simp] theorem State.setLink_genuine (k : BitVec 2) (x : Link) : (s.setLink k x).genuine = s.genuine := rfl
@[simp] theorem State.setLink_draws (k : BitVec 2) (x : Link) : (s.setLink k x).draws = s.draws := rfl
@[simp] theorem State.setLink_clock (k : BitVec 2) (x : Link) : (s.setLink k x).clock = s.clock := rfl

/-! ### State.setBank changes nv alone -/

@[simp] theorem State.setBank_pending (k : BankKind) (b : Bool) (x : Bank) : (s.setBank k b x).pending = s.pending := by cases k <;> cases b <;> rfl
@[simp] theorem State.setBank_dev (k : BankKind) (b : Bool) (x : Bank) : (s.setBank k b x).dev = s.dev := by cases k <;> cases b <;> rfl
@[simp] theorem State.setBank_pcie (k : BankKind) (b : Bool) (x : Bank) : (s.setBank k b x).pcie = s.pcie := by cases k <;> cases b <;> rfl
@[simp] theorem State.setBank_bus (k : BankKind) (b : Bool) (x : Bank) : (s.setBank k b x).bus = s.bus := by cases k <;> cases b <;> rfl
@[simp] theorem State.setBank_plan (k : BankKind) (b : Bool) (x : Bank) : (s.setBank k b x).plan = s.plan := by cases k <;> cases b <;> rfl
@[simp] theorem State.setBank_tiles (k : BankKind) (b : Bool) (x : Bank) : (s.setBank k b x).tiles = s.tiles := by cases k <;> cases b <;> rfl
@[simp] theorem State.setBank_engines (k : BankKind) (b : Bool) (x : Bank) : (s.setBank k b x).engines = s.engines := by cases k <;> cases b <;> rfl
@[simp] theorem State.setBank_engInt (k : BankKind) (b : Bool) (x : Bank) : (s.setBank k b x).engInt = s.engInt := by cases k <;> cases b <;> rfl
@[simp] theorem State.setBank_engMask (k : BankKind) (b : Bool) (x : Bank) : (s.setBank k b x).engMask = s.engMask := by cases k <;> cases b <;> rfl
@[simp] theorem State.setBank_queues (k : BankKind) (b : Bool) (x : Bank) : (s.setBank k b x).queues = s.queues := by cases k <;> cases b <;> rfl
@[simp] theorem State.setBank_arb (k : BankKind) (b : Bool) (x : Bank) : (s.setBank k b x).arb = s.arb := by cases k <;> cases b <;> rfl
@[simp] theorem State.setBank_jobs (k : BankKind) (b : Bool) (x : Bank) : (s.setBank k b x).jobs = s.jobs := by cases k <;> cases b <;> rfl
@[simp] theorem State.setBank_crates (k : BankKind) (b : Bool) (x : Bank) : (s.setBank k b x).crates = s.crates := by cases k <;> cases b <;> rfl
@[simp] theorem State.setBank_porter (k : BankKind) (b : Bool) (x : Bank) : (s.setBank k b x).porter = s.porter := by cases k <;> cases b <;> rfl
@[simp] theorem State.setBank_pitches (k : BankKind) (b : Bool) (x : Bank) : (s.setBank k b x).pitches = s.pitches := by cases k <;> cases b <;> rfl
@[simp] theorem State.setBank_contexts (k : BankKind) (b : Bool) (x : Bank) : (s.setBank k b x).contexts = s.contexts := by cases k <;> cases b <;> rfl
@[simp] theorem State.setBank_vault (k : BankKind) (b : Bool) (x : Bank) : (s.setBank k b x).vault = s.vault := by cases k <;> cases b <;> rfl
@[simp] theorem State.setBank_seq (k : BankKind) (b : Bool) (x : Bank) : (s.setBank k b x).seq = s.seq := by cases k <;> cases b <;> rfl
@[simp] theorem State.setBank_rng (k : BankKind) (b : Bool) (x : Bank) : (s.setBank k b x).rng = s.rng := by cases k <;> cases b <;> rfl
@[simp] theorem State.setBank_life (k : BankKind) (b : Bool) (x : Bank) : (s.setBank k b x).life = s.life := by cases k <;> cases b <;> rfl
@[simp] theorem State.setBank_alarm (k : BankKind) (b : Bool) (x : Bank) : (s.setBank k b x).alarm = s.alarm := by cases k <;> cases b <;> rfl
@[simp] theorem State.setBank_battery (k : BankKind) (b : Bool) (x : Bank) : (s.setBank k b x).battery = s.battery := by cases k <;> cases b <;> rfl
@[simp] theorem State.setBank_ledger (k : BankKind) (b : Bool) (x : Bank) : (s.setBank k b x).ledger = s.ledger := by cases k <;> cases b <;> rfl
@[simp] theorem State.setBank_pace (k : BankKind) (b : Bool) (x : Bank) : (s.setBank k b x).pace = s.pace := by cases k <;> cases b <;> rfl
@[simp] theorem State.setBank_boot (k : BankKind) (b : Bool) (x : Bank) : (s.setBank k b x).boot = s.boot := by cases k <;> cases b <;> rfl
@[simp] theorem State.setBank_links (k : BankKind) (b : Bool) (x : Bank) : (s.setBank k b x).links = s.links := by cases k <;> cases b <;> rfl
@[simp] theorem State.setBank_stream (k : BankKind) (b : Bool) (x : Bank) : (s.setBank k b x).stream = s.stream := by cases k <;> cases b <;> rfl
@[simp] theorem State.setBank_cards (k : BankKind) (b : Bool) (x : Bank) : (s.setBank k b x).cards = s.cards := by cases k <;> cases b <;> rfl
@[simp] theorem State.setBank_host (k : BankKind) (b : Bool) (x : Bank) : (s.setBank k b x).host = s.host := by cases k <;> cases b <;> rfl
@[simp] theorem State.setBank_out (k : BankKind) (b : Bool) (x : Bank) : (s.setBank k b x).out = s.out := by cases k <;> cases b <;> rfl
@[simp] theorem State.setBank_genuine (k : BankKind) (b : Bool) (x : Bank) : (s.setBank k b x).genuine = s.genuine := by cases k <;> cases b <;> rfl
@[simp] theorem State.setBank_draws (k : BankKind) (b : Bool) (x : Bank) : (s.setBank k b x).draws = s.draws := by cases k <;> cases b <;> rfl
@[simp] theorem State.setBank_clock (k : BankKind) (b : Bool) (x : Bank) : (s.setBank k b x).clock = s.clock := by cases k <;> cases b <;> rfl

/-! ### State.setBean changes rng alone -/

@[simp] theorem State.setBean_pending (n : Nat) (x : Bean) : (s.setBean n x).pending = s.pending := rfl
@[simp] theorem State.setBean_dev (n : Nat) (x : Bean) : (s.setBean n x).dev = s.dev := rfl
@[simp] theorem State.setBean_pcie (n : Nat) (x : Bean) : (s.setBean n x).pcie = s.pcie := rfl
@[simp] theorem State.setBean_bus (n : Nat) (x : Bean) : (s.setBean n x).bus = s.bus := rfl
@[simp] theorem State.setBean_plan (n : Nat) (x : Bean) : (s.setBean n x).plan = s.plan := rfl
@[simp] theorem State.setBean_tiles (n : Nat) (x : Bean) : (s.setBean n x).tiles = s.tiles := rfl
@[simp] theorem State.setBean_engines (n : Nat) (x : Bean) : (s.setBean n x).engines = s.engines := rfl
@[simp] theorem State.setBean_engInt (n : Nat) (x : Bean) : (s.setBean n x).engInt = s.engInt := rfl
@[simp] theorem State.setBean_engMask (n : Nat) (x : Bean) : (s.setBean n x).engMask = s.engMask := rfl
@[simp] theorem State.setBean_queues (n : Nat) (x : Bean) : (s.setBean n x).queues = s.queues := rfl
@[simp] theorem State.setBean_arb (n : Nat) (x : Bean) : (s.setBean n x).arb = s.arb := rfl
@[simp] theorem State.setBean_jobs (n : Nat) (x : Bean) : (s.setBean n x).jobs = s.jobs := rfl
@[simp] theorem State.setBean_crates (n : Nat) (x : Bean) : (s.setBean n x).crates = s.crates := rfl
@[simp] theorem State.setBean_porter (n : Nat) (x : Bean) : (s.setBean n x).porter = s.porter := rfl
@[simp] theorem State.setBean_pitches (n : Nat) (x : Bean) : (s.setBean n x).pitches = s.pitches := rfl
@[simp] theorem State.setBean_contexts (n : Nat) (x : Bean) : (s.setBean n x).contexts = s.contexts := rfl
@[simp] theorem State.setBean_vault (n : Nat) (x : Bean) : (s.setBean n x).vault = s.vault := rfl
@[simp] theorem State.setBean_seq (n : Nat) (x : Bean) : (s.setBean n x).seq = s.seq := rfl
@[simp] theorem State.setBean_life (n : Nat) (x : Bean) : (s.setBean n x).life = s.life := rfl
@[simp] theorem State.setBean_alarm (n : Nat) (x : Bean) : (s.setBean n x).alarm = s.alarm := rfl
@[simp] theorem State.setBean_battery (n : Nat) (x : Bean) : (s.setBean n x).battery = s.battery := rfl
@[simp] theorem State.setBean_ledger (n : Nat) (x : Bean) : (s.setBean n x).ledger = s.ledger := rfl
@[simp] theorem State.setBean_nv (n : Nat) (x : Bean) : (s.setBean n x).nv = s.nv := rfl
@[simp] theorem State.setBean_pace (n : Nat) (x : Bean) : (s.setBean n x).pace = s.pace := rfl
@[simp] theorem State.setBean_boot (n : Nat) (x : Bean) : (s.setBean n x).boot = s.boot := rfl
@[simp] theorem State.setBean_links (n : Nat) (x : Bean) : (s.setBean n x).links = s.links := rfl
@[simp] theorem State.setBean_stream (n : Nat) (x : Bean) : (s.setBean n x).stream = s.stream := rfl
@[simp] theorem State.setBean_cards (n : Nat) (x : Bean) : (s.setBean n x).cards = s.cards := rfl
@[simp] theorem State.setBean_host (n : Nat) (x : Bean) : (s.setBean n x).host = s.host := rfl
@[simp] theorem State.setBean_out (n : Nat) (x : Bean) : (s.setBean n x).out = s.out := rfl
@[simp] theorem State.setBean_genuine (n : Nat) (x : Bean) : (s.setBean n x).genuine = s.genuine := rfl
@[simp] theorem State.setBean_draws (n : Nat) (x : Bean) : (s.setBean n x).draws = s.draws := rfl
@[simp] theorem State.setBean_clock (n : Nat) (x : Bean) : (s.setBean n x).clock = s.clock := rfl

/-! ### State.setSource changes alarm alone -/

@[simp] theorem State.setSource_pending (i : AlarmSource) (x : Source) : (s.setSource i x).pending = s.pending := rfl
@[simp] theorem State.setSource_dev (i : AlarmSource) (x : Source) : (s.setSource i x).dev = s.dev := rfl
@[simp] theorem State.setSource_pcie (i : AlarmSource) (x : Source) : (s.setSource i x).pcie = s.pcie := rfl
@[simp] theorem State.setSource_bus (i : AlarmSource) (x : Source) : (s.setSource i x).bus = s.bus := rfl
@[simp] theorem State.setSource_plan (i : AlarmSource) (x : Source) : (s.setSource i x).plan = s.plan := rfl
@[simp] theorem State.setSource_tiles (i : AlarmSource) (x : Source) : (s.setSource i x).tiles = s.tiles := rfl
@[simp] theorem State.setSource_engines (i : AlarmSource) (x : Source) : (s.setSource i x).engines = s.engines := rfl
@[simp] theorem State.setSource_engInt (i : AlarmSource) (x : Source) : (s.setSource i x).engInt = s.engInt := rfl
@[simp] theorem State.setSource_engMask (i : AlarmSource) (x : Source) : (s.setSource i x).engMask = s.engMask := rfl
@[simp] theorem State.setSource_queues (i : AlarmSource) (x : Source) : (s.setSource i x).queues = s.queues := rfl
@[simp] theorem State.setSource_arb (i : AlarmSource) (x : Source) : (s.setSource i x).arb = s.arb := rfl
@[simp] theorem State.setSource_jobs (i : AlarmSource) (x : Source) : (s.setSource i x).jobs = s.jobs := rfl
@[simp] theorem State.setSource_crates (i : AlarmSource) (x : Source) : (s.setSource i x).crates = s.crates := rfl
@[simp] theorem State.setSource_porter (i : AlarmSource) (x : Source) : (s.setSource i x).porter = s.porter := rfl
@[simp] theorem State.setSource_pitches (i : AlarmSource) (x : Source) : (s.setSource i x).pitches = s.pitches := rfl
@[simp] theorem State.setSource_contexts (i : AlarmSource) (x : Source) : (s.setSource i x).contexts = s.contexts := rfl
@[simp] theorem State.setSource_vault (i : AlarmSource) (x : Source) : (s.setSource i x).vault = s.vault := rfl
@[simp] theorem State.setSource_seq (i : AlarmSource) (x : Source) : (s.setSource i x).seq = s.seq := rfl
@[simp] theorem State.setSource_rng (i : AlarmSource) (x : Source) : (s.setSource i x).rng = s.rng := rfl
@[simp] theorem State.setSource_life (i : AlarmSource) (x : Source) : (s.setSource i x).life = s.life := rfl
@[simp] theorem State.setSource_battery (i : AlarmSource) (x : Source) : (s.setSource i x).battery = s.battery := rfl
@[simp] theorem State.setSource_ledger (i : AlarmSource) (x : Source) : (s.setSource i x).ledger = s.ledger := rfl
@[simp] theorem State.setSource_nv (i : AlarmSource) (x : Source) : (s.setSource i x).nv = s.nv := rfl
@[simp] theorem State.setSource_pace (i : AlarmSource) (x : Source) : (s.setSource i x).pace = s.pace := rfl
@[simp] theorem State.setSource_boot (i : AlarmSource) (x : Source) : (s.setSource i x).boot = s.boot := rfl
@[simp] theorem State.setSource_links (i : AlarmSource) (x : Source) : (s.setSource i x).links = s.links := rfl
@[simp] theorem State.setSource_stream (i : AlarmSource) (x : Source) : (s.setSource i x).stream = s.stream := rfl
@[simp] theorem State.setSource_cards (i : AlarmSource) (x : Source) : (s.setSource i x).cards = s.cards := rfl
@[simp] theorem State.setSource_host (i : AlarmSource) (x : Source) : (s.setSource i x).host = s.host := rfl
@[simp] theorem State.setSource_out (i : AlarmSource) (x : Source) : (s.setSource i x).out = s.out := rfl
@[simp] theorem State.setSource_genuine (i : AlarmSource) (x : Source) : (s.setSource i x).genuine = s.genuine := rfl
@[simp] theorem State.setSource_draws (i : AlarmSource) (x : Source) : (s.setSource i x).draws = s.draws := rfl
@[simp] theorem State.setSource_clock (i : AlarmSource) (x : Source) : (s.setSource i x).clock = s.clock := rfl

/-! ### State.setPort changes stream alone -/

@[simp] theorem State.setPort_pending (p : BitVec 1) (x : Port) : (s.setPort p x).pending = s.pending := rfl
@[simp] theorem State.setPort_dev (p : BitVec 1) (x : Port) : (s.setPort p x).dev = s.dev := rfl
@[simp] theorem State.setPort_pcie (p : BitVec 1) (x : Port) : (s.setPort p x).pcie = s.pcie := rfl
@[simp] theorem State.setPort_bus (p : BitVec 1) (x : Port) : (s.setPort p x).bus = s.bus := rfl
@[simp] theorem State.setPort_plan (p : BitVec 1) (x : Port) : (s.setPort p x).plan = s.plan := rfl
@[simp] theorem State.setPort_tiles (p : BitVec 1) (x : Port) : (s.setPort p x).tiles = s.tiles := rfl
@[simp] theorem State.setPort_engines (p : BitVec 1) (x : Port) : (s.setPort p x).engines = s.engines := rfl
@[simp] theorem State.setPort_engInt (p : BitVec 1) (x : Port) : (s.setPort p x).engInt = s.engInt := rfl
@[simp] theorem State.setPort_engMask (p : BitVec 1) (x : Port) : (s.setPort p x).engMask = s.engMask := rfl
@[simp] theorem State.setPort_queues (p : BitVec 1) (x : Port) : (s.setPort p x).queues = s.queues := rfl
@[simp] theorem State.setPort_arb (p : BitVec 1) (x : Port) : (s.setPort p x).arb = s.arb := rfl
@[simp] theorem State.setPort_jobs (p : BitVec 1) (x : Port) : (s.setPort p x).jobs = s.jobs := rfl
@[simp] theorem State.setPort_crates (p : BitVec 1) (x : Port) : (s.setPort p x).crates = s.crates := rfl
@[simp] theorem State.setPort_porter (p : BitVec 1) (x : Port) : (s.setPort p x).porter = s.porter := rfl
@[simp] theorem State.setPort_pitches (p : BitVec 1) (x : Port) : (s.setPort p x).pitches = s.pitches := rfl
@[simp] theorem State.setPort_contexts (p : BitVec 1) (x : Port) : (s.setPort p x).contexts = s.contexts := rfl
@[simp] theorem State.setPort_vault (p : BitVec 1) (x : Port) : (s.setPort p x).vault = s.vault := rfl
@[simp] theorem State.setPort_seq (p : BitVec 1) (x : Port) : (s.setPort p x).seq = s.seq := rfl
@[simp] theorem State.setPort_rng (p : BitVec 1) (x : Port) : (s.setPort p x).rng = s.rng := rfl
@[simp] theorem State.setPort_life (p : BitVec 1) (x : Port) : (s.setPort p x).life = s.life := rfl
@[simp] theorem State.setPort_alarm (p : BitVec 1) (x : Port) : (s.setPort p x).alarm = s.alarm := rfl
@[simp] theorem State.setPort_battery (p : BitVec 1) (x : Port) : (s.setPort p x).battery = s.battery := rfl
@[simp] theorem State.setPort_ledger (p : BitVec 1) (x : Port) : (s.setPort p x).ledger = s.ledger := rfl
@[simp] theorem State.setPort_nv (p : BitVec 1) (x : Port) : (s.setPort p x).nv = s.nv := rfl
@[simp] theorem State.setPort_pace (p : BitVec 1) (x : Port) : (s.setPort p x).pace = s.pace := rfl
@[simp] theorem State.setPort_boot (p : BitVec 1) (x : Port) : (s.setPort p x).boot = s.boot := rfl
@[simp] theorem State.setPort_links (p : BitVec 1) (x : Port) : (s.setPort p x).links = s.links := rfl
@[simp] theorem State.setPort_cards (p : BitVec 1) (x : Port) : (s.setPort p x).cards = s.cards := rfl
@[simp] theorem State.setPort_host (p : BitVec 1) (x : Port) : (s.setPort p x).host = s.host := rfl
@[simp] theorem State.setPort_out (p : BitVec 1) (x : Port) : (s.setPort p x).out = s.out := rfl
@[simp] theorem State.setPort_genuine (p : BitVec 1) (x : Port) : (s.setPort p x).genuine = s.genuine := rfl
@[simp] theorem State.setPort_draws (p : BitVec 1) (x : Port) : (s.setPort p x).draws = s.draws := rfl
@[simp] theorem State.setPort_clock (p : BitVec 1) (x : Port) : (s.setPort p x).clock = s.clock := rfl

/-! ### State.withCommand changes pending alone -/

@[simp] theorem State.withCommand_dev (c : Instr) : (s.withCommand c).dev = s.dev := rfl
@[simp] theorem State.withCommand_pcie (c : Instr) : (s.withCommand c).pcie = s.pcie := rfl
@[simp] theorem State.withCommand_bus (c : Instr) : (s.withCommand c).bus = s.bus := rfl
@[simp] theorem State.withCommand_plan (c : Instr) : (s.withCommand c).plan = s.plan := rfl
@[simp] theorem State.withCommand_tiles (c : Instr) : (s.withCommand c).tiles = s.tiles := rfl
@[simp] theorem State.withCommand_engines (c : Instr) : (s.withCommand c).engines = s.engines := rfl
@[simp] theorem State.withCommand_engInt (c : Instr) : (s.withCommand c).engInt = s.engInt := rfl
@[simp] theorem State.withCommand_engMask (c : Instr) : (s.withCommand c).engMask = s.engMask := rfl
@[simp] theorem State.withCommand_queues (c : Instr) : (s.withCommand c).queues = s.queues := rfl
@[simp] theorem State.withCommand_arb (c : Instr) : (s.withCommand c).arb = s.arb := rfl
@[simp] theorem State.withCommand_jobs (c : Instr) : (s.withCommand c).jobs = s.jobs := rfl
@[simp] theorem State.withCommand_crates (c : Instr) : (s.withCommand c).crates = s.crates := rfl
@[simp] theorem State.withCommand_porter (c : Instr) : (s.withCommand c).porter = s.porter := rfl
@[simp] theorem State.withCommand_pitches (c : Instr) : (s.withCommand c).pitches = s.pitches := rfl
@[simp] theorem State.withCommand_contexts (c : Instr) : (s.withCommand c).contexts = s.contexts := rfl
@[simp] theorem State.withCommand_vault (c : Instr) : (s.withCommand c).vault = s.vault := rfl
@[simp] theorem State.withCommand_seq (c : Instr) : (s.withCommand c).seq = s.seq := rfl
@[simp] theorem State.withCommand_rng (c : Instr) : (s.withCommand c).rng = s.rng := rfl
@[simp] theorem State.withCommand_life (c : Instr) : (s.withCommand c).life = s.life := rfl
@[simp] theorem State.withCommand_alarm (c : Instr) : (s.withCommand c).alarm = s.alarm := rfl
@[simp] theorem State.withCommand_battery (c : Instr) : (s.withCommand c).battery = s.battery := rfl
@[simp] theorem State.withCommand_ledger (c : Instr) : (s.withCommand c).ledger = s.ledger := rfl
@[simp] theorem State.withCommand_nv (c : Instr) : (s.withCommand c).nv = s.nv := rfl
@[simp] theorem State.withCommand_pace (c : Instr) : (s.withCommand c).pace = s.pace := rfl
@[simp] theorem State.withCommand_boot (c : Instr) : (s.withCommand c).boot = s.boot := rfl
@[simp] theorem State.withCommand_links (c : Instr) : (s.withCommand c).links = s.links := rfl
@[simp] theorem State.withCommand_stream (c : Instr) : (s.withCommand c).stream = s.stream := rfl
@[simp] theorem State.withCommand_cards (c : Instr) : (s.withCommand c).cards = s.cards := rfl
@[simp] theorem State.withCommand_host (c : Instr) : (s.withCommand c).host = s.host := rfl
@[simp] theorem State.withCommand_out (c : Instr) : (s.withCommand c).out = s.out := rfl
@[simp] theorem State.withCommand_genuine (c : Instr) : (s.withCommand c).genuine = s.genuine := rfl
@[simp] theorem State.withCommand_draws (c : Instr) : (s.withCommand c).draws = s.draws := rfl
@[simp] theorem State.withCommand_clock (c : Instr) : (s.withCommand c).clock = s.clock := rfl

/-! ### State.writeSvn changes nv alone -/

@[simp] theorem State.writeSvn_pending (k : BankKind) (step : Nat) (v : BitVec 16) : (s.writeSvn k step v).pending = s.pending := by cases k <;> rfl
@[simp] theorem State.writeSvn_dev (k : BankKind) (step : Nat) (v : BitVec 16) : (s.writeSvn k step v).dev = s.dev := by cases k <;> rfl
@[simp] theorem State.writeSvn_pcie (k : BankKind) (step : Nat) (v : BitVec 16) : (s.writeSvn k step v).pcie = s.pcie := by cases k <;> rfl
@[simp] theorem State.writeSvn_bus (k : BankKind) (step : Nat) (v : BitVec 16) : (s.writeSvn k step v).bus = s.bus := by cases k <;> rfl
@[simp] theorem State.writeSvn_plan (k : BankKind) (step : Nat) (v : BitVec 16) : (s.writeSvn k step v).plan = s.plan := by cases k <;> rfl
@[simp] theorem State.writeSvn_tiles (k : BankKind) (step : Nat) (v : BitVec 16) : (s.writeSvn k step v).tiles = s.tiles := by cases k <;> rfl
@[simp] theorem State.writeSvn_engines (k : BankKind) (step : Nat) (v : BitVec 16) : (s.writeSvn k step v).engines = s.engines := by cases k <;> rfl
@[simp] theorem State.writeSvn_engInt (k : BankKind) (step : Nat) (v : BitVec 16) : (s.writeSvn k step v).engInt = s.engInt := by cases k <;> rfl
@[simp] theorem State.writeSvn_engMask (k : BankKind) (step : Nat) (v : BitVec 16) : (s.writeSvn k step v).engMask = s.engMask := by cases k <;> rfl
@[simp] theorem State.writeSvn_queues (k : BankKind) (step : Nat) (v : BitVec 16) : (s.writeSvn k step v).queues = s.queues := by cases k <;> rfl
@[simp] theorem State.writeSvn_arb (k : BankKind) (step : Nat) (v : BitVec 16) : (s.writeSvn k step v).arb = s.arb := by cases k <;> rfl
@[simp] theorem State.writeSvn_jobs (k : BankKind) (step : Nat) (v : BitVec 16) : (s.writeSvn k step v).jobs = s.jobs := by cases k <;> rfl
@[simp] theorem State.writeSvn_crates (k : BankKind) (step : Nat) (v : BitVec 16) : (s.writeSvn k step v).crates = s.crates := by cases k <;> rfl
@[simp] theorem State.writeSvn_porter (k : BankKind) (step : Nat) (v : BitVec 16) : (s.writeSvn k step v).porter = s.porter := by cases k <;> rfl
@[simp] theorem State.writeSvn_pitches (k : BankKind) (step : Nat) (v : BitVec 16) : (s.writeSvn k step v).pitches = s.pitches := by cases k <;> rfl
@[simp] theorem State.writeSvn_contexts (k : BankKind) (step : Nat) (v : BitVec 16) : (s.writeSvn k step v).contexts = s.contexts := by cases k <;> rfl
@[simp] theorem State.writeSvn_vault (k : BankKind) (step : Nat) (v : BitVec 16) : (s.writeSvn k step v).vault = s.vault := by cases k <;> rfl
@[simp] theorem State.writeSvn_seq (k : BankKind) (step : Nat) (v : BitVec 16) : (s.writeSvn k step v).seq = s.seq := by cases k <;> rfl
@[simp] theorem State.writeSvn_rng (k : BankKind) (step : Nat) (v : BitVec 16) : (s.writeSvn k step v).rng = s.rng := by cases k <;> rfl
@[simp] theorem State.writeSvn_life (k : BankKind) (step : Nat) (v : BitVec 16) : (s.writeSvn k step v).life = s.life := by cases k <;> rfl
@[simp] theorem State.writeSvn_alarm (k : BankKind) (step : Nat) (v : BitVec 16) : (s.writeSvn k step v).alarm = s.alarm := by cases k <;> rfl
@[simp] theorem State.writeSvn_battery (k : BankKind) (step : Nat) (v : BitVec 16) : (s.writeSvn k step v).battery = s.battery := by cases k <;> rfl
@[simp] theorem State.writeSvn_ledger (k : BankKind) (step : Nat) (v : BitVec 16) : (s.writeSvn k step v).ledger = s.ledger := by cases k <;> rfl
@[simp] theorem State.writeSvn_pace (k : BankKind) (step : Nat) (v : BitVec 16) : (s.writeSvn k step v).pace = s.pace := by cases k <;> rfl
@[simp] theorem State.writeSvn_boot (k : BankKind) (step : Nat) (v : BitVec 16) : (s.writeSvn k step v).boot = s.boot := by cases k <;> rfl
@[simp] theorem State.writeSvn_links (k : BankKind) (step : Nat) (v : BitVec 16) : (s.writeSvn k step v).links = s.links := by cases k <;> rfl
@[simp] theorem State.writeSvn_stream (k : BankKind) (step : Nat) (v : BitVec 16) : (s.writeSvn k step v).stream = s.stream := by cases k <;> rfl
@[simp] theorem State.writeSvn_cards (k : BankKind) (step : Nat) (v : BitVec 16) : (s.writeSvn k step v).cards = s.cards := by cases k <;> rfl
@[simp] theorem State.writeSvn_host (k : BankKind) (step : Nat) (v : BitVec 16) : (s.writeSvn k step v).host = s.host := by cases k <;> rfl
@[simp] theorem State.writeSvn_out (k : BankKind) (step : Nat) (v : BitVec 16) : (s.writeSvn k step v).out = s.out := by cases k <;> rfl
@[simp] theorem State.writeSvn_genuine (k : BankKind) (step : Nat) (v : BitVec 16) : (s.writeSvn k step v).genuine = s.genuine := by cases k <;> rfl
@[simp] theorem State.writeSvn_draws (k : BankKind) (step : Nat) (v : BitVec 16) : (s.writeSvn k step v).draws = s.draws := by cases k <;> rfl
@[simp] theorem State.writeSvn_clock (k : BankKind) (step : Nat) (v : BitVec 16) : (s.writeSvn k step v).clock = s.clock := by cases k <;> rfl

/-! ### A write of the battery domain's register file changes it alone -/

@[simp] theorem writeFile_pending (g : Battery → Battery) : (writeFile g s).pending = s.pending := rfl
@[simp] theorem writeFile_dev (g : Battery → Battery) : (writeFile g s).dev = s.dev := rfl
@[simp] theorem writeFile_pcie (g : Battery → Battery) : (writeFile g s).pcie = s.pcie := rfl
@[simp] theorem writeFile_bus (g : Battery → Battery) : (writeFile g s).bus = s.bus := rfl
@[simp] theorem writeFile_plan (g : Battery → Battery) : (writeFile g s).plan = s.plan := rfl
@[simp] theorem writeFile_tiles (g : Battery → Battery) : (writeFile g s).tiles = s.tiles := rfl
@[simp] theorem writeFile_engines (g : Battery → Battery) : (writeFile g s).engines = s.engines := rfl
@[simp] theorem writeFile_engInt (g : Battery → Battery) : (writeFile g s).engInt = s.engInt := rfl
@[simp] theorem writeFile_engMask (g : Battery → Battery) : (writeFile g s).engMask = s.engMask := rfl
@[simp] theorem writeFile_queues (g : Battery → Battery) : (writeFile g s).queues = s.queues := rfl
@[simp] theorem writeFile_arb (g : Battery → Battery) : (writeFile g s).arb = s.arb := rfl
@[simp] theorem writeFile_jobs (g : Battery → Battery) : (writeFile g s).jobs = s.jobs := rfl
@[simp] theorem writeFile_crates (g : Battery → Battery) : (writeFile g s).crates = s.crates := rfl
@[simp] theorem writeFile_porter (g : Battery → Battery) : (writeFile g s).porter = s.porter := rfl
@[simp] theorem writeFile_pitches (g : Battery → Battery) : (writeFile g s).pitches = s.pitches := rfl
@[simp] theorem writeFile_contexts (g : Battery → Battery) : (writeFile g s).contexts = s.contexts := rfl
@[simp] theorem writeFile_vault (g : Battery → Battery) : (writeFile g s).vault = s.vault := rfl
@[simp] theorem writeFile_seq (g : Battery → Battery) : (writeFile g s).seq = s.seq := rfl
@[simp] theorem writeFile_rng (g : Battery → Battery) : (writeFile g s).rng = s.rng := rfl
@[simp] theorem writeFile_life (g : Battery → Battery) : (writeFile g s).life = s.life := rfl
@[simp] theorem writeFile_alarm (g : Battery → Battery) : (writeFile g s).alarm = s.alarm := rfl
@[simp] theorem writeFile_ledger (g : Battery → Battery) : (writeFile g s).ledger = s.ledger := rfl
@[simp] theorem writeFile_nv (g : Battery → Battery) : (writeFile g s).nv = s.nv := rfl
@[simp] theorem writeFile_pace (g : Battery → Battery) : (writeFile g s).pace = s.pace := rfl
@[simp] theorem writeFile_boot (g : Battery → Battery) : (writeFile g s).boot = s.boot := rfl
@[simp] theorem writeFile_links (g : Battery → Battery) : (writeFile g s).links = s.links := rfl
@[simp] theorem writeFile_stream (g : Battery → Battery) : (writeFile g s).stream = s.stream := rfl
@[simp] theorem writeFile_cards (g : Battery → Battery) : (writeFile g s).cards = s.cards := rfl
@[simp] theorem writeFile_host (g : Battery → Battery) : (writeFile g s).host = s.host := rfl
@[simp] theorem writeFile_out (g : Battery → Battery) : (writeFile g s).out = s.out := rfl
@[simp] theorem writeFile_genuine (g : Battery → Battery) : (writeFile g s).genuine = s.genuine := rfl
@[simp] theorem writeFile_draws (g : Battery → Battery) : (writeFile g s).draws = s.draws := rfl
@[simp] theorem writeFile_clock (g : Battery → Battery) : (writeFile g s).clock = s.clock := rfl

/-! ### What each update writes -/

@[simp] theorem State.setQ_queues (n : BitVec 12) (x : Queue) : (s.setQ n x).queues = Tab.set queueInit n.toNat x s.queues := rfl
@[simp] theorem State.setPitch_pitches (p : BitVec 8) (x : Pitch) :
    (s.setPitch p x).pitches = Tab.set pitchInit p.toNat x s.pitches := rfl
@[simp] theorem State.setChan_porter (c : BitVec 6) (x : Channel) :
    (s.setChan c x).porter = Tab.set channelInit c.toNat x s.porter := rfl
@[simp] theorem State.setCtx_contexts (i : BitVec 14) (x : Option Context) :
    (s.setCtx i x).contexts = Tab.set none i.toNat x s.contexts := rfl
@[simp] theorem State.setTile_tiles (t : BitVec 6) (x : Tile) : (s.setTile t x).tiles = Tab.set tileInit t.toNat x s.tiles := rfl
@[simp] theorem State.setEngine_engines (e : BitVec 3) (x : Engine) :
    (s.setEngine e x).engines = Tab.set engineInit e.toNat x s.engines := rfl
@[simp] theorem State.dropJob_jobs (j : JobId) : (s.dropJob j).jobs = s.jobs.filter (fun y => y.id ≠ j) := rfl
@[simp] theorem State.withCommand_pending (c : Instr) : (s.withCommand c).pending = c :: s.pending := rfl
@[simp] theorem writeFile_battery (g : Battery → Battery) :
    let b := { g s.battery with secondsCopy := s.battery.seconds, wroteAt := s.clock.us }
    (writeFile g s).battery = { b with crc := crc32c (fileBody b) } := rfl

end Sys2Proof.Machine
end

