-- ==== Sys2Proof/Laws/Commands.lean ====
section
/-! SUPPORT. What the shared ends of the commands come to: a command of the host while the windows are open, the settling of a
state that does not change, the start of a job that nothing holds back, and what such a start leaves of the random number service. -/
namespace Sys2Proof.Machine

/-- While the windows are open, a command that a host gives through them settles what it makes (R54). -/
theorem hostAct_open {s : State} (w : windowsOpen s = true) (t : State) : hostAct s t = .next (settle s t) := by
  unfold hostAct act; rw [if_pos w]

/-- While they are closed, it changes nothing. -/
theorem hostAct_closed {s : State} (w : windowsOpen s = false) (t : State) : hostAct s t = .next (settle s s) := by
  unfold hostAct act; rw [if_neg (by simp [w])]

/-- A command that changes nothing: only a visit of the fetcher that is over ends (R68). -/
theorem settle_self (s : State) : settle s s = endVisit s := by
  unfold settle; rw [if_neg (fun h => h.2 h.1)]

/-- Where no visit is open, none ends. -/
theorem endVisit_none {s : State} (h : s.arb.visit = none) : endVisit s = s := by
  unfold endVisit; rw [h]

/-- A job that starts is in the state of its start (R71, R15). -/
theorem startJob_of_starts {sp : OpSpec} {s : State} {x : Job} {us t rs} (h : Starts sp s x us t rs) :
    startJob sp x.id s = startedOn sp s x us t rs := by
  obtain ⟨⟨h1, h2, h3, h4, h5, h7, h6⟩, ⟨fp, f1, fa, fj, f2, f3, f4, f5, f6, f7, fd⟩⟩ := h
  unfold startJob; rw [h1]; simp only
  rw [if_neg (by simp [h2, h3, h4]), h5]; simp only; rw [h7]; simp only; rw [h6]; simp only
  show takeBack (accepted s x) (s.setJob (accepted s x)) (placeJob sp (offered s x) (accepted s x)) = _
  unfold placeJob startedOn
  have q : placeOn (offered s x) { accepted s x with queued := queuedBeats sp (offered s x) (accepted s x) } (sp.place (offered s x) (accepted s x)) =
      queuedOn sp (offered s x) (accepted s x) := rfl
  rw [fp, f1, fa, if_neg (by decide), fj]; simp only
  rw [q, f2, f3]; simp only
  have e : (queuedOn sp (offered s x) (accepted s x)).reserved.isEmpty = true := by
    show (accepted s x).reserved.isEmpty = true
    rw [f4]; rfl
  rw [if_pos e]
  have p : (queuedOn sp (offered s x) (accepted s x)).pitch = (accepted s x).pitch := rfl
  have i : (queuedOn sp (offered s x) (accepted s x)).id = (accepted s x).id := rfl
  rw [p, i, f5]; simp only
  rw [if_neg (by simpa using f6), f7]; simp only
  rw [fd]; rfl

/-! ### The random number service and the start of a job (R328) -/

theorem drawFrees_rng (n : Nat) (s : State) : (drawFrees n s).2.rng = s.rng := by
  induction n generalizing s with
  | zero => rfl
  | succ n ih => exact ih _

/-- A unit taken leaves the random number service as it was. -/
theorem takeUnit_rng (x : Job) (s : State) (u : Unit_) : (takeUnit x s u).rng = s.rng := by
  unfold takeUnit
  split
  · rfl
  · have a := drawFrees_rng 321 s
    have b := drawFrees_rng 66 (drawFrees 321 s).2
    exact b.trans a
  · rfl

theorem takeUnits_rng (x : Job) (us : List Unit_) (s : State) : (us.foldl (takeUnit x) s).rng = s.rng := by
  induction us generalizing s with
  | nil => rfl
  | cons u t ih => rw [List.foldl_cons, ih, takeUnit_rng]

theorem translated_rng (p : BitVec 8) (a k : Nat) (s : State) : (translated p a k s).rng = s.rng := by
  unfold translated; dsimp only; repeat' split
  all_goals rfl

theorem timedOut_rng (sp : OpSpec) (s : State) (x : Job) (r : Ran) : (timedOut sp s x r).1.rng = r.state.rng := by
  unfold timedOut elapse; dsimp only; repeat' split
  all_goals rfl

/-- A job's start leaves every instance as it was where its run does (R328). -/
theorem runJob_drbgs (sp : OpSpec) (s : State) (x : Job) (us : List Unit_) (rs : List (BitVec 13))
    (h : ∀ t y, y.desc = x.desc → y.input = some (jobInput s x) → (sp.run t y).state.rng.drbgs = t.rng.drbgs) :
    (runJob sp s x us rs).rng.drbgs = s.rng.drbgs := by
  unfold runJob
  dsimp only
  have c : ∀ s : State, (drawClean s).rng.drbgs = s.rng.drbgs := fun _ => rfl
  rw [c]
  split
  · split <;> (try rw [State.setJob_rng]) <;> rw [timedOut_rng, h _ _ (by rfl) (by rfl), takeUnits_rng, State.setJob_rng] <;> split <;>
      first | rfl | (split <;> (try rw [translated_rng]) <;> (try rw [translated_rng]))
  · rw [timedOut_rng, h _ _ (by rfl) (by rfl), takeUnits_rng, State.setJob_rng]
    split <;> first | rfl | (split <;> (try rw [translated_rng]) <;> (try rw [translated_rng]))

end Sys2Proof.Machine
end

