-- ==== Sys2Proof/Laws/Dry.lean ====
section
/-! SUPPORT. What the end of a job, and a fault of an engine within a run, leave as they were: the instances of the random number service (R280,
R328), the queues and the memory of the host. -/
namespace Sys2Proof.Machine

-- One theorem after another: a thread for each that waits would fill the memory.
set_option Elab.async false

/-- The instances, the queues and host memory. -/
def quiet (s : State) : Tab Drbg × Tab Queue × List Host.Cell := (s.rng.drbgs, s.queues, s.host)

/-- The instances, the queues and host memory of one state are as in another. -/
structure Dry (s t : State) : Prop where
  kept : quiet t = quiet s

theorem Dry.refl (s : State) : Dry s s := ⟨rfl⟩

theorem Dry.trans {s t u : State} (h : Dry s t) (g : Dry t u) : Dry s u := ⟨g.kept.trans h.kept⟩

/-- An update of nothing that the relation looks at. -/
theorem Dry.upd {s s1 t : State} (_ : t.genuine = s1.genuine) (e : quiet t = quiet s1) (h : Dry s s1) : Dry s t :=
  ⟨e.trans h.kept⟩

/-- What the relation looks at in a state written out field by field. -/
theorem dry_mk {s : State}
    {x0 : List Instr} {x1 : Dev} {x2 : Pcie} {x3 : Bus} {x4 : PlanBlock} {x5 : Tab Tile} {x6 : Tab Engine} {x7 :
    BitVec 3} {x8 : BitVec 3} {x9 : Tab Queue} {x10 : Arb} {x11 : List Job} {x12 : Crates} {x13 : Tab Channel} {x14 :
    Tab Pitch} {x15 : Tab (Option Context)} {x16 : Vault} {x17 : Seq} {x18 : Rng} {x19 : Life} {x20 : Alarm} {x21 :
    Battery} {x22 : Ledger} {x23 : Nv} {x24 : Pace} {x25 : Boot} {x26 : Links} {x27 : Stream} {x28 : Cards} {x29 :
    List Host.Cell} {x30 : List Out} {x31 : List Genuine} {x32 : Nat} {x33 : Clock} :
    Dry s ⟨x0, x1, x2, x3, x4, x5, x6, x7, x8, x9, x10, x11, x12, x13, x14, x15, x16, x17, x18, x19, x20, x21, x22, x23, x24, x25, x26, x27, x28, x29, x30, x31, x32, x33⟩ ↔
    (x18.drbgs, x9, x29) = quiet s := ⟨fun h => h.kept, fun h => ⟨h⟩⟩

theorem Dry.fold {s s1 : State} (h : Dry s s1) : (s1.rng.drbgs, s1.queues, s1.host) = quiet s := h.kept

theorem Dry.drbgs {s t : State} (h : Dry s t) : t.rng.drbgs = s.rng.drbgs := congrArg (·.1) h.kept
theorem Dry.queues {s t : State} (h : Dry s t) : t.queues = s.queues := congrArg (·.2.1) h.kept
theorem Dry.host {s t : State} (h : Dry s t) : t.host = s.host := congrArg (·.2.2) h.kept

theorem Dry.ite {s a b : State} {c : Prop} [Decidable c] (h : Dry s a) (g : Dry s b) : Dry s (if c then a else b) := by
  split <;> assumption

theorem Dry.iteFst {α : Type} {s : State} {a b : State × α} {c : Prop} [Decidable c] (h : Dry s a.1) (g : Dry s b.1) :
    Dry s (if c then a else b).1 := by
  split <;> assumption

theorem Dry.iteSnd {α : Type} {s : State} {a b : α × State} {c : Prop} [Decidable c] (h : Dry s a.2) (g : Dry s b.2) :
    Dry s (if c then a else b).2 := by
  split <;> assumption

theorem foldl_dry {α : Type} {f : State → α → State} {u s : State} {l : List α} (h : ∀ s a, Dry s (f s a)) (hu : Dry u s) :
    Dry u (l.foldl f s) := by
  induction l generalizing s with
  | nil => exact hu
  | cons a l ih => exact ih (Dry.trans hu (h s a))

theorem State.setCtx_dry {s0 : State} (s : State) (i : BitVec 14) (x : Option Context) (hu : Dry s0 s) :
    Dry s0 (State.setCtx s i x) := by
  unfold State.setCtx
  (try dsimp only)
  repeat first
    | (simp only [dry_mk]; with_reducible refine Dry.fold ?_)
    | with_reducible assumption
    | with_reducible exact Dry.refl _
    | with_reducible apply foldl_dry
    | with_reducible apply Dry.ite
    | with_reducible apply Dry.iteFst
    | with_reducible apply Dry.iteSnd
    | exact @rfl Nat _
    | exact List.length_set ..
    | intro _ _
    | intro (_ : Nat)
    | split
    | dsimp only

theorem State.setTile_dry {s0 : State} (s : State) (t : BitVec 6) (x : Tile) (hu : Dry s0 s) :
    Dry s0 (State.setTile s t x) := by
  unfold State.setTile
  (try dsimp only)
  repeat first
    | (simp only [dry_mk]; with_reducible refine Dry.fold ?_)
    | with_reducible assumption
    | with_reducible exact Dry.refl _
    | with_reducible apply foldl_dry
    | with_reducible apply Dry.ite
    | with_reducible apply Dry.iteFst
    | with_reducible apply Dry.iteSnd
    | exact @rfl Nat _
    | exact List.length_set ..
    | intro _ _
    | intro (_ : Nat)
    | split
    | dsimp only

theorem State.setEngine_dry {s0 : State} (s : State) (e : BitVec 3) (x : Engine) (hu : Dry s0 s) :
    Dry s0 (State.setEngine s e x) := by
  unfold State.setEngine
  (try dsimp only)
  repeat first
    | (simp only [dry_mk]; with_reducible refine Dry.fold ?_)
    | with_reducible assumption
    | with_reducible exact Dry.refl _
    | with_reducible apply foldl_dry
    | with_reducible apply Dry.ite
    | with_reducible apply Dry.iteFst
    | with_reducible apply Dry.iteSnd
    | exact @rfl Nat _
    | exact List.length_set ..
    | intro _ _
    | intro (_ : Nat)
    | split
    | dsimp only

theorem State.setSlot_dry {s0 : State} (s : State) (n : BitVec 13) (x : Slot) (hu : Dry s0 s) :
    Dry s0 (State.setSlot s n x) := by
  unfold State.setSlot
  (try dsimp only)
  repeat first
    | (simp only [dry_mk]; with_reducible refine Dry.fold ?_)
    | with_reducible assumption
    | with_reducible exact Dry.refl _
    | with_reducible apply foldl_dry
    | with_reducible apply Dry.ite
    | with_reducible apply Dry.iteFst
    | with_reducible apply Dry.iteSnd
    | exact @rfl Nat _
    | exact List.length_set ..
    | intro _ _
    | intro (_ : Nat)
    | split
    | dsimp only

theorem State.setJob_dry {s0 : State} (s : State) (x : Job) (hu : Dry s0 s) :
    Dry s0 (State.setJob s x) := by
  unfold State.setJob
  (try dsimp only)
  repeat first
    | (simp only [dry_mk]; with_reducible refine Dry.fold ?_)
    | with_reducible assumption
    | with_reducible exact Dry.refl _
    | with_reducible apply foldl_dry
    | with_reducible apply Dry.ite
    | with_reducible apply Dry.iteFst
    | with_reducible apply Dry.iteSnd
    | exact @rfl Nat _
    | exact List.length_set ..
    | intro _ _
    | intro (_ : Nat)
    | split
    | dsimp only

theorem drawFree_dry {s0 : State} (s : State) (hu : Dry s0 s) :
    Dry s0 (drawFree s).2 := by
  unfold drawFree
  (try dsimp only)
  repeat first
    | (simp only [dry_mk]; with_reducible refine Dry.fold ?_)
    | with_reducible assumption
    | with_reducible exact Dry.refl _
    | with_reducible apply foldl_dry
    | with_reducible apply Dry.ite
    | with_reducible apply Dry.iteFst
    | with_reducible apply Dry.iteSnd
    | exact @rfl Nat _
    | exact List.length_set ..
    | intro _ _
    | intro (_ : Nat)
    | split
    | dsimp only

theorem setPins_dry {s0 : State} (ps : List (Pin × Bool)) (s : State) (hu : Dry s0 s) :
    Dry s0 (setPins ps s) := by
  unfold setPins
  (try dsimp only)
  repeat first
    | (simp only [dry_mk]; with_reducible refine Dry.fold ?_)
    | with_reducible assumption
    | with_reducible exact Dry.refl _
    | with_reducible apply foldl_dry
    | with_reducible apply Dry.ite
    | with_reducible apply Dry.iteFst
    | with_reducible apply Dry.iteSnd
    | exact @rfl Nat _
    | exact List.length_set ..
    | intro _ _
    | intro (_ : Nat)
    | split
    | dsimp only

theorem note_dry {s0 : State} (ev : BitVec 16) (pitch : Option (BitVec 8)) (detail : Bytes) (s : State) (hu : Dry s0 s) :
    Dry s0 (note ev pitch detail s) := by
  unfold note
  (try dsimp only)
  repeat first
    | (simp only [dry_mk]; with_reducible refine Dry.fold ?_)
    | with_reducible assumption
    | with_reducible exact Dry.refl _
    | with_reducible apply foldl_dry
    | with_reducible apply Dry.ite
    | with_reducible apply Dry.iteFst
    | with_reducible apply Dry.iteSnd
    | exact @rfl Nat _
    | exact List.length_set ..
    | intro _ _
    | intro (_ : Nat)
    | split
    | dsimp only

theorem freshEntry_dry {s0 : State} (s : State) (hu : Dry s0 s) :
    Dry s0 (freshEntry s) := by
  unfold freshEntry
  (try dsimp only)
  repeat first
    | (simp only [dry_mk]; with_reducible refine Dry.fold ?_)
    | with_reducible assumption
    | with_reducible exact Dry.refl _
    | with_reducible apply foldl_dry
    | with_reducible apply Dry.ite
    | with_reducible apply Dry.iteFst
    | with_reducible apply Dry.iteSnd
    | exact @rfl Nat _
    | exact List.length_set ..
    | intro _ _
    | intro (_ : Nat)
    | split
    | dsimp only

theorem appendEvidence_dry {s0 : State} (e : Evidence) (s : State) (hu : Dry s0 s) :
    Dry s0 (appendEvidence e s) := by
  unfold appendEvidence
  (try dsimp only)
  repeat first
    | (simp only [dry_mk]; with_reducible refine Dry.fold ?_)
    | with_reducible assumption
    | with_reducible exact Dry.refl _
    | with_reducible apply freshEntry_dry
    | with_reducible apply foldl_dry
    | with_reducible apply Dry.ite
    | with_reducible apply Dry.iteFst
    | with_reducible apply Dry.iteSnd
    | exact @rfl Nat _
    | exact List.length_set ..
    | intro _ _
    | intro (_ : Nat)
    | split
    | dsimp only

theorem bufferEntry_dry {s0 : State} (e : Evidence) (s : State) (hu : Dry s0 s) :
    Dry s0 (bufferEntry e s) := by
  unfold bufferEntry
  (try dsimp only)
  repeat first
    | (simp only [dry_mk]; with_reducible refine Dry.fold ?_)
    | with_reducible assumption
    | with_reducible exact Dry.refl _
    | with_reducible apply foldl_dry
    | with_reducible apply Dry.ite
    | with_reducible apply Dry.iteFst
    | with_reducible apply Dry.iteSnd
    | exact @rfl Nat _
    | exact List.length_set ..
    | intro _ _
    | intro (_ : Nat)
    | split
    | dsimp only

theorem logEntry_dry {s0 : State} (e : Evidence) (s : State) (hu : Dry s0 s) :
    Dry s0 (logEntry e s) := by
  unfold logEntry
  (try dsimp only)
  repeat first
    | (simp only [dry_mk]; with_reducible refine Dry.fold ?_)
    | with_reducible assumption
    | with_reducible exact Dry.refl _
    | with_reducible apply bufferEntry_dry
    | with_reducible apply appendEvidence_dry
    | with_reducible apply foldl_dry
    | with_reducible apply Dry.ite
    | with_reducible apply Dry.iteFst
    | with_reducible apply Dry.iteSnd
    | exact @rfl Nat _
    | exact List.length_set ..
    | intro _ _
    | intro (_ : Nat)
    | split
    | dsimp only

theorem evidence_dry {s0 : State} (source : BitVec 16) (flags : BitVec 8) (detail : Bytes) (s : State) (hu : Dry s0 s) :
    Dry s0 (evidence source flags detail s) := by
  unfold evidence
  (try dsimp only)
  repeat first
    | (simp only [dry_mk]; with_reducible refine Dry.fold ?_)
    | with_reducible assumption
    | with_reducible exact Dry.refl _
    | with_reducible apply logEntry_dry
    | with_reducible apply foldl_dry
    | with_reducible apply Dry.ite
    | with_reducible apply Dry.iteFst
    | with_reducible apply Dry.iteSnd
    | exact @rfl Nat _
    | exact List.length_set ..
    | intro _ _
    | intro (_ : Nat)
    | split
    | dsimp only

theorem dropAwaited_dry {s0 : State} (s : State) (hu : Dry s0 s) :
    Dry s0 (dropAwaited s) := by
  unfold dropAwaited
  (try dsimp only)
  repeat first
    | (simp only [dry_mk]; with_reducible refine Dry.fold ?_)
    | with_reducible assumption
    | with_reducible exact Dry.refl _
    | with_reducible apply foldl_dry
    | with_reducible apply Dry.ite
    | with_reducible apply Dry.iteFst
    | with_reducible apply Dry.iteSnd
    | exact @rfl Nat _
    | exact List.length_set ..
    | intro _ _
    | intro (_ : Nat)
    | split
    | dsimp only

theorem poison_dry {s0 : State} (s : State) (ns : List Nat) (hu : Dry s0 s) :
    Dry s0 (poison s ns) := by
  unfold poison
  (try dsimp only)
  repeat first
    | (simp only [dry_mk]; with_reducible refine Dry.fold ?_)
    | with_reducible assumption
    | with_reducible exact Dry.refl _
    | with_reducible apply dropAwaited_dry
    | with_reducible apply foldl_dry
    | with_reducible apply Dry.ite
    | with_reducible apply Dry.iteFst
    | with_reducible apply Dry.iteSnd
    | exact @rfl Nat _
    | exact List.length_set ..
    | intro _ _
    | intro (_ : Nat)
    | split
    | dsimp only

theorem unreserve_dry {s0 : State} (s : State) (n : BitVec 13) (hu : Dry s0 s) :
    Dry s0 (unreserve s n) := by
  unfold unreserve
  (try dsimp only)
  repeat first
    | (simp only [dry_mk]; with_reducible refine Dry.fold ?_)
    | with_reducible assumption
    | with_reducible exact Dry.refl _
    | with_reducible apply foldl_dry
    | with_reducible apply Dry.ite
    | with_reducible apply Dry.iteFst
    | with_reducible apply Dry.iteSnd
    | exact @rfl Nat _
    | exact List.length_set ..
    | intro _ _
    | intro (_ : Nat)
    | split
    | dsimp only

theorem drawClean_dry {s0 : State} (s : State) (hu : Dry s0 s) :
    Dry s0 (drawClean s) := by
  unfold drawClean
  (try dsimp only)
  repeat first
    | (simp only [dry_mk]; with_reducible refine Dry.fold ?_)
    | with_reducible assumption
    | with_reducible exact Dry.refl _
    | with_reducible apply foldl_dry
    | with_reducible apply Dry.ite
    | with_reducible apply Dry.iteFst
    | with_reducible apply Dry.iteSnd
    | exact @rfl Nat _
    | exact List.length_set ..
    | intro _ _
    | intro (_ : Nat)
    | split
    | dsimp only

theorem finishClear_dry {s0 : State} (fromJournal : Bool) (s : State) (hu : Dry s0 s) :
    Dry s0 (finishClear fromJournal s) := by
  unfold finishClear
  (try dsimp only)
  repeat first
    | (simp only [dry_mk]; with_reducible refine Dry.fold ?_)
    | with_reducible assumption
    | with_reducible exact Dry.refl _
    | with_reducible apply evidence_dry
    | with_reducible apply foldl_dry
    | with_reducible apply Dry.ite
    | with_reducible apply Dry.iteFst
    | with_reducible apply Dry.iteSnd
    | exact @rfl Nat _
    | exact List.length_set ..
    | intro _ _
    | intro (_ : Nat)
    | split
    | dsimp only

theorem leaveTile_dry {s0 : State} (s : State) (t : BitVec 6) (hu : Dry s0 s) :
    Dry s0 (leaveTile s t) := by
  unfold leaveTile
  (try dsimp only)
  repeat first
    | (simp only [dry_mk]; with_reducible refine Dry.fold ?_)
    | with_reducible assumption
    | with_reducible exact Dry.refl _
    | with_reducible apply State.setTile_dry
    | with_reducible apply foldl_dry
    | with_reducible apply Dry.ite
    | with_reducible apply Dry.iteFst
    | with_reducible apply Dry.iteSnd
    | exact @rfl Nat _
    | exact List.length_set ..
    | intro _ _
    | intro (_ : Nat)
    | split
    | dsimp only

theorem leaveKeeper_dry {s0 : State} (s : State) (hu : Dry s0 s) :
    Dry s0 (leaveKeeper s) := by
  unfold leaveKeeper
  (try dsimp only)
  repeat first
    | (simp only [dry_mk]; with_reducible refine Dry.fold ?_)
    | with_reducible assumption
    | with_reducible exact Dry.refl _
    | with_reducible apply leaveTile_dry
    | with_reducible apply foldl_dry
    | with_reducible apply Dry.ite
    | with_reducible apply Dry.iteFst
    | with_reducible apply Dry.iteSnd
    | exact @rfl Nat _
    | exact List.length_set ..
    | intro _ _
    | intro (_ : Nat)
    | split
    | dsimp only

theorem deactivate_dry {s0 : State} (s : State) (hu : Dry s0 s) :
    Dry s0 (deactivate s) := by
  unfold deactivate
  (try dsimp only)
  repeat first
    | (simp only [dry_mk]; with_reducible refine Dry.fold ?_)
    | with_reducible assumption
    | with_reducible exact Dry.refl _
    | with_reducible apply leaveKeeper_dry
    | with_reducible apply setPins_dry
    | with_reducible apply foldl_dry
    | with_reducible apply Dry.ite
    | with_reducible apply Dry.iteFst
    | with_reducible apply Dry.iteSnd
    | exact @rfl Nat _
    | exact List.length_set ..
    | intro _ _
    | intro (_ : Nat)
    | split
    | dsimp only

theorem arcBreak_dry {s0 : State} (s : State) (hu : Dry s0 s) :
    Dry s0 (arcBreak s) := by
  unfold arcBreak
  (try dsimp only)
  repeat first
    | (simp only [dry_mk]; with_reducible refine Dry.fold ?_)
    | with_reducible assumption
    | with_reducible exact Dry.refl _
    | with_reducible apply drawFree_dry
    | with_reducible apply foldl_dry
    | with_reducible apply Dry.ite
    | with_reducible apply Dry.iteFst
    | with_reducible apply Dry.iteSnd
    | exact @rfl Nat _
    | exact List.length_set ..
    | intro _ _
    | intro (_ : Nat)
    | split
    | dsimp only

theorem endCardJob_dry {s0 : State} (s : State) (j : JobId) (hu : Dry s0 s) :
    Dry s0 (endCardJob s j) := by
  unfold endCardJob
  (try dsimp only)
  repeat first
    | (simp only [dry_mk]; with_reducible refine Dry.fold ?_)
    | with_reducible assumption
    | with_reducible exact Dry.refl _
    | with_reducible apply deactivate_dry
    | with_reducible apply arcBreak_dry
    | with_reducible apply foldl_dry
    | with_reducible apply Dry.ite
    | with_reducible apply Dry.iteFst
    | with_reducible apply Dry.iteSnd
    | exact @rfl Nat _
    | exact List.length_set ..
    | intro _ _
    | intro (_ : Nat)
    | split
    | dsimp only

theorem setRecords_dry {s0 : State} (n : BitVec 13) (g : Stateful → Stateful) (s : State) (hu : Dry s0 s) :
    Dry s0 (setRecords n g s) := by
  unfold setRecords
  (try dsimp only)
  repeat first
    | (simp only [dry_mk]; with_reducible refine Dry.fold ?_)
    | with_reducible assumption
    | with_reducible exact Dry.refl _
    | with_reducible apply foldl_dry
    | with_reducible apply Dry.ite
    | with_reducible apply Dry.iteFst
    | with_reducible apply Dry.iteSnd
    | exact @rfl Nat _
    | exact List.length_set ..
    | intro _ _
    | intro (_ : Nat)
    | split
    | dsimp only

theorem setStateful_dry {s0 : State} (n : BitVec 13) (g : Stateful → Stateful) (s : State) (hu : Dry s0 s) :
    Dry s0 (setStateful n g s) := by
  unfold setStateful
  (try dsimp only)
  repeat first
    | (simp only [dry_mk]; with_reducible refine Dry.fold ?_)
    | with_reducible assumption
    | with_reducible exact Dry.refl _
    | with_reducible apply setRecords_dry
    | with_reducible apply State.setSlot_dry
    | with_reducible apply foldl_dry
    | with_reducible apply Dry.ite
    | with_reducible apply Dry.iteFst
    | with_reducible apply Dry.iteSnd
    | exact @rfl Nat _
    | exact List.length_set ..
    | intro _ _
    | intro (_ : Nat)
    | split
    | dsimp only

theorem reserveBlock_dry {s0 : State} (handle : BitVec 32) (s : State) (hu : Dry s0 s) :
    Dry s0 (reserveBlock handle s) := by
  unfold reserveBlock
  (try dsimp only)
  repeat first
    | (simp only [dry_mk]; with_reducible refine Dry.fold ?_)
    | with_reducible assumption
    | with_reducible exact Dry.refl _
    | with_reducible apply setStateful_dry
    | with_reducible apply foldl_dry
    | with_reducible apply Dry.ite
    | with_reducible apply Dry.iteFst
    | with_reducible apply Dry.iteSnd
    | exact @rfl Nat _
    | exact List.length_set ..
    | intro _ _
    | intro (_ : Nat)
    | split
    | dsimp only

theorem tearBlock_dry {s0 : State} (handle : BitVec 32) (s : State) (hu : Dry s0 s) :
    Dry s0 (tearBlock handle s) := by
  unfold tearBlock
  (try dsimp only)
  repeat first
    | (simp only [dry_mk]; with_reducible refine Dry.fold ?_)
    | with_reducible assumption
    | with_reducible exact Dry.refl _
    | with_reducible apply setStateful_dry
    | with_reducible apply drawFree_dry
    | with_reducible apply foldl_dry
    | with_reducible apply Dry.ite
    | with_reducible apply Dry.iteFst
    | with_reducible apply Dry.iteSnd
    | exact @rfl Nat _
    | exact List.length_set ..
    | intro _ _
    | intro (_ : Nat)
    | split
    | dsimp only

theorem askAbort_dry {s0 : State} (s : State) (x : Job) (hu : Dry s0 s) :
    Dry s0 (askAbort s x) := by
  unfold askAbort
  (try dsimp only)
  repeat first
    | (simp only [dry_mk]; with_reducible refine Dry.fold ?_)
    | with_reducible assumption
    | with_reducible exact Dry.refl _
    | with_reducible apply State.setTile_dry
    | with_reducible apply foldl_dry
    | with_reducible apply Dry.ite
    | with_reducible apply Dry.iteFst
    | with_reducible apply Dry.iteSnd
    | exact @rfl Nat _
    | exact List.length_set ..
    | intro _ _
    | intro (_ : Nat)
    | split
    | dsimp only

theorem leaveUnit_dry {s0 : State} (s : State) (u : Unit_) (hu : Dry s0 s) :
    Dry s0 (leaveUnit s u) := by
  unfold leaveUnit
  (try dsimp only)
  repeat first
    | (simp only [dry_mk]; with_reducible refine Dry.fold ?_)
    | with_reducible assumption
    | with_reducible exact Dry.refl _
    | with_reducible apply leaveTile_dry
    | with_reducible apply State.setEngine_dry
    | with_reducible apply foldl_dry
    | with_reducible apply Dry.ite
    | with_reducible apply Dry.iteFst
    | with_reducible apply Dry.iteSnd
    | exact @rfl Nat _
    | exact List.length_set ..
    | intro _ _
    | intro (_ : Nat)
    | split
    | dsimp only

theorem countUnit_dry {s0 : State} (s : State) (u : Unit_) (hu : Dry s0 s) :
    Dry s0 (countUnit s u) := by
  unfold countUnit
  (try dsimp only)
  repeat first
    | (simp only [dry_mk]; with_reducible refine Dry.fold ?_)
    | with_reducible assumption
    | with_reducible exact Dry.refl _
    | with_reducible apply State.setEngine_dry
    | with_reducible apply foldl_dry
    | with_reducible apply Dry.ite
    | with_reducible apply Dry.iteFst
    | with_reducible apply Dry.iteSnd
    | exact @rfl Nat _
    | exact List.length_set ..
    | intro _ _
    | intro (_ : Nat)
    | split
    | dsimp only

theorem freeUnits_dry {s0 : State} (s : State) (x : Job) (hu : Dry s0 s) :
    Dry s0 (freeUnits s x) := by
  unfold freeUnits
  (try dsimp only)
  repeat first
    | (simp only [dry_mk]; with_reducible refine Dry.fold ?_)
    | with_reducible assumption
    | with_reducible exact Dry.refl _
    | with_reducible apply countUnit_dry
    | with_reducible apply leaveUnit_dry
    | with_reducible apply foldl_dry
    | with_reducible apply Dry.ite
    | with_reducible apply Dry.iteFst
    | with_reducible apply Dry.iteSnd
    | exact @rfl Nat _
    | exact List.length_set ..
    | intro _ _
    | intro (_ : Nat)
    | split
    | dsimp only

theorem cutBlock_dry {s0 : State} (s : State) (x : Job) (st : BitVec 16) (hu : Dry s0 s) :
    Dry s0 (cutBlock s x st) := by
  unfold cutBlock
  (try dsimp only)
  repeat first
    | (simp only [dry_mk]; with_reducible refine Dry.fold ?_)
    | with_reducible assumption
    | with_reducible exact Dry.refl _
    | with_reducible apply reserveBlock_dry
    | with_reducible apply tearBlock_dry
    | with_reducible apply drawFree_dry
    | with_reducible apply foldl_dry
    | with_reducible apply Dry.ite
    | with_reducible apply Dry.iteFst
    | with_reducible apply Dry.iteSnd
    | exact @rfl Nat _
    | exact List.length_set ..
    | intro _ _
    | intro (_ : Nat)
    | split
    | dsimp only

theorem loseCaches_dry {s0 : State} (s : State) (x : Job) (st : BitVec 16) (hu : Dry s0 s) :
    Dry s0 (loseCaches s x st) := by
  unfold loseCaches
  (try dsimp only)
  repeat first
    | (simp only [dry_mk]; with_reducible refine Dry.fold ?_)
    | with_reducible assumption
    | with_reducible exact Dry.refl _
    | with_reducible apply State.setCtx_dry
    | with_reducible apply foldl_dry
    | with_reducible apply Dry.ite
    | with_reducible apply Dry.iteFst
    | with_reducible apply Dry.iteSnd
    | exact @rfl Nat _
    | exact List.length_set ..
    | intro _ _
    | intro (_ : Nat)
    | split
    | dsimp only

theorem undoMigration_dry {s0 : State} (s : State) (x : Job) (hu : Dry s0 s) :
    Dry s0 (undoMigration s x) := by
  unfold undoMigration
  (try dsimp only)
  repeat first
    | (simp only [dry_mk]; with_reducible refine Dry.fold ?_)
    | with_reducible assumption
    | with_reducible exact Dry.refl _
    | with_reducible apply foldl_dry
    | with_reducible apply Dry.ite
    | with_reducible apply Dry.iteFst
    | with_reducible apply Dry.iteSnd
    | exact @rfl Nat _
    | exact List.length_set ..
    | intro _ _
    | intro (_ : Nat)
    | split
    | dsimp only

theorem endRaw_dry {s0 : State} (s : State) (j : JobId) (hu : Dry s0 s) :
    Dry s0 (endRaw s j) := by
  unfold endRaw
  (try dsimp only)
  repeat first
    | (simp only [dry_mk]; with_reducible refine Dry.fold ?_)
    | with_reducible assumption
    | with_reducible exact Dry.refl _
    | with_reducible apply foldl_dry
    | with_reducible apply Dry.ite
    | with_reducible apply Dry.iteFst
    | with_reducible apply Dry.iteSnd
    | exact @rfl Nat _
    | exact List.length_set ..
    | intro _ _
    | intro (_ : Nat)
    | split
    | dsimp only

theorem dropAsk_dry {s0 : State} (s : State) (j : JobId) (hu : Dry s0 s) :
    Dry s0 (dropAsk s j) := by
  unfold dropAsk
  (try dsimp only)
  repeat first
    | (simp only [dry_mk]; with_reducible refine Dry.fold ?_)
    | with_reducible assumption
    | with_reducible exact Dry.refl _
    | with_reducible apply foldl_dry
    | with_reducible apply Dry.ite
    | with_reducible apply Dry.iteFst
    | with_reducible apply Dry.iteSnd
    | exact @rfl Nat _
    | exact List.length_set ..
    | intro _ _
    | intro (_ : Nat)
    | split
    | dsimp only

theorem finishJob_dry {s0 : State} (s : State) (x : Job) (out : JobOut) (hu : Dry s0 s) :
    Dry s0 (finishJob s x out) := by
  unfold finishJob
  (try dsimp only)
  repeat first
    | (simp only [dry_mk]; with_reducible refine Dry.fold ?_)
    | with_reducible assumption
    | with_reducible exact Dry.refl _
    | with_reducible apply freeUnits_dry
    | with_reducible apply undoMigration_dry
    | with_reducible apply dropAsk_dry
    | with_reducible apply endRaw_dry
    | with_reducible apply endCardJob_dry
    | with_reducible apply finishClear_dry
    | with_reducible apply unreserve_dry
    | with_reducible apply loseCaches_dry
    | with_reducible apply cutBlock_dry
    | with_reducible apply State.setCtx_dry
    | with_reducible apply State.setJob_dry
    | with_reducible apply drawClean_dry
    | with_reducible apply foldl_dry
    | with_reducible apply Dry.ite
    | with_reducible apply Dry.iteFst
    | with_reducible apply Dry.iteSnd
    | exact @rfl Nat _
    | exact List.length_set ..
    | intro _ _
    | intro (_ : Nat)
    | split
    | dsimp only

theorem refuseJob_dry {s0 : State} (s : State) (x : Job) (b : Bad) (hu : Dry s0 s) :
    Dry s0 (refuseJob s x b) := by
  unfold refuseJob
  (try dsimp only)
  repeat first
    | (simp only [dry_mk]; with_reducible refine Dry.fold ?_)
    | with_reducible assumption
    | with_reducible exact Dry.refl _
    | with_reducible apply finishJob_dry
    | with_reducible apply foldl_dry
    | with_reducible apply Dry.ite
    | with_reducible apply Dry.iteFst
    | with_reducible apply Dry.iteSnd
    | exact @rfl Nat _
    | exact List.length_set ..
    | intro _ _
    | intro (_ : Nat)
    | split
    | dsimp only

theorem cutElapsed_dry {s0 : State} (s : State) (x : Job) (hu : Dry s0 s) :
    Dry s0 (cutElapsed s x).2 := by
  unfold cutElapsed
  (try dsimp only)
  repeat first
    | (simp only [dry_mk]; with_reducible refine Dry.fold ?_)
    | with_reducible assumption
    | with_reducible exact Dry.refl _
    | with_reducible apply drawFree_dry
    | with_reducible apply foldl_dry
    | with_reducible apply Dry.ite
    | with_reducible apply Dry.iteFst
    | with_reducible apply Dry.iteSnd
    | exact @rfl Nat _
    | exact List.length_set ..
    | intro _ _
    | intro (_ : Nat)
    | split
    | dsimp only

theorem breakWith_dry {s0 : State} (s : State) (x : Job) (st : BitVec 16) (dt : BitVec 16) (elapsed : BitVec 32) (hu : Dry s0 s) :
    Dry s0 (breakWith s x st dt elapsed) := by
  unfold breakWith
  (try dsimp only)
  repeat first
    | (simp only [dry_mk]; with_reducible refine Dry.fold ?_)
    | with_reducible assumption
    | with_reducible exact Dry.refl _
    | with_reducible apply finishJob_dry
    | with_reducible apply poison_dry
    | with_reducible apply foldl_dry
    | with_reducible apply Dry.ite
    | with_reducible apply Dry.iteFst
    | with_reducible apply Dry.iteSnd
    | exact @rfl Nat _
    | exact List.length_set ..
    | intro _ _
    | intro (_ : Nat)
    | split
    | dsimp only

theorem breakJob_dry {s0 : State} (s : State) (x : Job) (st : BitVec 16) (dt : BitVec 16) (hu : Dry s0 s) :
    Dry s0 (breakJob s x st dt) := by
  unfold breakJob
  (try dsimp only)
  repeat first
    | (simp only [dry_mk]; with_reducible refine Dry.fold ?_)
    | with_reducible assumption
    | with_reducible exact Dry.refl _
    | with_reducible apply breakWith_dry
    | with_reducible apply cutElapsed_dry
    | with_reducible apply foldl_dry
    | with_reducible apply Dry.ite
    | with_reducible apply Dry.iteFst
    | with_reducible apply Dry.iteSnd
    | exact @rfl Nat _
    | exact List.length_set ..
    | intro _ _
    | intro (_ : Nat)
    | split
    | dsimp only

theorem State.setSource_dry {s0 : State} (s : State) (i : AlarmSource) (x : Source) (hu : Dry s0 s) :
    Dry s0 (State.setSource s i x) := by
  unfold State.setSource
  (try dsimp only)
  repeat first
    | (simp only [dry_mk]; with_reducible refine Dry.fold ?_)
    | with_reducible assumption
    | with_reducible exact Dry.refl _
    | with_reducible apply foldl_dry
    | with_reducible apply Dry.ite
    | with_reducible apply Dry.iteFst
    | with_reducible apply Dry.iteSnd
    | exact @rfl Nat _
    | exact List.length_set ..
    | intro _ _
    | intro (_ : Nat)
    | split
    | dsimp only

theorem alarmInt_dry {s0 : State} (b : BitVec 5) (s : State) (hu : Dry s0 s) :
    Dry s0 (alarmInt b s) := by
  unfold alarmInt
  (try dsimp only)
  repeat first
    | (simp only [dry_mk]; with_reducible refine Dry.fold ?_)
    | with_reducible assumption
    | with_reducible exact Dry.refl _
    | with_reducible apply foldl_dry
    | with_reducible apply Dry.ite
    | with_reducible apply Dry.iteFst
    | with_reducible apply Dry.iteSnd
    | exact @rfl Nat _
    | exact List.length_set ..
    | intro _ _
    | intro (_ : Nat)
    | split
    | dsimp only

theorem tripEvidence_dry {s0 : State} (i : AlarmSource) (v : TripReading) (r : BitVec 2) (combined : Bool) (s : State) (hu : Dry s0 s) :
    Dry s0 (tripEvidence i v r combined s) := by
  unfold tripEvidence
  (try dsimp only)
  repeat first
    | (simp only [dry_mk]; with_reducible refine Dry.fold ?_)
    | with_reducible assumption
    | with_reducible exact Dry.refl _
    | with_reducible apply State.setSource_dry
    | with_reducible apply evidence_dry
    | with_reducible apply foldl_dry
    | with_reducible apply Dry.ite
    | with_reducible apply Dry.iteFst
    | with_reducible apply Dry.iteSnd
    | exact @rfl Nat _
    | exact List.length_set ..
    | intro _ _
    | intro (_ : Nat)
    | split
    | dsimp only

theorem faultJob_dry {s0 : State} (detail : BitVec 16) (avoid : List Unit_) (s : State) (x : Job) (hu : Dry s0 s) :
    Dry s0 (faultJob detail avoid s x) := by
  unfold faultJob
  (try dsimp only)
  repeat first
    | (simp only [dry_mk]; with_reducible refine Dry.fold ?_)
    | with_reducible assumption
    | with_reducible exact Dry.refl _
    | with_reducible apply breakJob_dry
    | with_reducible apply endRaw_dry
    | with_reducible apply leaveUnit_dry
    | with_reducible apply askAbort_dry
    | with_reducible apply State.setJob_dry
    | with_reducible apply foldl_dry
    | with_reducible apply Dry.ite
    | with_reducible apply Dry.iteFst
    | with_reducible apply Dry.iteSnd
    | exact @rfl Nat _
    | exact List.length_set ..
    | intro _ _
    | intro (_ : Nat)
    | split
    | dsimp only

theorem leaveWindow_dry {s0 : State} (i : AlarmSource) (v : TripReading) (s : State) (hu : Dry s0 s) :
    Dry s0 (leaveWindow i v s) := by
  unfold leaveWindow
  (try dsimp only)
  repeat first
    | (simp only [dry_mk]; with_reducible refine Dry.fold ?_)
    | with_reducible assumption
    | with_reducible exact Dry.refl _
    | with_reducible apply foldl_dry
    | with_reducible apply Dry.ite
    | with_reducible apply Dry.iteFst
    | with_reducible apply Dry.iteSnd
    | exact @rfl Nat _
    | exact List.length_set ..
    | intro _ _
    | intro (_ : Nat)
    | split
    | dsimp only

theorem tamperInput_dry {s0 : State} (i : AlarmSource) (on : Bool) (s : State) (hu : Dry s0 s) :
    Dry s0 (tamperInput i on s) := by
  unfold tamperInput
  (try dsimp only)
  repeat first
    | (simp only [dry_mk]; with_reducible refine Dry.fold ?_)
    | with_reducible assumption
    | with_reducible exact Dry.refl _
    | with_reducible apply foldl_dry
    | with_reducible apply Dry.ite
    | with_reducible apply Dry.iteFst
    | with_reducible apply Dry.iteSnd
    | exact @rfl Nat _
    | exact List.length_set ..
    | intro _ _
    | intro (_ : Nat)
    | split
    | dsimp only

theorem joinDecision_dry {s0 : State} (i : AlarmSource) (v : TripReading) (r : BitVec 2) (s : State) (hu : Dry s0 s) :
    Dry s0 (joinDecision i v r s) := by
  unfold joinDecision
  (try dsimp only)
  repeat first
    | (simp only [dry_mk]; with_reducible refine Dry.fold ?_)
    | with_reducible assumption
    | with_reducible exact Dry.refl _
    | with_reducible apply foldl_dry
    | with_reducible apply Dry.ite
    | with_reducible apply Dry.iteFst
    | with_reducible apply Dry.iteSnd
    | exact @rfl Nat _
    | exact List.length_set ..
    | intro _ _
    | intro (_ : Nat)
    | split
    | dsimp only

theorem strandedJob_dry {s0 : State} (s : State) (x : Job) (hu : Dry s0 s) :
    Dry s0 (strandedJob s x) := by
  unfold strandedJob
  (try dsimp only)
  repeat first
    | (simp only [dry_mk]; with_reducible refine Dry.fold ?_)
    | with_reducible assumption
    | with_reducible exact Dry.refl _
    | with_reducible apply refuseJob_dry
    | with_reducible apply breakJob_dry
    | with_reducible apply foldl_dry
    | with_reducible apply Dry.ite
    | with_reducible apply Dry.iteFst
    | with_reducible apply Dry.iteSnd
    | exact @rfl Nat _
    | exact List.length_set ..
    | intro _ _
    | intro (_ : Nat)
    | split
    | dsimp only

theorem engineInt_dry {s0 : State} (b : BitVec 3) (s : State) (hu : Dry s0 s) :
    Dry s0 (engineInt b s) := by
  unfold engineInt
  (try dsimp only)
  repeat first
    | (simp only [dry_mk]; with_reducible refine Dry.fold ?_)
    | with_reducible assumption
    | with_reducible exact Dry.refl _
    | with_reducible apply foldl_dry
    | with_reducible apply Dry.ite
    | with_reducible apply Dry.iteFst
    | with_reducible apply Dry.iteSnd
    | exact @rfl Nat _
    | exact List.length_set ..
    | intro _ _
    | intro (_ : Nat)
    | split
    | dsimp only

theorem engineFaultJob_dry {s0 : State} (e : BitVec 3) (s : State) (hu : Dry s0 s) :
    Dry s0 (engineFaultJob e s) := by
  unfold engineFaultJob
  (try dsimp only)
  repeat first
    | (simp only [dry_mk]; with_reducible refine Dry.fold ?_)
    | with_reducible assumption
    | with_reducible exact Dry.refl _
    | with_reducible apply faultJob_dry
    | with_reducible apply foldl_dry
    | with_reducible apply Dry.ite
    | with_reducible apply Dry.iteFst
    | with_reducible apply Dry.iteSnd
    | exact @rfl Nat _
    | exact List.length_set ..
    | intro _ _
    | intro (_ : Nat)
    | split
    | dsimp only

theorem retireEngine_dry {s0 : State} (e : BitVec 3) (cause : BitVec 2) (s : State) (hu : Dry s0 s) :
    Dry s0 (retireEngine e cause s) := by
  unfold retireEngine
  (try dsimp only)
  repeat first
    | (simp only [dry_mk]; with_reducible refine Dry.fold ?_)
    | with_reducible assumption
    | with_reducible exact Dry.refl _
    | with_reducible apply engineInt_dry
    | with_reducible apply State.setEngine_dry
    | with_reducible apply faultJob_dry
    | with_reducible apply strandedJob_dry
    | with_reducible apply foldl_dry
    | with_reducible apply Dry.ite
    | with_reducible apply Dry.iteFst
    | with_reducible apply Dry.iteSnd
    | exact @rfl Nat _
    | exact List.length_set ..
    | intro _ _
    | intro (_ : Nat)
    | split
    | dsimp only

/-- A fault of an engine trips its source, whose response leaves the instances as they are. -/
theorem engineFcm_dry {s0 : State} (r : TripReading) (s : State) (hu : Dry s0 s) : Dry s0 (trip .engineFcm r s) := by
  unfold trip
  dsimp only
  have h : Dry s0 (note 0x0901 none (wordBytes 2 (sourceCode .engineFcm) ++ [(responseOf s .engineFcm).setWidth 8, 0] ++
      tripDetail (keptReading s .engineFcm r)) (alarmInt 1 (leaveWindow .engineFcm (keptReading s .engineFcm r) (tamperInput .engineFcm true
        (s.setSource .engineFcm { s.source .engineFcm with inForce := true, trips := satAdd (s.source .engineFcm).trips 1 }))))) :=
    note_dry _ _ _ _ (alarmInt_dry _ _ (leaveWindow_dry _ _ _ (tamperInput_dry _ _ _ (State.setSource_dry _ _ _ hu))))
  refine Dry.ite (joinDecision_dry _ _ _ _ h) (Dry.ite (joinDecision_dry _ _ _ _ (Dry.ite h (setPins_dry _ _ h))) ?_)
  refine joinDecision_dry _ _ _ _ (tripEvidence_dry _ _ _ _ _ ?_)
  exact Dry.ite (State.setSource_dry _ _ _ h) (State.setSource_dry _ _ _ h)

theorem engineTrip_dry {s0 : State} (e : BitVec 3) (s : State) (hu : Dry s0 s) : Dry s0 (engineTrip e s) := by
  unfold engineTrip
  dsimp only
  refine Dry.ite hu (Dry.ite (retireEngine_dry _ _ _ ?_) (engineFaultJob_dry _ _ ?_)) <;>
    exact engineFcm_dry _ _ (engineInt_dry _ _ (State.setEngine_dry _ _ _ hu))

theorem verifyFails_dry {s0 : State} (e : BitVec 3) (s : State) (hu : Dry s0 s) : Dry s0 (verifyFails e s) :=
  engineFaultJob_dry _ _ (engineFcm_dry _ _ hu)

/-- A checked run leaves the instances as its run or as the state in which a check fails. -/
theorem checkedRun_dry (s : State) (x : Job) (inv ver : Bool) (r : Ran) :
    Dry s (checkedRun s x inv ver r).state ∨ checkedRun s x inv ver r = r := by
  unfold checkedRun
  split
  · exact .inr rfl
  · exact .inl (Dry.refl s)
  · refine .inl ?_
    dsimp only
    exact Dry.ite (verifyFails_dry _ _ (Dry.refl s)) (engineTrip_dry _ _ (Dry.refl s))


/-- The jobs of a queue that R67 ends leave the queues and the memory of the host as they were. -/
theorem stopUnstarted_dry (s : State) (q : BitVec 12) : Dry s (stopUnstarted s q) := by
  unfold stopUnstarted
  exact foldl_dry (fun s x => breakJob_dry s x _ _ (Dry.refl s)) (Dry.refl s)

end Sys2Proof.Machine
end

