-- ==== Sys2Proof/Laws/Tab.lean ====
section
/-! SUPPORT. The laws of the sparse tables: every operation keeps the canonical form, and a read after a write gives what was
written there and what stood elsewhere. -/
namespace Sys2Proof.Machine

variable {α : Type} [DecidableEq α] {d : α}

theorem Tab.wfFrom_mono {lo lo' : Nat} (h : lo' ≤ lo) {t : Tab α} (w : Tab.wfFrom d lo t = true) : Tab.wfFrom d lo' t = true := by
  cases t with
  | nil => rfl
  | cons e t =>
    obtain ⟨j, v⟩ := e
    simp only [Tab.wfFrom, Bool.and_eq_true, decide_eq_true_eq] at w ⊢
    exact ⟨⟨Nat.le_trans h w.1.1, w.1.2⟩, w.2⟩

theorem Tab.set_wfFrom {lo k : Nat} (v : α) {t : Tab α} (hk : lo ≤ k) (w : Tab.wfFrom d lo t = true) :
    Tab.wfFrom d lo (Tab.set d k v t) = true := by
  induction t generalizing lo with
  | nil =>
    unfold Tab.set
    split
    · rfl
    · simp [Tab.wfFrom, *]
  | cons e t ih =>
    obtain ⟨j, u⟩ := e
    simp only [Tab.wfFrom, Bool.and_eq_true, decide_eq_true_eq] at w
    unfold Tab.set
    split
    · rename_i hj
      simp only [Tab.wfFrom, Bool.and_eq_true, decide_eq_true_eq]
      exact ⟨w.1, ih (Nat.succ_le_of_lt hj) w.2⟩
    · split
      · rename_i hj
        split
        · exact Tab.wfFrom_mono (Nat.le_succ_of_le w.1.1) w.2
        · rename_i hv
          subst hj
          simp only [Tab.wfFrom, Bool.and_eq_true, decide_eq_true_eq]
          exact ⟨⟨w.1.1, hv⟩, w.2⟩
      · split
        · simp only [Tab.wfFrom, Bool.and_eq_true, decide_eq_true_eq]
          exact w
        · rename_i h1 h2 hv
          simp only [Tab.wfFrom, Bool.and_eq_true, decide_eq_true_eq]
          exact ⟨⟨hk, hv⟩, ⟨Nat.succ_le_of_lt (by omega), w.1.2⟩, w.2⟩

/-- A write keeps the canonical form. -/
theorem Tab.set_wf (k : Nat) (v : α) {t : Tab α} (w : Tab.wf d t = true) : Tab.wf d (Tab.set d k v t) = true :=
  Tab.set_wfFrom v (Nat.zero_le k) w

/-- A write of many values keeps the canonical form. -/
theorem Tab.write_wf (vs : List α) (a : Nat) {t : Tab α} (w : Tab.wf d t = true) : Tab.wf d (Tab.write d t a vs) = true := by
  induction vs generalizing a t with
  | nil => exact w
  | cons v vs ih => exact ih (a + 1) (Tab.set_wf a v w)

theorem Tab.filter_wfFrom (p : Nat × α → Bool) {lo : Nat} {t : Tab α} (w : Tab.wfFrom d lo t = true) :
    Tab.wfFrom d lo (t.filter p) = true := by
  induction t generalizing lo with
  | nil => rfl
  | cons e t ih =>
    obtain ⟨j, u⟩ := e
    simp only [Tab.wfFrom, Bool.and_eq_true, decide_eq_true_eq] at w
    rw [List.filter_cons]
    split
    · simp only [Tab.wfFrom, Bool.and_eq_true, decide_eq_true_eq]
      exact ⟨w.1, ih w.2⟩
    · exact Tab.wfFrom_mono (Nat.le_succ_of_le w.1.1) (ih w.2)

/-- Entries taken away keep the canonical form. -/
theorem Tab.filter_wf (p : Nat × α → Bool) {t : Tab α} (w : Tab.wf d t = true) : Tab.wf d (t.filter p) = true :=
  Tab.filter_wfFrom p w

theorem Tab.get_below {lo k : Nat} {t : Tab α} (h : k < lo) (w : Tab.wfFrom d lo t = true) : Tab.get d k t = d := by
  induction t generalizing lo with
  | nil => rfl
  | cons e t ih =>
    obtain ⟨j, u⟩ := e
    simp only [Tab.wfFrom, Bool.and_eq_true, decide_eq_true_eq] at w
    unfold Tab.get
    rw [if_neg (by omega)]
    exact ih (by omega) w.2

theorem Tab.get_set_from {lo k m : Nat} (v : α) {t : Tab α} (w : Tab.wfFrom d lo t = true) :
    Tab.get d m (Tab.set d k v t) = if m = k then v else Tab.get d m t := by
  induction t generalizing lo with
  | nil =>
    unfold Tab.set
    split
    · subst_vars; simp [Tab.get]
    · simp only [Tab.get]; split <;> split <;> simp_all
  | cons e t ih =>
    obtain ⟨j, u⟩ := e
    simp only [Tab.wfFrom, Bool.and_eq_true, decide_eq_true_eq] at w
    unfold Tab.set
    split
    · simp only [Tab.get, ih w.2]
      split <;> split <;> first | rfl | omega
    · split
      · rename_i h1 hj
        subst hj
        split
        · rename_i hv
          subst hv
          simp only [Tab.get]
          split
          · rename_i hm; subst hm; exact Tab.get_below (Nat.lt_succ_self _) w.2
          · rw [if_neg (by omega)]
        · simp only [Tab.get]
          split <;> split <;> first | rfl | omega
      · rename_i h1 h2
        split
        · rename_i hv
          subst hv
          split
          · rename_i hm; subst hm
            simp only [Tab.get]
            rw [if_neg h2]
            exact Tab.get_below (by omega) w.2
          · rfl
        · by_cases hm : m = k
          · subst hm; simp [Tab.get]
          · simp only [Tab.get]
            rw [if_neg (Ne.symm hm), if_neg hm]

/-- A read after a write: what was written there, and what stood elsewhere. -/
theorem Tab.get_set (k m : Nat) (v : α) {t : Tab α} (w : Tab.wf d t = true) :
    Tab.get d m (Tab.set d k v t) = if m = k then v else Tab.get d m t := Tab.get_set_from v w

/-- A read outside the values written gives what stood there. -/
theorem Tab.get_write_outside (vs : List α) (a m : Nat) {t : Tab α} (w : Tab.wf d t = true) (h : m < a ∨ a + vs.length ≤ m) :
    Tab.get d m (Tab.write d t a vs) = Tab.get d m t := by
  induction vs generalizing a t with
  | nil => rfl
  | cons v vs ih =>
    unfold Tab.write
    rw [ih (a + 1) (Tab.set_wf a v w) (by simp only [List.length_cons] at h; omega), Tab.get_set a m v w]
    rw [if_neg (by simp only [List.length_cons] at h; omega)]

/-- A read inside the values written gives the value of its place. -/
theorem Tab.get_write_inside (vs : List α) (a i : Nat) {t : Tab α} (w : Tab.wf d t = true) (h : i < vs.length) :
    Tab.get d (a + i) (Tab.write d t a vs) = vs[i] := by
  induction vs generalizing a i t with
  | nil => exact absurd h (Nat.not_lt_zero _)
  | cons v vs ih =>
    unfold Tab.write
    cases i with
    | zero =>
      rw [Tab.get_write_outside vs (a + 1) (a + 0) (Tab.set_wf a v w) (by omega), Tab.get_set a _ v w]
      simp
    | succ i =>
      have e : a + (i + 1) = (a + 1) + i := by omega
      rw [e, ih (a + 1) i (Tab.set_wf a v w) (by simpa using h)]
      rfl

/-- A value other than the default is read back whatever the form of the table. -/
theorem Tab.get_set_same (k : Nat) (v : α) (t : Tab α) (h : v ≠ d) : Tab.get d k (Tab.set d k v t) = v := by
  induction t with
  | nil => simp [Tab.set, Tab.get, h]
  | cons e t ih =>
    obtain ⟨j, u⟩ := e
    unfold Tab.set
    split
    · simp only [Tab.get]; rw [if_neg (by omega)]; exact ih
    · split <;> simp [Tab.get]

end Sys2Proof.Machine
end

