-- ==== Sys2Proof/Laws/Draws.lean ====
section
/-! SUPPORT. How many generate calls a pitch's instance can still make before a reseed is due that the carafe cannot serve (R328), and
what a draw, and the jobs that draw in loops, leave of that number. -/
namespace Sys2Proof.Machine

/-- The instance of a pitch is below its limit, or due and about to be reseeded, and it can make `m` more calls with the reseeds that the
bytes of the carafe serve, for which no other request waits. -/
def room (r : Rng) (p : BitVec 8) (m : Nat) : Bool :=
  let d := Tab.get drbgInit p.toNat r.drbgs
  r.requests.isEmpty && d.seeded && (d.due == decide (2 ^ 20 ≤ d.calls.toNat)) && decide (d.calls.toNat ≤ 2 ^ 20) &&
  decide (d.calls.toNat + m ≤ 2 ^ 20 * (1 + r.carafe.length / 32))

theorem room_iff (r : Rng) (p : BitVec 8) (m : Nat) : room r p m = true ↔
    r.requests = [] ∧ (Tab.get drbgInit p.toNat r.drbgs).seeded = true ∧
    ((Tab.get drbgInit p.toNat r.drbgs).due = true ↔ 2 ^ 20 ≤ (Tab.get drbgInit p.toNat r.drbgs).calls.toNat) ∧
    (Tab.get drbgInit p.toNat r.drbgs).calls.toNat ≤ 2 ^ 20 ∧
    (Tab.get drbgInit p.toNat r.drbgs).calls.toNat + m ≤ 2 ^ 20 * (1 + r.carafe.length / 32) := by
  unfold room
  generalize Tab.get drbgInit p.toNat r.drbgs = d
  simp only [Bool.and_eq_true, beq_iff_eq, decide_eq_true_eq, and_assoc, List.isEmpty_iff]
  rw [show (d.due = decide (2 ^ 20 ≤ d.calls.toNat)) ↔ (d.due = true ↔ 2 ^ 20 ≤ d.calls.toNat) by
    cases d.due <;> simp]

/-- Room for more calls is room for fewer. -/
theorem room_mono {r : Rng} {p : BitVec 8} {m k : Nat} (h : k ≤ m) (w : room r p m = true) : room r p k = true := by
  rw [room_iff] at w ⊢
  exact ⟨w.1, w.2.1, w.2.2.1, w.2.2.2.1, Nat.le_trans (Nat.add_le_add_left h _) w.2.2.2.2⟩

/-- With room, no call was made dry. -/
theorem drawnDry_room {s : State} {p : BitVec 8} {m : Nat} (h : room s.rng p m = true) : drawnDry s p = false := by
  rw [room_iff] at h
  unfold drawnDry State.drbg
  simp only [decide_eq_false_iff_not]; omega

theorem setDrbg_get (s : State) (p : BitVec 8) (d : Drbg) (h : d.seeded = true) :
    Tab.get drbgInit p.toNat (s.setDrbg p d).rng.drbgs = d :=
  Tab.get_set_same _ _ _ (fun e => by rw [e] at h; exact absurd h (by decide))

theorem drbgUpdate_seeded (b : Bytes) (d : Drbg) : (drbgUpdate b d).seeded = d.seeded := rfl
theorem drbgUpdate_calls (b : Bytes) (d : Drbg) : (drbgUpdate b d).calls = d.calls := rfl
theorem drbgUpdate_due (b : Bytes) (d : Drbg) : (drbgUpdate b d).due = d.due := rfl

/-- A generate call: the instance stays seeded, and the call is counted. -/
theorem drbgGenerate_counts (a : Bytes) (n : Nat) (d : Drbg) :
    (drbgGenerate a n d).2.seeded = d.seeded ∧ (drbgGenerate a n d).2.calls = satAdd d.calls 1 ∧
    (drbgGenerate a n d).2.due = (d.due || decide (2 ^ 20 ≤ d.calls.toNat + 1)) := by
  unfold drbgGenerate
  cases a.isEmpty <;> exact ⟨rfl, rfl, rfl⟩

theorem satAdd_one (c : BitVec 32) (h : c.toNat ≤ 2 ^ 20) : (satAdd c 1).toNat = c.toNat + 1 := by
  unfold satAdd
  rw [if_neg (by omega), BitVec.toNat_add]
  simp only [BitVec.toNat_ofNat]; omega

/-- A draw takes one call, and one reseed where one is due. -/
theorem draw_room {s : State} {p : BitVec 8} {m : Nat} (n : Nat) (h : room s.rng p (m + 1) = true) :
    room (draw s p n).2.rng p m = true := by
  rw [room_iff] at h
  obtain ⟨h0, h1, h2, h3, h4⟩ := h
  have e : s.drbg p = Tab.get drbgInit p.toNat s.rng.drbgs := rfl
  rw [← e] at h1 h2 h3 h4
  have c48 : 2 ^ 20 ≤ (s.drbg p).calls.toNat → 32 ≤ s.rng.carafe.length := by
    intro q
    rcases Nat.lt_or_ge s.rng.carafe.length 32 with k | k
    · rw [Nat.div_eq_of_lt k] at h4; omega
    · exact k
  rw [room_iff]
  have served : reseedServed s = decide (32 ≤ s.rng.carafe.length) := by unfold reseedServed; rw [h0]; simp
  unfold draw drawBytes
  simp only [h1, served, Bool.not_true, Bool.false_eq_true, if_false, Bool.true_and, Bool.false_or]
  by_cases q : 2 ^ 20 ≤ (s.drbg p).calls.toNat
  · have k := c48 q
    have re : ((s.drbg p).due && decide (32 ≤ s.rng.carafe.length)) = true := by
      rw [h2.mpr q]; simpa using k
    simp only [re, if_true]
    have g : (drbgReseed s p []).drbg p = drbgSeed ((carafeTake s 32).1 ++ []) ((carafeTake s 32).2.drbg p) :=
      setDrbg_get _ _ _ rfl
    have l : (drbgReseed s p []).rng.carafe = s.rng.carafe.drop 32 := rfl
    obtain ⟨g1, g2, g3⟩ := drbgGenerate_counts [] n ((drbgReseed s p []).drbg p)
    have z : ((drbgReseed s p []).drbg p).calls = 0 := by rw [g]; rfl
    have zd : ((drbgReseed s p []).drbg p).due = false := by rw [g]; rfl
    have zs : ((drbgReseed s p []).drbg p).seeded = true := by rw [g]; rfl
    rw [setDrbg_get _ _ _ (by rw [g1]; exact zs), g1, g2, g3, z, zd, zs]
    have len : ((drbgReseed s p []).setDrbg p (drbgGenerate [] n ((drbgReseed s p []).drbg p)).2).rng.carafe.length / 32 =
        s.rng.carafe.length / 32 - 1 := by
      show (drbgReseed s p []).rng.carafe.length / 32 = _
      rw [l, List.length_drop]; omega
    rw [len]
    have one : (satAdd (0 : BitVec 32) 1).toNat = 1 := by decide
    rw [one]
    refine ⟨h0, rfl, by simp, by omega, ?_⟩
    have : 1 ≤ s.rng.carafe.length / 32 := by omega
    obtain ⟨j, hj⟩ : ∃ j, s.rng.carafe.length / 32 = j + 1 := ⟨_, (Nat.sub_add_cancel this).symm⟩
    rw [hj] at h4 ⊢; omega
  · have nd : (s.drbg p).due = false := by
      cases d : (s.drbg p).due with
      | false => rfl
      | true => exact absurd (h2.mp d) q
    simp only [nd, Bool.false_and, Bool.false_eq_true, if_false]
    obtain ⟨g1, g2, g3⟩ := drbgGenerate_counts [] n (s.drbg p)
    rw [setDrbg_get _ _ _ (by rw [g1]; exact h1), g1, g2, g3, nd, satAdd_one _ h3]
    refine ⟨h0, h1, by simp, by omega, ?_⟩
    show _ ≤ 2 ^ 20 * (1 + s.rng.carafe.length / 32)
    omega

/-- A job whose run makes no call dry starts with none made (R328). -/
theorem runJob_notDry (sp : OpSpec) (s : State) (x : Job) (us : List Unit_) (rs : List (BitVec 13)) (p : BitVec 8) (m : Nat)
    (h : ∀ t y, y.desc = x.desc → y.pitch = x.pitch → room t.rng p m = true → drawnDry (sp.run t y).state p = false)
    (w : room s.rng p m = true) : drawnDry (runJob sp s x us rs) p = false := by
  have d : ∀ t u : State, t.rng = u.rng → drawnDry u p = false → drawnDry t p = false := by
    intro t u e g; unfold drawnDry State.drbg at *; rw [e]; exact g
  unfold runJob
  dsimp only
  have c : ∀ s : State, drawnDry (drawClean s) p = drawnDry s p := fun _ => rfl
  rw [c]
  have e : ∀ u : State, u = (if x.id.src = 0 then translated x.pitch x.desc.auxAddr.toNat x.desc.auxLen.toNat
      (if x.desc.inCrate then s else translated x.pitch x.desc.inAddr.toNat x.desc.inLen.toNat s) else s) → room u.rng p m = true := by
    rintro _ rfl
    split <;> first | exact w | (split <;> (try rw [translated_rng]) <;> (try rw [translated_rng]) <;> exact w)
  split
  · split
    · refine d _ _ ((State.setJob_rng _ _).trans (timedOut_rng _ _ _ _)) (h _ _ rfl rfl ?_)
      rw [takeUnits_rng, State.setJob_rng]
      exact e _ rfl
    · refine d _ _ (timedOut_rng _ _ _ _) (h _ _ rfl rfl ?_)
      rw [takeUnits_rng, State.setJob_rng]
      exact e _ rfl
  · refine d _ _ (timedOut_rng _ _ _ _) (h _ _ rfl rfl ?_)
    rw [takeUnits_rng, State.setJob_rng]
    exact e _ rfl

/-! ### The jobs that draw in loops -/

theorem furtherDraws_room (p : BitVec 8) (k : Nat) (b : Bytes) (s : State) {m : Nat} (h : room s.rng p (m + k) = true) :
    room (furtherDraws p k b s).2.rng p m = true := by
  induction k generalizing b s with
  | zero => exact h
  | succ k ih => exact ih _ _ (draw_room _ h)

theorem iterationsOf_le {alg n : Nat} {ops : List Bytes} (h : iterationsOf alg ops = some n) : n ≤ 256 := by
  unfold iterationsOf at h; dsimp only at h
  split at h
  · cases h; assumption
  · cases h

/-- A lattice signature draws at most 256 times. -/
theorem latticeSignRun_room (f : LatticeSig) (s : State) (x : Job) (m : Nat) (h : room s.rng x.pitch (m + 256) = true) :
    room (latticeSignRun f s x).state.rng x.pitch m = true := by
  have first : room (if deterministic x.desc then (zeros 32, s) else draw s x.pitch (if f.mu then 32 else fndsaRnd)).2.rng
      x.pitch (m + 255) = true := by
    split
    · exact room_mono (by omega) h
    · exact draw_room _ h
  unfold latticeSignRun; dsimp only
  split
  · exact room_mono (by omega) h
  · generalize (if deterministic x.desc then (zeros 32, s) else draw s x.pitch (if f.mu then 32 else fndsaRnd)) = a at first ⊢
    obtain ⟨b, t⟩ := a
    dsimp only at first ⊢
    generalize hn : iterationsOf _ _ = n
    have last : room (lastRnd f x.pitch n b t).2.rng x.pitch m = true := by
      unfold lastRnd
      split
      · exact room_mono (by omega) first
      · refine furtherDraws_room _ _ _ _ (room_mono ?_ first)
        cases n with
        | none => simp
        | some n => have := iterationsOf_le hn; simp only [Option.getD_some]; omega
    split <;> exact last

theorem mceAttempts_room (k n : Nat) (s : State) (x : Job) (m : Nat) (h : room s.rng x.pitch (m + k) = true) :
    room (mceAttempts k n s x).2.rng x.pitch m = true := by
  induction k generalizing n s with
  | zero => exact h
  | succ k ih =>
    have a : room (codeRandom s x 32).2.rng x.pitch (m + k) = true := by
      unfold codeRandom
      split
      · exact draw_room _ h
      · exact room_mono (by omega) h
    unfold mceAttempts; dsimp only
    generalize Config.holds 7 _ _ = ok
    cases ok
    · exact ih _ _ a
    · exact room_mono (Nat.le_add_right m k) a

/-- A McEliece key generation draws at most 128 times. -/
theorem mceKeygenRun_room (s : State) (x : Job) (m : Nat) (h : room s.rng x.pitch (m + 128) = true) :
    room (mceKeygenRun s x).state.rng x.pitch m = true := by
  have a := mceAttempts_room 128 1 s x m h
  unfold mceKeygenRun; dsimp only
  split <;> next e => rw [e] at a; exact a

theorem drawCandidate_room (len : Nat) (x : Job) (k : Nat) (s : State) (m : Nat) (h : room s.rng x.pitch (m + k) = true) :
    room (drawCandidate len x k s).2.rng x.pitch m = true := by
  induction k generalizing s with
  | zero => exact h
  | succ k ih =>
    have a := draw_room len h
    unfold drawCandidate; dsimp only
    split
    · exact room_mono (Nat.le_add_right m k) a
    · exact ih _ a

theorem primeTries_room (ok : Nat → Bool) (x : Job) (k n : Nat) (s : State) (m : Nat) (h : room s.rng x.pitch (m + 256 * k) = true) :
    room (primeTries ok x k n s).2.rng x.pitch m = true := by
  induction k generalizing n s with
  | zero => exact h
  | succ k ih =>
    have a := drawCandidate_room (rsaK x.desc / 2) x 256 s (m + 256 * k) (by rw [Nat.add_assoc]; exact h)
    unfold primeTries; dsimp only
    split
    · exact room_mono (by omega) a
    · exact ih _ _ a

/-- A checked run whose own state is not dry is not dry, whether its checks hold or not. -/
theorem checkedRun_notDry {s : State} {p : BitVec 8} (x : Job) (inv ver : Bool) (r : Ran) (h : drawnDry s p = false)
    (g : drawnDry r.state p = false) : drawnDry (checkedRun s x inv ver r).state p = false := by
  rcases checkedRun_dry s x inv ver r with e | e
  · unfold drawnDry State.drbg at *; rw [e.drbgs]; exact h
  · rw [e]; exact g

/-- An RSA key generation draws at most 256 times for each of its tries. -/
theorem rsaKeygenRun_notDry (s : State) (x : Job) (m : Nat)
    (h : room s.rng x.pitch (m + 2560 * (x.desc.paramSet.toNat / 2)) = true) :
    drawnDry (rsaKeygenRun s x).state x.pitch = false := by
  generalize hh : x.desc.paramSet.toNat / 2 = half at h
  have a := fun ok => primeTries_room ok x (5 * half) 1 s (m + 1280 * half) (by
    rw [show m + 1280 * half + 256 * (5 * half) = m + 2560 * half by omega]; exact h)
  unfold rsaKeygenRun; dsimp only; rw [hh]
  split
  · next e => have b := a (rsaPrimeOk half (rsaE x.desc)); rw [e] at b; exact drawnDry_room b
  · next n p t e =>
    have b := a (rsaPrimeOk half (rsaE x.desc)); rw [e] at b
    have c := primeTries_room (fun q => rsaPrimeOk half (rsaE x.desc) q && rsaPairOk half (rsaE x.desc) p q) x (5 * half) 1 t m
      (room_mono (by omega) b)
    split <;> next e' => rw [e'] at c; first | exact drawnDry_room c | exact checkedRun_notDry _ _ _ _ (drawnDry_room c) (drawnDry_room c)

theorem nextNonce_room (c : Curve) (s : State) (x : Job) (g : NonceGen) (m : Nat) (h : room s.rng x.pitch (m + 1) = true) :
    room (nextNonce c s x g).2.2.rng x.pitch m = true := by
  unfold nextNonce
  split
  · exact room_mono (by omega) h
  · exact draw_room _ h

theorem nonceTries_room (c : Curve) (d e : Nat) (x : Job) (k n : Nat) (g : NonceGen) (s : State) (m : Nat)
    (h : room s.rng x.pitch (m + k) = true) : room (nonceTries c d e x k n g s).2.rng x.pitch m = true := by
  induction k generalizing n g s with
  | zero => exact h
  | succ k ih =>
    have a := nextNonce_room c s x g (m + k) h
    unfold nonceTries; dsimp only
    split
    · exact room_mono (by omega) a
    · exact ih _ _ _ a

/-- An ECDSA signature draws at most 16 times. -/
theorem ecdsaSignRun_notDry (s : State) (x : Job) (m : Nat) (h : room s.rng x.pitch (m + 16) = true) :
    drawnDry (ecdsaSignRun s x).state x.pitch = false := by
  unfold ecdsaSignRun; dsimp only
  split
  · exact drawnDry_room h
  · next k _ =>
    have a := nonceTries_room (curveOf s x) (beNat (k.value.take (curveOf s x).orderLen)) (digestInt (curveOf s x) (jobInput s x)) x 16 1
      (nonceSeed (phOf x.desc) (curveOf s x).orderLen (curveOf s x).orderBits (curveOf s x).order
        (beNat (k.value.take (curveOf s x).orderLen)) (jobInput s x)) s m h
    split <;> next e => rw [e] at a; first | exact drawnDry_room a | exact checkedRun_notDry _ _ _ _ (drawnDry_room a) (drawnDry_room a)

/-- An exchange with a peer draws nothing. -/
theorem exchangeRun_notDry (typ : Nat) (f : Nat → Bytes → Option Bad) (zeroBad : Bool) (s : State) (x : Job) (m : Nat)
    (h : room s.rng x.pitch m = true) : drawnDry (exchangeRun typ f zeroBad s x).state x.pitch = false := by
  have a := drawnDry_room h
  unfold exchangeRun; dsimp only; repeat' split
  · exact a
  · exact a
  · exact checkedRun_notDry _ _ _ _ a a
  · refine checkedRun_notDry _ _ _ _ a ?_
    unfold releaseSecret; split <;> exact a

theorem pickFrom_rng (n : Nat) (l : List Nat) (s : State) : (pickFrom n l s).2.rng = s.rng := by
  induction n generalizing l s with
  | zero => rfl
  | succ n ih =>
    unfold pickFrom; dsimp only; split
    · rfl
    · exact ih _ _

theorem takeContexts_rng (n : Nat) (s : State) : (takeContexts n s).2.rng = s.rng := by
  unfold takeContexts
  generalize freeContexts s = l
  exact pickFrom_rng n l s

/-- A flow's creation draws at most once. -/
theorem createRun_room (s : State) (x : Job) (m : Nat) (h : room s.rng x.pitch (m + 1) = true) :
    room (createRun s x).state.rng x.pitch m = true := by
  have a : room (if recordNeedsIv s x then draw s x.pitch 4 else ([], s)).2.rng x.pitch m = true := by
    split
    · exact draw_room _ h
    · exact room_mono (by omega) h
  unfold createRun placeFlow; dsimp only
  rw [State.setJob_rng, State.setCtx_rng, takeContexts_rng]
  exact a

end Sys2Proof.Machine
end

