-- ==== Sys2Proof/Laws/Keeps.lean ====
section
/-! SUPPORT. What every function of the model keeps of a state, said once as a relation that composes: the queue of commands, the
fused identity, the burned fuses, the written entries of the Evidence Log, the minimum SVNs, the canonical form of the memories, the shape. -/
namespace Sys2Proof.Machine

-- One theorem after another: a thread for each that waits would fill the memory.
set_option Elab.async false

/-- Every bit that is set in one field of fuses is set in another. -/
def Burned (a b : List (BitVec 16)) : Prop := ∀ k i, (fuseWord a k).getLsbD i = true → (fuseWord b k).getLsbD i = true

theorem Burned.refl (a : List (BitVec 16)) : Burned a a := fun _ _ h => h

theorem Burned.trans {a b c : List (BitVec 16)} (h : Burned a b) (g : Burned b c) : Burned a c := fun k i x => g k i (h k i x)

/-- What of a state the relation looks at. -/
structure View where
  pending  : List Instr
  uid      : BitVec 64
  order    : BitVec 4
  evidence : List EvSlot
  fuses    : List (BitVec 16)
  plan     : BitVec 16
  patch    : BitVec 16
  fw       : BitVec 16
  host     : List Host.Cell
  crates   : List Host.Cell
  links    : List Link
  ports    : List Port
  dormant  : Option DormantRecord

/-- The view of a state. -/
def view (s : State) : View :=
  { pending := s.pending, uid := s.dev.uid, order := s.dev.orderCode, evidence := writtenEvidence s, fuses := s.life.fuses,
    plan := svnMinOf s.nv.planSvnMin, patch := svnMinOf s.nv.patchSvnMin, fw := svnMinOf s.nv.fwSvnMin, host := s.host,
    crates := s.crates.data, links := s.links.link, ports := s.stream.ports, dormant := s.nv.dormant }

/-- One view keeps what another has. -/
structure Kept (a b : View) : Prop where
  pending  : b.pending = a.pending
  uid      : b.uid = a.uid
  order    : b.order = a.order
  evidence : a.evidence <+: b.evidence
  burned   : Burned a.fuses b.fuses
  fuses    : b.fuses.length = a.fuses.length
  plan     : a.plan.toNat ≤ b.plan.toNat
  patch    : a.patch.toNat ≤ b.patch.toNat
  fw       : a.fw.toNat ≤ b.fw.toNat
  host     : Tab.wf 0#8 a.host = true → Tab.wf 0#8 b.host = true
  crates   : Tab.wf 0#8 a.crates = true → Tab.wf 0#8 b.crates = true
  links    : a.links.length = 3 → b.links.length = 3
  ports    : a.ports.length = 2 ∧ a.dormant.all (fun d => d.stream.ports.length == 2) = true →
             b.ports.length = 2 ∧ b.dormant.all (fun d => d.stream.ports.length == 2) = true

/-- A state keeps what another has. -/
structure Keeps (s t : State) : Prop where
  kept : Kept (view s) (view t)

theorem Kept.refl (a : View) : Kept a a :=
  ⟨rfl, rfl, rfl, List.prefix_refl _, Burned.refl _, rfl, Nat.le_refl _, Nat.le_refl _, Nat.le_refl _, id, id, id, id⟩

theorem Kept.trans {a b c : View} (h : Kept a b) (g : Kept b c) : Kept a c :=
  ⟨g.pending.trans h.pending, g.uid.trans h.uid, g.order.trans h.order, h.evidence.trans g.evidence, h.burned.trans g.burned,
   g.fuses.trans h.fuses, Nat.le_trans h.plan g.plan, Nat.le_trans h.patch g.patch, Nat.le_trans h.fw g.fw, g.host ∘ h.host, g.crates ∘ h.crates,
   g.links ∘ h.links, g.ports ∘ h.ports⟩

theorem Keeps.refl (s : State) : Keeps s s := ⟨Kept.refl _⟩

theorem Keeps.trans {s t u : State} (h : Keeps s t) (g : Keeps t u) : Keeps s u := ⟨Kept.trans h.kept g.kept⟩

/-- A record update of nothing that the relation looks at. The first premise finds the state that was updated. -/
theorem Keeps.upd {s s1 t : State} (_ : t.genuine = s1.genuine) (e : view t = view s1) (h : Keeps s s1) : Keeps s t := by
  exact ⟨e ▸ h.kept⟩

/-- The same, where the signatures are updated. -/
theorem Keeps.updClock {s s1 t : State} (_ : t.clock = s1.clock) (e : view t = view s1) (h : Keeps s s1) : Keeps s t := by
  exact ⟨e ▸ h.kept⟩

/-- What the relation looks at in a state written out field by field. -/
theorem keeps_mk {s : State}
    {x0 : List Instr} {x1 : Dev} {x2 : Pcie} {x3 : Bus} {x4 : PlanBlock} {x5 : Tab Tile} {x6 : Tab Engine} {x7 :
    BitVec 3} {x8 : BitVec 3} {x9 : Tab Queue} {x10 : Arb} {x11 : List Job} {x12 : Crates} {x13 : Tab Channel} {x14 :
    Tab Pitch} {x15 : Tab (Option Context)} {x16 : Vault} {x17 : Seq} {x18 : Rng} {x19 : Life} {x20 : Alarm} {x21 :
    Battery} {x22 : Ledger} {x23 : Nv} {x24 : Pace} {x25 : Boot} {x26 : Links} {x27 : Stream} {x28 : Cards} {x29 :
    List Host.Cell} {x30 : List Out} {x31 : List Genuine} {x32 : Nat} {x33 : Clock} :
    Keeps s ⟨x0, x1, x2, x3, x4, x5, x6, x7, x8, x9, x10, x11, x12, x13, x14, x15, x16, x17, x18, x19, x20, x21, x22,
    x23, x24, x25, x26, x27, x28, x29, x30, x31, x32, x33⟩ ↔
    Kept (view s) ⟨x0, x1.uid, x1.orderCode, writtenOf x23.evidence x20.evFresh x20.evAt x33.us, x19.fuses, svnMinOf x23.planSvnMin, svnMinOf x23.patchSvnMin,
      svnMinOf x23.fwSvnMin, x29, x12.data, x26.link, x27.ports, x23.dormant⟩ := ⟨fun h => h.kept, fun h => ⟨h⟩⟩

/-- An update of nothing that the relation looks at. -/
theorem Keeps.fold {s s1 : State} (h : Keeps s s1) :
    Kept (view s) ⟨s1.pending, s1.dev.uid, s1.dev.orderCode, writtenOf s1.nv.evidence s1.alarm.evFresh s1.alarm.evAt s1.clock.us, s1.life.fuses, svnMinOf s1.nv.planSvnMin,
      svnMinOf s1.nv.patchSvnMin, svnMinOf s1.nv.fwSvnMin, s1.host, s1.crates.data, s1.links.link, s1.stream.ports, s1.nv.dormant⟩ := h.kept

/-- What is written stands in front of the log. -/
theorem writtenOf_prefix (ev : List EvSlot) (f a u : Nat) : writtenOf ev f a u <+: ev := by
  unfold writtenOf; split
  · exact List.prefix_refl _
  · exact List.take_prefix _ _

/-- More is written as time passes. -/
theorem writtenOf_mono (ev : List EvSlot) (f a : Nat) {u v : Nat} (h : u ≤ v) : writtenOf ev f a u <+: writtenOf ev f a v := by
  unfold writtenOf
  split
  · next c => rw [if_pos (c.imp id (fun c => Nat.lt_of_lt_of_le c h))]; all_goals exact List.prefix_refl _
  · split
    · exact List.take_prefix _ _
    · exact List.prefix_refl _

theorem Keeps.ite {s a b : State} {c : Prop} [Decidable c] (h : Keeps s a) (g : Keeps s b) : Keeps s (if c then a else b) := by
  split <;> assumption

theorem Keeps.iteFst {α : Type} {s : State} {a b : State × α} {c : Prop} [Decidable c] (h : Keeps s a.1) (g : Keeps s b.1) :
    Keeps s (if c then a else b).1 := by
  split <;> assumption

theorem Keeps.iteSnd {α : Type} {s : State} {a b : α × State} {c : Prop} [Decidable c] (h : Keeps s a.2) (g : Keeps s b.2) :
    Keeps s (if c then a else b).2 := by
  split <;> assumption

/-- An update of the links that keeps their number. -/
theorem Keeps.links {s s1 t : State} (_ : t.genuine = s1.genuine) (e : view t = { view s1 with links := t.links.link })
    (n : t.links.link.length = s1.links.link.length) (h : Keeps s s1) : Keeps s t := by
  refine Keeps.trans h ?_
  constructor; rw [e]
  exact ⟨rfl, rfl, rfl, List.prefix_refl _, Burned.refl _, rfl, Nat.le_refl _, Nat.le_refl _, Nat.le_refl _, id, id,
    fun h => n.trans h, id⟩

/-- An update of the ports that keeps their number. -/
theorem Keeps.ports {s s1 t : State} (_ : t.genuine = s1.genuine) (e : view t = { view s1 with ports := t.stream.ports })
    (n : t.stream.ports.length = s1.stream.ports.length) (h : Keeps s s1) : Keeps s t := by
  refine Keeps.trans h ?_
  constructor; rw [e]
  exact ⟨rfl, rfl, rfl, List.prefix_refl _, Burned.refl _, rfl, Nat.le_refl _, Nat.le_refl _, Nat.le_refl _, id, id, id,
    fun h => ⟨n.trans h.1, h.2⟩⟩

/-- An update of host memory that keeps its form. -/
theorem Keeps.host {s s1 t : State} (_ : t.genuine = s1.genuine) (e : view t = { view s1 with host := t.host })
    (n : Tab.wf 0#8 s1.host = true → Tab.wf 0#8 t.host = true) (h : Keeps s s1) : Keeps s t := by
  refine Keeps.trans h ?_
  constructor; rw [e]
  exact ⟨rfl, rfl, rfl, List.prefix_refl _, Burned.refl _, rfl, Nat.le_refl _, Nat.le_refl _, Nat.le_refl _, n, id, id, id⟩

/-- An update of the crates that keeps their form. -/
theorem Keeps.crates {s s1 t : State} (_ : t.genuine = s1.genuine) (e : view t = { view s1 with crates := t.crates.data })
    (n : Tab.wf 0#8 s1.crates.data = true → Tab.wf 0#8 t.crates.data = true) (h : Keeps s s1) : Keeps s t := by
  refine Keeps.trans h ?_
  constructor; rw [e]
  exact ⟨rfl, rfl, rfl, List.prefix_refl _, Burned.refl _, rfl, Nat.le_refl _, Nat.le_refl _, Nat.le_refl _, id, n, id, id⟩

/-- A change of the Evidence Log that leaves what is written. -/
theorem Keeps.evidence {s s1 t : State} (_ : t.genuine = s1.genuine) (e : view t = { view s1 with evidence := writtenEvidence t })
    (n : writtenEvidence s1 <+: writtenEvidence t) (h : Keeps s s1) : Keeps s t := by
  refine Keeps.trans h ?_
  constructor; rw [e]
  exact ⟨rfl, rfl, rfl, n, Burned.refl _, rfl, Nat.le_refl _, Nat.le_refl _, Nat.le_refl _, id, id, id, id⟩

theorem foldl_keeps {α : Type} {f : State → α → State} {u s : State} {l : List α} (h : ∀ s a, Keeps s (f s a)) (hu : Keeps u s) :
    Keeps u (l.foldl f s) := by
  induction l generalizing s with
  | nil => exact hu
  | cons a l ih => exact ih (Keeps.trans hu (h s a))

end Sys2Proof.Machine
end

