-- ==== Sys2Proof/Laws/KeepsOps.lean ====
section
/-! SUPPORT. What the functions of Machine/Ops.lean keep (Laws/Keeps.lean). -/
namespace Sys2Proof.Machine

-- One theorem after another: a thread for each that waits would fill the memory.
set_option Elab.async false

theorem State.setQ_keeps {s0 : State} (s : State) (n : BitVec 12) (x : Queue) (hu : Keeps s0 s) :
    Keeps s0 (State.setQ s n x) := by
  unfold State.setQ
  (try dsimp only)
  repeat first
    | (simp only [keeps_mk]; with_reducible refine Keeps.fold ?_)
    | with_reducible assumption
    | with_reducible exact Keeps.refl _
    | with_reducible apply foldl_keeps
    | with_reducible apply Keeps.ite
    | with_reducible apply Keeps.iteFst
    | with_reducible apply Keeps.iteSnd
    | exact @rfl Nat _
    | exact List.length_set ..
    | intro _ _
    | split
    | dsimp only

theorem State.setPitch_keeps {s0 : State} (s : State) (p : BitVec 8) (x : Pitch) (hu : Keeps s0 s) :
    Keeps s0 (State.setPitch s p x) := by
  unfold State.setPitch
  (try dsimp only)
  repeat first
    | (simp only [keeps_mk]; with_reducible refine Keeps.fold ?_)
    | with_reducible assumption
    | with_reducible exact Keeps.refl _
    | with_reducible apply foldl_keeps
    | with_reducible apply Keeps.ite
    | with_reducible apply Keeps.iteFst
    | with_reducible apply Keeps.iteSnd
    | exact @rfl Nat _
    | exact List.length_set ..
    | intro _ _
    | split
    | dsimp only

theorem State.setChan_keeps {s0 : State} (s : State) (c : BitVec 6) (x : Channel) (hu : Keeps s0 s) :
    Keeps s0 (State.setChan s c x) := by
  unfold State.setChan
  (try dsimp only)
  repeat first
    | (simp only [keeps_mk]; with_reducible refine Keeps.fold ?_)
    | with_reducible assumption
    | with_reducible exact Keeps.refl _
    | with_reducible apply foldl_keeps
    | with_reducible apply Keeps.ite
    | with_reducible apply Keeps.iteFst
    | with_reducible apply Keeps.iteSnd
    | exact @rfl Nat _
    | exact List.length_set ..
    | intro _ _
    | split
    | dsimp only

theorem State.setCtx_keeps {s0 : State} (s : State) (i : BitVec 14) (x : Option Context) (hu : Keeps s0 s) :
    Keeps s0 (State.setCtx s i x) := by
  unfold State.setCtx
  (try dsimp only)
  repeat first
    | (simp only [keeps_mk]; with_reducible refine Keeps.fold ?_)
    | with_reducible assumption
    | with_reducible exact Keeps.refl _
    | with_reducible apply foldl_keeps
    | with_reducible apply Keeps.ite
    | with_reducible apply Keeps.iteFst
    | with_reducible apply Keeps.iteSnd
    | exact @rfl Nat _
    | exact List.length_set ..
    | intro _ _
    | split
    | dsimp only

theorem State.setTile_keeps {s0 : State} (s : State) (t : BitVec 6) (x : Tile) (hu : Keeps s0 s) :
    Keeps s0 (State.setTile s t x) := by
  unfold State.setTile
  (try dsimp only)
  repeat first
    | (simp only [keeps_mk]; with_reducible refine Keeps.fold ?_)
    | with_reducible assumption
    | with_reducible exact Keeps.refl _
    | with_reducible apply foldl_keeps
    | with_reducible apply Keeps.ite
    | with_reducible apply Keeps.iteFst
    | with_reducible apply Keeps.iteSnd
    | exact @rfl Nat _
    | exact List.length_set ..
    | intro _ _
    | split
    | dsimp only

theorem State.setEngine_keeps {s0 : State} (s : State) (e : BitVec 3) (x : Engine) (hu : Keeps s0 s) :
    Keeps s0 (State.setEngine s e x) := by
  unfold State.setEngine
  (try dsimp only)
  repeat first
    | (simp only [keeps_mk]; with_reducible refine Keeps.fold ?_)
    | with_reducible assumption
    | with_reducible exact Keeps.refl _
    | with_reducible apply foldl_keeps
    | with_reducible apply Keeps.ite
    | with_reducible apply Keeps.iteFst
    | with_reducible apply Keeps.iteSnd
    | exact @rfl Nat _
    | exact List.length_set ..
    | intro _ _
    | split
    | dsimp only

theorem State.setSlot_keeps {s0 : State} (s : State) (n : BitVec 13) (x : Slot) (hu : Keeps s0 s) :
    Keeps s0 (State.setSlot s n x) := by
  unfold State.setSlot
  (try dsimp only)
  repeat first
    | (simp only [keeps_mk]; with_reducible refine Keeps.fold ?_)
    | with_reducible assumption
    | with_reducible exact Keeps.refl _
    | with_reducible apply foldl_keeps
    | with_reducible apply Keeps.ite
    | with_reducible apply Keeps.iteFst
    | with_reducible apply Keeps.iteSnd
    | exact @rfl Nat _
    | exact List.length_set ..
    | intro _ _
    | split
    | dsimp only

theorem State.setCrate_keeps {s0 : State} (s : State) (n : Nat) (x : Option Crate) (hu : Keeps s0 s) :
    Keeps s0 (State.setCrate s n x) := by
  unfold State.setCrate
  (try dsimp only)
  repeat first
    | (simp only [keeps_mk]; with_reducible refine Keeps.fold ?_)
    | with_reducible assumption
    | with_reducible exact Keeps.refl _
    | with_reducible apply foldl_keeps
    | with_reducible apply Keeps.ite
    | with_reducible apply Keeps.iteFst
    | with_reducible apply Keeps.iteSnd
    | exact @rfl Nat _
    | exact List.length_set ..
    | intro _ _
    | split
    | dsimp only

theorem State.setJob_keeps {s0 : State} (s : State) (x : Job) (hu : Keeps s0 s) :
    Keeps s0 (State.setJob s x) := by
  unfold State.setJob
  (try dsimp only)
  repeat first
    | (simp only [keeps_mk]; with_reducible refine Keeps.fold ?_)
    | with_reducible assumption
    | with_reducible exact Keeps.refl _
    | with_reducible apply foldl_keeps
    | with_reducible apply Keeps.ite
    | with_reducible apply Keeps.iteFst
    | with_reducible apply Keeps.iteSnd
    | exact @rfl Nat _
    | exact List.length_set ..
    | intro _ _
    | split
    | dsimp only

theorem State.dropJob_keeps {s0 : State} (s : State) (j : JobId) (hu : Keeps s0 s) :
    Keeps s0 (State.dropJob s j) := by
  unfold State.dropJob
  (try dsimp only)
  repeat first
    | (simp only [keeps_mk]; with_reducible refine Keeps.fold ?_)
    | with_reducible assumption
    | with_reducible exact Keeps.refl _
    | with_reducible apply foldl_keeps
    | with_reducible apply Keeps.ite
    | with_reducible apply Keeps.iteFst
    | with_reducible apply Keeps.iteSnd
    | exact @rfl Nat _
    | exact List.length_set ..
    | intro _ _
    | split
    | dsimp only

theorem drawFree_keeps {s0 : State} (s : State) (hu : Keeps s0 s) :
    Keeps s0 (drawFree s).2 := by
  unfold drawFree
  (try dsimp only)
  repeat first
    | (simp only [keeps_mk]; with_reducible refine Keeps.fold ?_)
    | with_reducible assumption
    | with_reducible exact Keeps.refl _
    | with_reducible apply foldl_keeps
    | with_reducible apply Keeps.ite
    | with_reducible apply Keeps.iteFst
    | with_reducible apply Keeps.iteSnd
    | exact @rfl Nat _
    | exact List.length_set ..
    | intro _ _
    | split
    | dsimp only

theorem setPins_keeps {s0 : State} (ps : List (Pin × Bool)) (s : State) (hu : Keeps s0 s) :
    Keeps s0 (setPins ps s) := by
  unfold setPins
  (try dsimp only)
  repeat first
    | (simp only [keeps_mk]; with_reducible refine Keeps.fold ?_)
    | with_reducible assumption
    | with_reducible exact Keeps.refl _
    | with_reducible apply foldl_keeps
    | with_reducible apply Keeps.ite
    | with_reducible apply Keeps.iteFst
    | with_reducible apply Keeps.iteSnd
    | exact @rfl Nat _
    | exact List.length_set ..
    | intro _ _
    | split
    | dsimp only

theorem writeFile_keeps {s0 : State} (f : Battery → Battery) (s : State) (hu : Keeps s0 s) :
    Keeps s0 (writeFile f s) := by
  unfold writeFile
  (try dsimp only)
  repeat first
    | (simp only [keeps_mk]; with_reducible refine Keeps.fold ?_)
    | with_reducible assumption
    | with_reducible exact Keeps.refl _
    | with_reducible apply foldl_keeps
    | with_reducible apply Keeps.ite
    | with_reducible apply Keeps.iteFst
    | with_reducible apply Keeps.iteSnd
    | exact @rfl Nat _
    | exact List.length_set ..
    | intro _ _
    | split
    | dsimp only

theorem drawFrees_keeps {s0 : State} (k : Nat) (s : State) (hu : Keeps s0 s) :
    Keeps s0 (drawFrees k s).2 := by
  unfold drawFrees
  (try dsimp only)
  repeat first
    | (simp only [keeps_mk]; with_reducible refine Keeps.fold ?_)
    | with_reducible assumption
    | with_reducible exact Keeps.refl _
    | with_reducible apply foldl_keeps
    | with_reducible apply Keeps.ite
    | with_reducible apply Keeps.iteFst
    | with_reducible apply Keeps.iteSnd
    | exact @rfl Nat _
    | exact List.length_set ..
    | intro _ _
    | split
    | dsimp only

theorem markPages_wf (host : List Host.Cell) (buf first n : Nat) (w : Tab.wf 0#8 host = true) :
    Tab.wf 0#8 (markPages host buf first n) = true := by
  induction n generalizing host first with
  | zero => exact w
  | succ n ih => exact ih _ _ (Tab.set_wf _ _ w)

theorem logWrite_own (s : State) (p : BitVec 8) (a k : Nat) : Keeps s (logWrite s p a k) := by
  have mp (b f n : Nat) : Keeps s { s with host := markPages s.host b f n } :=
    Keeps.host (s1 := s) rfl rfl (markPages_wf _ _ _ _) (Keeps.refl s)
  unfold logWrite
  simp only []
  split
  · exact Keeps.refl s
  · split
    · exact Keeps.trans (mp _ _ _) (State.setPitch_keeps _ _ _ (Keeps.refl _))
    · exact mp _ _ _

theorem logWrite_keeps {s0 : State} (s : State) (p : BitVec 8) (a : Nat) (k : Nat) (hu : Keeps s0 s) :
    Keeps s0 (logWrite s p a k) :=
  Keeps.trans hu (logWrite_own s p a k)

theorem translated_keeps {s0 : State} (p : BitVec 8) (a : Nat) (k : Nat) (s : State) (hu : Keeps s0 s) :
    Keeps s0 (translated p a k s) := by
  unfold translated
  (try dsimp only)
  repeat first
    | (simp only [keeps_mk]; with_reducible refine Keeps.fold ?_)
    | with_reducible assumption
    | with_reducible exact Keeps.refl _
    | with_reducible apply foldl_keeps
    | with_reducible apply Keeps.ite
    | with_reducible apply Keeps.iteFst
    | with_reducible apply Keeps.iteSnd
    | exact @rfl Nat _
    | exact List.length_set ..
    | intro _ _
    | split
    | dsimp only

theorem writeHost_own (s : State) (p : BitVec 8) (a : Nat) (bs : Bytes) : Keeps s (writeHost s p a bs) := by
  unfold writeHost
  refine Keeps.trans ?_ (translated_keeps _ _ _ _ (logWrite_own _ _ _ _))
  exact (Keeps.host (s1 := s) rfl rfl (Tab.write_wf _ _) (Keeps.refl s))

theorem writeHost_keeps {s0 : State} (s : State) (p : BitVec 8) (a : Nat) (bs : Bytes) (hu : Keeps s0 s) :
    Keeps s0 (writeHost s p a bs) :=
  Keeps.trans hu (writeHost_own s p a bs)

theorem msixSend_keeps {s0 : State} (v : BitVec 11) (s : State) (hu : Keeps s0 s) :
    Keeps s0 (msixSend v s) := by
  unfold msixSend
  (try dsimp only)
  repeat first
    | (simp only [keeps_mk]; with_reducible refine Keeps.fold ?_)
    | with_reducible assumption
    | with_reducible exact Keeps.refl _
    | with_reducible apply foldl_keeps
    | with_reducible apply Keeps.ite
    | with_reducible apply Keeps.iteFst
    | with_reducible apply Keeps.iteSnd
    | exact @rfl Nat _
    | exact List.length_set ..
    | intro _ _
    | split
    | dsimp only

theorem signal_keeps {s0 : State} (v : BitVec 11) (s : State) (hu : Keeps s0 s) :
    Keeps s0 (signal v s) := by
  unfold signal
  (try dsimp only)
  repeat first
    | (simp only [keeps_mk]; with_reducible refine Keeps.fold ?_)
    | with_reducible assumption
    | with_reducible exact Keeps.refl _
    | with_reducible apply msixSend_keeps
    | with_reducible apply foldl_keeps
    | with_reducible apply Keeps.ite
    | with_reducible apply Keeps.iteFst
    | with_reducible apply Keeps.iteSnd
    | exact @rfl Nat _
    | exact List.length_set ..
    | intro _ _
    | split
    | dsimp only

theorem note_keeps {s0 : State} (ev : BitVec 16) (pitch : Option (BitVec 8)) (detail : Bytes) (s : State) (hu : Keeps s0 s) :
    Keeps s0 (note ev pitch detail s) := by
  unfold note
  (try dsimp only)
  repeat first
    | (simp only [keeps_mk]; with_reducible refine Keeps.fold ?_)
    | with_reducible assumption
    | with_reducible exact Keeps.refl _
    | with_reducible apply foldl_keeps
    | with_reducible apply Keeps.ite
    | with_reducible apply Keeps.iteFst
    | with_reducible apply Keeps.iteSnd
    | exact @rfl Nat _
    | exact List.length_set ..
    | intro _ _
    | split
    | dsimp only

theorem freshEntry_keeps {s0 : State} (s : State) (e : EvSlot) (hu : Keeps s0 s) :
    Keeps s0 { freshEntry s with nv := { (freshEntry s).nv with evidence := (freshEntry s).nv.evidence ++ [e] } } := by
  refine Keeps.evidence (s1 := s) ?_ ?_ ?_ hu
  · unfold freshEntry; dsimp only; split <;> rfl
  · unfold freshEntry view; dsimp only; split <;> rfl
  · unfold freshEntry writtenEvidence; dsimp only
    split
    · next c =>
      dsimp only
      rw [writtenOf, if_neg (by omega), writtenOf, if_neg (by omega)]
      simp only [List.length_append, List.length_cons, List.length_nil]
      rw [show s.nv.evidence.length + (0 + 1) - (s.alarm.evFresh + 1) = s.nv.evidence.length - s.alarm.evFresh by omega,
        List.take_append_of_le_length (by omega)]
      all_goals exact List.prefix_refl _
    · next c =>
      refine (writtenOf_prefix _ _ _ _).trans ?_
      dsimp only
      rw [writtenOf, if_neg (by omega)]
      simp only [List.length_append, List.length_cons, List.length_nil]
      rw [show s.nv.evidence.length + (0 + 1) - 1 = s.nv.evidence.length by omega, List.take_append_of_le_length (Nat.le_refl _),
        List.take_length]
      all_goals exact List.prefix_refl _

theorem appendEvidence_own (e : Evidence) (s : State) : Keeps s (appendEvidence e s) := by
  unfold appendEvidence
  dsimp only
  refine Keeps.ite (Keeps.upd (s1 := s) rfl rfl (Keeps.refl s)) (Keeps.ite ?_ ?_)
  · exact Keeps.upd (s1 := { freshEntry _ with nv := { (freshEntry _).nv with evidence := (freshEntry _).nv.evidence ++ [_] } }) rfl rfl
      (freshEntry_keeps _ _ (freshEntry_keeps _ _ (Keeps.refl s)))
  · exact freshEntry_keeps _ _ (Keeps.refl s)

theorem appendEvidence_keeps {s0 : State} (e : Evidence) (s : State) (hu : Keeps s0 s) :
    Keeps s0 (appendEvidence e s) :=
  Keeps.trans hu (appendEvidence_own e s)

theorem bufferEntry_keeps {s0 : State} (e : Evidence) (s : State) (hu : Keeps s0 s) :
    Keeps s0 (bufferEntry e s) := by
  unfold bufferEntry
  (try dsimp only)
  repeat first
    | (simp only [keeps_mk]; with_reducible refine Keeps.fold ?_)
    | with_reducible assumption
    | with_reducible exact Keeps.refl _
    | with_reducible apply foldl_keeps
    | with_reducible apply Keeps.ite
    | with_reducible apply Keeps.iteFst
    | with_reducible apply Keeps.iteSnd
    | exact @rfl Nat _
    | exact List.length_set ..
    | intro _ _
    | split
    | dsimp only

theorem logEntry_keeps {s0 : State} (e : Evidence) (s : State) (hu : Keeps s0 s) :
    Keeps s0 (logEntry e s) := by
  unfold logEntry
  (try dsimp only)
  repeat first
    | (simp only [keeps_mk]; with_reducible refine Keeps.fold ?_)
    | with_reducible assumption
    | with_reducible exact Keeps.refl _
    | with_reducible apply bufferEntry_keeps
    | with_reducible apply appendEvidence_keeps
    | with_reducible apply foldl_keeps
    | with_reducible apply Keeps.ite
    | with_reducible apply Keeps.iteFst
    | with_reducible apply Keeps.iteSnd
    | exact @rfl Nat _
    | exact List.length_set ..
    | intro _ _
    | split
    | dsimp only

theorem drainEvidence_keeps {s0 : State} (s : State) (hu : Keeps s0 s) :
    Keeps s0 (drainEvidence s) := by
  unfold drainEvidence
  (try dsimp only)
  repeat first
    | (simp only [keeps_mk]; with_reducible refine Keeps.fold ?_)
    | with_reducible assumption
    | with_reducible exact Keeps.refl _
    | with_reducible apply appendEvidence_keeps
    | with_reducible apply foldl_keeps
    | with_reducible apply Keeps.ite
    | with_reducible apply Keeps.iteFst
    | with_reducible apply Keeps.iteSnd
    | exact @rfl Nat _
    | exact List.length_set ..
    | intro _ _
    | split
    | dsimp only

theorem evidence_keeps {s0 : State} (source : BitVec 16) (flags : BitVec 8) (detail : Bytes) (s : State) (hu : Keeps s0 s) :
    Keeps s0 (evidence source flags detail s) := by
  unfold evidence
  (try dsimp only)
  repeat first
    | (simp only [keeps_mk]; with_reducible refine Keeps.fold ?_)
    | with_reducible assumption
    | with_reducible exact Keeps.refl _
    | with_reducible apply logEntry_keeps
    | with_reducible apply foldl_keeps
    | with_reducible apply Keeps.ite
    | with_reducible apply Keeps.iteFst
    | with_reducible apply Keeps.iteSnd
    | exact @rfl Nat _
    | exact List.length_set ..
    | intro _ _
    | split
    | dsimp only

theorem cutEvidence_own (s : State) : Keeps s (cutEvidence s) := by
  unfold cutEvidence
  dsimp only
  split
  · exact Keeps.refl s
  · next c =>
    refine Keeps.trans (drawFree_keeps _ (drawFree_keeps _ (Keeps.refl s))) ?_
    refine Keeps.evidence (s1 := (drawFree (drawFree s).2).2) rfl rfl ?_ (Keeps.refl _)
    show writtenOf s.nv.evidence s.alarm.evFresh s.alarm.evAt s.clock.us <+: writtenOf _ 0 _ _
    rw [writtenOf, if_neg c, writtenOf, if_pos (Or.inl rfl)]
    refine List.IsPrefix.trans ?_ (List.prefix_append _ _)
    refine List.take_prefix_take_left ?_
    have : ∀ n : Nat, min (n % (s.alarm.evFresh + 1)) s.nv.evidence.length ≤ s.alarm.evFresh := fun n =>
      Nat.le_trans (Nat.min_le_left _ _) (Nat.lt_succ_iff.mp (Nat.mod_lt _ (Nat.succ_pos _)))
    exact Nat.sub_le_sub_left (this _) _

theorem cutEvidence_keeps {s0 : State} (s : State) (hu : Keeps s0 s) :
    Keeps s0 (cutEvidence s) :=
  Keeps.trans hu (cutEvidence_own s)

theorem readRail_keeps {s0 : State} (s : State) (m : Monitor) (hu : Keeps s0 s) :
    Keeps s0 (readRail s m) := by
  unfold readRail trackRail
  (try dsimp only)
  repeat first
    | (simp only [keeps_mk]; with_reducible refine Keeps.fold ?_)
    | with_reducible assumption
    | with_reducible exact Keeps.refl _
    | with_reducible apply drawFree_keeps
    | with_reducible apply foldl_keeps
    | with_reducible apply Keeps.ite
    | with_reducible apply Keeps.iteFst
    | with_reducible apply Keeps.iteSnd
    | exact @rfl Nat _
    | exact List.length_set ..
    | intro _ _
    | split
    | dsimp only

theorem readRails_keeps {s0 : State} (s : State) (hu : Keeps s0 s) :
    Keeps s0 (readRails s) := by
  unfold readRails
  (try dsimp only)
  repeat first
    | (simp only [keeps_mk]; with_reducible refine Keeps.fold ?_)
    | with_reducible assumption
    | with_reducible exact Keeps.refl _
    | with_reducible apply readRail_keeps
    | with_reducible apply foldl_keeps
    | with_reducible apply Keeps.ite
    | with_reducible apply Keeps.iteFst
    | with_reducible apply Keeps.iteSnd
    | exact @rfl Nat _
    | exact List.length_set ..
    | intro _ _
    | split
    | dsimp only

theorem State.setBank_keeps {s0 : State} (s : State) (k : BankKind) (b : Bool) (x : Bank) (hu : Keeps s0 s) :
    Keeps s0 (State.setBank s k b x) := by
  unfold State.setBank
  (try dsimp only)
  repeat first
    | (simp only [keeps_mk]; with_reducible refine Keeps.fold ?_)
    | with_reducible assumption
    | with_reducible exact Keeps.refl _
    | with_reducible apply foldl_keeps
    | with_reducible apply Keeps.ite
    | with_reducible apply Keeps.iteFst
    | with_reducible apply Keeps.iteSnd
    | exact @rfl Nat _
    | exact List.length_set ..
    | intro _ _
    | split
    | dsimp only

theorem markBank_keeps {s0 : State} (k : BankKind) (b : Bool) (m : BitVec 32) (s : State) (hu : Keeps s0 s) :
    Keeps s0 (markBank k b m s) := by
  unfold markBank
  (try dsimp only)
  repeat first
    | (simp only [keeps_mk]; with_reducible refine Keeps.fold ?_)
    | with_reducible assumption
    | with_reducible exact Keeps.refl _
    | with_reducible apply State.setBank_keeps
    | with_reducible apply foldl_keeps
    | with_reducible apply Keeps.ite
    | with_reducible apply Keeps.iteFst
    | with_reducible apply Keeps.iteSnd
    | exact @rfl Nat _
    | exact List.length_set ..
    | intro _ _
    | split
    | dsimp only

theorem maxSvn_toNat (x y : BitVec 16) : (maxSvn x y).toNat = max x.toNat y.toNat := by
  unfold maxSvn; split <;> omega

theorem svnMinOf_toNat (m : SvnMin) : (svnMinOf m).toNat = max (m.a.getD 0).toNat (m.b.getD 0).toNat := maxSvn_toNat _ _

theorem svnFirstA_true (m : SvnMin) (h : svnFirstA m = true) : (svnMinOf m).toNat = (m.b.getD 0).toNat := by
  have e := svnMinOf_toNat m
  unfold svnFirstA at h
  simp only [Bool.or_eq_true, bne_iff_ne, ne_eq, beq_iff_eq] at h
  rcases h with h | h
  · cases ha : m.a with
    | none => rw [ha] at e; simpa using e
    | some a =>
      rw [ha] at e h
      have n : a.toNat ≠ (svnMinOf m).toNat := fun c => h (congrArg some (BitVec.eq_of_toNat_eq c))
      simp only [Option.getD_some] at e
      omega
  · rw [h]; rfl

theorem svnFirstA_false (m : SvnMin) (h : svnFirstA m = false) : (svnMinOf m).toNat = (m.a.getD 0).toNat := by
  unfold svnFirstA at h
  simp only [Bool.or_eq_false_iff, bne_eq_false_iff_eq] at h
  rw [h.1]; rfl

theorem svnWritten_le (step : Nat) (v : BitVec 16) (m : SvnMin) :
    (svnMinOf m).toNat ≤ (svnMinOf (svnWritten step (maxSvn v (svnMinOf m)) m)).toNat := by
  have w := maxSvn_toNat v (svnMinOf m)
  cases f : svnFirstA m
  · have e := svnFirstA_false m f
    unfold svnWritten
    simp only [f]
    split <;> simp only [svnMinOf_toNat, Option.getD_some, Option.getD_none, if_false, Bool.false_eq_true] at * <;> omega
  · have e := svnFirstA_true m f
    unfold svnWritten
    simp only [f]
    split <;> simp only [svnMinOf_toNat, Option.getD_some, Option.getD_none, if_true] at * <;> omega

theorem State.writeSvn_own (s : State) (k : BankKind) (step : Nat) (v : BitVec 16) : Keeps s (s.writeSvn k step v) := by
  unfold State.writeSvn
  split <;> (simp only [keeps_mk]) <;>
    exact ⟨rfl, rfl, rfl, List.prefix_refl _, Burned.refl _, rfl, by first | exact svnWritten_le _ _ _ | exact Nat.le_refl _,
      by first | exact svnWritten_le _ _ _ | exact Nat.le_refl _, by first | exact svnWritten_le _ _ _ | exact Nat.le_refl _, id, id, id, id⟩

theorem State.writeSvn_keeps {s0 : State} (s : State) (k : BankKind) (step : Nat) (v : BitVec 16) (hu : Keeps s0 s) :
    Keeps s0 (State.writeSvn s k step v) :=
  Keeps.trans hu (State.writeSvn_own s k step v)

end Sys2Proof.Machine
end

