-- ==== Sys2Proof/Laws/KeepsCardOps.lean ====
section
/-! SUPPORT. What the functions of Machine/CardOps.lean keep (Laws/Keeps.lean). -/
namespace Sys2Proof.Machine

-- One theorem after another: a thread for each that waits would fill the memory.
set_option Elab.async false

theorem leaveTile_keeps {s0 : State} (s : State) (t : BitVec 6) (hu : Keeps s0 s) :
    Keeps s0 (leaveTile s t) := by
  unfold leaveTile
  (try dsimp only)
  repeat first
    | (simp only [keeps_mk]; with_reducible refine Keeps.fold ?_)
    | with_reducible assumption
    | with_reducible exact Keeps.refl _
    | with_reducible apply State.setTile_keeps
    | with_reducible apply foldl_keeps
    | with_reducible apply Keeps.ite
    | with_reducible apply Keeps.iteFst
    | with_reducible apply Keeps.iteSnd
    | exact @rfl Nat _
    | exact List.length_set ..
    | intro _ _
    | split
    | dsimp only

theorem leaveKeeper_keeps {s0 : State} (s : State) (hu : Keeps s0 s) :
    Keeps s0 (leaveKeeper s) := by
  unfold leaveKeeper
  (try dsimp only)
  repeat first
    | (simp only [keeps_mk]; with_reducible refine Keeps.fold ?_)
    | with_reducible assumption
    | with_reducible exact Keeps.refl _
    | with_reducible apply leaveTile_keeps
    | with_reducible apply foldl_keeps
    | with_reducible apply Keeps.ite
    | with_reducible apply Keeps.iteFst
    | with_reducible apply Keeps.iteSnd
    | exact @rfl Nat _
    | exact List.length_set ..
    | intro _ _
    | split
    | dsimp only

theorem deactivate_keeps {s0 : State} (s : State) (hu : Keeps s0 s) :
    Keeps s0 (deactivate s) := by
  unfold deactivate
  (try dsimp only)
  repeat first
    | (simp only [keeps_mk]; with_reducible refine Keeps.fold ?_)
    | with_reducible assumption
    | with_reducible exact Keeps.refl _
    | with_reducible apply leaveKeeper_keeps
    | with_reducible apply setPins_keeps
    | with_reducible apply foldl_keeps
    | with_reducible apply Keeps.ite
    | with_reducible apply Keeps.iteFst
    | with_reducible apply Keeps.iteSnd
    | exact @rfl Nat _
    | exact List.length_set ..
    | intro _ _
    | split
    | dsimp only

theorem arcBreak_keeps {s0 : State} (s : State) (hu : Keeps s0 s) :
    Keeps s0 (arcBreak s) := by
  unfold arcBreak
  (try dsimp only)
  repeat first
    | (simp only [keeps_mk]; with_reducible refine Keeps.fold ?_)
    | with_reducible assumption
    | with_reducible exact Keeps.refl _
    | with_reducible apply drawFree_keeps
    | with_reducible apply foldl_keeps
    | with_reducible apply Keeps.ite
    | with_reducible apply Keeps.iteFst
    | with_reducible apply Keeps.iteSnd
    | exact @rfl Nat _
    | exact List.length_set ..
    | intro _ _
    | split
    | dsimp only

theorem archiveDone_keeps {s0 : State} (s : State) (hu : Keeps s0 s) :
    Keeps s0 (archiveDone s) := by
  unfold archiveDone
  (try dsimp only)
  repeat first
    | (simp only [keeps_mk]; with_reducible refine Keeps.fold ?_)
    | with_reducible assumption
    | with_reducible exact Keeps.refl _
    | with_reducible apply foldl_keeps
    | with_reducible apply Keeps.ite
    | with_reducible apply Keeps.iteFst
    | with_reducible apply Keeps.iteSnd
    | exact @rfl Nat _
    | exact List.length_set ..
    | intro _ _
    | split
    | dsimp only

theorem endCardJob_keeps {s0 : State} (s : State) (j : JobId) (hu : Keeps s0 s) :
    Keeps s0 (endCardJob s j) := by
  unfold endCardJob
  (try dsimp only)
  repeat first
    | (simp only [keeps_mk]; with_reducible refine Keeps.fold ?_)
    | with_reducible assumption
    | with_reducible exact Keeps.refl _
    | with_reducible apply deactivate_keeps
    | with_reducible apply arcBreak_keeps
    | with_reducible apply foldl_keeps
    | with_reducible apply Keeps.ite
    | with_reducible apply Keeps.iteFst
    | with_reducible apply Keeps.iteSnd
    | exact @rfl Nat _
    | exact List.length_set ..
    | intro _ _
    | split
    | dsimp only

theorem endSession_keeps {s0 : State} (s : State) (hu : Keeps s0 s) :
    Keeps s0 (endSession s) := by
  unfold endSession
  (try dsimp only)
  repeat first
    | (simp only [keeps_mk]; with_reducible refine Keeps.fold ?_)
    | with_reducible assumption
    | with_reducible exact Keeps.refl _
    | with_reducible apply foldl_keeps
    | with_reducible apply Keeps.ite
    | with_reducible apply Keeps.iteFst
    | with_reducible apply Keeps.iteSnd
    | exact @rfl Nat _
    | exact List.length_set ..
    | intro _ _
    | split
    | dsimp only

theorem sessionOver_keeps {s0 : State} (s : State) (hu : Keeps s0 s) :
    Keeps s0 (sessionOver s) := by
  unfold sessionOver
  (try dsimp only)
  repeat first
    | (simp only [keeps_mk]; with_reducible refine Keeps.fold ?_)
    | with_reducible assumption
    | with_reducible exact Keeps.refl _
    | with_reducible apply endSession_keeps
    | with_reducible apply foldl_keeps
    | with_reducible apply Keeps.ite
    | with_reducible apply Keeps.iteFst
    | with_reducible apply Keeps.iteSnd
    | exact @rfl Nat _
    | exact List.length_set ..
    | intro _ _
    | split
    | dsimp only

end Sys2Proof.Machine
end

