-- ==== Sys2Proof/Laws/KeepsDrbg.lean ====
section
/-! SUPPORT. What the functions of Machine/Drbg.lean keep (Laws/Keeps.lean). -/
namespace Sys2Proof.Machine

-- One theorem after another: a thread for each that waits would fill the memory.
set_option Elab.async false

theorem State.setDrbg_keeps {s0 : State} (s : State) (p : BitVec 8) (d : Drbg) (hu : Keeps s0 s) :
    Keeps s0 (State.setDrbg s p d) := by
  unfold State.setDrbg
  (try dsimp only)
  repeat first
    | (simp only [keeps_mk]; with_reducible refine Keeps.fold ?_)
    | with_reducible assumption
    | with_reducible exact Keeps.refl _
    | with_reducible apply foldl_keeps
    | with_reducible apply Keeps.ite
    | with_reducible apply Keeps.iteFst
    | with_reducible apply Keeps.iteSnd
    | exact @rfl Nat _
    | exact List.length_set ..
    | intro _ _
    | split
    | dsimp only

theorem carafeTake_keeps {s0 : State} (s : State) (n : Nat) (hu : Keeps s0 s) :
    Keeps s0 (carafeTake s n).2 := by
  unfold carafeTake
  (try dsimp only)
  repeat first
    | (simp only [keeps_mk]; with_reducible refine Keeps.fold ?_)
    | with_reducible assumption
    | with_reducible exact Keeps.refl _
    | with_reducible apply foldl_keeps
    | with_reducible apply Keeps.ite
    | with_reducible apply Keeps.iteFst
    | with_reducible apply Keeps.iteSnd
    | exact @rfl Nat _
    | exact List.length_set ..
    | intro _ _
    | split
    | dsimp only

theorem countReseed_keeps {s0 : State} (s : State) (hu : Keeps s0 s) :
    Keeps s0 (countReseed s) := by
  unfold countReseed
  (try dsimp only)
  repeat first
    | (simp only [keeps_mk]; with_reducible refine Keeps.fold ?_)
    | with_reducible assumption
    | with_reducible exact Keeps.refl _
    | with_reducible apply foldl_keeps
    | with_reducible apply Keeps.ite
    | with_reducible apply Keeps.iteFst
    | with_reducible apply Keeps.iteSnd
    | exact @rfl Nat _
    | exact List.length_set ..
    | intro _ _
    | split
    | dsimp only

theorem drbgInstantiate_keeps {s0 : State} (s : State) (p : BitVec 8) (host : Bytes) (hu : Keeps s0 s) :
    Keeps s0 (drbgInstantiate s p host) := by
  unfold drbgInstantiate
  (try dsimp only)
  repeat first
    | (simp only [keeps_mk]; with_reducible refine Keeps.fold ?_)
    | with_reducible assumption
    | with_reducible exact Keeps.refl _
    | with_reducible apply countReseed_keeps
    | with_reducible apply State.setDrbg_keeps
    | with_reducible apply carafeTake_keeps
    | with_reducible apply foldl_keeps
    | with_reducible apply Keeps.ite
    | with_reducible apply Keeps.iteFst
    | with_reducible apply Keeps.iteSnd
    | exact @rfl Nat _
    | exact List.length_set ..
    | intro _ _
    | split
    | dsimp only

theorem drbgReseed_keeps {s0 : State} (s : State) (p : BitVec 8) (addin : Bytes) (hu : Keeps s0 s) :
    Keeps s0 (drbgReseed s p addin) := by
  unfold drbgReseed
  (try dsimp only)
  repeat first
    | (simp only [keeps_mk]; with_reducible refine Keeps.fold ?_)
    | with_reducible assumption
    | with_reducible exact Keeps.refl _
    | with_reducible apply countReseed_keeps
    | with_reducible apply State.setDrbg_keeps
    | with_reducible apply carafeTake_keeps
    | with_reducible apply foldl_keeps
    | with_reducible apply Keeps.ite
    | with_reducible apply Keeps.iteFst
    | with_reducible apply Keeps.iteSnd
    | exact @rfl Nat _
    | exact List.length_set ..
    | intro _ _
    | split
    | dsimp only

theorem drawQueue_keeps {s0 : State} (s : State) (r : Request) (hu : Keeps s0 s) :
    Keeps s0 (drawQueue s r) := by
  unfold drawQueue
  (try dsimp only)
  repeat first
    | (simp only [keeps_mk]; with_reducible refine Keeps.fold ?_)
    | with_reducible assumption
    | with_reducible exact Keeps.refl _
    | with_reducible apply foldl_keeps
    | with_reducible apply Keeps.ite
    | with_reducible apply Keeps.iteFst
    | with_reducible apply Keeps.iteSnd
    | exact @rfl Nat _
    | exact List.length_set ..
    | intro _ _
    | split
    | dsimp only

theorem drawClean_keeps {s0 : State} (s : State) (hu : Keeps s0 s) :
    Keeps s0 (drawClean s) := by
  unfold drawClean
  (try dsimp only)
  repeat first
    | (simp only [keeps_mk]; with_reducible refine Keeps.fold ?_)
    | with_reducible assumption
    | with_reducible exact Keeps.refl _
    | with_reducible apply foldl_keeps
    | with_reducible apply Keeps.ite
    | with_reducible apply Keeps.iteFst
    | with_reducible apply Keeps.iteSnd
    | exact @rfl Nat _
    | exact List.length_set ..
    | intro _ _
    | split
    | dsimp only

theorem drawBytes_keeps {s0 : State} (s : State) (p : BitVec 8) (fresh : Bool) (addin : Bytes) (n : Nat) (hu : Keeps s0 s) :
    Keeps s0 (drawBytes s p fresh addin n).2 := by
  unfold drawBytes
  (try dsimp only)
  repeat first
    | (simp only [keeps_mk]; with_reducible refine Keeps.fold ?_)
    | with_reducible assumption
    | with_reducible exact Keeps.refl _
    | with_reducible apply drbgInstantiate_keeps
    | with_reducible apply drbgReseed_keeps
    | with_reducible apply State.setDrbg_keeps
    | with_reducible apply foldl_keeps
    | with_reducible apply Keeps.ite
    | with_reducible apply Keeps.iteFst
    | with_reducible apply Keeps.iteSnd
    | exact @rfl Nat _
    | exact List.length_set ..
    | intro _ _
    | split
    | dsimp only

theorem draw_keeps {s0 : State} (s : State) (p : BitVec 8) (n : Nat) (hu : Keeps s0 s) :
    Keeps s0 (draw s p n).2 := by
  unfold draw
  (try dsimp only)
  repeat first
    | (simp only [keeps_mk]; with_reducible refine Keeps.fold ?_)
    | with_reducible assumption
    | with_reducible exact Keeps.refl _
    | with_reducible apply drawBytes_keeps
    | with_reducible apply foldl_keeps
    | with_reducible apply Keeps.ite
    | with_reducible apply Keeps.iteFst
    | with_reducible apply Keeps.iteSnd
    | exact @rfl Nat _
    | exact List.length_set ..
    | intro _ _
    | split
    | dsimp only

theorem drawNonce_keeps {s0 : State} (p : BitVec 8) (s : State) (hu : Keeps s0 s) :
    Keeps s0 (drawNonce p s).2 := by
  unfold drawNonce
  (try dsimp only)
  repeat first
    | (simp only [keeps_mk]; with_reducible refine Keeps.fold ?_)
    | with_reducible assumption
    | with_reducible exact Keeps.refl _
    | with_reducible apply draw_keeps
    | with_reducible apply drawFree_keeps
    | with_reducible apply foldl_keeps
    | with_reducible apply Keeps.ite
    | with_reducible apply Keeps.iteFst
    | with_reducible apply Keeps.iteSnd
    | exact @rfl Nat _
    | exact List.length_set ..
    | intro _ _
    | split
    | dsimp only

theorem serveRequests_own (k : Nat) (s : State) : Keeps s (serveRequests k s) := by
  induction k generalizing s with
  | zero => exact Keeps.refl s
  | succ k ih =>
    unfold serveRequests
    split
    · exact Keeps.refl s
    · split
      · exact Keeps.trans (Keeps.trans (drbgInstantiate_keeps _ _ _ (Keeps.refl _)) (drawClean_keeps _ (Keeps.refl _))) (ih _)
      · exact Keeps.refl s

theorem serveRequests_keeps {s0 : State} (z0 : Nat) (z1 : State) (hu : Keeps s0 z1) :
    Keeps s0 (serveRequests z0 z1) :=
  Keeps.trans hu (serveRequests_own z0 z1)

theorem drbgRestart_keeps {s0 : State} (s : State) (p : BitVec 8) (hu : Keeps s0 s) :
    Keeps s0 (drbgRestart s p) := by
  unfold drbgRestart
  (try dsimp only)
  repeat first
    | (simp only [keeps_mk]; with_reducible refine Keeps.fold ?_)
    | with_reducible assumption
    | with_reducible exact Keeps.refl _
    | with_reducible apply drawQueue_keeps
    | with_reducible apply State.setDrbg_keeps
    | with_reducible apply serveRequests_keeps
    | with_reducible apply foldl_keeps
    | with_reducible apply Keeps.ite
    | with_reducible apply Keeps.iteFst
    | with_reducible apply Keeps.iteSnd
    | exact @rfl Nat _
    | exact List.length_set ..
    | intro _ _
    | split
    | dsimp only

end Sys2Proof.Machine
end

