-- ==== Sys2Proof/Laws/KeepsCards.lean ====
section
/-! SUPPORT. What the functions of Machine/Cards.lean keep (Laws/Keeps.lean). -/
namespace Sys2Proof.Machine

-- One theorem after another: a thread for each that waits would fill the memory.
set_option Elab.async false

theorem setKeeper_keeps {s0 : State} (k : KeeperRun) (s : State) (hu : Keeps s0 s) :
    Keeps s0 (setKeeper k s) := by
  unfold setKeeper
  (try dsimp only)
  repeat first
    | (simp only [keeps_mk]; with_reducible refine Keeps.fold ?_)
    | with_reducible assumption
    | with_reducible exact Keeps.refl _
    | with_reducible apply foldl_keeps
    | with_reducible apply Keeps.ite
    | with_reducible apply Keeps.iteFst
    | with_reducible apply Keeps.iteSnd
    | exact @rfl Nat _
    | exact List.length_set ..
    | intro _ _
    | split
    | dsimp only

theorem cardSend_keeps {s0 : State} (b : Bytes) (s : State) (hu : Keeps s0 s) :
    Keeps s0 (cardSend b s) := by
  unfold cardSend
  (try dsimp only)
  repeat first
    | (simp only [keeps_mk]; with_reducible refine Keeps.fold ?_)
    | with_reducible assumption
    | with_reducible exact Keeps.refl _
    | with_reducible apply foldl_keeps
    | with_reducible apply Keeps.ite
    | with_reducible apply Keeps.iteFst
    | with_reducible apply Keeps.iteSnd
    | exact @rfl Nat _
    | exact List.length_set ..
    | intro _ _
    | split
    | dsimp only

theorem t1Send_keeps {s0 : State} (k : KeeperRun) (b : Bytes) (s : State) (hu : Keeps s0 s) :
    Keeps s0 (t1Send k b s) := by
  unfold t1Send
  (try dsimp only)
  repeat first
    | (simp only [keeps_mk]; with_reducible refine Keeps.fold ?_)
    | with_reducible assumption
    | with_reducible exact Keeps.refl _
    | with_reducible apply cardSend_keeps
    | with_reducible apply setKeeper_keeps
    | with_reducible apply foldl_keeps
    | with_reducible apply Keeps.ite
    | with_reducible apply Keeps.iteFst
    | with_reducible apply Keeps.iteSnd
    | exact @rfl Nat _
    | exact List.length_set ..
    | intro _ _
    | split
    | dsimp only

theorem sendI_keeps {s0 : State} (k : KeeperRun) (s : State) (hu : Keeps s0 s) :
    Keeps s0 (sendI k s) := by
  unfold sendI
  (try dsimp only)
  repeat first
    | (simp only [keeps_mk]; with_reducible refine Keeps.fold ?_)
    | with_reducible assumption
    | with_reducible exact Keeps.refl _
    | with_reducible apply t1Send_keeps
    | with_reducible apply foldl_keeps
    | with_reducible apply Keeps.ite
    | with_reducible apply Keeps.iteFst
    | with_reducible apply Keeps.iteSnd
    | exact @rfl Nat _
    | exact List.length_set ..
    | intro _ _
    | split
    | dsimp only

theorem sendCommand_keeps {s0 : State} (k : KeeperRun) (stage : KeeperStage) (apdu : Bytes) (s : State) (hu : Keeps s0 s) :
    Keeps s0 (sendCommand k stage apdu s) := by
  unfold sendCommand
  (try dsimp only)
  repeat first
    | (simp only [keeps_mk]; with_reducible refine Keeps.fold ?_)
    | with_reducible assumption
    | with_reducible exact Keeps.refl _
    | with_reducible apply sendI_keeps
    | with_reducible apply foldl_keeps
    | with_reducible apply Keeps.ite
    | with_reducible apply Keeps.iteFst
    | with_reducible apply Keeps.iteSnd
    | exact @rfl Nat _
    | exact List.length_set ..
    | intro _ _
    | split
    | dsimp only

theorem sendIfs_keeps {s0 : State} (k : KeeperRun) (s : State) (hu : Keeps s0 s) :
    Keeps s0 (sendIfs k s) := by
  unfold sendIfs
  (try dsimp only)
  repeat first
    | (simp only [keeps_mk]; with_reducible refine Keeps.fold ?_)
    | with_reducible assumption
    | with_reducible exact Keeps.refl _
    | with_reducible apply t1Send_keeps
    | with_reducible apply foldl_keeps
    | with_reducible apply Keeps.ite
    | with_reducible apply Keeps.iteFst
    | with_reducible apply Keeps.iteSnd
    | exact @rfl Nat _
    | exact List.length_set ..
    | intro _ _
    | split
    | dsimp only

theorem keeperEnd_keeps {s0 : State} (o : JobOut) (s : State) (cs : List Commit) (hu : Keeps s0 s) :
    Keeps s0 (keeperEnd o s cs) := by
  unfold keeperEnd
  (try dsimp only)
  repeat first
    | (simp only [keeps_mk]; with_reducible refine Keeps.fold ?_)
    | with_reducible assumption
    | with_reducible exact Keeps.refl _
    | with_reducible apply deactivate_keeps
    | with_reducible apply State.setJob_keeps
    | with_reducible apply foldl_keeps
    | with_reducible apply Keeps.ite
    | with_reducible apply Keeps.iteFst
    | with_reducible apply Keeps.iteSnd
    | exact @rfl Nat _
    | exact List.length_set ..
    | intro _ _
    | split
    | dsimp only

theorem keeperAbort_keeps {s0 : State} (d : BitVec 16) (s : State) (hu : Keeps s0 s) :
    Keeps s0 (keeperAbort d s) := by
  unfold keeperAbort
  (try dsimp only)
  repeat first
    | (simp only [keeps_mk]; with_reducible refine Keeps.fold ?_)
    | with_reducible assumption
    | with_reducible exact Keeps.refl _
    | with_reducible apply keeperEnd_keeps
    | with_reducible apply foldl_keeps
    | with_reducible apply Keeps.ite
    | with_reducible apply Keeps.iteFst
    | with_reducible apply Keeps.iteSnd
    | exact @rfl Nat _
    | exact List.length_set ..
    | intro _ _
    | split
    | dsimp only

theorem keeperRefuse_keeps {s0 : State} (d : BitVec 16) (s : State) (hu : Keeps s0 s) :
    Keeps s0 (keeperRefuse d s) := by
  unfold keeperRefuse
  (try dsimp only)
  repeat first
    | (simp only [keeps_mk]; with_reducible refine Keeps.fold ?_)
    | with_reducible assumption
    | with_reducible exact Keeps.refl _
    | with_reducible apply keeperEnd_keeps
    | with_reducible apply foldl_keeps
    | with_reducible apply Keeps.ite
    | with_reducible apply Keeps.iteFst
    | with_reducible apply Keeps.iteSnd
    | exact @rfl Nat _
    | exact List.length_set ..
    | intro _ _
    | split
    | dsimp only

theorem setPair_keeps {s0 : State} (ta1 : Byte) (s : State) (hu : Keeps s0 s) :
    Keeps s0 (setPair ta1 s) := by
  unfold setPair
  (try dsimp only)
  repeat first
    | (simp only [keeps_mk]; with_reducible refine Keeps.fold ?_)
    | with_reducible assumption
    | with_reducible exact Keeps.refl _
    | with_reducible apply foldl_keeps
    | with_reducible apply Keeps.ite
    | with_reducible apply Keeps.iteFst
    | with_reducible apply Keeps.iteSnd
    | exact @rfl Nat _
    | exact List.length_set ..
    | intro _ _
    | split
    | dsimp only

theorem activate_keeps {s0 : State} (k : KeeperRun) (s : State) (hu : Keeps s0 s) :
    Keeps s0 (activate k s) := by
  unfold activate
  (try dsimp only)
  repeat first
    | (simp only [keeps_mk]; with_reducible refine Keeps.fold ?_)
    | with_reducible assumption
    | with_reducible exact Keeps.refl _
    | with_reducible apply setPins_keeps
    | with_reducible apply setPair_keeps
    | with_reducible apply setKeeper_keeps
    | with_reducible apply foldl_keeps
    | with_reducible apply Keeps.ite
    | with_reducible apply Keeps.iteFst
    | with_reducible apply Keeps.iteSnd
    | exact @rfl Nat _
    | exact List.length_set ..
    | intro _ _
    | split
    | dsimp only

theorem atrReceive_keeps {s0 : State} (a : Bytes) (s : State) (hu : Keeps s0 s) :
    Keeps s0 (atrReceive a s) := by
  unfold atrReceive
  (try dsimp only)
  repeat first
    | (simp only [keeps_mk]; with_reducible refine Keeps.fold ?_)
    | with_reducible assumption
    | with_reducible exact Keeps.refl _
    | with_reducible apply keeperAbort_keeps
    | with_reducible apply sendIfs_keeps
    | with_reducible apply setPair_keeps
    | with_reducible apply cardSend_keeps
    | with_reducible apply setKeeper_keeps
    | with_reducible apply foldl_keeps
    | with_reducible apply Keeps.ite
    | with_reducible apply Keeps.iteFst
    | with_reducible apply Keeps.iteSnd
    | exact @rfl Nat _
    | exact List.length_set ..
    | intro _ _
    | split
    | dsimp only

theorem ppsFails_keeps {s0 : State} (k : KeeperRun) (s : State) (hu : Keeps s0 s) :
    Keeps s0 (ppsFails k s) := by
  unfold ppsFails
  (try dsimp only)
  repeat first
    | (simp only [keeps_mk]; with_reducible refine Keeps.fold ?_)
    | with_reducible assumption
    | with_reducible exact Keeps.refl _
    | with_reducible apply keeperAbort_keeps
    | with_reducible apply activate_keeps
    | with_reducible apply deactivate_keeps
    | with_reducible apply foldl_keeps
    | with_reducible apply Keeps.ite
    | with_reducible apply Keeps.iteFst
    | with_reducible apply Keeps.iteSnd
    | exact @rfl Nat _
    | exact List.length_set ..
    | intro _ _
    | split
    | dsimp only

theorem ppsResponse_keeps {s0 : State} (r : Bytes) (s : State) (hu : Keeps s0 s) :
    Keeps s0 (ppsResponse r s) := by
  unfold ppsResponse
  (try dsimp only)
  repeat first
    | (simp only [keeps_mk]; with_reducible refine Keeps.fold ?_)
    | with_reducible assumption
    | with_reducible exact Keeps.refl _
    | with_reducible apply sendIfs_keeps
    | with_reducible apply setPair_keeps
    | with_reducible apply ppsFails_keeps
    | with_reducible apply foldl_keeps
    | with_reducible apply Keeps.ite
    | with_reducible apply Keeps.iteFst
    | with_reducible apply Keeps.iteSnd
    | exact @rfl Nat _
    | exact List.length_set ..
    | intro _ _
    | split
    | dsimp only

theorem cardWaitTimeout_keeps {s0 : State} (s : State) (hu : Keeps s0 s) :
    Keeps s0 (cardWaitTimeout s) := by
  unfold cardWaitTimeout
  (try dsimp only)
  repeat first
    | (simp only [keeps_mk]; with_reducible refine Keeps.fold ?_)
    | with_reducible assumption
    | with_reducible exact Keeps.refl _
    | with_reducible apply keeperAbort_keeps
    | with_reducible apply ppsFails_keeps
    | with_reducible apply foldl_keeps
    | with_reducible apply Keeps.ite
    | with_reducible apply Keeps.iteFst
    | with_reducible apply Keeps.iteSnd
    | exact @rfl Nat _
    | exact List.length_set ..
    | intro _ _
    | split
    | dsimp only

theorem countRetry_keeps {s0 : State} (s : State) (hu : Keeps s0 s) :
    Keeps s0 (countRetry s) := by
  unfold countRetry
  (try dsimp only)
  repeat first
    | (simp only [keeps_mk]; with_reducible refine Keeps.fold ?_)
    | with_reducible assumption
    | with_reducible exact Keeps.refl _
    | with_reducible apply foldl_keeps
    | with_reducible apply Keeps.ite
    | with_reducible apply Keeps.iteFst
    | with_reducible apply Keeps.iteSnd
    | exact @rfl Nat _
    | exact List.length_set ..
    | intro _ _
    | split
    | dsimp only

theorem resynch_keeps {s0 : State} (k : KeeperRun) (s : State) (hu : Keeps s0 s) :
    Keeps s0 (resynch k s) := by
  unfold resynch
  (try dsimp only)
  repeat first
    | (simp only [keeps_mk]; with_reducible refine Keeps.fold ?_)
    | with_reducible assumption
    | with_reducible exact Keeps.refl _
    | with_reducible apply keeperAbort_keeps
    | with_reducible apply t1Send_keeps
    | with_reducible apply countRetry_keeps
    | with_reducible apply foldl_keeps
    | with_reducible apply Keeps.ite
    | with_reducible apply Keeps.iteFst
    | with_reducible apply Keeps.iteSnd
    | exact @rfl Nat _
    | exact List.length_set ..
    | intro _ _
    | split
    | dsimp only

theorem blockError_keeps {s0 : State} (k : KeeperRun) (edc : Bool) (s : State) (hu : Keeps s0 s) :
    Keeps s0 (blockError k edc s) := by
  unfold blockError
  (try dsimp only)
  repeat first
    | (simp only [keeps_mk]; with_reducible refine Keeps.fold ?_)
    | with_reducible assumption
    | with_reducible exact Keeps.refl _
    | with_reducible apply resynch_keeps
    | with_reducible apply cardSend_keeps
    | with_reducible apply setKeeper_keeps
    | with_reducible apply countRetry_keeps
    | with_reducible apply foldl_keeps
    | with_reducible apply Keeps.ite
    | with_reducible apply Keeps.iteFst
    | with_reducible apply Keeps.iteSnd
    | exact @rfl Nat _
    | exact List.length_set ..
    | intro _ _
    | split
    | dsimp only

theorem identityDone_keeps {s0 : State} (k : KeeperRun) (resp : Bytes) (s : State) (hu : Keeps s0 s) :
    Keeps s0 (identityDone k resp s) := by
  unfold identityDone
  (try dsimp only)
  repeat first
    | (simp only [keeps_mk]; with_reducible refine Keeps.fold ?_)
    | with_reducible assumption
    | with_reducible exact Keeps.refl _
    | with_reducible apply deactivate_keeps
    | with_reducible apply keeperRefuse_keeps
    | with_reducible apply keeperEnd_keeps
    | with_reducible apply sendCommand_keeps
    | with_reducible apply foldl_keeps
    | with_reducible apply Keeps.ite
    | with_reducible apply Keeps.iteFst
    | with_reducible apply Keeps.iteSnd
    | exact @rfl Nat _
    | exact List.length_set ..
    | intro _ _
    | split
    | dsimp only

theorem authoriseDone_keeps {s0 : State} (k : KeeperRun) (resp : Bytes) (s : State) (hu : Keeps s0 s) :
    Keeps s0 (authoriseDone k resp s) := by
  unfold authoriseDone
  (try dsimp only)
  repeat first
    | (simp only [keeps_mk]; with_reducible refine Keeps.fold ?_)
    | with_reducible assumption
    | with_reducible exact Keeps.refl _
    | with_reducible apply keeperRefuse_keeps
    | with_reducible apply keeperEnd_keeps
    | with_reducible apply foldl_keeps
    | with_reducible apply Keeps.ite
    | with_reducible apply Keeps.iteFst
    | with_reducible apply Keeps.iteSnd
    | exact @rfl Nat _
    | exact List.length_set ..
    | intro _ _
    | split
    | dsimp only

theorem askCheck_keeps {s0 : State} (auth : Bool) (k : KeeperRun) (s : State) (hu : Keeps s0 s) :
    Keeps s0 (askCheck auth k s) := by
  unfold askCheck
  (try dsimp only)
  repeat first
    | (simp only [keeps_mk]; with_reducible refine Keeps.fold ?_)
    | with_reducible assumption
    | with_reducible exact Keeps.refl _
    | with_reducible apply setKeeper_keeps
    | with_reducible apply foldl_keeps
    | with_reducible apply Keeps.ite
    | with_reducible apply Keeps.iteFst
    | with_reducible apply Keeps.iteSnd
    | exact @rfl Nat _
    | exact List.length_set ..
    | intro _ _
    | split
    | dsimp only

theorem responseDone_keeps {s0 : State} (k : KeeperRun) (s : State) (hu : Keeps s0 s) :
    Keeps s0 (responseDone k s) := by
  unfold responseDone
  (try dsimp only)
  repeat first
    | (simp only [keeps_mk]; with_reducible refine Keeps.fold ?_)
    | with_reducible assumption
    | with_reducible exact Keeps.refl _
    | with_reducible apply askCheck_keeps
    | with_reducible apply keeperRefuse_keeps
    | with_reducible apply foldl_keeps
    | with_reducible apply Keeps.ite
    | with_reducible apply Keeps.iteFst
    | with_reducible apply Keeps.iteSnd
    | exact @rfl Nat _
    | exact List.length_set ..
    | intro _ _
    | split
    | dsimp only

theorem checkDone_keeps {s0 : State} (auth : Bool) (k : KeeperRun) (s : State) (hu : Keeps s0 s) :
    Keeps s0 (checkDone auth k s) := by
  unfold checkDone
  (try dsimp only)
  repeat first
    | (simp only [keeps_mk]; with_reducible refine Keeps.fold ?_)
    | with_reducible assumption
    | with_reducible exact Keeps.refl _
    | with_reducible apply authoriseDone_keeps
    | with_reducible apply identityDone_keeps
    | with_reducible apply foldl_keeps
    | with_reducible apply Keeps.ite
    | with_reducible apply Keeps.iteFst
    | with_reducible apply Keeps.iteSnd
    | exact @rfl Nat _
    | exact List.length_set ..
    | intro _ _
    | split
    | dsimp only

theorem keeperAgain_keeps {s0 : State} (s : State) (hu : Keeps s0 s) :
    Keeps s0 (keeperAgain s) := by
  unfold keeperAgain
  (try dsimp only)
  repeat first
    | (simp only [keeps_mk]; with_reducible refine Keeps.fold ?_)
    | with_reducible assumption
    | with_reducible exact Keeps.refl _
    | with_reducible apply setKeeper_keeps
    | with_reducible apply leaveKeeper_keeps
    | with_reducible apply State.setJob_keeps
    | with_reducible apply keeperEnd_keeps
    | with_reducible apply foldl_keeps
    | with_reducible apply Keeps.ite
    | with_reducible apply Keeps.iteFst
    | with_reducible apply Keeps.iteSnd
    | exact @rfl Nat _
    | exact List.length_set ..
    | intro _ _
    | split
    | dsimp only

theorem resynced_keeps {s0 : State} (k : KeeperRun) (s : State) (hu : Keeps s0 s) :
    Keeps s0 (resynced k s) := by
  unfold resynced
  (try dsimp only)
  repeat first
    | (simp only [keeps_mk]; with_reducible refine Keeps.fold ?_)
    | with_reducible assumption
    | with_reducible exact Keeps.refl _
    | with_reducible apply sendIfs_keeps
    | with_reducible apply sendI_keeps
    | with_reducible apply foldl_keeps
    | with_reducible apply Keeps.ite
    | with_reducible apply Keeps.iteFst
    | with_reducible apply Keeps.iteSnd
    | exact @rfl Nat _
    | exact List.length_set ..
    | intro _ _
    | split
    | dsimp only

theorem takeI_keeps {s0 : State} (k : KeeperRun) (pcb : Byte) (inf : Bytes) (s : State) (hu : Keeps s0 s) :
    Keeps s0 (takeI k pcb inf s) := by
  unfold takeI
  (try dsimp only)
  repeat first
    | (simp only [keeps_mk]; with_reducible refine Keeps.fold ?_)
    | with_reducible assumption
    | with_reducible exact Keeps.refl _
    | with_reducible apply blockError_keeps
    | with_reducible apply t1Send_keeps
    | with_reducible apply responseDone_keeps
    | with_reducible apply setKeeper_keeps
    | with_reducible apply foldl_keeps
    | with_reducible apply Keeps.ite
    | with_reducible apply Keeps.iteFst
    | with_reducible apply Keeps.iteSnd
    | exact @rfl Nat _
    | exact List.length_set ..
    | intro _ _
    | split
    | dsimp only

theorem takeR_keeps {s0 : State} (k : KeeperRun) (pcb : Byte) (inf : Bytes) (s : State) (hu : Keeps s0 s) :
    Keeps s0 (takeR k pcb inf s) := by
  unfold takeR
  (try dsimp only)
  repeat first
    | (simp only [keeps_mk]; with_reducible refine Keeps.fold ?_)
    | with_reducible assumption
    | with_reducible exact Keeps.refl _
    | with_reducible apply blockError_keeps
    | with_reducible apply sendI_keeps
    | with_reducible apply cardSend_keeps
    | with_reducible apply foldl_keeps
    | with_reducible apply Keeps.ite
    | with_reducible apply Keeps.iteFst
    | with_reducible apply Keeps.iteSnd
    | exact @rfl Nat _
    | exact List.length_set ..
    | intro _ _
    | split
    | dsimp only

theorem takeS_keeps {s0 : State} (k : KeeperRun) (pcb : Byte) (inf : Bytes) (s : State) (hu : Keeps s0 s) :
    Keeps s0 (takeS k pcb inf s) := by
  unfold takeS
  (try dsimp only)
  repeat first
    | (simp only [keeps_mk]; with_reducible refine Keeps.fold ?_)
    | with_reducible assumption
    | with_reducible exact Keeps.refl _
    | with_reducible apply keeperAbort_keeps
    | with_reducible apply cardSend_keeps
    | with_reducible apply setKeeper_keeps
    | with_reducible apply sendCommand_keeps
    | with_reducible apply blockError_keeps
    | with_reducible apply foldl_keeps
    | with_reducible apply Keeps.ite
    | with_reducible apply Keeps.iteFst
    | with_reducible apply Keeps.iteSnd
    | exact @rfl Nat _
    | exact List.length_set ..
    | intro _ _
    | split
    | dsimp only

theorem cardBlock_keeps {s0 : State} (b : Bytes) (s : State) (hu : Keeps s0 s) :
    Keeps s0 (cardBlock b s) := by
  unfold cardBlock
  (try dsimp only)
  repeat first
    | (simp only [keeps_mk]; with_reducible refine Keeps.fold ?_)
    | with_reducible assumption
    | with_reducible exact Keeps.refl _
    | with_reducible apply blockError_keeps
    | with_reducible apply resynced_keeps
    | with_reducible apply resynch_keeps
    | with_reducible apply takeI_keeps
    | with_reducible apply takeS_keeps
    | with_reducible apply takeR_keeps
    | with_reducible apply foldl_keeps
    | with_reducible apply Keeps.ite
    | with_reducible apply Keeps.iteFst
    | with_reducible apply Keeps.iteSnd
    | exact @rfl Nat _
    | exact List.length_set ..
    | intro _ _
    | split
    | dsimp only

theorem cardBlockTimeout_keeps {s0 : State} (s : State) (hu : Keeps s0 s) :
    Keeps s0 (cardBlockTimeout s) := by
  unfold cardBlockTimeout
  (try dsimp only)
  repeat first
    | (simp only [keeps_mk]; with_reducible refine Keeps.fold ?_)
    | with_reducible assumption
    | with_reducible exact Keeps.refl _
    | with_reducible apply blockError_keeps
    | with_reducible apply foldl_keeps
    | with_reducible apply Keeps.ite
    | with_reducible apply Keeps.iteFst
    | with_reducible apply Keeps.iteSnd
    | exact @rfl Nat _
    | exact List.length_set ..
    | intro _ _
    | split
    | dsimp only

theorem keeperInsert_keeps {s0 : State} (s : State) (hu : Keeps s0 s) :
    Keeps s0 (keeperInsert s) := by
  unfold keeperInsert
  (try dsimp only)
  repeat first
    | (simp only [keeps_mk]; with_reducible refine Keeps.fold ?_)
    | with_reducible assumption
    | with_reducible exact Keeps.refl _
    | with_reducible apply foldl_keeps
    | with_reducible apply Keeps.ite
    | with_reducible apply Keeps.iteFst
    | with_reducible apply Keeps.iteSnd
    | exact @rfl Nat _
    | exact List.length_set ..
    | intro _ _
    | split
    | dsimp only

theorem keeperRemove_keeps {s0 : State} (s : State) (hu : Keeps s0 s) :
    Keeps s0 (keeperRemove s) := by
  unfold keeperRemove
  (try dsimp only)
  repeat first
    | (simp only [keeps_mk]; with_reducible refine Keeps.fold ?_)
    | with_reducible assumption
    | with_reducible exact Keeps.refl _
    | with_reducible apply keeperAbort_keeps
    | with_reducible apply foldl_keeps
    | with_reducible apply Keeps.ite
    | with_reducible apply Keeps.iteFst
    | with_reducible apply Keeps.iteSnd
    | exact @rfl Nat _
    | exact List.length_set ..
    | intro _ _
    | split
    | dsimp only

theorem sessionExpiry_keeps {s0 : State} (s : State) (hu : Keeps s0 s) :
    Keeps s0 (sessionExpiry s) := by
  unfold sessionExpiry
  (try dsimp only)
  repeat first
    | (simp only [keeps_mk]; with_reducible refine Keeps.fold ?_)
    | with_reducible assumption
    | with_reducible exact Keeps.refl _
    | with_reducible apply sessionOver_keeps
    | with_reducible apply foldl_keeps
    | with_reducible apply Keeps.ite
    | with_reducible apply Keeps.iteFst
    | with_reducible apply Keeps.iteSnd
    | exact @rfl Nat _
    | exact List.length_set ..
    | intro _ _
    | split
    | dsimp only

theorem keeperStart_keeps {s0 : State} (s : State) (x : Job) (hu : Keeps s0 s) :
    Keeps s0 (keeperStart s x).state := by
  unfold keeperStart
  (try dsimp only)
  repeat first
    | (simp only [keeps_mk]; with_reducible refine Keeps.fold ?_)
    | with_reducible assumption
    | with_reducible exact Keeps.refl _
    | with_reducible apply activate_keeps
    | with_reducible apply foldl_keeps
    | with_reducible apply Keeps.ite
    | with_reducible apply Keeps.iteFst
    | with_reducible apply Keeps.iteSnd
    | exact @rfl Nat _
    | exact List.length_set ..
    | intro _ _
    | split
    | dsimp only

theorem consume_keeps {s0 : State} (s : State) (purpose : BitVec 3) (hu : Keeps s0 s) :
    Keeps s0 (consume s purpose) := by
  unfold consume
  (try dsimp only)
  repeat first
    | (simp only [keeps_mk]; with_reducible refine Keeps.fold ?_)
    | with_reducible assumption
    | with_reducible exact Keeps.refl _
    | with_reducible apply endSession_keeps
    | with_reducible apply foldl_keeps
    | with_reducible apply Keeps.ite
    | with_reducible apply Keeps.iteFst
    | with_reducible apply Keeps.iteSnd
    | exact @rfl Nat _
    | exact List.length_set ..
    | intro _ _
    | split
    | dsimp only

theorem custodianEnrolSpec_keeps : ∀ s x, Keeps s ((custodianEnrolSpec).run s x).state := by
  intro s x
  unfold custodianEnrolSpec
  (try dsimp only)
  repeat first
    | (simp only [keeps_mk]; with_reducible refine Keeps.fold ?_)
    | with_reducible assumption
    | with_reducible exact Keeps.refl _
    | with_reducible apply keeperStart_keeps
    | with_reducible apply consume_keeps
    | with_reducible apply foldl_keeps
    | with_reducible apply Keeps.ite
    | with_reducible apply Keeps.iteFst
    | with_reducible apply Keeps.iteSnd
    | exact @rfl Nat _
    | exact List.length_set ..
    | intro _ _
    | split
    | dsimp only

theorem custodianRemoveSpec_keeps : ∀ s x, Keeps s ((custodianRemoveSpec).run s x).state := by
  intro s x
  unfold custodianRemoveSpec
  (try dsimp only)
  repeat first
    | (simp only [keeps_mk]; with_reducible refine Keeps.fold ?_)
    | with_reducible assumption
    | with_reducible exact Keeps.refl _
    | with_reducible apply consume_keeps
    | with_reducible apply foldl_keeps
    | with_reducible apply Keeps.ite
    | with_reducible apply Keeps.iteFst
    | with_reducible apply Keeps.iteSnd
    | exact @rfl Nat _
    | exact List.length_set ..
    | intro _ _
    | split
    | dsimp only

theorem quorumSetSpec_keeps : ∀ s x, Keeps s ((quorumSetSpec).run s x).state := by
  intro s x
  unfold quorumSetSpec
  (try dsimp only)
  repeat first
    | (simp only [keeps_mk]; with_reducible refine Keeps.fold ?_)
    | with_reducible assumption
    | with_reducible exact Keeps.refl _
    | with_reducible apply consume_keeps
    | with_reducible apply foldl_keeps
    | with_reducible apply Keeps.ite
    | with_reducible apply Keeps.iteFst
    | with_reducible apply Keeps.iteSnd
    | exact @rfl Nat _
    | exact List.length_set ..
    | intro _ _
    | split
    | dsimp only

theorem quorumOpenSpec_keeps : ∀ s x, Keeps s ((quorumOpenSpec).run s x).state := by
  intro s x
  unfold quorumOpenSpec
  (try dsimp only)
  repeat first
    | (simp only [keeps_mk]; with_reducible refine Keeps.fold ?_)
    | with_reducible assumption
    | with_reducible exact Keeps.refl _
    | with_reducible apply sessionOver_keeps
    | with_reducible apply carafeTake_keeps
    | with_reducible apply foldl_keeps
    | with_reducible apply Keeps.ite
    | with_reducible apply Keeps.iteFst
    | with_reducible apply Keeps.iteSnd
    | exact @rfl Nat _
    | exact List.length_set ..
    | intro _ _
    | split
    | dsimp only

theorem keeperPresentSpec_keeps : ∀ s x, Keeps s ((keeperPresentSpec).run s x).state := by
  intro s x
  unfold keeperPresentSpec
  (try dsimp only)
  repeat first
    | (simp only [keeps_mk]; with_reducible refine Keeps.fold ?_)
    | with_reducible assumption
    | with_reducible exact Keeps.refl _
    | with_reducible apply keeperStart_keeps
    | with_reducible apply foldl_keeps
    | with_reducible apply Keeps.ite
    | with_reducible apply Keeps.iteFst
    | with_reducible apply Keeps.iteSnd
    | exact @rfl Nat _
    | exact List.length_set ..
    | intro _ _
    | split
    | dsimp only

theorem quorumCloseSpec_keeps : ∀ s x, Keeps s ((quorumCloseSpec).run s x).state := by
  intro s x
  unfold quorumCloseSpec
  (try dsimp only)
  repeat first
    | (simp only [keeps_mk]; with_reducible refine Keeps.fold ?_)
    | with_reducible assumption
    | with_reducible exact Keeps.refl _
    | with_reducible apply endSession_keeps
    | with_reducible apply foldl_keeps
    | with_reducible apply Keeps.ite
    | with_reducible apply Keeps.iteFst
    | with_reducible apply Keeps.iteSnd
    | exact @rfl Nat _
    | exact List.length_set ..
    | intro _ _
    | split
    | dsimp only

theorem keeperIdentifySpec_keeps : ∀ s x, Keeps s ((keeperIdentifySpec).run s x).state := by
  intro s x
  unfold keeperIdentifySpec
  (try dsimp only)
  repeat first
    | (simp only [keeps_mk]; with_reducible refine Keeps.fold ?_)
    | with_reducible assumption
    | with_reducible exact Keeps.refl _
    | with_reducible apply keeperStart_keeps
    | with_reducible apply foldl_keeps
    | with_reducible apply Keeps.ite
    | with_reducible apply Keeps.iteFst
    | with_reducible apply Keeps.iteSnd
    | exact @rfl Nat _
    | exact List.length_set ..
    | intro _ _
    | split
    | dsimp only

end Sys2Proof.Machine
end

