-- ==== Sys2Proof/Laws/KeepsOperands.lean ====
section
/-! SUPPORT. What the functions of Machine/Operands.lean keep (Laws/Keeps.lean). -/
namespace Sys2Proof.Machine

-- One theorem after another: a thread for each that waits would fill the memory.
set_option Elab.async false

theorem writeCrates_own (s : State) (off : Nat) (bs : Bytes) : Keeps s (writeCrates s off bs) :=
  Keeps.crates (s1 := s) rfl rfl (Tab.write_wf _ _) (Keeps.refl s)

theorem writeCrates_keeps {s0 : State} (s : State) (off : Nat) (bs : Bytes) (hu : Keeps s0 s) :
    Keeps s0 (writeCrates s off bs) :=
  Keeps.trans hu (writeCrates_own s off bs)

theorem zeroCrate_own (s : State) (n : Nat) : Keeps s (zeroCrate s n) :=
  Keeps.crates (s1 := s) rfl rfl (Tab.filter_wf _) (Keeps.refl s)

theorem zeroCrate_keeps {s0 : State} (s : State) (n : Nat) (hu : Keeps s0 s) :
    Keeps s0 (zeroCrate s n) :=
  Keeps.trans hu (zeroCrate_own s n)

theorem dropAwaited_keeps {s0 : State} (s : State) (hu : Keeps s0 s) :
    Keeps s0 (dropAwaited s) := by
  unfold dropAwaited
  (try dsimp only)
  repeat first
    | (simp only [keeps_mk]; with_reducible refine Keeps.fold ?_)
    | with_reducible assumption
    | with_reducible exact Keeps.refl _
    | with_reducible apply foldl_keeps
    | with_reducible apply Keeps.ite
    | with_reducible apply Keeps.iteFst
    | with_reducible apply Keeps.iteSnd
    | exact @rfl Nat _
    | exact List.length_set ..
    | intro _ _
    | split
    | dsimp only

theorem completeReturns_keeps {s0 : State} (s : State) (hu : Keeps s0 s) :
    Keeps s0 (completeReturns s) := by
  unfold completeReturns
  (try dsimp only)
  repeat first
    | (simp only [keeps_mk]; with_reducible refine Keeps.fold ?_)
    | with_reducible assumption
    | with_reducible exact Keeps.refl _
    | with_reducible apply dropAwaited_keeps
    | with_reducible apply foldl_keeps
    | with_reducible apply Keeps.ite
    | with_reducible apply Keeps.iteFst
    | with_reducible apply Keeps.iteSnd
    | exact @rfl Nat _
    | exact List.length_set ..
    | intro _ _
    | split
    | dsimp only

theorem poison_keeps {s0 : State} (s : State) (ns : List Nat) (hu : Keeps s0 s) :
    Keeps s0 (poison s ns) := by
  unfold poison
  (try dsimp only)
  repeat first
    | (simp only [keeps_mk]; with_reducible refine Keeps.fold ?_)
    | with_reducible assumption
    | with_reducible exact Keeps.refl _
    | with_reducible apply dropAwaited_keeps
    | with_reducible apply foldl_keeps
    | with_reducible apply Keeps.ite
    | with_reducible apply Keeps.iteFst
    | with_reducible apply Keeps.iteSnd
    | exact @rfl Nat _
    | exact List.length_set ..
    | intro _ _
    | split
    | dsimp only

theorem writeOutput_keeps {s0 : State} (s : State) (j : Job) (bs : Bytes) (hu : Keeps s0 s) :
    Keeps s0 (writeOutput s j bs) := by
  unfold writeOutput
  (try dsimp only)
  repeat first
    | (simp only [keeps_mk]; with_reducible refine Keeps.fold ?_)
    | with_reducible assumption
    | with_reducible exact Keeps.refl _
    | with_reducible apply writeCrates_keeps
    | with_reducible apply writeHost_keeps
    | with_reducible apply foldl_keeps
    | with_reducible apply Keeps.ite
    | with_reducible apply Keeps.iteFst
    | with_reducible apply Keeps.iteSnd
    | exact @rfl Nat _
    | exact List.length_set ..
    | intro _ _
    | split
    | dsimp only

theorem putRecordAt_keeps {s0 : State} (n : Nat) (r : NvKey) (s : State) (hu : Keeps s0 s) :
    Keeps s0 (putRecordAt n r s) := by
  unfold putRecordAt
  (try dsimp only)
  repeat first
    | (simp only [keeps_mk]; with_reducible refine Keeps.fold ?_)
    | with_reducible assumption
    | with_reducible exact Keeps.refl _
    | with_reducible apply foldl_keeps
    | with_reducible apply Keeps.ite
    | with_reducible apply Keeps.iteFst
    | with_reducible apply Keeps.iteSnd
    | exact @rfl Nat _
    | exact List.length_set ..
    | intro _ _
    | split
    | dsimp only

theorem reserveSlot_keeps {s0 : State} (s : State) (n : BitVec 13) (p : BitVec 8) (cells : Nat) (hu : Keeps s0 s) :
    Keeps s0 (reserveSlot s n p cells) := by
  unfold reserveSlot
  (try dsimp only)
  repeat first
    | (simp only [keeps_mk]; with_reducible refine Keeps.fold ?_)
    | with_reducible assumption
    | with_reducible exact Keeps.refl _
    | with_reducible apply foldl_keeps
    | with_reducible apply Keeps.ite
    | with_reducible apply Keeps.iteFst
    | with_reducible apply Keeps.iteSnd
    | exact @rfl Nat _
    | exact List.length_set ..
    | intro _ _
    | split
    | dsimp only

theorem freeSlot_keeps {s0 : State} (s : State) (n : BitVec 13) (hu : Keeps s0 s) :
    Keeps s0 (freeSlot s n) := by
  unfold freeSlot
  (try dsimp only)
  repeat first
    | (simp only [keeps_mk]; with_reducible refine Keeps.fold ?_)
    | with_reducible assumption
    | with_reducible exact Keeps.refl _
    | with_reducible apply foldl_keeps
    | with_reducible apply Keeps.ite
    | with_reducible apply Keeps.iteFst
    | with_reducible apply Keeps.iteSnd
    | exact @rfl Nat _
    | exact List.length_set ..
    | intro _ _
    | split
    | dsimp only

theorem unreserve_keeps {s0 : State} (s : State) (n : BitVec 13) (hu : Keeps s0 s) :
    Keeps s0 (unreserve s n) := by
  unfold unreserve
  (try dsimp only)
  repeat first
    | (simp only [keeps_mk]; with_reducible refine Keeps.fold ?_)
    | with_reducible assumption
    | with_reducible exact Keeps.refl _
    | with_reducible apply foldl_keeps
    | with_reducible apply Keeps.ite
    | with_reducible apply Keeps.iteFst
    | with_reducible apply Keeps.iteSnd
    | exact @rfl Nat _
    | exact List.length_set ..
    | intro _ _
    | split
    | dsimp only

theorem dropKey_keeps {s0 : State} (s : State) (n : BitVec 13) (hu : Keeps s0 s) :
    Keeps s0 (dropKey s n) := by
  unfold dropKey
  (try dsimp only)
  repeat first
    | (simp only [keeps_mk]; with_reducible refine Keeps.fold ?_)
    | with_reducible assumption
    | with_reducible exact Keeps.refl _
    | with_reducible apply freeSlot_keeps
    | with_reducible apply foldl_keeps
    | with_reducible apply Keeps.ite
    | with_reducible apply Keeps.iteFst
    | with_reducible apply Keeps.iteSnd
    | exact @rfl Nat _
    | exact List.length_set ..
    | intro _ _
    | split
    | dsimp only

end Sys2Proof.Machine
end

