-- ==== Sys2Proof/Laws/KeepsKeyRecord.lean ====
section
/-! SUPPORT. What the functions of Machine/KeyRecord.lean keep (Laws/Keeps.lean). -/
namespace Sys2Proof.Machine

-- One theorem after another: a thread for each that waits would fill the memory.
set_option Elab.async false

theorem storeKey_keeps {s0 : State} (issuer : BitVec 8) (s : State) (n : BitVec 13) (k : Key) (hu : Keeps s0 s) :
    Keeps s0 (storeKey issuer s n k) := by
  unfold storeKey
  (try dsimp only)
  repeat first
    | (simp only [keeps_mk]; with_reducible refine Keeps.fold ?_)
    | with_reducible assumption
    | with_reducible exact Keeps.refl _
    | with_reducible apply putRecordAt_keeps
    | with_reducible apply drawNonce_keeps
    | with_reducible apply foldl_keeps
    | with_reducible apply Keeps.ite
    | with_reducible apply Keeps.iteFst
    | with_reducible apply Keeps.iteSnd
    | exact @rfl Nat _
    | exact List.length_set ..
    | intro _ _
    | split
    | dsimp only

theorem putKey_keeps {s0 : State} (issuer : BitVec 8) (s : State) (n : BitVec 13) (k : Key) (hu : Keeps s0 s) :
    Keeps s0 (putKey issuer s n k) := by
  unfold putKey
  (try dsimp only)
  repeat first
    | (simp only [keeps_mk]; with_reducible refine Keeps.fold ?_)
    | with_reducible assumption
    | with_reducible exact Keeps.refl _
    | with_reducible apply storeKey_keeps
    | with_reducible apply State.setSlot_keeps
    | with_reducible apply foldl_keeps
    | with_reducible apply Keeps.ite
    | with_reducible apply Keeps.iteFst
    | with_reducible apply Keeps.iteSnd
    | exact @rfl Nat _
    | exact List.length_set ..
    | intro _ _
    | split
    | dsimp only

theorem setRecords_keeps {s0 : State} (n : BitVec 13) (g : Stateful → Stateful) (s : State) (hu : Keeps s0 s) :
    Keeps s0 (setRecords n g s) := by
  unfold setRecords
  (try dsimp only)
  repeat first
    | (simp only [keeps_mk]; with_reducible refine Keeps.fold ?_)
    | with_reducible assumption
    | with_reducible exact Keeps.refl _
    | with_reducible apply foldl_keeps
    | with_reducible apply Keeps.ite
    | with_reducible apply Keeps.iteFst
    | with_reducible apply Keeps.iteSnd
    | exact @rfl Nat _
    | exact List.length_set ..
    | intro _ _
    | split
    | dsimp only

theorem setStateful_keeps {s0 : State} (n : BitVec 13) (g : Stateful → Stateful) (s : State) (hu : Keeps s0 s) :
    Keeps s0 (setStateful n g s) := by
  unfold setStateful
  (try dsimp only)
  repeat first
    | (simp only [keeps_mk]; with_reducible refine Keeps.fold ?_)
    | with_reducible assumption
    | with_reducible exact Keeps.refl _
    | with_reducible apply setRecords_keeps
    | with_reducible apply State.setSlot_keeps
    | with_reducible apply foldl_keeps
    | with_reducible apply Keeps.ite
    | with_reducible apply Keeps.iteFst
    | with_reducible apply Keeps.iteSnd
    | exact @rfl Nat _
    | exact List.length_set ..
    | intro _ _
    | split
    | dsimp only

theorem reserveBlock_keeps {s0 : State} (handle : BitVec 32) (s : State) (hu : Keeps s0 s) :
    Keeps s0 (reserveBlock handle s) := by
  unfold reserveBlock
  (try dsimp only)
  repeat first
    | (simp only [keeps_mk]; with_reducible refine Keeps.fold ?_)
    | with_reducible assumption
    | with_reducible exact Keeps.refl _
    | with_reducible apply setStateful_keeps
    | with_reducible apply foldl_keeps
    | with_reducible apply Keeps.ite
    | with_reducible apply Keeps.iteFst
    | with_reducible apply Keeps.iteSnd
    | exact @rfl Nat _
    | exact List.length_set ..
    | intro _ _
    | split
    | dsimp only

theorem tearBlock_keeps {s0 : State} (handle : BitVec 32) (s : State) (hu : Keeps s0 s) :
    Keeps s0 (tearBlock handle s) := by
  unfold tearBlock
  (try dsimp only)
  repeat first
    | (simp only [keeps_mk]; with_reducible refine Keeps.fold ?_)
    | with_reducible assumption
    | with_reducible exact Keeps.refl _
    | with_reducible apply setStateful_keeps
    | with_reducible apply drawFree_keeps
    | with_reducible apply foldl_keeps
    | with_reducible apply Keeps.ite
    | with_reducible apply Keeps.iteFst
    | with_reducible apply Keeps.iteSnd
    | exact @rfl Nat _
    | exact List.length_set ..
    | intro _ _
    | split
    | dsimp only

end Sys2Proof.Machine
end

