-- ==== Sys2Proof/Laws/KeepsJobs.lean ====
section
/-! SUPPORT. What the functions of Machine/Jobs.lean keep (Laws/Keeps.lean). -/
namespace Sys2Proof.Machine

-- One theorem after another: a thread for each that waits would fill the memory.
set_option Elab.async false

theorem askAbort_keeps {s0 : State} (s : State) (x : Job) (hu : Keeps s0 s) :
    Keeps s0 (askAbort s x) := by
  unfold askAbort
  (try dsimp only)
  repeat first
    | (simp only [keeps_mk]; with_reducible refine Keeps.fold ?_)
    | with_reducible assumption
    | with_reducible exact Keeps.refl _
    | with_reducible apply State.setTile_keeps
    | with_reducible apply foldl_keeps
    | with_reducible apply Keeps.ite
    | with_reducible apply Keeps.iteFst
    | with_reducible apply Keeps.iteSnd
    | exact @rfl Nat _
    | exact List.length_set ..
    | intro _ _
    | split
    | dsimp only

theorem loadEngine_keeps {s0 : State} (s : State) (x : Job) (e : BitVec 3) (hu : Keeps s0 s) :
    Keeps s0 (loadEngine s x e) := by
  unfold loadEngine
  (try dsimp only)
  repeat first
    | (simp only [keeps_mk]; with_reducible refine Keeps.fold ?_)
    | with_reducible assumption
    | with_reducible exact Keeps.refl _
    | with_reducible apply State.setEngine_keeps
    | with_reducible apply drawFrees_keeps
    | with_reducible apply foldl_keeps
    | with_reducible apply Keeps.ite
    | with_reducible apply Keeps.iteFst
    | with_reducible apply Keeps.iteSnd
    | exact @rfl Nat _
    | exact List.length_set ..
    | intro _ _
    | split
    | dsimp only

theorem takeUnit_keeps {s0 : State} (x : Job) (s : State) (u : Unit_) (hu : Keeps s0 s) :
    Keeps s0 (takeUnit x s u) := by
  unfold takeUnit
  (try dsimp only)
  repeat first
    | (simp only [keeps_mk]; with_reducible refine Keeps.fold ?_)
    | with_reducible assumption
    | with_reducible exact Keeps.refl _
    | with_reducible apply State.setTile_keeps
    | with_reducible apply loadEngine_keeps
    | with_reducible apply foldl_keeps
    | with_reducible apply Keeps.ite
    | with_reducible apply Keeps.iteFst
    | with_reducible apply Keeps.iteSnd
    | exact @rfl Nat _
    | exact List.length_set ..
    | intro _ _
    | split
    | dsimp only

theorem leaveUnit_keeps {s0 : State} (s : State) (u : Unit_) (hu : Keeps s0 s) :
    Keeps s0 (leaveUnit s u) := by
  unfold leaveUnit
  (try dsimp only)
  repeat first
    | (simp only [keeps_mk]; with_reducible refine Keeps.fold ?_)
    | with_reducible assumption
    | with_reducible exact Keeps.refl _
    | with_reducible apply leaveTile_keeps
    | with_reducible apply State.setEngine_keeps
    | with_reducible apply foldl_keeps
    | with_reducible apply Keeps.ite
    | with_reducible apply Keeps.iteFst
    | with_reducible apply Keeps.iteSnd
    | exact @rfl Nat _
    | exact List.length_set ..
    | intro _ _
    | split
    | dsimp only

theorem countUnit_keeps {s0 : State} (s : State) (u : Unit_) (hu : Keeps s0 s) :
    Keeps s0 (countUnit s u) := by
  unfold countUnit
  (try dsimp only)
  repeat first
    | (simp only [keeps_mk]; with_reducible refine Keeps.fold ?_)
    | with_reducible assumption
    | with_reducible exact Keeps.refl _
    | with_reducible apply State.setEngine_keeps
    | with_reducible apply foldl_keeps
    | with_reducible apply Keeps.ite
    | with_reducible apply Keeps.iteFst
    | with_reducible apply Keeps.iteSnd
    | exact @rfl Nat _
    | exact List.length_set ..
    | intro _ _
    | split
    | dsimp only

theorem freeUnits_keeps {s0 : State} (s : State) (x : Job) (hu : Keeps s0 s) :
    Keeps s0 (freeUnits s x) := by
  unfold freeUnits
  (try dsimp only)
  repeat first
    | (simp only [keeps_mk]; with_reducible refine Keeps.fold ?_)
    | with_reducible assumption
    | with_reducible exact Keeps.refl _
    | with_reducible apply countUnit_keeps
    | with_reducible apply leaveUnit_keeps
    | with_reducible apply foldl_keeps
    | with_reducible apply Keeps.ite
    | with_reducible apply Keeps.iteFst
    | with_reducible apply Keeps.iteSnd
    | exact @rfl Nat _
    | exact List.length_set ..
    | intro _ _
    | split
    | dsimp only

theorem cutBlock_keeps {s0 : State} (s : State) (x : Job) (st : BitVec 16) (hu : Keeps s0 s) :
    Keeps s0 (cutBlock s x st) := by
  unfold cutBlock
  (try dsimp only)
  repeat first
    | (simp only [keeps_mk]; with_reducible refine Keeps.fold ?_)
    | with_reducible assumption
    | with_reducible exact Keeps.refl _
    | with_reducible apply reserveBlock_keeps
    | with_reducible apply tearBlock_keeps
    | with_reducible apply drawFree_keeps
    | with_reducible apply foldl_keeps
    | with_reducible apply Keeps.ite
    | with_reducible apply Keeps.iteFst
    | with_reducible apply Keeps.iteSnd
    | exact @rfl Nat _
    | exact List.length_set ..
    | intro _ _
    | split
    | dsimp only

theorem loseCaches_keeps {s0 : State} (s : State) (x : Job) (st : BitVec 16) (hu : Keeps s0 s) :
    Keeps s0 (loseCaches s x st) := by
  unfold loseCaches
  (try dsimp only)
  repeat first
    | (simp only [keeps_mk]; with_reducible refine Keeps.fold ?_)
    | with_reducible assumption
    | with_reducible exact Keeps.refl _
    | with_reducible apply State.setCtx_keeps
    | with_reducible apply foldl_keeps
    | with_reducible apply Keeps.ite
    | with_reducible apply Keeps.iteFst
    | with_reducible apply Keeps.iteSnd
    | exact @rfl Nat _
    | exact List.length_set ..
    | intro _ _
    | split
    | dsimp only

theorem unbind_keeps {s0 : State} (s : State) (i : BitVec 14) (hu : Keeps s0 s) :
    Keeps s0 (unbind s i) := by
  unfold unbind
  (try dsimp only)
  repeat first
    | (simp only [keeps_mk]; with_reducible refine Keeps.fold ?_)
    | with_reducible assumption
    | with_reducible exact Keeps.refl _
    | with_reducible apply foldl_keeps
    | with_reducible apply Keeps.ite
    | with_reducible apply Keeps.iteFst
    | with_reducible apply Keeps.iteSnd
    | exact @rfl Nat _
    | exact List.length_set ..
    | intro _ _
    | split
    | dsimp only

theorem bindCaches_keeps {s0 : State} (s : State) (n : BitVec 13) (cs : List (BitVec 14)) (hu : Keeps s0 s) :
    Keeps s0 (bindCaches s n cs) := by
  unfold bindCaches
  (try dsimp only)
  repeat first
    | (simp only [keeps_mk]; with_reducible refine Keeps.fold ?_)
    | with_reducible assumption
    | with_reducible exact Keeps.refl _
    | with_reducible apply State.setSlot_keeps
    | with_reducible apply foldl_keeps
    | with_reducible apply Keeps.ite
    | with_reducible apply Keeps.iteFst
    | with_reducible apply Keeps.iteSnd
    | exact @rfl Nat _
    | exact List.length_set ..
    | intro _ _
    | split
    | dsimp only

theorem dropShelves_keeps {s0 : State} (s : State) (i : BitVec 14) (hu : Keeps s0 s) :
    Keeps s0 (dropShelves s i) := by
  unfold dropShelves
  (try dsimp only)
  repeat first
    | (simp only [keeps_mk]; with_reducible refine Keeps.fold ?_)
    | with_reducible assumption
    | with_reducible exact Keeps.refl _
    | with_reducible apply foldl_keeps
    | with_reducible apply Keeps.ite
    | with_reducible apply Keeps.iteFst
    | with_reducible apply Keeps.iteSnd
    | exact @rfl Nat _
    | exact List.length_set ..
    | intro _ _
    | split
    | dsimp only

theorem destroyPitch_keeps {s0 : State} (s : State) (p : BitVec 8) (hu : Keeps s0 s) :
    Keeps s0 (destroyPitch s p) := by
  unfold destroyPitch
  (try dsimp only)
  repeat first
    | (simp only [keeps_mk]; with_reducible refine Keeps.fold ?_)
    | with_reducible assumption
    | with_reducible exact Keeps.refl _
    | with_reducible apply dropShelves_keeps
    | with_reducible apply State.setCtx_keeps
    | with_reducible apply dropKey_keeps
    | with_reducible apply zeroCrate_keeps
    | with_reducible apply foldl_keeps
    | with_reducible apply Keeps.ite
    | with_reducible apply Keeps.iteFst
    | with_reducible apply Keeps.iteSnd
    | exact @rfl Nat _
    | exact List.length_set ..
    | intro _ _
    | split
    | dsimp only

theorem undoMigration_keeps {s0 : State} (s : State) (x : Job) (hu : Keeps s0 s) :
    Keeps s0 (undoMigration s x) := by
  unfold undoMigration
  (try dsimp only)
  repeat first
    | (simp only [keeps_mk]; with_reducible refine Keeps.fold ?_)
    | with_reducible assumption
    | with_reducible exact Keeps.refl _
    | with_reducible apply foldl_keeps
    | with_reducible apply Keeps.ite
    | with_reducible apply Keeps.iteFst
    | with_reducible apply Keeps.iteSnd
    | exact @rfl Nat _
    | exact List.length_set ..
    | intro _ _
    | split
    | dsimp only

theorem endRaw_keeps {s0 : State} (s : State) (j : JobId) (hu : Keeps s0 s) :
    Keeps s0 (endRaw s j) := by
  unfold endRaw
  (try dsimp only)
  repeat first
    | (simp only [keeps_mk]; with_reducible refine Keeps.fold ?_)
    | with_reducible assumption
    | with_reducible exact Keeps.refl _
    | with_reducible apply foldl_keeps
    | with_reducible apply Keeps.ite
    | with_reducible apply Keeps.iteFst
    | with_reducible apply Keeps.iteSnd
    | exact @rfl Nat _
    | exact List.length_set ..
    | intro _ _
    | split
    | dsimp only

theorem dropAsk_keeps {s0 : State} (s : State) (j : JobId) (hu : Keeps s0 s) :
    Keeps s0 (dropAsk s j) := by
  unfold dropAsk
  (try dsimp only)
  repeat first
    | (simp only [keeps_mk]; with_reducible refine Keeps.fold ?_)
    | with_reducible assumption
    | with_reducible exact Keeps.refl _
    | with_reducible apply foldl_keeps
    | with_reducible apply Keeps.ite
    | with_reducible apply Keeps.iteFst
    | with_reducible apply Keeps.iteSnd
    | exact @rfl Nat _
    | exact List.length_set ..
    | intro _ _
    | split
    | dsimp only

theorem finishJob_keeps {s0 : State} (s : State) (x : Job) (out : JobOut) (hu : Keeps s0 s) :
    Keeps s0 (finishJob s x out) := by
  unfold finishJob
  (try dsimp only)
  repeat first
    | (simp only [keeps_mk]; with_reducible refine Keeps.fold ?_)
    | with_reducible assumption
    | with_reducible exact Keeps.refl _
    | with_reducible apply freeUnits_keeps
    | with_reducible apply undoMigration_keeps
    | with_reducible apply dropAsk_keeps
    | with_reducible apply endRaw_keeps
    | with_reducible apply endCardJob_keeps
    | with_reducible apply finishClear_keeps
    | with_reducible apply unreserve_keeps
    | with_reducible apply loseCaches_keeps
    | with_reducible apply cutBlock_keeps
    | with_reducible apply State.setCtx_keeps
    | with_reducible apply State.setJob_keeps
    | with_reducible apply drawClean_keeps
    | with_reducible apply foldl_keeps
    | with_reducible apply Keeps.ite
    | with_reducible apply Keeps.iteFst
    | with_reducible apply Keeps.iteSnd
    | exact @rfl Nat _
    | exact List.length_set ..
    | intro _ _
    | split
    | dsimp only

theorem refuseJob_keeps {s0 : State} (s : State) (x : Job) (b : Bad) (hu : Keeps s0 s) :
    Keeps s0 (refuseJob s x b) := by
  unfold refuseJob
  (try dsimp only)
  repeat first
    | (simp only [keeps_mk]; with_reducible refine Keeps.fold ?_)
    | with_reducible assumption
    | with_reducible exact Keeps.refl _
    | with_reducible apply finishJob_keeps
    | with_reducible apply foldl_keeps
    | with_reducible apply Keeps.ite
    | with_reducible apply Keeps.iteFst
    | with_reducible apply Keeps.iteSnd
    | exact @rfl Nat _
    | exact List.length_set ..
    | intro _ _
    | split
    | dsimp only

theorem cutElapsed_keeps {s0 : State} (s : State) (x : Job) (hu : Keeps s0 s) :
    Keeps s0 (cutElapsed s x).2 := by
  unfold cutElapsed
  (try dsimp only)
  repeat first
    | (simp only [keeps_mk]; with_reducible refine Keeps.fold ?_)
    | with_reducible assumption
    | with_reducible exact Keeps.refl _
    | with_reducible apply drawFree_keeps
    | with_reducible apply foldl_keeps
    | with_reducible apply Keeps.ite
    | with_reducible apply Keeps.iteFst
    | with_reducible apply Keeps.iteSnd
    | exact @rfl Nat _
    | exact List.length_set ..
    | intro _ _
    | split
    | dsimp only

theorem breakWith_keeps {s0 : State} (s : State) (x : Job) (st : BitVec 16) (dt : BitVec 16) (elapsed : BitVec 32) (hu : Keeps s0 s) :
    Keeps s0 (breakWith s x st dt elapsed) := by
  unfold breakWith
  (try dsimp only)
  repeat first
    | (simp only [keeps_mk]; with_reducible refine Keeps.fold ?_)
    | with_reducible assumption
    | with_reducible exact Keeps.refl _
    | with_reducible apply finishJob_keeps
    | with_reducible apply poison_keeps
    | with_reducible apply foldl_keeps
    | with_reducible apply Keeps.ite
    | with_reducible apply Keeps.iteFst
    | with_reducible apply Keeps.iteSnd
    | exact @rfl Nat _
    | exact List.length_set ..
    | intro _ _
    | split
    | dsimp only

theorem breakJob_keeps {s0 : State} (s : State) (x : Job) (st : BitVec 16) (dt : BitVec 16) (hu : Keeps s0 s) :
    Keeps s0 (breakJob s x st dt) := by
  unfold breakJob
  (try dsimp only)
  repeat first
    | (simp only [keeps_mk]; with_reducible refine Keeps.fold ?_)
    | with_reducible assumption
    | with_reducible exact Keeps.refl _
    | with_reducible apply breakWith_keeps
    | with_reducible apply cutElapsed_keeps
    | with_reducible apply foldl_keeps
    | with_reducible apply Keeps.ite
    | with_reducible apply Keeps.iteFst
    | with_reducible apply Keeps.iteSnd
    | exact @rfl Nat _
    | exact List.length_set ..
    | intro _ _
    | split
    | dsimp only

theorem stopUnstarted_keeps {s0 : State} (s : State) (q : BitVec 12) (hu : Keeps s0 s) :
    Keeps s0 (stopUnstarted s q) := by
  unfold stopUnstarted
  (try dsimp only)
  repeat first
    | (simp only [keeps_mk]; with_reducible refine Keeps.fold ?_)
    | with_reducible assumption
    | with_reducible exact Keeps.refl _
    | with_reducible apply breakJob_keeps
    | with_reducible apply foldl_keeps
    | with_reducible apply Keeps.ite
    | with_reducible apply Keeps.iteFst
    | with_reducible apply Keeps.iteSnd
    | exact @rfl Nat _
    | exact List.length_set ..
    | intro _ _
    | split
    | dsimp only

theorem reserveAll_keeps (p : BitVec 8) (l : List NewSlot) (s t : State) (got rs : List (BitVec 13))
    (h : reserveAll p l s got = .inr (t, rs)) : Keeps s t := by
  induction l generalizing s got with
  | nil => cases h; exact Keeps.refl _
  | cons n l ih =>
    unfold reserveAll at h
    split at h
    · cases h
    · split at h
      · cases h
      · exact Keeps.trans (reserveSlot_keeps _ _ _ _ (Keeps.refl _)) (ih _ _ h)

theorem sendLink_own (k : BitVec 2) (kind : Nat) (body : Bytes) (s : State) : Keeps s (sendLink k kind body s) := by
  unfold sendLink
  split
  · exact Keeps.refl s
  · exact Keeps.links (s1 := s) rfl rfl (List.length_set ..) (Keeps.refl s)

theorem sendLink_keeps {s0 : State} (k : BitVec 2) (kind : Nat) (body : Bytes) (s : State) (hu : Keeps s0 s) :
    Keeps s0 (sendLink k kind body s) :=
  Keeps.trans hu (sendLink_own k kind body s)

theorem sealKey_keeps {s0 : State} (k : BitVec 2) (p : BitVec 8) (header : Bytes) (value : Bytes) (s : State) (hu : Keeps s0 s) :
    Keeps s0 (sealKey k p header value s).2 := by
  unfold sealKey
  (try dsimp only)
  repeat first
    | (simp only [keeps_mk]; with_reducible refine Keeps.fold ?_)
    | with_reducible assumption
    | with_reducible exact Keeps.refl _
    | with_reducible apply drawNonce_keeps
    | with_reducible apply foldl_keeps
    | with_reducible apply Keeps.ite
    | with_reducible apply Keeps.iteFst
    | with_reducible apply Keeps.iteSnd
    | exact @rfl Nat _
    | exact List.length_set ..
    | intro _ _
    | split
    | dsimp only

theorem forwardJob_keeps {s0 : State} (s : State) (x : Job) (k : BitVec 2) (hu : Keeps s0 s) :
    Keeps s0 (forwardJob s x k) := by
  unfold forwardJob
  (try dsimp only)
  repeat first
    | (simp only [keeps_mk]; with_reducible refine Keeps.fold ?_)
    | with_reducible assumption
    | with_reducible exact Keeps.refl _
    | with_reducible apply sendLink_keeps
    | with_reducible apply State.setJob_keeps
    | with_reducible apply foldl_keeps
    | with_reducible apply Keeps.ite
    | with_reducible apply Keeps.iteFst
    | with_reducible apply Keeps.iteSnd
    | exact @rfl Nat _
    | exact List.length_set ..
    | intro _ _
    | split
    | dsimp only

theorem sealKeys_keeps {s0 : State} (k : BitVec 2) (p : BitVec 8) (l : List (BitVec 32 × Key)) (s : State) (hu : Keeps s0 s) :
    Keeps s0 (sealKeys k p l s).2 := by
  induction l generalizing s with
  | nil => exact hu
  | cons e l ih => exact ih _ (sealKey_keeps _ _ _ _ _ hu)

theorem spillJob_keeps {s0 : State} (s : State) (x : Job) (k : BitVec 2) (hu : Keeps s0 s) :
    Keeps s0 (spillJob s x k) := by
  unfold spillJob
  (try dsimp only)
  repeat first
    | (simp only [keeps_mk]; with_reducible refine Keeps.fold ?_)
    | with_reducible assumption
    | with_reducible exact Keeps.refl _
    | with_reducible apply sendLink_keeps
    | with_reducible apply State.setJob_keeps
    | with_reducible apply sealKeys_keeps
    | with_reducible apply foldl_keeps
    | with_reducible apply Keeps.ite
    | with_reducible apply Keeps.iteFst
    | with_reducible apply Keeps.iteSnd
    | exact @rfl Nat _
    | exact List.length_set ..
    | intro _ _
    | split
    | dsimp only

theorem elapse_keeps {s0 : State} (s : State) (x : Job) (ps : Option Nat) (o : JobOut) (hu : Keeps s0 s) :
    Keeps s0 (elapse s x ps o).1 := by
  unfold elapse
  (try dsimp only)
  repeat first
    | (simp only [keeps_mk]; with_reducible refine Keeps.fold ?_)
    | with_reducible assumption
    | with_reducible exact Keeps.refl _
    | with_reducible apply drawFree_keeps
    | with_reducible apply foldl_keeps
    | with_reducible apply Keeps.ite
    | with_reducible apply Keeps.iteFst
    | with_reducible apply Keeps.iteSnd
    | exact @rfl Nat _
    | exact List.length_set ..
    | intro _ _
    | split
    | dsimp only

theorem timedOut_keeps {s0 : State} (sp : OpSpec) (s : State) (x : Job) (r : Ran) (hu : Keeps s0 r.state) :
    Keeps s0 (timedOut sp s x r).1 := by
  unfold timedOut
  split
  · exact hu
  · split
    · exact hu
    · exact elapse_keeps _ _ _ _ hu

theorem runJob_own (sp : OpSpec) (s : State) (x : Job) (us : List Unit_) (rs : List (BitVec 13)) (hr : ∀ s x, Keeps s (sp.run s x).state) :
    Keeps s (runJob sp s x us rs) := by
  unfold runJob
  dsimp only
  have k0 : ∀ y : Job, Keeps s (if y.id.src = 0 then
      translated y.pitch y.desc.auxAddr.toNat y.desc.auxLen.toNat
        (if y.desc.inCrate then s else translated y.pitch y.desc.inAddr.toNat y.desc.inLen.toNat s) else s) := fun y => by
    split
    · refine translated_keeps _ _ _ _ ?_
      split
      · exact Keeps.refl s
      · exact translated_keeps _ _ _ _ (Keeps.refl s)
    · exact Keeps.refl s
  refine drawClean_keeps _ ?_
  split
  · split
    · refine State.setJob_keeps _ _ (timedOut_keeps _ _ _ _ (Keeps.trans (foldl_keeps (fun t u => ?_) (State.setJob_keeps _ _ (k0 _))) (hr _ _)))
      exact takeUnit_keeps _ _ _ (Keeps.refl t)
    · refine timedOut_keeps _ _ _ _ (Keeps.trans (foldl_keeps (fun t u => ?_) (State.setJob_keeps _ _ (k0 _))) (hr _ _))
      exact takeUnit_keeps _ _ _ (Keeps.refl t)
  · refine timedOut_keeps _ _ _ _ (Keeps.trans (foldl_keeps (fun t u => ?_) (State.setJob_keeps _ _ (k0 _))) (hr _ _))
    exact takeUnit_keeps _ _ _ (Keeps.refl t)

theorem runJob_keeps {s0 : State} (sp : OpSpec) (s : State) (x : Job) (us : List Unit_) (rs : List (BitVec 13)) (hr : ∀ s x, Keeps s (sp.run s x).state) (hu : Keeps s0 s) :
    Keeps s0 (runJob sp s x us rs) :=
  Keeps.trans hu (runJob_own sp s x us rs hr)

theorem takeDown_keeps {s0 : State} (sp : OpSpec) (s : State) (x : Job) (hr : ∀ s x, Keeps s (sp.run s x).state) (hu : Keeps s0 s) :
    Keeps s0 (takeDown sp s x) := by
  unfold takeDown
  (try dsimp only)
  repeat first
    | (simp only [keeps_mk]; with_reducible refine Keeps.fold ?_)
    | with_reducible assumption
    | with_reducible exact Keeps.refl _
    | with_reducible apply State.setDrbg_keeps
    | with_reducible refine Keeps.trans ?_ (hr _ _)
    | with_reducible apply foldl_keeps
    | with_reducible apply Keeps.ite
    | with_reducible apply Keeps.iteFst
    | with_reducible apply Keeps.iteSnd
    | exact @rfl Nat _
    | exact List.length_set ..
    | intro _ _
    | split
    | dsimp only

theorem awaitDraw_keeps {s0 : State} (sp : OpSpec) (s : State) (y : Job) (d : Draw) (hr : ∀ s x, Keeps s (sp.run s x).state) (hu : Keeps s0 s) :
    Keeps s0 (awaitDraw sp s y d) := by
  unfold awaitDraw
  (try dsimp only)
  repeat first
    | (simp only [keeps_mk]; with_reducible refine Keeps.fold ?_)
    | with_reducible assumption
    | with_reducible exact Keeps.refl _
    | with_reducible apply refuseJob_keeps
    | with_reducible apply takeDown_keeps
    | with_reducible apply State.setJob_keeps
    | with_reducible apply drawQueue_keeps
    | with_reducible refine Keeps.trans ?_ (hr _ _)
    | with_reducible apply foldl_keeps
    | with_reducible apply Keeps.ite
    | with_reducible apply Keeps.iteFst
    | with_reducible apply Keeps.iteSnd
    | exact @rfl Nat _
    | exact List.length_set ..
    | intro _ _
    | split
    | dsimp only

theorem placeJob_own (sp : OpSpec) (s : State) (x : Job) (hr : ∀ s x, Keeps s (sp.run s x).state) : Keeps s (placeJob sp s x) := by
  unfold placeJob
  split
  · exact Keeps.refl s
  split
  · exact refuseJob_keeps _ _ _ (Keeps.refl _)
  dsimp only
  split
  · split
    · exact spillJob_keeps _ _ _ (Keeps.refl _)
    · split
      · split
        · exact awaitDraw_keeps sp s _ _ hr (Keeps.refl s)
        · exact spillJob_keeps _ _ _ (Keeps.refl _)
      · exact awaitDraw_keeps sp s _ _ hr (Keeps.refl s)
      · exact refuseJob_keeps _ _ _ (Keeps.refl _)
  · exact State.setJob_keeps _ _ (Keeps.refl _)
  split
  · exact refuseJob_keeps _ _ _ (Keeps.refl _)
  rename_i t rs h
  have k : Keeps s t := by
    split at h
    · exact reserveAll_keeps _ _ _ _ _ _ h
    · cases h; exact Keeps.refl s
  split
  · exact refuseJob_keeps _ _ _ (Keeps.refl _)
  split
  · split
    · exact awaitDraw_keeps sp s _ _ hr (Keeps.refl s)
    · exact Keeps.trans k (runJob_own sp t _ _ _ hr)
  · exact awaitDraw_keeps sp s _ _ hr (Keeps.refl s)
  · exact refuseJob_keeps _ _ _ (takeDown_keeps sp s _ hr (Keeps.refl s))

theorem placeJob_keeps {s0 : State} (sp : OpSpec) (s : State) (x : Job) (hr : ∀ s x, Keeps s (sp.run s x).state) (hu : Keeps s0 s) :
    Keeps s0 (placeJob sp s x) :=
  Keeps.trans hu (placeJob_own sp s x hr)

theorem lend_keeps {s0 : State} (x : Job) (s : State) (hu : Keeps s0 s) :
    Keeps s0 (lend x s) := by
  unfold lend
  (try dsimp only)
  repeat first
    | (simp only [keeps_mk]; with_reducible refine Keeps.fold ?_)
    | with_reducible assumption
    | with_reducible exact Keeps.refl _
    | with_reducible apply State.setSlot_keeps
    | with_reducible apply foldl_keeps
    | with_reducible apply Keeps.ite
    | with_reducible apply Keeps.iteFst
    | with_reducible apply Keeps.iteSnd
    | exact @rfl Nat _
    | exact List.length_set ..
    | intro _ _
    | split
    | dsimp only

theorem takeBack_keeps {u : State} (x : Job) (s t : State) (h : Keeps u t) : Keeps u (takeBack x s t) := by
  unfold takeBack
  refine foldl_keeps (fun t e => ?_) h
  simp only [keeps_mk]
  exact Keeps.fold (State.setSlot_keeps _ _ _ (Keeps.refl _))

theorem placeWithKey_own (sp : OpSpec) (s : State) (x : Job) (hr : ∀ s x, Keeps s (sp.run s x).state) : Keeps s (placeWithKey sp s x) :=
  takeBack_keeps _ _ _ (Keeps.trans (lend_keeps _ _ (Keeps.refl _)) (placeJob_own _ _ _ hr))

theorem placeWithKey_keeps {s0 : State} (sp : OpSpec) (s : State) (x : Job) (hr : ∀ s x, Keeps s (sp.run s x).state) (hu : Keeps s0 s) :
    Keeps s0 (placeWithKey sp s x) :=
  Keeps.trans hu (placeWithKey_own sp s x hr)

theorem refuseChecked_keeps {s0 : State} (sp : OpSpec) (s : State) (x : Job) (b : Bad) (hu : Keeps s0 s)
    (hf : ∀ s x b, Keeps s (sp.refused s x b)) : Keeps s0 (refuseChecked sp s x b) :=
  refuseJob_keeps _ _ _ (Keeps.trans hu (hf _ _ _))

theorem startJob_keeps {s0 : State} (sp : OpSpec) (j : JobId) (s : State) (hr : ∀ s x, Keeps s (sp.run s x).state) (hu : Keeps s0 s)
    (hf : ∀ s x b, Keeps s (sp.refused s x b) := by intro _ _ _; exact Keeps.refl _) : Keeps s0 (startJob sp j s) := by
  unfold startJob
  split
  · exact hu
  split
  · exact hu
  split
  · exact refuseChecked_keeps _ _ _ _ hu hf
  split
  · exact refuseChecked_keeps _ _ _ _ hu hf
  split
  · exact forwardJob_keeps _ _ _ hu
  · exact placeWithKey_keeps _ _ _ hr (State.setJob_keeps _ _ hu)

theorem ringFails_keeps {s0 : State} (s : State) (n : BitVec 12) (dt : BitVec 16) (hu : Keeps s0 s) :
    Keeps s0 (ringFails s n dt) := by
  unfold ringFails
  (try dsimp only)
  repeat first
    | (simp only [keeps_mk]; with_reducible refine Keeps.fold ?_)
    | with_reducible assumption
    | with_reducible exact Keeps.refl _
    | with_reducible apply State.setQ_keeps
    | with_reducible apply signal_keeps
    | with_reducible apply note_keeps
    | with_reducible apply foldl_keeps
    | with_reducible apply Keeps.ite
    | with_reducible apply Keeps.iteFst
    | with_reducible apply Keeps.iteSnd
    | exact @rfl Nat _
    | exact List.length_set ..
    | intro _ _
    | split
    | dsimp only

theorem enterError_keeps {s0 : State} (s : State) (n : BitVec 12) (dt : BitVec 16) (hu : Keeps s0 s) :
    Keeps s0 (enterError s n dt) := by
  unfold enterError
  (try dsimp only)
  repeat first
    | (simp only [keeps_mk]; with_reducible refine Keeps.fold ?_)
    | with_reducible assumption
    | with_reducible exact Keeps.refl _
    | with_reducible apply State.setQ_keeps
    | with_reducible apply ringFails_keeps
    | with_reducible apply stopUnstarted_keeps
    | with_reducible apply foldl_keeps
    | with_reducible apply Keeps.ite
    | with_reducible apply Keeps.iteFst
    | with_reducible apply Keeps.iteSnd
    | exact @rfl Nat _
    | exact List.length_set ..
    | intro _ _
    | split
    | dsimp only

theorem cplFails_keeps {s0 : State} (s : State) (n : BitVec 12) (hu : Keeps s0 s) :
    Keeps s0 (cplFails s n) := by
  unfold cplFails
  (try dsimp only)
  repeat first
    | (simp only [keeps_mk]; with_reducible refine Keeps.fold ?_)
    | with_reducible assumption
    | with_reducible exact Keeps.refl _
    | with_reducible apply enterError_keeps
    | with_reducible apply ringFails_keeps
    | with_reducible apply foldl_keeps
    | with_reducible apply Keeps.ite
    | with_reducible apply Keeps.iteFst
    | with_reducible apply Keeps.iteSnd
    | exact @rfl Nat _
    | exact List.length_set ..
    | intro _ _
    | split
    | dsimp only

theorem signalRecord_keeps {s0 : State} (s : State) (n : BitVec 12) (x : Job) (status : BitVec 16) (hu : Keeps s0 s) :
    Keeps s0 (signalRecord s n x status) := by
  unfold signalRecord
  (try dsimp only)
  repeat first
    | (simp only [keeps_mk]; with_reducible refine Keeps.fold ?_)
    | with_reducible assumption
    | with_reducible exact Keeps.refl _
    | with_reducible apply msixSend_keeps
    | with_reducible apply State.setQ_keeps
    | with_reducible apply foldl_keeps
    | with_reducible apply Keeps.ite
    | with_reducible apply Keeps.iteFst
    | with_reducible apply Keeps.iteSnd
    | exact @rfl Nat _
    | exact List.length_set ..
    | intro _ _
    | split
    | dsimp only

theorem settleDrain_keeps {s0 : State} (s : State) (n : BitVec 12) (hu : Keeps s0 s) :
    Keeps s0 (settleDrain s n) := by
  unfold settleDrain
  (try dsimp only)
  repeat first
    | (simp only [keeps_mk]; with_reducible refine Keeps.fold ?_)
    | with_reducible assumption
    | with_reducible exact Keeps.refl _
    | with_reducible apply State.setQ_keeps
    | with_reducible apply foldl_keeps
    | with_reducible apply Keeps.ite
    | with_reducible apply Keeps.iteFst
    | with_reducible apply Keeps.iteSnd
    | exact @rfl Nat _
    | exact List.length_set ..
    | intro _ _
    | split
    | dsimp only

theorem writeRecord_keeps {s0 : State} (w : RecordWrite) (s : State) (x : Job) (o : JobOut) (hu : Keeps s0 s) :
    Keeps s0 (writeRecord w s x o) := by
  unfold writeRecord
  (try dsimp only)
  repeat first
    | (simp only [keeps_mk]; with_reducible refine Keeps.fold ?_)
    | with_reducible assumption
    | with_reducible exact Keeps.refl _
    | with_reducible apply State.dropJob_keeps
    | with_reducible apply writeHost_keeps
    | with_reducible apply State.setQ_keeps
    | with_reducible apply signalRecord_keeps
    | with_reducible apply cplFails_keeps
    | with_reducible apply settleDrain_keeps
    | with_reducible apply foldl_keeps
    | with_reducible apply Keeps.ite
    | with_reducible apply Keeps.iteFst
    | with_reducible apply Keeps.iteSnd
    | exact @rfl Nat _
    | exact List.length_set ..
    | intro _ _
    | split
    | dsimp only

theorem pinShelves_keeps {s0 : State} (s : State) (i : BitVec 14) (ts : List Nat) (key : Bytes) (hu : Keeps s0 s) :
    Keeps s0 (pinShelves s i ts key) := by
  unfold pinShelves
  (try dsimp only)
  repeat first
    | (simp only [keeps_mk]; with_reducible refine Keeps.fold ?_)
    | with_reducible assumption
    | with_reducible exact Keeps.refl _
    | with_reducible apply State.setTile_keeps
    | with_reducible apply foldl_keeps
    | with_reducible apply Keeps.ite
    | with_reducible apply Keeps.iteFst
    | with_reducible apply Keeps.iteSnd
    | exact @rfl Nat _
    | exact List.length_set ..
    | intro _ _
    | split
    | dsimp only

theorem flowMsg_keeps {s0 : State} (s : State) (part : BitVec 2) (code : Nat) (home : BitVec 14) (body : Bytes) (hu : Keeps s0 s) :
    Keeps s0 (flowMsg s part code home body) := by
  unfold flowMsg
  (try dsimp only)
  repeat first
    | (simp only [keeps_mk]; with_reducible refine Keeps.fold ?_)
    | with_reducible assumption
    | with_reducible exact Keeps.refl _
    | with_reducible apply sendLink_keeps
    | with_reducible apply foldl_keeps
    | with_reducible apply Keeps.ite
    | with_reducible apply Keeps.iteFst
    | with_reducible apply Keeps.iteSnd
    | exact @rfl Nat _
    | exact List.length_set ..
    | intro _ _
    | split
    | dsimp only

theorem sealFlow_keeps {s0 : State} (part : BitVec 2) (p : BitVec 8) (f : Flow) (s : State) (hu : Keeps s0 s) :
    Keeps s0 (sealFlow part p f s).2 := by
  unfold sealFlow
  (try dsimp only)
  repeat first
    | (simp only [keeps_mk]; with_reducible refine Keeps.fold ?_)
    | with_reducible assumption
    | with_reducible exact Keeps.refl _
    | with_reducible apply sealKey_keeps
    | with_reducible apply foldl_keeps
    | with_reducible apply Keeps.ite
    | with_reducible apply Keeps.iteFst
    | with_reducible apply Keeps.iteSnd
    | exact @rfl Nat _
    | exact List.length_set ..
    | intro _ _
    | split
    | dsimp only

theorem sendFlow_keeps {s0 : State} (code : Nat) (part : BitVec 2) (i : BitVec 14) (s : State) (hu : Keeps s0 s) :
    Keeps s0 (sendFlow code part i s) := by
  unfold sendFlow
  (try dsimp only)
  repeat first
    | (simp only [keeps_mk]; with_reducible refine Keeps.fold ?_)
    | with_reducible assumption
    | with_reducible exact Keeps.refl _
    | with_reducible apply flowMsg_keeps
    | with_reducible apply sealFlow_keeps
    | with_reducible apply foldl_keeps
    | with_reducible apply Keeps.ite
    | with_reducible apply Keeps.iteFst
    | with_reducible apply Keeps.iteSnd
    | exact @rfl Nat _
    | exact List.length_set ..
    | intro _ _
    | split
    | dsimp only

theorem mirrorEntries_keeps {s0 : State} (i : BitVec 14) (s : State) (hu : Keeps s0 s) :
    Keeps s0 (mirrorEntries i s) := by
  unfold mirrorEntries
  (try dsimp only)
  repeat first
    | (simp only [keeps_mk]; with_reducible refine Keeps.fold ?_)
    | with_reducible assumption
    | with_reducible exact Keeps.refl _
    | with_reducible apply sendFlow_keeps
    | with_reducible apply foldl_keeps
    | with_reducible apply Keeps.ite
    | with_reducible apply Keeps.iteFst
    | with_reducible apply Keeps.iteSnd
    | exact @rfl Nat _
    | exact List.length_set ..
    | intro _ _
    | split
    | dsimp only

theorem applyFlowOp_keeps {s0 : State} (i : BitVec 14) (op : FlowOp) (s : State) (hu : Keeps s0 s) :
    Keeps s0 (applyFlowOp i op s) := by
  unfold applyFlowOp
  (try dsimp only)
  repeat first
    | (simp only [keeps_mk]; with_reducible refine Keeps.fold ?_)
    | with_reducible assumption
    | with_reducible exact Keeps.refl _
    | with_reducible apply flowMsg_keeps
    | with_reducible apply State.setCtx_keeps
    | with_reducible apply changeFlow_keeps
    | with_reducible apply mirrorEntries_keeps
    | with_reducible apply foldl_keeps
    | with_reducible apply Keeps.ite
    | with_reducible apply Keeps.iteFst
    | with_reducible apply Keeps.iteSnd
    | exact @rfl Nat _
    | exact List.length_set ..
    | intro _ _
    | split
    | dsimp only

theorem setSigner_keeps {s0 : State} (i : Nat) (v : Option Bytes) (s : State) (hu : Keeps s0 s) :
    Keeps s0 (setSigner i v s) := by
  unfold setSigner
  (try dsimp only)
  repeat first
    | (simp only [keeps_mk]; with_reducible refine Keeps.fold ?_)
    | with_reducible assumption
    | with_reducible exact Keeps.refl _
    | with_reducible apply foldl_keeps
    | with_reducible apply Keeps.ite
    | with_reducible apply Keeps.iteFst
    | with_reducible apply Keeps.iteSnd
    | exact @rfl Nat _
    | exact List.length_set ..
    | intro _ _
    | split
    | dsimp only

theorem importKey_keeps {s0 : State} (s : State) (e : BitVec 32 × Key) (hu : Keeps s0 s) :
    Keeps s0 (importKey s e) := by
  unfold importKey
  (try dsimp only)
  repeat first
    | (simp only [keeps_mk]; with_reducible refine Keeps.fold ?_)
    | with_reducible assumption
    | with_reducible exact Keeps.refl _
    | with_reducible apply putKey_keeps
    | with_reducible apply foldl_keeps
    | with_reducible apply Keeps.ite
    | with_reducible apply Keeps.iteFst
    | with_reducible apply Keeps.iteSnd
    | exact @rfl Nat _
    | exact List.length_set ..
    | intro _ _
    | split
    | dsimp only

theorem importCrate_keeps {s0 : State} (p : BitVec 8) (s : State) (c : Nat × BitVec 8 × Bytes) (hu : Keeps s0 s) :
    Keeps s0 (importCrate p s c) := by
  unfold importCrate
  (try dsimp only)
  repeat first
    | (simp only [keeps_mk]; with_reducible refine Keeps.fold ?_)
    | with_reducible assumption
    | with_reducible exact Keeps.refl _
    | with_reducible apply State.setCrate_keeps
    | with_reducible apply writeCrates_keeps
    | with_reducible apply zeroCrate_keeps
    | with_reducible apply foldl_keeps
    | with_reducible apply Keeps.ite
    | with_reducible apply Keeps.iteFst
    | with_reducible apply Keeps.iteSnd
    | exact @rfl Nat _
    | exact List.length_set ..
    | intro _ _
    | split
    | dsimp only

theorem importCfg_keeps {s0 : State} (s : State) (p : BitVec 8) (v : PitchCfg) (hu : Keeps s0 s) :
    Keeps s0 (importCfg s p v) := by
  unfold importCfg
  (try dsimp only)
  repeat first
    | (simp only [keeps_mk]; with_reducible refine Keeps.fold ?_)
    | with_reducible assumption
    | with_reducible exact Keeps.refl _
    | with_reducible apply State.setPitch_keeps
    | with_reducible apply foldl_keeps
    | with_reducible apply Keeps.ite
    | with_reducible apply Keeps.iteFst
    | with_reducible apply Keeps.iteSnd
    | exact @rfl Nat _
    | exact List.length_set ..
    | intro _ _
    | split
    | dsimp only

theorem importDone_keeps {s0 : State} (s : State) (p : BitVec 8) (id : BitVec 64) (cfg : PitchCfg) (keys : List (BitVec 32 × Key)) (crates : List (Nat × BitVec 8 × Bytes)) (hu : Keeps s0 s) :
    Keeps s0 (importDone s p id cfg keys crates) := by
  unfold importDone
  (try dsimp only)
  repeat first
    | (simp only [keeps_mk]; with_reducible refine Keeps.fold ?_)
    | with_reducible assumption
    | with_reducible exact Keeps.refl _
    | with_reducible apply importCrate_keeps
    | with_reducible apply importKey_keeps
    | with_reducible apply importCfg_keeps
    | with_reducible apply State.setPitch_keeps
    | with_reducible apply signal_keeps
    | with_reducible apply foldl_keeps
    | with_reducible apply Keeps.ite
    | with_reducible apply Keeps.iteFst
    | with_reducible apply Keeps.iteSnd
    | exact @rfl Nat _
    | exact List.length_set ..
    | intro _ _
    | split
    | dsimp only

theorem applyCommit_keeps {s0 : State} (s : State) (c : Commit) (hu : Keeps s0 s) :
    Keeps s0 (applyCommit s c) := by
  unfold applyCommit
  (try dsimp only)
  repeat first
    | (simp only [keeps_mk]; with_reducible refine Keeps.fold ?_)
    | with_reducible assumption
    | with_reducible exact Keeps.refl _
    | with_reducible apply putKey_keeps
    | with_reducible apply dropKey_keeps
    | with_reducible apply State.setCtx_keeps
    | with_reducible apply pinShelves_keeps
    | with_reducible apply bindCaches_keeps
    | with_reducible apply State.setPitch_keeps
    | with_reducible apply destroyPitch_keeps
    | with_reducible apply finishClear_keeps
    | with_reducible apply archiveDone_keeps
    | with_reducible apply markBank_keeps
    | with_reducible apply setSigner_keeps
    | with_reducible apply State.writeSvn_keeps
    | with_reducible apply applyFlowOp_keeps
    | with_reducible apply importDone_keeps
    | with_reducible apply foldl_keeps
    | with_reducible apply Keeps.ite
    | with_reducible apply Keeps.iteFst
    | with_reducible apply Keeps.iteSnd
    | exact @rfl Nat _
    | exact List.length_set ..
    | intro _ _
    | split
    | dsimp only

theorem answerPeer_keeps {s0 : State} (s : State) (x : Job) (o : JobOut) (hu : Keeps s0 s) :
    Keeps s0 (answerPeer s x o) := by
  unfold answerPeer
  (try dsimp only)
  repeat first
    | (simp only [keeps_mk]; with_reducible refine Keeps.fold ?_)
    | with_reducible assumption
    | with_reducible exact Keeps.refl _
    | with_reducible apply sendLink_keeps
    | with_reducible apply foldl_keeps
    | with_reducible apply Keeps.ite
    | with_reducible apply Keeps.iteFst
    | with_reducible apply Keeps.iteSnd
    | exact @rfl Nat _
    | exact List.length_set ..
    | intro _ _
    | split
    | dsimp only

theorem completeJob_keeps {s0 : State} (w : RecordWrite) (s : State) (x : Job) (o : JobOut) (hu : Keeps s0 s) :
    Keeps s0 (completeJob w s x o) := by
  unfold completeJob
  (try dsimp only)
  repeat first
    | (simp only [keeps_mk]; with_reducible refine Keeps.fold ?_)
    | with_reducible assumption
    | with_reducible exact Keeps.refl _
    | with_reducible apply endRaw_keeps
    | with_reducible apply freeUnits_keeps
    | with_reducible apply unreserve_keeps
    | with_reducible apply applyCommit_keeps
    | with_reducible apply poison_keeps
    | with_reducible apply writeRecord_keeps
    | with_reducible apply writeOutput_keeps
    | with_reducible apply answerPeer_keeps
    | with_reducible apply State.dropJob_keeps
    | with_reducible apply completeReturns_keeps
    | with_reducible apply foldl_keeps
    | with_reducible apply Keeps.ite
    | with_reducible apply Keeps.iteFst
    | with_reducible apply Keeps.iteSnd
    | exact @rfl Nat _
    | exact List.length_set ..
    | intro _ _
    | split
    | dsimp only

end Sys2Proof.Machine
end

