-- ==== Sys2Proof/Laws/KeepsLinkOps.lean ====
section
/-! SUPPORT. What the functions of Machine/LinkOps.lean keep (Laws/Keeps.lean). -/
namespace Sys2Proof.Machine

-- One theorem after another: a thread for each that waits would fill the memory.
set_option Elab.async false

theorem State.setLink_own (s : State) (k : BitVec 2) (l : Link) : Keeps s (State.setLink s k l) :=
  Keeps.links (s1 := s) rfl rfl (List.length_set ..) (Keeps.refl s)

theorem State.setLink_keeps {s0 : State} (s : State) (k : BitVec 2) (l : Link) (hu : Keeps s0 s) :
    Keeps s0 (State.setLink s k l) :=
  Keeps.trans hu (State.setLink_own s k l)

theorem linkInt_keeps {s0 : State} (b : BitVec 5) (s : State) (hu : Keeps s0 s) :
    Keeps s0 (linkInt b s) := by
  unfold linkInt
  (try dsimp only)
  repeat first
    | (simp only [keeps_mk]; with_reducible refine Keeps.fold ?_)
    | with_reducible assumption
    | with_reducible exact Keeps.refl _
    | with_reducible apply foldl_keeps
    | with_reducible apply Keeps.ite
    | with_reducible apply Keeps.iteFst
    | with_reducible apply Keeps.iteSnd
    | exact @rfl Nat _
    | exact List.length_set ..
    | intro _ _
    | split
    | dsimp only

theorem lostAt_keeps {s0 : State} (k : BitVec 2) (s : State) (x : Job) (hu : Keeps s0 s) :
    Keeps s0 (lostAt k s x) := by
  unfold lostAt
  (try dsimp only)
  repeat first
    | (simp only [keeps_mk]; with_reducible refine Keeps.fold ?_)
    | with_reducible assumption
    | with_reducible exact Keeps.refl _
    | with_reducible apply refuseJob_keeps
    | with_reducible apply State.setJob_keeps
    | with_reducible apply breakJob_keeps
    | with_reducible apply foldl_keeps
    | with_reducible apply Keeps.ite
    | with_reducible apply Keeps.iteFst
    | with_reducible apply Keeps.iteSnd
    | exact @rfl Nat _
    | exact List.length_set ..
    | intro _ _
    | split
    | dsimp only

theorem takeOver_keeps {s0 : State} (part : BitVec 2) (s : State) (hu : Keeps s0 s) :
    Keeps s0 (takeOver part s) := by
  unfold takeOver
  (try dsimp only)
  repeat first
    | (simp only [keeps_mk]; with_reducible refine Keeps.fold ?_)
    | with_reducible assumption
    | with_reducible exact Keeps.refl _
    | with_reducible apply mapFlows_keeps
    | with_reducible apply linkInt_keeps
    | with_reducible apply foldl_keeps
    | with_reducible apply Keeps.ite
    | with_reducible apply Keeps.iteFst
    | with_reducible apply Keeps.iteSnd
    | exact @rfl Nat _
    | exact List.length_set ..
    | intro _ _
    | split
    | dsimp only

theorem dropLink_keeps {s0 : State} (k : BitVec 2) (st : LinkState) (s : State) (hu : Keeps s0 s) :
    Keeps s0 (dropLink k st s) := by
  unfold dropLink
  (try dsimp only)
  repeat first
    | (simp only [keeps_mk]; with_reducible refine Keeps.fold ?_)
    | with_reducible assumption
    | with_reducible exact Keeps.refl _
    | with_reducible apply State.setLink_keeps
    | with_reducible apply lostAt_keeps
    | with_reducible apply linkInt_keeps
    | with_reducible apply takeOver_keeps
    | with_reducible apply foldl_keeps
    | with_reducible apply Keeps.ite
    | with_reducible apply Keeps.iteFst
    | with_reducible apply Keeps.iteSnd
    | exact @rfl Nat _
    | exact List.length_set ..
    | intro _ _
    | split
    | dsimp only

theorem dropLinks_keeps {s0 : State} (st : LinkState) (s : State) (hu : Keeps s0 s) :
    Keeps s0 (dropLinks st s) := by
  unfold dropLinks
  (try dsimp only)
  repeat first
    | (simp only [keeps_mk]; with_reducible refine Keeps.fold ?_)
    | with_reducible assumption
    | with_reducible exact Keeps.refl _
    | with_reducible apply dropLink_keeps
    | with_reducible apply foldl_keeps
    | with_reducible apply Keeps.ite
    | with_reducible apply Keeps.iteFst
    | with_reducible apply Keeps.iteSnd
    | exact @rfl Nat _
    | exact List.length_set ..
    | intro _ _
    | split
    | dsimp only

end Sys2Proof.Machine
end

