-- ==== Sys2Proof/Laws/KeepsPorter.lean ====
section
/-! SUPPORT. What the functions of Machine/Porter.lean keep (Laws/Keeps.lean). -/
namespace Sys2Proof.Machine

-- One theorem after another: a thread for each that waits would fill the memory.
set_option Elab.async false

theorem flagReject_keeps {s0 : State} (s : State) (hu : Keeps s0 s) :
    Keeps s0 (flagReject s) := by
  unfold flagReject
  (try dsimp only)
  repeat first
    | (simp only [keeps_mk]; with_reducible refine Keeps.fold ?_)
    | with_reducible assumption
    | with_reducible exact Keeps.refl _
    | with_reducible apply foldl_keeps
    | with_reducible apply Keeps.ite
    | with_reducible apply Keeps.iteFst
    | with_reducible apply Keeps.iteSnd
    | exact @rfl Nat _
    | exact List.length_set ..
    | intro _ _
    | split
    | dsimp only

theorem flagByte_keeps {s0 : State} (p : BitVec 8) (n : Nat) (v : Byte) (s : State) (hu : Keeps s0 s) :
    Keeps s0 (flagByte p n v s) := by
  unfold flagByte
  (try dsimp only)
  repeat first
    | (simp only [keeps_mk]; with_reducible refine Keeps.fold ?_)
    | with_reducible assumption
    | with_reducible exact Keeps.refl _
    | with_reducible apply State.setCrate_keeps
    | with_reducible apply completeReturns_keeps
    | with_reducible apply zeroCrate_keeps
    | with_reducible apply flagReject_keeps
    | with_reducible apply foldl_keeps
    | with_reducible apply Keeps.ite
    | with_reducible apply Keeps.iteFst
    | with_reducible apply Keeps.iteSnd
    | exact @rfl Nat _
    | exact List.length_set ..
    | intro _ _
    | split
    | dsimp only

theorem flagBytes_own (p : BitVec 8) (n : Nat) (bs : Bytes) (s : State) : Keeps s (flagBytes p n bs s) := by
  induction bs generalizing n s with
  | nil => exact Keeps.refl s
  | cons v t ih => exact Keeps.trans (Keeps.ite (flagByte_keeps _ _ _ _ (Keeps.refl _)) (Keeps.refl s)) (ih _ _)

theorem flagBytes_keeps {s0 : State} (p : BitVec 8) (z1 : Nat) (z2 : Bytes) (z3 : State) (hu : Keeps s0 z3) :
    Keeps s0 (flagBytes p z1 z2 z3) :=
  Keeps.trans hu (flagBytes_own p z1 z2 z3)

theorem crateByte_keeps {s0 : State} (s : State) (a : Nat) (v : Byte) (hu : Keeps s0 s) :
    Keeps s0 (crateByte s a v) := by
  unfold crateByte
  (try dsimp only)
  repeat first
    | (simp only [keeps_mk]; with_reducible refine Keeps.fold ?_)
    | with_reducible assumption
    | with_reducible exact Keeps.refl _
    | with_reducible apply writeCrates_keeps
    | with_reducible apply foldl_keeps
    | with_reducible apply Keeps.ite
    | with_reducible apply Keeps.iteFst
    | with_reducible apply Keeps.iteSnd
    | exact @rfl Nat _
    | exact List.length_set ..
    | intro _ _
    | split
    | dsimp only

theorem crateBytes_own (a : Nat) (bs : Bytes) (s : State) : Keeps s (crateBytes a bs s) := by
  induction bs generalizing a s with
  | nil => exact Keeps.refl s
  | cons v t ih => exact Keeps.trans (crateByte_keeps _ _ _ (Keeps.refl _)) (ih _ _)

theorem crateBytes_keeps {s0 : State} (z0 : Nat) (z1 : Bytes) (z2 : State) (hu : Keeps s0 z2) :
    Keeps s0 (crateBytes z0 z1 z2) :=
  Keeps.trans hu (crateBytes_own z0 z1 z2)

theorem crateDataWrite_keeps {s0 : State} (off : BitVec 23) (data : Bytes) (s : State) (hu : Keeps s0 s) :
    Keeps s0 (crateDataWrite off data s) := by
  unfold crateDataWrite
  (try dsimp only)
  repeat first
    | (simp only [keeps_mk]; with_reducible refine Keeps.fold ?_)
    | with_reducible assumption
    | with_reducible exact Keeps.refl _
    | with_reducible apply crateBytes_keeps
    | with_reducible apply foldl_keeps
    | with_reducible apply Keeps.ite
    | with_reducible apply Keeps.iteFst
    | with_reducible apply Keeps.iteSnd
    | exact @rfl Nat _
    | exact List.length_set ..
    | intro _ _
    | split
    | dsimp only

theorem crateRefuse_keeps {s0 : State} (s : State) (d : BitVec 16) (hu : Keeps s0 s) :
    Keeps s0 (crateRefuse s d) := by
  unfold crateRefuse
  (try dsimp only)
  repeat first
    | (simp only [keeps_mk]; with_reducible refine Keeps.fold ?_)
    | with_reducible assumption
    | with_reducible exact Keeps.refl _
    | with_reducible apply foldl_keeps
    | with_reducible apply Keeps.ite
    | with_reducible apply Keeps.iteFst
    | with_reducible apply Keeps.iteSnd
    | exact @rfl Nat _
    | exact List.length_set ..
    | intro _ _
    | split
    | dsimp only

theorem crateCommit_keeps {s0 : State} (s : State) (hu : Keeps s0 s) :
    Keeps s0 (crateCommit s) := by
  unfold crateCommit
  (try dsimp only)
  repeat first
    | (simp only [keeps_mk]; with_reducible refine Keeps.fold ?_)
    | with_reducible assumption
    | with_reducible exact Keeps.refl _
    | with_reducible apply crateRefuse_keeps
    | with_reducible apply zeroCrate_keeps
    | with_reducible apply State.setCrate_keeps
    | with_reducible apply foldl_keeps
    | with_reducible apply Keeps.ite
    | with_reducible apply Keeps.iteFst
    | with_reducible apply Keeps.iteSnd
    | exact @rfl Nat _
    | exact List.length_set ..
    | intro _ _
    | split
    | dsimp only

theorem pStart_keeps {s0 : State} (c : BitVec 6) (prog : List PInsn) (job : Option JobId) (s : State) (hu : Keeps s0 s) :
    Keeps s0 (pStart c prog job s) := by
  unfold pStart
  (try dsimp only)
  repeat first
    | (simp only [keeps_mk]; with_reducible refine Keeps.fold ?_)
    | with_reducible assumption
    | with_reducible exact Keeps.refl _
    | with_reducible apply State.setChan_keeps
    | with_reducible apply foldl_keeps
    | with_reducible apply Keeps.ite
    | with_reducible apply Keeps.iteFst
    | with_reducible apply Keeps.iteSnd
    | exact @rfl Nat _
    | exact List.length_set ..
    | intro _ _
    | split
    | dsimp only

theorem setOut_keeps {s0 : State} (o : JobOut) (s : State) (j : JobId) (hu : Keeps s0 s) :
    Keeps s0 (setOut o s j) := by
  unfold setOut
  (try dsimp only)
  repeat first
    | (simp only [keeps_mk]; with_reducible refine Keeps.fold ?_)
    | with_reducible assumption
    | with_reducible exact Keeps.refl _
    | with_reducible apply State.setJob_keeps
    | with_reducible apply foldl_keeps
    | with_reducible apply Keeps.ite
    | with_reducible apply Keeps.iteFst
    | with_reducible apply Keeps.iteSnd
    | exact @rfl Nat _
    | exact List.length_set ..
    | intro _ _
    | split
    | dsimp only

theorem pEnd_keeps {s0 : State} (c : BitVec 6) (r : PRun) (st : BitVec 16) (dt : BitVec 16) (value : BitVec 32) (s : State) (hu : Keeps s0 s) :
    Keeps s0 (pEnd c r st dt value s) := by
  unfold pEnd
  (try dsimp only)
  repeat first
    | (simp only [keeps_mk]; with_reducible refine Keeps.fold ?_)
    | with_reducible assumption
    | with_reducible exact Keeps.refl _
    | with_reducible apply State.setChan_keeps
    | with_reducible apply setOut_keeps
    | with_reducible apply foldl_keeps
    | with_reducible apply Keeps.ite
    | with_reducible apply Keeps.iteFst
    | with_reducible apply Keeps.iteSnd
    | exact @rfl Nat _
    | exact List.length_set ..
    | intro _ _
    | split
    | dsimp only

theorem setRun_keeps {s0 : State} (c : BitVec 6) (r : PRun) (s : State) (hu : Keeps s0 s) :
    Keeps s0 (setRun c r s) := by
  unfold setRun
  (try dsimp only)
  repeat first
    | (simp only [keeps_mk]; with_reducible refine Keeps.fold ?_)
    | with_reducible assumption
    | with_reducible exact Keeps.refl _
    | with_reducible apply State.setChan_keeps
    | with_reducible apply foldl_keeps
    | with_reducible apply Keeps.ite
    | with_reducible apply Keeps.iteFst
    | with_reducible apply Keeps.iteSnd
    | exact @rfl Nat _
    | exact List.length_set ..
    | intro _ _
    | split
    | dsimp only

theorem signalEnd_keeps {s0 : State} (c : BitVec 6) (r : PRun) (write : Bool) (irq : Bool) (value : BitVec 32) (addr : BitVec 64) (a : Access) (s : State) (hu : Keeps s0 s) :
    Keeps s0 (signalEnd c r write irq value addr a s) := by
  unfold signalEnd
  (try dsimp only)
  repeat first
    | (simp only [keeps_mk]; with_reducible refine Keeps.fold ?_)
    | with_reducible assumption
    | with_reducible exact Keeps.refl _
    | with_reducible apply pEnd_keeps
    | with_reducible apply writeHost_keeps
    | with_reducible apply signal_keeps
    | with_reducible apply setRun_keeps
    | with_reducible apply foldl_keeps
    | with_reducible apply Keeps.ite
    | with_reducible apply Keeps.iteFst
    | with_reducible apply Keeps.iteSnd
    | exact @rfl Nat _
    | exact List.length_set ..
    | intro _ _
    | split
    | dsimp only

theorem signalGo_keeps {s0 : State} (c : BitVec 6) (r : PRun) (write : Bool) (irq : Bool) (value : BitVec 32) (addr : BitVec 64) (a : Access) (s : State) (hu : Keeps s0 s) :
    Keeps s0 (signalGo c r write irq value addr a s) := by
  unfold signalGo
  (try dsimp only)
  repeat first
    | (simp only [keeps_mk]; with_reducible refine Keeps.fold ?_)
    | with_reducible assumption
    | with_reducible exact Keeps.refl _
    | with_reducible apply pEnd_keeps
    | with_reducible apply signalEnd_keeps
    | with_reducible apply foldl_keeps
    | with_reducible apply Keeps.ite
    | with_reducible apply Keeps.iteFst
    | with_reducible apply Keeps.iteSnd
    | exact @rfl Nat _
    | exact List.length_set ..
    | intro _ _
    | split
    | dsimp only

theorem requestReturns_keeps {s0 : State} (c : BitVec 6) (r : PRun) (ns : List Nat) (s : State) (hu : Keeps s0 s) :
    Keeps s0 (requestReturns c r ns s) := by
  unfold requestReturns
  (try dsimp only)
  repeat first
    | (simp only [keeps_mk]; with_reducible refine Keeps.fold ?_)
    | with_reducible assumption
    | with_reducible exact Keeps.refl _
    | with_reducible apply setRun_keeps
    | with_reducible apply completeReturns_keeps
    | with_reducible apply State.setCrate_keeps
    | with_reducible apply foldl_keeps
    | with_reducible apply Keeps.ite
    | with_reducible apply Keeps.iteFst
    | with_reducible apply Keeps.iteSnd
    | exact @rfl Nat _
    | exact List.length_set ..
    | intro _ _
    | split
    | dsimp only

theorem moveStart_keeps {s0 : State} (c : BitVec 6) (r : PRun) (sc : Bool) (dc : Bool) (swap : BitVec 2) (len : BitVec 32) (src : BitVec 64) (dst : BitVec 64) (ss : BitVec 32) (ds : BitVec 32) (s : State) (hu : Keeps s0 s) :
    Keeps s0 (moveStart c r sc dc swap len src dst ss ds s) := by
  unfold moveStart
  (try dsimp only)
  repeat first
    | (simp only [keeps_mk]; with_reducible refine Keeps.fold ?_)
    | with_reducible assumption
    | with_reducible exact Keeps.refl _
    | with_reducible apply poison_keeps
    | with_reducible apply setRun_keeps
    | with_reducible apply completeReturns_keeps
    | with_reducible apply pEnd_keeps
    | with_reducible apply foldl_keeps
    | with_reducible apply Keeps.ite
    | with_reducible apply Keeps.iteFst
    | with_reducible apply Keeps.iteSnd
    | exact @rfl Nat _
    | exact List.length_set ..
    | intro _ _
    | split
    | dsimp only

theorem porterInstruction_keeps {s0 : State} (c : BitVec 6) (a : Access) (s : State) (hu : Keeps s0 s) :
    Keeps s0 (porterInstruction c a s) := by
  unfold porterInstruction
  (try dsimp only)
  repeat first
    | (simp only [keeps_mk]; with_reducible refine Keeps.fold ?_)
    | with_reducible assumption
    | with_reducible exact Keeps.refl _
    | with_reducible apply State.setChan_keeps
    | with_reducible apply moveStart_keeps
    | with_reducible apply setRun_keeps
    | with_reducible apply pEnd_keeps
    | with_reducible apply signalGo_keeps
    | with_reducible apply requestReturns_keeps
    | with_reducible apply foldl_keeps
    | with_reducible apply Keeps.ite
    | with_reducible apply Keeps.iteFst
    | with_reducible apply Keeps.iteSnd
    | exact @rfl Nat _
    | exact List.length_set ..
    | intro _ _
    | split
    | dsimp only

theorem moveBreaks_keeps {s0 : State} (m : PMove) (s : State) (hu : Keeps s0 s) :
    Keeps s0 (moveBreaks m s) := by
  unfold moveBreaks
  (try dsimp only)
  repeat first
    | (simp only [keeps_mk]; with_reducible refine Keeps.fold ?_)
    | with_reducible assumption
    | with_reducible exact Keeps.refl _
    | with_reducible apply completeReturns_keeps
    | with_reducible apply poison_keeps
    | with_reducible apply foldl_keeps
    | with_reducible apply Keeps.ite
    | with_reducible apply Keeps.iteFst
    | with_reducible apply Keeps.iteSnd
    | exact @rfl Nat _
    | exact List.length_set ..
    | intro _ _
    | split
    | dsimp only

theorem porterMoveUnit_keeps {s0 : State} (c : BitVec 6) (a : Access) (s : State) (hu : Keeps s0 s) :
    Keeps s0 (porterMoveUnit c a s) := by
  unfold porterMoveUnit
  (try dsimp only)
  repeat first
    | (simp only [keeps_mk]; with_reducible refine Keeps.fold ?_)
    | with_reducible assumption
    | with_reducible exact Keeps.refl _
    | with_reducible apply moveBreaks_keeps
    | with_reducible apply pEnd_keeps
    | with_reducible apply writeCrates_keeps
    | with_reducible apply writeHost_keeps
    | with_reducible apply State.setChan_keeps
    | with_reducible apply setRun_keeps
    | with_reducible apply completeReturns_keeps
    | with_reducible apply foldl_keeps
    | with_reducible apply Keeps.ite
    | with_reducible apply Keeps.iteFst
    | with_reducible apply Keeps.iteSnd
    | exact @rfl Nat _
    | exact List.length_set ..
    | intro _ _
    | split
    | dsimp only

theorem porterWaitPoll_keeps {s0 : State} (c : BitVec 6) (expired : Bool) (a : Access) (s : State) (hu : Keeps s0 s) :
    Keeps s0 (porterWaitPoll c expired a s) := by
  unfold porterWaitPoll
  (try dsimp only)
  repeat first
    | (simp only [keeps_mk]; with_reducible refine Keeps.fold ?_)
    | with_reducible assumption
    | with_reducible exact Keeps.refl _
    | with_reducible apply pEnd_keeps
    | with_reducible apply setRun_keeps
    | with_reducible apply foldl_keeps
    | with_reducible apply Keeps.ite
    | with_reducible apply Keeps.iteFst
    | with_reducible apply Keeps.iteSnd
    | exact @rfl Nat _
    | exact List.length_set ..
    | intro _ _
    | split
    | dsimp only

theorem porterStop_keeps {s0 : State} (c : BitVec 6) (stopper : List JobId) (s : State) (hu : Keeps s0 s) :
    Keeps s0 (porterStop c stopper s) := by
  unfold porterStop
  (try dsimp only)
  repeat first
    | (simp only [keeps_mk]; with_reducible refine Keeps.fold ?_)
    | with_reducible assumption
    | with_reducible exact Keeps.refl _
    | with_reducible apply setRun_keeps
    | with_reducible apply pEnd_keeps
    | with_reducible apply foldl_keeps
    | with_reducible apply Keeps.ite
    | with_reducible apply Keeps.iteFst
    | with_reducible apply Keeps.iteSnd
    | exact @rfl Nat _
    | exact List.length_set ..
    | intro _ _
    | split
    | dsimp only

theorem channelCommit_keeps {s0 : State} (c : BitVec 6) (s : State) (hu : Keeps s0 s) :
    Keeps s0 (channelCommit c s) := by
  unfold channelCommit
  (try dsimp only)
  repeat first
    | (simp only [keeps_mk]; with_reducible refine Keeps.fold ?_)
    | with_reducible assumption
    | with_reducible exact Keeps.refl _
    | with_reducible apply State.setChan_keeps
    | with_reducible apply foldl_keeps
    | with_reducible apply Keeps.ite
    | with_reducible apply Keeps.iteFst
    | with_reducible apply Keeps.iteSnd
    | exact @rfl Nat _
    | exact List.length_set ..
    | intro _ _
    | split
    | dsimp only

theorem channelRefuse_keeps {s0 : State} (c : BitVec 6) (d : BitVec 16) (s : State) (hu : Keeps s0 s) :
    Keeps s0 (channelRefuse c d s) := by
  unfold channelRefuse
  (try dsimp only)
  repeat first
    | (simp only [keeps_mk]; with_reducible refine Keeps.fold ?_)
    | with_reducible assumption
    | with_reducible exact Keeps.refl _
    | with_reducible apply State.setChan_keeps
    | with_reducible apply foldl_keeps
    | with_reducible apply Keeps.ite
    | with_reducible apply Keeps.iteFst
    | with_reducible apply Keeps.iteSnd
    | exact @rfl Nat _
    | exact List.length_set ..
    | intro _ _
    | split
    | dsimp only

theorem pStatic_keeps {s0 : State} (c : BitVec 6) (i : Nat) (d : BitVec 16) (s : State) (hu : Keeps s0 s) :
    Keeps s0 (pStatic c i d s) := by
  unfold pStatic
  (try dsimp only)
  repeat first
    | (simp only [keeps_mk]; with_reducible refine Keeps.fold ?_)
    | with_reducible assumption
    | with_reducible exact Keeps.refl _
    | with_reducible apply State.setChan_keeps
    | with_reducible apply foldl_keeps
    | with_reducible apply Keeps.ite
    | with_reducible apply Keeps.iteFst
    | with_reducible apply Keeps.iteSnd
    | exact @rfl Nat _
    | exact List.length_set ..
    | intro _ _
    | split
    | dsimp only

theorem channelStart_keeps {s0 : State} (c : BitVec 6) (a : Access) (s : State) (hu : Keeps s0 s) :
    Keeps s0 (channelStart c a s) := by
  unfold channelStart
  (try dsimp only)
  repeat first
    | (simp only [keeps_mk]; with_reducible refine Keeps.fold ?_)
    | with_reducible assumption
    | with_reducible exact Keeps.refl _
    | with_reducible apply channelRefuse_keeps
    | with_reducible apply State.setChan_keeps
    | with_reducible apply pStatic_keeps
    | with_reducible apply pStart_keeps
    | with_reducible apply foldl_keeps
    | with_reducible apply Keeps.ite
    | with_reducible apply Keeps.iteFst
    | with_reducible apply Keeps.iteSnd
    | exact @rfl Nat _
    | exact List.length_set ..
    | intro _ _
    | split
    | dsimp only

theorem channelFails_keeps {s0 : State} (c : BitVec 6) (dt : BitVec 16) (s : State) (hu : Keeps s0 s) :
    Keeps s0 (channelFails c dt s) := by
  unfold channelFails
  (try dsimp only)
  repeat first
    | (simp only [keeps_mk]; with_reducible refine Keeps.fold ?_)
    | with_reducible assumption
    | with_reducible exact Keeps.refl _
    | with_reducible apply pEnd_keeps
    | with_reducible apply moveBreaks_keeps
    | with_reducible apply foldl_keeps
    | with_reducible apply Keeps.ite
    | with_reducible apply Keeps.iteFst
    | with_reducible apply Keeps.iteSnd
    | exact @rfl Nat _
    | exact List.length_set ..
    | intro _ _
    | split
    | dsimp only

theorem porterStartSpec_keeps : ∀ s x, Keeps s ((porterStartSpec).run s x).state := by
  intro s x
  unfold porterStartSpec
  (try dsimp only)
  repeat first
    | (simp only [keeps_mk]; with_reducible refine Keeps.fold ?_)
    | with_reducible assumption
    | with_reducible exact Keeps.refl _
    | with_reducible apply pStatic_keeps
    | with_reducible apply pStart_keeps
    | with_reducible apply foldl_keeps
    | with_reducible apply Keeps.ite
    | with_reducible apply Keeps.iteFst
    | with_reducible apply Keeps.iteSnd
    | exact @rfl Nat _
    | exact List.length_set ..
    | intro _ _
    | split
    | dsimp only

theorem porterStopSpec_keeps : ∀ s x, Keeps s ((porterStopSpec).run s x).state := by
  intro s x
  unfold porterStopSpec
  (try dsimp only)
  repeat first
    | (simp only [keeps_mk]; with_reducible refine Keeps.fold ?_)
    | with_reducible assumption
    | with_reducible exact Keeps.refl _
    | with_reducible apply porterStop_keeps
    | with_reducible apply foldl_keeps
    | with_reducible apply Keeps.ite
    | with_reducible apply Keeps.iteFst
    | with_reducible apply Keeps.iteSnd
    | exact @rfl Nat _
    | exact List.length_set ..
    | intro _ _
    | split
    | dsimp only

end Sys2Proof.Machine
end

