-- ==== Sys2Proof/Laws/KeepsReset.lean ====
section
/-! SUPPORT. What the functions of Machine/Reset.lean keep (Laws/Keeps.lean). -/
namespace Sys2Proof.Machine

-- One theorem after another: a thread for each that waits would fill the memory.
set_option Elab.async false

theorem freeContext_keeps {s0 : State} (s : State) (i : BitVec 14) (hu : Keeps s0 s) :
    Keeps s0 (freeContext s i) := by
  unfold freeContext
  (try dsimp only)
  repeat first
    | (simp only [keeps_mk]; with_reducible refine Keeps.fold ?_)
    | with_reducible assumption
    | with_reducible exact Keeps.refl _
    | with_reducible apply unbind_keeps
    | with_reducible apply dropShelves_keeps
    | with_reducible apply State.setCtx_keeps
    | with_reducible apply foldl_keeps
    | with_reducible apply Keeps.ite
    | with_reducible apply Keeps.iteFst
    | with_reducible apply Keeps.iteSnd
    | exact @rfl Nat _
    | exact List.length_set ..
    | intro _ _
    | split
    | dsimp only

theorem staleContext_keeps {s0 : State} (m : Stale) (s : State) (i : BitVec 14) (hu : Keeps s0 s) :
    Keeps s0 (staleContext m s i) := by
  unfold staleContext
  (try dsimp only)
  repeat first
    | (simp only [keeps_mk]; with_reducible refine Keeps.fold ?_)
    | with_reducible assumption
    | with_reducible exact Keeps.refl _
    | with_reducible apply dropShelves_keeps
    | with_reducible apply State.setCtx_keeps
    | with_reducible apply foldl_keeps
    | with_reducible apply Keeps.ite
    | with_reducible apply Keeps.iteFst
    | with_reducible apply Keeps.iteSnd
    | exact @rfl Nat _
    | exact List.length_set ..
    | intro _ _
    | split
    | dsimp only

theorem ageContext_keeps {s0 : State} (s : State) (i : BitVec 14) (hu : Keeps s0 s) :
    Keeps s0 (ageContext s i) := by
  unfold ageContext
  (try dsimp only)
  repeat first
    | (simp only [keeps_mk]; with_reducible refine Keeps.fold ?_)
    | with_reducible assumption
    | with_reducible exact Keeps.refl _
    | with_reducible apply staleContext_keeps
    | with_reducible apply foldl_keeps
    | with_reducible apply Keeps.ite
    | with_reducible apply Keeps.iteFst
    | with_reducible apply Keeps.iteSnd
    | exact @rfl Nat _
    | exact List.length_set ..
    | intro _ _
    | split
    | dsimp only

theorem epochAdvance_keeps {s0 : State} (s : State) (p : BitVec 8) (hu : Keeps s0 s) :
    Keeps s0 (epochAdvance s p) := by
  unfold epochAdvance
  (try dsimp only)
  repeat first
    | (simp only [keeps_mk]; with_reducible refine Keeps.fold ?_)
    | with_reducible assumption
    | with_reducible exact Keeps.refl _
    | with_reducible apply State.setPitch_keeps
    | with_reducible apply ageContext_keeps
    | with_reducible apply foldl_keeps
    | with_reducible apply Keeps.ite
    | with_reducible apply Keeps.iteFst
    | with_reducible apply Keeps.iteSnd
    | exact @rfl Nat _
    | exact List.length_set ..
    | intro _ _
    | split
    | dsimp only

theorem dropVolatile_keeps {s0 : State} (s : State) (n : BitVec 13) (hu : Keeps s0 s) :
    Keeps s0 (dropVolatile s n) := by
  unfold dropVolatile
  (try dsimp only)
  repeat first
    | (simp only [keeps_mk]; with_reducible refine Keeps.fold ?_)
    | with_reducible assumption
    | with_reducible exact Keeps.refl _
    | with_reducible apply freeSlot_keeps
    | with_reducible apply foldl_keeps
    | with_reducible apply Keeps.ite
    | with_reducible apply Keeps.iteFst
    | with_reducible apply Keeps.iteSnd
    | exact @rfl Nat _
    | exact List.length_set ..
    | intro _ _
    | split
    | dsimp only

theorem haltChannel_keeps {s0 : State} (s : State) (c : BitVec 6) (hu : Keeps s0 s) :
    Keeps s0 (haltChannel s c) := by
  unfold haltChannel
  (try dsimp only)
  repeat first
    | (simp only [keeps_mk]; with_reducible refine Keeps.fold ?_)
    | with_reducible assumption
    | with_reducible exact Keeps.refl _
    | with_reducible apply setRun_keeps
    | with_reducible apply pEnd_keeps
    | with_reducible apply moveBreaks_keeps
    | with_reducible apply foldl_keeps
    | with_reducible apply Keeps.ite
    | with_reducible apply Keeps.iteFst
    | with_reducible apply Keeps.iteSnd
    | exact @rfl Nat _
    | exact List.length_set ..
    | intro _ _
    | split
    | dsimp only

theorem resetJob_keeps {s0 : State} (s : State) (x : Job) (hu : Keeps s0 s) :
    Keeps s0 (resetJob s x) := by
  unfold resetJob
  (try dsimp only)
  repeat first
    | (simp only [keeps_mk]; with_reducible refine Keeps.fold ?_)
    | with_reducible assumption
    | with_reducible exact Keeps.refl _
    | with_reducible apply breakJob_keeps
    | with_reducible apply askAbort_keeps
    | with_reducible apply foldl_keeps
    | with_reducible apply Keeps.ite
    | with_reducible apply Keeps.iteFst
    | with_reducible apply Keeps.iteSnd
    | exact @rfl Nat _
    | exact List.length_set ..
    | intro _ _
    | split
    | dsimp only

theorem beginReset_keeps {s0 : State} (p : BitVec 8) (release : Bool) (cause : ResetCause) (s : State) (hu : Keeps s0 s) :
    Keeps s0 (beginReset p release cause s) := by
  unfold beginReset
  (try dsimp only)
  repeat first
    | (simp only [keeps_mk]; with_reducible refine Keeps.fold ?_)
    | with_reducible assumption
    | with_reducible exact Keeps.refl _
    | with_reducible apply State.setPitch_keeps
    | with_reducible apply endSession_keeps
    | with_reducible apply haltChannel_keeps
    | with_reducible apply resetJob_keeps
    | with_reducible apply foldl_keeps
    | with_reducible apply Keeps.ite
    | with_reducible apply Keeps.iteFst
    | with_reducible apply Keeps.iteSnd
    | exact @rfl Nat _
    | exact List.length_set ..
    | intro _ _
    | split
    | dsimp only

theorem askReset_keeps {s0 : State} (p : BitVec 8) (release : Bool) (cause : ResetCause) (s : State) (hu : Keeps s0 s) :
    Keeps s0 (askReset p release cause s) := by
  unfold askReset
  (try dsimp only)
  repeat first
    | (simp only [keeps_mk]; with_reducible refine Keeps.fold ?_)
    | with_reducible assumption
    | with_reducible exact Keeps.refl _
    | with_reducible apply State.setPitch_keeps
    | with_reducible apply beginReset_keeps
    | with_reducible apply foldl_keeps
    | with_reducible apply Keeps.ite
    | with_reducible apply Keeps.iteFst
    | with_reducible apply Keeps.iteSnd
    | exact @rfl Nat _
    | exact List.length_set ..
    | intro _ _
    | split
    | dsimp only

theorem dueResets_keeps {s0 : State} (s : State) (hu : Keeps s0 s) :
    Keeps s0 (dueResets s) := by
  unfold dueResets
  (try dsimp only)
  repeat first
    | (simp only [keeps_mk]; with_reducible refine Keeps.fold ?_)
    | with_reducible assumption
    | with_reducible exact Keeps.refl _
    | with_reducible apply beginReset_keeps
    | with_reducible apply foldl_keeps
    | with_reducible apply Keeps.ite
    | with_reducible apply Keeps.iteFst
    | with_reducible apply Keeps.iteSnd
    | exact @rfl Nat _
    | exact List.length_set ..
    | intro _ _
    | split
    | dsimp only

theorem pitchEvent_keeps {s0 : State} (p : BitVec 8) (migrated : Bool) (resetDone : Bool) (faultReset : Bool) (s : State) (hu : Keeps s0 s) :
    Keeps s0 (pitchEvent p migrated resetDone faultReset s) := by
  unfold pitchEvent
  (try dsimp only)
  repeat first
    | (simp only [keeps_mk]; with_reducible refine Keeps.fold ?_)
    | with_reducible assumption
    | with_reducible exact Keeps.refl _
    | with_reducible apply State.setPitch_keeps
    | with_reducible apply signal_keeps
    | with_reducible apply foldl_keeps
    | with_reducible apply Keeps.ite
    | with_reducible apply Keeps.iteFst
    | with_reducible apply Keeps.iteSnd
    | exact @rfl Nat _
    | exact List.length_set ..
    | intro _ _
    | split
    | dsimp only

theorem endJobs_own (w : RecordWrite) (xs : List Job) (s : State) :
    Keeps s (xs.foldl (fun s x => match x.out with
      | some o => completeJob w s x o
      | none => s) s) := by
  refine foldl_keeps (fun s x => ?_) (Keeps.refl _)
  split
  · exact (completeJob_keeps _ _ _ _ (Keeps.refl _))
  · exact Keeps.refl s

theorem endReset_own (p : BitVec 8) (w : RecordWrite) (s : State) : Keeps s (endReset p w s) := by
  unfold endReset
  refine Keeps.ite (Keeps.refl s) ?_
  extract_lets a b c x d e f y fault g h
  have ka : Keeps s a := endJobs_own _ _ _
  have kb : Keeps s b := Keeps.upd (s1 := a) rfl rfl ka
  have kc : Keeps s c := Keeps.trans kb (foldl_keeps (fun _ _ => haltChannel_keeps _ _ (Keeps.refl _)) (poison_keeps _ _ (Keeps.refl _)))
  have kd : Keeps s d := Keeps.trans kc
    (Keeps.ite (foldl_keeps (fun _ _ => (freeContext_keeps _ _ (Keeps.refl _))) (Keeps.refl _)) (epochAdvance_keeps _ _ (Keeps.refl _)))
  have ke : Keeps s e := Keeps.trans kd
    (Keeps.ite (Keeps.refl _) (foldl_keeps (fun _ _ => (dropVolatile_keeps _ _ (Keeps.refl _))) (Keeps.refl _)))
  have kf : Keeps s f := Keeps.trans ke (drbgRestart_keeps _ _ (Keeps.refl _))
  have kg : Keeps s g := Keeps.trans kf (State.setPitch_keeps _ _ _ (Keeps.refl _))
  exact Keeps.trans (Keeps.trans kg (pitchEvent_keeps _ _ _ _ _ (Keeps.refl _))) (note_keeps _ _ _ _ (Keeps.refl _))

theorem endReset_keeps {s0 : State} (p : BitVec 8) (w : RecordWrite) (s : State) (hu : Keeps s0 s) :
    Keeps s0 (endReset p w s) :=
  Keeps.trans hu (endReset_own p w s)

end Sys2Proof.Machine
end

