-- ==== Sys2Proof/Laws/KeepsAlarm.lean ====
section
/-! SUPPORT. What the functions of Machine/Alarm.lean keep (Laws/Keeps.lean). -/
namespace Sys2Proof.Machine

-- One theorem after another: a thread for each that waits would fill the memory.
set_option Elab.async false

theorem State.setSource_keeps {s0 : State} (s : State) (i : AlarmSource) (x : Source) (hu : Keeps s0 s) :
    Keeps s0 (State.setSource s i x) := by
  unfold State.setSource
  (try dsimp only)
  repeat first
    | (simp only [keeps_mk]; with_reducible refine Keeps.fold ?_)
    | with_reducible assumption
    | with_reducible exact Keeps.refl _
    | with_reducible apply foldl_keeps
    | with_reducible apply Keeps.ite
    | with_reducible apply Keeps.iteFst
    | with_reducible apply Keeps.iteSnd
    | exact @rfl Nat _
    | exact List.length_set ..
    | intro _ _
    | split
    | dsimp only

theorem alarmInt_keeps {s0 : State} (b : BitVec 5) (s : State) (hu : Keeps s0 s) :
    Keeps s0 (alarmInt b s) := by
  unfold alarmInt
  (try dsimp only)
  repeat first
    | (simp only [keeps_mk]; with_reducible refine Keeps.fold ?_)
    | with_reducible assumption
    | with_reducible exact Keeps.refl _
    | with_reducible apply foldl_keeps
    | with_reducible apply Keeps.ite
    | with_reducible apply Keeps.iteFst
    | with_reducible apply Keeps.iteSnd
    | exact @rfl Nat _
    | exact List.length_set ..
    | intro _ _
    | split
    | dsimp only

theorem tripEvidence_keeps {s0 : State} (i : AlarmSource) (v : TripReading) (r : BitVec 2) (combined : Bool) (s : State) (hu : Keeps s0 s) :
    Keeps s0 (tripEvidence i v r combined s) := by
  unfold tripEvidence
  (try dsimp only)
  repeat first
    | (simp only [keeps_mk]; with_reducible refine Keeps.fold ?_)
    | with_reducible assumption
    | with_reducible exact Keeps.refl _
    | with_reducible apply State.setSource_keeps
    | with_reducible apply evidence_keeps
    | with_reducible apply foldl_keeps
    | with_reducible apply Keeps.ite
    | with_reducible apply Keeps.iteFst
    | with_reducible apply Keeps.iteSnd
    | exact @rfl Nat _
    | exact List.length_set ..
    | intro _ _
    | split
    | dsimp only

theorem faultJob_keeps {s0 : State} (detail : BitVec 16) (avoid : List Unit_) (s : State) (x : Job) (hu : Keeps s0 s) :
    Keeps s0 (faultJob detail avoid s x) := by
  unfold faultJob
  (try dsimp only)
  repeat first
    | (simp only [keeps_mk]; with_reducible refine Keeps.fold ?_)
    | with_reducible assumption
    | with_reducible exact Keeps.refl _
    | with_reducible apply breakJob_keeps
    | with_reducible apply endRaw_keeps
    | with_reducible apply leaveUnit_keeps
    | with_reducible apply askAbort_keeps
    | with_reducible apply State.setJob_keeps
    | with_reducible apply foldl_keeps
    | with_reducible apply Keeps.ite
    | with_reducible apply Keeps.iteFst
    | with_reducible apply Keeps.iteSnd
    | exact @rfl Nat _
    | exact List.length_set ..
    | intro _ _
    | split
    | dsimp only

theorem retrainSerdes_own (s : State) : Keeps s (retrainSerdes s) := by
  unfold retrainSerdes
  exact Keeps.ports (s1 := dropLinks .training s) rfl rfl (List.length_map ..) (dropLinks_keeps _ _ (Keeps.refl _))

theorem retrainSerdes_keeps {s0 : State} (s : State) (hu : Keeps s0 s) :
    Keeps s0 (retrainSerdes s) :=
  Keeps.trans hu (retrainSerdes_own s)

theorem endExchanges_keeps {s0 : State} (s : State) (hu : Keeps s0 s) :
    Keeps s0 (endExchanges s) := by
  unfold endExchanges
  (try dsimp only)
  repeat first
    | (simp only [keeps_mk]; with_reducible refine Keeps.fold ?_)
    | with_reducible assumption
    | with_reducible exact Keeps.refl _
    | with_reducible apply keeperAbort_keeps
    | with_reducible apply breakJob_keeps
    | with_reducible apply foldl_keeps
    | with_reducible apply Keeps.ite
    | with_reducible apply Keeps.iteFst
    | with_reducible apply Keeps.iteSnd
    | exact @rfl Nat _
    | exact List.length_set ..
    | intro _ _
    | split
    | dsimp only

theorem stopCore_keeps {s0 : State} (s : State) (hu : Keeps s0 s) :
    Keeps s0 (stopCore s) := by
  unfold stopCore
  (try dsimp only)
  repeat first
    | (simp only [keeps_mk]; with_reducible refine Keeps.fold ?_)
    | with_reducible assumption
    | with_reducible exact Keeps.refl _
    | with_reducible apply faultJob_keeps
    | with_reducible apply keeperAgain_keeps
    | with_reducible apply foldl_keeps
    | with_reducible apply Keeps.ite
    | with_reducible apply Keeps.iteFst
    | with_reducible apply Keeps.iteSnd
    | exact @rfl Nat _
    | exact List.length_set ..
    | intro _ _
    | split
    | dsimp only

theorem haltEffect_keeps {s0 : State} (i : AlarmSource) (s : State) (hu : Keeps s0 s) :
    Keeps s0 (haltEffect i s) := by
  unfold haltEffect
  (try dsimp only)
  repeat first
    | (simp only [keeps_mk]; with_reducible refine Keeps.fold ?_)
    | with_reducible assumption
    | with_reducible exact Keeps.refl _
    | with_reducible apply stopCore_keeps
    | with_reducible apply endExchanges_keeps
    | with_reducible apply retrainSerdes_keeps
    | with_reducible apply cutRecord_keeps
    | with_reducible apply foldl_keeps
    | with_reducible apply Keeps.ite
    | with_reducible apply Keeps.iteFst
    | with_reducible apply Keeps.iteSnd
    | exact @rfl Nat _
    | exact List.length_set ..
    | intro _ _
    | split
    | dsimp only

theorem lockJob_keeps {s0 : State} (s : State) (x : Job) (hu : Keeps s0 s) :
    Keeps s0 (lockJob s x) := by
  unfold lockJob
  (try dsimp only)
  repeat first
    | (simp only [keeps_mk]; with_reducible refine Keeps.fold ?_)
    | with_reducible assumption
    | with_reducible exact Keeps.refl _
    | with_reducible apply askAbort_keeps
    | with_reducible apply breakJob_keeps
    | with_reducible apply foldl_keeps
    | with_reducible apply Keeps.ite
    | with_reducible apply Keeps.iteFst
    | with_reducible apply Keeps.iteSnd
    | exact @rfl Nat _
    | exact List.length_set ..
    | intro _ _
    | split
    | dsimp only

theorem judgeJob_keeps {s0 : State} (s : State) (x : Job) (hu : Keeps s0 s) :
    Keeps s0 (judgeJob s x) := by
  unfold judgeJob
  (try dsimp only)
  repeat first
    | (simp only [keeps_mk]; with_reducible refine Keeps.fold ?_)
    | with_reducible assumption
    | with_reducible exact Keeps.refl _
    | with_reducible apply refuseJob_keeps
    | with_reducible apply foldl_keeps
    | with_reducible apply Keeps.ite
    | with_reducible apply Keeps.iteFst
    | with_reducible apply Keeps.iteSnd
    | exact @rfl Nat _
    | exact List.length_set ..
    | intro _ _
    | split
    | dsimp only

theorem haltStarted_keeps {s0 : State} (s : State) (hu : Keeps s0 s) :
    Keeps s0 (haltStarted s) := by
  unfold haltStarted
  (try dsimp only)
  repeat first
    | (simp only [keeps_mk]; with_reducible refine Keeps.fold ?_)
    | with_reducible assumption
    | with_reducible exact Keeps.refl _
    | with_reducible apply haltChannel_keeps
    | with_reducible apply foldl_keeps
    | with_reducible apply Keeps.ite
    | with_reducible apply Keeps.iteFst
    | with_reducible apply Keeps.iteSnd
    | exact @rfl Nat _
    | exact List.length_set ..
    | intro _ _
    | split
    | dsimp only

theorem lockNow_keeps {s0 : State} (code : BitVec 16) (s : State) (hu : Keeps s0 s) :
    Keeps s0 (lockNow code s) := by
  unfold lockNow
  (try dsimp only)
  repeat first
    | (simp only [keeps_mk]; with_reducible refine Keeps.fold ?_)
    | with_reducible assumption
    | with_reducible exact Keeps.refl _
    | with_reducible apply alarmInt_keeps
    | with_reducible apply setPins_keeps
    | with_reducible apply writeFile_keeps
    | with_reducible apply haltStarted_keeps
    | with_reducible apply lockJob_keeps
    | with_reducible apply judgeJob_keeps
    | with_reducible apply foldl_keeps
    | with_reducible apply Keeps.ite
    | with_reducible apply Keeps.iteFst
    | with_reducible apply Keeps.iteSnd
    | exact @rfl Nat _
    | exact List.length_set ..
    | intro _ _
    | split
    | dsimp only

theorem zeroRoot_keeps {s0 : State} (s : State) (hu : Keeps s0 s) :
    Keeps s0 (zeroRoot s) := by
  unfold zeroRoot
  (try dsimp only)
  repeat first
    | (simp only [keeps_mk]; with_reducible refine Keeps.fold ?_)
    | with_reducible assumption
    | with_reducible exact Keeps.refl _
    | with_reducible apply writeFile_keeps
    | with_reducible apply foldl_keeps
    | with_reducible apply Keeps.ite
    | with_reducible apply Keeps.iteFst
    | with_reducible apply Keeps.iteSnd
    | exact @rfl Nat _
    | exact List.length_set ..
    | intro _ _
    | split
    | dsimp only

theorem destroyLine_keeps {s0 : State} (s : State) (hu : Keeps s0 s) :
    Keeps s0 (destroyLine s) := by
  unfold destroyLine
  (try dsimp only)
  repeat first
    | (simp only [keeps_mk]; with_reducible refine Keeps.fold ?_)
    | with_reducible assumption
    | with_reducible exact Keeps.refl _
    | with_reducible apply zeroRoot_keeps
    | with_reducible apply dropLinks_keeps
    | with_reducible apply foldl_keeps
    | with_reducible apply Keeps.ite
    | with_reducible apply Keeps.iteFst
    | with_reducible apply Keeps.iteSnd
    | exact @rfl Nat _
    | exact List.length_set ..
    | intro _ _
    | split
    | dsimp only

theorem actHigh_keeps {s0 : State} (code : BitVec 16) (r : BitVec 2) (s : State) (hu : Keeps s0 s) :
    Keeps s0 (actHigh code r s) := by
  unfold actHigh
  (try dsimp only)
  repeat first
    | (simp only [keeps_mk]; with_reducible refine Keeps.fold ?_)
    | with_reducible assumption
    | with_reducible exact Keeps.refl _
    | with_reducible apply lockNow_keeps
    | with_reducible apply destroyLine_keeps
    | with_reducible apply foldl_keeps
    | with_reducible apply Keeps.ite
    | with_reducible apply Keeps.iteFst
    | with_reducible apply Keeps.iteSnd
    | exact @rfl Nat _
    | exact List.length_set ..
    | intro _ _
    | split
    | dsimp only

theorem leaveWindow_keeps {s0 : State} (i : AlarmSource) (v : TripReading) (s : State) (hu : Keeps s0 s) :
    Keeps s0 (leaveWindow i v s) := by
  unfold leaveWindow
  (try dsimp only)
  repeat first
    | (simp only [keeps_mk]; with_reducible refine Keeps.fold ?_)
    | with_reducible assumption
    | with_reducible exact Keeps.refl _
    | with_reducible apply foldl_keeps
    | with_reducible apply Keeps.ite
    | with_reducible apply Keeps.iteFst
    | with_reducible apply Keeps.iteSnd
    | exact @rfl Nat _
    | exact List.length_set ..
    | intro _ _
    | split
    | dsimp only

theorem slotBad_keeps {s0 : State} (n : BitVec 13) (detail : BitVec 16) (s : State) (hu : Keeps s0 s) :
    Keeps s0 (slotBad n detail s) := by
  unfold slotBad
  (try dsimp only)
  repeat first
    | (simp only [keeps_mk]; with_reducible refine Keeps.fold ?_)
    | with_reducible assumption
    | with_reducible exact Keeps.refl _
    | with_reducible apply State.setSlot_keeps
    | with_reducible apply note_keeps
    | with_reducible apply foldl_keeps
    | with_reducible apply Keeps.ite
    | with_reducible apply Keeps.iteFst
    | with_reducible apply Keeps.iteSnd
    | exact @rfl Nat _
    | exact List.length_set ..
    | intro _ _
    | split
    | dsimp only

theorem tagFails_keeps {s0 : State} (n : BitVec 13) (s : State) (hu : Keeps s0 s) :
    Keeps s0 (tagFails n s) := by
  unfold tagFails
  (try dsimp only)
  repeat first
    | (simp only [keeps_mk]; with_reducible refine Keeps.fold ?_)
    | with_reducible assumption
    | with_reducible exact Keeps.refl _
    | with_reducible apply breakWith_keeps
    | with_reducible apply slotBad_keeps
    | with_reducible apply foldl_keeps
    | with_reducible apply Keeps.ite
    | with_reducible apply Keeps.iteFst
    | with_reducible apply Keeps.iteSnd
    | exact @rfl Nat _
    | exact List.length_set ..
    | intro _ _
    | split
    | dsimp only

theorem tamperInput_keeps {s0 : State} (i : AlarmSource) (on : Bool) (s : State) (hu : Keeps s0 s) :
    Keeps s0 (tamperInput i on s) := by
  unfold tamperInput
  (try dsimp only)
  repeat first
    | (simp only [keeps_mk]; with_reducible refine Keeps.fold ?_)
    | with_reducible assumption
    | with_reducible exact Keeps.refl _
    | with_reducible apply foldl_keeps
    | with_reducible apply Keeps.ite
    | with_reducible apply Keeps.iteFst
    | with_reducible apply Keeps.iteSnd
    | exact @rfl Nat _
    | exact List.length_set ..
    | intro _ _
    | split
    | dsimp only

theorem joinDecision_keeps {s0 : State} (i : AlarmSource) (v : TripReading) (r : BitVec 2) (s : State) (hu : Keeps s0 s) :
    Keeps s0 (joinDecision i v r s) := by
  unfold joinDecision
  (try dsimp only)
  repeat first
    | (simp only [keeps_mk]; with_reducible refine Keeps.fold ?_)
    | with_reducible assumption
    | with_reducible exact Keeps.refl _
    | with_reducible apply foldl_keeps
    | with_reducible apply Keeps.ite
    | with_reducible apply Keeps.iteFst
    | with_reducible apply Keeps.iteSnd
    | exact @rfl Nat _
    | exact List.length_set ..
    | intro _ _
    | split
    | dsimp only

theorem trip_keeps {s0 : State} (i : AlarmSource) (reported : TripReading) (s : State) (hu : Keeps s0 s) :
    Keeps s0 (trip i reported s) := by
  unfold trip
  (try dsimp only)
  repeat first
    | (simp only [keeps_mk]; with_reducible refine Keeps.fold ?_)
    | with_reducible assumption
    | with_reducible exact Keeps.refl _
    | with_reducible apply State.setSource_keeps
    | with_reducible apply alarmInt_keeps
    | with_reducible apply leaveWindow_keeps
    | with_reducible apply tamperInput_keeps
    | with_reducible apply note_keeps
    | with_reducible apply tagFails_keeps
    | with_reducible apply joinDecision_keeps
    | with_reducible apply setPins_keeps
    | with_reducible apply tripEvidence_keeps
    | with_reducible apply haltEffect_keeps
    | with_reducible apply foldl_keeps
    | with_reducible apply Keeps.ite
    | with_reducible apply Keeps.iteFst
    | with_reducible apply Keeps.iteSnd
    | exact @rfl Nat _
    | exact List.length_set ..
    | intro _ _
    | split
    | dsimp only

theorem raiseDecision_keeps {s0 : State} (s : State) (hu : Keeps s0 s) :
    Keeps s0 (raiseDecision s) := by
  unfold raiseDecision
  (try dsimp only)
  repeat first
    | (simp only [keeps_mk]; with_reducible refine Keeps.fold ?_)
    | with_reducible assumption
    | with_reducible exact Keeps.refl _
    | with_reducible apply State.setSource_keeps
    | with_reducible apply alarmInt_keeps
    | with_reducible apply note_keeps
    | with_reducible apply tripEvidence_keeps
    | with_reducible apply lockNow_keeps
    | with_reducible apply foldl_keeps
    | with_reducible apply Keeps.ite
    | with_reducible apply Keeps.iteFst
    | with_reducible apply Keeps.iteSnd
    | exact @rfl Nat _
    | exact List.length_set ..
    | intro _ _
    | split
    | dsimp only

theorem decisionActs_keeps {s0 : State} (d : Decision) (s : State) (hu : Keeps s0 s) :
    Keeps s0 (decisionActs d s) := by
  unfold decisionActs
  (try dsimp only)
  repeat first
    | (simp only [keeps_mk]; with_reducible refine Keeps.fold ?_)
    | with_reducible assumption
    | with_reducible exact Keeps.refl _
    | with_reducible apply actHigh_keeps
    | with_reducible apply haltEffect_keeps
    | with_reducible apply State.setSource_keeps
    | with_reducible apply tripEvidence_keeps
    | with_reducible apply foldl_keeps
    | with_reducible apply Keeps.ite
    | with_reducible apply Keeps.iteFst
    | with_reducible apply Keeps.iteSnd
    | exact @rfl Nat _
    | exact List.length_set ..
    | intro _ _
    | split
    | dsimp only

theorem decideAlarm_own (agree : Bool) (s : State) : Keeps s (decideAlarm agree s) := by
  unfold decideAlarm
  split
  · exact Keeps.refl s
  · extract_lets _ a b
    have ka : Keeps s a := Keeps.upd (s1 := s) rfl rfl (Keeps.refl s)
    refine Keeps.ite (Keeps.trans ka (decisionActs_keeps _ _ (Keeps.refl _))) ?_
    exact Keeps.trans (Keeps.trans ka (foldl_keeps (fun _ _ => (tripEvidence_keeps _ _ _ _ _ (Keeps.refl _))) (Keeps.refl _))) (raiseDecision_keeps _ (Keeps.refl _))

theorem decideAlarm_keeps {s0 : State} (agree : Bool) (s : State) (hu : Keeps s0 s) :
    Keeps s0 (decideAlarm agree s) :=
  Keeps.trans hu (decideAlarm_own agree s)

theorem sourceClear_keeps {s0 : State} (i : AlarmSource) (s : State) (hu : Keeps s0 s) :
    Keeps s0 (sourceClear i s) := by
  unfold sourceClear
  (try dsimp only)
  repeat first
    | (simp only [keeps_mk]; with_reducible refine Keeps.fold ?_)
    | with_reducible assumption
    | with_reducible exact Keeps.refl _
    | with_reducible apply tamperInput_keeps
    | with_reducible apply State.setSource_keeps
    | with_reducible apply foldl_keeps
    | with_reducible apply Keeps.ite
    | with_reducible apply Keeps.iteFst
    | with_reducible apply Keeps.iteSnd
    | exact @rfl Nat _
    | exact List.length_set ..
    | intro _ _
    | split
    | dsimp only

theorem windowReturn_keeps {s0 : State} (m : Monitor) (s : State) (hu : Keeps s0 s) :
    Keeps s0 (windowReturn m s) := by
  unfold windowReturn
  (try dsimp only)
  repeat first
    | (simp only [keeps_mk]; with_reducible refine Keeps.fold ?_)
    | with_reducible assumption
    | with_reducible exact Keeps.refl _
    | with_reducible apply drainEvidence_keeps
    | with_reducible apply foldl_keeps
    | with_reducible apply Keeps.ite
    | with_reducible apply Keeps.iteFst
    | with_reducible apply Keeps.iteSnd
    | exact @rfl Nat _
    | exact List.length_set ..
    | intro _ _
    | split
    | dsimp only

theorem tempSample_keeps {s0 : State} (t0 : BitVec 12) (t1 : BitVec 12) (t2 : BitVec 12) (t3 : BitVec 12) (s : State) (hu : Keeps s0 s) :
    Keeps s0 (tempSample t0 t1 t2 t3 s) := by
  unfold tempSample
  (try dsimp only)
  repeat first
    | (simp only [keeps_mk]; with_reducible refine Keeps.fold ?_)
    | with_reducible assumption
    | with_reducible exact Keeps.refl _
    | with_reducible apply trip_keeps
    | with_reducible apply windowReturn_keeps
    | with_reducible apply foldl_keeps
    | with_reducible apply Keeps.ite
    | with_reducible apply Keeps.iteFst
    | with_reducible apply Keeps.iteSnd
    | exact @rfl Nat _
    | exact List.length_set ..
    | intro _ _
    | split
    | dsimp only

theorem batteryEvent_keeps {s0 : State} (i : AlarmSource) (v : TripReading) (agree : Bool) (s : State) (hu : Keeps s0 s) :
    Keeps s0 (batteryEvent i v agree s) := by
  unfold batteryEvent
  (try dsimp only)
  repeat first
    | (simp only [keeps_mk]; with_reducible refine Keeps.fold ?_)
    | with_reducible assumption
    | with_reducible exact Keeps.refl _
    | with_reducible apply setPins_keeps
    | with_reducible apply writeFile_keeps
    | with_reducible apply zeroRoot_keeps
    | with_reducible apply bufferEntry_keeps
    | with_reducible apply foldl_keeps
    | with_reducible apply Keeps.ite
    | with_reducible apply Keeps.iteFst
    | with_reducible apply Keeps.iteSnd
    | exact @rfl Nat _
    | exact List.length_set ..
    | intro _ _
    | split
    | dsimp only

theorem batterySample_keeps {s0 : State} (r : BatteryReading) (s : State) (hu : Keeps s0 s) :
    Keeps s0 (batterySample r s) := by
  unfold batterySample
  (try dsimp only)
  repeat first
    | (simp only [keeps_mk]; with_reducible refine Keeps.fold ?_)
    | with_reducible assumption
    | with_reducible exact Keeps.refl _
    | with_reducible apply batteryEvent_keeps
    | with_reducible apply foldl_keeps
    | with_reducible apply Keeps.ite
    | with_reducible apply Keeps.iteFst
    | with_reducible apply Keeps.iteSnd
    | exact @rfl Nat _
    | exact List.length_set ..
    | intro _ _
    | split
    | dsimp only

theorem lidEdge_keeps {s0 : State} (level : Bool) (s : State) (hu : Keeps s0 s) :
    Keeps s0 (lidEdge level s) := by
  unfold lidEdge
  (try dsimp only)
  repeat first
    | (simp only [keeps_mk]; with_reducible refine Keeps.fold ?_)
    | with_reducible assumption
    | with_reducible exact Keeps.refl _
    | with_reducible apply batteryEvent_keeps
    | with_reducible apply trip_keeps
    | with_reducible apply drawFree_keeps
    | with_reducible apply foldl_keeps
    | with_reducible apply Keeps.ite
    | with_reducible apply Keeps.iteFst
    | with_reducible apply Keeps.iteSnd
    | exact @rfl Nat _
    | exact List.length_set ..
    | intro _ _
    | split
    | dsimp only

theorem alarmUnlockRun_keeps {s0 : State} (s : State) (x : Job) (hu : Keeps s0 s) :
    Keeps s0 (alarmUnlockRun s x).state := by
  unfold alarmUnlockRun
  (try dsimp only)
  repeat first
    | (simp only [keeps_mk]; with_reducible refine Keeps.fold ?_)
    | with_reducible assumption
    | with_reducible exact Keeps.refl _
    | with_reducible apply consume_keeps
    | with_reducible apply alarmInt_keeps
    | with_reducible apply setPins_keeps
    | with_reducible apply writeFile_keeps
    | with_reducible apply evidence_keeps
    | with_reducible apply foldl_keeps
    | with_reducible apply Keeps.ite
    | with_reducible apply Keeps.iteFst
    | with_reducible apply Keeps.iteSnd
    | exact @rfl Nat _
    | exact List.length_set ..
    | intro _ _
    | split
    | dsimp only

theorem alarmUnlockSpec_keeps : ∀ s x, Keeps s ((alarmUnlockSpec).run s x).state := by
  intro s x
  unfold alarmUnlockSpec
  (try dsimp only)
  repeat first
    | (simp only [keeps_mk]; with_reducible refine Keeps.fold ?_)
    | with_reducible assumption
    | with_reducible exact Keeps.refl _
    | with_reducible apply alarmUnlockRun_keeps
    | with_reducible apply foldl_keeps
    | with_reducible apply Keeps.ite
    | with_reducible apply Keeps.iteFst
    | with_reducible apply Keeps.iteSnd
    | exact @rfl Nat _
    | exact List.length_set ..
    | intro _ _
    | split
    | dsimp only

theorem evidenceReadRun_keeps {s0 : State} (s : State) (x : Job) (hu : Keeps s0 s) :
    Keeps s0 (evidenceReadRun s x).state := by
  unfold evidenceReadRun
  (try dsimp only)
  repeat first
    | (simp only [keeps_mk]; with_reducible refine Keeps.fold ?_)
    | with_reducible assumption
    | with_reducible exact Keeps.refl _
    | with_reducible apply foldl_keeps
    | with_reducible apply Keeps.ite
    | with_reducible apply Keeps.iteFst
    | with_reducible apply Keeps.iteSnd
    | exact @rfl Nat _
    | exact List.length_set ..
    | intro _ _
    | split
    | dsimp only

theorem evidenceReadSpec_keeps : ∀ s x, Keeps s ((evidenceReadSpec).run s x).state := by
  intro s x
  unfold evidenceReadSpec
  (try dsimp only)
  repeat first
    | (simp only [keeps_mk]; with_reducible refine Keeps.fold ?_)
    | with_reducible assumption
    | with_reducible exact Keeps.refl _
    | with_reducible apply evidenceReadRun_keeps
    | with_reducible apply foldl_keeps
    | with_reducible apply Keeps.ite
    | with_reducible apply Keeps.iteFst
    | with_reducible apply Keeps.iteSnd
    | exact @rfl Nat _
    | exact List.length_set ..
    | intro _ _
    | split
    | dsimp only

end Sys2Proof.Machine
end

