-- ==== Sys2Proof/Laws/KeepsArchive.lean ====
section
/-! SUPPORT. What the functions of Machine/Archive.lean keep (Laws/Keeps.lean). -/
namespace Sys2Proof.Machine

-- One theorem after another: a thread for each that waits would fill the memory.
set_option Elab.async false

theorem arcRun_keeps {s0 : State} (s : State) (x : Job) (n : Nat) (ws : List (Nat × Bytes)) (m : Option ArcMount) (o : JobOut) (protect : optParam Bool false) (hu : Keeps s0 s) :
    Keeps s0 (arcRun s x n ws m o protect).state := by
  unfold arcRun
  (try dsimp only)
  repeat first
    | (simp only [keeps_mk]; with_reducible refine Keeps.fold ?_)
    | with_reducible assumption
    | with_reducible exact Keeps.refl _
    | with_reducible apply foldl_keeps
    | with_reducible apply Keeps.ite
    | with_reducible apply Keeps.iteFst
    | with_reducible apply Keeps.iteSnd
    | exact @rfl Nat _
    | exact List.length_set ..
    | intro _ _
    | split
    | dsimp only

theorem arcEnd_keeps {s0 : State} (s : State) (o : JobOut) (hu : Keeps s0 s) :
    Keeps s0 (arcEnd s o).state := by
  unfold arcEnd
  (try dsimp only)
  repeat first
    | (simp only [keeps_mk]; with_reducible refine Keeps.fold ?_)
    | with_reducible assumption
    | with_reducible exact Keeps.refl _
    | with_reducible apply foldl_keeps
    | with_reducible apply Keeps.ite
    | with_reducible apply Keeps.iteFst
    | with_reducible apply Keeps.iteSnd
    | exact @rfl Nat _
    | exact List.length_set ..
    | intro _ _
    | split
    | dsimp only

theorem partOf_keeps {s0 : State} (c : ArcCard) (w : List (Nat × Bytes)) (s : State) (hu : Keeps s0 s) :
    Keeps s0 (partOf c w s).2 := by
  unfold partOf
  (try dsimp only)
  repeat first
    | (simp only [keeps_mk]; with_reducible refine Keeps.fold ?_)
    | with_reducible assumption
    | with_reducible exact Keeps.refl _
    | with_reducible apply drawFree_keeps
    | with_reducible apply foldl_keeps
    | with_reducible apply Keeps.ite
    | with_reducible apply Keeps.iteFst
    | with_reducible apply Keeps.iteSnd
    | exact @rfl Nat _
    | exact List.length_set ..
    | intro _ _
    | split
    | dsimp only

theorem giveGroup_keeps {s0 : State} (c : ArcCard) (n : Nat) (g : List (List (Nat × Bytes))) (s : State) (hu : Keeps s0 s) :
    Keeps s0 (giveGroup c n g s).2.2.2 := by
  unfold giveGroup
  split
  · dsimp only
    split
    · dsimp only
      exact partOf_keeps _ _ _ (partOf_keeps _ _ _ hu)
    · dsimp only
      exact partOf_keeps _ _ _ hu
  · exact hu

theorem giveGroups_keeps {s0 : State} (c : ArcCard) (n : Nat) (gs : List (List (List (Nat × Bytes)))) (s : State) (hu : Keeps s0 s) :
    Keeps s0 (giveGroups c n gs s).2.2.2 := by
  induction gs generalizing n s with
  | nil => exact hu
  | cons g t ih =>
    have hg := giveGroup_keeps c n g s hu
    unfold giveGroups
    split
    · rename_i heq
      rw [heq] at hg
      exact ih _ _ hg
    · exact hg

theorem arcWrites_keeps {s0 : State} (s : State) (x : Job) (c : ArcCard) (cmds : List (List (List (Nat × Bytes)))) (m : Option ArcMount)
    (o : JobOut) (hu : Keeps s0 s) : Keeps s0 (arcWrites s x c cmds m o).state := by
  have hg := giveGroups_keeps c s.cards.arcGiven cmds s hu
  unfold arcWrites
  split <;> rename_i heq <;> rw [heq] at hg <;> exact arcRun_keeps _ _ _ _ _ _ _ hg

theorem archiveMountRun_keeps {s0 : State} (s : State) (x : Job) (hu : Keeps s0 s) :
    Keeps s0 (archiveMountRun s x).state := by
  unfold archiveMountRun
  (try dsimp only)
  repeat first
    | (simp only [keeps_mk]; with_reducible refine Keeps.fold ?_)
    | with_reducible assumption
    | with_reducible exact Keeps.refl _
    | with_reducible apply arcEnd_keeps
    | with_reducible apply arcRun_keeps
    | with_reducible apply arcWrites_keeps
    | with_reducible apply foldl_keeps
    | with_reducible apply Keeps.ite
    | with_reducible apply Keeps.iteFst
    | with_reducible apply Keeps.iteSnd
    | exact @rfl Nat _
    | exact List.length_set ..
    | intro _ _
    | split
    | dsimp only

theorem archiveMountSpec_keeps : ∀ s x, Keeps s ((archiveMountSpec).run s x).state := by
  intro s x
  unfold archiveMountSpec
  (try dsimp only)
  repeat first
    | (simp only [keeps_mk]; with_reducible refine Keeps.fold ?_)
    | with_reducible assumption
    | with_reducible exact Keeps.refl _
    | with_reducible apply archiveMountRun_keeps
    | with_reducible apply foldl_keeps
    | with_reducible apply Keeps.ite
    | with_reducible apply Keeps.iteFst
    | with_reducible apply Keeps.iteSnd
    | exact @rfl Nat _
    | exact List.length_set ..
    | intro _ _
    | split
    | dsimp only

theorem archiveFormatRun_keeps {s0 : State} (s : State) (x : Job) (hu : Keeps s0 s) :
    Keeps s0 (archiveFormatRun s x).state := by
  unfold archiveFormatRun
  (try dsimp only)
  repeat first
    | (simp only [keeps_mk]; with_reducible refine Keeps.fold ?_)
    | with_reducible assumption
    | with_reducible exact Keeps.refl _
    | with_reducible apply arcEnd_keeps
    | with_reducible apply arcWrites_keeps
    | with_reducible apply draw_keeps
    | with_reducible apply foldl_keeps
    | with_reducible apply Keeps.ite
    | with_reducible apply Keeps.iteFst
    | with_reducible apply Keeps.iteSnd
    | exact @rfl Nat _
    | exact List.length_set ..
    | intro _ _
    | split
    | dsimp only

theorem archiveFormatSpec_keeps : ∀ s x, Keeps s ((archiveFormatSpec).run s x).state := by
  intro s x
  unfold archiveFormatSpec
  (try dsimp only)
  repeat first
    | (simp only [keeps_mk]; with_reducible refine Keeps.fold ?_)
    | with_reducible assumption
    | with_reducible exact Keeps.refl _
    | with_reducible apply archiveFormatRun_keeps
    | with_reducible apply foldl_keeps
    | with_reducible apply Keeps.ite
    | with_reducible apply Keeps.iteFst
    | with_reducible apply Keeps.iteSnd
    | exact @rfl Nat _
    | exact List.length_set ..
    | intro _ _
    | split
    | dsimp only

theorem archiveExportRun_keeps {s0 : State} (s : State) (x : Job) (hu : Keeps s0 s) :
    Keeps s0 (archiveExportRun s x).state := by
  unfold archiveExportRun
  (try dsimp only)
  repeat first
    | (simp only [keeps_mk]; with_reducible refine Keeps.fold ?_)
    | with_reducible assumption
    | with_reducible exact Keeps.refl _
    | with_reducible apply arcEnd_keeps
    | with_reducible apply arcWrites_keeps
    | with_reducible apply foldl_keeps
    | with_reducible apply Keeps.ite
    | with_reducible apply Keeps.iteFst
    | with_reducible apply Keeps.iteSnd
    | exact @rfl Nat _
    | exact List.length_set ..
    | intro _ _
    | split
    | dsimp only

theorem archiveExportSpec_keeps : ∀ s x, Keeps s ((archiveExportSpec).run s x).state := by
  intro s x
  unfold archiveExportSpec
  (try dsimp only)
  repeat first
    | (simp only [keeps_mk]; with_reducible refine Keeps.fold ?_)
    | with_reducible assumption
    | with_reducible exact Keeps.refl _
    | with_reducible apply archiveExportRun_keeps
    | with_reducible apply foldl_keeps
    | with_reducible apply Keeps.ite
    | with_reducible apply Keeps.iteFst
    | with_reducible apply Keeps.iteSnd
    | exact @rfl Nat _
    | exact List.length_set ..
    | intro _ _
    | split
    | dsimp only

theorem arcInsert_keeps {s0 : State} (c : ArcCard) (s : State) (hu : Keeps s0 s) :
    Keeps s0 (arcInsert c s) := by
  unfold arcInsert
  (try dsimp only)
  repeat first
    | (simp only [keeps_mk]; with_reducible refine Keeps.fold ?_)
    | with_reducible assumption
    | with_reducible exact Keeps.refl _
    | with_reducible apply foldl_keeps
    | with_reducible apply Keeps.ite
    | with_reducible apply Keeps.iteFst
    | with_reducible apply Keeps.iteSnd
    | exact @rfl Nat _
    | exact List.length_set ..
    | intro _ _
    | split
    | dsimp only

theorem arcJobEnds_keeps {s0 : State} (d : BitVec 16) (only : List Nat) (s : State) (hu : Keeps s0 s) :
    Keeps s0 (arcJobEnds d only s) := by
  unfold arcJobEnds
  (try dsimp only)
  repeat first
    | (simp only [keeps_mk]; with_reducible refine Keeps.fold ?_)
    | with_reducible assumption
    | with_reducible exact Keeps.refl _
    | with_reducible apply breakJob_keeps
    | with_reducible apply foldl_keeps
    | with_reducible apply Keeps.ite
    | with_reducible apply Keeps.iteFst
    | with_reducible apply Keeps.iteSnd
    | exact @rfl Nat _
    | exact List.length_set ..
    | intro _ _
    | split
    | dsimp only

theorem arcRemove_keeps {s0 : State} (s : State) (hu : Keeps s0 s) :
    Keeps s0 (arcRemove s) := by
  unfold arcRemove
  (try dsimp only)
  repeat first
    | (simp only [keeps_mk]; with_reducible refine Keeps.fold ?_)
    | with_reducible assumption
    | with_reducible exact Keeps.refl _
    | with_reducible apply arcJobEnds_keeps
    | with_reducible apply foldl_keeps
    | with_reducible apply Keeps.ite
    | with_reducible apply Keeps.iteFst
    | with_reducible apply Keeps.iteSnd
    | exact @rfl Nat _
    | exact List.length_set ..
    | intro _ _
    | split
    | dsimp only

theorem arcBusyTimeout_keeps {s0 : State} (s : State) (hu : Keeps s0 s) :
    Keeps s0 (arcBusyTimeout s) := by
  unfold arcBusyTimeout
  (try dsimp only)
  repeat first
    | (simp only [keeps_mk]; with_reducible refine Keeps.fold ?_)
    | with_reducible assumption
    | with_reducible exact Keeps.refl _
    | with_reducible apply arcJobEnds_keeps
    | with_reducible apply foldl_keeps
    | with_reducible apply Keeps.ite
    | with_reducible apply Keeps.iteFst
    | with_reducible apply Keeps.iteSnd
    | exact @rfl Nat _
    | exact List.length_set ..
    | intro _ _
    | split
    | dsimp only

theorem arcReadyTimeout_keeps {s0 : State} (s : State) (hu : Keeps s0 s) :
    Keeps s0 (arcReadyTimeout s) := by
  unfold arcReadyTimeout
  (try dsimp only)
  repeat first
    | (simp only [keeps_mk]; with_reducible refine Keeps.fold ?_)
    | with_reducible assumption
    | with_reducible exact Keeps.refl _
    | with_reducible apply arcJobEnds_keeps
    | with_reducible apply foldl_keeps
    | with_reducible apply Keeps.ite
    | with_reducible apply Keeps.iteFst
    | with_reducible apply Keeps.iteSnd
    | exact @rfl Nat _
    | exact List.length_set ..
    | intro _ _
    | split
    | dsimp only

end Sys2Proof.Machine
end

