-- ==== Sys2Proof/Laws/KeepsFaults.lean ====
section
/-! SUPPORT. What the functions of Machine/Faults.lean keep (Laws/Keeps.lean). -/
namespace Sys2Proof.Machine

-- One theorem after another: a thread for each that waits would fill the memory.
set_option Elab.async false

theorem recordFailure_keeps {s0 : State} (reason : BitVec 16) (s : State) (hu : Keeps s0 s) :
    Keeps s0 (recordFailure reason s) := by
  unfold recordFailure
  (try dsimp only)
  repeat first
    | (simp only [keeps_mk]; with_reducible refine Keeps.fold ?_)
    | with_reducible assumption
    | with_reducible exact Keeps.refl _
    | with_reducible apply writeFile_keeps
    | with_reducible apply foldl_keeps
    | with_reducible apply Keeps.ite
    | with_reducible apply Keeps.iteFst
    | with_reducible apply Keeps.iteSnd
    | exact @rfl Nat _
    | exact List.length_set ..
    | intro _ _
    | split
    | dsimp only

theorem startFails_keeps {s0 : State} (reason : BitVec 16) (s : State) (hu : Keeps s0 s) :
    Keeps s0 (startFails reason s) := by
  unfold startFails
  (try dsimp only)
  repeat first
    | (simp only [keeps_mk]; with_reducible refine Keeps.fold ?_)
    | with_reducible assumption
    | with_reducible exact Keeps.refl _
    | with_reducible apply recordFailure_keeps
    | with_reducible apply foldl_keeps
    | with_reducible apply Keeps.ite
    | with_reducible apply Keeps.iteFst
    | with_reducible apply Keeps.iteSnd
    | exact @rfl Nat _
    | exact List.length_set ..
    | intro _ _
    | split
    | dsimp only

theorem streamLost_keeps {s0 : State} (n : Nat) (s : State) (hu : Keeps s0 s) :
    Keeps s0 (streamLost n s) := by
  unfold streamLost
  (try dsimp only)
  repeat first
    | (simp only [keeps_mk]; with_reducible refine Keeps.fold ?_)
    | with_reducible assumption
    | with_reducible exact Keeps.refl _
    | with_reducible apply mapFlows_keeps
    | with_reducible apply note_keeps
    | with_reducible apply foldl_keeps
    | with_reducible apply Keeps.ite
    | with_reducible apply Keeps.iteFst
    | with_reducible apply Keeps.iteSnd
    | exact @rfl Nat _
    | exact List.length_set ..
    | intro _ _
    | split
    | dsimp only

theorem jobFault_keeps {s0 : State} (detail : BitVec 16) (avoid : List Unit_) (s : State) (x : Job) (hu : Keeps s0 s) :
    Keeps s0 (jobFault detail avoid s x) := by
  unfold jobFault
  (try dsimp only)
  repeat first
    | (simp only [keeps_mk]; with_reducible refine Keeps.fold ?_)
    | with_reducible assumption
    | with_reducible exact Keeps.refl _
    | with_reducible apply staleContext_keeps
    | with_reducible apply breakJob_keeps
    | with_reducible apply faultJob_keeps
    | with_reducible apply foldl_keeps
    | with_reducible apply Keeps.ite
    | with_reducible apply Keeps.iteFst
    | with_reducible apply Keeps.iteSnd
    | exact @rfl Nat _
    | exact List.length_set ..
    | intro _ _
    | split
    | dsimp only

theorem tileFaultJob_keeps {s0 : State} (detail : BitVec 16) (t : Nat) (s : State) (hu : Keeps s0 s) :
    Keeps s0 (tileFaultJob detail t s) := by
  unfold tileFaultJob
  (try dsimp only)
  repeat first
    | (simp only [keeps_mk]; with_reducible refine Keeps.fold ?_)
    | with_reducible assumption
    | with_reducible exact Keeps.refl _
    | with_reducible apply keeperAgain_keeps
    | with_reducible apply jobFault_keeps
    | with_reducible apply foldl_keeps
    | with_reducible apply Keeps.ite
    | with_reducible apply Keeps.iteFst
    | with_reducible apply Keeps.iteSnd
    | exact @rfl Nat _
    | exact List.length_set ..
    | intro _ _
    | split
    | dsimp only

theorem loseShelf_keeps {s0 : State} (s : State) (t : Nat) (hu : Keeps s0 s) :
    Keeps s0 (loseShelf s t) := by
  unfold loseShelf
  (try dsimp only)
  repeat first
    | (simp only [keeps_mk]; with_reducible refine Keeps.fold ?_)
    | with_reducible assumption
    | with_reducible exact Keeps.refl _
    | with_reducible apply staleContext_keeps
    | with_reducible apply foldl_keeps
    | with_reducible apply Keeps.ite
    | with_reducible apply Keeps.iteFst
    | with_reducible apply Keeps.iteSnd
    | exact @rfl Nat _
    | exact List.length_set ..
    | intro _ _
    | split
    | dsimp only

theorem strandedJob_keeps {s0 : State} (s : State) (x : Job) (hu : Keeps s0 s) :
    Keeps s0 (strandedJob s x) := by
  unfold strandedJob
  (try dsimp only)
  repeat first
    | (simp only [keeps_mk]; with_reducible refine Keeps.fold ?_)
    | with_reducible assumption
    | with_reducible exact Keeps.refl _
    | with_reducible apply refuseJob_keeps
    | with_reducible apply breakJob_keeps
    | with_reducible apply foldl_keeps
    | with_reducible apply Keeps.ite
    | with_reducible apply Keeps.iteFst
    | with_reducible apply Keeps.iteSnd
    | exact @rfl Nat _
    | exact List.length_set ..
    | intro _ _
    | split
    | dsimp only

theorem roleGone_keeps {s0 : State} (r : Role) (s : State) (hu : Keeps s0 s) :
    Keeps s0 (roleGone r s) := by
  unfold roleGone
  (try dsimp only)
  repeat first
    | (simp only [keeps_mk]; with_reducible refine Keeps.fold ?_)
    | with_reducible assumption
    | with_reducible exact Keeps.refl _
    | with_reducible apply strandedJob_keeps
    | with_reducible apply foldl_keeps
    | with_reducible apply Keeps.ite
    | with_reducible apply Keeps.iteFst
    | with_reducible apply Keeps.iteSnd
    | exact @rfl Nat _
    | exact List.length_set ..
    | intro _ _
    | split
    | dsimp only

theorem planInt_keeps {s0 : State} (b : BitVec 4) (s : State) (hu : Keeps s0 s) :
    Keeps s0 (planInt b s) := by
  unfold planInt
  (try dsimp only)
  repeat first
    | (simp only [keeps_mk]; with_reducible refine Keeps.fold ?_)
    | with_reducible assumption
    | with_reducible exact Keeps.refl _
    | with_reducible apply foldl_keeps
    | with_reducible apply Keeps.ite
    | with_reducible apply Keeps.iteFst
    | with_reducible apply Keeps.iteSnd
    | exact @rfl Nat _
    | exact List.length_set ..
    | intro _ _
    | split
    | dsimp only

theorem retireStall_keeps {s0 : State} (n : Nat) (s : State) (hu : Keeps s0 s) :
    Keeps s0 (retireStall n s) := by
  unfold retireStall
  (try dsimp only)
  repeat first
    | (simp only [keeps_mk]; with_reducible refine Keeps.fold ?_)
    | with_reducible assumption
    | with_reducible exact Keeps.refl _
    | with_reducible apply planInt_keeps
    | with_reducible apply tileFaultJob_keeps
    | with_reducible apply strandedJob_keeps
    | with_reducible apply roleGone_keeps
    | with_reducible apply loseShelf_keeps
    | with_reducible apply streamLost_keeps
    | with_reducible apply foldl_keeps
    | with_reducible apply Keeps.ite
    | with_reducible apply Keeps.iteFst
    | with_reducible apply Keeps.iteSnd
    | exact @rfl Nat _
    | exact List.length_set ..
    | intro _ _
    | split
    | dsimp only

theorem checkShort_keeps {s0 : State} (n : Nat) (s : State) (hu : Keeps s0 s) :
    Keeps s0 (checkShort n s) := by
  unfold checkShort
  (try dsimp only)
  repeat first
    | (simp only [keeps_mk]; with_reducible refine Keeps.fold ?_)
    | with_reducible assumption
    | with_reducible exact Keeps.refl _
    | with_reducible apply retireStall_keeps
    | with_reducible apply foldl_keeps
    | with_reducible apply Keeps.ite
    | with_reducible apply Keeps.iteFst
    | with_reducible apply Keeps.iteSnd
    | exact @rfl Nat _
    | exact List.length_set ..
    | intro _ _
    | split
    | dsimp only

theorem settleSpares_own (z0 : Nat) (z1 : State) : Keeps z1 (settleSpares z0 z1) := by
  induction z0 generalizing z1 with
  | zero => exact Keeps.refl _
  | succ k ih =>
    unfold settleSpares
    refine Keeps.ite (Keeps.refl _) ?_
    split
    · exact Keeps.refl _
    · refine Keeps.trans (checkShort_keeps _ _ (planInt_keeps _ _ ?_)) (ih _)
      exact Keeps.upd (s1 := z1) rfl rfl (Keeps.refl _)

theorem settleSpares_keeps {s0 : State} (z0 : Nat) (z1 : State) (hu : Keeps s0 z1) :
    Keeps s0 (settleSpares z0 z1) :=
  Keeps.trans hu (settleSpares_own z0 z1)

theorem shortenStall_keeps {s0 : State} (n : Nat) (t : Nat) (s : State) (hu : Keeps s0 s) :
    Keeps s0 (shortenStall n t s) := by
  unfold shortenStall
  (try dsimp only)
  repeat first
    | (simp only [keeps_mk]; with_reducible refine Keeps.fold ?_)
    | with_reducible assumption
    | with_reducible exact Keeps.refl _
    | with_reducible apply settleSpares_keeps
    | with_reducible apply checkShort_keeps
    | with_reducible apply planInt_keeps
    | with_reducible apply foldl_keeps
    | with_reducible apply Keeps.ite
    | with_reducible apply Keeps.iteFst
    | with_reducible apply Keeps.iteSnd
    | exact @rfl Nat _
    | exact List.length_set ..
    | intro _ _
    | split
    | dsimp only

theorem retireTile_keeps {s0 : State} (t : BitVec 6) (s : State) (hu : Keeps s0 s) :
    Keeps s0 (retireTile t s) := by
  unfold retireTile
  (try dsimp only)
  repeat first
    | (simp only [keeps_mk]; with_reducible refine Keeps.fold ?_)
    | with_reducible assumption
    | with_reducible exact Keeps.refl _
    | with_reducible apply loseShelf_keeps
    | with_reducible apply breakJob_keeps
    | with_reducible apply State.setTile_keeps
    | with_reducible apply settleSpares_keeps
    | with_reducible apply tileFaultJob_keeps
    | with_reducible apply shortenStall_keeps
    | with_reducible apply roleGone_keeps
    | with_reducible apply foldl_keeps
    | with_reducible apply Keeps.ite
    | with_reducible apply Keeps.iteFst
    | with_reducible apply Keeps.iteSnd
    | exact @rfl Nat _
    | exact List.length_set ..
    | intro _ _
    | split
    | dsimp only

theorem spareJoin_keeps {s0 : State} (s : State) (hu : Keeps s0 s) :
    Keeps s0 (spareJoin s) := by
  unfold spareJoin
  (try dsimp only)
  repeat first
    | (simp only [keeps_mk]; with_reducible refine Keeps.fold ?_)
    | with_reducible assumption
    | with_reducible exact Keeps.refl _
    | with_reducible apply retireTile_keeps
    | with_reducible apply State.setTile_keeps
    | with_reducible apply planInt_keeps
    | with_reducible apply foldl_keeps
    | with_reducible apply Keeps.ite
    | with_reducible apply Keeps.iteFst
    | with_reducible apply Keeps.iteSnd
    | exact @rfl Nat _
    | exact List.length_set ..
    | intro _ _
    | split
    | dsimp only

theorem seqInt_keeps {s0 : State} (b : BitVec 3) (s : State) (hu : Keeps s0 s) :
    Keeps s0 (seqInt b s) := by
  unfold seqInt
  (try dsimp only)
  repeat first
    | (simp only [keeps_mk]; with_reducible refine Keeps.fold ?_)
    | with_reducible assumption
    | with_reducible exact Keeps.refl _
    | with_reducible apply foldl_keeps
    | with_reducible apply Keeps.ite
    | with_reducible apply Keeps.iteFst
    | with_reducible apply Keeps.iteSnd
    | exact @rfl Nat _
    | exact List.length_set ..
    | intro _ _
    | split
    | dsimp only

theorem lastFault_keeps {s0 : State} (addr : BitVec 14) (hall : Bool) (tile : BitVec 6) (kind : BitVec 2) (s : State) (hu : Keeps s0 s) :
    Keeps s0 (lastFault addr hall tile kind s) := by
  unfold lastFault
  (try dsimp only)
  repeat first
    | (simp only [keeps_mk]; with_reducible refine Keeps.fold ?_)
    | with_reducible assumption
    | with_reducible exact Keeps.refl _
    | with_reducible apply foldl_keeps
    | with_reducible apply Keeps.ite
    | with_reducible apply Keeps.iteFst
    | with_reducible apply Keeps.iteSnd
    | exact @rfl Nat _
    | exact List.length_set ..
    | intro _ _
    | split
    | dsimp only

theorem reloadTile_keeps {s0 : State} (afterJob : Bool) (t : BitVec 6) (s : State) (hu : Keeps s0 s) :
    Keeps s0 (reloadTile afterJob t s) := by
  unfold reloadTile
  (try dsimp only)
  repeat first
    | (simp only [keeps_mk]; with_reducible refine Keeps.fold ?_)
    | with_reducible assumption
    | with_reducible exact Keeps.refl _
    | with_reducible apply State.setTile_keeps
    | with_reducible apply foldl_keeps
    | with_reducible apply Keeps.ite
    | with_reducible apply Keeps.iteFst
    | with_reducible apply Keeps.iteSnd
    | exact @rfl Nat _
    | exact List.length_set ..
    | intro _ _
    | split
    | dsimp only

theorem storeError_keeps {s0 : State} (scrub : Bool) (t : BitVec 6) (addr : BitVec 12) (s : State) (hu : Keeps s0 s) :
    Keeps s0 (storeError scrub t addr s) := by
  unfold storeError
  (try dsimp only)
  repeat first
    | (simp only [keeps_mk]; with_reducible refine Keeps.fold ?_)
    | with_reducible assumption
    | with_reducible exact Keeps.refl _
    | with_reducible apply lastFault_keeps
    | with_reducible apply seqInt_keeps
    | with_reducible apply trip_keeps
    | with_reducible apply retireTile_keeps
    | with_reducible apply State.setTile_keeps
    | with_reducible apply reloadTile_keeps
    | with_reducible apply tileFaultJob_keeps
    | with_reducible apply foldl_keeps
    | with_reducible apply Keeps.ite
    | with_reducible apply Keeps.iteFst
    | with_reducible apply Keeps.iteSnd
    | exact @rfl Nat _
    | exact List.length_set ..
    | intro _ _
    | split
    | dsimp only

theorem reloadDone_keeps {s0 : State} (t : BitVec 6) (ok : Bool) (s : State) (hu : Keeps s0 s) :
    Keeps s0 (reloadDone t ok s) := by
  unfold reloadDone
  (try dsimp only)
  repeat first
    | (simp only [keeps_mk]; with_reducible refine Keeps.fold ?_)
    | with_reducible assumption
    | with_reducible exact Keeps.refl _
    | with_reducible apply State.setTile_keeps
    | with_reducible apply retireTile_keeps
    | with_reducible apply foldl_keeps
    | with_reducible apply Keeps.ite
    | with_reducible apply Keeps.iteFst
    | with_reducible apply Keeps.iteSnd
    | exact @rfl Nat _
    | exact List.length_set ..
    | intro _ _
    | split
    | dsimp only

theorem storeCorrected_keeps {s0 : State} (t : BitVec 6) (addr : BitVec 14) (hall : Bool) (kind : BitVec 2) (s : State) (hu : Keeps s0 s) :
    Keeps s0 (storeCorrected t addr hall kind s) := by
  unfold storeCorrected
  (try dsimp only)
  repeat first
    | (simp only [keeps_mk]; with_reducible refine Keeps.fold ?_)
    | with_reducible assumption
    | with_reducible exact Keeps.refl _
    | with_reducible apply lastFault_keeps
    | with_reducible apply seqInt_keeps
    | with_reducible apply note_keeps
    | with_reducible apply foldl_keeps
    | with_reducible apply Keeps.ite
    | with_reducible apply Keeps.iteFst
    | with_reducible apply Keeps.iteSnd
    | exact @rfl Nat _
    | exact List.length_set ..
    | intro _ _
    | split
    | dsimp only

theorem readStore_keeps {s0 : State} (t : BitVec 6) (a : BitVec 12) (s : State) (hu : Keeps s0 s) :
    Keeps s0 (readStore t a s).2 := by
  unfold readStore
  (try dsimp only)
  repeat first
    | (simp only [keeps_mk]; with_reducible refine Keeps.fold ?_)
    | with_reducible assumption
    | with_reducible exact Keeps.refl _
    | with_reducible apply storeCorrected_keeps
    | with_reducible apply State.setTile_keeps
    | with_reducible apply foldl_keeps
    | with_reducible apply Keeps.ite
    | with_reducible apply Keeps.iteFst
    | with_reducible apply Keeps.iteSnd
    | exact @rfl Nat _
    | exact List.length_set ..
    | intro _ _
    | split
    | dsimp only

theorem scrubTile_keeps {s0 : State} (s : State) (t : BitVec 6) (hu : Keeps s0 s) :
    Keeps s0 (scrubTile s t) := by
  unfold scrubTile
  (try dsimp only)
  repeat first
    | (simp only [keeps_mk]; with_reducible refine Keeps.fold ?_)
    | with_reducible assumption
    | with_reducible exact Keeps.refl _
    | with_reducible apply storeError_keeps
    | with_reducible apply readStore_keeps
    | with_reducible apply foldl_keeps
    | with_reducible apply Keeps.ite
    | with_reducible apply Keeps.iteFst
    | with_reducible apply Keeps.iteSnd
    | exact @rfl Nat _
    | exact List.length_set ..
    | intro _ _
    | split
    | dsimp only

theorem upset_keeps {s0 : State} (s : State) (e : TileError) (hu : Keeps s0 s) :
    Keeps s0 (upset s e) := by
  unfold upset
  (try dsimp only)
  repeat first
    | (simp only [keeps_mk]; with_reducible refine Keeps.fold ?_)
    | with_reducible assumption
    | with_reducible exact Keeps.refl _
    | with_reducible apply State.setTile_keeps
    | with_reducible apply foldl_keeps
    | with_reducible apply Keeps.ite
    | with_reducible apply Keeps.iteFst
    | with_reducible apply Keeps.iteSnd
    | exact @rfl Nat _
    | exact List.length_set ..
    | intro _ _
    | split
    | dsimp only

theorem beginReload_keeps {s0 : State} (addr : BitVec 14) (s : State) (hu : Keeps s0 s) :
    Keeps s0 (beginReload addr s) := by
  unfold beginReload
  (try dsimp only)
  repeat first
    | (simp only [keeps_mk]; with_reducible refine Keeps.fold ?_)
    | with_reducible assumption
    | with_reducible exact Keeps.refl _
    | with_reducible apply foldl_keeps
    | with_reducible apply Keeps.ite
    | with_reducible apply Keeps.iteFst
    | with_reducible apply Keeps.iteSnd
    | exact @rfl Nat _
    | exact List.length_set ..
    | intro _ _
    | split
    | dsimp only

theorem patchRamError_keeps {s0 : State} (a : BitVec 14) (h : Bool) (s : State) (hu : Keeps s0 s) :
    Keeps s0 (patchRamError a h s) := by
  unfold patchRamError
  (try dsimp only)
  repeat first
    | (simp only [keeps_mk]; with_reducible refine Keeps.fold ?_)
    | with_reducible assumption
    | with_reducible exact Keeps.refl _
    | with_reducible apply lastFault_keeps
    | with_reducible apply seqInt_keeps
    | with_reducible apply beginReload_keeps
    | with_reducible apply trip_keeps
    | with_reducible apply foldl_keeps
    | with_reducible apply Keeps.ite
    | with_reducible apply Keeps.iteFst
    | with_reducible apply Keeps.iteSnd
    | exact @rfl Nat _
    | exact List.length_set ..
    | intro _ _
    | split
    | dsimp only

theorem readUnit_keeps {s0 : State} (a : BitVec 14) (h : Bool) (r : Decoded × State) (u : BitVec 13) (hu : Keeps s0 r.2) :
    Keeps s0 (readUnit a h r u).2 := by
  unfold readUnit
  dsimp only
  split
  · exact hu
  · dsimp only
    repeat first
    | (simp only [keeps_mk]; with_reducible refine Keeps.fold ?_)
    | with_reducible assumption
    | with_reducible apply storeCorrected_keeps
  · exact hu

theorem readUnits_keeps {s0 : State} (a : BitVec 14) (h : Bool) (l : List (BitVec 13)) (r : Decoded × State) (hu : Keeps s0 r.2) :
    Keeps s0 (l.foldl (readUnit a h) r).2 := by
  induction l generalizing r with
  | nil => exact hu
  | cons b t ih =>
    rw [List.foldl_cons]
    exact ih _ (readUnit_keeps a h r b hu)

theorem readEntry_keeps {s0 : State} (a : BitVec 14) (h : Bool) (k : Nat) (s : State) (hu : Keeps s0 s) :
    Keeps s0 (readEntry a h k s).2 := readUnits_keeps a h (entryUnits h k) (Decoded.clean, s) hu

theorem scrubUnit_keeps {s0 : State} (s : State) (hu : Keeps s0 s) : Keeps s0 (scrubUnit s) := by
  have h := readUnit_keeps (unitAddr s s.seq.patchAt).1 (unitAddr s s.seq.patchAt).2 (.clean, s) s.seq.patchAt hu
  unfold scrubUnit
  dsimp only
  split
  · exact patchRamError_keeps _ _ _ h
  · exact h

theorem upsetUnit_keeps {s0 : State} (s : State) (e : PatchError) (hu : Keeps s0 s) :
    Keeps s0 (upsetUnit s e) := by
  unfold upsetUnit
  (try dsimp only)
  repeat first
    | (simp only [keeps_mk]; with_reducible refine Keeps.fold ?_)
    | with_reducible assumption
    | with_reducible exact Keeps.refl _
    | with_reducible apply foldl_keeps
    | with_reducible apply Keeps.ite
    | with_reducible apply Keeps.iteFst
    | with_reducible apply Keeps.iteSnd
    | exact @rfl Nat _
    | exact List.length_set ..
    | intro _ _
    | split
    | dsimp only

theorem scrubTick_keeps {s0 : State} (errs : List TileError) (us : List PatchError) (s : State) (hu : Keeps s0 s) :
    Keeps s0 (scrubTick errs us s) := by
  unfold scrubTick
  (try dsimp only)
  repeat first
    | (simp only [keeps_mk]; with_reducible refine Keeps.fold ?_)
    | with_reducible assumption
    | with_reducible exact Keeps.refl _
    | with_reducible apply upsetUnit_keeps
    | with_reducible apply upset_keeps
    | with_reducible apply scrubUnit_keeps
    | with_reducible apply scrubTile_keeps
    | with_reducible apply foldl_keeps
    | with_reducible apply Keeps.ite
    | with_reducible apply Keeps.iteFst
    | with_reducible apply Keeps.iteSnd
    | exact @rfl Nat _
    | exact List.length_set ..
    | intro _ _
    | split
    | dsimp only

theorem copyMismatch_keeps {s0 : State} (addr : BitVec 14) (s : State) (hu : Keeps s0 s) :
    Keeps s0 (copyMismatch addr s) := by
  unfold copyMismatch
  (try dsimp only)
  repeat first
    | (simp only [keeps_mk]; with_reducible refine Keeps.fold ?_)
    | with_reducible assumption
    | with_reducible exact Keeps.refl _
    | with_reducible apply beginReload_keeps
    | with_reducible apply lastFault_keeps
    | with_reducible apply trip_keeps
    | with_reducible apply foldl_keeps
    | with_reducible apply Keeps.ite
    | with_reducible apply Keeps.iteFst
    | with_reducible apply Keeps.iteSnd
    | exact @rfl Nat _
    | exact List.length_set ..
    | intro _ _
    | split
    | dsimp only

theorem noteReload_own (k : Nat) (n : BitVec 8) (a : BitVec 14) (s : State) : Keeps s (noteReload k n a s) := by
  induction k generalizing s with
  | zero => exact Keeps.refl s
  | succ k ih => exact Keeps.trans (note_keeps _ _ _ _ (Keeps.refl _)) (ih _)

theorem noteReload_keeps {s0 : State} (z0 : Nat) (z1 : BitVec 8) (z2 : BitVec 14) (z3 : State) (hu : Keeps s0 z3) :
    Keeps s0 (noteReload z0 z1 z2 z3) :=
  Keeps.trans hu (noteReload_own z0 z1 z2 z3)

theorem tileFault_keeps {s0 : State} (j : JobId) (dkHash : Bool) (s : State) (hu : Keeps s0 s) :
    Keeps s0 (tileFault j dkHash s) := by
  unfold tileFault
  (try dsimp only)
  repeat first
    | (simp only [keeps_mk]; with_reducible refine Keeps.fold ?_)
    | with_reducible assumption
    | with_reducible exact Keeps.refl _
    | with_reducible apply trip_keeps
    | with_reducible apply State.setJob_keeps
    | with_reducible apply tileFaultJob_keeps
    | with_reducible apply foldl_keeps
    | with_reducible apply Keeps.ite
    | with_reducible apply Keeps.iteFst
    | with_reducible apply Keeps.iteSnd
    | exact @rfl Nat _
    | exact List.length_set ..
    | intro _ _
    | split
    | dsimp only

theorem tileDualRail_keeps {s0 : State} (t : BitVec 6) (s : State) (hu : Keeps s0 s) :
    Keeps s0 (tileDualRail t s) := by
  unfold tileDualRail
  (try dsimp only)
  repeat first
    | (simp only [keeps_mk]; with_reducible refine Keeps.fold ?_)
    | with_reducible assumption
    | with_reducible exact Keeps.refl _
    | with_reducible apply tileFaultJob_keeps
    | with_reducible apply retireTile_keeps
    | with_reducible apply State.setTile_keeps
    | with_reducible apply foldl_keeps
    | with_reducible apply Keeps.ite
    | with_reducible apply Keeps.iteFst
    | with_reducible apply Keeps.iteSnd
    | exact @rfl Nat _
    | exact List.length_set ..
    | intro _ _
    | split
    | dsimp only

theorem selfTestDone_keeps {s0 : State} (t : BitVec 6) (ok : Bool) (s : State) (hu : Keeps s0 s) :
    Keeps s0 (selfTestDone t ok s) := by
  unfold selfTestDone
  (try dsimp only)
  repeat first
    | (simp only [keeps_mk]; with_reducible refine Keeps.fold ?_)
    | with_reducible assumption
    | with_reducible exact Keeps.refl _
    | with_reducible apply State.setTile_keeps
    | with_reducible apply retireTile_keeps
    | with_reducible apply foldl_keeps
    | with_reducible apply Keeps.ite
    | with_reducible apply Keeps.iteFst
    | with_reducible apply Keeps.iteSnd
    | exact @rfl Nat _
    | exact List.length_set ..
    | intro _ _
    | split
    | dsimp only

theorem engineInt_keeps {s0 : State} (b : BitVec 3) (s : State) (hu : Keeps s0 s) :
    Keeps s0 (engineInt b s) := by
  unfold engineInt
  (try dsimp only)
  repeat first
    | (simp only [keeps_mk]; with_reducible refine Keeps.fold ?_)
    | with_reducible assumption
    | with_reducible exact Keeps.refl _
    | with_reducible apply foldl_keeps
    | with_reducible apply Keeps.ite
    | with_reducible apply Keeps.iteFst
    | with_reducible apply Keeps.iteSnd
    | exact @rfl Nat _
    | exact List.length_set ..
    | intro _ _
    | split
    | dsimp only

theorem engineFaultJob_keeps {s0 : State} (e : BitVec 3) (s : State) (hu : Keeps s0 s) :
    Keeps s0 (engineFaultJob e s) := by
  unfold engineFaultJob
  (try dsimp only)
  repeat first
    | (simp only [keeps_mk]; with_reducible refine Keeps.fold ?_)
    | with_reducible assumption
    | with_reducible exact Keeps.refl _
    | with_reducible apply faultJob_keeps
    | with_reducible apply foldl_keeps
    | with_reducible apply Keeps.ite
    | with_reducible apply Keeps.iteFst
    | with_reducible apply Keeps.iteSnd
    | exact @rfl Nat _
    | exact List.length_set ..
    | intro _ _
    | split
    | dsimp only

theorem retireEngine_keeps {s0 : State} (e : BitVec 3) (cause : BitVec 2) (s : State) (hu : Keeps s0 s) :
    Keeps s0 (retireEngine e cause s) := by
  unfold retireEngine
  (try dsimp only)
  repeat first
    | (simp only [keeps_mk]; with_reducible refine Keeps.fold ?_)
    | with_reducible assumption
    | with_reducible exact Keeps.refl _
    | with_reducible apply engineInt_keeps
    | with_reducible apply State.setEngine_keeps
    | with_reducible apply faultJob_keeps
    | with_reducible apply strandedJob_keeps
    | with_reducible apply foldl_keeps
    | with_reducible apply Keeps.ite
    | with_reducible apply Keeps.iteFst
    | with_reducible apply Keeps.iteSnd
    | exact @rfl Nat _
    | exact List.length_set ..
    | intro _ _
    | split
    | dsimp only

theorem engineTrip_keeps {s0 : State} (e : BitVec 3) (s : State) (hu : Keeps s0 s) :
    Keeps s0 (engineTrip e s) := by
  unfold engineTrip
  (try dsimp only)
  repeat first
    | (simp only [keeps_mk]; with_reducible refine Keeps.fold ?_)
    | with_reducible assumption
    | with_reducible exact Keeps.refl _
    | with_reducible apply State.setEngine_keeps
    | with_reducible apply trip_keeps
    | with_reducible apply engineInt_keeps
    | with_reducible apply retireEngine_keeps
    | with_reducible apply engineFaultJob_keeps
    | with_reducible apply foldl_keeps
    | with_reducible apply Keeps.ite
    | with_reducible apply Keeps.iteFst
    | with_reducible apply Keeps.iteSnd
    | exact @rfl Nat _
    | exact List.length_set ..
    | intro _ _
    | split
    | dsimp only

theorem verifyFails_keeps {s0 : State} (e : BitVec 3) (s : State) (hu : Keeps s0 s) :
    Keeps s0 (verifyFails e s) := by
  unfold verifyFails
  (try dsimp only)
  repeat first
    | (simp only [keeps_mk]; with_reducible refine Keeps.fold ?_)
    | with_reducible assumption
    | with_reducible exact Keeps.refl _
    | with_reducible apply engineFaultJob_keeps
    | with_reducible apply trip_keeps
    | with_reducible apply foldl_keeps
    | with_reducible apply Keeps.ite
    | with_reducible apply Keeps.iteFst
    | with_reducible apply Keeps.iteSnd
    | exact @rfl Nat _
    | exact List.length_set ..
    | intro _ _
    | split
    | dsimp only

theorem checkedRun_keeps {s0 : State} (s : State) (x : Job) (inv : Bool) (ver : Bool) (r : Ran) (hs : Keeps s r.state) (hu : Keeps s0 s) :
    Keeps s0 (checkedRun s x inv ver r).state := by
  unfold checkedRun
  (try dsimp only)
  repeat first
    | (simp only [keeps_mk]; with_reducible refine Keeps.fold ?_)
    | with_reducible assumption
    | with_reducible exact Keeps.refl _
    | with_reducible apply verifyFails_keeps
    | with_reducible apply engineTrip_keeps
    | with_reducible refine Keeps.trans ?_ hs
    | with_reducible apply foldl_keeps
    | with_reducible apply Keeps.ite
    | with_reducible apply Keeps.iteFst
    | with_reducible apply Keeps.iteSnd
    | exact @rfl Nat _
    | exact List.length_set ..
    | intro _ _
    | split
    | dsimp only

theorem engineWipeDone_keeps {s0 : State} (e : BitVec 3) (ok : Bool) (s : State) (hu : Keeps s0 s) :
    Keeps s0 (engineWipeDone e ok s) := by
  unfold engineWipeDone
  (try dsimp only)
  repeat first
    | (simp only [keeps_mk]; with_reducible refine Keeps.fold ?_)
    | with_reducible assumption
    | with_reducible exact Keeps.refl _
    | with_reducible apply State.setEngine_keeps
    | with_reducible apply retireEngine_keeps
    | with_reducible apply trip_keeps
    | with_reducible apply foldl_keeps
    | with_reducible apply Keeps.ite
    | with_reducible apply Keeps.iteFst
    | with_reducible apply Keeps.iteSnd
    | exact @rfl Nat _
    | exact List.length_set ..
    | intro _ _
    | split
    | dsimp only

theorem transferFault_keeps {s0 : State} (j : JobId) (s : State) (hu : Keeps s0 s) :
    Keeps s0 (transferFault j s) := by
  unfold transferFault
  (try dsimp only)
  repeat first
    | (simp only [keeps_mk]; with_reducible refine Keeps.fold ?_)
    | with_reducible assumption
    | with_reducible exact Keeps.refl _
    | with_reducible apply State.setJob_keeps
    | with_reducible apply jobFault_keeps
    | with_reducible apply foldl_keeps
    | with_reducible apply Keeps.ite
    | with_reducible apply Keeps.iteFst
    | with_reducible apply Keeps.iteSnd
    | exact @rfl Nat _
    | exact List.length_set ..
    | intro _ _
    | split
    | dsimp only

theorem dualRail_keeps {s0 : State} (u : FaultUnit) (s : State) (hu : Keeps s0 s) :
    Keeps s0 (dualRail u s) := by
  unfold dualRail
  (try dsimp only)
  repeat first
    | (simp only [keeps_mk]; with_reducible refine Keeps.fold ?_)
    | with_reducible assumption
    | with_reducible exact Keeps.refl _
    | with_reducible apply trip_keeps
    | with_reducible apply tileDualRail_keeps
    | with_reducible apply retireEngine_keeps
    | with_reducible apply beginReload_keeps
    | with_reducible apply transferFault_keeps
    | with_reducible apply foldl_keeps
    | with_reducible apply Keeps.ite
    | with_reducible apply Keeps.iteFst
    | with_reducible apply Keeps.iteSnd
    | exact @rfl Nat _
    | exact List.length_set ..
    | intro _ _
    | split
    | dsimp only

theorem dropHeld_own (n : Nat) (s : State) : Keeps s (dropHeld n s) := by
  unfold dropHeld
  split
  · exact Keeps.refl s
  · exact Keeps.ports (s1 := s) rfl rfl (List.length_modify ..) (Keeps.refl s)

theorem dropHeld_keeps {s0 : State} (n : Nat) (s : State) (hu : Keeps s0 s) :
    Keeps s0 (dropHeld n s) :=
  Keeps.trans hu (dropHeld_own n s)

theorem dataError_keeps {s0 : State} (w : DataPlace) (s : State) (hu : Keeps s0 s) :
    Keeps s0 (dataError w s) := by
  unfold dataError
  (try dsimp only)
  repeat first
    | (simp only [keeps_mk]; with_reducible refine Keeps.fold ?_)
    | with_reducible assumption
    | with_reducible exact Keeps.refl _
    | with_reducible apply staleContext_keeps
    | with_reducible apply trip_keeps
    | with_reducible apply slotBad_keeps
    | with_reducible apply poison_keeps
    | with_reducible apply dropHeld_keeps
    | with_reducible apply jobFault_keeps
    | with_reducible apply breakJob_keeps
    | with_reducible apply foldl_keeps
    | with_reducible apply Keeps.ite
    | with_reducible apply Keeps.iteFst
    | with_reducible apply Keeps.iteSnd
    | exact @rfl Nat _
    | exact List.length_set ..
    | intro _ _
    | split
    | dsimp only

end Sys2Proof.Machine
end

