-- ==== Sys2Proof/Laws/KeepsLattice.lean ====
section
/-! SUPPORT. What the functions of Machine/Lattice.lean keep (Laws/Keeps.lean). -/
namespace Sys2Proof.Machine

-- One theorem after another: a thread for each that waits would fill the memory.
set_option Elab.async false

theorem halfKeygenRun_keeps {s0 : State} (s : State) (x : Job) (e : Nat × Nat) (h : Key) (r : Ran) (hs : Keeps s r.state) (hu : Keeps s0 s) :
    Keeps s0 (halfKeygenRun s x e h r).state := by
  unfold halfKeygenRun
  (try dsimp only)
  repeat first
    | (simp only [keeps_mk]; with_reducible refine Keeps.fold ?_)
    | with_reducible assumption
    | with_reducible exact Keeps.refl _
    | with_reducible apply checkedRun_keeps
    | with_reducible refine Keeps.trans ?_ hs
    | with_reducible apply foldl_keeps
    | with_reducible apply Keeps.ite
    | with_reducible apply Keeps.iteFst
    | with_reducible apply Keeps.iteSnd
    | exact @rfl Nat _
    | exact List.length_set ..
    | intro _ _
    | split
    | dsimp only

theorem mlkemKeygenRun_keeps {s0 : State} (s : State) (x : Job) (hu : Keeps s0 s) :
    Keeps s0 (mlkemKeygenRun s x).state := by
  unfold mlkemKeygenRun
  (try dsimp only)
  repeat first
    | (simp only [keeps_mk]; with_reducible refine Keeps.fold ?_)
    | with_reducible assumption
    | with_reducible exact Keeps.refl _
    | with_reducible apply ranWith_keeps
    | with_reducible apply halfKeygenRun_keeps
    | with_reducible apply draw_keeps
    | with_reducible apply foldl_keeps
    | with_reducible apply Keeps.ite
    | with_reducible apply Keeps.iteFst
    | with_reducible apply Keeps.iteSnd
    | exact @rfl Nat _
    | exact List.length_set ..
    | intro _ _
    | split
    | dsimp only

theorem mlkemKeygenSpec_keeps : ∀ s x, Keeps s ((mlkemKeygenSpec).run s x).state := by
  intro s x
  unfold mlkemKeygenSpec
  (try dsimp only)
  repeat first
    | (simp only [keeps_mk]; with_reducible refine Keeps.fold ?_)
    | with_reducible assumption
    | with_reducible exact Keeps.refl _
    | with_reducible apply mlkemKeygenRun_keeps
    | with_reducible apply foldl_keeps
    | with_reducible apply Keeps.ite
    | with_reducible apply Keeps.iteFst
    | with_reducible apply Keeps.iteSnd
    | exact @rfl Nat _
    | exact List.length_set ..
    | intro _ _
    | split
    | dsimp only

theorem halfRun_keeps {s0 : State} (s : State) (x : Job) (m : BitVec 2) (y : Nat → Bytes × Bytes × Bool) (r : Ran) (hs : Keeps s r.state) (hu : Keeps s0 s) :
    Keeps s0 (halfRun s x m y r).state := by
  unfold halfRun
  (try dsimp only)
  repeat first
    | (simp only [keeps_mk]; with_reducible refine Keeps.fold ?_)
    | with_reducible assumption
    | with_reducible exact Keeps.refl _
    | with_reducible apply checkedRun_keeps
    | with_reducible refine Keeps.trans ?_ hs
    | with_reducible apply foldl_keeps
    | with_reducible apply Keeps.ite
    | with_reducible apply Keeps.iteFst
    | with_reducible apply Keeps.iteSnd
    | exact @rfl Nat _
    | exact List.length_set ..
    | intro _ _
    | split
    | dsimp only

theorem releaseSecret_keeps {s0 : State} (s : State) (x : Job) (before : Bytes) (secret : Bytes) (k : Key → Key) (hu : Keeps s0 s) :
    Keeps s0 (releaseSecret s x before secret k).state := by
  unfold releaseSecret
  (try dsimp only)
  repeat first
    | (simp only [keeps_mk]; with_reducible refine Keeps.fold ?_)
    | with_reducible assumption
    | with_reducible exact Keeps.refl _
    | with_reducible apply ranWith_keeps
    | with_reducible apply foldl_keeps
    | with_reducible apply Keeps.ite
    | with_reducible apply Keeps.iteFst
    | with_reducible apply Keeps.iteSnd
    | exact @rfl Nat _
    | exact List.length_set ..
    | intro _ _
    | split
    | dsimp only

theorem mlkemEncapsRun_keeps {s0 : State} (s : State) (x : Job) (hu : Keeps s0 s) :
    Keeps s0 (mlkemEncapsRun s x).state := by
  unfold mlkemEncapsRun
  (try dsimp only)
  repeat first
    | (simp only [keeps_mk]; with_reducible refine Keeps.fold ?_)
    | with_reducible assumption
    | with_reducible exact Keeps.refl _
    | with_reducible apply halfRun_keeps
    | with_reducible apply ranBad_keeps
    | with_reducible apply releaseSecret_keeps
    | with_reducible apply draw_keeps
    | with_reducible apply foldl_keeps
    | with_reducible apply Keeps.ite
    | with_reducible apply Keeps.iteFst
    | with_reducible apply Keeps.iteSnd
    | exact @rfl Nat _
    | exact List.length_set ..
    | intro _ _
    | split
    | dsimp only

theorem mlkemEncapsSpec_keeps : ∀ s x, Keeps s ((mlkemEncapsSpec).run s x).state := by
  intro s x
  unfold mlkemEncapsSpec
  (try dsimp only)
  repeat first
    | (simp only [keeps_mk]; with_reducible refine Keeps.fold ?_)
    | with_reducible assumption
    | with_reducible exact Keeps.refl _
    | with_reducible apply mlkemEncapsRun_keeps
    | with_reducible apply foldl_keeps
    | with_reducible apply Keeps.ite
    | with_reducible apply Keeps.iteFst
    | with_reducible apply Keeps.iteSnd
    | exact @rfl Nat _
    | exact List.length_set ..
    | intro _ _
    | split
    | dsimp only

theorem mlkemDecapsRun_keeps {s0 : State} (s : State) (x : Job) (hu : Keeps s0 s) :
    Keeps s0 (mlkemDecapsRun s x).state := by
  unfold mlkemDecapsRun
  (try dsimp only)
  repeat first
    | (simp only [keeps_mk]; with_reducible refine Keeps.fold ?_)
    | with_reducible assumption
    | with_reducible exact Keeps.refl _
    | with_reducible apply ranBad_keeps
    | with_reducible apply halfRun_keeps
    | with_reducible apply releaseSecret_keeps
    | with_reducible apply foldl_keeps
    | with_reducible apply Keeps.ite
    | with_reducible apply Keeps.iteFst
    | with_reducible apply Keeps.iteSnd
    | exact @rfl Nat _
    | exact List.length_set ..
    | intro _ _
    | split
    | dsimp only

theorem mlkemDecapsSpec_keeps : ∀ s x, Keeps s ((mlkemDecapsSpec).run s x).state := by
  intro s x
  unfold mlkemDecapsSpec
  (try dsimp only)
  repeat first
    | (simp only [keeps_mk]; with_reducible refine Keeps.fold ?_)
    | with_reducible assumption
    | with_reducible exact Keeps.refl _
    | with_reducible apply mlkemDecapsRun_keeps
    | with_reducible apply foldl_keeps
    | with_reducible apply Keeps.ite
    | with_reducible apply Keeps.iteFst
    | with_reducible apply Keeps.iteSnd
    | exact @rfl Nat _
    | exact List.length_set ..
    | intro _ _
    | split
    | dsimp only

theorem mlkemPubkeyRun_keeps {s0 : State} (s : State) (x : Job) (hu : Keeps s0 s) :
    Keeps s0 (mlkemPubkeyRun s x).state := by
  unfold mlkemPubkeyRun
  (try dsimp only)
  repeat first
    | (simp only [keeps_mk]; with_reducible refine Keeps.fold ?_)
    | with_reducible assumption
    | with_reducible exact Keeps.refl _
    | with_reducible apply ranWith_keeps
    | with_reducible apply foldl_keeps
    | with_reducible apply Keeps.ite
    | with_reducible apply Keeps.iteFst
    | with_reducible apply Keeps.iteSnd
    | exact @rfl Nat _
    | exact List.length_set ..
    | intro _ _
    | split
    | dsimp only

theorem mlkemPubkeySpec_keeps : ∀ s x, Keeps s ((mlkemPubkeySpec).run s x).state := by
  intro s x
  unfold mlkemPubkeySpec
  (try dsimp only)
  repeat first
    | (simp only [keeps_mk]; with_reducible refine Keeps.fold ?_)
    | with_reducible assumption
    | with_reducible exact Keeps.refl _
    | with_reducible apply mlkemPubkeyRun_keeps
    | with_reducible apply foldl_keeps
    | with_reducible apply Keeps.ite
    | with_reducible apply Keeps.iteFst
    | with_reducible apply Keeps.iteSnd
    | exact @rfl Nat _
    | exact List.length_set ..
    | intro _ _
    | split
    | dsimp only

theorem furtherDraws_own (p : BitVec 8) (k : Nat) (r : Bytes) (s : State) : Keeps s (furtherDraws p k r s).2 := by
  induction k generalizing r s with
  | zero => exact Keeps.refl s
  | succ k ih => exact Keeps.trans (draw_keeps _ _ _ (Keeps.refl _)) (ih _ _)

theorem furtherDraws_keeps {s0 : State} (p : BitVec 8) (z1 : Nat) (z2 : Bytes) (z3 : State) (hu : Keeps s0 z3) :
    Keeps s0 (furtherDraws p z1 z2 z3).2 :=
  Keeps.trans hu (furtherDraws_own p z1 z2 z3)

theorem lastRnd_keeps {s0 : State} (f : LatticeSig) (p : BitVec 8) (k : Option Nat) (rnd : Bytes) (s : State) (hu : Keeps s0 s) :
    Keeps s0 (lastRnd f p k rnd s).2 := by
  unfold lastRnd
  (try dsimp only)
  repeat first
    | (simp only [keeps_mk]; with_reducible refine Keeps.fold ?_)
    | with_reducible assumption
    | with_reducible exact Keeps.refl _
    | with_reducible apply furtherDraws_keeps
    | with_reducible apply foldl_keeps
    | with_reducible apply Keeps.ite
    | with_reducible apply Keeps.iteFst
    | with_reducible apply Keeps.iteSnd
    | exact @rfl Nat _
    | exact List.length_set ..
    | intro _ _
    | split
    | dsimp only

theorem latticeKeygenRun_keeps {s0 : State} (f : LatticeSig) (s : State) (x : Job) (hu : Keeps s0 s) :
    Keeps s0 (latticeKeygenRun f s x).state := by
  unfold latticeKeygenRun
  (try dsimp only)
  repeat first
    | (simp only [keeps_mk]; with_reducible refine Keeps.fold ?_)
    | with_reducible assumption
    | with_reducible exact Keeps.refl _
    | with_reducible apply ranWith_keeps
    | with_reducible apply iterationLimit_keeps
    | with_reducible apply draw_keeps
    | with_reducible apply lastRnd_keeps
    | with_reducible apply foldl_keeps
    | with_reducible apply Keeps.ite
    | with_reducible apply Keeps.iteFst
    | with_reducible apply Keeps.iteSnd
    | exact @rfl Nat _
    | exact List.length_set ..
    | intro _ _
    | split
    | dsimp only

theorem latticeKeygenSpec_keeps (code : BitVec 16) (f : LatticeSig) : ∀ s x, Keeps s ((latticeKeygenSpec code f).run s x).state := by
  intro s x
  unfold latticeKeygenSpec
  (try dsimp only)
  repeat first
    | (simp only [keeps_mk]; with_reducible refine Keeps.fold ?_)
    | with_reducible assumption
    | with_reducible exact Keeps.refl _
    | with_reducible apply latticeKeygenRun_keeps
    | with_reducible apply foldl_keeps
    | with_reducible apply Keeps.ite
    | with_reducible apply Keeps.iteFst
    | with_reducible apply Keeps.iteSnd
    | exact @rfl Nat _
    | exact List.length_set ..
    | intro _ _
    | split
    | dsimp only

theorem latticeSignRun_keeps {s0 : State} (f : LatticeSig) (s : State) (x : Job) (hu : Keeps s0 s) :
    Keeps s0 (latticeSignRun f s x).state := by
  unfold latticeSignRun
  (try dsimp only)
  repeat first
    | (simp only [keeps_mk]; with_reducible refine Keeps.fold ?_)
    | with_reducible assumption
    | with_reducible exact Keeps.refl _
    | with_reducible apply ranBad_keeps
    | with_reducible apply iterationLimit_keeps
    | with_reducible apply ranWith_keeps
    | with_reducible apply signed_keeps
    | with_reducible apply draw_keeps
    | with_reducible apply lastRnd_keeps
    | with_reducible apply foldl_keeps
    | with_reducible apply Keeps.ite
    | with_reducible apply Keeps.iteFst
    | with_reducible apply Keeps.iteSnd
    | exact @rfl Nat _
    | exact List.length_set ..
    | intro _ _
    | split
    | dsimp only

theorem latticeSignSpec_keeps (code : BitVec 16) (f : LatticeSig) : ∀ s x, Keeps s ((latticeSignSpec code f).run s x).state := by
  intro s x
  unfold latticeSignSpec
  (try dsimp only)
  repeat first
    | (simp only [keeps_mk]; with_reducible refine Keeps.fold ?_)
    | with_reducible assumption
    | with_reducible exact Keeps.refl _
    | with_reducible apply latticeSignRun_keeps
    | with_reducible apply foldl_keeps
    | with_reducible apply Keeps.ite
    | with_reducible apply Keeps.iteFst
    | with_reducible apply Keeps.iteSnd
    | exact @rfl Nat _
    | exact List.length_set ..
    | intro _ _
    | split
    | dsimp only

theorem latticeVerifyRun_keeps {s0 : State} (f : LatticeSig) (s : State) (x : Job) (hu : Keeps s0 s) :
    Keeps s0 (latticeVerifyRun f s x).state := by
  unfold latticeVerifyRun
  (try dsimp only)
  repeat first
    | (simp only [keeps_mk]; with_reducible refine Keeps.fold ?_)
    | with_reducible assumption
    | with_reducible exact Keeps.refl _
    | with_reducible apply ranBad_keeps
    | with_reducible apply ranWith_keeps
    | with_reducible apply foldl_keeps
    | with_reducible apply Keeps.ite
    | with_reducible apply Keeps.iteFst
    | with_reducible apply Keeps.iteSnd
    | exact @rfl Nat _
    | exact List.length_set ..
    | intro _ _
    | split
    | dsimp only

theorem latticeVerifySpec_keeps (code : BitVec 16) (f : LatticeSig) : ∀ s x, Keeps s ((latticeVerifySpec code f).run s x).state := by
  intro s x
  unfold latticeVerifySpec
  (try dsimp only)
  repeat first
    | (simp only [keeps_mk]; with_reducible refine Keeps.fold ?_)
    | with_reducible assumption
    | with_reducible exact Keeps.refl _
    | with_reducible apply latticeVerifyRun_keeps
    | with_reducible apply foldl_keeps
    | with_reducible apply Keeps.ite
    | with_reducible apply Keeps.iteFst
    | with_reducible apply Keeps.iteSnd
    | exact @rfl Nat _
    | exact List.length_set ..
    | intro _ _
    | split
    | dsimp only

theorem mldsaKeygenSpec_keeps : ∀ s x, Keeps s ((mldsaKeygenSpec).run s x).state := by
  intro s x
  unfold mldsaKeygenSpec
  (try dsimp only)
  repeat first
    | (simp only [keeps_mk]; with_reducible refine Keeps.fold ?_)
    | with_reducible assumption
    | with_reducible exact Keeps.refl _
    | with_reducible apply latticeKeygenSpec_keeps
    | with_reducible apply foldl_keeps
    | with_reducible apply Keeps.ite
    | with_reducible apply Keeps.iteFst
    | with_reducible apply Keeps.iteSnd
    | exact @rfl Nat _
    | exact List.length_set ..
    | intro _ _
    | split
    | dsimp only

theorem mldsaSignSpec_keeps : ∀ s x, Keeps s ((mldsaSignSpec).run s x).state := by
  intro s x
  unfold mldsaSignSpec
  (try dsimp only)
  repeat first
    | (simp only [keeps_mk]; with_reducible refine Keeps.fold ?_)
    | with_reducible assumption
    | with_reducible exact Keeps.refl _
    | with_reducible apply latticeSignSpec_keeps
    | with_reducible apply foldl_keeps
    | with_reducible apply Keeps.ite
    | with_reducible apply Keeps.iteFst
    | with_reducible apply Keeps.iteSnd
    | exact @rfl Nat _
    | exact List.length_set ..
    | intro _ _
    | split
    | dsimp only

theorem mldsaVerifySpec_keeps : ∀ s x, Keeps s ((mldsaVerifySpec).run s x).state := by
  intro s x
  unfold mldsaVerifySpec
  (try dsimp only)
  repeat first
    | (simp only [keeps_mk]; with_reducible refine Keeps.fold ?_)
    | with_reducible assumption
    | with_reducible exact Keeps.refl _
    | with_reducible apply latticeVerifySpec_keeps
    | with_reducible apply foldl_keeps
    | with_reducible apply Keeps.ite
    | with_reducible apply Keeps.iteFst
    | with_reducible apply Keeps.iteSnd
    | exact @rfl Nat _
    | exact List.length_set ..
    | intro _ _
    | split
    | dsimp only

theorem mldsaPubkeySpec_keeps : ∀ s x, Keeps s ((mldsaPubkeySpec).run s x).state := by
  intro s x
  unfold mldsaPubkeySpec
  (try dsimp only)
  repeat first
    | (simp only [keeps_mk]; with_reducible refine Keeps.fold ?_)
    | with_reducible assumption
    | with_reducible exact Keeps.refl _
    | with_reducible apply pubkeySpec_keeps
    | with_reducible apply foldl_keeps
    | with_reducible apply Keeps.ite
    | with_reducible apply Keeps.iteFst
    | with_reducible apply Keeps.iteSnd
    | exact @rfl Nat _
    | exact List.length_set ..
    | intro _ _
    | split
    | dsimp only

theorem fndsaKeygenSpec_keeps : ∀ s x, Keeps s ((fndsaKeygenSpec).run s x).state := by
  intro s x
  unfold fndsaKeygenSpec
  (try dsimp only)
  repeat first
    | (simp only [keeps_mk]; with_reducible refine Keeps.fold ?_)
    | with_reducible assumption
    | with_reducible exact Keeps.refl _
    | with_reducible apply latticeKeygenSpec_keeps
    | with_reducible apply foldl_keeps
    | with_reducible apply Keeps.ite
    | with_reducible apply Keeps.iteFst
    | with_reducible apply Keeps.iteSnd
    | exact @rfl Nat _
    | exact List.length_set ..
    | intro _ _
    | split
    | dsimp only

theorem fndsaSignSpec_keeps : ∀ s x, Keeps s ((fndsaSignSpec).run s x).state := by
  intro s x
  unfold fndsaSignSpec
  (try dsimp only)
  repeat first
    | (simp only [keeps_mk]; with_reducible refine Keeps.fold ?_)
    | with_reducible assumption
    | with_reducible exact Keeps.refl _
    | with_reducible apply latticeSignSpec_keeps
    | with_reducible apply foldl_keeps
    | with_reducible apply Keeps.ite
    | with_reducible apply Keeps.iteFst
    | with_reducible apply Keeps.iteSnd
    | exact @rfl Nat _
    | exact List.length_set ..
    | intro _ _
    | split
    | dsimp only

theorem fndsaVerifySpec_keeps : ∀ s x, Keeps s ((fndsaVerifySpec).run s x).state := by
  intro s x
  unfold fndsaVerifySpec
  (try dsimp only)
  repeat first
    | (simp only [keeps_mk]; with_reducible refine Keeps.fold ?_)
    | with_reducible assumption
    | with_reducible exact Keeps.refl _
    | with_reducible apply latticeVerifySpec_keeps
    | with_reducible apply foldl_keeps
    | with_reducible apply Keeps.ite
    | with_reducible apply Keeps.iteFst
    | with_reducible apply Keeps.iteSnd
    | exact @rfl Nat _
    | exact List.length_set ..
    | intro _ _
    | split
    | dsimp only

theorem fndsaPubkeySpec_keeps : ∀ s x, Keeps s ((fndsaPubkeySpec).run s x).state := by
  intro s x
  unfold fndsaPubkeySpec
  (try dsimp only)
  repeat first
    | (simp only [keeps_mk]; with_reducible refine Keeps.fold ?_)
    | with_reducible assumption
    | with_reducible exact Keeps.refl _
    | with_reducible apply pubkeySpec_keeps
    | with_reducible apply foldl_keeps
    | with_reducible apply Keeps.ite
    | with_reducible apply Keeps.iteFst
    | with_reducible apply Keeps.iteSnd
    | exact @rfl Nat _
    | exact List.length_set ..
    | intro _ _
    | split
    | dsimp only

end Sys2Proof.Machine
end

