-- ==== Sys2Proof/Laws/KeepsBigNum.lean ====
section
/-! SUPPORT. What the functions of Machine/BigNum.lean keep (Laws/Keeps.lean). -/
namespace Sys2Proof.Machine

-- One theorem after another: a thread for each that waits would fill the memory.
set_option Elab.async false

theorem ecKeygenRun_keeps {s0 : State} (s : State) (x : Job) (hu : Keeps s0 s) :
    Keeps s0 (ecKeygenRun s x).state := by
  unfold ecKeygenRun
  (try dsimp only)
  repeat first
    | (simp only [keeps_mk]; with_reducible refine Keeps.fold ?_)
    | with_reducible assumption
    | with_reducible exact Keeps.refl _
    | with_reducible apply ranBad_keeps
    | with_reducible apply checkedRun_keeps
    | with_reducible apply ranWith_keeps
    | with_reducible apply draw_keeps
    | with_reducible apply foldl_keeps
    | with_reducible apply Keeps.ite
    | with_reducible apply Keeps.iteFst
    | with_reducible apply Keeps.iteSnd
    | exact @rfl Nat _
    | exact List.length_set ..
    | intro _ _
    | intro (_ : Nat)
    | split
    | dsimp only

theorem ecKeygenSpec_keeps : ∀ s x, Keeps s ((ecKeygenSpec).run s x).state := by
  intro s x
  unfold ecKeygenSpec
  (try dsimp only)
  repeat first
    | (simp only [keeps_mk]; with_reducible refine Keeps.fold ?_)
    | with_reducible assumption
    | with_reducible exact Keeps.refl _
    | with_reducible apply ecKeygenRun_keeps
    | with_reducible apply foldl_keeps
    | with_reducible apply Keeps.ite
    | with_reducible apply Keeps.iteFst
    | with_reducible apply Keeps.iteSnd
    | exact @rfl Nat _
    | exact List.length_set ..
    | intro _ _
    | intro (_ : Nat)
    | split
    | dsimp only

theorem ecPubkeyRun_keeps {s0 : State} (s : State) (x : Job) (hu : Keeps s0 s) :
    Keeps s0 (ecPubkeyRun s x).state := by
  unfold ecPubkeyRun
  (try dsimp only)
  repeat first
    | (simp only [keeps_mk]; with_reducible refine Keeps.fold ?_)
    | with_reducible assumption
    | with_reducible exact Keeps.refl _
    | with_reducible apply ranBad_keeps
    | with_reducible apply ranWith_keeps
    | with_reducible apply foldl_keeps
    | with_reducible apply Keeps.ite
    | with_reducible apply Keeps.iteFst
    | with_reducible apply Keeps.iteSnd
    | exact @rfl Nat _
    | exact List.length_set ..
    | intro _ _
    | intro (_ : Nat)
    | split
    | dsimp only

theorem ecPubkeySpec_keeps : ∀ s x, Keeps s ((ecPubkeySpec).run s x).state := by
  intro s x
  unfold ecPubkeySpec
  (try dsimp only)
  repeat first
    | (simp only [keeps_mk]; with_reducible refine Keeps.fold ?_)
    | with_reducible assumption
    | with_reducible exact Keeps.refl _
    | with_reducible apply ecPubkeyRun_keeps
    | with_reducible apply foldl_keeps
    | with_reducible apply Keeps.ite
    | with_reducible apply Keeps.iteFst
    | with_reducible apply Keeps.iteSnd
    | exact @rfl Nat _
    | exact List.length_set ..
    | intro _ _
    | intro (_ : Nat)
    | split
    | dsimp only

theorem nextNonce_keeps {s0 : State} (c : Curve) (s : State) (x : Job) (g : NonceGen) (hu : Keeps s0 s) :
    Keeps s0 (nextNonce c s x g).2.2 := by
  unfold nextNonce
  (try dsimp only)
  repeat first
    | (simp only [keeps_mk]; with_reducible refine Keeps.fold ?_)
    | with_reducible assumption
    | with_reducible exact Keeps.refl _
    | with_reducible apply draw_keeps
    | with_reducible apply foldl_keeps
    | with_reducible apply Keeps.ite
    | with_reducible apply Keeps.iteFst
    | with_reducible apply Keeps.iteSnd
    | exact @rfl Nat _
    | exact List.length_set ..
    | intro _ _
    | intro (_ : Nat)
    | split
    | dsimp only

theorem nonceTries_own (c : Curve) (d e : Nat) (x : Job) (z4 z5 : Nat) (z6 : NonceGen) (z7 : State) :
    Keeps z7 (nonceTries c d e x z4 z5 z6 z7).2 := by
  induction z4 generalizing z5 z6 z7 with
  | zero => exact Keeps.refl _
  | succ f ih =>
    unfold nonceTries
    dsimp only
    split
    · exact nextNonce_keeps _ _ _ _ (Keeps.refl _)
    · exact Keeps.trans (nextNonce_keeps _ _ _ _ (Keeps.refl _)) (ih _ _ _)

theorem nonceTries_keeps {s0 : State} (c : Curve) (d : Nat) (e : Nat) (x : Job) (z4 : Nat) (z5 : Nat) (z6 : NonceGen) (z7 : State) (hu : Keeps s0 z7) :
    Keeps s0 (nonceTries c d e x z4 z5 z6 z7).2 :=
  Keeps.trans hu (nonceTries_own c d e x z4 z5 z6 z7)

theorem ecdsaSignRun_own (s : State) (x : Job) : Keeps s (ecdsaSignRun s x).state := by
  unfold ecdsaSignRun
  split
  · exact (ranBad_keeps _ _ (Keeps.refl _))
  dsimp only
  split <;> rename_i e <;> have h := congrArg Prod.snd e <;> dsimp only at h <;> subst h
  · exact ranBad_keeps _ _ (nonceTries_keeps _ _ _ _ _ _ _ _ (Keeps.refl _))
  · exact checkedRun_keeps _ _ _ _ _ (ranWith_keeps _ _ _ (Keeps.refl _)) (nonceTries_keeps _ _ _ _ _ _ _ _ (Keeps.refl _))

theorem ecdsaSignRun_keeps {s0 : State} (s : State) (x : Job) (hu : Keeps s0 s) :
    Keeps s0 (ecdsaSignRun s x).state :=
  Keeps.trans hu (ecdsaSignRun_own s x)

theorem ecdsaSignSpec_keeps : ∀ s x, Keeps s ((ecdsaSignSpec).run s x).state := by
  intro s x
  unfold ecdsaSignSpec
  (try dsimp only)
  repeat first
    | (simp only [keeps_mk]; with_reducible refine Keeps.fold ?_)
    | with_reducible assumption
    | with_reducible exact Keeps.refl _
    | with_reducible apply ecdsaSignRun_keeps
    | with_reducible apply foldl_keeps
    | with_reducible apply Keeps.ite
    | with_reducible apply Keeps.iteFst
    | with_reducible apply Keeps.iteSnd
    | exact @rfl Nat _
    | exact List.length_set ..
    | intro _ _
    | intro (_ : Nat)
    | split
    | dsimp only

theorem ecdsaVerifyRun_keeps {s0 : State} (s : State) (x : Job) (hu : Keeps s0 s) :
    Keeps s0 (ecdsaVerifyRun s x).state := by
  unfold ecdsaVerifyRun
  (try dsimp only)
  repeat first
    | (simp only [keeps_mk]; with_reducible refine Keeps.fold ?_)
    | with_reducible assumption
    | with_reducible exact Keeps.refl _
    | with_reducible apply ranBad_keeps
    | with_reducible apply ranWith_keeps
    | with_reducible apply foldl_keeps
    | with_reducible apply Keeps.ite
    | with_reducible apply Keeps.iteFst
    | with_reducible apply Keeps.iteSnd
    | exact @rfl Nat _
    | exact List.length_set ..
    | intro _ _
    | intro (_ : Nat)
    | split
    | dsimp only

theorem ecdsaVerifySpec_keeps : ∀ s x, Keeps s ((ecdsaVerifySpec).run s x).state := by
  intro s x
  unfold ecdsaVerifySpec
  (try dsimp only)
  repeat first
    | (simp only [keeps_mk]; with_reducible refine Keeps.fold ?_)
    | with_reducible assumption
    | with_reducible exact Keeps.refl _
    | with_reducible apply ecdsaVerifyRun_keeps
    | with_reducible apply foldl_keeps
    | with_reducible apply Keeps.ite
    | with_reducible apply Keeps.iteFst
    | with_reducible apply Keeps.iteSnd
    | exact @rfl Nat _
    | exact List.length_set ..
    | intro _ _
    | intro (_ : Nat)
    | split
    | dsimp only

theorem ecdhRun_keeps {s0 : State} (s : State) (x : Job) (hu : Keeps s0 s) :
    Keeps s0 (ecdhRun s x).state := by
  unfold ecdhRun
  (try dsimp only)
  repeat first
    | (simp only [keeps_mk]; with_reducible refine Keeps.fold ?_)
    | with_reducible assumption
    | with_reducible exact Keeps.refl _
    | with_reducible apply ranBad_keeps
    | with_reducible apply checkedRun_keeps
    | with_reducible apply releaseSecret_keeps
    | with_reducible apply foldl_keeps
    | with_reducible apply Keeps.ite
    | with_reducible apply Keeps.iteFst
    | with_reducible apply Keeps.iteSnd
    | exact @rfl Nat _
    | exact List.length_set ..
    | intro _ _
    | intro (_ : Nat)
    | split
    | dsimp only

theorem ecdhSpec_keeps : ∀ s x, Keeps s ((ecdhSpec).run s x).state := by
  intro s x
  unfold ecdhSpec
  (try dsimp only)
  repeat first
    | (simp only [keeps_mk]; with_reducible refine Keeps.fold ?_)
    | with_reducible assumption
    | with_reducible exact Keeps.refl _
    | with_reducible apply ecdhRun_keeps
    | with_reducible apply foldl_keeps
    | with_reducible apply Keeps.ite
    | with_reducible apply Keeps.iteFst
    | with_reducible apply Keeps.iteSnd
    | exact @rfl Nat _
    | exact List.length_set ..
    | intro _ _
    | intro (_ : Nat)
    | split
    | dsimp only

theorem curveLoadRun_keeps {s0 : State} (s : State) (x : Job) (hu : Keeps s0 s) :
    Keeps s0 (curveLoadRun s x).state := by
  unfold curveLoadRun
  (try dsimp only)
  repeat first
    | (simp only [keeps_mk]; with_reducible refine Keeps.fold ?_)
    | with_reducible assumption
    | with_reducible exact Keeps.refl _
    | with_reducible apply ranBad_keeps
    | with_reducible apply ranWith_keeps
    | with_reducible apply foldl_keeps
    | with_reducible apply Keeps.ite
    | with_reducible apply Keeps.iteFst
    | with_reducible apply Keeps.iteSnd
    | exact @rfl Nat _
    | exact List.length_set ..
    | intro _ _
    | intro (_ : Nat)
    | split
    | dsimp only

theorem curveLoadSpec_keeps : ∀ s x, Keeps s ((curveLoadSpec).run s x).state := by
  intro s x
  unfold curveLoadSpec
  (try dsimp only)
  repeat first
    | (simp only [keeps_mk]; with_reducible refine Keeps.fold ?_)
    | with_reducible assumption
    | with_reducible exact Keeps.refl _
    | with_reducible apply curveLoadRun_keeps
    | with_reducible apply foldl_keeps
    | with_reducible apply Keeps.ite
    | with_reducible apply Keeps.iteFst
    | with_reducible apply Keeps.iteSnd
    | exact @rfl Nat _
    | exact List.length_set ..
    | intro _ _
    | intro (_ : Nat)
    | split
    | dsimp only

theorem plainKeygenRun_keeps {s0 : State} (typ : Nat) (usage : BitVec 16) (s : State) (x : Job) (hu : Keeps s0 s) :
    Keeps s0 (plainKeygenRun typ usage s x).state := by
  unfold plainKeygenRun
  (try dsimp only)
  repeat first
    | (simp only [keeps_mk]; with_reducible refine Keeps.fold ?_)
    | with_reducible assumption
    | with_reducible exact Keeps.refl _
    | with_reducible apply checkedRun_keeps
    | with_reducible apply ranWith_keeps
    | with_reducible apply draw_keeps
    | with_reducible apply foldl_keeps
    | with_reducible apply Keeps.ite
    | with_reducible apply Keeps.iteFst
    | with_reducible apply Keeps.iteSnd
    | exact @rfl Nat _
    | exact List.length_set ..
    | intro _ _
    | intro (_ : Nat)
    | split
    | dsimp only

theorem plainKeygenSpec_keeps (code : BitVec 16) (typ : Nat) (usage : BitVec 16) (seedOk : Bool) (fig : Nat → Nat) (test : Nat → Nat) : ∀ s x, Keeps s ((plainKeygenSpec code typ usage seedOk fig test).run s x).state := by
  intro s x
  unfold plainKeygenSpec
  (try dsimp only)
  repeat first
    | (simp only [keeps_mk]; with_reducible refine Keeps.fold ?_)
    | with_reducible assumption
    | with_reducible exact Keeps.refl _
    | with_reducible apply plainKeygenRun_keeps
    | with_reducible apply foldl_keeps
    | with_reducible apply Keeps.ite
    | with_reducible apply Keeps.iteFst
    | with_reducible apply Keeps.iteSnd
    | exact @rfl Nat _
    | exact List.length_set ..
    | intro _ _
    | intro (_ : Nat)
    | split
    | dsimp only

theorem plainPubkeySpec_keeps (code : BitVec 16) (typ : Nat) : ∀ s x, Keeps s ((plainPubkeySpec code typ).run s x).state := by
  intro s x
  unfold plainPubkeySpec
  (try dsimp only)
  repeat first
    | (simp only [keeps_mk]; with_reducible refine Keeps.fold ?_)
    | with_reducible assumption
    | with_reducible exact Keeps.refl _
    | with_reducible apply pubkeySpec_keeps
    | with_reducible apply foldl_keeps
    | with_reducible apply Keeps.ite
    | with_reducible apply Keeps.iteFst
    | with_reducible apply Keeps.iteSnd
    | exact @rfl Nat _
    | exact List.length_set ..
    | intro _ _
    | intro (_ : Nat)
    | split
    | dsimp only

theorem eddsaSignRun_keeps {s0 : State} (s : State) (x : Job) (hu : Keeps s0 s) :
    Keeps s0 (eddsaSignRun s x).state := by
  unfold eddsaSignRun
  (try dsimp only)
  repeat first
    | (simp only [keeps_mk]; with_reducible refine Keeps.fold ?_)
    | with_reducible assumption
    | with_reducible exact Keeps.refl _
    | with_reducible apply ranBad_keeps
    | with_reducible apply checkedRun_keeps
    | with_reducible apply ranWith_keeps
    | with_reducible apply foldl_keeps
    | with_reducible apply Keeps.ite
    | with_reducible apply Keeps.iteFst
    | with_reducible apply Keeps.iteSnd
    | exact @rfl Nat _
    | exact List.length_set ..
    | intro _ _
    | intro (_ : Nat)
    | split
    | dsimp only

theorem eddsaSignSpec_keeps : ∀ s x, Keeps s ((eddsaSignSpec).run s x).state := by
  intro s x
  unfold eddsaSignSpec
  (try dsimp only)
  repeat first
    | (simp only [keeps_mk]; with_reducible refine Keeps.fold ?_)
    | with_reducible assumption
    | with_reducible exact Keeps.refl _
    | with_reducible apply eddsaSignRun_keeps
    | with_reducible apply foldl_keeps
    | with_reducible apply Keeps.ite
    | with_reducible apply Keeps.iteFst
    | with_reducible apply Keeps.iteSnd
    | exact @rfl Nat _
    | exact List.length_set ..
    | intro _ _
    | intro (_ : Nat)
    | split
    | dsimp only

theorem eddsaVerifyRun_keeps {s0 : State} (s : State) (x : Job) (hu : Keeps s0 s) :
    Keeps s0 (eddsaVerifyRun s x).state := by
  unfold eddsaVerifyRun
  (try dsimp only)
  repeat first
    | (simp only [keeps_mk]; with_reducible refine Keeps.fold ?_)
    | with_reducible assumption
    | with_reducible exact Keeps.refl _
    | with_reducible apply ranBad_keeps
    | with_reducible apply ranWith_keeps
    | with_reducible apply foldl_keeps
    | with_reducible apply Keeps.ite
    | with_reducible apply Keeps.iteFst
    | with_reducible apply Keeps.iteSnd
    | exact @rfl Nat _
    | exact List.length_set ..
    | intro _ _
    | intro (_ : Nat)
    | split
    | dsimp only

theorem eddsaVerifySpec_keeps : ∀ s x, Keeps s ((eddsaVerifySpec).run s x).state := by
  intro s x
  unfold eddsaVerifySpec
  (try dsimp only)
  repeat first
    | (simp only [keeps_mk]; with_reducible refine Keeps.fold ?_)
    | with_reducible assumption
    | with_reducible exact Keeps.refl _
    | with_reducible apply eddsaVerifyRun_keeps
    | with_reducible apply foldl_keeps
    | with_reducible apply Keeps.ite
    | with_reducible apply Keeps.iteFst
    | with_reducible apply Keeps.iteSnd
    | exact @rfl Nat _
    | exact List.length_set ..
    | intro _ _
    | intro (_ : Nat)
    | split
    | dsimp only

theorem eddsaKeygenSpec_keeps : ∀ s x, Keeps s ((eddsaKeygenSpec).run s x).state := by
  intro s x
  unfold eddsaKeygenSpec
  (try dsimp only)
  repeat first
    | (simp only [keeps_mk]; with_reducible refine Keeps.fold ?_)
    | with_reducible assumption
    | with_reducible exact Keeps.refl _
    | with_reducible apply plainKeygenSpec_keeps
    | with_reducible apply foldl_keeps
    | with_reducible apply Keeps.ite
    | with_reducible apply Keeps.iteFst
    | with_reducible apply Keeps.iteSnd
    | exact @rfl Nat _
    | exact List.length_set ..
    | intro _ _
    | intro (_ : Nat)
    | split
    | dsimp only

theorem eddsaPubkeySpec_keeps : ∀ s x, Keeps s ((eddsaPubkeySpec).run s x).state := by
  intro s x
  unfold eddsaPubkeySpec
  (try dsimp only)
  repeat first
    | (simp only [keeps_mk]; with_reducible refine Keeps.fold ?_)
    | with_reducible assumption
    | with_reducible exact Keeps.refl _
    | with_reducible apply plainPubkeySpec_keeps
    | with_reducible apply foldl_keeps
    | with_reducible apply Keeps.ite
    | with_reducible apply Keeps.iteFst
    | with_reducible apply Keeps.iteSnd
    | exact @rfl Nat _
    | exact List.length_set ..
    | intro _ _
    | intro (_ : Nat)
    | split
    | dsimp only

theorem exchangeRun_keeps {s0 : State} (typ : Nat) (peerBad : Nat → Bytes → Option Bad) (zeroBad : Bool) (s : State) (x : Job) (hu : Keeps s0 s) :
    Keeps s0 (exchangeRun typ peerBad zeroBad s x).state := by
  unfold exchangeRun
  (try dsimp only)
  repeat first
    | (simp only [keeps_mk]; with_reducible refine Keeps.fold ?_)
    | with_reducible assumption
    | with_reducible exact Keeps.refl _
    | with_reducible apply ranBad_keeps
    | with_reducible apply checkedRun_keeps
    | with_reducible apply releaseSecret_keeps
    | with_reducible apply foldl_keeps
    | with_reducible apply Keeps.ite
    | with_reducible apply Keeps.iteFst
    | with_reducible apply Keeps.iteSnd
    | exact @rfl Nat _
    | exact List.length_set ..
    | intro _ _
    | intro (_ : Nat)
    | split
    | dsimp only

theorem exchangeSpec_keeps (code : BitVec 16) (typ : Nat) (peerBad : Nat → Bytes → Option Bad) (zeroBad : Bool) (percent : Nat) (fig : Nat → Nat) : ∀ s x, Keeps s ((exchangeSpec code typ peerBad zeroBad percent fig).run s x).state := by
  intro s x
  unfold exchangeSpec
  (try dsimp only)
  repeat first
    | (simp only [keeps_mk]; with_reducible refine Keeps.fold ?_)
    | with_reducible assumption
    | with_reducible exact Keeps.refl _
    | with_reducible apply exchangeRun_keeps
    | with_reducible apply foldl_keeps
    | with_reducible apply Keeps.ite
    | with_reducible apply Keeps.iteFst
    | with_reducible apply Keeps.iteSnd
    | exact @rfl Nat _
    | exact List.length_set ..
    | intro _ _
    | intro (_ : Nat)
    | split
    | dsimp only

theorem xdhKeygenSpec_keeps : ∀ s x, Keeps s ((xdhKeygenSpec).run s x).state := by
  intro s x
  unfold xdhKeygenSpec
  (try dsimp only)
  repeat first
    | (simp only [keeps_mk]; with_reducible refine Keeps.fold ?_)
    | with_reducible assumption
    | with_reducible exact Keeps.refl _
    | with_reducible apply plainKeygenSpec_keeps
    | with_reducible apply foldl_keeps
    | with_reducible apply Keeps.ite
    | with_reducible apply Keeps.iteFst
    | with_reducible apply Keeps.iteSnd
    | exact @rfl Nat _
    | exact List.length_set ..
    | intro _ _
    | intro (_ : Nat)
    | split
    | dsimp only

theorem xdhSpec_keeps : ∀ s x, Keeps s ((xdhSpec).run s x).state := by
  intro s x
  unfold xdhSpec
  (try dsimp only)
  repeat first
    | (simp only [keeps_mk]; with_reducible refine Keeps.fold ?_)
    | with_reducible assumption
    | with_reducible exact Keeps.refl _
    | with_reducible apply exchangeSpec_keeps
    | with_reducible apply foldl_keeps
    | with_reducible apply Keeps.ite
    | with_reducible apply Keeps.iteFst
    | with_reducible apply Keeps.iteSnd
    | exact @rfl Nat _
    | exact List.length_set ..
    | intro _ _
    | intro (_ : Nat)
    | split
    | dsimp only

theorem xdhPubkeySpec_keeps : ∀ s x, Keeps s ((xdhPubkeySpec).run s x).state := by
  intro s x
  unfold xdhPubkeySpec
  (try dsimp only)
  repeat first
    | (simp only [keeps_mk]; with_reducible refine Keeps.fold ?_)
    | with_reducible assumption
    | with_reducible exact Keeps.refl _
    | with_reducible apply plainPubkeySpec_keeps
    | with_reducible apply foldl_keeps
    | with_reducible apply Keeps.ite
    | with_reducible apply Keeps.iteFst
    | with_reducible apply Keeps.iteSnd
    | exact @rfl Nat _
    | exact List.length_set ..
    | intro _ _
    | intro (_ : Nat)
    | split
    | dsimp only

theorem dhKeygenSpec_keeps : ∀ s x, Keeps s ((dhKeygenSpec).run s x).state := by
  intro s x
  unfold dhKeygenSpec
  (try dsimp only)
  repeat first
    | (simp only [keeps_mk]; with_reducible refine Keeps.fold ?_)
    | with_reducible assumption
    | with_reducible exact Keeps.refl _
    | with_reducible apply plainKeygenSpec_keeps
    | with_reducible apply foldl_keeps
    | with_reducible apply Keeps.ite
    | with_reducible apply Keeps.iteFst
    | with_reducible apply Keeps.iteSnd
    | exact @rfl Nat _
    | exact List.length_set ..
    | intro _ _
    | intro (_ : Nat)
    | split
    | dsimp only

theorem dhSpec_keeps : ∀ s x, Keeps s ((dhSpec).run s x).state := by
  intro s x
  unfold dhSpec
  (try dsimp only)
  repeat first
    | (simp only [keeps_mk]; with_reducible refine Keeps.fold ?_)
    | with_reducible assumption
    | with_reducible exact Keeps.refl _
    | with_reducible apply exchangeSpec_keeps
    | with_reducible apply foldl_keeps
    | with_reducible apply Keeps.ite
    | with_reducible apply Keeps.iteFst
    | with_reducible apply Keeps.iteSnd
    | exact @rfl Nat _
    | exact List.length_set ..
    | intro _ _
    | intro (_ : Nat)
    | split
    | dsimp only

theorem dhPubkeySpec_keeps : ∀ s x, Keeps s ((dhPubkeySpec).run s x).state := by
  intro s x
  unfold dhPubkeySpec
  (try dsimp only)
  repeat first
    | (simp only [keeps_mk]; with_reducible refine Keeps.fold ?_)
    | with_reducible assumption
    | with_reducible exact Keeps.refl _
    | with_reducible apply plainPubkeySpec_keeps
    | with_reducible apply foldl_keeps
    | with_reducible apply Keeps.ite
    | with_reducible apply Keeps.iteFst
    | with_reducible apply Keeps.iteSnd
    | exact @rfl Nat _
    | exact List.length_set ..
    | intro _ _
    | intro (_ : Nat)
    | split
    | dsimp only

theorem drawCandidate_own (len : Nat) (x : Job) (z2 : Nat) (z3 : State) : Keeps z3 (drawCandidate len x z2 z3).2 := by
  induction z2 generalizing z3 with
  | zero => exact Keeps.refl _
  | succ k ih =>
    unfold drawCandidate
    dsimp only
    exact Keeps.iteSnd (draw_keeps _ _ _ (Keeps.refl _)) (Keeps.trans (draw_keeps _ _ _ (Keeps.refl _)) (ih _))

theorem drawCandidate_keeps {s0 : State} (len : Nat) (x : Job) (z2 : Nat) (z3 : State) (hu : Keeps s0 z3) :
    Keeps s0 (drawCandidate len x z2 z3).2 :=
  Keeps.trans hu (drawCandidate_own len x z2 z3)

theorem primeTries_own (ok : Nat → Bool) (x : Job) (z2 z3 : Nat) (z4 : State) : Keeps z4 (primeTries ok x z2 z3 z4).2 := by
  induction z2 generalizing z3 z4 with
  | zero => exact Keeps.refl _
  | succ k ih =>
    unfold primeTries
    dsimp only
    exact Keeps.iteSnd (drawCandidate_keeps _ _ _ _ (Keeps.refl _)) (Keeps.trans (drawCandidate_keeps _ _ _ _ (Keeps.refl _)) (ih _ _))

theorem primeTries_keeps {s0 : State} (ok : Nat → Bool) (x : Job) (z2 : Nat) (z3 : Nat) (z4 : State) (hu : Keeps s0 z4) :
    Keeps s0 (primeTries ok x z2 z3 z4).2 :=
  Keeps.trans hu (primeTries_own ok x z2 z3 z4)

theorem rsaKeygenRun_own (s : State) (x : Job) : Keeps s (rsaKeygenRun s x).state := by
  unfold rsaKeygenRun
  dsimp only
  split <;> rename_i e <;> have h := congrArg Prod.snd e <;> dsimp only at h <;> subst h
  · exact ranBad_keeps _ _ (primeTries_keeps _ _ _ _ _ (Keeps.refl _))
  split <;> rename_i e' <;> have h := congrArg Prod.snd e' <;> dsimp only at h <;> subst h
  · exact ranBad_keeps _ _ (primeTries_keeps _ _ _ _ _ (primeTries_keeps _ _ _ _ _ (Keeps.refl _)))
  · exact checkedRun_keeps _ _ _ _ _ (ranWith_keeps _ _ _ (Keeps.refl _)) (primeTries_keeps _ _ _ _ _ (primeTries_keeps _ _ _ _ _ (Keeps.refl _)))

theorem rsaKeygenRun_keeps {s0 : State} (s : State) (x : Job) (hu : Keeps s0 s) :
    Keeps s0 (rsaKeygenRun s x).state :=
  Keeps.trans hu (rsaKeygenRun_own s x)

theorem rsaKeygenSpec_keeps : ∀ s x, Keeps s ((rsaKeygenSpec).run s x).state := by
  intro s x
  unfold rsaKeygenSpec
  (try dsimp only)
  repeat first
    | (simp only [keeps_mk]; with_reducible refine Keeps.fold ?_)
    | with_reducible assumption
    | with_reducible exact Keeps.refl _
    | with_reducible apply rsaKeygenRun_keeps
    | with_reducible apply foldl_keeps
    | with_reducible apply Keeps.ite
    | with_reducible apply Keeps.iteFst
    | with_reducible apply Keeps.iteSnd
    | exact @rfl Nat _
    | exact List.length_set ..
    | intro _ _
    | intro (_ : Nat)
    | split
    | dsimp only

theorem rsaPrivate_keeps {s0 : State} (s : State) (x : Job) (key : Key) (c : Nat) (f : Nat → Ran) (hf : ∀ n, Keeps s (f n).state)
    (hu : Keeps s0 s) : Keeps s0 (rsaPrivate s x key c f).state := by
  unfold rsaPrivate
  dsimp only
  exact checkedRun_keeps _ _ _ _ _ (hf _) hu

theorem rsaSignRun_keeps {s0 : State} (s : State) (x : Job) (hu : Keeps s0 s) :
    Keeps s0 (rsaSignRun s x).state := by
  unfold rsaSignRun
  (try dsimp only)
  repeat first
    | (simp only [keeps_mk]; with_reducible refine Keeps.fold ?_)
    | with_reducible assumption
    | with_reducible exact Keeps.refl _
    | with_reducible apply ranBad_keeps
    | with_reducible apply ranWith_keeps
    | with_reducible apply rsaPrivate_keeps
    | with_reducible apply draw_keeps
    | with_reducible apply drawFree_keeps
    | with_reducible apply foldl_keeps
    | with_reducible apply Keeps.ite
    | with_reducible apply Keeps.iteFst
    | with_reducible apply Keeps.iteSnd
    | exact @rfl Nat _
    | exact List.length_set ..
    | intro _ _
    | intro (_ : Nat)
    | split
    | dsimp only

theorem rsaSignSpec_keeps : ∀ s x, Keeps s ((rsaSignSpec).run s x).state := by
  intro s x
  unfold rsaSignSpec
  (try dsimp only)
  repeat first
    | (simp only [keeps_mk]; with_reducible refine Keeps.fold ?_)
    | with_reducible assumption
    | with_reducible exact Keeps.refl _
    | with_reducible apply rsaSignRun_keeps
    | with_reducible apply foldl_keeps
    | with_reducible apply Keeps.ite
    | with_reducible apply Keeps.iteFst
    | with_reducible apply Keeps.iteSnd
    | exact @rfl Nat _
    | exact List.length_set ..
    | intro _ _
    | intro (_ : Nat)
    | split
    | dsimp only

theorem rsaVerifyRun_keeps {s0 : State} (s : State) (x : Job) (hu : Keeps s0 s) :
    Keeps s0 (rsaVerifyRun s x).state := by
  unfold rsaVerifyRun
  (try dsimp only)
  repeat first
    | (simp only [keeps_mk]; with_reducible refine Keeps.fold ?_)
    | with_reducible assumption
    | with_reducible exact Keeps.refl _
    | with_reducible apply ranBad_keeps
    | with_reducible apply ranWith_keeps
    | with_reducible apply foldl_keeps
    | with_reducible apply Keeps.ite
    | with_reducible apply Keeps.iteFst
    | with_reducible apply Keeps.iteSnd
    | exact @rfl Nat _
    | exact List.length_set ..
    | intro _ _
    | intro (_ : Nat)
    | split
    | dsimp only

theorem rsaVerifySpec_keeps : ∀ s x, Keeps s ((rsaVerifySpec).run s x).state := by
  intro s x
  unfold rsaVerifySpec
  (try dsimp only)
  repeat first
    | (simp only [keeps_mk]; with_reducible refine Keeps.fold ?_)
    | with_reducible assumption
    | with_reducible exact Keeps.refl _
    | with_reducible apply rsaVerifyRun_keeps
    | with_reducible apply foldl_keeps
    | with_reducible apply Keeps.ite
    | with_reducible apply Keeps.iteFst
    | with_reducible apply Keeps.iteSnd
    | exact @rfl Nat _
    | exact List.length_set ..
    | intro _ _
    | intro (_ : Nat)
    | split
    | dsimp only

theorem rsaEncryptRun_keeps {s0 : State} (s : State) (x : Job) (hu : Keeps s0 s) :
    Keeps s0 (rsaEncryptRun s x).state := by
  unfold rsaEncryptRun
  (try dsimp only)
  repeat first
    | (simp only [keeps_mk]; with_reducible refine Keeps.fold ?_)
    | with_reducible assumption
    | with_reducible exact Keeps.refl _
    | with_reducible apply ranBad_keeps
    | with_reducible apply ranWith_keeps
    | with_reducible apply draw_keeps
    | with_reducible apply foldl_keeps
    | with_reducible apply Keeps.ite
    | with_reducible apply Keeps.iteFst
    | with_reducible apply Keeps.iteSnd
    | exact @rfl Nat _
    | exact List.length_set ..
    | intro _ _
    | intro (_ : Nat)
    | split
    | dsimp only

theorem rsaEncryptSpec_keeps : ∀ s x, Keeps s ((rsaEncryptSpec).run s x).state := by
  intro s x
  unfold rsaEncryptSpec
  (try dsimp only)
  repeat first
    | (simp only [keeps_mk]; with_reducible refine Keeps.fold ?_)
    | with_reducible assumption
    | with_reducible exact Keeps.refl _
    | with_reducible apply rsaEncryptRun_keeps
    | with_reducible apply foldl_keeps
    | with_reducible apply Keeps.ite
    | with_reducible apply Keeps.iteFst
    | with_reducible apply Keeps.iteSnd
    | exact @rfl Nat _
    | exact List.length_set ..
    | intro _ _
    | intro (_ : Nat)
    | split
    | dsimp only

theorem oaepKey_keeps {s0 : State} (s : State) (x : Job) (m : Bytes) (hu : Keeps s0 s) :
    Keeps s0 (oaepKey s x m).state := by
  unfold oaepKey
  (try dsimp only)
  repeat first
    | (simp only [keeps_mk]; with_reducible refine Keeps.fold ?_)
    | with_reducible assumption
    | with_reducible exact Keeps.refl _
    | with_reducible apply ranBad_keeps
    | with_reducible apply ranWith_keeps
    | with_reducible apply foldl_keeps
    | with_reducible apply Keeps.ite
    | with_reducible apply Keeps.iteFst
    | with_reducible apply Keeps.iteSnd
    | exact @rfl Nat _
    | exact List.length_set ..
    | intro _ _
    | intro (_ : Nat)
    | split
    | dsimp only

theorem rsaDecryptRun_keeps {s0 : State} (s : State) (x : Job) (hu : Keeps s0 s) :
    Keeps s0 (rsaDecryptRun s x).state := by
  unfold rsaDecryptRun
  (try dsimp only)
  repeat first
    | (simp only [keeps_mk]; with_reducible refine Keeps.fold ?_)
    | with_reducible assumption
    | with_reducible exact Keeps.refl _
    | with_reducible apply ranBad_keeps
    | with_reducible apply rsaPrivate_keeps
    | with_reducible apply oaepKey_keeps
    | with_reducible apply ranWith_keeps
    | with_reducible apply foldl_keeps
    | with_reducible apply Keeps.ite
    | with_reducible apply Keeps.iteFst
    | with_reducible apply Keeps.iteSnd
    | exact @rfl Nat _
    | exact List.length_set ..
    | intro _ _
    | intro (_ : Nat)
    | split
    | dsimp only

theorem rsaDecryptSpec_keeps : ∀ s x, Keeps s ((rsaDecryptSpec).run s x).state := by
  intro s x
  unfold rsaDecryptSpec
  (try dsimp only)
  repeat first
    | (simp only [keeps_mk]; with_reducible refine Keeps.fold ?_)
    | with_reducible assumption
    | with_reducible exact Keeps.refl _
    | with_reducible apply rsaDecryptRun_keeps
    | with_reducible apply foldl_keeps
    | with_reducible apply Keeps.ite
    | with_reducible apply Keeps.iteFst
    | with_reducible apply Keeps.iteSnd
    | exact @rfl Nat _
    | exact List.length_set ..
    | intro _ _
    | intro (_ : Nat)
    | split
    | dsimp only

theorem rsaPubkeySpec_keeps : ∀ s x, Keeps s ((rsaPubkeySpec).run s x).state := by
  intro s x
  unfold rsaPubkeySpec
  (try dsimp only)
  repeat first
    | (simp only [keeps_mk]; with_reducible refine Keeps.fold ?_)
    | with_reducible assumption
    | with_reducible exact Keeps.refl _
    | with_reducible apply plainPubkeySpec_keeps
    | with_reducible apply foldl_keeps
    | with_reducible apply Keeps.ite
    | with_reducible apply Keeps.iteFst
    | with_reducible apply Keeps.iteSnd
    | exact @rfl Nat _
    | exact List.length_set ..
    | intro _ _
    | intro (_ : Nat)
    | split
    | dsimp only

end Sys2Proof.Machine
end

