-- ==== Sys2Proof/Laws/KeepsCode.lean ====
section
/-! SUPPORT. What the functions of Machine/Code.lean keep (Laws/Keeps.lean). -/
namespace Sys2Proof.Machine

-- One theorem after another: a thread for each that waits would fill the memory.
set_option Elab.async false

theorem codeRandom_keeps {s0 : State} (s : State) (x : Job) (n : Nat) (hu : Keeps s0 s) :
    Keeps s0 (codeRandom s x n).2 := by
  unfold codeRandom
  (try dsimp only)
  repeat first
    | (simp only [keeps_mk]; with_reducible refine Keeps.fold ?_)
    | with_reducible assumption
    | with_reducible exact Keeps.refl _
    | with_reducible apply draw_keeps
    | with_reducible apply foldl_keeps
    | with_reducible apply Keeps.ite
    | with_reducible apply Keeps.iteFst
    | with_reducible apply Keeps.iteSnd
    | exact @rfl Nat _
    | exact List.length_set ..
    | intro _ _
    | split
    | dsimp only

theorem hqcKeygenRun_keeps {s0 : State} (s : State) (x : Job) (hu : Keeps s0 s) :
    Keeps s0 (hqcKeygenRun s x).state := by
  unfold hqcKeygenRun
  (try dsimp only)
  repeat first
    | (simp only [keeps_mk]; with_reducible refine Keeps.fold ?_)
    | with_reducible assumption
    | with_reducible exact Keeps.refl _
    | with_reducible apply ranWith_keeps
    | with_reducible apply codeRandom_keeps
    | with_reducible apply foldl_keeps
    | with_reducible apply Keeps.ite
    | with_reducible apply Keeps.iteFst
    | with_reducible apply Keeps.iteSnd
    | exact @rfl Nat _
    | exact List.length_set ..
    | intro _ _
    | split
    | dsimp only

theorem hqcKeygenSpec_keeps : ∀ s x, Keeps s ((hqcKeygenSpec).run s x).state := by
  intro s x
  unfold hqcKeygenSpec
  (try dsimp only)
  repeat first
    | (simp only [keeps_mk]; with_reducible refine Keeps.fold ?_)
    | with_reducible assumption
    | with_reducible exact Keeps.refl _
    | with_reducible apply hqcKeygenRun_keeps
    | with_reducible apply foldl_keeps
    | with_reducible apply Keeps.ite
    | with_reducible apply Keeps.iteFst
    | with_reducible apply Keeps.iteSnd
    | exact @rfl Nat _
    | exact List.length_set ..
    | intro _ _
    | split
    | dsimp only

theorem hqcEncapsRun_keeps {s0 : State} (s : State) (x : Job) (hu : Keeps s0 s) :
    Keeps s0 (hqcEncapsRun s x).state := by
  unfold hqcEncapsRun
  (try dsimp only)
  repeat first
    | (simp only [keeps_mk]; with_reducible refine Keeps.fold ?_)
    | with_reducible assumption
    | with_reducible exact Keeps.refl _
    | with_reducible apply ranBad_keeps
    | with_reducible apply releaseSecret_keeps
    | with_reducible apply codeRandom_keeps
    | with_reducible apply foldl_keeps
    | with_reducible apply Keeps.ite
    | with_reducible apply Keeps.iteFst
    | with_reducible apply Keeps.iteSnd
    | exact @rfl Nat _
    | exact List.length_set ..
    | intro _ _
    | split
    | dsimp only

theorem hqcEncapsSpec_keeps : ∀ s x, Keeps s ((hqcEncapsSpec).run s x).state := by
  intro s x
  unfold hqcEncapsSpec
  (try dsimp only)
  repeat first
    | (simp only [keeps_mk]; with_reducible refine Keeps.fold ?_)
    | with_reducible assumption
    | with_reducible exact Keeps.refl _
    | with_reducible apply hqcEncapsRun_keeps
    | with_reducible apply foldl_keeps
    | with_reducible apply Keeps.ite
    | with_reducible apply Keeps.iteFst
    | with_reducible apply Keeps.iteSnd
    | exact @rfl Nat _
    | exact List.length_set ..
    | intro _ _
    | split
    | dsimp only

theorem codeDecapsRun_keeps {s0 : State} (alg : Nat) (len : Nat) (s : State) (x : Job) (hu : Keeps s0 s) :
    Keeps s0 (codeDecapsRun alg len s x).state := by
  unfold codeDecapsRun
  (try dsimp only)
  repeat first
    | (simp only [keeps_mk]; with_reducible refine Keeps.fold ?_)
    | with_reducible assumption
    | with_reducible exact Keeps.refl _
    | with_reducible apply ranBad_keeps
    | with_reducible apply releaseSecret_keeps
    | with_reducible apply foldl_keeps
    | with_reducible apply Keeps.ite
    | with_reducible apply Keeps.iteFst
    | with_reducible apply Keeps.iteSnd
    | exact @rfl Nat _
    | exact List.length_set ..
    | intro _ _
    | split
    | dsimp only

theorem codeDecapsSpec_keeps (code : BitVec 16) (typ : Nat) (len : Nat) (alg : Desc → Nat) (param : BitVec 64) (fig : Nat → Nat) : ∀ s x, Keeps s ((codeDecapsSpec code typ len alg param fig).run s x).state := by
  intro s x
  unfold codeDecapsSpec
  (try dsimp only)
  repeat first
    | (simp only [keeps_mk]; with_reducible refine Keeps.fold ?_)
    | with_reducible assumption
    | with_reducible exact Keeps.refl _
    | with_reducible apply codeDecapsRun_keeps
    | with_reducible apply foldl_keeps
    | with_reducible apply Keeps.ite
    | with_reducible apply Keeps.iteFst
    | with_reducible apply Keeps.iteSnd
    | exact @rfl Nat _
    | exact List.length_set ..
    | intro _ _
    | split
    | dsimp only

theorem hqcDecapsSpec_keeps : ∀ s x, Keeps s ((hqcDecapsSpec).run s x).state := by
  intro s x
  unfold hqcDecapsSpec
  (try dsimp only)
  repeat first
    | (simp only [keeps_mk]; with_reducible refine Keeps.fold ?_)
    | with_reducible assumption
    | with_reducible exact Keeps.refl _
    | with_reducible apply codeDecapsSpec_keeps
    | with_reducible apply foldl_keeps
    | with_reducible apply Keeps.ite
    | with_reducible apply Keeps.iteFst
    | with_reducible apply Keeps.iteSnd
    | exact @rfl Nat _
    | exact List.length_set ..
    | intro _ _
    | split
    | dsimp only

theorem hqcPubkeySpec_keeps : ∀ s x, Keeps s ((hqcPubkeySpec).run s x).state := by
  intro s x
  unfold hqcPubkeySpec
  (try dsimp only)
  repeat first
    | (simp only [keeps_mk]; with_reducible refine Keeps.fold ?_)
    | with_reducible assumption
    | with_reducible exact Keeps.refl _
    | with_reducible apply pubkeySpec_keeps
    | with_reducible apply foldl_keeps
    | with_reducible apply Keeps.ite
    | with_reducible apply Keeps.iteFst
    | with_reducible apply Keeps.iteSnd
    | exact @rfl Nat _
    | exact List.length_set ..
    | intro _ _
    | split
    | dsimp only

theorem mcePkPinRun_keeps {s0 : State} (s : State) (x : Job) (hu : Keeps s0 s) :
    Keeps s0 (mcePkPinRun s x).state := by
  unfold mcePkPinRun
  (try dsimp only)
  repeat first
    | (simp only [keeps_mk]; with_reducible refine Keeps.fold ?_)
    | with_reducible assumption
    | with_reducible exact Keeps.refl _
    | with_reducible apply ranBad_keeps
    | with_reducible apply ranWith_keeps
    | with_reducible apply foldl_keeps
    | with_reducible apply Keeps.ite
    | with_reducible apply Keeps.iteFst
    | with_reducible apply Keeps.iteSnd
    | exact @rfl Nat _
    | exact List.length_set ..
    | intro _ _
    | split
    | dsimp only

theorem mcePkPinSpec_keeps : ∀ s x, Keeps s ((mcePkPinSpec).run s x).state := by
  intro s x
  unfold mcePkPinSpec
  (try dsimp only)
  repeat first
    | (simp only [keeps_mk]; with_reducible refine Keeps.fold ?_)
    | with_reducible assumption
    | with_reducible exact Keeps.refl _
    | with_reducible apply mcePkPinRun_keeps
    | with_reducible apply foldl_keeps
    | with_reducible apply Keeps.ite
    | with_reducible apply Keeps.iteFst
    | with_reducible apply Keeps.iteSnd
    | exact @rfl Nat _
    | exact List.length_set ..
    | intro _ _
    | split
    | dsimp only

theorem mceAttempts_own (k n : Nat) (s : State) (x : Job) : Keeps s (mceAttempts k n s x).2 := by
  induction k generalizing n s with
  | zero => exact Keeps.refl s
  | succ k ih =>
    unfold mceAttempts
    dsimp only
    exact Keeps.iteSnd (codeRandom_keeps _ _ _ (Keeps.refl _)) (Keeps.trans (codeRandom_keeps _ _ _ (Keeps.refl _)) (ih _ _))

theorem mceAttempts_keeps {s0 : State} (z0 : Nat) (z1 : Nat) (z2 : State) (z3 : Job) (hu : Keeps s0 z2) :
    Keeps s0 (mceAttempts z0 z1 z2 z3).2 :=
  Keeps.trans hu (mceAttempts_own z0 z1 z2 z3)

theorem mceKeygenRun_own (s : State) (x : Job) : Keeps s (mceKeygenRun s x).state := by
  unfold mceKeygenRun
  have h := mceAttempts_own 128 1 s x
  dsimp only
  split <;> rename_i e <;> rw [e] at h
  · exact Keeps.trans h (ranBad_keeps _ _ (Keeps.refl _))
  · exact Keeps.trans h (ranWith_keeps _ _ _ (Keeps.refl _))

theorem mceKeygenRun_keeps {s0 : State} (s : State) (x : Job) (hu : Keeps s0 s) :
    Keeps s0 (mceKeygenRun s x).state :=
  Keeps.trans hu (mceKeygenRun_own s x)

theorem mceKeygenSpec_keeps : ∀ s x, Keeps s ((mceKeygenSpec).run s x).state := by
  intro s x
  unfold mceKeygenSpec
  (try dsimp only)
  repeat first
    | (simp only [keeps_mk]; with_reducible refine Keeps.fold ?_)
    | with_reducible assumption
    | with_reducible exact Keeps.refl _
    | with_reducible apply mceKeygenRun_keeps
    | with_reducible apply foldl_keeps
    | with_reducible apply Keeps.ite
    | with_reducible apply Keeps.iteFst
    | with_reducible apply Keeps.iteSnd
    | exact @rfl Nat _
    | exact List.length_set ..
    | intro _ _
    | split
    | dsimp only

theorem mceEncapsRun_keeps {s0 : State} (s : State) (x : Job) (hu : Keeps s0 s) :
    Keeps s0 (mceEncapsRun s x).state := by
  unfold mceEncapsRun
  (try dsimp only)
  repeat first
    | (simp only [keeps_mk]; with_reducible refine Keeps.fold ?_)
    | with_reducible assumption
    | with_reducible exact Keeps.refl _
    | with_reducible apply ranBad_keeps
    | with_reducible apply releaseSecret_keeps
    | with_reducible apply codeRandom_keeps
    | with_reducible apply foldl_keeps
    | with_reducible apply Keeps.ite
    | with_reducible apply Keeps.iteFst
    | with_reducible apply Keeps.iteSnd
    | exact @rfl Nat _
    | exact List.length_set ..
    | intro _ _
    | split
    | dsimp only

theorem mceEncapsSpec_keeps : ∀ s x, Keeps s ((mceEncapsSpec).run s x).state := by
  intro s x
  unfold mceEncapsSpec
  (try dsimp only)
  repeat first
    | (simp only [keeps_mk]; with_reducible refine Keeps.fold ?_)
    | with_reducible assumption
    | with_reducible exact Keeps.refl _
    | with_reducible apply mceEncapsRun_keeps
    | with_reducible apply foldl_keeps
    | with_reducible apply Keeps.ite
    | with_reducible apply Keeps.iteFst
    | with_reducible apply Keeps.iteSnd
    | exact @rfl Nat _
    | exact List.length_set ..
    | intro _ _
    | split
    | dsimp only

theorem mceDecapsSpec_keeps : ∀ s x, Keeps s ((mceDecapsSpec).run s x).state := by
  intro s x
  unfold mceDecapsSpec
  (try dsimp only)
  repeat first
    | (simp only [keeps_mk]; with_reducible refine Keeps.fold ?_)
    | with_reducible assumption
    | with_reducible exact Keeps.refl _
    | with_reducible apply codeDecapsSpec_keeps
    | with_reducible apply foldl_keeps
    | with_reducible apply Keeps.ite
    | with_reducible apply Keeps.iteFst
    | with_reducible apply Keeps.iteSnd
    | exact @rfl Nat _
    | exact List.length_set ..
    | intro _ _
    | split
    | dsimp only

theorem mcePubkeyRun_keeps {s0 : State} (s : State) (x : Job) (hu : Keeps s0 s) :
    Keeps s0 (mcePubkeyRun s x).state := by
  unfold mcePubkeyRun
  (try dsimp only)
  repeat first
    | (simp only [keeps_mk]; with_reducible refine Keeps.fold ?_)
    | with_reducible assumption
    | with_reducible exact Keeps.refl _
    | with_reducible apply ranBad_keeps
    | with_reducible apply ranWith_keeps
    | with_reducible apply foldl_keeps
    | with_reducible apply Keeps.ite
    | with_reducible apply Keeps.iteFst
    | with_reducible apply Keeps.iteSnd
    | exact @rfl Nat _
    | exact List.length_set ..
    | intro _ _
    | split
    | dsimp only

theorem mcePubkeySpec_keeps : ∀ s x, Keeps s ((mcePubkeySpec).run s x).state := by
  intro s x
  unfold mcePubkeySpec
  (try dsimp only)
  repeat first
    | (simp only [keeps_mk]; with_reducible refine Keeps.fold ?_)
    | with_reducible assumption
    | with_reducible exact Keeps.refl _
    | with_reducible apply pubkeySpec_keeps
    | with_reducible apply mcePubkeyRun_keeps
    | with_reducible apply foldl_keeps
    | with_reducible apply Keeps.ite
    | with_reducible apply Keeps.iteFst
    | with_reducible apply Keeps.iteSnd
    | exact @rfl Nat _
    | exact List.length_set ..
    | intro _ _
    | split
    | dsimp only

end Sys2Proof.Machine
end

