-- ==== Sys2Proof/Laws/KeepsDqOps.lean ====
section
/-! SUPPORT. What the functions of Machine/DqOps.lean keep (Laws/Keeps.lean). -/
namespace Sys2Proof.Machine

-- One theorem after another: a thread for each that waits would fill the memory.
set_option Elab.async false

theorem State.setDq_keeps {s0 : State} (s : State) (d : BitVec 8) (q : Dq) (hu : Keeps s0 s) :
    Keeps s0 (State.setDq s d q) := by
  unfold State.setDq
  (try dsimp only)
  repeat first
    | (simp only [keeps_mk]; with_reducible refine Keeps.fold ?_)
    | with_reducible assumption
    | with_reducible exact Keeps.refl _
    | with_reducible apply foldl_keeps
    | with_reducible apply Keeps.ite
    | with_reducible apply Keeps.iteFst
    | with_reducible apply Keeps.iteSnd
    | exact @rfl Nat _
    | exact List.length_set ..
    | intro _ _
    | split
    | dsimp only

theorem dropRecord_keeps {s0 : State} (d : BitVec 8) (s : State) (r : Bytes) (hu : Keeps s0 s) :
    Keeps s0 (dropRecord d s r) := by
  unfold dropRecord
  (try dsimp only)
  repeat first
    | (simp only [keeps_mk]; with_reducible refine Keeps.fold ?_)
    | with_reducible assumption
    | with_reducible exact Keeps.refl _
    | with_reducible apply State.setDq_keeps
    | with_reducible apply State.setCtx_keeps
    | with_reducible apply foldl_keeps
    | with_reducible apply Keeps.ite
    | with_reducible apply Keeps.iteFst
    | with_reducible apply Keeps.iteSnd
    | exact @rfl Nat _
    | exact List.length_set ..
    | intro _ _
    | split
    | dsimp only

theorem dropWaiting_keeps {s0 : State} (d : BitVec 8) (s : State) (hu : Keeps s0 s) :
    Keeps s0 (dropWaiting d s) := by
  unfold dropWaiting
  (try dsimp only)
  repeat first
    | (simp only [keeps_mk]; with_reducible refine Keeps.fold ?_)
    | with_reducible assumption
    | with_reducible exact Keeps.refl _
    | with_reducible apply dropRecord_keeps
    | with_reducible apply State.setDq_keeps
    | with_reducible apply foldl_keeps
    | with_reducible apply Keeps.ite
    | with_reducible apply Keeps.iteFst
    | with_reducible apply Keeps.iteSnd
    | exact @rfl Nat _
    | exact List.length_set ..
    | intro _ _
    | split
    | dsimp only

theorem signalDq_keeps {s0 : State} (d : BitVec 8) (s : State) (hu : Keeps s0 s) :
    Keeps s0 (signalDq d s) := by
  unfold signalDq
  (try dsimp only)
  repeat first
    | (simp only [keeps_mk]; with_reducible refine Keeps.fold ?_)
    | with_reducible assumption
    | with_reducible exact Keeps.refl _
    | with_reducible apply msixSend_keeps
    | with_reducible apply State.setDq_keeps
    | with_reducible apply foldl_keeps
    | with_reducible apply Keeps.ite
    | with_reducible apply Keeps.iteFst
    | with_reducible apply Keeps.iteSnd
    | exact @rfl Nat _
    | exact List.length_set ..
    | intro _ _
    | split
    | dsimp only

theorem writeRecordDq_keeps {s0 : State} (d : BitVec 8) (s : State) (r : Bytes) (hu : Keeps s0 s) :
    Keeps s0 (writeRecordDq d s r) := by
  unfold writeRecordDq
  (try dsimp only)
  repeat first
    | (simp only [keeps_mk]; with_reducible refine Keeps.fold ?_)
    | with_reducible assumption
    | with_reducible exact Keeps.refl _
    | with_reducible apply writeHost_keeps
    | with_reducible apply signalDq_keeps
    | with_reducible apply State.setDq_keeps
    | with_reducible apply foldl_keeps
    | with_reducible apply Keeps.ite
    | with_reducible apply Keeps.iteFst
    | with_reducible apply Keeps.iteSnd
    | exact @rfl Nat _
    | exact List.length_set ..
    | intro _ _
    | split
    | dsimp only

theorem deliver_keeps {s0 : State} (d : BitVec 8) (s : State) (r : Bytes) (hu : Keeps s0 s) :
    Keeps s0 (deliver d s r) := by
  unfold deliver
  (try dsimp only)
  repeat first
    | (simp only [keeps_mk]; with_reducible refine Keeps.fold ?_)
    | with_reducible assumption
    | with_reducible exact Keeps.refl _
    | with_reducible apply dropRecord_keeps
    | with_reducible apply writeRecordDq_keeps
    | with_reducible apply State.setDq_keeps
    | with_reducible apply foldl_keeps
    | with_reducible apply Keeps.ite
    | with_reducible apply Keeps.iteFst
    | with_reducible apply Keeps.iteSnd
    | exact @rfl Nat _
    | exact List.length_set ..
    | intro _ _
    | split
    | dsimp only

theorem flushDq_keeps {s0 : State} (d : BitVec 8) (s : State) (hu : Keeps s0 s) :
    Keeps s0 (flushDq d s) := by
  unfold flushDq
  (try dsimp only)
  repeat first
    | (simp only [keeps_mk]; with_reducible refine Keeps.fold ?_)
    | with_reducible assumption
    | with_reducible exact Keeps.refl _
    | with_reducible apply writeRecordDq_keeps
    | with_reducible apply dropRecord_keeps
    | with_reducible apply State.setDq_keeps
    | with_reducible apply foldl_keeps
    | with_reducible apply Keeps.ite
    | with_reducible apply Keeps.iteFst
    | with_reducible apply Keeps.iteSnd
    | exact @rfl Nat _
    | exact List.length_set ..
    | intro _ _
    | split
    | dsimp only

theorem dqCiRead_keeps {s0 : State} (d : BitVec 8) (a : Access) (s : State) (hu : Keeps s0 s) :
    Keeps s0 (dqCiRead d a s) := by
  unfold dqCiRead
  (try dsimp only)
  repeat first
    | (simp only [keeps_mk]; with_reducible refine Keeps.fold ?_)
    | with_reducible assumption
    | with_reducible exact Keeps.refl _
    | with_reducible apply flushDq_keeps
    | with_reducible apply State.setDq_keeps
    | with_reducible apply dropWaiting_keeps
    | with_reducible apply foldl_keeps
    | with_reducible apply Keeps.ite
    | with_reducible apply Keeps.iteFst
    | with_reducible apply Keeps.iteSnd
    | exact @rfl Nat _
    | exact List.length_set ..
    | intro _ _
    | split
    | dsimp only

end Sys2Proof.Machine
end

