-- ==== Sys2Proof/Laws/KeepsFlags.lean ====
section
/-! SUPPORT. What the functions of Machine/Flags.lean keep (Laws/Keeps.lean). -/
namespace Sys2Proof.Machine

-- One theorem after another: a thread for each that waits would fill the memory.
set_option Elab.async false

theorem endVisit_keeps {s0 : State} (s : State) (hu : Keeps s0 s) :
    Keeps s0 (endVisit s) := by
  unfold endVisit
  (try dsimp only)
  repeat first
    | (simp only [keeps_mk]; with_reducible refine Keeps.fold ?_)
    | with_reducible assumption
    | with_reducible exact Keeps.refl _
    | with_reducible apply foldl_keeps
    | with_reducible apply Keeps.ite
    | with_reducible apply Keeps.iteFst
    | with_reducible apply Keeps.iteSnd
    | exact @rfl Nat _
    | exact List.length_set ..
    | intro _ _
    | split
    | dsimp only

theorem settle_keeps {s t u : State} (h : Keeps s u) : Keeps s (settle t u) := by
  unfold settle
  refine endVisit_keeps _ (Keeps.ite (Keeps.trans h (msixSend_keeps _ _ (Keeps.refl _))) h)

end Sys2Proof.Machine
end

