-- ==== Sys2Proof/Laws/KeepsQueues.lean ====
section
/-! SUPPORT. What the functions of Machine/Queues.lean keep (Laws/Keeps.lean). -/
namespace Sys2Proof.Machine

-- One theorem after another: a thread for each that waits would fill the memory.
set_option Elab.async false

theorem queueCommit_keeps {s0 : State} (n : BitVec 12) (s : State) (hu : Keeps s0 s) :
    Keeps s0 (queueCommit n s) := by
  unfold queueCommit
  (try dsimp only)
  repeat first
    | (simp only [keeps_mk]; with_reducible refine Keeps.fold ?_)
    | with_reducible assumption
    | with_reducible exact Keeps.refl _
    | with_reducible apply State.setQ_keeps
    | with_reducible apply foldl_keeps
    | with_reducible apply Keeps.ite
    | with_reducible apply Keeps.iteFst
    | with_reducible apply Keeps.iteSnd
    | exact @rfl Nat _
    | exact List.length_set ..
    | intro _ _
    | split
    | dsimp only

theorem queueRefuse_keeps {s0 : State} (n : BitVec 12) (d : BitVec 16) (s : State) (hu : Keeps s0 s) :
    Keeps s0 (queueRefuse n d s) := by
  unfold queueRefuse
  (try dsimp only)
  repeat first
    | (simp only [keeps_mk]; with_reducible refine Keeps.fold ?_)
    | with_reducible assumption
    | with_reducible exact Keeps.refl _
    | with_reducible apply State.setQ_keeps
    | with_reducible apply foldl_keeps
    | with_reducible apply Keeps.ite
    | with_reducible apply Keeps.iteFst
    | with_reducible apply Keeps.iteSnd
    | exact @rfl Nat _
    | exact List.length_set ..
    | intro _ _
    | split
    | dsimp only

theorem queueEnable_keeps {s0 : State} (n : BitVec 12) (s : State) (hu : Keeps s0 s) :
    Keeps s0 (queueEnable n s) := by
  unfold queueEnable
  (try dsimp only)
  repeat first
    | (simp only [keeps_mk]; with_reducible refine Keeps.fold ?_)
    | with_reducible assumption
    | with_reducible exact Keeps.refl _
    | with_reducible apply queueRefuse_keeps
    | with_reducible apply State.setQ_keeps
    | with_reducible apply foldl_keeps
    | with_reducible apply Keeps.ite
    | with_reducible apply Keeps.iteFst
    | with_reducible apply Keeps.iteSnd
    | exact @rfl Nat _
    | exact List.length_set ..
    | intro _ _
    | split
    | dsimp only

theorem queueDisable_keeps {s0 : State} (n : BitVec 12) (s : State) (hu : Keeps s0 s) :
    Keeps s0 (queueDisable n s) := by
  unfold queueDisable
  (try dsimp only)
  repeat first
    | (simp only [keeps_mk]; with_reducible refine Keeps.fold ?_)
    | with_reducible assumption
    | with_reducible exact Keeps.refl _
    | with_reducible apply queueRefuse_keeps
    | with_reducible apply settleDrain_keeps
    | with_reducible apply State.setQ_keeps
    | with_reducible apply foldl_keeps
    | with_reducible apply Keeps.ite
    | with_reducible apply Keeps.iteFst
    | with_reducible apply Keeps.iteSnd
    | exact @rfl Nat _
    | exact List.length_set ..
    | intro _ _
    | split
    | dsimp only

theorem queueRestart_keeps {s0 : State} (n : BitVec 12) (s : State) (hu : Keeps s0 s) :
    Keeps s0 (queueRestart n s) := by
  unfold queueRestart
  (try dsimp only)
  repeat first
    | (simp only [keeps_mk]; with_reducible refine Keeps.fold ?_)
    | with_reducible assumption
    | with_reducible exact Keeps.refl _
    | with_reducible apply State.setQ_keeps
    | with_reducible apply queueRefuse_keeps
    | with_reducible apply foldl_keeps
    | with_reducible apply Keeps.ite
    | with_reducible apply Keeps.iteFst
    | with_reducible apply Keeps.iteSnd
    | exact @rfl Nat _
    | exact List.length_set ..
    | intro _ _
    | split
    | dsimp only

theorem dbReject_keeps {s0 : State} (n : BitVec 12) (s : State) (hu : Keeps s0 s) :
    Keeps s0 (dbReject n s) := by
  unfold dbReject
  (try dsimp only)
  repeat first
    | (simp only [keeps_mk]; with_reducible refine Keeps.fold ?_)
    | with_reducible assumption
    | with_reducible exact Keeps.refl _
    | with_reducible apply State.setQ_keeps
    | with_reducible apply foldl_keeps
    | with_reducible apply Keeps.ite
    | with_reducible apply Keeps.iteFst
    | with_reducible apply Keeps.iteSnd
    | exact @rfl Nat _
    | exact List.length_set ..
    | intro _ _
    | split
    | dsimp only

theorem sqPi_keeps {s0 : State} (p : BitVec 8) (l : BitVec 6) (v : BitVec 32) (s : State) (hu : Keeps s0 s) :
    Keeps s0 (sqPi p l v s) := by
  unfold sqPi
  (try dsimp only)
  repeat first
    | (simp only [keeps_mk]; with_reducible refine Keeps.fold ?_)
    | with_reducible assumption
    | with_reducible exact Keeps.refl _
    | with_reducible apply State.setQ_keeps
    | with_reducible apply dbReject_keeps
    | with_reducible apply foldl_keeps
    | with_reducible apply Keeps.ite
    | with_reducible apply Keeps.iteFst
    | with_reducible apply Keeps.iteSnd
    | exact @rfl Nat _
    | exact List.length_set ..
    | intro _ _
    | split
    | dsimp only

theorem cqCi_keeps {s0 : State} (p : BitVec 8) (l : BitVec 6) (v : BitVec 32) (s : State) (hu : Keeps s0 s) :
    Keeps s0 (cqCi p l v s) := by
  unfold cqCi
  (try dsimp only)
  repeat first
    | (simp only [keeps_mk]; with_reducible refine Keeps.fold ?_)
    | with_reducible assumption
    | with_reducible exact Keeps.refl _
    | with_reducible apply State.setQ_keeps
    | with_reducible apply dbReject_keeps
    | with_reducible apply foldl_keeps
    | with_reducible apply Keeps.ite
    | with_reducible apply Keeps.iteFst
    | with_reducible apply Keeps.iteSnd
    | exact @rfl Nat _
    | exact List.length_set ..
    | intro _ _
    | split
    | dsimp only

theorem newRound_keeps {s0 : State} (s : State) (p : BitVec 8) (hu : Keeps s0 s) :
    Keeps s0 (newRound s p) := by
  unfold newRound
  (try dsimp only)
  repeat first
    | (simp only [keeps_mk]; with_reducible refine Keeps.fold ?_)
    | with_reducible assumption
    | with_reducible exact Keeps.refl _
    | with_reducible apply foldl_keeps
    | with_reducible apply Keeps.ite
    | with_reducible apply Keeps.iteFst
    | with_reducible apply Keeps.iteSnd
    | exact @rfl Nat _
    | exact List.length_set ..
    | intro _ _
    | split
    | dsimp only

theorem fetchOne_keeps {s0 : State} (s : State) (n : BitVec 12) (hu : Keeps s0 s) :
    Keeps s0 (fetchOne s n) := by
  unfold fetchOne
  (try dsimp only)
  repeat first
    | (simp only [keeps_mk]; with_reducible refine Keeps.fold ?_)
    | with_reducible assumption
    | with_reducible exact Keeps.refl _
    | with_reducible apply translated_keeps
    | with_reducible apply State.setQ_keeps
    | with_reducible apply foldl_keeps
    | with_reducible apply Keeps.ite
    | with_reducible apply Keeps.iteFst
    | with_reducible apply Keeps.iteSnd
    | exact @rfl Nat _
    | exact List.length_set ..
    | intro _ _
    | split
    | dsimp only

theorem fetchUpTo_own (n : BitVec 12) (k : Nat) (s : State) (got : Nat) : Keeps s (fetchUpTo n k s got).1 := by
  induction k generalizing s got with
  | zero => exact Keeps.refl s
  | succ k ih =>
    unfold fetchUpTo
    exact Keeps.iteFst (Keeps.trans (fetchOne_keeps _ _ (Keeps.refl _)) (ih _ _)) (Keeps.refl s)

theorem fetchUpTo_keeps {s0 : State} (n : BitVec 12) (z1 : Nat) (z2 : State) (z3 : Nat) (hu : Keeps s0 z2) :
    Keeps s0 (fetchUpTo n z1 z2 z3).1 :=
  Keeps.trans hu (fetchUpTo_own n z1 z2 z3)

theorem fetchTurn_keeps {s0 : State} (s : State) (hu : Keeps s0 s) :
    Keeps s0 (fetchTurn s) := by
  unfold fetchTurn
  (try dsimp only)
  repeat first
    | (simp only [keeps_mk]; with_reducible refine Keeps.fold ?_)
    | with_reducible assumption
    | with_reducible exact Keeps.refl _
    | with_reducible apply newRound_keeps
    | with_reducible apply fetchUpTo_keeps
    | with_reducible apply foldl_keeps
    | with_reducible apply Keeps.ite
    | with_reducible apply Keeps.iteFst
    | with_reducible apply Keeps.iteSnd
    | exact @rfl Nat _
    | exact List.length_set ..
    | intro _ _
    | split
    | dsimp only

theorem ringReadFail_keeps {s0 : State} (n : BitVec 12) (c : RingCause) (s : State) (hu : Keeps s0 s) :
    Keeps s0 (ringReadFail n c s) := by
  unfold ringReadFail
  (try dsimp only)
  repeat first
    | (simp only [keeps_mk]; with_reducible refine Keeps.fold ?_)
    | with_reducible assumption
    | with_reducible exact Keeps.refl _
    | with_reducible apply cplFails_keeps
    | with_reducible apply enterError_keeps
    | with_reducible apply foldl_keeps
    | with_reducible apply Keeps.ite
    | with_reducible apply Keeps.iteFst
    | with_reducible apply Keeps.iteSnd
    | exact @rfl Nat _
    | exact List.length_set ..
    | intro _ _
    | split
    | dsimp only

theorem opcodeUndefined_keeps {s0 : State} (j : JobId) (s : State) (hu : Keeps s0 s) :
    Keeps s0 (opcodeUndefined j s) := by
  unfold opcodeUndefined
  (try dsimp only)
  repeat first
    | (simp only [keeps_mk]; with_reducible refine Keeps.fold ?_)
    | with_reducible assumption
    | with_reducible exact Keeps.refl _
    | with_reducible apply refuseJob_keeps
    | with_reducible apply foldl_keeps
    | with_reducible apply Keeps.ite
    | with_reducible apply Keeps.iteFst
    | with_reducible apply Keeps.iteSnd
    | exact @rfl Nat _
    | exact List.length_set ..
    | intro _ _
    | split
    | dsimp only

theorem firstDecides_keeps {s0 : State} (s : State) (x : Job) (hu : Keeps s0 s) :
    Keeps s0 (firstDecides s x) := by
  unfold firstDecides
  (try dsimp only)
  repeat first
    | (simp only [keeps_mk]; with_reducible refine Keeps.fold ?_)
    | with_reducible assumption
    | with_reducible exact Keeps.refl _
    | with_reducible apply State.setJob_keeps
    | with_reducible apply freeUnits_keeps
    | with_reducible apply foldl_keeps
    | with_reducible apply Keeps.ite
    | with_reducible apply Keeps.iteFst
    | with_reducible apply Keeps.iteSnd
    | exact @rfl Nat _
    | exact List.length_set ..
    | intro _ _
    | split
    | dsimp only

theorem jobComplete_keeps {s0 : State} (j : JobId) (w : RecordWrite) (s : State) (hu : Keeps s0 s) :
    Keeps s0 (jobComplete j w s) := by
  unfold jobComplete
  (try dsimp only)
  repeat first
    | (simp only [keeps_mk]; with_reducible refine Keeps.fold ?_)
    | with_reducible assumption
    | with_reducible exact Keeps.refl _
    | with_reducible apply firstDecides_keeps
    | with_reducible apply State.setJob_keeps
    | with_reducible apply freeUnits_keeps
    | with_reducible apply completeJob_keeps
    | with_reducible apply foldl_keeps
    | with_reducible apply Keeps.ite
    | with_reducible apply Keeps.iteFst
    | with_reducible apply Keeps.iteSnd
    | exact @rfl Nat _
    | exact List.length_set ..
    | intro _ _
    | split
    | dsimp only

theorem dmaFault_keeps {s0 : State} (j : JobId) (k : DmaCause) (s : State) (hu : Keeps s0 s) :
    Keeps s0 (dmaFault j k s) := by
  unfold dmaFault
  (try dsimp only)
  repeat first
    | (simp only [keeps_mk]; with_reducible refine Keeps.fold ?_)
    | with_reducible assumption
    | with_reducible exact Keeps.refl _
    | with_reducible apply channelFails_keeps
    | with_reducible apply breakJob_keeps
    | with_reducible apply foldl_keeps
    | with_reducible apply Keeps.ite
    | with_reducible apply Keeps.iteFst
    | with_reducible apply Keeps.iteSnd
    | exact @rfl Nat _
    | exact List.length_set ..
    | intro _ _
    | split
    | dsimp only

theorem coalTimeExpiry_keeps {s0 : State} (n : BitVec 12) (s : State) (hu : Keeps s0 s) :
    Keeps s0 (coalTimeExpiry n s) := by
  unfold coalTimeExpiry
  (try dsimp only)
  repeat first
    | (simp only [keeps_mk]; with_reducible refine Keeps.fold ?_)
    | with_reducible assumption
    | with_reducible exact Keeps.refl _
    | with_reducible apply signal_keeps
    | with_reducible apply State.setQ_keeps
    | with_reducible apply foldl_keeps
    | with_reducible apply Keeps.ite
    | with_reducible apply Keeps.iteFst
    | with_reducible apply Keeps.iteSnd
    | exact @rfl Nat _
    | exact List.length_set ..
    | intro _ _
    | split
    | dsimp only

theorem coalDqExpiry_keeps {s0 : State} (d : BitVec 8) (s : State) (hu : Keeps s0 s) :
    Keeps s0 (coalDqExpiry d s) := by
  unfold coalDqExpiry
  (try dsimp only)
  repeat first
    | (simp only [keeps_mk]; with_reducible refine Keeps.fold ?_)
    | with_reducible assumption
    | with_reducible exact Keeps.refl _
    | with_reducible apply signal_keeps
    | with_reducible apply State.setDq_keeps
    | with_reducible apply foldl_keeps
    | with_reducible apply Keeps.ite
    | with_reducible apply Keeps.iteFst
    | with_reducible apply Keeps.iteSnd
    | exact @rfl Nat _
    | exact List.length_set ..
    | intro _ _
    | split
    | dsimp only

theorem sendPending_keeps {s0 : State} (s : State) (v : Nat) (hu : Keeps s0 s) :
    Keeps s0 (sendPending s v) := by
  unfold sendPending
  (try dsimp only)
  repeat first
    | (simp only [keeps_mk]; with_reducible refine Keeps.fold ?_)
    | with_reducible assumption
    | with_reducible exact Keeps.refl _
    | with_reducible apply foldl_keeps
    | with_reducible apply Keeps.ite
    | with_reducible apply Keeps.iteFst
    | with_reducible apply Keeps.iteSnd
    | exact @rfl Nat _
    | exact List.length_set ..
    | intro _ _
    | split
    | dsimp only

theorem vectorUnmask_keeps {s0 : State} (v : BitVec 11) (s : State) (hu : Keeps s0 s) :
    Keeps s0 (vectorUnmask v s) := by
  unfold vectorUnmask
  (try dsimp only)
  repeat first
    | (simp only [keeps_mk]; with_reducible refine Keeps.fold ?_)
    | with_reducible assumption
    | with_reducible exact Keeps.refl _
    | with_reducible apply sendPending_keeps
    | with_reducible apply foldl_keeps
    | with_reducible apply Keeps.ite
    | with_reducible apply Keeps.iteFst
    | with_reducible apply Keeps.iteSnd
    | exact @rfl Nat _
    | exact List.length_set ..
    | intro _ _
    | split
    | dsimp only

theorem functionUnmask_keeps {s0 : State} (s : State) (hu : Keeps s0 s) :
    Keeps s0 (functionUnmask s) := by
  unfold functionUnmask
  (try dsimp only)
  repeat first
    | (simp only [keeps_mk]; with_reducible refine Keeps.fold ?_)
    | with_reducible assumption
    | with_reducible exact Keeps.refl _
    | with_reducible apply sendPending_keeps
    | with_reducible apply foldl_keeps
    | with_reducible apply Keeps.ite
    | with_reducible apply Keeps.iteFst
    | with_reducible apply Keeps.iteSnd
    | exact @rfl Nat _
    | exact List.length_set ..
    | intro _ _
    | split
    | dsimp only

theorem msixOn_keeps {s0 : State} (s : State) (hu : Keeps s0 s) :
    Keeps s0 (msixOn s) := by
  unfold msixOn
  (try dsimp only)
  repeat first
    | (simp only [keeps_mk]; with_reducible refine Keeps.fold ?_)
    | with_reducible assumption
    | with_reducible exact Keeps.refl _
    | with_reducible apply sendPending_keeps
    | with_reducible apply msixSend_keeps
    | with_reducible apply foldl_keeps
    | with_reducible apply Keeps.ite
    | with_reducible apply Keeps.iteFst
    | with_reducible apply Keeps.iteSnd
    | exact @rfl Nat _
    | exact List.length_set ..
    | intro _ _
    | split
    | dsimp only

theorem atsInvalidate_keeps {s0 : State} (tag : BitVec 5) (pasid : BitVec 20) (first : BitVec 53) (count : BitVec 53) (s : State) (hu : Keeps s0 s) :
    Keeps s0 (atsInvalidate tag pasid first count s) := by
  unfold atsInvalidate
  (try dsimp only)
  repeat first
    | (simp only [keeps_mk]; with_reducible refine Keeps.fold ?_)
    | with_reducible assumption
    | with_reducible exact Keeps.refl _
    | with_reducible apply foldl_keeps
    | with_reducible apply Keeps.ite
    | with_reducible apply Keeps.iteFst
    | with_reducible apply Keeps.iteSnd
    | exact @rfl Nat _
    | exact List.length_set ..
    | intro _ _
    | split
    | dsimp only

theorem intMaskWrite_keeps {s0 : State} (v : BitVec 32) (s : State) (hu : Keeps s0 s) :
    Keeps s0 (intMaskWrite v s) := by
  unfold intMaskWrite
  (try dsimp only)
  repeat first
    | (simp only [keeps_mk]; with_reducible refine Keeps.fold ?_)
    | with_reducible assumption
    | with_reducible exact Keeps.refl _
    | with_reducible apply msixSend_keeps
    | with_reducible apply foldl_keeps
    | with_reducible apply Keeps.ite
    | with_reducible apply Keeps.iteFst
    | with_reducible apply Keeps.iteSnd
    | exact @rfl Nat _
    | exact List.length_set ..
    | intro _ _
    | split
    | dsimp only

theorem epochWrite_keeps {s0 : State} (v : BitVec 2) (s : State) (hu : Keeps s0 s) :
    Keeps s0 (epochWrite v s) := by
  unfold epochWrite
  (try dsimp only)
  repeat first
    | (simp only [keeps_mk]; with_reducible refine Keeps.fold ?_)
    | with_reducible assumption
    | with_reducible exact Keeps.refl _
    | with_reducible apply note_keeps
    | with_reducible apply foldl_keeps
    | with_reducible apply Keeps.ite
    | with_reducible apply Keeps.iteFst
    | with_reducible apply Keeps.iteSnd
    | exact @rfl Nat _
    | exact List.length_set ..
    | intro _ _
    | split
    | dsimp only

theorem epochLock_keeps {s0 : State} (s : State) (hu : Keeps s0 s) :
    Keeps s0 (epochLock s) := by
  unfold epochLock
  (try dsimp only)
  repeat first
    | (simp only [keeps_mk]; with_reducible refine Keeps.fold ?_)
    | with_reducible assumption
    | with_reducible exact Keeps.refl _
    | with_reducible apply foldl_keeps
    | with_reducible apply Keeps.ite
    | with_reducible apply Keeps.iteFst
    | with_reducible apply Keeps.iteSnd
    | exact @rfl Nat _
    | exact List.length_set ..
    | intro _ _
    | split
    | dsimp only

end Sys2Proof.Machine
end

