-- ==== Sys2Proof/Laws/KeepsPitches.lean ====
section
/-! SUPPORT. What the functions of Machine/Pitches.lean keep (Laws/Keeps.lean). -/
namespace Sys2Proof.Machine

-- One theorem after another: a thread for each that waits would fill the memory.
set_option Elab.async false

theorem pitchCommit_keeps {s0 : State} (p : BitVec 8) (s : State) (hu : Keeps s0 s) :
    Keeps s0 (pitchCommit p s) := by
  unfold pitchCommit
  (try dsimp only)
  repeat first
    | (simp only [keeps_mk]; with_reducible refine Keeps.fold ?_)
    | with_reducible assumption
    | with_reducible exact Keeps.refl _
    | with_reducible apply State.setPitch_keeps
    | with_reducible apply foldl_keeps
    | with_reducible apply Keeps.ite
    | with_reducible apply Keeps.iteFst
    | with_reducible apply Keeps.iteSnd
    | exact @rfl Nat _
    | exact List.length_set ..
    | intro _ _
    | split
    | dsimp only

theorem pitchRefuse_keeps {s0 : State} (p : BitVec 8) (d : BitVec 16) (s : State) (hu : Keeps s0 s) :
    Keeps s0 (pitchRefuse p d s) := by
  unfold pitchRefuse
  (try dsimp only)
  repeat first
    | (simp only [keeps_mk]; with_reducible refine Keeps.fold ?_)
    | with_reducible assumption
    | with_reducible exact Keeps.refl _
    | with_reducible apply State.setPitch_keeps
    | with_reducible apply foldl_keeps
    | with_reducible apply Keeps.ite
    | with_reducible apply Keeps.iteFst
    | with_reducible apply Keeps.iteSnd
    | exact @rfl Nat _
    | exact List.length_set ..
    | intro _ _
    | split
    | dsimp only

theorem pitchReset_keeps {s0 : State} (p : BitVec 8) (release : Bool) (s : State) (hu : Keeps s0 s) :
    Keeps s0 (pitchReset p release s) := by
  unfold pitchReset
  (try dsimp only)
  repeat first
    | (simp only [keeps_mk]; with_reducible refine Keeps.fold ?_)
    | with_reducible assumption
    | with_reducible exact Keeps.refl _
    | with_reducible apply pitchRefuse_keeps
    | with_reducible apply askReset_keeps
    | with_reducible apply foldl_keeps
    | with_reducible apply Keeps.ite
    | with_reducible apply Keeps.iteFst
    | with_reducible apply Keeps.iteSnd
    | exact @rfl Nat _
    | exact List.length_set ..
    | intro _ _
    | split
    | dsimp only

theorem selfReset_keeps {s0 : State} (p : BitVec 8) (confirm : BitVec 16) (s : State) (hu : Keeps s0 s) :
    Keeps s0 (selfReset p confirm s) := by
  unfold selfReset
  (try dsimp only)
  repeat first
    | (simp only [keeps_mk]; with_reducible refine Keeps.fold ?_)
    | with_reducible assumption
    | with_reducible exact Keeps.refl _
    | with_reducible apply askReset_keeps
    | with_reducible apply foldl_keeps
    | with_reducible apply Keeps.ite
    | with_reducible apply Keeps.iteFst
    | with_reducible apply Keeps.iteSnd
    | exact @rfl Nat _
    | exact List.length_set ..
    | intro _ _
    | split
    | dsimp only

theorem pitchStateFault_keeps {s0 : State} (p : BitVec 8) (s : State) (hu : Keeps s0 s) :
    Keeps s0 (pitchStateFault p s) := by
  unfold pitchStateFault
  (try dsimp only)
  repeat first
    | (simp only [keeps_mk]; with_reducible refine Keeps.fold ?_)
    | with_reducible assumption
    | with_reducible exact Keeps.refl _
    | with_reducible apply askReset_keeps
    | with_reducible apply foldl_keeps
    | with_reducible apply Keeps.ite
    | with_reducible apply Keeps.iteFst
    | with_reducible apply Keeps.iteSnd
    | exact @rfl Nat _
    | exact List.length_set ..
    | intro _ _
    | split
    | dsimp only

theorem freeze_keeps {s0 : State} (p : BitVec 8) (s : State) (hu : Keeps s0 s) :
    Keeps s0 (freeze p s) := by
  unfold freeze
  (try dsimp only)
  repeat first
    | (simp only [keeps_mk]; with_reducible refine Keeps.fold ?_)
    | with_reducible assumption
    | with_reducible exact Keeps.refl _
    | with_reducible apply pitchRefuse_keeps
    | with_reducible apply State.setPitch_keeps
    | with_reducible apply breakJob_keeps
    | with_reducible apply foldl_keeps
    | with_reducible apply Keeps.ite
    | with_reducible apply Keeps.iteFst
    | with_reducible apply Keeps.iteSnd
    | exact @rfl Nat _
    | exact List.length_set ..
    | intro _ _
    | split
    | dsimp only

theorem pitchFrozen_keeps {s0 : State} (p : BitVec 8) (s : State) (hu : Keeps s0 s) :
    Keeps s0 (pitchFrozen p s) := by
  unfold pitchFrozen
  (try dsimp only)
  repeat first
    | (simp only [keeps_mk]; with_reducible refine Keeps.fold ?_)
    | with_reducible assumption
    | with_reducible exact Keeps.refl _
    | with_reducible apply State.setPitch_keeps
    | with_reducible apply foldl_keeps
    | with_reducible apply Keeps.ite
    | with_reducible apply Keeps.iteFst
    | with_reducible apply Keeps.iteSnd
    | exact @rfl Nat _
    | exact List.length_set ..
    | intro _ _
    | split
    | dsimp only

theorem thaw_keeps {s0 : State} (p : BitVec 8) (s : State) (hu : Keeps s0 s) :
    Keeps s0 (thaw p s) := by
  unfold thaw
  (try dsimp only)
  repeat first
    | (simp only [keeps_mk]; with_reducible refine Keeps.fold ?_)
    | with_reducible assumption
    | with_reducible exact Keeps.refl _
    | with_reducible apply pitchRefuse_keeps
    | with_reducible apply State.setPitch_keeps
    | with_reducible apply foldl_keeps
    | with_reducible apply Keeps.ite
    | with_reducible apply Keeps.iteFst
    | with_reducible apply Keeps.iteSnd
    | exact @rfl Nat _
    | exact List.length_set ..
    | intro _ _
    | split
    | dsimp only

theorem logEnable_keeps {s0 : State} (p : BitVec 8) (s : State) (hu : Keeps s0 s) :
    Keeps s0 (logEnable p s) := by
  unfold logEnable
  (try dsimp only)
  repeat first
    | (simp only [keeps_mk]; with_reducible refine Keeps.fold ?_)
    | with_reducible assumption
    | with_reducible exact Keeps.refl _
    | with_reducible apply pitchRefuse_keeps
    | with_reducible apply State.setPitch_keeps
    | with_reducible apply foldl_keeps
    | with_reducible apply Keeps.ite
    | with_reducible apply Keeps.iteFst
    | with_reducible apply Keeps.iteSnd
    | exact @rfl Nat _
    | exact List.length_set ..
    | intro _ _
    | split
    | dsimp only

theorem logSwap_keeps {s0 : State} (p : BitVec 8) (s : State) (hu : Keeps s0 s) :
    Keeps s0 (logSwap p s) := by
  unfold logSwap
  (try dsimp only)
  repeat first
    | (simp only [keeps_mk]; with_reducible refine Keeps.fold ?_)
    | with_reducible assumption
    | with_reducible exact Keeps.refl _
    | with_reducible apply pitchRefuse_keeps
    | with_reducible apply State.setPitch_keeps
    | with_reducible apply foldl_keeps
    | with_reducible apply Keeps.ite
    | with_reducible apply Keeps.iteFst
    | with_reducible apply Keeps.iteSnd
    | exact @rfl Nat _
    | exact List.length_set ..
    | intro _ _
    | split
    | dsimp only

theorem logSwapDone_keeps {s0 : State} (p : BitVec 8) (s : State) (hu : Keeps s0 s) :
    Keeps s0 (logSwapDone p s) := by
  unfold logSwapDone
  (try dsimp only)
  repeat first
    | (simp only [keeps_mk]; with_reducible refine Keeps.fold ?_)
    | with_reducible assumption
    | with_reducible exact Keeps.refl _
    | with_reducible apply State.setPitch_keeps
    | with_reducible apply foldl_keeps
    | with_reducible apply Keeps.ite
    | with_reducible apply Keeps.iteFst
    | with_reducible apply Keeps.iteSnd
    | exact @rfl Nat _
    | exact List.length_set ..
    | intro _ _
    | split
    | dsimp only

theorem logDisable_keeps {s0 : State} (p : BitVec 8) (s : State) (hu : Keeps s0 s) :
    Keeps s0 (logDisable p s) := by
  unfold logDisable
  (try dsimp only)
  repeat first
    | (simp only [keeps_mk]; with_reducible refine Keeps.fold ?_)
    | with_reducible assumption
    | with_reducible exact Keeps.refl _
    | with_reducible apply pitchRefuse_keeps
    | with_reducible apply State.setPitch_keeps
    | with_reducible apply foldl_keeps
    | with_reducible apply Keeps.ite
    | with_reducible apply Keeps.iteFst
    | with_reducible apply Keeps.iteSnd
    | exact @rfl Nat _
    | exact List.length_set ..
    | intro _ _
    | split
    | dsimp only

theorem pitchResetEnd_keeps {s0 : State} (p : BitVec 8) (s : State) (hu : Keeps s0 s) :
    Keeps s0 (pitchResetEnd p s) := by
  unfold pitchResetEnd
  (try dsimp only)
  repeat first
    | (simp only [keeps_mk]; with_reducible refine Keeps.fold ?_)
    | with_reducible assumption
    | with_reducible exact Keeps.refl _
    | with_reducible apply dueResets_keeps
    | with_reducible apply endReset_keeps
    | with_reducible apply foldl_keeps
    | with_reducible apply Keeps.ite
    | with_reducible apply Keeps.iteFst
    | with_reducible apply Keeps.iteSnd
    | exact @rfl Nat _
    | exact List.length_set ..
    | intro _ _
    | split
    | dsimp only

theorem disableDqs_keeps {s0 : State} (s : State) (hu : Keeps s0 s) :
    Keeps s0 (disableDqs s) := by
  unfold disableDqs
  (try dsimp only)
  repeat first
    | (simp only [keeps_mk]; with_reducible refine Keeps.fold ?_)
    | with_reducible assumption
    | with_reducible exact Keeps.refl _
    | with_reducible apply dropWaiting_keeps
    | with_reducible apply State.setDq_keeps
    | with_reducible apply foldl_keeps
    | with_reducible apply Keeps.ite
    | with_reducible apply Keeps.iteFst
    | with_reducible apply Keeps.iteSnd
    | exact @rfl Nat _
    | exact List.length_set ..
    | intro _ _
    | split
    | dsimp only

theorem resetEveryPitch_keeps {s0 : State} (cause : ResetCause) (s : State) (hu : Keeps s0 s) :
    Keeps s0 (resetEveryPitch cause s) := by
  unfold resetEveryPitch
  (try dsimp only)
  repeat first
    | (simp only [keeps_mk]; with_reducible refine Keeps.fold ?_)
    | with_reducible assumption
    | with_reducible exact Keeps.refl _
    | with_reducible apply endReset_keeps
    | with_reducible apply beginReset_keeps
    | with_reducible apply foldl_keeps
    | with_reducible apply Keeps.ite
    | with_reducible apply Keeps.iteFst
    | with_reducible apply Keeps.iteSnd
    | exact @rfl Nat _
    | exact List.length_set ..
    | intro _ _
    | split
    | dsimp only

theorem d3hotEntry_keeps {s0 : State} (s : State) (hu : Keeps s0 s) :
    Keeps s0 (d3hotEntry s) := by
  unfold d3hotEntry
  (try dsimp only)
  repeat first
    | (simp only [keeps_mk]; with_reducible refine Keeps.fold ?_)
    | with_reducible assumption
    | with_reducible exact Keeps.refl _
    | with_reducible apply disableDqs_keeps
    | with_reducible apply resetEveryPitch_keeps
    | with_reducible apply foldl_keeps
    | with_reducible apply Keeps.ite
    | with_reducible apply Keeps.iteFst
    | with_reducible apply Keeps.iteSnd
    | exact @rfl Nat _
    | exact List.length_set ..
    | intro _ _
    | split
    | dsimp only

theorem d0Return_keeps {s0 : State} (s : State) (hu : Keeps s0 s) :
    Keeps s0 (d0Return s) := by
  unfold d0Return
  (try dsimp only)
  repeat first
    | (simp only [keeps_mk]; with_reducible refine Keeps.fold ?_)
    | with_reducible assumption
    | with_reducible exact Keeps.refl _
    | with_reducible apply sendPending_keeps
    | with_reducible apply foldl_keeps
    | with_reducible apply Keeps.ite
    | with_reducible apply Keeps.iteFst
    | with_reducible apply Keeps.iteSnd
    | exact @rfl Nat _
    | exact List.length_set ..
    | intro _ _
    | split
    | dsimp only

theorem pickFrom_own (n : Nat) (l : List Nat) (s : State) : Keeps s (pickFrom n l s).2 := by
  induction n generalizing l s with
  | zero => exact Keeps.refl s
  | succ n ih =>
    unfold pickFrom
    have k : Keeps s (drawFree s).2 := drawFree_keeps _ (Keeps.refl _)
    dsimp only
    split
    · exact k
    · exact Keeps.trans k (ih _ _)

theorem pickFrom_keeps {s0 : State} (z0 : Nat) (z1 : List Nat) (z2 : State) (hu : Keeps s0 z2) :
    Keeps s0 (pickFrom z0 z1 z2).2 :=
  Keeps.trans hu (pickFrom_own z0 z1 z2)

theorem takeContexts_keeps {s0 : State} (n : Nat) (s : State) (hu : Keeps s0 s) :
    Keeps s0 (takeContexts n s).2 := by
  unfold takeContexts
  (try dsimp only)
  repeat first
    | (simp only [keeps_mk]; with_reducible refine Keeps.fold ?_)
    | with_reducible assumption
    | with_reducible exact Keeps.refl _
    | with_reducible apply pickFrom_keeps
    | with_reducible apply foldl_keeps
    | with_reducible apply Keeps.ite
    | with_reducible apply Keeps.iteFst
    | with_reducible apply Keeps.iteSnd
    | exact @rfl Nat _
    | exact List.length_set ..
    | intro _ _
    | split
    | dsimp only

theorem ctxAllocRun_keeps {s0 : State} (s : State) (x : Job) (hu : Keeps s0 s) :
    Keeps s0 (ctxAllocRun s x).state := by
  unfold ctxAllocRun
  (try dsimp only)
  repeat first
    | (simp only [keeps_mk]; with_reducible refine Keeps.fold ?_)
    | with_reducible assumption
    | with_reducible exact Keeps.refl _
    | with_reducible apply forwardJob_keeps
    | with_reducible apply State.setCtx_keeps
    | with_reducible apply State.setJob_keeps
    | with_reducible apply takeContexts_keeps
    | with_reducible apply foldl_keeps
    | with_reducible apply Keeps.ite
    | with_reducible apply Keeps.iteFst
    | with_reducible apply Keeps.iteSnd
    | exact @rfl Nat _
    | exact List.length_set ..
    | intro _ _
    | split
    | dsimp only

theorem ctxAllocSpec_keeps : ∀ s x, Keeps s ((ctxAllocSpec).run s x).state := by
  intro s x
  unfold ctxAllocSpec
  (try dsimp only)
  repeat first
    | (simp only [keeps_mk]; with_reducible refine Keeps.fold ?_)
    | with_reducible assumption
    | with_reducible exact Keeps.refl _
    | with_reducible apply ctxAllocRun_keeps
    | with_reducible apply foldl_keeps
    | with_reducible apply Keeps.ite
    | with_reducible apply Keeps.iteFst
    | with_reducible apply Keeps.iteSnd
    | exact @rfl Nat _
    | exact List.length_set ..
    | intro _ _
    | split
    | dsimp only

theorem ctxFreeSpec_keeps : ∀ s x, Keeps s ((ctxFreeSpec).run s x).state := by
  intro s x
  unfold ctxFreeSpec
  (try dsimp only)
  repeat first
    | (simp only [keeps_mk]; with_reducible refine Keeps.fold ?_)
    | with_reducible assumption
    | with_reducible exact Keeps.refl _
    | with_reducible apply freeContext_keeps
    | with_reducible apply foldl_keeps
    | with_reducible apply Keeps.ite
    | with_reducible apply Keeps.iteFst
    | with_reducible apply Keeps.iteSnd
    | exact @rfl Nat _
    | exact List.length_set ..
    | intro _ _
    | split
    | dsimp only

theorem exportKeys_own (s : State) (mig : Bytes) (id : Bytes) (l : List (BitVec 13 × Key)) : Keeps s (exportKeys s mig id l).1 := by
  induction l generalizing s with
  | nil => exact Keeps.refl s
  | cons h t ih =>
    obtain ⟨n, k⟩ := h
    unfold exportKeys
    exact Keeps.trans (draw_keeps _ _ _ (Keeps.refl _)) (ih _)

theorem exportKeys_keeps {s0 : State} (s : State) (mig : Bytes) (id : Bytes) (z3 : List (BitVec 13 × Key)) (hu : Keeps s0 s) :
    Keeps s0 (exportKeys s mig id z3).1 :=
  Keeps.trans hu (exportKeys_own s mig id z3)

theorem markMigrated_keeps {s0 : State} (p : BitVec 8) (m : Bool) (s : State) (hu : Keeps s0 s) :
    Keeps s0 (markMigrated p m s) := by
  unfold markMigrated
  (try dsimp only)
  repeat first
    | (simp only [keeps_mk]; with_reducible refine Keeps.fold ?_)
    | with_reducible assumption
    | with_reducible exact Keeps.refl _
    | with_reducible apply foldl_keeps
    | with_reducible apply Keeps.ite
    | with_reducible apply Keeps.iteFst
    | with_reducible apply Keeps.iteSnd
    | exact @rfl Nat _
    | exact List.length_set ..
    | intro _ _
    | split
    | dsimp only

theorem pitchExportRun_keeps {s0 : State} (s : State) (x : Job) (hu : Keeps s0 s) :
    Keeps s0 (pitchExportRun s x).state := by
  unfold pitchExportRun
  (try dsimp only)
  repeat first
    | (simp only [keeps_mk]; with_reducible refine Keeps.fold ?_)
    | with_reducible assumption
    | with_reducible exact Keeps.refl _
    | with_reducible apply markMigrated_keeps
    | with_reducible apply draw_keeps
    | with_reducible apply exportKeys_keeps
    | with_reducible apply foldl_keeps
    | with_reducible apply Keeps.ite
    | with_reducible apply Keeps.iteFst
    | with_reducible apply Keeps.iteSnd
    | exact @rfl Nat _
    | exact List.length_set ..
    | intro _ _
    | split
    | dsimp only

theorem pitchExportSpec_keeps : ∀ s x, Keeps s ((pitchExportSpec).run s x).state := by
  intro s x
  unfold pitchExportSpec
  (try dsimp only)
  repeat first
    | (simp only [keeps_mk]; with_reducible refine Keeps.fold ?_)
    | with_reducible assumption
    | with_reducible exact Keeps.refl _
    | with_reducible apply pitchExportRun_keeps
    | with_reducible apply foldl_keeps
    | with_reducible apply Keeps.ite
    | with_reducible apply Keeps.iteFst
    | with_reducible apply Keeps.iteSnd
    | exact @rfl Nat _
    | exact List.length_set ..
    | intro _ _
    | split
    | dsimp only

theorem takePlaces_keeps {s0 : State} (s : State) (x : Job) (p : BitVec 8) (ctxs : List (BitVec 14 × BitVec 16 × Bytes)) (keys : List (BitVec 32 × Key)) (hu : Keeps s0 s) :
    Keeps s0 (takePlaces s x p ctxs keys) := by
  unfold takePlaces
  (try dsimp only)
  repeat first
    | (simp only [keeps_mk]; with_reducible refine Keeps.fold ?_)
    | with_reducible assumption
    | with_reducible exact Keeps.refl _
    | with_reducible apply State.setCtx_keeps
    | with_reducible apply reserveSlot_keeps
    | with_reducible apply State.setJob_keeps
    | with_reducible apply foldl_keeps
    | with_reducible apply Keeps.ite
    | with_reducible apply Keeps.iteFst
    | with_reducible apply Keeps.iteSnd
    | exact @rfl Nat _
    | exact List.length_set ..
    | intro _ _
    | split
    | dsimp only

theorem pitchImportRun_keeps {s0 : State} (s : State) (x : Job) (hu : Keeps s0 s) :
    Keeps s0 (pitchImportRun s x).state := by
  unfold pitchImportRun
  (try dsimp only)
  repeat first
    | (simp only [keeps_mk]; with_reducible refine Keeps.fold ?_)
    | with_reducible assumption
    | with_reducible exact Keeps.refl _
    | with_reducible apply takePlaces_keeps
    | with_reducible apply foldl_keeps
    | with_reducible apply Keeps.ite
    | with_reducible apply Keeps.iteFst
    | with_reducible apply Keeps.iteSnd
    | exact @rfl Nat _
    | exact List.length_set ..
    | intro _ _
    | split
    | dsimp only

theorem pitchImportSpec_keeps : ∀ s x, Keeps s ((pitchImportSpec).run s x).state := by
  intro s x
  unfold pitchImportSpec
  (try dsimp only)
  repeat first
    | (simp only [keeps_mk]; with_reducible refine Keeps.fold ?_)
    | with_reducible assumption
    | with_reducible exact Keeps.refl _
    | with_reducible apply pitchImportRun_keeps
    | with_reducible apply foldl_keeps
    | with_reducible apply Keeps.ite
    | with_reducible apply Keeps.iteFst
    | with_reducible apply Keeps.iteSnd
    | exact @rfl Nat _
    | exact List.length_set ..
    | intro _ _
    | split
    | dsimp only

end Sys2Proof.Machine
end

