-- ==== Sys2Proof/Laws/KeepsFlows.lean ====
section
/-! SUPPORT. What the functions of Machine/Flows.lean keep (Laws/Keeps.lean). -/
namespace Sys2Proof.Machine

-- One theorem after another: a thread for each that waits would fill the memory.
set_option Elab.async false

theorem placeFlow_keeps {s0 : State} (s : State) (x : Job) (f : Flow) (hu : Keeps s0 s) :
    Keeps s0 (placeFlow s x f).1 := by
  unfold placeFlow
  (try dsimp only)
  repeat first
    | (simp only [keeps_mk]; with_reducible refine Keeps.fold ?_)
    | with_reducible assumption
    | with_reducible exact Keeps.refl _
    | with_reducible apply State.setCtx_keeps
    | with_reducible apply State.setJob_keeps
    | with_reducible apply takeContexts_keeps
    | with_reducible apply foldl_keeps
    | with_reducible apply Keeps.ite
    | with_reducible apply Keeps.iteFst
    | with_reducible apply Keeps.iteSnd
    | exact @rfl Nat _
    | exact List.length_set ..
    | intro _ _
    | split
    | dsimp only

theorem createRun_keeps {s0 : State} (s : State) (x : Job) (hu : Keeps s0 s) :
    Keeps s0 (createRun s x).state := by
  unfold createRun
  (try dsimp only)
  repeat first
    | (simp only [keeps_mk]; with_reducible refine Keeps.fold ?_)
    | with_reducible assumption
    | with_reducible exact Keeps.refl _
    | with_reducible apply draw_keeps
    | with_reducible apply placeFlow_keeps
    | with_reducible apply foldl_keeps
    | with_reducible apply Keeps.ite
    | with_reducible apply Keeps.iteFst
    | with_reducible apply Keeps.iteSnd
    | exact @rfl Nat _
    | exact List.length_set ..
    | intro _ _
    | split
    | dsimp only

theorem flowCreateSpec_keeps : ∀ s x, Keeps s ((flowCreateSpec).run s x).state := by
  intro s x
  unfold flowCreateSpec
  (try dsimp only)
  repeat first
    | (simp only [keeps_mk]; with_reducible refine Keeps.fold ?_)
    | with_reducible assumption
    | with_reducible exact Keeps.refl _
    | with_reducible apply createRun_keeps
    | with_reducible apply foldl_keeps
    | with_reducible apply Keeps.ite
    | with_reducible apply Keeps.iteFst
    | with_reducible apply Keeps.iteSnd
    | exact @rfl Nat _
    | exact List.length_set ..
    | intro _ _
    | split
    | dsimp only

theorem flowOpRun_keeps {s0 : State} (op : FlowOp) (s : State) (x : Job) (hu : Keeps s0 s) :
    Keeps s0 (flowOpRun op s x).state := by
  unfold flowOpRun
  (try dsimp only)
  repeat first
    | (simp only [keeps_mk]; with_reducible refine Keeps.fold ?_)
    | with_reducible assumption
    | with_reducible exact Keeps.refl _
    | with_reducible apply foldl_keeps
    | with_reducible apply Keeps.ite
    | with_reducible apply Keeps.iteFst
    | with_reducible apply Keeps.iteSnd
    | exact @rfl Nat _
    | exact List.length_set ..
    | intro _ _
    | split
    | dsimp only

theorem flowDeleteSpec_keeps : ∀ s x, Keeps s ((flowDeleteSpec).run s x).state := by
  intro s x
  unfold flowDeleteSpec
  (try dsimp only)
  repeat first
    | (simp only [keeps_mk]; with_reducible refine Keeps.fold ?_)
    | with_reducible assumption
    | with_reducible exact Keeps.refl _
    | with_reducible apply flowOpRun_keeps
    | with_reducible apply foldl_keeps
    | with_reducible apply Keeps.ite
    | with_reducible apply Keeps.iteFst
    | with_reducible apply Keeps.iteSnd
    | exact @rfl Nat _
    | exact List.length_set ..
    | intro _ _
    | split
    | dsimp only

theorem flowKeyRun_keeps {s0 : State} (s : State) (x : Job) (hu : Keeps s0 s) :
    Keeps s0 (flowKeyRun s x).state := by
  unfold flowKeyRun
  (try dsimp only)
  repeat first
    | (simp only [keeps_mk]; with_reducible refine Keeps.fold ?_)
    | with_reducible assumption
    | with_reducible exact Keeps.refl _
    | with_reducible apply flowOpRun_keeps
    | with_reducible apply foldl_keeps
    | with_reducible apply Keeps.ite
    | with_reducible apply Keeps.iteFst
    | with_reducible apply Keeps.iteSnd
    | exact @rfl Nat _
    | exact List.length_set ..
    | intro _ _
    | split
    | dsimp only

theorem flowKeySpec_keeps : ∀ s x, Keeps s ((flowKeySpec).run s x).state := by
  intro s x
  unfold flowKeySpec
  (try dsimp only)
  repeat first
    | (simp only [keeps_mk]; with_reducible refine Keeps.fold ?_)
    | with_reducible assumption
    | with_reducible exact Keeps.refl _
    | with_reducible apply flowKeyRun_keeps
    | with_reducible apply foldl_keeps
    | with_reducible apply Keeps.ite
    | with_reducible apply Keeps.iteFst
    | with_reducible apply Keeps.iteSnd
    | exact @rfl Nat _
    | exact List.length_set ..
    | intro _ _
    | split
    | dsimp only

theorem flowSetSpec_keeps : ∀ s x, Keeps s ((flowSetSpec).run s x).state := by
  intro s x
  unfold flowSetSpec
  (try dsimp only)
  repeat first
    | (simp only [keeps_mk]; with_reducible refine Keeps.fold ?_)
    | with_reducible assumption
    | with_reducible exact Keeps.refl _
    | with_reducible apply flowOpRun_keeps
    | with_reducible apply foldl_keeps
    | with_reducible apply Keeps.ite
    | with_reducible apply Keeps.iteFst
    | with_reducible apply Keeps.iteSnd
    | exact @rfl Nat _
    | exact List.length_set ..
    | intro _ _
    | split
    | dsimp only

theorem flowResyncSpec_keeps : ∀ s x, Keeps s ((flowResyncSpec).run s x).state := by
  intro s x
  unfold flowResyncSpec
  (try dsimp only)
  repeat first
    | (simp only [keeps_mk]; with_reducible refine Keeps.fold ?_)
    | with_reducible assumption
    | with_reducible exact Keeps.refl _
    | with_reducible apply flowOpRun_keeps
    | with_reducible apply foldl_keeps
    | with_reducible apply Keeps.ite
    | with_reducible apply Keeps.iteFst
    | with_reducible apply Keeps.iteSnd
    | exact @rfl Nat _
    | exact List.length_set ..
    | intro _ _
    | split
    | dsimp only

theorem flowReadSpec_keeps : ∀ s x, Keeps s ((flowReadSpec).run s x).state := by
  intro s x
  unfold flowReadSpec
  (try dsimp only)
  repeat first
    | (simp only [keeps_mk]; with_reducible refine Keeps.fold ?_)
    | with_reducible assumption
    | with_reducible exact Keeps.refl _
    | with_reducible apply foldl_keeps
    | with_reducible apply Keeps.ite
    | with_reducible apply Keeps.iteFst
    | with_reducible apply Keeps.iteSnd
    | exact @rfl Nat _
    | exact List.length_set ..
    | intro _ _
    | split
    | dsimp only

theorem standbyRun_keeps {s0 : State} (s : State) (x : Job) (hu : Keeps s0 s) :
    Keeps s0 (standbyRun s x).state := by
  unfold standbyRun
  (try dsimp only)
  repeat first
    | (simp only [keeps_mk]; with_reducible refine Keeps.fold ?_)
    | with_reducible assumption
    | with_reducible exact Keeps.refl _
    | with_reducible apply State.setCtx_keeps
    | with_reducible apply State.setJob_keeps
    | with_reducible apply flowMsg_keeps
    | with_reducible apply takeContexts_keeps
    | with_reducible apply foldl_keeps
    | with_reducible apply Keeps.ite
    | with_reducible apply Keeps.iteFst
    | with_reducible apply Keeps.iteSnd
    | exact @rfl Nat _
    | exact List.length_set ..
    | intro _ _
    | split
    | dsimp only

theorem flowStandbySpec_keeps : ∀ s x, Keeps s ((flowStandbySpec).run s x).state := by
  intro s x
  unfold flowStandbySpec
  (try dsimp only)
  repeat first
    | (simp only [keeps_mk]; with_reducible refine Keeps.fold ?_)
    | with_reducible assumption
    | with_reducible exact Keeps.refl _
    | with_reducible apply standbyRun_keeps
    | with_reducible apply foldl_keeps
    | with_reducible apply Keeps.ite
    | with_reducible apply Keeps.iteFst
    | with_reducible apply Keeps.iteSnd
    | exact @rfl Nat _
    | exact List.length_set ..
    | intro _ _
    | split
    | dsimp only

theorem countBy_own (port c n : Nat) (s : State) : Keeps s (countBy port c n s) :=
  Keeps.ports (s1 := s) rfl rfl (List.length_modify ..) (Keeps.refl s)

theorem countBy_keeps {s0 : State} (port : Nat) (c : Nat) (n : Nat) (s : State) (hu : Keeps s0 s) :
    Keeps s0 (countBy port c n s) :=
  Keeps.trans hu (countBy_own port c n s)

theorem countAt_keeps {s0 : State} (port : Nat) (c : Nat) (s : State) (hu : Keeps s0 s) :
    Keeps s0 (countAt port c s) := by
  unfold countAt
  (try dsimp only)
  repeat first
    | (simp only [keeps_mk]; with_reducible refine Keeps.fold ?_)
    | with_reducible assumption
    | with_reducible exact Keeps.refl _
    | with_reducible apply countBy_keeps
    | with_reducible apply foldl_keeps
    | with_reducible apply Keeps.ite
    | with_reducible apply Keeps.iteFst
    | with_reducible apply Keeps.iteSnd
    | exact @rfl Nat _
    | exact List.length_set ..
    | intro _ _
    | split
    | dsimp only

theorem queueBytes_own (port n : Nat) (s : State) : Keeps s (queueBytes port n s) :=
  Keeps.ports (s1 := s) rfl rfl (List.length_modify ..) (Keeps.refl s)

theorem queueBytes_keeps {s0 : State} (port : Nat) (n : Nat) (s : State) (hu : Keeps s0 s) :
    Keeps s0 (queueBytes port n s) :=
  Keeps.trans hu (queueBytes_own port n s)

theorem emitFrame_keeps {s0 : State} (f : Bytes) (s : State) (p : Nat) (hu : Keeps s0 s) :
    Keeps s0 (emitFrame f s p) := by
  unfold emitFrame
  (try dsimp only)
  repeat first
    | (simp only [keeps_mk]; with_reducible refine Keeps.fold ?_)
    | with_reducible assumption
    | with_reducible exact Keeps.refl _
    | with_reducible apply queueBytes_keeps
    | with_reducible apply countAt_keeps
    | with_reducible apply foldl_keeps
    | with_reducible apply Keeps.ite
    | with_reducible apply Keeps.iteFst
    | with_reducible apply Keeps.iteSnd
    | exact @rfl Nat _
    | exact List.length_set ..
    | intro _ _
    | split
    | dsimp only

theorem emitAll_keeps {s0 : State} (f : Bytes) (ps : List Nat) (s : State) (hu : Keeps s0 s) :
    Keeps s0 (emitAll f ps s) := by
  unfold emitAll
  (try dsimp only)
  repeat first
    | (simp only [keeps_mk]; with_reducible refine Keeps.fold ?_)
    | with_reducible assumption
    | with_reducible exact Keeps.refl _
    | with_reducible apply emitFrame_keeps
    | with_reducible apply foldl_keeps
    | with_reducible apply Keeps.ite
    | with_reducible apply Keeps.iteFst
    | with_reducible apply Keeps.iteSnd
    | exact @rfl Nat _
    | exact List.length_set ..
    | intro _ _
    | split
    | dsimp only

theorem sendOut_own (s : State) (x : Job) (fl : Option Flow) (f : Bytes) (sent : State → State) (h_sent : ∀ t, Keeps t (sent t)) : Keeps s (sendOut s x fl f sent).state := by
  unfold sendOut
  extract_lets ports
  clear_value ports
  generalize (if s.stream.cfg.prp then 6 else 0) = n
  split
  · exact Keeps.refl s
  rcases ports with _ | ⟨p, ps⟩
  · exact Keeps.refl s
  · exact Keeps.trans (emitAll_keeps _ _ _ (Keeps.refl _)) (h_sent _)

theorem sendOut_keeps {s0 : State} (s : State) (x : Job) (fl : Option Flow) (f : Bytes) (sent : State → State) (h_sent : ∀ t, Keeps t (sent t)) (hu : Keeps s0 s) :
    Keeps s0 (sendOut s x fl f sent).state :=
  Keeps.trans hu (sendOut_own s x fl f sent h_sent)

theorem flowSent_keeps {s0 : State} (i : BitVec 14) (s : State) (hu : Keeps s0 s) :
    Keeps s0 (flowSent i s) := by
  unfold flowSent
  (try dsimp only)
  repeat first
    | (simp only [keeps_mk]; with_reducible refine Keeps.fold ?_)
    | with_reducible assumption
    | with_reducible exact Keeps.refl _
    | with_reducible apply changeFlow_keeps
    | with_reducible apply foldl_keeps
    | with_reducible apply Keeps.ite
    | with_reducible apply Keeps.iteFst
    | with_reducible apply Keeps.iteSnd
    | exact @rfl Nat _
    | exact List.length_set ..
    | intro _ _
    | split
    | dsimp only

theorem sendRun_own (s : State) (x : Job) : Keeps s (sendRun s x).state := by
  unfold sendRun
  dsimp only
  split
  · exact sendOut_keeps _ _ _ _ _ (fun t => Keeps.refl t) (Keeps.refl _)
  split
  · exact Keeps.refl s
  split
  · exact Keeps.refl s
  split
  · exact Keeps.refl s
  split
  · exact Keeps.refl s
  split
  · exact Keeps.refl s
  · exact sendOut_keeps _ _ _ _ _ (fun t => flowSent_keeps _ t (Keeps.refl t)) (Keeps.refl _)

theorem sendRun_keeps {s0 : State} (s : State) (x : Job) (hu : Keeps s0 s) :
    Keeps s0 (sendRun s x).state :=
  Keeps.trans hu (sendRun_own s x)

theorem streamSendSpec_keeps : ∀ s x, Keeps s ((streamSendSpec).run s x).state := by
  intro s x
  unfold streamSendSpec
  (try dsimp only)
  repeat first
    | (simp only [keeps_mk]; with_reducible refine Keeps.fold ?_)
    | with_reducible assumption
    | with_reducible exact Keeps.refl _
    | with_reducible apply sendRun_keeps
    | with_reducible apply foldl_keeps
    | with_reducible apply Keeps.ite
    | with_reducible apply Keeps.iteFst
    | with_reducible apply Keeps.iteSnd
    | exact @rfl Nat _
    | exact List.length_set ..
    | intro _ _
    | split
    | dsimp only

end Sys2Proof.Machine
end

