-- ==== Sys2Proof/Laws/KeepsLife.lean ====
section
/-! SUPPORT. What the functions of Machine/Life.lean keep (Laws/Keeps.lean). -/
namespace Sys2Proof.Machine

-- One theorem after another: a thread for each that waits would fill the memory.
set_option Elab.async false

theorem lifeInt_keeps {s0 : State} (b : BitVec 4) (s : State) (hu : Keeps s0 s) :
    Keeps s0 (lifeInt b s) := by
  unfold lifeInt
  (try dsimp only)
  repeat first
    | (simp only [keeps_mk]; with_reducible refine Keeps.fold ?_)
    | with_reducible assumption
    | with_reducible exact Keeps.refl _
    | with_reducible apply foldl_keeps
    | with_reducible apply Keeps.ite
    | with_reducible apply Keeps.iteFst
    | with_reducible apply Keeps.iteSnd
    | exact @rfl Nat _
    | exact List.length_set ..
    | intro _ _
    | intro (_ : Nat)
    | split
    | dsimp only

theorem certUsed_keeps {s0 : State} (debug : Bool) (cert : Bytes) (bad : Option LifeBad) (s : State) (hu : Keeps s0 s) :
    Keeps s0 (certUsed debug cert bad s) := by
  unfold certUsed
  (try dsimp only)
  repeat first
    | (simp only [keeps_mk]; with_reducible refine Keeps.fold ?_)
    | with_reducible assumption
    | with_reducible exact Keeps.refl _
    | with_reducible apply lifeInt_keeps
    | with_reducible apply foldl_keeps
    | with_reducible apply Keeps.ite
    | with_reducible apply Keeps.iteFst
    | with_reducible apply Keeps.iteSnd
    | exact @rfl Nat _
    | exact List.length_set ..
    | intro _ _
    | intro (_ : Nat)
    | split
    | dsimp only

theorem transitionRefused_keeps {s0 : State} (s : State) (target : BitVec 5) (auth : Bytes) (b : LifeBad) (hu : Keeps s0 s) :
    Keeps s0 (transitionRefused s target auth b) := by
  unfold transitionRefused
  (try dsimp only)
  repeat first
    | (simp only [keeps_mk]; with_reducible refine Keeps.fold ?_)
    | with_reducible assumption
    | with_reducible exact Keeps.refl _
    | with_reducible apply lifeInt_keeps
    | with_reducible apply certUsed_keeps
    | with_reducible apply foldl_keeps
    | with_reducible apply Keeps.ite
    | with_reducible apply Keeps.iteFst
    | with_reducible apply Keeps.iteSnd
    | exact @rfl Nat _
    | exact List.length_set ..
    | intro _ _
    | intro (_ : Nat)
    | split
    | dsimp only

theorem consumeLife_keeps {s0 : State} (s : State) (r : LifeRow) (hu : Keeps s0 s) :
    Keeps s0 (consumeLife s r) := by
  unfold consumeLife
  (try dsimp only)
  repeat first
    | (simp only [keeps_mk]; with_reducible refine Keeps.fold ?_)
    | with_reducible assumption
    | with_reducible exact Keeps.refl _
    | with_reducible apply consume_keeps
    | with_reducible apply foldl_keeps
    | with_reducible apply Keeps.ite
    | with_reducible apply Keeps.iteFst
    | with_reducible apply Keeps.iteSnd
    | exact @rfl Nat _
    | exact List.length_set ..
    | intro _ _
    | intro (_ : Nat)
    | split
    | dsimp only

theorem askTransition_keeps {s0 : State} (job : Option JobId) (target : BitVec 5) (auth : Bytes) (s : State) (hu : Keeps s0 s) :
    Keeps s0 (askTransition job target auth s) := by
  unfold askTransition
  (try dsimp only)
  repeat first
    | (simp only [keeps_mk]; with_reducible refine Keeps.fold ?_)
    | with_reducible assumption
    | with_reducible exact Keeps.refl _
    | with_reducible apply consumeLife_keeps
    | with_reducible apply foldl_keeps
    | with_reducible apply Keeps.ite
    | with_reducible apply Keeps.iteFst
    | with_reducible apply Keeps.iteSnd
    | exact @rfl Nat _
    | exact List.length_set ..
    | intro _ _
    | intro (_ : Nat)
    | split
    | dsimp only

theorem askRefused_keeps {s0 : State} (job : Option JobId) (ask : LifeAsk) (b : LifeBad) (s : State) (hu : Keeps s0 s) :
    Keeps s0 (askRefused job ask b s) := by
  unfold askRefused
  (try dsimp only)
  repeat first
    | (simp only [keeps_mk]; with_reducible refine Keeps.fold ?_)
    | with_reducible assumption
    | with_reducible exact Keeps.refl _
    | with_reducible apply foldl_keeps
    | with_reducible apply Keeps.ite
    | with_reducible apply Keeps.iteFst
    | with_reducible apply Keeps.iteSnd
    | exact @rfl Nat _
    | exact List.length_set ..
    | intro _ _
    | intro (_ : Nat)
    | split
    | dsimp only

theorem openJournal_keeps {s0 : State} (target : BitVec 5) (auth : Bytes) (s : State) (hu : Keeps s0 s) :
    Keeps s0 (openJournal target auth s) := by
  unfold openJournal
  (try dsimp only)
  repeat first
    | (simp only [keeps_mk]; with_reducible refine Keeps.fold ?_)
    | with_reducible assumption
    | with_reducible exact Keeps.refl _
    | with_reducible apply judgeJob_keeps
    | with_reducible apply foldl_keeps
    | with_reducible apply Keeps.ite
    | with_reducible apply Keeps.iteFst
    | with_reducible apply Keeps.iteSnd
    | exact @rfl Nat _
    | exact List.length_set ..
    | intro _ _
    | intro (_ : Nat)
    | split
    | dsimp only

theorem wipeAll_own (s : State) : Keeps s (wipeAll s) := by
  unfold wipeAll
  refine Keeps.trans (destroyLine_keeps s (Keeps.refl _)) ?_
  exact ⟨rfl, rfl, rfl, List.prefix_refl _, Burned.refl _, rfl, Nat.le_refl _, Nat.le_refl _, Nat.le_refl _, id, id, id, fun h => ⟨h.1, rfl⟩⟩

theorem wipeAll_keeps {s0 : State} (s : State) (hu : Keeps s0 s) :
    Keeps s0 (wipeAll s) :=
  Keeps.trans hu (wipeAll_own s)

theorem fuseWord_set (ws : List (BitVec 16)) (k j : Nat) (v : BitVec 16) :
    fuseWord (ws.set k v) j = if k = j ∧ j < ws.length then v else fuseWord ws j := by
  unfold fuseWord
  rw [List.getElem?_set]
  by_cases h : k = j
  · subst h
    by_cases g : k < ws.length <;> simp [g]
  · simp [h]

theorem burnTo_own (k : Nat) (v : BitVec 16) (s : State) : Keeps s (burnTo k v s) := by
  refine ⟨rfl, rfl, rfl, List.prefix_refl _, ?_, List.length_set .., Nat.le_refl _, Nat.le_refl _, Nat.le_refl _, id, id, id, id⟩
  intro j i h
  show (fuseWord (s.life.fuses.set k (fuseWord s.life.fuses k ||| v)) j).getLsbD i = true
  have h : (fuseWord s.life.fuses j).getLsbD i = true := h
  rw [fuseWord_set]
  split
  · rename_i e
    rw [e.1, BitVec.getLsbD_or, h, Bool.true_or]
  · exact h

theorem burnTo_keeps {s0 : State} (k : Nat) (v : BitVec 16) (s : State) (hu : Keeps s0 s) :
    Keeps s0 (burnTo k v s) :=
  Keeps.trans hu (burnTo_own k v s)

theorem wipeFor_keeps {s0 : State} (r : LifeRow) (s : State) (hu : Keeps s0 s) :
    Keeps s0 (wipeFor r s) := by
  unfold wipeFor
  (try dsimp only)
  repeat first
    | (simp only [keeps_mk]; with_reducible refine Keeps.fold ?_)
    | with_reducible assumption
    | with_reducible exact Keeps.refl _
    | with_reducible apply wipeAll_keeps
    | with_reducible apply foldl_keeps
    | with_reducible apply Keeps.ite
    | with_reducible apply Keeps.iteFst
    | with_reducible apply Keeps.iteSnd
    | exact @rfl Nat _
    | exact List.length_set ..
    | intro _ _
    | intro (_ : Nat)
    | split
    | dsimp only

theorem lifeEvidence_keeps {s0 : State} (source : BitVec 16) (value : BitVec 16) (outcome : BitVec 8) (s : State) (hu : Keeps s0 s) :
    Keeps s0 (lifeEvidence source value outcome s) := by
  unfold lifeEvidence
  (try dsimp only)
  repeat first
    | (simp only [keeps_mk]; with_reducible refine Keeps.fold ?_)
    | with_reducible assumption
    | with_reducible exact Keeps.refl _
    | with_reducible apply evidence_keeps
    | with_reducible apply foldl_keeps
    | with_reducible apply Keeps.ite
    | with_reducible apply Keeps.iteFst
    | with_reducible apply Keeps.iteSnd
    | exact @rfl Nat _
    | exact List.length_set ..
    | intro _ _
    | intro (_ : Nat)
    | split
    | dsimp only

theorem recordTransition_keeps {s0 : State} (src : BitVec 5) (outcome : BitVec 8) (s : State) (hu : Keeps s0 s) :
    Keeps s0 (recordTransition src outcome s) := by
  unfold recordTransition
  (try dsimp only)
  repeat first
    | (simp only [keeps_mk]; with_reducible refine Keeps.fold ?_)
    | with_reducible assumption
    | with_reducible exact Keeps.refl _
    | with_reducible apply lifeEvidence_keeps
    | with_reducible apply note_keeps
    | with_reducible apply foldl_keeps
    | with_reducible apply Keeps.ite
    | with_reducible apply Keeps.iteFst
    | with_reducible apply Keeps.iteSnd
    | exact @rfl Nat _
    | exact List.length_set ..
    | intro _ _
    | intro (_ : Nat)
    | split
    | dsimp only

theorem doTransition_keeps {s0 : State} (target : BitVec 5) (s : State) (hu : Keeps s0 s) :
    Keeps s0 (doTransition target s) := by
  unfold doTransition
  (try dsimp only)
  repeat first
    | (simp only [keeps_mk]; with_reducible refine Keeps.fold ?_)
    | with_reducible assumption
    | with_reducible exact Keeps.refl _
    | with_reducible apply burnTo_keeps
    | with_reducible apply wipeFor_keeps
    | with_reducible apply recordTransition_keeps
    | with_reducible apply foldl_keeps
    | with_reducible apply Keeps.ite
    | with_reducible apply Keeps.iteFst
    | with_reducible apply Keeps.iteSnd
    | exact @rfl Nat _
    | exact List.length_set ..
    | intro _ _
    | intro (_ : Nat)
    | split
    | dsimp only

theorem burnPart_keeps {s0 : State} (cut : Bool) (r : LifeRow) (s : State) (hu : Keeps s0 s) :
    Keeps s0 (burnPart cut r s) := by
  unfold burnPart
  (try dsimp only)
  repeat first
    | (simp only [keeps_mk]; with_reducible refine Keeps.fold ?_)
    | with_reducible assumption
    | with_reducible exact Keeps.refl _
    | with_reducible apply burnTo_keeps
    | with_reducible apply drawFree_keeps
    | with_reducible apply foldl_keeps
    | with_reducible apply Keeps.ite
    | with_reducible apply Keeps.iteFst
    | with_reducible apply Keeps.iteSnd
    | exact @rfl Nat _
    | exact List.length_set ..
    | intro _ _
    | intro (_ : Nat)
    | split
    | dsimp only

theorem burnFails_keeps {s0 : State} (target : BitVec 5) (s : State) (hu : Keeps s0 s) :
    Keeps s0 (burnFails target s) := by
  unfold burnFails
  (try dsimp only)
  repeat first
    | (simp only [keeps_mk]; with_reducible refine Keeps.fold ?_)
    | with_reducible assumption
    | with_reducible exact Keeps.refl _
    | with_reducible apply burnPart_keeps
    | with_reducible apply wipeFor_keeps
    | with_reducible apply recordTransition_keeps
    | with_reducible apply foldl_keeps
    | with_reducible apply Keeps.ite
    | with_reducible apply Keeps.iteFst
    | with_reducible apply Keeps.iteSnd
    | exact @rfl Nat _
    | exact List.length_set ..
    | intro _ _
    | intro (_ : Nat)
    | split
    | dsimp only

theorem tearWipe_keeps {s0 : State} (s : State) (hu : Keeps s0 s) :
    Keeps s0 (tearWipe s) := by
  unfold tearWipe
  (try dsimp only)
  repeat first
    | (simp only [keeps_mk]; with_reducible refine Keeps.fold ?_)
    | with_reducible assumption
    | with_reducible exact Keeps.refl _
    | with_reducible apply drawFree_keeps
    | with_reducible apply foldl_keeps
    | with_reducible apply Keeps.ite
    | with_reducible apply Keeps.iteFst
    | with_reducible apply Keeps.iteSnd
    | exact @rfl Nat _
    | exact List.length_set ..
    | intro _ _
    | intro (_ : Nat)
    | split
    | dsimp only

theorem cutTransition_keeps {s0 : State} (s : State) (hu : Keeps s0 s) :
    Keeps s0 (cutTransition s) := by
  unfold cutTransition
  (try dsimp only)
  repeat first
    | (simp only [keeps_mk]; with_reducible refine Keeps.fold ?_)
    | with_reducible assumption
    | with_reducible exact Keeps.refl _
    | with_reducible apply tearWipe_keeps
    | with_reducible apply wipeAll_keeps
    | with_reducible apply wipeFor_keeps
    | with_reducible apply burnPart_keeps
    | with_reducible apply drawFree_keeps
    | with_reducible apply foldl_keeps
    | with_reducible apply Keeps.ite
    | with_reducible apply Keeps.iteFst
    | with_reducible apply Keeps.iteSnd
    | exact @rfl Nat _
    | exact List.length_set ..
    | intro _ _
    | intro (_ : Nat)
    | split
    | dsimp only

theorem doGrant_keeps {s0 : State} (sc : BitVec 16) (signer : BitVec 2) (s : State) (hu : Keeps s0 s) :
    Keeps s0 (doGrant sc signer s) := by
  unfold doGrant
  (try dsimp only)
  repeat first
    | (simp only [keeps_mk]; with_reducible refine Keeps.fold ?_)
    | with_reducible assumption
    | with_reducible exact Keeps.refl _
    | with_reducible apply lifeInt_keeps
    | with_reducible apply lifeEvidence_keeps
    | with_reducible apply note_keeps
    | with_reducible apply foldl_keeps
    | with_reducible apply Keeps.ite
    | with_reducible apply Keeps.iteFst
    | with_reducible apply Keeps.iteSnd
    | exact @rfl Nat _
    | exact List.length_set ..
    | intro _ _
    | intro (_ : Nat)
    | split
    | dsimp only

theorem askGrant_keeps {s0 : State} (job : Option JobId) (cert : Bytes) (s : State) (hu : Keeps s0 s) :
    Keeps s0 (askGrant job cert s) := by
  unfold askGrant
  (try dsimp only)
  repeat first
    | (simp only [keeps_mk]; with_reducible refine Keeps.fold ?_)
    | with_reducible assumption
    | with_reducible exact Keeps.refl _
    | with_reducible apply foldl_keeps
    | with_reducible apply Keeps.ite
    | with_reducible apply Keeps.iteFst
    | with_reducible apply Keeps.iteSnd
    | exact @rfl Nat _
    | exact List.length_set ..
    | intro _ _
    | intro (_ : Nat)
    | split
    | dsimp only

theorem newNonce_keeps {s0 : State} (s : State) (hu : Keeps s0 s) :
    Keeps s0 (newNonce s).2 := by
  unfold newNonce
  (try dsimp only)
  repeat first
    | (simp only [keeps_mk]; with_reducible refine Keeps.fold ?_)
    | with_reducible assumption
    | with_reducible exact Keeps.refl _
    | with_reducible apply carafeTake_keeps
    | with_reducible apply foldl_keeps
    | with_reducible apply Keeps.ite
    | with_reducible apply Keeps.iteFst
    | with_reducible apply Keeps.iteSnd
    | exact @rfl Nat _
    | exact List.length_set ..
    | intro _ _
    | intro (_ : Nat)
    | split
    | dsimp only

theorem lcNonceSpec_keeps : ∀ s x, Keeps s ((lcNonceSpec).run s x).state := by
  intro s x
  unfold lcNonceSpec
  (try dsimp only)
  repeat first
    | (simp only [keeps_mk]; with_reducible refine Keeps.fold ?_)
    | with_reducible assumption
    | with_reducible exact Keeps.refl _
    | with_reducible apply newNonce_keeps
    | with_reducible apply foldl_keeps
    | with_reducible apply Keeps.ite
    | with_reducible apply Keeps.iteFst
    | with_reducible apply Keeps.iteSnd
    | exact @rfl Nat _
    | exact List.length_set ..
    | intro _ _
    | intro (_ : Nat)
    | split
    | dsimp only

theorem refuseTransition_keeps {s0 : State} (job : Option JobId) (t : BitVec 5) (auth : Bytes) (b : LifeBad) (s : State) (hu : Keeps s0 s) :
    Keeps s0 (refuseTransition job t auth b s) := by
  unfold refuseTransition
  (try dsimp only)
  repeat first
    | (simp only [keeps_mk]; with_reducible refine Keeps.fold ?_)
    | with_reducible assumption
    | with_reducible exact Keeps.refl _
    | with_reducible apply askRefused_keeps
    | with_reducible apply transitionRefused_keeps
    | with_reducible apply foldl_keeps
    | with_reducible apply Keeps.ite
    | with_reducible apply Keeps.iteFst
    | with_reducible apply Keeps.iteSnd
    | exact @rfl Nat _
    | exact List.length_set ..
    | intro _ _
    | intro (_ : Nat)
    | split
    | dsimp only

theorem lcTransitionRun_keeps {s0 : State} (s : State) (x : Job) (hu : Keeps s0 s) :
    Keeps s0 (lcTransitionRun s x).state := by
  unfold lcTransitionRun
  (try dsimp only)
  repeat first
    | (simp only [keeps_mk]; with_reducible refine Keeps.fold ?_)
    | with_reducible assumption
    | with_reducible exact Keeps.refl _
    | with_reducible apply transitionRefused_keeps
    | with_reducible apply refuseTransition_keeps
    | with_reducible apply askTransition_keeps
    | with_reducible apply foldl_keeps
    | with_reducible apply Keeps.ite
    | with_reducible apply Keeps.iteFst
    | with_reducible apply Keeps.iteSnd
    | exact @rfl Nat _
    | exact List.length_set ..
    | intro _ _
    | intro (_ : Nat)
    | split
    | dsimp only

theorem transitionChecked_keeps {s0 : State} (s : State) (x : Job) (b : Bad) (hu : Keeps s0 s) :
    Keeps s0 (transitionChecked s x b) := by
  unfold transitionChecked
  (try dsimp only)
  repeat first
    | (simp only [keeps_mk]; with_reducible refine Keeps.fold ?_)
    | with_reducible assumption
    | with_reducible exact Keeps.refl _
    | with_reducible apply lifeInt_keeps
    | with_reducible apply transitionRefused_keeps
    | with_reducible apply foldl_keeps
    | with_reducible apply Keeps.ite
    | with_reducible apply Keeps.iteFst
    | with_reducible apply Keeps.iteSnd
    | exact @rfl Nat _
    | exact List.length_set ..
    | intro _ _
    | intro (_ : Nat)
    | split
    | dsimp only

theorem lcTransitionSpec_keeps : ∀ s x, Keeps s ((lcTransitionSpec).run s x).state := by
  intro s x
  unfold lcTransitionSpec
  (try dsimp only)
  repeat first
    | (simp only [keeps_mk]; with_reducible refine Keeps.fold ?_)
    | with_reducible assumption
    | with_reducible exact Keeps.refl _
    | with_reducible apply transitionChecked_keeps
    | with_reducible apply lcTransitionRun_keeps
    | with_reducible apply foldl_keeps
    | with_reducible apply Keeps.ite
    | with_reducible apply Keeps.iteFst
    | with_reducible apply Keeps.iteSnd
    | exact @rfl Nat _
    | exact List.length_set ..
    | intro _ _
    | intro (_ : Nat)
    | split
    | dsimp only

theorem debugGrantRun_keeps {s0 : State} (s : State) (x : Job) (hu : Keeps s0 s) :
    Keeps s0 (debugGrantRun s x).state := by
  unfold debugGrantRun
  (try dsimp only)
  repeat first
    | (simp only [keeps_mk]; with_reducible refine Keeps.fold ?_)
    | with_reducible assumption
    | with_reducible exact Keeps.refl _
    | with_reducible apply certUsed_keeps
    | with_reducible apply askRefused_keeps
    | with_reducible apply askGrant_keeps
    | with_reducible apply foldl_keeps
    | with_reducible apply Keeps.ite
    | with_reducible apply Keeps.iteFst
    | with_reducible apply Keeps.iteSnd
    | exact @rfl Nat _
    | exact List.length_set ..
    | intro _ _
    | intro (_ : Nat)
    | split
    | dsimp only

theorem grantChecked_keeps {s0 : State} (s : State) (x : Job) (b : Bad) (hu : Keeps s0 s) :
    Keeps s0 (grantChecked s x b) := by
  unfold grantChecked
  (try dsimp only)
  repeat first
    | (simp only [keeps_mk]; with_reducible refine Keeps.fold ?_)
    | with_reducible assumption
    | with_reducible exact Keeps.refl _
    | with_reducible apply certUsed_keeps
    | with_reducible apply foldl_keeps
    | with_reducible apply Keeps.ite
    | with_reducible apply Keeps.iteFst
    | with_reducible apply Keeps.iteSnd
    | exact @rfl Nat _
    | exact List.length_set ..
    | intro _ _
    | intro (_ : Nat)
    | split
    | dsimp only

theorem debugGrantSpec_keeps : ∀ s x, Keeps s ((debugGrantSpec).run s x).state := by
  intro s x
  unfold debugGrantSpec
  (try dsimp only)
  repeat first
    | (simp only [keeps_mk]; with_reducible refine Keeps.fold ?_)
    | with_reducible assumption
    | with_reducible exact Keeps.refl _
    | with_reducible apply grantChecked_keeps
    | with_reducible apply debugGrantRun_keeps
    | with_reducible apply foldl_keeps
    | with_reducible apply Keeps.ite
    | with_reducible apply Keeps.iteFst
    | with_reducible apply Keeps.iteSnd
    | exact @rfl Nat _
    | exact List.length_set ..
    | intro _ _
    | intro (_ : Nat)
    | split
    | dsimp only

theorem sendLine_keeps {s0 : State} (t : Bytes) (s : State) (hu : Keeps s0 s) :
    Keeps s0 (sendLine t s) := by
  unfold sendLine
  (try dsimp only)
  repeat first
    | (simp only [keeps_mk]; with_reducible refine Keeps.fold ?_)
    | with_reducible assumption
    | with_reducible exact Keeps.refl _
    | with_reducible apply foldl_keeps
    | with_reducible apply Keeps.ite
    | with_reducible apply Keeps.iteFst
    | with_reducible apply Keeps.iteSnd
    | exact @rfl Nat _
    | exact List.length_set ..
    | intro _ _
    | intro (_ : Nat)
    | split
    | dsimp only

theorem answerEr_keeps {s0 : State} (c : BitVec 8) (s : State) (hu : Keeps s0 s) :
    Keeps s0 (answerEr c s) := by
  unfold answerEr
  (try dsimp only)
  repeat first
    | (simp only [keeps_mk]; with_reducible refine Keeps.fold ?_)
    | with_reducible assumption
    | with_reducible exact Keeps.refl _
    | with_reducible apply sendLine_keeps
    | with_reducible apply foldl_keeps
    | with_reducible apply Keeps.ite
    | with_reducible apply Keeps.iteFst
    | with_reducible apply Keeps.iteSnd
    | exact @rfl Nat _
    | exact List.length_set ..
    | intro _ _
    | intro (_ : Nat)
    | split
    | dsimp only

theorem answerOk_keeps {s0 : State} (fields : List Bytes) (s : State) (hu : Keeps s0 s) :
    Keeps s0 (answerOk fields s) := by
  unfold answerOk
  (try dsimp only)
  repeat first
    | (simp only [keeps_mk]; with_reducible refine Keeps.fold ?_)
    | with_reducible assumption
    | with_reducible exact Keeps.refl _
    | with_reducible apply sendLine_keeps
    | with_reducible apply foldl_keeps
    | with_reducible apply Keeps.ite
    | with_reducible apply Keeps.iteFst
    | with_reducible apply Keeps.iteSnd
    | exact @rfl Nat _
    | exact List.length_set ..
    | intro _ _
    | intro (_ : Nat)
    | split
    | dsimp only

theorem clearLines_keeps {s0 : State} (s : State) (hu : Keeps s0 s) :
    Keeps s0 (clearLines s) := by
  unfold clearLines
  (try dsimp only)
  repeat first
    | (simp only [keeps_mk]; with_reducible refine Keeps.fold ?_)
    | with_reducible assumption
    | with_reducible exact Keeps.refl _
    | with_reducible apply foldl_keeps
    | with_reducible apply Keeps.ite
    | with_reducible apply Keeps.iteFst
    | with_reducible apply Keeps.iteSnd
    | exact @rfl Nat _
    | exact List.length_set ..
    | intro _ _
    | intro (_ : Nat)
    | split
    | dsimp only

theorem dropDecision_keeps {s0 : State} (s : State) (hu : Keeps s0 s) :
    Keeps s0 (dropDecision s) := by
  unfold dropDecision
  (try dsimp only)
  repeat first
    | (simp only [keeps_mk]; with_reducible refine Keeps.fold ?_)
    | with_reducible assumption
    | with_reducible exact Keeps.refl _
    | with_reducible apply foldl_keeps
    | with_reducible apply Keeps.ite
    | with_reducible apply Keeps.iteFst
    | with_reducible apply Keeps.iteSnd
    | exact @rfl Nat _
    | exact List.length_set ..
    | intro _ _
    | intro (_ : Nat)
    | split
    | dsimp only

theorem settleJob_keeps {s0 : State} (j : JobId) (o : JobOut) (s : State) (hu : Keeps s0 s) :
    Keeps s0 (settleJob j o s) := by
  unfold settleJob
  (try dsimp only)
  repeat first
    | (simp only [keeps_mk]; with_reducible refine Keeps.fold ?_)
    | with_reducible assumption
    | with_reducible exact Keeps.refl _
    | with_reducible apply State.setJob_keeps
    | with_reducible apply foldl_keeps
    | with_reducible apply Keeps.ite
    | with_reducible apply Keeps.iteFst
    | with_reducible apply Keeps.iteSnd
    | exact @rfl Nat _
    | exact List.length_set ..
    | intro _ _
    | intro (_ : Nat)
    | split
    | dsimp only

theorem bothRefuse_keeps {s0 : State} (d : LifeDecision) (b : BitVec 16 × BitVec 16 × BitVec 8) (s : State) (hu : Keeps s0 s) :
    Keeps s0 (bothRefuse d b s) := by
  unfold bothRefuse
  (try dsimp only)
  repeat first
    | (simp only [keeps_mk]; with_reducible refine Keeps.fold ?_)
    | with_reducible assumption
    | with_reducible exact Keeps.refl _
    | with_reducible apply lifeEvidence_keeps
    | with_reducible apply dropDecision_keeps
    | with_reducible apply settleJob_keeps
    | with_reducible apply answerEr_keeps
    | with_reducible apply clearLines_keeps
    | with_reducible apply foldl_keeps
    | with_reducible apply Keeps.ite
    | with_reducible apply Keeps.iteFst
    | with_reducible apply Keeps.iteSnd
    | exact @rfl Nat _
    | exact List.length_set ..
    | intro _ _
    | intro (_ : Nat)
    | split
    | dsimp only

theorem lifeAgrees_keeps {s0 : State} (d : LifeDecision) (s : State) (hu : Keeps s0 s) :
    Keeps s0 (lifeAgrees d s) := by
  unfold lifeAgrees
  (try dsimp only)
  repeat first
    | (simp only [keeps_mk]; with_reducible refine Keeps.fold ?_)
    | with_reducible assumption
    | with_reducible exact Keeps.refl _
    | with_reducible apply bothRefuse_keeps
    | with_reducible apply settleJob_keeps
    | with_reducible apply doGrant_keeps
    | with_reducible apply answerOk_keeps
    | with_reducible apply clearLines_keeps
    | with_reducible apply openJournal_keeps
    | with_reducible apply foldl_keeps
    | with_reducible apply Keeps.ite
    | with_reducible apply Keeps.iteFst
    | with_reducible apply Keeps.iteSnd
    | exact @rfl Nat _
    | exact List.length_set ..
    | intro _ _
    | intro (_ : Nat)
    | split
    | dsimp only

theorem monitorBurned_keeps {s0 : State} (same : Bool) (s : State) (hu : Keeps s0 s) :
    Keeps s0 (monitorBurned same s) := by
  unfold monitorBurned
  (try dsimp only)
  repeat first
    | (simp only [keeps_mk]; with_reducible refine Keeps.fold ?_)
    | with_reducible assumption
    | with_reducible exact Keeps.refl _
    | with_reducible apply answerOk_keeps
    | with_reducible apply clearLines_keeps
    | with_reducible apply doTransition_keeps
    | with_reducible apply answerEr_keeps
    | with_reducible apply burnFails_keeps
    | with_reducible apply foldl_keeps
    | with_reducible apply Keeps.ite
    | with_reducible apply Keeps.iteFst
    | with_reducible apply Keeps.iteSnd
    | exact @rfl Nat _
    | exact List.length_set ..
    | intro _ _
    | intro (_ : Nat)
    | split
    | dsimp only

theorem lifeDisagrees_keeps {s0 : State} (d : LifeDecision) (s : State) (hu : Keeps s0 s) :
    Keeps s0 (lifeDisagrees d s) := by
  unfold lifeDisagrees
  (try dsimp only)
  repeat first
    | (simp only [keeps_mk]; with_reducible refine Keeps.fold ?_)
    | with_reducible assumption
    | with_reducible exact Keeps.refl _
    | with_reducible apply raiseDecision_keeps
    | with_reducible apply lifeInt_keeps
    | with_reducible apply dropDecision_keeps
    | with_reducible apply answerEr_keeps
    | with_reducible apply clearLines_keeps
    | with_reducible apply lockJob_keeps
    | with_reducible apply foldl_keeps
    | with_reducible apply Keeps.ite
    | with_reducible apply Keeps.iteFst
    | with_reducible apply Keeps.iteSnd
    | exact @rfl Nat _
    | exact List.length_set ..
    | intro _ _
    | intro (_ : Nat)
    | split
    | dsimp only

theorem verdictDecides_keeps {s0 : State} (agree : Bool) (s : State) (hu : Keeps s0 s) :
    Keeps s0 (verdictDecides agree s) := by
  unfold verdictDecides
  (try dsimp only)
  repeat first
    | (simp only [keeps_mk]; with_reducible refine Keeps.fold ?_)
    | with_reducible assumption
    | with_reducible exact Keeps.refl _
    | with_reducible apply State.setJob_keeps
    | with_reducible apply raiseDecision_keeps
    | with_reducible apply drawFree_keeps
    | with_reducible apply foldl_keeps
    | with_reducible apply Keeps.ite
    | with_reducible apply Keeps.iteFst
    | with_reducible apply Keeps.iteSnd
    | exact @rfl Nat _
    | exact List.length_set ..
    | intro _ _
    | intro (_ : Nat)
    | split
    | dsimp only

theorem secondDecides_keeps {s0 : State} (agree : Bool) (s : State) (hu : Keeps s0 s) :
    Keeps s0 (secondDecides agree s) := by
  unfold secondDecides
  (try dsimp only)
  repeat first
    | (simp only [keeps_mk]; with_reducible refine Keeps.fold ?_)
    | with_reducible assumption
    | with_reducible exact Keeps.refl _
    | with_reducible apply decideAlarm_keeps
    | with_reducible apply lifeAgrees_keeps
    | with_reducible apply lifeDisagrees_keeps
    | with_reducible apply verdictDecides_keeps
    | with_reducible apply foldl_keeps
    | with_reducible apply Keeps.ite
    | with_reducible apply Keeps.iteFst
    | with_reducible apply Keeps.iteSnd
    | exact @rfl Nat _
    | exact List.length_set ..
    | intro _ _
    | intro (_ : Nat)
    | split
    | dsimp only

theorem endTransition_keeps {s0 : State} (j : JobId) (s : State) (hu : Keeps s0 s) :
    Keeps s0 (endTransition j s) := by
  unfold endTransition
  (try dsimp only)
  repeat first
    | (simp only [keeps_mk]; with_reducible refine Keeps.fold ?_)
    | with_reducible assumption
    | with_reducible exact Keeps.refl _
    | with_reducible apply doTransition_keeps
    | with_reducible apply foldl_keeps
    | with_reducible apply Keeps.ite
    | with_reducible apply Keeps.iteFst
    | with_reducible apply Keeps.iteSnd
    | exact @rfl Nat _
    | exact List.length_set ..
    | intro _ _
    | intro (_ : Nat)
    | split
    | dsimp only

theorem selectTdr_keeps {s0 : State} (s : State) (hu : Keeps s0 s) :
    Keeps s0 (selectTdr s) := by
  unfold selectTdr
  (try dsimp only)
  repeat first
    | (simp only [keeps_mk]; with_reducible refine Keeps.fold ?_)
    | with_reducible assumption
    | with_reducible exact Keeps.refl _
    | with_reducible apply drawFree_keeps
    | with_reducible apply foldl_keeps
    | with_reducible apply Keeps.ite
    | with_reducible apply Keeps.iteFst
    | with_reducible apply Keeps.iteSnd
    | exact @rfl Nat _
    | exact List.length_set ..
    | intro _ _
    | intro (_ : Nat)
    | split
    | dsimp only

theorem bscanTakes_own (ir : BitVec 8) (s : State) : Keeps s (bscanTakes ir s) := by
  unfold bscanTakes
  dsimp only
  have hs : ∀ v : BitVec 8, Keeps s (selectTdr { s with dev := { s.dev with tap := v } }) := fun v =>
    selectTdr_keeps _ (by simp only [keeps_mk]; exact Keeps.fold (Keeps.refl s))
  refine Keeps.ite (hs _) ?_
  refine note_keeps _ _ _ _ ?_
  have k : ∀ t : State, Keeps t { t with stream := { t.stream with ports := t.stream.ports.map dropPort } } :=
    fun t => Keeps.ports (s1 := t) rfl rfl (List.length_map ..) (Keeps.refl t)
  refine Keeps.trans ?_ (k _)
  refine foldl_keeps (fun _ _ => judgeJob_keeps _ _ (Keeps.refl _)) ?_
  refine foldl_keeps (fun _ _ => lockJob_keeps _ _ (Keeps.refl _)) ?_
  refine lifeInt_keeps _ _ ?_
  simp only [keeps_mk]; exact Keeps.fold (hs _)

theorem bscanTakes_keeps {s0 : State} (ir : BitVec 8) (s : State) (hu : Keeps s0 s) :
    Keeps s0 (bscanTakes ir s) :=
  Keeps.trans hu (bscanTakes_own ir s)

end Sys2Proof.Machine
end

