-- ==== Sys2Proof/Laws/KeepsHashSig.lean ====
section
/-! SUPPORT. What the functions of Machine/HashSig.lean keep (Laws/Keeps.lean). -/
namespace Sys2Proof.Machine

-- One theorem after another: a thread for each that waits would fill the memory.
set_option Elab.async false

theorem slhdsaKeygenRun_keeps {s0 : State} (s : State) (x : Job) (hu : Keeps s0 s) :
    Keeps s0 (slhdsaKeygenRun s x).state := by
  unfold slhdsaKeygenRun
  (try dsimp only)
  repeat first
    | (simp only [keeps_mk]; with_reducible refine Keeps.fold ?_)
    | with_reducible assumption
    | with_reducible exact Keeps.refl _
    | with_reducible apply ranWith_keeps
    | with_reducible apply draw_keeps
    | with_reducible apply foldl_keeps
    | with_reducible apply Keeps.ite
    | with_reducible apply Keeps.iteFst
    | with_reducible apply Keeps.iteSnd
    | exact @rfl Nat _
    | exact List.length_set ..
    | intro _ _
    | intro (_ : Nat)
    | split
    | dsimp only

theorem slhdsaKeygenSpec_keeps : ∀ s x, Keeps s ((slhdsaKeygenSpec).run s x).state := by
  intro s x
  unfold slhdsaKeygenSpec
  (try dsimp only)
  repeat first
    | (simp only [keeps_mk]; with_reducible refine Keeps.fold ?_)
    | with_reducible assumption
    | with_reducible exact Keeps.refl _
    | with_reducible apply slhdsaKeygenRun_keeps
    | with_reducible apply foldl_keeps
    | with_reducible apply Keeps.ite
    | with_reducible apply Keeps.iteFst
    | with_reducible apply Keeps.iteSnd
    | exact @rfl Nat _
    | exact List.length_set ..
    | intro _ _
    | intro (_ : Nat)
    | split
    | dsimp only

theorem slhdsaSignRun_keeps {s0 : State} (s : State) (x : Job) (hu : Keeps s0 s) :
    Keeps s0 (slhdsaSignRun s x).state := by
  unfold slhdsaSignRun
  (try dsimp only)
  repeat first
    | (simp only [keeps_mk]; with_reducible refine Keeps.fold ?_)
    | with_reducible assumption
    | with_reducible exact Keeps.refl _
    | with_reducible apply ranBad_keeps
    | with_reducible apply ranWith_keeps
    | with_reducible apply signed_keeps
    | with_reducible apply draw_keeps
    | with_reducible apply foldl_keeps
    | with_reducible apply Keeps.ite
    | with_reducible apply Keeps.iteFst
    | with_reducible apply Keeps.iteSnd
    | exact @rfl Nat _
    | exact List.length_set ..
    | intro _ _
    | intro (_ : Nat)
    | split
    | dsimp only

theorem slhdsaSignSpec_keeps : ∀ s x, Keeps s ((slhdsaSignSpec).run s x).state := by
  intro s x
  unfold slhdsaSignSpec
  (try dsimp only)
  repeat first
    | (simp only [keeps_mk]; with_reducible refine Keeps.fold ?_)
    | with_reducible assumption
    | with_reducible exact Keeps.refl _
    | with_reducible apply slhdsaSignRun_keeps
    | with_reducible apply foldl_keeps
    | with_reducible apply Keeps.ite
    | with_reducible apply Keeps.iteFst
    | with_reducible apply Keeps.iteSnd
    | exact @rfl Nat _
    | exact List.length_set ..
    | intro _ _
    | intro (_ : Nat)
    | split
    | dsimp only

theorem slhdsaVerifyRun_keeps {s0 : State} (s : State) (x : Job) (hu : Keeps s0 s) :
    Keeps s0 (slhdsaVerifyRun s x).state := by
  unfold slhdsaVerifyRun
  (try dsimp only)
  repeat first
    | (simp only [keeps_mk]; with_reducible refine Keeps.fold ?_)
    | with_reducible assumption
    | with_reducible exact Keeps.refl _
    | with_reducible apply ranWith_keeps
    | with_reducible apply foldl_keeps
    | with_reducible apply Keeps.ite
    | with_reducible apply Keeps.iteFst
    | with_reducible apply Keeps.iteSnd
    | exact @rfl Nat _
    | exact List.length_set ..
    | intro _ _
    | intro (_ : Nat)
    | split
    | dsimp only

theorem slhdsaVerifySpec_keeps : ∀ s x, Keeps s ((slhdsaVerifySpec).run s x).state := by
  intro s x
  unfold slhdsaVerifySpec
  (try dsimp only)
  repeat first
    | (simp only [keeps_mk]; with_reducible refine Keeps.fold ?_)
    | with_reducible assumption
    | with_reducible exact Keeps.refl _
    | with_reducible apply slhdsaVerifyRun_keeps
    | with_reducible apply foldl_keeps
    | with_reducible apply Keeps.ite
    | with_reducible apply Keeps.iteFst
    | with_reducible apply Keeps.iteSnd
    | exact @rfl Nat _
    | exact List.length_set ..
    | intro _ _
    | intro (_ : Nat)
    | split
    | dsimp only

theorem slhdsaPubkeySpec_keeps : ∀ s x, Keeps s ((slhdsaPubkeySpec).run s x).state := by
  intro s x
  unfold slhdsaPubkeySpec
  (try dsimp only)
  repeat first
    | (simp only [keeps_mk]; with_reducible refine Keeps.fold ?_)
    | with_reducible assumption
    | with_reducible exact Keeps.refl _
    | with_reducible apply pubkeySpec_keeps
    | with_reducible apply foldl_keeps
    | with_reducible apply Keeps.ite
    | with_reducible apply Keeps.iteFst
    | with_reducible apply Keeps.iteSnd
    | exact @rfl Nat _
    | exact List.length_set ..
    | intro _ _
    | intro (_ : Nat)
    | split
    | dsimp only

theorem treeKeygenRun_keeps {s0 : State} (f : TreeSig) (s : State) (x : Job) (hu : Keeps s0 s) :
    Keeps s0 (treeKeygenRun f s x).state := by
  unfold treeKeygenRun
  (try dsimp only)
  repeat first
    | (simp only [keeps_mk]; with_reducible refine Keeps.fold ?_)
    | with_reducible assumption
    | with_reducible exact Keeps.refl _
    | with_reducible apply ranWith_keeps
    | with_reducible apply draw_keeps
    | with_reducible apply foldl_keeps
    | with_reducible apply Keeps.ite
    | with_reducible apply Keeps.iteFst
    | with_reducible apply Keeps.iteSnd
    | exact @rfl Nat _
    | exact List.length_set ..
    | intro _ _
    | intro (_ : Nat)
    | split
    | dsimp only

theorem treeKeygenSpec_keeps (f : TreeSig) : ∀ s x, Keeps s ((treeKeygenSpec f).run s x).state := by
  intro s x
  unfold treeKeygenSpec
  (try dsimp only)
  repeat first
    | (simp only [keeps_mk]; with_reducible refine Keeps.fold ?_)
    | with_reducible assumption
    | with_reducible exact Keeps.refl _
    | with_reducible apply treeKeygenRun_keeps
    | with_reducible apply foldl_keeps
    | with_reducible apply Keeps.ite
    | with_reducible apply Keeps.iteFst
    | with_reducible apply Keeps.iteSnd
    | exact @rfl Nat _
    | exact List.length_set ..
    | intro _ _
    | intro (_ : Nat)
    | split
    | dsimp only

theorem giveIndex_keeps {s0 : State} (h : BitVec 32) (s : State) (hu : Keeps s0 s) :
    Keeps s0 (giveIndex h s) := by
  unfold giveIndex
  (try dsimp only)
  repeat first
    | (simp only [keeps_mk]; with_reducible refine Keeps.fold ?_)
    | with_reducible assumption
    | with_reducible exact Keeps.refl _
    | with_reducible apply setStateful_keeps
    | with_reducible apply noteLow_keeps
    | with_reducible apply foldl_keeps
    | with_reducible apply Keeps.ite
    | with_reducible apply Keeps.iteFst
    | with_reducible apply Keeps.iteSnd
    | exact @rfl Nat _
    | exact List.length_set ..
    | intro _ _
    | intro (_ : Nat)
    | split
    | dsimp only

theorem signRnd_keeps {s0 : State} (f : TreeSig) (s : State) (x : Job) (hu : Keeps s0 s) :
    Keeps s0 (signRnd f s x).2 := by
  unfold signRnd
  (try dsimp only)
  repeat first
    | (simp only [keeps_mk]; with_reducible refine Keeps.fold ?_)
    | with_reducible assumption
    | with_reducible exact Keeps.refl _
    | with_reducible apply draw_keeps
    | with_reducible apply foldl_keeps
    | with_reducible apply Keeps.ite
    | with_reducible apply Keeps.iteFst
    | with_reducible apply Keeps.iteSnd
    | exact @rfl Nat _
    | exact List.length_set ..
    | intro _ _
    | intro (_ : Nat)
    | split
    | dsimp only

theorem treeSignRun_keeps {s0 : State} (f : TreeSig) (s : State) (x : Job) (hu : Keeps s0 s) :
    Keeps s0 (treeSignRun f s x).state := by
  unfold treeSignRun
  (try dsimp only)
  repeat first
    | (simp only [keeps_mk]; with_reducible refine Keeps.fold ?_)
    | with_reducible assumption
    | with_reducible exact Keeps.refl _
    | with_reducible apply ranBad_keeps
    | with_reducible apply State.setJob_keeps
    | with_reducible apply giveIndex_keeps
    | with_reducible apply ranWith_keeps
    | with_reducible apply signed_keeps
    | with_reducible apply signRnd_keeps
    | with_reducible apply foldl_keeps
    | with_reducible apply Keeps.ite
    | with_reducible apply Keeps.iteFst
    | with_reducible apply Keeps.iteSnd
    | exact @rfl Nat _
    | exact List.length_set ..
    | intro _ _
    | intro (_ : Nat)
    | split
    | dsimp only

theorem treeSignSpec_keeps (f : TreeSig) : ∀ s x, Keeps s ((treeSignSpec f).run s x).state := by
  intro s x
  unfold treeSignSpec
  (try dsimp only)
  repeat first
    | (simp only [keeps_mk]; with_reducible refine Keeps.fold ?_)
    | with_reducible assumption
    | with_reducible exact Keeps.refl _
    | with_reducible apply treeSignRun_keeps
    | with_reducible apply foldl_keeps
    | with_reducible apply Keeps.ite
    | with_reducible apply Keeps.iteFst
    | with_reducible apply Keeps.iteSnd
    | exact @rfl Nat _
    | exact List.length_set ..
    | intro _ _
    | intro (_ : Nat)
    | split
    | dsimp only

theorem treeVerifyRun_keeps {s0 : State} (f : TreeSig) (s : State) (x : Job) (hu : Keeps s0 s) :
    Keeps s0 (treeVerifyRun f s x).state := by
  unfold treeVerifyRun
  (try dsimp only)
  repeat first
    | (simp only [keeps_mk]; with_reducible refine Keeps.fold ?_)
    | with_reducible assumption
    | with_reducible exact Keeps.refl _
    | with_reducible apply ranWith_keeps
    | with_reducible apply foldl_keeps
    | with_reducible apply Keeps.ite
    | with_reducible apply Keeps.iteFst
    | with_reducible apply Keeps.iteSnd
    | exact @rfl Nat _
    | exact List.length_set ..
    | intro _ _
    | intro (_ : Nat)
    | split
    | dsimp only

theorem treeVerifySpec_keeps (f : TreeSig) : ∀ s x, Keeps s ((treeVerifySpec f).run s x).state := by
  intro s x
  unfold treeVerifySpec
  (try dsimp only)
  repeat first
    | (simp only [keeps_mk]; with_reducible refine Keeps.fold ?_)
    | with_reducible assumption
    | with_reducible exact Keeps.refl _
    | with_reducible apply treeVerifyRun_keeps
    | with_reducible apply foldl_keeps
    | with_reducible apply Keeps.ite
    | with_reducible apply Keeps.iteFst
    | with_reducible apply Keeps.iteSnd
    | exact @rfl Nat _
    | exact List.length_set ..
    | intro _ _
    | intro (_ : Nat)
    | split
    | dsimp only

theorem treePubkeySpec_keeps (f : TreeSig) : ∀ s x, Keeps s ((treePubkeySpec f).run s x).state := by
  intro s x
  unfold treePubkeySpec
  (try dsimp only)
  repeat first
    | (simp only [keeps_mk]; with_reducible refine Keeps.fold ?_)
    | with_reducible assumption
    | with_reducible exact Keeps.refl _
    | with_reducible apply pubkeyRun_keeps
    | with_reducible apply foldl_keeps
    | with_reducible apply Keeps.ite
    | with_reducible apply Keeps.iteFst
    | with_reducible apply Keeps.iteSnd
    | exact @rfl Nat _
    | exact List.length_set ..
    | intro _ _
    | intro (_ : Nat)
    | split
    | dsimp only

theorem bindRun_keeps {s0 : State} (s : State) (x : Job) (hu : Keeps s0 s) :
    Keeps s0 (bindRun s x).state := by
  unfold bindRun
  (try dsimp only)
  repeat first
    | (simp only [keeps_mk]; with_reducible refine Keeps.fold ?_)
    | with_reducible assumption
    | with_reducible exact Keeps.refl _
    | with_reducible apply ranBad_keeps
    | with_reducible apply ranWith_keeps
    | with_reducible apply foldl_keeps
    | with_reducible apply Keeps.ite
    | with_reducible apply Keeps.iteFst
    | with_reducible apply Keeps.iteSnd
    | exact @rfl Nat _
    | exact List.length_set ..
    | intro _ _
    | intro (_ : Nat)
    | split
    | dsimp only

theorem hsStateBindSpec_keeps : ∀ s x, Keeps s ((hsStateBindSpec).run s x).state := by
  intro s x
  unfold hsStateBindSpec
  (try dsimp only)
  repeat first
    | (simp only [keeps_mk]; with_reducible refine Keeps.fold ?_)
    | with_reducible assumption
    | with_reducible exact Keeps.refl _
    | with_reducible apply bindRun_keeps
    | with_reducible apply foldl_keeps
    | with_reducible apply Keeps.ite
    | with_reducible apply Keeps.iteFst
    | with_reducible apply Keeps.iteSnd
    | exact @rfl Nat _
    | exact List.length_set ..
    | intro _ _
    | intro (_ : Nat)
    | split
    | dsimp only

theorem queryRun_keeps {s0 : State} (s : State) (x : Job) (hu : Keeps s0 s) :
    Keeps s0 (queryRun s x).state := by
  unfold queryRun
  (try dsimp only)
  repeat first
    | (simp only [keeps_mk]; with_reducible refine Keeps.fold ?_)
    | with_reducible assumption
    | with_reducible exact Keeps.refl _
    | with_reducible apply foldl_keeps
    | with_reducible apply Keeps.ite
    | with_reducible apply Keeps.iteFst
    | with_reducible apply Keeps.iteSnd
    | exact @rfl Nat _
    | exact List.length_set ..
    | intro _ _
    | intro (_ : Nat)
    | split
    | dsimp only

theorem hsStateQuerySpec_keeps : ∀ s x, Keeps s ((hsStateQuerySpec).run s x).state := by
  intro s x
  unfold hsStateQuerySpec
  (try dsimp only)
  repeat first
    | (simp only [keeps_mk]; with_reducible refine Keeps.fold ?_)
    | with_reducible assumption
    | with_reducible exact Keeps.refl _
    | with_reducible apply queryRun_keeps
    | with_reducible apply foldl_keeps
    | with_reducible apply Keeps.ite
    | with_reducible apply Keeps.iteFst
    | with_reducible apply Keeps.iteSnd
    | exact @rfl Nat _
    | exact List.length_set ..
    | intro _ _
    | intro (_ : Nat)
    | split
    | dsimp only

theorem blockDone_keeps {s0 : State} (f : TreeSig) (same : Bool) (s : State) (x : Job) (hu : Keeps s0 s) :
    Keeps s0 (blockDone f same s x) := by
  unfold blockDone
  (try dsimp only)
  repeat first
    | (simp only [keeps_mk]; with_reducible refine Keeps.fold ?_)
    | with_reducible assumption
    | with_reducible exact Keeps.refl _
    | with_reducible apply breakWith_keeps
    | with_reducible apply tearBlock_keeps
    | with_reducible apply giveIndex_keeps
    | with_reducible apply reserveBlock_keeps
    | with_reducible apply placeJob_keeps
    | with_reducible apply treeSignSpec_keeps
    | with_reducible apply State.setJob_keeps
    | with_reducible apply foldl_keeps
    | with_reducible apply Keeps.ite
    | with_reducible apply Keeps.iteFst
    | with_reducible apply Keeps.iteSnd
    | exact @rfl Nat _
    | exact List.length_set ..
    | intro _ _
    | intro (_ : Nat)
    | split
    | dsimp only

theorem storedJob_keeps {u : State} (s : State) (x : Job) (o : JobOut) (h : Keeps u s) : Keeps u (nvWriteDone.storedJob s x o) := by
  unfold nvWriteDone.storedJob
  exact State.setJob_keeps _ _ (foldl_keeps (fun _ _ => applyCommit_keeps _ _ (Keeps.refl _))
    (foldl_keeps (fun _ _ => unreserve_keeps _ _ (Keeps.refl _)) h))

theorem nvWriteDone_own (j : JobId) (same : Bool) (s : State) : Keeps s (nvWriteDone j same s) := by
  unfold nvWriteDone
  (try dsimp only)
  repeat first
    | with_reducible exact Keeps.refl _
    | exact Keeps.refl _
    | with_reducible apply storedJob_keeps
    | with_reducible apply State.setJob_keeps
    | with_reducible apply breakJob_keeps
    | with_reducible apply blockDone_keeps
    | with_reducible apply burnFails_keeps
    | with_reducible apply monitorBurned_keeps
    | dsimp only
    | with_reducible apply Keeps.ite
    | split

theorem nvWriteDone_keeps {s0 : State} (j : JobId) (same : Bool) (s : State) (hu : Keeps s0 s) :
    Keeps s0 (nvWriteDone j same s) :=
  Keeps.trans hu (nvWriteDone_own j same s)

end Sys2Proof.Machine
end

