-- ==== Sys2Proof/Laws/KeepsImages.lean ====
section
/-! SUPPORT. What the functions of Machine/Images.lean keep (Laws/Keeps.lean). -/
namespace Sys2Proof.Machine

-- One theorem after another: a thread for each that waits would fill the memory.
set_option Elab.async false

theorem writeBank_keeps {s0 : State} (k : BankKind) (b : Bool) (img : Bytes) (s : State) (hu : Keeps s0 s) :
    Keeps s0 (writeBank k b img s) := by
  unfold writeBank
  (try dsimp only)
  repeat first
    | (simp only [keeps_mk]; with_reducible refine Keeps.fold ?_)
    | with_reducible assumption
    | with_reducible exact Keeps.refl _
    | with_reducible apply State.setBank_keeps
    | with_reducible apply foldl_keeps
    | with_reducible apply Keeps.ite
    | with_reducible apply Keeps.iteFst
    | with_reducible apply Keeps.iteSnd
    | exact @rfl Nat _
    | exact List.length_set ..
    | intro _ _
    | split
    | dsimp only

end Sys2Proof.Machine
end

