-- ==== Sys2Proof/Laws/KeepsKeeper.lean ====
section
/-! SUPPORT. What the functions of Machine/Keeper.lean keep (Laws/Keeps.lean). -/
namespace Sys2Proof.Machine

-- One theorem after another: a thread for each that waits would fill the memory.
set_option Elab.async false

theorem takeCheck_keeps {s0 : State} (auth : Bool) (k : KeeperRun) (t : Nat) (s : State) (hu : Keeps s0 s) :
    Keeps s0 (takeCheck auth k t s) := by
  unfold takeCheck
  (try dsimp only)
  repeat first
    | (simp only [keeps_mk]; with_reducible refine Keeps.fold ?_)
    | with_reducible assumption
    | with_reducible exact Keeps.refl _
    | with_reducible apply setKeeper_keeps
    | with_reducible apply takeUnit_keeps
    | with_reducible apply drawFree_keeps
    | with_reducible apply foldl_keeps
    | with_reducible apply Keeps.ite
    | with_reducible apply Keeps.iteFst
    | with_reducible apply Keeps.iteSnd
    | exact @rfl Nat _
    | exact List.length_set ..
    | intro _ _
    | split
    | dsimp only

theorem tickKeeper_keeps {s0 : State} (s : State) (hu : Keeps s0 s) :
    Keeps s0 (tickKeeper s) := by
  unfold tickKeeper
  (try dsimp only)
  repeat first
    | (simp only [keeps_mk]; with_reducible refine Keeps.fold ?_)
    | with_reducible assumption
    | with_reducible exact Keeps.refl _
    | with_reducible apply takeCheck_keeps
    | with_reducible apply checkDone_keeps
    | with_reducible apply setKeeper_keeps
    | with_reducible apply leaveKeeper_keeps
    | with_reducible apply foldl_keeps
    | with_reducible apply Keeps.ite
    | with_reducible apply Keeps.iteFst
    | with_reducible apply Keeps.iteSnd
    | exact @rfl Nat _
    | exact List.length_set ..
    | intro _ _
    | split
    | dsimp only

end Sys2Proof.Machine
end

