-- ==== Sys2Proof/Laws/KeepsLinkNet.lean ====
section
/-! SUPPORT. What the functions of Machine/LinkNet.lean keep (Laws/Keeps.lean). -/
namespace Sys2Proof.Machine

-- One theorem after another: a thread for each that waits would fill the memory.
set_option Elab.async false

theorem identitySign_keeps {s0 : State} (m : Bytes) (s : State) (hu : Keeps s0 s) :
    Keeps s0 (identitySign m s).2 := by
  unfold identitySign
  (try dsimp only)
  repeat first
    | (simp only [keeps_mk]; with_reducible refine Keeps.fold ?_)
    | with_reducible assumption
    | with_reducible exact Keeps.refl _
    | with_reducible apply signed_keeps
    | with_reducible apply draw_keeps
    | with_reducible apply foldl_keeps
    | with_reducible apply Keeps.ite
    | with_reducible apply Keeps.iteFst
    | with_reducible apply Keeps.iteSnd
    | exact @rfl Nat _
    | exact List.length_set ..
    | intro _ _
    | intro (_ : Nat)
    | split
    | dsimp only

theorem sendStep_keeps {s0 : State} (k : BitVec 2) (m : HandshakeMsg) (s : State) (hu : Keeps s0 s) :
    Keeps s0 (sendStep k m s) := by
  unfold sendStep
  (try dsimp only)
  repeat first
    | (simp only [keeps_mk]; with_reducible refine Keeps.fold ?_)
    | with_reducible assumption
    | with_reducible exact Keeps.refl _
    | with_reducible apply State.setLink_keeps
    | with_reducible apply foldl_keeps
    | with_reducible apply Keeps.ite
    | with_reducible apply Keeps.iteFst
    | with_reducible apply Keeps.iteSnd
    | exact @rfl Nat _
    | exact List.length_set ..
    | intro _ _
    | intro (_ : Nat)
    | split
    | dsimp only

theorem sendStep1_keeps {s0 : State} (k : BitVec 2) (s : State) (hu : Keeps s0 s) :
    Keeps s0 (sendStep1 k s) := by
  unfold sendStep1
  (try dsimp only)
  repeat first
    | (simp only [keeps_mk]; with_reducible refine Keeps.fold ?_)
    | with_reducible assumption
    | with_reducible exact Keeps.refl _
    | with_reducible apply sendStep_keeps
    | with_reducible apply State.setLink_keeps
    | with_reducible apply draw_keeps
    | with_reducible apply foldl_keeps
    | with_reducible apply Keeps.ite
    | with_reducible apply Keeps.iteFst
    | with_reducible apply Keeps.iteSnd
    | exact @rfl Nat _
    | exact List.length_set ..
    | intro _ _
    | intro (_ : Nat)
    | split
    | dsimp only

theorem refuseLink_keeps {s0 : State} (k : BitVec 2) (detail : BitVec 16) (peerId : BitVec 2) (uid : BitVec 64) (s : State) (hu : Keeps s0 s) :
    Keeps s0 (refuseLink k detail peerId uid s) := by
  unfold refuseLink
  (try dsimp only)
  repeat first
    | (simp only [keeps_mk]; with_reducible refine Keeps.fold ?_)
    | with_reducible assumption
    | with_reducible exact Keeps.refl _
    | with_reducible apply dropLink_keeps
    | with_reducible apply State.setLink_keeps
    | with_reducible apply note_keeps
    | with_reducible apply linkInt_keeps
    | with_reducible apply foldl_keeps
    | with_reducible apply Keeps.ite
    | with_reducible apply Keeps.iteFst
    | with_reducible apply Keeps.iteSnd
    | exact @rfl Nat _
    | exact List.length_set ..
    | intro _ _
    | intro (_ : Nat)
    | split
    | dsimp only

theorem refreshStandbys_keeps {s0 : State} (part : BitVec 2) (s : State) (hu : Keeps s0 s) :
    Keeps s0 (refreshStandbys part s) := by
  unfold refreshStandbys
  (try dsimp only)
  repeat first
    | (simp only [keeps_mk]; with_reducible refine Keeps.fold ?_)
    | with_reducible assumption
    | with_reducible exact Keeps.refl _
    | with_reducible apply mirrorEntries_keeps
    | with_reducible apply foldl_keeps
    | with_reducible apply Keeps.ite
    | with_reducible apply Keeps.iteFst
    | with_reducible apply Keeps.iteSnd
    | exact @rfl Nat _
    | exact List.length_set ..
    | intro _ _
    | intro (_ : Nat)
    | split
    | dsimp only

theorem standDown_keeps {s0 : State} (part : BitVec 2) (homes : List (BitVec 14)) (s : State) (hu : Keeps s0 s) :
    Keeps s0 (standDown part homes s) := by
  unfold standDown
  (try dsimp only)
  repeat first
    | (simp only [keeps_mk]; with_reducible refine Keeps.fold ?_)
    | with_reducible assumption
    | with_reducible exact Keeps.refl _
    | with_reducible apply mapFlows_keeps
    | with_reducible apply foldl_keeps
    | with_reducible apply Keeps.ite
    | with_reducible apply Keeps.iteFst
    | with_reducible apply Keeps.iteSnd
    | exact @rfl Nat _
    | exact List.length_set ..
    | intro _ _
    | intro (_ : Nat)
    | split
    | dsimp only

theorem linkReady_keeps {s0 : State} (k : BitVec 2) (s : State) (hu : Keeps s0 s) :
    Keeps s0 (linkReady k s) := by
  unfold linkReady
  (try dsimp only)
  repeat first
    | (simp only [keeps_mk]; with_reducible refine Keeps.fold ?_)
    | with_reducible assumption
    | with_reducible exact Keeps.refl _
    | with_reducible apply State.setLink_keeps
    | with_reducible apply refreshStandbys_keeps
    | with_reducible apply standDown_keeps
    | with_reducible apply linkInt_keeps
    | with_reducible apply foldl_keeps
    | with_reducible apply Keeps.ite
    | with_reducible apply Keeps.iteFst
    | with_reducible apply Keeps.iteSnd
    | exact @rfl Nat _
    | exact List.length_set ..
    | intro _ _
    | intro (_ : Nat)
    | split
    | dsimp only

theorem takeStep1_keeps {s0 : State} (k : BitVec 2) (l : Link) (m : HandshakeMsg) (s : State) (hu : Keeps s0 s) :
    Keeps s0 (takeStep1 k l m s) := by
  unfold takeStep1
  (try dsimp only)
  repeat first
    | (simp only [keeps_mk]; with_reducible refine Keeps.fold ?_)
    | with_reducible assumption
    | with_reducible exact Keeps.refl _
    | with_reducible apply refuseLink_keeps
    | with_reducible apply sendStep_keeps
    | with_reducible apply State.setLink_keeps
    | with_reducible apply draw_keeps
    | with_reducible apply identitySign_keeps
    | with_reducible apply foldl_keeps
    | with_reducible apply Keeps.ite
    | with_reducible apply Keeps.iteFst
    | with_reducible apply Keeps.iteSnd
    | exact @rfl Nat _
    | exact List.length_set ..
    | intro _ _
    | intro (_ : Nat)
    | split
    | dsimp only

theorem takeStep2_keeps {s0 : State} (k : BitVec 2) (l : Link) (m : HandshakeMsg) (s : State) (hu : Keeps s0 s) :
    Keeps s0 (takeStep2 k l m s) := by
  unfold takeStep2
  (try dsimp only)
  repeat first
    | (simp only [keeps_mk]; with_reducible refine Keeps.fold ?_)
    | with_reducible assumption
    | with_reducible exact Keeps.refl _
    | with_reducible apply refuseLink_keeps
    | with_reducible apply linkReady_keeps
    | with_reducible apply sendStep_keeps
    | with_reducible apply State.setLink_keeps
    | with_reducible apply identitySign_keeps
    | with_reducible apply foldl_keeps
    | with_reducible apply Keeps.ite
    | with_reducible apply Keeps.iteFst
    | with_reducible apply Keeps.iteSnd
    | exact @rfl Nat _
    | exact List.length_set ..
    | intro _ _
    | intro (_ : Nat)
    | split
    | dsimp only

theorem takeStep3_keeps {s0 : State} (k : BitVec 2) (l : Link) (m : HandshakeMsg) (s : State) (hu : Keeps s0 s) :
    Keeps s0 (takeStep3 k l m s) := by
  unfold takeStep3
  (try dsimp only)
  repeat first
    | (simp only [keeps_mk]; with_reducible refine Keeps.fold ?_)
    | with_reducible assumption
    | with_reducible exact Keeps.refl _
    | with_reducible apply refuseLink_keeps
    | with_reducible apply linkReady_keeps
    | with_reducible apply State.setLink_keeps
    | with_reducible apply foldl_keeps
    | with_reducible apply Keeps.ite
    | with_reducible apply Keeps.iteFst
    | with_reducible apply Keeps.iteSnd
    | exact @rfl Nat _
    | exact List.length_set ..
    | intro _ _
    | intro (_ : Nat)
    | split
    | dsimp only

theorem countRx_keeps {s0 : State} (k : BitVec 2) (s : State) (hu : Keeps s0 s) :
    Keeps s0 (countRx k s) := by
  unfold countRx
  (try dsimp only)
  repeat first
    | (simp only [keeps_mk]; with_reducible refine Keeps.fold ?_)
    | with_reducible assumption
    | with_reducible exact Keeps.refl _
    | with_reducible apply State.setLink_keeps
    | with_reducible apply foldl_keeps
    | with_reducible apply Keeps.ite
    | with_reducible apply Keeps.iteFst
    | with_reducible apply Keeps.iteSnd
    | exact @rfl Nat _
    | exact List.length_set ..
    | intro _ _
    | intro (_ : Nat)
    | split
    | dsimp only

theorem strayMessage_keeps {s0 : State} (k : BitVec 2) (m : HandshakeMsg) (s : State) (hu : Keeps s0 s) :
    Keeps s0 (strayMessage k m s) := by
  unfold strayMessage
  (try dsimp only)
  repeat first
    | (simp only [keeps_mk]; with_reducible refine Keeps.fold ?_)
    | with_reducible assumption
    | with_reducible exact Keeps.refl _
    | with_reducible apply refuseLink_keeps
    | with_reducible apply foldl_keeps
    | with_reducible apply Keeps.ite
    | with_reducible apply Keeps.iteFst
    | with_reducible apply Keeps.iteSnd
    | exact @rfl Nat _
    | exact List.length_set ..
    | intro _ _
    | intro (_ : Nat)
    | split
    | dsimp only

theorem handshakeMessage_keeps {s0 : State} (k : BitVec 2) (m : HandshakeMsg) (s : State) (hu : Keeps s0 s) :
    Keeps s0 (handshakeMessage k m s) := by
  unfold handshakeMessage
  (try dsimp only)
  repeat first
    | (simp only [keeps_mk]; with_reducible refine Keeps.fold ?_)
    | with_reducible assumption
    | with_reducible exact Keeps.refl _
    | with_reducible apply countRx_keeps
    | with_reducible apply takeStep2_keeps
    | with_reducible apply strayMessage_keeps
    | with_reducible apply takeStep1_keeps
    | with_reducible apply takeStep3_keeps
    | with_reducible apply foldl_keeps
    | with_reducible apply Keeps.ite
    | with_reducible apply Keeps.iteFst
    | with_reducible apply Keeps.iteSnd
    | exact @rfl Nat _
    | exact List.length_set ..
    | intro _ _
    | intro (_ : Nat)
    | split
    | dsimp only

theorem handshakeTimeout_keeps {s0 : State} (k : BitVec 2) (s : State) (hu : Keeps s0 s) :
    Keeps s0 (handshakeTimeout k s) := by
  unfold handshakeTimeout
  (try dsimp only)
  repeat first
    | (simp only [keeps_mk]; with_reducible refine Keeps.fold ?_)
    | with_reducible assumption
    | with_reducible exact Keeps.refl _
    | with_reducible apply refuseLink_keeps
    | with_reducible apply foldl_keeps
    | with_reducible apply Keeps.ite
    | with_reducible apply Keeps.iteFst
    | with_reducible apply Keeps.iteSnd
    | exact @rfl Nat _
    | exact List.length_set ..
    | intro _ _
    | intro (_ : Nat)
    | split
    | dsimp only

theorem sessionRekey_keeps {s0 : State} (k : BitVec 2) (s : State) (hu : Keeps s0 s) :
    Keeps s0 (sessionRekey k s) := by
  unfold sessionRekey
  (try dsimp only)
  repeat first
    | (simp only [keeps_mk]; with_reducible refine Keeps.fold ?_)
    | with_reducible assumption
    | with_reducible exact Keeps.refl _
    | with_reducible apply State.setLink_keeps
    | with_reducible apply sendStep1_keeps
    | with_reducible apply foldl_keeps
    | with_reducible apply Keeps.ite
    | with_reducible apply Keeps.iteFst
    | with_reducible apply Keeps.iteSnd
    | exact @rfl Nat _
    | exact List.length_set ..
    | intro _ _
    | intro (_ : Nat)
    | split
    | dsimp only

theorem linkTrainAttempt_keeps {s0 : State} (k : BitVec 2) (s : State) (hu : Keeps s0 s) :
    Keeps s0 (linkTrainAttempt k s) := by
  unfold linkTrainAttempt
  (try dsimp only)
  repeat first
    | (simp only [keeps_mk]; with_reducible refine Keeps.fold ?_)
    | with_reducible assumption
    | with_reducible exact Keeps.refl _
    | with_reducible apply State.setLink_keeps
    | with_reducible apply foldl_keeps
    | with_reducible apply Keeps.ite
    | with_reducible apply Keeps.iteFst
    | with_reducible apply Keeps.iteSnd
    | exact @rfl Nat _
    | exact List.length_set ..
    | intro _ _
    | intro (_ : Nat)
    | split
    | dsimp only

theorem linkTrainingComplete_keeps {s0 : State} (k : BitVec 2) (lanes : BitVec 3) (s : State) (hu : Keeps s0 s) :
    Keeps s0 (linkTrainingComplete k lanes s) := by
  unfold linkTrainingComplete
  (try dsimp only)
  repeat first
    | (simp only [keeps_mk]; with_reducible refine Keeps.fold ?_)
    | with_reducible assumption
    | with_reducible exact Keeps.refl _
    | with_reducible apply State.setLink_keeps
    | with_reducible apply sendStep1_keeps
    | with_reducible apply foldl_keeps
    | with_reducible apply Keeps.ite
    | with_reducible apply Keeps.iteFst
    | with_reducible apply Keeps.iteSnd
    | exact @rfl Nat _
    | exact List.length_set ..
    | intro _ _
    | intro (_ : Nat)
    | split
    | dsimp only

theorem retrain_keeps {s0 : State} (k : BitVec 2) (s : State) (hu : Keeps s0 s) :
    Keeps s0 (retrain k s) := by
  unfold retrain
  (try dsimp only)
  repeat first
    | (simp only [keeps_mk]; with_reducible refine Keeps.fold ?_)
    | with_reducible assumption
    | with_reducible exact Keeps.refl _
    | with_reducible apply dropLink_keeps
    | with_reducible apply foldl_keeps
    | with_reducible apply Keeps.ite
    | with_reducible apply Keeps.iteFst
    | with_reducible apply Keeps.iteSnd
    | exact @rfl Nat _
    | exact List.length_set ..
    | intro _ _
    | intro (_ : Nat)
    | split
    | dsimp only

theorem readmit_keeps {s0 : State} (s : State) (k : BitVec 2) (hu : Keeps s0 s) :
    Keeps s0 (readmit s k) := by
  unfold readmit
  (try dsimp only)
  repeat first
    | (simp only [keeps_mk]; with_reducible refine Keeps.fold ?_)
    | with_reducible assumption
    | with_reducible exact Keeps.refl _
    | with_reducible apply dropLink_keeps
    | with_reducible apply State.setLink_keeps
    | with_reducible apply foldl_keeps
    | with_reducible apply Keeps.ite
    | with_reducible apply Keeps.iteFst
    | with_reducible apply Keeps.iteSnd
    | exact @rfl Nat _
    | exact List.length_set ..
    | intro _ _
    | intro (_ : Nat)
    | split
    | dsimp only

theorem linkCommit_keeps {s0 : State} (s : State) (hu : Keeps s0 s) :
    Keeps s0 (linkCommit s) := by
  unfold linkCommit
  (try dsimp only)
  repeat first
    | (simp only [keeps_mk]; with_reducible refine Keeps.fold ?_)
    | with_reducible assumption
    | with_reducible exact Keeps.refl _
    | with_reducible apply linkInt_keeps
    | with_reducible apply readmit_keeps
    | with_reducible apply foldl_keeps
    | with_reducible apply Keeps.ite
    | with_reducible apply Keeps.iteFst
    | with_reducible apply Keeps.iteSnd
    | exact @rfl Nat _
    | exact List.length_set ..
    | intro _ _
    | intro (_ : Nat)
    | split
    | dsimp only

theorem heartbeatSend_keeps {s0 : State} (k : BitVec 2) (s : State) (hu : Keeps s0 s) :
    Keeps s0 (heartbeatSend k s) := by
  unfold heartbeatSend
  (try dsimp only)
  repeat first
    | (simp only [keeps_mk]; with_reducible refine Keeps.fold ?_)
    | with_reducible assumption
    | with_reducible exact Keeps.refl _
    | with_reducible apply sendLink_keeps
    | with_reducible apply foldl_keeps
    | with_reducible apply Keeps.ite
    | with_reducible apply Keeps.iteFst
    | with_reducible apply Keeps.iteSnd
    | exact @rfl Nat _
    | exact List.length_set ..
    | intro _ _
    | intro (_ : Nat)
    | split
    | dsimp only

theorem heartbeatReceive_keeps {s0 : State} (k : BitVec 2) (m : LinkMsg) (tagOk : Bool) (s : State) (hu : Keeps s0 s) :
    Keeps s0 (heartbeatReceive k m tagOk s) := by
  unfold heartbeatReceive
  (try dsimp only)
  repeat first
    | (simp only [keeps_mk]; with_reducible refine Keeps.fold ?_)
    | with_reducible assumption
    | with_reducible exact Keeps.refl _
    | with_reducible apply countRx_keeps
    | with_reducible apply dropLink_keeps
    | with_reducible apply State.setLink_keeps
    | with_reducible apply foldl_keeps
    | with_reducible apply Keeps.ite
    | with_reducible apply Keeps.iteFst
    | with_reducible apply Keeps.iteSnd
    | exact @rfl Nat _
    | exact List.length_set ..
    | intro _ _
    | intro (_ : Nat)
    | split
    | dsimp only

theorem peerLost_keeps {s0 : State} (k : BitVec 2) (s : State) (hu : Keeps s0 s) :
    Keeps s0 (peerLost k s) := by
  unfold peerLost
  (try dsimp only)
  repeat first
    | (simp only [keeps_mk]; with_reducible refine Keeps.fold ?_)
    | with_reducible assumption
    | with_reducible exact Keeps.refl _
    | with_reducible apply dropLink_keeps
    | with_reducible apply foldl_keeps
    | with_reducible apply Keeps.ite
    | with_reducible apply Keeps.iteFst
    | with_reducible apply Keeps.iteSnd
    | exact @rfl Nat _
    | exact List.length_set ..
    | intro _ _
    | intro (_ : Nat)
    | split
    | dsimp only

theorem loadAdvertise_keeps {s0 : State} (s : State) (hu : Keeps s0 s) :
    Keeps s0 (loadAdvertise s) := by
  unfold loadAdvertise
  (try dsimp only)
  repeat first
    | (simp only [keeps_mk]; with_reducible refine Keeps.fold ?_)
    | with_reducible assumption
    | with_reducible exact Keeps.refl _
    | with_reducible apply sendLink_keeps
    | with_reducible apply foldl_keeps
    | with_reducible apply Keeps.ite
    | with_reducible apply Keeps.iteFst
    | with_reducible apply Keeps.iteSnd
    | exact @rfl Nat _
    | exact List.length_set ..
    | intro _ _
    | intro (_ : Nat)
    | split
    | dsimp only

theorem takeJob_keeps {s0 : State} (x : Job) (s : State) (hu : Keeps s0 s) :
    Keeps s0 (takeJob x s) := by
  unfold takeJob
  (try dsimp only)
  repeat first
    | (simp only [keeps_mk]; with_reducible refine Keeps.fold ?_)
    | with_reducible assumption
    | with_reducible exact Keeps.refl _
    | with_reducible apply foldl_keeps
    | with_reducible apply Keeps.ite
    | with_reducible apply Keeps.iteFst
    | with_reducible apply Keeps.iteSnd
    | exact @rfl Nat _
    | exact List.length_set ..
    | intro _ _
    | intro (_ : Nat)
    | split
    | dsimp only

theorem jobForwardReceive_keeps {s0 : State} (k : BitVec 2) (n : BitVec 32) (p : BitVec 8) (d : Desc) (input : Bytes) (aux : Bytes) (s : State) (hu : Keeps s0 s) :
    Keeps s0 (jobForwardReceive k n p d input aux s) := by
  unfold jobForwardReceive
  (try dsimp only)
  repeat first
    | (simp only [keeps_mk]; with_reducible refine Keeps.fold ?_)
    | with_reducible assumption
    | with_reducible exact Keeps.refl _
    | with_reducible apply takeJob_keeps
    | with_reducible apply countRx_keeps
    | with_reducible apply foldl_keeps
    | with_reducible apply Keeps.ite
    | with_reducible apply Keeps.iteFst
    | with_reducible apply Keeps.iteSnd
    | exact @rfl Nat _
    | exact List.length_set ..
    | intro _ _
    | intro (_ : Nat)
    | split
    | dsimp only

theorem returnLost_keeps {s0 : State} (x : Job) (s : State) (hu : Keeps s0 s) :
    Keeps s0 (returnLost x s) := by
  unfold returnLost
  (try dsimp only)
  repeat first
    | (simp only [keeps_mk]; with_reducible refine Keeps.fold ?_)
    | with_reducible assumption
    | with_reducible exact Keeps.refl _
    | with_reducible apply answerPeer_keeps
    | with_reducible apply foldl_keeps
    | with_reducible apply Keeps.ite
    | with_reducible apply Keeps.iteFst
    | with_reducible apply Keeps.iteSnd
    | exact @rfl Nat _
    | exact List.length_set ..
    | intro _ _
    | intro (_ : Nat)
    | split
    | dsimp only

theorem spillReceive_keeps {s0 : State} (k : BitVec 2) (n : BitVec 32) (p : BitVec 8) (d : Desc) (input : Bytes) (aux : Bytes) (key : Bytes) (s : State) (hu : Keeps s0 s) :
    Keeps s0 (spillReceive k n p d input aux key s) := by
  unfold spillReceive
  (try dsimp only)
  repeat first
    | (simp only [keeps_mk]; with_reducible refine Keeps.fold ?_)
    | with_reducible assumption
    | with_reducible exact Keeps.refl _
    | with_reducible apply countRx_keeps
    | with_reducible apply returnLost_keeps
    | with_reducible apply takeJob_keeps
    | with_reducible apply foldl_keeps
    | with_reducible apply Keeps.ite
    | with_reducible apply Keeps.iteFst
    | with_reducible apply Keeps.iteSnd
    | exact @rfl Nat _
    | exact List.length_set ..
    | intro _ _
    | intro (_ : Nat)
    | split
    | dsimp only

theorem allocElsewhere_keeps {s0 : State} (x : Job) (k : BitVec 2) (s : State) (hu : Keeps s0 s) :
    Keeps s0 (allocElsewhere x k s) := by
  unfold allocElsewhere
  (try dsimp only)
  repeat first
    | (simp only [keeps_mk]; with_reducible refine Keeps.fold ?_)
    | with_reducible assumption
    | with_reducible exact Keeps.refl _
    | with_reducible apply forwardJob_keeps
    | with_reducible apply State.setJob_keeps
    | with_reducible apply foldl_keeps
    | with_reducible apply Keeps.ite
    | with_reducible apply Keeps.iteFst
    | with_reducible apply Keeps.iteSnd
    | exact @rfl Nat _
    | exact List.length_set ..
    | intro _ _
    | intro (_ : Nat)
    | split
    | dsimp only

theorem jobForwardResult_keeps {s0 : State} (j : JobId) (r : PeerResult) (s : State) (hu : Keeps s0 s) :
    Keeps s0 (jobForwardResult j r s) := by
  unfold jobForwardResult
  (try dsimp only)
  repeat first
    | (simp only [keeps_mk]; with_reducible refine Keeps.fold ?_)
    | with_reducible assumption
    | with_reducible exact Keeps.refl _
    | with_reducible apply countRx_keeps
    | with_reducible apply allocElsewhere_keeps
    | with_reducible apply State.setJob_keeps
    | with_reducible apply foldl_keeps
    | with_reducible apply Keeps.ite
    | with_reducible apply Keeps.iteFst
    | with_reducible apply Keeps.iteSnd
    | exact @rfl Nat _
    | exact List.length_set ..
    | intro _ _
    | intro (_ : Nat)
    | split
    | dsimp only

theorem spillResult_keeps {s0 : State} (j : JobId) (r : PeerResult) (s : State) (hu : Keeps s0 s) :
    Keeps s0 (spillResult j r s) := by
  unfold spillResult
  (try dsimp only)
  repeat first
    | (simp only [keeps_mk]; with_reducible refine Keeps.fold ?_)
    | with_reducible assumption
    | with_reducible exact Keeps.refl _
    | with_reducible apply countRx_keeps
    | with_reducible apply lostAt_keeps
    | with_reducible apply State.setJob_keeps
    | with_reducible apply foldl_keeps
    | with_reducible apply Keeps.ite
    | with_reducible apply Keeps.iteFst
    | with_reducible apply Keeps.iteSnd
    | exact @rfl Nat _
    | exact List.length_set ..
    | intro _ _
    | intro (_ : Nat)
    | split
    | dsimp only

theorem standbyAsked_keeps {s0 : State} (part : BitVec 2) (home : BitVec 14) (p : BitVec 8) (s : State) (hu : Keeps s0 s) :
    Keeps s0 (standbyAsked part home p s) := by
  unfold standbyAsked
  (try dsimp only)
  repeat first
    | (simp only [keeps_mk]; with_reducible refine Keeps.fold ?_)
    | with_reducible assumption
    | with_reducible exact Keeps.refl _
    | with_reducible apply changeFlow_keeps
    | with_reducible apply sendFlow_keeps
    | with_reducible apply flowMsg_keeps
    | with_reducible apply foldl_keeps
    | with_reducible apply Keeps.ite
    | with_reducible apply Keeps.iteFst
    | with_reducible apply Keeps.iteSnd
    | exact @rfl Nat _
    | exact List.length_set ..
    | intro _ _
    | intro (_ : Nat)
    | split
    | dsimp only

theorem standbyGiven_keeps {s0 : State} (part : BitVec 2) (home : BitVec 14) (image : Bytes) (a : Bytes) (b : Bytes) (s : State) (hu : Keeps s0 s) :
    Keeps s0 (standbyGiven part home image a b s) := by
  unfold standbyGiven
  (try dsimp only)
  repeat first
    | (simp only [keeps_mk]; with_reducible refine Keeps.fold ?_)
    | with_reducible assumption
    | with_reducible exact Keeps.refl _
    | with_reducible apply flowMsg_keeps
    | with_reducible apply refuseJob_keeps
    | with_reducible apply State.setJob_keeps
    | with_reducible apply State.setCtx_keeps
    | with_reducible apply foldl_keeps
    | with_reducible apply Keeps.ite
    | with_reducible apply Keeps.iteFst
    | with_reducible apply Keeps.iteSnd
    | exact @rfl Nat _
    | exact List.length_set ..
    | intro _ _
    | intro (_ : Nat)
    | split
    | dsimp only

theorem standbyDenied_keeps {s0 : State} (part : BitVec 2) (home : BitVec 14) (s : State) (hu : Keeps s0 s) :
    Keeps s0 (standbyDenied part home s) := by
  unfold standbyDenied
  (try dsimp only)
  repeat first
    | (simp only [keeps_mk]; with_reducible refine Keeps.fold ?_)
    | with_reducible assumption
    | with_reducible exact Keeps.refl _
    | with_reducible apply refuseJob_keeps
    | with_reducible apply foldl_keeps
    | with_reducible apply Keeps.ite
    | with_reducible apply Keeps.iteFst
    | with_reducible apply Keeps.iteSnd
    | exact @rfl Nat _
    | exact List.length_set ..
    | intro _ _
    | intro (_ : Nat)
    | split
    | dsimp only

theorem standbyRefreshed_keeps {s0 : State} (i : BitVec 14) (image : Bytes) (a : Bytes) (b : Bytes) (s : State) (hu : Keeps s0 s) :
    Keeps s0 (standbyRefreshed i image a b s) := by
  unfold standbyRefreshed
  (try dsimp only)
  repeat first
    | (simp only [keeps_mk]; with_reducible refine Keeps.fold ?_)
    | with_reducible assumption
    | with_reducible exact Keeps.refl _
    | with_reducible apply changeFlow_keeps
    | with_reducible apply foldl_keeps
    | with_reducible apply Keeps.ite
    | with_reducible apply Keeps.iteFst
    | with_reducible apply Keeps.iteSnd
    | exact @rfl Nat _
    | exact List.length_set ..
    | intro _ _
    | intro (_ : Nat)
    | split
    | dsimp only

theorem flowMirror_keeps {s0 : State} (k : BitVec 2) (m : FlowMsg) (s : State) (hu : Keeps s0 s) :
    Keeps s0 (flowMirror k m s) := by
  unfold flowMirror
  (try dsimp only)
  repeat first
    | (simp only [keeps_mk]; with_reducible refine Keeps.fold ?_)
    | with_reducible assumption
    | with_reducible exact Keeps.refl _
    | with_reducible apply standbyAsked_keeps
    | with_reducible apply standbyGiven_keeps
    | with_reducible apply standbyDenied_keeps
    | with_reducible apply flowMsg_keeps
    | with_reducible apply changeFlow_keeps
    | with_reducible apply standbyRefreshed_keeps
    | with_reducible apply State.setCtx_keeps
    | with_reducible apply foldl_keeps
    | with_reducible apply Keeps.ite
    | with_reducible apply Keeps.iteFst
    | with_reducible apply Keeps.iteSnd
    | exact @rfl Nat _
    | exact List.length_set ..
    | intro _ _
    | intro (_ : Nat)
    | split
    | dsimp only

theorem flowMirrorUpdate_keeps {s0 : State} (k : BitVec 2) (m : FlowMsg) (s : State) (hu : Keeps s0 s) :
    Keeps s0 (flowMirrorUpdate k m s) := by
  unfold flowMirrorUpdate
  (try dsimp only)
  repeat first
    | (simp only [keeps_mk]; with_reducible refine Keeps.fold ?_)
    | with_reducible assumption
    | with_reducible exact Keeps.refl _
    | with_reducible apply flowMirror_keeps
    | with_reducible apply countRx_keeps
    | with_reducible apply foldl_keeps
    | with_reducible apply Keeps.ite
    | with_reducible apply Keeps.iteFst
    | with_reducible apply Keeps.iteSnd
    | exact @rfl Nat _
    | exact List.length_set ..
    | intro _ _
    | intro (_ : Nat)
    | split
    | dsimp only

end Sys2Proof.Machine
end

