-- ==== Sys2Proof/Laws/KeepsPciConfig.lean ====
section
/-! SUPPORT. What the functions of Machine/PciConfig.lean keep (Laws/Keeps.lean). -/
namespace Sys2Proof.Machine

-- One theorem after another: a thread for each that waits would fill the memory.
set_option Elab.async false

theorem messageControlWrite_keeps {s0 : State} (v : BitVec 64) (s : State) (hu : Keeps s0 s) :
    Keeps s0 (messageControlWrite v s) := by
  unfold messageControlWrite
  (try dsimp only)
  repeat first
    | (simp only [keeps_mk]; with_reducible refine Keeps.fold ?_)
    | with_reducible assumption
    | with_reducible exact Keeps.refl _
    | with_reducible apply msixOn_keeps
    | with_reducible apply functionUnmask_keeps
    | with_reducible apply foldl_keeps
    | with_reducible apply Keeps.ite
    | with_reducible apply Keeps.iteFst
    | with_reducible apply Keeps.iteSnd
    | exact @rfl Nat _
    | exact List.length_set ..
    | intro _ _
    | intro (_ : Nat)
    | split
    | dsimp only

theorem deviceControlWrite_keeps {s0 : State} (v : BitVec 32) (s : State) (hu : Keeps s0 s) :
    Keeps s0 (deviceControlWrite v s) := by
  unfold deviceControlWrite
  (try dsimp only)
  repeat first
    | (simp only [keeps_mk]; with_reducible refine Keeps.fold ?_)
    | with_reducible assumption
    | with_reducible exact Keeps.refl _
    | with_reducible apply foldl_keeps
    | with_reducible apply Keeps.ite
    | with_reducible apply Keeps.iteFst
    | with_reducible apply Keeps.iteSnd
    | exact @rfl Nat _
    | exact List.length_set ..
    | intro _ _
    | intro (_ : Nat)
    | split
    | dsimp only

theorem atsWrite_keeps {s0 : State} (on : Bool) (s : State) (hu : Keeps s0 s) :
    Keeps s0 (atsWrite on s) := by
  unfold atsWrite
  (try dsimp only)
  repeat first
    | (simp only [keeps_mk]; with_reducible refine Keeps.fold ?_)
    | with_reducible assumption
    | with_reducible exact Keeps.refl _
    | with_reducible apply foldl_keeps
    | with_reducible apply Keeps.ite
    | with_reducible apply Keeps.iteFst
    | with_reducible apply Keeps.iteSnd
    | exact @rfl Nat _
    | exact List.length_set ..
    | intro _ _
    | intro (_ : Nat)
    | split
    | dsimp only

theorem configWrite_keeps {s0 : State} (o : Nat) (v : BitVec 32) (s : State) (hu : Keeps s0 s) :
    Keeps s0 (configWrite o v s) := by
  unfold configWrite
  (try dsimp only)
  repeat first
    | (simp only [keeps_mk]; with_reducible refine Keeps.fold ?_)
    | with_reducible assumption
    | with_reducible exact Keeps.refl _
    | with_reducible apply messageControlWrite_keeps
    | with_reducible apply deviceControlWrite_keeps
    | with_reducible apply atsWrite_keeps
    | with_reducible apply foldl_keeps
    | with_reducible apply Keeps.ite
    | with_reducible apply Keeps.iteFst
    | with_reducible apply Keeps.iteSnd
    | exact @rfl Nat _
    | exact List.length_set ..
    | intro _ _
    | intro (_ : Nat)
    | split
    | dsimp only

end Sys2Proof.Machine
end

