-- ==== Sys2Proof/Laws/KeepsRegMap.lean ====
section
/-! SUPPORT. What the functions of Machine/RegMap.lean keep (Laws/Keeps.lean). -/
namespace Sys2Proof.Machine

-- One theorem after another: a thread for each that waits would fill the memory.
set_option Elab.async false

theorem epochSelectWrite_keeps {s0 : State} (v : BitVec 32) (s : State) (hu : Keeps s0 s) :
    Keeps s0 (epochSelectWrite v s) := by
  unfold epochSelectWrite
  (try dsimp only)
  repeat first
    | (simp only [keeps_mk]; with_reducible refine Keeps.fold ?_)
    | with_reducible assumption
    | with_reducible exact Keeps.refl _
    | with_reducible apply epochWrite_keeps
    | with_reducible apply epochLock_keeps
    | with_reducible apply foldl_keeps
    | with_reducible apply Keeps.ite
    | with_reducible apply Keeps.iteFst
    | with_reducible apply Keeps.iteSnd
    | exact @rfl Nat _
    | exact List.length_set ..
    | intro _ _
    | intro (_ : Nat)
    | split
    | dsimp only

theorem msixEntryWrite_keeps {s0 : State} (v : BitVec 11) (f : MsixEntry → MsixEntry) (s : State) (hu : Keeps s0 s) :
    Keeps s0 (msixEntryWrite v f s) := by
  unfold msixEntryWrite
  (try dsimp only)
  repeat first
    | (simp only [keeps_mk]; with_reducible refine Keeps.fold ?_)
    | with_reducible assumption
    | with_reducible exact Keeps.refl _
    | with_reducible apply foldl_keeps
    | with_reducible apply Keeps.ite
    | with_reducible apply Keeps.iteFst
    | with_reducible apply Keeps.iteSnd
    | exact @rfl Nat _
    | exact List.length_set ..
    | intro _ _
    | intro (_ : Nat)
    | split
    | dsimp only

theorem vectorControlWrite_keeps {s0 : State} (v : BitVec 11) (x : BitVec 32) (s : State) (hu : Keeps s0 s) :
    Keeps s0 (vectorControlWrite v x s) := by
  unfold vectorControlWrite
  (try dsimp only)
  repeat first
    | (simp only [keeps_mk]; with_reducible refine Keeps.fold ?_)
    | with_reducible assumption
    | with_reducible exact Keeps.refl _
    | with_reducible apply msixEntryWrite_keeps
    | with_reducible apply vectorUnmask_keeps
    | with_reducible apply foldl_keeps
    | with_reducible apply Keeps.ite
    | with_reducible apply Keeps.iteFst
    | with_reducible apply Keeps.iteSnd
    | exact @rfl Nat _
    | exact List.length_set ..
    | intro _ _
    | intro (_ : Nat)
    | split
    | dsimp only

theorem onQueue_keeps {s0 : State} (n : BitVec 12) (f : Queue → Queue) (s : State) (hu : Keeps s0 s) :
    Keeps s0 (onQueue n f s) := by
  unfold onQueue
  (try dsimp only)
  repeat first
    | (simp only [keeps_mk]; with_reducible refine Keeps.fold ?_)
    | with_reducible assumption
    | with_reducible exact Keeps.refl _
    | with_reducible apply State.setQ_keeps
    | with_reducible apply foldl_keeps
    | with_reducible apply Keeps.ite
    | with_reducible apply Keeps.iteFst
    | with_reducible apply Keeps.iteSnd
    | exact @rfl Nat _
    | exact List.length_set ..
    | intro _ _
    | intro (_ : Nat)
    | split
    | dsimp only

theorem onQueueSet_keeps {s0 : State} (n : BitVec 12) (f : QueueCfg → QueueCfg) (s : State) (hu : Keeps s0 s) :
    Keeps s0 (onQueueSet n f s) := by
  unfold onQueueSet
  (try dsimp only)
  repeat first
    | (simp only [keeps_mk]; with_reducible refine Keeps.fold ?_)
    | with_reducible assumption
    | with_reducible exact Keeps.refl _
    | with_reducible apply onQueue_keeps
    | with_reducible apply foldl_keeps
    | with_reducible apply Keeps.ite
    | with_reducible apply Keeps.iteFst
    | with_reducible apply Keeps.iteSnd
    | exact @rfl Nat _
    | exact List.length_set ..
    | intro _ _
    | intro (_ : Nat)
    | split
    | dsimp only

theorem queueCmd_keeps {s0 : State} (n : BitVec 12) (v : BitVec 32) (s : State) (hu : Keeps s0 s) :
    Keeps s0 (queueCmd n v s) := by
  unfold queueCmd
  (try dsimp only)
  repeat first
    | (simp only [keeps_mk]; with_reducible refine Keeps.fold ?_)
    | with_reducible assumption
    | with_reducible exact Keeps.refl _
    | with_reducible apply queueCommit_keeps
    | with_reducible apply queueEnable_keeps
    | with_reducible apply queueDisable_keeps
    | with_reducible apply queueRestart_keeps
    | with_reducible apply onQueue_keeps
    | with_reducible apply foldl_keeps
    | with_reducible apply Keeps.ite
    | with_reducible apply Keeps.iteFst
    | with_reducible apply Keeps.iteSnd
    | exact @rfl Nat _
    | exact List.length_set ..
    | intro _ _
    | intro (_ : Nat)
    | split
    | dsimp only

theorem onPitch_keeps {s0 : State} (p : BitVec 8) (f : Pitch → Pitch) (s : State) (hu : Keeps s0 s) :
    Keeps s0 (onPitch p f s) := by
  unfold onPitch
  (try dsimp only)
  repeat first
    | (simp only [keeps_mk]; with_reducible refine Keeps.fold ?_)
    | with_reducible assumption
    | with_reducible exact Keeps.refl _
    | with_reducible apply State.setPitch_keeps
    | with_reducible apply foldl_keeps
    | with_reducible apply Keeps.ite
    | with_reducible apply Keeps.iteFst
    | with_reducible apply Keeps.iteSnd
    | exact @rfl Nat _
    | exact List.length_set ..
    | intro _ _
    | intro (_ : Nat)
    | split
    | dsimp only

theorem onPitchSet_keeps {s0 : State} (p : BitVec 8) (f : PitchCfg → PitchCfg) (s : State) (hu : Keeps s0 s) :
    Keeps s0 (onPitchSet p f s) := by
  unfold onPitchSet
  (try dsimp only)
  repeat first
    | (simp only [keeps_mk]; with_reducible refine Keeps.fold ?_)
    | with_reducible assumption
    | with_reducible exact Keeps.refl _
    | with_reducible apply onPitch_keeps
    | with_reducible apply foldl_keeps
    | with_reducible apply Keeps.ite
    | with_reducible apply Keeps.iteFst
    | with_reducible apply Keeps.iteSnd
    | exact @rfl Nat _
    | exact List.length_set ..
    | intro _ _
    | intro (_ : Nat)
    | split
    | dsimp only

theorem pitchCmd_keeps {s0 : State} (p : BitVec 8) (v : BitVec 32) (s : State) (hu : Keeps s0 s) :
    Keeps s0 (pitchCmd p v s) := by
  unfold pitchCmd
  (try dsimp only)
  repeat first
    | (simp only [keeps_mk]; with_reducible refine Keeps.fold ?_)
    | with_reducible assumption
    | with_reducible exact Keeps.refl _
    | with_reducible apply pitchCommit_keeps
    | with_reducible apply pitchReset_keeps
    | with_reducible apply freeze_keeps
    | with_reducible apply thaw_keeps
    | with_reducible apply logEnable_keeps
    | with_reducible apply logSwap_keeps
    | with_reducible apply logDisable_keeps
    | with_reducible apply foldl_keeps
    | with_reducible apply Keeps.ite
    | with_reducible apply Keeps.iteFst
    | with_reducible apply Keeps.iteSnd
    | exact @rfl Nat _
    | exact List.length_set ..
    | intro _ _
    | intro (_ : Nat)
    | split
    | dsimp only

theorem onChan_keeps {s0 : State} (c : BitVec 6) (f : Channel → Channel) (s : State) (hu : Keeps s0 s) :
    Keeps s0 (onChan c f s) := by
  unfold onChan
  (try dsimp only)
  repeat first
    | (simp only [keeps_mk]; with_reducible refine Keeps.fold ?_)
    | with_reducible assumption
    | with_reducible exact Keeps.refl _
    | with_reducible apply State.setChan_keeps
    | with_reducible apply foldl_keeps
    | with_reducible apply Keeps.ite
    | with_reducible apply Keeps.iteFst
    | with_reducible apply Keeps.iteSnd
    | exact @rfl Nat _
    | exact List.length_set ..
    | intro _ _
    | intro (_ : Nat)
    | split
    | dsimp only

theorem channelCmd_keeps {s0 : State} (c : BitVec 6) (v : BitVec 32) (s : State) (hu : Keeps s0 s) :
    Keeps s0 (channelCmd c v s) := by
  unfold channelCmd
  (try dsimp only)
  repeat first
    | (simp only [keeps_mk]; with_reducible refine Keeps.fold ?_)
    | with_reducible assumption
    | with_reducible exact Keeps.refl _
    | with_reducible apply channelCommit_keeps
    | with_reducible apply channelStart_keeps
    | with_reducible apply porterStop_keeps
    | with_reducible apply onChan_keeps
    | with_reducible apply foldl_keeps
    | with_reducible apply Keeps.ite
    | with_reducible apply Keeps.iteFst
    | with_reducible apply Keeps.iteSnd
    | exact @rfl Nat _
    | exact List.length_set ..
    | intro _ _
    | intro (_ : Nat)
    | split
    | dsimp only

theorem onCrates_keeps {s0 : State} (f : Crates → Crates) (s : State) (hf : (f s.crates).data = s.crates.data) (hu : Keeps s0 s) :
    Keeps s0 (onCrates f s) :=
  Keeps.upd (s1 := s) rfl (congrArg (fun d => { view s with crates := d }) hf) hu

/-- What a write of a register keeps. -/
def Reg.Keeping : Reg → Prop
  | .nothing => True
  | .word _ w => ∀ v s, Keeps s (w v s)
  | .wide _ w => ∀ v s, Keeps s (w v s)

structure RegKeeps (r : Reg) : Prop where
  keep : r.Keeping

theorem iteReg_keeps {a b : Reg} {c : Prop} [Decidable c] (h : RegKeeps a) (g : RegKeeps b) : RegKeeps (if c then a else b) := by
  split <;> assumption

theorem regRo_keeps (v : BitVec 32) : RegKeeps (ro v) := ⟨fun _ s => Keeps.refl s⟩

theorem regRoNat_keeps (n : Nat) : RegKeeps (roNat n) := regRo_keeps _

theorem regRoWide_keeps (v : BitVec 64) : RegKeeps (roWide v) := ⟨fun _ s => Keeps.refl s⟩

theorem regNothing_keeps : RegKeeps .nothing := ⟨trivial⟩

theorem regBytes_keeps (bs : Bytes) (off : Nat) : RegKeeps (roBytes bs off) := by
  unfold roBytes
  split
  · exact regRoWide_keeps _
  · exact regNothing_keeps

theorem regAtIx_keeps {α : Type} (l : List α) (i : Nat) (f : α → Reg) (h : ∀ x, RegKeeps (f x)) : RegKeeps (regAtIx l i f) := by
  unfold regAtIx
  cases l[i]? with
  | none => exact regNothing_keeps
  | some x => exact h x

theorem regDev_keeps (s : State) (o : Nat) : RegKeeps (regDev s o) := by
  unfold regDev
  split
  · exact regRo_keeps _
  · exact regRo_keeps _
  · exact regRoWide_keeps _
  · exact regRo_keeps _
  · exact ⟨fun v t => epochSelectWrite_keeps v t (Keeps.refl t)⟩
  · exact regRo_keeps _
  · exact regRo_keeps _
  · exact ⟨fun v t => intMaskWrite_keeps v t (Keeps.refl t)⟩
  · exact regNothing_keeps

theorem regMsix_keeps (s : State) (o : Nat) : RegKeeps (regMsix s o) := by
  unfold regMsix
  extract_lets v e
  split
  · exact ⟨fun x t => msixEntryWrite_keeps _ _ t (Keeps.refl t)⟩
  · exact ⟨fun x t => msixEntryWrite_keeps _ _ t (Keeps.refl t)⟩
  · exact ⟨fun x t => msixEntryWrite_keeps _ _ t (Keeps.refl t)⟩
  · exact ⟨fun x t => vectorControlWrite_keeps _ _ t (Keeps.refl t)⟩

theorem regDevBlock_keeps (s : State) (o : Nat) : RegKeeps (regDevBlock s o) := by
  unfold regDevBlock
  repeat first
    | with_reducible apply iteReg_keeps
    | with_reducible exact regRo_keeps _
    | with_reducible exact regNothing_keeps
    | with_reducible exact regDev_keeps _ _
    | with_reducible exact regMsix_keeps _ _

theorem regPlan_keeps (s : State) (o : Nat) : RegKeeps (regPlan s o) := by
  unfold regPlan
  extract_lets p
  split
  all_goals first | exact regNothing_keeps | exact ⟨fun _ t => Keeps.upd (s1 := t) rfl rfl (Keeps.refl t)⟩

theorem regSeq_keeps (s : State) (o : Nat) : RegKeeps (regSeq s o) := by
  unfold regSeq
  extract_lets p
  split
  all_goals first | exact regNothing_keeps | exact ⟨fun _ t => Keeps.upd (s1 := t) rfl rfl (Keeps.refl t)⟩

theorem regPlanBlock_keeps (s : State) (o : Nat) : RegKeeps (regPlanBlock s o) := by
  unfold regPlanBlock
  repeat first
    | with_reducible apply iteReg_keeps
    | with_reducible exact regRo_keeps _
    | with_reducible exact regNothing_keeps
    | with_reducible exact regPlan_keeps _ _
    | with_reducible exact regSeq_keeps _ _
    | with_reducible exact regBytes_keeps _ _

theorem regPower_keeps (s : State) (o : Nat) : RegKeeps (regPower s o) := by
  unfold regPower
  extract_lets p b
  split
  all_goals first
    | exact regRo_keeps _
    | exact regRoWide_keeps _
    | exact ⟨fun v t => paceWrite_keeps v t (Keeps.refl t)⟩
    | exact ⟨fun v t => powerCommand_keeps v t (Keeps.refl t)⟩
    | exact iteReg_keeps (regRo_keeps _) regNothing_keeps
    | exact ⟨fun _ t => Keeps.upd (s1 := t) rfl rfl (Keeps.refl t)⟩

theorem regQueue_keeps (s : State) (n : BitVec 12) (o : Nat) : RegKeeps (regQueue s n o) := by
  unfold regQueue
  extract_lets q c
  split
  all_goals first
    | exact regNothing_keeps
    | exact regRo_keeps _
    | exact ⟨fun v t => onQueueSet_keeps _ _ t (Keeps.refl t)⟩
    | exact ⟨fun v t => onQueue_keeps _ _ t (Keeps.refl t)⟩
    | exact ⟨fun v t => queueCmd_keeps _ v t (Keeps.refl t)⟩

theorem regPitchOf_keeps (s : State) (p : BitVec 8) (o : Nat) : RegKeeps (regPitchOf s p o) := by
  unfold regPitchOf
  extract_lets q c
  split
  all_goals first
    | exact regNothing_keeps
    | exact regRo_keeps _
    | exact ⟨fun v t => onPitchSet_keeps _ _ t (Keeps.refl t)⟩
    | exact ⟨fun v t => onPitch_keeps _ _ t (Keeps.refl t)⟩
    | exact ⟨fun v t => pitchCmd_keeps _ v t (Keeps.refl t)⟩

theorem regPitch_keeps (s : State) (p : BitVec 8) (o : Nat) : RegKeeps (regPitch s p o) := by
  unfold regPitch
  split
  · exact iteReg_keeps ⟨fun v t => pitchCmd_keeps _ v t (Keeps.refl t)⟩ regNothing_keeps
  · exact regPitchOf_keeps _ _ _

theorem regChannel_keeps (s : State) (c : BitVec 6) (o : Nat) : RegKeeps (regChannel s c o) := by
  unfold regChannel
  extract_lets x
  split
  all_goals first
    | exact regNothing_keeps
    | exact regRo_keeps _
    | exact regRoWide_keeps _
    | exact ⟨fun v t => onChan_keeps _ _ t (Keeps.refl t)⟩
    | exact ⟨fun v t => channelCmd_keeps _ v t (Keeps.refl t)⟩

theorem regCrate_keeps (s : State) (o : Nat) : RegKeeps (regCrate s o) := by
  unfold regCrate
  extract_lets c
  split
  all_goals first
    | exact ⟨fun v t => Keeps.ite (crateCommit_keeps _ (Keeps.refl t)) (onCrates_keeps _ _ rfl (Keeps.refl t))⟩
    | exact regNothing_keeps
    | exact regRo_keeps _
    | exact ⟨fun v t => onCrates_keeps _ t rfl (Keeps.refl t)⟩

end Sys2Proof.Machine
end

