-- ==== Sys2Proof/Laws/KeepsRegMapB.lean ====
section
/-! SUPPORT. What the functions of Machine/RegMapB.lean keep (Laws/Keeps.lean). -/
namespace Sys2Proof.Machine

-- One theorem after another: a thread for each that waits would fill the memory.
set_option Elab.async false

theorem streamSet_keeps {s0 : State} (f : StrCfg → StrCfg) (s : State) (hu : Keeps s0 s) :
    Keeps s0 (streamSet f s) := by
  unfold streamSet
  (try dsimp only)
  repeat first
    | (simp only [keeps_mk]; with_reducible refine Keeps.fold ?_)
    | with_reducible assumption
    | with_reducible exact Keeps.refl _
    | with_reducible apply onStream_keeps
    | with_reducible apply foldl_keeps
    | with_reducible apply Keeps.ite
    | with_reducible apply Keeps.iteFst
    | with_reducible apply Keeps.iteSnd
    | exact @rfl Nat _
    | exact List.length_set ..
    | intro _ _
    | intro (_ : Nat)
    | split
    | dsimp only

theorem timeCmd_keeps {s0 : State} (v : BitVec 32) (s : State) (hu : Keeps s0 s) :
    Keeps s0 (timeCmd v s) := by
  unfold timeCmd
  (try dsimp only)
  repeat first
    | (simp only [keeps_mk]; with_reducible refine Keeps.fold ?_)
    | with_reducible assumption
    | with_reducible exact Keeps.refl _
    | with_reducible apply timeSet_keeps
    | with_reducible apply timeInvalidate_keeps
    | with_reducible apply foldl_keeps
    | with_reducible apply Keeps.ite
    | with_reducible apply Keeps.iteFst
    | with_reducible apply Keeps.iteSnd
    | exact @rfl Nat _
    | exact List.length_set ..
    | intro _ _
    | intro (_ : Nat)
    | split
    | dsimp only

theorem onPort_keeps {s0 : State} (p : BitVec 1) (f : Port → Port) (s : State) (hu : Keeps s0 s) :
    Keeps s0 (onPort p f s) := by
  unfold onPort
  (try dsimp only)
  repeat first
    | (simp only [keeps_mk]; with_reducible refine Keeps.fold ?_)
    | with_reducible assumption
    | with_reducible exact Keeps.refl _
    | with_reducible apply State.setPort_keeps
    | with_reducible apply foldl_keeps
    | with_reducible apply Keeps.ite
    | with_reducible apply Keeps.iteFst
    | with_reducible apply Keeps.iteSnd
    | exact @rfl Nat _
    | exact List.length_set ..
    | intro _ _
    | intro (_ : Nat)
    | split
    | dsimp only

theorem onDq_keeps {s0 : State} (d : BitVec 8) (f : Dq → Dq) (s : State) (hu : Keeps s0 s) :
    Keeps s0 (onDq d f s) := by
  unfold onDq
  (try dsimp only)
  repeat first
    | (simp only [keeps_mk]; with_reducible refine Keeps.fold ?_)
    | with_reducible assumption
    | with_reducible exact Keeps.refl _
    | with_reducible apply State.setDq_keeps
    | with_reducible apply foldl_keeps
    | with_reducible apply Keeps.ite
    | with_reducible apply Keeps.iteFst
    | with_reducible apply Keeps.iteSnd
    | exact @rfl Nat _
    | exact List.length_set ..
    | intro _ _
    | intro (_ : Nat)
    | split
    | dsimp only

theorem onDqSet_keeps {s0 : State} (d : BitVec 8) (f : DqCfg → DqCfg) (s : State) (hu : Keeps s0 s) :
    Keeps s0 (onDqSet d f s) := by
  unfold onDqSet
  (try dsimp only)
  repeat first
    | (simp only [keeps_mk]; with_reducible refine Keeps.fold ?_)
    | with_reducible assumption
    | with_reducible exact Keeps.refl _
    | with_reducible apply onDq_keeps
    | with_reducible apply foldl_keeps
    | with_reducible apply Keeps.ite
    | with_reducible apply Keeps.iteFst
    | with_reducible apply Keeps.iteSnd
    | exact @rfl Nat _
    | exact List.length_set ..
    | intro _ _
    | intro (_ : Nat)
    | split
    | dsimp only

theorem dqCmd_keeps {s0 : State} (d : BitVec 8) (v : BitVec 32) (s : State) (hu : Keeps s0 s) :
    Keeps s0 (dqCmd d v s) := by
  unfold dqCmd
  (try dsimp only)
  repeat first
    | (simp only [keeps_mk]; with_reducible refine Keeps.fold ?_)
    | with_reducible assumption
    | with_reducible exact Keeps.refl _
    | with_reducible apply dqCommit_keeps
    | with_reducible apply dqEnable_keeps
    | with_reducible apply dqDisable_keeps
    | with_reducible apply foldl_keeps
    | with_reducible apply Keeps.ite
    | with_reducible apply Keeps.iteFst
    | with_reducible apply Keeps.iteSnd
    | exact @rfl Nat _
    | exact List.length_set ..
    | intro _ _
    | intro (_ : Nat)
    | split
    | dsimp only

theorem onRng_keeps {s0 : State} (f : Rng → Rng) (s : State) (hu : Keeps s0 s) :
    Keeps s0 (onRng f s) := by
  unfold onRng
  (try dsimp only)
  repeat first
    | (simp only [keeps_mk]; with_reducible refine Keeps.fold ?_)
    | with_reducible assumption
    | with_reducible exact Keeps.refl _
    | with_reducible apply foldl_keeps
    | with_reducible apply Keeps.ite
    | with_reducible apply Keeps.iteFst
    | with_reducible apply Keeps.iteSnd
    | exact @rfl Nat _
    | exact List.length_set ..
    | intro _ _
    | intro (_ : Nat)
    | split
    | dsimp only

theorem onVault_keeps {s0 : State} (f : Vault → Vault) (s : State) (hu : Keeps s0 s) :
    Keeps s0 (onVault f s) := by
  unfold onVault
  (try dsimp only)
  repeat first
    | (simp only [keeps_mk]; with_reducible refine Keeps.fold ?_)
    | with_reducible assumption
    | with_reducible exact Keeps.refl _
    | with_reducible apply foldl_keeps
    | with_reducible apply Keeps.ite
    | with_reducible apply Keeps.iteFst
    | with_reducible apply Keeps.iteSnd
    | exact @rfl Nat _
    | exact List.length_set ..
    | intro _ _
    | intro (_ : Nat)
    | split
    | dsimp only

theorem onLife_keeps {s0 : State} (f : Life → Life) (s : State) (hf : (f s.life).fuses = s.life.fuses) (hu : Keeps s0 s) :
    Keeps s0 (onLife f s) :=
  Keeps.upd (s1 := s) rfl (congrArg (fun d => { view s with fuses := d }) hf) hu

theorem onAlarm_keeps {s0 : State} (f : Alarm → Alarm) (s : State) (hf : (f s.alarm).evFresh = s.alarm.evFresh)
    (ha : (f s.alarm).evAt = s.alarm.evAt) (hu : Keeps s0 s) : Keeps s0 (onAlarm f s) :=
  Keeps.upd (s1 := s) rfl (by unfold onAlarm view writtenEvidence; simp only [hf, ha]) hu

theorem onLedger_keeps {s0 : State} (f : Ledger → Ledger) (s : State) (hu : Keeps s0 s) :
    Keeps s0 (onLedger f s) := by
  unfold onLedger
  (try dsimp only)
  repeat first
    | (simp only [keeps_mk]; with_reducible refine Keeps.fold ?_)
    | with_reducible assumption
    | with_reducible exact Keeps.refl _
    | with_reducible apply foldl_keeps
    | with_reducible apply Keeps.ite
    | with_reducible apply Keeps.iteFst
    | with_reducible apply Keeps.iteSnd
    | exact @rfl Nat _
    | exact List.length_set ..
    | intro _ _
    | intro (_ : Nat)
    | split
    | dsimp only

theorem onCards_keeps {s0 : State} (f : Cards → Cards) (s : State) (hu : Keeps s0 s) :
    Keeps s0 (onCards f s) := by
  unfold onCards
  (try dsimp only)
  repeat first
    | (simp only [keeps_mk]; with_reducible refine Keeps.fold ?_)
    | with_reducible assumption
    | with_reducible exact Keeps.refl _
    | with_reducible apply foldl_keeps
    | with_reducible apply Keeps.ite
    | with_reducible apply Keeps.iteFst
    | with_reducible apply Keeps.iteSnd
    | exact @rfl Nat _
    | exact List.length_set ..
    | intro _ _
    | intro (_ : Nat)
    | split
    | dsimp only

theorem onLinks_keeps {s0 : State} (f : Links → Links) (s : State) (hf : (f s.links).link = s.links.link) (hu : Keeps s0 s) :
    Keeps s0 (onLinks f s) :=
  Keeps.upd (s1 := s) rfl (congrArg (fun d => { view s with links := d }) hf) hu

theorem linkCmd_keeps {s0 : State} (v : BitVec 32) (s : State) (hu : Keeps s0 s) :
    Keeps s0 (linkCmd v s) := by
  unfold linkCmd
  (try dsimp only)
  repeat first
    | (simp only [keeps_mk]; with_reducible refine Keeps.fold ?_)
    | with_reducible assumption
    | with_reducible exact Keeps.refl _
    | with_reducible apply linkCommit_keeps
    | with_reducible apply retrain_keeps
    | with_reducible apply foldl_keeps
    | with_reducible apply Keeps.ite
    | with_reducible apply Keeps.iteFst
    | with_reducible apply Keeps.iteSnd
    | exact @rfl Nat _
    | exact List.length_set ..
    | intro _ _
    | intro (_ : Nat)
    | split
    | dsimp only

theorem ppCtrl_keeps {s0 : State} (p : BitVec 8) (v : BitVec 32) (s : State) (hu : Keeps s0 s) :
    Keeps s0 (ppCtrl p v s) := by
  unfold ppCtrl
  (try dsimp only)
  repeat first
    | (simp only [keeps_mk]; with_reducible refine Keeps.fold ?_)
    | with_reducible assumption
    | with_reducible exact Keeps.refl _
    | with_reducible apply selfReset_keeps
    | with_reducible apply foldl_keeps
    | with_reducible apply Keeps.ite
    | with_reducible apply Keeps.iteFst
    | with_reducible apply Keeps.iteSnd
    | exact @rfl Nat _
    | exact List.length_set ..
    | intro _ _
    | intro (_ : Nat)
    | split
    | dsimp only

theorem regStreamTime_keeps (s : State) (o : Nat) : RegKeeps (regStreamTime s o) := by
  unfold regStreamTime
  extract_lets t
  repeat first
    | with_reducible apply iteReg_keeps
    | with_reducible exact regNothing_keeps
    | with_reducible exact regRo_keeps _
    | with_reducible exact regRoNat_keeps _
    | with_reducible exact regRoWide_keeps _
    | exact ⟨fun v t => onStream_keeps _ t rfl (Keeps.refl t)⟩
    | exact ⟨fun v t => timeStep_keeps v t (Keeps.refl t)⟩
    | exact ⟨fun v t => timeCmd_keeps v t (Keeps.refl t)⟩
    | split

theorem regStreamTop_keeps (s : State) (o : Nat) : RegKeeps (regStreamTop s o) := by
  unfold regStreamTop
  extract_lets t c
  repeat first
    | with_reducible apply iteReg_keeps
    | with_reducible exact regNothing_keeps
    | with_reducible exact regRo_keeps _
    | with_reducible exact regRoNat_keeps _
    | with_reducible exact regRoWide_keeps _
    | exact ⟨fun v t => onStream_keeps _ t rfl (Keeps.refl t)⟩
    | with_reducible exact regStreamTime_keeps _ _
    | exact ⟨fun v t => streamSet_keeps _ t (Keeps.refl t)⟩
    | exact ⟨fun v t => Keeps.ite (streamCommit_keeps t (Keeps.refl t)) (Keeps.refl t)⟩
    | split

theorem regPort_keeps (s : State) (p : BitVec 1) (o : Nat) : RegKeeps (regPort s p o) := by
  unfold regPort
  extract_lets x c
  repeat first
    | with_reducible apply iteReg_keeps
    | with_reducible exact regNothing_keeps
    | with_reducible exact regRo_keeps _
    | with_reducible exact regRoNat_keeps _
    | with_reducible exact regRoWide_keeps _
    | with_reducible exact regAtIx_keeps _ _ _ (fun _ => regRo_keeps _)
    | exact ⟨fun v t => onPort_keeps _ _ t (Keeps.refl t)⟩
    | exact ⟨fun v t => Keeps.ite (portCommit_keeps _ t (Keeps.refl t)) (Keeps.refl t)⟩
    | split

theorem regDq_keeps (s : State) (d : BitVec 8) (o : Nat) : RegKeeps (regDq s d o) := by
  unfold regDq
  extract_lets x c
  repeat first
    | with_reducible apply iteReg_keeps
    | with_reducible exact regNothing_keeps
    | with_reducible exact regRo_keeps _
    | with_reducible exact regRoNat_keeps _
    | with_reducible exact regRoWide_keeps _
    | exact ⟨fun v t => onDq_keeps _ _ t (Keeps.refl t)⟩
    | exact ⟨fun v t => onDqSet_keeps _ _ t (Keeps.refl t)⟩
    | exact ⟨fun v t => dqCmd_keeps _ v t (Keeps.refl t)⟩
    | split

theorem regStream_keeps (s : State) (o : Nat) : RegKeeps (regStream s o) := by
  unfold regStream
  repeat first
    | with_reducible apply iteReg_keeps
    | with_reducible exact regNothing_keeps
    | with_reducible exact regRo_keeps _
    | with_reducible exact regRoNat_keeps _
    | with_reducible exact regRoWide_keeps _
    | with_reducible exact regStreamTop_keeps _ _
    | with_reducible exact regPort_keeps _ _ _
    | with_reducible exact regDq_keeps _ _ _
    | split

theorem regBean_keeps (b : Bean) : RegKeeps (regBean b) := by
  unfold regBean
  repeat first
    | with_reducible apply iteReg_keeps
    | with_reducible exact regNothing_keeps
    | with_reducible exact regRo_keeps _
    | with_reducible exact regRoNat_keeps _
    | with_reducible exact regRoWide_keeps _
    | split

theorem regRng_keeps (s : State) (o : Nat) : RegKeeps (regRng s o) := by
  unfold regRng
  extract_lets r
  repeat first
    | with_reducible apply iteReg_keeps
    | with_reducible exact regNothing_keeps
    | with_reducible exact regRo_keeps _
    | with_reducible exact regRoNat_keeps _
    | with_reducible exact regRoWide_keeps _
    | with_reducible exact regBean_keeps _
    | exact ⟨fun v t => onRng_keeps _ t (Keeps.refl t)⟩
    | exact ⟨fun v t => Keeps.ite (retestRetired_keeps t (Keeps.refl t)) (Keeps.refl t)⟩
    | split

theorem regVault_keeps (s : State) (o : Nat) : RegKeeps (regVault s o) := by
  unfold regVault
  extract_lets v
  repeat first
    | with_reducible apply iteReg_keeps
    | with_reducible exact regNothing_keeps
    | with_reducible exact regRo_keeps _
    | with_reducible exact regRoNat_keeps _
    | with_reducible exact regRoWide_keeps _
    | with_reducible exact regBytes_keeps _ _
    | exact ⟨fun v t => onVault_keeps _ t (Keeps.refl t)⟩
    | extract_lets _
    | split

theorem regEngineOf_keeps (x : Engine) (o : Nat) : RegKeeps (regEngineOf x o) := by
  unfold regEngineOf
  repeat first
    | with_reducible apply iteReg_keeps
    | with_reducible exact regNothing_keeps
    | with_reducible exact regRo_keeps _
    | with_reducible exact regRoNat_keeps _
    | with_reducible exact regRoWide_keeps _
    | split

theorem regEngine_keeps (s : State) (o : Nat) : RegKeeps (regEngine s o) := by
  unfold regEngine
  repeat first
    | with_reducible apply iteReg_keeps
    | with_reducible exact regNothing_keeps
    | with_reducible exact regRo_keeps _
    | with_reducible exact regRoNat_keeps _
    | with_reducible exact regRoWide_keeps _
    | with_reducible exact regEngineOf_keeps _ _
    | exact ⟨fun v t => Keeps.upd (s1 := t) rfl rfl (Keeps.refl t)⟩
    | split

theorem wordBits_keeps (f : List (BitVec 16) → Nat → Bool) (s : State) : RegKeeps (wordBits f s) := by
  unfold wordBits
  repeat first
    | with_reducible apply iteReg_keeps
    | with_reducible exact regNothing_keeps
    | with_reducible exact regRo_keeps _
    | with_reducible exact regRoNat_keeps _
    | with_reducible exact regRoWide_keeps _
    | split

theorem regLife_keeps (s : State) (o : Nat) : RegKeeps (regLife s o) := by
  unfold regLife
  extract_lets l
  repeat first
    | with_reducible apply iteReg_keeps
    | with_reducible exact regNothing_keeps
    | with_reducible exact regRo_keeps _
    | with_reducible exact regRoNat_keeps _
    | with_reducible exact regRoWide_keeps _
    | with_reducible exact regBytes_keeps _ _
    | with_reducible exact wordBits_keeps _ _
    | exact ⟨fun v t => onLife_keeps _ t rfl (Keeps.refl t)⟩
    | split

theorem regAlarm_keeps (s : State) (o : Nat) : RegKeeps (regAlarm s o) := by
  unfold regAlarm
  extract_lets a
  repeat first
    | with_reducible apply iteReg_keeps
    | with_reducible exact regNothing_keeps
    | with_reducible exact regRo_keeps _
    | with_reducible exact regRoNat_keeps _
    | with_reducible exact regRoWide_keeps _
    | exact ⟨fun v t => onAlarm_keeps _ t rfl rfl (Keeps.refl t)⟩
    | with_reducible exact regAtIx_keeps _ _ _ (fun _ => regRo_keeps _)
    | extract_lets _
    | split

theorem regLedger_keeps (s : State) (o : Nat) : RegKeeps (regLedger s o) := by
  unfold regLedger
  extract_lets l
  repeat first
    | with_reducible apply iteReg_keeps
    | with_reducible exact regNothing_keeps
    | with_reducible exact regRo_keeps _
    | with_reducible exact regRoNat_keeps _
    | with_reducible exact regRoWide_keeps _
    | exact ⟨fun v t => onLedger_keeps _ t (Keeps.refl t)⟩
    | split

theorem regEvidence_keeps (s : State) (o : Nat) : RegKeeps (regEvidence s o) := by
  unfold regEvidence
  repeat first
    | with_reducible apply iteReg_keeps
    | with_reducible exact regNothing_keeps
    | with_reducible exact regRo_keeps _
    | with_reducible exact regRoNat_keeps _
    | with_reducible exact regRoWide_keeps _
    | with_reducible exact regBytes_keeps _ _
    | split

theorem regLedgerBlock_keeps (s : State) (o : Nat) : RegKeeps (regLedgerBlock s o) := by
  unfold regLedgerBlock
  repeat first
    | with_reducible apply iteReg_keeps
    | with_reducible exact regNothing_keeps
    | with_reducible exact regRo_keeps _
    | with_reducible exact regRoNat_keeps _
    | with_reducible exact regRoWide_keeps _
    | with_reducible exact regLedger_keeps _ _
    | with_reducible exact regEvidence_keeps _ _
    | split

theorem mountWord_keeps (s : State) (f : ArcMount → BitVec 32) : RegKeeps (mountWord s f) := by
  unfold mountWord
  repeat first
    | with_reducible apply iteReg_keeps
    | with_reducible exact regNothing_keeps
    | with_reducible exact regRo_keeps _
    | with_reducible exact regRoNat_keeps _
    | with_reducible exact regRoWide_keeps _
    | split

theorem regCards_keeps (s : State) (o : Nat) : RegKeeps (regCards s o) := by
  unfold regCards
  extract_lets c
  repeat first
    | with_reducible apply iteReg_keeps
    | with_reducible exact regNothing_keeps
    | with_reducible exact regRo_keeps _
    | with_reducible exact regRoNat_keeps _
    | with_reducible exact regRoWide_keeps _
    | with_reducible exact mountWord_keeps _ _
    | exact ⟨fun v t => onCards_keeps _ t (Keeps.refl t)⟩
    | split

theorem regLinkOf_keeps (s : State) (k : BitVec 2) (l : Link) (o : Nat) : RegKeeps (regLinkOf s k l o) := by
  unfold regLinkOf
  repeat first
    | with_reducible apply iteReg_keeps
    | with_reducible exact regNothing_keeps
    | with_reducible exact regRo_keeps _
    | with_reducible exact regRoNat_keeps _
    | with_reducible exact regRoWide_keeps _
    | split

theorem regLink_keeps (s : State) (o : Nat) : RegKeeps (regLink s o) := by
  unfold regLink
  extract_lets l
  repeat first
    | with_reducible apply iteReg_keeps
    | with_reducible exact regNothing_keeps
    | with_reducible exact regRo_keeps _
    | with_reducible exact regRoNat_keeps _
    | with_reducible exact regRoWide_keeps _
    | with_reducible exact regAtIx_keeps _ _ _ (fun _ => regLinkOf_keeps _ _ _ _)
    | exact ⟨fun v t => onLinks_keeps _ t rfl (Keeps.refl t)⟩
    | exact ⟨fun v t => linkCmd_keeps v t (Keeps.refl t)⟩
    | extract_lets _
    | split

theorem regControl_keeps (s : State) (o : Nat) : RegKeeps (regControl s o) := by
  unfold regControl
  extract_lets low
  repeat first
    | with_reducible apply iteReg_keeps
    | with_reducible exact regNothing_keeps
    | with_reducible exact regRo_keeps _
    | with_reducible exact regRoNat_keeps _
    | with_reducible exact regRoWide_keeps _
    | with_reducible exact regDevBlock_keeps _ _
    | with_reducible exact regPlanBlock_keeps _ _
    | with_reducible exact regPower_keeps _ _
    | with_reducible exact regCrate_keeps _ _
    | with_reducible exact regStream_keeps _ _
    | with_reducible exact regRng_keeps _ _
    | with_reducible exact regVault_keeps _ _
    | with_reducible exact regEngine_keeps _ _
    | with_reducible exact regLife_keeps _ _
    | with_reducible exact regAlarm_keeps _ _
    | with_reducible exact regLedgerBlock_keeps _ _
    | with_reducible exact regCards_keeps _ _
    | with_reducible exact regLink_keeps _ _
    | with_reducible exact regQueue_keeps _ _ _
    | with_reducible exact regPitch_keeps _ _ _
    | with_reducible exact regChannel_keeps _ _ _
    | split

theorem regDoorbell_keeps (s : State) (p : BitVec 8) (l : BitVec 6) (ci : Bool) : RegKeeps (regDoorbell s p l ci) := by
  unfold regDoorbell
  repeat first
    | with_reducible apply iteReg_keeps
    | with_reducible exact regNothing_keeps
    | with_reducible exact regRo_keeps _
    | with_reducible exact regRoNat_keeps _
    | with_reducible exact regRoWide_keeps _
    | exact ⟨fun v t => cqCi_keeps _ _ v t (Keeps.refl t)⟩
    | exact ⟨fun v t => sqPi_keeps _ _ v t (Keeps.refl t)⟩
    | split

theorem regPitchView_keeps (s : State) (p : BitVec 8) (o : Nat) : RegKeeps (regPitchView s p o) := by
  unfold regPitchView
  extract_lets x
  repeat first
    | with_reducible apply iteReg_keeps
    | with_reducible exact regNothing_keeps
    | with_reducible exact regRo_keeps _
    | with_reducible exact regRoNat_keeps _
    | with_reducible exact regRoWide_keeps _
    | exact ⟨fun v t => onPitch_keeps _ _ t (Keeps.refl t)⟩
    | exact ⟨fun v t => ppCtrl_keeps _ v t (Keeps.refl t)⟩
    | split

theorem regPage_keeps (s : State) (p : BitVec 8) (o : Nat) : RegKeeps (regPage s p o) := by
  unfold regPage
  repeat first
    | with_reducible apply iteReg_keeps
    | with_reducible exact regNothing_keeps
    | with_reducible exact regRo_keeps _
    | with_reducible exact regRoNat_keeps _
    | with_reducible exact regRoWide_keeps _
    | with_reducible exact regDoorbell_keeps _ _ _ _
    | with_reducible exact regPitchView_keeps _ _ _
    | exact ⟨fun v t => flagBytes_keeps _ _ _ t (Keeps.refl t)⟩
    | split

theorem regAt_keeps (s : State) (w : Window) (o : Nat) : RegKeeps (regAt s w o) := by
  unfold regAt
  repeat first
    | with_reducible apply iteReg_keeps
    | with_reducible exact regNothing_keeps
    | with_reducible exact regRo_keeps _
    | with_reducible exact regRoNat_keeps _
    | with_reducible exact regRoWide_keeps _
    | with_reducible exact regControl_keeps _ _
    | with_reducible exact regPage_keeps _ _ _
    | split

end Sys2Proof.Machine
end

