-- ==== Sys2Proof/Laws/KeepsRegs.lean ====
section
/-! SUPPORT. What the functions of Machine/Regs.lean keep (Laws/Keeps.lean). -/
namespace Sys2Proof.Machine

-- One theorem after another: a thread for each that waits would fill the memory.
set_option Elab.async false

theorem setHeld_keeps {s0 : State} (o : Nat) (v : Option (BitVec 32)) (s : State) (hu : Keeps s0 s) :
    Keeps s0 (setHeld o v s) := by
  unfold setHeld
  (try dsimp only)
  repeat first
    | (simp only [keeps_mk]; with_reducible refine Keeps.fold ?_)
    | with_reducible assumption
    | with_reducible exact Keeps.refl _
    | with_reducible apply foldl_keeps
    | with_reducible apply Keeps.ite
    | with_reducible apply Keeps.iteFst
    | with_reducible apply Keeps.iteSnd
    | exact @rfl Nat _
    | exact List.length_set ..
    | intro _ _
    | intro (_ : Nat)
    | split
    | dsimp only

theorem setLatch_keeps {s0 : State} (o : Nat) (v : Option (BitVec 32)) (s : State) (hu : Keeps s0 s) :
    Keeps s0 (setLatch o v s) := by
  unfold setLatch
  (try dsimp only)
  repeat first
    | (simp only [keeps_mk]; with_reducible refine Keeps.fold ?_)
    | with_reducible assumption
    | with_reducible exact Keeps.refl _
    | with_reducible apply foldl_keeps
    | with_reducible apply Keeps.ite
    | with_reducible apply Keeps.iteFst
    | with_reducible apply Keeps.iteSnd
    | exact @rfl Nat _
    | exact List.length_set ..
    | intro _ _
    | intro (_ : Nat)
    | split
    | dsimp only

theorem useLatch_keeps {s0 : State} (o : Nat) (now : BitVec 32) (s : State) (hu : Keeps s0 s) :
    Keeps s0 (useLatch o now s).2 := by
  unfold useLatch
  (try dsimp only)
  repeat first
    | (simp only [keeps_mk]; with_reducible refine Keeps.fold ?_)
    | with_reducible assumption
    | with_reducible exact Keeps.refl _
    | with_reducible apply setLatch_keeps
    | with_reducible apply foldl_keeps
    | with_reducible apply Keeps.ite
    | with_reducible apply Keeps.iteFst
    | with_reducible apply Keeps.iteSnd
    | exact @rfl Nat _
    | exact List.length_set ..
    | intro _ _
    | intro (_ : Nat)
    | split
    | dsimp only

theorem read32_keeps {s0 : State} (w : Window) (o : Nat) (s : State) (hu : Keeps s0 s) :
    Keeps s0 (read32 w o s).2 := by
  unfold read32
  (try dsimp only)
  repeat first
    | (simp only [keeps_mk]; with_reducible refine Keeps.fold ?_)
    | with_reducible assumption
    | with_reducible exact Keeps.refl _
    | with_reducible apply setLatch_keeps
    | with_reducible apply useLatch_keeps
    | with_reducible apply foldl_keeps
    | with_reducible apply Keeps.ite
    | with_reducible apply Keeps.iteFst
    | with_reducible apply Keeps.iteSnd
    | exact @rfl Nat _
    | exact List.length_set ..
    | intro _ _
    | intro (_ : Nat)
    | split
    | dsimp only

theorem settleWrite_keeps {u : State} (w : Window) (o : Nat) (s t : State) (h : Keeps u t) : Keeps u (settleWrite w o s t) :=
  Keeps.ite h (settle_keeps h)

theorem regAt_word {s : State} {w : Window} {o : Nat} {x : BitVec 32} {f : BitVec 32 → State → State} (h : regAt s w o = .word x f)
    (v : BitVec 32) (t : State) : Keeps t (f v t) := by
  have k := (regAt_keeps s w o).keep
  rw [h] at k
  exact k v t

theorem regAt_wide {s : State} {w : Window} {o : Nat} {x : BitVec 64} {f : BitVec 64 → State → State} (h : regAt s w o = .wide x f)
    (v : BitVec 64) (t : State) : Keeps t (f v t) := by
  have k := (regAt_keeps s w o).keep
  rw [h] at k
  exact k v t

theorem upperOf_wide {s : State} {w : Window} {o : Nat} {x : BitVec 64} {f : BitVec 64 → State → State} (h : upperOf s w o = some (x, f))
    (v : BitVec 64) (t : State) : Keeps t (f v t) := by
  unfold upperOf at h
  split at h
  · split at h
    · rename_i e
      cases h
      exact regAt_wide e v t
    · cases h
  · cases h

theorem write32_own (w : Window) (o : Nat) (v : BitVec 32) (s : State) : Keeps s (write32 w o v s) := by
  unfold write32
  split
  · rename_i e
    exact settle_keeps (Keeps.trans (setHeld_keeps _ _ _ (Keeps.refl s)) (upperOf_wide e _ _))
  split
  · exact Keeps.refl s
  · rename_i e
    exact settleWrite_keeps _ _ _ _ (regAt_word e _ _)
  · exact setHeld_keeps _ _ _ (Keeps.refl s)

theorem write32_keeps {s0 : State} (w : Window) (o : Nat) (v : BitVec 32) (s : State) (hu : Keeps s0 s) :
    Keeps s0 (write32 w o v s) :=
  Keeps.trans hu (write32_own w o v s)

theorem read64_keeps {s0 : State} (w : Window) (o : Nat) (s : State) (hu : Keeps s0 s) :
    Keeps s0 (read64 w o s).2 := by
  unfold read64
  (try dsimp only)
  repeat first
    | (simp only [keeps_mk]; with_reducible refine Keeps.fold ?_)
    | with_reducible assumption
    | with_reducible exact Keeps.refl _
    | with_reducible apply read32_keeps
    | with_reducible apply foldl_keeps
    | with_reducible apply Keeps.ite
    | with_reducible apply Keeps.iteFst
    | with_reducible apply Keeps.iteSnd
    | exact @rfl Nat _
    | exact List.length_set ..
    | intro _ _
    | intro (_ : Nat)
    | split
    | dsimp only

theorem write64_own (w : Window) (o : Nat) (v : BitVec 64) (s : State) : Keeps s (write64 w o v s) := by
  unfold write64
  split
  · rename_i e
    exact settle_keeps (Keeps.trans (setHeld_keeps _ _ _ (Keeps.refl s)) (regAt_wide e _ _))
  · exact Keeps.ite (write32_keeps _ _ _ _ (write32_keeps _ _ _ _ (Keeps.refl s)))
      (write32_keeps _ _ _ _ (write32_keeps _ _ _ _ (Keeps.refl s)))

theorem write64_keeps {s0 : State} (w : Window) (o : Nat) (v : BitVec 64) (s : State) (hu : Keeps s0 s) :
    Keeps s0 (write64 w o v s) :=
  Keeps.trans hu (write64_own w o v s)

theorem readReg_keeps {s0 : State} (w : Window) (o : Nat) (width : Nat) (s : State) (hu : Keeps s0 s) :
    Keeps s0 (readReg w o width s).2 := by
  unfold readReg
  (try dsimp only)
  repeat first
    | (simp only [keeps_mk]; with_reducible refine Keeps.fold ?_)
    | with_reducible assumption
    | with_reducible exact Keeps.refl _
    | with_reducible apply read32_keeps
    | with_reducible apply read64_keeps
    | with_reducible apply foldl_keeps
    | with_reducible apply Keeps.ite
    | with_reducible apply Keeps.iteFst
    | with_reducible apply Keeps.iteSnd
    | exact @rfl Nat _
    | exact List.length_set ..
    | intro _ _
    | intro (_ : Nat)
    | split
    | dsimp only

theorem writeReg_keeps {s0 : State} (w : Window) (o : Nat) (width : Nat) (v : BitVec 64) (s : State) (hu : Keeps s0 s) :
    Keeps s0 (writeReg w o width v s) := by
  unfold writeReg
  (try dsimp only)
  repeat first
    | (simp only [keeps_mk]; with_reducible refine Keeps.fold ?_)
    | with_reducible assumption
    | with_reducible exact Keeps.refl _
    | with_reducible apply crateDataWrite_keeps
    | with_reducible apply write32_keeps
    | with_reducible apply write64_keeps
    | with_reducible apply foldl_keeps
    | with_reducible apply Keeps.ite
    | with_reducible apply Keeps.iteFst
    | with_reducible apply Keeps.iteSnd
    | exact @rfl Nat _
    | exact List.length_set ..
    | intro _ _
    | intro (_ : Nat)
    | split
    | dsimp only

theorem answerRead_keeps {s0 : State} (v : BitVec 64) (s : State) (hu : Keeps s0 s) :
    Keeps s0 (answerRead v s) := by
  unfold answerRead
  (try dsimp only)
  repeat first
    | (simp only [keeps_mk]; with_reducible refine Keeps.fold ?_)
    | with_reducible assumption
    | with_reducible exact Keeps.refl _
    | with_reducible apply foldl_keeps
    | with_reducible apply Keeps.ite
    | with_reducible apply Keeps.iteFst
    | with_reducible apply Keeps.iteSnd
    | exact @rfl Nat _
    | exact List.length_set ..
    | intro _ _
    | intro (_ : Nat)
    | split
    | dsimp only

theorem hostRead_keeps {s0 : State} (w : Window) (o : Nat) (width : Nat) (s : State) (hu : Keeps s0 s) :
    Keeps s0 (hostRead w o width s) := by
  unfold hostRead
  (try dsimp only)
  repeat first
    | (simp only [keeps_mk]; with_reducible refine Keeps.fold ?_)
    | with_reducible assumption
    | with_reducible exact Keeps.refl _
    | with_reducible apply answerRead_keeps
    | with_reducible apply readReg_keeps
    | with_reducible apply foldl_keeps
    | with_reducible apply Keeps.ite
    | with_reducible apply Keeps.iteFst
    | with_reducible apply Keeps.iteSnd
    | exact @rfl Nat _
    | exact List.length_set ..
    | intro _ _
    | intro (_ : Nat)
    | split
    | dsimp only

theorem hostWrite_keeps {s0 : State} (w : Window) (o : Nat) (width : Nat) (v : BitVec 64) (s : State) (hu : Keeps s0 s) :
    Keeps s0 (hostWrite w o width v s) := by
  unfold hostWrite
  (try dsimp only)
  repeat first
    | (simp only [keeps_mk]; with_reducible refine Keeps.fold ?_)
    | with_reducible assumption
    | with_reducible exact Keeps.refl _
    | with_reducible apply messageControlWrite_keeps
    | with_reducible apply configWrite_keeps
    | with_reducible apply writeReg_keeps
    | with_reducible apply foldl_keeps
    | with_reducible apply Keeps.ite
    | with_reducible apply Keeps.iteFst
    | with_reducible apply Keeps.iteSnd
    | exact @rfl Nat _
    | exact List.length_set ..
    | intro _ _
    | intro (_ : Nat)
    | split
    | dsimp only

end Sys2Proof.Machine
end

