-- ==== Sys2Proof/Laws/KeepsMonitor.lean ====
section
/-! SUPPORT. What the functions of Machine/Monitor.lean keep (Laws/Keeps.lean). -/
namespace Sys2Proof.Machine

-- One theorem after another: a thread for each that waits would fill the memory.
set_option Elab.async false

theorem revertBaud_keeps {s0 : State} (s : State) (hu : Keeps s0 s) :
    Keeps s0 (revertBaud s) := by
  unfold revertBaud
  (try dsimp only)
  repeat first
    | (simp only [keeps_mk]; with_reducible refine Keeps.fold ?_)
    | with_reducible assumption
    | with_reducible exact Keeps.refl _
    | with_reducible apply answerEr_keeps
    | with_reducible apply foldl_keeps
    | with_reducible apply Keeps.ite
    | with_reducible apply Keeps.iteFst
    | with_reducible apply Keeps.iteSnd
    | exact @rfl Nat _
    | exact List.length_set ..
    | intro _ _
    | intro (_ : Nat)
    | split
    | dsimp only

theorem monitorTakes_keeps {s0 : State} (f : State → State) (s : State) (h_f : ∀ t, Keeps t (f t)) (hu : Keeps s0 s) :
    Keeps s0 (monitorTakes f s) := by
  unfold monitorTakes
  (try dsimp only)
  repeat first
    | (simp only [keeps_mk]; with_reducible refine Keeps.fold ?_)
    | with_reducible assumption
    | with_reducible exact Keeps.refl _
    | with_reducible apply revertBaud_keeps
    | with_reducible refine Keeps.trans ?_ (h_f _)
    | with_reducible apply foldl_keeps
    | with_reducible apply Keeps.ite
    | with_reducible apply Keeps.iteFst
    | with_reducible apply Keeps.iteSnd
    | exact @rfl Nat _
    | exact List.length_set ..
    | intro _ _
    | intro (_ : Nat)
    | split
    | dsimp only

theorem refusedClear_keeps {s0 : State} (c : BitVec 8) (s : State) (hu : Keeps s0 s) :
    Keeps s0 (refusedClear c s) := by
  unfold refusedClear
  (try dsimp only)
  repeat first
    | (simp only [keeps_mk]; with_reducible refine Keeps.fold ?_)
    | with_reducible assumption
    | with_reducible exact Keeps.refl _
    | with_reducible apply answerEr_keeps
    | with_reducible apply clearLines_keeps
    | with_reducible apply foldl_keeps
    | with_reducible apply Keeps.ite
    | with_reducible apply Keeps.iteFst
    | with_reducible apply Keeps.iteSnd
    | exact @rfl Nat _
    | exact List.length_set ..
    | intro _ _
    | intro (_ : Nat)
    | split
    | dsimp only

theorem syntaxEr_keeps {s0 : State} (c : Bytes) (s : State) (hu : Keeps s0 s) :
    Keeps s0 (syntaxEr c s) := by
  unfold syntaxEr
  (try dsimp only)
  repeat first
    | (simp only [keeps_mk]; with_reducible refine Keeps.fold ?_)
    | with_reducible assumption
    | with_reducible exact Keeps.refl _
    | with_reducible apply refusedClear_keeps
    | with_reducible apply answerEr_keeps
    | with_reducible apply foldl_keeps
    | with_reducible apply Keeps.ite
    | with_reducible apply Keeps.iteFst
    | with_reducible apply Keeps.iteSnd
    | exact @rfl Nat _
    | exact List.length_set ..
    | intro _ _
    | intro (_ : Nat)
    | split
    | dsimp only

theorem monitorLine_keeps {s0 : State} {α : Type} (name : String) (syn : List Bytes → Option α) (line : Bytes) (f : α → State → State)
    (s : State) (hf : ∀ a t, Keeps t (f a t)) (hu : Keeps s0 s) : Keeps s0 (monitorLine name syn line f s) := by
  unfold monitorLine
  split
  · exact hu
  refine Keeps.ite hu (monitorTakes_keeps _ _ (fun t => ?_) hu)
  refine Keeps.ite (answerEr_keeps _ _ (Keeps.refl t)) ?_
  split
  · exact syntaxEr_keeps _ _ (Keeps.refl t)
  · exact hf _ _

theorem permitted_keeps {s0 : State} (ok : Bool) (f : State → State) (s : State) (h_f : ∀ t, Keeps t (f t)) (hu : Keeps s0 s) :
    Keeps s0 (permitted ok f s) := by
  unfold permitted
  (try dsimp only)
  repeat first
    | (simp only [keeps_mk]; with_reducible refine Keeps.fold ?_)
    | with_reducible assumption
    | with_reducible exact Keeps.refl _
    | with_reducible apply answerEr_keeps
    | with_reducible refine Keeps.trans ?_ (h_f _)
    | with_reducible apply foldl_keeps
    | with_reducible apply Keeps.ite
    | with_reducible apply Keeps.iteFst
    | with_reducible apply Keeps.iteSnd
    | exact @rfl Nat _
    | exact List.length_set ..
    | intro _ _
    | intro (_ : Nat)
    | split
    | dsimp only

theorem monitorIdAnswer_keeps {s0 : State} (s : State) (hu : Keeps s0 s) :
    Keeps s0 (monitorIdAnswer s) := by
  unfold monitorIdAnswer
  (try dsimp only)
  repeat first
    | (simp only [keeps_mk]; with_reducible refine Keeps.fold ?_)
    | with_reducible assumption
    | with_reducible exact Keeps.refl _
    | with_reducible apply answerOk_keeps
    | with_reducible apply foldl_keeps
    | with_reducible apply Keeps.ite
    | with_reducible apply Keeps.iteFst
    | with_reducible apply Keeps.iteSnd
    | exact @rfl Nat _
    | exact List.length_set ..
    | intro _ _
    | intro (_ : Nat)
    | split
    | dsimp only

theorem monitorStAnswer_keeps {s0 : State} (s : State) (hu : Keeps s0 s) :
    Keeps s0 (monitorStAnswer s) := by
  unfold monitorStAnswer
  (try dsimp only)
  repeat first
    | (simp only [keeps_mk]; with_reducible refine Keeps.fold ?_)
    | with_reducible assumption
    | with_reducible exact Keeps.refl _
    | with_reducible apply answerOk_keeps
    | with_reducible apply foldl_keeps
    | with_reducible apply Keeps.ite
    | with_reducible apply Keeps.iteFst
    | with_reducible apply Keeps.iteSnd
    | exact @rfl Nat _
    | exact List.length_set ..
    | intro _ _
    | intro (_ : Nat)
    | split
    | dsimp only

theorem monitorNcAnswer_keeps {s0 : State} (s : State) (hu : Keeps s0 s) :
    Keeps s0 (monitorNcAnswer s) := by
  unfold monitorNcAnswer
  (try dsimp only)
  repeat first
    | (simp only [keeps_mk]; with_reducible refine Keeps.fold ?_)
    | with_reducible assumption
    | with_reducible exact Keeps.refl _
    | with_reducible apply answerEr_keeps
    | with_reducible apply answerOk_keeps
    | with_reducible apply newNonce_keeps
    | with_reducible apply foldl_keeps
    | with_reducible apply Keeps.ite
    | with_reducible apply Keeps.iteFst
    | with_reducible apply Keeps.iteSnd
    | exact @rfl Nat _
    | exact List.length_set ..
    | intro _ _
    | intro (_ : Nat)
    | split
    | dsimp only

theorem monitorDxAnswer_keeps {s0 : State} (s : State) (hu : Keeps s0 s) :
    Keeps s0 (monitorDxAnswer s) := by
  unfold monitorDxAnswer
  (try dsimp only)
  repeat first
    | (simp only [keeps_mk]; with_reducible refine Keeps.fold ?_)
    | with_reducible assumption
    | with_reducible exact Keeps.refl _
    | with_reducible apply answerOk_keeps
    | with_reducible apply foldl_keeps
    | with_reducible apply Keeps.ite
    | with_reducible apply Keeps.iteFst
    | with_reducible apply Keeps.iteSnd
    | exact @rfl Nat _
    | exact List.length_set ..
    | intro _ _
    | intro (_ : Nat)
    | split
    | dsimp only

theorem monitorLoad_keeps {s0 : State} (a : Nat × Bytes) (s : State) (hu : Keeps s0 s) :
    Keeps s0 (monitorLoad a s) := by
  unfold monitorLoad
  (try dsimp only)
  repeat first
    | (simp only [keeps_mk]; with_reducible refine Keeps.fold ?_)
    | with_reducible assumption
    | with_reducible exact Keeps.refl _
    | with_reducible apply answerEr_keeps
    | with_reducible apply answerOk_keeps
    | with_reducible apply foldl_keeps
    | with_reducible apply Keeps.ite
    | with_reducible apply Keeps.iteFst
    | with_reducible apply Keeps.iteSnd
    | exact @rfl Nat _
    | exact List.length_set ..
    | intro _ _
    | intro (_ : Nat)
    | split
    | dsimp only

theorem monitorDcAnswer_keeps {s0 : State} (len : Nat) (s : State) (hu : Keeps s0 s) :
    Keeps s0 (monitorDcAnswer len s) := by
  unfold monitorDcAnswer
  (try dsimp only)
  repeat first
    | (simp only [keeps_mk]; with_reducible refine Keeps.fold ?_)
    | with_reducible assumption
    | with_reducible exact Keeps.refl _
    | with_reducible apply answerEr_keeps
    | with_reducible apply clearLines_keeps
    | with_reducible apply certUsed_keeps
    | with_reducible apply askRefused_keeps
    | with_reducible apply askGrant_keeps
    | with_reducible apply foldl_keeps
    | with_reducible apply Keeps.ite
    | with_reducible apply Keeps.iteFst
    | with_reducible apply Keeps.iteSnd
    | exact @rfl Nat _
    | exact List.length_set ..
    | intro _ _
    | intro (_ : Nat)
    | split
    | dsimp only

theorem monitorLcAnswer_keeps {s0 : State} (a : BitVec 5 × Nat) (s : State) (hu : Keeps s0 s) :
    Keeps s0 (monitorLcAnswer a s) := by
  unfold monitorLcAnswer
  (try dsimp only)
  repeat first
    | (simp only [keeps_mk]; with_reducible refine Keeps.fold ?_)
    | with_reducible assumption
    | with_reducible exact Keeps.refl _
    | with_reducible apply refusedClear_keeps
    | with_reducible apply answerEr_keeps
    | with_reducible apply clearLines_keeps
    | with_reducible apply transitionRefused_keeps
    | with_reducible apply refuseTransition_keeps
    | with_reducible apply askTransition_keeps
    | with_reducible apply foldl_keeps
    | with_reducible apply Keeps.ite
    | with_reducible apply Keeps.iteFst
    | with_reducible apply Keeps.iteSnd
    | exact @rfl Nat _
    | exact List.length_set ..
    | intro _ _
    | intro (_ : Nat)
    | split
    | dsimp only

theorem monitorRead_keeps {s0 : State} (o : Nat) (s : State) (hu : Keeps s0 s) :
    Keeps s0 (monitorRead o s) := by
  unfold monitorRead
  (try dsimp only)
  repeat first
    | (simp only [keeps_mk]; with_reducible refine Keeps.fold ?_)
    | with_reducible assumption
    | with_reducible exact Keeps.refl _
    | with_reducible apply answerEr_keeps
    | with_reducible apply answerOk_keeps
    | with_reducible apply readReg_keeps
    | with_reducible apply foldl_keeps
    | with_reducible apply Keeps.ite
    | with_reducible apply Keeps.iteFst
    | with_reducible apply Keeps.iteSnd
    | exact @rfl Nat _
    | exact List.length_set ..
    | intro _ _
    | intro (_ : Nat)
    | split
    | dsimp only

theorem monitorWrite_keeps {s0 : State} (a : Nat × Nat) (s : State) (hu : Keeps s0 s) :
    Keeps s0 (monitorWrite a s) := by
  unfold monitorWrite
  (try dsimp only)
  repeat first
    | (simp only [keeps_mk]; with_reducible refine Keeps.fold ?_)
    | with_reducible assumption
    | with_reducible exact Keeps.refl _
    | with_reducible apply answerEr_keeps
    | with_reducible apply answerOk_keeps
    | with_reducible apply writeReg_keeps
    | with_reducible apply foldl_keeps
    | with_reducible apply Keeps.ite
    | with_reducible apply Keeps.iteFst
    | with_reducible apply Keeps.iteSnd
    | exact @rfl Nat _
    | exact List.length_set ..
    | intro _ _
    | intro (_ : Nat)
    | split
    | dsimp only

theorem monitorNv_keeps {s0 : State} (a : Nat × Nat) (s : State) (hu : Keeps s0 s) :
    Keeps s0 (monitorNv a s) := by
  unfold monitorNv
  (try dsimp only)
  repeat first
    | (simp only [keeps_mk]; with_reducible refine Keeps.fold ?_)
    | with_reducible assumption
    | with_reducible exact Keeps.refl _
    | with_reducible apply answerEr_keeps
    | with_reducible apply answerOk_keeps
    | with_reducible apply foldl_keeps
    | with_reducible apply Keeps.ite
    | with_reducible apply Keeps.iteFst
    | with_reducible apply Keeps.iteSnd
    | exact @rfl Nat _
    | exact List.length_set ..
    | intro _ _
    | intro (_ : Nat)
    | split
    | dsimp only

theorem storeWord_keeps {s0 : State} (k : Nat) (t : Nat) (a : Nat) (s : State) (hu : Keeps s0 s) :
    Keeps s0 (storeWord k t a s).2 := by
  unfold storeWord
  (try dsimp only)
  repeat first
    | (simp only [keeps_mk]; with_reducible refine Keeps.fold ?_)
    | with_reducible assumption
    | with_reducible exact Keeps.refl _
    | with_reducible apply drawFree_keeps
    | with_reducible apply foldl_keeps
    | with_reducible apply Keeps.ite
    | with_reducible apply Keeps.iteFst
    | with_reducible apply Keeps.iteSnd
    | exact @rfl Nat _
    | exact List.length_set ..
    | intro _ _
    | intro (_ : Nat)
    | split
    | dsimp only

theorem monitorStore_keeps {s0 : State} (x : Nat × Nat × Nat) (s : State) (hu : Keeps s0 s) :
    Keeps s0 (monitorStore x s) := by
  unfold monitorStore
  (try dsimp only)
  repeat first
    | (simp only [keeps_mk]; with_reducible refine Keeps.fold ?_)
    | with_reducible assumption
    | with_reducible exact Keeps.refl _
    | with_reducible apply answerEr_keeps
    | with_reducible apply answerOk_keeps
    | with_reducible apply storeWord_keeps
    | with_reducible apply foldl_keeps
    | with_reducible apply Keeps.ite
    | with_reducible apply Keeps.iteFst
    | with_reducible apply Keeps.iteSnd
    | exact @rfl Nat _
    | exact List.length_set ..
    | intro _ _
    | intro (_ : Nat)
    | split
    | dsimp only

theorem monitorRate_keeps {s0 : State} (n : Nat) (s : State) (hu : Keeps s0 s) :
    Keeps s0 (monitorRate n s) := by
  unfold monitorRate
  (try dsimp only)
  repeat first
    | (simp only [keeps_mk]; with_reducible refine Keeps.fold ?_)
    | with_reducible assumption
    | with_reducible exact Keeps.refl _
    | with_reducible apply answerOk_keeps
    | with_reducible apply foldl_keeps
    | with_reducible apply Keeps.ite
    | with_reducible apply Keeps.iteFst
    | with_reducible apply Keeps.iteSnd
    | exact @rfl Nat _
    | exact List.length_set ..
    | intro _ _
    | intro (_ : Nat)
    | split
    | dsimp only

theorem baudSwitch_keeps {s0 : State} (s : State) (hu : Keeps s0 s) :
    Keeps s0 (baudSwitch s) := by
  unfold baudSwitch
  (try dsimp only)
  repeat first
    | (simp only [keeps_mk]; with_reducible refine Keeps.fold ?_)
    | with_reducible assumption
    | with_reducible exact Keeps.refl _
    | with_reducible apply foldl_keeps
    | with_reducible apply Keeps.ite
    | with_reducible apply Keeps.iteFst
    | with_reducible apply Keeps.iteSnd
    | exact @rfl Nat _
    | exact List.length_set ..
    | intro _ _
    | intro (_ : Nat)
    | split
    | dsimp only

theorem confirmBaud_keeps {s0 : State} (s : State) (hu : Keeps s0 s) :
    Keeps s0 (confirmBaud s) := by
  unfold confirmBaud
  (try dsimp only)
  repeat first
    | (simp only [keeps_mk]; with_reducible refine Keeps.fold ?_)
    | with_reducible assumption
    | with_reducible exact Keeps.refl _
    | with_reducible apply answerOk_keeps
    | with_reducible apply answerEr_keeps
    | with_reducible apply foldl_keeps
    | with_reducible apply Keeps.ite
    | with_reducible apply Keeps.iteFst
    | with_reducible apply Keeps.iteSnd
    | exact @rfl Nat _
    | exact List.length_set ..
    | intro _ _
    | intro (_ : Nat)
    | split
    | dsimp only

theorem badLine_keeps {s0 : State} (line : Bytes) (s : State) (hu : Keeps s0 s) :
    Keeps s0 (badLine line s) := by
  unfold badLine
  (try dsimp only)
  repeat first
    | (simp only [keeps_mk]; with_reducible refine Keeps.fold ?_)
    | with_reducible assumption
    | with_reducible exact Keeps.refl _
    | with_reducible apply answerEr_keeps
    | with_reducible apply syntaxEr_keeps
    | with_reducible apply foldl_keeps
    | with_reducible apply Keeps.ite
    | with_reducible apply Keeps.iteFst
    | with_reducible apply Keeps.iteSnd
    | exact @rfl Nat _
    | exact List.length_set ..
    | intro _ _
    | intro (_ : Nat)
    | split
    | dsimp only

end Sys2Proof.Machine
end

