-- ==== Sys2Proof/Laws/KeepsPlace.lean ====
section
/-! SUPPORT. What the functions of Machine/Place.lean keep (Laws/Keeps.lean). -/
namespace Sys2Proof.Machine

-- One theorem after another: a thread for each that waits would fill the memory.
set_option Elab.async false

theorem specs1_keep : ∀ sp ∈ specs1, ∀ s x, Keeps s (sp.run s x).state := by
  simp only [specs1, List.forall_mem_cons]
  exact ⟨aesSpec_keeps false, aesSpec_keeps true, alarmUnlockSpec_keeps, archiveExportSpec_keeps, 
    archiveFormatSpec_keeps, archiveMountSpec_keeps, bootRetrySpec_keeps, ctxAllocSpec_keeps, ctxFreeSpec_keeps, 
    curveLoadSpec_keeps, custodianEnrolSpec_keeps, custodianRemoveSpec_keeps, debugGrantSpec_keeps, dhSpec_keeps, 
    dhKeygenSpec_keeps, dhPubkeySpec_keeps, digestSpec_keeps, digestKeySpec_keeps, dormantEnterSpec_keeps, 
    drbgInfoSpec_keeps, drbgInstantiateSpec_keeps, drbgReseedSpec_keeps, ecKeygenSpec_keeps, ecPubkeySpec_keeps, 
    ecdhSpec_keeps, ecdsaSignSpec_keeps, ecdsaVerifySpec_keeps, eddsaKeygenSpec_keeps, eddsaPubkeySpec_keeps, 
    eddsaSignSpec_keeps, List.forall_mem_nil _⟩

theorem specs2_keep : ∀ sp ∈ specs2, ∀ s x, Keeps s (sp.run s x).state := by
  simp only [specs2, List.forall_mem_cons]
  exact ⟨eddsaVerifySpec_keeps, evidenceReadSpec_keeps, flowCreateSpec_keeps, flowDeleteSpec_keeps, flowKeySpec_keeps, 
    flowReadSpec_keeps, flowResyncSpec_keeps, flowSetSpec_keeps, flowStandbySpec_keeps, fndsaKeygenSpec_keeps, 
    fndsaPubkeySpec_keeps, fndsaSignSpec_keeps, fndsaVerifySpec_keeps, fwStageSpec_keeps true, fwSvnRaiseSpec_keeps, 
    hqcDecapsSpec_keeps, hqcEncapsSpec_keeps, hqcKeygenSpec_keeps, hqcPubkeySpec_keeps, hsStateBindSpec_keeps, 
    hsStateQuerySpec_keeps, keeperIdentifySpec_keeps, keeperPresentSpec_keeps, lcNonceSpec_keeps, lcTransitionSpec_keeps, 
    ledgerClearSpec_keeps, ledgerReadSpec_keeps, treeKeygenSpec_keeps lmsFamily, treePubkeySpec_keeps lmsFamily, 
    treeSignSpec_keeps lmsFamily, List.forall_mem_nil _⟩

theorem specs3_keep : ∀ sp ∈ specs3, ∀ s x, Keeps s (sp.run s x).state := by
  simp only [specs3, List.forall_mem_cons]
  exact ⟨treeVerifySpec_keeps lmsFamily, mceDecapsSpec_keeps, mceEncapsSpec_keeps, mceKeygenSpec_keeps, 
    mcePkPinSpec_keeps, mcePubkeySpec_keeps, mldsaKeygenSpec_keeps, mldsaPubkeySpec_keeps, mldsaSignSpec_keeps, 
    mldsaVerifySpec_keeps, mlkemDecapsSpec_keeps, mlkemEncapsSpec_keeps, mlkemKeygenSpec_keeps, mlkemPubkeySpec_keeps, 
    patchStageSpec_keeps true, patchSvnRaiseSpec_keeps, pitchExportSpec_keeps, pitchImportSpec_keeps, planReadSpec_keeps, 
    planSignerAddSpec_keeps, planSignerRemoveSpec_keeps, planStageSpec_keeps true, planSvnRaiseSpec_keeps, 
    porterStartSpec_keeps, porterStopSpec_keeps, quorumCloseSpec_keeps, quorumOpenSpec_keeps, quorumSetSpec_keeps, 
    rngGenerateSpec_keeps, rngRawSpec_keeps, List.forall_mem_nil _⟩

theorem specs4_keep : ∀ sp ∈ specs4, ∀ s x, Keeps s (sp.run s x).state := by
  simp only [specs4, List.forall_mem_cons]
  exact ⟨rsaDecryptSpec_keeps, rsaEncryptSpec_keeps, rsaKeygenSpec_keeps, rsaPubkeySpec_keeps, rsaSignSpec_keeps, 
    rsaVerifySpec_keeps, slhdsaKeygenSpec_keeps, slhdsaPubkeySpec_keeps, slhdsaSignSpec_keeps, slhdsaVerifySpec_keeps, 
    streamSendSpec_keeps, vaultDeleteSpec_keeps, vaultDeriveSpec_keeps, vaultExportSpec_keeps, vaultImportSpec_keeps, 
    vaultInfoSpec_keeps, vaultModifySpec_keeps, vprogRunSpec_keeps, vprogVerifySpec_keeps, xdhSpec_keeps, 
    xdhKeygenSpec_keeps, xdhPubkeySpec_keeps, treeKeygenSpec_keeps xmssFamily, treePubkeySpec_keeps xmssFamily, 
    treeSignSpec_keeps xmssFamily, treeVerifySpec_keeps xmssFamily, treeKeygenSpec_keeps xmssmtFamily, 
    treePubkeySpec_keeps xmssmtFamily, treeSignSpec_keeps xmssmtFamily, treeVerifySpec_keeps xmssmtFamily, List.forall_mem_nil _⟩

theorem specOf_keeps {c : BitVec 16} {sp : OpSpec} (h : specOf c = some sp) : ∀ s x, Keeps s (sp.run s x).state := by
  have m := List.mem_of_find?_eq_some h
  unfold allSpecs at m
  simp only [List.mem_append] at m
  rcases m with ((m | m) | m) | m
  · exact specs1_keep sp m
  · exact specs2_keep sp m
  · exact specs3_keep sp m
  · exact specs4_keep sp m

theorem yieldFor_keeps {s0 : State} (s : State) (x : Job) (hu : Keeps s0 s) :
    Keeps s0 (yieldFor s x) := by
  unfold yieldFor
  (try dsimp only)
  repeat first
    | (simp only [keeps_mk]; with_reducible refine Keeps.fold ?_)
    | with_reducible assumption
    | with_reducible exact Keeps.refl _
    | with_reducible apply State.setJob_keeps
    | with_reducible apply leaveUnit_keeps
    | with_reducible apply foldl_keeps
    | with_reducible apply Keeps.ite
    | with_reducible apply Keeps.iteFst
    | with_reducible apply Keeps.iteSnd
    | exact @rfl Nat _
    | exact List.length_set ..
    | intro _ _
    | intro (_ : Nat)
    | split
    | dsimp only

theorem resumeJob_keeps {s0 : State} (s : State) (x : Job) (hu : Keeps s0 s) :
    Keeps s0 (resumeJob s x) := by
  unfold resumeJob
  (try dsimp only)
  repeat first
    | (simp only [keeps_mk]; with_reducible refine Keeps.fold ?_)
    | with_reducible assumption
    | with_reducible exact Keeps.refl _
    | with_reducible apply yieldFor_keeps
    | with_reducible apply takeUnit_keeps
    | with_reducible apply State.setJob_keeps
    | with_reducible apply foldl_keeps
    | with_reducible apply Keeps.ite
    | with_reducible apply Keeps.iteFst
    | with_reducible apply Keeps.iteSnd
    | exact @rfl Nat _
    | exact List.length_set ..
    | intro _ _
    | intro (_ : Nat)
    | split
    | dsimp only

theorem placeWaiting_own (s : State) (x : Job) : Keeps s (placeWaiting s x) := by
  unfold placeWaiting
  split
  · exact Keeps.refl s
  · rename_i sp h
    dsimp only
    refine Keeps.ite (placeWithKey_keeps _ _ _ (specOf_keeps h) (yieldFor_keeps _ _ (State.setJob_keeps _ _ (Keeps.refl _)))) ?_
    exact placeWithKey_keeps _ _ _ (specOf_keeps h) (Keeps.refl _)

theorem placeWaiting_keeps {s0 : State} (s : State) (x : Job) (hu : Keeps s0 s) :
    Keeps s0 (placeWaiting s x) :=
  Keeps.trans hu (placeWaiting_own s x)

theorem jobPlace_keeps {s0 : State} (j : JobId) (s : State) (hu : Keeps s0 s) :
    Keeps s0 (jobPlace j s) := by
  unfold jobPlace
  (try dsimp only)
  repeat first
    | (simp only [keeps_mk]; with_reducible refine Keeps.fold ?_)
    | with_reducible assumption
    | with_reducible exact Keeps.refl _
    | with_reducible apply placeWaiting_keeps
    | with_reducible apply resumeJob_keeps
    | with_reducible apply foldl_keeps
    | with_reducible apply Keeps.ite
    | with_reducible apply Keeps.iteFst
    | with_reducible apply Keeps.iteSnd
    | exact @rfl Nat _
    | exact List.length_set ..
    | intro _ _
    | intro (_ : Nat)
    | split
    | dsimp only

end Sys2Proof.Machine
end

