-- ==== Sys2Proof/Laws/KeepsRsa.lean ====
section
/-! SUPPORT. What the functions of Machine/Rsa.lean keep (Laws/Keeps.lean). -/
namespace Sys2Proof.Machine

-- One theorem after another: a thread for each that waits would fill the memory.
set_option Elab.async false



end Sys2Proof.Machine
end

