-- ==== Sys2Proof/Laws/KeepsSequencer.lean ====
section
/-! SUPPORT. What the functions of Machine/Sequencer.lean keep (Laws/Keeps.lean). -/
namespace Sys2Proof.Machine

-- One theorem after another: a thread for each that waits would fill the memory.
set_option Elab.async false

theorem fetchMicro_keeps {s0 : State} (t : BitVec 6) (s : State) (hu : Keeps s0 s) :
    Keeps s0 (fetchMicro t s).2 := by
  unfold fetchMicro
  (try dsimp only)
  repeat first
    | (simp only [keeps_mk]; with_reducible refine Keeps.fold ?_)
    | with_reducible assumption
    | with_reducible exact Keeps.refl _
    | with_reducible apply patchRamError_keeps
    | with_reducible apply storeError_keeps
    | with_reducible apply readEntry_keeps
    | with_reducible apply readStore_keeps
    | with_reducible apply foldl_keeps
    | with_reducible apply Keeps.ite
    | with_reducible apply Keeps.iteFst
    | with_reducible apply Keeps.iteSnd
    | exact @rfl Nat _
    | exact List.length_set ..
    | intro _ _
    | intro (_ : Nat)
    | split
    | dsimp only

theorem twoDraws_keeps {s0 : State} (s : State) (hu : Keeps s0 s) :
    Keeps s0 (twoDraws s).2.2 := by
  unfold twoDraws
  (try dsimp only)
  repeat first
    | (simp only [keeps_mk]; with_reducible refine Keeps.fold ?_)
    | with_reducible assumption
    | with_reducible exact Keeps.refl _
    | with_reducible apply drawFree_keeps
    | with_reducible apply foldl_keeps
    | with_reducible apply Keeps.ite
    | with_reducible apply Keeps.iteFst
    | with_reducible apply Keeps.iteSnd
    | exact @rfl Nat _
    | exact List.length_set ..
    | intro _ _
    | intro (_ : Nat)
    | split
    | dsimp only

theorem jobReports_keeps {s0 : State} (j : JobId) (m : Micro) (s : State) (hu : Keeps s0 s) :
    Keeps s0 (jobReports j m s) := by
  unfold jobReports
  (try dsimp only)
  repeat first
    | (simp only [keeps_mk]; with_reducible refine Keeps.fold ?_)
    | with_reducible assumption
    | with_reducible exact Keeps.refl _
    | with_reducible apply tileFault_keeps
    | with_reducible apply State.setJob_keeps
    | with_reducible apply finishJob_keeps
    | with_reducible apply foldl_keeps
    | with_reducible apply Keeps.ite
    | with_reducible apply Keeps.iteFst
    | with_reducible apply Keeps.iteSnd
    | exact @rfl Nat _
    | exact List.length_set ..
    | intro _ _
    | intro (_ : Nat)
    | split
    | dsimp only

theorem tileBeat_own (t : BitVec 6) (s : State) : Keeps s (tileBeat t s) := by
  unfold tileBeat
  split
  · exact Keeps.refl _
  · split <;> rename_i e <;> have h := congrArg Prod.snd e <;> dsimp only at h <;> subst h
    · exact fetchMicro_keeps _ _ (Keeps.refl _)
    · dsimp only
      refine jobReports_keeps _ _ _ (State.setTile_keeps _ _ _ ?_)
      split
      · exact twoDraws_keeps _ (fetchMicro_keeps _ _ (Keeps.refl _))
      · exact fetchMicro_keeps _ _ (Keeps.refl _)

theorem tileBeat_keeps {s0 : State} (t : BitVec 6) (s : State) (hu : Keeps s0 s) :
    Keeps s0 (tileBeat t s) :=
  Keeps.trans hu (tileBeat_own t s)

theorem tileBeats_own (t : BitVec 6) (z1 : Nat) (z2 : State) : Keeps z2 (tileBeats t z1 z2) := by
  induction z1 generalizing z2 with
  | zero => exact Keeps.refl _
  | succ n ih => exact Keeps.trans (tileBeat_keeps _ _ (Keeps.refl _)) (ih _)

theorem tileBeats_keeps {s0 : State} (t : BitVec 6) (z1 : Nat) (z2 : State) (hu : Keeps s0 z2) :
    Keeps s0 (tileBeats t z1 z2) :=
  Keeps.trans hu (tileBeats_own t z1 z2)

theorem fetchHall_keeps {s0 : State} (s : State) (hu : Keeps s0 s) :
    Keeps s0 (fetchHall s).2 := by
  unfold fetchHall
  (try dsimp only)
  repeat first
    | (simp only [keeps_mk]; with_reducible refine Keeps.fold ?_)
    | with_reducible assumption
    | with_reducible exact Keeps.refl _
    | with_reducible apply patchRamError_keeps
    | with_reducible apply copyMismatch_keeps
    | with_reducible apply readEntry_keeps
    | with_reducible apply foldl_keeps
    | with_reducible apply Keeps.ite
    | with_reducible apply Keeps.iteFst
    | with_reducible apply Keeps.iteSnd
    | exact @rfl Nat _
    | exact List.length_set ..
    | intro _ _
    | intro (_ : Nat)
    | split
    | dsimp only

theorem hallBeat_own (s : State) : Keeps s (hallBeat s) := by
  unfold hallBeat
  refine Keeps.ite (Keeps.refl _) ?_
  have k := fetchHall_keeps s (Keeps.refl s)
  split <;> rename_i t e <;> rw [e] at k
  · exact Keeps.upd (s1 := t) rfl rfl k
  · exact k

theorem hallBeat_keeps {s0 : State} (s : State) (hu : Keeps s0 s) :
    Keeps s0 (hallBeat s) :=
  Keeps.trans hu (hallBeat_own s)

theorem hallBeats_own (z0 : Nat) (z1 : State) : Keeps z1 (hallBeats z0 z1) := by
  induction z0 generalizing z1 with
  | zero => exact Keeps.refl _
  | succ n ih => exact Keeps.trans (hallBeat_keeps _ (Keeps.refl _)) (ih _)

theorem hallBeats_keeps {s0 : State} (z0 : Nat) (z1 : State) (hu : Keeps s0 z1) :
    Keeps s0 (hallBeats z0 z1) :=
  Keeps.trans hu (hallBeats_own z0 z1)

theorem seqTick_keeps {s0 : State} (s : State) (hu : Keeps s0 s) :
    Keeps s0 (seqTick s) := by
  unfold seqTick
  (try dsimp only)
  repeat first
    | (simp only [keeps_mk]; with_reducible refine Keeps.fold ?_)
    | with_reducible assumption
    | with_reducible exact Keeps.refl _
    | with_reducible apply tileBeats_keeps
    | with_reducible apply hallBeats_keeps
    | with_reducible apply foldl_keeps
    | with_reducible apply Keeps.ite
    | with_reducible apply Keeps.iteFst
    | with_reducible apply Keeps.iteSnd
    | exact @rfl Nat _
    | exact List.length_set ..
    | intro _ _
    | intro (_ : Nat)
    | split
    | dsimp only

theorem hallReloaded_keeps {s0 : State} (s : State) (hu : Keeps s0 s) :
    Keeps s0 (hallReloaded s) := by
  unfold hallReloaded
  (try dsimp only)
  repeat first
    | (simp only [keeps_mk]; with_reducible refine Keeps.fold ?_)
    | with_reducible assumption
    | with_reducible exact Keeps.refl _
    | with_reducible apply foldl_keeps
    | with_reducible apply Keeps.ite
    | with_reducible apply Keeps.iteFst
    | with_reducible apply Keeps.iteSnd
    | exact @rfl Nat _
    | exact List.length_set ..
    | intro _ _
    | intro (_ : Nat)
    | split
    | dsimp only

theorem hallReloadDone_keeps {s0 : State} (ok : Bool) (s : State) (hu : Keeps s0 s) :
    Keeps s0 (hallReloadDone ok s) := by
  unfold hallReloadDone
  (try dsimp only)
  repeat first
    | (simp only [keeps_mk]; with_reducible refine Keeps.fold ?_)
    | with_reducible assumption
    | with_reducible exact Keeps.refl _
    | with_reducible apply noteReload_keeps
    | with_reducible apply seqInt_keeps
    | with_reducible apply hallReloaded_keeps
    | with_reducible apply startFails_keeps
    | with_reducible apply writeFile_keeps
    | with_reducible apply foldl_keeps
    | with_reducible apply Keeps.ite
    | with_reducible apply Keeps.iteFst
    | with_reducible apply Keeps.iteSnd
    | exact @rfl Nat _
    | exact List.length_set ..
    | intro _ _
    | intro (_ : Nat)
    | split
    | dsimp only

end Sys2Proof.Machine
end

