-- ==== Sys2Proof/Laws/KeepsStart.lean ====
section
/-! SUPPORT. What the functions of Machine/Start.lean keep (Laws/Keeps.lean). -/
namespace Sys2Proof.Machine

-- One theorem after another: a thread for each that waits would fill the memory.
set_option Elab.async false

theorem setMeas_keeps {s0 : State} (n : Nat) (v : Bytes) (signer : Bytes) (svn : BitVec 16) (s : State) (hu : Keeps s0 s) :
    Keeps s0 (setMeas n v signer svn s) := by
  unfold setMeas
  (try dsimp only)
  repeat first
    | (simp only [keeps_mk]; with_reducible refine Keeps.fold ?_)
    | with_reducible assumption
    | with_reducible exact Keeps.refl _
    | with_reducible apply foldl_keeps
    | with_reducible apply Keeps.ite
    | with_reducible apply Keeps.iteFst
    | with_reducible apply Keeps.iteSnd
    | exact @rfl Nat _
    | exact List.length_set ..
    | intro _ _
    | intro (_ : Nat)
    | split
    | dsimp only

theorem setOwnMeas_keeps {s0 : State} (n : Nat) (m : Bytes) (s : State) (hu : Keeps s0 s) :
    Keeps s0 (setOwnMeas n m s) := by
  unfold setOwnMeas
  (try dsimp only)
  repeat first
    | (simp only [keeps_mk]; with_reducible refine Keeps.fold ?_)
    | with_reducible assumption
    | with_reducible exact Keeps.refl _
    | with_reducible apply setMeas_keeps
    | with_reducible apply foldl_keeps
    | with_reducible apply Keeps.ite
    | with_reducible apply Keeps.iteFst
    | with_reducible apply Keeps.iteSnd
    | exact @rfl Nat _
    | exact List.length_set ..
    | intro _ _
    | intro (_ : Nat)
    | split
    | dsimp only

theorem measureState_keeps {s0 : State} (strap : Bool) (s : State) (hu : Keeps s0 s) :
    Keeps s0 (measureState strap s) := by
  unfold measureState
  (try dsimp only)
  repeat first
    | (simp only [keeps_mk]; with_reducible refine Keeps.fold ?_)
    | with_reducible assumption
    | with_reducible exact Keeps.refl _
    | with_reducible apply setOwnMeas_keeps
    | with_reducible apply foldl_keeps
    | with_reducible apply Keeps.ite
    | with_reducible apply Keeps.iteFst
    | with_reducible apply Keeps.iteSnd
    | exact @rfl Nat _
    | exact List.length_set ..
    | intro _ _
    | intro (_ : Nat)
    | split
    | dsimp only

theorem checkFile_keeps {s0 : State} (s : State) (hu : Keeps s0 s) :
    Keeps s0 (checkFile s) := by
  unfold checkFile
  (try dsimp only)
  repeat first
    | (simp only [keeps_mk]; with_reducible refine Keeps.fold ?_)
    | with_reducible assumption
    | with_reducible exact Keeps.refl _
    | with_reducible apply loseFile_keeps
    | with_reducible apply writeFile_keeps
    | with_reducible apply evidence_keeps
    | with_reducible apply foldl_keeps
    | with_reducible apply Keeps.ite
    | with_reducible apply Keeps.iteFst
    | with_reducible apply Keeps.iteSnd
    | exact @rfl Nat _
    | exact List.length_set ..
    | intro _ _
    | intro (_ : Nat)
    | split
    | dsimp only

theorem countCycle_keeps {s0 : State} (s : State) (hu : Keeps s0 s) :
    Keeps s0 (countCycle s) := by
  unfold countCycle
  (try dsimp only)
  repeat first
    | (simp only [keeps_mk]; with_reducible refine Keeps.fold ?_)
    | with_reducible assumption
    | with_reducible exact Keeps.refl _
    | with_reducible apply foldl_keeps
    | with_reducible apply Keeps.ite
    | with_reducible apply Keeps.iteFst
    | with_reducible apply Keeps.iteSnd
    | exact @rfl Nat _
    | exact List.length_set ..
    | intro _ _
    | intro (_ : Nat)
    | split
    | dsimp only

theorem sampleStraps_keeps {s0 : State} (i : StartInput) (s : State) (hu : Keeps s0 s) :
    Keeps s0 (sampleStraps i s) := by
  unfold sampleStraps
  (try dsimp only)
  repeat first
    | (simp only [keeps_mk]; with_reducible refine Keeps.fold ?_)
    | with_reducible assumption
    | with_reducible exact Keeps.refl _
    | with_reducible apply foldl_keeps
    | with_reducible apply Keeps.ite
    | with_reducible apply Keeps.iteFst
    | with_reducible apply Keeps.iteSnd
    | exact @rfl Nat _
    | exact List.length_set ..
    | intro _ _
    | intro (_ : Nat)
    | split
    | dsimp only

theorem decodeLife_keeps {s0 : State} (agree : Bool) (s : State) (hu : Keeps s0 s) :
    Keeps s0 (decodeLife agree s) := by
  unfold decodeLife
  (try dsimp only)
  repeat first
    | (simp only [keeps_mk]; with_reducible refine Keeps.fold ?_)
    | with_reducible assumption
    | with_reducible exact Keeps.refl _
    | with_reducible apply trip_keeps
    | with_reducible apply foldl_keeps
    | with_reducible apply Keeps.ite
    | with_reducible apply Keeps.iteFst
    | with_reducible apply Keeps.iteSnd
    | exact @rfl Nat _
    | exact List.length_set ..
    | intro _ _
    | intro (_ : Nat)
    | split
    | dsimp only

theorem shutteredRng_keeps {s0 : State} (trips : List (BitVec 7 × List (BitVec 2))) (s : State) (hu : Keeps s0 s) :
    Keeps s0 (shutteredRng trips s) := by
  unfold shutteredRng
  (try dsimp only)
  repeat first
    | (simp only [keeps_mk]; with_reducible refine Keeps.fold ?_)
    | with_reducible assumption
    | with_reducible exact Keeps.refl _
    | with_reducible apply judgeSources_keeps
    | with_reducible apply fillMask_keeps
    | with_reducible apply startBeans_keeps
    | with_reducible apply firstCarafe_keeps
    | with_reducible apply startInstances_keeps
    | with_reducible apply foldl_keeps
    | with_reducible apply Keeps.ite
    | with_reducible apply Keeps.iteFst
    | with_reducible apply Keeps.iteSnd
    | exact @rfl Nat _
    | exact List.length_set ..
    | intro _ _
    | intro (_ : Nat)
    | split
    | dsimp only

theorem enterShuttered_keeps {s0 : State} (c : ShutterCause) (i : StartInput) (s : State) (hu : Keeps s0 s) :
    Keeps s0 (enterShuttered c i s) := by
  unfold enterShuttered
  (try dsimp only)
  repeat first
    | (simp only [keeps_mk]; with_reducible refine Keeps.fold ?_)
    | with_reducible assumption
    | with_reducible exact Keeps.refl _
    | with_reducible apply shutteredRng_keeps
    | with_reducible apply foldl_keeps
    | with_reducible apply Keeps.ite
    | with_reducible apply Keeps.iteFst
    | with_reducible apply Keeps.iteSnd
    | exact @rfl Nat _
    | exact List.length_set ..
    | intro _ _
    | intro (_ : Nat)
    | split
    | dsimp only

theorem useFirmware_keeps {s0 : State} (b : Bool) (alt : Bool) (f : Firmware) (s : State) (hu : Keeps s0 s) :
    Keeps s0 (useFirmware b alt f s) := by
  unfold useFirmware
  (try dsimp only)
  repeat first
    | (simp only [keeps_mk]; with_reducible refine Keeps.fold ?_)
    | with_reducible assumption
    | with_reducible exact Keeps.refl _
    | with_reducible apply tagStores_keeps
    | with_reducible apply setMeas_keeps
    | with_reducible apply foldl_keeps
    | with_reducible apply Keeps.ite
    | with_reducible apply Keeps.iteFst
    | with_reducible apply Keeps.iteSnd
    | exact @rfl Nat _
    | exact List.length_set ..
    | intro _ _
    | intro (_ : Nat)
    | split
    | dsimp only

theorem usePlan_own (b : Bool) (alt : Bool) (p : Plan) (s : State) : Keeps s (usePlan b alt p s) := by
  unfold usePlan
  extract_lets _ _ t _ u
  refine setMeas_keeps _ _ _ _ _ ?_
  have k : Keeps s t :=
    ⟨rfl, rfl, rfl, List.prefix_refl _, Burned.refl _, rfl, Nat.le_refl _, Nat.le_refl _, Nat.le_refl _, id, id, id, fun h => ⟨rfl, h.2⟩⟩
  exact Keeps.upd (s1 := t) rfl rfl k

theorem usePlan_keeps {s0 : State} (b : Bool) (alt : Bool) (p : Plan) (s : State) (hu : Keeps s0 s) :
    Keeps s0 (usePlan b alt p s) :=
  Keeps.trans hu (usePlan_own b alt p s)

theorem usePatch_keeps {s0 : State} (b : Bool) (alt : Bool) (p : Patch) (s : State) (hu : Keeps s0 s) :
    Keeps s0 (usePatch b alt p s) := by
  unfold usePatch
  (try dsimp only)
  repeat first
    | (simp only [keeps_mk]; with_reducible refine Keeps.fold ?_)
    | with_reducible assumption
    | with_reducible exact Keeps.refl _
    | with_reducible apply tagPatch_keeps
    | with_reducible apply setMeas_keeps
    | with_reducible apply foldl_keeps
    | with_reducible apply Keeps.ite
    | with_reducible apply Keeps.iteFst
    | with_reducible apply Keeps.iteSnd
    | exact @rfl Nat _
    | exact List.length_set ..
    | intro _ _
    | intro (_ : Nat)
    | split
    | dsimp only

theorem unpatched_keeps {s0 : State} (s : State) (hu : Keeps s0 s) :
    Keeps s0 (unpatched s) := by
  unfold unpatched
  (try dsimp only)
  repeat first
    | (simp only [keeps_mk]; with_reducible refine Keeps.fold ?_)
    | with_reducible assumption
    | with_reducible exact Keeps.refl _
    | with_reducible apply setMeas_keeps
    | with_reducible apply foldl_keeps
    | with_reducible apply Keeps.ite
    | with_reducible apply Keeps.iteFst
    | with_reducible apply Keeps.iteSnd
    | exact @rfl Nat _
    | exact List.length_set ..
    | intro _ _
    | intro (_ : Nat)
    | split
    | dsimp only

theorem startWipe_keeps {s0 : State} (s : State) (hu : Keeps s0 s) :
    Keeps s0 (startWipe s) := by
  unfold startWipe
  (try dsimp only)
  repeat first
    | (simp only [keeps_mk]; with_reducible refine Keeps.fold ?_)
    | with_reducible assumption
    | with_reducible exact Keeps.refl _
    | with_reducible apply wipeAll_keeps
    | with_reducible apply foldl_keeps
    | with_reducible apply Keeps.ite
    | with_reducible apply Keeps.iteFst
    | with_reducible apply Keeps.iteSnd
    | exact @rfl Nat _
    | exact List.length_set ..
    | intro _ _
    | intro (_ : Nat)
    | split
    | dsimp only

theorem repairTally_keeps {u : State} (s : State) (h : Keeps u s) : Keeps u (startTally.repairTally s) := by
  unfold startTally.repairTally
  split
  · exact h
  · refine Keeps.ite h ?_
    exact Keeps.upd (s1 := s) rfl rfl h

theorem startTally_own (s : State) : Keeps s (startTally s) := by
  unfold startTally
  exact closeFull_keeps _ (repairTally_keeps _ (Keeps.upd (s1 := s) rfl rfl (Keeps.refl s)))

theorem startTally_keeps {s0 : State} (s : State) (hu : Keeps s0 s) :
    Keeps s0 (startTally s) :=
  Keeps.trans hu (startTally_own s)

theorem dropMigrated_keeps {s0 : State} (s : State) (hu : Keeps s0 s) :
    Keeps s0 (dropMigrated s) := by
  unfold dropMigrated
  (try dsimp only)
  repeat first
    | (simp only [keeps_mk]; with_reducible refine Keeps.fold ?_)
    | with_reducible assumption
    | with_reducible exact Keeps.refl _
    | with_reducible apply foldl_keeps
    | with_reducible apply Keeps.ite
    | with_reducible apply Keeps.iteFst
    | with_reducible apply Keeps.iteSnd
    | exact @rfl Nat _
    | exact List.length_set ..
    | intro _ _
    | intro (_ : Nat)
    | split
    | dsimp only

theorem dropImported_keeps {s0 : State} (s : State) (hu : Keeps s0 s) :
    Keeps s0 (dropImported s) := by
  unfold dropImported
  (try dsimp only)
  repeat first
    | (simp only [keeps_mk]; with_reducible refine Keeps.fold ?_)
    | with_reducible assumption
    | with_reducible exact Keeps.refl _
    | with_reducible apply foldl_keeps
    | with_reducible apply Keeps.ite
    | with_reducible apply Keeps.iteFst
    | with_reducible apply Keeps.iteSnd
    | exact @rfl Nat _
    | exact List.length_set ..
    | intro _ _
    | intro (_ : Nat)
    | split
    | dsimp only

theorem startVault_keeps {s0 : State} (s : State) (hu : Keeps s0 s) :
    Keeps s0 (startVault s) := by
  unfold startVault
  (try dsimp only)
  repeat first
    | (simp only [keeps_mk]; with_reducible refine Keeps.fold ?_)
    | with_reducible assumption
    | with_reducible exact Keeps.refl _
    | with_reducible apply vaultStart_keeps
    | with_reducible apply dropImported_keeps
    | with_reducible apply dropMigrated_keeps
    | with_reducible apply foldl_keeps
    | with_reducible apply Keeps.ite
    | with_reducible apply Keeps.iteFst
    | with_reducible apply Keeps.iteSnd
    | exact @rfl Nat _
    | exact List.length_set ..
    | intro _ _
    | intro (_ : Nat)
    | split
    | dsimp only

theorem startEvidence_keeps {s0 : State} (s : State) (hu : Keeps s0 s) :
    Keeps s0 (startEvidence s) := by
  unfold startEvidence
  (try dsimp only)
  repeat first
    | (simp only [keeps_mk]; with_reducible refine Keeps.fold ?_)
    | with_reducible assumption
    | with_reducible exact Keeps.refl _
    | with_reducible apply appendEvidence_keeps
    | with_reducible apply foldl_keeps
    | with_reducible apply Keeps.ite
    | with_reducible apply Keeps.iteFst
    | with_reducible apply Keeps.iteSnd
    | exact @rfl Nat _
    | exact List.length_set ..
    | intro _ _
    | intro (_ : Nat)
    | split
    | dsimp only

theorem restorePitch_keeps {s0 : State} (s : State) (e : Nat × Pitch) (hu : Keeps s0 s) :
    Keeps s0 (restorePitch s e) := by
  unfold restorePitch
  (try dsimp only)
  repeat first
    | (simp only [keeps_mk]; with_reducible refine Keeps.fold ?_)
    | with_reducible assumption
    | with_reducible exact Keeps.refl _
    | with_reducible apply State.setPitch_keeps
    | with_reducible apply foldl_keeps
    | with_reducible apply Keeps.ite
    | with_reducible apply Keeps.iteFst
    | with_reducible apply Keeps.iteSnd
    | exact @rfl Nat _
    | exact List.length_set ..
    | intro _ _
    | intro (_ : Nat)
    | split
    | dsimp only

theorem restoreDormant_own (d : DormantRecord) (s : State) : Keeps s (restoreDormant d s) := by
  unfold restoreDormant
  extract_lets u lk
  have k : Keeps s u := foldl_keeps (fun _ _ => restorePitch_keeps _ _ (Keeps.refl _)) (Keeps.refl _)
  unfold restoreDormant.restoreBindings
  refine foldl_keeps (fun _ _ => bindCaches_keeps _ _ _ (Keeps.refl _)) (writeFile_keeps _ _ (Keeps.trans k ?_))
  refine ⟨rfl, rfl, rfl, List.prefix_refl _, Burned.refl _, rfl, Nat.le_refl _, Nat.le_refl _, Nat.le_refl _, id, id, id,
    fun h => ⟨?_, rfl⟩⟩
  have e : ((u.stream.ports.zip (List.range u.stream.ports.length))).length = u.stream.ports.length := by
    rw [List.length_zip, List.length_range, Nat.min_self]
  exact ((List.length_map _).trans e).trans h.1

theorem restoreDormant_keeps {s0 : State} (d : DormantRecord) (s : State) (hu : Keeps s0 s) :
    Keeps s0 (restoreDormant d s) :=
  Keeps.trans hu (restoreDormant_own d s)

theorem startDormant_own (back : Bool) (s : State) : Keeps s (startDormant back s) := by
  unfold startDormant
  split
  · refine Keeps.ite (restoreDormant_own _ s) (writeFile_keeps _ _ ?_)
    exact ⟨rfl, rfl, rfl, List.prefix_refl _, Burned.refl _, rfl, Nat.le_refl _, Nat.le_refl _, Nat.le_refl _, id, id, id, fun h => ⟨h.1, rfl⟩⟩
  · exact Keeps.ite (writeFile_keeps _ _ (Keeps.refl _)) (Keeps.refl _)

theorem startDormant_keeps {s0 : State} (back : Bool) (s : State) (hu : Keeps s0 s) :
    Keeps s0 (startDormant back s) :=
  Keeps.trans hu (startDormant_own back s)

theorem startResponses_keeps {s0 : State} (s : State) (hu : Keeps s0 s) :
    Keeps s0 (startResponses s) := by
  unfold startResponses
  (try dsimp only)
  repeat first
    | (simp only [keeps_mk]; with_reducible refine Keeps.fold ?_)
    | with_reducible assumption
    | with_reducible exact Keeps.refl _
    | with_reducible apply writeFile_keeps
    | with_reducible apply foldl_keeps
    | with_reducible apply Keeps.ite
    | with_reducible apply Keeps.iteFst
    | with_reducible apply Keeps.iteSnd
    | exact @rfl Nat _
    | exact List.length_set ..
    | intro _ _
    | intro (_ : Nat)
    | split
    | dsimp only

theorem startJournals_keeps {s0 : State} (back : Bool) (s : State) (hu : Keeps s0 s) :
    Keeps s0 (startJournals back s) := by
  unfold startJournals
  (try dsimp only)
  repeat first
    | (simp only [keeps_mk]; with_reducible refine Keeps.fold ?_)
    | with_reducible assumption
    | with_reducible exact Keeps.refl _
    | with_reducible apply startTally_keeps
    | with_reducible apply finishClear_keeps
    | with_reducible apply startWipe_keeps
    | with_reducible apply startResponses_keeps
    | with_reducible apply startDormant_keeps
    | with_reducible apply startEvidence_keeps
    | with_reducible apply startVault_keeps
    | with_reducible apply foldl_keeps
    | with_reducible apply Keeps.ite
    | with_reducible apply Keeps.iteFst
    | with_reducible apply Keeps.iteSnd
    | exact @rfl Nat _
    | exact List.length_set ..
    | intro _ _
    | intro (_ : Nat)
    | split
    | dsimp only

theorem noteFailed_keeps {s0 : State} (s : State) (hu : Keeps s0 s) :
    Keeps s0 (noteFailed s) := by
  unfold noteFailed
  (try dsimp only)
  repeat first
    | (simp only [keeps_mk]; with_reducible refine Keeps.fold ?_)
    | with_reducible assumption
    | with_reducible exact Keeps.refl _
    | with_reducible apply note_keeps
    | with_reducible apply foldl_keeps
    | with_reducible apply Keeps.ite
    | with_reducible apply Keeps.iteFst
    | with_reducible apply Keeps.iteSnd
    | exact @rfl Nat _
    | exact List.length_set ..
    | intro _ _
    | intro (_ : Nat)
    | split
    | dsimp only

theorem trainLinks_keeps (s : State) :
    Keeps s { s with links := { s.links with link := s.links.link.map (fun (l : Link) => { l with state := .training }) } } :=
  Keeps.links (s1 := s) rfl rfl (List.length_map ..) (Keeps.refl s)

theorem reachReady_own (s : State) : Keeps s (reachReady s) := by
  unfold reachReady
  split
  rename_i us s1 e1
  split
  rename_i delay s2 e2
  extract_lets ms u _ s3 _ sl _ s4 b _ _ _ s5 s6 _ s7
  have k1 := drawFree_keeps s (Keeps.refl s)
  rw [e1] at k1
  have k2 := drawFree_keeps s1 k1
  rw [e2] at k2
  have ku : Keeps s u := foldl_keeps (fun _ _ => markBank_keeps _ _ _ _ (Keeps.refl _)) k2
  have k3 : Keeps s s3 := Keeps.ite (Keeps.upd (s1 := u) rfl rfl ku) k2
  have kl : Keeps s sl := Keeps.upd (s1 := s3) rfl rfl k3
  have k4 : Keeps s s4 := Keeps.trans kl (trainLinks_keeps sl)
  have k5 : Keeps s s5 := Keeps.upd (s1 := s4) rfl rfl k4
  have k6 : Keeps s s6 := Keeps.ite (planInt_keeps _ _ k5) k5
  have k7 : Keeps s s7 := Keeps.ite (Keeps.upd (s1 := s6) rfl rfl k6) k6
  exact note_keeps _ _ _ _ (noteFailed_keeps _ k7)

/-- What a step of the start keeps, whether it fails or not. -/
abbrev StepKeeps (s : State) (r : StartStep) : Prop := Sum.elim (fun e => Keeps s e.2) (Keeps s) r

theorem reachReady_keeps {s0 : State} (s : State) (hu : Keeps s0 s) :
    Keeps s0 (reachReady s) :=
  Keeps.trans hu (reachReady_own s)

theorem startPace_keeps {s0 : State} (s : State) (hu : Keeps s0 s) :
    Keeps s0 (startPace s) := by
  unfold startPace
  (try dsimp only)
  repeat first
    | (simp only [keeps_mk]; with_reducible refine Keeps.fold ?_)
    | with_reducible assumption
    | with_reducible exact Keeps.refl _
    | with_reducible apply foldl_keeps
    | with_reducible apply Keeps.ite
    | with_reducible apply Keeps.iteFst
    | with_reducible apply Keeps.iteSnd
    | exact @rfl Nat _
    | exact List.length_set ..
    | intro _ _
    | intro (_ : Nat)
    | split
    | dsimp only

theorem raiseAttempts_keeps {s0 : State} (s : State) (hu : Keeps s0 s) :
    Keeps s0 (raiseAttempts s) := by
  unfold raiseAttempts
  (try dsimp only)
  repeat first
    | (simp only [keeps_mk]; with_reducible refine Keeps.fold ?_)
    | with_reducible assumption
    | with_reducible exact Keeps.refl _
    | with_reducible apply writeFile_keeps
    | with_reducible apply foldl_keeps
    | with_reducible apply Keeps.ite
    | with_reducible apply Keeps.iteFst
    | with_reducible apply Keeps.iteSnd
    | exact @rfl Nat _
    | exact List.length_set ..
    | intro _ _
    | intro (_ : Nat)
    | split
    | dsimp only

theorem thenStep_keeps {s : State} {r : StartStep} {f : State → StartStep} (h : StepKeeps s r) (hf : ∀ t, StepKeeps t (f t)) :
    StepKeeps s (thenStep r f) := by
  unfold thenStep
  cases r with
  | inl e => exact h
  | inr t =>
    have g := hf t
    show StepKeeps s (f t)
    cases e : f t with
    | inl e' => rw [e] at g; exact Keeps.trans h g
    | inr t' => rw [e] at g; exact Keeps.trans h g

theorem startFirmware_keeps (i : StartInput) (s : State) : StepKeeps s (startFirmware i s) := by
  unfold startFirmware
  split
  · exact Keeps.refl s
  · extract_lets c _ t
    have k : Keeps s t := by
      unfold t
      split
      · exact Keeps.upd (s1 := s) rfl rfl (Keeps.refl s)
      · exact Keeps.refl s
    split
    · exact k
    · split <;> exact useFirmware_keeps _ _ _ _ k

theorem startPlan_keeps (s : State) : StepKeeps s (startPlan s) := by
  unfold startPlan
  extract_lets _ t c u
  have kt : Keeps s t := Keeps.upd (s1 := s) rfl rfl (Keeps.refl s)
  have k : Keeps s u := foldl_keeps (fun _ _ => planError_keeps _ _ _ _ (Keeps.refl _)) kt
  split
  · exact k
  · exact usePlan_keeps _ _ _ _ k

theorem startPatch_keeps (i : StartInput) (s : State) : StepKeeps s (startPatch i s) := by
  unfold startPatch
  extract_lets c u
  have k : Keeps s u := foldl_keeps (fun _ _ => patchError_keeps _ _ _ _ (Keeps.refl _)) (Keeps.refl _)
  split
  · exact measureState_keeps _ _ (usePatch_keeps _ _ _ _ k)
  · split
    · exact measureState_keeps _ _ (unpatched_keeps _ k)
    · exact k

theorem startRng_keeps (i : StartInput) (s : State) : StepKeeps s (startRng i s) := by
  unfold startRng
  have k := rngStart_keeps i.beanTrips s (Keeps.refl s)
  split <;> rename_i e <;> rw [e] at k <;> exact k

theorem startTests_keeps (i : StartInput) (s : State) : StepKeeps s (startTests i s) := by
  unfold startTests
  extract_lets ts es u v _
  have k : Keeps s v := foldl_keeps (fun _ _ => retireEngine_keeps _ _ _ (Keeps.refl _))
    (foldl_keeps (fun _ _ => retireTile_keeps _ _ (Keeps.refl _)) (Keeps.refl _))
  split
  · exact Keeps.refl s
  · exact Keeps.upd (s1 := v) rfl rfl k

theorem startSteps_keeps (i : StartInput) (s : State) : StepKeeps s (startSteps i s) := by
  unfold startSteps
  have k : StepKeeps s (if i.romOk then startFirmware i s else .inl (0x0101, s)) := by
    split
    · exact startFirmware_keeps _ _
    · exact Keeps.refl s
  exact thenStep_keeps (thenStep_keeps (thenStep_keeps (thenStep_keeps k startPlan_keeps) (startPatch_keeps i)) (startRng_keeps i))
    (startTests_keeps i)

theorem startOn_own (i : StartInput) (s : State) : Keeps s (startOn i s) := by
  unfold startOn
  extract_lets back t
  have kt : Keeps s t := raiseAttempts_keeps _ (Keeps.refl s)
  split
  · exact Keeps.upd (s1 := t) rfl rfl kt
  · have k := startSteps_keeps i t
    split <;> rename_i e <;> rw [e] at k
    · exact startFails_keeps _ _ (Keeps.trans kt k)
    · exact reachReady_keeps _ (startJournals_keeps _ _ (Keeps.trans kt k))

theorem startOn_keeps {s0 : State} (i : StartInput) (s : State) (hu : Keeps s0 s) :
    Keeps s0 (startOn i s) :=
  Keeps.trans hu (startOn_own i s)

theorem startSequence_keeps {s0 : State} (i : StartInput) (s : State) (hu : Keeps s0 s) :
    Keeps s0 (startSequence i s) := by
  unfold startSequence
  (try dsimp only)
  repeat first
    | (simp only [keeps_mk]; with_reducible refine Keeps.fold ?_)
    | with_reducible assumption
    | with_reducible exact Keeps.refl _
    | with_reducible apply sampleStraps_keeps
    | with_reducible apply checkFile_keeps
    | with_reducible apply countCycle_keeps
    | with_reducible apply setOwnMeas_keeps
    | with_reducible apply startPace_keeps
    | with_reducible apply decodeLife_keeps
    | with_reducible apply recordFailure_keeps
    | with_reducible apply startWipe_keeps
    | with_reducible apply writeFile_keeps
    | with_reducible apply enterShuttered_keeps
    | with_reducible apply startOn_keeps
    | with_reducible apply foldl_keeps
    | with_reducible apply Keeps.ite
    | with_reducible apply Keeps.iteFst
    | with_reducible apply Keeps.iteSnd
    | exact @rfl Nat _
    | exact List.length_set ..
    | intro _ _
    | intro (_ : Nat)
    | split
    | dsimp only

theorem powerOn_keeps {s0 : State} (i : StartInput) (s : State) (hu : Keeps s0 s) :
    Keeps s0 (powerOn i s) := by
  unfold powerOn
  (try dsimp only)
  repeat first
    | (simp only [keeps_mk]; with_reducible refine Keeps.fold ?_)
    | with_reducible assumption
    | with_reducible exact Keeps.refl _
    | with_reducible apply startSequence_keeps
    | with_reducible apply foldl_keeps
    | with_reducible apply Keeps.ite
    | with_reducible apply Keeps.iteFst
    | with_reducible apply Keeps.iteSnd
    | exact @rfl Nat _
    | exact List.length_set ..
    | intro _ _
    | intro (_ : Nat)
    | split
    | dsimp only

theorem startTimeout_keeps {s0 : State} (s : State) (hu : Keeps s0 s) :
    Keeps s0 (startTimeout s) := by
  unfold startTimeout
  (try dsimp only)
  repeat first
    | (simp only [keeps_mk]; with_reducible refine Keeps.fold ?_)
    | with_reducible assumption
    | with_reducible exact Keeps.refl _
    | with_reducible apply startFails_keeps
    | with_reducible apply raiseAttempts_keeps
    | with_reducible apply foldl_keeps
    | with_reducible apply Keeps.ite
    | with_reducible apply Keeps.iteFst
    | with_reducible apply Keeps.iteSnd
    | exact @rfl Nat _
    | exact List.length_set ..
    | intro _ _
    | intro (_ : Nat)
    | split
    | dsimp only

theorem restart_keeps {s0 : State} (i : StartInput) (s : State) (hu : Keeps s0 s) :
    Keeps s0 (restart i s) := by
  unfold restart
  (try dsimp only)
  repeat first
    | (simp only [keeps_mk]; with_reducible refine Keeps.fold ?_)
    | with_reducible assumption
    | with_reducible exact Keeps.refl _
    | with_reducible apply startSequence_keeps
    | with_reducible apply resetPins_keeps
    | with_reducible apply logicReset_keeps
    | with_reducible apply cutJobs_keeps
    | with_reducible apply foldl_keeps
    | with_reducible apply Keeps.ite
    | with_reducible apply Keeps.iteFst
    | with_reducible apply Keeps.iteSnd
    | exact @rfl Nat _
    | exact List.length_set ..
    | intro _ _
    | intro (_ : Nat)
    | split
    | dsimp only

end Sys2Proof.Machine
end

