-- ==== Sys2Proof/Laws/KeepsTick.lean ====
section
/-! SUPPORT. What the functions of Machine/Tick.lean keep (Laws/Keeps.lean). -/
namespace Sys2Proof.Machine

-- One theorem after another: a thread for each that waits would fill the memory.
set_option Elab.async false

theorem tickOptime_keeps {s0 : State} (s : State) (hu : Keeps s0 s) :
    Keeps s0 (tickOptime s) := by
  unfold tickOptime
  (try dsimp only)
  repeat first
    | (simp only [keeps_mk]; with_reducible refine Keeps.fold ?_)
    | with_reducible assumption
    | with_reducible exact Keeps.refl _
    | with_reducible apply foldl_keeps
    | with_reducible apply Keeps.ite
    | with_reducible apply Keeps.iteFst
    | with_reducible apply Keeps.iteSnd
    | exact @rfl Nat _
    | exact List.length_set ..
    | intro _ _
    | intro (_ : Nat)
    | split
    | dsimp only

theorem tickBattery_keeps {s0 : State} (s : State) (hu : Keeps s0 s) :
    Keeps s0 (tickBattery s) := by
  unfold tickBattery
  (try dsimp only)
  repeat first
    | (simp only [keeps_mk]; with_reducible refine Keeps.fold ?_)
    | with_reducible assumption
    | with_reducible exact Keeps.refl _
    | with_reducible apply foldl_keeps
    | with_reducible apply Keeps.ite
    | with_reducible apply Keeps.iteFst
    | with_reducible apply Keeps.iteSnd
    | exact @rfl Nat _
    | exact List.length_set ..
    | intro _ _
    | intro (_ : Nat)
    | split
    | dsimp only

theorem tickTime_own (s : State) : Keeps s (tickTime s) := by
  unfold tickTime
  refine Keeps.ite (Keeps.refl s) ?_
  exact Keeps.upd (s1 := s) rfl rfl (Keeps.refl s)

theorem tickTime_keeps {s0 : State} (s : State) (hu : Keeps s0 s) :
    Keeps s0 (tickTime s) :=
  Keeps.trans hu (tickTime_own s)

theorem tickEgress_own (s : State) : Keeps s (tickEgress s) :=
  Keeps.ports (s1 := s) rfl rfl (List.length_map ..) (Keeps.refl s)

theorem tickEgress_keeps {s0 : State} (s : State) (hu : Keeps s0 s) :
    Keeps s0 (tickEgress s) :=
  Keeps.trans hu (tickEgress_own s)

theorem tickRails_keeps {s0 : State} (s : State) (hu : Keeps s0 s) :
    Keeps s0 (tickRails s) := by
  unfold tickRails
  (try dsimp only)
  repeat first
    | (simp only [keeps_mk]; with_reducible refine Keeps.fold ?_)
    | with_reducible assumption
    | with_reducible exact Keeps.refl _
    | with_reducible apply readRails_keeps
    | with_reducible apply foldl_keeps
    | with_reducible apply Keeps.ite
    | with_reducible apply Keeps.iteFst
    | with_reducible apply Keeps.iteSnd
    | exact @rfl Nat _
    | exact List.length_set ..
    | intro _ _
    | intro (_ : Nat)
    | split
    | dsimp only

theorem clockUs_keeps {s0 : State} (s : State) (hu : Keeps s0 s) : Keeps s0 { s with clock := { s.clock with us := s.clock.us + 1 } } :=
  Keeps.evidence (s1 := s) rfl rfl (writtenOf_mono _ _ _ (Nat.le_succ _)) hu

theorem tick_keeps {s0 : State} (s : State) (hu : Keeps s0 s) : Keeps s0 (tick s) := by
  unfold tick
  exact tickKeeper_keeps _ (seqTick_keeps _ (tickRails_keeps _ (tickEgress_keeps _ (tickTime_keeps _ (tickBattery_keeps _
    (tickOptime_keeps _ (clockUs_keeps _ hu)))))))

end Sys2Proof.Machine
end

