-- ==== Sys2Proof/Laws/KeepsExec.lean ====
section
/-! SUPPORT. Every command answers a next state that keeps what `Keeps` says: one lemma for each meaning, and `exec_ok` for all of
them. -/
namespace Sys2Proof.Machine

-- One theorem after another: a thread for each that waits would fill the memory.
set_option Elab.async false
/-- A command that goes on: it answers a next state that keeps what `Keeps` says of the state before. -/
def OK (s : State) (o : Host.Outcome State Fault Refusal) : Prop := ∃ t, o = .next t ∧ Keeps s t
theorem next_ok {s t} (h : Keeps s t) : OK s (.next t) := ⟨t, rfl, h⟩
theorem act_ok {s t : State} (h : Keeps s t) : OK s (act s t) := ⟨_, rfl, settle_keeps h⟩
theorem hostAct_ok {s t : State} (h : Keeps s t) : OK s (hostAct s t) := act_ok (Keeps.ite h (Keeps.refl _))

theorem execMlkemKeygen_ok (j : JobId) (s : State) : OK s (execMlkemKeygen j s) :=
  act_ok (startJob_keeps _ _ _ mlkemKeygenSpec_keeps (.refl _))

theorem execMlkemEncaps_ok (j : JobId) (s : State) : OK s (execMlkemEncaps j s) :=
  act_ok (startJob_keeps _ _ _ mlkemEncapsSpec_keeps (.refl _))

theorem execMlkemDecaps_ok (j : JobId) (s : State) : OK s (execMlkemDecaps j s) :=
  act_ok (startJob_keeps _ _ _ mlkemDecapsSpec_keeps (.refl _))

theorem execMlkemPubkey_ok (j : JobId) (s : State) : OK s (execMlkemPubkey j s) :=
  act_ok (startJob_keeps _ _ _ mlkemPubkeySpec_keeps (.refl _))

theorem execMldsaKeygen_ok (j : JobId) (s : State) : OK s (execMldsaKeygen j s) :=
  act_ok (startJob_keeps _ _ _ mldsaKeygenSpec_keeps (.refl _))

theorem execMldsaSign_ok (j : JobId) (s : State) : OK s (execMldsaSign j s) :=
  act_ok (startJob_keeps _ _ _ mldsaSignSpec_keeps (.refl _))

theorem execMldsaVerify_ok (j : JobId) (s : State) : OK s (execMldsaVerify j s) :=
  act_ok (startJob_keeps _ _ _ mldsaVerifySpec_keeps (.refl _))

theorem execMldsaPubkey_ok (j : JobId) (s : State) : OK s (execMldsaPubkey j s) :=
  act_ok (startJob_keeps _ _ _ mldsaPubkeySpec_keeps (.refl _))

theorem execFndsaKeygen_ok (j : JobId) (s : State) : OK s (execFndsaKeygen j s) :=
  act_ok (startJob_keeps _ _ _ fndsaKeygenSpec_keeps (.refl _))

theorem execFndsaSign_ok (j : JobId) (s : State) : OK s (execFndsaSign j s) :=
  act_ok (startJob_keeps _ _ _ fndsaSignSpec_keeps (.refl _))

theorem execFndsaVerify_ok (j : JobId) (s : State) : OK s (execFndsaVerify j s) :=
  act_ok (startJob_keeps _ _ _ fndsaVerifySpec_keeps (.refl _))

theorem execFndsaPubkey_ok (j : JobId) (s : State) : OK s (execFndsaPubkey j s) :=
  act_ok (startJob_keeps _ _ _ fndsaPubkeySpec_keeps (.refl _))

theorem execSlhdsaKeygen_ok (j : JobId) (s : State) : OK s (execSlhdsaKeygen j s) :=
  act_ok (startJob_keeps _ _ _ slhdsaKeygenSpec_keeps (.refl _))

theorem execSlhdsaSign_ok (j : JobId) (s : State) : OK s (execSlhdsaSign j s) :=
  act_ok (startJob_keeps _ _ _ slhdsaSignSpec_keeps (.refl _))

theorem execSlhdsaVerify_ok (j : JobId) (s : State) : OK s (execSlhdsaVerify j s) :=
  act_ok (startJob_keeps _ _ _ slhdsaVerifySpec_keeps (.refl _))

theorem execSlhdsaPubkey_ok (j : JobId) (s : State) : OK s (execSlhdsaPubkey j s) :=
  act_ok (startJob_keeps _ _ _ slhdsaPubkeySpec_keeps (.refl _))

theorem execLmsKeygen_ok (j : JobId) (s : State) : OK s (execLmsKeygen j s) :=
  act_ok (startJob_keeps _ _ _ (treeKeygenSpec_keeps _) (.refl _))

theorem execLmsSign_ok (j : JobId) (s : State) : OK s (execLmsSign j s) :=
  act_ok (startJob_keeps _ _ _ (treeSignSpec_keeps _) (.refl _))

theorem execLmsVerify_ok (j : JobId) (s : State) : OK s (execLmsVerify j s) :=
  act_ok (startJob_keeps _ _ _ (treeVerifySpec_keeps _) (.refl _))

theorem execLmsPubkey_ok (j : JobId) (s : State) : OK s (execLmsPubkey j s) :=
  act_ok (startJob_keeps _ _ _ (treePubkeySpec_keeps _) (.refl _))

theorem execXmssKeygen_ok (j : JobId) (s : State) : OK s (execXmssKeygen j s) :=
  act_ok (startJob_keeps _ _ _ (treeKeygenSpec_keeps _) (.refl _))

theorem execXmssSign_ok (j : JobId) (s : State) : OK s (execXmssSign j s) :=
  act_ok (startJob_keeps _ _ _ (treeSignSpec_keeps _) (.refl _))

theorem execXmssVerify_ok (j : JobId) (s : State) : OK s (execXmssVerify j s) :=
  act_ok (startJob_keeps _ _ _ (treeVerifySpec_keeps _) (.refl _))

theorem execXmssPubkey_ok (j : JobId) (s : State) : OK s (execXmssPubkey j s) :=
  act_ok (startJob_keeps _ _ _ (treePubkeySpec_keeps _) (.refl _))

theorem execXmssmtKeygen_ok (j : JobId) (s : State) : OK s (execXmssmtKeygen j s) :=
  act_ok (startJob_keeps _ _ _ (treeKeygenSpec_keeps _) (.refl _))

theorem execXmssmtSign_ok (j : JobId) (s : State) : OK s (execXmssmtSign j s) :=
  act_ok (startJob_keeps _ _ _ (treeSignSpec_keeps _) (.refl _))

theorem execXmssmtVerify_ok (j : JobId) (s : State) : OK s (execXmssmtVerify j s) :=
  act_ok (startJob_keeps _ _ _ (treeVerifySpec_keeps _) (.refl _))

theorem execXmssmtPubkey_ok (j : JobId) (s : State) : OK s (execXmssmtPubkey j s) :=
  act_ok (startJob_keeps _ _ _ (treePubkeySpec_keeps _) (.refl _))

theorem execHsStateBind_ok (j : JobId) (s : State) : OK s (execHsStateBind j s) :=
  act_ok (startJob_keeps _ _ _ hsStateBindSpec_keeps (.refl _))

theorem execHsStateQuery_ok (j : JobId) (s : State) : OK s (execHsStateQuery j s) :=
  act_ok (startJob_keeps _ _ _ hsStateQuerySpec_keeps (.refl _))

theorem execDigest_ok (j : JobId) (s : State) : OK s (execDigest j s) :=
  act_ok (startJob_keeps _ _ _ digestSpec_keeps (.refl _))

theorem execDigestKey_ok (j : JobId) (s : State) : OK s (execDigestKey j s) :=
  act_ok (startJob_keeps _ _ _ digestKeySpec_keeps (.refl _))

theorem execAesEncrypt_ok (j : JobId) (s : State) : OK s (execAesEncrypt j s) :=
  act_ok (startJob_keeps _ _ _ (aesSpec_keeps _) (.refl _))

theorem execAesDecrypt_ok (j : JobId) (s : State) : OK s (execAesDecrypt j s) :=
  act_ok (startJob_keeps _ _ _ (aesSpec_keeps _) (.refl _))

theorem execHqcKeygen_ok (j : JobId) (s : State) : OK s (execHqcKeygen j s) :=
  act_ok (startJob_keeps _ _ _ hqcKeygenSpec_keeps (.refl _))

theorem execHqcEncaps_ok (j : JobId) (s : State) : OK s (execHqcEncaps j s) :=
  act_ok (startJob_keeps _ _ _ hqcEncapsSpec_keeps (.refl _))

theorem execHqcDecaps_ok (j : JobId) (s : State) : OK s (execHqcDecaps j s) :=
  act_ok (startJob_keeps _ _ _ hqcDecapsSpec_keeps (.refl _))

theorem execHqcPubkey_ok (j : JobId) (s : State) : OK s (execHqcPubkey j s) :=
  act_ok (startJob_keeps _ _ _ hqcPubkeySpec_keeps (.refl _))

theorem execMceKeygen_ok (j : JobId) (s : State) : OK s (execMceKeygen j s) :=
  act_ok (startJob_keeps _ _ _ mceKeygenSpec_keeps (.refl _))

theorem execMceEncaps_ok (j : JobId) (s : State) : OK s (execMceEncaps j s) :=
  act_ok (startJob_keeps _ _ _ mceEncapsSpec_keeps (.refl _))

theorem execMceDecaps_ok (j : JobId) (s : State) : OK s (execMceDecaps j s) :=
  act_ok (startJob_keeps _ _ _ mceDecapsSpec_keeps (.refl _))

theorem execMcePubkey_ok (j : JobId) (s : State) : OK s (execMcePubkey j s) :=
  act_ok (startJob_keeps _ _ _ mcePubkeySpec_keeps (.refl _))

theorem execMcePkPin_ok (j : JobId) (s : State) : OK s (execMcePkPin j s) :=
  act_ok (startJob_keeps _ _ _ mcePkPinSpec_keeps (.refl _))

theorem execEcKeygen_ok (j : JobId) (s : State) : OK s (execEcKeygen j s) :=
  act_ok (startJob_keeps _ _ _ ecKeygenSpec_keeps (.refl _))

theorem execEcdsaSign_ok (j : JobId) (s : State) : OK s (execEcdsaSign j s) :=
  act_ok (startJob_keeps _ _ _ ecdsaSignSpec_keeps (.refl _))

theorem execEcdsaVerify_ok (j : JobId) (s : State) : OK s (execEcdsaVerify j s) :=
  act_ok (startJob_keeps _ _ _ ecdsaVerifySpec_keeps (.refl _))

theorem execEcdh_ok (j : JobId) (s : State) : OK s (execEcdh j s) :=
  act_ok (startJob_keeps _ _ _ ecdhSpec_keeps (.refl _))

theorem execEcPubkey_ok (j : JobId) (s : State) : OK s (execEcPubkey j s) :=
  act_ok (startJob_keeps _ _ _ ecPubkeySpec_keeps (.refl _))

theorem execEddsaKeygen_ok (j : JobId) (s : State) : OK s (execEddsaKeygen j s) :=
  act_ok (startJob_keeps _ _ _ eddsaKeygenSpec_keeps (.refl _))

theorem execEddsaSign_ok (j : JobId) (s : State) : OK s (execEddsaSign j s) :=
  act_ok (startJob_keeps _ _ _ eddsaSignSpec_keeps (.refl _))

theorem execEddsaVerify_ok (j : JobId) (s : State) : OK s (execEddsaVerify j s) :=
  act_ok (startJob_keeps _ _ _ eddsaVerifySpec_keeps (.refl _))

theorem execEddsaPubkey_ok (j : JobId) (s : State) : OK s (execEddsaPubkey j s) :=
  act_ok (startJob_keeps _ _ _ eddsaPubkeySpec_keeps (.refl _))

theorem execXdhKeygen_ok (j : JobId) (s : State) : OK s (execXdhKeygen j s) :=
  act_ok (startJob_keeps _ _ _ xdhKeygenSpec_keeps (.refl _))

theorem execXdh_ok (j : JobId) (s : State) : OK s (execXdh j s) :=
  act_ok (startJob_keeps _ _ _ xdhSpec_keeps (.refl _))

theorem execXdhPubkey_ok (j : JobId) (s : State) : OK s (execXdhPubkey j s) :=
  act_ok (startJob_keeps _ _ _ xdhPubkeySpec_keeps (.refl _))

theorem execRsaKeygen_ok (j : JobId) (s : State) : OK s (execRsaKeygen j s) :=
  act_ok (startJob_keeps _ _ _ rsaKeygenSpec_keeps (.refl _))

theorem execRsaSign_ok (j : JobId) (s : State) : OK s (execRsaSign j s) :=
  act_ok (startJob_keeps _ _ _ rsaSignSpec_keeps (.refl _))

theorem execRsaVerify_ok (j : JobId) (s : State) : OK s (execRsaVerify j s) :=
  act_ok (startJob_keeps _ _ _ rsaVerifySpec_keeps (.refl _))

theorem execRsaEncrypt_ok (j : JobId) (s : State) : OK s (execRsaEncrypt j s) :=
  act_ok (startJob_keeps _ _ _ rsaEncryptSpec_keeps (.refl _))

theorem execRsaDecrypt_ok (j : JobId) (s : State) : OK s (execRsaDecrypt j s) :=
  act_ok (startJob_keeps _ _ _ rsaDecryptSpec_keeps (.refl _))

theorem execRsaPubkey_ok (j : JobId) (s : State) : OK s (execRsaPubkey j s) :=
  act_ok (startJob_keeps _ _ _ rsaPubkeySpec_keeps (.refl _))

theorem execDhKeygen_ok (j : JobId) (s : State) : OK s (execDhKeygen j s) :=
  act_ok (startJob_keeps _ _ _ dhKeygenSpec_keeps (.refl _))

theorem execDh_ok (j : JobId) (s : State) : OK s (execDh j s) :=
  act_ok (startJob_keeps _ _ _ dhSpec_keeps (.refl _))

theorem execDhPubkey_ok (j : JobId) (s : State) : OK s (execDhPubkey j s) :=
  act_ok (startJob_keeps _ _ _ dhPubkeySpec_keeps (.refl _))

theorem execCurveLoad_ok (j : JobId) (s : State) : OK s (execCurveLoad j s) :=
  act_ok (startJob_keeps _ _ _ curveLoadSpec_keeps (.refl _))

theorem execRngGenerate_ok (j : JobId) (s : State) : OK s (execRngGenerate j s) :=
  act_ok (startJob_keeps _ _ _ rngGenerateSpec_keeps (.refl _))

theorem execDrbgReseed_ok (j : JobId) (s : State) : OK s (execDrbgReseed j s) :=
  act_ok (startJob_keeps _ _ _ drbgReseedSpec_keeps (.refl _))

theorem execDrbgInstantiate_ok (j : JobId) (s : State) : OK s (execDrbgInstantiate j s) :=
  act_ok (startJob_keeps _ _ _ drbgInstantiateSpec_keeps (.refl _))

theorem execDrbgInfo_ok (j : JobId) (s : State) : OK s (execDrbgInfo j s) :=
  act_ok (startJob_keeps _ _ _ drbgInfoSpec_keeps (.refl _))

theorem execRngRaw_ok (j : JobId) (s : State) : OK s (execRngRaw j s) :=
  act_ok (startJob_keeps _ _ _ rngRawSpec_keeps (.refl _))

theorem execVaultImport_ok (j : JobId) (s : State) : OK s (execVaultImport j s) :=
  act_ok (startJob_keeps _ _ _ vaultImportSpec_keeps (.refl _))

theorem execVaultExport_ok (j : JobId) (s : State) : OK s (execVaultExport j s) :=
  act_ok (startJob_keeps _ _ _ vaultExportSpec_keeps (.refl _))

theorem execVaultDelete_ok (j : JobId) (s : State) : OK s (execVaultDelete j s) :=
  act_ok (startJob_keeps _ _ _ vaultDeleteSpec_keeps (.refl _))

theorem execVaultInfo_ok (j : JobId) (s : State) : OK s (execVaultInfo j s) :=
  act_ok (startJob_keeps _ _ _ vaultInfoSpec_keeps (.refl _))

theorem execVaultDerive_ok (j : JobId) (s : State) : OK s (execVaultDerive j s) :=
  act_ok (startJob_keeps _ _ _ vaultDeriveSpec_keeps (.refl _))

theorem execVaultModify_ok (j : JobId) (s : State) : OK s (execVaultModify j s) :=
  act_ok (startJob_keeps _ _ _ vaultModifySpec_keeps (.refl _))

theorem execNvWriteDone_ok (j : JobId) (same : Bool) (s : State) : OK s (execNvWriteDone j same s) :=
  act_ok (nvWriteDone_keeps _ _ _ (.refl _))

theorem execFlowCreate_ok (j : JobId) (s : State) : OK s (execFlowCreate j s) :=
  act_ok (startJob_keeps _ _ _ flowCreateSpec_keeps (.refl _))

theorem execFlowDelete_ok (j : JobId) (s : State) : OK s (execFlowDelete j s) :=
  act_ok (startJob_keeps _ _ _ flowDeleteSpec_keeps (.refl _))

theorem execFlowKey_ok (j : JobId) (s : State) : OK s (execFlowKey j s) :=
  act_ok (startJob_keeps _ _ _ flowKeySpec_keeps (.refl _))

theorem execFlowSet_ok (j : JobId) (s : State) : OK s (execFlowSet j s) :=
  act_ok (startJob_keeps _ _ _ flowSetSpec_keeps (.refl _))

theorem execFlowResync_ok (j : JobId) (s : State) : OK s (execFlowResync j s) :=
  act_ok (startJob_keeps _ _ _ flowResyncSpec_keeps (.refl _))

theorem execFlowRead_ok (j : JobId) (s : State) : OK s (execFlowRead j s) :=
  act_ok (startJob_keeps _ _ _ flowReadSpec_keeps (.refl _))

theorem execFlowStandby_ok (j : JobId) (s : State) : OK s (execFlowStandby j s) :=
  act_ok (startJob_keeps _ _ _ flowStandbySpec_keeps (.refl _))

theorem execStreamSend_ok (j : JobId) (s : State) : OK s (execStreamSend j s) :=
  act_ok (startJob_keeps _ _ _ streamSendSpec_keeps (.refl _))

theorem execVprogVerify_ok (j : JobId) (s : State) : OK s (execVprogVerify j s) :=
  act_ok (startJob_keeps _ _ _ vprogVerifySpec_keeps (.refl _))

theorem execVprogRun_ok (j : JobId) (s : State) : OK s (execVprogRun j s) :=
  act_ok (startJob_keeps _ _ _ vprogRunSpec_keeps (.refl _))

theorem execVprogTimeLimit_ok (j : JobId) (s : State) : OK s (execVprogTimeLimit j s) :=
  act_ok (timeLimit_keeps _ _ (.refl _))

theorem execPorterStart_ok (j : JobId) (s : State) : OK s (execPorterStart j s) :=
  act_ok (startJob_keeps _ _ _ porterStartSpec_keeps (.refl _))

theorem execPorterStop_ok (j : JobId) (s : State) : OK s (execPorterStop j s) :=
  act_ok (startJob_keeps _ _ _ porterStopSpec_keeps (.refl _))

theorem execPorterInstruction_ok (c : BitVec 6) (a : Access) (s : State) : OK s (execPorterInstruction c a s) :=
  act_ok (porterInstruction_keeps _ _ _ (.refl _))

theorem execPorterMoveUnit_ok (c : BitVec 6) (a : Access) (s : State) : OK s (execPorterMoveUnit c a s) :=
  act_ok (porterMoveUnit_keeps _ _ _ (.refl _))

theorem execPorterWaitPoll_ok (c : BitVec 6) (expired : Bool) (a : Access) (s : State) : OK s (execPorterWaitPoll c expired a s) :=
  act_ok (porterWaitPoll_keeps _ _ _ _ (.refl _))

theorem execPlanStage_ok (j : JobId) (same : Bool) (s : State) : OK s (execPlanStage j same s) :=
  act_ok (stageJob_keeps _ _ _ (planStageSpec_keeps _) (.refl _))

theorem execPlanSignerAdd_ok (j : JobId) (s : State) : OK s (execPlanSignerAdd j s) :=
  act_ok (startJob_keeps _ _ _ planSignerAddSpec_keeps (.refl _))

theorem execPlanSignerRemove_ok (j : JobId) (s : State) : OK s (execPlanSignerRemove j s) :=
  act_ok (startJob_keeps _ _ _ planSignerRemoveSpec_keeps (.refl _))

theorem execPlanSvnRaise_ok (j : JobId) (s : State) : OK s (execPlanSvnRaise j s) :=
  act_ok (startJob_keeps _ _ _ planSvnRaiseSpec_keeps (.refl _))

theorem execPlanRead_ok (j : JobId) (s : State) : OK s (execPlanRead j s) :=
  act_ok (startJob_keeps _ _ _ planReadSpec_keeps (.refl _))

theorem execPatchStage_ok (j : JobId) (same : Bool) (s : State) : OK s (execPatchStage j same s) :=
  act_ok (stageJob_keeps _ _ _ (patchStageSpec_keeps _) (.refl _))

theorem execPatchSvnRaise_ok (j : JobId) (s : State) : OK s (execPatchSvnRaise j s) :=
  act_ok (startJob_keeps _ _ _ patchSvnRaiseSpec_keeps (.refl _))

theorem execFwStage_ok (j : JobId) (same : Bool) (s : State) : OK s (execFwStage j same s) :=
  act_ok (stageJob_keeps _ _ _ (fwStageSpec_keeps _) (.refl _))

theorem execFwSvnRaise_ok (j : JobId) (s : State) : OK s (execFwSvnRaise j s) :=
  act_ok (startJob_keeps _ _ _ fwSvnRaiseSpec_keeps (.refl _))

theorem execDormantEnter_ok (j : JobId) (s : State) : OK s (execDormantEnter j s) :=
  act_ok (startJob_keeps _ _ _ dormantEnterSpec_keeps (.refl _))

theorem execBootRetry_ok (j : JobId) (s : State) : OK s (execBootRetry j s) :=
  act_ok (startJob_keeps _ _ _ bootRetrySpec_keeps (.refl _))

theorem execCtxAlloc_ok (j : JobId) (s : State) : OK s (execCtxAlloc j s) :=
  act_ok (startJob_keeps _ _ _ ctxAllocSpec_keeps (.refl _))

theorem execCtxFree_ok (j : JobId) (s : State) : OK s (execCtxFree j s) :=
  act_ok (startJob_keeps _ _ _ ctxFreeSpec_keeps (.refl _))

theorem execPitchExport_ok (j : JobId) (s : State) : OK s (execPitchExport j s) :=
  act_ok (startJob_keeps _ _ _ pitchExportSpec_keeps (.refl _))

theorem execPitchImport_ok (j : JobId) (s : State) : OK s (execPitchImport j s) :=
  act_ok (startJob_keeps _ _ _ pitchImportSpec_keeps (.refl _))

theorem execLcNonce_ok (j : JobId) (s : State) : OK s (execLcNonce j s) :=
  act_ok (startJob_keeps _ _ _ lcNonceSpec_keeps (.refl _))

theorem execLcTransition_ok (j : JobId) (s : State) : OK s (execLcTransition j s) :=
  act_ok (startJob_keeps _ _ _ lcTransitionSpec_keeps (.refl _) (fun s x b => transitionChecked_keeps s x b (.refl _)))

theorem execDebugGrant_ok (j : JobId) (s : State) : OK s (execDebugGrant j s) :=
  act_ok (startJob_keeps _ _ _ debugGrantSpec_keeps (.refl _) (fun s x b => grantChecked_keeps s x b (.refl _)))

theorem execAlarmUnlock_ok (j : JobId) (s : State) : OK s (execAlarmUnlock j s) :=
  act_ok (startJob_keeps _ _ _ alarmUnlockSpec_keeps (.refl _))

theorem execEvidenceRead_ok (j : JobId) (s : State) : OK s (execEvidenceRead j s) :=
  act_ok (startJob_keeps _ _ _ evidenceReadSpec_keeps (.refl _))

theorem execLedgerRead_ok (j : JobId) (s : State) : OK s (execLedgerRead j s) :=
  act_ok (startJob_keeps _ _ _ ledgerReadSpec_keeps (.refl _))

theorem execLedgerClear_ok (j : JobId) (s : State) : OK s (execLedgerClear j s) :=
  act_ok (startJob_keeps _ _ _ ledgerClearSpec_keeps (.refl _))

theorem execCustodianEnrol_ok (j : JobId) (s : State) : OK s (execCustodianEnrol j s) :=
  act_ok (startJob_keeps _ _ _ custodianEnrolSpec_keeps (.refl _))

theorem execCustodianRemove_ok (j : JobId) (s : State) : OK s (execCustodianRemove j s) :=
  act_ok (startJob_keeps _ _ _ custodianRemoveSpec_keeps (.refl _))

theorem execQuorumSet_ok (j : JobId) (s : State) : OK s (execQuorumSet j s) :=
  act_ok (startJob_keeps _ _ _ quorumSetSpec_keeps (.refl _))

theorem execQuorumOpen_ok (j : JobId) (s : State) : OK s (execQuorumOpen j s) :=
  act_ok (startJob_keeps _ _ _ quorumOpenSpec_keeps (.refl _))

theorem execKeeperPresent_ok (j : JobId) (s : State) : OK s (execKeeperPresent j s) :=
  act_ok (startJob_keeps _ _ _ keeperPresentSpec_keeps (.refl _))

theorem execQuorumClose_ok (j : JobId) (s : State) : OK s (execQuorumClose j s) :=
  act_ok (startJob_keeps _ _ _ quorumCloseSpec_keeps (.refl _))

theorem execKeeperIdentify_ok (j : JobId) (s : State) : OK s (execKeeperIdentify j s) :=
  act_ok (startJob_keeps _ _ _ keeperIdentifySpec_keeps (.refl _))

theorem execArchiveMount_ok (j : JobId) (s : State) : OK s (execArchiveMount j s) :=
  act_ok (startJob_keeps _ _ _ archiveMountSpec_keeps (.refl _))

theorem execArchiveFormat_ok (j : JobId) (s : State) : OK s (execArchiveFormat j s) :=
  act_ok (startJob_keeps _ _ _ archiveFormatSpec_keeps (.refl _))

theorem execArchiveExport_ok (j : JobId) (s : State) : OK s (execArchiveExport j s) :=
  act_ok (startJob_keeps _ _ _ archiveExportSpec_keeps (.refl _))

theorem execOpcodeUndefined_ok (j : JobId) (s : State) : OK s (execOpcodeUndefined j s) :=
  act_ok (opcodeUndefined_keeps _ _ (.refl _))

theorem execDescriptorFetch_ok (s : State) : OK s (execDescriptorFetch s) :=
  act_ok (fetchTurn_keeps _ (.refl _))

theorem execRingReadFail_ok (q : BitVec 12) (c : RingCause) (s : State) : OK s (execRingReadFail q c s) :=
  act_ok (ringReadFail_keeps _ _ _ (.refl _))

theorem execJobPlace_ok (j : JobId) (s : State) : OK s (execJobPlace j s) :=
  act_ok (jobPlace_keeps _ _ (.refl _))

theorem execJobComplete_ok (j : JobId) (w : RecordWrite) (s : State) : OK s (execJobComplete j w s) :=
  act_ok (endJob_keeps _ _ _ (.refl _))

theorem execDmaFault_ok (j : JobId) (k : DmaCause) (s : State) : OK s (execDmaFault j k s) :=
  act_ok (dmaFault_keeps _ _ _ (.refl _))

theorem execCoalTimeExpiry_ok (q : CoalQueue) (s : State) : OK s (execCoalTimeExpiry q s) := by
  unfold execCoalTimeExpiry
  repeat first
    | with_reducible assumption
    | with_reducible exact Keeps.refl _
    | with_reducible apply next_ok
    | with_reducible apply act_ok
    | with_reducible apply hostAct_ok
    | (simp only [keeps_mk]; with_reducible refine Keeps.fold ?_)
    | with_reducible apply coalTimeExpiry_keeps
    | with_reducible apply coalDqExpiry_keeps
    | with_reducible apply foldl_keeps
    | with_reducible apply Keeps.ite
    | with_reducible apply Keeps.iteFst
    | exact @rfl Nat _
    | split
    | intro _ _
    | intro _
    | dsimp only

theorem execSqPi_ok (p : BitVec 8) (l : BitVec 6) (v : BitVec 32) (s : State) : OK s (execSqPi p l v s) :=
  act_ok (sqPi_keeps _ _ _ _ (.refl _))

theorem execCqCi_ok (p : BitVec 8) (l : BitVec 6) (v : BitVec 32) (s : State) : OK s (execCqCi p l v s) :=
  act_ok (cqCi_keeps _ _ _ _ (.refl _))

theorem execQueueCommit_ok (q : BitVec 12) (s : State) : OK s (execQueueCommit q s) :=
  hostAct_ok (queueCommit_keeps _ _ (.refl _))

theorem execQueueEnable_ok (q : BitVec 12) (s : State) : OK s (execQueueEnable q s) :=
  hostAct_ok (queueEnable_keeps _ _ (.refl _))

theorem execQueueDisable_ok (q : BitVec 12) (s : State) : OK s (execQueueDisable q s) :=
  hostAct_ok (queueDisable_keeps _ _ (.refl _))

theorem execQueueRestart_ok (q : BitVec 12) (s : State) : OK s (execQueueRestart q s) :=
  hostAct_ok (queueRestart_keeps _ _ (.refl _))

theorem execCrateFlagWrite_ok (p : BitVec 8) (first : BitVec 11) (flags : List Byte) (s : State) : OK s (execCrateFlagWrite p first flags s) :=
  hostAct_ok (flagBytes_keeps _ _ _ _ (.refl _))

theorem execCrateDataWrite_ok (off : BitVec 23) (data : List Byte) (s : State) : OK s (execCrateDataWrite off data s) :=
  hostAct_ok (crateDataWrite_keeps _ _ _ (.refl _))

theorem execCrateCommit_ok (s : State) : OK s (execCrateCommit s) :=
  hostAct_ok (crateCommit_keeps _ (.refl _))

theorem execChannelCommit_ok (c : BitVec 6) (s : State) : OK s (execChannelCommit c s) :=
  hostAct_ok (channelCommit_keeps _ _ (.refl _))

theorem execChannelStart_ok (c : StartCmd) (s : State) : OK s (execChannelStart c s) := by
  unfold execChannelStart
  repeat first
    | with_reducible assumption
    | with_reducible exact Keeps.refl _
    | with_reducible apply next_ok
    | with_reducible apply act_ok
    | with_reducible apply hostAct_ok
    | (simp only [keeps_mk]; with_reducible refine Keeps.fold ?_)
    | with_reducible apply channelStart_keeps
    | with_reducible apply foldl_keeps
    | with_reducible apply Keeps.ite
    | with_reducible apply Keeps.iteFst
    | exact @rfl Nat _
    | split
    | intro _ _
    | intro _
    | dsimp only

theorem execChannelStop_ok (c : BitVec 6) (s : State) : OK s (execChannelStop c s) :=
  hostAct_ok (porterStop_keeps _ _ _ (.refl _))

theorem execPitchCommit_ok (p : BitVec 8) (s : State) : OK s (execPitchCommit p s) :=
  hostAct_ok (pitchCommit_keeps _ _ (.refl _))

theorem execPitchReset_ok (p : BitVec 8) (releaseCtx : Bool) (s : State) : OK s (execPitchReset p releaseCtx s) :=
  hostAct_ok (pitchReset_keeps _ _ _ (.refl _))

theorem execSelfReset_ok (p : BitVec 8) (confirm : BitVec 16) (s : State) : OK s (execSelfReset p confirm s) :=
  act_ok (selfReset_keeps _ _ _ (.refl _))

theorem execPitchResetEnd_ok (p : BitVec 8) (s : State) : OK s (execPitchResetEnd p s) := by
  unfold execPitchResetEnd
  repeat first
    | with_reducible assumption
    | with_reducible exact Keeps.refl _
    | with_reducible apply next_ok
    | with_reducible apply act_ok
    | with_reducible apply hostAct_ok
    | (simp only [keeps_mk]; with_reducible refine Keeps.fold ?_)
    | with_reducible apply pitchResetEnd_keeps
    | with_reducible apply foldl_keeps
    | with_reducible apply Keeps.ite
    | with_reducible apply Keeps.iteFst
    | exact @rfl Nat _
    | split
    | intro _ _
    | intro _
    | dsimp only

theorem execPitchStateFault_ok (p : BitVec 8) (s : State) : OK s (execPitchStateFault p s) :=
  act_ok (pitchStateFault_keeps _ _ (.refl _))

theorem execFreeze_ok (p : BitVec 8) (s : State) : OK s (execFreeze p s) :=
  hostAct_ok (freeze_keeps _ _ (.refl _))

theorem execPitchFrozen_ok (p : BitVec 8) (s : State) : OK s (execPitchFrozen p s) :=
  act_ok (pitchFrozen_keeps _ _ (.refl _))

theorem execThaw_ok (p : BitVec 8) (s : State) : OK s (execThaw p s) :=
  hostAct_ok (thaw_keeps _ _ (.refl _))

theorem execLogEnable_ok (p : BitVec 8) (s : State) : OK s (execLogEnable p s) :=
  hostAct_ok (logEnable_keeps _ _ (.refl _))

theorem execLogSwap_ok (p : BitVec 8) (s : State) : OK s (execLogSwap p s) :=
  hostAct_ok (logSwap_keeps _ _ (.refl _))

theorem execLogSwapDone_ok (p : BitVec 8) (s : State) : OK s (execLogSwapDone p s) :=
  act_ok (logSwapDone_keeps _ _ (.refl _))

theorem execLogDisable_ok (p : BitVec 8) (s : State) : OK s (execLogDisable p s) :=
  hostAct_ok (logDisable_keeps _ _ (.refl _))

theorem execEpochWrite_ok (v : BitVec 2) (s : State) : OK s (execEpochWrite v s) :=
  hostAct_ok (epochWrite_keeps _ _ (.refl _))

theorem execEpochLock_ok (s : State) : OK s (execEpochLock s) :=
  hostAct_ok (epochLock_keeps _ (.refl _))

theorem execIntSummaryMaskWrite_ok (v : BitVec 32) (s : State) : OK s (execIntSummaryMaskWrite v s) := by
  unfold execIntSummaryMaskWrite
  repeat first
    | with_reducible assumption
    | with_reducible exact Keeps.refl _
    | with_reducible apply next_ok
    | with_reducible apply act_ok
    | with_reducible apply hostAct_ok
    | (simp only [keeps_mk]; with_reducible refine Keeps.fold ?_)
    | with_reducible apply intMaskWrite_keeps
    | with_reducible apply foldl_keeps
    | with_reducible apply Keeps.ite
    | with_reducible apply Keeps.iteFst
    | exact @rfl Nat _
    | split
    | intro _ _
    | intro _
    | dsimp only

theorem execStreamCommit_ok (s : State) : OK s (execStreamCommit s) :=
  hostAct_ok (streamCommit_keeps _ (.refl _))

theorem execTimeSet_ok (s : State) : OK s (execTimeSet s) :=
  hostAct_ok (timeSet_keeps _ (.refl _))

theorem execTimeInvalidate_ok (s : State) : OK s (execTimeInvalidate s) :=
  hostAct_ok (timeInvalidate_keeps _ (.refl _))

theorem execTimeStep_ok (v : BitVec 64) (s : State) : OK s (execTimeStep v s) :=
  hostAct_ok (timeStep_keeps _ _ (.refl _))

theorem execPortCommit_ok (port : BitVec 1) (s : State) : OK s (execPortCommit port s) :=
  hostAct_ok (portCommit_keeps _ _ (.refl _))

theorem execDqCommit_ok (d : BitVec 8) (s : State) : OK s (execDqCommit d s) :=
  hostAct_ok (dqCommit_keeps _ _ (.refl _))

theorem execDqEnable_ok (d : BitVec 8) (s : State) : OK s (execDqEnable d s) :=
  hostAct_ok (dqEnable_keeps _ _ (.refl _))

theorem execDqDisable_ok (d : BitVec 8) (s : State) : OK s (execDqDisable d s) :=
  hostAct_ok (dqDisable_keeps _ _ (.refl _))

theorem execRetestRetired_ok (s : State) : OK s (execRetestRetired s) :=
  hostAct_ok (retestRetired_keeps _ (.refl _))

theorem execLinkCommit_ok (s : State) : OK s (execLinkCommit s) :=
  hostAct_ok (linkCommit_keeps _ (.refl _))

theorem execRetrain_ok (k : BitVec 2) (s : State) : OK s (execRetrain k s) :=
  hostAct_ok (retrain_keeps _ _ (.refl _))

theorem execPwrRestart_ok (v : BitVec 32) (s : State) : OK s (execPwrRestart v s) :=
  hostAct_ok (powerCommand_keeps _ _ (.refl _))

theorem execPaceTargetWrite_ok (v : BitVec 32) (s : State) : OK s (execPaceTargetWrite v s) :=
  hostAct_ok (paceWrite_keeps _ _ (.refl _))

theorem execRegisterWrite_ok (w : Window) (off : BitVec 26) (width : BitVec 7) (v : BitVec 64) (s : State) : OK s (execRegisterWrite w off width v s) := by
  unfold execRegisterWrite
  repeat first
    | with_reducible assumption
    | with_reducible exact Keeps.refl _
    | with_reducible apply next_ok
    | with_reducible apply act_ok
    | with_reducible apply hostAct_ok
    | (simp only [keeps_mk]; with_reducible refine Keeps.fold ?_)
    | with_reducible apply hostWrite_keeps
    | with_reducible apply foldl_keeps
    | with_reducible apply Keeps.ite
    | with_reducible apply Keeps.iteFst
    | exact @rfl Nat _
    | split
    | intro _ _
    | intro _
    | dsimp only

theorem execMsixVectorUnmask_ok (v : BitVec 11) (s : State) : OK s (execMsixVectorUnmask v s) :=
  hostAct_ok (vectorUnmask_keeps _ _ (.refl _))

theorem execMsixFunctionUnmask_ok (s : State) : OK s (execMsixFunctionUnmask s) :=
  act_ok (functionUnmask_keeps _ (.refl _))

theorem execMsixEnable_ok (s : State) : OK s (execMsixEnable s) :=
  act_ok (msixOn_keeps _ (.refl _))

theorem execAtsInvalidation_ok (r : AtsRange) (s : State) : OK s (execAtsInvalidation r s) := by
  unfold execAtsInvalidation
  repeat first
    | with_reducible assumption
    | with_reducible exact Keeps.refl _
    | with_reducible apply next_ok
    | with_reducible apply act_ok
    | with_reducible apply hostAct_ok
    | (simp only [keeps_mk]; with_reducible refine Keeps.fold ?_)
    | with_reducible apply atsInvalidate_keeps
    | with_reducible apply foldl_keeps
    | with_reducible apply Keeps.ite
    | with_reducible apply Keeps.iteFst
    | exact @rfl Nat _
    | split
    | intro _ _
    | intro _
    | dsimp only

theorem execD3hotEntry_ok (s : State) : OK s (execD3hotEntry s) :=
  act_ok (d3hotEntry_keeps _ (.refl _))

theorem execD0Return_ok (s : State) : OK s (execD0Return s) :=
  act_ok (d0Return_keeps _ (.refl _))

theorem execPcieConventionalReset_ok (epochStrap : Bool) (s : State) : OK s (execPcieConventionalReset epochStrap s) :=
  act_ok (pcieReset_keeps _ _ (.refl _))

theorem execFunctionLevelReset_ok (s : State) : OK s (execFunctionLevelReset s) :=
  act_ok (functionReset_keeps _ (.refl _))

theorem execPowerOnReset_ok (i : StartInput) (s : State) : OK s (execPowerOnReset i s) := by
  unfold execPowerOnReset
  repeat first
    | with_reducible assumption
    | with_reducible exact Keeps.refl _
    | with_reducible apply next_ok
    | with_reducible apply act_ok
    | with_reducible apply hostAct_ok
    | (simp only [keeps_mk]; with_reducible refine Keeps.fold ?_)
    | with_reducible apply powerOn_keeps
    | with_reducible apply foldl_keeps
    | with_reducible apply Keeps.ite
    | with_reducible apply Keeps.iteFst
    | exact @rfl Nat _
    | split
    | intro _ _
    | intro _
    | dsimp only

theorem execInternalResetAssert_ok (s : State) : OK s (execInternalResetAssert s) := by
  unfold execInternalResetAssert
  repeat first
    | with_reducible assumption
    | with_reducible exact Keeps.refl _
    | with_reducible apply next_ok
    | with_reducible apply act_ok
    | with_reducible apply hostAct_ok
    | (simp only [keeps_mk]; with_reducible refine Keeps.fold ?_)
    | with_reducible apply assertReset_keeps
    | with_reducible apply foldl_keeps
    | with_reducible apply Keeps.ite
    | with_reducible apply Keeps.iteFst
    | exact @rfl Nat _
    | split
    | intro _ _
    | intro _
    | dsimp only

theorem execStartTimeout_ok (s : State) : OK s (execStartTimeout s) :=
  act_ok (startTimeout_keeps _ (.refl _))

theorem execFailedStartRestart_ok (i : StartInput) (s : State) : OK s (execFailedStartRestart i s) := by
  unfold execFailedStartRestart
  repeat first
    | with_reducible assumption
    | with_reducible exact Keeps.refl _
    | with_reducible apply next_ok
    | with_reducible apply act_ok
    | with_reducible apply hostAct_ok
    | (simp only [keeps_mk]; with_reducible refine Keeps.fold ?_)
    | with_reducible apply restart_keeps
    | with_reducible apply foldl_keeps
    | with_reducible apply Keeps.ite
    | with_reducible apply Keeps.iteFst
    | exact @rfl Nat _
    | split
    | intro _ _
    | intro _
    | dsimp only

theorem execDeviceRestart_ok (i : StartInput) (s : State) : OK s (execDeviceRestart i s) := by
  unfold execDeviceRestart
  repeat first
    | with_reducible assumption
    | with_reducible exact Keeps.refl _
    | with_reducible apply next_ok
    | with_reducible apply act_ok
    | with_reducible apply hostAct_ok
    | (simp only [keeps_mk]; with_reducible refine Keeps.fold ?_)
    | with_reducible apply restart_keeps
    | with_reducible apply foldl_keeps
    | with_reducible apply Keeps.ite
    | with_reducible apply Keeps.iteFst
    | exact @rfl Nat _
    | split
    | intro _ _
    | intro _
    | dsimp only

theorem execDormantStayTimeout_ok (i : StartInput) (s : State) : OK s (execDormantStayTimeout i s) := by
  unfold execDormantStayTimeout
  repeat first
    | with_reducible assumption
    | with_reducible exact Keeps.refl _
    | with_reducible apply next_ok
    | with_reducible apply act_ok
    | with_reducible apply hostAct_ok
    | (simp only [keeps_mk]; with_reducible refine Keeps.fold ?_)
    | with_reducible apply restart_keeps
    | with_reducible apply foldl_keeps
    | with_reducible apply Keeps.ite
    | with_reducible apply Keeps.iteFst
    | exact @rfl Nat _
    | split
    | intro _ _
    | intro _
    | dsimp only

theorem execBatterySwitchover_ok (toBattery : Bool) (s : State) : OK s (execBatterySwitchover toBattery s) :=
  act_ok (switchBattery_keeps _ _ (.refl _))

theorem execBatterySample_ok (r : BatteryReading) (s : State) : OK s (execBatterySample r s) :=
  act_ok (batterySample_keeps _ _ (.refl _))

theorem execLidEdge_ok (level : Bool) (s : State) : OK s (execLidEdge level s) :=
  act_ok (lidEdge_keeps _ _ (.refl _))

theorem execTempSample_ok (t0 : BitVec 12) (t1 : BitVec 12) (t2 : BitVec 12) (t3 : BitVec 12) (s : State) : OK s (execTempSample t0 t1 t2 t3 s) := by
  unfold execTempSample
  repeat first
    | with_reducible assumption
    | with_reducible exact Keeps.refl _
    | with_reducible apply next_ok
    | with_reducible apply act_ok
    | with_reducible apply hostAct_ok
    | (simp only [keeps_mk]; with_reducible refine Keeps.fold ?_)
    | with_reducible apply tempSample_keeps
    | with_reducible apply foldl_keeps
    | with_reducible apply Keeps.ite
    | with_reducible apply Keeps.iteFst
    | exact @rfl Nat _
    | split
    | intro _ _
    | intro _
    | dsimp only

theorem execAlarmTrip_ok (i : AlarmSource) (v : TripReading) (s : State) : OK s (execAlarmTrip i v s) := by
  unfold execAlarmTrip
  repeat first
    | with_reducible assumption
    | with_reducible exact Keeps.refl _
    | with_reducible apply next_ok
    | with_reducible apply act_ok
    | with_reducible apply hostAct_ok
    | (simp only [keeps_mk]; with_reducible refine Keeps.fold ?_)
    | with_reducible apply trip_keeps
    | with_reducible apply foldl_keeps
    | with_reducible apply Keeps.ite
    | with_reducible apply Keeps.iteFst
    | exact @rfl Nat _
    | split
    | intro _ _
    | intro _
    | dsimp only

theorem execDecisionSecond_ok (agree : Bool) (s : State) : OK s (execDecisionSecond agree s) :=
  act_ok (secondDecides_keeps _ _ (.refl _))

theorem execAlarmSourceClear_ok (i : AlarmSource) (s : State) : OK s (execAlarmSourceClear i s) :=
  act_ok (sourceClear_keeps _ _ (.refl _))

theorem execRailWindowReturn_ok (rail : Monitor) (s : State) : OK s (execRailWindowReturn rail s) :=
  act_ok (windowReturn_keeps _ _ (.refl _))

theorem execDualRailFault_ok (u : FaultUnit) (s : State) : OK s (execDualRailFault u s) :=
  act_ok (dualRail_keeps _ _ (.refl _))

theorem execStoreEccUncorrectable_ok (tile : BitVec 6) (addr : BitVec 12) (s : State) : OK s (execStoreEccUncorrectable tile addr s) :=
  act_ok (storeError_keeps _ _ _ _ (.refl _))

theorem execTileStoreReloadDone_ok (tile : BitVec 6) (ok : Bool) (s : State) : OK s (execTileStoreReloadDone tile ok s) :=
  act_ok (reloadDone_keeps _ _ _ (.refl _))

theorem execScrubTick_ok (errs : List TileError) (patch : List PatchError) (s : State) : OK s (execScrubTick errs patch s) :=
  act_ok (scrubTick_keeps _ _ _ (.refl _))

theorem execHallCopyMismatch_ok (addr : BitVec 14) (s : State) : OK s (execHallCopyMismatch addr s) :=
  act_ok (copyMismatch_keeps _ _ (.refl _))

theorem execHallReloadDone_ok (ok : Bool) (s : State) : OK s (execHallReloadDone ok s) :=
  act_ok (hallReloadDone_keeps _ _ (.refl _))

theorem execDataEccError_ok (w : DataPlace) (s : State) : OK s (execDataEccError w s) :=
  act_ok (dataError_keeps _ _ (.refl _))

theorem execTileFault_ok (j : JobId) (dkHash : Bool) (s : State) : OK s (execTileFault j dkHash s) :=
  act_ok (tileFault_keeps _ _ _ (.refl _))

theorem execTileSelfTestDone_ok (tile : BitVec 6) (ok : Bool) (s : State) : OK s (execTileSelfTestDone tile ok s) :=
  act_ok (selfTestDone_keeps _ _ _ (.refl _))

theorem execSpareJoin_ok (s : State) : OK s (execSpareJoin s) :=
  act_ok (spareJoin_keeps _ (.refl _))

theorem execEngineFcmTrip_ok (e : BitVec 3) (s : State) : OK s (execEngineFcmTrip e s) :=
  act_ok (engineTrip_keeps _ _ (.refl _))

theorem execEngineWipeDone_ok (e : BitVec 3) (ok : Bool) (s : State) : OK s (execEngineWipeDone e ok s) :=
  act_ok (engineWipeDone_keeps _ _ _ (.refl _))

theorem execFrameReceive_ok (port : BitVec 1) (frame : List Byte) (s : State) : OK s (execFrameReceive port frame s) :=
  act_ok (frameReceive_keeps _ _ _ (.refl _))

theorem execFrameCheck_ok (s : State) : OK s (execFrameCheck s) :=
  act_ok (frameCheck_keeps _ (.refl _))

theorem execDqCiRead_ok (d : BitVec 8) (a : Access) (s : State) : OK s (execDqCiRead d a s) :=
  act_ok (dqCiRead_keeps _ _ _ (.refl _))

theorem execUnmatchedToken_ok (s : State) : OK s (execUnmatchedToken s) :=
  act_ok (unmatchedToken_keeps _ (.refl _))

theorem execPrpEntryAge_ok (src : BitVec 48) (s : State) : OK s (execPrpEntryAge src s) :=
  act_ok (prpEntryAge_keeps _ _ (.refl _))

theorem execKeyGraceExpiry_ok (ctx : BitVec 14) (s : State) : OK s (execKeyGraceExpiry ctx s) :=
  act_ok (keyGraceExpiry_keeps _ _ (.refl _))

theorem execPortLinkChange_ok (port : BitVec 1) (up : Bool) (s : State) : OK s (execPortLinkChange port up s) :=
  act_ok (portLinkChange_keeps _ _ _ (.refl _))

theorem execBeanSample_ok (bits : BitVec 80) (s : State) : OK s (execBeanSample bits s) :=
  act_ok (beanSamples_keeps _ _ (.refl _))

theorem execBeanTrimWindow_ok (bean : BitVec 7) (s : State) : OK s (execBeanTrimWindow bean s) :=
  act_ok (trimWindow_keeps _ _ (.refl _))

theorem execBeanRetestDone_ok (bean : BitVec 7) (outcome : BitVec 2) (s : State) : OK s (execBeanRetestDone bean outcome s) :=
  act_ok (retestDone_keeps _ _ _ (.refl _))

theorem execGrindBlock_ok (s : State) : OK s (execGrindBlock s) :=
  act_ok (grindBlock_keeps _ (.refl _))

theorem execEntropyHoldExpiry_ok (s : State) : OK s (execEntropyHoldExpiry s) :=
  act_ok (holdExpires_keeps _ (.refl _))

theorem execMaskFeedsOpen_ok (s : State) : OK s (execMaskFeedsOpen s) :=
  act_ok (openFeeds_keeps _ (.refl _))

theorem execDrbgReseedDue_ok (p : BitVec 8) (s : State) : OK s (execDrbgReseedDue p s) :=
  act_ok (reseedDue_keeps _ _ (.refl _))

theorem execLedgerRecordWrite_ok (s : State) : OK s (execLedgerRecordWrite s) :=
  act_ok (ledgerRecordWrite_keeps _ (.refl _))

theorem execLedgerTallyWrite_ok (s : State) : OK s (execLedgerTallyWrite s) :=
  act_ok (ledgerTallyWrite_keeps _ (.refl _))

theorem execOptimeSave_ok (s : State) : OK s (execOptimeSave s) :=
  act_ok (optimeSave_keeps _ (.refl _))

theorem execPaceSample_ok (beat : BitVec 12) (s : State) : OK s (execPaceSample beat s) :=
  act_ok (paceSample_keeps _ _ (.refl _))

theorem execAvsFrameResponse_ok (r : AvsResponse) (s : State) : OK s (execAvsFrameResponse r s) := by
  unfold execAvsFrameResponse
  repeat first
    | with_reducible assumption
    | with_reducible exact Keeps.refl _
    | with_reducible apply next_ok
    | with_reducible apply act_ok
    | with_reducible apply hostAct_ok
    | (simp only [keeps_mk]; with_reducible refine Keeps.fold ?_)
    | with_reducible apply avsResponse_keeps
    | with_reducible apply foldl_keeps
    | with_reducible apply Keeps.ite
    | with_reducible apply Keeps.iteFst
    | exact @rfl Nat _
    | split
    | intro _ _
    | intro _
    | dsimp only

theorem execAvsRetry_ok (s : State) : OK s (execAvsRetry s) :=
  act_ok (avsRetry_keeps _ (.refl _))

theorem execKeeperCardInsert_ok (s : State) : OK s (execKeeperCardInsert s) :=
  act_ok (keeperInsert_keeps _ (.refl _))

theorem execKeeperCardRemove_ok (s : State) : OK s (execKeeperCardRemove s) :=
  act_ok (keeperRemove_keeps _ (.refl _))

theorem execAtrReceive_ok (atr : List Byte) (s : State) : OK s (execAtrReceive atr s) :=
  act_ok (atrReceive_keeps _ _ (.refl _))

theorem execPpsResponse_ok (pps : List Byte) (s : State) : OK s (execPpsResponse pps s) :=
  act_ok (ppsResponse_keeps _ _ (.refl _))

theorem execCardBlockReceive_ok (block : List Byte) (s : State) : OK s (execCardBlockReceive block s) :=
  act_ok (cardBlock_keeps _ _ (.refl _))

theorem execCardBlockTimeout_ok (s : State) : OK s (execCardBlockTimeout s) :=
  act_ok (cardBlockTimeout_keeps _ (.refl _))

theorem execQuorumSessionExpiry_ok (s : State) : OK s (execQuorumSessionExpiry s) :=
  act_ok (sessionExpiry_keeps _ (.refl _))

theorem execArcCardInsert_ok (c : ArcCard) (s : State) : OK s (execArcCardInsert c s) :=
  act_ok (arcInsert_keeps _ _ (.refl _))

theorem execArcCardRemove_ok (s : State) : OK s (execArcCardRemove s) :=
  act_ok (arcRemove_keeps _ (.refl _))

theorem execArcBusyTimeout_ok (s : State) : OK s (execArcBusyTimeout s) :=
  act_ok (arcBusyTimeout_keeps _ (.refl _))

theorem execLinkTrainAttempt_ok (k : BitVec 2) (s : State) : OK s (execLinkTrainAttempt k s) :=
  act_ok (linkTrainAttempt_keeps _ _ (.refl _))

theorem execHandshakeMessage_ok (k : BitVec 2) (m : HandshakeMsg) (s : State) : OK s (execHandshakeMessage k m s) :=
  act_ok (handshakeMessage_keeps _ _ _ (.refl _))

theorem execHandshakeTimeout_ok (k : BitVec 2) (s : State) : OK s (execHandshakeTimeout k s) :=
  act_ok (handshakeTimeout_keeps _ _ (.refl _))

theorem execSessionRekey_ok (k : BitVec 2) (s : State) : OK s (execSessionRekey k s) :=
  act_ok (sessionRekey_keeps _ _ (.refl _))

theorem execHeartbeatSend_ok (k : BitVec 2) (s : State) : OK s (execHeartbeatSend k s) :=
  act_ok (heartbeatSend_keeps _ _ (.refl _))

theorem execHeartbeatReceive_ok (k : BitVec 2) (m : LinkMsg) (tagOk : Bool) (s : State) : OK s (execHeartbeatReceive k m tagOk s) :=
  act_ok (heartbeatReceive_keeps _ _ _ _ (.refl _))

theorem execPeerLost_ok (k : BitVec 2) (s : State) : OK s (execPeerLost k s) :=
  act_ok (peerLost_keeps _ _ (.refl _))

theorem execLoadAdvertise_ok (s : State) : OK s (execLoadAdvertise s) :=
  act_ok (loadAdvertise_keeps _ (.refl _))

theorem execJobForwardReceive_ok (k : BitVec 2) (n : BitVec 32) (p : BitVec 8) (d : Desc) (input : List Byte) (aux : List Byte) (s : State) : OK s (execJobForwardReceive k n p d input aux s) := by
  unfold execJobForwardReceive
  repeat first
    | with_reducible assumption
    | with_reducible exact Keeps.refl _
    | with_reducible apply next_ok
    | with_reducible apply act_ok
    | with_reducible apply hostAct_ok
    | (simp only [keeps_mk]; with_reducible refine Keeps.fold ?_)
    | with_reducible apply jobForwardReceive_keeps
    | with_reducible apply foldl_keeps
    | with_reducible apply Keeps.ite
    | with_reducible apply Keeps.iteFst
    | exact @rfl Nat _
    | split
    | intro _ _
    | intro _
    | dsimp only

theorem execJobForwardResult_ok (j : JobId) (r : PeerResult) (s : State) : OK s (execJobForwardResult j r s) :=
  act_ok (jobForwardResult_keeps _ _ _ (.refl _))

theorem execSpillReceive_ok (k : BitVec 2) (n : BitVec 32) (p : BitVec 8) (d : Desc) (input : List Byte) (aux : List Byte) (key : List Byte) (s : State) : OK s (execSpillReceive k n p d input aux key s) := by
  unfold execSpillReceive
  repeat first
    | with_reducible assumption
    | with_reducible exact Keeps.refl _
    | with_reducible apply next_ok
    | with_reducible apply act_ok
    | with_reducible apply hostAct_ok
    | (simp only [keeps_mk]; with_reducible refine Keeps.fold ?_)
    | with_reducible apply spillReceive_keeps
    | with_reducible apply foldl_keeps
    | with_reducible apply Keeps.ite
    | with_reducible apply Keeps.iteFst
    | exact @rfl Nat _
    | split
    | intro _ _
    | intro _
    | dsimp only

theorem execSpillResult_ok (j : JobId) (r : PeerResult) (s : State) : OK s (execSpillResult j r s) :=
  act_ok (spillResult_keeps _ _ _ (.refl _))

theorem execFlowMirrorUpdate_ok (k : BitVec 2) (m : FlowMsg) (s : State) : OK s (execFlowMirrorUpdate k m s) :=
  act_ok (flowMirrorUpdate_keeps _ _ _ (.refl _))

theorem execBoundaryScanTakeover_ok (ir : BitVec 8) (s : State) : OK s (execBoundaryScanTakeover ir s) :=
  act_ok (bscanTakes_keeps _ _ (.refl _))

theorem execJtagTestReset_ok (s : State) : OK s (execJtagTestReset s) :=
  act_ok (testReset_keeps _ (.refl _))

theorem execMonitorId_ok (s : State) : OK s (execMonitorId s) := by
  unfold execMonitorId
  repeat first
    | with_reducible assumption
    | with_reducible exact Keeps.refl _
    | with_reducible apply next_ok
    | with_reducible apply act_ok
    | with_reducible apply hostAct_ok
    | (simp only [keeps_mk]; with_reducible refine Keeps.fold ?_)
    | with_reducible apply monitorTakes_keeps
    | with_reducible apply monitorIdAnswer_keeps
    | with_reducible apply foldl_keeps
    | with_reducible apply Keeps.ite
    | with_reducible apply Keeps.iteFst
    | exact @rfl Nat _
    | split
    | intro _ _
    | intro _
    | dsimp only

theorem execMonitorSt_ok (s : State) : OK s (execMonitorSt s) := by
  unfold execMonitorSt
  repeat first
    | with_reducible assumption
    | with_reducible exact Keeps.refl _
    | with_reducible apply next_ok
    | with_reducible apply act_ok
    | with_reducible apply hostAct_ok
    | (simp only [keeps_mk]; with_reducible refine Keeps.fold ?_)
    | with_reducible apply monitorTakes_keeps
    | with_reducible apply monitorStAnswer_keeps
    | with_reducible apply foldl_keeps
    | with_reducible apply Keeps.ite
    | with_reducible apply Keeps.iteFst
    | exact @rfl Nat _
    | split
    | intro _ _
    | intro _
    | dsimp only

theorem execMonitorNc_ok (s : State) : OK s (execMonitorNc s) := by
  unfold execMonitorNc
  repeat first
    | with_reducible assumption
    | with_reducible exact Keeps.refl _
    | with_reducible apply next_ok
    | with_reducible apply act_ok
    | with_reducible apply hostAct_ok
    | (simp only [keeps_mk]; with_reducible refine Keeps.fold ?_)
    | with_reducible apply monitorTakes_keeps
    | with_reducible apply permitted_keeps
    | with_reducible apply monitorNcAnswer_keeps
    | with_reducible apply foldl_keeps
    | with_reducible apply Keeps.ite
    | with_reducible apply Keeps.iteFst
    | exact @rfl Nat _
    | split
    | intro _ _
    | intro _
    | dsimp only

theorem execMonitorLd_ok (line : List Byte) (s : State) : OK s (execMonitorLd line s) := by
  unfold execMonitorLd
  repeat first
    | with_reducible assumption
    | with_reducible exact Keeps.refl _
    | with_reducible apply next_ok
    | with_reducible apply act_ok
    | with_reducible apply hostAct_ok
    | (simp only [keeps_mk]; with_reducible refine Keeps.fold ?_)
    | with_reducible apply monitorLine_keeps
    | with_reducible apply permitted_keeps
    | with_reducible apply monitorLoad_keeps
    | with_reducible apply foldl_keeps
    | with_reducible apply Keeps.ite
    | with_reducible apply Keeps.iteFst
    | exact @rfl Nat _
    | split
    | intro _ _
    | intro _
    | dsimp only

theorem execMonitorDc_ok (line : List Byte) (s : State) : OK s (execMonitorDc line s) := by
  unfold execMonitorDc
  repeat first
    | with_reducible assumption
    | with_reducible exact Keeps.refl _
    | with_reducible apply next_ok
    | with_reducible apply act_ok
    | with_reducible apply hostAct_ok
    | (simp only [keeps_mk]; with_reducible refine Keeps.fold ?_)
    | with_reducible apply monitorLine_keeps
    | with_reducible apply monitorDcAnswer_keeps
    | with_reducible apply refusedClear_keeps
    | with_reducible apply foldl_keeps
    | with_reducible apply Keeps.ite
    | with_reducible apply Keeps.iteFst
    | exact @rfl Nat _
    | split
    | intro _ _
    | intro _
    | dsimp only

theorem execMonitorDx_ok (s : State) : OK s (execMonitorDx s) := by
  unfold execMonitorDx
  repeat first
    | with_reducible assumption
    | with_reducible exact Keeps.refl _
    | with_reducible apply next_ok
    | with_reducible apply act_ok
    | with_reducible apply hostAct_ok
    | (simp only [keeps_mk]; with_reducible refine Keeps.fold ?_)
    | with_reducible apply monitorTakes_keeps
    | with_reducible apply monitorDxAnswer_keeps
    | with_reducible apply foldl_keeps
    | with_reducible apply Keeps.ite
    | with_reducible apply Keeps.iteFst
    | exact @rfl Nat _
    | split
    | intro _ _
    | intro _
    | dsimp only

theorem execMonitorLc_ok (line : List Byte) (s : State) : OK s (execMonitorLc line s) := by
  unfold execMonitorLc
  repeat first
    | with_reducible assumption
    | with_reducible exact Keeps.refl _
    | with_reducible apply next_ok
    | with_reducible apply act_ok
    | with_reducible apply hostAct_ok
    | (simp only [keeps_mk]; with_reducible refine Keeps.fold ?_)
    | with_reducible apply monitorLine_keeps
    | with_reducible apply refusedClear_keeps
    | with_reducible apply monitorLcAnswer_keeps
    | with_reducible apply foldl_keeps
    | with_reducible apply Keeps.ite
    | with_reducible apply Keeps.iteFst
    | exact @rfl Nat _
    | split
    | intro _ _
    | intro _
    | dsimp only

theorem execMonitorRr_ok (line : List Byte) (s : State) : OK s (execMonitorRr line s) := by
  unfold execMonitorRr
  repeat first
    | with_reducible assumption
    | with_reducible exact Keeps.refl _
    | with_reducible apply next_ok
    | with_reducible apply act_ok
    | with_reducible apply hostAct_ok
    | (simp only [keeps_mk]; with_reducible refine Keeps.fold ?_)
    | with_reducible apply monitorLine_keeps
    | with_reducible apply permitted_keeps
    | with_reducible apply monitorRead_keeps
    | with_reducible apply foldl_keeps
    | with_reducible apply Keeps.ite
    | with_reducible apply Keeps.iteFst
    | exact @rfl Nat _
    | split
    | intro _ _
    | intro _
    | dsimp only

theorem execMonitorRw_ok (line : List Byte) (s : State) : OK s (execMonitorRw line s) := by
  unfold execMonitorRw
  repeat first
    | with_reducible assumption
    | with_reducible exact Keeps.refl _
    | with_reducible apply next_ok
    | with_reducible apply act_ok
    | with_reducible apply hostAct_ok
    | (simp only [keeps_mk]; with_reducible refine Keeps.fold ?_)
    | with_reducible apply monitorLine_keeps
    | with_reducible apply permitted_keeps
    | with_reducible apply monitorWrite_keeps
    | with_reducible apply foldl_keeps
    | with_reducible apply Keeps.ite
    | with_reducible apply Keeps.iteFst
    | exact @rfl Nat _
    | split
    | intro _ _
    | intro _
    | dsimp only

theorem execMonitorNr_ok (line : List Byte) (s : State) : OK s (execMonitorNr line s) := by
  unfold execMonitorNr
  repeat first
    | with_reducible assumption
    | with_reducible exact Keeps.refl _
    | with_reducible apply next_ok
    | with_reducible apply act_ok
    | with_reducible apply hostAct_ok
    | (simp only [keeps_mk]; with_reducible refine Keeps.fold ?_)
    | with_reducible apply monitorLine_keeps
    | with_reducible apply permitted_keeps
    | with_reducible apply monitorNv_keeps
    | with_reducible apply foldl_keeps
    | with_reducible apply Keeps.ite
    | with_reducible apply Keeps.iteFst
    | exact @rfl Nat _
    | split
    | intro _ _
    | intro _
    | dsimp only

theorem execMonitorSr_ok (line : List Byte) (s : State) : OK s (execMonitorSr line s) := by
  unfold execMonitorSr
  repeat first
    | with_reducible assumption
    | with_reducible exact Keeps.refl _
    | with_reducible apply next_ok
    | with_reducible apply act_ok
    | with_reducible apply hostAct_ok
    | (simp only [keeps_mk]; with_reducible refine Keeps.fold ?_)
    | with_reducible apply monitorLine_keeps
    | with_reducible apply permitted_keeps
    | with_reducible apply monitorStore_keeps
    | with_reducible apply foldl_keeps
    | with_reducible apply Keeps.ite
    | with_reducible apply Keeps.iteFst
    | exact @rfl Nat _
    | split
    | intro _ _
    | intro _
    | dsimp only

theorem execMonitorBr_ok (line : List Byte) (s : State) : OK s (execMonitorBr line s) := by
  unfold execMonitorBr
  repeat first
    | with_reducible assumption
    | with_reducible exact Keeps.refl _
    | with_reducible apply next_ok
    | with_reducible apply act_ok
    | with_reducible apply hostAct_ok
    | (simp only [keeps_mk]; with_reducible refine Keeps.fold ?_)
    | with_reducible apply monitorLine_keeps
    | with_reducible apply monitorRate_keeps
    | with_reducible apply foldl_keeps
    | with_reducible apply Keeps.ite
    | with_reducible apply Keeps.iteFst
    | exact @rfl Nat _
    | split
    | intro _ _
    | intro _
    | dsimp only

theorem execBaudSwitch_ok (s : State) : OK s (execBaudSwitch s) :=
  act_ok (baudSwitch_keeps _ (.refl _))

theorem execMonitorBc_ok (s : State) : OK s (execMonitorBc s) :=
  act_ok (confirmBaud_keeps _ (.refl _))

theorem execBaudReverted_ok (s : State) : OK s (execBaudReverted s) := by
  unfold execBaudReverted
  repeat first
    | with_reducible assumption
    | with_reducible exact Keeps.refl _
    | with_reducible apply next_ok
    | with_reducible apply act_ok
    | with_reducible apply hostAct_ok
    | (simp only [keeps_mk]; with_reducible refine Keeps.fold ?_)
    | with_reducible apply revertBaud_keeps
    | with_reducible apply foldl_keeps
    | with_reducible apply Keeps.ite
    | with_reducible apply Keeps.iteFst
    | exact @rfl Nat _
    | split
    | intro _ _
    | intro _
    | dsimp only

theorem execMonitorUnknownCmd_ok (line : List Byte) (s : State) : OK s (execMonitorUnknownCmd line s) := by
  unfold execMonitorUnknownCmd
  repeat first
    | with_reducible assumption
    | with_reducible exact Keeps.refl _
    | with_reducible apply next_ok
    | with_reducible apply act_ok
    | with_reducible apply hostAct_ok
    | (simp only [keeps_mk]; with_reducible refine Keeps.fold ?_)
    | with_reducible apply confirmBaud_keeps
    | with_reducible apply monitorTakes_keeps
    | with_reducible apply badLine_keeps
    | with_reducible apply foldl_keeps
    | with_reducible apply Keeps.ite
    | with_reducible apply Keeps.iteFst
    | exact @rfl Nat _
    | split
    | intro _ _
    | intro _
    | dsimp only

theorem execRegisterRead_ok (w : Window) (off : BitVec 26) (width : BitVec 7) (s : State) : OK s (execRegisterRead w off width s) := by
  unfold execRegisterRead
  repeat first
    | with_reducible assumption
    | with_reducible exact Keeps.refl _
    | with_reducible apply next_ok
    | with_reducible apply act_ok
    | with_reducible apply hostAct_ok
    | (simp only [keeps_mk]; with_reducible refine Keeps.fold ?_)
    | with_reducible apply hostRead_keeps
    | with_reducible apply foldl_keeps
    | with_reducible apply Keeps.ite
    | with_reducible apply Keeps.iteFst
    | exact @rfl Nat _
    | split
    | intro _ _
    | intro _
    | dsimp only

theorem execEqualiserAdapted_ok (port : BitVec 1) (s : State) : OK s (execEqualiserAdapted port s) :=
  act_ok (equaliserAdapted_keeps _ _ (.refl _))

theorem execLinkTrainingComplete_ok (k : BitVec 2) (lanes : BitVec 3) (s : State) : OK s (execLinkTrainingComplete k lanes s) :=
  act_ok (linkTrainingComplete_keeps _ _ _ (.refl _))

theorem execCardWaitTimeout_ok (s : State) : OK s (execCardWaitTimeout s) :=
  act_ok (cardWaitTimeout_keeps _ (.refl _))

theorem execArcReadyTimeout_ok (s : State) : OK s (execArcReadyTimeout s) :=
  act_ok (arcReadyTimeout_keeps _ (.refl _))

theorem execBatteryDomainPowerLoss_ok (s : State) : OK s (execBatteryDomainPowerLoss s) := by
  unfold execBatteryDomainPowerLoss
  repeat first
    | with_reducible assumption
    | with_reducible exact Keeps.refl _
    | with_reducible apply next_ok
    | with_reducible apply act_ok
    | with_reducible apply hostAct_ok
    | (simp only [keeps_mk]; with_reducible refine Keeps.fold ?_)
    | with_reducible apply batteryLoss_keeps
    | with_reducible apply foldl_keeps
    | with_reducible apply Keeps.ite
    | with_reducible apply Keeps.iteFst
    | exact @rfl Nat _
    | split
    | intro _ _
    | intro _
    | dsimp only

theorem execBatteryDomainPowerUp_ok (s : State) : OK s (execBatteryDomainPowerUp s) :=
  act_ok (batteryUp_keeps _ (.refl _))

theorem execCrystalStopped_ok (s : State) : OK s (execCrystalStopped s) :=
  act_ok (stopCrystal_keeps _ (.refl _))

theorem exec_ok (i : Instr) (s : State) : OK s (exec i s) := by
  cases i
  · exact execMlkemKeygen_ok _ _
  · exact execMlkemEncaps_ok _ _
  · exact execMlkemDecaps_ok _ _
  · exact execMlkemPubkey_ok _ _
  · exact execMldsaKeygen_ok _ _
  · exact execMldsaSign_ok _ _
  · exact execMldsaVerify_ok _ _
  · exact execMldsaPubkey_ok _ _
  · exact execFndsaKeygen_ok _ _
  · exact execFndsaSign_ok _ _
  · exact execFndsaVerify_ok _ _
  · exact execFndsaPubkey_ok _ _
  · exact execSlhdsaKeygen_ok _ _
  · exact execSlhdsaSign_ok _ _
  · exact execSlhdsaVerify_ok _ _
  · exact execSlhdsaPubkey_ok _ _
  · exact execLmsKeygen_ok _ _
  · exact execLmsSign_ok _ _
  · exact execLmsVerify_ok _ _
  · exact execLmsPubkey_ok _ _
  · exact execXmssKeygen_ok _ _
  · exact execXmssSign_ok _ _
  · exact execXmssVerify_ok _ _
  · exact execXmssPubkey_ok _ _
  · exact execXmssmtKeygen_ok _ _
  · exact execXmssmtSign_ok _ _
  · exact execXmssmtVerify_ok _ _
  · exact execXmssmtPubkey_ok _ _
  · exact execHsStateBind_ok _ _
  · exact execHsStateQuery_ok _ _
  · exact execDigest_ok _ _
  · exact execDigestKey_ok _ _
  · exact execAesEncrypt_ok _ _
  · exact execAesDecrypt_ok _ _
  · exact execHqcKeygen_ok _ _
  · exact execHqcEncaps_ok _ _
  · exact execHqcDecaps_ok _ _
  · exact execHqcPubkey_ok _ _
  · exact execMceKeygen_ok _ _
  · exact execMceEncaps_ok _ _
  · exact execMceDecaps_ok _ _
  · exact execMcePubkey_ok _ _
  · exact execMcePkPin_ok _ _
  · exact execEcKeygen_ok _ _
  · exact execEcdsaSign_ok _ _
  · exact execEcdsaVerify_ok _ _
  · exact execEcdh_ok _ _
  · exact execEcPubkey_ok _ _
  · exact execEddsaKeygen_ok _ _
  · exact execEddsaSign_ok _ _
  · exact execEddsaVerify_ok _ _
  · exact execEddsaPubkey_ok _ _
  · exact execXdhKeygen_ok _ _
  · exact execXdh_ok _ _
  · exact execXdhPubkey_ok _ _
  · exact execRsaKeygen_ok _ _
  · exact execRsaSign_ok _ _
  · exact execRsaVerify_ok _ _
  · exact execRsaEncrypt_ok _ _
  · exact execRsaDecrypt_ok _ _
  · exact execRsaPubkey_ok _ _
  · exact execDhKeygen_ok _ _
  · exact execDh_ok _ _
  · exact execDhPubkey_ok _ _
  · exact execCurveLoad_ok _ _
  · exact execRngGenerate_ok _ _
  · exact execDrbgReseed_ok _ _
  · exact execDrbgInstantiate_ok _ _
  · exact execDrbgInfo_ok _ _
  · exact execRngRaw_ok _ _
  · exact execVaultImport_ok _ _
  · exact execVaultExport_ok _ _
  · exact execVaultDelete_ok _ _
  · exact execVaultInfo_ok _ _
  · exact execVaultDerive_ok _ _
  · exact execVaultModify_ok _ _
  · exact execNvWriteDone_ok _ _ _
  · exact execFlowCreate_ok _ _
  · exact execFlowDelete_ok _ _
  · exact execFlowKey_ok _ _
  · exact execFlowSet_ok _ _
  · exact execFlowResync_ok _ _
  · exact execFlowRead_ok _ _
  · exact execFlowStandby_ok _ _
  · exact execStreamSend_ok _ _
  · exact execVprogVerify_ok _ _
  · exact execVprogRun_ok _ _
  · exact execVprogTimeLimit_ok _ _
  · exact execPorterStart_ok _ _
  · exact execPorterStop_ok _ _
  · exact execPorterInstruction_ok _ _ _
  · exact execPorterMoveUnit_ok _ _ _
  · exact execPorterWaitPoll_ok _ _ _ _
  · exact execPlanStage_ok _ _ _
  · exact execPlanSignerAdd_ok _ _
  · exact execPlanSignerRemove_ok _ _
  · exact execPlanSvnRaise_ok _ _
  · exact execPlanRead_ok _ _
  · exact execPatchStage_ok _ _ _
  · exact execPatchSvnRaise_ok _ _
  · exact execFwStage_ok _ _ _
  · exact execFwSvnRaise_ok _ _
  · exact execDormantEnter_ok _ _
  · exact execBootRetry_ok _ _
  · exact execCtxAlloc_ok _ _
  · exact execCtxFree_ok _ _
  · exact execPitchExport_ok _ _
  · exact execPitchImport_ok _ _
  · exact execLcNonce_ok _ _
  · exact execLcTransition_ok _ _
  · exact execDebugGrant_ok _ _
  · exact execAlarmUnlock_ok _ _
  · exact execEvidenceRead_ok _ _
  · exact execLedgerRead_ok _ _
  · exact execLedgerClear_ok _ _
  · exact execCustodianEnrol_ok _ _
  · exact execCustodianRemove_ok _ _
  · exact execQuorumSet_ok _ _
  · exact execQuorumOpen_ok _ _
  · exact execKeeperPresent_ok _ _
  · exact execQuorumClose_ok _ _
  · exact execKeeperIdentify_ok _ _
  · exact execArchiveMount_ok _ _
  · exact execArchiveFormat_ok _ _
  · exact execArchiveExport_ok _ _
  · exact execOpcodeUndefined_ok _ _
  · exact execDescriptorFetch_ok _
  · exact execRingReadFail_ok _ _ _
  · exact execJobPlace_ok _ _
  · exact execJobComplete_ok _ _ _
  · exact execDmaFault_ok _ _ _
  · exact execCoalTimeExpiry_ok _ _
  · exact execSqPi_ok _ _ _ _
  · exact execCqCi_ok _ _ _ _
  · exact execQueueCommit_ok _ _
  · exact execQueueEnable_ok _ _
  · exact execQueueDisable_ok _ _
  · exact execQueueRestart_ok _ _
  · exact execCrateFlagWrite_ok _ _ _ _
  · exact execCrateDataWrite_ok _ _ _
  · exact execCrateCommit_ok _
  · exact execChannelCommit_ok _ _
  · exact execChannelStart_ok _ _
  · exact execChannelStop_ok _ _
  · exact execPitchCommit_ok _ _
  · exact execPitchReset_ok _ _ _
  · exact execSelfReset_ok _ _ _
  · exact execPitchResetEnd_ok _ _
  · exact execPitchStateFault_ok _ _
  · exact execFreeze_ok _ _
  · exact execPitchFrozen_ok _ _
  · exact execThaw_ok _ _
  · exact execLogEnable_ok _ _
  · exact execLogSwap_ok _ _
  · exact execLogSwapDone_ok _ _
  · exact execLogDisable_ok _ _
  · exact execEpochWrite_ok _ _
  · exact execEpochLock_ok _
  · exact execIntSummaryMaskWrite_ok _ _
  · exact execStreamCommit_ok _
  · exact execTimeSet_ok _
  · exact execTimeInvalidate_ok _
  · exact execTimeStep_ok _ _
  · exact execPortCommit_ok _ _
  · exact execDqCommit_ok _ _
  · exact execDqEnable_ok _ _
  · exact execDqDisable_ok _ _
  · exact execRetestRetired_ok _
  · exact execLinkCommit_ok _
  · exact execRetrain_ok _ _
  · exact execPwrRestart_ok _ _
  · exact execPaceTargetWrite_ok _ _
  · exact execRegisterWrite_ok _ _ _ _ _
  · exact execMsixVectorUnmask_ok _ _
  · exact execMsixFunctionUnmask_ok _
  · exact execMsixEnable_ok _
  · exact execAtsInvalidation_ok _ _
  · exact execD3hotEntry_ok _
  · exact execD0Return_ok _
  · exact execPcieConventionalReset_ok _ _
  · exact execFunctionLevelReset_ok _
  · exact execPowerOnReset_ok _ _
  · exact execInternalResetAssert_ok _
  · exact execStartTimeout_ok _
  · exact execFailedStartRestart_ok _ _
  · exact execDeviceRestart_ok _ _
  · exact execDormantStayTimeout_ok _ _
  · exact execBatterySwitchover_ok _ _
  · exact execBatterySample_ok _ _
  · exact execLidEdge_ok _ _
  · exact execTempSample_ok _ _ _ _ _
  · exact execAlarmTrip_ok _ _ _
  · exact execDecisionSecond_ok _ _
  · exact execAlarmSourceClear_ok _ _
  · exact execRailWindowReturn_ok _ _
  · exact execDualRailFault_ok _ _
  · exact execStoreEccUncorrectable_ok _ _ _
  · exact execTileStoreReloadDone_ok _ _ _
  · exact execScrubTick_ok _ _ _
  · exact execHallCopyMismatch_ok _ _
  · exact execHallReloadDone_ok _ _
  · exact execDataEccError_ok _ _
  · exact execTileFault_ok _ _ _
  · exact execTileSelfTestDone_ok _ _ _
  · exact execSpareJoin_ok _
  · exact execEngineFcmTrip_ok _ _
  · exact execEngineWipeDone_ok _ _ _
  · exact execFrameReceive_ok _ _ _
  · exact execFrameCheck_ok _
  · exact execDqCiRead_ok _ _ _
  · exact execUnmatchedToken_ok _
  · exact execPrpEntryAge_ok _ _
  · exact execKeyGraceExpiry_ok _ _
  · exact execPortLinkChange_ok _ _ _
  · exact execBeanSample_ok _ _
  · exact execBeanTrimWindow_ok _ _
  · exact execBeanRetestDone_ok _ _ _
  · exact execGrindBlock_ok _
  · exact execEntropyHoldExpiry_ok _
  · exact execMaskFeedsOpen_ok _
  · exact execDrbgReseedDue_ok _ _
  · exact execLedgerRecordWrite_ok _
  · exact execLedgerTallyWrite_ok _
  · exact execOptimeSave_ok _
  · exact execPaceSample_ok _ _
  · exact execAvsFrameResponse_ok _ _
  · exact execAvsRetry_ok _
  · exact execKeeperCardInsert_ok _
  · exact execKeeperCardRemove_ok _
  · exact execAtrReceive_ok _ _
  · exact execPpsResponse_ok _ _
  · exact execCardBlockReceive_ok _ _
  · exact execCardBlockTimeout_ok _
  · exact execQuorumSessionExpiry_ok _
  · exact execArcCardInsert_ok _ _
  · exact execArcCardRemove_ok _
  · exact execArcBusyTimeout_ok _
  · exact execLinkTrainAttempt_ok _ _
  · exact execHandshakeMessage_ok _ _ _
  · exact execHandshakeTimeout_ok _ _
  · exact execSessionRekey_ok _ _
  · exact execHeartbeatSend_ok _ _
  · exact execHeartbeatReceive_ok _ _ _ _
  · exact execPeerLost_ok _ _
  · exact execLoadAdvertise_ok _
  · exact execJobForwardReceive_ok _ _ _ _ _ _ _
  · exact execJobForwardResult_ok _ _ _
  · exact execSpillReceive_ok _ _ _ _ _ _ _ _
  · exact execSpillResult_ok _ _ _
  · exact execFlowMirrorUpdate_ok _ _ _
  · exact execBoundaryScanTakeover_ok _ _
  · exact execJtagTestReset_ok _
  · exact execMonitorId_ok _
  · exact execMonitorSt_ok _
  · exact execMonitorNc_ok _
  · exact execMonitorLd_ok _ _
  · exact execMonitorDc_ok _ _
  · exact execMonitorDx_ok _
  · exact execMonitorLc_ok _ _
  · exact execMonitorRr_ok _ _
  · exact execMonitorRw_ok _ _
  · exact execMonitorNr_ok _ _
  · exact execMonitorSr_ok _ _
  · exact execMonitorBr_ok _ _
  · exact execBaudSwitch_ok _
  · exact execMonitorBc_ok _
  · exact execBaudReverted_ok _
  · exact execMonitorUnknownCmd_ok _ _
  · exact execRegisterRead_ok _ _ _ _
  · exact execEqualiserAdapted_ok _ _
  · exact execLinkTrainingComplete_ok _ _ _
  · exact execCardWaitTimeout_ok _
  · exact execArcReadyTimeout_ok _
  · exact execBatteryDomainPowerLoss_ok _
  · exact execBatteryDomainPowerUp_ok _
  · exact execCrystalStopped_ok _

end Sys2Proof.Machine
end

