-- ==== Sys2Proof/WellFormed.lean ====
section
/-! DEFINITION. Which commands can reach the part: every operand within the range that its rule gives. -/
namespace Sys2Proof

/-- One of the three links (R433). -/
def linkOk (k : BitVec 2) : Bool := decide (k.toNat < 3)

/-- One of the 80 beans (R320). -/
def beanOk (n : BitVec 7) : Bool := decide (n.toNat < 80)

/-- An access of 8, 16, 32 or 64 bits within a window (R55). -/
def accessOk (w : Window) (off : BitVec 26) (width : BitVec 7) : Bool :=
  [8, 16, 32, 64].contains width.toNat &&
  match w with
  | .control => decide (off.toNat + width.toNat / 8 ≤ 0x4000000)
  | .doorbell => decide (off.toNat + width.toNat / 8 ≤ 0x100000)
  | .crate => decide (off.toNat + width.toNat / 8 ≤ 0x800000)
  | .msixControl => off == 0
  | .config => decide (off.toNat + width.toNat / 8 ≤ 0x1000)

/-- A 32-bit or 64-bit write of flag bytes on its own boundary (R9, R80). -/
def flagsOk (first : BitVec 11) (flags : List Byte) : Bool :=
  (decide (flags.length = 4) && decide (first.toNat % 4 = 0)) || (decide (flags.length = 8) && decide (first.toNat % 8 = 0))

/-- Bytes that a write puts into the CRATE window (R55). -/
def crateSpanOk (off : BitVec 23) (data : List Byte) : Bool := !data.isEmpty && decide (off.toNat + data.length ≤ 0x800000)

/-- The beans that trip at a start, and their tests (R322). -/
def startOk (i : StartInput) : Bool := i.beanTrips.all (fun e => beanOk e.1 && e.2.all (fun c => c == 1 || c == 2))

/-- An archive card's blocks are 512 bytes each, below its capacity (R422). -/
def arcCardOk (c : ArcCard) : Bool :=
  c.blocks.all (fun e => decide (e.1 < ((c.csd.extractLsb' 48 22).toNat + 1) * 1024) && decide (e.2.length = 512))

/-- The link of a job that a peer sent (R438). -/
def jobOk (j : JobId) : Bool := j.src == 0 || j.queue == 0 || j.queue == 1

/-- Every operand of a command is in its range. -/
def Instr.wellFormed : Instr → Bool
  | .mlkemKeygen j => jobOk j
  | .mlkemEncaps j => jobOk j
  | .mlkemDecaps j => jobOk j
  | .mlkemPubkey j => jobOk j
  | .mldsaKeygen j => jobOk j
  | .mldsaSign j => jobOk j
  | .mldsaVerify j => jobOk j
  | .mldsaPubkey j => jobOk j
  | .fndsaKeygen j => jobOk j
  | .fndsaSign j => jobOk j
  | .fndsaVerify j => jobOk j
  | .fndsaPubkey j => jobOk j
  | .slhdsaKeygen j => jobOk j
  | .slhdsaSign j => jobOk j
  | .slhdsaVerify j => jobOk j
  | .slhdsaPubkey j => jobOk j
  | .lmsKeygen j => jobOk j
  | .lmsSign j => jobOk j
  | .lmsVerify j => jobOk j
  | .lmsPubkey j => jobOk j
  | .xmssKeygen j => jobOk j
  | .xmssSign j => jobOk j
  | .xmssVerify j => jobOk j
  | .xmssPubkey j => jobOk j
  | .xmssmtKeygen j => jobOk j
  | .xmssmtSign j => jobOk j
  | .xmssmtVerify j => jobOk j
  | .xmssmtPubkey j => jobOk j
  | .hsStateBind j => jobOk j
  | .hsStateQuery j => jobOk j
  | .digest j => jobOk j
  | .digestKey j => jobOk j
  | .aesEncrypt j => jobOk j
  | .aesDecrypt j => jobOk j
  | .hqcKeygen j => jobOk j
  | .hqcEncaps j => jobOk j
  | .hqcDecaps j => jobOk j
  | .hqcPubkey j => jobOk j
  | .mceKeygen j => jobOk j
  | .mceEncaps j => jobOk j
  | .mceDecaps j => jobOk j
  | .mcePubkey j => jobOk j
  | .mcePkPin j => jobOk j
  | .ecKeygen j => jobOk j
  | .ecdsaSign j => jobOk j
  | .ecdsaVerify j => jobOk j
  | .ecdh j => jobOk j
  | .ecPubkey j => jobOk j
  | .eddsaKeygen j => jobOk j
  | .eddsaSign j => jobOk j
  | .eddsaVerify j => jobOk j
  | .eddsaPubkey j => jobOk j
  | .xdhKeygen j => jobOk j
  | .xdh j => jobOk j
  | .xdhPubkey j => jobOk j
  | .rsaKeygen j => jobOk j
  | .rsaSign j => jobOk j
  | .rsaVerify j => jobOk j
  | .rsaEncrypt j => jobOk j
  | .rsaDecrypt j => jobOk j
  | .rsaPubkey j => jobOk j
  | .dhKeygen j => jobOk j
  | .dh j => jobOk j
  | .dhPubkey j => jobOk j
  | .curveLoad j => jobOk j
  | .rngGenerate j => jobOk j
  | .drbgReseed j => jobOk j
  | .drbgInstantiate j => jobOk j
  | .drbgInfo j => jobOk j
  | .rngRaw j => jobOk j
  | .vaultImport j => jobOk j
  | .vaultExport j => jobOk j
  | .vaultDelete j => jobOk j
  | .vaultInfo j => jobOk j
  | .vaultDerive j => jobOk j
  | .vaultModify j => jobOk j
  | .nvWriteDone j _ => jobOk j
  | .flowCreate j => jobOk j
  | .flowDelete j => jobOk j
  | .flowKey j => jobOk j
  | .flowSet j => jobOk j
  | .flowResync j => jobOk j
  | .flowRead j => jobOk j
  | .flowStandby j => jobOk j
  | .streamSend j => jobOk j
  | .vprogVerify j => jobOk j
  | .vprogRun j => jobOk j
  | .vprogTimeLimit j => jobOk j
  | .porterStart j => jobOk j
  | .porterStop j => jobOk j
  | .porterInstruction _ _ => true
  | .porterMoveUnit _ _ => true
  | .porterWaitPoll _ _ _ => true
  | .planStage j _ => jobOk j
  | .planSignerAdd j => jobOk j
  | .planSignerRemove j => jobOk j
  | .planSvnRaise j => jobOk j
  | .planRead j => jobOk j
  | .patchStage j _ => jobOk j
  | .patchSvnRaise j => jobOk j
  | .fwStage j _ => jobOk j
  | .fwSvnRaise j => jobOk j
  | .dormantEnter j => jobOk j
  | .bootRetry j => jobOk j
  | .ctxAlloc j => jobOk j
  | .ctxFree j => jobOk j
  | .pitchExport j => jobOk j
  | .pitchImport j => jobOk j
  | .lcNonce j => jobOk j
  | .lcTransition j => jobOk j
  | .debugGrant j => jobOk j
  | .alarmUnlock j => jobOk j
  | .evidenceRead j => jobOk j
  | .ledgerRead j => jobOk j
  | .ledgerClear j => jobOk j
  | .custodianEnrol j => jobOk j
  | .custodianRemove j => jobOk j
  | .quorumSet j => jobOk j
  | .quorumOpen j => jobOk j
  | .keeperPresent j => jobOk j
  | .quorumClose j => jobOk j
  | .keeperIdentify j => jobOk j
  | .archiveMount j => jobOk j
  | .archiveFormat j => jobOk j
  | .archiveExport j => jobOk j
  | .opcodeUndefined j => jobOk j
  | .descriptorFetch => true
  | .ringReadFail _ _ => true
  | .jobPlace j => jobOk j
  | .jobComplete j _ => jobOk j
  | .dmaFault j _ => jobOk j
  | .coalTimeExpiry _ => true
  | .sqPi _ _ _ => true
  | .cqCi _ _ _ => true
  | .queueCommit _ => true
  | .queueEnable _ => true
  | .queueDisable _ => true
  | .queueRestart _ => true
  | .crateFlagWrite _ first flags => flagsOk first flags
  | .crateDataWrite off data => crateSpanOk off data
  | .crateCommit => true
  | .channelCommit _ => true
  | .channelStart _ => true
  | .channelStop _ => true
  | .pitchCommit _ => true
  | .pitchReset _ _ => true
  | .selfReset _ _ => true
  | .pitchResetEnd _ => true
  | .pitchStateFault _ => true
  | .freeze _ => true
  | .pitchFrozen _ => true
  | .thaw _ => true
  | .logEnable _ => true
  | .logSwap _ => true
  | .logSwapDone _ => true
  | .logDisable _ => true
  | .epochWrite _ => true
  | .epochLock => true
  | .intSummaryMaskWrite _ => true
  | .streamCommit => true
  | .timeSet => true
  | .timeInvalidate => true
  | .timeStep _ => true
  | .portCommit _ => true
  | .dqCommit _ => true
  | .dqEnable _ => true
  | .dqDisable _ => true
  | .retestRetired => true
  | .linkCommit => true
  | .retrain k => linkOk k
  | .pwrRestart _ => true
  | .paceTargetWrite _ => true
  | .registerWrite w off width _ => accessOk w off width
  | .msixVectorUnmask _ => true
  | .msixFunctionUnmask => true
  | .msixEnable => true
  | .atsInvalidation r => decide (0 < r.count.toNat ∧ r.first.toNat + r.count.toNat ≤ 2 ^ 52)
  | .d3hotEntry => true
  | .d0Return => true
  | .pcieConventionalReset _ => true
  | .functionLevelReset => true
  | .powerOnReset i => startOk i
  | .internalResetAssert => true
  | .startTimeout => true
  | .failedStartRestart i => startOk i
  | .deviceRestart i => startOk i
  | .dormantStayTimeout i => startOk i
  | .batterySwitchover _ => true
  | .batterySample _ => true
  | .lidEdge _ => true
  | .tempSample _ _ _ _ => true
  | .alarmTrip _ _ => true
  | .decisionSecond _ => true
  | .alarmSourceClear _ => true
  | .railWindowReturn _ => true
  | .dualRailFault _ => true
  | .storeEccUncorrectable _ _ => true
  | .tileStoreReloadDone _ _ => true
  | .scrubTick _ _ => true
  | .hallCopyMismatch _ => true
  | .hallReloadDone _ => true
  | .dataEccError _ => true
  | .tileFault j _ => jobOk j
  | .tileSelfTestDone _ _ => true
  | .spareJoin => true
  | .engineFcmTrip _ => true
  | .engineWipeDone _ _ => true
  | .frameReceive _ f => !f.isEmpty
  | .frameCheck => true
  | .dqCiRead _ _ => true
  | .unmatchedToken => true
  | .prpEntryAge _ => true
  | .keyGraceExpiry _ => true
  | .portLinkChange _ _ => true
  | .beanSample _ => true
  | .beanTrimWindow n => beanOk n
  | .beanRetestDone n outcome => beanOk n && decide (outcome.toNat ≤ 2)
  | .grindBlock => true
  | .entropyHoldExpiry => true
  | .maskFeedsOpen => true
  | .drbgReseedDue _ => true
  | .ledgerRecordWrite => true
  | .ledgerTallyWrite => true
  | .optimeSave => true
  | .paceSample _ => true
  | .avsFrameResponse _ => true
  | .avsRetry => true
  | .keeperCardInsert => true
  | .keeperCardRemove => true
  | .atrReceive _ => true
  | .ppsResponse _ => true
  | .cardBlockReceive _ => true
  | .cardBlockTimeout => true
  | .quorumSessionExpiry => true
  | .arcCardInsert c => arcCardOk c
  | .arcCardRemove => true
  | .arcBusyTimeout => true
  | .linkTrainAttempt k => linkOk k
  | .handshakeMessage k m => linkOk k && m.step != 0
  | .handshakeTimeout k => linkOk k
  | .sessionRekey k => linkOk k
  | .heartbeatSend k => linkOk k
  | .heartbeatReceive k _ _ => linkOk k
  | .peerLost k => linkOk k
  | .loadAdvertise => true
  | .jobForwardReceive k _ _ _ _ _ => linkOk k
  | .jobForwardResult j _ => j.src == 0
  | .spillReceive k _ _ _ _ _ _ => linkOk k
  | .spillResult j _ => j.src == 0
  | .flowMirrorUpdate k _ => linkOk k
  | .boundaryScanTakeover _ => true
  | .jtagTestReset => true
  | .monitorId => true
  | .monitorSt => true
  | .monitorNc => true
  | .monitorLd _ => true
  | .monitorDc _ => true
  | .monitorDx => true
  | .monitorLc _ => true
  | .monitorRr _ => true
  | .monitorRw _ => true
  | .monitorNr _ => true
  | .monitorSr _ => true
  | .monitorBr _ => true
  | .baudSwitch => true
  | .monitorBc => true
  | .baudReverted => true
  | .monitorUnknownCmd _ => true
  | .registerRead w off width => accessOk w off width
  | .equaliserAdapted _ => true
  | .linkTrainingComplete k lanes => linkOk k && decide (lanes.toNat ≤ 4)
  | .cardWaitTimeout => true
  | .arcReadyTimeout => true
  | .batteryDomainPowerLoss => true
  | .batteryDomainPowerUp => true
  | .crystalStopped => true

end Sys2Proof
end

