-- ==== Sys2Proof/Tests/Slice0.lean ====
section
/-! SUPPORT. The tests: for every statement with hypotheses a state that meets them, worked examples of the spec, and terms that are
not well formed. -/
open Sys2Proof Sys2Proof.Machine
namespace Sys2Proof.Tests

-- One theorem after another: each asks the kernel itself, and a thread for each that waits would fill the memory.
set_option Elab.async false

/-! ### States of the tests -/

/-- An empty non-volatile die. -/
def bareNv : Nv :=
  { planA := emptyBank, planB := emptyBank, patchA := emptyBank, patchB := emptyBank, fwA := emptyBank, fwB := emptyBank,
    planSvnMin := SvnMin.reset, patchSvnMin := SvnMin.reset, fwSvnMin := SvnMin.reset, signers := [none, none, none], keys := [], user := [],
    evidence := [], evFull := false, evLost := 0, wipe := Journal.reset, clear := Journal.reset, importOpen := none, exportIds := [],
    optimeA := some 0, optimeB := some 0, optimeNext := false, cyclesA := some 0, cyclesB := some 0, dormant := none, custodians := [],
    thresholds := List.replicate 6 2 }

/-- The part after reset, with an empty die. -/
def bare : State := { State.reset with nv := bareNv, genuine := [] }

/-- A descriptor of zeros. -/
def d0 : Desc :=
  { opcode := 0, flags := 0, tag := 0, contextId := 0, paramSet := 0, keyHandle := 0, inAddr := 0, inLen := 0, outLen := 0,
    outAddr := 0, auxAddr := 0, auxLen := 0, keyHandle2 := 0, param := 0 }

/-- A pitch of the test's plan. -/
def pp : PitchPlan :=
  { weight := 4, queueMax := 16, drbg := true, ctxReserve := 64, ctxCeiling := 256, cellReserve := 64, cellCeiling := 512,
    crateReserve := 16, crateCeiling := 64 }

/-- A plan with one stall of each role and two pitches. -/
def plan : Plan :=
  { svn := 1, signer := 0, planId := 7,
    stalls := [⟨0, .lattice, 1⟩, ⟨1, .hashsig, 2⟩, ⟨2, .stream, 4⟩, ⟨3, .code, 8⟩, ⟨4, .general, 16⟩],
    replace := true, minTiles := 1, priority := [.lattice], ingress := 64, egress := 64, pitches := [pp, pp], pb0Rates := 7,
    pb1Rates := 7, prpAllowed := true, frameKinds := 15, alarms := [], holdMs := 10, minMain := 32, minMask := 8, streamHold := false }

/-- A pitch in service. -/
def liveCfg : PitchCfg := { pitchCfgInit with bound := true, pasid := 1, weight := 4, queueLimit := 16, ctxCeiling := 256, cellCeiling := 512, crateCeiling := 64 }

def livePitch : Pitch := { pitchInit with cfg := liveCfg, shadow := liveCfg, state := .active }
def otherPitch : Pitch := { livePitch with cfg := { liveCfg with pasid := 2 }, shadow := { liveCfg with pasid := 2 } }

/-- A queue in service. -/
def liveQueueCfg : QueueCfg :=
  { queueCfgInit with descBase := 0x10000, cplBase := 0x20000, log2Size := 4, assigned := true, pitch := 0, weight := 4, burst := 4 }

def liveQueue : Queue := { queueInit with cfg := liveQueueCfg, shadow := liveQueueCfg, state := .enabled }

/-- A key in a slot of pitch 0, with every usage. -/
def key (typ set : BitVec 16) : Key :=
  { typ := typ, paramSet := set, pitch := 0, cells := 1, persist := false, bad := none, shares3 := false, faultPolicy := 0, origin := 1,
    exportable := true, usage := 0xFFFF, migratable := true, progSigner := 0, curveId := 0, created := 0, value := zeros 64, leaves := [], stateful := none }

/-- A stateful key of one level, with a context bound as its cache. -/
def tree (typ set : BitVec 16) (lv : Nat) (cs : List (BitVec 14)) : Key :=
  let f : Stateful := { seed := [], pub := zeros 60, levels := lv, height := 5, next := 1, nextFree := 8, limit := 32, recA := [], recB := [], lowSaid := 0, caches := cs }
  { key typ set with stateful := some f }

/-- The keys of the tests, by slot. -/
def keys : List (Nat × Slot) :=
  [(1, .key (key 2 1)), (2, .key (key 3 1)), (3, .key (key 4 1)), (4, .key (key 5 1)), (5, .key (tree 6 0x0105 1 [3])),
   (6, .key (tree 7 1 1 [3])), (7, .key (tree 8 1 2 [3, 4])), (8, .key (key 9 1)), (9, .key (key 10 1)), (10, .key (key 11 1)),
   (11, .key (key 12 1)), (12, .key (key 13 1)), (13, .key (key 14 2048)), (14, .key (key 15 0x101)), (15, .key { key 1 0 with value := zeros 32 }), (16, .key (key 3 2))]

/-- A context of pitch 0. -/
def ctx (kind : BitVec 16) (data : CtxData) : Context := { owner := 0, stale := .current, kind := kind, data := data }

/-- The part in service: two pitches, a queue, keys, contexts, seeded generators. -/
def served : State :=
  { bare with
    dev := { Dev.reset with phase := .ready, katPass := true, orderCode := 2, uid := 5 },
    plan := { PlanBlock.reset with inForce := some plan, members := [(0, 1), (1, 2), (2, 4), (3, 8), (4, 16)] },
    pitches := [(0, livePitch), (1, otherPitch)],
    queues := [(0, liveQueue)],
    vault := { Vault.reset with slots := keys, rootValid := true, nvLoaded := true },
    contexts := [(1, some (ctx 0 .empty)), (2, some (ctx 0 .empty)), (3, some (ctx 0 .empty)), (4, some (ctx 0 .empty))],
    rng := { Rng.reset with started := true, carafe := zeros 256,
                            drbgs := [(0, { drbgInit with seeded := true, key := zeros 32, v := zeros 16 })] } }

/-- The first descriptor of the queue. -/
def j0 : JobId := { src := 0, queue := 0, pos := 0 }

/-- A state with one descriptor of pitch 0 read. -/
def fed (s : State) (d : Desc) : State := { s with jobs := [jobInit j0 0 0 d], queues := Tab.set queueInit 0 { liveQueue with h := 1, p := 1 } s.queues }

/-- Every condition of a start. -/
def clear (sp : OpSpec) (s : State) (j : JobId) : Bool :=
  match s.job j with
  | none => false
  | some x =>
    let y := accepted s x
    let v := offered s x
    let q := queuedOn sp v y
    x.id == j && x.phase == .fetched && x.desc.opcode == sp.code && mayStart s x && (checkWithKey sp s x).isNone && (lateBad sp (lend x s) x).isNone &&
    (forwardLink s (sp.uses x.desc) x).isNone && placing v && !sp.blocked v y && !ctxBusy v y && (startBad sp v y).isNone &&
    (spillLink sp v y).isNone && y.reserved.isEmpty &&
    (!sp.masked v q || !v.rng.feedsStopped) && drawReady v (some y.id) y.pitch (drawsOf sp v q) == .ready &&
    (match unitsFor v q (sp.place v y), reserveAll y.pitch (sp.slots v q) v [] with
     | some _, .inr _ => true
     | _, _ => false)

/-- No value that a job draws falls short within it. -/
def ample (sp : OpSpec) (s : State) (j : JobId) : Bool :=
  match s.job j with
  | none => false
  | some x =>
    let y := accepted s x
    let v := offered s x
    let q := queuedOn sp v y
    match unitsFor v q (sp.place v y), reserveAll y.pitch (sp.slots v q) v [] with
    | some us, .inr (t, rs) => !drawnDry (runJob sp t q us rs) y.pitch
    | _, _ => false

/-- Bytes in host memory at an address of pitch 0. -/
def put (a : Nat) (bs : Bytes) (s : State) : State := { s with host := Tab.write 0#8 s.host (hostAddr 1 a) bs }

/-- A flow record of egress or ingress over layer 2. -/
def recBytes (egress : Bool) : Bytes :=
  [1, if egress then 1 else 0, 1, 0] ++ zeros 52 ++ (if egress then [0xFF, 0xFF] else [0, 0]) ++ [0, 0, 1, 0] ++ zeros 66

/-- A state with a flow in context 5. -/
def flowing (egress : Bool) (s : State) : State :=
  { s with contexts := Tab.set none 5 (some (ctx 0x0C01 (.flow (flowInit (flowRecOf (recBytes egress)) 0 [] [] [])))) s.contexts }

/-- One queue, one pitch beside pitch 0, one Porter channel, one crate, one link, one delivery queue, one port, in the part in service. -/
def queued (q : Queue) : State := { served with queues := [(0, q)] }
def pitched (x : Pitch) : State := { served with pitches := [(0, livePitch), (1, x)] }
def channelled (c : Channel) : State := { served with porter := [(0, c)] }
def crated (c : Crate) : State := { served with crates := { Crates.reset with held := [(0, some c)] } }
def linked (l : Link) : State := { served with links := { Links.reset with link := [l, Link.reset, Link.reset] } }
def delivering (q : Dq) : State := { served with stream := { Stream.reset with dqs := [(0, q)] } }
def porting (p : Port) : State := { served with stream := { Stream.reset with ports := [p, Port.reset] } }

/-- A job of pitch 0 that runs on units. -/
def busy (us : List Unit_) (d : Desc) : Job := { jobInit j0 0 0 d with phase := .running, units := us }
def working (x : Job) : State := { served with jobs := [x] }

/-- Every summary bit enabled, with a cause or none. -/
def minded (cause : Bool) (on : Bool) : State :=
  { served with
    dev := { served.dev with intEnable := 0x7FFF }
    pcie := { Pcie.reset with msixEnable := on }
    plan := { served.plan with pint := if cause then 1 else 0, pmask := 15 } }

theorem test_queue_commands_met :
    (windowsOpen served = true ∧ queueCommitBad served 0 = none) ∧
    (let s := queued { liveQueue with state := .disabled }
     (s.q 0).state = .disabled ∧ s.dev.phase = .ready ∧ (s.q 0).cfg.assigned = true ∧ (s.q 0).cfg.descBase ≠ 0 ∧
     (s.q 0).cfg.cplBase ≠ 0 ∧ (s.pitch (s.q 0).cfg.pitch).cfg.bound = true) ∧
    (let s := fed served d0; (s.q 0).state = .enabled ∧ inflight s 0 ≠ 0) ∧
    (let s := fed (queued { liveQueue with state := .error }) d0; inflight s 0 ≠ 0) ∧
    ((served.q 0).state = .enabled ∧ inflight served 0 = 0) ∧ (queued { liveQueue with state := .error }).q 0 ≠ queueInit ∧
    ((queued { liveQueue with state := .error }).q 0).state = .error ∧
    (let q := (queued { liveQueue with shadow := { liveQueueCfg with log2Size := 5 } }).q 0
     structuralDiffers q.shadow q.cfg = true ∧ q.state ≠ .disabled) ∧
    (let q := (queued { liveQueue with shadow := { liveQueueCfg with log2Size := 3 }, state := .disabled }).q 0
     q.state = .disabled ∧ q.shadow.log2Size.toNat < 4) ∧
    (let q := (queued { liveQueue with shadow := { liveQueueCfg with log2Size := 17 }, state := .disabled }).q 0
     16 < q.shadow.log2Size.toNat) ∧
    (let q := (queued { liveQueue with shadow := { liveQueueCfg with descBase := 0xFFFFFFFFFFFFFC01 }, state := .disabled }).q 0
     4 ≤ q.shadow.log2Size.toNat ∧ q.shadow.log2Size.toNat ≤ 16 ∧ 2 ^ 64 < q.shadow.descBase.toNat + 64 * 2 ^ q.shadow.log2Size.toNat) := by
  decide +kernel

theorem test_doorbells_met :
    (windowsOpen served = true ∧ queueOf served 0 0 = some 0 ∧ (served.pitch 0).state ≠ .resetting ∧ (served.q 0).state = .enabled) ∧
    (let q := served.q 0
     ((16 - q.c).toNat ≤ ringSize q ∧ (16 - q.h).toNat ≤ ringSize q) ∧ ringSize q < (17 - q.c).toNat ∧
     ((q.w - 0).toNat ≤ ringSize q ∧ (0 - q.c).toNat ≤ ringSize q) ∧ ringSize q < (q.w - 1).toNat) := by decide +kernel

theorem test_epoch_met :
    (windowsOpen served = true ∧ served.dev.epoch = 2) ∧
    (let s := queued { liveQueue with state := .disabled }
     windowsOpen s = true ∧ 1 ≠ s.dev.epoch ∧ s.dev.lock = false ∧ (∀ e ∈ s.queues, e.2.state = .disabled) ∧ migrating s = false ∧
     s.isShuttered = false) ∧
    (1 ≠ served.dev.epoch ∧ ¬ ∀ e ∈ served.queues, e.2.state = .disabled) ∧ served.dev.orderCode = 2 ∧
    { served with dev := { served.dev with orderCode := 1 } }.dev.orderCode ≠ 2 := by decide +kernel

theorem test_fetch_met :
    let s := queued { liveQueue with p := 2, left := 0 }
    let u := if (eligibleOf s 0).all (fun m => (s.q m).left = 0) then newRound s 0 else s
    fetching s = true ∧ visitNow s = some (0, 4) ∧
    nextAfter ((Tab.get none 0 u.arb.lastLocal).map (fun m => m.toNat))
      (((eligibleOf u 0).filter (fun m => (u.q m).left ≠ 0)).map (fun m => (u.q m).cfg.local_.toNat)) = some 0 ∧
    queueOf u 0 0 = some 0 := by decide +kernel

theorem test_failures_met :
    (served.q 0).state = .enabled ∧ ((queued { liveQueue with state := .draining }).q 0).state = .draining ∧
    (let s := working (busy [.core] d0); s.job j0 = some (busy [.core] d0) ∧ (busy [.core] d0).phase = .running ∧ (busy [.core] d0).desc.opcode ≠ 0x0E01) ∧
    (let x := busy [.core] { d0 with opcode := 0x0E01 }
     (working x).job j0 = some x ∧ x.desc.opcode = 0x0E01 ∧ x.forwarded = none ∧ x.out = none) ∧
    (let s := fed served { d0 with opcode := 0xFFFF }
     let x := jobInit j0 0 0 { d0 with opcode := 0xFFFF }
     s.job j0 = some x ∧ x.phase = .fetched ∧ opcodeDefined x.desc.opcode = false ∧ mayStart s x = true) := by decide +kernel

/-- The part with MSI-X enabled anew, before the pending bits are sent: none is set. -/
def enabledAnew (b : Bool) : State := { minded b false with pcie := { Pcie.reset with msixEnable := true } }

theorem sendPending_none (s : State) (h : s.pcie.pba = 0) (l : List Nat) : l.foldl sendPending s = s := by
  induction l with
  | nil => rfl
  | cons v l ih =>
    have e : sendPending s v = s := by unfold sendPending; dsimp only; rw [if_neg (by rw [h]; simp)]
    rw [List.foldl_cons, e, ih]

theorem test_msix_enable_met :
    (minded true false).pcie.msixEnable = false ∧ summary ((List.range 2048).foldl sendPending (enabledAnew true)) ≠ 0 ∧
    summary ((List.range 2048).foldl sendPending (enabledAnew false)) = 0 := by
  rw [sendPending_none _ rfl, sendPending_none _ rfl]; decide +kernel

theorem test_interrupts_met :
    windowsOpen served = true ∧
    (let s : State := { served with pcie := { Pcie.reset with atsEnable := true } }; alive s = true ∧ s.pcie.atsEnable = true) ∧
    (let s := minded true true; summary { s with dev := { s.dev with intEnable := (0x7FFF : BitVec 32).setWidth 15 } } ≠ 0) ∧
    (let s := minded false true; summary { s with dev := { s.dev with intEnable := (0x7FFF : BitVec 32).setWidth 15 } } = 0) ∧
    (let q := (queued { liveQueue with accumulated := 1, cfg := { liveQueueCfg with coalTime := 1 } }).q 0
     q.accumulated ≠ 0 ∧ q.cfg.coalTime ≠ 0) ∧
    (let q := (delivering { dqInit with accumulated := 1, cfg := { dqInit.cfg with coalTime := 1 } }).dq 0
     q.accumulated ≠ 0 ∧ q.cfg.coalTime ≠ 0) := by decide +kernel

theorem test_pitch_commands_met :
    (windowsOpen served = true ∧ pitchCommitBad served 0 = none) ∧ ((served.pitch 0).state = .active ∧ served.e1 = false) ∧
    (let s := { served with dev := { served.dev with epoch := 1 } }; windowsOpen s = true ∧ (s.pitch 0).state = .active ∧ s.e1 = true) ∧
    (let s := pitched { livePitch with state := .freezing }; (s.pitch 1).state = .freezing ∧ pitchDrained s 1 = true) ∧
    (let s := pitched { livePitch with state := .frozen }; windowsOpen s = true ∧ (s.pitch 1).state = .frozen ∧ exporting s 1 = false) ∧
    (let x := (pitched { livePitch with cfg := { liveCfg with logPages := 1, logBuf0 := 0x1000, logBuf1 := 0x2000 } }).pitch 1
     x.state = .active ∧ x.cfg.migMode = false ∧ x.cfg.logPages ≠ 0 ∧ x.cfg.logBuf0 ≠ 0 ∧ x.cfg.logBuf1 ≠ 0) ∧
    (let x := (pitched { livePitch with logOn := true }).pitch 1; x.state ≠ .absent ∧ x.logOn = true ∧ x.swapPending = false) ∧
    ((pitched { livePitch with logOn := true, swapPending := true }).pitch 1).swapPending = true := by decide +kernel

theorem test_pitch_resets_met :
    ((served.pitch 0).state ≠ .absent ∧ (served.pitch 0).state ≠ .resetting ∧ migrationJob served 0 = false ∧ windowsOpen served = true) ∧
    (let s := working (busy [.core] { d0 with opcode := 0x0F24, param := 1 })
     (s.pitch 1).state ≠ .absent ∧ (s.pitch 1).state ≠ .resetting ∧ migrationJob s 1 = true ∧ windowsOpen s = true) ∧
    ((pitched { livePitch with state := .resetting }).pitch 1).state = .resetting ∧
    (pitched { livePitch with state := .resetting }).seq.reloading = false ∧ served.pcie.d3hot = false := by decide +kernel

theorem test_crates_met :
    windowsOpen served = true ∧
    (let s := { served with crates := { Crates.reset with assignedShadow := true } }
     let free := zeroCrate (s.setCrate 0 none) 0
     crateRefs s 0 = 0 ∧ s.crates.assignedShadow = true ∧ s.crate 0 = none ∧ (s.pitch s.crates.pitchShadow).state ≠ .absent ∧
     grant free .crates s.crates.pitchShadow 1 = .granted) ∧
    (let s := crated { pitch := 0, flag := 0, returning := false }
     s.crates.assignedShadow = false ∧ crateRefs s 0 = 0 ∧ s.crate 0 = some { pitch := 0, flag := 0, returning := false }) ∧
    (crated { pitch := 0, flag := 1, returning := false }).crate 0 = some { pitch := 0, flag := 1, returning := false } ∧
    (crated { pitch := 0, flag := 2, returning := false }).crate 0 = some { pitch := 0, flag := 2, returning := false } ∧
    (crated { pitch := 0, flag := 0x0F, returning := false }).crate 0 = some { pitch := 0, flag := 0x0F, returning := false } ∧
    (let s := crated { pitch := 0, flag := 0, returning := false }
     s.memWf ∧ 4092 + 4 ≤ 0x800000 ∧ ∀ n ∈ crateRange 4092 4, crateOpen s n = true) := by decide +kernel

theorem test_crate_refusals_met :
    (let s := crated { pitch := 0, flag := 1, returning := false }
     0 ∈ crateRange 0 4 ∧ crateOpen s 0 = false ∧ s.crate 0 = some { pitch := 0, flag := 1, returning := false } ∧ s.crates.assignedShadow = false) ∧
    (let s : State := { served with crates := { Crates.reset with assignedShadow := true, pitchShadow := 9 } }
     s.crates.assignedShadow = true ∧ s.crate 0 = none ∧ crateRefs s 0 = 0 ∧ (s.pitch s.crates.pitchShadow).state = .absent) ∧
    (let s : State := { pitched { livePitch with cfg := { liveCfg with crateCeiling := 0 } } with
        crates := { Crates.reset with assignedShadow := true, pitchShadow := 1 } }
     (s.pitch s.crates.pitchShadow).state ≠ .absent ∧
     grant (zeroCrate (s.setCrate 0 none) 0) .crates s.crates.pitchShadow 1 ≠ .granted) ∧
    (let s : State := { served with crates := { Crates.reset with assignedShadow := true, held := [(0, some { pitch := 0, flag := 0, returning := false })] } }
     s.crate 0 = some { pitch := 0, flag := 0, returning := false } ∧ s.crates.pitchShadow = 0) := by decide +kernel

/-- A channel's run of a program. -/
def run0 (p : List PInsn) : PRun :=
  { prog := p, pc := 0, loops := [], moving := none, waiting := false, signalling := false, awaiting := [], lastWrite := none,
    job := none, stopping := false, stoppers := [] }

def oneInsn (i : PInsn) : PRun := run0 [i]

def liveChannel (r : Option PRun) : Channel :=
  { channelInit with cfg := { channelCfgInit with assigned := true, progLen := 1, base := 0x5000 }, run := r }

def move0 : PMove := { srcCrate := false, dstCrate := false, swap := 0, len := 600, src := 0x6000, dst := 0x7000, done := 0 }

theorem test_porter_channels_met :
    windowsOpen served = true ∧
    (let x := (channelled (liveChannel none)).chan 0
     x.run = none ∧ x.shadow.progLen.toNat ≤ 64 ∧ x.shadow.assigned = false) ∧
    (let s := put 0x5000 [6] (channelled (liveChannel none))
     (s.chan 0).run = none ∧ (s.chan 0).cfg.assigned = true ∧ (s.chan 0).cfg.progLen ≠ 0 ∧
     pProgram (registeredProgram 0 s) = .inr [.fin 0]) ∧
    ((channelled (liveChannel (some (oneInsn .fence)))).chan 0).run = some (oneInsn .fence) ∧
    (let r := { oneInsn .fence with signalling := true }
     ((channelled (liveChannel (some r))).chan 0).run = some r ∧ (r.moving.isSome = true ∨ r.signalling = true)) := by decide +kernel

theorem test_porter_runs_met :
    (let i : List PInsn := [.move false false 0 4 0 0 0 0, .loop 0 1, .loop 2 1, .wait 0 5 0x6000 0 0, .wait 0 5 0x6000 1 1,
        .signal true false false 1 0x6000 0 0, .fence, .fin 1]
     ∀ p ∈ i, ((channelled (liveChannel (some (oneInsn p)))).chan 0).run = some (oneInsn p) ∧ (oneInsn p).moving = none ∧
       (oneInsn p).waiting = false ∧ (oneInsn p).signalling = false ∧ (oneInsn p).awaiting = [] ∧ (oneInsn p).stopping = false ∧ (oneInsn p).prog[(oneInsn p).pc]? = some p) ∧
    waitTest 0 0 0x6000 0 0 (channelled (liveChannel none)) = true ∧
    waitTest 0 0 0x6000 1 1 (channelled (liveChannel none)) = false ∧
    (let r := { oneInsn .fence with moving := some move0 }
     ((channelled (liveChannel (some r))).chan 0).run = some r ∧ r.stopping = false ∧ move0.done + min 512 (move0.len - move0.done) < move0.len) ∧
    (let m := { move0 with done := 512 }
     let r := { oneInsn .fence with moving := some m }
     ((channelled (liveChannel (some r))).chan 0).run = some r ∧ m.len ≤ m.done + min 512 (m.len - m.done) ∧
       moverNext (channelled (liveChannel (some r))) = some 0) ∧
    (let r := { oneInsn (.wait 0 5 0x6000 1 1) with waiting := true }
     ((channelled (liveChannel (some r))).chan 0).run = some r ∧ r.prog[r.pc]? = some (.wait 0 5 0x6000 1 1)) := by decide +kernel

theorem test_log_swap_met :
    (let x := (pitched { livePitch with logOn := true }).pitch 1; x.state ≠ .absent ∧ x.logOn = true ∧ x.swapPending = false) ∧
    (let s := pitched { livePitch with logOn := true, swapPending := true }
     windowsOpen s = true ∧ (s.pitch 1).swapPending = true) := by decide +kernel

theorem test_tile_registers_met :
    Tab.wf (0#4608) coreInit.w = true ∧ Tab.wf (0#36) coreInit.g = true ∧ (coreInit.setF 3 7).getF 3 = 7 ∧
    (coreInit.setG 0 5).getG 0 = 0 := by decide +kernel

/-- A port in service. -/
def livePort : Port := { Port.reset with cfg := { Port.reset.cfg with enable := true }, shadow := { Port.reset.cfg with enable := true }, eqAdapted := true, link := true }

theorem test_stream_commands_met :
    windowsOpen served = true ∧ streamCommitBad served = none ∧
    (let s := porting livePort
     let x := s.port 0
     portCommitBad s 0 = none ∧ x.shadow.rate = x.cfg.rate ∧ x.shadow.fec = x.cfg.fec ∧ x.shadow.enable = x.cfg.enable ∧ x.link = true ∧
     s.dev.phase = .ready ∧ x.cfg.enable = true) ∧
    (let s := porting { livePort with shadow := Port.reset.cfg }
     portCommitBad s 0 = none ∧ (s.port 0).shadow.enable ≠ (s.port 0).cfg.enable) ∧
    (let x := (porting { livePort with link := false }).port 0
     x.cfg.enable = true ∧ x.eqAdapted = true ∧ x.link = false) ∧ planRates (porting livePort) 0 ≠ 0 := by decide +kernel

/-- A delivery queue in service. -/
def liveDq : Dq := { dqInit with cfg := { dqCfgInit with base := 0x30000, ciAddr := 0x40000 }, shadow := { dqCfgInit with base := 0x30000, ciAddr := 0x40000 }, enabled := true }

theorem test_delivery_queues_met :
    windowsOpen served = true ∧ dqCommitBad (delivering liveDq) 0 = none ∧
    dqCommitBad (delivering { liveDq with shadow := dqCfgInit }) 0 = some 0x0C74 ∧
    ((delivering liveDq).dq 0).enabled = true ∧
    ((served.dq 0).enabled = false ∧ (served.dq 0).cfg.base = 0) ∧
    (let s := delivering { liveDq with enabled := false }
     (s.dq 0).enabled = false ∧ (s.dq 0).cfg.base ≠ 0 ∧ (s.dq 0).cfg.ciAddr ≠ 0 ∧ (s.pitch (s.dq 0).cfg.pitch).cfg.bound = true) ∧
    (let r := zeros 64
     let s := delivering { liveDq with waiting := [r] }
     let q := s.dq 0
     q.waiting ≠ [] ∧ q.waiting = [r] ∧ q.enabled = true ∧ (s.pitch q.cfg.pitch).cfg.bound = true ∧
     { q with ci := BitVec.ofNat 32 (leNat (readHost s q.cfg.pitch q.cfg.ciAddr.toNat 4)) }.room = true) := by decide +kernel

/-- A frame of GOOSE's EtherType, with and without its FCS. -/
def frame0 : Bytes := zeros 12 ++ [0x88, 0xB8] ++ zeros 50
def held0 : Held := { port := 0, sec := 0, ns := 0, rct := false, seq := 0, bytes := frame0 }

theorem test_frames_met :
    (let s := porting livePort
     s.dev.phase = .ready ∧ portUp s 0 = true ∧
     (zeros 63).length < 64 ∧ 1528 < (zeros 1529).length ∧ fcsOk (zeros 64) = false ∧
     fcsOk (frame0 ++ fcs frame0) = true ∧ (frame0 ++ fcs frame0).take 64 = frame0 ∧ isPause frame0 = false ∧
     (let t := countAt 0 0 (countFec 0 true s)
      let h : Held := { held0 with sec := t.stream.timeSec, ns := t.stream.timeNs.setWidth 32 }
      ingressBytes t + frame0.length ≤ ingressSize t ∧ t.stream.cfg.prp = false ∧ hostFrame h = false)) := by decide +kernel

theorem test_stream_events_met :
    (let s : State := { served with stream := { Stream.reset with held := [held0] } }
     framesWait s = false ∧ s.dev.phase = .ready ∧ firstFrame s s.stream.held = some (held0, [])) ∧
    (let f : Flow := { flowInit (flowRecOf (recBytes false)) 2 [] [] [] with graceEnd := some 5 }
     let s : State := { served with contexts := [(5, some (ctx 0x0C01 (.flow f)))] }
     s.flow 5 = some f ∧ f.graceEnd.isSome = true) := by decide +kernel

/-- A flow of GOOSE with one key, the frame's parse for each verdict of R301. -/
def flow0 : Flow :=
  let r := flowRecOf (recBytes false)
  { flowInit { r with kind := 1, a := { r.a with handle := 1, keyId := 7, alg := 1 } } 2 (zeros 32) [] [] with tracking := true }
def parse0 : Parsed := { parsedNone with keyId := some 7, alg := 1, mac := frameMac 1 (zeros 32) [] [], last := 1 }
def head0 : Head := headOf frame0
/-- The part with a key for the process bus in slot 1 of the directory. -/
def directed : State :=
  { served with vault := { served.vault with slots := [(1, .key (key 1 0))], startGen := 0 } }

theorem test_frame_verdicts_met :
    { served with battery := { served.battery with lockLatch := true } }.locked = true ∧ served.locked = false ∧
    parseCheck flow0.record head0 { parse0 with early := some 0x0C20 } frame0 = some 0x0C20 ∧
    parseCheck flow0.record head0 parse0 frame0 = none ∧
    (parsedNone.keyId = none ∧ bit flow0.record.flags 0 = false) ∧
    entryOfId flow0 9 = none ∧ entryOfId flow0 7 = some false ∧
    directoryOk served (entryAt { flow0 with record := { flow0.record with a := { flow0.record.a with handle := 0x60 } } } false).handle = false ∧
    directoryOk directed (entryAt flow0 false).handle = true ∧
    macCheck flow0 false { parse0 with alg := 2 } = some 0x0C31 ∧ macCheck flow0 false parse0 = none ∧
    (let s : State := { directed with stream := { directed.stream with timeValid := true } }
     let f : Flow := { flow0 with record := { flow0.record with flags := 2 } }
     s.stream.timeValid = true ∧ bit f.record.flags 1 = true ∧ timeCheck s f.record held0 { parse0 with tok := 9 } = some 0x0C40) ∧
    (bit flow0.record.flags 1 = false ∧ flow0.tracking = true ∧ replayCheck flow0 { parse0 with last := 0 } = some 0x0C48) := by
  decide +kernel

/-- One tile, one engine, a job on a unit, in the part in service. -/
def tiled (x : Tile) : State := { served with tiles := [(0, x)] }
def engined (x : Engine) : State := { served with engines := [(0, x)] }
def reading (a : Bool) : TripReading := { unitReading 0 with agreesA := a }

theorem test_spare_tile_met :
    let s : State := { served with plan := { served.plan with joining := [2, 0], spares := 0x20 } }
    leastBy (spareRank s) s.plan.joining = some 0 ∧ (tilesOf s.plan.spares).head? = some 5 := by decide +kernel

theorem test_store_errors_met :
    ((served.tile 0).state ≠ .retired ∧ (served.tile 0).badWords.any (fun b => b.addr == 3 && b.reloaded) = false) ∧
    ((tiled { tileInit with badWords := [{ addr := 3, scrub := 0, reloaded := true }] }).tile 0).badWords.any
      (fun b => b.addr == 3 && b.reloaded) = true ∧
    ((tiled { tileInit with state := .reloading }).tile 0).state = .reloading ∧
    upsetTiles served served.seq.scrubAt = [] ∧ (tileTagsOk served = true ∧ hallTagsOk served = true ∧ patchTagsOk served = true) ∧
    tileTagsOk { served with seq := { served.seq with tagsA := { served.seq.tagsA with tile := [zeros 16] } } } = false ∧
    (trip .hallCopy (unitReading 0) served).seq.reloading = false ∧
    (let s : State := { served with seq := { served.seq with reloading := true, attempt := 1 } }
     s.seq.reloading = true ∧ s.seq.attempt = 1 ∧ (trip .hallCopy (unitReading 0) s).seq.reloading = true) ∧
    { served.seq with attempt := 2 }.attempt ≠ 1 := by decide +kernel

theorem test_tile_faults_met :
    (let x := busy [.tile 0] { d0 with opcode := 0x0701 }
     let s := working x
     s.job j0 = some x ∧ x.phase = .running ∧ x.units = [.tile 0] ∧ (trip .engineFcm (unitReading ((0#6).setWidth 8)) s).job j0 = some x) ∧
    ((tiled { tileInit with state := .testing }).tile 0).state = .testing := by decide +kernel

theorem test_engine_trips_met :
    ((served.engine 0).state ≠ .retired ∧ (served.engine 0).tripAt = none) ∧
    (let s := engined { engineInit with tripAt := some 0 }
     (s.engine 0).tripAt = some 0 ∧ s.clock.us ≤ 0 + 1000000) ∧
    (let s : State := { engined { engineInit with tripAt := some 0 } with clock := { us := 1000001, optFrac := 0, batFrac := 0 } }
     (s.engine 0).tripAt = some 0 ∧ 0 + 1000000 < s.clock.us) ∧
    ((engined { engineInit with state := .wiping }).engine 0).state = .wiping := by decide +kernel

theorem test_faults_by_place_met :
    (let w := trip .dualRail (unitReading 0) served; (w.tile 0).state ≠ .retired ∧ (w.tile 0).faultAt = none ∧ (w.engine 0).state ≠ .retired ∧
       w.seq.reloading = false) ∧
    (let x := busy [.tile 0] d0
     let u := trip .dualRail (unitReading 0) (working x)
     let v := trip .dataEcc (unitReading 0) (working x)
     u.job j0 = some x ∧ v.job j0 = some x ∧ onUnits x = true ∧ x.transfers = 0) ∧
    (let v := trip .dataEcc (unitReading 0) (tiled { tileInit with shelf := some 3 })
     (v.tile 0).shelf = some 3 ∧ tileJob v 0 = none) ∧
    (crated { pitch := 0, flag := 0, returning := false }).crate 0 ≠ none := by decide +kernel

theorem test_resets_met :
    { served.dev with phase := .unpowered }.phase = .unpowered ∧ served.dev.phase ≠ .unpowered ∧ restartHeld served = false ∧ alive served = true ∧
    windowsOpen served = true ∧ served.life.decision = none ∧
    { served.battery with powered := false }.powered = false ∧
    (let s : State := { served with dev := { served.dev with phase := .boot }, battery := { served.battery with inStart := true } }
     s.dev.phase = .boot ∧ s.battery.inStart = true) := by decide +kernel

/-- What stands outside at a start, with nothing failing. -/
def start0 : StartInput :=
  { linkId := 0, epochStrap := false, romOk := true, decodeAgree := true, nvOk := true, storesOk := true, tilesFail := 0, enginesFail := 0,
    vaultKatFail := false, beanTrips := [], completes := true }

/-- A start that fails at its first step, and the last step of one that passes (the images of a start that passes are too long
to be judged in a test). -/
theorem test_starts_met :
    start0.completes = true ∧
    (match startSteps { start0 with romOk := false } (raiseAttempts served) with
     | .inl (r, _) => r = 0x0101
     | .inr _ => False) ∧
    (match thenStep (.inr served) (startTests start0) with
     | .inl _ => false
     | .inr s => s.dev.katPass) = true := by
  refine ⟨rfl, rfl, ?_⟩; decide +kernel

theorem test_power_met :
    alive served = true ∧ windowsOpen served = true ∧
    (bits (0x52530001 : BitVec 32) 0 3 = 1#3 ∧ bits (0x52530001 : BitVec 32) 16 16 = 0x5253#16) ∧
    ((bits (1000 : BitVec 32) 0 12 : BitVec 12).toNat = 1000 ∧ (bits (1761 : BitVec 32) 0 12 : BitVec 12).toNat = 1761) ∧
    (let p : Pace := { Pace.reset with running := true, target := 1300, beat := 1300 }
     (nextVolts p.commanded.toNat 1300 p.target.toNat = p.commanded.toNat) ∧
     nextVolts p.commanded.toNat 1400 p.target.toNat ≠ p.commanded.toNat ∧ p.avsFault = false ∧ min 10 (p.commandAge + 1) = 10) ∧
    min 3 (Pace.reset.badFrames + 1) ≠ 3 ∧ min 3 ({ Pace.reset with badFrames := 2 }.badFrames + 1) = 3 ∧
    readbackOff Pace.reset.commanded 900 = true ∧ readbackOff Pace.reset.commanded 800 = false := by decide +kernel

theorem test_alarms_met :
    alive served = true ∧ windowLeft served .temp { reading true with measured := 449, tracked := 449 } = true ∧
    windowLeft served .temp { reading true with measured := 448, tracked := 448 } = false ∧
    (∀ i ∈ [AlarmSource.vbatLow, .vaultIntegrity, .light], windowLeft served i (reading true) = true ∧ windowLeft served i (reading false) = true) ∧
    windowLeft served .temp { reading false with measured := 449, tracked := 449 } = true ∧ (reading true).agreesA = true ∧ (reading false).agreesA = false ∧
    responseOf served .vbatLow = 0 ∧ responseOf served .temp = 1 ∧ 2 ≤ (responseOf served .light).toNat := by decide +kernel

theorem test_decisions_met :
    (let d : Decision := { sources := [(.light, reading true)], response := 2 }
     { served with alarm := { served.alarm with decision := some d } }.alarm.decision = some d) ∧
    (let d : LifeDecision := { job := none, ask := .transition 0x12 [], bad := none, agreed := false }
     let s : State := { served with life := { served.life with decision := some d } }
     s.alarm.decision = none ∧ s.life.decision = some d ∧ d.agreed = false) ∧
    (let x := { busy [.tile 0] d0 with verdict := .second }
     (working x).alarm.decision = none ∧ (working x).life.decision = none ∧ (working x).jobs.filter awaitsVerdict = [x]) := by decide +kernel

theorem test_battery_events_met :
    2 ≤ (batteryResponse served .light).toNat ∧ batteryResponse served .mesh = 3 ∧ served.battery.lockLatch = false := by decide +kernel

theorem test_detectors_met :
    (let s : State := { served with alarm := { served.alarm with tjAcc := some 300000000 } }
     alive s = true ∧ s.alarm.tjAcc = some 300000000 ∧
     tjBad (maxTemp (maxTemp 100 101) (maxTemp 99 98)).toInt (300000000 / 3000000) = false) ∧
    served.alarm.lid ≠ true ∧ onCell served = false ∧
    onCell { served with dev := { served.dev with phase := .unpowered }, battery := { served.battery with onBattery := true } } = true := by
  decide +kernel

/-- The part with one bean as given. -/
def beaned (b : Bean) : State := { served with rng := { served.rng with beans := [(0, b)] } }
def windowed (ones : Nat) : Bean := { beanInit with trim := 5, winCount := 4096, winOnes := ones }

theorem test_beans_met :
    (∀ n ∈ [2113, 2560, 1536, 1983, 1984, 2112], let b := (beaned (windowed n)).bean 0
      b.state = .inService ∧ 4096 ≤ b.winCount ∧ b.winOnes = n ∧ b.trim ≠ 0 ∧ b.trim ≠ 127) ∧
    ((beaned { beanInit with state := .testing }).bean 0).state = .testing ∧ windowsOpen served = true := by decide +kernel

theorem test_carafe_met :
    (let s : State := { served with rng := { served.rng with grind := List.replicate 2048 false } }
     s.rng.mainFail = false ∧ 2048 ≤ s.rng.grind.length ∧ s.rng.carafe.length + 32 ≤ 65536 ∧ s.rng.maskFail = false) ∧
    (let r := { served.rng with mainFail := true }; r.mainFail = true ∧ r.mainHold = false ∧ r.maskFail = false) ∧
    (let r := { served.rng with maskFail := true }; r.maskFail = true ∧ r.maskHold = false ∧ r.mainFail = false) ∧
    (served.drbg 0).seeded = true := by decide +kernel

theorem test_ledger_met :
    nvReady served = true ∧
    (let e : Event := { event := 0x0101, pitch := 0, flags := 0, optime := 0, cycles := 0, detail := zeros 8, count := 1 }
     let s : State := { served with ledger := { served.ledger with queue := [e] } }
     nvReady s = true ∧ s.ledger.clearing = false ∧ s.ledger.queue = [e] ∧ s.ledger.slots.length < 16382) ∧
    served.nv.optimeNext = false ∧ { served.nv with optimeNext := true }.optimeNext = true := by decide +kernel

/-- An exchange with the keeper card at a stage. -/
def exchange (st : KeeperStage) (second : Bool) : KeeperRun :=
  { job := j0, second := second, stage := st, ns := false, nr := false, cmd := [], rest := [], resp := [], last := [], asks := 0,
    resyncs := 0, resyncing := false, resynced := false, wtxUs := 0, identity := [], unit := none,
    doneAt := 0, faults := 0, avoid := none }

/-- An ATR that offers T = 1 alone and names itself CQKEEP. -/
def goodAtr : Bytes := [0x3B, 0x86, 0x01] ++ ascii "CQKEEP" ++ [0x8E]

theorem test_keeper_met :
    (served.cards.keeperIn = false ∧ { served.cards with keeperIn := true }.keeperIn = true) ∧
    (∀ k ∈ [exchange .atr true, exchange .atr false, exchange (.pps (zeros 4)) false, exchange .identity false, exchange .authorise false,
        exchange .ifs false], { served with cards := { served.cards with keeper := some k } }.cards.keeper = some k ∧ k.resyncing = false) ∧
    (atrParse goodAtr).isSome = true ∧ (atrParse goodAtr).map (fun t => (t.ta2, pairOk t.ta1)) = some (none, true) ∧
    (atrParse ([0x3B, 0x96, 0x18, 0x91, 0x81, 0x01] ++ ascii "CQKEEP" ++ [0x96])).map (fun t => (t.ta2.isSome, pairOk t.ta1)) = some (true, true) ∧ atrParse [] = none ∧ (zeros 4).length = 4 ∧
    t1Good [] = false ∧
    (t1Good [0, 0x00, 0, 0x00] = true ∧ (t1Pcb [0, 0x00, 0, 0x00]).getLsbD 7 = false) ∧
    (t1Good [0, 0x80, 0, 0x80] = true ∧ (t1Pcb [0, 0x80, 0, 0x80]).getLsbD 7 = true ∧ (t1Pcb [0, 0x80, 0, 0x80]).getLsbD 6 = false) ∧
    (t1Good [0, 0xC0, 0, 0xC0] = true ∧ (t1Pcb [0, 0xC0, 0, 0xC0]).getLsbD 6 = true) ∧
    (let q : Session := { purpose := 1, opened := false, nonce := [], serials := [], endsAt := 0 }
     { served.cards with session := some q }.session = some q ∧ q.endsAt ≤ served.clock.us ∧
     served.clock.us < { q with endsAt := 5 }.endsAt) := by decide +kernel

/-- A high-capacity card of 512 MiB whose SCR shows a bus of 4 bits. -/
def goodCard : ArcCard :=
  { writeProtect := false, wpAfter := none, badTokens := [], answers := true, echo := 0x1AA, ccs := true,
    csd := (1#128 <<< 126) ||| (1023#128 <<< 48), scr := 0x0205000000000000, acmd6 := 0x900, switch0 := 0, switch1 := 0, blocks := [] }

theorem test_archive_met :
    served.cards.arcCard = none ∧
    (let c := goodCard
     { served.cards with arcCard := some c }.arcCard.isSome = true) ∧
    (let x := busy [] { d0 with opcode := 0x0F68 }
     let w : ArcWork := { job := j0, writes := [(0, zeros 512)], mount := none, protect := false }
     let s : State := { working x with cards := { Cards.reset with arcWork := some w } }
     s.jobs.find? (fun y => y.phase = .running ∧ archiveOps.contains y.desc.opcode.toNat) = some x ∧ s.cards.arcWork = some w ∧
     w.writes ≠ [] ∧ archiveOps.contains x.desc.opcode.toNat = true ∧ s.cards.arcMount = none) := by decide +kernel

theorem test_links_met :
    windowsOpen served = true ∧ served.dev.phase = .ready ∧ served.links.beatsShadow ≠ 0 ∧
    { served.links with beatsShadow := 0 }.beatsShadow = 0 ∧ (linked Link.reset).link 0 = some Link.reset ∧
    (∀ l ∈ [{ Link.reset with state := .training }, { Link.reset with state := .handshake }, { Link.reset with state := .up },
        { Link.reset with state := .up, rekeying := true }], (linked l).link 0 = some l) ∧
    (linkUp (linked { Link.reset with state := .up }) 0 = true) ∧ initiates served 0 = true ∧
    initiates { served with links := { served.links with part := 3 } } 0 = false ∧
    ((countRx 0 (linked { Link.reset with state := .handshake, step := 1 })).link 0).map (fun l => (l.state, l.step)) = some (.handshake, 1) := by
  decide +kernel

theorem test_crossings_met :
    (let u := countRx 0 (linked { Link.reset with state := .up })
     linkUp u 0 = true ∧ u.job (peerJob 0 0 5 0 d0 [] []).id = none ∧ u.locked = false ∧ spilledIn u < 1024) ∧
    (let x := { busy [] d0 with forwarded := some 0 }
     let s := working x
     s.job j0 = some x ∧ x.phase = .running ∧ x.out = none ∧ x.spilled = false ∧ x.desc.opcode ≠ 0x0F20) ∧
    { busy [] d0 with forwarded := some 0, spilled := true }.spilled = true ∧
    (let f : Flow := { flowInit (flowRecOf (recBytes false)) 2 [] [] [] with standby := some (1, 9) }
     let s : State := { linked { Link.reset with state := .up } with contexts := [(5, some (ctx 0x0C01 (.flow f)))] }
     peerPart (countRx 0 s) 0 = 1 ∧ standbyOf (countRx 0 s) 1 9 = some 5) := by decide +kernel

/-- A line of the monitor, and the part with the scopes of a debug grant. -/
def line (t : String) : Bytes := ascii t ++ [0x0A]
def granted : State := { served with life := { served.life with inForce := 0x12, granted := some (0xFFFF, 0) } }

theorem test_monitor_met :
    alive served = true ∧ answerDue served = false ∧ served.life.baudSwitched = false ∧ inScrap served = false ∧ 32 ≤ served.rng.carafe.length ∧
    inProvisioning served = true ∧ lifeDeciding served = false ∧ grantDeciding served = false ∧
    inScrap { served with life := { served.life with inForce := 0x14 } } = true ∧
    (scopeOn granted 0 = true ∧ scopeOn granted 1 = true ∧ scopeOn granted 2 = true ∧ scopeOn granted 5 = true) ∧
    (let t : State := { served with life := { served.life with inForce := 0x12 } }
     scopeOn t 0 = false ∧ scopeOn t 1 = false ∧ scopeOn t 2 = false ∧ scopeOn t 5 = false) := by decide +kernel

theorem test_monitor_lines_met :
    (lineFields (lineOf (line "LD 0 01234567")) = ascii "LD" :: [ascii "0", ascii "01234567"] ∧
      ldSyntax [ascii "0", ascii "01234567"] = some (0, [0x01, 0x23, 0x45, 0x67]) ∧ lineLong (line "LD 0 01234567") = false) ∧
    (lineFields (lineOf (line "DC 10")) = ascii "DC" :: [ascii "10"] ∧ oneNumber [ascii "10"] = some 16) ∧
    (lineFields (lineOf (line "LC 12 0 4C435452")) = ascii "LC" :: [ascii "12", ascii "0", ascii "4C435452"] ∧
      lcSyntax [ascii "12", ascii "0", ascii "4C435452"] = some (0x12, 0)) ∧
    (lineFields (lineOf (line "RR 3FFFFFF")) = ascii "RR" :: [ascii "3FFFFFF"] ∧ oneNumber [ascii "3FFFFFF"] = some 0x3FFFFFF ∧
      oneNumber [ascii "4000000"] = some 0x4000000) ∧
    (lineFields (lineOf (line "RW 40 1")) = ascii "RW" :: [ascii "40", ascii "1"] ∧ twoNumbers [ascii "40", ascii "1"] = some (0x40, 1)) ∧
    (lineFields (lineOf (line "NR 0 3FFFC0")) = ascii "NR" :: [ascii "0", ascii "3FFFC0"] ∧
      nrSyntax [ascii "0", ascii "3FFFC0"] = some (0, 0x3FFFC0) ∧ 0x3FFFC0 + 64 ≤ areaSize 0 ∧ areaSize 0 < 0x3FFFC1 + 64) ∧
    (lineFields (lineOf (line "SR 0 1 FFF")) = ascii "SR" :: [ascii "0", ascii "1", ascii "FFF"] ∧
      srSyntax [ascii "0", ascii "1", ascii "FFF"] = some (0, 1, 0xFFF) ∧ 0xFFF < storeWords 0 ∧ storeWords 0 ≤ 0x1000) ∧
    (lineFields (lineOf (line "BR 4")) = ascii "BR" :: [ascii "4"] ∧ brSyntax [ascii "4"] = some 4) ∧
    (lineFields (lineOf (line "XX")) = ascii "XX" :: [] ∧ lineOf (line "XX") ≠ ascii "BC" ∧ knownCommand (ascii "XX") = false) := by
  decide +kernel

theorem test_port_met : bscanAllowed served = true ∧ alive served = true ∧ served.dev.bscan = false ∧
    bscanAllowed { served with life := { served.life with inForce := 0x12 } } = false := by decide +kernel

/-- What stands at an offset, by its kind. -/
def sort (r : Reg) : Nat :=
  match r with
  | .nothing => 0
  | .word _ _ => 1
  | .wide _ _ => 2

theorem test_registers_met :
    windowsOpen served = true ∧ windowsOpen { served with pcie := { served.pcie with d3hot := true } } = false ∧
    sort (regAt served .control 0) = 1 ∧ (upperOf served .control 0).isNone = true ∧ sort (regAt served .control 0x3FFFFF0) = 0 ∧
    (upperOf served .control 0x3FFFFF0).isNone = true ∧ sort (regAt served .control 8) = 2 ∧ (upperOf served .control 0xC).isSome = true ∧
    latched served 0xC = none ∧ heldHalf { served with bus := { served.bus with held := [(8, some 5)] } } 8 = some 5 := by
  decide +kernel

theorem test_idle_met :
    served.pending = [] ∧ sequencing served = [] ∧ served.seq.hallA = [] ∧ served.seq.hallA = served.seq.hallB ∧ beatsNow served = 0 ∧
    beatsNow { served with pace := { Pace.reset with beat := 1200 } } = 833 ∧
    alive { served with dev := { served.dev with phase := .unpowered } } = false ∧
    served.seq.hallA = [] := by decide +kernel

theorem test_phases_met :
    { served.dev with phase := .restarting }.phase = .restarting ∧ { served.dev with phase := .dormant }.phase = .dormant ∧
    (let s : State := { served with dev := { served.dev with restartDue := true } }
     s.dev.restartDue = true ∧ restartHeld s = false ∧ alive s = true) ∧
    { served.life with baudSwitched := true }.baudSwitched = true ∧ { served.life with baudNew := some 4 }.baudNew.isSome = true ∧
    { served.rng with carafe := [] }.carafe.length < 32 ∧
    windowsOpen { served with pcie := { served.pcie with d3hot := true } } = false ∧ served.arb.visit = none := by decide +kernel

def at_ (c : BitVec 16) (set : BitVec 16) : Desc := { d0 with opcode := c, paramSet := set }

/-- The job of the first descriptor of a state. -/
def first (s : State) : Job := (s.job j0).getD (busy [] d0)

/-- The conditions of a descriptor that passes every check and stays here, and of one that finds what it needs. -/
def passes (sp : OpSpec) (s : State) : Bool :=
  let x := first s
  s.job j0 == some x && x.id == j0 && x.phase == .fetched && x.desc.opcode == sp.code && mayStart s x && (checkWithKey sp s x).isNone &&
  (lateBad sp (lend x s) x).isNone && (forwardLink s (sp.uses x.desc) x).isNone

def finds (sp : OpSpec) (v : State) (y : Job) : Bool :=
  let q := queuedOn sp v y
  placing v && !sp.blocked v y && !ctxBusy v y && (startBad sp v y).isNone && (spillLink sp v y).isNone && y.reserved.isEmpty &&
  (!sp.masked v q || !v.rng.feedsStopped) && drawReady v (some y.id) y.pitch (drawsOf sp v q) == .ready &&
  (match unitsFor v q (sp.place v y), reserveAll y.pitch (sp.slots v q) v [] with
   | some us, .inr (t, rs) => !drawnDry (runJob sp t q us rs) y.pitch
   | _, _ => false)

/-- The conditions of `finds` before the units: nothing holds the job back and nothing refuses it. -/
def open_ (sp : OpSpec) (v : State) (y : Job) : Bool :=
  placing v && !sp.blocked v y && !ctxBusy v y && (startBad sp v y).isNone && (spillLink sp v y).isNone

def keygen (s : State) : State := fed s { at_ 0x0201 1 with flags := 4 }

theorem test_refused_and_forwarded_met :
    (let s := fed served (at_ 0x0201 99)
     s.job j0 = some (first s) ∧ (first s).phase = .fetched ∧ (first s).desc.opcode = mlkemKeygenSpec.code ∧ mayStart s (first s) = true ∧
     checkWithKey mlkemKeygenSpec s (first s) = some { status := 0x0102, detail := 0x0201 }) ∧
    (let s := fed (linked { Link.reset with state := .up }) { at_ 0x0302 1 with keyHandle := 0x400002, outLen := 4000 }
     s.job j0 = some (first s) ∧ mayStart s (first s) = true ∧ checkWithKey mldsaSignSpec s (first s) = none ∧
     forwardLink s (mldsaSignSpec.uses (first s).desc) (first s) = some 0) := by decide +kernel

theorem test_kept_waiting_met :
    (let s := keygen { served with alarm := { served.alarm with badRails := [.vcore] } }
     passes mlkemKeygenSpec s = true ∧ placing (offered s (first s)) = false) ∧
    (let s := fed { served with cards := { Cards.reset with keeper := some (exchange .atr false) } } (at_ 0x0F61 0)
     passes custodianEnrolSpec s = true ∧ custodianEnrolSpec.blocked (offered s (first s)) (accepted s (first s)) = true) ∧
    (let y : Job := { busy [.tile 1] { at_ 0x0101 1 with contextId := 1 } with id := { j0 with pos := 7 }, turn := 1 }
     let s := fed served { at_ 0x0101 1 with contextId := 1 }
     let s : State := { s with jobs := s.jobs ++ [y] }
     s.job j0 = some (first s) ∧ (first s).phase = .fetched ∧ ctxBusy (offered s (first s)) (accepted s (first s)) = true) ∧
    (let q : Session := { purpose := 1, opened := false, nonce := [], serials := [], endsAt := 5 }
     let s := fed { served with cards := { Cards.reset with session := some q } } { at_ 0x0F64 0 with param := 1 }
     passes quorumOpenSpec s = true ∧ placing (offered s (first s)) = true ∧
     quorumOpenSpec.blocked (offered s (first s)) (accepted s (first s)) = false ∧
     (startBad quorumOpenSpec (offered s (first s)) (accepted s (first s))).isSome = true) ∧
    (let s := keygen { served with tiles := [(0, { tileInit with state := .testing })] }
     let v := offered s (first s)
     let y := accepted s (first s)
     passes mlkemKeygenSpec s = true ∧ open_ mlkemKeygenSpec v y = true ∧
     unitsFor v (queuedOn mlkemKeygenSpec v y) (mlkemKeygenSpec.place v y) = none) ∧
    (let s := keygen { served with pitches := [(0, { livePitch with cfg := { liveCfg with cellCeiling := 0 } })] }
     let v := offered s (first s)
     let y := accepted s (first s)
     let q := queuedOn mlkemKeygenSpec v y
     passes mlkemKeygenSpec s = true ∧ open_ mlkemKeygenSpec v y = true ∧ unitsFor v q (mlkemKeygenSpec.place v y) = some [.tile 0] ∧ y.reserved = [] ∧
     (match reserveAll y.pitch (mlkemKeygenSpec.slots v q) v [] with
      | .inl b => b.detail == 0x0B40
      | .inr _ => false) = true) := by decide +kernel

/-- The part whose pitch 0 has the DRBG instance given, with no bytes in the carafe. -/
def dry (d : Drbg) : State := { served with rng := { served.rng with carafe := [], drbgs := [(0, d)] } }

theorem test_draws_met :
    (let s := keygen { served with rng := { served.rng with feedsStopped := true } }
     let v := offered s (first s)
     let y := accepted s (first s)
     let q := queuedOn mlkemKeygenSpec v y
     passes mlkemKeygenSpec s = true ∧ open_ mlkemKeygenSpec v y = true ∧ unitsFor v q (mlkemKeygenSpec.place v y) = some [.tile 0] ∧
     mlkemKeygenSpec.masked v q = true ∧ v.rng.feedsStopped = true) ∧
    (let s := keygen (dry drbgInit)
     let v := offered s (first s)
     let y := accepted s (first s)
     let q := queuedOn mlkemKeygenSpec v y
     passes mlkemKeygenSpec s = true ∧ open_ mlkemKeygenSpec v y = true ∧ v.rng.feedsStopped = false ∧
     drawReady v (some y.id) y.pitch (drawsOf mlkemKeygenSpec v q) = .wait) ∧
    (let s := keygen { served with plan := { served.plan with inForce := some { plan with pitches := [{ pp with drbg := false }, pp] } } }
     let v := offered s (first s)
     let y := accepted s (first s)
     let q := queuedOn mlkemKeygenSpec v y
     passes mlkemKeygenSpec s = true ∧ open_ mlkemKeygenSpec v y = true ∧
     drawReady v (some y.id) y.pitch (drawsOf mlkemKeygenSpec v q) = .fails 0x0A22) ∧
    (let s := fed (dry { drbgInit with seeded := true, key := zeros 32, v := zeros 16, calls := 0x100001 }) { at_ 0x0204 1 with keyHandle := 1, outLen := 4000 }
     let v := offered s (first s)
     let y := accepted s (first s)
     let q := queuedOn mlkemPubkeySpec v y
     passes mlkemPubkeySpec s = true ∧ open_ mlkemPubkeySpec v y = true ∧ y.reserved = [] ∧
     drawReady v (some y.id) y.pitch (drawsOf mlkemPubkeySpec v q) = .ready ∧
     (match unitsFor v q (mlkemPubkeySpec.place v y), reserveAll y.pitch (mlkemPubkeySpec.slots v q) v [] with
      | some us, .inr (t, rs) => drawnDry (runJob mlkemPubkeySpec t q us rs) y.pitch
      | _, _ => false) = true) := by decide +kernel

/-- A job with its result. -/
def done0 : JobOut := outOf 0 0
theorem test_records_met :
    (let x := { busy [.tile 0] (at_ 0x0201 1) with out := some done0 }
     let s := working x
     s.job x.id = some x ∧ s.seq.reloading = false ∧ s.life.decision = none ∧ x.desc.opcode ≠ 0x0F12 ∧ x.phase = .running ∧ x.verdict = .single ∧
     x.out = some done0 ∧ needsStore s x = false ∧ (s.q x.id.queue).cfg.assigned = true) := by decide +kernel

/-- What a job runs or stands in, for each clause of the statement of JOB_COMPLETE. -/
theorem test_job_complete_met :
    (let x := { busy [.tile 0] { at_ 0x0201 1 with flags := 4 } with out := some done0 }
     ∀ y ∈ [x, { x with verdict := .agreed }, { x with phase := .ended }, { x with verdict := .due }, { x with verdict := .second }],
       let s := working y
       s.job j0 = some y ∧ y.out = some done0 ∧ s.seq.reloading = false ∧ s.life.decision = none ∧ y.desc.opcode ≠ 0x0F12) ∧
    (let x := { busy [.tile 0] (at_ 0x0201 1) with out := some done0 }
     needsStore (working x) x = false ∧
     (let k : Key := { key 2 1 with persist := true }
      let y := { x with commits := [.keyPut 1 k] }
      y.phase = .running ∧ y.verdict = .single ∧ needsStore (working y) y = true)) := by decide +kernel

theorem test_jobs_move_on_met :
    (let x := { busy [] { at_ 0x0201 1 with flags := 4 } with phase := .waiting }
     let s := working x
     s.job x.id = some x ∧ x.phase = .waiting ∧ (specOf x.desc.opcode).map (·.code) = some 0x0201 ∧ x.lent.isEmpty = true ∧
     finds mlkemKeygenSpec s x = true) ∧
    (let x := { busy [] (at_ 0x0101 1) with phase := .suspended }
     let s := working x
     s.job x.id = some x ∧ x.phase = .suspended ∧ placing s = true ∧
     resumeStall s x = some 1 ∧ tilesNow s .hashsig { x with stall := some 1 } = some [.tile 1]) ∧
    (let x := { busy [.core] (at_ 0x0201 1) with phase := .storing, out := some done0 }
     let s := working x
     s.job x.id = some x ∧ nvReady s = true ∧ s.seq.reloading = false ∧ x.phase = .storing ∧ x.out = some done0) := by decide +kernel

theorem test_time_limit_met :
    let x := busy [.tile 0] (at_ 0x0D02 0)
    let s : State := { working x with tiles := [(0, { tileInit with state := .busy j0, core := { coreInit with codeLen := 16 } })],
                                      pace := { Pace.reset with beat := 1200 } }
    s.job x.id = some x ∧ x.phase = .running ∧ x.desc.opcode = 0x0D02 ∧ x.forwarded = none ∧ (ranOver s x).1 = true ∧ x.out = none ∧
    x.paced = none ∧ s.pace.beat ≠ 0 ∧ 8 ≤ (runningCore s x).codeLen ∧ (runningCore s x).codeLen < 2 ^ 32 ∧
    (ranOver s { x with out := some { done0 with detail := 0x0D16 } }).1 = false ∧
    (ranOver s { x with out := some done0, paced := some (10 ^ 40, 1200, 1300) }).1 = true ∧
    (ranOver s { x with out := some done0, paced := some (0, 1200, 1300) }).1 = false ∧
    { Pace.reset with beat := 0 }.beat = 0 := by decide +kernel

theorem test_no_descriptor_met : served.job j0 = none ∧
    (let s := fed served (at_ 0x0202 1)
     s.job j0 = some (first s) ∧ (first s).phase ≠ .waiting ∧ (first s).desc.opcode ≠ mlkemKeygenSpec.code) := by decide +kernel

/-! ### Every command of a job starts somewhere -/

def img : Bytes := ascii "CQVP" ++ [1, 0, 0, 0, 8, 0, 0, 0]

theorem test_lattice_jobs_start :
    [clear mlkemKeygenSpec (fed served { at_ 0x0201 1 with flags := 4 }) j0,
     clear mlkemEncapsSpec (fed served { at_ 0x0202 1 with keyHandle := 1, outLen := 4000 }) j0,
     clear mlkemDecapsSpec (fed served { at_ 0x0203 1 with keyHandle := 1, inLen := 768, outLen := 4000 }) j0,
     clear mlkemPubkeySpec (fed served { at_ 0x0204 1 with keyHandle := 1, outLen := 4000 }) j0,
     clear mldsaKeygenSpec (fed served { at_ 0x0301 1 with flags := 4 }) j0,
     clear mldsaSignSpec (fed served { at_ 0x0302 1 with keyHandle := 2, outLen := 4000 }) j0,
     clear mldsaVerifySpec (fed served { at_ 0x0303 1 with keyHandle := 2, auxLen := 2420 }) j0,
     clear mldsaPubkeySpec (fed served { at_ 0x0304 1 with keyHandle := 2, outLen := 4000 }) j0,
     clear fndsaKeygenSpec (fed served { at_ 0x0401 1 with flags := 4 }) j0,
     clear fndsaSignSpec (fed served { at_ 0x0402 1 with keyHandle := 3, outLen := 4000 }) j0,
     clear fndsaVerifySpec (fed served { at_ 0x0403 1 with keyHandle := 3, auxLen := 666, param := 0x29A0000 }) j0,
     clear fndsaPubkeySpec (fed served { at_ 0x0404 1 with keyHandle := 3, outLen := 4000 }) j0].all id = true := by decide +kernel

theorem test_lattice_jobs_draw_enough :
    [ample mlkemKeygenSpec (fed served { at_ 0x0201 1 with flags := 4 }) j0,
     ample mlkemEncapsSpec (fed served { at_ 0x0202 1 with keyHandle := 1, outLen := 4000 }) j0,
     ample mlkemDecapsSpec (fed served { at_ 0x0203 1 with keyHandle := 1, inLen := 768, outLen := 4000 }) j0,
     ample mlkemPubkeySpec (fed served { at_ 0x0204 1 with keyHandle := 1, outLen := 4000 }) j0,
     ample mldsaKeygenSpec (fed served { at_ 0x0301 1 with flags := 4 }) j0,
     ample mldsaVerifySpec (fed served { at_ 0x0303 1 with keyHandle := 2, auxLen := 2420 }) j0,
     ample mldsaPubkeySpec (fed served { at_ 0x0304 1 with keyHandle := 2, outLen := 4000 }) j0,
     ample fndsaKeygenSpec (fed served { at_ 0x0401 1 with flags := 4 }) j0,
     ample fndsaVerifySpec (fed served { at_ 0x0403 1 with keyHandle := 3, auxLen := 666, param := 0x29A0000 }) j0,
     ample fndsaPubkeySpec (fed served { at_ 0x0404 1 with keyHandle := 3, outLen := 4000 }) j0].all id = true := by decide +kernel

theorem test_hash_signature_jobs_start :
    [clear slhdsaKeygenSpec (fed served { at_ 0x0501 1 with flags := 4 }) j0,
     clear slhdsaSignSpec (fed served { at_ 0x0502 1 with keyHandle := 4, outLen := 8000 }) j0,
     clear slhdsaVerifySpec (fed served { at_ 0x0503 1 with keyHandle := 4, auxLen := 7856 }) j0,
     clear slhdsaPubkeySpec (fed served { at_ 0x0504 1 with keyHandle := 4, outLen := 8000 }) j0,
     clear (treeKeygenSpec lmsFamily) (fed served { at_ 0x0601 0x0105 with flags := 4, param := 0x10 }) j0,
     clear (treeSignSpec lmsFamily) (fed served { at_ 0x0602 0x0105 with keyHandle := 5, outLen := 20000 }) j0,
     clear (treeVerifySpec lmsFamily) (fed served { at_ 0x0603 0 with keyHandle := 5, auxLen := 20000 }) j0,
     clear (treePubkeySpec lmsFamily) (fed served { at_ 0x0604 0 with keyHandle := 5, outLen := 20000 }) j0,
     clear (treeKeygenSpec xmssFamily) (fed served { at_ 0x0611 1 with flags := 4 }) j0,
     clear (treeSignSpec xmssFamily) (fed served { at_ 0x0612 1 with keyHandle := 6, outLen := 20000 }) j0,
     clear (treeVerifySpec xmssFamily) (fed served { at_ 0x0613 0 with keyHandle := 6, auxLen := 20000 }) j0,
     clear (treePubkeySpec xmssFamily) (fed served { at_ 0x0614 0 with keyHandle := 6, outLen := 20000 }) j0,
     clear (treeKeygenSpec xmssmtFamily) (fed served { at_ 0x0615 1 with flags := 4 }) j0,
     clear (treeSignSpec xmssmtFamily) (fed served { at_ 0x0616 1 with keyHandle := 7, outLen := 20000 }) j0,
     clear (treeVerifySpec xmssmtFamily) (fed served { at_ 0x0617 0 with keyHandle := 7, auxLen := 20000 }) j0,
     clear (treePubkeySpec xmssmtFamily) (fed served { at_ 0x0618 0 with keyHandle := 7, outLen := 20000 }) j0,
     clear hsStateBindSpec (fed served { at_ 0x0630 0 with keyHandle := 5, auxLen := 2, auxAddr := 0x5000 } |> fun s => { s with host := Tab.write 0 s.host (hostAddr 1 0x5000) [1, 0] }) j0,
     clear hsStateQuerySpec (fed served { at_ 0x0631 0 with keyHandle := 5, outLen := 16 }) j0].all id = true := by decide +kernel

theorem test_hash_signature_jobs_draw_enough :
    [ample slhdsaKeygenSpec (fed served { at_ 0x0501 1 with flags := 4 }) j0,
     ample slhdsaSignSpec (fed served { at_ 0x0502 1 with keyHandle := 4, outLen := 8000 }) j0,
     ample slhdsaVerifySpec (fed served { at_ 0x0503 1 with keyHandle := 4, auxLen := 7856 }) j0,
     ample slhdsaPubkeySpec (fed served { at_ 0x0504 1 with keyHandle := 4, outLen := 8000 }) j0,
     ample (treeKeygenSpec lmsFamily) (fed served { at_ 0x0601 0x0105 with flags := 4, param := 0x10 }) j0,
     ample (treeSignSpec lmsFamily) (fed served { at_ 0x0602 0x0105 with keyHandle := 5, outLen := 20000 }) j0,
     ample (treeVerifySpec lmsFamily) (fed served { at_ 0x0603 0 with keyHandle := 5, auxLen := 20000 }) j0,
     ample (treePubkeySpec lmsFamily) (fed served { at_ 0x0604 0 with keyHandle := 5, outLen := 20000 }) j0,
     ample (treeKeygenSpec xmssFamily) (fed served { at_ 0x0611 1 with flags := 4 }) j0,
     ample (treeSignSpec xmssFamily) (fed served { at_ 0x0612 1 with keyHandle := 6, outLen := 20000 }) j0,
     ample (treeVerifySpec xmssFamily) (fed served { at_ 0x0613 0 with keyHandle := 6, auxLen := 20000 }) j0,
     ample (treePubkeySpec xmssFamily) (fed served { at_ 0x0614 0 with keyHandle := 6, outLen := 20000 }) j0,
     ample (treeKeygenSpec xmssmtFamily) (fed served { at_ 0x0615 1 with flags := 4 }) j0,
     ample (treeSignSpec xmssmtFamily) (fed served { at_ 0x0616 1 with keyHandle := 7, outLen := 20000 }) j0,
     ample (treeVerifySpec xmssmtFamily) (fed served { at_ 0x0617 0 with keyHandle := 7, auxLen := 20000 }) j0,
     ample (treePubkeySpec xmssmtFamily) (fed served { at_ 0x0618 0 with keyHandle := 7, outLen := 20000 }) j0,
     ample hsStateBindSpec (fed served { at_ 0x0630 0 with keyHandle := 5, auxLen := 2, auxAddr := 0x5000 } |> fun s => { s with host := Tab.write 0 s.host (hostAddr 1 0x5000) [1, 0] }) j0,
     ample hsStateQuerySpec (fed served { at_ 0x0631 0 with keyHandle := 5, outLen := 16 }) j0].all id = true := by decide +kernel

theorem test_digest_and_code_jobs_start :
    [clear digestSpec (fed served { at_ 0x0101 1 with inLen := 3, outLen := 32, param := 0x30023 }) j0,
     clear digestKeySpec (fed served { at_ 0x0102 1 with keyHandle := 15, contextId := 1, param := 1 }) j0,
     clear (aesSpec true) (fed served { at_ 0x0111 1 with keyHandle := 15, inLen := 16, outLen := 16 }) j0,
     clear (aesSpec false) (fed served { at_ 0x0112 1 with keyHandle := 15, inLen := 16, outLen := 16 }) j0,
     clear hqcKeygenSpec (fed served { at_ 0x0701 1 with flags := 4 }) j0,
     clear hqcEncapsSpec (fed served { at_ 0x0702 1 with keyHandle := 8, outLen := 8000 }) j0,
     clear hqcDecapsSpec (fed served { at_ 0x0703 1 with keyHandle := 8, inLen := 4433, outLen := 64 }) j0,
     clear hqcPubkeySpec (fed served { at_ 0x0704 1 with keyHandle := 8, outLen := 8000 }) j0,
     clear mceKeygenSpec (fed served { at_ 0x0801 1 with flags := 4 }) j0,
     clear mceEncapsSpec (fed served { at_ 0x0802 1 with auxLen := 261120, outLen := 8000, param := 0x400 }) j0,
     clear mceDecapsSpec (fed served { at_ 0x0803 1 with keyHandle := 9, inLen := 96, outLen := 64 }) j0,
     clear mcePubkeySpec (fed served { at_ 0x0804 1 with keyHandle := 9, outLen := 300000 }) j0,
     clear mcePkPinSpec (fed served { at_ 0x0805 1 with contextId := 1, inLen := 261120 }) j0].all id = true := by decide +kernel

theorem test_digest_and_code_jobs_draw_enough :
    [ample digestSpec (fed served { at_ 0x0101 1 with inLen := 3, outLen := 32, param := 0x30023 }) j0,
     ample digestKeySpec (fed served { at_ 0x0102 1 with keyHandle := 15, contextId := 1, param := 1 }) j0,
     ample (aesSpec true) (fed served { at_ 0x0111 1 with keyHandle := 15, inLen := 16, outLen := 16 }) j0,
     ample (aesSpec false) (fed served { at_ 0x0112 1 with keyHandle := 15, inLen := 16, outLen := 16 }) j0,
     ample hqcKeygenSpec (fed served { at_ 0x0701 1 with flags := 4 }) j0,
     ample hqcEncapsSpec (fed served { at_ 0x0702 1 with keyHandle := 8, outLen := 8000 }) j0,
     ample hqcDecapsSpec (fed served { at_ 0x0703 1 with keyHandle := 8, inLen := 4433, outLen := 64 }) j0,
     ample hqcPubkeySpec (fed served { at_ 0x0704 1 with keyHandle := 8, outLen := 8000 }) j0,
     ample mceEncapsSpec (fed served { at_ 0x0802 1 with auxLen := 261120, outLen := 8000, param := 0x400 }) j0,
     ample mceDecapsSpec (fed served { at_ 0x0803 1 with keyHandle := 9, inLen := 96, outLen := 64 }) j0,
     ample mcePubkeySpec (fed served { at_ 0x0804 1 with keyHandle := 9, outLen := 300000 }) j0,
     ample mcePkPinSpec (fed served { at_ 0x0805 1 with contextId := 1, inLen := 261120 }) j0].all id = true := by decide +kernel

theorem test_big_number_jobs_start :
    [clear ecKeygenSpec (fed served { at_ 0x0901 1 with flags := 4 }) j0,
     clear ecdsaSignSpec (fed served { at_ 0x0902 1 with keyHandle := 10, inLen := 32, outLen := 64 }) j0,
     clear ecdsaVerifySpec (fed served { at_ 0x0903 1 with keyHandle := 10, inLen := 32, auxLen := 64 }) j0,
     clear ecdhSpec (fed served { at_ 0x0904 1 with keyHandle := 10, auxLen := 65, outLen := 64 }) j0,
     clear ecPubkeySpec (fed served { at_ 0x0905 1 with keyHandle := 10, outLen := 65 }) j0,
     clear eddsaKeygenSpec (fed served { at_ 0x0911 1 with flags := 4 }) j0,
     clear eddsaSignSpec (fed served { at_ 0x0912 1 with keyHandle := 11, inLen := 32, outLen := 64 }) j0,
     clear eddsaVerifySpec (fed served { at_ 0x0913 1 with keyHandle := 11, inLen := 32, auxLen := 64 }) j0,
     clear eddsaPubkeySpec (fed served { at_ 0x0915 1 with keyHandle := 11, outLen := 64 }) j0,
     clear xdhKeygenSpec (fed served { at_ 0x0921 1 with flags := 4 }) j0,
     clear xdhSpec (fed served { at_ 0x0922 1 with keyHandle := 12, auxLen := 32, outLen := 64 }) j0,
     clear xdhPubkeySpec (fed served { at_ 0x0925 1 with keyHandle := 12, outLen := 64 }) j0,
     clear rsaKeygenSpec (fed served { at_ 0x0931 2048 with flags := 4 }) j0,
     clear rsaSignSpec (fed served { at_ 0x0932 2048 with keyHandle := 13, inLen := 32, outLen := 256, param := 0x100 }) j0,
     clear rsaVerifySpec (fed served { at_ 0x0933 2048 with keyHandle := 13, inLen := 32, auxLen := 256, param := 0x100 }) j0,
     clear rsaEncryptSpec (fed served { at_ 0x0934 2048 with keyHandle := 13, inLen := 32, outLen := 256, param := 0x100 }) j0,
     clear rsaDecryptSpec (fed served { at_ 0x0935 2048 with keyHandle := 13, inLen := 256, outLen := 256, param := 0x100 }) j0,
     clear rsaPubkeySpec (fed served { at_ 0x0936 2048 with keyHandle := 13, outLen := 300 }) j0,
     clear dhKeygenSpec (fed served { at_ 0x0941 0x101 with flags := 4 }) j0,
     clear dhSpec (fed served { at_ 0x0942 0x101 with keyHandle := 14, auxLen := 256, outLen := 256 }) j0,
     clear dhPubkeySpec (fed served { at_ 0x0945 0x101 with keyHandle := 14, outLen := 256 }) j0,
     clear curveLoadSpec (fed served { at_ 0x0951 0 with contextId := 1, inLen := 200 }) j0].all id = true := by decide +kernel

theorem test_big_number_jobs_draw_enough :
    [ample ecKeygenSpec (fed served { at_ 0x0901 1 with flags := 4 }) j0,
     ample ecdsaVerifySpec (fed served { at_ 0x0903 1 with keyHandle := 10, inLen := 32, auxLen := 64 }) j0,
     ample ecdhSpec (fed served { at_ 0x0904 1 with keyHandle := 10, auxLen := 65, outLen := 64 }) j0,
     ample ecPubkeySpec (fed served { at_ 0x0905 1 with keyHandle := 10, outLen := 65 }) j0,
     ample eddsaKeygenSpec (fed served { at_ 0x0911 1 with flags := 4 }) j0,
     ample eddsaSignSpec (fed served { at_ 0x0912 1 with keyHandle := 11, inLen := 32, outLen := 64 }) j0,
     ample eddsaVerifySpec (fed served { at_ 0x0913 1 with keyHandle := 11, inLen := 32, auxLen := 64 }) j0,
     ample eddsaPubkeySpec (fed served { at_ 0x0915 1 with keyHandle := 11, outLen := 64 }) j0,
     ample xdhKeygenSpec (fed served { at_ 0x0921 1 with flags := 4 }) j0,
     ample xdhPubkeySpec (fed served { at_ 0x0925 1 with keyHandle := 12, outLen := 64 }) j0,
     ample rsaSignSpec (fed served { at_ 0x0932 2048 with keyHandle := 13, inLen := 32, outLen := 256, param := 0x100 }) j0,
     ample rsaVerifySpec (fed served { at_ 0x0933 2048 with keyHandle := 13, inLen := 32, auxLen := 256, param := 0x100 }) j0,
     ample rsaEncryptSpec (fed served { at_ 0x0934 2048 with keyHandle := 13, inLen := 32, outLen := 256, param := 0x100 }) j0,
     ample rsaDecryptSpec (fed served { at_ 0x0935 2048 with keyHandle := 13, inLen := 256, outLen := 256, param := 0x100 }) j0,
     ample rsaPubkeySpec (fed served { at_ 0x0936 2048 with keyHandle := 13, outLen := 300 }) j0,
     ample dhKeygenSpec (fed served { at_ 0x0941 0x101 with flags := 4 }) j0,
     ample dhSpec (fed served { at_ 0x0942 0x101 with keyHandle := 14, auxLen := 256, outLen := 256 }) j0,
     ample dhPubkeySpec (fed served { at_ 0x0945 0x101 with keyHandle := 14, outLen := 256 }) j0,
     ample curveLoadSpec (fed served { at_ 0x0951 0 with contextId := 1, inLen := 200 }) j0].all id = true := by decide +kernel

theorem test_random_and_vault_jobs_start :
    [clear rngGenerateSpec (fed served { at_ 0x0A01 0 with outLen := 32 }) j0,
     clear drbgReseedSpec (fed served (at_ 0x0A02 0)) j0,
     clear drbgInstantiateSpec (fed served (at_ 0x0A03 0)) j0,
     clear drbgInfoSpec (fed served (at_ 0x0A04 0)) j0,
     clear rngRawSpec (fed served { at_ 0x0A10 0 with outLen := 128 }) j0,
     clear vaultImportSpec (fed served { at_ 0x0B01 0 with param := 0x8000000001, inLen := 32 }) j0,
     clear vaultExportSpec (fed served { at_ 0x0B02 0 with keyHandle := 10, keyHandle2 := 15, outLen := 4000 }) j0,
     clear vaultDeleteSpec (fed served { at_ 0x0B03 0 with keyHandle := 10 }) j0,
     clear vaultInfoSpec (fed served { at_ 0x0B04 0 with keyHandle := 10, outLen := 64 }) j0,
     clear vaultDeriveSpec (fed served { at_ 0x0B05 0 with keyHandle := 15, param := 0x8000200000 }) j0,
     clear vaultModifySpec (fed served { at_ 0x0B06 0 with keyHandle := 15, param := 1 }) j0].all id = true := by decide +kernel

theorem test_random_and_vault_jobs_draw_enough :
    [ample rngGenerateSpec (fed served { at_ 0x0A01 0 with outLen := 32 }) j0,
     ample drbgReseedSpec (fed served (at_ 0x0A02 0)) j0,
     ample drbgInstantiateSpec (fed served (at_ 0x0A03 0)) j0,
     ample drbgInfoSpec (fed served (at_ 0x0A04 0)) j0,
     ample rngRawSpec (fed served { at_ 0x0A10 0 with outLen := 128 }) j0,
     ample vaultImportSpec (fed served { at_ 0x0B01 0 with param := 0x8000000001, inLen := 32 }) j0,
     ample vaultExportSpec (fed served { at_ 0x0B02 0 with keyHandle := 10, keyHandle2 := 15, outLen := 4000 }) j0,
     ample vaultDeleteSpec (fed served { at_ 0x0B03 0 with keyHandle := 10 }) j0,
     ample vaultInfoSpec (fed served { at_ 0x0B04 0 with keyHandle := 10, outLen := 64 }) j0,
     ample vaultDeriveSpec (fed served { at_ 0x0B05 0 with keyHandle := 15, param := 0x8000200000 }) j0,
     ample vaultModifySpec (fed served { at_ 0x0B06 0 with keyHandle := 15, param := 1 }) j0].all id = true := by decide +kernel

theorem test_flow_and_program_jobs_start :
    [clear flowCreateSpec (put 0x5000 (recBytes true) (fed served { at_ 0x0C01 0 with inAddr := 0x5000, inLen := 128 })) j0,
     clear flowDeleteSpec (fed (flowing true served) { at_ 0x0C02 0 with contextId := 5 }) j0,
     clear flowKeySpec (fed (flowing true served) { at_ 0x0C03 0 with contextId := 5 }) j0,
     clear flowSetSpec (put 0x5000 (recBytes true) (fed (flowing true served) { at_ 0x0C04 0 with contextId := 5, inAddr := 0x5000, inLen := 128 })) j0,
     clear flowResyncSpec (fed (flowing true served) { at_ 0x0C05 0 with contextId := 5 }) j0,
     clear flowReadSpec (fed (flowing true served) { at_ 0x0C06 0 with contextId := 5, outLen := 192 }) j0,
     clear flowStandbySpec (fed { served with links := { Links.reset with link := [{ Link.reset with state := .up }, Link.reset, Link.reset] } } { at_ 0x0C07 0 with contextId := 0x4001 }) j0,
     clear streamSendSpec (fed (flowing true served) { at_ 0x0C10 0 with contextId := 5, inLen := 60 }) j0,
     clear vprogVerifySpec (put 0x5000 img (fed served { at_ 0x0D01 0 with contextId := 1, keyHandle := 16, inAddr := 0x5000, inLen := 3381 })) j0,
     clear vprogRunSpec (fed { served with contexts := [(1, some (ctx 0x0D01 (.bytes [])))] } { at_ 0x0D02 0 with contextId := 1, auxLen := 0, param := 0x100 }) j0,
     clear porterStartSpec (fed { served with porter := [(0, { channelInit with cfg := { channelCfgInit with assigned := true, progLen := 1 } })] } (at_ 0x0E01 0)) j0,
     clear porterStopSpec (fed { served with porter := [(0, { channelInit with cfg := { channelCfgInit with assigned := true, progLen := 1 } })] } (at_ 0x0E02 0)) j0].all id = true := by decide +kernel

theorem test_flow_and_program_jobs_draw_enough :
    [ample flowDeleteSpec (fed (flowing true served) { at_ 0x0C02 0 with contextId := 5 }) j0,
     ample flowKeySpec (fed (flowing true served) { at_ 0x0C03 0 with contextId := 5 }) j0,
     ample flowSetSpec (put 0x5000 (recBytes true) (fed (flowing true served) { at_ 0x0C04 0 with contextId := 5, inAddr := 0x5000, inLen := 128 })) j0,
     ample flowResyncSpec (fed (flowing true served) { at_ 0x0C05 0 with contextId := 5 }) j0,
     ample flowReadSpec (fed (flowing true served) { at_ 0x0C06 0 with contextId := 5, outLen := 192 }) j0,
     ample streamSendSpec (fed (flowing true served) { at_ 0x0C10 0 with contextId := 5, inLen := 60 }) j0,
     ample vprogRunSpec (fed { served with contexts := [(1, some (ctx 0x0D01 (.bytes [])))] } { at_ 0x0D02 0 with contextId := 1, auxLen := 0, param := 0x100 }) j0,
     ample porterStartSpec (fed { served with porter := [(0, { channelInit with cfg := { channelCfgInit with assigned := true, progLen := 1 } })] } (at_ 0x0E01 0)) j0,
     ample porterStopSpec (fed { served with porter := [(0, { channelInit with cfg := { channelCfgInit with assigned := true, progLen := 1 } })] } (at_ 0x0E02 0)) j0].all id = true := by decide +kernel

theorem test_part_jobs_start :
    [clear (planStageSpec true) (fed served { at_ 0x0F01 0 with inLen := 100 }) j0,
     clear planSignerAddSpec (fed served { at_ 0x0F02 0 with inLen := 2689, param := 1 }) j0,
     clear planSignerRemoveSpec (fed served { at_ 0x0F03 0 with param := 1 }) j0,
     clear planSvnRaiseSpec (fed served { at_ 0x0F04 0 with param := 1 }) j0,
     clear planReadSpec (fed served { at_ 0x0F05 0 with outLen := 4000 }) j0,
     clear (patchStageSpec true) (fed served { at_ 0x0F08 0 with inLen := 100 }) j0,
     clear patchSvnRaiseSpec (fed served { at_ 0x0F09 0 with param := 1 }) j0,
     clear (fwStageSpec true) (fed served { at_ 0x0F10 0 with inLen := 100 }) j0,
     clear fwSvnRaiseSpec (fed served { at_ 0x0F11 0 with param := 1 }) j0,
     clear dormantEnterSpec (fed served { at_ 0x0F12 0 with param := 0x444F524D00000000 }) j0,
     clear bootRetrySpec (fed { served with dev := { served.dev with phase := .shuttered .failedStarts } } { at_ 0x0F13 0 with param := 0x5245545200000000 }) j0,
     clear ctxAllocSpec (fed served { at_ 0x0F20 0 with param := 2, outLen := 4 }) j0,
     clear ctxFreeSpec (fed served { at_ 0x0F21 0 with contextId := 1 }) j0,
     clear pitchExportSpec (fed { served with pitches := [(0, livePitch), (1, { livePitch with state := .frozen })] } { at_ 0x0F24 0 with keyHandle := 15, param := 1, outLen := 100000 }) j0,
     clear pitchImportSpec (fed served { at_ 0x0F25 0 with keyHandle := 15, param := 1, inLen := 100 }) j0,
     clear lcNonceSpec (fed served { at_ 0x0F30 0 with outLen := 32 }) j0,
     clear lcTransitionSpec (fed served { at_ 0x0F31 0 with param := 0x4C43545200000012 }) j0,
     clear debugGrantSpec (fed served { at_ 0x0F32 0 with inLen := 7488 }) j0,
     clear alarmUnlockSpec (fed served { at_ 0x0F41 0 with param := 0x554E4C4B00000000 }) j0,
     clear evidenceReadSpec (fed served { at_ 0x0F42 0 with outLen := 64 }) j0,
     clear ledgerReadSpec (fed served { at_ 0x0F50 0 with outLen := 64 }) j0,
     clear ledgerClearSpec (fed served { at_ 0x0F51 0 with param := 0x4C45444700000000 }) j0].all id = true := by decide +kernel

theorem test_part_jobs_draw_enough :
    [ample (planStageSpec true) (fed served { at_ 0x0F01 0 with inLen := 100 }) j0,
     ample planSignerAddSpec (fed served { at_ 0x0F02 0 with inLen := 2689, param := 1 }) j0,
     ample planSignerRemoveSpec (fed served { at_ 0x0F03 0 with param := 1 }) j0,
     ample planSvnRaiseSpec (fed served { at_ 0x0F04 0 with param := 1 }) j0,
     ample planReadSpec (fed served { at_ 0x0F05 0 with outLen := 4000 }) j0,
     ample (patchStageSpec true) (fed served { at_ 0x0F08 0 with inLen := 100 }) j0,
     ample patchSvnRaiseSpec (fed served { at_ 0x0F09 0 with param := 1 }) j0,
     ample (fwStageSpec true) (fed served { at_ 0x0F10 0 with inLen := 100 }) j0,
     ample fwSvnRaiseSpec (fed served { at_ 0x0F11 0 with param := 1 }) j0,
     ample dormantEnterSpec (fed served { at_ 0x0F12 0 with param := 0x444F524D00000000 }) j0,
     ample bootRetrySpec (fed { served with dev := { served.dev with phase := .shuttered .failedStarts } } { at_ 0x0F13 0 with param := 0x5245545200000000 }) j0,
     ample ctxAllocSpec (fed served { at_ 0x0F20 0 with param := 0, outLen := 4 }) j0,
     ample ctxFreeSpec (fed served { at_ 0x0F21 0 with contextId := 1 }) j0,
     ample pitchExportSpec (fed { served with pitches := [(0, livePitch), (1, { livePitch with state := .frozen })] } { at_ 0x0F24 0 with keyHandle := 15, param := 1, outLen := 100000 }) j0,
     ample pitchImportSpec (fed served { at_ 0x0F25 0 with keyHandle := 15, param := 1, inLen := 100 }) j0,
     ample lcNonceSpec (fed served { at_ 0x0F30 0 with outLen := 32 }) j0,
     ample lcTransitionSpec (fed served { at_ 0x0F31 0 with param := 0x4C43545200000012 }) j0,
     ample debugGrantSpec (fed served { at_ 0x0F32 0 with inLen := 7488 }) j0,
     ample alarmUnlockSpec (fed served { at_ 0x0F41 0 with param := 0x554E4C4B00000000 }) j0,
     ample evidenceReadSpec (fed served { at_ 0x0F42 0 with outLen := 64 }) j0,
     ample ledgerReadSpec (fed served { at_ 0x0F50 0 with outLen := 64 }) j0,
     ample ledgerClearSpec (fed served { at_ 0x0F51 0 with param := 0x4C45444700000000 }) j0].all id = true := by decide +kernel

theorem test_card_jobs_start :
    [clear custodianEnrolSpec (fed served (at_ 0x0F61 0)) j0,
     clear custodianRemoveSpec (fed served (at_ 0x0F62 0)) j0,
     clear quorumSetSpec (fed served { at_ 0x0F63 0 with param := 0x201 }) j0,
     clear quorumOpenSpec (fed served { at_ 0x0F64 0 with param := 1 }) j0,
     clear keeperPresentSpec (fed served (at_ 0x0F65 0)) j0,
     clear quorumCloseSpec (fed served (at_ 0x0F66 0)) j0,
     clear keeperIdentifySpec (fed served { at_ 0x0F67 0 with outLen := 64 }) j0,
     clear archiveMountSpec (fed served (at_ 0x0F68 0)) j0,
     clear archiveFormatSpec (fed served { at_ 0x0F69 0 with param := 0x4152434800000000 }) j0,
     clear archiveExportSpec (fed served (at_ 0x0F6A 0)) j0].all id = true := by decide +kernel

theorem test_card_jobs_draw_enough :
    [ample custodianEnrolSpec (fed served (at_ 0x0F61 0)) j0,
     ample custodianRemoveSpec (fed served (at_ 0x0F62 0)) j0,
     ample quorumSetSpec (fed served { at_ 0x0F63 0 with param := 0x201 }) j0,
     ample quorumOpenSpec (fed served { at_ 0x0F64 0 with param := 1 }) j0,
     ample keeperPresentSpec (fed served (at_ 0x0F65 0)) j0,
     ample quorumCloseSpec (fed served (at_ 0x0F66 0)) j0,
     ample keeperIdentifySpec (fed served { at_ 0x0F67 0 with outLen := 64 }) j0,
     ample archiveMountSpec (fed served (at_ 0x0F68 0)) j0,
     ample archiveFormatSpec (fed served { at_ 0x0F69 0 with param := 0x4152434800000000 }) j0,
     ample archiveExportSpec (fed served (at_ 0x0F6A 0)) j0].all id = true := by decide +kernel

/-! ### Jobs whose draws the kernel cannot count: their runs leave the instance as it is -/

theorem vverifyRun_drbgs (s : State) (x : Job) : (vverifyRun s x).state.rng.drbgs = s.rng.drbgs := by
  unfold vverifyRun ranBad ranWith; dsimp only; repeat' split
  all_goals rfl

theorem flowMsg_rng (s : State) (part : BitVec 2) (code : Nat) (home : BitVec 14) (body : Bytes) : (flowMsg s part code home body).rng = s.rng := by
  unfold flowMsg sendLink; dsimp only; repeat' split
  all_goals rfl

theorem standbyRun_drbgs (s : State) (x : Job) : (standbyRun s x).state.rng.drbgs = s.rng.drbgs := by
  unfold standbyRun; dsimp only
  rw [flowMsg_rng, State.setJob_rng, State.setCtx_rng, takeContexts_rng]

theorem latticeSignRun_drbgs (f : LatticeSig) (s : State) (x : Job) (hf : f.mu = true) (h : deterministic x.desc = true) :
    (latticeSignRun f s x).state.rng.drbgs = s.rng.drbgs := by
  unfold latticeSignRun lastRnd; simp only [hf, h, if_true]; repeat' split
  all_goals rfl

/-- The units and slots of a job are at hand, and its pitch's instance is below its limit before it runs. -/
def fresh (sp : OpSpec) (s : State) (j : JobId) : Bool :=
  match s.job j with
  | none => false
  | some x =>
    let y := accepted s x
    let v := offered s x
    let q := queuedOn sp v y
    match unitsFor v q (sp.place v y), reserveAll y.pitch (sp.slots v q) v [] with
    | some _, .inr (t, _) => !drawnDry t y.pitch
    | _, _ => false

theorem ample_of_quiet (sp : OpSpec) (s : State) (j : JobId) (x : Job) (hx : s.job j = some x)
    (h : ∀ t y, y.desc = x.desc → (sp.run t y).state.rng.drbgs = t.rng.drbgs) (f : fresh sp s j = true) : ample sp s j = true := by
  unfold fresh at f; rw [hx] at f; dsimp only at f
  unfold ample; rw [hx]; dsimp only
  split at f
  · next us t rs hu hr =>
    unfold drawnDry State.drbg at *
    rw [runJob_drbgs sp t (queuedOn sp (offered s x) (accepted s x)) us rs (fun t y a _ => h t y a)]; exact f
  · cases f

theorem fed_job (s : State) (d : Desc) : (fed s d).job j0 = some (jobInit j0 0 0 d) := rfl

def standbyDesc : Desc := { at_ 0x0C07 0 with contextId := 0x4001 }
def standbyCase : State :=
  fed { served with links := { Links.reset with link := [{ Link.reset with state := .up }, Link.reset, Link.reset] } } standbyDesc

def verifyDesc : Desc := { at_ 0x0D01 0 with contextId := 1, keyHandle := 16, inAddr := 0x5000, inLen := 3381 }
def verifyCase : State := put 0x5000 img (fed served verifyDesc)

def signDesc : Desc := { at_ 0x0302 1 with keyHandle := 2, outLen := 4000, param := 4 }
def signCase : State := fed served signDesc

theorem put_job (a : Nat) (bs : Bytes) (s : State) (j : JobId) : (put a bs s).job j = s.job j := rfl

theorem standby_quiet (t : State) (y : Job) : (flowStandbySpec.run t y).state.rng.drbgs = t.rng.drbgs := by
  unfold flowStandbySpec; dsimp only; exact standbyRun_drbgs t y

theorem standbyCase_fresh : fresh flowStandbySpec standbyCase j0 = true := by decide +kernel

theorem test_flow_standby_draws_nothing : ample flowStandbySpec standbyCase j0 = true :=
  ample_of_quiet flowStandbySpec standbyCase j0 (jobInit j0 0 0 standbyDesc) (fed_job _ standbyDesc)
    (fun t y _ => standby_quiet t y) standbyCase_fresh

theorem verifyCase_fresh : fresh vprogVerifySpec verifyCase j0 = true := by decide +kernel

theorem verifyCase_job : verifyCase.job j0 = some (jobInit j0 0 0 verifyDesc) := by
  unfold verifyCase; rw [put_job]; exact fed_job _ _

theorem test_vprog_verify_draws_nothing : ample vprogVerifySpec verifyCase j0 = true := by
  refine ample_of_quiet vprogVerifySpec verifyCase j0 _ verifyCase_job (fun t y _ => ?_) verifyCase_fresh
  exact vverifyRun_drbgs t y

theorem test_deterministic_sign_draws_nothing : ample mldsaSignSpec signCase j0 = true :=
  ample_of_quiet mldsaSignSpec signCase j0 (jobInit j0 0 0 signDesc) (fed_job _ signDesc)
    (fun t y a => latticeSignRun_drbgs _ t y rfl (by rw [a]; rfl)) (by decide +kernel)

/-- The units and slots of a job are at hand, and its pitch's instance has room for so many calls before it runs. -/
def roomy (m : Nat) (sp : OpSpec) (s : State) (j : JobId) : Bool :=
  match s.job j with
  | none => false
  | some x =>
    let y := accepted s x
    let v := offered s x
    let q := queuedOn sp v y
    match unitsFor v q (sp.place v y), reserveAll y.pitch (sp.slots v q) v [] with
    | some _, .inr (t, _) => room t.rng q.pitch m && q.pitch == x.pitch && q.desc == x.desc && y.pitch == x.pitch
    | _, _ => false

/-- A job whose run keeps within that room draws enough. -/
theorem ample_of_room (m : Nat) (sp : OpSpec) (s : State) (j : JobId) (x : Job) (hx : s.job j = some x)
    (h : ∀ t y, y.desc = x.desc → y.pitch = x.pitch → room t.rng y.pitch m = true → drawnDry (sp.run t y).state y.pitch = false)
    (f : roomy m sp s j = true) : ample sp s j = true := by
  unfold roomy at f; rw [hx] at f; dsimp only at f
  unfold ample; rw [hx]; dsimp only
  split at f
  · next us t rs hu hr =>
    simp only [Bool.and_eq_true, beq_iff_eq] at f
    obtain ⟨⟨⟨f1, f2⟩, f3⟩, f4⟩ := f
    rw [f2] at f1
    rw [f4, runJob_notDry sp t _ us rs x.pitch m (fun t y a b w => ?_) f1]
    · rfl
    · have c : y.pitch = x.pitch := b.trans f2
      rw [← c] at w ⊢
      exact h t y (a.trans f3) c w
  · cases f

def fndsaDesc : Desc := { at_ 0x0402 1 with keyHandle := 3, outLen := 4000 }
def mceDesc : Desc := { at_ 0x0801 1 with flags := 4 }
def ecdsaDesc : Desc := { at_ 0x0902 1 with keyHandle := 10, inLen := 32, outLen := 64 }
def xdhDesc : Desc := { at_ 0x0922 1 with keyHandle := 12, auxLen := 32, outLen := 64 }
def rsaDesc : Desc := { at_ 0x0931 2048 with flags := 4 }
def createDesc : Desc := { at_ 0x0C01 0 with inAddr := 0x5000, inLen := 128 }
def createCase : State := put 0x5000 (recBytes true) (fed served createDesc)

theorem createCase_job : createCase.job j0 = some (jobInit j0 0 0 createDesc) := by
  unfold createCase; rw [put_job]; exact fed_job _ _

theorem test_fndsa_sign_draws_enough : ample fndsaSignSpec (fed served fndsaDesc) j0 = true :=
  ample_of_room 256 fndsaSignSpec _ j0 _ (fed_job _ fndsaDesc) (fun t y _ _ w => drawnDry_room (latticeSignRun_room _ t y 0 w)) (by decide +kernel)

theorem test_mce_keygen_draws_enough : ample mceKeygenSpec (fed served mceDesc) j0 = true :=
  ample_of_room 128 mceKeygenSpec _ j0 _ (fed_job _ mceDesc) (fun t y _ _ w => drawnDry_room (mceKeygenRun_room t y 0 w)) (by decide +kernel)

theorem test_ecdsa_sign_draws_enough : ample ecdsaSignSpec (fed served ecdsaDesc) j0 = true :=
  ample_of_room 16 ecdsaSignSpec _ j0 _ (fed_job _ ecdsaDesc) (fun t y _ _ w => ecdsaSignRun_notDry t y 0 w) (by decide +kernel)

theorem test_xdh_draws_enough : ample xdhSpec (fed served xdhDesc) j0 = true :=
  ample_of_room 0 xdhSpec _ j0 _ (fed_job _ xdhDesc) (fun t y _ _ w => exchangeRun_notDry 13 _ _ t y 0 w) (by decide +kernel)

theorem test_rsa_keygen_draws_enough : ample rsaKeygenSpec (fed served rsaDesc) j0 = true :=
  ample_of_room 2621440 rsaKeygenSpec _ j0 _ (fed_job _ rsaDesc)
    (fun t y a _ w => rsaKeygenRun_notDry t y 0
      (by rw [a]; exact w)) (by decide +kernel)

theorem test_flow_create_draws_enough : ample flowCreateSpec createCase j0 = true :=
  ample_of_room 1 flowCreateSpec createCase j0 _ createCase_job
    (fun t y _ _ w => by unfold flowCreateSpec; dsimp only; exact drawnDry_room (createRun_room t y 0 w)) (by decide +kernel)

/-- What `clear` and `ample` test is what a start needs. -/
theorem starts_of_clear (sp : OpSpec) (s : State) (j : JobId) (h : clear sp s j = true) (a : ample sp s j = true) :
    ∃ x us t rs, x.id = j ∧ Starts sp s x us t rs := by
  unfold clear at h; unfold ample at a
  cases hx : s.job j with
  | none => rw [hx] at h; cases h
  | some x =>
    rw [hx] at h a; dsimp only at h a
    simp only [Bool.and_eq_true, beq_iff_eq] at h
    obtain ⟨⟨⟨⟨⟨⟨⟨⟨⟨⟨⟨⟨⟨⟨⟨h1, h2⟩, h3⟩, h4⟩, h5⟩, h5b⟩, h6⟩, h7⟩, h8⟩, h9⟩, h10⟩, h11⟩, h12⟩, h13⟩, h14⟩, h15⟩ := h
    split at a
    · next us t rs hu hr =>
      refine ⟨x, us, t, rs, h1, ⟨⟨by rw [h1]; exact hx, h2, h3, h4, by simpa using h5, by simpa using h5b, by simpa using h6⟩,
        ⟨h7, by simpa using h8, by simpa using h9, by simpa using h10, by simpa using h11, hu, by simpa using h12, hr, ?_, h14,
         by simpa using a⟩⟩⟩
      intro m
      rw [m] at h13; simpa using h13
    · cases a

/-! ### The spec's worked examples -/

/-- Something of the next state, where there is one. -/
def after {α : Type} (o : Host.Outcome State Fault Refusal) (f : State → α) : Option α :=
  match o with
  | .next t => some (f t)
  | _ => none

/-- 06_control_stores, after R125. -/
theorem test_store_word_check : withCheck 0x1812982A5 = 0x8980000000000000000000000001812982A5 := by decide +kernel

/-- 07_vector_extensions, after R145: VBFCT w4, w5. -/
theorem test_vector_instruction :
    vinsnOf 0x00000000C4040435 =
      { op := 0x35, d := 4, a := 0, b := 1, m := 8, form := 0, long := true, qsel := 1, rsv := false, imm := 0 } := by decide +kernel

/-- 18_ledger, the first sixteen bytes of the record and the first of its detail. -/
theorem test_ledger_record :
    let e : Event := { event := 0x0E01, pitch := 0, flags := 0x10, optime := 0x708055AA, cycles := 1207, detail := [0x0D, 0, 0xA4, 2], count := 1 }
    (slotBytes (recordOf e false)).take 20 =
      [0x01, 0x0E, 0x0E, 0x00, 0xB7, 0x04, 0x00, 0x10, 0xAA, 0x55, 0x80, 0x70, 0x01, 0x00, 0x5B, 0x00, 0x0D, 0x00, 0xA4, 0x02] := by
  decide +kernel

/-- 16_lifecycle_debug, after R369: a burn of W18 from FIELD cut after three bits. -/
theorem test_cut_burn :
    let ws : List (BitVec 16) := [0x0FF0, 0x33CC, 0x55AA, 0x6699] ++ List.replicate 12 0 ++ [0xCC33, 0xF0F0, 0x001A, 0]
    decodeFuses ws = 0x1F ∧ (pendingPair ws).map (·.2) = some 0x13 := by decide +kernel

/-- 03_work_queues: the queue of TM-VR07, its third register write, and SQ_PI := 320 before and after C reaches 64. -/
def vr07 (c : BitVec 32) : State :=
  let cfg : QueueCfg := { queueCfgInit with descBase := 0x740000000, cplBase := 0x740004000, log2Size := 8, local_ := 2, assigned := true,
                                            weight := 3, burst := 2, vector := 114, coalCount := 4, coalTime := 20 }
  { served with queues := [(114, { queueInit with cfg := cfg, state := .enabled, h := 300, p := 300, w := 270, c := c })] }

theorem test_doorbell_rejected : after (exec (.sqPi 0 2 320) (vr07 60)) (fun t => ((t.q 114).p, (t.q 114).dbRejected)) = some (300, true) := by
  decide +kernel

theorem test_doorbell_accepted : after (exec (.sqPi 0 2 320) (vr07 64)) (fun t => ((t.q 114).p, (t.q 114).dbRejected)) = some (320, false) := by
  decide +kernel

theorem test_queue_register :
    after (exec (.registerWrite .control 0x101C90 32 0x03074208) served)
      (fun t => let c := (t.q 114).shadow; (c.weight, c.pitch, c.assigned, c.local_, c.log2Size)) = some (3, 7, true, 2, 8) := by decide +kernel

/-- The same queue's record for the descriptor of position 300, at W = 270. -/
theorem test_record_word :
    let x := { busy [] { d0 with tag := 5 } with index := 44, id := { src := 0, queue := 114, pos := 300 } }
    leNat (((recordBytes ((vr07 60).q 114) x done0).drop 12).take 4) = 0x0002C072 := by decide +kernel

/-- 19_cards: TA1 = 0x18 without TA2 is answered with a PPS. -/
theorem test_pps_request :
    let k := exchange .atr false
    let atr : Bytes := [0x3B, 0x96, 0x18, 0x01] ++ ascii "CQKEEP" ++ [0x86]
    after (exec (.atrReceive atr) { served with cards := { Cards.reset with keeper := some k } })
      (fun t => t.cards.keeper.map (·.stage)) = some (some (.pps [0xFF, 0x11, 0x18, 0xF6])) := by decide +kernel

/-- R30: a write of the epoch on a part whose queues are disabled, and on one that is busy. -/
theorem test_epoch_changes :
    after (exec (.epochWrite 1) (queued { liveQueue with state := .disabled })) (fun t => (t.dev.epoch, t.dev.refused)) = some (1, false) ∧
    after (exec (.epochWrite 1) served) (fun t => (t.dev.epoch, t.dev.refused)) = some (2, true) := by decide +kernel

/-- A step takes the command in front, and the table's rows have no words. -/
theorem test_step : after (step (served.withCommand .epochLock)) (fun t => (t.dev.lock, t.pending)) = some (true, []) := by decide +kernel

theorem test_no_words : decodeTableWord 32 5 = none ∧ (served.withFetchWord 32 5).pending = [] := by decide +kernel

/-- The part in service with its fused identity meets the invariant, and a step of it answers a next state. -/
theorem test_invariant_met :
    let s : State := { served with dev := { served.dev with uid := Config.deviceUid, orderCode := if Config.isXL then 2 else 1 } }
    s.Inv ∧ s.pending = [] ∧ step s = .next (tick s) :=
  ⟨⟨by decide +kernel, ⟨rfl, rfl⟩, by decide +kernel⟩, rfl, rfl⟩

/-- The checks that other standards give for the nine digits (log 2). -/
theorem test_crcs : crc32c (ascii "123456789") = 0xE3069283 ∧ fcs (ascii "123456789") = [0x26, 0x39, 0xF4, 0xCB] := by decide +kernel

theorem test_sha256 : (sha256 (ascii "abc")).take 4 = [0xBA, 0x78, 0x16, 0xBF] := by decide +kernel

/-! ### Terms that are not well formed -/

def zeroMsg (step : BitVec 2) : HandshakeMsg :=
  { step := step, linkId := 0, uid := 0, nonce := [], xPub := [], kem := [], certUid := 0, certKey := [], certSig := [], sig := [], inField := true, holds := [] }

theorem test_ill_formed :
    [ Instr.retrain 3, .beanTrimWindow 80, .beanRetestDone 0 3, .registerRead .control 0 24, .registerRead .doorbell 0x100000 32,
      .registerRead .crate 0x7FFFFF 16, .registerRead .config 0xFFD 32, .registerWrite .msixControl 4 32 0, .crateFlagWrite 0 2 (zeros 4), .crateFlagWrite 0 4 (zeros 8),
      .crateFlagWrite 0 0 [1], .crateDataWrite 0 [], .crateDataWrite 0x7FFFFF (zeros 2), .powerOnReset { start0 with beanTrips := [(80, [])] },
      .powerOnReset { start0 with beanTrips := [(0, [3])] },
      .arcCardInsert { goodCard with blocks := [(1048576, zeros 512)] },
      .arcCardInsert { goodCard with blocks := [(1, zeros 511)] },
      .mlkemKeygen { src := 1, queue := 2, pos := 0 }, .frameReceive 0 [], .handshakeMessage 0 (zeroMsg 0), .handshakeMessage 3 (zeroMsg 1),
      .linkTrainingComplete 0 5, .jobForwardResult { src := 1, queue := 0, pos := 0 } { status := 0, detail := 0, result := 0, elapsed := 0, output := [] },
      .spillResult { src := 1, queue := 0, pos := 0 } { status := 0, detail := 0, result := 0, elapsed := 0, output := [] } ].all
      (fun c => !c.wellFormed) = true ∧
    [ Instr.retrain 2, .beanTrimWindow 79, .beanRetestDone 79 2, .registerRead .control 0 32, .registerRead .doorbell 0xFFFFC 32,
      .registerRead .crate 0x7FFFFF 8, .registerRead .config 0xFFC 32, .registerWrite .msixControl 0 32 0, .crateFlagWrite 0 4 (zeros 4), .crateFlagWrite 0 8 (zeros 8),
      .crateDataWrite 0x7FFFFE (zeros 2), .powerOnReset start0, .mlkemKeygen j0, .frameReceive 0 [1], .handshakeMessage 2 (zeroMsg 3),
      .linkTrainingComplete 0 4, .arcCardInsert { goodCard with blocks := [(1048575, zeros 512)] } ].all (fun c => c.wellFormed) = true := by decide +kernel

/-! ### Further clauses -/

theorem test_queue_refusals_met :
    (let s : State := { served with dev := { served.dev with phase := .boot }, queues := [(0, { liveQueue with state := .disabled })] }
     windowsOpen s = true ∧ s.dev.phase ≠ .ready ∧ s.isShuttered = false) ∧
    (let s : State := { served with dev := { served.dev with phase := .shuttered .lifecycle }, queues := [(0, { liveQueue with state := .disabled })] }
     windowsOpen s = true ∧ (s.q 0).state = .disabled ∧ s.isShuttered = true ∧ (s.q 5).state = .disabled ∧ (s.q 0).cfg.pitch = 0) ∧
    (∀ c ∈ [{ liveQueueCfg with assigned := false }, { liveQueueCfg with descBase := 0 }, { liveQueueCfg with cplBase := 0 },
        { liveQueueCfg with pitch := 9 }], ((queued { liveQueue with cfg := c, state := .disabled }).q 0).cfg = c) ∧
    (served.pitch 9).cfg.bound = false ∧
    ((queued { liveQueue with state := .draining }).q 0).state = .draining ∧ (served.q 0).state ≠ .error := by decide +kernel

/-- What COMMIT refuses queue 1 with, beside queue 0 of the part in service. -/
def commits (c : QueueCfg) (st : QueueState) (others : List (Nat × Queue)) : Option (BitVec 16) :=
  queueCommitBad { served with queues := (0, liveQueue) :: (1, { queueInit with shadow := c, state := st }) :: others } 1

theorem test_queue_commits_met :
    (let c := { liveQueueCfg with local_ := 1 }
     let absent : Queue := { queueInit with cfg := { liveQueueCfg with pitch := 0 } }
     [commits c .enabled [], commits { c with log2Size := 3 } .disabled [], commits { c with log2Size := 17 } .disabled [],
      commits { c with descBase := 0xFFFFFFFFFFFFFC01 } .disabled [], commits { c with cplBase := 0xFFFFFFFFFFFFFE01 } .disabled [],
      commits { c with weight := 0 } .disabled [], commits { c with burst := 65 } .disabled [],
      commits { c with coalCount := 1, coalTime := 0 } .disabled [], commits { c with pitch := 9 } .disabled [],
      commits { c with local_ := 0 } .disabled [], commits c .disabled ((List.range 15).map (fun i => (i + 2, absent))),
      commits { c with local_ := 0 } .disabled ((List.range 63).map (fun i => (i + 2, absent))), commits c .disabled []]) =
    [some 0x30, some 0x31, some 0x31, some 0x32, some 0x32, some 0x36, some 0x36, some 0x37, some 0x33, some 0x34, some 0x35, some 0x35,
     none] := by decide +kernel

theorem test_ports_under_scan_met :
    { served.dev with bscan := true }.bscan = true ∧ served.dev.bscan = false ∧ served.dev.phase = .ready := by decide +kernel

theorem test_spare_tile_loads :
    (let s : State := { served with plan := { served.plan with joining := [2], spares := 0x20 } }
     leastBy (spareRank s) s.plan.joining = some 2 ∧ (tilesOf s.plan.spares).head? = some 5 ∧ tileTagsOk s = true ∧
     tileTagsOk { s with seq := { s.seq with tagsA := { s.seq.tagsA with tile := [zeros 16] } } } = false) := by decide +kernel

theorem test_keeper_tile_met :
    let x := busy [] { d0 with opcode := 0x0F65 }
    let k : KeeperRun := { exchange (.checking true) false with unit := some 0, doneAt := 5 }
    let s : State := { working x with cards := { Cards.reset with keeper := some k } }
    s.job j0 = some x ∧ x.phase = .running ∧ x.units = [] ∧ keeperTile s j0 = some 0 ∧
    (trip .engineFcm (unitReading ((0#6).setWidth 8)) s).job j0 = some x ∧
    tileJob { s with tiles := [(0, { tileInit with state := .busy j0 })] } 0 = some x ∧
    s.cards.keeper = some k ∧ k.stage = .checking true ∧ s.clock.us < k.doneAt ∧ { k with doneAt := 0 }.doneAt ≤ s.clock.us ∧
    placing s = true ∧ checkTiles s { k with unit := none } = [0] ∧
    checkTiles { s with tiles := [(0, { tileInit with state := .testing })] } { k with unit := none } = [] := by decide +kernel

theorem test_patch_units_met :
    (let s : State := { served with seq := { served.seq with patchFlips := [(0, 1)] } }
     upsetTiles s s.seq.scrubAt = [] ∧ decodeUnit (unitFlips s.seq s.seq.patchAt) = .corrected) ∧
    (let s : State := { served with seq := { served.seq with patchFlips := [(0, 3)] } }
     decodeUnit (unitFlips s.seq s.seq.patchAt) = .uncorrectable) ∧ unitFlips served.seq served.seq.patchAt = 0 := by decide +kernel

theorem test_core_faults_met :
    (let x := busy [.core] { d0 with opcode := 0x0A01 }
     onCore x = true ∧ x.transfers = 0 ∧ (trip .dualRail (unitReading 0) (working x)).job j0 = some x) ∧
    engineOf (busy [.engine 1] d0) = some 1 := by decide +kernel

theorem test_battery_kept_met :
    served.life.decision = none ∧ served.alarm.evFresh = 0 ∧
    { served.battery with wroteAt := 1 }.wroteAt ≠ served.clock.us := by decide +kernel

theorem test_detectors_held_met :
    nvHeld served = false ∧ nvHeld { served with alarm := { served.alarm with badRails := [.nvL] } } = true ∧
    stillFailing served .rngMain = false ∧ stillFailing { served with rng := { served.rng with mainFail := true } } .rngMain = true := by
  decide +kernel

theorem test_holds_met :
    (let s : State := { served with rng := { served.rng with mainFail := true, mainSince := 0, maskFail := true, maskSince := 4 },
                                    clock := { us := 20000, optFrac := 0, batFrac := 0 } }
     s.rng.mainHold = false ∧ s.rng.maskHold = false ∧ s.rng.mainSince + 1000 * holdMs s ≤ s.clock.us ∧
     s.rng.maskSince + 1000 * holdMs s ≤ s.clock.us ∧ s.rng.mainSince ≤ s.rng.maskSince ∧
     s.clock.us < 15000 + 1000 * holdMs s ∧ { s.rng with mainSince := 5 }.maskSince < 5) ∧
    { served.rng with feedsStopped := true }.maskFail = false ∧ served.rng.started = true ∧ Rng.reset.started = false := by decide +kernel

theorem test_last_slot_met :
    (let r : Record := { event := 0x0101, pitch := 0, cycles := 0, flags := 0, optime := 0, tally := 1, check := 0, detail := zeros 8,
                         crc := 0, torn := false, reach := 32 }
     let e : Event := { event := 0x0101, pitch := 0, flags := 0, optime := 0, cycles := 0, detail := zeros 8, count := 1 }
     let s : State := { served with ledger := { served.ledger with queue := [e], slots := List.replicate 16382 r } }
     nvReady s = true ∧ s.ledger.clearing = false ∧ s.ledger.queue = [e] ∧ s.ledger.slots.length = 16382) := by
  refine ⟨by decide, rfl, rfl, List.length_replicate ..⟩

theorem test_links_further_met :
    (linked { Link.reset with state := .refused }).link 0 = some { Link.reset with state := .refused } ∧
    { Links.reset with beatsShadow := 0 }.beatsShadow = 0 := by decide +kernel

theorem test_handshake_further_met :
    (let s := linked { Link.reset with state := .handshake }
     let u := countRx 0 s
     (u.link 0).map (fun l => (l.state, l.step)) = some (.handshake, 0) ∧ initiates u 0 = true ∧ (zeroMsg 3).step = 3 ∧
     (zeroMsg 1).step ≠ 3 ∧ peerBad u 0 { zeroMsg 1 with linkId := s.links.part } = some 0x0FC5 ∧
     peerBad u 0 { zeroMsg 1 with linkId := s.links.part + 2 } = some 0x0FC4) := by decide +kernel

theorem test_spilled_keys_met :
    (let u := countRx 0 (linked { Link.reset with state := .up })
     openKeys u 0 5 2 [] = some [] ∧ u.locked = false ∧ spilledIn u < 1024 ∧ openKeys u 0 5 2 [0] = none) ∧
    (let x := { busy [] { d0 with opcode := 0x0F20 } with forwarded := some 0 }
     (working x).job j0 = some x ∧ x.spilled = false ∧ x.desc.opcode = 0x0F20) := by decide +kernel

theorem test_scan_met :
    bscanAllowed served = true ∧ alive served = true ∧ (0x33 : BitVec 8) ∉ [0x00, 0x01, 0x02, 0x04, 0x05] ∧
    alive { served with dev := { served.dev with phase := .unpowered } } = false ∧ { served.dev with bscan := true }.bscan = true := by
  decide +kernel

theorem test_refused_late_and_spilled_met :
    (let s := fed served { at_ 0x0B01 0 with param := 0x8000000001, inLen := 200 }
     s.job j0 = some (first s) ∧ (first s).phase = .fetched ∧ (first s).desc.opcode = vaultImportSpec.code ∧ mayStart s (first s) = true ∧
     checkWithKey vaultImportSpec s (first s) = none ∧ (lateBad vaultImportSpec (lend (first s) s) (first s)).isSome = true) := by
  decide +kernel

theorem test_suspended_met :
    let x := { busy [] (at_ 0x0101 1) with phase := .suspended, turn := 5 }
    let y := { busy [.tile 1] (at_ 0x0501 1) with id := { j0 with pos := 7 }, turn := 1 }
    let z := { busy [] (at_ 0x0501 1) with id := { j0 with pos := 8 }, phase := .waiting, turn := 2, front := true }
    let s : State := { served with jobs := [y, z, x], tiles := [(1, { tileInit with state := .busy y.id })] }
    s.job x.id = some x ∧ placing s = true ∧ resumeStall s x = none ∧ behind s .hashsig x = true ∧ tilesNow s .hashsig x = none := by
  decide +kernel

theorem test_records_further_met :
    ((working (busy [.tile 0] d0)).q 0).cfg.assigned = true ∧ Tab.wf 0#8 served.host = true ∧ Tab.wf 0#8 served.crates.data = true ∧
    (served.pitch 0).logOn = false ∧ (served.q 0).state = .enabled ∧ ((queued { liveQueue with state := .draining }).q 0).state ≠ .enabled ∧
    { d0 with flags := 2 }.outCrate = true ∧ d0.outCrate = false := by decide +kernel

theorem test_idle_further_met :
    served.seq.patch = none ∧ served.cards.keeper = none ∧ sequencing served = [] := by decide +kernel

end Sys2Proof.Tests
end

section
/-! SUPPORT. The rules of a register access (R7 to R10, R54): what a read and a write of 32 or of 64 bits do by what stands at the
offset, what an access through an open or a closed window comes to, and configuration space; from them the statement about registers. -/
namespace Sys2Proof.Machine

/-! ### The upper half of a 64-bit register (R9) -/

theorem upperOf_of_mod_ne {s : State} {w : Window} {o : Nat} (h : o % 8 ≠ 4) : upperOf s w o = none := if_neg h

theorem upperOf_of_word_below {s : State} {w : Window} {o : Nat} {x : BitVec 32} {f : BitVec 32 → State → State}
    (h : regAt s w (o - 4) = .word x f) : upperOf s w o = none := by
  unfold upperOf
  rw [h, ite_self]

theorem useLatch_of_none {s : State} {o : Nat} (now : BitVec 32) (h : latched s o = none) : useLatch o now s = (now, s) := by
  unfold useLatch
  rw [h]

/-! ### 32 bits, by what stands at the offset -/

section
variable {s : State} {w : Window} {o : Nat}

theorem read32_nothing (u : upperOf s w o = none) (r : regAt s w o = .nothing) : read32 w o s = (0, s) := by
  unfold read32
  rw [u, r]

theorem write32_nothing (v : BitVec 32) (u : upperOf s w o = none) (r : regAt s w o = .nothing) : write32 w o v s = s := by
  unfold write32
  rw [u, r]

variable {x : BitVec 32} {f : BitVec 32 → State → State}

theorem read32_word (u : upperOf s w o = none) (r : regAt s w o = .word x f) (h : ¬(w = .control ∧ o = strTimeHi)) :
    read32 w o s = (x, s) := by
  unfold read32
  rw [u, r]
  exact if_neg h

theorem write32_word (v : BitVec 32) (u : upperOf s w o = none) (r : regAt s w o = .word x f) (h : ¬(w = .control ∧ o = 0x48)) :
    write32 w o v s = settle s (f v s) := by
  unfold write32
  rw [u, r]
  exact if_neg h

variable {y : BitVec 64} {g : BitVec 64 → State → State}

/-- The lower half read latches the upper one (R9). -/
theorem read32_wide (u : upperOf s w o = none) (r : regAt s w o = .wide y g) (h : o ≠ strTime) :
    read32 w o s = (bits y 0 32, setLatch (o + 4) (some (bits y 32 32)) s) := by
  unfold read32
  rw [u, r]
  simp only [if_neg h]

/-- The lower half written is held (R9). -/
theorem write32_wide (v : BitVec 32) (u : upperOf s w o = none) (r : regAt s w o = .wide y g) :
    write32 w o v s = setHeld o (some v) s := by
  unfold write32
  rw [u, r]

theorem read32_upper (u : upperOf s w o = some (y, g)) (h : latched s o = none) : read32 w o s = (bits y 32 32, s) := by
  unfold read32
  rw [u]
  exact useLatch_of_none _ h

theorem write32_upper (v : BitVec 32) {l : BitVec 32} (u : upperOf s w o = some (y, g)) (h : heldHalf s (o - 4) = some l) :
    write32 w o v s = settle s (g (v ++ l) (setHeld (o - 4) none s)) := by
  unfold write32
  rw [u, h]
  rfl

/-! ### 64 bits -/

theorem read64_wide (r : regAt s w o = .wide y g) : read64 w o s = (y, s) := by
  unfold read64
  rw [r]

theorem write64_wide (v : BitVec 64) (r : regAt s w o = .wide y g) : write64 w o v s = settle s (g v (setHeld o none s)) := by
  unfold write64
  rw [r]

end

/-! ### Accesses by width and boundary -/

section
variable {w : Window} (hw : w ≠ .crate)
include hw

theorem readReg_32 {o : Nat} (h : o % 4 = 0) (s : State) :
    readReg w o 32 s = ((read32 w o s).1.setWidth 64, (read32 w o s).2) := by
  unfold readReg
  rw [if_neg hw, if_pos ⟨rfl, h⟩]

theorem writeReg_32 {o : Nat} (h : o % 4 = 0) (v : BitVec 64) (s : State) : writeReg w o 32 v s = write32 w o (bits v 0 32) s := by
  unfold writeReg
  rw [if_neg hw, if_pos ⟨rfl, h⟩]

theorem readReg_64 {o : Nat} (h : o % 8 = 0) (s : State) : readReg w o 64 s = read64 w o s := by
  unfold readReg
  rw [if_neg hw, if_neg (by simp), if_pos ⟨rfl, h⟩]

theorem writeReg_64 {o : Nat} (h : o % 8 = 0) (v : BitVec 64) (s : State) : writeReg w o 64 v s = write64 w o v s := by
  unfold writeReg
  rw [if_neg hw, if_neg (by simp), if_pos ⟨rfl, h⟩]

theorem readReg_other_width {k : Nat} (h32 : k ≠ 32) (h64 : k ≠ 64) (o : Nat) (s : State) : readReg w o k s = (allOnes k, s) := by
  unfold readReg
  rw [if_neg hw, if_neg (fun h => h32 h.1), if_neg (fun h => h64 h.1)]

theorem writeReg_other_width {k : Nat} (h32 : k ≠ 32) (h64 : k ≠ 64) (o : Nat) (v : BitVec 64) (s : State) :
    writeReg w o k v s = s := by
  unfold writeReg
  rw [if_neg hw, if_neg (fun h => h32 h.1), if_neg (fun h => h64 h.1)]

end

/-! ### The host's accesses of the windows (R54, R55) -/

theorem exec_registerRead (w : Window) (off : BitVec 26) (k : BitVec 7) (s : State) :
    exec (.registerRead w off k) s = .next (hostRead w off.toNat k.toNat s) := rfl

theorem exec_registerWrite (w : Window) (off : BitVec 26) (k : BitVec 7) (v : BitVec 64) (s : State) :
    exec (.registerWrite w off k v) s = .next (hostWrite w off.toNat k.toNat v s) := rfl

theorem alive_of_windowsOpen {s : State} (h : windowsOpen s = true) : alive s = true := (Bool.and_eq_true_iff.mp h).1

section
variable {s : State} {w : Window} (hm : w ≠ .msixControl) (hf : w ≠ .config) (off : BitVec 26)
include hm hf

theorem exec_registerRead_closed (ho : windowsOpen s = false) (k : BitVec 7) :
    exec (.registerRead w off k) s = .next (answerRead (allOnes k.toNat) s) := by
  rw [exec_registerRead]
  unfold hostRead
  rw [if_neg hm, if_neg hf, if_neg (by simp [ho])]

theorem exec_registerWrite_closed (ho : windowsOpen s = false) (k : BitVec 7) (v : BitVec 64) :
    exec (.registerWrite w off k v) s = .next s := by
  rw [exec_registerWrite]
  unfold hostWrite
  rw [if_neg hm, if_neg hf, if_neg (by simp [ho])]

theorem exec_registerRead_open (ho : windowsOpen s = true) (k : BitVec 7) :
    exec (.registerRead w off k) s =
      .next (answerRead (readReg w off.toNat k.toNat s).1 (readReg w off.toNat k.toNat s).2) := by
  rw [exec_registerRead]
  unfold hostRead
  rw [if_neg hm, if_neg hf, if_pos ho]

theorem exec_registerWrite_open (ho : windowsOpen s = true) (k : BitVec 7) (v : BitVec 64) :
    exec (.registerWrite w off k v) s = .next (writeReg w off.toNat k.toNat v s) := by
  rw [exec_registerWrite]
  unfold hostWrite
  rw [if_neg hm, if_neg hf, if_pos ho]

variable {off} (hc : w ≠ .crate) (ho : windowsOpen s = true)
include hc ho

theorem exec_registerRead_32 (h : off.toNat % 4 = 0) {x : BitVec 32} {t : State} (r : read32 w off.toNat s = (x, t)) :
    exec (.registerRead w off 32) s = .next (answerRead (x.setWidth 64) t) := by
  rw [exec_registerRead_open hm hf off ho, show (32 : BitVec 7).toNat = 32 from rfl, readReg_32 hc h, r]

theorem exec_registerWrite_32 (h : off.toNat % 4 = 0) {v : BitVec 64} {t : State} (r : write32 w off.toNat (bits v 0 32) s = t) :
    exec (.registerWrite w off 32 v) s = .next t := by
  rw [exec_registerWrite_open hm hf off ho, show (32 : BitVec 7).toNat = 32 from rfl, writeReg_32 hc h, r]

theorem exec_registerRead_64 (h : off.toNat % 8 = 0) {x : BitVec 64} {t : State} (r : read64 w off.toNat s = (x, t)) :
    exec (.registerRead w off 64) s = .next (answerRead x t) := by
  rw [exec_registerRead_open hm hf off ho, show (64 : BitVec 7).toNat = 64 from rfl, readReg_64 hc h, r]

theorem exec_registerWrite_64 (h : off.toNat % 8 = 0) {v : BitVec 64} {t : State} (r : write64 w off.toNat v s = t) :
    exec (.registerWrite w off 64 v) s = .next t := by
  rw [exec_registerWrite_open hm hf off ho, show (64 : BitVec 7).toNat = 64 from rfl, writeReg_64 hc h, r]

end

/-- The crate window is memory: a read of any width answers its bytes (R81). -/
theorem exec_registerRead_crate {s : State} (ho : windowsOpen s = true) (off : BitVec 26) (k : BitVec 7) :
    exec (.registerRead .crate off k) s = .next (answerRead (crateRead s off.toNat k.toNat) s) := by
  rw [exec_registerRead_open (by decide) (by decide) off ho]
  rfl

theorem exec_registerRead_msixControl {s : State} (ha : alive s = true) (off : BitVec 26) (k : BitVec 7) :
    exec (.registerRead .msixControl off k) s = .next (answerRead (messageControl s) s) := by
  rw [exec_registerRead]
  unfold hostRead
  rw [if_pos rfl, if_pos ha]

/-! ### Configuration space (R53, R54) -/

theorem exec_registerRead_config {s : State} (ha : alive s = true) {off : BitVec 26} (h : off.toNat % 4 = 0) :
    exec (.registerRead .config off 32) s = .next (answerRead ((configWord s off.toNat).setWidth 64) s) := by
  rw [exec_registerRead]
  unfold hostRead
  rw [if_neg (by decide), if_pos rfl, if_pos ha, if_pos ⟨rfl, h⟩]

theorem exec_registerRead_config_misaligned {s : State} (ha : alive s = true) {off : BitVec 26} (h : off.toNat % 4 ≠ 0) :
    exec (.registerRead .config off 32) s = .next (answerRead 0xFFFFFFFF s) := by
  rw [exec_registerRead]
  unfold hostRead
  rw [if_neg (by decide), if_pos rfl, if_pos ha, if_neg (fun e => h e.2)]
  rfl

theorem exec_registerWrite_config {s : State} (ha : alive s = true) {off : BitVec 26} (h : off.toNat % 4 = 0) (v : BitVec 64) :
    exec (.registerWrite .config off 32 v) s = .next (configWrite off.toNat (bits v 0 32) s) := by
  rw [exec_registerWrite]
  unfold hostWrite
  rw [if_neg (by decide), if_pos rfl, if_pos ⟨ha, rfl, h⟩]

theorem bit_low_word (v : BitVec 64) {i : Nat} (h : i < 32) : bit (bits v 0 32 : BitVec 32) i = bit v i := by
  unfold bit bits
  simp [h]

theorem barBase_controlSize (v : BitVec 64) : barBase v controlSize = v &&& ~~~0x3FFFFFF#64 := rfl

/-! ### The registers that the statement gives in full -/

/-- DEV_ID is read-only (R33). -/
theorem regAt_devId (s : State) : regAt s .control 0 = ro (0x0C18#32 ||| at32 16 (0xB2#8) ||| at32 24 s.dev.orderCode) := rfl

theorem read32_devId (s : State) : read32 .control 0 s = (0x0C18#32 ||| at32 16 (0xB2#8) ||| at32 24 s.dev.orderCode, s) :=
  read32_word (upperOf_of_mod_ne (by decide)) (regAt_devId s) (by decide)

theorem write32_devId (v : BitVec 32) (s : State) : write32 .control 0 v s = settle s s := by
  rw [write32_word v (upperOf_of_mod_ne (by decide)) (regAt_devId s) (by decide)]

/-- PLAN_INT is cleared by ones (R7, R48). -/
theorem regAt_planInt (s : State) : regAt s .control 0x10024 = .word (at32 0 s.plan.pint)
    (fun v s => { s with plan := { s.plan with pint := w1c s.plan.pint (bits v 0 4) } }) := rfl

/-- A word of 32 bits stands below PLAN_INT, which is therefore no upper half. -/
theorem upperOf_planInt (s : State) : upperOf s .control 0x10024 = none :=
  upperOf_of_word_below (show regAt s .control 0x10020 = ro _ from rfl)

theorem write32_planInt (v : BitVec 32) (s : State) : write32 .control 0x10024 v s =
    settle s { s with plan := { s.plan with pint := w1c s.plan.pint (bits v 0 4) } } := by
  rw [write32_word v (upperOf_planInt s) (regAt_planInt s) (by decide)]

/-- The power state reads as D0 or D3hot, with No_Soft_Reset (R54). -/
theorem configWord_powerState (s : State) : (configWord s 0x44).setWidth 64 = if s.pcie.d3hot then 0xB#64 else 0x8#64 := by
  show ((if s.pcie.d3hot then 3#32 else 0#32) ||| 8#32).setWidth 64 = _
  cases s.pcie.d3hot <;> rfl

/-- The ATS enable written: without it nothing stays cached (R57). -/
theorem configWrite_ats (v : BitVec 64) (s : State) : configWrite 0x154 (bits v 0 32) s =
    { s with pcie := { s.pcie with atsEnable := bit v 31, ats := if bit v 31 then s.pcie.ats else [] } } := by
  show atsWrite (bit (bits v 0 32 : BitVec 32) 31) s = _
  rw [bit_low_word v (by decide)]
  rfl

/-- The first base written: its bits below the size of the CONTROL window stay zero (R55). -/
theorem configWrite_bar0 (v : BitVec 32) (s : State) : configWrite 0x10 v s =
    { s with pcie := { s.pcie with bar0 := (bits s.pcie.bar0 32 32 ++ v) &&& ~~~0x3FFFFFF#64 } } := by
  rw [← barBase_controlSize]
  rfl

/-! ### The statement -/

/-- Settles O32: the accesses of the CONTROL and the DOORBELL window by the kind of the register at the offset, then the registers that
it gives in full, and the words of configuration space. -/
theorem registersReadAndWriteAsTheirTables : Obligations.RegistersReadAndWriteAsTheirTables := by
  refine ⟨fun s w off v hc hm hf => ⟨fun ho => ?closed, fun ho => ⟨fun width h32 h64 => ?otherWidth,
      fun u h4 => ⟨fun r => ?nothing, fun x f r hs hi => ?word, fun x f r hs => ?lower⟩,
      fun x f h8 r => ?whole, fun x f h4 u => ⟨fun hl => ?upperRead, fun h hh => ?upperWritten⟩⟩⟩,
    fun s => ⟨fun ho => ?full, fun off v ha => ?config⟩⟩
  case closed => exact ⟨exec_registerRead_closed hm hf off ho 32, exec_registerWrite_closed hm hf off ho 32 v⟩
  case otherWidth =>
    have k32 : width.toNat ≠ 32 := fun e => h32 (BitVec.eq_of_toNat_eq e)
    have k64 : width.toNat ≠ 64 := fun e => h64 (BitVec.eq_of_toNat_eq e)
    rw [exec_registerRead_open hm hf off ho, exec_registerWrite_open hm hf off ho, readReg_other_width hc k32 k64,
      writeReg_other_width hc k32 k64]
    exact ⟨rfl, rfl⟩
  case nothing =>
    exact ⟨exec_registerRead_32 hm hf hc ho h4 (read32_nothing u r), exec_registerWrite_32 hm hf hc ho h4 (write32_nothing _ u r)⟩
  case word =>
    exact ⟨exec_registerRead_32 hm hf hc ho h4 (read32_word u r hs), exec_registerWrite_32 hm hf hc ho h4 (write32_word _ u r hi)⟩
  case lower =>
    exact ⟨exec_registerRead_32 hm hf hc ho h4 (read32_wide u r hs), exec_registerWrite_32 hm hf hc ho h4 (write32_wide _ u r)⟩
  case whole =>
    exact ⟨exec_registerRead_64 hm hf hc ho h8 (read64_wide r), exec_registerWrite_64 hm hf hc ho h8 (write64_wide v r)⟩
  case upperRead => exact exec_registerRead_32 hm hf hc ho h4 (read32_upper u hl)
  case upperWritten => exact exec_registerWrite_32 hm hf hc ho h4 (write32_upper _ u hh)
  case full =>
    have hm : Window.control ≠ .msixControl := by decide
    have hf : Window.control ≠ .config := by decide
    have hc : Window.control ≠ .crate := by decide
    exact ⟨exec_registerRead_32 hm hf hc ho (by decide) (read32_devId s),
      fun v => exec_registerWrite_32 hm hf hc ho (by decide) (write32_devId (bits v 0 32) s),
      fun v => exec_registerWrite_32 hm hf hc ho (by decide) (write32_planInt (bits v 0 32) s),
      exec_registerRead_msixControl (alive_of_windowsOpen ho) 0 32, exec_registerRead_crate ho⟩
  case config =>
    refine ⟨exec_registerRead_config ha, exec_registerRead_config_misaligned ha, exec_registerRead_config ha (by decide),
      exec_registerRead_config ha (by decide), ?powerState, exec_registerRead_config ha (by decide),
      exec_registerRead_config ha (by decide), ?bar0, ?ats⟩
    case powerState =>
      exact (exec_registerRead_config ha (by decide)).trans
        (congrArg (fun x => Host.Outcome.next (answerRead x s)) (configWord_powerState s))
    case bar0 => exact (exec_registerWrite_config ha (by decide) v).trans (congrArg _ (configWrite_bar0 (bits v 0 32) s))
    case ats => exact (exec_registerWrite_config ha (by decide) v).trans (congrArg _ (configWrite_ats v s))

end Sys2Proof.Machine
end

section
/-! SUPPORT. What stands in the tables of the part at reset, and from it the statement about the reset values. -/
namespace Sys2Proof.Machine

theorem State.reset_q (n : BitVec 12) : State.reset.q n = queueInit := rfl

theorem State.reset_chan (c : BitVec 6) : State.reset.chan c = channelInit := rfl

theorem State.reset_crate (n : Nat) : State.reset.crate n = none := rfl

/-- Settles O45: the registers of the part and of the endpoint, every queue, channel and crate, and what no command has filled yet. -/
theorem resetLeavesTheTablesValues : Obligations.ResetLeavesTheTablesValues := by
  refine ⟨rfl, rfl, rfl, rfl, rfl, rfl, fun n => ?queues, fun c => ?channels, State.reset_crate, rfl, rfl, rfl, rfl, rfl⟩
  case queues =>
    rw [State.reset_q]
    exact ⟨rfl, rfl⟩
  case channels =>
    rw [State.reset_chan]
    rfl

end Sys2Proof.Machine
end

section
/-! SUPPORT. The invariant of the part, at reset and kept by every step, and the statements that say so. -/
namespace Sys2Proof.Machine

/-- What a state keeps of another covers the invariant. -/
theorem Keeps.inv {s t : State} (h : Keeps s t) (i : s.Inv) : t.Inv := by
  obtain ⟨⟨hostWf, cratesWf⟩, ⟨uid, order⟩, links, ports, fuses, dormant⟩ := i
  obtain ⟨portsKept, dormantKept⟩ := h.kept.ports ⟨ports, dormant⟩
  exact ⟨⟨h.kept.host hostWf, h.kept.crates cratesWf⟩, ⟨h.kept.uid.trans uid, h.kept.order.trans order⟩,
    h.kept.links links, portsKept, h.kept.fuses.trans fuses, dormantKept⟩

/-- The invariant does not look at the queue of commands. -/
theorem State.Inv.rest {s : State} (i : s.Inv) (rest : List Instr) : ({ s with pending := rest } : State).Inv := i

/-- A step keeps what `Keeps` says of the state without the command that it takes. -/
theorem keeps_of_step {s t : State} (h : step s = .next t) : Keeps { s with pending := s.pending.tail } t := by
  unfold step at h
  split at h
  next hp =>
    cases h
    have e : ({ s with pending := s.pending.tail } : State) = s := by rw [hp, List.tail_nil, ← hp]
    rw [e]
    exact tick_keeps s (Keeps.refl s)
  next c rest hp =>
    obtain ⟨u, hu, k⟩ := exec_ok c { s with pending := rest }
    cases hu.symm.trans h
    rw [hp]
    exact k

/-- Settles O38: the memories are empty, the identity is the fused one, and the shapes are those of `State.reset`. -/
theorem resetMeetsTheInvariant : Obligations.ResetMeetsTheInvariant :=
  ⟨⟨⟨rfl, rfl⟩, ⟨rfl, rfl⟩, rfl, rfl, rfl, rfl⟩, rfl⟩

/-- Settles O39: what every command and every idle microsecond keeps covers the invariant. -/
theorem everyStepKeepsTheInvariant : Obligations.EveryStepKeepsTheInvariant :=
  fun _ _ i h => (keeps_of_step h).inv (i.rest _)

/-- Settles O40: the identity and the rest of the queue are among what a step keeps. -/
theorem noStepChangesTheIdentity : Obligations.NoStepChangesTheIdentity := fun _ _ h =>
  have k := (keeps_of_step h).kept
  ⟨k.uid, k.order, k.pending⟩

end Sys2Proof.Machine
end

section
/-! SUPPORT. The statements about EPOCH and its lock, the messages of MSI-X, ATS, the summary and coalescing, and the resets and
registers of the function: each command is `act` or `hostAct` of one operation, whose branches the statement's cases pick. -/
namespace Sys2Proof.Machine

variable {s : State}

/-! ### EPOCH_SELECT (R30, R31) -/

theorem epochWrite_same : epochWrite s.dev.epoch s = s := if_pos rfl

/-- The conditions of R30 as the operation tests them. -/
theorem queues_all_disabled : s.queues.all (fun e => e.2.state == .disabled) = true ↔ ∀ e ∈ s.queues, e.2.state = .disabled := by
  simp

/-- What R30 asks of a change of EPOCH. -/
def MayChangeEpoch (s : State) (v : BitVec 2) : Prop :=
  s.dev.lock = false ∧ (v = 1 ∨ v = 2) ∧ (∀ e ∈ s.queues, e.2.state = .disabled) ∧ migrating s = false ∧ s.isShuttered = false

section
variable {v : BitVec 2} (hv : v ≠ s.dev.epoch)
include hv

theorem epochWrite_accepted (h : MayChangeEpoch s v) :
    epochWrite v s = { s with dev := { s.dev with epoch := v } } := by
  unfold epochWrite
  rw [if_neg hv, if_pos (by rw [queues_all_disabled]; exact h)]

theorem epochWrite_refused (h : ¬MayChangeEpoch s v) :
    epochWrite v s = note 0x0F03 none [v.setWidth 8, s.dev.epoch.setWidth 8] { s with dev := { s.dev with refused := true } } := by
  unfold epochWrite
  rw [if_neg hv, if_neg (by rw [queues_all_disabled]; exact h)]

end

/-- Settles O3: the value in force, a change that every condition of R30 lets through, and one that some condition refuses. -/
theorem epochWriteChangesOrIsRefused : Obligations.EpochWriteChangesOrIsRefused := by
  intro s v ho
  have e : exec (.epochWrite v) s = .next (settle s (epochWrite v s)) := hostAct_open ho _
  refine ⟨fun hv => ?same, fun hv hf => ?accepted, fun hv hf => ?refused⟩
  case same => rw [e, hv, epochWrite_same]
  case accepted => rw [e, epochWrite_accepted hv hf]
  case refused => rw [e, epochWrite_refused hv hf]

/-- Settles O4: the order code alone decides what LOCK does. -/
theorem epochLockActsByOrderCode : Obligations.EpochLockActsByOrderCode := by
  intro s ho
  have e : exec .epochLock s = .next (settle s (epochLock s)) := hostAct_open ho _
  refine ⟨fun hx => ?xl, fun hx => ?xe⟩
  case xl => rw [e, epochLock, if_pos hx]
  case xe => rw [e, epochLock, if_neg hx]

/-! ### Messages (R34, R56, R57, R75, R309) -/

theorem msixOn_of_off (h : s.pcie.msixEnable = false) :
    msixOn s = (let t := (List.range 2048).foldl sendPending { s with pcie := { s.pcie with msixEnable := true } }
      if summary t ≠ 0 then msixSend 0 t else t) := by
  unfold msixOn
  rw [if_neg (by simp [h])]

theorem exec_atsInvalidation (r : AtsRange) (ha : alive s = true) (hats : s.pcie.atsEnable = true) :
    exec (.atsInvalidation r) s = .next (settle s
      { s with pcie := { s.pcie with ats := s.pcie.ats.filter (apart r.pasid r.first.toNat r.count.toNat) },
               out := .atsDone r.tag :: s.out }) := by
  show act s (if alive s then atsInvalidate r.tag r.pasid r.first r.count s else s) = _
  rw [if_pos ha, atsInvalidate, if_neg (by simp [hats])]
  rfl

theorem exec_intSummaryMaskWrite (v : BitVec 32) (ho : windowsOpen s = true) :
    exec (.intSummaryMaskWrite v) s = .next (intMaskWrite v s) :=
  congrArg Host.Outcome.next (if_pos ho)

theorem coalTimeExpiry_of_due {n : BitVec 12} (ha : (s.q n).accumulated ≠ 0) (ht : (s.q n).cfg.coalTime ≠ 0) :
    coalTimeExpiry n s = signal (s.q n).cfg.vector (s.setQ n { s.q n with accumulated := 0 }) :=
  if_neg (not_or.mpr ⟨ha, ht⟩)

theorem coalDqExpiry_of_due {d : BitVec 8} (ha : (s.dq d).accumulated ≠ 0) (ht : (s.dq d).cfg.coalTime ≠ 0) :
    coalDqExpiry d s = signal (s.dq d).cfg.vector (s.setDq d { s.dq d with accumulated := 0 }) :=
  if_neg (not_or.mpr ⟨ha, ht⟩)

/-- Settles O7: each command sends what its operation finds pending and no longer held back. -/
theorem interruptCommandsSendWhatIsDue : Obligations.InterruptCommandsSendWhatIsDue := by
  intro s
  refine ⟨fun v ho => hostAct_open ho _, rfl, ?enable, fun r => exec_atsInvalidation r, fun v ho => ?mask,
    fun n ha ht => congrArg (act s) (coalTimeExpiry_of_due ha ht), fun d ha ht => congrArg (act s) (coalDqExpiry_of_due ha ht)⟩
  case enable =>
    intro t h
    have e : exec .msixEnable s = .next (settle s (if summary t ≠ 0 then msixSend 0 t else t)) := congrArg (act s) (msixOn_of_off h)
    exact ⟨fun hs => by rw [e, if_pos hs], fun hs => by rw [e, if_neg fun h => h hs]⟩
  case mask =>
    intro t
    have e : exec (.intSummaryMaskWrite v) s = .next (if summary t ≠ 0 then msixSend 0 t else t) := exec_intSummaryMaskWrite v ho
    exact ⟨fun hs => by rw [e, if_pos hs], fun hs => by rw [e, if_neg fun h => h hs]⟩

/-! ### Resets of the function, PWR_CMD and PACE_CFG (R452, R464, R450) -/

theorem functionReset_alive (ha : alive s = true) : functionReset s = resetEndpoint (resetFunction s) :=
  if_neg (by simp [ha])

theorem pcieReset_alive (strap : Bool) (ha : alive s = true) :
    pcieReset strap s = (let u := resetEndpoint (resetFunction s)
      { u with dev := { u.dev with pciId := if strap then 0x0C12 else 0x0C18 } }) :=
  if_neg (by simp [ha])

theorem powerCommand_restart {v : BitVec 32} (hk : bits v 0 3 = 1#3) (hc : bits v 16 16 = 0x5253#16) (ha : alive s = true) :
    powerCommand v s = { s with dev := { s.dev with restartDue := true } } :=
  if_pos ⟨hk, hc, ha⟩

theorem paceWrite_taken {v : BitVec 32} (lo : 1000 ≤ (bits v 0 12 : BitVec 12).toNat) (hi : (bits v 0 12 : BitVec 12).toNat ≤ 1760) :
    paceWrite v s = { s with pace := { s.pace with avsRail := bits v 16 4, target := bits v 0 12 } } :=
  if_pos (decide_eq_true ⟨lo, hi⟩)

theorem paceWrite_refused {v : BitVec 32} (h : (bits v 0 12 : BitVec 12).toNat < 1000 ∨ 1760 < (bits v 0 12 : BitVec 12).toNat) :
    paceWrite v s = { s with pace := { s.pace with refused := true } } :=
  if_neg fun ht => by
    obtain ⟨lo, hi⟩ := of_decide_eq_true ht
    omega

/-- Settles O22: a part that is up takes both resets, RESTART under its confirm value, and a TARGET in its range. -/
theorem functionResetsAndPowerRegisters : Obligations.FunctionResetsAndPowerRegisters := by
  intro s
  refine ⟨fun ha => ?resets, fun v ho hk hc => ?restart, fun v ho => ⟨fun lo hi => ?taken, fun h => ?refused⟩⟩
  case resets =>
    exact ⟨congrArg (act s) (functionReset_alive ha), fun strap => congrArg (act s) (pcieReset_alive strap ha)⟩
  case restart => exact (hostAct_open ho _).trans (congrArg (act s) (powerCommand_restart hk hc (alive_of_windowsOpen ho)))
  case taken => exact (hostAct_open ho _).trans (congrArg (act s) (paceWrite_taken lo hi))
  case refused => exact (hostAct_open ho _).trans (congrArg (act s) (paceWrite_refused h))

end Sys2Proof.Machine
end

section
/-! SUPPORT. What a job's command does with its descriptor, outcome by outcome (R71, R15), and from it the statements about the jobs
that start and those that do not start at once. -/
namespace Sys2Proof.Machine

/-! ### Each job's command starts the job of its opcode -/

section
variable {sp : OpSpec} {c : Instr} {j : JobId} {same : Bool} {s : State}

/-- The meaning of every command in a list of a chapter's jobs is the start of a job of its specification. -/
def StartsEach (l : List (Instr × OpSpec)) (j : JobId) (s : State) : Prop := ∀ e ∈ l, exec e.1 s = act s (startJob e.2 j s)

theorem StartsEach.nil : StartsEach [] j s := List.forall_mem_nil _

theorem StartsEach.cons {l : List (Instr × OpSpec)} (h : exec c s = act s (startJob sp j s)) (t : StartsEach l j s) :
    StartsEach ((c, sp) :: l) j s := List.forall_mem_cons.mpr ⟨h, t⟩

theorem StartsEach.append {l m : List (Instr × OpSpec)} (h : StartsEach l j s) (t : StartsEach m j s) : StartsEach (l ++ m) j s :=
  List.forall_mem_append.mpr ⟨h, t⟩

theorem latticeJobs_startEach : StartsEach (latticeJobs j) j s := by
  repeat' refine StartsEach.cons rfl ?_
  exact StartsEach.nil

theorem hashSigJobs_startEach : StartsEach (hashSigJobs j) j s := by
  repeat' refine StartsEach.cons rfl ?_
  exact StartsEach.nil

theorem digestAndCodeJobs_startEach : StartsEach (digestAndCodeJobs j) j s := by
  repeat' refine StartsEach.cons rfl ?_
  exact StartsEach.nil

theorem bigNumberJobs_startEach : StartsEach (bigNumberJobs j) j s := by
  repeat' refine StartsEach.cons rfl ?_
  exact StartsEach.nil

theorem randomAndVaultJobs_startEach : StartsEach (randomAndVaultJobs j) j s := by
  repeat' refine StartsEach.cons rfl ?_
  exact StartsEach.nil

theorem flowAndProgramJobs_startEach : StartsEach (flowAndProgramJobs j) j s := by
  repeat' refine StartsEach.cons rfl ?_
  exact StartsEach.nil

theorem cardJobs_startEach : StartsEach (cardJobs j) j s := by
  repeat' refine StartsEach.cons rfl ?_
  exact StartsEach.nil

/-- A staging command that finds no waiting job is a start like every other. -/
theorem stageJob_of_not_waiting (h : ∀ x, s.job j = some x → x.phase ≠ .waiting) : stageJob sp j s = startJob sp j s := by
  unfold stageJob
  split
  next hx => unfold startJob; rw [hx]
  next x hx => exact if_neg fun w => h x hx w.1

section
variable (h : ∀ x, s.job j = some x → x.phase ≠ .waiting)
include h

/-- The three staging commands place a job that waits (R49, R138, R456); the others of the part are starts alone. -/
theorem partJobs_startEach : StartsEach (partJobs j same) j s := by
  have plan : exec (.planStage j same) s = act s (startJob (planStageSpec same) j s) := congrArg (act s) (stageJob_of_not_waiting h)
  have patch : exec (.patchStage j same) s = act s (startJob (patchStageSpec same) j s) := congrArg (act s) (stageJob_of_not_waiting h)
  have fw : exec (.fwStage j same) s = act s (startJob (fwStageSpec same) j s) := congrArg (act s) (stageJob_of_not_waiting h)
  refine .cons plan <| .cons rfl <| .cons rfl <| .cons rfl <| .cons rfl <| .cons patch <| .cons rfl <| .cons fw ?_
  repeat' refine StartsEach.cons rfl ?_
  exact StartsEach.nil

theorem jobCommands_startEach : StartsEach (jobCommands j same) j s :=
  latticeJobs_startEach.append hashSigJobs_startEach |>.append digestAndCodeJobs_startEach |>.append bigNumberJobs_startEach
    |>.append randomAndVaultJobs_startEach |>.append flowAndProgramJobs_startEach |>.append (partJobs_startEach h)
    |>.append cardJobs_startEach

end
end

/-! ### A descriptor that passes every check and finds everything starts -/

/-- The job of a descriptor that is read does not wait. -/
theorem not_waiting_of_fetched {s : State} {x : Job} (named : s.job x.id = some x) (fetched : x.phase = .fetched) :
    ∀ y, s.job x.id = some y → y.phase ≠ .waiting := by
  intro y hy hw
  cases named.symm.trans hy
  exact absurd (fetched.symm.trans hw) (by decide)

theorem exec_of_starts {l : List (Instr × OpSpec)} {sp : OpSpec} {c : Instr} {s t : State} {x : Job} {us : List Unit_}
    {rs : List (BitVec 13)} (each : StartsEach l x.id s) (hc : (c, sp) ∈ l) (h : Starts sp s x us t rs) :
    exec c s = .next (settle s (startedOn sp s x us t rs)) :=
  (each _ hc).trans (congrArg (act s) (startJob_of_starts h))

/-- Settles O48: each command of ML-KEM, ML-DSA and FN-DSA is the start of a job of its opcode. -/
theorem latticeJobsStart : Obligations.LatticeJobsStart := fun _ _ _ _ _ _ _ hc h => exec_of_starts latticeJobs_startEach hc h

/-- Settles O49: so is each command of the hash-based signatures. -/
theorem hashSignatureJobsStart : Obligations.HashSignatureJobsStart := fun _ _ _ _ _ _ _ hc h =>
  exec_of_starts hashSigJobs_startEach hc h

/-- Settles O50: so is each command of digests, ciphers and code-based keys. -/
theorem digestAndCodeJobsStart : Obligations.DigestAndCodeJobsStart := fun _ _ _ _ _ _ _ hc h =>
  exec_of_starts digestAndCodeJobs_startEach hc h

/-- Settles O51: so is each command of the big-number engines. -/
theorem bigNumberJobsStart : Obligations.BigNumberJobsStart := fun _ _ _ _ _ _ _ hc h => exec_of_starts bigNumberJobs_startEach hc h

/-- Settles O52: so is each command of random numbers and of the vault. -/
theorem randomAndVaultJobsStart : Obligations.RandomAndVaultJobsStart := fun _ _ _ _ _ _ _ hc h =>
  exec_of_starts randomAndVaultJobs_startEach hc h

/-- Settles O53: so is each command of flows, vector programs and the Porter. -/
theorem flowAndProgramJobsStart : Obligations.FlowAndProgramJobsStart := fun _ _ _ _ _ _ _ hc h =>
  exec_of_starts flowAndProgramJobs_startEach hc h

/-- Settles O54: a descriptor that is read does not wait, so that a staging command starts it too. -/
theorem partJobsStart : Obligations.PartJobsStart := fun _ _ _ _ _ _ _ _ hc h =>
  exec_of_starts (partJobs_startEach (not_waiting_of_fetched h.passes.named h.passes.fetched)) hc h

/-- Settles O55: so is each command of the cards. -/
theorem cardJobsStart : Obligations.CardJobsStart := fun _ _ _ _ _ _ _ hc h => exec_of_starts cardJobs_startEach hc h

end Sys2Proof.Machine
end

section
/-! SUPPORT. The outcomes of a descriptor's checks, of an accepted job's placement, and of the draw of its random values, each an equation
with its condition (R71, R15, R330, R440), and from them the statement about the jobs that do not start at once. -/
namespace Sys2Proof.Machine

/-! ### The checks (R71) -/

/-- A descriptor of a command's opcode that is read and next in its queue. -/
structure Due (sp : OpSpec) (s : State) (x : Job) : Prop where
  named   : s.job x.id = some x
  fetched : x.phase = .fetched
  opcode  : x.desc.opcode = sp.code
  next    : mayStart s x = true

section
variable {sp : OpSpec} {s : State} {x : Job} (d : Due sp s x)
include d

theorem Due.not_idle : ¬(x.phase ≠ .fetched ∨ x.desc.opcode ≠ sp.code ∨ mayStart s x = false) := by
  simp [d.fetched, d.opcode, d.next]

theorem startJob_of_check {b : Bad} (h : checkWithKey sp s x = some b) : startJob sp x.id s = refuseChecked sp s x b := by
  simp only [startJob, d.named, if_neg d.not_idle, h]

variable (hc : checkWithKey sp s x = none)
include hc

theorem startJob_of_lateBad {b : Bad} (h : lateBad sp (lend x s) x = some b) :
    startJob sp x.id s = refuseChecked sp s { x with held := x.id.src == 0 } b := by
  simp only [startJob, d.named, if_neg d.not_idle, hc, h]

variable (hl : lateBad sp (lend x s) x = none)
include hl

theorem startJob_of_forwardLink {k : BitVec 2} (h : forwardLink s (sp.uses x.desc) x = some k) :
    startJob sp x.id s = forwardJob s x k := by
  simp only [startJob, d.named, if_neg d.not_idle, hc, hl, h]

end

section
variable {sp : OpSpec} {s : State} {x : Job} (h : Passes sp s x)
include h

theorem Passes.due : Due sp s x := ⟨h.named, h.fetched, h.opcode, h.next⟩

theorem startJob_of_passes :
    startJob sp x.id s = takeBack (accepted s x) (s.setJob (accepted s x)) (placeJob sp (offered s x) (accepted s x)) := by
  simp only [startJob, h.named, if_neg h.due.not_idle, h.checked, h.late, h.here]
  rfl

end

/-! ### Placement (R15, R254) -/

@[simp] theorem queuedOn_id (sp : OpSpec) (v : State) (y : Job) : (queuedOn sp v y).id = y.id := rfl
@[simp] theorem queuedOn_pitch (sp : OpSpec) (v : State) (y : Job) : (queuedOn sp v y).pitch = y.pitch := rfl

theorem queuedOn_unreserved {sp : OpSpec} {v : State} {y : Job} (h : y.reserved = []) : (queuedOn sp v y).reserved = [] := h

theorem placeOn_eq_queuedOn (sp : OpSpec) (v : State) (y : Job) :
    placeOn v { y with queued := queuedBeats sp v y } (sp.place v y) = queuedOn sp v y := rfl

/-- Nothing holds an accepted job back: the Hall controller places jobs, and neither its chapter nor its context holds it. -/
structure Unheld (sp : OpSpec) (v : State) (y : Job) : Prop where
  placing : placing v = true
  free    : sp.blocked v y = false
  alone   : ctxBusy v y = false

/-- The masks of a job are at hand unless it needs some while the feeds are stopped. -/
theorem masksAtHand {sp : OpSpec} {v : State} {y : Job} (h : sp.masked v y = false ∨ v.rng.feedsStopped = false) :
    (sp.masked v y && v.rng.feedsStopped) = false := by
  rwa [Bool.and_eq_false_iff]

section
variable {sp : OpSpec} {v : State} {y : Job}

theorem placeJob_of_held (h : placing v = false ∨ sp.blocked v y = true ∨ ctxBusy v y = true) : placeJob sp v y = v :=
  if_pos (by simpa [or_assoc] using h)

variable (o : Unheld sp v y)
include o

theorem not_held_of_unheld : ¬(placing v = false || sp.blocked v y || ctxBusy v y) = true := by
  simp [o.placing, o.free, o.alone]

theorem placeJob_of_startBad {b : Bad} (h : startBad sp v y = some b) : placeJob sp v y = refuseJob v y b := by
  simp only [placeJob, if_neg (not_held_of_unheld o), h]

variable (hj : startBad sp v y = none)
include hj

/-! #### On a peer (R440, R441) -/

section
variable {k : BitVec 2} (hk : spillLink sp v y = some k)
include hk

theorem placeJob_spilled_keyless (h : keysNamed v y = []) : placeJob sp v y = spillJob v y k := by
  simp only [placeJob, if_neg (not_held_of_unheld o), hj, placeOn_eq_queuedOn, hk, h, List.isEmpty_nil, if_true]

variable (h : keysNamed v y ≠ [])
include h

theorem placeJob_spill_waits (hd : drawReady v (some y.id) y.pitch .call = .wait) :
    placeJob sp v y = awaitDraw sp v (queuedOn sp v y) .call := by
  simp [placeJob, o.placing, o.free, o.alone, hj, placeOn_eq_queuedOn, hk, h, hd]

theorem placeJob_spill_refused {d : BitVec 16} (hd : drawReady v (some y.id) y.pitch .call = .fails d) :
    placeJob sp v y = refuseJob v (queuedOn sp v y) { status := 0x0501, detail := d } := by
  simp [placeJob, o.placing, o.free, o.alone, hj, placeOn_eq_queuedOn, hk, h, hd]
  rfl

variable (hd : drawReady v (some y.id) y.pitch .call = .ready)
include hd

theorem placeJob_spill_dry (h' : drawnDry (spillJob v y k) y.pitch = true) :
    placeJob sp v y = awaitDraw sp v (queuedOn sp v y) .fresh := by
  simp [placeJob, o.placing, o.free, o.alone, hj, placeOn_eq_queuedOn, hk, h, hd, h']

theorem placeJob_spilled (h' : drawnDry (spillJob v y k) y.pitch = false) : placeJob sp v y = spillJob v y k := by
  simp [placeJob, o.placing, o.free, o.alone, hj, placeOn_eq_queuedOn, hk, h, hd, h']

end

/-! #### On this part (R15, R171, R330, R331) -/

section
variable (hk : spillLink sp v y = none)
include hk

theorem placeJob_queued (h : unitsFor v (queuedOn sp v y) (sp.place v y) = none) : placeJob sp v y = v.setJob (queuedOn sp v y) := by
  simp only [placeJob, if_neg (not_held_of_unheld o), hj, placeOn_eq_queuedOn, hk, h]

variable {us : List Unit_} (hu : unitsFor v (queuedOn sp v y) (sp.place v y) = some us) (hr : y.reserved = [])
include hu hr

theorem placeJob_slotless {b : Bad} (h : reserveAll y.pitch (sp.slots v (queuedOn sp v y)) v [] = .inl b) :
    placeJob sp v y = refuseJob v (queuedOn sp v y) b := by
  simp [placeJob, o.placing, o.free, o.alone, hj, placeOn_eq_queuedOn, hk, hu, queuedOn_unreserved hr, h]

variable {t : State} {rs : List (BitVec 13)} (hs : reserveAll y.pitch (sp.slots v (queuedOn sp v y)) v [] = .inr (t, rs))
include hs

theorem placeJob_unmasked (hm : sp.masked v (queuedOn sp v y) = true) (hf : v.rng.feedsStopped = true) :
    placeJob sp v y = refuseJob v (queuedOn sp v y) { status := 0x0501, detail := 0x0A21 } := by
  simp [placeJob, o.placing, o.free, o.alone, hj, placeOn_eq_queuedOn, hk, hu, queuedOn_unreserved hr, hs, hm, hf]
  rfl

variable (hm : sp.masked v (queuedOn sp v y) = false ∨ v.rng.feedsStopped = false)
include hm

theorem placeJob_waits (hd : drawReady v (some y.id) y.pitch (drawsOf sp v (queuedOn sp v y)) = .wait) :
    placeJob sp v y = awaitDraw sp v (queuedOn sp v y) (drawsOf sp v (queuedOn sp v y)) := by
  simp [placeJob, o.placing, o.free, o.alone, hj, placeOn_eq_queuedOn, hk, hu, queuedOn_unreserved hr, hs, hd, masksAtHand hm]

theorem placeJob_drawless {d : BitVec 16} (hd : drawReady v (some y.id) y.pitch (drawsOf sp v (queuedOn sp v y)) = .fails d) :
    placeJob sp v y = refuseJob (takeDown sp v (queuedOn sp v y)) (queuedOn sp v y) { status := 0x0501, detail := d } := by
  simp [placeJob, o.placing, o.free, o.alone, hj, placeOn_eq_queuedOn, hk, hu, queuedOn_unreserved hr, hs, hd, masksAtHand hm]
  rfl

variable (hd : drawReady v (some y.id) y.pitch (drawsOf sp v (queuedOn sp v y)) = .ready)
include hd

theorem placeJob_dry (h : drawnDry (runJob sp t (queuedOn sp v y) us rs) y.pitch = true) :
    placeJob sp v y = awaitDraw sp v (queuedOn sp v y) .fresh := by
  simp [placeJob, o.placing, o.free, o.alone, hj, placeOn_eq_queuedOn, hk, hu, queuedOn_unreserved hr, hs, hd, masksAtHand hm, h]

theorem placeJob_runs (h : drawnDry (runJob sp t (queuedOn sp v y) us rs) y.pitch = false) :
    placeJob sp v y = runJob sp t (queuedOn sp v y) us rs := by
  simp [placeJob, o.placing, o.free, o.alone, hj, placeOn_eq_queuedOn, hk, hu, queuedOn_unreserved hr, hs, hd, masksAtHand hm, h]

end
end

theorem Finds.unheld {sp : OpSpec} {v : State} {y : Job} {us : List Unit_} {t : State} {rs : List (BitVec 13)}
    (f : Finds sp v y us t rs) : Unheld sp v y := ⟨f.placing, f.free, f.alone⟩

/-- A job that finds everything runs. -/
theorem placeJob_of_finds {sp : OpSpec} {v : State} {y : Job} {us : List Unit_} {t : State} {rs : List (BitVec 13)}
    (f : Finds sp v y us t rs) : placeJob sp v y = runJob sp t (queuedOn sp v y) us rs :=
  have masks : sp.masked v (queuedOn sp v y) = false ∨ v.rng.feedsStopped = false :=
    (Bool.eq_false_or_eq_true _).symm.imp_right f.masks
  placeJob_runs f.unheld f.judged f.stays f.units f.none_yet f.slots masks f.drawn f.ample

/-! ### The statement -/

/-- Settles O56: the checks refuse or forward the descriptor; an accepted job is held, refused by what is judged again, spilled, or stays on
this part, where it lacks its units, its slots, its masks or its random values. -/
theorem jobsThatDoNotStartAtOnce : Obligations.JobsThatDoNotStartAtOnce := by
  intro sp c s x same hc y v q back
  have start (d : Due sp s x) {t : State} (e : startJob sp x.id s = t) : exec c s = .next (settle s t) :=
    (jobCommands_startEach (not_waiting_of_fetched d.named d.fetched) _ hc).trans (congrArg (act s) e)
  have place (h : Passes sp s x) {t : State} (e : placeJob sp v y = t) : exec c s = back t :=
    start h.due ((startJob_of_passes h).trans (congrArg _ e))
  refine ⟨fun b hn hf ho hm h => ?check, fun b hn hf ho hm h hb => ?late, fun k hn hf ho hm h hb hk => ?forwarded,
    fun hp h => ?held, fun hp placing free alone => ⟨fun b h => ?judged, fun hj => ?placed⟩⟩
  case check => exact start ⟨hn, hf, ho, hm⟩ (startJob_of_check ⟨hn, hf, ho, hm⟩ h)
  case late => exact start ⟨hn, hf, ho, hm⟩ (startJob_of_lateBad ⟨hn, hf, ho, hm⟩ h hb)
  case forwarded => exact start ⟨hn, hf, ho, hm⟩ (startJob_of_forwardLink ⟨hn, hf, ho, hm⟩ h hb hk)
  case held => exact place hp (placeJob_of_held h)
  case judged => exact place hp (placeJob_of_startBad ⟨placing, free, alone⟩ h)
  case placed =>
    have o : Unheld sp v y := ⟨placing, free, alone⟩
    split
    next k hk =>
      exact ⟨fun h => place hp (placeJob_spilled_keyless o hj hk h), fun h =>
        ⟨fun hd => place hp (placeJob_spill_waits o hj hk h hd), fun d hd => place hp (placeJob_spill_refused o hj hk h hd),
         fun hd h' => place hp (placeJob_spill_dry o hj hk h hd h'), fun hd h' => place hp (placeJob_spilled o hj hk h hd h')⟩⟩
    next hk =>
      exact ⟨fun h => place hp (placeJob_queued o hj hk h), fun us b hu hr h => place hp (placeJob_slotless o hj hk hu hr h),
        fun us t rs hu hr hs =>
          ⟨fun hm hf => place hp (placeJob_unmasked o hj hk hu hr hs hm hf), fun hm =>
            ⟨fun hd => place hp (placeJob_waits o hj hk hu hr hs hm hd), fun d hd => place hp (placeJob_drawless o hj hk hu hr hs hm hd),
             fun hd h => place hp (placeJob_dry o hj hk hu hr hs hm hd h)⟩⟩⟩

end Sys2Proof.Machine
end

section
/-! SUPPORT. The end of a job (R25, R67, R73, R348): what JOB_COMPLETE comes to in each phase, what writing a record and an output touches,
and from them the statements about both. -/
namespace Sys2Proof.Machine

/-! ### JOB_COMPLETE -/

theorem endTransition_of_none {s : State} (j : JobId) (h : s.life.decision = none) : endTransition j s = s := by
  unfold endTransition
  rw [h]

section
variable {j : JobId} {s : State} {x : Job} (hx : s.job j = some x) (hr : s.seq.reloading = false)
include hx hr

theorem exec_jobComplete (w : RecordWrite) (hd : s.life.decision = none) (hop : x.desc.opcode ≠ 0x0F12) :
    exec (.jobComplete j w) s = .next (settle s (dueResets (jobComplete j w s))) := by
  have e : endJob j w s = dueResets (jobComplete j w s) := by
    simp only [endJob, hx, if_neg fun h : x.desc.opcode = 0x0F12 ∧ x.phase = .running => hop h.1, hr, Bool.false_eq_true, if_false,
      endTransition_of_none j hd]
  exact congrArg (act s) e

variable {o : JobOut} (ho : x.out = some o)
include ho

theorem jobComplete_of_ended (w : RecordWrite) (hp : x.phase = .ended) : jobComplete j w s = completeJob w s x o := by
  simp [jobComplete, hr, hx, ho, hp]

variable (hp : x.phase = .running)
include hp

theorem jobComplete_of_due (w : RecordWrite) (hv : x.verdict = .due) : jobComplete j w s = firstDecides s x := by
  simp [jobComplete, hr, hx, ho, hp, hv]

theorem jobComplete_of_second (w : RecordWrite) (hv : x.verdict = .second) : jobComplete j w s = s := by
  simp [jobComplete, hr, hx, ho, hp, hv]

variable (hv : x.verdict = .single ∨ x.verdict = .agreed)
include hv

theorem jobComplete_of_needsStore (w : RecordWrite) (hn : needsStore s x = true) :
    jobComplete j w s = (freeUnits s x).setJob { x with phase := .storing, units := [] } := by
  obtain hv | hv := hv <;> simp [jobComplete, hr, hx, ho, hp, hv, hn]

theorem jobComplete_of_not_needsStore (w : RecordWrite) (hn : needsStore s x = false) : jobComplete j w s = completeJob w s x o := by
  obtain hv | hv := hv <;> simp [jobComplete, hr, hx, ho, hp, hv, hn]

end

/-- Settles O59: the phase, the verdict and the keys of the job choose among the ends of JOB_COMPLETE. -/
theorem jobCompleteEndsAJob : Obligations.JobCompleteEndsAJob := by
  intro j w s x o hx ho hr hd hop
  have e {t : State} (h : jobComplete j w s = t) : exec (.jobComplete j w) s = .next (settle s (dueResets t)) :=
    h ▸ exec_jobComplete hx hr w hd hop
  exact ⟨fun hp hv hn => e (jobComplete_of_not_needsStore hx hr ho hp hv w hn), fun hp => e (jobComplete_of_ended hx hr ho w hp),
    fun hp hv hn => e (jobComplete_of_needsStore hx hr ho hp hv w hn), fun hp hv => e (jobComplete_of_due hx hr ho hp w hv),
    fun hp hv => e (jobComplete_of_second hx hr ho hp w hv)⟩

/-! ### What messages, Ledger events and writes of host memory touch -/

theorem msixSend_eq (v : BitVec 11) (s : State) : ∃ p o, msixSend v s = { s with pcie := p, out := o } := by
  unfold msixSend
  dsimp only
  split
  · exact ⟨s.pcie, s.out, rfl⟩
  · split
    · exact ⟨_, s.out, rfl⟩
    · exact ⟨s.pcie, _, rfl⟩

theorem signal_eq (v : BitVec 11) (s : State) : ∃ p o, signal v s = { s with pcie := p, out := o } := by
  unfold signal
  split
  · exact ⟨s.pcie, s.out, rfl⟩
  · exact msixSend_eq v s

theorem note_eq (ev : BitVec 16) (p : Option (BitVec 8)) (detail : Bytes) (s : State) : ∃ l, note ev p detail s = { s with ledger := l } := by
  unfold note
  dsimp only
  repeat' split
  all_goals exact ⟨_, rfl⟩

theorem translated_eq (p : BitVec 8) (a k : Nat) (s : State) : ∃ c, translated p a k s = { s with pcie := c } := by
  unfold translated
  dsimp only
  split
  · exact ⟨s.pcie, rfl⟩
  · split
    · exact ⟨s.pcie, rfl⟩
    · exact ⟨_, rfl⟩

theorem logWrite_eq (s : State) (p : BitVec 8) (a k : Nat) : ∃ h ps, logWrite s p a k = { s with host := h, pitches := ps } := by
  unfold logWrite
  dsimp only
  split
  · exact ⟨s.host, s.pitches, rfl⟩
  · split
    · exact ⟨_, _, rfl⟩
    · exact ⟨_, s.pitches, rfl⟩

theorem writeHost_eq (s : State) (p : BitVec 8) (a : Nat) (bs : Bytes) :
    ∃ h ps c, writeHost s p a bs = { s with host := h, pitches := ps, pcie := c } := by
  unfold writeHost
  obtain ⟨h, ps, eh⟩ := logWrite_eq { s with host := Tab.write 0#8 s.host (hostAddr (s.pitch p).cfg.pasid a) bs } p a bs.length
  rw [eh]
  obtain ⟨c, ec⟩ := translated_eq p a bs.length { s with host := h, pitches := ps }
  exact ⟨h, ps, c, ec⟩

@[simp] theorem writeHost_q (s : State) (p : BitVec 8) (a : Nat) (bs : Bytes) (n : BitVec 12) : (writeHost s p a bs).q n = s.q n := by
  obtain ⟨_, _, _, e⟩ := writeHost_eq s p a bs
  rw [e]
  rfl

@[simp] theorem writeHost_jobs (s : State) (p : BitVec 8) (a : Nat) (bs : Bytes) : (writeHost s p a bs).jobs = s.jobs := by
  obtain ⟨_, _, _, e⟩ := writeHost_eq s p a bs
  rw [e]

@[simp] theorem writeHost_crates (s : State) (p : BitVec 8) (a : Nat) (bs : Bytes) : (writeHost s p a bs).crates = s.crates := by
  obtain ⟨_, _, _, e⟩ := writeHost_eq s p a bs
  rw [e]

theorem writeHost_host (s : State) (p : BitVec 8) (a : Nat) (bs : Bytes) :
    (writeHost s p a bs).host =
      (logWrite { s with host := Tab.write 0#8 s.host (hostAddr (s.pitch p).cfg.pasid a) bs } p a bs.length).host := by
  unfold writeHost
  obtain ⟨_, e⟩ := translated_eq p a bs.length
    (logWrite { s with host := Tab.write 0#8 s.host (hostAddr (s.pitch p).cfg.pasid a) bs } p a bs.length)
  rw [e]

/-- The list of jobs has no part in the logging of a write. -/
theorem logWrite_dropJob_host (s : State) (j : JobId) (h : List Host.Cell) (p : BitVec 8) (a k : Nat) :
    (logWrite { s.dropJob j with host := h } p a k).host = (logWrite { s with host := h } p a k).host := by
  have pitch (n : BitVec 8) : State.pitch { s.dropJob j with host := h } n = State.pitch { s with host := h } n := rfl
  unfold logWrite
  simp only [pitch]
  split
  · rfl
  · split <;> rfl

/-- While a pitch's writes are not logged, a write leaves the bytes alone that it writes (R112). -/
theorem logWrite_host_of_off {s : State} {p : BitVec 8} (off : (s.pitch p).logOn = false) (h : List Host.Cell) (a k : Nat) :
    (logWrite { s with host := h } p a k).host = h := by
  have pitch : State.pitch { s with host := h } p = s.pitch p := rfl
  rw [logWrite, pitch, if_pos (by simp [off])]

/-- A write of nothing is not logged. -/
theorem logWrite_zero (s : State) (p : BitVec 8) (a : Nat) : logWrite s p a 0 = s := if_pos (by simp)

/-! ### The ring of a queue -/

/-- What a queue's completion ring is, and how far it has been written: its settings, W, and the count of dropped records. -/
def ringOf (q : Queue) : QueueCfg × BitVec 32 × BitVec 16 := (q.cfg, q.w, q.cplDropped)

/-- One state has host memory and the ring of a queue as another has them. -/
structure RingKept (n : BitVec 12) (s t : State) : Prop where
  host : t.host = s.host
  ring : ringOf (t.q n) = ringOf (s.q n)

section
variable {n : BitVec 12} {s t u : State}

theorem RingKept.refl (s : State) : RingKept n s s := ⟨rfl, rfl⟩

theorem RingKept.trans (h : RingKept n s t) (g : RingKept n t u) : RingKept n s u := ⟨g.host.trans h.host, g.ring.trans h.ring⟩

theorem RingKept.cfg (h : RingKept n s t) : (t.q n).cfg = (s.q n).cfg := congrArg (·.1) h.ring

theorem RingKept.w (h : RingKept n s t) : (t.q n).w = (s.q n).w := congrArg (·.2.1) h.ring

theorem RingKept.cplDropped (h : RingKept n s t) : (t.q n).cplDropped = (s.q n).cplDropped := congrArg (·.2.2) h.ring

theorem RingKept.of_dry (h : Dry s t) : RingKept n s t := ⟨h.host, by unfold State.q; rw [h.queues]⟩

theorem RingKept.signal (v : BitVec 11) (s : State) : RingKept n s (signal v s) := by
  obtain ⟨_, _, e⟩ := signal_eq v s
  exact e ▸ ⟨rfl, rfl⟩

theorem RingKept.msixSend (v : BitVec 11) (s : State) : RingKept n s (msixSend v s) := by
  obtain ⟨_, _, e⟩ := msixSend_eq v s
  exact e ▸ ⟨rfl, rfl⟩

theorem RingKept.note (ev : BitVec 16) (p : Option (BitVec 8)) (detail : Bytes) (s : State) : RingKept n s (note ev p detail s) := by
  obtain ⟨_, e⟩ := note_eq ev p detail s
  exact e ▸ ⟨rfl, rfl⟩

/-- A queue that is assigned is no empty entry, and reads back as it was set. -/
theorem State.q_setQ {x : Queue} (h : x.cfg.assigned = true) (s : State) : (s.setQ n x).q n = x :=
  Tab.get_set_same _ _ _ fun e => absurd (congrArg (·.cfg.assigned) e) (by rw [h]; decide)

variable (ha : (s.q n).cfg.assigned = true)
include ha

theorem RingKept.setQ {x : Queue} (h : ringOf x = ringOf (s.q n)) : RingKept n s (s.setQ n x) := by
  have hx : x.cfg.assigned = true := (congrArg (·.1.assigned) h).trans ha
  exact ⟨rfl, by rw [State.q_setQ hx, h]⟩

theorem signalRecord_kept (x : Job) (status : BitVec 16) : RingKept n s (signalRecord s n x status) := by
  have counted (k : Nat) : RingKept n s (s.setQ n { s.q n with accumulated := k }) := RingKept.setQ ha rfl
  unfold signalRecord
  dsimp only
  split
  · exact RingKept.refl s
  · split
    · exact RingKept.msixSend _ s
    · split
      · exact (counted 0).trans (RingKept.msixSend _ _)
      · exact counted _

theorem settleDrain_kept : RingKept n s (settleDrain s n) := by
  unfold settleDrain
  dsimp only
  split
  · exact RingKept.setQ ha rfl
  · exact RingKept.refl s

theorem ringFails_kept (dt : BitVec 16) : RingKept n s (ringFails s n dt) := by
  have failed : RingKept n s (s.setQ n { s.q n with errDetail := dt, errorInt := true }) := RingKept.setQ ha rfl
  exact failed.trans ((RingKept.signal _ _).trans (RingKept.note _ _ _ _))

theorem enterError_kept (dt : BitVec 16) : RingKept n s (enterError s n dt) := by
  have inError : RingKept n s (s.setQ n { s.q n with state := .error }) := RingKept.setQ ha rfl
  have failed := inError.trans (ringFails_kept (by rw [inError.cfg, ha]) dt)
  unfold enterError
  dsimp only
  split
  · exact failed.trans (RingKept.of_dry (stopUnstarted_dry _ n))
  · exact failed

theorem cplFails_kept : RingKept n s (cplFails s n) := by
  unfold cplFails
  split
  · exact enterError_kept ha _
  · exact ringFails_kept ha _

end

/-! ### The list of jobs -/

section
variable (s : State) (n : BitVec 12)

theorem signalRecord_jobs (x : Job) (status : BitVec 16) : (signalRecord s n x status).jobs = s.jobs := by
  have sent (v : BitVec 11) (t : State) : (msixSend v t).jobs = t.jobs := by
    obtain ⟨_, _, e⟩ := msixSend_eq v t
    rw [e]
  unfold signalRecord
  dsimp only
  split
  · rfl
  · split
    · exact sent _ _
    · split
      · exact sent _ _
      · rfl

theorem settleDrain_jobs : (settleDrain s n).jobs = s.jobs := by
  unfold settleDrain
  dsimp only
  split <;> rfl

theorem ringFails_jobs (dt : BitVec 16) : (ringFails s n dt).jobs = s.jobs := by
  unfold ringFails
  dsimp only
  obtain ⟨_, e⟩ := note_eq 0x0001 (some (s.q n).cfg.pitch) (wordBytes 2 n ++ wordBytes 2 dt ++ wordBytes 4 (s.q n).h)
    (signal (s.q n).cfg.vector (s.setQ n { s.q n with errDetail := dt, errorInt := true }))
  obtain ⟨_, _, g⟩ := signal_eq (s.q n).cfg.vector (s.setQ n { s.q n with errDetail := dt, errorInt := true })
  rw [e, g]
  rfl

theorem cplFails_jobs (h : (s.q n).state ≠ .enabled) : (cplFails s n).jobs = s.jobs := by
  unfold cplFails
  rw [if_neg h, ringFails_jobs]

end

/-! ### A record (R73) -/

@[simp] theorem leBytes_length (k v : Nat) : (leBytes k v).length = k := by
  induction k generalizing v with
  | zero => rfl
  | succ k ih => simp [leBytes, ih]

@[simp] theorem wordBytes_length {w : Nat} (k : Nat) (v : BitVec w) : (wordBytes k v).length = k := leBytes_length k _

theorem recordBytes_length (q : Queue) (x : Job) (o : JobOut) : (recordBytes q x o).length = 32 := by
  simp [recordBytes, zeros]

/-- The address of the record at a queue's W (R67). -/
def recordAddr (q : Queue) : Nat := (q.cfg.cplBase.toNat + 32 * (q.w.toNat % ringSize q)) % 2 ^ 64

/-- A queue whose record at W is dropped: W goes up, and the loss is counted. -/
def Queue.dropped (q : Queue) : Queue := { q with w := q.w + 1, cplDropped := satAdd q.cplDropped 1 }

/-- A record in host memory, with W past it. -/
def recorded (s : State) (x : Job) (o : JobOut) : State :=
  let q := s.q x.id.queue
  (writeHost (s.dropJob x.id) q.cfg.pitch (recordAddr q) (recordBytes q x o)).setQ x.id.queue { q with w := q.w + 1 }

section
variable (s : State) (x : Job) (o : JobOut)

theorem writeRecord_lost :
    writeRecord .lost s x o = settleDrain ((s.dropJob x.id).setQ x.id.queue (s.q x.id.queue).dropped) x.id.queue := rfl

theorem writeRecord_translationFails : writeRecord .translationFails s x o =
    settleDrain (cplFails ((s.dropJob x.id).setQ x.id.queue (s.q x.id.queue).dropped) x.id.queue) x.id.queue := rfl

theorem writeRecord_visible :
    writeRecord .visible s x o = settleDrain (signalRecord (recorded s x o) x.id.queue x o.status) x.id.queue := by
  unfold writeRecord recorded
  dsimp only
  rw [writeHost_q]
  rfl

theorem writeRecord_lost_jobs : (writeRecord .lost s x o).jobs = s.jobs.filter (fun y => y.id ≠ x.id) := by
  rw [writeRecord_lost, settleDrain_jobs]
  rfl

theorem writeRecord_visible_jobs : (writeRecord .visible s x o).jobs = s.jobs.filter (fun y => y.id ≠ x.id) := by
  rw [writeRecord_visible, settleDrain_jobs, signalRecord_jobs, recorded, State.setQ_jobs, writeHost_jobs]
  rfl

variable {s x} (ha : (s.q x.id.queue).cfg.assigned = true)
include ha

theorem dropped_q : ((s.dropJob x.id).setQ x.id.queue (s.q x.id.queue).dropped).q x.id.queue = (s.q x.id.queue).dropped :=
  State.q_setQ (x := (s.q x.id.queue).dropped) ha _

theorem recorded_q : (recorded s x o).q x.id.queue = { s.q x.id.queue with w := (s.q x.id.queue).w + 1 } :=
  State.q_setQ (x := { s.q x.id.queue with w := (s.q x.id.queue).w + 1 }) ha _

theorem writeRecord_translationFails_jobs (he : (s.q x.id.queue).state ≠ .enabled) :
    (writeRecord .translationFails s x o).jobs = s.jobs.filter (fun y => y.id ≠ x.id) := by
  rw [writeRecord_translationFails, settleDrain_jobs, cplFails_jobs _ _ (by rw [dropped_q ha]; exact he)]
  rfl

/-- Neither way to lose a record touches more of the ring than W and the count. -/
theorem writeRecord_dropped_kept {w : RecordWrite} (hw : w = .lost ∨ w = .translationFails) :
    RingKept x.id.queue ((s.dropJob x.id).setQ x.id.queue (s.q x.id.queue).dropped) (writeRecord w s x o) := by
  have assigned := congrArg (·.cfg.assigned) (dropped_q ha)
  have hd := assigned.trans ha
  obtain rfl | rfl := hw
  · rw [writeRecord_lost]
    exact settleDrain_kept hd
  · have fails := cplFails_kept hd
    rw [writeRecord_translationFails]
    exact fails.trans (settleDrain_kept (by rw [fails.cfg, hd]))

theorem writeRecord_visible_kept : RingKept x.id.queue (recorded s x o) (writeRecord .visible s x o) := by
  have hd : ((recorded s x o).q x.id.queue).cfg.assigned = true := by rw [recorded_q o ha]; exact ha
  have signals := signalRecord_kept hd x o.status
  rw [writeRecord_visible]
  exact signals.trans (settleDrain_kept (by rw [signals.cfg, hd]))

theorem writeRecord_dropped {w : RecordWrite} (hw : w = .lost ∨ w = .translationFails) :
    (writeRecord w s x o).host = s.host ∧ ((writeRecord w s x o).q x.id.queue).w = (s.q x.id.queue).w + 1 ∧
    ((writeRecord w s x o).q x.id.queue).cplDropped = satAdd (s.q x.id.queue).cplDropped 1 := by
  have k := writeRecord_dropped_kept o ha hw
  exact ⟨k.host, k.w.trans (congrArg (·.w) (dropped_q ha)), k.cplDropped.trans (congrArg (·.cplDropped) (dropped_q ha))⟩

theorem writeRecord_visible_w : ((writeRecord .visible s x o).q x.id.queue).w = (s.q x.id.queue).w + 1 :=
  (writeRecord_visible_kept o ha).w.trans (congrArg (·.w) (recorded_q o ha))

theorem writeRecord_visible_host : (writeRecord .visible s x o).host =
    (let q := s.q x.id.queue
     let at_ := hostAddr (s.pitch q.cfg.pitch).cfg.pasid (recordAddr q)
     logWrite { s with host := Tab.write 0#8 s.host at_ (recordBytes q x o) } q.cfg.pitch (recordAddr q) 32).host := by
  rw [(writeRecord_visible_kept o ha).host, ← logWrite_dropJob_host s x.id, ← recordBytes_length (s.q x.id.queue) x o]
  exact writeHost_host _ _ _ _

end

/-! ### An output (R73) -/

section
variable (s : State) {x : Job} (bs : Bytes)

theorem writeOutput_crate (h : x.desc.outCrate = true) : writeOutput s x bs = writeCrates s x.desc.outAddr.toNat bs := by
  unfold writeOutput
  cases bs with
  | nil => rfl
  | cons b bs => simp [h]

theorem writeOutput_crates_of_host (h : x.desc.outCrate = false) : (writeOutput s x bs).crates = s.crates := by
  unfold writeOutput
  cases bs with
  | nil => rfl
  | cons b bs => simp [h]

theorem writeOutput_host (h : x.desc.outCrate = false) : (writeOutput s x bs).host =
    (logWrite { s with host := Tab.write 0#8 s.host (hostAddr (s.pitch x.pitch).cfg.pasid x.desc.outAddr.toNat) bs } x.pitch
      x.desc.outAddr.toNat bs.length).host := by
  cases bs with
  | nil =>
    rw [List.length_nil, logWrite_zero]
    rfl
  | cons b bs =>
    rw [← writeHost_host]
    simp [writeOutput, h]

end

/-! ### The statement -/

/-- Bytes written at an address read back there, and every other byte reads as before. -/
theorem Tab.get_write {h : List Host.Cell} (bs : Bytes) (a : Nat) (wf : Tab.wf 0#8 h = true) :
    (∀ (i : Nat) (l : i < bs.length), Tab.get 0#8 (a + i) (Tab.write 0#8 h a bs) = bs[i]) ∧
    (∀ m : Nat, m < a ∨ a + bs.length ≤ m → Tab.get 0#8 m (Tab.write 0#8 h a bs) = Tab.get 0#8 m h) :=
  ⟨fun i l => Tab.get_write_inside bs a i wf l, fun m o => Tab.get_write_outside bs a m wf o⟩

/-- Settles O58: the command ends the job; a record is dropped or stands at W; an output stands in a crate or in host memory; and what the
bytes of a record are. -/
theorem recordsAreWrittenAtW : Obligations.RecordsAreWrittenAtW := by
  intro s x o hx hr hd hop hp hv ho hn
  refine ⟨fun w => ?ends, fun u ha => ?record, fun u bs => ⟨fun hc => ?crate, fun hc => ?host⟩, fun q => ⟨rfl, recordBytes_length q x o⟩⟩
  case ends =>
    have e : jobComplete x.id w s = completeJob w s x o := by
      by_cases he : x.phase = .ended
      · exact jobComplete_of_ended hx hr ho w he
      · exact jobComplete_of_not_needsStore hx hr ho (hp.resolve_right he) hv w (hn.resolve_right he)
    rw [exec_jobComplete hx hr w hd hop, e]
  case record =>
    intro q p a at_ kept v
    have host : v.host = (logWrite { u with host := Tab.write 0#8 u.host at_ (recordBytes q x o) } p a 32).host :=
      writeRecord_visible_host o ha
    refine ⟨fun w hw => writeRecord_dropped o ha hw, writeRecord_lost_jobs u x o, writeRecord_translationFails_jobs o ha,
      writeRecord_visible_w o ha, writeRecord_visible_jobs u x o, host, fun wf off => ?_⟩
    rw [host, logWrite_host_of_off off]
    obtain ⟨inside, outside⟩ := Tab.get_write (recordBytes q x o) at_ wf
    exact ⟨inside, fun m hm => outside m (by rwa [recordBytes_length])⟩
  case crate =>
    rw [writeOutput_crate u bs hc]
    exact ⟨rfl, fun wf => Tab.get_write bs _ wf⟩
  case host =>
    refine ⟨writeOutput_crates_of_host u bs hc, writeOutput_host u bs hc, fun wf off => ?_⟩
    rw [writeOutput_host u bs hc, logWrite_host_of_off off]
    exact Tab.get_write bs _ wf

end Sys2Proof.Machine
end

section
/-! SUPPORT. What moves a job on between its start and its record (R15, R163, R223, R348): the units that a placed job finds, a digest that
takes a tile again, the end of a key's write, and a program's time limit. -/
namespace Sys2Proof.Machine

/-! ### JOB_PLACE (R15, R223) -/

/-- A job that finds no tile of its role finds no units for a place that needs one. -/
theorem unitsFor_none_of_tilesNow {s : State} {x : Job} {p : Place} {r : Role} (hp : p.tiled = true) (hr : roleOf x.desc.opcode = some r)
    (ht : tilesNow s r x = none) : unitsFor s x p = none := by
  cases p with
  | tile => simp [unitsFor, hr, ht]
  | stall => simp [unitsFor, hr, ht]
  | tileAndEngine => simp [unitsFor, hr, ht]
  | core => exact absurd hp (by decide)
  | boot => exact absurd hp (by decide)
  | engine => exact absurd hp (by decide)
  | on ts => exact absurd hp (by simp [Place.tiled])

/-- A job that finds its units has no digest yield to it. -/
theorem wantsTile_of_units {sp : OpSpec} {s : State} {x : Job} {p : Place} {us : List Unit_} (h : unitsFor s x p = some us) :
    wantsTile sp p s x = false := by
  refine Bool.eq_false_iff.mpr fun hw => ?_
  simp only [wantsTile, Bool.and_eq_true, beq_iff_eq, Option.isNone_iff_eq_none] at hw
  obtain ⟨⟨⟨⟨⟨⟨⟨⟨⟨role, tiled⟩, -⟩, -⟩, -⟩, -⟩, -⟩, -⟩, -⟩, noTile⟩ := hw
  cases (unitsFor_none_of_tilesNow tiled role noTile).symm.trans h

/-- A job to which no peer lent a key sees the vault as it is. -/
theorem lend_nil {x : Job} (h : x.lent = []) (s : State) : lend x s = s := by
  unfold lend
  rw [h]
  rfl

theorem takeBack_nil {x : Job} (h : x.lent = []) (s t : State) : takeBack x s t = t := by
  unfold takeBack
  rw [h]
  rfl

section
variable {s : State} {x : Job} (hx : s.job x.id = some x)
include hx

theorem jobPlace_waiting (hp : x.phase = .waiting) : jobPlace x.id s = placeWaiting s x := by
  simp only [jobPlace, hx, hp]

theorem jobPlace_suspended (hp : x.phase = .suspended) : jobPlace x.id s = resumeJob s x := by
  simp only [jobPlace, hx, hp]

theorem resumeJob_resumes (hp : placing s = true) {n : Nat} {us : List Unit_} (hn : resumeStall s x = some n)
    (ht : tilesNow s .hashsig { x with stall := some n } = some us) :
    resumeJob s x = (let y := { x with stall := some n, phase := .running, units := us, gave := none }
      us.foldl (takeUnit y) (s.setJob y)) := by
  simp [resumeJob, hp, hn, hx, ht]

theorem resumeJob_stays (hp : placing s = true) (hn : resumeStall s x = none) (hb : behind s .hashsig x = true)
    (ht : tilesNow s .hashsig x = none) : resumeJob s x = s := by
  simp [resumeJob, hp, hn, hb, hx, ht]

end

theorem placeWaiting_of_finds {sp : OpSpec} {s t : State} {x : Job} {us : List Unit_} {rs : List (BitVec 13)}
    (hs : specOf x.desc.opcode = some sp) (hl : x.lent = []) (f : Finds sp s x us t rs) :
    placeWaiting s x = runJob sp t (queuedOn sp s x) us rs := by
  have placed : placeWithKey sp s x = runJob sp t (queuedOn sp s x) us rs := by
    rw [placeWithKey, lend_nil hl, takeBack_nil hl, placeJob_of_finds f]
  have wants : wantsTile sp (sp.place s x) s (queuedOn sp s x) = false := wantsTile_of_units f.units
  simp only [placeWaiting, hs, lend_nil hl, placeOn_eq_queuedOn, wants, Bool.false_eq_true, if_false, placed]

/-! ### NV_WRITE_DONE (R348) -/

theorem nvWriteDone_storing {s : State} {x : Job} {o : JobOut} (hx : s.job x.id = some x) (hn : nvReady s = true)
    (hr : s.seq.reloading = false) (hp : x.phase = .storing) (ho : x.out = some o) (same : Bool) :
    nvWriteDone x.id same s =
      if same then nvWriteDone.storedJob (s.setJob { x with phase := .ended, units := [] }) x o else breakJob s x stFault 0x0B43 := by
  simp [nvWriteDone, hx, hn, hr, hp, ho]

/-! ### VPROG_TIME_LIMIT (R163) -/

/-- One state is another but for the number of the next free value. -/
def OnlyDrew (s t : State) : Prop := ∃ d, t = { s with draws := d }

theorem OnlyDrew.refl (s : State) : OnlyDrew s s := ⟨s.draws, rfl⟩

theorem OnlyDrew.trans {s t u : State} (h : OnlyDrew s t) (g : OnlyDrew t u) : OnlyDrew s u := by
  obtain ⟨_, rfl⟩ := h
  obtain ⟨d, rfl⟩ := g
  exact ⟨d, rfl⟩

theorem OnlyDrew.drawFree (s : State) : OnlyDrew s (drawFree s).2 := ⟨_, rfl⟩

theorem OnlyDrew.restored {s t : State} (h : OnlyDrew s t) : { t with draws := s.draws } = s := by
  obtain ⟨_, rfl⟩ := h
  rfl

theorem ranOver_onlyDrew (s : State) (x : Job) : OnlyDrew s (ranOver s x).2 := by
  unfold ranOver
  dsimp only
  split
  · exact OnlyDrew.refl s
  · split
    · exact OnlyDrew.refl s
    · split
      · split
        · exact OnlyDrew.refl s
        · split
          · exact OnlyDrew.drawFree s
          · exact OnlyDrew.refl s
      · exact OnlyDrew.drawFree s

theorem ranOver_unfinished {s : State} {x : Job} (h : x.out = none) : ranOver s x = (true, s) := by
  simp only [ranOver, h]

theorem ranOver_refused {s : State} {x : Job} {o : JobOut} (h : x.out = some o) (hd : o.detail = 0x0D16) :
    ranOver s x = (false, s) := by
  simp only [ranOver, h, if_pos hd]

section
variable {s : State} {x : Job} {o : JobOut} (h : x.out = some o) (hd : o.detail ≠ 0x0D16) {ps fast slow : Nat}
  (hp : x.paced = some (ps, fast, slow))
include h hd hp

theorem ranOver_late (hf : 1000000 * vlimit x.desc < (ps - imageHashTime x.desc.auxLen.toNat) * fast / 1800) :
    ranOver s x = (true, s) := by
  simp only [ranOver, h, if_neg hd, hp, decide_eq_true hf, if_true]

theorem ranOver_in_time (hf : ¬1000000 * vlimit x.desc < (ps - imageHashTime x.desc.auxLen.toNat) * fast / 1800)
    (hs : ¬1000000 * vlimit x.desc < (ps - imageHashTime x.desc.auxLen.toNat) * slow / 1800) : ranOver s x = (false, s) := by
  simp only [ranOver, h, if_neg hd, hp, decide_eq_false hf, decide_eq_false hs, Bool.false_eq_true, if_false]

end

theorem limitPc_computed {s : State} {x : Job} (ho : x.out = none) (hp : x.paced = none) (hb : s.pace.beat ≠ 0) :
    limitPc s x = ((runningCore s x).pc.setWidth 64, s) := by
  have e : (x.out.isNone && x.paced.isNone && s.pace.beat != 0) = true := by
    rw [ho, hp, bne_iff_ne.mpr hb]
    rfl
  simp only [limitPc, e, if_true]

theorem limitPc_free {s : State} {x : Job} (h : x.out ≠ none ∨ x.paced ≠ none ∨ s.pace.beat = 0) :
    limitPc s x = (BitVec.ofNat 64 (8 * ((drawFree s).1 % max 1 ((runningCore s x).codeLen / 8))), (drawFree s).2) := by
  have e : (x.out.isNone && x.paced.isNone && s.pace.beat != 0) = false := by
    rw [Bool.and_eq_false_iff, Bool.and_eq_false_iff, bne_eq_false_iff_eq, Option.isNone_eq_false_iff, Option.isNone_eq_false_iff,
      Option.isSome_iff_ne_none, Option.isSome_iff_ne_none, or_assoc]
    exact h
  simp only [limitPc, e, Bool.false_eq_true, if_false]

theorem limitPc_onlyDrew (s : State) (x : Job) : OnlyDrew s (limitPc s x).2 := by
  unfold limitPc
  dsimp only
  split
  · exact OnlyDrew.refl s
  · exact OnlyDrew.drawFree s

/-- An instruction of a code section of at least one starts within it, at a multiple of 8. -/
theorem instruction_within {c : Nat} (n : Nat) (lo : 8 ≤ c) (hi : c < 2 ^ 32) :
    (BitVec.ofNat 64 (8 * (n % max 1 (c / 8)))).toNat < c ∧ (BitVec.ofNat 64 (8 * (n % max 1 (c / 8)))).toNat % 8 = 0 := by
  have one : max 1 (c / 8) = c / 8 := by omega
  have lt : n % (c / 8) < c / 8 := Nat.mod_lt _ (by omega)
  rw [one, BitVec.toNat_ofNat]
  omega

theorem limitElapsed_of_beat {s : State} {x : Job} (hb : s.pace.beat ≠ 0) :
    (limitElapsed s x).1 = BitVec.ofNat 32 (min
      (atBeat (imageHashTime x.desc.auxLen.toNat) s.pace.beat.toNat + 100 * vlimit x.desc) (2 ^ 32 - 1)) := by
  simp only [limitElapsed, if_neg hb]

theorem limitElapsed_onlyDrew (s : State) (x : Job) : OnlyDrew s (limitElapsed s x).2 := by
  unfold limitElapsed
  dsimp only
  split
  · exact OnlyDrew.drawFree s
  · exact OnlyDrew.refl s

section
variable {s : State} {x : Job} (hx : s.job x.id = some x) (hp : x.phase = .running) (hop : x.desc.opcode = 0x0D02)
  (hf : x.forwarded = none)
include hx hp hop hf

theorem timeLimit_in_time (h : (ranOver s x).1 = false) : timeLimit x.id s = (ranOver s x).2 := by
  simp [timeLimit, hx, hp, hop, hf, h]

theorem timeLimit_late (h : (ranOver s x).1 = true) :
    timeLimit x.id s = (let u := (ranOver s x).2
      let v := (limitPc u x).2
      (limitElapsed v x).2.setJob { x with
        out := some { outOf stAborted 0x0D25 (limitPc u x).1 with elapsed := (limitElapsed v x).1 }, commits := [], paced := none }) := by
  simp [timeLimit, hx, hp, hop, hf, h]

end

/-! ### The statement -/

/-- Settles O60: placement of a waiting job, of a suspended digest, the two ends of a key's write, and the time limit. -/
theorem jobsMoveOn : Obligations.JobsMoveOn := by
  refine ⟨fun sp s x hx hp hs us t rs hl f => ?placed, fun s x hx hp hpl => ⟨fun n us hn ht => ?resumes, fun hn hb ht => ?stays⟩,
    fun s x o hx hn hr hp ho => ⟨?stored, ?broken⟩, fun s x hx hp hop hf => ?limit⟩
  case placed => exact congrArg (act s) ((jobPlace_waiting hx hp).trans (placeWaiting_of_finds hs hl f))
  case resumes => exact congrArg (act s) ((jobPlace_suspended hx hp).trans (resumeJob_resumes hx hpl hn ht))
  case stays => exact congrArg (act s) ((jobPlace_suspended hx hp).trans (resumeJob_stays hx hpl hn hb ht))
  case stored => exact congrArg (act s) (nvWriteDone_storing hx hn hr hp ho true)
  case broken => exact congrArg (act s) (nvWriteDone_storing hx hn hr hp ho false)
  case limit =>
    intro u
    refine ⟨fun h => congrArg (act s) (timeLimit_in_time hx hp hop hf h), fun h => ?late, (ranOver_onlyDrew s x).restored,
      ranOver_unfinished, fun o => ranOver_refused, fun o ps fast slow ho hd hpc => ⟨ranOver_late ho hd hpc, ranOver_in_time ho hd hpc⟩⟩
    case late =>
      intro c v o
      refine ⟨congrArg (act s) (timeLimit_late hx hp hop hf h), fun ho hpc hb => congrArg (·.1) (limitPc_computed ho hpc hb),
        fun hfree lo hi => ?address, limitElapsed_of_beat, ?draws⟩
      case address =>
        rw [limitPc_free hfree]
        exact instruction_within _ lo hi
      case draws =>
        exact (((ranOver_onlyDrew s x).trans (limitPc_onlyDrew u x)).trans (limitElapsed_onlyDrew v x)).restored

end Sys2Proof.Machine
end

section
/-! SUPPORT. The statements about the minimum SVNs and about the tiles of the plan: the minimums are among what every step keeps; a
spare joins or is retired by its tags, a fault goes to the tile that computes for the job, and the self-test decides the tile. -/
namespace Sys2Proof.Machine

/-- Settles O43: the three minimums are among what a step keeps. -/
theorem minimumSvnsNeverFall : Obligations.MinimumSvnsNeverFall := fun _ _ h =>
  have k := (keeps_of_step h).kept
  ⟨k.plan, k.patch, k.fw⟩

variable {s : State}

/-! ### A spare tile joins a stall (R40, R130) -/

section
variable {n t : Nat} (hn : leastBy (spareRank s) s.plan.joining = some n) (ht : (tilesOf s.plan.spares).head? = some t)
include hn ht

theorem spareJoin_loaded (hk : tileTagsOk s = true) :
    spareJoin s = { s.setTile (BitVec.ofNat 6 t) { s.tile (BitVec.ofNat 6 t) with flips := [], reloadDue := false } with
      plan := { s.plan with
        joining := s.plan.joining.erase n, spares := s.plan.spares &&& ~~~(1#64 <<< t),
        members := Tab.set 0#64 n (stallTiles s n ||| (1#64 <<< t)) s.plan.members,
        usedSpares := s.plan.usedSpares + 1, pint := s.plan.pint ||| 1 } } := by
  unfold spareJoin
  rw [hn, ht]
  exact if_neg (by simp [hk])

theorem spareJoin_unloaded (hk : tileTagsOk s = false) : spareJoin s = retireTile (BitVec.ofNat 6 t) s := by
  unfold spareJoin
  rw [hn, ht]
  exact if_pos hk

end

/-! ### A fault of what computes on a tile (R186, R419) -/

section
variable {j : JobId} {x y : Job} {t : BitVec 6} (hx : s.job j = some x) (hp : x.phase = .running)
  (hy : (trip .engineFcm (unitReading (t.setWidth 8)) s).job j = some y) (hr : y.phase = .running)
include hx hp hy hr

/-- The tile is the job's own, or the one that verifies a signature of its keeper exchange. -/
theorem tileFault_trips (dk : Bool) (hu : x.units = [.tile t] ∨ (x.units = [] ∧ keeperTile s j = some t)) :
    tileFault j dk s = tileFaultJob (if y.dkFault && dk then 0x0214 else 0x0216) t.toNat
      ((trip .engineFcm (unitReading (t.setWidth 8)) s).setJob { y with dkFault := dk }) := by
  unfold tileFault
  obtain own | ⟨noUnits, keeper⟩ := hu
  · simp [hx, hp, own, hy, hr]
  · simp [hx, hp, noUnits, keeper, hy, hr]

end

section
variable {t : Nat} {x : Job} (hx : tileJob s t = some x) (d : BitVec 16)
include hx

theorem tileFaultJob_of_keeper (hk : keeperTile s x.id = some (BitVec.ofNat 6 t)) : tileFaultJob d t s = keeperAgain s := by
  unfold tileFaultJob
  rw [hx]
  exact if_pos hk

theorem tileFaultJob_of_job (hk : keeperTile s x.id ≠ some (BitVec.ofNat 6 t)) :
    tileFaultJob d t s = jobFault d [.tile (BitVec.ofNat 6 t)] s x := by
  unfold tileFaultJob
  rw [hx]
  exact if_neg hk

end

/-! ### The self-test of a tile (R392) -/

section
variable {t : BitVec 6} (ht : (s.tile t).state = .testing)
include ht

theorem selfTestDone_passed : selfTestDone t true s = s.setTile t { s.tile t with state := .idle } := by
  unfold selfTestDone
  rw [if_neg (not_not_intro ht), if_pos rfl]

theorem selfTestDone_failed : selfTestDone t false s = retireTile t s := by
  unfold selfTestDone
  rw [if_neg (not_not_intro ht), if_neg Bool.false_ne_true]

end

/-! ### The statement -/

/-- Settles O17: the tags decide the spare, the tile's own job or its keeper's verification takes the fault, and the self-test decides
the tile. -/
theorem tilesJoinAndRecover : Obligations.TilesJoinAndRecover := by
  refine ⟨fun s n t hn ht => ⟨fun hk => ?joins, fun hk => ?retired⟩, fun s j x y t dk hx hp hu hy hr => ?fault,
    fun s d t x hx => ⟨tileFaultJob_of_keeper hx d, tileFaultJob_of_job hx d⟩, fun s t ht => ⟨?passed, ?failed⟩⟩
  case joins => exact congrArg (act s) (spareJoin_loaded hn ht hk)
  case retired => exact congrArg (act s) (spareJoin_unloaded hn ht hk)
  case fault => exact congrArg (act s) (tileFault_trips hx hp hy hr dk hu)
  case passed => exact congrArg (act s) (selfTestDone_passed ht)
  case failed => exact congrArg (act s) (selfTestDone_failed ht)

end Sys2Proof.Machine
end

section
/-! SUPPORT. The fetcher's turn and the reading of one descriptor (R66 to R68), and the statements about the fetcher, and about a job's
command that names no descriptor of its own. -/
namespace Sys2Proof.Machine

variable {s : State}

/-! ### A turn of the fetcher (R68) -/

/-- The state in which a pitch is served: a new round has begun where no eligible queue of the pitch has allowance left. -/
def inRound (s : State) (p : BitVec 8) : State :=
  if (eligibleOf s p).all (fun n => (s.q n).left = 0) then newRound s p else s

/-- The local index of the queue that is due: the next after the one served last, of those with allowance left. -/
def dueLocal (u : State) (p : BitVec 8) : Option Nat :=
  nextAfter ((Tab.get none p.toNat u.arb.lastLocal).map (·.toNat))
    (((eligibleOf u p).filter (fun n => (u.q n).left ≠ 0)).map (fun n => (u.q n).cfg.local_.toNat))

/-- The burst of a queue within its pitch's allowance; one descriptor while the part is Shuttered (R463). -/
def burstOf (u : State) (allow : Nat) (n : BitVec 12) : Nat :=
  let k := min (min (u.q n).cfg.burst.toNat (u.q n).left) (min allow ((u.q n).p - (u.q n).h).toNat)
  if u.isShuttered then min k 1 else k

/-- What was fetched in a turn, with what is left of the visit and the queue that was served. -/
def turnMarked (p : BitVec 8) (allow l : Nat) (got : State × Nat) : State :=
  { got.1 with arb := { got.1.arb with visit := some (p, allow - got.2), lastPitch := some p,
                                       lastLocal := Tab.set none p.toNat (some (BitVec.ofNat 6 l)) got.1.arb.lastLocal } }

theorem fetchTurn_of_due {p : BitVec 8} {allow l : Nat} {n : BitVec 12} (hf : fetching s = true) (hv : visitNow s = some (p, allow))
    (hl : dueLocal (inRound s p) p = some l) (hn : queueOf (inRound s p) p (BitVec.ofNat 6 l) = some n) :
    fetchTurn s = turnMarked p allow l (fetchUpTo n (burstOf (inRound s p) allow n) (inRound s p) 0) := by
  unfold dueLocal inRound at hl
  unfold inRound at hn
  simp only [fetchTurn, hf, Bool.true_eq_false, if_false, hv, hl, hn]
  rfl

/-! ### One descriptor read at H (R66, R67) -/

/-- The address of the descriptor at a queue's H. -/
def descAddr (q : Queue) : Nat := (q.cfg.descBase.toNat + 64 * (q.h.toNat % ringSize q)) % 2 ^ 64

/-- The job of the descriptor at a queue's H, as it is fetched. -/
def fetchedJob (s : State) (n : BitVec 12) : Job :=
  let q := s.q n
  jobInit { src := 0, queue := n, pos := q.h } (BitVec.ofNat 16 (q.h.toNat % ringSize q)) q.cfg.pitch
    (descOf (readHost s q.cfg.pitch (descAddr q) 64))

/-- A queue from which one descriptor has been read. -/
def Queue.advanced (q : Queue) : Queue := { q with h := q.h + 1, left := q.left - 1 }

theorem fetchOne_eq (s : State) (n : BitVec 12) : ∃ c,
    translated (s.q n).cfg.pitch (descAddr (s.q n)) 64 s = { s with pcie := c } ∧
    fetchOne s n = { s with pcie := c, queues := Tab.set queueInit n.toNat (s.q n).advanced s.queues,
                            jobs := s.jobs ++ [fetchedJob s n] } := by
  obtain ⟨c, e⟩ := translated_eq (s.q n).cfg.pitch (descAddr (s.q n)) 64 s
  refine ⟨c, e, ?_⟩
  unfold descAddr at e
  simp only [fetchOne, e]
  rfl

/-- Settles O5: the pitch that is served names the queue that is due and its burst, and each descriptor of the burst is read at H. -/
theorem fetchTurnServesTheQueueThatIsDue : Obligations.FetchTurnServesTheQueueThatIsDue := by
  refine ⟨fun s p allow l n => ?turn, fun s n => ?descriptor⟩
  case turn =>
    intro u q k got hf hv hl hn
    exact congrArg (act s) (fetchTurn_of_due hf hv hl hn)
  case descriptor =>
    intro q slot a
    obtain ⟨c, translation, read⟩ := fetchOne_eq s n
    have translation : translated q.cfg.pitch a 64 s = { s with pcie := c } := translation
    rw [read, translation]
    exact ⟨rfl, rfl, rfl⟩

/-! ### A command without its descriptor (R69, R71) -/

theorem startJob_of_no_descriptor {sp : OpSpec} {j : JobId}
    (h : s.job j = none ∨ ∃ x, s.job j = some x ∧ (x.phase ≠ .fetched ∨ x.desc.opcode ≠ sp.code ∨ mayStart s x = false)) :
    startJob sp j s = s := by
  unfold startJob
  obtain hx | ⟨x, hx, idle⟩ := h
  · rw [hx]
  · simp only [hx, if_pos idle]

/-- Settles O57: the named job does not wait, so each command is a start, and a start without its descriptor changes nothing. -/
theorem commandsWithoutTheirDescriptorChangeNothing : Obligations.CommandsWithoutTheirDescriptorChangeNothing := by
  intro sp c s j same hc h
  have not_waiting : ∀ x, s.job j = some x → x.phase ≠ .waiting := by
    intro x hx
    obtain none | ⟨y, hy, hw, -⟩ := h
    · cases none.symm.trans hx
    · cases hy.symm.trans hx
      exact hw
  have idle : startJob sp j s = s :=
    startJob_of_no_descriptor (h.imp_right fun ⟨x, hx, _, idle⟩ => ⟨x, hx, idle⟩)
  exact (jobCommands_startEach not_waiting _ hc).trans (congrArg (act s) idle)

end Sys2Proof.Machine
end

section
/-! SUPPORT. The commands of a queue (R61 to R63, R77, R452): what each comes to in each state of the queue, and the eight checks of COMMIT;
and its doorbells (R65). -/
namespace Sys2Proof.Machine

variable {s : State} {n : BitVec 12}

/-! ### COMMIT (R61) -/

theorem queueCommit_accepted (h : queueCommitBad s n = none) : queueCommit n s = s.setQ n { s.q n with cfg := (s.q n).shadow } := by
  simp only [queueCommit, h]

theorem queueCommit_refused {d : BitVec 16} (h : queueCommitBad s n = some d) :
    queueCommit n s = s.setQ n { s.q n with commitRefused := true, refuseDetail := d } := by
  simp only [queueCommit, h]

/-! ### ENABLE (R62, R63, R77, R452) -/

/-- The part takes ENABLE of a queue: it is READY, or it is Shuttered and the queue is queue 0, of pitch 0 if it is assigned. -/
def EnableTaken (s : State) (n : BitVec 12) : Prop :=
  s.dev.phase = .ready ∨ (s.isShuttered = true ∧ n = 0 ∧ ((s.q n).cfg.assigned = true → (s.q n).cfg.pitch = 0))

theorem not_shuttered_of_ready (h : s.dev.phase = .ready) : s.isShuttered = false := by
  simp [State.isShuttered, h]

theorem queueEnable_wrong_state (h : (s.q n).state ≠ .disabled ∨ (s.dev.phase ≠ .ready ∧ s.isShuttered = false)) :
    queueEnable n s = queueRefuse n 0x003C s := if_pos h

section
variable (hd : (s.q n).state = .disabled)
include hd

theorem queueEnable_shuttered (hs : s.isShuttered = true) (h : n ≠ 0 ∨ ((s.q n).cfg.assigned = true ∧ (s.q n).cfg.pitch ≠ 0)) :
    queueEnable n s = queueRefuse n 0x003B s := by
  unfold queueEnable
  dsimp only
  rw [if_neg (by simp [hd, hs]), if_pos ⟨hs, h⟩]

variable (ht : EnableTaken s n)
include ht

/-- Where the part takes the command, what the queue lacks decides. -/
theorem queueEnable_of_taken : queueEnable n s =
    if (s.q n).cfg.assigned = false then queueRefuse n 0x0038 s
    else if (s.q n).cfg.descBase = 0 ∨ (s.q n).cfg.cplBase = 0 then queueRefuse n 0x0039 s
    else if (s.pitch (s.q n).cfg.pitch).cfg.bound = false then queueRefuse n 0x003A s
    else s.setQ n { s.q n with state := .enabled, h := 0, w := 0, p := 0, c := 0, left := 0, accumulated := 0 } := by
  have inTime : ¬((s.q n).state ≠ .disabled ∨ (s.dev.phase ≠ .ready ∧ s.isShuttered = false)) := by
    obtain ready | ⟨shuttered, -, -⟩ := ht
    · simp [hd, ready]
    · simp [hd, shuttered]
  have notBarred : ¬(s.isShuttered = true ∧ (n ≠ 0 ∨ ((s.q n).cfg.assigned = true ∧ (s.q n).cfg.pitch ≠ 0))) := by
    obtain ready | ⟨-, zero, own⟩ := ht
    · simp [not_shuttered_of_ready ready]
    · rintro ⟨-, other | ⟨assigned, foreign⟩⟩
      · exact other zero
      · exact foreign (own assigned)
  unfold queueEnable
  dsimp only
  rw [if_neg inTime, if_neg notBarred]

theorem queueEnable_unassigned (ha : (s.q n).cfg.assigned = false) : queueEnable n s = queueRefuse n 0x0038 s := by
  rw [queueEnable_of_taken hd ht, if_pos ha]

variable (ha : (s.q n).cfg.assigned = true)
include ha

theorem queueEnable_ringless (h : (s.q n).cfg.descBase = 0 ∨ (s.q n).cfg.cplBase = 0) :
    queueEnable n s = queueRefuse n 0x0039 s := by
  rw [queueEnable_of_taken hd ht, if_neg (by simp [ha]), if_pos h]

variable (hdesc : (s.q n).cfg.descBase ≠ 0) (hcpl : (s.q n).cfg.cplBase ≠ 0)
include hdesc hcpl

theorem queueEnable_unbound (hb : (s.pitch (s.q n).cfg.pitch).cfg.bound = false) : queueEnable n s = queueRefuse n 0x003A s := by
  rw [queueEnable_of_taken hd ht, if_neg (by simp [ha]), if_neg (not_or.mpr ⟨hdesc, hcpl⟩), if_pos hb]

theorem queueEnable_enabled (hb : (s.pitch (s.q n).cfg.pitch).cfg.bound = true) :
    queueEnable n s = s.setQ n { s.q n with state := .enabled, h := 0, w := 0, p := 0, c := 0, left := 0, accumulated := 0 } := by
  rw [queueEnable_of_taken hd ht, if_neg (by simp [ha]), if_neg (not_or.mpr ⟨hdesc, hcpl⟩), if_neg (by simp [hb])]

end

/-! ### DISABLE and RESTART (R62) -/

/-- A queue that is not DISABLED reads back as it was set. -/
theorem State.q_setQ_of_state {x : Queue} (h : x.state ≠ .disabled) (s : State) (n : BitVec 12) : (s.setQ n x).q n = x :=
  Tab.get_set_same _ _ _ fun e => h (congrArg (·.state) e)

theorem settleDrain_waits (h : inflight s n ≠ 0) : settleDrain s n = s := if_neg fun hd => h hd.2

theorem settleDrain_ends {x : Queue} (hs : x.state = .draining) (h : inflight s n = 0) :
    settleDrain (s.setQ n x) n = (s.setQ n x).setQ n { x with state := .disabled } := by
  have drains : (s.setQ n x).q n = x := State.q_setQ_of_state (by simp [hs]) s n
  unfold settleDrain
  rw [drains]
  exact if_pos ⟨hs, h⟩

theorem queueDisable_disabled (h : (s.q n).state = .disabled) : queueDisable n s = s := by
  simp only [queueDisable, h]

theorem queueDisable_draining (h : (s.q n).state = .draining) : queueDisable n s = queueRefuse n 0x003C s := by
  simp only [queueDisable, h]

section
variable (h : (s.q n).state = .enabled ∨ (s.q n).state = .error)
include h

theorem queueDisable_starts : queueDisable n s = settleDrain (s.setQ n { s.q n with state := .draining }) n := by
  obtain h | h := h <;> simp only [queueDisable, h]

theorem queueDisable_busy (hi : inflight s n ≠ 0) : queueDisable n s = s.setQ n { s.q n with state := .draining } :=
  (queueDisable_starts h).trans (settleDrain_waits hi)

theorem queueDisable_idle (hi : inflight s n = 0) : queueDisable n s =
    (s.setQ n { s.q n with state := .draining }).setQ n { s.q n with state := .disabled } :=
  (queueDisable_starts h).trans (settleDrain_ends rfl hi)

end

theorem queueRestart_error (h : (s.q n).state = .error) : queueRestart n s = s.setQ n { s.q n with state := .enabled } := if_pos h

theorem queueRestart_refused (h : (s.q n).state ≠ .error) : queueRestart n s = queueRefuse n 0x003C s := if_neg h

/-! ### The eight checks of COMMIT (R61) -/

theorem structuralDiffers_iff {a b : QueueCfg} : structuralDiffers a b = true ↔ a.descBase ≠ b.descBase ∨ a.cplBase ≠ b.cplBase ∨
    a.log2Size ≠ b.log2Size ∨ a.local_ ≠ b.local_ ∨ a.assigned ≠ b.assigned ∨ a.pitch ≠ b.pitch := by
  simp [structuralDiffers, or_assoc]

theorem assignedTo_iff {p : BitVec 8} {q : Queue} : assignedTo p q = true ↔ q.cfg.assigned = true ∧ q.cfg.pitch = p := by
  simp [assignedTo]

/-- The other queues of the pitch that the set names. -/
def otherQueues (s : State) (n : BitVec 12) : Nat :=
  (s.queues.filter (fun e => e.1 ≠ n.toNat ∧ e.2.cfg.assigned = true ∧ e.2.cfg.pitch = (s.q n).shadow.pitch)).length

theorem assignedCount_eq_otherQueues (s : State) (n : BitVec 12) : assignedCount s (s.q n).shadow.pitch n = otherQueues s n := by
  unfold assignedCount otherQueues
  refine congrArg List.length (List.filter_congr fun e _ => ?_)
  rw [Bool.eq_iff_iff, decide_eq_true_iff, Bool.and_eq_true, assignedTo_iff, bne_iff_ne]

/-- Check 1, Q_BUSY. -/
def CommitBusy (s : State) (n : BitVec 12) : Prop :=
  let c := (s.q n).shadow
  let d := (s.q n).cfg
  (s.q n).state ≠ .disabled ∧ (c.descBase ≠ d.descBase ∨ c.cplBase ≠ d.cplBase ∨ c.log2Size ≠ d.log2Size ∨ c.local_ ≠ d.local_ ∨
    c.assigned ≠ d.assigned ∨ c.pitch ≠ d.pitch)

/-- Check 2, Q_SIZE. -/
def CommitSize (c : QueueCfg) : Prop := c.log2Size.toNat < 4 ∨ 16 < c.log2Size.toNat

/-- Check 3, Q_RANGE. -/
def CommitRange (c : QueueCfg) : Prop :=
  2 ^ 64 < c.descBase.toNat + 64 * 2 ^ c.log2Size.toNat ∨ 2 ^ 64 < c.cplBase.toNat + 32 * 2 ^ c.log2Size.toNat

/-- Check 4, Q_WEIGHT. -/
def CommitWeight (c : QueueCfg) : Prop := c.weight = 0 ∨ c.burst = 0 ∨ 64 < c.burst.toNat

/-- Check 5, Q_MOD. -/
def CommitMod (c : QueueCfg) : Prop := c.coalCount ≠ 0 ∧ c.coalTime = 0

/-- Check 6, Q_PITCH. -/
def CommitAbsent (s : State) (c : QueueCfg) : Prop := c.assigned = true ∧ (s.pitch c.pitch).state = .absent

/-- The queue comes to a pitch to which it is not assigned yet: only then can that pitch be full. -/
def CommitComes (s : State) (n : BitVec 12) : Prop :=
  (s.q n).shadow.assigned = true ∧ ¬((s.q n).cfg.assigned = true ∧ (s.q n).cfg.pitch = (s.q n).shadow.pitch)

/-- Check 7, Q_LOCAL_TAKEN. -/
def CommitTaken (s : State) (n : BitVec 12) : Prop :=
  let c := (s.q n).shadow
  c.assigned = true ∧ ∃ e ∈ s.queues, e.1 ≠ n.toNat ∧ e.2.cfg.assigned = true ∧ e.2.cfg.pitch = c.pitch ∧ e.2.cfg.local_ = c.local_

/-- Check 8, Q_PITCH_FULL, by the pitch's own limit. -/
def CommitFull (s : State) (n : BitVec 12) : Prop :=
  CommitComes s n ∧ (s.pitch (s.q n).shadow.pitch).cfg.queueLimit.toNat ≤ otherQueues s n

theorem commitBusy_iff :
    structuralDiffers (s.q n).shadow (s.q n).cfg = true ∧ (s.q n).state ≠ .disabled ↔ CommitBusy s n := by
  rw [structuralDiffers_iff, and_comm]
  rfl

/-- A pitch that holds so many queues already takes no further one. -/
theorem commitComes_iff (k : Nat) : (s.q n).shadow.assigned = true ∧ assignedTo (s.q n).shadow.pitch (s.q n) = false ∧
    k ≤ assignedCount s (s.q n).shadow.pitch n ↔ CommitComes s n ∧ k ≤ otherQueues s n := by
  rw [assignedCount_eq_otherQueues, ← Bool.not_eq_true, assignedTo_iff, ← and_assoc]
  rfl

theorem commitTaken_iff : (s.q n).shadow.assigned = true ∧ s.queues.any (fun e => e.1 != n.toNat &&
    assignedTo (s.q n).shadow.pitch e.2 && e.2.cfg.local_ == (s.q n).shadow.local_) = true ↔ CommitTaken s n := by
  simp [CommitTaken, assignedTo_iff, and_assoc]

/-- Two lists of checks with the same DETAIL in front agree where their first checks and the rest of them do. -/
theorem checks_agree {a b : Prop} [Decidable a] [Decidable b] {d : BitVec 16} {x y : Option (BitVec 16)} (first : a ↔ b)
    (rest : x = y) : (if a then some d else x) = if b then some d else y :=
  ite_congr (propext first) (fun _ => rfl) fun _ => rest

open Classical in
/-- The checks in their order, a 65th queue of the pitch before Q_LOCAL_TAKEN (R59, log 64). -/
theorem queueCommitBad_eq (s : State) (n : BitVec 12) : queueCommitBad s n =
    if CommitBusy s n then some 0x0030 else if CommitSize (s.q n).shadow then some 0x0031
    else if CommitRange (s.q n).shadow then some 0x0032 else if CommitWeight (s.q n).shadow then some 0x0036
    else if CommitMod (s.q n).shadow then some 0x0037 else if CommitAbsent s (s.q n).shadow then some 0x0033
    else if CommitComes s n ∧ 64 ≤ otherQueues s n then some 0x0035 else if CommitTaken s n then some 0x0034
    else if CommitFull s n then some 0x0035 else none :=
  checks_agree commitBusy_iff <| checks_agree .rfl <| checks_agree .rfl <| checks_agree .rfl <| checks_agree .rfl <|
    checks_agree .rfl <| checks_agree (commitComes_iff 64) <| checks_agree commitTaken_iff <| checks_agree (commitComes_iff _) rfl

theorem commitBad_busy (h : CommitBusy s n) : queueCommitBad s n = some 0x0030 := by
  rw [queueCommitBad_eq, if_pos h]

section
variable (h1 : ¬CommitBusy s n)
include h1

theorem commitBad_size (h : CommitSize (s.q n).shadow) : queueCommitBad s n = some 0x0031 := by
  rw [queueCommitBad_eq, if_neg h1, if_pos h]

variable (h2 : ¬CommitSize (s.q n).shadow)
include h2

theorem commitBad_range (h : CommitRange (s.q n).shadow) : queueCommitBad s n = some 0x0032 := by
  rw [queueCommitBad_eq, if_neg h1, if_neg h2, if_pos h]

variable (h3 : ¬CommitRange (s.q n).shadow)
include h3

theorem commitBad_weight (h : CommitWeight (s.q n).shadow) : queueCommitBad s n = some 0x0036 := by
  rw [queueCommitBad_eq, if_neg h1, if_neg h2, if_neg h3, if_pos h]

variable (h4 : ¬CommitWeight (s.q n).shadow)
include h4

theorem commitBad_mod (h : CommitMod (s.q n).shadow) : queueCommitBad s n = some 0x0037 := by
  rw [queueCommitBad_eq, if_neg h1, if_neg h2, if_neg h3, if_neg h4, if_pos h]

variable (h5 : ¬CommitMod (s.q n).shadow)
include h5

theorem commitBad_absent (h : CommitAbsent s (s.q n).shadow) : queueCommitBad s n = some 0x0033 := by
  rw [queueCommitBad_eq, if_neg h1, if_neg h2, if_neg h3, if_neg h4, if_neg h5, if_pos h]

variable (h6 : ¬CommitAbsent s (s.q n).shadow)
include h6

theorem commitBad_crowded (h : CommitComes s n ∧ 64 ≤ otherQueues s n) : queueCommitBad s n = some 0x0035 := by
  rw [queueCommitBad_eq, if_neg h1, if_neg h2, if_neg h3, if_neg h4, if_neg h5, if_neg h6, if_pos h]

theorem commitBad_taken (hc : ¬(CommitComes s n ∧ 64 ≤ otherQueues s n)) (h : CommitTaken s n) :
    queueCommitBad s n = some 0x0034 := by
  rw [queueCommitBad_eq, if_neg h1, if_neg h2, if_neg h3, if_neg h4, if_neg h5, if_neg h6, if_neg hc, if_pos h]

variable (h7 : ¬CommitTaken s n)
include h7

/-- A pitch at its limit is full, whether or not it holds 64 queues besides. -/
theorem commitBad_full (h : CommitFull s n) : queueCommitBad s n = some 0x0035 := by
  by_cases hc : CommitComes s n ∧ 64 ≤ otherQueues s n
  · exact commitBad_crowded h1 h2 h3 h4 h5 h6 hc
  · rw [queueCommitBad_eq, if_neg h1, if_neg h2, if_neg h3, if_neg h4, if_neg h5, if_neg h6, if_neg hc, if_neg h7, if_pos h]

theorem commitBad_none (hc : ¬(CommitComes s n ∧ 64 ≤ otherQueues s n)) (h8 : ¬CommitFull s n) : queueCommitBad s n = none := by
  rw [queueCommitBad_eq, if_neg h1, if_neg h2, if_neg h3, if_neg h4, if_neg h5, if_neg h6, if_neg hc, if_neg h7, if_neg h8]

end

/-! ### The statements -/

/-- Settles O1: each command in each state of its queue, and COMMIT by the first check that fails. -/
theorem queueCommandsTakeEffect : Obligations.QueueCommandsTakeEffect := by
  refine ⟨fun s n ho => ?commands, fun s n ho => ?checks⟩
  case commands =>
    intro q refused mine
    have given {c : Instr} {t u : State} (e : exec c s = hostAct s t) (h : t = u) : exec c s = .next (settle s u) :=
      e.trans ((hostAct_open ho t).trans (congrArg (act s) h))
    exact ⟨fun h => given rfl (queueCommit_accepted h),
      fun hd ht ha hdesc hcpl hb => given rfl (queueEnable_enabled hd ht ha hdesc hcpl hb),
      fun hd => given rfl (queueEnable_wrong_state (.inl hd)),
      fun hr hs => given rfl (queueEnable_wrong_state (.inr ⟨hr, hs⟩)),
      fun hd hs h => given rfl (queueEnable_shuttered hd hs h),
      fun hd ht ha => given rfl (queueEnable_unassigned hd ht ha),
      fun hd ht ha h => given rfl (queueEnable_ringless hd ht ha h),
      fun hd ht ha hdesc hcpl hb => given rfl (queueEnable_unbound hd ht ha hdesc hcpl hb),
      fun h hi => given rfl (queueDisable_busy h hi),
      fun h hi => given rfl (queueDisable_idle h hi),
      fun h => given rfl (queueDisable_disabled h),
      fun h => given rfl (queueDisable_draining h),
      fun h => given rfl (queueRestart_error h),
      fun h => given rfl (queueRestart_refused h)⟩
  case checks =>
    intro q c refused others comes busy size range weight mod_ absent taken full
    have refuse {d : BitVec 16} (h : queueCommitBad s n = some d) : refused d :=
      (hostAct_open ho _).trans (congrArg (act s) (queueCommit_refused h))
    exact ⟨fun h => refuse (commitBad_busy h),
      fun h1 h => refuse (commitBad_size h1 h),
      fun h1 h2 h => refuse (commitBad_range h1 h2 h),
      fun h1 h2 h3 h => refuse (commitBad_weight h1 h2 h3 h),
      fun h1 h2 h3 h4 h => refuse (commitBad_mod h1 h2 h3 h4 h),
      fun h1 h2 h3 h4 h5 h => refuse (commitBad_absent h1 h2 h3 h4 h5 h),
      fun h1 h2 h3 h4 h5 h6 hcomes h => refuse (commitBad_crowded h1 h2 h3 h4 h5 h6 ⟨hcomes, h⟩),
      fun h1 h2 h3 h4 h5 h6 hc h => refuse (commitBad_taken h1 h2 h3 h4 h5 h6 hc h),
      fun h1 h2 h3 h4 h5 h6 h7 h => refuse (commitBad_full h1 h2 h3 h4 h5 h6 h7 h),
      fun h1 h2 h3 h4 h5 h6 h7 hc h8 => (hostAct_open ho _).trans
        (congrArg (act s) (queueCommit_accepted (commitBad_none h1 h2 h3 h4 h5 h6 h7 hc h8)))⟩

/-! ### Doorbells (R65) -/

/-- A doorbell of a queue reaches it: the windows are open, its pitch is not in reset, and it is ENABLED or in ERROR. -/
structure DoorbellHeard (s : State) (p : BitVec 8) (n : BitVec 12) : Prop where
  windows : windowsOpen s = true
  pitch   : (s.pitch p).state ≠ .resetting
  state   : (s.q n).state = .enabled ∨ (s.q n).state = .error

section
variable {p : BitVec 8} {l : BitVec 6} {v : BitVec 32}

theorem DoorbellHeard.not_ignored (r : DoorbellHeard s p n) : ¬(windowsOpen s = false ∨ (s.pitch p).state = .resetting ∨
    ((s.q n).state ≠ .enabled ∧ (s.q n).state ≠ .error)) := by
  rintro (closed | resetting | ⟨notEnabled, notError⟩)
  · exact Bool.false_ne_true (closed.symm.trans r.windows)
  · exact r.pitch resetting
  · exact r.state.elim notEnabled notError

variable (hn : queueOf s p l = some n) (r : DoorbellHeard s p n)
include hn r

theorem sqPi_inside (hc : (v - (s.q n).c).toNat ≤ ringSize (s.q n)) (hh : (v - (s.q n).h).toNat ≤ ringSize (s.q n)) :
    sqPi p l v s = s.setQ n { s.q n with p := v } := by
  simp only [sqPi, hn, if_neg r.not_ignored, if_pos (And.intro hc hh)]

theorem sqPi_outside (h : ringSize (s.q n) < (v - (s.q n).c).toNat ∨ ringSize (s.q n) < (v - (s.q n).h).toNat) :
    sqPi p l v s = dbReject n s := by
  have out : ¬((v - (s.q n).c).toNat ≤ ringSize (s.q n) ∧ (v - (s.q n).h).toNat ≤ ringSize (s.q n)) := by omega
  simp only [sqPi, hn, if_neg r.not_ignored, if_neg out]

theorem cqCi_inside (hw : ((s.q n).w - v).toNat ≤ ringSize (s.q n)) (hc : (v - (s.q n).c).toNat ≤ ringSize (s.q n)) :
    cqCi p l v s = s.setQ n { s.q n with c := v } := by
  simp only [cqCi, hn, if_neg r.not_ignored, if_pos (And.intro hw hc)]

theorem cqCi_outside (h : ringSize (s.q n) < ((s.q n).w - v).toNat ∨ ringSize (s.q n) < (v - (s.q n).c).toNat) :
    cqCi p l v s = dbReject n s := by
  have out : ¬(((s.q n).w - v).toNat ≤ ringSize (s.q n) ∧ (v - (s.q n).c).toNat ≤ ringSize (s.q n)) := by omega
  simp only [cqCi, hn, if_neg r.not_ignored, if_neg out]

end

/-- Settles O2: a doorbell that reaches its queue moves the index or is rejected, by the two distances of R65. -/
theorem doorbellsMoveTheirIndices : Obligations.DoorbellsMoveTheirIndices := by
  intro s p l v n ho hn hp hs q rejected
  have r : DoorbellHeard s p n := ⟨ho, hp, hs⟩
  exact ⟨fun hc hh => congrArg (act s) (sqPi_inside hn r hc hh), fun h => congrArg (act s) (sqPi_outside hn r h),
    fun hw hc => congrArg (act s) (cqCi_inside hn r hw hc), fun h => congrArg (act s) (cqCi_outside hn r h)⟩

end Sys2Proof.Machine
end

section
/-! SUPPORT. Failures of a queue's rings and of a running job's accesses, and a descriptor of no opcode (R67, R71, R72, R96); the power
states of the function and its closed windows (R54); and that no command stops the block. -/
namespace Sys2Proof.Machine

variable {s : State}

/-! ### Rings that fail (R67) -/

section
variable {n : BitVec 12} (h : (s.q n).state = .enabled)
include h

theorem ringReadFail_ringRead : ringReadFail n .ringRead s = enterError s n 0x0040 := if_pos h

theorem ringReadFail_ringTimeout : ringReadFail n .ringTimeout s = enterError s n 0x0041 := if_pos h

theorem ringReadFail_ringTranslation : ringReadFail n .ringTranslation s = enterError s n 0x0042 := if_pos h

theorem ringReadFail_cplTranslation_enabled : ringReadFail n .cplTranslation s = enterError s n 0x0043 := by
  have on : (s.q n).state ≠ .disabled := by simp [h]
  exact (if_neg on).trans (if_pos h)

end

theorem ringReadFail_cplTranslation_stopped {n : BitVec 12} (h : (s.q n).state = .draining ∨ (s.q n).state = .error) :
    ringReadFail n .cplTranslation s = ringFails s n 0x0043 := by
  have on : (s.q n).state ≠ .disabled := by obtain h | h := h <;> simp [h]
  have stopped : (s.q n).state ≠ .enabled := by obtain h | h := h <;> simp [h]
  exact (if_neg on).trans (if_neg stopped)

/-! ### Accesses of a running job (R72, R96), and opcodes that no chapter defines (R71) -/

/-- A PORTER_START whose program runs here. -/
def RunsProgram (x : Job) : Prop := x.desc.opcode = 0x0E01 ∧ x.forwarded = none ∧ x.out = none

theorem runsProgram_iff {x : Job} : x.desc.opcode = 0x0E01 ∧ x.forwarded.isNone = true ∧ x.out.isNone = true ↔ RunsProgram x := by
  simp [RunsProgram]

section
variable {j : JobId} {x : Job} (hx : s.job j = some x)
include hx

section
variable (hp : x.phase = .running) (k : DmaCause)
include hp

theorem dmaFault_of_job (h : ¬RunsProgram x) : dmaFault j k s = breakJob s x 0x0104 (dmaDetail k) := by
  unfold dmaFault
  rw [hx]
  exact (if_neg (not_not_intro hp)).trans (if_neg (mt runsProgram_iff.mp h))

theorem dmaFault_of_program (h : RunsProgram x) : dmaFault j k s = channelFails (chanOf x.desc) (dmaDetail k) s := by
  unfold dmaFault
  rw [hx]
  exact (if_neg (not_not_intro hp)).trans (if_pos (runsProgram_iff.mpr h))

end

theorem opcodeUndefined_refused (hp : x.phase = .fetched) (ho : opcodeDefined x.desc.opcode = false) (hm : mayStart s x = true) :
    opcodeUndefined j s = refuseJob s x { status := 0x0101, detail := 0x0001 } := by
  simp [opcodeUndefined, hx, hp, ho, hm]
  rfl

end

/-- Settles O6: the cause names the DETAIL of a ring, the access that of a job or of a program, and the opcode its refusal. -/
theorem failuresOfRingsAccessesAndOpcodes : Obligations.FailuresOfRingsAccessesAndOpcodes := by
  refine ⟨fun s n => ?rings, fun s j x hx hp => ?accesses, fun s j x hx hp ho hm => ?opcode⟩
  case rings =>
    intro inError stopped
    exact ⟨fun h => ⟨congrArg (act s) (ringReadFail_ringRead h), congrArg (act s) (ringReadFail_ringTimeout h),
        congrArg (act s) (ringReadFail_ringTranslation h), congrArg (act s) (ringReadFail_cplTranslation_enabled h)⟩,
      fun h => congrArg (act s) (ringReadFail_cplTranslation_stopped h)⟩
  case accesses =>
    intro porter
    have ofJob (h : ¬porter) (k : DmaCause) := congrArg (act s) (dmaFault_of_job hx hp k h)
    have ofProgram (h : porter) (k : DmaCause) := congrArg (act s) (dmaFault_of_program hx hp k h)
    exact ⟨fun h => ⟨ofJob h .read, ofJob h .write, ofJob h .translation⟩,
      fun h => ⟨ofProgram h .read, ofProgram h .write, ofProgram h .translation⟩⟩
  case opcode => exact congrArg (act s) (opcodeUndefined_refused hx hp ho hm)

/-! ### D3hot and D0 (R54) -/

theorem d3hotEntry_of_d0 (h : s.pcie.d3hot = false) :
    d3hotEntry s = disableDqs (resetEveryPitch .d3hot { s with pcie := { s.pcie with d3hot := true } }) :=
  if_neg (by simp [h])

/-- Settles O10: from D0 the entry resets the pitches and disables the delivery queues, and the return sends every pending message. -/
theorem powerStatesOfTheFunction : Obligations.PowerStatesOfTheFunction :=
  fun s => ⟨fun h => congrArg (act s) (d3hotEntry_of_d0 h), rfl⟩

/-! ### Closed windows (R54) -/

section
variable (h : windowsOpen s = false)
include h

theorem sqPi_closed (p : BitVec 8) (l : BitVec 6) (v : BitVec 32) : sqPi p l v s = s := by
  unfold sqPi
  split
  · rfl
  · exact if_pos (.inl h)

theorem cqCi_closed (p : BitVec 8) (l : BitVec 6) (v : BitVec 32) : cqCi p l v s = s := by
  unfold cqCi
  split
  · rfl
  · exact if_pos (.inl h)

theorem selfReset_closed (p : BitVec 8) (k : BitVec 16) : selfReset p k s = s := if_neg (by simp [h])

theorem exec_intSummaryMaskWrite_closed (v : BitVec 32) : exec (.intSummaryMaskWrite v) s = .next s :=
  congrArg Host.Outcome.next (if_neg (by simp [h]))

end

/-- Settles O44: a write through a closed window reaches nothing, and the doorbells, SELF_RESET and the summary mask look at the windows
themselves. -/
theorem closedWindowsLetNoCommandThrough : Obligations.ClosedWindowsLetNoCommandThrough := by
  intro s ho same
  have closed {c : Instr} (t : State) (e : exec c s = hostAct s t) : same c := e.trans (hostAct_closed ho t)
  refine ⟨fun hv => (settle_self s).trans (endVisit_none hv), fun n => ?queues,
    fun p l v => ⟨congrArg (act s) (sqPi_closed ho p l v), congrArg (act s) (cqCi_closed ho p l v)⟩, fun p b => ?pitches,
    fun off bs => ?crates, fun c w => ?channels, fun d => ?deliveryQueues, fun e w => ?device, fun b k v x => ?stream⟩
  case queues => exact ⟨closed _ rfl, closed _ rfl, closed _ rfl, closed _ rfl⟩
  case pitches =>
    exact ⟨closed _ rfl, closed _ rfl, closed _ rfl, closed _ rfl, closed _ rfl, closed _ rfl, closed _ rfl,
      fun k => congrArg (act s) (selfReset_closed ho p k)⟩
  case crates => exact ⟨closed _ rfl, closed _ rfl⟩
  case channels => exact ⟨closed _ rfl, closed _ rfl, closed _ rfl⟩
  case deliveryQueues => exact ⟨closed _ rfl, closed _ rfl, closed _ rfl⟩
  case device => exact ⟨closed _ rfl, closed _ rfl, exec_intSummaryMaskWrite_closed ho w, closed _ rfl, closed _ rfl⟩
  case stream =>
    exact ⟨closed _ rfl, closed _ rfl, closed _ rfl, closed _ rfl, closed _ rfl, closed _ rfl, closed _ rfl, closed _ rfl, closed _ rfl⟩

/-! ### Every command answers (R71) -/

/-- Settles O37: every command answers a next state that keeps the waiting commands. -/
theorem everyCommandAnswersANextState : Obligations.EveryCommandAnswersANextState := fun c s =>
  have ⟨t, answers, keeps⟩ := exec_ok c s
  ⟨t, answers, keeps.kept.pending⟩

end Sys2Proof.Machine
end

section
/-! SUPPORT. The crates (R79 to R82, R86): what COMMIT comes to for a crate that is assigned or taken back, what one flag byte does by the
table of R82, and where the bytes of the host's data go; and from them the statement about the crates. -/
namespace Sys2Proof.Machine

variable {s : State}

/-! ### COMMIT (R86) -/

/-- The state in which the selected crate is neither assigned nor holds data. -/
def selectedFreed (s : State) : State := zeroCrate (s.setCrate s.crates.selShadow.toNat none) s.crates.selShadow.toNat

/-- The committed PITCH of the selected crate as it is kept while the crate is not assigned. -/
def parkSelected (s : State) (p : BitVec 8) (t : State) : State :=
  { t with crates := { t.crates with parked := Tab.set 0#8 s.crates.selShadow.toNat p t.crates.parked } }

section
variable (on : s.crates.assignedShadow = true) (out : s.crate s.crates.selShadow.toNat = none)
  (idle : crateRefs s s.crates.selShadow.toNat = 0)
include on out idle

theorem crateCommit_absent (h : (s.pitch s.crates.pitchShadow).state = .absent) : crateCommit s = crateRefuse s 0x0E41 := by
  simp [crateCommit, on, out, idle, h]

variable (present : (s.pitch s.crates.pitchShadow).state ≠ .absent)
include present

theorem crateCommit_notGranted (h : grant (selectedFreed s) .crates s.crates.pitchShadow 1 ≠ .granted) :
    crateCommit s = crateRefuse s 0x0E42 := by
  unfold selectedFreed at h
  simp [crateCommit, on, out, idle, present, h]

theorem crateCommit_granted (h : grant (selectedFreed s) .crates s.crates.pitchShadow 1 = .granted) :
    crateCommit s = parkSelected s 0 ((selectedFreed s).setCrate s.crates.selShadow.toNat
      (some { pitch := s.crates.pitchShadow, flag := 0, returning := false })) := by
  unfold selectedFreed at h
  simp only [crateCommit, on, out, idle, present, h]
  rfl

end

section
variable {c : Crate} (hc : s.crate s.crates.selShadow.toNat = some c)
include hc

theorem crateCommit_same (on : s.crates.assignedShadow = true) (h : c.pitch = s.crates.pitchShadow) : crateCommit s = s := by
  simp [crateCommit, on, hc, h]

variable (off : s.crates.assignedShadow = false)
include off

theorem crateCommit_inUse (h : c.flag = 1 ∨ crateRefs s s.crates.selShadow.toNat ≠ 0) : crateCommit s = crateRefuse s 0x0E40 := by
  have inUse : (c.flag == 1 || crateRefs s s.crates.selShadow.toNat != 0) = true := by simpa using h
  simp only [crateCommit, hc, off, inUse, Bool.false_and, Bool.false_eq_true, if_false, if_true]

theorem crateCommit_takenBack (device : c.flag ≠ 1) (idle : crateRefs s s.crates.selShadow.toNat = 0) :
    crateCommit s = parkSelected s s.crates.pitchShadow (selectedFreed s) := by
  have notInUse : (c.flag == 1 || crateRefs s s.crates.selShadow.toNat != 0) = false := by
    rw [beq_false_of_ne device, idle]
    rfl
  simp only [crateCommit, hc, off, notInUse, Bool.false_and, Bool.false_eq_true, false_and, if_false]
  rfl

end

/-! ### Flag bytes (R80, R82) -/

/-- Within a pitch's page every byte of a write is a flag byte. -/
theorem flagBytes_eq_foldl (p : BitVec 8) (k j : Nat) (bs : Bytes) (s : State) (h : k + j + bs.length ≤ 2048) :
    flagBytes p (k + j) bs s = ((List.range' j bs.length).zip bs).foldl (fun t e => flagByte p (k + e.1) e.2 t) s := by
  induction bs generalizing j s with
  | nil => rfl
  | cons v bs ih =>
    rw [List.length_cons] at h
    rw [flagBytes, if_pos (by omega), List.length_cons, List.range'_succ, List.zip_cons_cons, List.foldl_cons]
    exact ih (j + 1) _ (by omega)

/-- An aligned write of 4 or 8 bytes stays within the page. -/
theorem flagBytes_aligned (p : BitVec 8) (k : BitVec 11) {bs : Bytes}
    (h : bs.length = 4 ∧ k.toNat % 4 = 0 ∨ bs.length = 8 ∧ k.toNat % 8 = 0) :
    flagBytes p k.toNat bs s = ((List.range bs.length).zip bs).foldl (fun t e => flagByte p (k.toNat + e.1) e.2 t) s := by
  rw [List.range_eq_range']
  exact flagBytes_eq_foldl p k.toNat 0 bs s (by omega)

section
variable {p : BitVec 8} {n : Nat} {v : Byte}

theorem flagByte_of_unassigned (h : s.crate n = none) : flagByte p n v s = s := by simp only [flagByte, h]

section
variable {c : Crate} (hc : s.crate n = some c)
include hc

theorem flagByte_ignored (h : c.pitch ≠ p ∨ v = 0xFF ∨ v = c.flag) : flagByte p n v s = s := by
  simp only [flagByte, hc, if_pos h]

variable (own : c.pitch = p)
include own

theorem flagByte_toDevice (h : c.flag = 0 ∨ c.flag = 2) : flagByte p n 1 s = s.setCrate n (some { c with flag := 1 }) := by
  have changes : (1 : Byte) ≠ c.flag := by obtain h | h := h <;> rw [h] <;> decide
  have heard : ¬(c.pitch ≠ p ∨ (1 : Byte) = 0xFF ∨ 1 = c.flag) := not_or.mpr ⟨not_not_intro own, not_or.mpr ⟨by decide, changes⟩⟩
  simp only [flagByte, hc, if_neg heard, h, and_self, if_true]

theorem flagByte_toHost (h : c.flag = 2) : flagByte p n 0 s = s.setCrate n (some { c with flag := 0 }) := by
  simp [flagByte, hc, own, h]

theorem flagByte_asksReturn (h : c.flag = 1) :
    flagByte p n 2 s = completeReturns (s.setCrate n (some { c with returning := true })) := by
  simp [flagByte, hc, own, h]

theorem flagByte_clearsPoison (h : c.flag = 0x0F) :
    flagByte p n 0 s = (zeroCrate s n).setCrate n (some { c with flag := 0 }) := by
  simp [flagByte, hc, own, h]

theorem flagByte_rejected (noEffect : v ≠ 0xFF) (changes : v ≠ c.flag) (h1 : ¬(v = 1 ∧ (c.flag = 0 ∨ c.flag = 2)))
    (h0 : ¬(v = 0 ∧ (c.flag = 2 ∨ c.flag = 0x0F))) (h2 : ¬(v = 2 ∧ c.flag = 1)) : flagByte p n v s = flagReject s := by
  have toDevice : ¬((c.flag = 0 ∨ c.flag = 2) ∧ v = 1) := fun h => h1 h.symm
  have toHost : ¬(c.flag = 2 ∧ v = 0) := fun h => h0 ⟨h.2, .inl h.1⟩
  have asksReturn : ¬(c.flag = 1 ∧ v = 2) := fun h => h2 h.symm
  have clearsPoison : ¬(c.flag = 0x0F ∧ v = 0) := fun h => h0 ⟨h.2, .inr h.1⟩
  have heard : ¬(c.pitch ≠ p ∨ v = 0xFF ∨ v = c.flag) := not_or.mpr ⟨not_not_intro own, not_or.mpr ⟨noEffect, changes⟩⟩
  simp only [flagByte, hc, if_neg heard, if_neg toDevice, if_neg toHost, if_neg asksReturn, if_neg clearsPoison]

end
end

/-! ### Data (R81) -/

section
variable {off : BitVec 23} {data : Bytes} (inside : off.toNat + data.length ≤ 0x800000)
include inside

theorem take_inside : data.take (0x800000 - off.toNat) = data := List.take_of_length_le (by omega)

theorem crateDataWrite_open (h : ∀ n ∈ crateRange off.toNat data.length, crateOpen s n = true) :
    crateDataWrite off data s = crateBytes off.toNat data s := by
  have noneClosed : (crateRange off.toNat data.length).any (fun n => !crateOpen s n) = false := by simpa using h
  simp only [crateDataWrite, take_inside inside, noneClosed, Bool.false_eq_true, if_false]

theorem crateDataWrite_closed (h : ∃ n ∈ crateRange off.toNat data.length, crateOpen s n = false) :
    let t := crateBytes off.toNat data s
    crateDataWrite off data s = { t with crates := { t.crates with dropInt := true, drops := satAdd t.crates.drops 1 } } := by
  have oneClosed : (crateRange off.toNat data.length).any (fun n => !crateOpen s n) = true := by simpa using h
  simp only [crateDataWrite, take_inside inside, oneClosed, if_true]

end

/-- Each byte of a range lies in a crate of the range. -/
theorem mem_crateRange {a k i : Nat} (h : i < k) : (a + i) / 4096 ∈ crateRange a k := by
  rw [crateRange, if_neg (by omega)]
  exact List.mem_map.mpr ⟨(a + i) / 4096 - a / 4096, List.mem_range.mpr (by omega), by omega⟩

theorem crateOpen_writeCrates (a n : Nat) (bs : Bytes) : crateOpen (writeCrates s a bs) n = crateOpen s n := rfl

theorem writeCrates_cons (a : Nat) (v : Byte) (bs : Bytes) :
    writeCrates (writeCrates s a [v]) (a + 1) bs = writeCrates s a (v :: bs) := rfl

/-- Where every byte falls on an open crate, the write is one write of the memory of the crates. -/
theorem crateBytes_eq_writeCrates (a : Nat) (data : Bytes) (h : ∀ i < data.length, crateOpen s ((a + i) / 4096) = true) :
    crateBytes a data s = writeCrates s a data := by
  induction data generalizing a s with
  | nil => rfl
  | cons v data ih =>
    have first : crateByte s a v = writeCrates s a [v] := if_pos (h 0 (Nat.succ_pos _))
    rw [crateBytes, first, ih (a + 1) (fun i hi => ?_), writeCrates_cons]
    rw [crateOpen_writeCrates, Nat.add_assoc, Nat.add_comm 1 i]
    exact h (i + 1) (Nat.succ_lt_succ hi)

theorem endVisit_eq (s : State) : ∃ a, endVisit s = { s with arb := a } := by
  unfold endVisit
  split
  · exact ⟨s.arb, rfl⟩
  · split
    · exact ⟨s.arb, rfl⟩
    · exact ⟨_, rfl⟩

/-- What follows every command sends a message or ends a visit of the fetcher, and touches nothing else (R34, R68). -/
theorem settle_eq (s t : State) : ∃ p o a, settle s t = { t with pcie := p, out := o, arb := a } := by
  unfold settle
  split
  · obtain ⟨p, o, sent⟩ := msixSend_eq 0 t
    obtain ⟨a, ended⟩ := endVisit_eq (msixSend 0 t)
    exact ⟨p, o, a, by rw [ended, sent]⟩
  · obtain ⟨a, ended⟩ := endVisit_eq t
    exact ⟨t.pcie, t.out, a, ended⟩

@[simp] theorem settle_host (s t : State) : (settle s t).host = t.host := by
  obtain ⟨_, _, _, e⟩ := settle_eq s t
  rw [e]

@[simp] theorem settle_crates (s t : State) : (settle s t).crates = t.crates := by
  obtain ⟨_, _, _, e⟩ := settle_eq s t
  rw [e]

/-! ### The statement -/

/-- Settles O11: COMMIT by the crate's assignment, each flag byte by the crate's flag, and the data by the crates that it falls on. -/
theorem cratesAreGrantedAndWritten : Obligations.CratesAreGrantedAndWritten := by
  have given {c : Instr} {s t u : State} (ho : windowsOpen s = true) (e : exec c s = hostAct s t) (h : t = u) :
      exec c s = .next (settle s u) := e.trans ((hostAct_open ho t).trans (congrArg (act s) h))
  refine ⟨fun s ho => ⟨?commit, fun p k bs h => given ho rfl (flagBytes_aligned p k h), fun p n v => ?flag, fun off data inside => ?data⟩,
    fun s off data ho wf inside h => ?bytes⟩
  case commit =>
    intro n free park refused
    exact ⟨fun on out idle => ⟨fun h => given ho rfl (crateCommit_absent on out idle h),
        fun present h => given ho rfl (crateCommit_notGranted on out idle present h),
        fun present h => given ho rfl (crateCommit_granted on out idle present h)⟩,
      fun c hc => ⟨fun on h => given ho rfl (crateCommit_same hc on h),
        fun off => ⟨fun h => given ho rfl (crateCommit_inUse hc off h),
          fun device idle => given ho rfl (crateCommit_takenBack hc off device idle)⟩⟩⟩
  case flag =>
    exact ⟨flagByte_of_unassigned, fun c hc => ⟨flagByte_ignored hc, fun own => ⟨flagByte_toDevice hc own, flagByte_toHost hc own,
      flagByte_asksReturn hc own, flagByte_clearsPoison hc own, flagByte_rejected hc own⟩⟩⟩
  case data =>
    exact ⟨fun h => given ho rfl (crateDataWrite_open inside h), fun h => given ho rfl (crateDataWrite_closed inside h)⟩
  case bytes =>
    have write : crateDataWrite off data s = writeCrates s off.toNat data :=
      (crateDataWrite_open inside h).trans (crateBytes_eq_writeCrates _ _ fun i hi => h _ (mem_crateRange hi))
    refine ⟨_, given ho rfl write, settle_host s _, ?_⟩
    rw [settle_crates]
    exact Tab.get_write data off.toNat wf.2

end Sys2Proof.Machine
end

section
/-! SUPPORT. The Porter (R87 to R97): the registers of a channel, the six instructions of a program, the units of a MOVE and the reads of a
WAIT; and from them the statement about the channels. -/
namespace Sys2Proof.Machine

variable {s : State} {c : BitVec 6} {r : PRun}

/-! ### The registers of a channel (R87 to R89, R97) -/

section
variable (idle : (s.chan c).run = none)
include idle

theorem channelCommit_accepted (size : (s.chan c).shadow.progLen.toNat ≤ 64)
    (present : (s.chan c).shadow.assigned = false ∨ (s.pitch (s.chan c).shadow.pitch).state ≠ .absent) :
    channelCommit c s = s.setChan c { s.chan c with
      cfg := (s.chan c).shadow, unread := if (s.chan c).shadow.pitch = (s.chan c).cfg.pitch then (s.chan c).unread else none } := by
  have notAbsent : ¬((s.chan c).shadow.assigned = true ∧ (s.pitch (s.chan c).shadow.pitch).state = .absent) :=
    fun ⟨on, absent⟩ => present.elim (fun off => Bool.false_ne_true (off.symm.trans on)) (fun h => h absent)
  simp only [channelCommit, idle, Option.isSome_none, Bool.false_eq_true, if_neg notAbsent, if_neg (Nat.not_lt.mpr size), if_false]

variable (on : (s.chan c).cfg.assigned = true) (long : (s.chan c).cfg.progLen ≠ 0)
include on long

theorem channelStart_runs {p : List PInsn} (hp : pProgram (registeredProgram c s) = .inr p) :
    channelStart c .ok s = pStart c p none s := by
  simp only [channelStart, idle, on, if_neg long, hp, Option.isSome_none, Bool.true_eq_false, Bool.false_eq_true, reduceCtorEq,
    or_self, if_false]

theorem channelStart_unread {a : Access} (h : a = .readFails ∨ a = .translationFails) :
    channelStart c a s = s.setChan c { s.chan c with errInt := true, endDetail := accessDetail a } := by
  simp only [channelStart, idle, on, if_neg long, if_pos h, Option.isSome_none, Bool.true_eq_false, Bool.false_eq_true, if_false]

end

section
variable (hr : (s.chan c).run = some r)
include hr

theorem porterStop_ends (moving : r.moving = none) (signalling : r.signalling = false) :
    porterStop c [] s = pEnd c r stAborted 0x0E31 0 s := by
  have still : ¬(r.moving.isSome = true ∨ r.signalling = true) := by simp [moving, signalling]
  simp only [porterStop, hr, List.append_nil, if_neg still]

theorem porterStop_waits (h : r.moving.isSome = true ∨ r.signalling = true) :
    porterStop c [] s = setRun c { r with stopping := true } s := by
  simp [porterStop, hr, h]

end

/-! ### Instructions (R90 to R94) -/

/-- The state in which a channel performs the instruction that its run is at: the index stands in PC_LAST (R88). -/
def atInstruction (c : BitVec 6) (r : PRun) (s : State) : State :=
  s.setChan c { s.chan c with lastIndex := BitVec.ofNat 6 r.pc }

/-- With no failed access, there is nothing that the read-back of R93 could find. -/
theorem readBackFails_ok (r : PRun) : readBackFails r .ok = false := by simp [readBackFails]

section
variable (hr : (s.chan c).run = some r) (still : r.moving = none) (ready : r.waiting = false)
include hr still ready

theorem porterInstruction_move {sc dc swap len src dst ss ds} (h : r.prog[r.pc]? = some (.move sc dc swap len src dst ss ds)) :
    porterInstruction c .ok s = moveStart c r sc dc swap len src dst ss ds (atInstruction c r s) := by
  simp [porterInstruction, hr, still, ready, h, atInstruction]

theorem porterInstruction_loop {count body} (h : r.prog[r.pc]? = some (.loop count body)) :
    porterInstruction c .ok s =
      if count = 0 then setRun c (pNext r (r.pc + body.toNat)) (atInstruction c r s)
      else setRun c
        { r with pc := r.pc + 1,
                 loops := { first := r.pc + 1, last := r.pc + body.toNat, iter := 0, count := count.toNat } :: r.loops }
        (atInstruction c r s) := by
  simp [porterInstruction, hr, still, ready, h, atInstruction]

theorem porterInstruction_wait {cond timeout addr value mask} (h : r.prog[r.pc]? = some (.wait cond timeout addr value mask)) :
    porterInstruction c .ok s =
      if waitTest c cond addr value mask (atInstruction c r s) = true then setRun c (pNext r r.pc) (atInstruction c r s)
      else if timeout = 0 then pEnd c r stAborted 0x0E30 0 (atInstruction c r s)
      else setRun c { r with waiting := true } (atInstruction c r s) := by
  simp [porterInstruction, hr, still, ready, h, atInstruction]

theorem porterInstruction_signal {wr irq value addr} (h : r.prog[r.pc]? = some (.signal wr irq false value addr 0 0))
    (fresh : r.signalling = false) (back : r.awaiting = []) (goes : r.stopping = false) :
    porterInstruction c .ok s = signalEnd c { r with lastWrite := none } wr irq value addr .ok (atInstruction c r s) := by
  simp [porterInstruction, hr, still, ready, h, fresh, back, goes, readBackFails_ok, signalGo, atInstruction]

theorem porterInstruction_fence (h : r.prog[r.pc]? = some .fence) :
    porterInstruction c .ok s = setRun c (pNext { r with lastWrite := none } r.pc) (atInstruction c r s) := by
  simp [porterInstruction, hr, still, ready, h, readBackFails_ok, atInstruction]

theorem porterInstruction_fin {value} (h : r.prog[r.pc]? = some (.fin value)) :
    porterInstruction c .ok s = pEnd c r stOk 0 value (atInstruction c r s) := by
  simp [porterInstruction, hr, still, ready, h, readBackFails_ok, atInstruction]

end

/-! ### Units of a MOVE (R92) -/

/-- The state in which a channel's turn is marked. -/
def inTurn (c : BitVec 6) (s : State) : State := { s with arb := { s.arb with lastMover := some c } }

/-- The number of bytes of a MOVE's next unit. -/
def unitLen (m : PMove) : Nat := min 512 (m.len - m.done)

/-- The bytes of a MOVE's next unit, swapped on their way. -/
def unitData (s : State) (p : BitVec 8) (m : PMove) : Bytes :=
  swapBytes m.swap (if m.srcCrate then readCrates s (m.src + m.done) (unitLen m) else readHost s p (m.src + m.done) (unitLen m))

/-- The state after a unit's bytes have reached their destination. -/
def unitWritten (s : State) (p : BitVec 8) (m : PMove) : State :=
  if m.dstCrate then writeCrates s (m.dst + m.done) (unitData s p m) else writeHost s p (m.dst + m.done) (unitData s p m)

/-- A channel's count of bytes after the unit. -/
def unitCounted (c : BitVec 6) (m : PMove) (t : State) : State :=
  t.setChan c { t.chan c with bytes := (t.chan c).bytes + BitVec.ofNat 64 (unitLen m) }

/-- The state after a unit of a channel's MOVE. -/
def unitMoved (c : BitVec 6) (m : PMove) (s : State) : State :=
  unitCounted c m (unitWritten (inTurn c s) ((inTurn c s).chan c).cfg.pitch m)

/-- A run after a unit of its MOVE: what it wrote last to host memory (R93). -/
def unitRun (r : PRun) (m : PMove) : PRun :=
  { r with lastWrite := if m.dstCrate then r.lastWrite else some (m.dst + m.done + unitLen m - 1) }

theorem porterMoveUnit_eq {m : PMove} (hr : (s.chan c).run = some r) (hm : r.moving = some m) (goes : r.stopping = false)
    (turn : moverNext s = some c.toNat) :
    porterMoveUnit c .ok s =
      if m.done + unitLen m < m.len then
        setRun c { unitRun r m with moving := some { m with done := m.done + unitLen m } } (unitMoved c m s)
      else completeReturns (setRun c (pNext (unitRun r m) (unitRun r m).pc) (unitMoved c m s)) := by
  rw [porterMoveUnit, if_neg (not_not_intro turn)]
  extract_lets _ u
  have run : (u.chan c).run = some r := hr
  have noFailure (crate : Bool) : (!crate && (Access.ok == .readFails || Access.ok == .translationFails)) = false ∧
      (!crate && (Access.ok == .writeFails || Access.ok == .translationFails)) = false := by cases crate <;> decide
  simp only [run, hm, if_neg (Bool.eq_false_iff.mp goes), noFailure, Bool.or_self, Bool.false_eq_true, if_false]
  rfl

/-! ### Reads of a WAIT (R94) -/

theorem porterWaitPoll_eq {expired : Bool} {cond timeout addr value mask} (hr : (s.chan c).run = some r) (waits : r.waiting = true)
    (h : r.prog[r.pc]? = some (.wait cond timeout addr value mask)) :
    porterWaitPoll c expired .ok s =
      if waitTest c cond addr value mask s = true then setRun c (pNext r r.pc) s
      else if expired = true then pEnd c r stAborted 0x0E30 0 s else s := by
  simp [porterWaitPoll, hr, waits, h]

/-! ### The statement -/

/-- Settles O12: a channel's register command by its run, each instruction by its opcode, and a MOVE and a WAIT by what is left of them. -/
theorem porterChannelsRunTheirPrograms : Obligations.PorterChannelsRunTheirPrograms := by
  refine ⟨fun s c ho => ?registers, fun s c r hr still ready => ?instructions,
    fun s c r m hr hm goes turn => ?unit, fun s c r expired cond timeout addr value mask hr waits h => ?poll⟩
  case registers =>
    intro x
    have given {i : Instr} {t u : State} (e : exec i s = hostAct s t) (h : t = u) : exec i s = .next (settle s u) :=
      e.trans ((hostAct_open ho t).trans (congrArg (act s) h))
    exact ⟨fun idle size present => given rfl (channelCommit_accepted idle size present),
      fun p idle on long hp => given rfl (channelStart_runs idle on long hp),
      fun idle on long => ⟨given rfl (channelStart_unread idle on long (.inl rfl)),
        given rfl (channelStart_unread idle on long (.inr rfl))⟩,
      fun r hr moving signalling => given rfl (porterStop_ends hr moving signalling),
      fun r hr h => given rfl (porterStop_waits hr h)⟩
  case instructions =>
    intro u
    exact ⟨fun sc dc swap len src dst ss ds h => congrArg (act s) (porterInstruction_move hr still ready h),
      fun body h => congrArg (act s) ((porterInstruction_loop hr still ready h).trans (if_pos rfl)),
      fun count body h round => congrArg (act s) ((porterInstruction_loop hr still ready h).trans (if_neg round)),
      fun cond timeout addr value mask h =>
        ⟨fun met => congrArg (act s) ((porterInstruction_wait hr still ready h).trans (if_pos met)),
          fun unmet time => congrArg (act s) ((porterInstruction_wait hr still ready h).trans
            ((if_neg (Bool.eq_false_iff.mp unmet)).trans (if_neg time)))⟩,
      fun wr irq value addr h fresh back goes => congrArg (act s) (porterInstruction_signal hr still ready h fresh back goes),
      fun h => congrArg (act s) (porterInstruction_fence hr still ready h),
      fun value h => congrArg (act s) (porterInstruction_fin hr still ready h)⟩
  case unit =>
    intro s' p k data t u r'
    have moved := porterMoveUnit_eq hr hm goes turn
    exact ⟨fun more => congrArg (act s) (moved.trans (if_pos more)),
      fun last => congrArg (act s) (moved.trans (if_neg (Nat.not_lt.mpr last)))⟩
  case poll =>
    have read {e : Bool} := porterWaitPoll_eq (expired := e) hr waits h
    exact ⟨fun met => congrArg (act s) (read.trans (if_pos met)),
      fun unmet => ⟨congrArg (act s) (read.trans ((if_neg (Bool.eq_false_iff.mp unmet)).trans (if_pos rfl))),
        congrArg (act s) (read.trans ((if_neg (Bool.eq_false_iff.mp unmet)).trans (if_neg Bool.false_ne_true)))⟩⟩

end Sys2Proof.Machine
end

section
/-! SUPPORT. The pitch table (R98 to R113): an entry read back once it is written, what each command of the table comes to where its
checks let it through, how a pitch reset begins and in what state it leaves the entry, and the dirty-page bits of a write; and from them
the statements about the pitches. -/
namespace Sys2Proof.Machine

variable {s : State} {p : BitVec 8}

/-! ### An entry of the table -/

@[simp] theorem settle_pitch (s t : State) (p : BitVec 8) : (settle s t).pitch p = t.pitch p := by
  obtain ⟨_, _, _, e⟩ := settle_eq s t
  rw [e]
  rfl

@[simp] theorem signal_pitch (v : BitVec 11) (s : State) (p : BitVec 8) : (signal v s).pitch p = s.pitch p := by
  obtain ⟨_, _, e⟩ := signal_eq v s
  rw [e]
  rfl

@[simp] theorem note_pitch (ev : BitVec 16) (q : Option (BitVec 8)) (detail : Bytes) (s : State) (p : BitVec 8) :
    (note ev q detail s).pitch p = s.pitch p := by
  obtain ⟨_, e⟩ := note_eq ev q detail s
  rw [e]
  rfl

section
variable {x : Pitch}

theorem pitch_setPitch_of_present (h : x.state ≠ .absent) : (s.setPitch p x).pitch p = x :=
  Tab.get_set_same _ x _ (fun e => h (congrArg Pitch.state e))

theorem pitch_setPitch_of_event (h : x.eventInt = true) : (s.setPitch p x).pitch p = x :=
  Tab.get_set_same _ x _ (fun e => Bool.false_ne_true ((congrArg Pitch.eventInt e).symm.trans h))

end

/-! ### The commands of the table (R100, R101, R111 to R113) -/

/-- A command of the host whose operation comes to a state settles that state. -/
theorem hostAct_of_eq (ho : windowsOpen s = true) {t u : State} (h : t = u) : hostAct s t = .next (settle s u) :=
  (hostAct_open ho t).trans (congrArg (act s) h)

theorem pitchCommit_accepted (h : pitchCommitBad s p = none) :
    pitchCommit p s =
      s.setPitch p { s.pitch p with cfg := (s.pitch p).shadow, state := boundState (s.pitch p).state (s.pitch p).shadow.bound } := by
  simp only [pitchCommit, h]

section
variable (h : (s.pitch p).state = .active)
include h

theorem freeze_e2 (e2 : s.e1 = false) : freeze p s = s.setPitch p { s.pitch p with state := .freezing } := by
  have after : (s.setPitch p { s.pitch p with state := .freezing }).e1 = false := e2
  simp only [freeze, h, after, Bool.false_eq_true, if_false]

/-- In EPOCH 1 the jobs of the pitch that have not started end with the freeze (R111). -/
theorem freeze_e1 (e1 : s.e1 = true) :
    freeze p s = (s.jobs.filter (fun y => y.pitch = p ∧ notStarted y)).foldl (fun t y => breakJob t y stAborted 0x0022)
      (s.setPitch p { s.pitch p with state := .freezing }) := by
  have after : (s.setPitch p { s.pitch p with state := .freezing }).e1 = true := e1
  simp only [freeze, h, after, if_true, State.setPitch_jobs]

end

theorem pitchFrozen_drained (h : (s.pitch p).state = .freezing) (drained : pitchDrained s p = true) :
    pitchFrozen p s = s.setPitch p { s.pitch p with state := .frozen, eventInt := true } :=
  if_pos ⟨h, drained⟩

theorem thaw_accepted (h : (s.pitch p).state = .freezing ∨ ((s.pitch p).state = .frozen ∧ exporting s p = false)) :
    thaw p s = s.setPitch p { s.pitch p with state := .active } := by
  obtain freezing | ⟨frozen, stays⟩ := h
  · simp only [thaw, freezing]
  · simp only [thaw, frozen, stays, Bool.false_eq_true, if_false]

theorem logEnable_accepted (h : (s.pitch p).state = .active ∨ (s.pitch p).state = .freezing ∨ (s.pitch p).state = .frozen)
    (e2 : s.e1 = false) (noMig : (s.pitch p).cfg.migMode = false) (pages : (s.pitch p).cfg.logPages ≠ 0)
    (buf0 : (s.pitch p).cfg.logBuf0 ≠ 0) (buf1 : (s.pitch p).cfg.logBuf1 ≠ 0) :
    logEnable p s = s.setPitch p { s.pitch p with logOn := true, logBuf := false, swapPending := false } := by
  have present : (s.pitch p).state ≠ .absent := by obtain h | h | h := h <;> simp [h]
  have serves : ¬((s.pitch p).state ≠ .active ∧ (s.pitch p).state ≠ .freezing ∧ (s.pitch p).state ≠ .frozen) :=
    fun ⟨active, freezing, frozen⟩ => h.elim active (fun h => h.elim freezing frozen)
  simp only [logEnable, if_neg present, if_neg serves, e2, noMig, pages, buf0, buf1, Bool.false_eq_true, or_self, if_false]

theorem logSwapDone_pending (h : (s.pitch p).swapPending = true) :
    logSwapDone p s = s.setPitch p { s.pitch p with swapPending := false, logBuf := !(s.pitch p).logBuf, eventInt := true } :=
  if_pos h

section
variable (present : (s.pitch p).state ≠ .absent)
include present

theorem logSwap_accepted (on : (s.pitch p).logOn = true) (idle : (s.pitch p).swapPending = false) :
    logSwap p s = s.setPitch p { s.pitch p with swapPending := true } :=
  (if_neg present).trans (if_neg (by simp [on, idle]))

theorem logSwap_refused (h : (s.pitch p).swapPending = true) : logSwap p s = pitchRefuse p 0x0F3A s :=
  (if_neg present).trans (if_pos (.inr h))

theorem logDisable_present : logDisable p s = s.setPitch p { s.pitch p with logOn := false, swapPending := false } :=
  if_neg present

end

/-- Settles O8: the conditions of each command take it past its checks to the one change that it makes. -/
theorem pitchTableCommandsTakeEffect : Obligations.PitchTableCommandsTakeEffect := by
  intro s p x
  exact ⟨fun ho h => hostAct_of_eq ho (pitchCommit_accepted h),
    fun ho h e2 => hostAct_of_eq ho (freeze_e2 h e2),
    fun ho h e1 => hostAct_of_eq ho (freeze_e1 h e1),
    fun h drained => congrArg (act s) (pitchFrozen_drained h drained),
    fun ho h => hostAct_of_eq ho (thaw_accepted h),
    fun ho h e2 noMig pages buf0 buf1 => hostAct_of_eq ho (logEnable_accepted h e2 noMig pages buf0 buf1),
    fun ho present on idle => hostAct_of_eq ho (logSwap_accepted present on idle),
    fun h => congrArg (act s) (logSwapDone_pending h),
    fun ho present => hostAct_of_eq ho (logDisable_present present)⟩

/-! ### A reset begins (R101, R106, R109, R110) -/

section
variable (present : (s.pitch p).state ≠ .absent) (serves : (s.pitch p).state ≠ .resetting) (release : Bool) (cause : ResetCause)
include present serves

theorem askReset_begins (h : migrationJob s p = false) : askReset p release cause s = beginReset p release cause s :=
  (if_neg (not_or.mpr ⟨present, serves⟩)).trans (if_neg (Bool.eq_false_iff.mp h))

theorem askReset_waits (h : migrationJob s p = true) :
    askReset p release cause s = s.setPitch p { s.pitch p with resetDue := some release, resetCause := cause } :=
  (if_neg (not_or.mpr ⟨present, serves⟩)).trans (if_pos h)

end

theorem pitchReset_present (h : (s.pitch p).state ≠ .absent) (release : Bool) :
    pitchReset p release s = askReset p release .command s := if_neg h

theorem selfReset_open (h : windowsOpen s = true) : selfReset p 0xA5A5 s = askReset p false .self s := if_pos ⟨rfl, h⟩

/-! ### A reset ends (R106 to R109, R132) -/

/-- The entry of a pitch whose reset has ended (R106 to R108, R110). -/
def resetEntry (x : Pitch) : Pitch :=
  { x with state := if x.cfg.bound then .active else .unbound, logOn := false, swapPending := false, eventInt := true,
           releaseCtx := false, faultReset := x.resetCause == .fault, ppResetDone := true,
           ppFaultReset := x.ppFaultReset || x.resetCause == .fault }

theorem pitchEvent_pitch {migrated resetDone faultReset : Bool} (h : (s.pitch p).eventInt = true) :
    (pitchEvent p migrated resetDone faultReset s).pitch p =
      { s.pitch p with ppMigrated := (s.pitch p).ppMigrated || migrated, ppResetDone := (s.pitch p).ppResetDone || resetDone,
                       ppFaultReset := (s.pitch p).ppFaultReset || faultReset } := by
  unfold pitchEvent
  extract_lets x t
  split
  · exact (signal_pitch ..).trans (pitch_setPitch_of_event h)
  · exact pitch_setPitch_of_event h

/-- Whatever the end of a reset does to the rest, it leaves the pitch's own entry so. -/
theorem endReset_pitch (w : RecordWrite) (h : (s.pitch p).state = .resetting) : ∃ x, (endReset p w s).pitch p = resetEntry x := by
  unfold endReset
  rw [if_neg (not_not_intro h)]
  extract_lets ended disabled halted _ contexts keys restarted x fault back done
  have entry : back.pitch p = { x with
      state := if x.cfg.bound then .active else .unbound, logOn := false, swapPending := false, eventInt := true,
      faultReset := fault, releaseCtx := false } := pitch_setPitch_of_event rfl
  refine ⟨x, (note_pitch ..).trans ?_⟩
  rw [pitchEvent_pitch (congrArg Pitch.eventInt entry), entry]
  simp only [resetEntry, fault, Bool.or_false, Bool.or_true]

theorem pitchResetEnd_ends (h : s.seq.reloading = false) : pitchResetEnd p s = dueResets (endReset p .visible s) :=
  if_neg (Bool.eq_false_iff.mp h)

/-- Settles O9: a migration job that runs decides between a reset now and one later, and the end writes the entry last of all. -/
theorem pitchResetsBeginAndEnd : Obligations.PitchResetsBeginAndEnd := by
  refine ⟨fun s p release present serves => ?begins, fun s p h loaded => ?ends⟩
  case begins =>
    intro later
    have command (ho : windowsOpen s = true) : exec (.pitchReset p release) s = act s (askReset p release .command s) :=
      hostAct_of_eq ho (pitchReset_present present release)
    have own (ho : windowsOpen s = true) : exec (.selfReset p 0xA5A5) s = act s (askReset p false .self s) :=
      congrArg (act s) (selfReset_open ho)
    have begins (h : migrationJob s p = false) (r : Bool) (k : ResetCause) := congrArg (act s) (askReset_begins present serves r k h)
    have waits (h : migrationJob s p = true) (r : Bool) (k : ResetCause) := congrArg (act s) (askReset_waits present serves r k h)
    exact ⟨fun h => ⟨fun ho => (command ho).trans (begins h _ _), fun ho => (own ho).trans (begins h _ _), begins h _ _⟩,
      fun h => ⟨fun ho => (command ho).trans (waits h _ _), fun ho => (own ho).trans (waits h _ _), waits h _ _⟩⟩
  case ends =>
    obtain ⟨x, entry⟩ := endReset_pitch .visible h
    refine ⟨endReset p .visible s, congrArg (act s) (pitchResetEnd_ends loaded), ?_⟩
    rw [entry]
    exact ⟨rfl, rfl, rfl, rfl, rfl, rfl⟩

/-! ### Dirty-page logging (R112, R113) -/

/-- The bits of a logged write go to the buffer that LOG_BUF names, whether or not a page of it lies outside the range. -/
theorem logWrite_host {a k : Nat} (on : (s.pitch p).logOn = true) (hk : k ≠ 0) :
    let x := s.pitch p
    let base := x.cfg.logBase.toNat / 4096
    let lo := max (a / 4096) base
    let hi := min ((a + k - 1) / 4096 + 1) (base + x.cfg.logPages.toNat)
    let buf := hostAddr (s.pitch 0).cfg.pasid (if x.logBuf then x.cfg.logBuf1 else x.cfg.logBuf0).toNat
    (logWrite s p a k).host = markPages s.host buf (lo - base) (hi - lo) := by
  have logs : ¬(((s.pitch p).logOn = false || k = 0) = true) := by simp [on, hk]
  rw [logWrite, if_neg logs]
  exact (apply_ite State.host _ _ _).trans (ite_self _)

/-- Settles O46: the entry between LOG_SWAP and its end, the refusal in between, and the buffer of a logged write. -/
theorem logSwapMovesLoggingToTheOtherBuffer : Obligations.LogSwapMovesLoggingToTheOtherBuffer := by
  refine fun s p present => ⟨fun ho on idle => ?swap, fun ho h => ?second, fun a k on hk => logWrite_host on hk⟩
  case swap =>
    let t := settle s (s.setPitch p { s.pitch p with swapPending := true })
    have pending : t.pitch p = { s.pitch p with swapPending := true } :=
      (settle_pitch ..).trans (pitch_setPitch_of_present present)
    have swapped := logSwapDone_pending (congrArg Pitch.swapPending pending)
    rw [pending] at swapped
    refine ⟨t, hostAct_of_eq ho (logSwap_accepted present on idle), by rw [pending], by rw [pending], by rw [pending],
      settle t (logSwapDone p t), rfl, ?_⟩
    rw [settle_pitch, swapped, pitch_setPitch_of_event rfl]
    exact ⟨rfl, rfl, rfl⟩
  case second => exact hostAct_of_eq ho (logSwap_refused present h)

end Sys2Proof.Machine
end

section
/-! SUPPORT. The statement about the control stores: the records of their errors, the reloads of the tile stores and of the Hall
controller's, and one walk of the scrubber. -/
namespace Sys2Proof.Machine

variable {s : State}

/-! ### An uncorrectable error of a tile's store, and its reload (R127, R130) -/

/-- The error counted, recorded as the last fault and given to the alarm. -/
def storeErrorNoted (t : BitVec 6) (a : BitVec 12) (s : State) : State :=
  trip .storeEcc (unitReading (t.setWidth 8)) { s with seq := { s.seq with
    eccUncorr := satAdd s.seq.eccUncorr 1, sint := s.seq.sint ||| 2, faultAddr := a.setWidth 14, faultHall := false,
    faultTile := t, faultKind := 1 } }

/-- The word has failed before, and its store has been reloaded since. -/
def failedSinceReload (s : State) (t : BitVec 6) (a : BitVec 12) : Bool :=
  (s.tile t).badWords.any (fun b => b.addr == a && b.reloaded)

section
variable {t : BitVec 6} {a : BitVec 12} (serves : (s.tile t).state ≠ .retired)
include serves

theorem storeError_again (again : failedSinceReload s t a = true) :
    storeError false t a s = retireTile t (storeErrorNoted t a s) :=
  (if_neg serves).trans (if_pos again)

theorem storeError_first (first : failedSinceReload s t a = false) :
    storeError false t a s = (let u := storeErrorNoted t a s
      let bad := (u.tile t).badWords.filter (fun b => b.addr != a) ++ [{ addr := a, scrub := u.seq.scrubAt, reloaded := false }]
      reloadTile false t (tileFaultJob 0x0216 t.toNat (u.setTile t { u.tile t with badWords := bad }))) :=
  (if_neg serves).trans (if_neg (Bool.eq_false_iff.mp first))

end

/-- A reload of a tile's store counted. -/
def reloadCounted (s : State) : State := { s with seq := { s.seq with tileReloads := satAdd s.seq.tileReloads 1 } }

section
variable {t : BitVec 6} (reloads : (s.tile t).state = .reloading)
include reloads

theorem reloadDone_agrees (tags : tileTagsOk (reloadCounted s) = true) :
    reloadDone t true s = (reloadCounted s).setTile t
      { s.tile t with state := .idle, flips := [], badWords := (s.tile t).badWords.map (fun b => { b with reloaded := true }) } :=
  (if_neg (not_not_intro reloads)).trans (if_pos tags)

theorem reloadDone_differs (tags : tileTagsOk (reloadCounted s) = false) :
    reloadDone t true s = retireTile t (reloadCounted s) :=
  (if_neg (not_not_intro reloads)).trans (if_neg (Bool.eq_false_iff.mp tags))

theorem reloadDone_lost : reloadDone t false s = retireTile t (reloadCounted s) :=
  (if_neg (not_not_intro reloads)).trans (if_neg Bool.false_ne_true)

end

/-! ### The scrubber's walk (R128, R133) -/

/-- A fold whose every step leaves the value leaves it. (The model's files import no Mathlib.) -/
theorem foldl_unchanged {α β : Type} {f : α → β → α} {a : α} (h : ∀ b, f a b = a) (l : List β) : l.foldl f a = a := by
  induction l with
  | nil => rfl
  | cons b l ih => rw [List.foldl_cons, h, ih]

theorem unitSyndrome_zero : unitSyndrome 0#72 = 0 :=
  foldl_unchanged (fun _ => by rw [BitVec.getLsbD_zero]; exact if_neg Bool.false_ne_true) _

theorem unitParity_zero : unitParity 0#72 = false :=
  foldl_unchanged (fun _ => by rw [BitVec.getLsbD_zero]; rfl) _

/-- A unit in which no bit has turned has no error. -/
theorem decodeUnit_zero : decodeUnit 0#72 = .clean := by
  simp [decodeUnit, unitSyndrome_zero, unitParity_zero]

section
variable {u : BitVec 13} (a : BitVec 14) (h : Bool) {r : Decoded × State}

theorem readUnit_clean (e : decodeUnit (unitFlips r.2.seq u) = .clean) : readUnit a h r u = r := by
  unfold readUnit
  dsimp only
  rw [e]

theorem readUnit_corrected (e : decodeUnit (unitFlips r.2.seq u) = .corrected) :
    readUnit a h r u =
      (r.1, storeCorrected 0 a h 3 { r.2 with seq := turnUnit u (unitErrorBit (unitFlips r.2.seq u)) r.2.seq }) := by
  unfold readUnit
  dsimp only
  rw [e]

theorem readUnit_uncorrectable (e : decodeUnit (unitFlips r.2.seq u) = .uncorrectable) :
    readUnit a h r u = (.uncorrectable, r.2) := by
  unfold readUnit
  dsimp only
  rw [e]

end

theorem scrubUnit_clean (e : decodeUnit (unitFlips s.seq s.seq.patchAt) = .clean) : scrubUnit s = s := by
  unfold scrubUnit
  dsimp only
  rw [readUnit_clean (r := (.clean, s)) _ _ e]
  exact if_neg nofun

theorem scrubUnit_corrected (e : decodeUnit (unitFlips s.seq s.seq.patchAt) = .corrected) :
    scrubUnit s = (let w := unitAddr s s.seq.patchAt
      storeCorrected 0 w.1 w.2 3 { s with seq := turnUnit s.seq.patchAt (unitErrorBit (unitFlips s.seq s.seq.patchAt)) s.seq }) := by
  unfold scrubUnit
  dsimp only
  rw [readUnit_corrected (r := (.clean, s)) _ _ e]
  exact if_neg nofun

theorem scrubUnit_uncorrectable (e : decodeUnit (unitFlips s.seq s.seq.patchAt) = .uncorrectable) :
    scrubUnit s = (let w := unitAddr s s.seq.patchAt
      patchRamError w.1 w.2 s) := by
  unfold scrubUnit
  dsimp only
  rw [readUnit_uncorrectable (r := (.clean, s)) _ _ e]
  exact if_pos rfl

/-- The scrubber at its next places; a bad word whose place it has come round to is forgotten. -/
def scrubWalked (s : State) : State :=
  { s with
    seq := { s.seq with scrubAt := s.seq.scrubAt + 1, patchAt := s.seq.patchAt + 1 },
    tiles := Tab.mapVals tileInit (fun _ x =>
      { x with badWords := x.badWords.filter (fun b => b.scrub != s.seq.scrubAt + 1) }) s.tiles }

/-- Where no tile has a turned word at the scrubber's place, a tick reads the unit of patch RAM alone. -/
theorem scrubTick_of_no_upset (h : upsetTiles s s.seq.scrubAt = []) : scrubTick [] [] s = scrubWalked (scrubUnit s) := by
  simp only [scrubTick, List.foldl_nil, h]
  rfl

/-! ### The Hall controller's copies, and their reload (R131 to R133) -/

theorem beginReload_starts {a : BitVec 14} (h : s.seq.reloading = false) :
    beginReload a s = { s with seq := { s.seq with reloading := true, attempt := 1, mismatches := 1, mismatchAddr := a } } :=
  if_neg (Bool.eq_false_iff.mp h)

theorem beginReload_goes_on {a : BitVec 14} (h : s.seq.reloading = true) :
    beginReload a s = { s with seq := { s.seq with mismatches := s.seq.mismatches + 1 } } :=
  if_pos h

/-- The end of a reload counted, signalled and recorded (R132). -/
def hallReloadEnded (s : State) : State :=
  noteReload s.seq.mismatches (BitVec.ofNat 8 s.seq.attempt) s.seq.mismatchAddr { s with seq := { s.seq with
    reloading := false, attempt := 0, mismatches := 0, hallReloads := satAdd s.seq.hallReloads 1, sint := s.seq.sint ||| 4 } }

section
variable (reloads : s.seq.reloading = true)
include reloads

theorem hallReloadDone_agrees (hall : hallTagsOk s = true) (patch : patchTagsOk s = true) :
    hallReloadDone true s = hallReloaded (hallReloadEnded s) := by
  simp only [hallReloadDone, hall, patch, reloads]
  rfl

theorem hallReloadDone_repeats (first : s.seq.attempt = 1) :
    hallReloadDone false s = { s with seq := { s.seq with attempt := 2 } } := by
  simp only [hallReloadDone, reloads, first]
  rfl

theorem hallReloadDone_fails (repeated : s.seq.attempt ≠ 1) :
    hallReloadDone false s =
      startFails 0x0B01 (writeFile (fun b => { b with attempts := b.attempts + 1 }) (hallReloadEnded s)) := by
  simp only [hallReloadDone, reloads, repeated]
  rfl

end

/-! ### The statement -/

/-- Settles O18: the tile's earlier errors and the tags decide a tile store, what the unit of patch RAM decodes to decides the walk, and
the reload in progress and its attempt decide the Hall controller's copies. -/
theorem controlStoreErrorsAreRepaired : Obligations.ControlStoreErrorsAreRepaired := by
  refine ⟨fun s t a serves => ⟨fun again => ?retired, fun first => ?moved⟩,
    fun s t reloads => ⟨fun tags => ?agrees, fun tags => ?differs, ?lost⟩,
    fun s upright => ⟨fun e => ?clean, fun e => ?corrected, fun e => ?uncorrectable⟩,
    fun s a => ⟨fun h => ?starts, fun h => ?goesOn⟩,
    fun s reloads => ⟨fun hall patch => ?reloaded, fun first => ?repeated, fun again => ?failed⟩⟩
  case retired => exact congrArg (act s) (storeError_again serves again)
  case moved => exact congrArg (act s) (storeError_first serves first)
  case agrees => exact congrArg (act s) (reloadDone_agrees reloads tags)
  case differs => exact congrArg (act s) (reloadDone_differs reloads tags)
  case lost => exact congrArg (act s) (reloadDone_lost reloads)
  case clean =>
    have unit := scrubUnit_clean ((congrArg decodeUnit e).trans decodeUnit_zero)
    exact congrArg (act s) ((scrubTick_of_no_upset upright).trans (congrArg scrubWalked unit))
  case corrected => exact congrArg (act s) ((scrubTick_of_no_upset upright).trans (congrArg scrubWalked (scrubUnit_corrected e)))
  case uncorrectable => exact congrArg (act s) ((scrubTick_of_no_upset upright).trans (congrArg scrubWalked (scrubUnit_uncorrectable e)))
  case starts => exact congrArg (act s) (beginReload_starts h)
  case goesOn => exact congrArg (act s) (beginReload_goes_on h)
  case reloaded => exact congrArg (act s) (hallReloadDone_agrees reloads hall patch)
  case repeated => exact congrArg (act s) (hallReloadDone_repeats reloads first)
  case failed => exact congrArg (act s) (hallReloadDone_fails reloads again)

end Sys2Proof.Machine
end

section
/-! SUPPORT. The statement about an idle microsecond: what each part of it moves, and when the sequencers have no word to run. -/
namespace Sys2Proof.Machine

variable {s : State}

/-! ### What each part of a microsecond moves -/

theorem optimeSecond_slots (l : Ledger) : (optimeSecond l).slots = l.slots := by
  unfold optimeSecond
  split
  · rfl
  · split <;> rfl

theorem optimeSecond_queue (l : Ledger) : (optimeSecond l).queue = l.queue := by
  unfold optimeSecond
  split
  · rfl
  · split <;> rfl

/-- The operating time moves its counter in the clock, and a second of it the Ledger's. -/
theorem tickOptime_moves (s : State) : ∃ f l, tickOptime s = { s with clock := { s.clock with optFrac := f }, ledger := l } ∧
    l.slots = s.ledger.slots ∧ l.queue = s.ledger.queue := by
  unfold tickOptime
  split
  · exact ⟨_, _, rfl, rfl, rfl⟩
  split
  · exact ⟨_, _, rfl, rfl, rfl⟩
  · exact ⟨_, _, rfl, optimeSecond_slots _, optimeSecond_queue _⟩

/-- The battery seconds move their counter in the clock, and a second of them the battery's. -/
theorem tickBattery_moves (s : State) : ∃ f b, tickBattery s = { s with clock := { s.clock with batFrac := f }, battery := b } ∧
    b.rootKey = s.battery.rootKey ∧ b.lockLatch = s.battery.lockLatch := by
  unfold tickBattery
  split
  · exact ⟨_, _, rfl, rfl, rfl⟩
  · split <;> exact ⟨_, _, rfl, rfl, rfl⟩

/-- The time counter is the part of the process bus that moves with it. -/
theorem tickTime_moves (s : State) : ∃ t, tickTime s = { s with stream := t } ∧
    t.cfg = s.stream.cfg ∧ t.held = s.stream.held ∧ t.ports = s.stream.ports := by
  unfold tickTime
  split <;> exact ⟨_, rfl, rfl, rfl, rfl⟩

/-- A state with what reading rails moves: their values in the alarm, and the free values drawn. -/
def RailsRead (s t : State) : Prop :=
  ∃ now tracked acc d, t = { s with alarm := { s.alarm with railNow := now, railTracked := tracked, railAcc := acc }, draws := d }

theorem RailsRead.refl (s : State) : RailsRead s s := ⟨_, _, _, _, rfl⟩

theorem RailsRead.trans {t u : State} : RailsRead s t → RailsRead t u → RailsRead s u := by
  rintro ⟨_, _, _, _, rfl⟩ ⟨_, _, _, _, rfl⟩
  exact ⟨_, _, _, _, rfl⟩

theorem trackRail_moves (n lo hi mv : Nat) (a : Alarm) :
    ∃ tracked acc, trackRail n lo hi mv a = { a with railTracked := tracked, railAcc := acc } := by
  unfold trackRail
  split <;> exact ⟨_, _, rfl⟩

theorem readRail_railsRead (s : State) (m : Monitor) : RailsRead s (readRail s m) := by
  unfold readRail
  split
  · dsimp only
    split
    · obtain ⟨tracked, acc, e⟩ := trackRail_moves _ _ _ _ s.alarm
      exact ⟨_, _, _, _, by rw [e]⟩
    · obtain ⟨tracked, acc, e⟩ := trackRail_moves _ _ _ _ (drawFree s).2.alarm
      exact ⟨_, _, _, _, by rw [e]; rfl⟩
  · exact .refl s

theorem foldl_readRail_railsRead (ms : List Monitor) (s : State) : RailsRead s (ms.foldl readRail s) := by
  induction ms generalizing s with
  | nil => exact .refl s
  | cons m ms ih => exact (readRail_railsRead s m).trans (ih _)

/-- The rails are read while the part is up, and nothing else moves. -/
theorem tickRails_moves (s : State) : ∃ a d, tickRails s = { s with alarm := a, draws := d } ∧
    { a with railNow := s.alarm.railNow, railTracked := s.alarm.railTracked, railAcc := s.alarm.railAcc } = s.alarm ∧
    (alive s = false → a = s.alarm ∧ d = s.draws) := by
  unfold tickRails
  split
  next up =>
    obtain ⟨now, tracked, acc, d, e⟩ := foldl_readRail_railsRead _ s
    exact ⟨_, d, e, rfl, fun down => absurd up (Bool.eq_false_iff.mp down)⟩
  next => exact ⟨_, _, rfl, rfl, fun _ => ⟨rfl, rfl⟩⟩

/-! ### The sequencers over a microsecond (R119, R129) -/

theorem seqTick_down (h : alive s = false) : seqTick s = s := if_pos h

theorem seqTick_of_no_beat (h : beatsNow s = 0) : seqTick s = s := by
  have tiles : (sequencing s).foldl (fun s t => tileBeats t (beatsNow s) s) s = s :=
    foldl_unchanged (fun t => by rw [h, tileBeats]) _
  have hall : hallBeats (beatsNow s) s = s := by rw [h, hallBeats]
  rw [seqTick, hall, tiles, ite_self]

/-- With no job on a tile, the controller's sequencer runs alone. -/
theorem seqTick_of_no_job (ha : alive s ≠ false) (h : sequencing s = []) : seqTick s = hallBeats (beatsNow s) s := by
  unfold seqTick
  rw [if_neg ha, h, List.foldl_nil]

theorem hallBeat_of_empty (h : s.seq.hallA = []) : hallBeat s = s :=
  if_pos (.inr (List.isEmpty_iff.mpr h))

theorem hallBeats_of_empty (h : s.seq.hallA = []) (n : Nat) : hallBeats n s = s := by
  induction n with
  | zero => rfl
  | succ n ih => rw [hallBeats, hallBeat_of_empty h, ih]

theorem fetchHall_of_equal (same : s.seq.hallA = s.seq.hallB) (unpatched : s.seq.patch = none) :
    ∃ w, fetchHall s = (some w, s) := by
  simp [fetchHall, patchedHall, unpatched, same]

/-- Where the copies agree and nothing is patched, a word moves the sequencer alone. -/
theorem hallBeat_of_equal (same : s.seq.hallA = s.seq.hallB) (unpatched : s.seq.patch = none) :
    ∃ h, hallBeat s = { s with seq := { s.seq with hallSeq := h } } := by
  obtain ⟨w, fetched⟩ := fetchHall_of_equal same unpatched
  unfold hallBeat
  rw [fetched]
  split
  · exact ⟨_, rfl⟩
  · exact ⟨_, rfl⟩

theorem hallBeats_of_equal (n : Nat) (same : s.seq.hallA = s.seq.hallB) (unpatched : s.seq.patch = none) :
    ∃ h, hallBeats n s = { s with seq := { s.seq with hallSeq := h } } := by
  induction n generalizing s with
  | zero => exact ⟨_, rfl⟩
  | succ n ih =>
    obtain ⟨h, first⟩ := hallBeat_of_equal same unpatched
    obtain ⟨k, others⟩ := ih (s := { s with seq := { s.seq with hallSeq := h } }) same unpatched
    exact ⟨k, by rw [hallBeats, first, others]⟩

theorem seqTick_of_no_word (h : alive s = false ∨ beatsNow s = 0 ∨ sequencing s = [] ∧ s.seq.hallA = []) : seqTick s = s := by
  by_cases down : alive s = false
  · exact seqTick_down down
  obtain down' | noBeat | ⟨noJob, noStore⟩ := h
  · exact seqTick_down down'
  · exact seqTick_of_no_beat noBeat
  · rw [seqTick_of_no_job down noJob, hallBeats_of_empty noStore]

theorem seqTick_of_equal (noJob : sequencing s = []) (same : s.seq.hallA = s.seq.hallB) (unpatched : s.seq.patch = none) :
    ∃ h, seqTick s = { s with seq := { s.seq with hallSeq := h } } := by
  by_cases down : alive s = false
  · exact ⟨_, seqTick_down down⟩
  · rw [seqTick_of_no_job down noJob]
    exact hallBeats_of_equal _ same unpatched

/-! ### The microsecond -/

theorem tickKeeper_of_none (h : s.cards.keeper = none) : tickKeeper s = s := by
  unfold tickKeeper
  rw [h]

/-- What passes with a microsecond before the sequencers run (log 20). -/
def clocked (s : State) : State :=
  tickRails (tickEgress (tickTime (tickBattery (tickOptime { s with clock := { s.clock with us := s.clock.us + 1 } }))))

theorem step_idle (h : s.pending = []) : step s = .next (tickKeeper (seqTick (clocked s))) := by
  unfold step
  rw [h]
  rfl

/-- The blocks that the clocks move, each with what they leave of it. -/
theorem clocked_moves (s : State) : ∃ c l b t a d,
    clocked s = { s with clock := c, ledger := l, battery := b, stream := t, alarm := a, draws := d } ∧
    c.us = s.clock.us + 1 ∧
    (l.slots = s.ledger.slots ∧ l.queue = s.ledger.queue) ∧
    (b.rootKey = s.battery.rootKey ∧ b.lockLatch = s.battery.lockLatch) ∧
    (t.cfg = s.stream.cfg ∧ t.held = s.stream.held ∧
      t.ports = s.stream.ports.map (fun p => { p with backlog := p.backlog - lineBytes p.cfg.rate })) ∧
    { a with railNow := s.alarm.railNow, railTracked := s.alarm.railTracked, railAcc := s.alarm.railAcc } = s.alarm ∧
    (alive s = false → a = s.alarm ∧ d = s.draws) := by
  unfold clocked
  generalize hu : ({ s with clock := { s.clock with us := s.clock.us + 1 } } : State) = u
  have optime := tickOptime_moves u
  have battery := tickBattery_moves (tickOptime u)
  have time := tickTime_moves (tickBattery (tickOptime u))
  have rails := tickRails_moves (tickEgress (tickTime (tickBattery (tickOptime u))))
  generalize tickOptime u = v at *
  obtain ⟨f, l, rfl, ledger⟩ := optime
  generalize tickBattery _ = v at *
  obtain ⟨g, b, rfl, file⟩ := battery
  generalize tickTime _ = v at *
  obtain ⟨t, rfl, cfg, held, ports⟩ := time
  obtain ⟨a, d, read, rest, down⟩ := rails
  subst hu
  exact ⟨_, l, b, _, a, d, read, rfl, ledger, file, ⟨cfg, held, congrArg (List.map _) ports⟩, rest, down⟩

/-- Settles O36: the clocks come to a state with the same jobs, stores and pace, from which the sequencers and the keeper's tile go on. -/
theorem idleStepLetsAMicrosecondPass : Obligations.IdleStepLetsAMicrosecondPass := by
  intro s idle
  obtain ⟨c, l, b, t, a, d, e, us, ⟨slots, queue⟩, ⟨rootKey, lockLatch⟩, ⟨cfg, held, ports⟩, rest, down⟩ := clocked_moves s
  refine ⟨clocked s, step_idle idle, ?_⟩
  have still (noKeeper : s.cards.keeper = none) (fixed : seqTick (clocked s) = clocked s) : step s = .next (clocked s) := by
    rw [step_idle idle, fixed, tickKeeper_of_none (by rw [e]; exact noKeeper)]
  rw [e] at still ⊢
  exact ⟨us, rfl, slots, queue, rootKey, lockLatch, cfg, held, ports, rest, down, fun h => seqTick_of_no_word h,
    fun noJob same unpatched => seqTick_of_equal noJob same unpatched, still⟩

end Sys2Proof.Machine
end

section
/-! SUPPORT. The registers of a tile core (R139, R140): a read after a write, of the scalar and of the vector registers, and what stands
of a vector register in its floating-point register; and from them the statement about the three. -/
namespace Sys2Proof.Machine

variable {c : VCore} {n : Nat}

/-! ### Scalar registers (R139) -/

@[simp] theorem VCore.getG_zero (c : VCore) : c.getG 0 = 0 := rfl

@[simp] theorem VCore.setG_zero (c : VCore) (g : BitVec 36) : c.setG 0 g = c := rfl

theorem VCore.getG_setG_of_ne_zero (m : Nat) (g : BitVec 36) (wf : Tab.wf 0#36 c.g = true) (hn : n ≠ 0) :
    (c.setG n g).getG m = if m = n then g else c.getG m := by
  rw [VCore.setG, if_neg hn]
  unfold VCore.getG
  by_cases hm : m = 0
  · rw [if_pos hm, if_pos hm, if_neg (hm ▸ hn.symm)]
  · rw [if_neg hm, if_neg hm]
    exact Tab.get_set n m g wf

theorem VCore.getG_setG_same (g : BitVec 36) (wf : Tab.wf 0#36 c.g = true) (hn : n ≠ 0) : (c.setG n g).getG n = g := by
  rw [getG_setG_of_ne_zero n g wf hn, if_pos rfl]

theorem VCore.getG_setG_other {m : Nat} (g : BitVec 36) (wf : Tab.wf 0#36 c.g = true) (hm : m ≠ n) :
    (c.setG n g).getG m = c.getG m := by
  by_cases hn : n = 0
  · rw [hn, VCore.setG_zero]
  · rw [getG_setG_of_ne_zero m g wf hn, if_neg hm]

/-! ### Vector registers, and the floating-point registers in them (R140) -/

theorem VCore.getW_setW (m : Nat) (w : BitVec 4608) (wf : Tab.wf 0#4608 c.w = true) :
    (c.setW n w).getW m = if m = n then w else c.getW m := Tab.get_set n m w wf

theorem VCore.getW_setW_same (w : BitVec 4608) (wf : Tab.wf 0#4608 c.w = true) : (c.setW n w).getW n = w := by
  rw [getW_setW n w wf, if_pos rfl]

theorem VCore.getW_setW_other {m : Nat} (w : BitVec 4608) (wf : Tab.wf 0#4608 c.w = true) (hm : m ≠ n) :
    (c.setW n w).getW m = c.getW m := by
  rw [getW_setW m w wf, if_neg hm]

theorem VCore.getF_eq_extractLsb' (c : VCore) (n : Nat) : c.getF n = (c.getW n).extractLsb' 0 64 :=
  BitVec.setWidth_eq_extractLsb' (by decide)

theorem VCore.getF_setW_same (w : BitVec 4608) (wf : Tab.wf 0#4608 c.w = true) : (c.setW n w).getF n = w.extractLsb' 0 64 := by
  rw [getF_eq_extractLsb', getW_setW_same w wf]

theorem VCore.getW_setF_same (v : BitVec 64) (wf : Tab.wf 0#4608 c.w = true) : (c.setF n v).getW n = v.setWidth 4608 :=
  getW_setW_same _ wf

theorem VCore.getF_setF_same (v : BitVec 64) (wf : Tab.wf 0#4608 c.w = true) : (c.setF n v).getF n = v := by
  rw [VCore.getF, getW_setF_same v wf]
  exact BitVec.setWidth_setWidth_of_le v (by decide)

/-- The part of a vector register above a word that is widened to it is zero. -/
theorem extractLsb'_above_setWidth (v : BitVec 64) : (v.setWidth 4608).extractLsb' 64 4544 = 0#4544 := by
  ext i hi
  simp

/-- The lanes of form e18 in a floating-point register: three whole lanes and the low ten bits of the fourth. -/
theorem extractLsb'_eq_lanes (w : BitVec 4608) :
    w.extractLsb' 0 64 = w.extractLsb' 54 10 ++ w.extractLsb' 36 18 ++ w.extractLsb' 18 18 ++ w.extractLsb' 0 18 := by
  rw [BitVec.extractLsb'_append_extractLsb'_eq_extractLsb' (by decide),
    BitVec.extractLsb'_append_extractLsb'_eq_extractLsb' (by decide),
    BitVec.extractLsb'_append_extractLsb'_eq_extractLsb' (by decide)]

/-- Settles O47: a read after a write of each kind of register, and the 64 low bits of a vector register lane by lane. -/
theorem floatRegistersLieInVectorRegisters : Obligations.FloatRegistersLieInVectorRegisters := by
  intro c n m v w g wfW wfG
  have lanes := (c.getF_eq_extractLsb' n).trans (extractLsb'_eq_lanes _)
  have above : ((c.setF n v).getW n).extractLsb' 64 4544 = 0#4544 := by
    rw [VCore.getW_setF_same v wfW, extractLsb'_above_setWidth]
  have others (hm : m ≠ n) :
      (c.setF n v).getW m = c.getW m ∧ (c.setW n w).getW m = c.getW m ∧ (c.setG n g).getG m = c.getG m :=
    ⟨VCore.getW_setW_other _ wfW hm, VCore.getW_setW_other w wfW hm, VCore.getG_setG_other g wfG hm⟩
  exact ⟨c.getF_eq_extractLsb' n, VCore.getF_setF_same v wfW, above, VCore.getF_setW_same w wfW, lanes, others,
    c.getG_zero, c.setG_zero g, VCore.getG_setG_same g wfG⟩

end Sys2Proof.Machine
end

section
/-! SUPPORT. The second comparator: the three things that comparator A can have decided, and what comparator B's decision makes of each
(R185, R365, R388, R389); and from them the statement about the second comparator. -/
namespace Sys2Proof.Machine

theorem exec_decisionSecond (agree : Bool) (s : State) : exec (.decisionSecond agree) s = .next (settle s (secondDecides agree s)) := rfl

section Alarm
variable {s : State} {d : Decision} (ha : s.alarm.decision = some d)
include ha

/-- An alarm comes before the life cycle and before every result. -/
theorem secondDecides_alarm (agree : Bool) : secondDecides agree s = decideAlarm agree s := by
  rw [secondDecides, ha]

theorem decideAlarm_agree : decideAlarm true s = decisionActs d { s with alarm := { s.alarm with decision := none } } := by
  rw [decideAlarm, ha]
  exact if_pos rfl

theorem decideAlarm_differ :
    let u : State := { s with alarm := { s.alarm with decision := none } }
    decideAlarm false s = raiseDecision ((unrecorded u d).foldl (fun t e => tripEvidence e.1 e.2.1 e.2.2 false t) u) := by
  rw [decideAlarm, ha]
  exact if_neg Bool.false_ne_true

end Alarm

/-- Without an alarm, the life cycle comes before every result, until B has agreed to its transition. -/
theorem secondDecides_life {s : State} {d : LifeDecision} (ha : s.alarm.decision = none) (hl : s.life.decision = some d)
    (hd : d.agreed = false) (agree : Bool) : secondDecides agree s = if agree then lifeAgrees d s else lifeDisagrees d s := by
  simp only [secondDecides, ha, hl, hd, Bool.false_eq_true, if_false]

theorem secondDecides_verdict {s : State} (ha : s.alarm.decision = none) (hl : s.life.decision = none) (agree : Bool) :
    secondDecides agree s = verdictDecides agree s := by
  rw [secondDecides, ha, hl]

/-- Where one result alone waits, the free value can pick no other. -/
theorem verdictDecides_single {s : State} {x : Job} (h : s.jobs.filter awaitsVerdict = [x]) (agree : Bool) :
    verdictDecides agree s =
      if agree then (drawFree s).2.setJob { x with verdict := .agreed } else raiseDecision (drawFree s).2 := by
  have picks (v : Nat) : [x][v % [x].length]? = some x := by rw [List.length_singleton, Nat.mod_one, List.getElem?_cons_zero]
  simp only [verdictDecides, h, picks, List.isEmpty_cons, Bool.false_eq_true, if_false]

/-- Settles O25: the alarm's decision, the life cycle's and the waiting result each meet both answers of comparator B. -/
theorem secondComparatorDecides : Obligations.SecondComparatorDecides := by
  intro s
  simp only [exec_decisionSecond]
  refine ⟨fun d ha => ?alarm, fun d ha hl hd => ?life, fun x ha hl hx => ?result⟩
  case alarm =>
    rw [secondDecides_alarm ha, secondDecides_alarm ha, decideAlarm_agree ha, decideAlarm_differ ha]
    exact ⟨rfl, rfl⟩
  case life =>
    rw [secondDecides_life ha hl hd, secondDecides_life ha hl hd]
    exact ⟨rfl, rfl⟩
  case result =>
    rw [secondDecides_verdict ha hl, secondDecides_verdict ha hl, verdictDecides_single hx, verdictDecides_single hx]
    exact ⟨rfl, rfl⟩

end Sys2Proof.Machine
end

section
/-! SUPPORT. The statement about faults by their place (R392) and about the trips, the wipes and the checked runs of the engines (R255, R280):
what each operation comes to in each of the statement's cases. -/
namespace Sys2Proof.Machine

variable {s : State}

/-! ### Dual-rail faults (R392) -/

/-- A tile without an earlier fault has none within the second before: it goes to its self-test. -/
theorem tileDualRail_first {t : BitVec 6} (serves : (s.tile t).state ≠ .retired) (first : (s.tile t).faultAt = none) :
    tileDualRail t s = (let r := tileFaultJob 0x0216 t.toNat s
      r.setTile t { r.tile t with state := .testing, faultAt := some r.clock.us, reloadDue := false, core := coreInit, micro := microInit }) := by
  unfold tileDualRail
  rw [if_neg serves, first]
  rfl

/-- The first fault in a transfer of a job on a core repeats it within the job. -/
theorem transferFault_first {j : JobId} {x : Job} (named : s.job j = some x) (core : onCore x = true) (first : x.transfers = 0) :
    transferFault j s = s.setJob { x with transfers := 1, retried := true } := by
  unfold transferFault
  rw [named]
  exact (if_neg (by simp [core])).trans (if_pos first)

/-- The trip of the alarm comes first; the engine is retired where that has left it in service. -/
theorem dualRail_engine_serves {e : BitVec 3}
    (serves : ((trip .dualRail (unitReading (e.setWidth 8)) s).engine e).state ≠ .retired) :
    dualRail (.engine e) s = retireEngine e 3 (trip .dualRail (unitReading (e.setWidth 8)) s) :=
  if_neg serves

/-! ### Errors of the data pools (R392) -/

theorem dataError_crate {n : BitVec 11} (held : (s.crate n.toNat).isSome = true) :
    dataError (.crate n) s = poison (trip .dataEcc (unitReading 0) s) [n.toNat] :=
  congrArg (poison _) (if_pos held)

theorem dataError_workbench {j : JobId} {x : Job} (named : (trip .dataEcc (unitReading 0) s).job j = some x) (works : onUnits x = true) :
    dataError (.workbench j) s = jobFault 0x0216 x.units (trip .dataEcc (unitReading 0) s) x := by
  unfold dataError
  dsimp only
  rw [named]
  exact if_pos works

/-- An error on a tile's shelf damages the context that lies there; of the tile's jobs, only a resident encapsulation breaks with it. -/
theorem dataError_shelf {t : BitVec 6} {c : BitVec 14} (lies : ((trip .dataEcc (unitReading 0) s).tile t).shelf = some c)
    (spared : ∀ x, tileJob (trip .dataEcc (unitReading 0) s) t.toNat = some x → residentEncaps x = false) :
    dataError (.shelf t) s = staleContext .damaged (trip .dataEcc (unitReading 0) s) c := by
  unfold dataError
  dsimp only
  rw [lies]
  refine congrArg (staleContext .damaged · c) ?_
  split
  next x on => exact if_neg (Bool.eq_false_iff.mp (spared x on))
  next => rfl

/-! ### A trip of an engine, and the end of its wipe (R255, R280) -/

/-- A trip counted at its time, signalled and given to the alarm. -/
def engineTripNoted (e : BitVec 3) (s : State) : State :=
  trip .engineFcm (unitReading (e.setWidth 8))
    (engineInt 1 (s.setEngine e { s.engine e with trips := satAdd (s.engine e).trips 1, tripAt := some s.clock.us }))

section
variable {e : BitVec 3} (serves : (s.engine e).state ≠ .retired)
include serves

/-- Without a trip in the second before, the engine stays and its job runs once more. -/
theorem engineTrip_alone (apart : ∀ n, (s.engine e).tripAt = some n → n + 1000000 < s.clock.us) :
    engineTrip e s = engineFaultJob e (engineTripNoted e s) := by
  unfold engineTrip
  dsimp only
  rw [if_neg serves]
  refine if_neg ?_
  split
  next n last => simpa using apart n last
  next => exact Bool.false_ne_true

/-- A second trip within a second retires the engine. -/
theorem engineTrip_twice {n : Nat} (last : (s.engine e).tripAt = some n) (close : s.clock.us ≤ n + 1000000) :
    engineTrip e s = retireEngine e 1 (engineTripNoted e s) := by
  unfold engineTrip
  dsimp only
  rw [if_neg serves, last]
  exact if_pos (decide_eq_true close)

end

section
variable {e : BitVec 3} (wipes : (s.engine e).state = .wiping)
include wipes

theorem engineWipeDone_zero : engineWipeDone e true s = s.setEngine e { clearEngine (s.engine e) with state := .idle } :=
  (if_neg (not_not_intro wipes)).trans (if_pos rfl)

theorem engineWipeDone_left :
    engineWipeDone e false s = retireEngine e 2 (trip .engineFcm (unitReading (e.setWidth 8)) s) :=
  (if_neg (not_not_intro wipes)).trans (if_neg Bool.false_ne_true)

end

/-! ### A run under its fault mode's checks (R279, R280) -/

theorem checkedRun_passes (x : Job) (r : Ran) : checkedRun s x true true r = r := rfl

section
variable {x : Job} {e : BitVec 3} (runs : engineOf x = some e) (r : Ran)
include runs

theorem checkedRun_invariant_fails (ver : Bool) :
    checkedRun s x false ver r = { state := engineTrip e s, out := none, commits := [], timed := false } := by
  unfold checkedRun
  rw [runs]
  rfl

theorem checkedRun_verify_fails :
    checkedRun s x true false r = { state := verifyFails e s, out := none, commits := [], timed := false } := by
  unfold checkedRun
  rw [runs]
  rfl

end

/-! ### The statement -/

/-- Settles O19: the place of a fault or of an error picks what the alarm's trip is followed by; the time of an engine's last trip, what
its wipe reads back and the check that fails pick what becomes of the engine and of its job. -/
theorem faultsActByTheirPlace : Obligations.FaultsActByTheirPlace := by
  refine ⟨fun s => ⟨fun t => ?tile, fun e => ?engine, fun a => ?hall, fun j x named core first => ?transfer, rfl, fun c => rfl, fun n => rfl,
      fun n held => ?crate, fun n => rfl, fun j x named works => ?workbench, fun t c lies spared => ?shelf⟩,
    fun s e serves => ⟨fun apart => ?alone, fun ⟨n, last, close⟩ => ?twice⟩,
    fun s e wipes => ⟨?zero, ?left⟩,
    fun s x e r runs => ⟨checkedRun_passes x r, fun ver => ?invariant, ?verifyState, ?verifyOut⟩⟩
  case tile =>
    intro w serves first
    exact congrArg (act s) (tileDualRail_first serves first)
  case engine =>
    intro w serves
    exact congrArg (act s) (dualRail_engine_serves serves)
  case hall =>
    intro idle
    exact congrArg (act s) (beginReload_starts idle)
  case transfer =>
    have repeats := transferFault_first named core first
    exact ⟨congrArg (act s) repeats, congrArg (act s) repeats⟩
  case crate => exact congrArg (act s) (dataError_crate held)
  case workbench => exact congrArg (act s) (dataError_workbench named works)
  case shelf => exact congrArg (act s) (dataError_shelf lies spared)
  case alone => exact congrArg (act s) (engineTrip_alone serves apart)
  case twice => exact congrArg (act s) (engineTrip_twice serves last close)
  case zero => exact congrArg (act s) (engineWipeDone_zero wipes)
  case left => exact congrArg (act s) (engineWipeDone_left wipes)
  case invariant =>
    rw [checkedRun_invariant_fails runs]
    exact ⟨rfl, rfl⟩
  case verifyState =>
    rw [checkedRun_verify_fails runs]
    rfl
  case verifyOut => rw [checkedRun_verify_fails runs]

end Sys2Proof.Machine
end

section
/-! SUPPORT. The checks of a frame in their order (R301, R302, R386): each check's verdict where it fails, and what is left to the checks
behind it where it does not. -/
namespace Sys2Proof.Machine

@[simp] theorem firstFail_some (v : BitVec 3) (d : BitVec 16) (rest : Failed) : firstFail v (some d) rest = some (v, d) := rfl

@[simp] theorem firstFail_none (v : BitVec 3) (rest : Failed) : firstFail v none rest = rest := rfl

/-! ### Check 5 (R304) -/

/-- The verdict of the replay check, which a flow makes only while it tracks. -/
def replayFails (f : Flow) (p : Parsed) : Failed := firstFail 2 (if f.tracking then replayCheck f p else none) none

theorem replayFails_tracking {f : Flow} {p : Parsed} {d : BitVec 16} (t : f.tracking = true) (c : replayCheck f p = some d) :
    replayFails f p = some (2, d) := by
  unfold replayFails
  rw [if_pos t, c, firstFail_some]

/-! ### Checks 2 to 4 of a frame with a KeyID (R302, R303, R306) -/

section
variable {s : State} {f : Flow} {h : Held} {p : Parsed} {id : BitVec 32} (rest : Failed)

theorem keyedChecks_unknown (e : entryOfId f id = none) :
    keyedChecks s f h p id rest = some (3, if f.retiredA = some id ∨ f.retiredB = some id then 0x0C3A else 0x0C38) := by
  unfold keyedChecks
  rw [e]

variable {b : Bool} (e : entryOfId f id = some b)
include e

theorem keyedChecks_directory (k : directoryOk s (entryAt f b).handle = false) : keyedChecks s f h p id rest = some (3, 0x0C39) := by
  unfold keyedChecks
  rw [e]
  exact if_pos k

variable (k : directoryOk s (entryAt f b).handle = true)
include k

/-- Under a key that the directory knows, the MAC comes before the time window. -/
theorem keyedChecks_known : keyedChecks s f h p id rest = firstFail 1 (macCheck f b p)
    (firstFail 5 (if bit f.record.flags 1 && s.stream.timeValid then timeCheck s f.record h p else none) rest) := by
  unfold keyedChecks
  rw [e]
  exact if_neg (by simp [k])

theorem keyedChecks_mac {d : BitVec 16} (m : macCheck f b p = some d) : keyedChecks s f h p id rest = some (1, d) := by
  rw [keyedChecks_known rest e k, m, firstFail_some]

variable (m : macCheck f b p = none)
include m

theorem keyedChecks_time {d : BitVec 16} (asked : bit f.record.flags 1 = true) (valid : s.stream.timeValid = true)
    (c : timeCheck s f.record h p = some d) : keyedChecks s f h p id rest = some (5, d) := by
  rw [keyedChecks_known rest e k, m, firstFail_none, if_pos (by simp [asked, valid]), c, firstFail_some]

theorem keyedChecks_timeless (unasked : bit f.record.flags 1 = false) : keyedChecks s f h p id rest = rest := by
  rw [keyedChecks_known rest e k, m, firstFail_none, if_neg (by simp [unasked]), firstFail_none]

end

/-! ### The whole order (R301, R386) -/

section
variable {s : State} {f : Flow} {h : Held} {hd : Head} {p : Parsed}

theorem frameFails_locked (l : s.locked = true) : frameFails s f h hd p = some (3, 0x0C3B) := if_pos l

variable (l : s.locked = false)
include l

theorem frameFails_parse {d : BitVec 16} (c : parseCheck f.record hd p h.bytes = some d) : frameFails s f h hd p = some (4, d) := by
  unfold frameFails
  rw [if_neg (by simp [l]), c]
  rfl

variable (c : parseCheck f.record hd p h.bytes = none)
include c

/-- A frame without a KeyID goes to check 5 where the flow lets plain frames through, and fails check 3 elsewhere. -/
theorem frameFails_plain (n : p.keyId = none) :
    frameFails s f h hd p = if bit f.record.flags 0 then replayFails f p else some (1, 0x0C32) := by
  unfold frameFails
  rw [if_neg (by simp [l]), c, n]
  rfl

theorem frameFails_keyed {id : BitVec 32} (n : p.keyId = some id) :
    frameFails s f h hd p = keyedChecks s f h p id (replayFails f p) := by
  unfold frameFails
  rw [if_neg (by simp [l]), c, n]
  rfl

end

/-- Settles O16: LOCK, then each check where those before it pass. -/
theorem frameVerdictsFollowTheOrderOfChecks : Obligations.FrameVerdictsFollowTheOrderOfChecks := by
  intro s f h hd p
  refine ⟨frameFails_locked, fun l => ⟨fun d c => frameFails_parse l c, fun c =>
    ⟨fun n plain => ?plain, fun id n e => ?unknown, fun id b n e => ?known⟩⟩⟩
  case plain => rw [frameFails_plain l c n, if_neg (by simp [plain])]
  case unknown => rw [frameFails_keyed l c n, keyedChecks_unknown _ e]
  case known =>
    have keyed := frameFails_keyed l c n
    exact ⟨fun k => keyed.trans (keyedChecks_directory _ e k),
      fun k d m => keyed.trans (keyedChecks_mac _ e k m),
      fun k m asked valid d t => keyed.trans (keyedChecks_time _ e k m asked valid t),
      fun k m unasked tracks d r => (keyed.trans (keyedChecks_timeless _ e k m unasked)).trans (replayFails_tracking tracks r)⟩

end Sys2Proof.Machine
end

section
/-! SUPPORT. A read of the consumer's count of a delivery queue (R309), and the commands of the stream block, of its time counter, of the
ports (R286, R287, R310, R317) and of the delivery queues (R307). -/
namespace Sys2Proof.Machine

variable {s : State} {d : BitVec 8}

/-! ### The consumer's count (R309) -/

/-- An enabled delivery queue reads back as it was set: the one at reset is off. -/
theorem State.dq_setDq_of_enabled {x : Dq} (on : x.enabled = true) (s : State) (d : BitVec 8) : (s.setDq d x).dq d = x :=
  Tab.get_set_same _ _ _ fun e => Bool.false_ne_true ((congrArg (·.enabled) e).symm.trans on)

/-- A delivery queue as a read of its consumer's count leaves it. -/
def withCount (s : State) (d : BitVec 8) : Dq :=
  { s.dq d with ci := BitVec.ofNat 32 (leNat (readHost s (s.dq d).cfg.pitch (s.dq d).cfg.ciAddr.toNat 4)) }

section
variable (w : (s.dq d).waiting ≠ [])
include w

theorem dqCiRead_ok : dqCiRead d .ok s = flushDq d (s.setDq d (withCount s d)) := by
  unfold dqCiRead
  dsimp only
  rw [if_neg (by simp [w]), if_pos rfl]
  rfl

theorem dqCiRead_fails {a : Access} (fails : a ≠ .ok) : dqCiRead d a s = dropWaiting d (s.setDq d { s.dq d with ciFault := true }) := by
  unfold dqCiRead
  dsimp only
  rw [if_neg (by simp [w]), if_neg fails]

end

/-- The one record that waits at an open queue with room is written. -/
theorem flushDq_one {q : Dq} {r : Bytes} (one : q.waiting = [r]) (room : q.room = true) (on : q.enabled = true)
    (bound : (s.pitch q.cfg.pitch).cfg.bound = true) :
    flushDq d (s.setDq d q) = writeRecordDq d ((s.setDq d q).setDq d { q with waiting := [] }) r := by
  unfold flushDq dqOpen
  dsimp only
  rw [State.dq_setDq_of_enabled on, one, List.foldl_cons, List.foldl_nil, State.dq_setDq_of_enabled (by exact on)]
  exact if_pos (Bool.and_eq_true_iff.mpr ⟨Bool.and_eq_true_iff.mpr ⟨on, bound⟩, room⟩)

/-- Settles O14: the count is read or it is not, and a queue's one record is written where the count that was read gives it room. -/
theorem consumerCountLetsRecordsGo : Obligations.ConsumerCountLetsRecordsGo := by
  intro s d w q q'
  exact ⟨congrArg (act s) (dqCiRead_ok w), congrArg (act s) (dqCiRead_fails w (by decide)),
    fun r one room on bound => congrArg (act s) ((dqCiRead_ok w).trans (flushDq_one one room on bound))⟩

/-! ### The stream block (R317) and the ports (R286, R287) -/

theorem streamCommit_accepted (h : streamCommitBad s = none) :
    streamCommit s = { s with stream := { s.stream with
      cfg := s.stream.shadow, tokens := if s.stream.shadow.unmatchedDeliver then 1024 else s.stream.tokens } } := by
  unfold streamCommit
  rw [h]
  rfl

section
variable {p : BitVec 1}

/-- A commit that the part accepts leaves the link as it is: RATE, FEC and ENABLE are those in force. -/
def KeepsLink (x : Port) : Prop := x.shadow.rate = x.cfg.rate ∧ x.shadow.fec = x.cfg.fec ∧ x.shadow.enable = x.cfg.enable

/-- The three comparisons that COMMIT makes. -/
theorem moved_iff {x : Port} : (x.shadow.rate != x.cfg.rate || x.shadow.fec != x.cfg.fec || x.shadow.enable != x.cfg.enable) = true ↔
    ¬KeepsLink x := by
  simp only [KeepsLink, Bool.or_eq_true, bne_iff_ne, ne_eq, Classical.not_and_iff_not_or_not, or_assoc]

section
variable (h : portCommitBad s p = none)
include h

theorem portCommit_keepsLink (k : KeepsLink (s.port p)) :
    portCommit p s = s.setPort p { s.port p with cfg := (s.port p).shadow } := by
  simp only [portCommit, h]
  exact if_neg fun moved => moved_iff.mp moved k

theorem portCommit_dropsLink (k : ¬KeepsLink (s.port p)) :
    portCommit p s = (loseInFlight p s).setPort p
      (dropPort { s.port p with cfg := (s.port p).shadow, counters := ((loseInFlight p s).port p).counters }) := by
  simp only [portCommit, h]
  exact if_pos (moved_iff.mpr k)

end

theorem portLinkChange_up (ready : s.dev.phase = .ready) (scan : s.dev.bscan = false) (enable : (s.port p).cfg.enable = true)
    (rates : planRates s p ≠ 0) (adapted : (s.port p).eqAdapted = true) (down : (s.port p).link = false) :
    portLinkChange p true s = s.setPort p { s.port p with
      link := true, linkChange := true, anDone := (s.port p).cfg.rate == 0 && (s.port p).cfg.an, fecLock := (s.port p).cfg.fec != 0 } :=
  if_pos ⟨ready, scan, enable, rates, adapted, down⟩

theorem portLinkChange_down (up : (s.port p).link = true) : portLinkChange p false s = s.setPort p (dropPort (s.port p)) := if_pos up

theorem equaliserAdapted_converges (ready : s.dev.phase = .ready) (scan : s.dev.bscan = false) (enable : (s.port p).cfg.enable = true) :
    equaliserAdapted p s = (drawFree s).2.setPort p
      { s.port p with eqAdapted := true, eq := BitVec.ofNat 32 (drawFree s).1 &&& 0xFFFFFF3F } :=
  if_neg (by simp [ready, scan, enable])

section
variable (scan : s.dev.bscan = true)
include scan

/-- In boundary scan no link comes up. -/
theorem portLinkChange_scan : portLinkChange p true s = s :=
  if_neg fun ⟨_, off, _⟩ => Bool.false_ne_true (off.symm.trans scan)

/-- In boundary scan no equaliser converges. -/
theorem equaliserAdapted_scan : equaliserAdapted p s = s := if_pos (.inr (.inr scan))

end

end

/-! ### The delivery queues (R307) -/

theorem dqCommit_accepted (h : dqCommitBad s d = none) : dqCommit d s = s.setDq d { s.dq d with cfg := (s.dq d).shadow } := by
  simp only [dqCommit, h]

theorem dqCommit_refused {x : BitVec 16} (h : dqCommitBad s d = some x) :
    dqCommit d s = s.setDq d { s.dq d with commitRefused := true, refuseDetail := x } := by
  simp only [dqCommit, h]

theorem dqEnable_enabled (on : (s.dq d).enabled = true) :
    dqEnable d s = s.setDq d { s.dq d with cmdRefused := true, refuseDetail := 0x0C78 } := if_pos on

section
variable (off : (s.dq d).enabled = false)
include off

/-- Of a queue that is off, its ring, its count's address and its pitch's PASID decide. -/
theorem dqEnable_of_off : dqEnable d s =
    if (s.dq d).cfg.base = 0 ∨ (s.dq d).cfg.ciAddr = 0 ∨ (s.pitch (s.dq d).cfg.pitch).cfg.bound = false then
      s.setDq d { s.dq d with cmdRefused := true, refuseDetail := 0x0C77 }
    else s.setDq d { s.dq d with enabled := true, pi := 0, ci := 0, accumulated := 0 } :=
  if_neg (by simp [off])

theorem dqEnable_lacking
    (h : (s.dq d).cfg.base = 0 ∨ (s.dq d).cfg.ciAddr = 0 ∨ (s.pitch (s.dq d).cfg.pitch).cfg.bound = false) :
    dqEnable d s = s.setDq d { s.dq d with cmdRefused := true, refuseDetail := 0x0C77 } := by
  rw [dqEnable_of_off off, if_pos h]

theorem dqEnable_starts (base : (s.dq d).cfg.base ≠ 0) (count : (s.dq d).cfg.ciAddr ≠ 0)
    (bound : (s.pitch (s.dq d).cfg.pitch).cfg.bound = true) :
    dqEnable d s = s.setDq d { s.dq d with enabled := true, pi := 0, ci := 0, accumulated := 0 } := by
  rw [dqEnable_of_off off, if_neg (not_or.mpr ⟨base, not_or.mpr ⟨count, by simp [bound]⟩⟩)]

end

/-- Settles O13: each command by what its operation does while the windows are open, each change of a port by what the port allows. -/
theorem streamPortsAndDeliveryQueuesTakeCommands : Obligations.StreamPortsAndDeliveryQueuesTakeCommands := by
  refine ⟨fun s => ⟨fun o h => hostAct_of_eq o (streamCommit_accepted h), fun o => hostAct_open o _,
    fun o => hostAct_open o _, fun v o => hostAct_open o _, fun p => ?ports⟩, fun s d o => ?queues⟩
  case ports =>
    exact ⟨fun o h => ⟨fun k => hostAct_of_eq o (portCommit_keepsLink h k),
        fun k => hostAct_of_eq o (portCommit_dropsLink h k)⟩,
      fun ready scan enable rates adapted down => congrArg (act s) (portLinkChange_up ready scan enable rates adapted down),
      fun up => congrArg (act s) (portLinkChange_down up),
      fun ready scan enable => congrArg (act s) (equaliserAdapted_converges ready scan enable),
      fun scan => ⟨congrArg (act s) (equaliserAdapted_scan scan), congrArg (act s) (portLinkChange_scan scan)⟩⟩
  case queues =>
    exact ⟨fun h => hostAct_of_eq o (dqCommit_accepted h), fun x h => hostAct_of_eq o (dqCommit_refused h),
      fun on => hostAct_of_eq o (dqEnable_enabled on), fun off h => hostAct_of_eq o (dqEnable_lacking off h),
      fun off base count bound => hostAct_of_eq o (dqEnable_starts off base count bound), hostAct_open o _⟩

end Sys2Proof.Machine
end

section
/-! SUPPORT. A frame at its port by its length and its FCS, and where one that is accepted goes (R285, R286); the next frame of the buffer
(R301), and the end of a flow's grace (R302). -/
namespace Sys2Proof.Machine

/-! ### At the port (R285, R286) -/

section
variable {s : State} {p : BitVec 1} {f : Bytes}

section
variable (ready : s.dev.phase = .ready) (up : portUp s p.toNat = true)
include ready up

/-- A port that is up judges a frame by its length, then by its FCS. -/
theorem frameReceive_up : frameReceive p f s =
    if f.length < 64 then countAt p.toNat 10 (countFec p (fcsOk f) s)
    else if 1528 < f.length then countAt p.toNat 2 (countFec p (fcsOk f) s)
    else if fcsOk f = false then countAt p.toNat 1 (countFec p (fcsOk f) s)
    else ingressFrame p (f.take (f.length - 4)) (countAt p.toNat 0 (countFec p (fcsOk f) s)) :=
  if_neg (by simp [ready, up])

theorem frameReceive_short (short : f.length < 64) : frameReceive p f s = countAt p.toNat 10 (countFec p (fcsOk f) s) := by
  rw [frameReceive_up ready up, if_pos short]

theorem frameReceive_long (long : 1528 < f.length) : frameReceive p f s = countAt p.toNat 2 (countFec p (fcsOk f) s) := by
  rw [frameReceive_up ready up, if_neg (by omega), if_pos long]

variable (lo : 64 ≤ f.length) (hi : f.length ≤ 1528)
include lo hi

theorem frameReceive_badFcs (bad : fcsOk f = false) : frameReceive p f s = countAt p.toNat 1 (countFec p (fcsOk f) s) := by
  rw [frameReceive_up ready up, if_neg (Nat.not_lt.mpr lo), if_neg (Nat.not_lt.mpr hi), if_pos bad]

theorem frameReceive_good (good : fcsOk f = true) : frameReceive p f s =
    ingressFrame p (f.take (f.length - 4)) (countAt p.toNat 0 (countFec p (fcsOk f) s)) := by
  rw [frameReceive_up ready up, if_neg (Nat.not_lt.mpr lo), if_neg (Nat.not_lt.mpr hi), if_neg (by simp [good])]

end

theorem acceptFrame_stream {h : Held} (stream : hostFrame h = false) : acceptFrame h s = holdFrame h s :=
  if_neg (by simp [stream])

/-- A frame as its port takes it at the time of the stream block, with no trailer. -/
def heldAt (s : State) (p : BitVec 1) (b : Bytes) : Held :=
  { port := p, sec := s.stream.timeSec, ns := s.stream.timeNs.setWidth 32, rct := false, seq := 0, bytes := b }

/-- Without PRP, what is no pause frame and finds room is accepted as it came. -/
theorem ingressFrame_accepts (notPause : isPause f = false) (room : ingressBytes s + f.length ≤ ingressSize s)
    (single : s.stream.cfg.prp = false) : ingressFrame p f s = acceptFrame (heldAt s p f) s := by
  unfold ingressFrame
  dsimp only
  rw [if_neg (by simp [notPause]), if_neg (Nat.not_lt.mpr room), if_pos single]
  rfl

end

/-! ### The next frame, and the end of a grace (R301, R302) -/

section
variable {s : State}

theorem frameCheck_takes {h : Held} {rest : List Held} (free : framesWait s = false) (ready : s.dev.phase = .ready)
    (first : firstFrame s s.stream.held = some (h, rest)) :
    frameCheck s = takeFrame h { s with stream := { s.stream with held := rest } } := by
  unfold frameCheck
  rw [if_neg (by simp [free, ready]), first]
  rfl

theorem keyGraceExpiry_ends {i : BitVec 14} {f : Flow} (flow : s.flow i = some f) (grace : f.graceEnd.isSome = true) :
    keyGraceExpiry i s = changeFlow i retireOlder s := by
  unfold keyGraceExpiry
  rw [flow]
  exact if_pos grace

end

/-- Settles O15: a frame by its length and its FCS at its port, then the commands by which frames, tokens and entries move on. -/
theorem framesAreTakenAndWaitTheirTurn : Obligations.FramesAreTakenAndWaitTheirTurn := by
  refine ⟨fun s p f ready up => ?port, fun s => ⟨fun h rest free ready first => congrArg (act s) (frameCheck_takes free ready first),
    rfl, fun src => rfl, fun i f flow grace => congrArg (act s) (keyGraceExpiry_ends flow grace)⟩⟩
  case port =>
    refine ⟨fun short => congrArg (act s) (frameReceive_short ready up short),
      fun long => congrArg (act s) (frameReceive_long ready up long),
      fun lo hi bad => congrArg (act s) (frameReceive_badFcs ready up lo hi bad),
      fun lo hi good notPause room single stream => congrArg (act s) ?held⟩
    case held =>
      calc frameReceive p f s
        _ = ingressFrame p (f.take (f.length - 4)) (countAt p.toNat 0 (countFec p (fcsOk f) s)) :=
            frameReceive_good ready up lo hi good
        _ = acceptFrame _ _ := ingressFrame_accepts notPause room single
        _ = holdFrame _ _ := acceptFrame_stream stream

end Sys2Proof.Machine
end

section
/-! SUPPORT. The statements about a step as a whole: what it keeps of the Evidence Log and of the fuses, and which command it takes. -/
namespace Sys2Proof.Machine

/-- Settles O41: the written entries are among what a step keeps. -/
theorem evidenceLogOnlyGrows : Obligations.EvidenceLogOnlyGrows := fun _ _ h => (keeps_of_step h).kept.evidence

/-- Settles O42: so are the burned bits of the fuse words. -/
theorem fuseBitsAreOnlySet : Obligations.FuseBitsAreOnlySet := fun _ _ h => (keeps_of_step h).kept.burned

/-- A step with a command in front of the queue is that command on the state with the rest. -/
theorem step_of_pending {s : State} {c : Instr} {rest : List Instr} (waits : s.pending = c :: rest) :
    step s = exec c { s with pending := rest } := by
  unfold step
  rw [waits]

/-- Settles O35: a command put in front leaves the queue as it was behind it. -/
theorem stepRunsTheCommandInFront : Obligations.StepRunsTheCommandInFront :=
  fun c s => ⟨step_of_pending (State.withCommand_pending s c), fun _ waits => step_of_pending waits⟩

end Sys2Proof.Machine
end

section
/-! SUPPORT. The random number service: its beans and their tests, the grind, the holds and the feeds (R320 to R331); and from what each
operation comes to, the statement about beans and the carafe. -/
namespace Sys2Proof.Machine

variable {s : State}

/-! ### Samples and the balancing loop (R320, R321) -/

theorem beanSamples_beforeStart (bits : BitVec 80) (off : s.rng.started = false) : beanSamples bits s = s := if_pos off

theorem beanSamples_started (bits : BitVec 80) (on : s.rng.started = true) :
    beanSamples bits s = feedMask ((List.range 80).foldl (fun t n => beanSample (grinding s) t n (bit bits n)) s) bits :=
  if_neg (by simp [on])

/-- A bean after a window of 4,096 samples, with the trim that the balancing loop gives it. -/
def balanced (b : Bean) (trim : BitVec 7) : Bean :=
  { b with trim := trim, ones := BitVec.ofNat 13 b.winOnes, winCount := 0, winOnes := 0 }

section
variable {n : Nat} (inRange : n < 80) (whole : 4096 ≤ (s.bean n).winCount)
include inRange whole

/-- A bean whose ones lie within the bounds of exclusion only changes its trim. -/
theorem trimWindow_within (lo : 1536 ≤ (s.bean n).winOnes) (hi : (s.bean n).winOnes ≤ 2560) :
    trimWindow n s = s.setBean n (balanced (s.bean n)
      (if 2112 < (s.bean n).winOnes then (if (s.bean n).trim = 0 then 0 else (s.bean n).trim - 1)
       else if (s.bean n).winOnes < 1984 then (if (s.bean n).trim = 127 then 127 else (s.bean n).trim + 1)
       else (s.bean n).trim)) := by
  unfold trimWindow
  dsimp only
  rw [if_neg (by omega)]
  exact if_neg fun ⟨_, excluded, _⟩ => by omega

theorem trimWindow_lowers (many : 2112 < (s.bean n).winOnes) (hi : (s.bean n).winOnes ≤ 2560) (room : (s.bean n).trim ≠ 0) :
    trimWindow n s = s.setBean n (balanced (s.bean n) ((s.bean n).trim - 1)) := by
  rw [trimWindow_within inRange whole (by omega) hi, if_pos many, if_neg room]

theorem trimWindow_raises (lo : 1536 ≤ (s.bean n).winOnes) (few : (s.bean n).winOnes < 1984) (room : (s.bean n).trim ≠ 127) :
    trimWindow n s = s.setBean n (balanced (s.bean n) ((s.bean n).trim + 1)) := by
  rw [trimWindow_within inRange whole lo (by omega), if_neg (by omega), if_pos few, if_neg room]

theorem trimWindow_balanced (lo : 1984 ≤ (s.bean n).winOnes) (hi : (s.bean n).winOnes ≤ 2112) :
    trimWindow n s = s.setBean n (balanced (s.bean n) (s.bean n).trim) := by
  rw [trimWindow_within inRange whole (by omega) (by omega), if_neg (by omega), if_neg (by omega)]

end

/-! ### Retests (R323) -/

section
variable {n : Nat} (tested : (s.bean n).state = .testing)
include tested

theorem retestDone_passed :
    retestDone n 0 s = judgeSources (s.setBean n { s.bean n with state := .inService, delay := [] }) := by
  rw [retestDone, if_neg (not_not_intro tested)]
  rfl

theorem retestDone_tripped {outcome : BitVec 2} (trips : outcome ≠ 0) :
    retestDone n outcome s = judgeSources (excludeBean n (if outcome = 1 then 1 else 2) s) := by
  rw [retestDone, if_neg (not_not_intro tested), if_neg trips]
  rfl

end

/-! ### The grind and the feeds (R324, R328, R331) -/

theorem grindBlock_whole (on : s.rng.started = true) (good : s.rng.mainFail = false) (whole : 2048 ≤ s.rng.grind.length)
    (room : s.rng.carafe.length + 32 ≤ 65536) :
    grindBlock s = serveRequests s.rng.requests.length { s with rng := { s.rng with
      grind := s.rng.grind.drop 2048,
      carafe := s.rng.carafe ++ sha256 ((List.range 256).map
        (fun i => (packBits 8 ((s.rng.grind.drop (8 * i)).take 8) : Byte))) } } :=
  if_neg (by simp [on, good, whole, room])

theorem openFeeds_opens (good : s.rng.maskFail = false) (stopped : s.rng.feedsStopped = true) :
    openFeeds s = { fillMask s with rng := { (fillMask s).rng with feedsStopped := false } } :=
  if_neg (by simp [good, stopped])

theorem openFeeds_stays (h : s.rng.maskFail = true ∨ s.rng.feedsStopped = false) : openFeeds s = s := if_pos h

theorem reseedDue_seeded {p : BitVec 8} (seeded : (s.drbg p).seeded = true) :
    reseedDue p s = s.setDrbg p { s.drbg p with due := true } :=
  if_pos seeded

/-! ### Holds (R329) -/

/-- HOLD_MS has passed for a failure in force whose hold runs. -/
def HoldDue (s : State) (fails hold : Bool) (since : Nat) : Prop :=
  fails = true ∧ hold = false ∧ since + 1000 * holdMs s ≤ s.clock.us

theorem holdDue_iff (s : State) (fails hold : Bool) (since : Nat) :
    (fails && !hold && holdPassed s since) = true ↔ HoldDue s fails hold since := by
  simp [HoldDue, holdPassed, and_assoc]

section
variable (s)

/-- The hold of the main failure is due, and that of the mask failure. -/
def MainDue : Prop := HoldDue s s.rng.mainFail s.rng.mainHold s.rng.mainSince

def MaskDue : Prop := HoldDue s s.rng.maskFail s.rng.maskHold s.rng.maskSince

end

theorem holdExpires_main (main : MainDue s) (first : MaskDue s → s.rng.mainSince ≤ s.rng.maskSince) :
    holdExpires s = mainExpires s := by
  unfold holdExpires
  refine if_pos ?_
  rw [(holdDue_iff ..).mpr main, Bool.true_and, Bool.or_eq_true, decide_eq_true_eq, Bool.not_eq_true', Bool.eq_false_iff, Ne,
    holdDue_iff]
  exact (Classical.em (MaskDue s)).symm.imp_right first

theorem holdExpires_mask (mask : MaskDue s) (first : MainDue s → s.rng.maskSince < s.rng.mainSince) :
    holdExpires s = maskExpires s := by
  unfold holdExpires
  refine (if_neg ?_).trans (if_pos ((holdDue_iff ..).mpr mask))
  rw [(holdDue_iff ..).mpr mask, Bool.and_eq_true, holdDue_iff]
  intro ⟨main, older⟩
  have younger := first main
  have : s.rng.mainSince ≤ s.rng.maskSince := by simpa using older
  omega

theorem holdExpires_none (main : ¬MainDue s) (mask : ¬MaskDue s) : holdExpires s = s := by
  unfold holdExpires
  refine (if_neg ?_).trans (if_neg (mt (holdDue_iff ..).mp mask))
  rw [Bool.and_eq_true, holdDue_iff]
  exact fun ⟨due, _⟩ => main due

/-! ### The statement -/

/-- Settles O27: the count of a window picks the trim, the outcome of a retest the bean's state, and the older of the holds that are due
the failure that expires. -/
theorem beansFillTheCarafe : Obligations.BeansFillTheCarafe := by
  refine ⟨fun s => ⟨fun bits off => congrArg (act s) (beanSamples_beforeStart bits off),
      fun bits on => congrArg (act s) (beanSamples_started bits on), fun n => ?window, fun n => ?retest,
      fun ho => hostAct_open ho _⟩,
    fun s => ⟨fun on good whole room => congrArg (act s) (grindBlock_whole on good whole room), ⟨?main, ?mask, ?none⟩,
      fun good stopped => congrArg (act s) (openFeeds_opens good stopped), fun h => congrArg (act s) (openFeeds_stays h),
      fun p seeded => congrArg (act s) (reseedDue_seeded seeded)⟩⟩
  case window =>
    intro b inRange whole
    exact ⟨fun many hi room => congrArg (act s) (trimWindow_lowers inRange whole many hi room),
      fun lo few room => congrArg (act s) (trimWindow_raises inRange whole lo few room),
      fun lo hi => congrArg (act s) (trimWindow_balanced inRange whole lo hi)⟩
  case retest =>
    intro tested
    exact ⟨congrArg (act s) (retestDone_passed tested), congrArg (act s) (retestDone_tripped tested (by decide)),
      congrArg (act s) (retestDone_tripped tested (by decide))⟩
  case main => exact fun main first => congrArg (act s) (holdExpires_main main first)
  case mask => exact fun mask first => congrArg (act s) (holdExpires_mask mask first)
  case none => exact fun main mask => congrArg (act s) (holdExpires_none main mask)

end Sys2Proof.Machine
end

section
/-! SUPPORT. The detectors' readings that clear or stay in their windows, and the watch on the backup cell (R351, R380, R382, R384, R386,
R389, R390); and from them the statement about the detectors. -/
namespace Sys2Proof.Machine

variable {s : State}

/-! ### Readings (R380, R382, R384) -/

/-- A Tj inside its window moves the tracked value and is no longer among the readings that left. -/
theorem tempSample_inside {t0 t1 t2 t3 : BitVec 12} {a : Int} (tracked : s.alarm.tjAcc = some a) (writes : nvHeld s = false)
    (inside : tjBad (maxTemp (maxTemp t0 t1) (maxTemp t2 t3)).toInt (a / 3000000) = false) :
    let tj := maxTemp (maxTemp t0 t1) (maxTemp t2 t3)
    tempSample t0 t1 t2 t3 s =
      { s with alarm := { s.alarm with tj := tj, tjAcc := some (a + (tj.toInt * 3000000 - a) / 3000000),
                                       badRails := s.alarm.badRails.filter (· ≠ .tj) } } := by
  unfold tempSample
  simp only [tracked, Option.getD_some, inside, Bool.false_eq_true, if_false]
  exact if_neg (by simpa [nvHeld] using writes)

theorem lidEdge_onCell {level : Bool} (moves : s.alarm.lid ≠ level) (cell : onCell s = true) :
    let u : State := { s with alarm := { s.alarm with lid := level } }
    lidEdge level s = batteryEvent .lid (unitReading 0) ((drawFree u).1 % 2 == 0) (drawFree u).2 :=
  (if_neg moves).trans (if_pos cell)

theorem lidEdge_alive {level : Bool} (moves : s.alarm.lid ≠ level) (core : onCell s = false) (up : alive s = true) :
    lidEdge level s = trip .lid (unitReading 0) { s with alarm := { s.alarm with lid := level } } :=
  ((if_neg moves).trans (if_neg (Bool.eq_false_iff.mp core))).trans (if_pos up)

theorem batterySample_onCell {r : BatteryReading} (cell : onCell s = true) :
    batterySample r s = ((abnormalNow r).filter (fun i => !s.battery.abnormal.contains i)).foldl
      (fun t i => batteryEvent i (batteryReadingOf r i) r.agreesB t)
      { s with battery := { s.battery with abnormal := abnormalNow r, vbatMv := r.vbatMv },
               alarm := { s.alarm with loops := r.loops, mesh := r.meshFault } } :=
  if_neg (by simp [cell])

/-! ### An event on the backup cell (R386, R389, R390) -/

/-- The lock latch set by a response of LOCK or above, with its source, where it was not set. -/
def batteryLocks (r : BitVec 2) (code : BitVec 16) (s : State) : State :=
  if 2 ≤ r.toNat ∧ s.battery.lockLatch = false then
    setPins [(.tamperOutN, false)] (writeFile (fun b => { b with lockLatch := true, lockSource := code }) s)
  else s

/-- What a response does to the file: the lock, and at ERASE the loss of the root key. -/
def batteryActs (r : BitVec 2) (code : BitVec 16) (s : State) : State :=
  if r = 3 then zeroRoot (batteryLocks r code s) else batteryLocks r code s

/-- An entry placed in the evidence buffer changes nothing else. -/
theorem bufferEntry_eq (e : Evidence) (s : State) :
    ∃ l, bufferEntry e s = { s with battery := { s.battery with buffer := l } } := by
  unfold bufferEntry
  dsimp only
  repeat' split
  · exact ⟨_, rfl⟩
  · exact ⟨_, rfl⟩
  · exact ⟨s.battery.buffer, rfl⟩
  · exact ⟨_, rfl⟩

/-- Beside its entries in the evidence buffer, an event does what its response does: the source's own where the comparators agree, and
LOCK for DECISION where they differ. -/
theorem batteryEvent_eq (i : AlarmSource) (v : TripReading) (agree : Bool) (s : State) :
    let t := batteryActs (if agree then batteryResponse s i else 2) (if agree then sourceCode i else sourceCode .decision) s
    ∃ l, batteryEvent i v agree s = { t with battery := { t.battery with buffer := l } } := by
  intro t
  cases agree with
  | true => exact bufferEntry_eq _ t
  | false =>
    obtain ⟨own, first⟩ := bufferEntry_eq
      { source := sourceCode i, response := (maxResp 2 (if t.battery.lockLatch then 2 else 0)).setWidth 8, flags := 1, optime := 0,
        cycles := 0, lifeState := 0, seconds := t.battery.seconds, detail := tripDetail v } t
    obtain ⟨both, second⟩ := bufferEntry_eq
      { source := sourceCode .decision, response := (maxResp 2 (if t.battery.lockLatch then 2 else 0)).setWidth 8, flags := 1, optime := 0,
        cycles := 0, lifeState := 0, seconds := t.battery.seconds, detail := tripDetail v }
      { t with battery := { t.battery with buffer := own } }
    exact ⟨both, (congrArg _ first).trans second⟩

section
variable {r : BitVec 2} {code : BitVec 16}

theorem batteryLocks_latch (high : 2 ≤ r.toNat) : (batteryLocks r code s).battery.lockLatch = true := by
  unfold batteryLocks
  split
  next => rfl
  next set => simpa [high] using set

theorem batteryLocks_source (high : 2 ≤ r.toNat) (clear : s.battery.lockLatch = false) :
    (batteryLocks r code s).battery.lockSource = code :=
  congrArg (fun t : State => t.battery.lockSource) (if_pos ⟨high, clear⟩)

theorem batteryLocks_rootKey : (batteryLocks r code s).battery.rootKey = s.battery.rootKey := by
  unfold batteryLocks
  split <;> rfl

theorem batteryActs_latch (high : 2 ≤ r.toNat) : (batteryActs r code s).battery.lockLatch = true := by
  have set := batteryLocks_latch (s := s) (code := code) high
  unfold batteryActs
  split
  · exact set
  · exact set

theorem batteryActs_source (high : 2 ≤ r.toNat) (clear : s.battery.lockLatch = false) :
    (batteryActs r code s).battery.lockSource = code := by
  have said := batteryLocks_source (code := code) high clear
  unfold batteryActs
  split
  · exact said
  · exact said

theorem batteryActs_erases : (batteryActs 3 code s).battery.rootKey = none := rfl

theorem batteryActs_rootKey (noErase : r ≠ 3) : (batteryActs r code s).battery.rootKey = s.battery.rootKey := by
  rw [batteryActs, if_neg noErase, batteryLocks_rootKey]

end

/-! ### The statement -/

/-- Settles O26: each reading by what it finds, and an event on the cell by its response, or by LOCK for DECISION. -/
theorem detectorsAndTheBackupCell : Obligations.DetectorsAndTheBackupCell := by
  refine ⟨fun s => ⟨fun i => rfl, fun m => rfl, fun t0 t1 t2 t3 a up tracked writes => ?temperature, fun level moves => ?lid,
    fun r cell => congrArg (act s) (batterySample_onCell cell)⟩, fun s i v => ?events⟩
  case temperature =>
    intro tj inside
    have taken : exec (.tempSample t0 t1 t2 t3) s = act s (tempSample t0 t1 t2 t3 s) := if_pos up
    exact taken.trans (congrArg (act s) (tempSample_inside tracked writes inside))
  case lid =>
    exact ⟨fun cell => congrArg (act s) (lidEdge_onCell moves cell), fun core up => congrArg (act s) (lidEdge_alive moves core up)⟩
  case events =>
    obtain ⟨agreed, eAgree⟩ := batteryEvent_eq i v true s
    obtain ⟨split, eDiffer⟩ := batteryEvent_eq i v false s
    rw [eAgree, eDiffer]
    exact ⟨fun high => ⟨batteryActs_latch high, batteryActs_source high⟩,
      fun erase => (congrArg (fun r => (batteryActs r (sourceCode i) s).battery.rootKey) erase).trans batteryActs_erases,
      batteryActs_latch (r := 2) (by decide), batteryActs_rootKey (r := 2) (by decide), batteryActs_source (r := 2) (by decide)⟩

end Sys2Proof.Machine
end

section
/-! SUPPORT. The monitor (R370 to R374): which lines it takes, and the answer of each command to a line of its syntax; and from them the
statement about the monitor. -/
namespace Sys2Proof.Machine

variable {s : State}

/-! ### Lines that the monitor takes (R372, R374) -/

section
variable (up : alive s = true) (free : answerDue s = false)
include up free

theorem monitorTakes_steady (f : State → State) (steady : s.life.baudSwitched = false) : monitorTakes f s = f s := by
  rw [monitorTakes, if_neg (by simp [up, free]), if_neg (Bool.eq_false_iff.mp steady)]

theorem confirmBaud_steady (steady : s.life.baudSwitched = false) : confirmBaud s = answerEr 0x01 s := by
  rw [confirmBaud, if_neg (by simp [up, free]), if_neg (Bool.eq_false_iff.mp steady)]

theorem confirmBaud_trial (trial : s.life.baudSwitched = true) :
    confirmBaud s = answerOk [ascii "BC"]
      { s with life := { s.life with baud := s.life.baudNew.getD s.life.baud, baudNew := none, baudSwitched := false } } := by
  rw [confirmBaud, if_neg (by simp [up, free]), if_pos trial]

/-- A line of a command whose fields its syntax reads goes to the command. -/
theorem monitorLine_reads {α : Type} {name : String} {syn : List Bytes → Option α} {line : Bytes} {fs : List Bytes} {a : α}
    (f : α → State → State) (steady : s.life.baudSwitched = false) (short : lineLong line = false)
    (reads : lineFields (lineOf line) = ascii name :: fs) (fields : syn fs = some a) : monitorLine name syn line f s = f a s := by
  unfold monitorLine
  rw [reads]
  dsimp only
  rw [if_neg (not_not_intro rfl), monitorTakes_steady up free _ steady, if_neg (Bool.eq_false_iff.mp short), fields]

end

/-- A line whose first field is no command of R373. -/
theorem badLine_unknown {line : Bytes} {c : Bytes} {fs : List Bytes} (short : lineLong line = false)
    (reads : lineFields (lineOf line) = c :: fs) (unknown : knownCommand c = false) : badLine line s = answerEr 0x01 s := by
  rw [badLine, if_neg (Bool.eq_false_iff.mp short), reads]
  exact if_pos unknown

theorem permitted_true {ok : Bool} (f : State → State) (on : ok = true) : permitted ok f s = f s := if_pos on

theorem permitted_false {ok : Bool} (f : State → State) (off : ok = false) : permitted ok f s = answerEr 0x04 s :=
  if_neg (Bool.eq_false_iff.mp off)

/-! ### The commands (R370, R371, R373) -/

theorem monitorNcAnswer_filled (full : 32 ≤ s.rng.carafe.length) :
    monitorNcAnswer s = answerOk (groupsOf 8 (newNonce s).1) (newNonce s).2 :=
  if_neg (Nat.not_lt.mpr full)

theorem monitorNcAnswer_dry (dry : s.rng.carafe.length < 32) : monitorNcAnswer s = answerEr 0x0E s := if_pos dry

theorem monitorLoad_inside {o : Nat} {data : Bytes} (inside : o + data.length ≤ 8192) :
    monitorLoad (o, data) s = answerOk [] { s with life := { s.life with staging := Tab.write 0#8 s.life.staging o data } } :=
  if_neg (Nat.not_lt.mpr inside)

theorem monitorLoad_outside {o : Nat} {data : Bytes} (outside : 8192 < o + data.length) :
    monitorLoad (o, data) s = answerEr 0x0C s :=
  if_pos outside

section
variable {n : Nat} (idle : lifeDeciding s = false)
include idle

theorem monitorDcAnswer_granted (good : grantBad s (stagedBytes s (min n 8192)) = none) :
    monitorDcAnswer n s =
      askGrant none (stagedBytes s (min n 8192)) (certUsed true (stagedBytes s (min n 8192)) none s) := by
  unfold monitorDcAnswer
  rw [if_neg (Bool.eq_false_iff.mp idle)]
  simp only [good]

theorem monitorDcAnswer_refused {b : LifeBad} (refused : grantBad s (stagedBytes s (min n 8192)) = some b) :
    monitorDcAnswer n s = askRefused none (grantAsk (stagedBytes s (min n 8192))) b
      (certUsed true (stagedBytes s (min n 8192)) (some b) s) := by
  unfold monitorDcAnswer
  rw [if_neg (Bool.eq_false_iff.mp idle)]
  simp only [refused]

end

section
variable {t : BitVec 5} {n : Nat} (idle : grantDeciding s = false)
include idle

theorem monitorLcAnswer_asked (good : transitionBad s t (stagedBytes s n) = none) :
    monitorLcAnswer (t, n) s = askTransition none t (stagedBytes s n) s := by
  unfold monitorLcAnswer
  rw [if_neg (Bool.eq_false_iff.mp idle)]
  simp only [good]

/-- LC_BUSY is answered at once; any other refusal waits for comparator B (R388). -/
theorem monitorLcAnswer_refused {b : LifeBad} (refused : transitionBad s t (stagedBytes s n) = some b) :
    monitorLcAnswer (t, n) s =
      if b.detail = 0x0F7C then answerEr b.code (clearLines (transitionRefused s t (stagedBytes s n) b))
      else refuseTransition none t (stagedBytes s n) b s := by
  unfold monitorLcAnswer
  rw [if_neg (Bool.eq_false_iff.mp idle)]
  simp only [refused]

end

theorem monitorRead_inside {o : Nat} (inside : o < 0x4000000) :
    monitorRead o s = answerOk [hexDigits 8 (readReg .control o 32 s).1.toNat] (readReg .control o 32 s).2 :=
  if_neg (Nat.not_le.mpr inside)

theorem monitorRead_outside {o : Nat} (outside : 0x4000000 ≤ o) : monitorRead o s = answerEr 0x0C s := if_pos outside

theorem monitorWrite_inside {o v : Nat} (inside : o < 0x4000000) :
    monitorWrite (o, v) s = answerOk [] (writeReg .control o 32 (BitVec.ofNat 64 v) s) :=
  if_neg (Nat.not_le.mpr inside)

theorem monitorWrite_outside {o v : Nat} (outside : 0x4000000 ≤ o) : monitorWrite (o, v) s = answerEr 0x0C s := if_pos outside

theorem monitorNv_inside {a o : Nat} (inside : o + 64 ≤ areaSize a) :
    monitorNv (a, o) s = answerOk (groupsOf 16 ((List.range 64).map (fun i => nvByte s a (o + i)))) s :=
  if_neg (Nat.not_lt.mpr inside)

theorem monitorNv_outside {a o : Nat} (outside : areaSize a < o + 64) : monitorNv (a, o) s = answerEr 0x0C s := if_pos outside

theorem monitorStore_inside {k t a : Nat} (inside : a < storeWords k) :
    monitorStore (k, t, a) s = answerOk (groupsOf 9 (storeWord k t a s).1) (storeWord k t a s).2 :=
  if_neg (Nat.not_le.mpr inside)

theorem monitorStore_outside {k t a : Nat} (outside : storeWords k ≤ a) : monitorStore (k, t, a) s = answerEr 0x0C s :=
  if_pos outside

theorem baudSwitch_asked (up : alive s = true) (asked : s.life.baudNew.isSome = true) :
    baudSwitch s = { s with life := { s.life with baudSwitched := true } } :=
  if_pos (by simp [up, asked])

/-! ### The statement -/

/-- Settles O33: the commands without fields, then each command of fields on a line that its syntax reads, by its scope or state and by
its range. -/
theorem monitorAnswersItsCommands : Obligations.MonitorAnswersItsCommands := by
  refine ⟨fun s up free => ⟨fun steady => ?plain, fun trial => ?trial, fun asked => congrArg (act s) (baudSwitch_asked up asked)⟩,
    fun s line fs up free steady short => ?lines⟩
  case plain =>
    have takes (f : State → State) : monitorTakes f s = f s := monitorTakes_steady up free f steady
    have nonce (field : inScrap s = false) :
        monitorTakes (fun s => permitted (!inScrap s) monitorNcAnswer s) s = monitorNcAnswer s :=
      (takes _).trans (permitted_true _ (by simp [field]))
    exact ⟨congrArg (act s) (takes _), congrArg (act s) (takes _),
      fun field full => congrArg (act s) ((nonce field).trans (monitorNcAnswer_filled full)),
      fun field dry => congrArg (act s) ((nonce field).trans (monitorNcAnswer_dry dry)),
      fun scrap => congrArg (act s) ((takes _).trans (permitted_false _ (by simp [scrap]))),
      congrArg (act s) (takes _), congrArg (act s) (confirmBaud_steady up free steady)⟩
  case trial => exact ⟨congrArg (act s) (confirmBaud_trial up free trial), congrArg (act s) (if_pos trial)⟩
  case lines =>
    intro reads
    have line {α : Type} {name : String} {syn : List Bytes → Option α} {a : α} (f : α → State → State) (h : reads name)
        (fields : syn fs = some a) : monitorLine name syn line f s = f a s :=
      monitorLine_reads up free f steady short h fields
    refine ⟨fun o data h fields field => ?load, fun n h fields state idle => ?grant, fun t n h fields field idle => ?transition,
      fun o h fields => ?read, fun o v h fields => ?write, fun a o h fields => ?area, fun k t a h fields => ?store,
      fun n h fields => congrArg (act s) (line _ h fields), fun c h notBc unknown => ?unknown⟩
    case load =>
      have runs := (line (fun a => permitted (!inScrap s) (monitorLoad a)) h fields).trans (permitted_true _ (by simp [field]))
      exact ⟨fun inside => congrArg (act s) (runs.trans (monitorLoad_inside inside)),
        fun outside => congrArg (act s) (runs.trans (monitorLoad_outside outside))⟩
    case grant =>
      intro cert
      have runs := (line (fun n s => if inProvisioning s || inField s then monitorDcAnswer n s else refusedClear 0x04 s) h fields).trans
        (if_pos (by simpa using state))
      split
      next good => exact congrArg (act s) (runs.trans (monitorDcAnswer_granted idle good))
      next b refused => exact congrArg (act s) (runs.trans (monitorDcAnswer_refused idle refused))
    case transition =>
      have runs := (line (fun a s => if inScrap s then refusedClear 0x04 s else monitorLcAnswer a s) h fields).trans
        (if_neg (Bool.eq_false_iff.mp field))
      split
      next good => exact congrArg (act s) (runs.trans (monitorLcAnswer_asked idle good))
      next b refused =>
        have answers := runs.trans (monitorLcAnswer_refused idle refused)
        exact ⟨fun open_ => congrArg (act s) (answers.trans (if_pos open_)),
          fun other => congrArg (act s) (answers.trans (if_neg other))⟩
    case read =>
      have runs := line (fun o => permitted (scopeOn s 0) (monitorRead o)) h fields
      exact ⟨fun on inside => congrArg _ ((runs.trans (permitted_true _ on)).trans (monitorRead_inside inside)),
        fun on outside => congrArg _ ((runs.trans (permitted_true _ on)).trans (monitorRead_outside outside)),
        fun off => congrArg _ (runs.trans (permitted_false _ off))⟩
    case write =>
      have runs := line (fun a => permitted (scopeOn s 1) (monitorWrite a)) h fields
      exact ⟨fun on inside => congrArg _ ((runs.trans (permitted_true _ on)).trans (monitorWrite_inside inside)),
        fun on outside => congrArg _ ((runs.trans (permitted_true _ on)).trans (monitorWrite_outside outside)),
        fun off => congrArg _ (runs.trans (permitted_false _ off))⟩
    case area =>
      have runs := line (fun a => permitted (scopeOn s 2) (monitorNv a)) h fields
      exact ⟨fun on inside => congrArg (act s) ((runs.trans (permitted_true _ on)).trans (monitorNv_inside inside)),
        fun on outside => congrArg (act s) ((runs.trans (permitted_true _ on)).trans (monitorNv_outside outside)),
        fun off => congrArg (act s) (runs.trans (permitted_false _ off))⟩
    case store =>
      have runs := line (fun x => permitted (scopeOn s 5) (monitorStore x)) h fields
      exact ⟨fun on inside => congrArg (act s) ((runs.trans (permitted_true _ on)).trans (monitorStore_inside inside)),
        fun on outside => congrArg (act s) ((runs.trans (permitted_true _ on)).trans (monitorStore_outside outside)),
        fun off => congrArg (act s) (runs.trans (permitted_false _ off))⟩
    case unknown =>
      exact congrArg (act s) (((if_neg notBc).trans (monitorTakes_steady up free _ steady)).trans (badLine_unknown short h unknown))

end Sys2Proof.Machine
end

section
/-! SUPPORT. What a cut of power leaves of the life-cycle block, the battery domain, the alarms and the clock: every write that it breaks off
is one to the non-volatile die or to an archive card. -/
namespace Sys2Proof.Machine

/-- The blocks that a broken-off write to the die does not reach. -/
structure CutSpares (s t : State) : Prop where
  life    : t.life = s.life
  battery : t.battery = s.battery
  alarm   : t.alarm = s.alarm
  clock   : t.clock = s.clock

variable {s : State}

theorem CutSpares.refl (s : State) : CutSpares s s := ⟨rfl, rfl, rfl, rfl⟩

theorem CutSpares.trans {s t u : State} (h : CutSpares s t) (g : CutSpares t u) : CutSpares s u :=
  ⟨g.life.trans h.life, g.battery.trans h.battery, g.alarm.trans h.alarm, g.clock.trans h.clock⟩

theorem CutSpares.foldl_mem {α : Type} {f : State → α → State} {l : List α} (h : ∀ s, ∀ a ∈ l, CutSpares s (f s a)) (s : State) :
    CutSpares s (l.foldl f s) := by
  induction l generalizing s with
  | nil => exact CutSpares.refl s
  | cons a l ih => exact (h s a List.mem_cons_self).trans (ih (fun t b mem => h t b (List.mem_cons_of_mem a mem)) _)

theorem CutSpares.foldl {α : Type} {f : State → α → State} (h : ∀ s a, CutSpares s (f s a)) (l : List α) (s : State) :
    CutSpares s (l.foldl f s) :=
  CutSpares.foldl_mem (fun t a _ => h t a) s

/-! ### The Ledger, the operating time, the power-cycle count, the archive card -/

theorem cutRecord_spares (s : State) : CutSpares s (cutRecord s) := by
  unfold cutRecord
  dsimp only
  repeat' split
  all_goals exact ⟨rfl, rfl, rfl, rfl⟩

theorem cutLedger_spares (s : State) : CutSpares s (cutLedger s) := by
  unfold cutLedger
  dsimp only
  repeat' split
  · exact CutSpares.refl s
  · exact ⟨rfl, rfl, rfl, rfl⟩
  · exact ⟨rfl, rfl, rfl, rfl⟩
  · exact cutRecord_spares s

theorem cutOptime_spares (s : State) : CutSpares s (cutOptime s) := by
  unfold cutOptime
  dsimp only
  repeat' split
  all_goals exact ⟨rfl, rfl, rfl, rfl⟩

theorem cutCycles_spares (s : State) : CutSpares s (cutCycles s) := by
  unfold cutCycles
  split
  · exact CutSpares.refl s
  · dsimp only
    split <;> exact ⟨rfl, rfl, rfl, rfl⟩

theorem arcBreak_spares (s : State) : CutSpares s (arcBreak s) := by
  unfold arcBreak
  split <;> exact ⟨rfl, rfl, rfl, rfl⟩

/-- Without a life-cycle decision there is no transition to break off. -/
theorem cutTransition_idle (idle : s.life.decision = none) : cutTransition s = s := by
  unfold cutTransition
  rw [idle]

/-! ### Banks, minimum SVNs and signers -/

theorem markBank_spares (k : BankKind) (b : Bool) (m : BitVec 32) (s : State) : CutSpares s (markBank k b m s) :=
  ⟨State.setBank_life .., State.setBank_battery .., State.setBank_alarm .., State.setBank_clock ..⟩

theorem cutMark_spares (k : BankKind) (b : Bool) (old new : BitVec 32) (s : State) : CutSpares s (cutMark s k b old new) := by
  have drew : CutSpares s (drawFree (drawFree s).2).2 := ⟨rfl, rfl, rfl, rfl⟩
  unfold cutMark
  dsimp only
  split <;> exact drew.trans (markBank_spares ..)

theorem cutMarks_spares (s : State) : CutSpares s (cutMarks s) := by
  unfold cutMarks
  split
  · exact CutSpares.refl s
  · have drew : CutSpares s (drawFree s).2 := ⟨rfl, rfl, rfl, rfl⟩
    dsimp only
    split
    · exact drew
    · exact (drew.trans (cutMark_spares ..)).trans (CutSpares.foldl (fun t (e : BankKind × Bool) => markBank_spares e.1 e.2 _ t) _ _)

theorem cutSvn_spares (s : State) (x : Job) : CutSpares s (cutSvn s x) := by
  unfold cutSvn
  split
  · exact CutSpares.refl s
  · refine CutSpares.foldl (fun t c => ?_) _ s
    split
    · exact ⟨State.writeSvn_life .., State.writeSvn_battery .., State.writeSvn_alarm .., State.writeSvn_clock ..⟩
    · exact CutSpares.refl t

theorem cutCommits_spares (s : State) (x : Job) : CutSpares s (cutCommits s x) := by
  unfold cutCommits
  split
  · exact CutSpares.refl s
  · refine CutSpares.foldl (fun t c => ?_) _ s
    split
    · exact cutMark_spares ..
    · dsimp only
      split <;> exact ⟨rfl, rfl, rfl, rfl⟩
    · exact CutSpares.refl t

/-! ### Custodians -/

/-- The custodian table and the thresholds, of which a cut applies those commits that write them (R417). -/
theorem cutCustodians_spares (s : State) (x : Job) : CutSpares s (cutCustodians s x) := by
  unfold cutCustodians
  dsimp only
  split
  · exact CutSpares.refl s
  · split
    · exact ⟨rfl, rfl, rfl, rfl⟩
    · refine CutSpares.trans (t := (drawFree s).2) ⟨rfl, rfl, rfl, rfl⟩ (CutSpares.foldl_mem (fun t c mem => ?_) _)
      have writes := (List.mem_filter.mp mem).2
      split at writes
      · exact ⟨rfl, rfl, rfl, rfl⟩
      · exact ⟨rfl, rfl, rfl, rfl⟩
      · cases writes

/-! ### Keys -/

theorem drbgInstantiate_spares (s : State) (p : BitVec 8) (host : Bytes) : CutSpares s (drbgInstantiate s p host) := ⟨rfl, rfl, rfl, rfl⟩

theorem drbgReseed_spares (s : State) (p : BitVec 8) (addin : Bytes) : CutSpares s (drbgReseed s p addin) := ⟨rfl, rfl, rfl, rfl⟩

theorem setDrbg_spares (s : State) (p : BitVec 8) (d : Drbg) : CutSpares s (s.setDrbg p d) := ⟨rfl, rfl, rfl, rfl⟩

theorem drawBytes_spares (s : State) (p : BitVec 8) (fresh : Bool) (addin : Bytes) (n : Nat) :
    CutSpares s (drawBytes s p fresh addin n).2 := by
  unfold drawBytes
  dsimp only
  refine CutSpares.trans ?_ (setDrbg_spares ..)
  split
  · exact drbgInstantiate_spares ..
  · split
    · exact drbgReseed_spares ..
    · exact CutSpares.refl s

theorem drawNonce_spares (p : BitVec 8) (s : State) : CutSpares s (drawNonce p s).2 := by
  unfold drawNonce
  split
  · exact drawBytes_spares ..
  · exact ⟨rfl, rfl, rfl, rfl⟩

theorem putRecordAt_spares (n : Nat) (r : NvKey) (s : State) : CutSpares s (putRecordAt n r s) := by
  unfold putRecordAt
  split <;> exact ⟨rfl, rfl, rfl, rfl⟩

theorem storeKey_spares (p : BitVec 8) (s : State) (n : BitVec 13) (k : Key) : CutSpares s (storeKey p s n k) := by
  unfold storeKey
  split
  · exact CutSpares.refl s
  · exact (drawNonce_spares p s).trans (putRecordAt_spares ..)

theorem tearMark_spares (n : BitVec 13) (v : BitVec 8) (s : State) : CutSpares s (tearMark n v s) := ⟨rfl, rfl, rfl, rfl⟩

theorem cutStore_spares (s : State) (x : Job) : CutSpares s (cutStore s x) := by
  unfold cutStore
  split
  · exact CutSpares.refl s
  · have drew : CutSpares s (drawFree (drawFree s).2).2 := ⟨rfl, rfl, rfl, rfl⟩
    dsimp only
    split
    · exact drew
    · refine drew.trans (CutSpares.foldl (fun t c => ?_) _ _)
      split
      · split
        · exact (storeKey_spares ..).trans (tearMark_spares ..)
        · exact storeKey_spares ..
      · split
        · exact storeKey_spares ..
        · exact CutSpares.refl t
      · exact CutSpares.refl t

theorem setStateful_spares (n : BitVec 13) (g : Stateful → Stateful) (s : State) : CutSpares s (setStateful n g s) := by
  unfold setStateful setRecords
  repeat' split
  all_goals exact ⟨rfl, rfl, rfl, rfl⟩

theorem cutReserve_spares (s : State) (x : Job) : CutSpares s (cutReserve s x) := by
  unfold cutReserve
  split
  · exact CutSpares.refl s
  · have drew : CutSpares s (drawFree s).2 := ⟨rfl, rfl, rfl, rfl⟩
    dsimp only
    repeat' split
    · exact drew
    · exact CutSpares.trans (t := (drawFree (drawFree (drawFree s).2).2).2) ⟨rfl, rfl, rfl, rfl⟩ (setStateful_spares ..)
    · exact drew.trans (setStateful_spares ..)

/-! ### All of them -/

theorem cutJobs_spares (s : State) : CutSpares s (cutJobs s) :=
  CutSpares.foldl (fun t x => ((((cutStore_spares t x).trans (cutReserve_spares _ x)).trans (cutSvn_spares _ x)).trans
    (cutCustodians_spares _ x)).trans (cutCommits_spares _ x)) _ s

/-- The writes that a power-on reset cuts, before those of the jobs. -/
def cutWrites (s : State) : State :=
  cutFile (cutMarks (cutCycles (cutOptime (cutEvidence (arcBreak (cutTransition (cutLedger s)))))))

theorem cutEvidence_life (s : State) : (cutEvidence s).life = s.life := by
  unfold cutEvidence
  dsimp only
  split <;> rfl

theorem cutEvidence_written (written : s.alarm.evFresh = 0) : cutEvidence s = s := if_pos (.inl written)

theorem cutFile_life (s : State) : (cutFile s).life = s.life := by
  unfold cutFile
  dsimp only
  repeat' split
  all_goals rfl

theorem cutFile_still (still : s.battery.wroteAt ≠ s.clock.us) : cutFile s = s := if_pos still

/-- The writes cut after that of the Evidence Log. -/
theorem cutBehind_spares (s : State) : CutSpares s (cutMarks (cutCycles (cutOptime s))) :=
  ((cutOptime_spares s).trans (cutCycles_spares _)).trans (cutMarks_spares _)

section
variable (idle : s.life.decision = none)
include idle

/-- The writes cut before that of the Evidence Log. -/
theorem cutBefore_spares : CutSpares s (arcBreak (cutTransition (cutLedger s))) := by
  have ledger := cutLedger_spares s
  rw [cutTransition_idle ((congrArg Life.decision ledger.life).trans idle)]
  exact ledger.trans (arcBreak_spares _)

theorem cutWrites_life : (cutWrites s).life = s.life := by
  have before := (cutBefore_spares idle).life
  have behind := (cutBehind_spares (cutEvidence (arcBreak (cutTransition (cutLedger s))))).life
  rw [cutWrites, cutFile_life, behind, cutEvidence_life, before]

/-- With every entry written and no rewrite of the file in this microsecond, the battery domain is as it was. -/
theorem cutWrites_battery (written : s.alarm.evFresh = 0) (still : s.battery.wroteAt ≠ s.clock.us) :
    (cutWrites s).battery = s.battery := by
  have before := cutBefore_spares idle
  have all := before.trans (cutBehind_spares _)
  rw [cutWrites, cutEvidence_written ((congrArg Alarm.evFresh before.alarm).trans written), cutFile_still, all.battery]
  rw [all.battery, all.clock]
  exact still

end

end Sys2Proof.Machine
end

section
/-! SUPPORT. Power (R448, R449, R452, R457, R460, R464, R465, R472): what releases and asserts internal reset, the supplies of the battery
domain, and how a start ends; and from them the statements about resets and about starts. -/
namespace Sys2Proof.Machine

variable {s : State} {i : StartInput}

/-! ### What releases internal reset (R448, R452, R464, R465) -/

theorem powerOn_unpowered (off : s.dev.phase = .unpowered) : powerOn i s = startSequence i s := by
  unfold powerOn
  rw [off]

theorem exec_failedStartRestart (due : s.dev.phase = .restarting) : exec (.failedStartRestart i) s = .next (restart i s) :=
  congrArg Host.Outcome.next (if_pos due)

theorem exec_deviceRestart (asked : s.dev.restartDue = true) (free : restartHeld s = false) (up : alive s = true) :
    exec (.deviceRestart i) s = .next (restart i s) :=
  congrArg Host.Outcome.next (if_pos (by simp [asked, free, up]))

theorem exec_dormantStayTimeout (dormant : s.dev.phase = .dormant) : exec (.dormantStayTimeout i) s = .next (restart i s) :=
  congrArg Host.Outcome.next (if_pos dormant)

theorem startTimeout_boot (boots : s.dev.phase = .boot) :
    startTimeout s = startFails 0x0A01 (if s.battery.inStart then s else raiseAttempts s) :=
  if_neg (not_not_intro boots)

/-! ### Internal reset asserted (R448, R472) -/

/-- A pin that is set drives its level. -/
theorem pin_mem_setPins {ps : List (Pin × Bool)} {p : Pin × Bool} (mem : p ∈ ps) (s : State) : Out.pin p.1 p.2 ∈ (setPins ps s).out :=
  List.mem_append_left _ (List.mem_map.mpr ⟨p, List.mem_reverse.mpr mem, rfl⟩)

theorem assertReset_powered (on : s.dev.phase ≠ .unpowered) :
    let t := resetPins (logicReset (cutJobs (cutWrites s)))
    assertReset s = { t with dev := { t.dev with phase := .unpowered } } :=
  if_neg on

section
variable (on : s.dev.phase ≠ .unpowered)
include on

/-- What of the logic die is as after `State.reset`. -/
theorem assertReset_resets :
    (assertReset s).dev.phase = .unpowered ∧ (assertReset s).jobs = [] ∧ (assertReset s).queues = [] ∧
      (assertReset s).contexts = [] ∧ (assertReset s).vault = State.reset.vault ∧ (assertReset s).rng = State.reset.rng := by
  rw [assertReset_powered on]
  exact ⟨rfl, rfl, rfl, rfl, rfl, rfl⟩

theorem assertReset_pins {p : Pin × Bool}
    (mem : p ∈ [(Pin.dormantN, true), (.avsClk, false), (.avsMdata, true), (.dbgTxd, true), (.tdo, false), (.cardRstN, false),
      (.cardClk, false), (.cardIo, false), (.cardVccEn, false), (.sdClk, false), (.serdesTx, false)]) :
    Out.pin p.1 p.2 ∈ (assertReset s).out := by
  rw [assertReset_powered on]
  exact pin_mem_setPins mem _

/-- The life-cycle block after internal reset has the fuses that the cut has left. -/
theorem assertReset_fuses (idle : s.life.decision = none) : (assertReset s).life.fuses = s.life.fuses := by
  have cut := (cutJobs_spares (cutWrites s)).life.trans (cutWrites_life idle)
  rw [assertReset_powered on]
  show (cutJobs (cutWrites s)).life.fuses = s.life.fuses
  rw [cut]

theorem assertReset_battery (idle : s.life.decision = none) (written : s.alarm.evFresh = 0)
    (still : s.battery.wroteAt ≠ s.clock.us) : (assertReset s).battery = s.battery := by
  rw [assertReset_powered on]
  exact (cutJobs_spares (cutWrites s)).battery.trans (cutWrites_battery idle written still)

end

/-! ### The supplies of the battery domain (R449) -/

/-- Whether or not the lock latch took a level of TAMPER_OUT_N with it, the domain's file is lost. -/
theorem loseFile_battery (s : State) : (loseFile s).battery = lostFile s.battery := by
  unfold loseFile
  dsimp only
  split <;> rfl

theorem batteryLoss_battery (s : State) :
    (batteryLoss s).battery = { lostFile (assertReset s).battery with
      powered := false, onBattery := false, abnormal := [], vbatMv := 0, buffer := [] } :=
  congrArg (fun b : Battery => { b with powered := false, onBattery := false, abnormal := [], vbatMv := 0, buffer := [] })
    (loseFile_battery (assertReset s))

theorem batteryUp_unpowered (off : s.battery.powered = false) :
    batteryUp s = { s with battery := { lostFile s.battery with powered := true, seconds := 0, secondsCopy := 0 },
                           clock := { s.clock with batFrac := 0 } } :=
  if_neg (Bool.eq_false_iff.mp off)

/-- Settles O20: the phase and what is due pick the release; of internal reset, what a step keeps, what the cut spares, and the rest as
after `State.reset`. -/
theorem resetsAndSuppliesAct : Obligations.ResetsAndSuppliesAct := by
  refine ⟨fun s i => ⟨fun off => congrArg Host.Outcome.next (powerOn_unpowered off), exec_failedStartRestart, exec_deviceRestart,
      exec_dormantStayTimeout⟩,
    fun s => ⟨fun boots started => ?startedTimeout, fun boots first => ?firstTimeout, fun on => ?asserted, ?loss,
      fun off => congrArg (act s) (batteryUp_unpowered off), fun b => rfl, rfl⟩⟩
  case startedTimeout =>
    exact congrArg (act s) ((startTimeout_boot boots).trans (congrArg (startFails 0x0A01) (if_pos started)))
  case firstTimeout =>
    exact congrArg (act s) ((startTimeout_boot boots).trans (congrArg (startFails 0x0A01) (if_neg (Bool.eq_false_iff.mp first))))
  case asserted =>
    have kept := (assertReset_keeps s (Keeps.refl s)).kept
    obtain ⟨phase, jobs, queues, contexts, vault, rng⟩ := assertReset_resets on
    exact ⟨assertReset s, rfl, phase, kept.pending, jobs, queues, contexts, vault, rng, kept.uid, kept.order, assertReset_fuses on,
      assertReset_battery on, fun p mem => assertReset_pins on mem⟩
  case loss =>
    refine ⟨batteryLoss s, rfl, ?_⟩
    rw [batteryLoss_battery]
    exact ⟨rfl, rfl, rfl, rfl, rfl, rfl⟩

/-! ### How a start ends (R457, R460) -/

/-- Events change the Ledger alone. -/
theorem note_dev (ev : BitVec 16) (p : Option (BitVec 8)) (detail : Bytes) (s : State) : (note ev p detail s).dev = s.dev := by
  obtain ⟨l, e⟩ := note_eq ev p detail s
  rw [e]

theorem note_battery (ev : BitVec 16) (p : Option (BitVec 8)) (detail : Bytes) (s : State) :
    (note ev p detail s).battery = s.battery := by
  obtain ⟨l, e⟩ := note_eq ev p detail s
  rw [e]

/-- The records of failed starts change the Ledger, and leave none unrecorded. -/
theorem noteFailed_eq (s : State) :
    ∃ l, noteFailed s = { s with ledger := l, battery := { s.battery with unrecorded := [] } } := by
  have noted (es : List (BitVec 16 × BitVec 8)) (s : State) :
      ∃ l, es.foldl (fun s e => note 0x0F02 none (wordBytes 2 e.1 ++ [e.2]) s) s = { s with ledger := l } := by
    induction es generalizing s with
    | nil => exact ⟨s.ledger, rfl⟩
    | cons e es ih =>
      obtain ⟨l, first⟩ := note_eq 0x0F02 none (wordBytes 2 e.1 ++ [e.2]) s
      rw [List.foldl_cons, first]
      obtain ⟨m, others⟩ := ih { s with ledger := l }
      exact ⟨m, others⟩
  obtain ⟨l, e⟩ := noted s.battery.unrecorded.reverse s
  exact ⟨l, by rw [noteFailed, e]⟩

/-- PLAN_INT and LED_INT as READY leaves them: the alternate bank was used, the last tally was torn. -/
def altSaid (s : State) : State := if s.plan.altUsed then planInt 8 s else s

def tornSaid (s : State) : State :=
  if s.ledger.tornAtStart then { s with ledger := { s.ledger with lint := s.ledger.lint ||| 0x10 } } else s

/-- The end of `reachReady`: what the start has found is signalled, and the failed starts and this one are recorded. -/
def readyNoted (s : State) : State :=
  let t := tornSaid (altSaid s)
  note 0x0F01 none (wordBytes 2 ((devStatus t).setWidth 16 : BitVec 16) ++ [flag 8 t.plan.bank, flag 8 t.seq.bank, flag 8 t.boot.fwBank])
    (noteFailed t)

theorem altSaid_spares (s : State) : (altSaid s).dev = s.dev ∧ (altSaid s).battery = s.battery := by
  unfold altSaid
  split <;> exact ⟨rfl, rfl⟩

theorem tornSaid_spares (s : State) : (tornSaid s).dev = s.dev ∧ (tornSaid s).battery = s.battery := by
  unfold tornSaid
  split <;> exact ⟨rfl, rfl⟩

theorem readyNoted_spares (s : State) :
    (readyNoted s).dev = s.dev ∧ (readyNoted s).battery = { s.battery with unrecorded := [] } := by
  obtain ⟨l, failed⟩ := noteFailed_eq (tornSaid (altSaid s))
  obtain ⟨devAlt, batteryAlt⟩ := altSaid_spares s
  obtain ⟨devTorn, batteryTorn⟩ := tornSaid_spares (altSaid s)
  unfold readyNoted
  rw [note_dev, note_battery, failed]
  exact ⟨devTorn.trans devAlt, congrArg (fun b : Battery => { b with unrecorded := [] }) (batteryTorn.trans batteryAlt)⟩

/-- The state in which the part is READY, before that is recorded. -/
theorem reachReady_eq (s : State) :
    ∃ t, reachReady s = readyNoted t ∧ t.dev.phase = .ready ∧ t.battery.attempts = 0 ∧ t.dev.bootReason = 0 :=
  ⟨_, rfl, rfl, rfl, rfl⟩

/-- A part that reaches READY has no attempts and no reason left. -/
theorem reachReady_ready (s : State) :
    (reachReady s).dev.phase = .ready ∧ (reachReady s).battery.attempts = 0 ∧ (reachReady s).dev.bootReason = 0 := by
  obtain ⟨t, e, phase, attempts, reason⟩ := reachReady_eq s
  obtain ⟨dev, battery⟩ := readyNoted_spares t
  rw [e, dev, battery]
  exact ⟨phase, attempts, reason⟩

/-- A start that fails ends its jobs, and its reason stands at the head of the history. -/
theorem startFails_recorded (reason : BitVec 16) (s : State) :
    (startFails reason s).dev.phase = .restarting ∧ (startFails reason s).dev.bootReason = reason ∧ (startFails reason s).jobs = [] ∧
      (startFails reason s).battery.history = (reason :: s.battery.history).take 6 :=
  ⟨rfl, rfl, rfl, rfl⟩

section
variable (whole : i.completes = true)
include whole

theorem startOn_passes {t : State} (passes : startSteps i (raiseAttempts s) = .inr t) :
    startOn i s = reachReady (startJournals (returning s) t) := by
  unfold startOn
  dsimp only
  rw [if_neg (by simp [whole]), passes]

theorem startOn_fails {reason : BitVec 16} {t : State} (fails : startSteps i (raiseAttempts s) = .inl (reason, t)) :
    startOn i s = startFails reason t := by
  unfold startOn
  dsimp only
  rw [if_neg (by simp [whole]), fails]

end

/-- Settles O21: the steps pass and the part reaches READY, or the first that fails gives the reason. -/
theorem startsEndReadyOrRecorded : Obligations.StartsEndReadyOrRecorded := by
  intro i s whole
  split
  next t passes =>
    rw [startOn_passes whole passes]
    exact reachReady_ready _
  next reason t fails =>
    rw [startOn_fails whole fails]
    exact startFails_recorded reason t

end Sys2Proof.Machine
end

section
/-! SUPPORT. The test port (R375, R452): the identification field by field, what an instruction selects, and which instructions drive the
balls; and from them the statement about the test port. -/
namespace Sys2Proof.Machine

variable {s : State}

/-! ### The identification -/

theorem idcode_version : bits idcode 28 4 = (2 : BitVec 4) :=
  calc bits idcode 28 4
    _ = (0x2#4 ++ 0x0C18#16 ++ Config.jedecCode).extractLsb' 27 4 := BitVec.extractLsb'_append_eq_of_le (by decide)
    _ = (0x2#4 ++ 0x0C18#16).extractLsb' 16 4 := BitVec.extractLsb'_append_eq_of_le (by decide)
    _ = 2 := BitVec.extractLsb'_append_eq_left

theorem idcode_part : bits idcode 12 16 = (0x0C18 : BitVec 16) :=
  calc bits idcode 12 16
    _ = (0x2#4 ++ 0x0C18#16 ++ Config.jedecCode).extractLsb' 11 16 := BitVec.extractLsb'_append_eq_of_le (by decide)
    _ = (0x2#4 ++ 0x0C18#16).extractLsb' 0 16 := BitVec.extractLsb'_append_eq_of_le (by decide)
    _ = 0x0C18 := by decide

theorem idcode_maker : bits idcode 1 11 = Config.jedecCode :=
  calc bits idcode 1 11
    _ = (0x2#4 ++ 0x0C18#16 ++ Config.jedecCode).extractLsb' 0 11 := BitVec.extractLsb'_append_eq_of_le (by decide)
    _ = Config.jedecCode.extractLsb' 0 11 := BitVec.extractLsb'_append_eq_of_add_le (by decide)
    _ = Config.jedecCode := BitVec.extractLsb'_eq_self

theorem idcode_one : idcode.getLsbD 0 = true := by
  rw [idcode, BitVec.getLsbD_append]
  rfl

/-! ### What an instruction selects -/

theorem selectTdr_idcode (s : State) :
    selectTdr { s with dev := { s.dev with tap := 0x01 } } =
      { s with dev := { s.dev with tap := 0x01, tdr := idcode } } := rfl

theorem selectTdr_sample (s : State) : selectTdr { s with dev := { s.dev with tap := 0x02 } } =
    { s with dev := { s.dev with tap := 0x02, tdr := BitVec.ofNat 32 (drawFree s).1 }, draws := (drawFree s).2.draws } := rfl

theorem selectTdr_allOnes (s : State) :
    selectTdr { s with dev := { s.dev with tap := 0xFF } } =
      { s with dev := { s.dev with tap := 0xFF, tdr := 0 } } := rfl

theorem selectTdr_bscan (s : State) : (selectTdr s).dev.bscan = s.dev.bscan := by
  unfold selectTdr
  dsimp only
  split <;> rfl

/-! ### What an instruction does -/

theorem drivesPins_iff (ir : BitVec 8) : drivesPins ir = true ↔ ir ∈ [0x00, 0x04, 0x05] := by
  simp [drivesPins, or_assoc]

/-- An instruction takes effect on the balls: it drives them, and the state allows it. -/
def takesBalls (ir : BitVec 8) (s : State) : Bool := drivesPins ir && bscanAllowed s && alive s

theorem takesBalls_of {ir : BitVec 8} (drives : ir ∈ [0x00, 0x04, 0x05]) (allowed : bscanAllowed s = true) (up : alive s = true) :
    takesBalls ir s = true := by
  rw [takesBalls, (drivesPins_iff ir).mpr drives, allowed, up]
  rfl

/-- With the balls taken over the jobs end, those that wait are judged again, and the ports lose their links (R375). -/
def endForBalls (u : State) : State :=
  let v := (u.jobs.filter (fun x => x.phase = .running ∨ x.phase = .suspended ∨ x.phase = .storing)).foldl lockJob u
  let w := (v.jobs.filter (fun x => x.phase = .waiting)).foldl judgeJob v
  note 0x0803 none [] { w with stream := { w.stream with ports := w.stream.ports.map dropPort } }

/-- The balls are marked as taken, and signalled. -/
def ballsTaken (t : State) : State := lifeInt 8 { t with dev := { t.dev with bscan := true } }

theorem ballsTaken_eq (t : State) :
    ballsTaken t = { t with dev := { t.dev with bscan := true }, life := { t.life with lint := t.life.lint ||| 8 } } := rfl

/-- The instruction that is in force after one is loaded. -/
def tapOf (ir : BitVec 8) (s : State) : BitVec 8 := if takesBalls ir s || ir == 0x01 || ir == 0x02 then ir else 0xFF

/-- An instruction is in force and selects its data register; one that takes effect also takes the balls, where they are not taken yet. -/
theorem bscanTakes_eq (ir : BitVec 8) (s : State) :
    bscanTakes ir s =
      if takesBalls ir s = false ∨ (selectTdr { s with dev := { s.dev with tap := tapOf ir s } }).dev.bscan = true then
        selectTdr { s with dev := { s.dev with tap := tapOf ir s } }
      else endForBalls (ballsTaken (selectTdr { s with dev := { s.dev with tap := tapOf ir s } })) := by
  unfold bscanTakes tapOf takesBalls endForBalls ballsTaken
  dsimp only

theorem tapOf_takes {ir : BitVec 8} (takes : takesBalls ir s = true) : tapOf ir s = ir := if_pos (by simp [takes])

section
variable {ir : BitVec 8} (quiet : takesBalls ir s = false)
include quiet

theorem bscanTakes_known (known : ir = 0x01 ∨ ir = 0x02) : bscanTakes ir s = selectTdr { s with dev := { s.dev with tap := ir } } := by
  have tap : tapOf ir s = ir := if_pos (by rcases known with rfl | rfl <;> simp)
  rw [bscanTakes_eq, if_pos (.inl quiet), tap]

/-- Any other instruction that does not take effect reads as BYPASS. -/
theorem bscanTakes_other (noId : ir ≠ 0x01) (noSample : ir ≠ 0x02) :
    bscanTakes ir s = { s with dev := { s.dev with tap := 0xFF, tdr := 0 } } := by
  have tap : tapOf ir s = 0xFF := by
    rw [tapOf, quiet, beq_false_of_ne noId, beq_false_of_ne noSample]
    rfl
  rw [bscanTakes_eq, if_pos (.inl quiet), tap, selectTdr_allOnes]

end

section
variable {ir : BitVec 8} (takes : takesBalls ir s = true)
include takes

theorem bscanTakes_again (taken : s.dev.bscan = true) : bscanTakes ir s = selectTdr { s with dev := { s.dev with tap := ir } } := by
  rw [bscanTakes_eq, if_pos (.inr ((selectTdr_bscan _).trans taken)), tapOf_takes takes]

theorem bscanTakes_first (first : s.dev.bscan = false) :
    let t := selectTdr { s with dev := { s.dev with tap := ir } }
    bscanTakes ir s =
      endForBalls { t with dev := { t.dev with bscan := true }, life := { t.life with lint := t.life.lint ||| 8 } } := by
  intro t
  rw [bscanTakes_eq, tapOf_takes takes, selectTdr_bscan, ← ballsTaken_eq]
  exact if_neg (by simp [takes, first])

end

/-! ### The statement -/

/-- Settles O34: the fields of the identification, then each instruction by whether it drives the balls and may. -/
theorem testPortInstructions : Obligations.TestPortInstructions := by
  refine ⟨⟨idcode_version, idcode_part, idcode_maker, idcode_one⟩, fun s => ⟨rfl, ?id, fun ir other => ?other, ?sample,
    fun closed ir drives => ?closed, fun allowed up ir drives => ⟨fun taken => ?again, fun first => ?first⟩⟩⟩
  case id => exact congrArg (act s) (bscanTakes_known rfl (.inl rfl))
  case sample => exact congrArg (act s) (bscanTakes_known rfl (.inr rfl))
  case other =>
    obtain ⟨noExtest, noId, noSample, noRest⟩ : ir ≠ 0x00 ∧ ir ≠ 0x01 ∧ ir ≠ 0x02 ∧ ir ∉ [0x04, 0x05] := by simpa using other
    have quiet : takesBalls ir s = false := by
      rw [takesBalls, Bool.eq_false_iff.mpr (mt (drivesPins_iff ir).mp (by simpa using And.intro noExtest noRest)), Bool.false_and, Bool.false_and]
    exact congrArg (act s) (bscanTakes_other quiet noId noSample)
  case closed =>
    have quiet : takesBalls ir s = false := by rcases closed with h | h <;> simp [takesBalls, h]
    obtain ⟨noId, noSample⟩ : ir ≠ 0x01 ∧ ir ≠ 0x02 := by
      constructor <;> rintro rfl <;> exact absurd drives (by decide)
    exact congrArg (act s) (bscanTakes_other quiet noId noSample)
  case again => exact congrArg (act s) (bscanTakes_again (takesBalls_of drives allowed up) taken)
  case first => exact congrArg (act s) (bscanTakes_first (takesBalls_of drives allowed up) first)

end Sys2Proof.Machine
end

section
/-! SUPPORT. A trip of an alarm source (R383, R387, R388) up to its effect, and what comparator A's decision and its response make of it; and
from them the statement about trips. -/
namespace Sys2Proof.Machine

variable {s : State} {i : AlarmSource} {v : TripReading}

/-- What the part keeps of a reported reading differs from it in the tracked value alone. -/
theorem keptReading_agreesA (s : State) (i : AlarmSource) (v : TripReading) : (keptReading s i v).agreesA = v.agreesA := by
  unfold keptReading
  repeat' split
  all_goals rfl

/-- A trip counted, signalled and recorded, before its response acts. -/
def tripNoted (s : State) (i : AlarmSource) (v : TripReading) : State :=
  let w := keptReading s i v
  note 0x0901 none (wordBytes 2 (sourceCode i) ++ [(responseOf s i).setWidth 8, 0] ++ tripDetail w)
    (alarmInt 1 (leaveWindow i w (tamperInput i true
      (s.setSource i { s.source i with inForce := true, trips := satAdd (s.source i).trips 1 }))))

/-- Of the sources, a failed tag of the vault alone has an effect before the response (R347). -/
def tripFound (s : State) (i : AlarmSource) (v : TripReading) : State :=
  if i = .vaultIntegrity then tagFails ((keptReading s i v).measured.setWidth 13) (tripNoted s i v) else tripNoted s i v

theorem trip_eq (i : AlarmSource) (v : TripReading) (s : State) :
    let w := keptReading s i v
    let r := responseOf s i
    let u := tripFound s i v
    trip i v s =
      if w.agreesA = false then joinDecision i w r u
      else if 2 ≤ r.toNat then joinDecision i w r (if u.battery.lockLatch then u else setPins [(.tamperOutN, false)] u)
      else joinDecision i w r (tripEvidence i w r false
        (if r = 1 then haltEffect i (u.setSource i { u.source i with acting := r }) else u.setSource i { u.source i with acting := r })) := by
  cases i <;> rfl

section
variable (calls : v.agreesA = true)
include calls

theorem trip_low (low : ¬2 ≤ (responseOf s i).toNat) :
    let u := tripFound s i v
    trip i v s = joinDecision i (keptReading s i v) (responseOf s i) (tripEvidence i (keptReading s i v) (responseOf s i) false
      (if responseOf s i = 1 then haltEffect i (u.setSource i { u.source i with acting := responseOf s i })
       else u.setSource i { u.source i with acting := responseOf s i })) := by
  have kept : ¬(keptReading s i v).agreesA = false := by simp [keptReading_agreesA, calls]
  exact (trip_eq i v s).trans ((if_neg kept).trans (if_neg low))

theorem trip_note (response : responseOf s i = 0) :
    let u := tripFound s i v
    trip i v s = joinDecision i (keptReading s i v) 0 (tripEvidence i (keptReading s i v) 0 false
      (u.setSource i { u.source i with acting := 0 })) := by
  have low := trip_low (s := s) (i := i) calls (by rw [response]; decide)
  rw [response] at low
  exact low

theorem trip_halt (response : responseOf s i = 1) :
    let u := tripFound s i v
    trip i v s = joinDecision i (keptReading s i v) 1 (tripEvidence i (keptReading s i v) 1 false
      (haltEffect i (u.setSource i { u.source i with acting := 1 }))) := by
  have low := trip_low (s := s) (i := i) calls (by rw [response]; decide)
  rw [response] at low
  exact low

theorem trip_high (high : 2 ≤ (responseOf s i).toNat) :
    let u := tripFound s i v
    trip i v s = joinDecision i (keptReading s i v) (responseOf s i)
      (if u.battery.lockLatch then u else { u with out := .pin .tamperOutN false :: u.out }) := by
  have kept : ¬(keptReading s i v).agreesA = false := by simp [keptReading_agreesA, calls]
  exact (trip_eq i v s).trans ((if_neg kept).trans (if_pos high))

end

theorem trip_uncalled (quiet : v.agreesA = false) :
    trip i v s = joinDecision i (keptReading s i v) (responseOf s i) (tripFound s i v) :=
  (trip_eq i v s).trans (if_pos ((keptReading_agreesA s i v).trans quiet))

/-- A trip joins with what comparator A says in the report. -/
theorem joinDecision_kept (r : BitVec 2) (t : State) :
    let d := t.alarm.decision.getD { sources := [], response := 0 }
    joinDecision i (keptReading s i v) r t = { t with alarm := { t.alarm with decision := some { d with
      sources := d.sources ++ [(i, keptReading s i v)],
      response := if v.agreesA then maxResp d.response r else d.response } } } := by
  intro d
  unfold joinDecision
  rw [keptReading_agreesA]

/-- Settles O24: A's decision and the response pick what the trip does before it joins the double decision. -/
theorem alarmTripsCountAndAct : Obligations.AlarmTripsCountAndAct := by
  intro s i v up left w r n u joined
  have taken : exec (.alarmTrip i v) s = act s (trip i v s) := if_pos (by simp [up, left])
  have joins (t : State) : joinDecision i w r t = joined t := joinDecision_kept r t
  refine ⟨fun calls note => ?note, fun calls halt => ?halt, fun calls high => ?high, fun quiet => ?uncalled⟩
  case note => exact taken.trans (congrArg (act s) ((trip_note calls note).trans ((congrArg (joinDecision i w · _) note.symm).trans (joins _))))
  case halt => exact taken.trans (congrArg (act s) ((trip_halt calls halt).trans ((congrArg (joinDecision i w · _) halt.symm).trans (joins _))))
  case high => exact taken.trans (congrArg (act s) ((trip_high calls high).trans (joins _)))
  case uncalled => exact taken.trans (congrArg (act s) ((trip_uncalled quiet).trans (joins _)))

end Sys2Proof.Machine
end

section
/-! SUPPORT. The Ledger's own writes (R400, R402, R403, R405): the slots that a write uses, the record that closes it, the operating time; and
from them the statement about them. -/
namespace Sys2Proof.Machine

variable {s : State}

theorem changeLast_length (f : Record → Record) (slots : List Record) : (changeLast f slots).length = slots.length := by
  unfold changeLast
  split
  · rfl
  · exact List.length_mapIdx

/-- The pending tally changes a record and uses no slot. -/
theorem tallyWrite_slots_length (l : Ledger) : (tallyWrite l).slots.length = l.slots.length := by
  unfold tallyWrite
  split
  · rfl
  · exact changeLast_length _ _

theorem putRecord_slots_length (r : Record) (l : Ledger) : (putRecord r l).slots.length = l.slots.length + 1 := by
  simp [putRecord]

/-- A Ledger with a slot left before the last is not closed. -/
theorem closeFull_open (room : s.ledger.slots.length < 16383) : closeFull s = s := if_pos (.inr room)

section
variable {e : Event} {rest : List Event} (ready : nvReady s = true) (free : s.ledger.clearing = false)
  (head : s.ledger.queue = e :: rest)
include ready free head

theorem ledgerRecordWrite_head (room : s.ledger.slots.length < 16383) :
    let l := putRecord (recordOf e s.ledger.droppedBefore) (tallyWrite s.ledger)
    ledgerRecordWrite s = closeFull { s with ledger := { l with queue := rest, droppedBefore := false } } := by
  unfold ledgerRecordWrite
  rw [if_pos (by simp [ready, free]), writeHead, head]
  exact if_neg (Nat.not_le.mpr room)

theorem ledgerRecordWrite_open (room : s.ledger.slots.length < 16382) :
    let l := putRecord (recordOf e s.ledger.droppedBefore) (tallyWrite s.ledger)
    ledgerRecordWrite s = { s with ledger := { l with queue := rest, droppedBefore := false } } := by
  refine (ledgerRecordWrite_head ready free head (by omega)).trans (closeFull_open ?_)
  show (putRecord _ (tallyWrite s.ledger)).slots.length < 16383
  rw [putRecord_slots_length, tallyWrite_slots_length]
  omega

end

theorem ledgerTallyWrite_ready (ready : nvReady s = true) (free : s.ledger.clearing = false) :
    ledgerTallyWrite s = { s with ledger := tallyWrite s.ledger } :=
  if_pos (by simp [ready, free])

section
variable (ready : nvReady s = true)
include ready

theorem optimeSave_second (turn : s.nv.optimeNext = true) :
    optimeSave s = { s with nv := { s.nv with optimeB := some s.optime, optimeNext := false } } :=
  (if_neg (by simp [ready])).trans (if_pos turn)

theorem optimeSave_first (turn : s.nv.optimeNext = false) :
    optimeSave s = { s with nv := { s.nv with optimeA := some s.optime, optimeNext := true } } :=
  (if_neg (by simp [ready])).trans (if_neg (Bool.eq_false_iff.mp turn))

end

/-- Settles O28: the slots left decide whether the record of the head closes the Ledger, and the turn picks the copy of the operating time. -/
theorem ledgerWritesItsRecords : Obligations.LedgerWritesItsRecords := by
  intro s ready
  exact ⟨fun e rest free head room => congrArg (act s) (ledgerRecordWrite_open ready free head room),
    fun e rest free head last => congrArg (act s) (ledgerRecordWrite_head ready free head (by omega)),
    fun free => congrArg (act s) (ledgerTallyWrite_ready ready free), fun turn => congrArg (act s) (optimeSave_second ready turn),
    fun turn => congrArg (act s) (optimeSave_first ready turn)⟩

end Sys2Proof.Machine
end

section
/-! SUPPORT. The pace loop and its regulator (R450, R451): a sample, the voltage that it commands or holds, and what a response of the
regulator does; and from them the statement about the loop. -/
namespace Sys2Proof.Machine

variable {s : State}

/-! ### Samples (R450) -/

/-- A beat that leaves the range signals SLOW, once. -/
def slowSaid (beat : BitVec 12) (s : State) : State :=
  if 1800 < beat.toNat ∧ s.pace.beat.toNat ≤ 1800 then { s with pace := { s.pace with pint := s.pace.pint ||| 4 } } else s

theorem slowSaid_avsRail (beat : BitVec 12) (s : State) : (slowSaid beat s).pace.avsRail = s.pace.avsRail := by
  unfold slowSaid
  split <;> rfl

/-- The loop with the beat that it has read. -/
def beatRead (beat : BitVec 12) (p : Pace) : Pace := { p with beat := beat, commandAge := min 10 (p.commandAge + 1) }

/-- The loop commands no other voltage: the regulator is judged faulty, 10 µs are not over, or the beat calls for none. -/
def holdsVolts (beat : BitVec 12) (p : Pace) : Prop :=
  p.avsFault = true ∨ p.commandAge < 10 ∨ nextVolts p.commanded.toNat beat.toNat p.target.toNat = p.commanded.toNat

/-- A voltage commanded over the regulator's rail, where it is read back, and then the status. -/
def voltsOver (rail : BitVec 4) (mv : BitVec 12) (t : State) : State :=
  { t with pace := { t.pace with commanded := mv, commandAge := 0 },
           alarm := { t.alarm with railTracked := t.alarm.railTracked.set 0 mv },
           out := [.avs rail .readStatus, .avs rail .readVout, .avs rail (.write mv)] ++ t.out }

section
variable {beat : BitVec 12} (running : s.pace.running = true) (up : alive s = true)
include running up

theorem paceReads_slow :
    paceReads beat s = (let t := slowSaid beat s
      let p := beatRead beat t.pace
      let mv := nextVolts p.commanded.toNat beat.toNat p.target.toNat
      if p.avsFault = true ∨ p.commandAge < 10 ∨ mv = p.commanded.toNat then { t with pace := p }
      else commandVolts (BitVec.ofNat 12 mv) { t with pace := p }) := by
  have slow : (if decide (1800 < beat.toNat) && !decide (1800 < s.pace.beat.toNat) then paceInt 4 s else s) = slowSaid beat s :=
    if_congr (by simp) rfl rfl
  unfold paceReads
  rw [if_neg (by simp [running, up])]
  dsimp only
  rw [slow]
  rfl

theorem paceReads_holds (holds : holdsVolts beat (beatRead beat (slowSaid beat s).pace)) :
    paceReads beat s = { slowSaid beat s with pace := beatRead beat (slowSaid beat s).pace } :=
  (paceReads_slow running up).trans (if_pos holds)

theorem paceReads_commands (moves : ¬holdsVolts beat (beatRead beat (slowSaid beat s).pace)) :
    let t := slowSaid beat s
    let p := beatRead beat t.pace
    let mv := BitVec.ofNat 12 (nextVolts p.commanded.toNat beat.toNat p.target.toNat)
    paceReads beat s = voltsOver s.pace.avsRail mv { t with pace := p } := by
  intro t p mv
  rw [← slowSaid_avsRail beat s]
  exact (paceReads_slow running up).trans (if_neg moves)

end

/-- The jobs that compute go on at a beat that has changed (R21, R163). -/
def paceFollowed (before beat : BitVec 12) (t : State) : State :=
  if beat = before then t else t.jobs.foldl (fun s x => extendRun (repaceJob s x) x) t

theorem paceSample_eq {beat : BitVec 12} {t : State} (reads : paceReads beat s = t) (beats : t.pace.beat = beat) :
    paceSample beat s = paceFollowed s.pace.beat beat t := by
  unfold paceSample paceFollowed
  dsimp only
  rw [reads, beats]

/-! ### Responses of the regulator (R451) -/

section
variable {r : AvsResponse}

theorem avsResponse_bad (bad : r.good = false) :
    let t : State := { s with pace := { s.pace with badFrames := min 3 (s.pace.badFrames + 1) } }
    avsResponse r s = if t.pace.badFrames = 3 then avsFails false t else t :=
  if_pos bad

theorem avsResponse_good (good : r.good = true) :
    let t : State := { s with pace := { s.pace with badFrames := 0, readback := r.readback } }
    avsResponse r s =
      if readbackOff s.pace.commanded r.readback = true then (if r.lasted then avsFails true t else t)
      else if s.pace.avsFault = true then paceInt 2 { t with pace := { t.pace with avsFault := false } } else t :=
  if_neg (by simp [good])

end

theorem avsRetry_faulty (faulty : s.pace.avsFault = true) (up : alive s = true) : avsRetry s = avsWrite s.pace.commanded s :=
  if_pos (by simp [faulty, up])

/-! ### The statement -/

/-- Settles O23: what holds the voltage, then the frame's check, the read-back and the judgement in force. -/
theorem paceLoopCommandsItsVoltage : Obligations.PaceLoopCommandsItsVoltage := by
  intro s frames
  refine ⟨fun beat running up => ?sample, fun r up => ?response,
    fun faulty up => congrArg (act s) (avsRetry_faulty faulty up)⟩
  case sample =>
    intro slow p mv hold after
    exact ⟨fun holds => congrArg (act s) (paceSample_eq (paceReads_holds running up holds) rfl),
      fun moves => congrArg (act s) (paceSample_eq (paceReads_commands running up moves) rfl)⟩
  case response =>
    intro bad ok
    have taken : exec (.avsFrameResponse r) s = act s (avsResponse r s) := if_pos up
    exact ⟨fun fails few => taken.trans (congrArg (act s) ((avsResponse_bad fails).trans (if_neg few))),
      fun fails third => taken.trans (congrArg (act s) ((avsResponse_bad fails).trans (if_pos third))),
      fun good off lasted => taken.trans (congrArg (act s) (((avsResponse_good good).trans (if_pos off)).trans (if_pos lasted))),
      fun good near sound => taken.trans (congrArg (act s)
        (((avsResponse_good good).trans (if_neg (Bool.eq_false_iff.mp near))).trans (if_neg (Bool.eq_false_iff.mp sound)))),
      fun good near faulty => taken.trans (congrArg (act s)
        (((avsResponse_good good).trans (if_neg (Bool.eq_false_iff.mp near))).trans (if_pos faulty)))⟩

end Sys2Proof.Machine
end

section
/-! SUPPORT. The card sockets (R411 to R415, R418, R419, R422, R427): what each event comes to in the stage that the keeper's exchange is in, and
what ends an archive job; and from them the statement about the cards. -/
namespace Sys2Proof.Machine

variable {s : State}

/-! ### The keeper socket and the session (R411, R415, R418) -/

theorem keeperInsert_empty (empty : s.cards.keeperIn = false) :
    keeperInsert s = { s with cards := { s.cards with keeperIn := true, cint := s.cards.cint ||| 1 } } :=
  if_neg (Bool.eq_false_iff.mp empty)

theorem keeperRemove_present (present : s.cards.keeperIn = true) :
    keeperRemove s = keeperAbort 0x0FA2 { s with cards := { s.cards with keeperIn := false, cint := s.cards.cint ||| 2 } } :=
  if_neg (by simp [present])

section
variable {q : Session} (session : s.cards.session = some q)
include session

theorem sessionExpiry_over (ended : q.endsAt ≤ s.clock.us) :
    sessionExpiry s = { s with cards := { s.cards with session := none, lastSerials := q.serials, cint := s.cards.cint ||| 8 } } := by
  have gone : (sessionNow s).isNone = true := by simp [sessionNow, session, Nat.not_lt.mpr ended]
  unfold sessionExpiry sessionOver endSession
  rw [if_pos gone, session]

theorem sessionExpiry_lasts (lasts : s.clock.us < q.endsAt) : sessionExpiry s = s :=
  if_neg (by simp [sessionNow, session, lasts])

end

/-! ### Activation (R411 to R413) -/

section
variable {k : KeeperRun} (keeper : s.cards.keeper = some k)
include keeper

section
variable {a : Bytes} (stage : k.stage = .atr)
include stage

theorem atrReceive_refused (refused : atrParse a = none) : atrReceive a s = keeperAbort 0x0FA1 s := by
  unfold atrReceive
  rw [keeper]
  dsimp only
  rw [if_neg (not_not_intro stage), refused]

section
variable {t : Atr} (parsed : atrParse a = some t)
include parsed

theorem atrReceive_second (second : k.second = true) :
    atrReceive a s = sendIfs k { s with cards := { s.cards with ifsc := t.ifsc, bwi := t.bwi, cwi := t.cwi } } := by
  unfold atrReceive
  rw [keeper]
  dsimp only
  rw [if_neg (not_not_intro stage), parsed]
  exact if_pos second

variable (first : k.second = false)
include first

/-- A card that names its pair in TA2 is spoken to at that pair, where the part supports it. -/
theorem atrReceive_specific (specific : t.ta2.isSome = true) :
    let u : State := { s with cards := { s.cards with ifsc := t.ifsc, bwi := t.bwi, cwi := t.cwi } }
    atrReceive a s = if pairOk t.ta1 then sendIfs k (setPair t.ta1 u) else keeperAbort 0x0FA1 u := by
  obtain ⟨mode, named⟩ := Option.isSome_iff_exists.mp specific
  unfold atrReceive
  rw [keeper]
  dsimp only
  rw [if_neg (not_not_intro stage), parsed]
  dsimp only
  rw [if_neg (Bool.eq_false_iff.mp first), named]

theorem atrReceive_negotiable (negotiable : t.ta2 = none) :
    let req : Bytes := if pairOk t.ta1 then [0xFF, 0x11, t.ta1] else [0xFF, 0x01]
    atrReceive a s = cardSend (req ++ [xorSum req]) (setKeeper { k with stage := .pps (req ++ [xorSum req]) }
      { s with cards := { s.cards with ifsc := t.ifsc, bwi := t.bwi, cwi := t.cwi } }) := by
  unfold atrReceive
  rw [keeper]
  dsimp only
  rw [if_neg (not_not_intro stage), parsed]
  dsimp only
  rw [if_neg (Bool.eq_false_iff.mp first), negotiable]

end

theorem cardWaitTimeout_atr : cardWaitTimeout s = keeperAbort 0x0FA1 s := by
  unfold cardWaitTimeout
  rw [keeper]
  dsimp only
  rw [stage]

end

omit keeper in
theorem ppsFails_again (second : k.second = true) : ppsFails k s = keeperAbort 0x0FA1 s := if_pos second

omit keeper in
theorem ppsFails_first (first : k.second = false) : ppsFails k s = activate { k with second := true } (deactivate s) :=
  if_neg (Bool.eq_false_iff.mp first)

section
variable {req : Bytes} (stage : k.stage = .pps req)
include stage

theorem ppsResponse_same (pair : req.length = 4) : ppsResponse req s = sendIfs k (setPair ((req[2]?).getD 0x11) s) := by
  unfold ppsResponse
  rw [keeper]
  dsimp only
  rw [stage]
  dsimp only
  rw [if_pos rfl, if_pos pair]

theorem ppsResponse_other {r : Bytes} (other : r ≠ req) (full : r ≠ [0xFF, 0x01, 0xFE]) : ppsResponse r s = ppsFails k s := by
  unfold ppsResponse
  rw [keeper]
  dsimp only
  rw [stage]
  dsimp only
  rw [if_neg other, if_neg full]

theorem cardWaitTimeout_pps : cardWaitTimeout s = ppsFails k s := by
  unfold cardWaitTimeout
  rw [keeper]
  dsimp only
  rw [stage]

end

/-! ### Blocks (R414, R415) -/

section
variable (speaks : k.stage = .identity ∨ k.stage = .authorise ∨ k.stage = .ifs)
include speaks

theorem cardBlockTimeout_speaking : cardBlockTimeout s = blockError k false s := by
  unfold cardBlockTimeout
  rw [keeper]
  dsimp only
  rcases speaks with stage | stage | stage <;> rw [stage]

/-- While a command is spoken, a block goes by its form, by a resynchronisation that waits, and by its kind. -/
theorem cardBlock_speaking (b : Bytes) :
    cardBlock b s =
      if t1Good b = false then blockError k (t1Long b && xorSum b != 0) s
      else if k.resyncing then (if t1Pcb b = 0xE0 ∧ t1Inf b = [] then resynced k s else resynch k s)
      else if (t1Pcb b).getLsbD 7 = false then takeI k (t1Pcb b) (t1Inf b) s
      else if (t1Pcb b).getLsbD 6 then takeS k (t1Pcb b) (t1Inf b) s
      else takeR k (t1Pcb b) (t1Inf b) s := by
  unfold cardBlock
  rw [keeper]
  dsimp only
  rcases speaks with stage | stage | stage <;>
  · rw [stage]
    exact if_neg (by decide)

theorem cardBlock_bad {b : Bytes} (bad : t1Good b = false) : cardBlock b s = blockError k (t1Long b && xorSum b != 0) s :=
  (cardBlock_speaking keeper speaks b).trans (if_pos bad)

section
variable {b : Bytes} (good : t1Good b = true) (synced : k.resyncing = false)
include good synced

/-- A good block outside a resynchronisation goes by its kind. -/
theorem cardBlock_good :
    cardBlock b s =
      if (t1Pcb b).getLsbD 7 = false then takeI k (t1Pcb b) (t1Inf b) s
      else if (t1Pcb b).getLsbD 6 then takeS k (t1Pcb b) (t1Inf b) s
      else takeR k (t1Pcb b) (t1Inf b) s :=
  (cardBlock_speaking keeper speaks b).trans ((if_neg (by simp [good])).trans (if_neg (Bool.eq_false_iff.mp synced)))

theorem cardBlock_information (kind : (t1Pcb b).getLsbD 7 = false) : cardBlock b s = takeI k (t1Pcb b) (t1Inf b) s :=
  (cardBlock_good keeper speaks good synced).trans (if_pos kind)

theorem cardBlock_receipt (notI : (t1Pcb b).getLsbD 7 = true) (kind : (t1Pcb b).getLsbD 6 = false) :
    cardBlock b s = takeR k (t1Pcb b) (t1Inf b) s :=
  (cardBlock_good keeper speaks good synced).trans ((if_neg (by simp only [notI, Bool.true_eq_false, not_false_eq_true])).trans
    (if_neg (Bool.eq_false_iff.mp kind)))

theorem cardBlock_supervisory (notI : (t1Pcb b).getLsbD 7 = true) (kind : (t1Pcb b).getLsbD 6 = true) :
    cardBlock b s = takeS k (t1Pcb b) (t1Inf b) s :=
  (cardBlock_good keeper speaks good synced).trans ((if_neg (by simp only [notI, Bool.true_eq_false, not_false_eq_true])).trans
    (if_pos kind))

end

end

/-! ### The tile that verifies a signature (R419) -/

section
variable {auth : Bool} (stage : k.stage = .checking auth)
include stage

theorem cardBlock_checking (b : Bytes) : cardBlock b s = s := by
  unfold cardBlock
  rw [keeper]
  dsimp only
  rw [stage]
  exact if_pos rfl

section
variable {u : BitVec 6} (onTile : k.unit = some u)
include onTile

theorem tickKeeper_done (done : k.doneAt ≤ s.clock.us) :
    let k' : KeeperRun := { k with unit := none, faults := 0, avoid := none }
    tickKeeper s = checkDone auth k' (setKeeper k' (leaveKeeper s)) := by
  unfold tickKeeper
  rw [keeper]
  dsimp only
  rw [stage, onTile]
  exact if_pos done

theorem tickKeeper_works (works : s.clock.us < k.doneAt) : tickKeeper s = s := by
  unfold tickKeeper
  rw [keeper]
  dsimp only
  rw [stage, onTile]
  exact if_neg (Nat.not_le.mpr works)

end

section
variable (waits : k.unit = none)
include waits

theorem tickKeeper_takes {t : Nat} {ts : List Nat} (places : placing s = true) (tiles : checkTiles s k = t :: ts) :
    tickKeeper s = takeCheck auth k t s := by
  unfold tickKeeper
  rw [keeper]
  dsimp only
  rw [stage, waits]
  dsimp only
  rw [if_pos places, tiles]

theorem tickKeeper_waits (tiles : checkTiles s k = []) : tickKeeper s = s := by
  unfold tickKeeper
  rw [keeper]
  dsimp only
  rw [stage, waits]
  dsimp only
  rw [tiles]
  exact ite_self s

end

end

end

/-! ### The archive socket (R422, R427) -/

theorem arcInsert_empty (c : ArcCard) (empty : s.cards.arcCard = none) :
    let bs : Tab Bytes := c.blocks.foldl (fun t w => Tab.set (zeros 512) w.1 (fit 512 w.2) t) []
    arcInsert c s =
      { s with cards := { s.cards with arcCard := some { c with blocks := bs }, arcGiven := 0, cint := s.cards.cint ||| 0x10 } } :=
  if_neg (by simp [empty])

theorem arcRemove_present (present : s.cards.arcCard.isSome = true) :
    let t := arcJobEnds 0x0FB6 archiveOps s
    arcRemove s = { t with cards := { t.cards with arcCard := none, arcMount := none, cint := t.cards.cint ||| 0x20 } } :=
  if_neg (by simpa [Option.isNone_iff_eq_none, Option.isSome_iff_ne_none] using present)

section
variable {x : Job} (runs : s.jobs.find? (fun y => y.phase = .running ∧ archiveOps.contains y.desc.opcode.toNat) = some x)
include runs

theorem arcJobEnds_runs {d : BitVec 16} {only : List Nat} (ends : only.contains x.desc.opcode.toNat = true) :
    arcJobEnds d only s = breakJob s x stAborted d := by
  unfold arcJobEnds
  rw [runs]
  exact if_pos ends

theorem arcBusyTimeout_runs {w : ArcWork} (works : s.cards.arcWork = some w) (writes : w.writes ≠ [])
    (ends : archiveOps.contains x.desc.opcode.toNat = true) : arcBusyTimeout s = breakJob s x stAborted 0x0FB7 := by
  unfold arcBusyTimeout
  rw [works]
  dsimp only
  rw [if_neg (by simpa using writes), arcJobEnds_runs runs ends]

theorem arcReadyTimeout_runs (unmounted : s.cards.arcMount = none) (starts : x.desc.opcode = 0x0F68 ∨ x.desc.opcode = 0x0F69) :
    arcReadyTimeout s = breakJob s x stAborted 0x0FB2 := by
  have ends : [0x0F68, 0x0F69].contains x.desc.opcode.toNat = true := by rcases starts with h | h <;> rw [h] <;> decide
  unfold arcReadyTimeout
  rw [if_neg (by simp [unmounted]), arcJobEnds_runs runs ends]

end

/-! ### The statement -/

/-- Settles O29: the keeper's events by the stage of its exchange, and the archive's by the job that runs. -/
theorem cardEventsTakeEffect : Obligations.CardEventsTakeEffect := by
  refine ⟨fun s => ⟨fun empty => congrArg (act s) (keeperInsert_empty empty), fun present => congrArg (act s) (keeperRemove_present present),
      fun q session ended => congrArg (act s) (sessionExpiry_over session ended),
      fun q session lasts => congrArg (act s) (sessionExpiry_lasts session lasts),
      fun k keeper => ⟨fun a stage => ?atr, fun req stage => ?pps, fun stage => congrArg (act s) (cardWaitTimeout_atr keeper stage),
        fun speaks => ?blocks, fun auth stage => ?checking⟩⟩,
    fun s => ⟨fun c empty => congrArg (act s) (arcInsert_empty c empty), fun present => congrArg (act s) (arcRemove_present present),
      fun x runs => ⟨fun w works writes ends => congrArg (act s) (arcBusyTimeout_runs runs works writes ends),
        fun unmounted starts => congrArg (act s) (arcReadyTimeout_runs runs unmounted starts)⟩⟩⟩
  case atr =>
    refine ⟨fun refused => congrArg (act s) (atrReceive_refused keeper stage refused),
      fun t parsed second => congrArg (act s) (atrReceive_second keeper stage parsed second), fun t parsed first => ?_⟩
    exact ⟨fun specific ok => congrArg (act s) ((atrReceive_specific keeper stage parsed first specific).trans (if_pos ok)),
      fun specific bad => congrArg (act s)
        ((atrReceive_specific keeper stage parsed first specific).trans (if_neg (Bool.eq_false_iff.mp bad))),
      fun negotiable => congrArg (act s) (atrReceive_negotiable keeper stage parsed first negotiable)⟩
  case pps =>
    exact ⟨fun pair => congrArg (act s) (ppsResponse_same keeper stage pair),
      fun r other full second => congrArg (act s) ((ppsResponse_other keeper stage other full).trans (ppsFails_again second)),
      fun r other full first => congrArg (act s) ((ppsResponse_other keeper stage other full).trans (ppsFails_first first)),
      fun second => congrArg (act s) ((cardWaitTimeout_pps keeper stage).trans (ppsFails_again second)),
      fun first => congrArg (act s) ((cardWaitTimeout_pps keeper stage).trans (ppsFails_first first))⟩
  case blocks =>
    exact ⟨congrArg (act s) (cardBlockTimeout_speaking keeper speaks), fun b bad => congrArg (act s) (cardBlock_bad keeper speaks bad),
      fun b good synced kind => congrArg (act s) (cardBlock_information keeper speaks good synced kind),
      fun b good synced notI kind => congrArg (act s) (cardBlock_receipt keeper speaks good synced notI kind),
      fun b good synced notI kind => congrArg (act s) (cardBlock_supervisory keeper speaks good synced notI kind)⟩
  case checking =>
    exact ⟨fun b => congrArg (act s) (cardBlock_checking keeper stage b), fun u onTile done => tickKeeper_done keeper stage onTile done,
      fun u onTile works => tickKeeper_works keeper stage onTile works,
      fun t ts waits places tiles => tickKeeper_takes keeper stage waits places tiles,
      fun waits tiles => tickKeeper_waits keeper stage waits tiles⟩

end Sys2Proof.Machine
end

section
/-! SUPPORT. Prokai Link up to its session (R434 to R436, R445, R446): training, the time limits of the handshake, and the step that
each side takes; and from them the statement about training and the handshake. -/
namespace Sys2Proof.Machine

variable {s : State}

/-! ### The commit of a link command (R445) -/

theorem linkCommit_refused (zero : s.links.beatsShadow = 0) :
    linkCommit s = linkInt 16 { s with links := { s.links with commitDetail := 0x0FCA } } := if_pos zero

theorem linkCommit_taken (beats : s.links.beatsShadow ≠ 0) :
    linkCommit s = [0#2, 1#2, 2#2].foldl readmit { s with links := { s.links with
      commitDetail := 0, spill := s.links.spillShadow, spillBeats := s.links.beatsShadow, allow := s.links.allowShadow } } :=
  if_neg beats

theorem retrain_ready (k : BitVec 2) (ready : s.dev.phase = .ready) : retrain k s = dropLink k .training s := if_pos ready

/-! ### Training and the time limits (R434 to R436) -/

section
variable {k : BitVec 2} {l : Link} (link : s.link k = some l)
include link

theorem linkTrainAttempt_down (ready : s.dev.phase = .ready) (down : l.state = .down) :
    linkTrainAttempt k s = s.setLink k (bareLink l .training) := by
  unfold linkTrainAttempt
  rw [link]
  exact if_pos ⟨ready, down⟩

section
variable {n : BitVec 3} (ready : s.dev.phase = .ready) (trains : l.state = .training ∨ l.state = .refused)
include ready trains

/-- On a part that is ready, the end of a training goes by the number of lanes. -/
theorem linkTrainingComplete_ready :
    let u := s.setLink k { l with state := .handshake, step := 0, lanes := if n = 4 then 2 else 1 }
    linkTrainingComplete k n s =
      if n ≠ 4 ∧ n ≠ 2 then (if l.state = .refused then s else s.setLink k { l with state := .down })
      else if initiates u k then sendStep1 k u else u := by
  have due : ¬((l.state ≠ .training ∧ l.state ≠ .refused) ∨ s.dev.phase ≠ .ready) :=
    not_or.mpr ⟨fun h => trains.elim h.1 h.2, not_not_intro ready⟩
  unfold linkTrainingComplete
  rw [link]
  exact if_neg due

theorem linkTrainingComplete_few (not4 : n ≠ 4) (not2 : n ≠ 2) :
    linkTrainingComplete k n s = if l.state = .refused then s else s.setLink k { l with state := .down } :=
  (linkTrainingComplete_ready link ready trains).trans (if_pos ⟨not4, not2⟩)

theorem linkTrainingComplete_trained (lanes : n = 4 ∨ n = 2) :
    let u := s.setLink k { l with state := .handshake, step := 0, lanes := if n = 4 then 2 else 1 }
    linkTrainingComplete k n s = if initiates u k then sendStep1 k u else u :=
  (linkTrainingComplete_ready link ready trains).trans (if_neg fun few => lanes.elim few.1 few.2)

end

theorem handshakeTimeout_due (due : l.state = .handshake ∨ (l.state = .up ∧ l.rekeying = true)) :
    handshakeTimeout k s = refuseLink k 0x0FC9 (peerPart s k) l.peerUid s := by
  unfold handshakeTimeout
  rw [link]
  exact if_pos due

theorem sessionRekey_up (up : l.state = .up) (rests : l.rekeying = false) :
    let u := s.setLink k { l with rekeying := true, step := 0 }
    sessionRekey k s = if initiates u k then sendStep1 k u else u := by
  unfold sessionRekey
  rw [link]
  exact if_neg (by simp [up, rests])

end

/-! ### The message of a handshake (R435, R446) -/

section
variable {k : BitVec 2} {m : HandshakeMsg} {l : Link} (link : (countRx k s).link k = some l) (shaking : l.state = .handshake)
include link shaking

theorem handshakeMessage_initiator (initiator : initiates (countRx k s) k = true) :
    handshakeMessage k m s =
      if m.step = 2 ∧ l.step = 1 then takeStep2 k l m (countRx k s) else strayMessage k m (countRx k s) := by
  unfold handshakeMessage
  dsimp only
  rw [link]
  dsimp only
  rw [if_neg (fun h => h.1 shaking), if_pos initiator, if_pos shaking]

theorem handshakeMessage_responder (responder : initiates (countRx k s) k = false) :
    handshakeMessage k m s =
      if m.step = 1 ∧ l.step = 0 then takeStep1 k { l with rekeying := false } m (countRx k s)
      else if m.step = 3 ∧ l.step = 2 then takeStep3 k l m (countRx k s)
      else strayMessage k m (countRx k s) := by
  have notUp : l.state ≠ .up := by simp [shaking]
  unfold handshakeMessage
  dsimp only
  rw [link]
  dsimp only
  rw [if_neg (fun h => h.1 shaking), if_neg (Bool.eq_false_iff.mp responder), if_pos shaking, beq_false_of_ne notUp]
  simp only [notUp, false_or]

end

theorem strayMessage_bad {k : BitVec 2} {m : HandshakeMsg} {d : BitVec 16} (identifies : m.step ≠ 3) (bad : peerBad s k m = some d) :
    strayMessage k m s = refuseLink k d m.linkId (readUid d m) s := by
  unfold strayMessage
  rw [if_neg identifies, bad]

theorem strayMessage_good {k : BitVec 2} {m : HandshakeMsg} (good : m.step = 3 ∨ peerBad s k m = none) : strayMessage k m s = s := by
  have none : (if m.step = 3 then none else peerBad s k m) = none := ite_eq_left_iff.mpr fun identifies => good.resolve_left identifies
  unfold strayMessage
  rw [none]

/-! ### The statement -/

/-- Settles O30: the commands and the training by the state of the link, and a message by the side of the handshake that receives it. -/
theorem linksTrainAndHandshake : Obligations.LinksTrainAndHandshake := by
  refine ⟨fun s k => ⟨fun w zero => (hostAct_open w _).trans (congrArg (act s) (linkCommit_refused zero)),
      fun w beats => (hostAct_open w _).trans (congrArg (act s) (linkCommit_taken beats)),
      fun w ready => (hostAct_open w _).trans (congrArg (act s) (retrain_ready k ready)),
      fun l link => ⟨fun ready down => congrArg (act s) (linkTrainAttempt_down link ready down), fun n ready trains => ?training,
        fun due => congrArg (act s) (handshakeTimeout_due link due), fun up rests => ?rekey⟩⟩,
    fun s k m l link shaking => ⟨fun initiator second sent => congrArg (act s)
        ((handshakeMessage_initiator link shaking initiator).trans (if_pos ⟨second, sent⟩)),
      fun initiator notDue => ?stray,
      fun responder first fresh => congrArg (act s) ((handshakeMessage_responder link shaking responder).trans (if_pos ⟨first, fresh⟩)),
      fun responder third sent => congrArg (act s) ?third⟩⟩
  case training =>
    exact ⟨fun not4 not2 training => congrArg (act s)
        ((linkTrainingComplete_few link ready trains not4 not2).trans (if_neg (by simp [training]))),
      fun not4 not2 refused => congrArg (act s) ((linkTrainingComplete_few link ready trains not4 not2).trans (if_pos refused)),
      fun lanes initiator => congrArg (act s) ((linkTrainingComplete_trained link ready trains lanes).trans (if_pos initiator)),
      fun lanes responder => congrArg (act s)
        ((linkTrainingComplete_trained link ready trains lanes).trans (if_neg (Bool.eq_false_iff.mp responder)))⟩
  case rekey =>
    exact ⟨fun initiator => congrArg (act s) ((sessionRekey_up link up rests).trans (if_pos initiator)),
      fun responder => congrArg (act s) ((sessionRekey_up link up rests).trans (if_neg (Bool.eq_false_iff.mp responder)))⟩
  case stray =>
    have stray : handshakeMessage k m s = strayMessage k m (countRx k s) :=
      (handshakeMessage_initiator link shaking initiator).trans (if_neg fun due => notDue.elim (· due.1) (· due.2))
    exact ⟨fun d identifies bad => congrArg (act s) (stray.trans (strayMessage_bad identifies bad)),
      fun good => congrArg (act s) (stray.trans (strayMessage_good good))⟩
  case third =>
    have notFirst : ¬(m.step = 1 ∧ l.step = 0) := by simp [third]
    exact (handshakeMessage_responder link shaking responder).trans ((if_neg notFirst).trans (if_pos ⟨third, sent⟩))

end Sys2Proof.Machine
end

section
/-! SUPPORT. Prokai Link while it is UP (R437 to R443): heartbeats and loads, the jobs and results that cross it, and the messages
about flows and their standbys; and from them the statement about UP links. -/
namespace Sys2Proof.Machine

variable {s : State}

/-! ### Heartbeats and loads (R437, R440) -/

section
variable {k : BitVec 2} (up : linkUp s k = true)
include up

theorem heartbeatSend_up : heartbeatSend k s = sendLink k 5 [] s := if_pos up

theorem peerLost_up : peerLost k s = dropLink k .down s := if_pos up

section
variable {l : Link} (link : (countRx k s).link k = some l)
include link

theorem heartbeatReceive_heartbeat : heartbeatReceive k .heartbeat true s = countRx k s := by
  unfold heartbeatReceive
  rw [if_neg (ne_false_of_eq_true up)]
  dsimp only
  rw [link]
  exact if_neg Bool.noConfusion

theorem heartbeatReceive_load (beats : List (BitVec 32)) (full : Bool) :
    heartbeatReceive k (.load beats full) true s = (countRx k s).setLink k { l with load := beats.take 6, loadFull := full } := by
  unfold heartbeatReceive
  rw [if_neg (ne_false_of_eq_true up)]
  dsimp only
  rw [link]
  exact if_neg Bool.noConfusion

theorem heartbeatReceive_badTag (m : LinkMsg) :
    heartbeatReceive k m false s = dropLink k .down ((countRx k s).setLink k { l with tagFail := satAdd l.tagFail 1 }) := by
  unfold heartbeatReceive
  rw [if_neg (ne_false_of_eq_true up)]
  dsimp only
  rw [link]
  exact if_pos rfl

end

/-! ### Jobs of a peer (R438, R440, R441) -/

omit up in
theorem takeJob_new {x : Job} (new : s.job x.id = none) : takeJob x s = { s with jobs := s.jobs ++ [x] } :=
  if_neg (by simp [new])

variable {n : BitVec 32} {p : BitVec 8} {d : Desc} {input aux : List Byte}

theorem jobForwardReceive_up :
    jobForwardReceive k n p d input aux s = takeJob (peerJob k 0 n p d input aux) (countRx k s) := if_pos up

/-- An UP link's spilled job is taken with the keys that open, unless the part cannot hold it. -/
theorem spillReceive_taken {key : List Byte} {ks : List (BitVec 32 × Key)} (unlocked : (countRx k s).locked = false)
    (room : spilledIn (countRx k s) < 1024) (opened : openKeys (countRx k s) k n 2 key = some ks) :
    spillReceive k n p d input aux key s =
      takeJob { peerJob k 1 n p d input aux with spilled := true, lent := ks } (countRx k s) := by
  unfold spillReceive
  rw [if_neg (ne_false_of_eq_true up)]
  dsimp only
  rw [if_neg (by simp [unlocked, room]), opened]

theorem spillReceive_returned {key : List Byte}
    (cannot : (countRx k s).locked = true ∨ 1024 ≤ spilledIn (countRx k s) ∨ openKeys (countRx k s) k n 2 key = none) :
    spillReceive k n p d input aux key s = returnLost { peerJob k 1 n p d input aux with spilled := true } (countRx k s) := by
  unfold spillReceive
  rw [if_neg (ne_false_of_eq_true up)]
  dsimp only
  by_cases full : (countRx k s).locked ∨ 1024 ≤ spilledIn (countRx k s)
  · exact if_pos full
  · rw [if_neg full, (or_assoc.mpr cannot).resolve_left full]

end

/-! ### Results of a peer (R438, R439, R441, R446) -/

section
variable {j : JobId} {r : PeerResult} {x : Job} {k : BitVec 2} (job : s.job j = some x) (forwarded : x.forwarded = some k)
  (running : x.phase = .running) (waits : x.out = none)
include job forwarded running waits

theorem jobForwardResult_forwarded (alone : x.spilled = false) :
    jobForwardResult j r s =
      if x.desc.opcode = 0x0F20 ∧ r.status ≠ stOk then allocElsewhere x k (countRx k s)
      else (countRx k s).setJob { x with out := some (peerOut r) } := by
  unfold jobForwardResult
  rw [job]
  dsimp only
  rw [forwarded]
  exact if_neg (by simp [alone, running, waits])

theorem spillResult_spilled (spilled : x.spilled = true) :
    spillResult j r s =
      if r.status = stAborted ∧ r.detail = 0x0FC0 then lostAt k (countRx k s) x
      else (countRx k s).setJob { x with out := some (peerOut r) } := by
  unfold spillResult
  rw [job]
  dsimp only
  rw [forwarded]
  exact if_neg (by simp [spilled, running, waits])

end

/-! ### Flows and their standbys (R443) -/

theorem flowMirrorUpdate_up {k : BitVec 2} (up : linkUp s k = true) (m : FlowMsg) :
    flowMirrorUpdate k m s = flowMirror k m (countRx k s) := if_pos up

section
variable {k : BitVec 2} {home i : BitVec 14} (standby : standbyOf s (peerPart s k) home = some i)
include standby

theorem flowMirror_state (image : Bytes) : flowMirror k (.state home image) s = changeFlow i (withImage s.clock.us image) s := by
  unfold flowMirror
  dsimp only
  rw [standby]

theorem flowMirror_gone : flowMirror k (.gone home) s = s.setCtx i none := by
  unfold flowMirror
  dsimp only
  rw [standby]

end

/-! ### The statement -/

/-- Settles O31: what an UP link sends and takes, by the kind of the message. -/
theorem upLinksCarryTheirMessages : Obligations.UpLinksCarryTheirMessages := by
  refine ⟨fun s k => ⟨rfl, fun up => ⟨congrArg (act s) (heartbeatSend_up up), congrArg (act s) (peerLost_up up), fun l link => ?heart⟩⟩,
    fun s k n p d input aux up => ⟨fun new => congrArg (act s) ((jobForwardReceive_up up).trans (takeJob_new new)),
      fun key ks unlocked room opened new => congrArg (act s) ((spillReceive_taken up unlocked room opened).trans (takeJob_new new)),
      fun key cannot => congrArg (act s) (spillReceive_returned up cannot)⟩,
    fun s j r x k job forwarded running waits => ?results, fun s k home up => ?flows⟩
  case heart =>
    exact ⟨congrArg (act s) (heartbeatReceive_heartbeat up link),
      fun beats full => congrArg (act s) (heartbeatReceive_load up link beats full),
      fun m => congrArg (act s) (heartbeatReceive_badTag up link m)⟩
  case results =>
    refine ⟨fun alone alloc fails => congrArg (act s)
        ((jobForwardResult_forwarded job forwarded running waits alone).trans (if_pos ⟨alloc, fails⟩)),
      fun alone stands => congrArg (act s) ((jobForwardResult_forwarded job forwarded running waits alone).trans (if_neg ?_)),
      fun spilled answered => congrArg (act s) ((spillResult_spilled job forwarded running waits spilled).trans (if_neg ?_)),
      fun spilled aborted lost => congrArg (act s)
        ((spillResult_spilled job forwarded running waits spilled).trans (if_pos ⟨aborted, lost⟩))⟩
    · exact fun asksAgain => stands.elim (· asksAgain.1) asksAgain.2
    · exact fun lost => answered.elim (· lost.1) (· lost.2)
  case flows =>
    have mirrored (m : FlowMsg) : flowMirrorUpdate k m s = flowMirror k m (countRx k s) := flowMirrorUpdate_up up m
    exact ⟨fun p => congrArg (act s) (mirrored (.ask home p)), congrArg (act s) (mirrored (.denied home)),
      fun image i standby => ⟨congrArg (act s) ((mirrored (.state home image)).trans (flowMirror_state standby image)),
        congrArg (act s) ((mirrored (.gone home)).trans (flowMirror_gone standby))⟩,
      congrArg (act s) (mirrored (.ended home))⟩

end Sys2Proof.Machine
end
